-- ==== Sys2Proof/Word.lean ====
section
/-! DEFINITION. The machine words of the SX4: bytes, 64-bit words, and their plainest arithmetic. -/

namespace Sys2Proof

/-- A 64-bit machine word: a scalar register, an address, an instruction (R13, R65). -/
abbrev Word := BitVec 64

/-- One byte of memory. -/
abbrev Byte := BitVec 8

/-- The name of a scalar register s0–s63. -/
abbrev SR := Fin 64

/-- The name of a vector register v0–v31. -/
abbrev VR := Fin 32

/-- The name of an accumulator z0–z3. -/
abbrev ZR := Fin 4

/-- The name of a hand-off queue q0–q3. -/
abbrev QR := Fin 4

/-- The name of a barrier b0–b15. -/
abbrev BR := Fin 16

end Sys2Proof
end

