-- ==== Sys2Proof/Config.lean ====
section
/-! DEFINITION. What the manual leaves open: the free values, none of which has a body (log 3). -/

namespace Sys2Proof.Config

/-- An unpredictable value (R9), drawn by the counter State.free. DESIGN CHOICE, log 3. -/
opaque freeWord : Nat → Word

/-- An unpredictable byte (R9), drawn by the counter State.free. DESIGN CHOICE, log 3. -/
opaque freeByte : Nat → Byte

/-- A choice between two outcomes the manual allows, drawn by the counter State.free. DESIGN CHOICE, log 3. -/
opaque freeBool : Nat → Bool

/-- How many units in the last place the special-function engine's fixed algorithm lies from the correctly
rounded FP32 result, for a function code and an FP32 argument (R203 fixes only a bound). DESIGN CHOICE, log 5. -/
opaque sfeOffset : Nat → BitVec 32 → Int

/-- The hash of a physical address's bits 40:13 that picks the slice of an unpinned line, for a number of slices (R292):
fixed per firmware revision. DESIGN CHOICE, log 3. -/
opaque sliceHash : Nat → Nat → Nat

/-- The bytes of a partition's pre-emption pool, which firmware sets aside in LPDDR-5X (R256, R332). DESIGN CHOICE, log 12. -/
opaque poolBytes : Nat → Nat

/-- The version of the Strideform translator (R267), 32 bits: the host's, when that translates (R357), or the Pacer's. DESIGN CHOICE,
log 68. -/
opaque translatorVersion (host : Bool) : BitVec 32

/-- The firmware's microcode revision (R267), 32 bits. DESIGN CHOICE, log 68. -/
opaque microcodeRevision : BitVec 32

/-- The feature vector (R267) of a core class, true for the M-cores, with the lane map and the column map it summarises.
DESIGN CHOICE, log 68. -/
opaque featureVector : Bool → List Byte → List Byte → Word

/-- The strip cap the translator, the host's or the Pacer's, chooses for an image, by its number, where the kernel states none (R266);
0 is no cap. DESIGN CHOICE, log 68. -/
opaque stripCap (host : Bool) (n : Nat) : BitVec 16

/-- The public key of the module's fused identity (R353). -/
opaque identityKey : List Byte

/-- The signature of the module's fused identity key over bytes (R353): r and s, 132 bytes. -/
opaque signature : List Byte → List Byte

end Sys2Proof.Config
end

