-- ==== Sys2Proof/Syntax.lean ====
section
/-! DEFINITION. Instructions of the SX4 and the events of its opcode table, with every operand form (R59–R69). -/

namespace Sys2Proof

/-- Operand B of an integer instruction: s[sb] or a sign-extended immediate (R69, R72 OPB). -/
inductive OpB where
  | reg (r : SR)
  | imm (i : BitVec 32)
  deriving DecidableEq, Repr

/-- The formats of scalar floating point, FN[2:0] of FALU (R68, R77). -/
inductive FFmt where
  | f32 | f64 | bf16 | f16
  deriving DecidableEq, Repr

/-- A source of FCVT (R69, R79). -/
inductive CvtSrc where
  | fp (f : FFmt) | i64 | u64
  deriving DecidableEq, Repr

/-- A destination of FCVT (R69, R79). -/
inductive CvtDst where
  | fp (f : FFmt) | i64 | u64
  deriving DecidableEq, Repr

/-- The access sizes of LD, with the extension they make (R68, R83). -/
inductive LSize where
  | b | bu | h | hu | w | wu | d
  deriving DecidableEq, Repr

/-- The access sizes of ST (R68, R84). -/
inductive SSize where
  | b | h | w | d
  deriving DecidableEq, Repr

/-- SCOPE (R66, R270). -/
inductive Scope where
  | runner | core | team | die | package | system
  deriving DecidableEq, Repr

/-- ORD (R66). -/
inductive Order where
  | plain | acquire | release | both
  deriving DecidableEq, Repr

/-- HINT of format M (R66, R153). -/
inductive Hint where
  | threshold | stream | keep
  deriving DecidableEq, Repr

/-- The kinds of FENCE (R103). -/
inductive FenceKind where
  | sv | vs | vv | all
  deriving DecidableEq, Repr

/-- The conditions of WAITW (R69, R190). -/
inductive WCond where
  | eq | ne | ge | lt | geu | ltu
  deriving DecidableEq, Repr

/-- The kinds of leased engine (R4, R198). -/
inductive Kind where
  | sfe | sxe | cle
  deriving DecidableEq, Repr

/-- A vector mask operand: MK and MN (R66). -/
structure Mask where
  reg : Fin 8 := 0
  neg : Bool := false
  deriving DecidableEq, Repr

/-- The modifiers of a format V word: convoy, chain bits, mask (R66). -/
structure VMod where
  cv : Bool := false
  ca : Bool := false
  cb : Bool := false
  cc : Bool := false
  mask : Mask := {}
  deriving DecidableEq, Repr

/-- Operand b of a format V word: a vector register, or the scalar s[ss] with BS = 1 (R66, R47). -/
inductive VB where
  | vec (r : VR)
  | scal (r : SR)
  deriving DecidableEq, Repr

/-- The modifiers of a format M word (R66). -/
structure MMod where
  cv : Bool := false
  ca : Bool := false
  mask : Mask := {}
  ord : Order := .plain
  scope : Scope := .runner
  hint : Hint := .threshold
  deriving DecidableEq, Repr

/-- The latches la0, la1, lb0, lb1 (R66, LT of a load). -/
inductive Latch where
  | la0 | la1 | lb0 | lb1
  deriving DecidableEq, Repr

/-- The output format field of TST (R178). -/
inductive OutFmt where
  | acc | bf16 | fp16 | fp32
  deriving DecidableEq, Repr

/-- Stochastic rounding operands of TST and TSTV: the register with row0 and col0, and d (R69, R178). -/
structure SrArg where
  reg : SR
  d : BitVec 24
  deriving DecidableEq, Repr

/-! ### Names of the parts of the module, as events name them -/

/-- A runner: partition, heat identifier, team, runner index (R11, R24). -/
structure RunnerId where
  part : Nat := 0
  heat : Nat := 0
  team : Nat := 0
  runner : Nat := 0
  deriving DecidableEq, Repr

/-- A team: partition, heat identifier, team index. -/
structure TeamId where
  part : Nat := 0
  heat : Nat := 0
  team : Nat := 0
  deriving DecidableEq, Repr

/-- A core: C-die, cluster of the die (0–13 M, 14–17 E), core of the cluster (R2, R4). -/
structure CoreId where
  die : Nat := 0
  cluster : Nat := 0
  core : Nat := 0
  deriving DecidableEq, Repr

/-- A leased engine or a matrix unit octant of a cluster (R4, R217, R313). -/
inductive EngineKind where
  | lease (k : Kind)
  | octant
  deriving DecidableEq, Repr

/-- One engine: its cluster, its kind and its number in the cluster (R4). -/
structure EngineId where
  die : Nat := 0
  cluster : Nat := 0
  kind : EngineKind := .octant
  idx : Nat := 0
  deriving DecidableEq, Repr

/-! ### What the host, the carrier and the peers hand over -/

/-- The progress classes (R255). -/
inductive PClass where
  | concurrent | parallel | weak
  deriving DecidableEq, Repr

/-- The kinds of a loop level (R249). -/
inductive LevelKind where
  | d | c | t
  deriving DecidableEq, Repr

/-- One loop-table level: kind and extent (R249). -/
structure Level where
  kind : LevelKind := .c
  extent : Nat := 1
  deriving DecidableEq, Repr

/-- A split of the core pool: VLEN in bytes and TCM in KiB (R27). -/
structure Split where
  vlen : Nat := 128
  tcmKiB : Nat := 32
  deriving DecidableEq, Repr

/-- The direction of a Strideform stream (R266). -/
inductive SfDir where
  | read | write | both
  deriving DecidableEq, Repr

/-- A stream of a Strideform kernel (R266): where the argument block holds its base, its extents and byte strides, innermost
first, its tag, its direction, and the vector register the body names it by. -/
structure SfStream where
  base : Nat := 0
  ext : List Nat := []
  str : List Int := []
  tag : Byte := 0
  dir : SfDir := .read
  reg : VR := 0
  deriving DecidableEq, Repr

/-- A heat descriptor of a meet (R263), with its kernel's entry and handler, the Strideform kernel it runs instead of a
native image, if it does, and its place in the launch graph. -/
structure HeatDesc where
  entry : Word := 0
  strideform : Option Nat := none
  handler : Option Word := none
  loops : List Level := []
  cores : Nat := 1
  perCore : Nat := 1
  cls : PClass := .weak
  prio : Nat := 3
  det : Bool := false
  splitM : Option Split := none
  splitE : Option Split := none
  scratch : Nat := 0
  dsmWays : Nat := 0
  barcnt : List Nat := []
  preds : List Nat := []
  launched : Bool := false
  deriving DecidableEq, Repr

/-- A pinned region of a memory plan (R263, R285), with its initial image. -/
structure Pinned where
  base : Nat := 0
  size : Nat := 0
  die : Nat := 0
  slice : Nat := 0
  image : List Byte := []
  deriving DecidableEq, Repr

/-- A DSM region of a memory plan (R263, R294): the heat it is for, by number, its offset in that heat's DSM, its size and
alignment, its initial image on every die. -/
structure DsmRegion where
  heat : Nat := 0
  base : Nat := 0
  size : Nat := 0
  align : Nat := 1
  image : List Byte := []
  deriving DecidableEq, Repr

/-- A distributed region of a memory plan (R305): number, size, block exponent, owner of each block, and the physical
address the loader puts the owner table at. -/
structure Region where
  num : Nat := 0
  size : Nat := 0
  lb : Nat := 16
  owners : List Nat := []
  table : Nat := 0
  deriving DecidableEq, Repr

/-- A Strideform kernel (R266, R267): its bytes as the package holds them, its streams, the words of its body in order, and
the fixed strip cap it states, if it does. -/
structure SfKernel where
  bytes : List Byte := []
  streams : List SfStream := []
  body : List Word := []
  cap : Option Nat := none
  deriving DecidableEq, Repr

/-- A global region of a memory plan (R263): where it lies, its size and alignment, its initial image. -/
structure PlanRegion where
  base : Nat := 0
  size : Nat := 0
  align : Nat := 1
  image : List Byte := []
  deriving DecidableEq, Repr

/-- A certificate of a signing key (R263, log 78): the key, what else it says, and the signature of the next key of the
chain over both. -/
structure Cert where
  key : Nat × Nat := (0, 0)
  body : List Byte := []
  sig : Nat × Nat := (0, 0)
  deriving DecidableEq, Repr

/-- A meet package (R263), as the loader sees it: package version, meet name, numeric behaviour version, the Strideform
kernels, the heat descriptors, the memory plan with the images of its page tables and kernels at physical addresses, the
certificate chain with the signature over the bytes of every section before it, and the bytes of that section. What the loader builds: the root of the page table, the exit stub (R13), the partition's default handler (R247), the
runners' memory, and the room for translated images (R268). -/
structure Package where
  pkgVersion : Nat := 1
  name : List Byte := []
  version : Nat := 3
  kernels : List SfKernel := []
  heats : List HeatDesc := []
  images : List (Nat × List Byte) := []
  globals : List PlanRegion := []
  dsm : List DsmRegion := []
  pinned : List Pinned := []
  regions : List Region := []
  chain : List Cert := []
  sig : Nat × Nat := (0, 0)
  sigBytes : List Byte := []
  ptRoot : Word := 0
  exitStub : Word := 0
  defaultHandler : Word := 0
  runnerMem : Nat := 0
  sfBase : Nat := 0
  deriving DecidableEq, Repr

/-- A partition record (R344), with the keys the partition trusts (R264, log 78). -/
structure PartRecord where
  dies : List Nat := []
  clusters : List (Nat × Nat) := []
  share : Nat := 0
  octcap : Nat := 8
  waymask : List (BitVec 16) := List.replicate 8 0
  modes : BitVec 7 := 0
  prio : Nat := 0
  pasid : BitVec 20 := 0
  hotbase : Nat := 0
  scrubSram : Nat := 3600
  scrubLpddr : Nat := 86400
  fdead : Nat := 2000
  trusted : List (Nat × Nat) := []
  deriving DecidableEq, Repr

/-- The declared cooling modes (R310). -/
inductive CoolMode where
  | coldPlate | immersion | air
  deriving DecidableEq, Repr

/-- What an agent outside the module does to its memory, or this module to an agent's (R269, R304): among the rest a byte of
which only the bits of a mask are written, in one action (R156); a write of bytes that arrive poisoned (R341); an action on a
cache line at its home (R108). A peer may ask for an attestation report (R347, R353); the host may read a VF register (R345) and
a team record of the pre-emption pool (R333). -/
inductive OutAccess where
  | read (addr : Word) (len : Nat)
  | write (addr : Word) (bytes : List Byte)
  | amo (addr : Word) (op : Nat) (size : Nat) (operand compare : Word)
  | merge (addr : Word) (mask byte : Byte)
  | poisoned (addr : Word) (len : Nat)
  | line (addr : Word) (mode : Nat)
  | attest (nonce : List Byte)
  | register (offset : Nat)
  | record (t : TeamId)
  deriving DecidableEq, Repr

/-- How a packed list of accesses ends (R306): all performed, or the failure of the first that did not. -/
inductive ListEnd where
  | all | page | access | poisoned
  deriving DecidableEq, Repr

/-- An answer from outside to one access (R91, R104, R301, R304), or to a packed list: the answers in list order as far as it
was performed, and how it ended (R306). -/
inductive Reply where
  | data (bytes : List Byte)
  | done
  | page
  | access
  | poisoned
  | packed (vals : List (List Byte)) (stop : ListEnd)
  deriving DecidableEq, Repr

/-- The port modes LINKCTL sets (R347). -/
inductive PortMode where
  | relay | eth1600 | eth800
  deriving DecidableEq, Repr

/-- What LINKCTL orders (R346, R347). -/
inductive LinkOrder where
  | mode (m : PortMode)
  | retrain
  | degrade
  deriving DecidableEq, Repr

/-- Where the scheduler's open placement choice puts a team: die, cluster, the cores taken, and where its regions lie in
the physical scratchpad, core pool and die shared memory (R25, R253). -/
structure Place where
  die : Nat := 0
  cluster : Nat := 0
  cores : List Nat := []
  spBase : Nat := 0
  tcmBase : Nat := 0
  dsmBase : Nat := 0
  deriving DecidableEq, Repr

/-- The faults a shakedown found (R351): lanes, columns, and a fault redundancy cannot cover (its category). -/
structure ShakeFaults where
  lanes : List (CoreId × Nat × Nat) := []
  columns : List (Nat × Nat × Nat) := []
  fatal : Nat := 0
  deriving DecidableEq, Repr

/-- Instructions, one constructor for each row of spec/opcode_table.json: the words of R67 and R68, then the
events, which have no word and reach the machine through State.agenda. -/
inductive Instr where
  -- IALU (R73, R74)
  | add (sd sa : SR) (b : OpB)
  | sub (sd sa : SR) (b : OpB)
  | and (sd sa : SR) (b : OpB)
  | or (sd sa : SR) (b : OpB)
  | xor (sd sa : SR) (b : OpB)
  | andn (sd sa : SR) (b : OpB)
  | shl (sd sa : SR) (b : OpB)
  | shr (sd sa : SR) (b : OpB)
  | sar (sd sa : SR) (b : OpB)
  | rol (sd sa : SR) (b : OpB)
  | slt (sd sa : SR) (b : OpB)
  | sltu (sd sa : SR) (b : OpB)
  | seq (sd sa : SR) (b : OpB)
  | sne (sd sa : SR) (b : OpB)
  | min (sd sa : SR) (b : OpB)
  | max (sd sa : SR) (b : OpB)
  | minu (sd sa : SR) (b : OpB)
  | maxu (sd sa : SR) (b : OpB)
  | mul (sd sa : SR) (b : OpB)
  | mulh (sd sa : SR) (b : OpB)
  | mulhu (sd sa : SR) (b : OpB)
  | div (sd sa : SR) (b : OpB)
  | divu (sd sa : SR) (b : OpB)
  | rem (sd sa : SR) (b : OpB)
  | remu (sd sa : SR) (b : OpB)
  | clz (sd sa : SR)
  | ctz (sd sa : SR)
  | popc (sd sa : SR)
  | brev (sd sa : SR)
  | bfx (sd sa : SR) (b : OpB)
  | bfxu (sd sa : SR) (b : OpB)
  | bfi (sd sa : SR) (b : OpB)
  | sel (sd sa : SR) (b : OpB)
  | lih (sd sa : SR) (imm : BitVec 32)
  | addpc (sd : SR) (imm : BitVec 32)
  -- FALU (R78–R80)
  | fadd (f : FFmt) (sd sa sb : SR)
  | fsub (f : FFmt) (sd sa sb : SR)
  | fmul (f : FFmt) (sd sa sb : SR)
  | ffma (f : FFmt) (sd sa sb : SR)
  | fdiv (f : FFmt) (sd sa sb : SR)
  | fsqrt (f : FFmt) (sd sa : SR)
  | fmin (f : FFmt) (sd sa sb : SR)
  | fmax (f : FFmt) (sd sa sb : SR)
  | fcmp (f : FFmt) (sd sa sb : SR) (cond : Fin 8)
  | fcvt (sd sa : SR) (src : CvtSrc) (dst : CvtDst)
  | fclass (f : FFmt) (sd sa : SR)
  -- LD, ST, AMO (R82–R92)
  | ld (size : LSize) (acq : Bool) (scope : Scope) (sd sa : SR) (off : BitVec 32)
  | st (size : SSize) (rel : Bool) (scope : Scope) (sb sa : SR) (off : BitVec 32)
  | amoadd (dbl : Bool) (ord : Order) (scope : Scope) (sd sb sa : SR)
  | amoand (dbl : Bool) (ord : Order) (scope : Scope) (sd sb sa : SR)
  | amoor (dbl : Bool) (ord : Order) (scope : Scope) (sd sb sa : SR)
  | amoxor (dbl : Bool) (ord : Order) (scope : Scope) (sd sb sa : SR)
  | amomin (dbl : Bool) (ord : Order) (scope : Scope) (sd sb sa : SR)
  | amomax (dbl : Bool) (ord : Order) (scope : Scope) (sd sb sa : SR)
  | amominu (dbl : Bool) (ord : Order) (scope : Scope) (sd sb sa : SR)
  | amomaxu (dbl : Bool) (ord : Order) (scope : Scope) (sd sb sa : SR)
  | amoswap (dbl : Bool) (ord : Order) (scope : Scope) (sd sb sa : SR)
  | amocas (dbl : Bool) (ord : Order) (scope : Scope) (sd sb sa : SR)
  | amofadd (ord : Order) (scope : Scope) (sd sb sa : SR)
  -- BR, JMP (R93–R95)
  | beq (sa sb : SR) (off : BitVec 32)
  | bne (sa sb : SR) (off : BitVec 32)
  | blt (sa sb : SR) (off : BitVec 32)
  | bge (sa sb : SR) (off : BitVec 32)
  | bltu (sa sb : SR) (off : BitVec 32)
  | bgeu (sa sb : SR) (off : BitVec 32)
  | jal (sd : SR) (off : BitVec 32)
  | jalr (sd sa : SR) (off : BitVec 32)
  -- CR (R96)
  | rdcr (sd : SR) (cr : BitVec 12)
  | wrcr (cr : BitVec 12) (sa : SR)
  | setcr (sd : SR) (cr : BitVec 12) (sa : SR)
  | clrcr (sd : SR) (cr : BitVec 12) (sa : SR)
  -- SYS (R98–R108)
  | syscall (imm : BitVec 32)
  | brk (imm : BitVec 32)
  | fence (kind : FenceKind) (scope : Scope)
  | tlbinv (sa : SR) (all : Bool)
  | prefetch (sa : SR) (l2only : Bool)
  | cflush (sa : SR) (evict : Bool)
  | cinv (sa : SR) (wholeL1 : Bool)
  -- STRIP, QUEUE (R109, R112)
  | stripBegin (sd sa sb : SR) (cap : BitVec 16)
  | stripNext (sd : SR) (off : BitVec 32)
  | qpop (sd : SR) (q : QR)
  | qpeek (sd : SR) (q : QR)
  | qpush (q : QR) (sa : SR)
  | bq (sd : SR) (q : QR) (off : BitVec 32)
  | bqz (sd : SR) (q : QR) (off : BitVec 32)
  -- VALU (R122–R129)
  | vadd (m : VMod) (vd va : VR) (b : VB)
  | vsub (m : VMod) (vd va : VR) (b : VB)
  | vmul (m : VMod) (vd va : VR) (b : VB)
  | vdiv (m : VMod) (vd va : VR) (b : VB)
  | vmin (m : VMod) (vd va : VR) (b : VB)
  | vmax (m : VMod) (vd va : VR) (b : VB)
  | vfma (m : VMod) (vd va : VR) (b : VB) (vc : VR)
  | vfms (m : VMod) (vd va : VR) (b : VB) (vc : VR)
  | vfnma (m : VMod) (vd va : VR) (b : VB) (vc : VR)
  | vabs (m : VMod) (vd va : VR)
  | vneg (m : VMod) (vd va : VR)
  | vsqrt (m : VMod) (vd va : VR)
  | vand (m : VMod) (vd va : VR) (b : VB)
  | vor (m : VMod) (vd va : VR) (b : VB)
  | vxor (m : VMod) (vd va : VR) (b : VB)
  | vnot (m : VMod) (vd va : VR)
  | vshl (m : VMod) (vd va : VR) (b : VB)
  | vshr (m : VMod) (vd va : VR) (b : VB)
  | vsar (m : VMod) (vd va : VR) (b : VB)
  | vcvt (m : VMod) (vd va : VR)
  | vcvtsr (m : VMod) (vd va vb : VR)
  | vmov (m : VMod) (vd va : VR)
  | vbcast (m : VMod) (vd va : VR) (idx : BitVec 16)
  | vbcastScalar (m : VMod) (vd : VR) (ss : SR)
  | vsel (m : VMod) (vd va : VR) (b : VB) (vc : VR)
  | vtwosum (m : VMod) (vd va : VR) (b : VB)
  | vscalb (m : VMod) (vd va : VR) (b : VB)
  | vqpush (m : VMod) (q : QR) (va : VR) (idx : BitVec 16)
  | vqpop (m : VMod) (vd : VR) (q : QR)
  -- VCMP (R130, R131)
  | vcmp (m : VMod) (vd va : VR) (b : VB) (cond : Fin 12)
  | vmpopc (m : VMod) (q : QR) (va : VR)
  | vmfirst (m : VMod) (q : QR) (va : VR)
  | vmany (m : VMod) (q : QR) (va : VR)
  -- VPERM (R141–R147)
  | vslideup (m : VMod) (vd va : VR) (off : BitVec 16) (ins : Option SR)
  | vslidedn (m : VMod) (vd va : VR) (off : BitVec 16) (ins : Option SR)
  | vperm (m : VMod) (vd va vc : VR) (ins : Option SR)
  | vcompress (m : VMod) (vd va : VR)
  | vexpand (m : VMod) (vd va : VR)
  | vrev (m : VMod) (vd va : VR)
  | vzip (m : VMod) (vd va vb : VR)
  | vunzipe (m : VMod) (vd va vb : VR)
  | vunzipo (m : VMod) (vd va vb : VR)
  | vinsert (m : VMod) (vd : VR) (ss : SR) (idx : BitVec 16)
  -- VRED (R133–R135)
  | vredsum (m : VMod) (vd va : VR)
  | vredmin (m : VMod) (vd va : VR)
  | vredmax (m : VMod) (vd va : VR)
  | vredand (m : VMod) (vd va : VR)
  | vredor (m : VMod) (vd va : VR)
  | vredts (m : VMod) (vd va vb : VR)
  | vscan (m : VMod) (vd va : VR) (op : Fin 5)
  -- VCFG (R136–R140)
  | vcfgw (ss : SR)
  | vcfgwTag (ss : SR) (vd va : VR) (tag : Byte)
  | vtag (vd va : VR) (tag : Byte)
  | vgettag (m : VMod) (q : QR) (va : VR)
  | vidx (m : VMod) (vd : VR) (start : BitVec 16) (step : BitVec 10)
  | vsetvl (ss : SR) (cap : BitVec 16)
  | vsetvlQueue (q : QR) (ss : SR) (cap : BitVec 16)
  | vscget (m : VMod) (vd va : VR)
  | vscset (m : VMod) (vd va : VR)
  -- VLD, VST, VAMO, STREAM, COPY (R148–R164)
  | vld (m : MMod) (vd : VR) (sa sb : SR) (off : BitVec 16)
  | vlds (m : MMod) (vd : VR) (sa sb : SR) (off : BitVec 16)
  | vldx (m : MMod) (vd vi : VR) (sa : SR) (off : BitVec 16)
  | vldff (m : MMod) (vd : VR) (sa : SR) (off : BitVec 16)
  | vst (m : MMod) (vd : VR) (sa sb : SR) (off : BitVec 16)
  | vsts (m : MMod) (vd : VR) (sa sb : SR) (off : BitVec 16)
  | vstxo (m : MMod) (vd vi : VR) (sa : SR) (off : BitVec 16)
  | vstxu (m : MMod) (vd vi : VR) (sa : SR) (off : BitVec 16)
  | vamoadd (m : MMod) (vd vi : VR) (sa : SR) (off : BitVec 16)
  | vamomin (m : MMod) (vd vi : VR) (sa : SR) (off : BitVec 16)
  | vamomax (m : MMod) (vd vi : VR) (sa : SR) (off : BitVec 16)
  | vamofadd (m : MMod) (vd vi : VR) (sa : SR) (off : BitVec 16)
  | stream (m : MMod) (vd : VR) (sa sb : SR) (off : BitVec 16)
  | streamseg (m : MMod) (vd : VR) (sa sb : SR) (vi : VR) (fields : Fin 8) (off : BitVec 13)
  | copy (scope : Scope) (sa sb : SR) (off : BitVec 16)
  -- TILE (R165–R186)
  | tshape (sa sb : SR) (k : Byte) (af bf zf : BitVec 5)
  | tlda (l : Latch) (sa sb : SR) (soff : BitVec 24)
  | tldb (l : Latch) (sa sb : SR) (soff : BitVec 24)
  | tldax (l : Latch) (sa sb : SR) (vi : VR) (soff : BitVec 24)
  | tldv (l : Latch) (vi : VR)
  | tmma (z : ZR) (a1 b1 : Bool)
  | tzero (z : ZR)
  | tst (z : ZR) (out : OutFmt) (sa sb : SR) (sr : Option SrArg)
  | tstv (z : ZR) (vi : VR) (sr : Option SrArg)
  | tsave (z : ZR) (sa : SR)
  | trestore (z : ZR) (sa : SR)
  -- SYNC (R190–R197)
  | waitw (sd sa sb : SR) (cond : WCond) (desig : Fin 4)
  | arrive (b : BR)
  | waitb (sd : SR) (b : BR)
  | syncb (sd : SR) (b : BR)
  | waitbm (sd sa sb : SR)
  | bmtest (sd sa sb : SR)
  | bmclr (sa sb : SR)
  -- LEASE (R198–R201)
  | lease (sd : SR) (kind : Kind) (pri : Fin 8)
  | leaseW (sd : SR) (kind : Kind) (pri : Fin 8)
  | release (sa : SR)
  | lstat (sd sa : SR)
  | equery (sd : SR) (ecnt : Bool)
  -- ENGINE (R202–R208)
  | sfn (m : VMod) (vd va : VR) (fn : Fin 10) (sh : SR)
  | xsort (m : VMod) (vd va : VR) (desc idx : Bool) (sh : SR)
  | xtopk (m : VMod) (vd va : VR) (k : BitVec 13) (smallest : Bool) (sh : SR)
  | xhist (m : VMod) (vd va : VR) (sh : SR)
  | cred (m : VMod) (vd va : VR) (op : Fin 5) (span : Fin 4) (id : Byte) (sh : SR)
  | cgather (m : VMod) (vd va : VR) (span : Fin 4) (id : Byte) (sh : SR)
  | cbcast (m : VMod) (vd va : VR) (root : Bool) (span : Fin 4) (id : Byte) (sh : SR)
  -- LAUNCH, RNG (R209–R213)
  | launch (sd sa : SR)
  | ljoin (sd sa : SR)
  | lcancel (sd sa : SR)
  | vrng (m : VMod) (vd : VR)
  | rngseed (m : VMod) (ss : SR)
  -- events of waits, copies, streams, faults and the scheduler
  | waitConditionMet (r : RunnerId)
  | waitDeadline (r : RunnerId)
  | copyChunkLanded (id chunk : Nat)
  | streamGroupLanded (r : RunnerId) (id group : Nat)
  | faultServiceComplete (r : RunnerId) (mapping : Option (List (Nat × Word)))
  | preemptRequest (t : TeamId)
  | teamSave (t : TeamId)
  | teamResume (t : TeamId) (at_ : Place)
  | dispatch (part : Nat) (at_ : Place)
  | starvationTimer (r : RunnerId) (at_ : Place)
  | queueAging (part queue : Nat)
  -- events of engines and power
  | powerUpStart (die : Nat)
  | wakeComplete (e : EngineId)
  | holdExpiry (e : EngineId)
  | evictionEnd (e : EngineId)
  | ecntUpdate (part heat : Nat) (coreMicrojoules : Nat)
  | coolingModeDeclare (m : CoolMode)
  | coolingSample (inlet flow : Option Nat)
  | droopSample (millivolts : Nat)
  | thermalSample (die : Nat) (celsius : Nat)
  | thermalThrottleStep (die : Nat)
  | laneMarginLost (c : CoreId) (group lane : Nat)
  | laneRetirement (c : CoreId)
  -- events of memory and the fabric
  | hotnessFlush (c : CoreId)
  | pageMigration (part : Nat) (va : Word) (dest : Nat)
  | patrolScrub (addr : Nat) (uncorrectable : Bool)
  | fabricAccessRequest (peer part : Nat) (seq : Nat) (acc : OutAccess)
  | peerGatherList (peer part : Nat) (seq : Nat) (accs : List OutAccess)
  | flitReplay (port seq : Nat)
  | portErrorThreshold (port : Nat)
  | portRetrainComplete (port lanes : Nat)
  | fabricTimeout (module : Nat)
  -- host commands
  | start (part : Nat) (value : Word)
  | registerWrite (part : Nat) (offset : Nat) (value : Word)
  | config (part : Nat) (rec : PartRecord)
  | loadmeet (part : Nat) (pkg : Package) (group : Option (Nat × List Nat))
  | unloadmeet (part : Nat)
  | occupread (part die slice : Nat)
  | migrate (part : Nat) (va : Word) (dest : Nat)
  | leasetab (part : Nat) (table : List Nat)
  | admitHeat (part heat : Nat) (ok : Bool)
  | scrubset (part sram lpddr : Nat)
  | linkctl (port : Nat) (order : LinkOrder)
  | shakedown (full : Bool)
  | attest (nonce : List Byte)
  | firmwareVerify (rom firmware : List Byte) (ok : Bool)
  | unassignedPattern (w : Word)
  | tileOperationComplete (c : CoreId)
  | fabricResponse (r : RunnerId) (module : Nat) (answer : Reply)
  | hostCompletion (r : RunnerId) (answer : Reply)
  | hostMemoryAccess (part : Nat) (acc : OutAccess)
  -- the instructions and events without operands (R98–R110, R169, R185, R197, R310–R356)
  | nop
  | eret
  | exit
  | ifence
  | stripExit
  | attach
  | attachW
  | detach
  | mfence
  | mwait
  | yield
  | coolingRowRaise
  | droopRideThroughExpiry
  | holdUpWarning
  | droopLevelExit
  | clockStretchStep
  | clockRecoverStep
  | checkpoint
  | restore
  | checkpointWriteComplete
  | powerGood
  | shockEvent
  | tiltTimeout
  | powerGoodRestore
  | shakedownComplete
  deriving DecidableEq, Repr

end Sys2Proof
end

