-- ==== Sys2Proof/WellFormed.lean ====
section
/-! DEFINITION. Which instructions have a word: the checks 3 and 4 of R70 on the operands (R68, R69). -/

namespace Sys2Proof

/-- A tag byte the manual defines (R45, R35): codes 0x00–0x11, block scaling on INT8 and the two FP8 formats only. -/
def tagDefined (t : Byte) : Bool :=
  let code := t.toNat / 8
  t.toNat % 4 == 0 && code ≤ 0x11 && (t.toNat / 4 % 2 == 0 || code == 0x02 || code == 0x0A || code == 0x0B)

/-- The control registers that exist (R19, control register map). -/
def crExists (n : BitVec 12) : Bool :=
  let k := n.toNat
  k ≤ 0x008 || (0x010 ≤ k && k ≤ 0x015) || (0x020 ≤ k && k ≤ 0x02D) || (0x030 ≤ k && k ≤ 0x034) ||
  (0x040 ≤ k && k ≤ 0x045) || (0x050 ≤ k && k ≤ 0x052) || k == 0x060 || (0x100 ≤ k && k ≤ 0x107)

/-- The control registers a program may write (R19): the others are RO. -/
def crWritable (n : BitVec 12) : Bool :=
  [0x000, 0x001, 0x002, 0x003, 0x005, 0x006, 0x007, 0x032, 0x044, 0x045, 0x051,
   0x100, 0x101, 0x102, 0x103, 0x104, 0x105, 0x106, 0x107].contains n.toNat

/-- The system registers, reached only at system level (R19, R29). -/
def crSystem (n : BitVec 12) : Bool := 0x100 ≤ n.toNat && n.toNat ≤ 0x107

/-- OPB: the register form names a register other than s0, since sb = 0 selects the immediate (R69). -/
def OpB.wf : OpB → Bool
  | .reg r => r != 0
  | .imm _ => true

/-- The immediate form of a bit-field control has imm32[31:14] and imm32[7:6] zero (R76). -/
def OpB.wfField : OpB → Bool
  | .reg r => r != 0
  | .imm i => i &&& 0xFFFFC0C0#32 == 0#32

/-- MN = 1 needs MK ≠ 0 (R70 check 3). -/
def Mask.wf (m : Mask) : Bool := !m.neg || m.reg != 0

/-- The chain bits stand only on fields read as vector sources (R119). -/
def VMod.wf (m : VMod) (a b c : Bool) : Bool := (!m.ca || a) && (!m.cb || b) && (!m.cc || c) && m.mask.wf

/-- As VMod.wf, for an instruction whose MK must be 0. -/
def VMod.wfNoMask (m : VMod) (a : Bool) : Bool := m.wf a false false && m.mask == {}

/-- Operand b is read as a vector source exactly when BS = 0 (R119: CB is ILLEGAL when BS = 1). -/
def VB.isVec : VB → Bool
  | .vec _ => true
  | .scal _ => false

/-- ORD of a load (R70 check 4). -/
def Order.wfLoad (o : Order) : Bool := o == .plain || o == .acquire

/-- ORD of a store (R70 check 4). -/
def Order.wfStore (o : Order) : Bool := o == .plain || o == .release

/-- A vector load: ORD, mask and chain bit (R154). -/
def MMod.wfLoad (m : MMod) (ca : Bool) : Bool := m.ord.wfLoad && m.mask.wf && (!m.ca || ca)

/-- A vector store: ORD and mask (R156); CA chains on vd. -/
def MMod.wfStore (m : MMod) : Bool := m.ord.wfStore && m.mask.wf

/-- A stream: ORD and CA are 0 (R158). -/
def MMod.wfStream (m : MMod) : Bool := m.ord == .plain && !m.ca && m.mask.wf

/-- The conversions FCVT encodes (R79): an integer destination needs a floating source. -/
def cvtWf : CvtSrc → CvtDst → Bool
  | _, .fp _ => true
  | .fp _, _ => true
  | _, _ => false

/-- The A, B and accumulator codes TSHAPE accepts (R168). -/
def tshapeWf (af bf zf : BitVec 5) : Bool :=
  [0x0D, 0x0A, 0x0B, 0x02, 0x0F].contains af.toNat &&
  [0x0D, 0x10, 0x11, 0x0A, 0x0B, 0x02, 0x0F].contains bf.toNat &&
  [0x0E, 0x06, 0x0F].contains zf.toNat

/-- An A latch. -/
def Latch.isA : Latch → Bool
  | .la0 | .la1 => true
  | .lb0 | .lb1 => false

/-- The instructions that have a word, with their operands in the ranges of R68 and R69. An event has no word;
an unassigned pattern is its own word. -/
def Instr.wf : Instr → Bool
  | .add _ _ b | .sub _ _ b | .and _ _ b | .or _ _ b | .xor _ _ b | .andn _ _ b | .shl _ _ b | .shr _ _ b
  | .sar _ _ b | .rol _ _ b | .slt _ _ b | .sltu _ _ b | .seq _ _ b | .sne _ _ b | .min _ _ b | .max _ _ b
  | .minu _ _ b | .maxu _ _ b | .mul _ _ b | .mulh _ _ b | .mulhu _ _ b | .div _ _ b | .divu _ _ b
  | .rem _ _ b | .remu _ _ b | .sel _ _ b => b.wf
  | .bfx _ _ b | .bfxu _ _ b | .bfi _ _ b => b.wfField
  | .fcvt _ _ src dst => cvtWf src dst
  | .rdcr _ cr => crExists cr
  | .wrcr cr _ | .setcr _ cr _ | .clrcr _ cr _ => crWritable cr
  | .tlbinv sa all => !all || sa == 0
  | .cinv sa whole => !whole || sa == 0
  | .qpop _ q | .qpeek _ q | .bq _ q _ | .bqz _ q _ => 2 ≤ q.val
  | .qpush q _ => q.val < 2
  | .vadd m _ _ b | .vsub m _ _ b | .vmul m _ _ b | .vdiv m _ _ b | .vmin m _ _ b | .vmax m _ _ b
  | .vand m _ _ b | .vor m _ _ b | .vxor m _ _ b | .vshl m _ _ b | .vshr m _ _ b | .vsar m _ _ b
  | .vscalb m _ _ b | .vcmp m _ _ b _ => m.wf true b.isVec false
  | .vtwosum m vd _ b => m.wf true b.isVec false && vd.val ≤ 30
  | .vfma m _ _ b _ | .vfms m _ _ b _ | .vfnma m _ _ b _ | .vsel m _ _ b _ => m.wf true b.isVec true
  | .vabs m _ _ | .vneg m _ _ | .vsqrt m _ _ | .vnot m _ _ | .vcvt m _ _ | .vmov m _ _ | .vbcast m _ _ _
  | .vcompress m _ _ | .vexpand m _ _ | .vrev m _ _ | .vredsum m _ _ | .vredmin m _ _ | .vredmax m _ _
  | .vredand m _ _ | .vredor m _ _ | .vscan m _ _ _ | .sfn m _ _ _ _ | .xhist m _ _ _ | .cred m _ _ _ _ _ _
  | .cgather m _ _ _ _ _ | .cbcast m _ _ _ _ _ _ | .vslideup m _ _ _ _ | .vslidedn m _ _ _ _ => m.wf true false false
  | .vcvtsr m _ _ _ | .vzip m _ _ _ | .vunzipe m _ _ _ | .vunzipo m _ _ _ => m.wf true true false
  | .vredts m vd _ _ => m.wf true true false && vd.val ≤ 30
  | .vperm m _ _ _ _ => m.wf true false true
  | .vbcastScalar m _ _ | .vidx m _ _ _ | .vrng m _ => m.wf false false false
  | .vqpush m q _ _ => m.wfNoMask true && 2 ≤ q.val
  | .vqpop m _ q => m.wf false false false && q.val < 2
  | .vmpopc m q _ | .vmfirst m q _ | .vmany m q _ => m.wf true false false && 2 ≤ q.val
  | .vinsert m _ _ _ | .rngseed m _ => m.wfNoMask false
  | .vcfgwTag _ vd va tag | .vtag vd va tag => vd.val ≤ va.val && tagDefined tag
  | .vgettag m q _ => m.wfNoMask true && 2 ≤ q.val
  | .vsetvlQueue q _ _ => 2 ≤ q.val
  | .vscget m _ _ | .vscset m _ _ => m.wfNoMask true
  | .vld m _ _ _ _ | .vlds m _ _ _ _ | .vldff m _ _ _ => m.wfLoad false
  | .vldx m _ _ _ _ => m.wfLoad true
  | .vst m _ _ _ _ | .vsts m _ _ _ _ | .vstxo m _ _ _ _ | .vstxu m _ _ _ _ => m.wfStore
  | .vamoadd m _ _ _ _ | .vamomin m _ _ _ _ | .vamomax m _ _ _ _ | .vamofadd m _ _ _ _ => m.mask.wf
  | .stream m _ _ _ _ => m.wfStream
  | .streamseg m vd _ _ _ f _ => m.wfStream && 1 ≤ f.val && vd.val + f.val ≤ 31
  | .tshape _ _ _ af bf zf => tshapeWf af bf zf
  | .tlda l _ _ _ | .tldax l _ _ _ _ => l.isA
  | .tldb l _ _ _ => !l.isA
  | .tst _ _ _ _ (some sr) => sr.reg.val < 32
  | .xsort m vd _ _ idx _ => m.wf true false false && (!idx || vd.val ≤ 30)
  | .xtopk m vd _ k _ _ => m.wf true false false && vd.val ≤ 30 && k != 0
  | _ => true

end Sys2Proof
end

