-- ==== Sys2Proof/Decode.lean ====
section
/-! DEFINITION. From a 64-bit word to an instruction or a named refusal (R65–R71), and the encoder, written from the
same tables. -/

namespace Sys2Proof

/-- Why a word is not an instruction (R70): an unassigned group or function (checks 1 and 2), a nonzero bit the
instruction does not use (check 3), a field value out of range (check 4). -/
inductive Reject where
  | unassigned
  | unusedField
  | outOfRange
  deriving DecidableEq, Repr

/-! ### Fields and codes -/

/-- The scalar register a six-bit field names. -/
abbrev srOf (b : BitVec 6) : SR := b.toFin

/-- The vector register a five-bit field names. -/
abbrev vrOf (b : BitVec 5) : VR := b.toFin

/-- The six-bit field of a scalar register. -/
abbrev srBits (r : SR) : BitVec 6 := BitVec.ofFin r

/-- The five-bit field of a vector register. -/
abbrev vrBits (r : VR) : BitVec 5 := BitVec.ofFin r

/-- The one-bit field of a flag. -/
abbrev bit1 (b : Bool) : BitVec 1 := BitVec.ofBool b

/-- SCOPE from its three bits; 110 and 111 are out of range (R66, R70). -/
def scopeOf (b : BitVec 3) : Except Reject Scope :=
  match b.toNat with
  | 0 => .ok .runner | 1 => .ok .core | 2 => .ok .team | 3 => .ok .die | 4 => .ok .package | 5 => .ok .system
  | _ => .error .outOfRange

/-- The three bits of SCOPE. -/
def Scope.bits : Scope → BitVec 3
  | .runner => 0 | .core => 1 | .team => 2 | .die => 3 | .package => 4 | .system => 5

/-- ORD from its two bits (R66). -/
def orderOf (b : BitVec 2) : Order :=
  match b.toNat with
  | 0 => .plain | 1 => .acquire | 2 => .release | _ => .both

/-- The two bits of ORD. -/
def Order.bits : Order → BitVec 2
  | .plain => 0 | .acquire => 1 | .release => 2 | .both => 3

/-- HINT from its two bits; 11 is out of range (R70). -/
def hintOf (b : BitVec 2) : Except Reject Hint :=
  match b.toNat with
  | 0 => .ok .threshold | 1 => .ok .stream | 2 => .ok .keep | _ => .error .outOfRange

/-- The two bits of HINT. -/
def Hint.bits : Hint → BitVec 2
  | .threshold => 0 | .stream => 1 | .keep => 2

/-- The floating format of FN[2:0] (R68). -/
def ffmtOf (b : BitVec 3) : Except Reject FFmt :=
  match b.toNat with
  | 0 => .ok .f32 | 1 => .ok .f64 | 2 => .ok .bf16 | 3 => .ok .f16 | _ => .error .unassigned

/-- FN[2:0] of a floating format. -/
def FFmt.bits : FFmt → BitVec 3
  | .f32 => 0 | .f64 => 1 | .bf16 => 2 | .f16 => 3

/-- The source code of FCVT, imm32[3:0] (R69). -/
def CvtSrc.bits : CvtSrc → BitVec 4
  | .fp .f32 => 0 | .fp .f64 => 1 | .fp .bf16 => 2 | .fp .f16 => 3 | .i64 => 8 | .u64 => 9

/-- FCVT's source from imm32[3:0] (R69). -/
def cvtSrcOf (b : BitVec 4) : Except Reject CvtSrc :=
  match b.toNat with
  | 0 => .ok (.fp .f32) | 1 => .ok (.fp .f64) | 2 => .ok (.fp .bf16) | 3 => .ok (.fp .f16)
  | 8 => .ok .i64 | 9 => .ok .u64 | _ => .error .outOfRange

/-- The destination code of FCVT, imm32[7:4], and its FN[2:0] (R69). -/
def CvtDst.bits : CvtDst → BitVec 4 × BitVec 3
  | .fp f => (0, f.bits) | .i64 => (8, 0) | .u64 => (9, 0)

/-- FCVT's destination from imm32[7:4] and FN[2:0] (R69). -/
def cvtDstOf (b : BitVec 4) (fn : BitVec 3) : Except Reject CvtDst :=
  match b.toNat with
  | 0 => (ffmtOf fn).map .fp
  | 8 => if fn == 0 then .ok .i64 else .error .outOfRange
  | 9 => if fn == 0 then .ok .u64 else .error .outOfRange
  | _ => .error .outOfRange

/-- The load size of FN[2:0] (R68). -/
def lsizeOf (b : BitVec 3) : Except Reject LSize :=
  match b.toNat with
  | 0 => .ok .b | 1 => .ok .bu | 2 => .ok .h | 3 => .ok .hu | 4 => .ok .w | 5 => .ok .wu | 6 => .ok .d
  | _ => .error .unassigned

/-- FN[2:0] of a load size. -/
def LSize.bits : LSize → BitVec 3
  | .b => 0 | .bu => 1 | .h => 2 | .hu => 3 | .w => 4 | .wu => 5 | .d => 6

/-- The store size of FN[2:0] (R68). -/
def ssizeOf (b : BitVec 3) : Except Reject SSize :=
  match b.toNat with
  | 0 => .ok .b | 2 => .ok .h | 4 => .ok .w | 6 => .ok .d | _ => .error .unassigned

/-- FN[2:0] of a store size. -/
def SSize.bits : SSize → BitVec 3
  | .b => 0 | .h => 2 | .w => 4 | .d => 6

/-- The kind of FENCE, imm32[1:0] (R103). -/
def fenceKindOf (b : BitVec 2) : FenceKind :=
  match b.toNat with
  | 0 => .sv | 1 => .vs | 2 => .vv | _ => .all

/-- imm32[1:0] of a FENCE. -/
def FenceKind.bits : FenceKind → BitVec 2
  | .sv => 0 | .vs => 1 | .vv => 2 | .all => 3

/-- The condition of WAITW, imm32[2:0] (R69). -/
def wcondOf (b : BitVec 3) : Except Reject WCond :=
  match b.toNat with
  | 0 => .ok .eq | 1 => .ok .ne | 2 => .ok .ge | 3 => .ok .lt | 4 => .ok .geu | 5 => .ok .ltu
  | _ => .error .outOfRange

/-- imm32[2:0] of a WAITW. -/
def WCond.bits : WCond → BitVec 3
  | .eq => 0 | .ne => 1 | .ge => 2 | .lt => 3 | .geu => 4 | .ltu => 5

/-- The lease kind, imm32[3:0] (R198). -/
def kindOf (b : BitVec 4) : Except Reject Kind :=
  match b.toNat with
  | 0 => .ok .sfe | 1 => .ok .sxe | 2 => .ok .cle | _ => .error .outOfRange

/-- imm32[3:0] of a LEASE. -/
def Kind.bits : Kind → BitVec 4
  | .sfe => 0 | .sxe => 1 | .cle => 2

/-- The latch of LT (R66). -/
def latchOf (b : BitVec 2) : Latch :=
  match b.toNat with
  | 0 => .la0 | 1 => .la1 | 2 => .lb0 | _ => .lb1

/-- LT of a latch. -/
def Latch.bits : Latch → BitVec 2
  | .la0 => 0 | .la1 => 1 | .lb0 => 2 | .lb1 => 3

/-- The output format of TST, its LT field (R178). -/
def outFmtOf (b : BitVec 2) : OutFmt :=
  match b.toNat with
  | 0 => .acc | 1 => .bf16 | 2 => .fp16 | _ => .fp32

/-- LT of a TST. -/
def OutFmt.bits : OutFmt → BitVec 2
  | .acc => 0 | .bf16 => 1 | .fp16 => 2 | .fp32 => 3

/-- A number below n, or out of range. -/
def finOf (n : Nat) (k : Nat) : Except Reject (Fin n) :=
  if h : k < n then .ok ⟨k, h⟩ else .error .outOfRange

/-- OPB from sb and imm32 (R69): sb = 0 selects the immediate. -/
def opbOf (sb : BitVec 6) (imm : BitVec 32) : OpB :=
  if sb == 0 then .imm imm else .reg (srOf sb)

/-- The sb and imm32 fields of OPB. -/
def OpB.bits : OpB → BitVec 6 × BitVec 32
  | .reg r => (srBits r, 0)
  | .imm i => (0, i)

/-- Operand b of format V from BS, vb and ss (R66). -/
def vbOf (bs : BitVec 1) (vb : BitVec 5) (ss : BitVec 6) : VB :=
  if bs == 1 then .scal (srOf ss) else .vec (vrOf vb)

/-- The vb, BS and ss fields of operand b. -/
def VB.bits : VB → BitVec 5 × BitVec 1 × BitVec 6
  | .vec r => (vrBits r, 0, 0)
  | .scal s => (0, 1, srBits s)

/-- An optional inserted scalar from BS and ss (R143). -/
def insOf (bs : BitVec 1) (ss : BitVec 6) : Option SR :=
  if bs == 1 then some (srOf ss) else none

/-- BS and ss of an optional inserted scalar. -/
def insBits : Option SR → BitVec 1 × BitVec 6
  | none => (0, 0)
  | some s => (1, srBits s)

/-! ### The formats of R66 -/

/-- A format S word. -/
def encS (op : BitVec 6) (fn : BitVec 8) (sd sa sb : BitVec 6) (imm : BitVec 32) : Word :=
  op ++ fn ++ sd ++ sa ++ sb ++ imm

/-- A format V word. -/
def encV (op : BitVec 6) (fn : BitVec 7) (m : VMod) (vd va vb vc : BitVec 5) (bs : BitVec 1) (ss : BitVec 6)
    (imm : BitVec 16) : Word :=
  op ++ bit1 m.cv ++ fn ++ vd ++ va ++ vb ++ vc ++ bit1 m.ca ++ bit1 m.cb ++ bit1 m.cc ++
    (BitVec.ofFin m.mask.reg : BitVec 3) ++ bit1 m.mask.neg ++ bs ++ ss ++ imm

/-- A format M word. -/
def encM (op : BitVec 6) (fn : BitVec 7) (m : MMod) (vd vi : BitVec 5) (sa sb : BitVec 6) (imm : BitVec 16) : Word :=
  op ++ bit1 m.cv ++ fn ++ vd ++ vi ++ sa ++ sb ++ bit1 m.ca ++ (BitVec.ofFin m.mask.reg : BitVec 3) ++
    bit1 m.mask.neg ++ m.ord.bits ++ m.scope.bits ++ m.hint.bits ++ imm

/-- A format T word. -/
def encT (fn : BitVec 8) (za lt : BitVec 2) (sa sb : BitVec 6) (vi : BitVec 5) (sr : Bool) (imm : BitVec 24) : Word :=
  0x20#6 ++ fn ++ za ++ lt ++ sa ++ sb ++ vi ++ 0#1 ++ bit1 sr ++ 0#3 ++ imm

/-- A field of a word: len bits from bit lo. -/
abbrev field (w : Word) (lo len : Nat) : BitVec len := w.extractLsb' lo len

/-- The modifiers of a format V word. -/
def vmodOf (w : Word) : VMod :=
  { cv := field w 57 1 == 1, ca := field w 29 1 == 1, cb := field w 28 1 == 1, cc := field w 27 1 == 1
    mask := { reg := (field w 24 3).toFin, neg := field w 23 1 == 1 } }

/-- The modifiers of a format M word. -/
def mmodOf (w : Word) : Except Reject MMod := do
  let scope ← scopeOf (field w 18 3)
  let hint ← hintOf (field w 16 2)
  return { cv := field w 57 1 == 1, ca := field w 27 1 == 1
           mask := { reg := (field w 24 3).toFin, neg := field w 23 1 == 1 }
           ord := orderOf (field w 21 2), scope := scope, hint := hint }

/-! ### The function maps of R68 -/

/-- The IALU instructions with operands sd, sa and OPB. -/
def ialuOf : Nat → Option (SR → SR → OpB → Instr)
  | 0x00 => some .add | 0x01 => some .sub | 0x02 => some .and | 0x03 => some .or | 0x04 => some .xor
  | 0x05 => some .andn | 0x08 => some .shl | 0x09 => some .shr | 0x0A => some .sar | 0x0B => some .rol
  | 0x10 => some .slt | 0x11 => some .sltu | 0x12 => some .seq | 0x13 => some .sne | 0x14 => some .min
  | 0x15 => some .max | 0x16 => some .minu | 0x17 => some .maxu | 0x18 => some .mul | 0x19 => some .mulh
  | 0x1A => some .mulhu | 0x1B => some .div | 0x1C => some .divu | 0x1D => some .rem | 0x1E => some .remu
  | 0x28 => some .bfx | 0x29 => some .bfxu | 0x2A => some .bfi | 0x30 => some .sel
  | _ => none

/-- The IALU instructions with one source. -/
def ialu1Of : Nat → Option (SR → SR → Instr)
  | 0x20 => some .clz | 0x21 => some .ctz | 0x22 => some .popc | 0x23 => some .brev
  | _ => none

/-- The FALU instructions of three registers, by FN[7:3]. -/
def falu3Of : Nat → Option (FFmt → SR → SR → SR → Instr)
  | 0 => some .fadd | 1 => some .fsub | 2 => some .fmul | 3 => some .ffma | 4 => some .fdiv
  | 6 => some .fmin | 7 => some .fmax
  | _ => none

/-- The AMOs of both sizes, by FN[3:0]. -/
def amoOf : Nat → Option (Bool → Order → Scope → SR → SR → SR → Instr)
  | 0 => some .amoadd | 1 => some .amoand | 2 => some .amoor | 3 => some .amoxor | 4 => some .amomin
  | 5 => some .amomax | 6 => some .amominu | 7 => some .amomaxu | 8 => some .amoswap | 9 => some .amocas
  | _ => none

/-- The branches. -/
def brOf : Nat → Option (SR → SR → BitVec 32 → Instr)
  | 0 => some .beq | 1 => some .bne | 2 => some .blt | 3 => some .bge | 4 => some .bltu | 5 => some .bgeu
  | _ => none

/-- The VALU instructions with sources va and b. -/
def valu2Of : Nat → Option (VMod → VR → VR → VB → Instr)
  | 0x00 => some .vadd | 0x01 => some .vsub | 0x02 => some .vmul | 0x04 => some .vdiv | 0x06 => some .vmin
  | 0x07 => some .vmax | 0x10 => some .vand | 0x11 => some .vor | 0x12 => some .vxor | 0x14 => some .vshl
  | 0x15 => some .vshr | 0x16 => some .vsar | 0x25 => some .vtwosum | 0x26 => some .vscalb
  | _ => none

/-- The VALU instructions with sources va, b and vc. -/
def valu3Of : Nat → Option (VMod → VR → VR → VB → VR → Instr)
  | 0x08 => some .vfma | 0x09 => some .vfms | 0x0A => some .vfnma | 0x24 => some .vsel
  | _ => none

/-- The VALU instructions with the source va alone. -/
def valu1Of : Nat → Option (VMod → VR → VR → Instr)
  | 0x0B => some .vabs | 0x0C => some .vneg | 0x0D => some .vsqrt | 0x13 => some .vnot | 0x20 => some .vcvt
  | 0x22 => some .vmov
  | _ => none

/-- The VRED instructions with the source va alone. -/
def vred1Of : Nat → Option (VMod → VR → VR → Instr)
  | 0 => some .vredsum | 1 => some .vredmin | 2 => some .vredmax | 3 => some .vredand | 4 => some .vredor
  | _ => none

/-- The vector memory instructions with an index register: VLDX, VSTXO, VSTXU and the VAMOs. -/
def vamoOf : Nat → Option (MMod → VR → VR → SR → BitVec 16 → Instr)
  | 0 => some .vamoadd | 1 => some .vamomin | 2 => some .vamomax | 3 => some .vamofadd
  | _ => none

/-- Groups 0x01 to 0x05: IALU, FALU, LD, ST, AMO. -/
def parseScalar (w : Word) : Except Reject Instr :=
  let fn := field w 50 8
  let k := fn.toNat
  let sd := srOf (field w 44 6)
  let sa := srOf (field w 38 6)
  let sbf := field w 32 6
  let sb := srOf sbf
  let imm := field w 0 32
  match (field w 58 6).toNat with
  | 0x01 =>
    match ialuOf k with
    | some c => .ok (c sd sa (opbOf sbf imm))
    | none =>
      match ialu1Of k with
      | some c => .ok (c sd sa)
      | none => if k = 0x31 then .ok (.lih sd sa imm) else if k = 0x32 then .ok (.addpc sd imm) else .error .unassigned
  | 0x02 =>
    let op := (field w 53 5).toNat
    match ffmtOf (field w 50 3) with
    | .error e => .error e
    | .ok f =>
      match falu3Of op with
      | some c => .ok (c f sd sa sb)
      | none =>
        match op with
        | 5 => .ok (.fsqrt f sd sa)
        | 8 => (finOf 8 (field w 0 4).toNat).map (.fcmp f sd sa sb)
        | 9 =>
          match cvtSrcOf (field w 0 4), cvtDstOf (field w 4 4) (field w 50 3) with
          | .ok s, .ok d => .ok (.fcvt sd sa s d)
          | _, _ => .error .outOfRange
        | 10 => .ok (.fclass f sd sa)
        | _ => .error .unassigned
  | 0x03 =>
    match lsizeOf (field w 50 3), scopeOf (field w 55 3) with
    | .ok z, .ok s =>
      if (orderOf (field w 53 2)).wfLoad then .ok (.ld z (field w 53 1 == 1) s sd sa imm) else .error .outOfRange
    | .error e, _ => .error e
    | _, .error e => .error e
  | 0x04 =>
    match ssizeOf (field w 50 3), scopeOf (field w 55 3) with
    | .ok z, .ok s =>
      if (orderOf (field w 53 2)).wfStore then .ok (.st z (field w 54 1 == 1) s sb sa imm) else .error .outOfRange
    | .error e, _ => .error e
    | _, .error e => .error e
  | 0x05 =>
    let op := (field w 50 4).toNat
    let dbl := field w 54 1 == 1
    if field w 57 1 = 1 then .error .unassigned else
    match scopeOf (field w 0 3) with
    | .error e => if op ≤ 0x0A then .error e else .error .unassigned
    | .ok s =>
      match amoOf op with
      | some c => .ok (c dbl (orderOf (field w 55 2)) s sd sb sa)
      | none => if op = 0x0A ∧ dbl = false then .ok (.amofadd (orderOf (field w 55 2)) s sd sb sa) else .error .unassigned
  | _ => .error .unassigned

/-- Groups 0x06 to 0x0B: BR, JMP, CR, SYS, STRIP, QUEUE. -/
def parseControl (w : Word) : Except Reject Instr :=
  let k := (field w 50 8).toNat
  let sd := srOf (field w 44 6)
  let sa := srOf (field w 38 6)
  let sb := srOf (field w 32 6)
  let imm := field w 0 32
  let cr := field w 0 12
  let q : QR := (field w 32 2).toFin
  match (field w 58 6).toNat with
  | 0x06 =>
    match brOf k with
    | some c => .ok (c sa sb imm)
    | none => .error .unassigned
  | 0x07 => if k = 0 then .ok (.jal sd imm) else if k = 1 then .ok (.jalr sd sa imm) else .error .unassigned
  | 0x08 =>
    match k with
    | 0 => .ok (.rdcr sd cr)
    | 1 => .ok (.wrcr cr sa)
    | 2 => .ok (.setcr sd cr sa)
    | 3 => .ok (.clrcr sd cr sa)
    | _ => .error .unassigned
  | 0x09 =>
    match k with
    | 0x0 => .ok .nop
    | 0x1 => .ok (.syscall imm)
    | 0x2 => .ok (.brk imm)
    | 0x3 => .ok .eret
    | 0x4 => .ok .exit
    | 0x5 => (scopeOf (field w 2 3)).map (.fence (fenceKindOf (field w 0 2)))
    | 0x6 => .ok .ifence
    | 0x7 => .ok (.tlbinv sa (field w 0 1 == 1))
    | 0x8 => .ok (.prefetch sa (field w 0 1 == 1))
    | 0x9 => .ok (.cflush sa (field w 0 1 == 1))
    | 0xA => .ok (.cinv sa (field w 0 1 == 1))
    | _ => .error .unassigned
  | 0x0A =>
    match k with
    | 0 => .ok (.stripBegin sd sa sb (field w 0 16))
    | 1 => .ok (.stripNext sd imm)
    | 2 => .ok .stripExit
    | _ => .error .unassigned
  | 0x0B =>
    match k with
    | 0 => .ok (.qpop sd q)
    | 1 => .ok (.qpeek sd q)
    | 2 => .ok (.qpush q sa)
    | 3 => .ok (.bq sd q imm)
    | 4 => .ok (.bqz sd q imm)
    | _ => .error .unassigned
  | _ => .error .unassigned

/-- Groups 0x10 to 0x14, 0x23 and 0x25: VALU, VCMP, VPERM, VRED, VCFG, ENGINE, RNG (format V). -/
def parseVector (w : Word) : Except Reject Instr :=
  let k := (field w 50 7).toNat
  let m := vmodOf w
  let vd := vrOf (field w 45 5)
  let va := vrOf (field w 40 5)
  let vb := vrOf (field w 35 5)
  let vc := vrOf (field w 30 5)
  let bs := field w 22 1
  let ssf := field w 16 6
  let ss := srOf ssf
  let b := vbOf bs (field w 35 5) ssf
  let ins := insOf bs ssf
  let imm := field w 0 16
  let qd : QR := (field w 45 2).toFin
  match (field w 58 6).toNat with
  | 0x10 =>
    match valu2Of k with
    | some c => .ok (c m vd va b)
    | none =>
      match valu3Of k with
      | some c => .ok (c m vd va b vc)
      | none =>
        match valu1Of k with
        | some c => .ok (c m vd va)
        | none =>
          match k with
          | 0x21 => .ok (.vcvtsr m vd va vb)
          | 0x23 => if bs = 1 then .ok (.vbcastScalar m vd ss) else .ok (.vbcast m vd va imm)
          | 0x28 => .ok (.vqpush m qd va imm)
          | 0x29 => .ok (.vqpop m vd (field w 40 2).toFin)
          | _ => .error .unassigned
  | 0x11 =>
    match k with
    | 0 => (finOf 12 imm.toNat).map (.vcmp m vd va b)
    | 1 => .ok (.vmpopc m qd va)
    | 2 => .ok (.vmfirst m qd va)
    | 3 => .ok (.vmany m qd va)
    | _ => .error .unassigned
  | 0x12 =>
    match k with
    | 0 => .ok (.vslideup m vd va imm ins)
    | 1 => .ok (.vslidedn m vd va imm ins)
    | 2 => .ok (.vperm m vd va vc ins)
    | 3 => .ok (.vcompress m vd va)
    | 4 => .ok (.vexpand m vd va)
    | 5 => .ok (.vrev m vd va)
    | 6 => .ok (.vzip m vd va vb)
    | 7 => .ok (.vunzipe m vd va vb)
    | 8 => .ok (.vunzipo m vd va vb)
    | 9 => .ok (.vinsert m vd ss imm)
    | _ => .error .unassigned
  | 0x13 =>
    match vred1Of k with
    | some c => .ok (c m vd va)
    | none =>
      match k with
      | 6 => .ok (.vredts m vd va vb)
      | 7 => (finOf 5 imm.toNat).map (.vscan m vd va)
      | _ => .error .unassigned
  | 0x14 =>
    match k with
    | 0 => if field w 8 1 = 1 then .ok (.vcfgwTag ss vd va (field w 0 8)) else .ok (.vcfgw ss)
    | 1 => .ok (.vtag vd va (field w 0 8))
    | 2 => .ok (.vgettag m qd va)
    | 3 => .ok (.vidx m vd imm (field w 30 10))
    | 4 =>
      match (field w 45 5).toNat with
      | 0 => .ok (.vsetvl ss imm)
      | 2 | 3 => .ok (.vsetvlQueue qd ss imm)
      | _ => .error .outOfRange
    | 5 => .ok (.vscget m vd va)
    | 6 => .ok (.vscset m vd va)
    | _ => .error .unassigned
  | 0x23 =>
    let span : Fin 4 := (field w 3 2).toFin
    match k with
    | 0 => (finOf 10 imm.toNat).map (.sfn m vd va · ss)
    | 1 => .ok (.xsort m vd va (field w 0 1 == 1) (field w 1 1 == 1) ss)
    | 2 => .ok (.xtopk m vd va (field w 0 13) (field w 15 1 == 1) ss)
    | 3 => .ok (.xhist m vd va ss)
    | 4 => (finOf 5 (field w 0 3).toNat).map (.cred m vd va · span (field w 8 8) ss)
    | 5 => .ok (.cgather m vd va span (field w 8 8) ss)
    | 6 => .ok (.cbcast m vd va (field w 5 1 == 1) span (field w 8 8) ss)
    | _ => .error .unassigned
  | 0x25 =>
    match k with
    | 0 => .ok (.vrng m vd)
    | 1 => .ok (.rngseed m ss)
    | _ => .error .unassigned
  | _ => .error .unassigned

/-- Groups 0x1C to 0x1F: VLD, VST, STREAM and COPY, VAMO (format M). -/
def parseMemory (w : Word) : Except Reject Instr :=
  let k := (field w 50 7).toNat
  let vd := vrOf (field w 45 5)
  let vi := vrOf (field w 40 5)
  let sa := srOf (field w 34 6)
  let sb := srOf (field w 28 6)
  let imm := field w 0 16
  let known := match (field w 58 6).toNat with
    | 0x1C => [0, 1, 2, 4].contains k
    | 0x1E => k ≤ 2
    | _ => k ≤ 3
  if known = false then .error .unassigned else
  match mmodOf w with
  | .error e => .error e
  | .ok m =>
    match (field w 58 6).toNat with
    | 0x1C =>
      match k with
      | 0 => .ok (.vld m vd sa sb imm)
      | 1 => .ok (.vlds m vd sa sb imm)
      | 2 => .ok (.vldx m vd vi sa imm)
      | _ => .ok (.vldff m vd sa imm)
    | 0x1D =>
      match k with
      | 0 => .ok (.vst m vd sa sb imm)
      | 1 => .ok (.vsts m vd sa sb imm)
      | 2 => .ok (.vstxo m vd vi sa imm)
      | _ => .ok (.vstxu m vd vi sa imm)
    | 0x1E =>
      match k with
      | 0 => .ok (.stream m vd sa sb imm)
      | 1 => .ok (.streamseg m vd sa sb vi (field w 13 3).toFin (field w 0 13))
      | _ => .ok (.copy m.scope sa sb imm)
    | 0x1F =>
      match vamoOf k with
      | some c => .ok (c m vd vi sa imm)
      | none => .error .unassigned
    | _ => .error .unassigned

/-- Group 0x20: TILE (format T). -/
def parseTile (w : Word) : Except Reject Instr :=
  let z : ZR := (field w 48 2).toFin
  let lt := field w 46 2
  let sa := srOf (field w 40 6)
  let sb := srOf (field w 34 6)
  let vi := vrOf (field w 29 5)
  let imm := field w 0 24
  let sr := field w 27 1
  match (field w 50 8).toNat with
  | 0x0 => .ok (.tshape sa sb (field w 0 8) (field w 8 5) (field w 13 5) (field w 18 5))
  | 0x1 => if field w 0 1 = 1 then .ok .attachW else .ok .attach
  | 0x2 => .ok .detach
  | 0x3 => .ok (.tlda (latchOf lt) sa sb imm)
  | 0x4 => .ok (.tldb (latchOf lt) sa sb imm)
  | 0x5 => .ok (.tldax (latchOf lt) sa sb vi imm)
  | 0x6 => .ok (.tldv (latchOf lt) vi)
  | 0x7 => .ok (.tmma z (field w 47 1 == 1) (field w 46 1 == 1))
  | 0x8 => .ok (.tzero z)
  | 0x9 => .ok (.tst z (outFmtOf lt) sa sb (if sr = 1 then some ⟨srOf (0#1 ++ field w 29 5), imm⟩ else none))
  | 0xA => .ok (.tstv z vi (if sr = 1 then some ⟨sa, imm⟩ else none))
  | 0xB => .ok (.tsave z sa)
  | 0xC => .ok (.trestore z sa)
  | 0xD => .ok .mfence
  | 0xE => .ok .mwait
  | _ => .error .unassigned

/-- Groups 0x21, 0x22 and 0x24: SYNC, LEASE, LAUNCH. -/
def parseSync (w : Word) : Except Reject Instr :=
  let k := (field w 50 8).toNat
  let sd := srOf (field w 44 6)
  let sa := srOf (field w 38 6)
  let sb := srOf (field w 32 6)
  let bar : BR := (field w 0 4).toFin
  match (field w 58 6).toNat with
  | 0x21 =>
    match k with
    | 0 =>
      match wcondOf (field w 0 3), finOf 4 (field w 8 8).toNat with
      | .ok c, .ok d => .ok (.waitw sd sa sb c d)
      | _, _ => .error .outOfRange
    | 1 => .ok (.arrive bar)
    | 2 => .ok (.waitb sd bar)
    | 3 => .ok (.syncb sd bar)
    | 4 => .ok (.waitbm sd sa sb)
    | 5 => .ok (.bmtest sd sa sb)
    | 6 => .ok (.bmclr sa sb)
    | 7 => .ok .yield
    | _ => .error .unassigned
  | 0x22 =>
    match k with
    | 0 =>
      match kindOf (field w 0 4), finOf 8 (field w 4 4).toNat with
      | .ok t, .ok p => if field w 8 1 = 1 then .ok (.leaseW sd t p) else .ok (.lease sd t p)
      | _, _ => .error .outOfRange
    | 1 => .ok (.release sa)
    | 2 => .ok (.lstat sd sa)
    | 3 => .ok (.equery sd (field w 0 1 == 1))
    | _ => .error .unassigned
  | 0x24 =>
    match k with
    | 0 => .ok (.launch sd sa)
    | 1 => .ok (.ljoin sd sa)
    | 2 => .ok (.lcancel sd sa)
    | _ => .error .unassigned
  | _ => .error .unassigned

/-- The instruction whose operands the word's used fields hold (R67–R69). -/
def parse (w : Word) : Except Reject Instr :=
  let op := (field w 58 6).toNat
  if op = 0x20 then parseTile w
  else if 0x01 ≤ op ∧ op ≤ 0x05 then parseScalar w
  else if 0x06 ≤ op ∧ op ≤ 0x0B then parseControl w
  else if (0x10 ≤ op ∧ op ≤ 0x14) ∨ op = 0x23 ∨ op = 0x25 then parseVector w
  else if 0x1C ≤ op ∧ op ≤ 0x1F then parseMemory w
  else if op = 0x21 ∨ op = 0x22 ∨ op = 0x24 then parseSync w
  else .error .unassigned

/-! ### The encoder -/

/-- An IALU word of sd, sa and OPB. -/
def encOpB (fn : BitVec 8) (sd sa : SR) (b : OpB) : Word := encS 0x01#6 fn (srBits sd) (srBits sa) b.bits.1 b.bits.2

/-- A FALU word of three registers. -/
def encF (op : BitVec 5) (f : FFmt) (sd sa sb : SR) (imm : BitVec 32) : Word :=
  encS 0x02#6 (op ++ f.bits) (srBits sd) (srBits sa) (srBits sb) imm

/-- An AMO word. -/
def encAmo (op : BitVec 4) (dbl : Bool) (ord : Order) (scope : Scope) (sd sb sa : SR) : Word :=
  encS 0x05#6 (0#1 ++ ord.bits ++ bit1 dbl ++ op) (srBits sd) (srBits sa) (srBits sb) (0#29 ++ scope.bits)

/-- A format V word with operand b. -/
def encVB (op : BitVec 6) (fn : BitVec 7) (m : VMod) (vd va : VR) (b : VB) (vc : BitVec 5) (imm : BitVec 16) : Word :=
  encV op fn m (vrBits vd) (vrBits va) b.bits.1 vc b.bits.2.1 b.bits.2.2 imm

/-- A format V word with the source va alone. -/
def encV1 (op : BitVec 6) (fn : BitVec 7) (m : VMod) (vd va : VR) (imm : BitVec 16) : Word :=
  encV op fn m (vrBits vd) (vrBits va) 0 0 0 0 imm

/-- A format V word with the sources va and vb. -/
def encV2 (op : BitVec 6) (fn : BitVec 7) (m : VMod) (vd va vb : VR) : Word :=
  encV op fn m (vrBits vd) (vrBits va) (vrBits vb) 0 0 0 0

/-- A format V word whose destination is a hand-off queue. -/
def encVQ (op : BitVec 6) (fn : BitVec 7) (m : VMod) (q : QR) (va : VR) (imm : BitVec 16) : Word :=
  encV op fn m (0#3 ++ (BitVec.ofFin q : BitVec 2)) (vrBits va) 0 0 0 0 imm

/-- An ENGINE word. -/
def encE (fn : BitVec 7) (m : VMod) (vd va : VR) (imm : BitVec 16) (sh : SR) : Word :=
  encV 0x23#6 fn m (vrBits vd) (vrBits va) 0 0 0 (srBits sh) imm

/-- The word of an instruction (R66–R69). An event has none. -/
def encode : Instr → Option Word
  | .add d a b => some (encOpB 0x00 d a b)
  | .sub d a b => some (encOpB 0x01 d a b)
  | .and d a b => some (encOpB 0x02 d a b)
  | .or d a b => some (encOpB 0x03 d a b)
  | .xor d a b => some (encOpB 0x04 d a b)
  | .andn d a b => some (encOpB 0x05 d a b)
  | .shl d a b => some (encOpB 0x08 d a b)
  | .shr d a b => some (encOpB 0x09 d a b)
  | .sar d a b => some (encOpB 0x0A d a b)
  | .rol d a b => some (encOpB 0x0B d a b)
  | .slt d a b => some (encOpB 0x10 d a b)
  | .sltu d a b => some (encOpB 0x11 d a b)
  | .seq d a b => some (encOpB 0x12 d a b)
  | .sne d a b => some (encOpB 0x13 d a b)
  | .min d a b => some (encOpB 0x14 d a b)
  | .max d a b => some (encOpB 0x15 d a b)
  | .minu d a b => some (encOpB 0x16 d a b)
  | .maxu d a b => some (encOpB 0x17 d a b)
  | .mul d a b => some (encOpB 0x18 d a b)
  | .mulh d a b => some (encOpB 0x19 d a b)
  | .mulhu d a b => some (encOpB 0x1A d a b)
  | .div d a b => some (encOpB 0x1B d a b)
  | .divu d a b => some (encOpB 0x1C d a b)
  | .rem d a b => some (encOpB 0x1D d a b)
  | .remu d a b => some (encOpB 0x1E d a b)
  | .clz d a => some (encS 0x01 0x20 (srBits d) (srBits a) 0 0)
  | .ctz d a => some (encS 0x01 0x21 (srBits d) (srBits a) 0 0)
  | .popc d a => some (encS 0x01 0x22 (srBits d) (srBits a) 0 0)
  | .brev d a => some (encS 0x01 0x23 (srBits d) (srBits a) 0 0)
  | .bfx d a b => some (encOpB 0x28 d a b)
  | .bfxu d a b => some (encOpB 0x29 d a b)
  | .bfi d a b => some (encOpB 0x2A d a b)
  | .sel d a b => some (encOpB 0x30 d a b)
  | .lih d a i => some (encS 0x01 0x31 (srBits d) (srBits a) 0 i)
  | .addpc d i => some (encS 0x01 0x32 (srBits d) 0 0 i)
  | .fadd f d a b => some (encF 0 f d a b 0)
  | .fsub f d a b => some (encF 1 f d a b 0)
  | .fmul f d a b => some (encF 2 f d a b 0)
  | .ffma f d a b => some (encF 3 f d a b 0)
  | .fdiv f d a b => some (encF 4 f d a b 0)
  | .fsqrt f d a => some (encF 5 f d a 0 0)
  | .fmin f d a b => some (encF 6 f d a b 0)
  | .fmax f d a b => some (encF 7 f d a b 0)
  | .fcmp f d a b c => some (encF 8 f d a b (0#29 ++ (BitVec.ofFin c : BitVec 3)))
  | .fcvt d a s t => some (encS 0x02 (9#5 ++ t.bits.2) (srBits d) (srBits a) 0 (0#24 ++ t.bits.1 ++ s.bits))
  | .fclass f d a => some (encF 10 f d a 0 0)
  | .ld z acq s d a off => some (encS 0x03 (s.bits ++ 0#1 ++ bit1 acq ++ z.bits) (srBits d) (srBits a) 0 off)
  | .st z rel s b a off => some (encS 0x04 (s.bits ++ bit1 rel ++ 0#1 ++ z.bits) 0 (srBits a) (srBits b) off)
  | .amoadd z o s d b a => some (encAmo 0 z o s d b a)
  | .amoand z o s d b a => some (encAmo 1 z o s d b a)
  | .amoor z o s d b a => some (encAmo 2 z o s d b a)
  | .amoxor z o s d b a => some (encAmo 3 z o s d b a)
  | .amomin z o s d b a => some (encAmo 4 z o s d b a)
  | .amomax z o s d b a => some (encAmo 5 z o s d b a)
  | .amominu z o s d b a => some (encAmo 6 z o s d b a)
  | .amomaxu z o s d b a => some (encAmo 7 z o s d b a)
  | .amoswap z o s d b a => some (encAmo 8 z o s d b a)
  | .amocas z o s d b a => some (encAmo 9 z o s d b a)
  | .amofadd o s d b a => some (encAmo 10 false o s d b a)
  | .beq a b off => some (encS 0x06 0 0 (srBits a) (srBits b) off)
  | .bne a b off => some (encS 0x06 1 0 (srBits a) (srBits b) off)
  | .blt a b off => some (encS 0x06 2 0 (srBits a) (srBits b) off)
  | .bge a b off => some (encS 0x06 3 0 (srBits a) (srBits b) off)
  | .bltu a b off => some (encS 0x06 4 0 (srBits a) (srBits b) off)
  | .bgeu a b off => some (encS 0x06 5 0 (srBits a) (srBits b) off)
  | .jal d off => some (encS 0x07 0 (srBits d) 0 0 off)
  | .jalr d a off => some (encS 0x07 1 (srBits d) (srBits a) 0 off)
  | .rdcr d cr => some (encS 0x08 0 (srBits d) 0 0 (0#20 ++ cr))
  | .wrcr cr a => some (encS 0x08 1 0 (srBits a) 0 (0#20 ++ cr))
  | .setcr d cr a => some (encS 0x08 2 (srBits d) (srBits a) 0 (0#20 ++ cr))
  | .clrcr d cr a => some (encS 0x08 3 (srBits d) (srBits a) 0 (0#20 ++ cr))
  | .nop => some (encS 0x09 0x0 0 0 0 0)
  | .syscall i => some (encS 0x09 0x1 0 0 0 i)
  | .brk i => some (encS 0x09 0x2 0 0 0 i)
  | .eret => some (encS 0x09 0x3 0 0 0 0)
  | .exit => some (encS 0x09 0x4 0 0 0 0)
  | .fence k s => some (encS 0x09 0x5 0 0 0 (0#27 ++ s.bits ++ k.bits))
  | .ifence => some (encS 0x09 0x6 0 0 0 0)
  | .tlbinv a all => some (encS 0x09 0x7 0 (srBits a) 0 (0#31 ++ bit1 all))
  | .prefetch a l => some (encS 0x09 0x8 0 (srBits a) 0 (0#31 ++ bit1 l))
  | .cflush a e => some (encS 0x09 0x9 0 (srBits a) 0 (0#31 ++ bit1 e))
  | .cinv a l => some (encS 0x09 0xA 0 (srBits a) 0 (0#31 ++ bit1 l))
  | .stripBegin d a b cap => some (encS 0x0A 0 (srBits d) (srBits a) (srBits b) (0#16 ++ cap))
  | .stripNext d off => some (encS 0x0A 1 (srBits d) 0 0 off)
  | .stripExit => some (encS 0x0A 2 0 0 0 0)
  | .qpop d q => some (encS 0x0B 0 (srBits d) 0 (0#4 ++ (BitVec.ofFin q : BitVec 2)) 0)
  | .qpeek d q => some (encS 0x0B 1 (srBits d) 0 (0#4 ++ (BitVec.ofFin q : BitVec 2)) 0)
  | .qpush q a => some (encS 0x0B 2 0 (srBits a) (0#4 ++ (BitVec.ofFin q : BitVec 2)) 0)
  | .bq d q off => some (encS 0x0B 3 (srBits d) 0 (0#4 ++ (BitVec.ofFin q : BitVec 2)) off)
  | .bqz d q off => some (encS 0x0B 4 (srBits d) 0 (0#4 ++ (BitVec.ofFin q : BitVec 2)) off)
  | .vadd m d a b => some (encVB 0x10 0x00 m d a b 0 0)
  | .vsub m d a b => some (encVB 0x10 0x01 m d a b 0 0)
  | .vmul m d a b => some (encVB 0x10 0x02 m d a b 0 0)
  | .vdiv m d a b => some (encVB 0x10 0x04 m d a b 0 0)
  | .vmin m d a b => some (encVB 0x10 0x06 m d a b 0 0)
  | .vmax m d a b => some (encVB 0x10 0x07 m d a b 0 0)
  | .vfma m d a b c => some (encVB 0x10 0x08 m d a b (vrBits c) 0)
  | .vfms m d a b c => some (encVB 0x10 0x09 m d a b (vrBits c) 0)
  | .vfnma m d a b c => some (encVB 0x10 0x0A m d a b (vrBits c) 0)
  | .vabs m d a => some (encV1 0x10 0x0B m d a 0)
  | .vneg m d a => some (encV1 0x10 0x0C m d a 0)
  | .vsqrt m d a => some (encV1 0x10 0x0D m d a 0)
  | .vand m d a b => some (encVB 0x10 0x10 m d a b 0 0)
  | .vor m d a b => some (encVB 0x10 0x11 m d a b 0 0)
  | .vxor m d a b => some (encVB 0x10 0x12 m d a b 0 0)
  | .vnot m d a => some (encV1 0x10 0x13 m d a 0)
  | .vshl m d a b => some (encVB 0x10 0x14 m d a b 0 0)
  | .vshr m d a b => some (encVB 0x10 0x15 m d a b 0 0)
  | .vsar m d a b => some (encVB 0x10 0x16 m d a b 0 0)
  | .vcvt m d a => some (encV1 0x10 0x20 m d a 0)
  | .vcvtsr m d a b => some (encV2 0x10 0x21 m d a b)
  | .vmov m d a => some (encV1 0x10 0x22 m d a 0)
  | .vbcast m d a i => some (encV1 0x10 0x23 m d a i)
  | .vbcastScalar m d s => some (encV 0x10 0x23 m (vrBits d) 0 0 0 1 (srBits s) 0)
  | .vsel m d a b c => some (encVB 0x10 0x24 m d a b (vrBits c) 0)
  | .vtwosum m d a b => some (encVB 0x10 0x25 m d a b 0 0)
  | .vscalb m d a b => some (encVB 0x10 0x26 m d a b 0 0)
  | .vqpush m q a i => some (encVQ 0x10 0x28 m q a i)
  | .vqpop m d q => some (encV 0x10 0x29 m (vrBits d) (0#3 ++ (BitVec.ofFin q : BitVec 2)) 0 0 0 0 0)
  | .vcmp m d a b c => some (encVB 0x11 0x00 m d a b 0 (BitVec.ofNat 16 c.val))
  | .vmpopc m q a => some (encVQ 0x11 0x01 m q a 0)
  | .vmfirst m q a => some (encVQ 0x11 0x02 m q a 0)
  | .vmany m q a => some (encVQ 0x11 0x03 m q a 0)
  | .vslideup m d a off i => some (encV 0x12 0x00 m (vrBits d) (vrBits a) 0 0 (insBits i).1 (insBits i).2 off)
  | .vslidedn m d a off i => some (encV 0x12 0x01 m (vrBits d) (vrBits a) 0 0 (insBits i).1 (insBits i).2 off)
  | .vperm m d a c i => some (encV 0x12 0x02 m (vrBits d) (vrBits a) 0 (vrBits c) (insBits i).1 (insBits i).2 0)
  | .vcompress m d a => some (encV1 0x12 0x03 m d a 0)
  | .vexpand m d a => some (encV1 0x12 0x04 m d a 0)
  | .vrev m d a => some (encV1 0x12 0x05 m d a 0)
  | .vzip m d a b => some (encV2 0x12 0x06 m d a b)
  | .vunzipe m d a b => some (encV2 0x12 0x07 m d a b)
  | .vunzipo m d a b => some (encV2 0x12 0x08 m d a b)
  | .vinsert m d s i => some (encV 0x12 0x09 m (vrBits d) 0 0 0 1 (srBits s) i)
  | .vredsum m d a => some (encV1 0x13 0x00 m d a 0)
  | .vredmin m d a => some (encV1 0x13 0x01 m d a 0)
  | .vredmax m d a => some (encV1 0x13 0x02 m d a 0)
  | .vredand m d a => some (encV1 0x13 0x03 m d a 0)
  | .vredor m d a => some (encV1 0x13 0x04 m d a 0)
  | .vredts m d a b => some (encV2 0x13 0x06 m d a b)
  | .vscan m d a op => some (encV1 0x13 0x07 m d a (BitVec.ofNat 16 op.val))
  | .vcfgw s => some (encV 0x14 0x00 {} 0 0 0 0 1 (srBits s) 0)
  | .vcfgwTag s d a t => some (encV 0x14 0x00 {} (vrBits d) (vrBits a) 0 0 1 (srBits s) (1#8 ++ t))
  | .vtag d a t => some (encV1 0x14 0x01 {} d a (0#8 ++ t))
  | .vgettag m q a => some (encVQ 0x14 0x02 m q a 0)
  | .vidx m d st sp => some (encV 0x14 0x03 m (vrBits d) 0 (sp.extractLsb' 5 5) (sp.extractLsb' 0 5) 0 0 st)
  | .vsetvl s cap => some (encV 0x14 0x04 {} 0 0 0 0 1 (srBits s) cap)
  | .vsetvlQueue q s cap => some (encV 0x14 0x04 {} (0#3 ++ (BitVec.ofFin q : BitVec 2)) 0 0 0 1 (srBits s) cap)
  | .vscget m d a => some (encV1 0x14 0x05 m d a 0)
  | .vscset m d a => some (encV1 0x14 0x06 m d a 0)
  | .vld m d a b off => some (encM 0x1C 0 m (vrBits d) 0 (srBits a) (srBits b) off)
  | .vlds m d a b off => some (encM 0x1C 1 m (vrBits d) 0 (srBits a) (srBits b) off)
  | .vldx m d i a off => some (encM 0x1C 2 m (vrBits d) (vrBits i) (srBits a) 0 off)
  | .vldff m d a off => some (encM 0x1C 4 m (vrBits d) 0 (srBits a) 0 off)
  | .vst m d a b off => some (encM 0x1D 0 m (vrBits d) 0 (srBits a) (srBits b) off)
  | .vsts m d a b off => some (encM 0x1D 1 m (vrBits d) 0 (srBits a) (srBits b) off)
  | .vstxo m d i a off => some (encM 0x1D 2 m (vrBits d) (vrBits i) (srBits a) 0 off)
  | .vstxu m d i a off => some (encM 0x1D 3 m (vrBits d) (vrBits i) (srBits a) 0 off)
  | .vamoadd m d i a off => some (encM 0x1F 0 m (vrBits d) (vrBits i) (srBits a) 0 off)
  | .vamomin m d i a off => some (encM 0x1F 1 m (vrBits d) (vrBits i) (srBits a) 0 off)
  | .vamomax m d i a off => some (encM 0x1F 2 m (vrBits d) (vrBits i) (srBits a) 0 off)
  | .vamofadd m d i a off => some (encM 0x1F 3 m (vrBits d) (vrBits i) (srBits a) 0 off)
  | .stream m d a b off => some (encM 0x1E 0 m (vrBits d) 0 (srBits a) (srBits b) off)
  | .streamseg m d a b i f off =>
    some (encM 0x1E 1 m (vrBits d) (vrBits i) (srBits a) (srBits b) ((BitVec.ofFin f : BitVec 3) ++ off))
  | .copy s a b off => some (encM 0x1E 2 { scope := s } 0 0 (srBits a) (srBits b) off)
  | .tshape a b k af bf zf => some (encT 0x0 0 0 (srBits a) (srBits b) 0 false (0#1 ++ zf ++ bf ++ af ++ k))
  | .attach => some (encT 0x1 0 0 0 0 0 false 0)
  | .attachW => some (encT 0x1 0 0 0 0 0 false 1)
  | .detach => some (encT 0x2 0 0 0 0 0 false 0)
  | .tlda l a b so => some (encT 0x3 0 l.bits (srBits a) (srBits b) 0 false so)
  | .tldb l a b so => some (encT 0x4 0 l.bits (srBits a) (srBits b) 0 false so)
  | .tldax l a b i so => some (encT 0x5 0 l.bits (srBits a) (srBits b) (vrBits i) false so)
  | .tldv l i => some (encT 0x6 0 l.bits 0 0 (vrBits i) false 0)
  | .tmma z a b => some (encT 0x7 (BitVec.ofFin z) (bit1 a ++ bit1 b) 0 0 0 false 0)
  | .tzero z => some (encT 0x8 (BitVec.ofFin z) 0 0 0 0 false 0)
  | .tst z o a b none => some (encT 0x9 (BitVec.ofFin z) o.bits (srBits a) (srBits b) 0 false 0)
  | .tst z o a b (some r) =>
    some (encT 0x9 (BitVec.ofFin z) o.bits (srBits a) (srBits b) ((srBits r.reg).extractLsb' 0 5) true r.d)
  | .tstv z i none => some (encT 0xA (BitVec.ofFin z) 0 0 0 (vrBits i) false 0)
  | .tstv z i (some r) => some (encT 0xA (BitVec.ofFin z) 0 (srBits r.reg) 0 (vrBits i) true r.d)
  | .tsave z a => some (encT 0xB (BitVec.ofFin z) 0 (srBits a) 0 0 false 0)
  | .trestore z a => some (encT 0xC (BitVec.ofFin z) 0 (srBits a) 0 0 false 0)
  | .mfence => some (encT 0xD 0 0 0 0 0 false 0)
  | .mwait => some (encT 0xE 0 0 0 0 0 false 0)
  | .waitw d a b c g =>
    some (encS 0x21 0 (srBits d) (srBits a) (srBits b) (0#22 ++ (BitVec.ofFin g : BitVec 2) ++ 0#5 ++ c.bits))
  | .arrive b => some (encS 0x21 1 0 0 0 (0#28 ++ (BitVec.ofFin b : BitVec 4)))
  | .waitb d b => some (encS 0x21 2 (srBits d) 0 0 (0#28 ++ (BitVec.ofFin b : BitVec 4)))
  | .syncb d b => some (encS 0x21 3 (srBits d) 0 0 (0#28 ++ (BitVec.ofFin b : BitVec 4)))
  | .waitbm d a b => some (encS 0x21 4 (srBits d) (srBits a) (srBits b) 0)
  | .bmtest d a b => some (encS 0x21 5 (srBits d) (srBits a) (srBits b) 0)
  | .bmclr a b => some (encS 0x21 6 0 (srBits a) (srBits b) 0)
  | .yield => some (encS 0x21 7 0 0 0 0)
  | .lease d k p => some (encS 0x22 0 (srBits d) 0 0 (0#25 ++ (BitVec.ofFin p : BitVec 3) ++ k.bits))
  | .leaseW d k p => some (encS 0x22 0 (srBits d) 0 0 (0#23 ++ 1#1 ++ 0#1 ++ (BitVec.ofFin p : BitVec 3) ++ k.bits))
  | .release a => some (encS 0x22 1 0 (srBits a) 0 0)
  | .lstat d a => some (encS 0x22 2 (srBits d) (srBits a) 0 0)
  | .equery d e => some (encS 0x22 3 (srBits d) 0 0 (0#31 ++ bit1 e))
  | .sfn m d a f h => some (encE 0 m d a (BitVec.ofNat 16 f.val) h)
  | .xsort m d a ds ix h => some (encE 1 m d a (0#14 ++ bit1 ix ++ bit1 ds) h)
  | .xtopk m d a k sm h => some (encE 2 m d a (bit1 sm ++ 0#2 ++ k) h)
  | .xhist m d a h => some (encE 3 m d a 0 h)
  | .cred m d a op sp id h => some (encE 4 m d a (id ++ 0#3 ++ (BitVec.ofFin sp : BitVec 2) ++ BitVec.ofNat 3 op.val) h)
  | .cgather m d a sp id h => some (encE 5 m d a (id ++ 0#3 ++ (BitVec.ofFin sp : BitVec 2) ++ 0#3) h)
  | .cbcast m d a r sp id h => some (encE 6 m d a (id ++ 0#2 ++ bit1 r ++ (BitVec.ofFin sp : BitVec 2) ++ 0#3) h)
  | .launch d a => some (encS 0x24 0 (srBits d) (srBits a) 0 0)
  | .ljoin d a => some (encS 0x24 1 (srBits d) (srBits a) 0 0)
  | .lcancel d a => some (encS 0x24 2 (srBits d) (srBits a) 0 0)
  | .vrng m d => some (encV 0x25 0 m (vrBits d) 0 0 0 0 0 0)
  | .rngseed m s => some (encV 0x25 1 m 0 0 0 0 1 (srBits s) 0)
  | .unassignedPattern w => some w
  | _ => none

/-- The word of an instruction, 0 for an event: what a trap reports in TVAL for ILLEGAL and PRIV (R328). -/
def wordOf (i : Instr) : Word := (encode i).getD 0

/-- Decoding (R70): checks 1 and 2 give the unassigned pattern; a nonzero bit in a field the instruction does not
use shows as a word that differs from the instruction's own (check 3); then the ranges (check 4). -/
def decode (w : Word) : Except Reject Instr :=
  match parse w with
  | .error .unassigned => .ok (.unassignedPattern w)
  | .error e => .error e
  | .ok i =>
    if encode i = some w then
      if i.wf then .ok i else .error .outOfRange
    else .error .unusedField

/-- Little-endian bytes as a number: the first byte holds the lowest bits (R65). -/
def leBytesToNat : List Byte → Nat
  | [] => 0
  | b :: bs => b.toNat + 256 * leBytesToNat bs

/-- The n low bytes of a number, lowest first. -/
def natToLeBytes : Nat → Nat → List Byte
  | 0, _ => []
  | n + 1, x => BitVec.ofNat 8 x :: natToLeBytes n (x / 256)

/-- Decoding from memory bytes: eight of them, little-endian (R65). -/
def decodeBytes (bs : List Byte) : Except Reject Instr :=
  if bs.length < 8 then .error .outOfRange else decode (BitVec.ofNat 64 (leBytesToNat (bs.take 8)))

/-- What the decoder reads from a word numbered as the opcode table numbers it; every SX4 word is 64 bits (R65), and
a word outside the assigned patterns of R70 decodes to nothing. -/
def decodeTableWord (_nbits w : Nat) : Option Instr :=
  match decodeBytes (natToLeBytes 8 w) with
  | .ok i => some i
  | .error _ => none

end Sys2Proof
end

