-- ==== Sys2Proof/Machine/Num.lean ====
section
/-! DEFINITION. Number formats, exact values and rounding (R30–R48). -/

namespace Sys2Proof.Machine

/-- The floating-point formats of R30. -/
inductive FF where
  | e4m3 | e5m2 | fp16 | bf16 | fp32 | fp64
  deriving DecidableEq, Repr

/-- The element formats a tag's code names (R45). -/
inductive Fmt where
  | untagged | mask
  | i8 | u8 | i16 | u16 | i32 | u32 | i64 | u64
  | fp (f : FF)
  | int4g | int3g
  deriving DecidableEq, Repr

/-- The rounding modes of VTYPE.RM. -/
inductive RM where
  | rne | rtz | rdn | rup | rmm
  deriving DecidableEq, Repr

/-- The five floating-point flags of VFLAGS (R40). -/
structure Flags where
  nv : Bool := false
  dz : Bool := false
  of : Bool := false
  uf : Bool := false
  nx : Bool := false
  deriving DecidableEq, Repr

/-- The modes an operation is performed under: VTYPE's or those TSHAPE captured (R41). -/
structure Modes where
  rm : RM := .rne
  daz : Bool := false
  ftz : Bool := false
  sat : Bool := false
  deriving DecidableEq, Repr

/-- An exact value: a NaN, an infinity, or (m + a little when sticky) × 2^e with a sign. -/
inductive XVal where
  | nan (signalling : Bool)
  | inf (neg : Bool)
  | fin (neg : Bool) (m : Nat) (e : Int) (sticky : Bool)
  deriving DecidableEq, Repr

/-- How a rounding decides: by a mode (R38) or by sixteen random bits (R42). -/
inductive How where
  | mode (rm : RM)
  | srnd (rb : Nat)
  deriving DecidableEq, Repr

/-- A value and the flags its computation raised. -/
structure Flagged (α : Type) where
  val : α
  flags : Flags := {}
  deriving DecidableEq, Repr

/-! ### Flags -/

/-- Flags gathered from two results (R40). -/
def Flags.or (a b : Flags) : Flags :=
  { nv := a.nv || b.nv, dz := a.dz || b.dz, of := a.of || b.of, uf := a.uf || b.uf, nx := a.nx || b.nx }

/-- NV alone. -/
def flagNV : Flags := { nv := true }

/-- NV when a condition holds. -/
def nvIf (b : Bool) : Flags := { nv := b }

/-- Flags as VFLAGS bits 4:0 (VFLAGS table). -/
def Flags.bits (f : Flags) : BitVec 5 := bit1 f.nv ++ bit1 f.dz ++ bit1 f.of ++ bit1 f.uf ++ bit1 f.nx

/-! ### Format parameters (R30) -/

/-- Width of the exponent field. -/
def FF.expBits : FF → Nat
  | .e4m3 => 4 | .e5m2 => 5 | .fp16 => 5 | .bf16 => 8 | .fp32 => 8 | .fp64 => 11

/-- Width of the fraction field. -/
def FF.fracBits : FF → Nat
  | .e4m3 => 3 | .e5m2 => 2 | .fp16 => 10 | .bf16 => 7 | .fp32 => 23 | .fp64 => 52

/-- Bits of an element. -/
def FF.width (f : FF) : Nat := 1 + f.expBits + f.fracBits

/-- The exponent bias. -/
def FF.bias (f : FF) : Int := 2 ^ (f.expBits - 1) - 1

/-- Precision P, the hidden bit counted. -/
def FF.prec (f : FF) : Nat := f.fracBits + 1

/-- EMIN: the exponent of the smallest normal. -/
def FF.emin (f : FF) : Int := 1 - f.bias

/-- The all-ones exponent field. -/
def FF.expMax (f : FF) : Nat := 2 ^ f.expBits - 1

/-- The exponent of the largest finite number; E4M3 uses its all-ones field (R31). -/
def FF.emax (f : FF) : Int := if f = .e4m3 then 8 else f.bias

/-- Sign, exponent field and fraction put together. -/
def FF.pack (f : FF) (neg : Bool) (e frac : Nat) : Nat :=
  neg.toNat * 2 ^ (f.width - 1) + e * 2 ^ f.fracBits + frac

/-- The canonical quiet NaN (R32). -/
def FF.qnan (f : FF) : Nat :=
  if f = .e4m3 then 0x7F else f.pack false f.expMax (2 ^ (f.fracBits - 1))

/-- The largest finite number, with a sign. -/
def FF.maxf (f : FF) (neg : Bool) : Nat :=
  if f = .e4m3 then f.pack neg 15 6 else f.pack neg (f.expMax - 1) (2 ^ f.fracBits - 1)

/-- An infinity; E4M3 has none (its callers go through FF.infinity). -/
def FF.infBits (f : FF) (neg : Bool) : Nat := f.pack neg f.expMax 0

/-- A subnormal encoding (R31). -/
def FF.isSubnormal (f : FF) (b : Nat) : Bool :=
  b / 2 ^ f.fracBits % 2 ^ f.expBits == 0 && b % 2 ^ f.fracBits != 0

/-- The sign bit. -/
def FF.sign (f : FF) (b : Nat) : Bool := b / 2 ^ (f.width - 1) % 2 == 1

/-- VAL of an encoding (R31, R32). -/
def FF.val (f : FF) (b : Nat) : XVal :=
  let neg := f.sign b
  let e := b / 2 ^ f.fracBits % 2 ^ f.expBits
  let frac := b % 2 ^ f.fracBits
  if f = .e4m3 && e == 15 && frac == 7 then .nan false
  else if f != .e4m3 && e == f.expMax then
    if frac == 0 then .inf neg else .nan (frac < 2 ^ (f.fracBits - 1))
  else if e == 0 then .fin neg frac (f.emin - f.fracBits) false
  else .fin neg (2 ^ f.fracBits + frac) (e - f.bias - f.fracBits) false

/-- A source read with DAZ (R41): a subnormal is a zero of its own sign. -/
def FF.src (f : FF) (daz : Bool) (b : Nat) : XVal :=
  if daz && f.isSubnormal b then .fin (f.sign b) 0 0 false else f.val b

/-! ### Exact values -/

/-- A signed zero. -/
def XVal.zero (neg : Bool) : XVal := .fin neg 0 0 false

/-- An integer as an exact value; zero is +0. -/
def XVal.ofInt (i : Int) : XVal := .fin (i < 0) i.natAbs 0 false

/-- A NaN of either kind. -/
def XVal.isNan : XVal → Bool
  | .nan _ => true
  | _ => false

/-- A signalling NaN (R32). -/
def XVal.isSnan : XVal → Bool
  | .nan s => s
  | _ => false

/-- An infinity. -/
def XVal.isInf : XVal → Bool
  | .inf _ => true
  | _ => false

/-- A zero. -/
def XVal.isZero : XVal → Bool
  | .fin _ m _ st => m == 0 && !st
  | _ => false

/-- A finite value other than zero. -/
def XVal.isFinNonzero : XVal → Bool
  | .fin _ m _ st => !(m == 0 && !st)
  | _ => false

/-- The sign of a value; a NaN has none. -/
def XVal.neg : XVal → Bool
  | .nan _ => false
  | .inf s => s
  | .fin s _ _ _ => s

/-- The value with its sign set. -/
def XVal.withSign (s : Bool) : XVal → XVal
  | .nan q => .nan q
  | .inf _ => .inf s
  | .fin _ m e st => .fin s m e st

/-- The negated value. -/
def XVal.negate (x : XVal) : XVal := x.withSign (!x.neg)

/-- The magnitude. -/
def XVal.abs (x : XVal) : XVal := x.withSign false

/-- A value times a power of two, exactly. -/
def XVal.scale (k : Int) : XVal → XVal
  | .fin s m e st => .fin s m (e + k) st
  | x => x

/-- The exponent of the leading bit of a nonzero finite value: floor of its base-2 logarithm. -/
def XVal.lead : XVal → Int
  | .fin _ m e _ => m.log2 + e
  | _ => 0

/-- The signed integer a finite value is at exponent e, no greater than its own. -/
def XVal.atExp (e : Int) : XVal → Int
  | .fin s m e' _ => let k := (m <<< (e' - e).toNat : Nat); if s then -(k : Int) else k
  | _ => 0

/-- The exponent of a finite value's lowest unit; 0 for a zero, so that zeros align with anything. -/
def XVal.unit : XVal → Option Int
  | .fin _ m e _ => if m == 0 then none else some e
  | _ => none

/-- The exact sum of two finite values; an exact zero has the sign of R39. -/
def addFin (rm : RM) (x y : XVal) : XVal :=
  match x.unit, y.unit with
  | none, none => .zero (if x.neg == y.neg then x.neg else rm == .rdn)
  | none, some _ => y
  | some _, none => x
  | some a, some b =>
    let e := min a b
    let v := x.atExp e + y.atExp e
    if v == 0 then .zero (rm == .rdn) else .fin (v < 0) v.natAbs e false

/-- x + y, with NV for a signalling NaN and for infinities of opposite sign (R32). -/
def addX (rm : RM) (x y : XVal) : Flagged XVal :=
  if x.isNan || y.isNan then { val := .nan false, flags := nvIf (x.isSnan || y.isSnan) }
  else match x, y with
  | .inf a, .inf b => if a == b then { val := x } else { val := .nan false, flags := flagNV }
  | .inf _, _ => { val := x }
  | _, .inf _ => { val := y }
  | _, _ => { val := addFin rm x y }

/-- x × y, with NV for a signalling NaN and for 0 × ∞ (R32); a zero takes the XOR of the signs (R39). -/
def mulX (x y : XVal) : Flagged XVal :=
  if x.isNan || y.isNan then { val := .nan false, flags := nvIf (x.isSnan || y.isSnan) }
  else
    let s := x.neg != y.neg
    match x, y with
    | .fin _ a e _, .fin _ b e' _ => { val := .fin s (a * b) (e + e') false }
    | _, _ => if x.isZero || y.isZero then { val := .nan false, flags := flagNV } else { val := .inf s }

/-- x ÷ y, with DZ for a finite nonzero value over zero and NV for 0/0 and ∞/∞ (R32, R40). -/
def divX (x y : XVal) : Flagged XVal :=
  if x.isNan || y.isNan then { val := .nan false, flags := nvIf (x.isSnan || y.isSnan) }
  else
    let s := x.neg != y.neg
    match x, y with
    | .inf _, .inf _ => { val := .nan false, flags := flagNV }
    | .inf _, _ => { val := .inf s }
    | _, .inf _ => { val := .zero s }
    | .fin _ a e _, .fin _ b e' _ =>
      if b == 0 then
        if a == 0 then { val := .nan false, flags := flagNV } else { val := .inf s, flags := { dz := true } }
      else if a == 0 then { val := .zero s }
      else
        let sh := 70 + b.log2
        let n := a <<< sh
        { val := .fin s (n / b) (e - e' - sh) (n % b != 0) }
    | _, _ => { val := .nan false }

/-- One bit of the integer square root, from bit k down. -/
def isqrtLoop : Nat → Nat → Nat → Nat
  | 0, _, r => r
  | k + 1, n, r => let t := r + 2 ^ k; isqrtLoop k n (if t * t ≤ n then t else r)

/-- The integer square root, rounded down. -/
def isqrt (n : Nat) : Nat := isqrtLoop (n.log2 / 2 + 1) n 0

/-- The square root of x (R32: NV for a negative nonzero number; a zero keeps its sign). -/
def sqrtX (x : XVal) : Flagged XVal :=
  match x with
  | .nan s => { val := .nan false, flags := nvIf s }
  | .inf s => if s then { val := .nan false, flags := flagNV } else { val := x }
  | .fin s m e _ =>
    if m == 0 then { val := x }
    else if s then { val := .nan false, flags := flagNV }
    else
      let sh := 140 + (e % 2).toNat
      let n := m <<< sh
      let r := isqrt n
      { val := .fin false r ((e - sh) / 2) (r * r != n) }

/-- x × y + z with one rounding to come (R122). -/
def fmaX (rm : RM) (x y z : XVal) : Flagged XVal :=
  let p := mulX x y
  let r := addX rm p.val z
  { val := r.val, flags := p.flags.or r.flags }

/-- Which of two values that are not NaN is less; −0 and +0 compare equal (R33). -/
def cmpX (x y : XVal) : Ordering :=
  match x, y with
  | .inf a, .inf b => compare b.toNat a.toNat
  | .inf a, _ => if a then .lt else .gt
  | _, .inf b => if b then .gt else .lt
  | _, _ =>
    match x.unit, y.unit with
    | none, none => .eq
    | none, some _ => if y.neg then .gt else .lt
    | some _, none => if x.neg then .lt else .gt
    | some a, some b => let e := min a b; compare (x.atExp e) (y.atExp e)

/-- MIN (or MAX, with wantMax) of R33: a number beats a NaN, −0 is below +0, a signalling NaN raises NV. -/
def minMaxX (wantMax : Bool) (x y : XVal) : Flagged XVal :=
  let fl := nvIf (x.isSnan || y.isSnan)
  if x.isNan then (if y.isNan then { val := .nan false, flags := fl } else { val := y, flags := fl })
  else if y.isNan then { val := x, flags := fl }
  else match cmpX x y with
  | .lt => { val := if wantMax then y else x, flags := fl }
  | .gt => { val := if wantMax then x else y, flags := fl }
  | .eq => { val := if (x.neg == wantMax) then y else x, flags := fl }

/-- TRUNC(x, w): toward zero to a multiple of 2^w (R44). -/
def truncX (w : Int) : XVal → XVal
  | .fin s m e st =>
    if e ≥ w then .fin s m e st else .fin s (m >>> (w - e).toNat) w false
  | x => x

/-! ### Rounding (R38, R40–R42) -/

/-- A magnitude (m, sticky) × 2^e in units of 2^q: the floor, whether anything is left, and whether to go up. -/
def roundUnits (how : How) (neg : Bool) (m : Nat) (e q : Int) (sticky : Bool) : Nat × Bool × Bool :=
  if q ≤ e then (m <<< (e - q).toNat, sticky, false)
  else
    let sh := (q - e).toNat
    let lo := m >>> sh
    let d := m % 2 ^ sh
    let half := 2 ^ (sh - 1)
    let inexact := d != 0 || sticky
    let up := match how with
      | .mode .rne => d > half || (d == half && (sticky || lo % 2 == 1))
      | .mode .rmm => d ≥ half
      | .mode .rtz => false
      | .mode .rdn => inexact && neg
      | .mode .rup => inexact && !neg
      | .srnd rb => d * 65536 / 2 ^ sh + rb ≥ 65536
    (lo, inexact, up)

/-- What an infinity becomes in a format: itself, or for E4M3 NaN with NV, ±448 when saturating (R38). -/
def FF.infinity (f : FF) (sat neg : Bool) : Flagged Nat :=
  if f = .e4m3 then
    if sat then { val := f.maxf neg } else { val := f.qnan, flags := flagNV }
  else { val := f.infBits neg }

/-- The overflow result (R38 table): OF and NX. -/
def FF.overflow (f : FF) (how : How) (sat neg : Bool) : Flagged Nat :=
  let fl : Flags := { of := true, nx := true }
  let toMax := match how with
    | .mode .rtz => true
    | .mode .rdn => !neg
    | .mode .rup => neg
    | _ => false
  if toMax then { val := f.maxf neg, flags := fl }
  else if f = .e4m3 then { val := if sat then f.maxf neg else f.qnan, flags := fl }
  else { val := f.infBits neg, flags := fl }

/-- The encoding of k × 2^q, already a number of the format. -/
def FF.encodeUnits (f : FF) (neg : Bool) (k : Nat) (q : Int) : Nat :=
  if k == 0 then f.pack neg 0 0
  else
    let lead : Int := k.log2 + q
    if lead < f.emin then f.pack neg 0 (k <<< (q - (f.emin - f.fracBits)).toNat)
    else
      let frac := if f.fracBits ≥ k.log2 then k <<< (f.fracBits - k.log2) else k >>> (k.log2 - f.fracBits)
      f.pack neg (lead + f.bias).toNat (frac - 2 ^ f.fracBits)

/-- Whether k × 2^q exceeds the largest finite number of the format. -/
def FF.tooBig (f : FF) (k : Nat) (q : Int) : Bool :=
  k != 0 &&
  (k.log2 + q > f.emax ||
    (k.log2 + q == f.emax && f == .e4m3 && k.log2 < f.prec && (k <<< (f.prec - 1 - k.log2)) > 14))

/-- ROUND or SRND into a format, then FTZ, with the flags of R40. A value delivered as the smallest normal or more
is not tiny (DEDUCED, log 6). -/
def FF.roundBy (f : FF) (how : How) (ftz sat : Bool) (x : XVal) : Flagged Nat :=
  match x with
  | .nan _ => { val := f.qnan }
  | .inf s => f.infinity sat s
  | .fin s m e st =>
    if m == 0 then { val := f.pack s 0 0 }
    else
      let E := max (m.log2 + e) f.emin
      let q := E - f.fracBits
      let (lo, inexact, up) := roundUnits how s m e q st
      let k := lo + up.toNat
      if f.tooBig k q then f.overflow how sat s
      else
        let subnormal := k == 0 || k.log2 + q < f.emin
        if ftz && subnormal && (k != 0 || inexact) then
          { val := f.pack s 0 0, flags := { uf := true, nx := true } }
        else { val := f.encodeUnits s k q, flags := { uf := inexact && subnormal, nx := inexact } }

/-- RESULT into a floating format (R44). -/
def FF.result (f : FF) (md : Modes) (x : XVal) : Flagged Nat := f.roundBy (.mode md.rm) md.ftz md.sat x

/-- RNE(x, fmt) with FTZ as given (R44). -/
def FF.rne (f : FF) (ftz : Bool) (x : XVal) : Flagged Nat := f.roundBy (.mode .rne) ftz false x

/-- A value rounded to an integer (R48), and whether it moved. -/
def toIntBy (how : How) : XVal → Int × Bool
  | .fin s m e st =>
    if m == 0 then (0, false)
    else
      let (lo, inexact, up) := roundUnits how s m e 0 st
      let k : Int := (lo + up.toNat : Nat)
      (if s then -k else k, inexact)
  | _ => (0, false)

/-! ### Integers (R37) -/

/-- The range of an integer format of a width. -/
def intMin (signed : Bool) (w : Nat) : Int := if signed then -(2 ^ (w - 1) : Nat) else 0

/-- The largest value of an integer format of a width. -/
def intMax (signed : Bool) (w : Nat) : Int := if signed then (2 ^ (w - 1) : Nat) - 1 else (2 ^ w : Nat) - 1

/-- An integer held in the low w bits of a number. -/
def intVal (signed : Bool) (w : Nat) (b : Nat) : Int :=
  let k := b % 2 ^ w
  if signed && 2 ^ (w - 1) ≤ k then (k : Int) - (2 ^ w : Nat) else k

/-- An integer modulo 2^w. -/
def wrapInt (w : Nat) (i : Int) : Nat := (i % (2 ^ w : Nat)).toNat

/-- An exact integer reduced to a width: modulo, or clamped when saturating (R37). -/
def reduceInt (sat signed : Bool) (w : Nat) (i : Int) : Nat :=
  wrapInt w (if sat then max (intMin signed w) (min (intMax signed w) i) else i)

/-- Float to integer (R48): NaN gives 0 and a value out of range the range's end, both with NV; NX when it moved. -/
def floatToInt (rm : RM) (signed : Bool) (w : Nat) (x : XVal) : Flagged Nat :=
  match x with
  | .nan _ => { val := 0, flags := flagNV }
  | .inf s => { val := wrapInt w (if s then intMin signed w else intMax signed w), flags := flagNV }
  | .fin .. =>
    let (i, inexact) := toIntBy (.mode rm) x
    if i < intMin signed w then { val := wrapInt w (intMin signed w), flags := flagNV }
    else if intMax signed w < i then { val := wrapInt w (intMax signed w), flags := flagNV }
    else { val := wrapInt w i, flags := { nx := inexact } }

/-! ### Tags (R14, R45, R46) -/

/-- The format of a tag byte, none when its code is reserved or BS stands where it may not (R35, R45). -/
def Fmt.ofTag (t : Byte) : Option Fmt :=
  if !tagDefined t then none
  else match t.toNat / 8 with
  | 0x00 => some .untagged | 0x01 => some .mask
  | 0x02 => some .i8 | 0x03 => some .u8 | 0x04 => some .i16 | 0x05 => some .u16
  | 0x06 => some .i32 | 0x07 => some .u32 | 0x08 => some .i64 | 0x09 => some .u64
  | 0x0A => some (.fp .e4m3) | 0x0B => some (.fp .e5m2) | 0x0C => some (.fp .fp16)
  | 0x0D => some (.fp .bf16) | 0x0E => some (.fp .fp32) | 0x0F => some (.fp .fp64)
  | 0x10 => some .int4g | 0x11 => some .int3g
  | _ => none

/-- The five-bit code of a format (R45). -/
def Fmt.code : Fmt → Nat
  | .untagged => 0x00 | .mask => 0x01
  | .i8 => 0x02 | .u8 => 0x03 | .i16 => 0x04 | .u16 => 0x05 | .i32 => 0x06 | .u32 => 0x07 | .i64 => 0x08
  | .u64 => 0x09
  | .fp .e4m3 => 0x0A | .fp .e5m2 => 0x0B | .fp .fp16 => 0x0C | .fp .bf16 => 0x0D | .fp .fp32 => 0x0E
  | .fp .fp64 => 0x0F
  | .int4g => 0x10 | .int3g => 0x11

/-- BS of a tag. -/
def tagBS (t : Byte) : Bool := t.toNat / 4 % 2 == 1

/-- Element bits (R45); 0 for an untagged register. -/
def Fmt.width : Fmt → Nat
  | .untagged => 0 | .mask => 1
  | .i8 | .u8 => 8 | .i16 | .u16 => 16 | .i32 | .u32 => 32 | .i64 | .u64 => 64
  | .fp f => f.width | .int4g => 4 | .int3g => 3

/-- An integer format's signedness; none for the others. -/
def Fmt.intSigned : Fmt → Option Bool
  | .i8 | .i16 | .i32 | .i64 => some true
  | .u8 | .u16 | .u32 | .u64 => some false
  | _ => none

/-- The elements of a register of vlen bytes (R14); an untagged register has no count of its own. -/
def Fmt.count (vlen : Nat) : Fmt → Nat
  | .untagged => vlen
  | .mask => vlen * 8
  | .int4g | .int3g => vlen * 2
  | f => vlen * 8 / f.width

/-- The operation format of two floating formats (R46 table). -/
def opFormat : FF → FF → FF
  | .e4m3, .e4m3 => .e4m3
  | .e5m2, .e5m2 => .e5m2
  | .fp64, _ | _, .fp64 => .fp64
  | .fp32, _ | _, .fp32 => .fp32
  | .bf16, .fp16 | .fp16, .bf16 => .fp32
  | .bf16, _ | _, .bf16 => .bf16
  | _, _ => .fp16

/-- The wider of a format and FP32: the reduction format (R54). -/
def redFormat (f : FF) : FF := if f = .fp64 then .fp64 else .fp32

end Sys2Proof.Machine

namespace Sys2Proof

/-- The floating format of scalar instructions (R68). -/
def FFmt.ff : FFmt → Machine.FF
  | .f32 => .fp32 | .f64 => .fp64 | .bf16 => .bf16 | .f16 => .fp16

/-- Bytes of a load size (R83). -/
def LSize.bytes : LSize → Nat
  | .b | .bu => 1 | .h | .hu => 2 | .w | .wu => 4 | .d => 8

/-- Whether a load size sign-extends (R83). -/
def LSize.signed : LSize → Bool
  | .b | .h | .w => true
  | _ => false

/-- Bytes of a store size (R84). -/
def SSize.bytes : SSize → Nat
  | .b => 1 | .h => 2 | .w => 4 | .d => 8

end Sys2Proof

namespace Sys2Proof.Machine

/-! ### Philox4x32-10 (R43) -/

/-- One round on four 32-bit words under a two-word key. -/
def philoxRound (k0 k1 : Nat) (c : Nat × Nat × Nat × Nat) : Nat × Nat × Nat × Nat :=
  let (c0, c1, c2, c3) := c
  let p0 := 0xD2511F53 * c0
  let p1 := 0xCD9E8D57 * c2
  ((p1 / 2 ^ 32) ^^^ c1 ^^^ k0, p1 % 2 ^ 32, (p0 / 2 ^ 32) ^^^ c3 ^^^ k1, p0 % 2 ^ 32)

/-- n rounds, the key stepping after each. -/
def philoxLoop : Nat → Nat → Nat → Nat × Nat × Nat × Nat → Nat × Nat × Nat × Nat
  | 0, _, _, c => c
  | n + 1, k0, k1, c =>
    philoxLoop n ((k0 + 0x9E3779B9) % 2 ^ 32) ((k1 + 0xBB67AE85) % 2 ^ 32) (philoxRound k0 k1 c)

/-- PHILOX: a 64-bit key, low word first, and a counter of four words (R43). -/
def philox (key : Word) (c0 c1 c2 c3 : Nat) : Nat × Nat × Nat × Nat :=
  philoxLoop 10 (key.toNat % 2 ^ 32) (key.toNat / 2 ^ 32)
    (c0 % 2 ^ 32, c1 % 2 ^ 32, c2 % 2 ^ 32, c3 % 2 ^ 32)

/-- The sixteen random bits of the stored element at row r and column c of depth strip d (R43). -/
def tileRandom (seed : Word) (r c d : Nat) : Nat :=
  let w := (philox seed r (c - c % 32) d 0).1
  ((BitVec.ofNat 32 w).rotateLeft ((7 * (c % 32)) % 32)).toNat % 2 ^ 16

end Sys2Proof.Machine
end

