-- ==== Sys2Proof/Machine/State.lean ====
section
/-! DEFINITION. The state of the module: all that the manual gives it, as plain data, and its value at reset. -/

namespace Sys2Proof.Machine

/-! ### The runner -/

/-- A vector register (R14, R15): its low VLEN bytes, its tag, and VLEN/16 sidecar entries of 16 bits. -/
structure VReg where
  data : BitVec 16384 := 0
  tag : Byte := 0
  side : BitVec 2048 := 0
  deriving DecidableEq, Repr

/-- The level and the system registers of a runner (R29, 0x100–0x107). -/
structure Sysr where
  sys : Bool := false
  tcause : Word := 0
  tepc : Word := 0
  tval : Word := 0
  tvec : Word := 0
  inh : Bool := false
  ppl : Bool := false
  ptbase : Word := 0
  occupDie : BitVec 3 := 0
  occupSlice : BitVec 12 := 0
  deriving DecidableEq, Repr

/-- The scalar side of a runner: what R233 undoes when an earlier vector instruction traps; its poisoned registers
(R341); the registers that wait for the result of a held AMO, with the AMO's number (R233). -/
structure Scal where
  s : Vector Word 64
  pc : Word
  wdead : Word := 0
  bypass : BitVec 32 := 0x10000
  pinslice : Word := 0
  peek : Bool := false
  sysr : Sysr := {}
  bad : List SR := []
  pend : List (SR × Nat) := []
  deriving DecidableEq, Repr

/-- The vector side's registers (R14, control register map), with the poisoned words of registers (R341): register, 64-bit
word. -/
structure Vect where
  v : Vector VReg 32
  vl : Nat := 0
  vstart : Nat := 0
  vtype : Word := 0x200
  vflags : BitVec 5 := 0
  vlen : Nat := 128
  rngctr : Word := 0
  bad : List (VR × Nat) := []
  deriving DecidableEq, Repr

/-- A store until it performs: its bytes (address key, byte), the bits R245 counts, whether the vector side made it,
the slice PINSLICE names for it and whether it allocates (R153, R285), whether it is a release (R84), and who may still
read what it replaces once it has performed: the fetch (R105), a stream, a later copy (R103). Of a byte that it writes in part
only the bits of a mask (R156); and the bytes its instruction wrote before it in the same blocks, which count with its own
towards a block written whole (R341). -/
structure StoreAct where
  cells : List Host.Cell
  masks : List Host.Cell := []
  cover : List Nat := []
  count : Nat := 0
  byVec : Bool := false
  slice : Option Nat := none
  alloc : Bool := true
  rel : Bool := false
  fetch : Bool := true
  strm : Bool := true
  box : Bool := true
  deriving DecidableEq, Repr

/-- The strip registers, the hidden checkpoint with the SIND it was taken for (R22, R97, R109, R244) and the strip store
buffer (R87) with its use in bits (R245) and the cache actions that wait for a buffered store to their line (R108). -/
structure Strip where
  sc : Word := 0
  scap : BitVec 16 := 0
  sind : Word := 0
  rewinds : Nat := 0
  last : BitVec 2 := 0
  prot : Bool := false
  active : Bool := false
  ckPc : Word := 0
  ckSc : Word := 0
  ckRegs : Vector Word 64
  ckSind : Word := 0
  ckZeroed : BitVec 4 := 0
  uncorrSeen : Bool := false
  buf : List StoreAct := []
  lines : List (Nat × Nat) := []
  count : Nat := 0
  deriving DecidableEq, Repr

/-- What an instruction waits for on the way to an effect that is not on this module (R91, R301, R304), the packed lists of an
indexed access among it (R306), or for a wake (R198, R315) or a page on the move (R303). -/
inductive Ask where
  | service (va : Word)
  | peer (module : Nat) (acc : OutAccess)
  | host (acc : OutAccess)
  | wake
  | unit
  | admission
  | moving
  | lists (l : List (Nat × List OutAccess))
  deriving DecidableEq, Repr

/-- A copy (R161–R164): its engine's cluster, where each box element comes from and goes to, its bitmap and arrival,
the chunks landed, whether it goes to memory outside the local windows, whether it still waits for earlier stores to
perform, the peers it needs, the slices PINSLICE names for its lines (line, slice) and whether it allocates in L2. -/
structure CopyRec where
  id : Nat
  runner : RunnerId
  die : Nat := 0
  cluster : Nat := 0
  elems : List (Nat × Nat)
  esize : Nat
  bmap : Option Nat
  arv : Option BR
  landed : List Nat := []
  toMem : Bool := false
  waits : Bool := false
  peers : List Nat := []
  pins : List (Nat × Nat) := []
  alloc : Bool := true
  deriving DecidableEq, Repr

/-- An item of the vector instruction queue, in program order (R232, R233): a passed instruction, or an AMO that is
held, with its captured scalars and the scalar side as it was; a scalar-side store or action held until the vector
instructions before it complete; a push or pop of the scalar side that an earlier trap undoes. -/
inductive VItem where
  | vec (i : Instr) (a b : Word) (snap : Scal)
  | store (act : StoreAct)
  | bmclr (key : Nat) (mask : Word)
  | line (key mode : Nat)
  | copy (c : CopyRec)
  | fence (k : FenceKind) (scope : Scope)
  | ifence
  | flags (f : BitVec 5)
  | pushed (q : QR)
  | popped (q : QR) (w : Word)
  deriving DecidableEq, Repr

/-- Bytes one store replaced, and which observers of the same runner may still see them (R86, R103, R105, R159): the
instruction fetch, the vector side, the scalar side, a stream, a copy issued later (`box`), copies issued already. And
what makes its order known: whether it was a release, how many fences have ordered it before later stores (R276), whether
the end of a barrier's phase has drained it (R283), whether a latch load issued since waits for it (R173). Entries of one
number are parts of one store (R274). -/
structure Hist where
  num : Nat := 0
  byVec : Bool
  cells : List Host.Cell
  fetch : Bool
  vec : Bool
  scal : Bool
  strm : Bool
  box : Bool := false
  copies : List Nat := []
  rel : Bool := false
  ord : Nat := 0
  phase : Bool := false
  latch : Bool := false
  deriving DecidableEq, Repr

/-- A STREAM or STREAMSEG whose groups are landing (R158, R159): its number, its instruction with the captured
scalars, its element size, where the fields of each record lie with the value an outside agent gave at issue, the
records landed so far with the encodings of their fields, the PINSLICE it was issued under and whether it allocates. -/
structure StreamRec where
  id : Nat
  i : Instr
  a : Word
  b : Word
  es : Nat
  recs : List (Nat × List (Nat × Option Nat))
  landed : List (Nat × List Nat) := []
  pin : Word := 0
  alloc : Bool := true
  deriving DecidableEq, Repr

/-- The states of a lease (R200). -/
inductive LeaseSt where
  | waking | held | lostOrderly | lostEmergency | lostResume
  deriving DecidableEq, Repr

/-- A lease slot of a runner (R198, R200). -/
structure Lease where
  handle : Word
  kind : Kind
  pri : Fin 8
  st : LeaseSt
  engine : Option EngineId := none
  granted : Nat := 0
  charged : Nat := 0
  deriving DecidableEq, Repr

/-- The kinds of a scheduler-visible wait (R188). -/
inductive WaitKind where
  | word | barrier | bitmap | attach | lease | join | collective
  deriving DecidableEq, Repr

/-- The wait record (R188), with the register of its status, the heat it names, whether a SYNCB has arrived, and since when it
could end, of a runner that is saved inside it (R255). -/
structure WaitRec where
  kind : WaitKind
  what : Word
  code : Nat := 0
  value : Word := 0
  sd : SR := 0
  desig : Nat := 0
  pcls : Nat := 3
  entry : Nat := 0
  dead : Nat := 0
  named : Option Nat := none
  arrived : Bool := false
  endable : Option Nat := none
  deriving DecidableEq, Repr

/-- Where a runner stands (R102, R255, R301, R331). -/
inductive RStat where
  | absent | ready | waiting | stalled | stopped | saved | exited
  deriving DecidableEq, Repr

/-- The identity of a runner (R24, R250). -/
structure Ident where
  id : RunnerId := {}
  core : CoreId := {}
  linear : Nat := 0
  lidx : Vector (BitVec 32) 4
  lext : Vector (BitVec 32) 4
  cls : PClass := .weak
  pri : Fin 8 := 0
  seed : Word := 0
  ownBase : Word := 0
  deriving DecidableEq, Repr

/-- A translation a core holds (R299): its bank, the partition, the page and the leaf it was found with; or an entry of an
owner table, for the block of a distributed region (R305). -/
structure TlbEntry where
  bank : Nat
  part : Nat
  page : Nat
  size : Nat
  leaf : Word
  owner : Bool := false
  deriving DecidableEq, Repr

/-- A runner (R11–R18, R232–R245); the VSTART an access now stalled at an element began with (R301), and the working lane that
is shadowed while a paused instruction runs (R338); the translations the instruction under way has taken, which its other
elements in their pages use (R300); whether the last instruction completed was a YIELD (R197). -/
structure Runner where
  ident : Ident
  stat : RStat := .absent
  scal : Scal
  vect : Vect
  queues : Vector (List Word) 4
  vq : List VItem := []
  strip : Strip
  share : List StoreAct := []
  hist : List Hist := []
  streams : List StreamRec := []
  leases : Vector (Option Lease) 8
  leaseSeq : Nat := 0
  barw : BitVec 16 := 0
  sya : Option (Word × BR) := none
  eretPending : Bool := false
  wait : Option WaitRec := none
  asks : List Ask := []
  replies : List (Ask × Reply) := []
  fabric : Option Nat := none
  treq : Word := 0
  tfmt : BitVec 24 := 0
  vecWrites : BitVec 32 := 0
  collSeq : List (Nat × Nat) := []
  readySince : Nat := 0
  begun : Option Nat := none
  shadow : Nat := 0
  pages : List TlbEntry := []
  yielded : Bool := false
  deriving DecidableEq, Repr

/-! ### Teams and heats -/

/-- A barrier of a team (R18). -/
structure Barrier where
  expected : Nat := 1
  arrived : Nat := 0
  phase : Bool := false
  deriving DecidableEq, Repr

/-- Where a team stands (R253, R260, R102). -/
inductive TStat where
  | queued | resident | stopping | saved | retired
  deriving DecidableEq, Repr

/-- A latch row: its depth elements as encodings and its scale entry (R172). -/
structure LatchRow where
  elems : List (BitVec 64) := []
  scale : BitVec 16 := 127
  deriving DecidableEq, Repr

/-- What ended a core's share (R183, R184): a map-out, or an eviction with the address of the z0 image or 0; a wrong
residue or poison, with the runner that must be told and the trap value (R340, R341). -/
inductive TileLoss where
  | mapOut
  | evicted (va : Word)
  | residue (r : RunnerId) (tval : Word)
  | poisoned (r : RunnerId) (tval : Word)
  deriving DecidableEq, Repr

/-- A TLDV until the runner's next MFENCE or MWAIT (R175): its latch, its first register, whether that register's tag had
a block scale, the registers it has captured for good, since a later TSTV overwrites them (R165), its number among the
operations of the attach, and whether the latch still holds what it loaded. -/
structure TldvRec where
  runner : RunnerId
  latch : Latch
  vi : VR
  bs : Bool := false
  kept : List VR := []
  use : Nat := 0
  live : Bool := true
  deriving DecidableEq, Repr

/-- What a save keeps of a core's attach (R186, R335): its shape, modes, accumulators, latches with the TLDVs an MFENCE
still completes, and pending flags, whose ATTACH it was, and what ended a share that is lost; with GSTAT.STATUS of the core. -/
structure SavedAttach where
  slot : Nat := 0
  live : Bool := true
  gm : Nat := 0
  gn : Nat := 0
  gk : Nat := 0
  octants : Nat := 0
  gfmt : Word := 0
  acc : Vector (List (BitVec 64)) 4
  latches : Vector (List LatchRow) 4
  tldvs : List TldvRec := []
  flags : BitVec 5 := 0
  owner : RunnerId := {}
  loss : Option TileLoss := none
  status : BitVec 3 := 0
  deriving DecidableEq, Repr

/-- A team (R11, R253): among the rest the translated image it started with (R268), the class its reservation is for, and
the cluster whose cores it has reserved or the bytes of the pre-emption pool it holds (R256). -/
structure Team where
  id : TeamId
  uid : Nat
  stat : TStat := .queued
  place : Option Place := none
  queue : Nat := 0
  digit : Nat := 0
  homeDie : Option Nat := none
  split : Split := {}
  bars : Vector Barrier 16
  dispatched : Bool := false
  started : Bool := false
  attaches : List SavedAttach := []
  resvM : Option Bool := none
  resvAt : Option (Nat × Nat) := none
  resvPool : Nat := 0
  image : Option Nat := none
  deriving DecidableEq, Repr

/-- A heat (R11, R209–R211, R249–R251): among the rest the trap that ended it, with its tick and its runner (R247). -/
structure Heat where
  part : Nat
  id : Nat
  uid : Nat
  number : Nat := 0
  desc : HeatDesc := {}
  args : Word := 0
  seed : Word := 0
  pri : Fin 8 := 0
  loops : List Level := []
  launcher : Option Nat := none
  node : Option Nat := none
  live : Bool := true
  status : Nat := 0
  cancelled : Bool := false
  ecnt : Nat := 0
  order : Nat := 0
  admitted : Nat := 0
  trap : Option (Nat × Word × Word) := none
  trapBy : Option (Nat × RunnerId) := none
  deriving DecidableEq, Repr

/-! ### Cores, clusters, dies -/

/-- What a tile operation does to the accumulators and latches of its share (R166): it fills a latch, multiplies into an
accumulator, writes one anew, or stores one. -/
inductive TileAct where
  | load (l : Fin 4)
  | mma (z la lb : Fin 4)
  | clear (z : Fin 4)
  | store (z : Fin 4)
  deriving DecidableEq, Repr

/-- A tile operation until its runner's next MWAIT or a DETACH (R166): whose, its number, what it does, and the flags it has
raised that no MWAIT has taken (R179). -/
structure TileUse where
  runner : RunnerId
  num : Nat
  act : TileAct
  flags : Option (BitVec 5) := some 0
  deriving DecidableEq, Repr

/-- What a tile store has yet to deliver (R178, R181): its bytes or its register elements (register, index,
encoding), the bytes and registers another write has touched, the elements whose value is unpredictable, whether its strip is
protected, whether the unit has finished it, its number among the operations of the attach; of its bytes how many come before
the elements and how many an element has. -/
structure TileOp where
  runner : RunnerId
  cells : List Host.Cell := []
  elems : List (VR × Nat × Nat) := []
  taint : List Nat := []
  regTaint : List VR := []
  bad : List Nat := []
  prot : Bool := false
  done : Bool := false
  use : Nat := 0
  head : Nat := 0
  unit : Nat := 1
  deriving DecidableEq, Repr

/-- A latch row's source in memory until the runner's next MFENCE or MWAIT (R173): its bytes and the bits of one
element, or the bytes of its scale entry; the number of its load, and whether the latch still holds what that loaded. -/
structure Capture where
  runner : RunnerId
  latch : Fin 4
  row : Nat
  key : Nat
  len : Nat
  bits : Nat
  scale : Bool := false
  use : Nat := 0
  live : Bool := true
  deriving DecidableEq, Repr

/-- An attach (R16, R166–R186): among the rest its outstanding operations, and how many there have been. -/
structure Attach where
  gm : Nat := 0
  gn : Nat := 0
  gk : Nat := 0
  gfmt : Word := 0
  oct : BitVec 8 := 0
  unitL : Bool := false
  acc : Vector (List (BitVec 64)) 4
  latches : Vector (List LatchRow) 4
  flags : BitVec 5 := 0
  ops : List TileOp := []
  caps : List Capture := []
  tldvs : List TldvRec := []
  uses : List TileUse := []
  count : Nat := 0
  owner : RunnerId := {}
  pri : Nat := 0
  granted : Nat := 0
  charged : Nat := 0
  named : Nat := 0
  deriving DecidableEq, Repr

/-- An ATTACH in progress on a core: its runner, whether it waits, its grant and its octants (R169, R315), whether the
die's lease queue has taken it, and whether a map-out has left it these octants only, to be served again (R222). -/
structure PendAttach where
  runner : RunnerId
  wait : Bool
  gm : Nat
  gn : Nat
  gk : Nat
  octs : List Nat
  toWake : List Nat
  queued : Bool := true
  again : Bool := false
  deriving DecidableEq, Repr

/-- A lane group (R325, R338): which working lanes are live, the checking lane, what it does, its voltage steps. -/
structure LaneGroup where
  lanes : BitVec 9 := 0x1FF
  checking : Bool := true
  retired : Bool := false
  volts : Vector Nat 9
  deriving DecidableEq, Repr

/-- A line of a core's L1 (R27, R278): its line number, and the bytes of its copy that memory no longer has; with those a
store of the core has replaced since, by the store's runner and number. -/
structure L1Line where
  line : Nat
  old : List Host.Cell := []
  late : List (RunnerId × Nat × List Host.Cell) := []
  deriving DecidableEq, Repr

/-- Accumulator images of an evicted share that are still to be written (R184): whose save area, from which address, the
bytes, and the page fault service has last been asked for. -/
structure ImageSave where
  owner : RunnerId
  va : Word
  bytes : List Byte
  asked : Word
  deriving DecidableEq, Repr

/-- A core (R4, R24, R27, R28, R278, R299, R325, R338): among the rest the team and the split it is being drained for
(R254). -/
structure Core where
  id : CoreId
  split : Option Split := none
  drain : Option (TeamId × Split) := none
  saving : Option ImageSave := none
  att : Option Attach := none
  pend : Option PendAttach := none
  loss : Option TileLoss := none
  attStatus : BitVec 3 := 0
  cycle : Word := 0
  checked : Nat := 0
  groups : List LaneGroup := []
  pendingLane : List (Nat × Nat) := []
  blamed : List (Nat × Nat × Nat) := []
  retired : Bool := false
  tlb : List TlbEntry := []
  l1 : List L1Line := []
  hot : List (Nat × Nat × Nat × Nat × Nat) := []
  deriving DecidableEq, Repr

/-- The states of a leased engine or an octant (R313). -/
inductive EState where
  | sleeping | waking | held | evicting | hold
  deriving DecidableEq, Repr

/-- Who holds an engine: a runner's lease slot, or a core's attach (R313). -/
inductive Holder where
  | lease (r : RunnerId) (slot : Fin 8)
  | attach (c : CoreId)
  deriving DecidableEq, Repr

/-- An entry of a die's lease queue (R315, R316): who asks, the engines still to wake, the priority, when it joined, its
deadline, and whether its first octant has started. -/
structure LeaseReq where
  holder : Holder
  engines : List EngineId
  pri : Nat
  joined : Nat := 0
  deadline : Nat := 0
  begun : Bool := false
  deriving DecidableEq, Repr

/-- An engine or octant that is not asleep (R313, R317, R318), with the partition and the heat whose request woke or holds
it (R311, R312), the request it wakes for (R313, R316), and of an eviction in progress the priority and the grant's time of
what is lost (R314, R320). -/
structure Engine where
  id : EngineId
  st : EState
  holder : Option Holder := none
  ends : Nat := 0
  named : Nat := 0
  orderly : Bool := true
  handTo : Option Holder := none
  payer : Option (Nat × Nat) := none
  req : Option LeaseReq := none
  pri : Nat := 0
  granted : Nat := 0
  deriving DecidableEq, Repr

/-- A waiter of a unit's attach queue (R221): an ATTACH.W, or the request a resuming team makes for a saved attach (R225). -/
structure AttachWaiter where
  runner : RunnerId
  core : CoreId
  pri : Nat
  arrival : Nat
  again : Bool := false
  deriving DecidableEq, Repr

/-- A cluster's matrix unit halves and queue (R216–R222), and its walker's cache of table entries: partition, address,
entry (R299). -/
structure Cluster where
  die : Nat
  idx : Nat
  spares : Vector Nat 2
  retired : Vector Bool 2
  blamed : List (Nat × Nat × Nat) := []
  attachQ : List AttachWaiter := []
  walker : List (Nat × Nat × Word) := []
  deriving DecidableEq, Repr

/-- A C-die (R294, R315, R324). -/
structure Die where
  idx : Nat
  queue : List LeaseReq := []
  lastSlot : Option Nat := none
  celsius : Nat := 25
  throttle : Nat := 0
  steppedAt : Nat := 0
  tripped : Bool := false
  pausedAt : Option Nat := none
  carved : List (Nat × List Nat) := []
  deriving DecidableEq, Repr

/-- What the module hands to the outside: an answer, a request (one to the host with the partition's PASID, R298, R301) or
a notice (R304, R345, R346, R353); of a collective what this module's participants contribute (R207): to which module, of which
partition, heat and collective, its number. -/
inductive OutMsg where
  | status (code : Nat)
  | report (bytes : List Byte)
  | occup (word : Word)
  | ask (r : RunnerId) (pasid : Option (BitVec 20)) (a : Ask)
  | answer (peer seq : Nat) (replies : List Reply)
  | hostAnswer (part : Nat) (reply : Reply)
  | contribution (dest part heat id seq : Nat) (bytes : List Byte)
  | linkDown
  | record (t : TeamId) (bytes : List Byte)
  | logged (code : Nat) (value : Word)
  deriving DecidableEq, Repr

/-! ### Partitions -/

/-- A work queue (R261, R262): its teams, its aged level, since when its head waits. -/
structure WorkQueue where
  teams : List TeamId := []
  aged : Nat := 0
  since : Nat := 0
  deriving DecidableEq, Repr

/-- The state of a launch-graph node (R265): not yet fired, fired as a heat, ended with a status. -/
inductive Node where
  | idle
  | fired (heat : Nat)
  | ended (status : Nat)
  deriving DecidableEq, Repr

/-- An admission the host decides (R209, R357): the heat, and the runner whose LAUNCH waits, if one does. -/
structure Admission where
  heat : Heat
  launcher : Option RunnerId
  deriving DecidableEq, Repr

/-- What one participant of a collective joined with (R207): its instruction, VL and VTYPE, its source register, the tag
of its destination, the active elements. -/
structure Joined where
  runner : RunnerId
  i : Instr
  vl : Nat
  vtype : Word
  va : VReg
  tagD : Byte
  mask : BitVec 16384
  deriving DecidableEq, Repr

/-- One collective in progress (R207): its id and span, whose it is (the heat, and the team of span 0 or the die of
span 1), its number among those of its id and span, who joined with what, who has its result, and what the other
modules of the heat's group contribute, and the number its free choices are drawn from (log 3). -/
structure Collective where
  span : Nat
  id : Nat
  scope : Nat
  heat : Nat
  seq : Nat
  joined : List Joined := []
  taken : List RunnerId := []
  remote : List (Nat × List Byte) := []
  draw : Nat := 0
  deriving DecidableEq, Repr

/-- A translated image of a Strideform kernel (R267, R268): its number, the kernel, the key it is cached under, where it lies
in the room for images, whether it is the one that teams start with. -/
structure SfImage where
  num : Nat
  kernel : Nat
  key : List Byte
  off : Nat := 0
  current : Bool := true
  deriving DecidableEq, Repr

/-- A transaction of a peer that waits for the partition's fault service (R304): the accesses still to perform, the answers
so far. -/
structure PeerWork where
  peer : Nat
  seq : Nat
  todo : List OutAccess
  done : List Reply := []
  deriving DecidableEq, Repr

/-- A page on the move (R303): its address and size, where to, and whether the host ordered it. -/
structure PageMove where
  page : Nat
  size : Nat
  dest : Nat
  host : Bool := false
  deriving DecidableEq, Repr

/-- A partition (R261–R265, R267, R303, R304, R344, R345): among the rest whether CONFIG has made it one, the records of its
pre-emption pool (R332), and the page requests its host has not answered (R343). -/
structure Part where
  idx : Nat
  known : Bool := true
  record : PartRecord := {}
  loaded : Option Package := none
  group : Option (Nat × List Nat) := none
  argbase : Word := 0
  err : Bool := false
  errcode : Nat := 0
  nodes : List Node := []
  nodeArgs : Word := 0
  queues : Vector WorkQueue 64
  pointers : Vector Nat 8
  nextHeat : Nat := 1
  ended : List (Nat × Nat × Option Nat) := []
  leaseTable : List Nat := []
  admissions : List Admission := []
  waymask : List (BitVec 16) := []
  chain : List Byte := []
  trapRec : Option (Nat × Word × Word) := none
  regions : List Region := []
  colls : List Collective := []
  images : List SfImage := []
  nextImage : Nat := 0
  imageEnd : Nat := 0
  pending : List PeerWork := []
  moves : List PageMove := []
  pool : List (TeamId × List Byte) := []
  requests : List OutMsg := []
  deriving DecidableEq, Repr

/-! ### Memory -/

/-- A line of L2 (R285–R288, R292, R293). -/
structure L2Line where
  die : Nat
  slice : Nat
  way : Nat
  line : Nat
  owner : Nat
  dirty : Bool := false
  deriving DecidableEq, Repr

/-! ### The module -/

/-- The start stages (R350). -/
inductive Stage where
  | a | b | c | d | failed
  deriving DecidableEq, Repr

/-- The record of the last shakedown, and when the one under way last began anew (R351, R353). -/
structure ShakeRec where
  pass : Bool := false
  full : Bool := false
  running : Bool := false
  category : Nat := 0
  time : Nat := 0
  requested : Bool := false
  began : Option Nat := none
  deriving DecidableEq, Repr

/-- The cooling samples and the row of the limit table in force (R310), and since when the conditions of each higher row
have held. -/
structure Cooling where
  mode : Option CoolMode := none
  inlet : Option Nat := none
  flow : Option Nat := none
  row : Nat := 5
  higher : List (Nat × Nat) := []
  deriving DecidableEq, Repr

/-- The input and the droop level (R321), and since when the input has been at or above 48 V and 44 V, and below 40 V. -/
structure Droop where
  millivolts : Nat := 54000
  level : Nat := 0
  since48 : Option Nat := none
  since44 : Option Nat := none
  below40 : Option Nat := none
  holdUp : Bool := false
  level2At : Option Nat := none
  level3At : Option Nat := none
  steps : Nat := 0
  recovering : Bool := false
  stepAt : Nat := 0
  deriving DecidableEq, Repr

/-- A flit in a replay buffer (R348): its 12-bit number, and the transaction it is of: which peer's, and its end-to-end number. -/
structure Flit where
  seq : Nat
  dest : Nat
  num : Nat
  deriving DecidableEq, Repr

/-- A fabric port (R347–R349): its mode, the lanes it came up with last, since when it is down, if it is. It trains when power is
good (log 93). -/
structure Port where
  mode : PortMode := .relay
  lanes : Nat := 0
  down : Option Nat := some 0
  retraining : Bool := true
  replay : List Flit := []
  seq : Nat := 0
  replayed : Nat := 0
  deriving DecidableEq, Repr

/-- A transaction for a peer that is not known to have arrived (R349): its end-to-end number for that peer, its flits, the port
that has sent them, if one has. -/
structure Parcel where
  dest : Nat
  num : Nat
  flits : Nat
  msg : OutMsg
  port : Option Nat := none
  deriving DecidableEq, Repr

/-- A switch plane by which a peer is not reached, for a reason that is the peer's or the plane's (R349): since when, and whether
it is because the peer writes or reads a checkpoint (R356). -/
structure Cut where
  module : Nat
  port : Nat
  since : Nat
  saving : Bool := false
  deriving DecidableEq, Repr

/-- A working lane that computes wrong bits: its core, its lane group, its number, and whether only for the next checked
instruction of its core (R338). -/
structure BadLane where
  core : CoreId
  group : Nat
  lane : Nat
  once : Bool := false
  deriving DecidableEq, Repr

/-- What goes wrong in the silicon while the machine runs: a lane or a matrix unit column (die, cluster, half, column) that
computes wrong bits from now on, or for once (R338, R340); a word of a vector register, a scalar register or a unit of memory
that can no longer be corrected (R341); a plane that reaches a peer no more, or again (R349). -/
inductive Upset where
  | lane (b : BadLane)
  | column (die cluster half col : Nat)
  | vreg (r : RunnerId) (v : VR) (word : Nat)
  | sreg (r : RunnerId) (n : SR)
  | memory (key : Nat)
  | path (module port : Nat) (cut : Option Bool)
  deriving DecidableEq, Repr

/-- Whose turn it is: an event after dt ticks, a runner to run after dt ticks, a runner of whose element-wise instruction
only n element groups run (R117, R235), something that goes wrong, or the end of stage A with the boot ROM the hardware has
measured in it (R350). -/
inductive Turn where
  | input (dt : Nat) (i : Instr)
  | run (dt : Nat) (r : RunnerId)
  | part (dt : Nat) (r : RunnerId) (n : Nat)
  | upset (dt : Nat) (u : Upset)
  | measured (dt : Nat) (rom : List Byte)
  deriving DecidableEq, Repr

/-- What a checkpoint keeps (R355): memory with the lines of L2, the partitions with their heats, teams and saved
runners, TIME. -/
structure Checkpoint where
  seq : Nat
  mem : List Host.Cell
  runners : List (RunnerId × Runner)
  teams : List Team
  heats : List Heat
  parts : List Part
  copies : List CopyRec
  under : List Host.Cell
  lines : List L2Line
  carved : List (Nat × List (Nat × List Nat))
  time : Nat
  poison : List (Nat × Nat)
  deriving DecidableEq, Repr

/-- The save flash, the checkpoint in progress and since when, whether the link to the host is in L2 for it, and whether an outage
has followed (R354–R356). -/
structure Flash where
  slots : Vector (Option Checkpoint) 2
  writing : Bool := false
  began : Nat := 0
  linkOff : Bool := false
  seq : Nat := 0
  outage : Bool := false
  deriving DecidableEq, Repr

/-- The Pacer: management state of the module (R310–R325, R343–R357): among the rest the number of the last transaction to each
peer, those not known to have arrived, and those of peers that have been performed (R349). -/
structure Pacer where
  stage : Stage := .a
  transported : Bool := false
  events : Nat := 0
  shake : ShakeRec := {}
  transAtC : Bool := false
  cooling : Cooling := {}
  droop : Droop := {}
  ports : Vector Port 16
  flash : Flash
  chain : List Byte := []
  peerSeq : List (Nat × Nat) := []
  sent : List Parcel := []
  seqIn : List (Nat × Nat) := []
  number : Nat := 0
  unreachable : List (Nat × Nat) := []
  deriving DecidableEq, Repr

/-- What the physical world shows when it is next looked at: the clock's report of an outage (R356), the faults a
shakedown will find (R351), the working lanes and the matrix unit columns (die, cluster, half, column) that compute wrong bits
now (R338, R340), the planes that do not reach a peer (R349). -/
structure World where
  outage : Option Nat := none
  silicon : ShakeFaults := {}
  badLanes : List BadLane := []
  badColumns : List (Nat × Nat × Nat × Nat) := []
  cuts : List Cut := []
  deriving DecidableEq, Repr

/-- The machine. Beside what the manual gives it: the agenda of what happens next, the counter of free values (log 3), and
how many element groups the turn under way may still run. -/
structure State where
  r : Runner
  rs : List (RunnerId × Runner)
  teams : List Team
  heats : List Heat
  cores : List Core
  clusters : List Cluster
  engines : List Engine
  dies : List Die
  parts : List Part
  copies : List CopyRec
  mem : List Host.Cell
  under : List Host.Cell
  lines : List L2Line
  poison : List (Nat × Nat)
  pacer : Pacer
  world : World
  time : Nat
  nextUid : Nat
  outbox : List OutMsg
  agenda : List Turn
  free : Nat
  quota : Option Nat := none
  deriving DecidableEq, Repr

/-- Why the machine stops: the agenda names as an event an instruction that is none. Raised by Step alone, never by an
instruction or an event; safe, since the hardware has no such turn. -/
inductive Fault where
  | notAnEvent
  deriving DecidableEq, Repr

/-- Why an instruction has no meaning: it has not been modelled (raised by Dispatch alone; safe). -/
inductive Refusal where
  | notModelled (mnemonic : String)
  deriving DecidableEq, Repr

/-! ### Reset -/

/-- s2 at runner start (R13). -/
def stackTop : Word := 0x01FF000300000000

/-- The scalar registers at runner start (R13): s1 the exit stub, s2 the stack top, s3 the argument block. -/
def startRegs (exitStub args : Word) : Vector Word 64 :=
  (((Vector.replicate 64 0).set 1 exitStub).set 2 stackTop).set 3 args

/-- A scalar side at runner start (R13, R29, control register map). -/
def Scal.start (entry exitStub args : Word) : Scal := { s := startRegs exitStub args, pc := entry }

/-- A vector side at runner start. -/
def Vect.start (vlen : Nat) (det : Bool) : Vect :=
  { v := Vector.replicate 32 {}, vlen := vlen, vtype := if det then 0x8200 else 0x200 }

/-- No strip. -/
def Strip.none : Strip := { ckRegs := Vector.replicate 64 0 }

/-- An identity with the loop values of no loop (R24): LIDX 0 and LEXT 1. -/
def Ident.blank : Ident := { lidx := Vector.replicate 4 0, lext := Vector.replicate 4 1 }

/-- A runner context before any dispatch: runner-start values, run status absent (log 2). -/
def Runner.blank : Runner :=
  { ident := Ident.blank, scal := Scal.start 0 0 0, vect := Vect.start 128 false,
    queues := Vector.replicate 4 [], strip := Strip.none, leases := Vector.replicate 8 Option.none }

/-- The Pacer at power good (R350): stage A. -/
def Pacer.reset : Pacer :=
  { ports := Vector.replicate 16 {}, flash := { slots := Vector.replicate 2 Option.none },
    chain := List.replicate 64 0 }

/-- The module right after power good (R24, R350): TIME 0, stage A, nothing configured, nothing loaded. -/
def State.reset : State :=
  { r := Runner.blank, rs := [], teams := [], heats := [], cores := [], clusters := [], engines := [], dies := [],
    parts := [], copies := [], mem := [], under := [], lines := [], poison := [], pacer := Pacer.reset,
    world := {}, time := 0, nextUid := 1, outbox := [], agenda := [], free := 0 }

end Sys2Proof.Machine
end

