-- ==== Sys2Proof/Machine/Flags.lean ====
section
/-! DEFINITION. VTYPE's fields and VFLAGS: modes, gathering, and which flags trap (VTYPE table, R22, R40, R81, R118). -/

namespace Sys2Proof.Machine

/-- A field of a register. -/
def bitsOf (w : Word) (lo n : Nat) : Nat := w.toNat >>> lo % 2 ^ n

/-- A bit of a register. -/
def bitOf (w : Word) (i : Nat) : Bool := w.toNat >>> i % 2 == 1

/-- VTYPE.RM. -/
def rmOf (vt : Word) : RM :=
  match bitsOf vt 0 3 with
  | 0 => .rne | 1 => .rtz | 2 => .rdn | 3 => .rup | _ => .rmm

/-- VTYPE's numeric modes. -/
def modesOf (vt : Word) : Modes := { rm := rmOf vt, ftz := bitOf vt 3, daz := bitOf vt 4, sat := bitOf vt 5 }

/-- VTYPE.TP: tail elements become zero. -/
def tpOf (vt : Word) : Bool := bitOf vt 6

/-- VTYPE.MP: masked-off elements become zero. -/
def mpOf (vt : Word) : Bool := bitOf vt 7

/-- VTYPE.SEW in bits. -/
def sewOf (vt : Word) : Nat := 8 <<< bitsOf vt 8 2

/-- VTYPE.SLICES with 0 read as 7. -/
def slicesOf (vt : Word) : Nat := if bitsOf vt 10 4 == 0 then 7 else bitsOf vt 10 4

/-- VTYPE.DET. -/
def detOf (vt : Word) : Bool := bitOf vt 15

/-- Flags whose trap enable is set in VTYPE bits 20:16. -/
def trapEnabled (vt : Word) (f : Flags) : Bool := f.bits &&& BitVec.ofNat 5 (bitsOf vt 16 5) != 0

/-- A value a write of VTYPE may set (R19): no reserved bit, RM and SLICES in range; DET is write-ignored. -/
def vtypeLegal (v : Word) : Bool :=
  v.toNat >>> 21 == 0 && !bitOf v 14 && bitsOf v 0 3 ≤ 4 &&
  (bitsOf v 10 4 == 0 || (3 ≤ bitsOf v 10 4 && bitsOf v 10 4 ≤ 8))

/-- VTYPE after a write: DET keeps the heat's value. -/
def vtypeWrite (old v : Word) : Word := (v &&& ~~~0x8000#64) ||| (old &&& 0x8000#64)

/-- Flags ORed into VFLAGS (R22). -/
def Vect.raise (v : Vect) (f : Flags) : Vect := { v with vflags := v.vflags ||| f.bits }

/-- Flags ORed into the runner's VFLAGS. -/
def State.raise (s : State) (f : Flags) : State := { s with r := { s.r with vect := s.r.vect.raise f } }

end Sys2Proof.Machine
end

