-- ==== Sys2Proof/Machine/Operands.lean ====
section
/-! DEFINITION. Operand forms: scalar registers, OPB, vector elements with their scales, masks, and what a vector
instruction does with the elements it does not compute (R13–R15, R37, R44, R47, R72). -/

namespace Sys2Proof.Machine

/-! ### The scalar side -/

/-- s[n]: s0 reads as zero (R13). -/
def Scal.get (c : Scal) (n : SR) : Word := if n = 0 then 0 else c.s[n]

/-- s[n] = w: a write of s0 is discarded (R13); one of a poisoned register clears the poison (R341), and a held AMO's
result is no longer awaited there (R233). -/
def Scal.set (c : Scal) (n : SR) (w : Word) : Scal :=
  if n = 0 then c else { c with
    s := c.s.set n w, bad := c.bad.filter fun k => k != n, pend := c.pend.filter fun x => x.1 != n }

/-- A scalar register of the running runner. -/
def State.reg (s : State) (n : SR) : Word := s.r.scal.get n

/-- A scalar register written. -/
def State.setReg (s : State) (n : SR) (w : Word) : State := { s with r := { s.r with scal := s.r.scal.set n w } }

/-- The PC of the running runner. -/
def State.pc (s : State) : Word := s.r.scal.pc

/-- Execution continues at an address. -/
def State.setPc (s : State) (a : Word) : State := { s with r := { s.r with scal := { s.r.scal with pc := a } } }

/-- Execution continues with the next instruction. -/
def State.advance (s : State) : State := s.setPc (s.pc + 8)

/-- OPB (R72): s[sb], or the immediate sign-extended. -/
def State.opb (s : State) : OpB → Word
  | .reg r => s.reg r
  | .imm i => i.signExtend 64

/-- An address offset sign-extended (R82, R148). -/
abbrev sext {n : Nat} (i : BitVec n) : Word := i.signExtend 64

/-! ### Elements of vector registers (R14, R36, R37) -/

/-- The first bit of element i. -/
def Fmt.bitAt (f : Fmt) (i : Nat) : Nat :=
  match f with
  | .int3g => 128 * (i / 32) + 3 * (i % 32)
  | f => f.width * i

/-- n bits of a register from a bit position. -/
def takeBits {w : Nat} (d : BitVec w) (lo n : Nat) : Nat := d.toNat >>> lo % 2 ^ n

/-- n bits of a register replaced from a bit position. -/
def putBits {w : Nat} (d : BitVec w) (lo n x : Nat) : BitVec w :=
  BitVec.ofNat w (d.toNat ^^^ ((takeBits d lo n ^^^ (x % 2 ^ n)) <<< lo))

/-- elem(v, i): the encoding of element i. -/
def VReg.elem (v : VReg) (f : Fmt) (i : Nat) : Nat := takeBits v.data (f.bitAt i) f.width

/-- setelem(v, i, x). -/
def VReg.setElem (v : VReg) (f : Fmt) (i x : Nat) : VReg := { v with data := putBits v.data (f.bitAt i) f.width x }

/-- Sidecar entry j (R15). -/
def VReg.entry (v : VReg) (j : Nat) : Nat := takeBits v.side (16 * j) 16

/-- The format of a register's tag, if the tag is defined. -/
def VReg.fmt (v : VReg) : Option Fmt := Fmt.ofTag v.tag

/-- BS of a register's tag. -/
def VReg.bs (v : VReg) : Bool := tagBS v.tag

/-- Sidecar entry j written: of a block-scaled register bits 15:8 are written 0 (R15). -/
def VReg.setEntry (v : VReg) (j x : Nat) : VReg :=
  { v with side := putBits v.side (16 * j) 16 (if v.bs then x % 256 else x) }

/-- The element count of a register (R14); an undefined tag counts as an untagged one. -/
def VReg.count (v : VReg) (vlen : Nat) : Nat := (v.fmt.getD .untagged).count vlen

/-- VAL of an element without its scale, DAZ applied to its own encoding: ELEM (R44). -/
def Fmt.elemVal (f : Fmt) (daz : Bool) (b : Nat) : XVal :=
  match f with
  | .fp g => g.src daz b
  | .int4g => .ofInt (intVal true 4 b)
  | .int3g => .ofInt (intVal true 3 b)
  | .mask => .ofInt b
  | f => match f.intSigned with
    | some sg => .ofInt (intVal sg f.width b)
    | none => .zero false

/-- An E8M0 scale as a power of two, none when it is NaN (R34). -/
def e8m0 (b : Nat) : Option Int := if b % 256 == 255 then none else some (b % 256 - 127)

/-- SRC(v, i): the element with its block or group scale (R35, R36, R44). DESIGN CHOICE (log 90): a group scale that is a signalling
NaN, an infinite one that meets q = 0, and a NaN block scale over a signalling element give a quiet NaN, which raises no NV. -/
def VReg.src (v : VReg) (daz : Bool) (i : Nat) : XVal :=
  match v.fmt with
  | none => .zero false
  | some f =>
    let x := f.elemVal daz (v.elem f i)
    match f with
    | .int4g | .int3g =>
      let g := FF.bf16.val (v.entry (i / 32))
      if g.isNan then .nan false else if g.isZero then .zero (x.neg != g.neg) else (mulX x g).val
    | _ => if v.bs then (match e8m0 (v.entry (i / 32)) with
        | none => .nan false
        | some k => x.scale k)
      else x

/-- The kinds of R45. -/
inductive TagKind where
  | none | mask | int | float | grouped
  deriving DecidableEq, Repr

/-- The kind of a register's tag; a block-scaled register is floating (R35). An undefined tag has none. -/
def VReg.kind (v : VReg) : TagKind :=
  match v.fmt with
  | some .mask => .mask
  | some (.fp _) => .float
  | some .int4g | some .int3g => .grouped
  | some .untagged | Option.none => .none
  | some _ => if v.bs then .float else .int

/-- The operation format of one floating source: that of its code, BF16 for block-scaled INT8 (R35). -/
def VReg.opf (v : VReg) : FF :=
  match v.fmt with
  | some (.fp f) => f
  | _ => .bf16

/-- An integer index held in a register (R142, R148): its width and signedness by the tag. -/
def VReg.index (v : VReg) (i : Nat) : Int :=
  match v.fmt with
  | some f => intVal (f.intSigned.getD false) f.width (v.elem f i)
  | Option.none => 0

/-! ### The vector side's registers -/

/-- v[n] of the running runner. -/
def State.vreg (s : State) (n : VR) : VReg := s.r.vect.v[n]

/-- v[n] by number; numbers above 31 do not occur in accepted instructions. -/
def State.vregN (s : State) (n : Nat) : VReg := s.r.vect.v[n % 32]

/-- v[n] written. -/
def State.setVreg (s : State) (n : VR) (v : VReg) : State :=
  { s with r := { s.r with vect := { s.r.vect with v := s.r.vect.v.set n v } } }

/-- v[n] written, by number. -/
def State.setVregN (s : State) (n : Nat) (v : VReg) : State :=
  { s with r := { s.r with vect := { s.r.vect with v := s.r.vect.v.set (n % 32) v } } }

/-- VTYPE of the running runner. -/
def State.vtype (s : State) : Word := s.r.vect.vtype

/-- VL of the running runner. -/
def State.vl (s : State) : Nat := s.r.vect.vl

/-- VLEN of the running runner. -/
def State.vlen (s : State) : Nat := s.r.vect.vlen

/-- VSTART of the running runner. -/
def State.vstart (s : State) : Nat := s.r.vect.vstart

/-- VSTART written. -/
def State.setVstart (s : State) (i : Nat) : State := { s with r := { s.r with vect := { s.r.vect with vstart := i } } }

/-- VL written. -/
def State.setVl (s : State) (n : Nat) : State := { s with r := { s.r with vect := { s.r.vect with vl := n } } }

/-- VLMAX(SEW) (R21). -/
def State.vlmaxSew (s : State) : Nat := s.vlen * 8 / sewOf s.vtype

/-- active(i) (R72). -/
def State.active (s : State) (m : Mask) (i : Nat) : Bool :=
  m.reg = 0 || ((s.vregN m.reg.val).elem .mask i == 1) != m.neg

/-- settle(vd) (R72): inactive elements from VSTART to VL by MP, the tail to VLMAX by TP. -/
def settle (vt : Word) (f : Fmt) (act : Nat → Bool) (vstart vl vlmax : Nat) (v : VReg) : VReg :=
  (List.range vlmax).foldl (fun v i =>
    if i < vl then (if vstart ≤ i && !act i && mpOf vt then v.setElem f i 0 else v)
    else if tpOf vt then v.setElem f i 0 else v) v

/-! ### Scalar operands of vector instructions (R47) -/

/-- s[ss] converted for a va of a format: reduced to an integer format, or rounded into the operation format, with
the flags of the one conversion. -/
def scalarTo (md : Modes) (va : VReg) (w : Word) : Flagged Nat :=
  match va.fmt with
  | some (.fp f) => let x := FF.fp64.src md.daz w.toNat
    let r := f.result md x
    { val := r.val, flags := r.flags.or (nvIf x.isSnan) }
  | some f =>
    if va.bs then
      let x := FF.fp64.src md.daz w.toNat
      let r := FF.bf16.result md x
      { val := r.val, flags := r.flags.or (nvIf x.isSnan) }
    else { val := reduceInt md.sat (f.intSigned.getD false) f.width w.toInt }
  | Option.none => { val := 0 }

/-- The value a converted scalar takes part with, DAZ applied as to an element of its format. -/
def scalarVal (md : Modes) (va : VReg) (b : Nat) : XVal :=
  match va.fmt with
  | some (.fp f) => f.src md.daz b
  | some f => if va.bs then FF.bf16.src md.daz b else f.elemVal md.daz b
  | Option.none => .zero false

/-- s[ss] as an element written into a block-scaled INT8 register (R47, R143): rounded to an integer, unscaled. -/
def scalarToScaledI8 (md : Modes) (w : Word) : Flagged Nat := floatToInt md.rm true 8 (FF.fp64.src md.daz w.toNat)

/-! ### Memory operands (R37, R65) -/

/-- Bytes as a number, little-endian. -/
abbrev bytesVal (bs : List Byte) : Nat := leBytesToNat bs

/-- The TVAL of a TAG trap (R116). -/
def tagTval (td ta tb tc tm : Byte) (vlmax : Nat) (idxOut vlOut : Bool) : Word :=
  BitVec.ofNat 64 (td.toNat + ta.toNat * 2 ^ 8 + tb.toNat * 2 ^ 16 + tc.toNat * 2 ^ 24 + tm.toNat * 2 ^ 32 +
    (vlmax % 2 ^ 15) * 2 ^ 40 + idxOut.toNat * 2 ^ 62 + vlOut.toNat * 2 ^ 63)

end Sys2Proof.Machine
end

