-- ==== Sys2Proof/Machine/Find.lean ====
section
/-! DEFINITION. Finding the parts of the module the running runner belongs to, and putting them back. -/

namespace Sys2Proof.Machine

/-- An element replaced where a test holds, or added at the end. -/
def upsert {α : Type} (p : α → Bool) (x : α) : List α → List α
  | [] => [x]
  | a :: t => if p a then x :: t else a :: upsert p x t

/-- The team a runner belongs to. -/
def teamOf (r : RunnerId) : TeamId := { part := r.part, heat := r.heat, team := r.team }

/-- A runner's number (R11, R24). -/
def State.rid (s : State) : RunnerId := s.r.ident.id

/-- Whether a cluster number names an M-cluster (R2). -/
def isM (cluster : Nat) : Bool := cluster < 14

/-- Lane groups of a core (R241). -/
def laneGroups (c : CoreId) : Nat := if isM c.cluster then 8 else 2

/-- A core nothing has touched: all lanes live. -/
def Core.blank (c : CoreId) : Core :=
  { id := c, groups := List.replicate (laneGroups c) { volts := Vector.replicate 9 0 } }

/-- A core. -/
def State.core (s : State) (c : CoreId) : Core := (s.cores.find? fun x => x.id == c).getD (Core.blank c)

/-- A core put back. -/
def State.setCore (s : State) (c : Core) : State := { s with cores := upsert (fun x => x.id == c.id) c s.cores }

/-- The running runner's core. -/
def State.myCore (s : State) : Core := s.core s.r.ident.core

/-- A cluster's matrix unit halves (R216). -/
def State.cluster (s : State) (die idx : Nat) : Cluster :=
  (s.clusters.find? fun x => x.die == die && x.idx == idx).getD
    { die := die, idx := idx, spares := Vector.replicate 2 (if isM idx then 2 else 1), retired := Vector.replicate 2 false }

/-- A cluster put back. -/
def State.setCluster (s : State) (c : Cluster) : State :=
  { s with clusters := upsert (fun x => x.die == c.die && x.idx == c.idx) c s.clusters }

/-- A die. -/
def State.die (s : State) (d : Nat) : Die := (s.dies.find? fun x => x.idx == d).getD { idx := d }

/-- A die put back. -/
def State.setDie (s : State) (d : Die) : State := { s with dies := upsert (fun x => x.idx == d.idx) d s.dies }

/-- An engine; one that is not listed sleeps (R313). -/
def State.engine (s : State) (e : EngineId) : Engine :=
  (s.engines.find? fun x => x.id == e).getD { id := e, st := .sleeping }

/-- An engine put back; a sleeping one leaves the list. -/
def State.setEngine (s : State) (e : Engine) : State :=
  if e.st = .sleeping then { s with engines := s.engines.filter fun x => x.id != e.id }
  else { s with engines := upsert (fun x => x.id == e.id) e s.engines }

/-- A team. -/
def State.team? (s : State) (t : TeamId) : Option Team := s.teams.find? fun x => x.id == t

/-- A team put back. -/
def State.setTeam (s : State) (t : Team) : State := { s with teams := upsert (fun x => x.id == t.id) t s.teams }

/-- The running runner's team. -/
def State.myTeam? (s : State) : Option Team := s.team? (teamOf s.rid)

/-- A heat. -/
def State.heat? (s : State) (part id : Nat) : Option Heat := s.heats.find? fun x => x.part == part && x.id == id

/-- A heat put back. -/
def State.setHeat (s : State) (h : Heat) : State :=
  { s with heats := upsert (fun x => x.part == h.part && x.id == h.id) h s.heats }

/-- The running runner's heat. -/
def State.myHeat? (s : State) : Option Heat := s.heat? s.rid.part s.rid.heat

/-- A partition, if it is configured. -/
def State.part? (s : State) (p : Nat) : Option Part := s.parts.find? fun x => x.idx == p

/-- A partition put back. -/
def State.setPart (s : State) (p : Part) : State := { s with parts := upsert (fun x => x.idx == p.idx) p s.parts }

/-- Any runner: the running one or another. -/
def State.runner? (s : State) (r : RunnerId) : Option Runner :=
  if s.rid = r then some s.r else (s.rs.find? fun x => x.1 == r).map (·.2)

/-- A runner put back where it is kept. -/
def State.setRunner (s : State) (x : Runner) : State :=
  if s.rid = x.ident.id then { s with r := x }
  else { s with rs := upsert (fun y => y.1 == x.ident.id) (x.ident.id, x) s.rs }

/-- A partition that CONFIG has made one (R344). -/
def State.known? (s : State) (i : Nat) : Option Part := (s.part? i).filter (·.known)

/-- A runner made the running one; the one that ran is put among the others. -/
def State.focus (s : State) (r : RunnerId) : State :=
  if s.rid = r then s
  else match s.rs.find? fun x => x.1 == r with
  | none => s
  | some (_, x) => { s with r := x, rs := (s.rid, s.r) :: s.rs.filter fun y => y.1 != r }

/-- A change made with another runner running; the one that ran runs again. -/
def State.withRunner (s : State) (r : RunnerId) (f : State → State) : State :=
  if (s.runner? r).isSome then (f (s.focus r)).focus s.rid else s

/-- The runners of a team. -/
def State.teamRunners (s : State) (t : TeamId) : List Runner :=
  (if (teamOf s.rid) = t then [s.r] else []) ++ (s.rs.filter fun x => teamOf x.1 == t).map (·.2)

/-- Every runner context. -/
def State.allRunners (s : State) : List Runner := s.r :: s.rs.map (·.2)

/-- The running runner updated. -/
def State.mapR (s : State) (f : Runner → Runner) : State := { s with r := f s.r }

/-- A free bit, and the counter advanced (log 3). -/
def State.freeBool (s : State) : Bool × State := (Config.freeBool s.free, { s with free := s.free + 1 })

/-- A free word, and the counter advanced (log 3). -/
def State.freeWord (s : State) : Word × State := (Config.freeWord s.free, { s with free := s.free + 1 })

/-- n free bytes. -/
def State.freeBytes (s : State) (n : Nat) : List Byte × State :=
  ((List.range n).map fun i => Config.freeByte (s.free + i), { s with free := s.free + n })

/-- The bytes of payload an access takes in a flit: eight for its address, and what it carries (log 93). -/
def accPayload : OutAccess → Nat
  | .read .. | .line .. | .register .. | .record .. => 8
  | .write _ bs | .attest bs => 8 + bs.length
  | .amo _ _ w _ _ => 8 + 2 * w
  | .merge .. => 10
  | .poisoned _ n => 8 + n

/-- The bytes an answer carries. -/
def replyPayload : Reply → Nat
  | .data bs => bs.length
  | .packed vals _ => (vals.map (·.length)).sum
  | _ => 0

/-- The peers a message goes to over Relay, each with the payload of its transaction (R347). -/
def OutMsg.parcels : OutMsg → List (Nat × Nat)
  | .ask _ _ (.peer m a) => [(m, accPayload a)]
  | .ask _ _ (.lists l) => l.map fun x => (x.1, (x.2.map accPayload).sum)
  | .answer peer _ rs => [(peer, (rs.map replyPayload).sum)]
  | .contribution dest _ _ _ _ bs => [(dest, bs.length)]
  | _ => []

/-- Whether a port carries Relay now (R347). -/
def Port.live (p : Port) : Bool := p.mode == .relay && p.lanes != 0 && p.down.isNone

/-- The ports that reach a peer now (R347–R349). -/
def State.livePorts (s : State) (dest : Nat) : List Nat :=
  (List.range 16).filter fun i => ((s.pacer.ports[i]?).map Port.live).getD false &&
    !s.world.cuts.any fun c => c.module == dest && c.port == i

/-- A port changed. -/
def Pacer.mapPort (p : Pacer) (i : Nat) (f : Port → Port) : Pacer :=
  { p with ports := p.ports.mapIdx fun j x => if j = i then f x else x }

/-- Flits of a transaction sent by a port: each stays in the replay buffer of 128 until later ones push it out (R348). -/
def Port.send (p : Port) (dest num : Nat) : Nat → Port
  | 0 => p
  | n + 1 => Port.send { p with seq := (p.seq + 1) % 4096, replay := ({ seq := p.seq, dest := dest, num := num } :: p.replay).take 128 }
      dest num n

/-- A transaction sent by the first port that reaches its peer; where none does it waits (R349). -/
def State.transmit (s : State) (x : Parcel) : State :=
  match s.livePorts x.dest with
  | [] => { s with pacer := { s.pacer with sent := s.pacer.sent ++ [{ x with port := none }] } }
  | i :: _ =>
    let p := s.pacer.mapPort i fun p => p.send x.dest x.num x.flits
    { s with pacer := { p with sent := p.sent ++ [{ x with port := some i }] } }

/-- The number of the last transaction to a peer; the first has number 1. -/
def Pacer.lastTo (p : Pacer) (dest : Nat) : Nat := ((p.peerSeq.find? fun x => x.1 == dest).map (·.2)).getD 0

/-- Whether a transaction may still have to be sent again: a request until it is answered, any other while a flit of it is in a
replay buffer or it waits for a port (log 93). -/
def Pacer.unsure (p : Pacer) (x : Parcel) : Bool :=
  match x.msg with
  | .ask .. => true
  | _ => x.port.isNone || p.ports.toList.any fun q => q.replay.any fun f => f.dest == x.dest && f.num == x.num

/-- A transaction to a peer: it takes the next number for that peer and as many flits of 224 bytes as its payload needs, one at
least (R348, R349). -/
def State.post (s : State) (m : OutMsg) (x : Nat × Nat) : State :=
  let n := s.pacer.lastTo x.1 + 1
  let p := s.pacer
  let p := { p with peerSeq := (x.1, n) :: p.peerSeq.filter (fun y => y.1 != x.1), sent := p.sent.filter p.unsure }
  { s with pacer := p }.transmit { dest := x.1, num := n, flits := max 1 ((x.2 + 223) / 224), msg := m }

/-- A message to the outside; what goes to a peer goes over Relay. -/
def State.emit (s : State) (m : OutMsg) : State :=
  m.parcels.foldl (fun s x => s.post m x) { s with outbox := s.outbox ++ [m] }

/-- Transactions sent again, under the numbers they have (R349). -/
def State.resend (s : State) (which : Parcel → Bool) : State :=
  let xs := s.pacer.sent.filter which
  xs.foldl (fun s x =>
    let t := s.transmit x
    if (s.livePorts x.dest).isEmpty then t else { t with outbox := t.outbox ++ [x.msg] })
    { s with pacer := { s.pacer with sent := s.pacer.sent.filter fun x => !which x } }

/-- A request a peer has answered needs no sending again. -/
def State.answered (s : State) (m : OutMsg) (dest : Nat) : State :=
  { s with pacer := { s.pacer with sent := s.pacer.sent.eraseP fun x => x.msg == m && x.dest == dest } }

/-- A team's sizes: scratchpad bytes, from its heat. -/
def State.scratchSize (s : State) : Nat := (s.myHeat?.map (·.desc.scratch)).getD 0

/-- TCM bytes of the team's split (R27). -/
def State.tcmSize (s : State) : Nat := (s.myTeam?.map fun t => t.split.tcmKiB * 1024).getD 0

/-- DSM bytes of the heat on one die (R294). -/
def State.dsmSize (s : State) : Nat := (s.myHeat?.map fun h => h.desc.dsmWays * 24 * 2 ^ 20).getD 0

/-- The running runner's core slot in its team (R250). -/
def State.mySlot (s : State) : Nat := (s.myHeat?.map fun h => s.rid.runner / max 1 h.desc.perCore).getD 0

/-- The names its team and heat have in memory. -/
def State.myTeamUid (s : State) : Nat := (s.myTeam?.map (·.uid)).getD 0

/-- The name its heat has in memory. -/
def State.myHeatUid (s : State) : Nat := (s.myHeat?.map (·.uid)).getD 0

end Sys2Proof.Machine
end

