-- ==== Sys2Proof/Machine/Spread.lean ====
section
/-! DEFINITION. What unpredictable values of a matrix unit's share lead to in the operations outstanding on it (R166, R173,
R175): the elements they compute from them. -/

namespace Sys2Proof.Machine

/-- ZF of a GFMT word. -/
def zfOf (g : Word) : Nat := bitsOf g 10 5

/-- Bytes of an accumulator element. -/
def zBytes (g : Word) : Nat := if zfOf g == 0x0F then 8 else 4

/-- The accumulators (0 to 3) and latches (4 to 7) an operation reads or writes. -/
def TileAct.objects : TileAct → List Nat
  | .load l => [4 + l.val]
  | .mma z la lb => [z.val, 4 + la.val, 4 + lb.val]
  | .clear z | .store z => [z.val]

/-- Which elements of each accumulator and which rows of each latch hold unpredictable values; of the stores that deliver
such elements the number and which; the operations that have met any. -/
structure Spread where
  bad : List (List Bool)
  stores : List (Nat × List Bool) := []
  met : List Nat := []

/-- What a spread says of an object. -/
def Spread.of (x : Spread) (o : Nat) : List Bool := (x.bad[o]?).getD []

/-- Whether an index is marked. -/
def marked (l : List Bool) (i : Nat) : Bool := (l[i]?).getD false

/-- Nothing marked, for a shape. -/
def noneBad (gm gn : Nat) : List (List Bool) :=
  List.replicate 4 (List.replicate (gm * gn) false) ++ List.replicate 2 (List.replicate gm false) ++
    List.replicate 2 (List.replicate gn false)

/-- One operation after others, in its runner's order: an object it writes anew holds what `always` says. -/
def TileUse.spread (gn : Nat) (always : List (List Bool)) (x : Spread) (u : TileUse) : Spread :=
  let fresh (o : Nat) : Spread := { x with bad := x.bad.set o ((always[o]?).getD []) }
  match u.act with
  | .load l => fresh (4 + l.val)
  | .clear z => fresh z.val
  | .mma z la lb =>
    let rows := x.of (4 + la.val)
    let cols := x.of (4 + lb.val)
    let now := (x.of z.val).mapIdx fun k b => b || marked rows (k / gn) || marked cols (k % gn)
    { x with bad := x.bad.set z.val now, met := if now.any id then u.num :: x.met else x.met }
  | .store z =>
    let b := x.of z.val
    if b.any id then { x with stores := (u.num, b) :: x.stores, met := u.num :: x.met } else x

/-- A tile store of some unpredictable elements: their bytes and registers. -/
def TileOp.spoilt (o : TileOp) (bad : List Bool) : TileOp :=
  { o with
    taint := o.taint ++ (o.cells.mapIdx fun i c => (i, c)).filterMap fun x =>
      if o.head ≤ x.1 && marked bad ((x.1 - o.head) / max 1 o.unit) then some x.2.1 else none
    bad := o.bad ++ (List.range o.elems.length).filter (marked bad) }

/-- A share with what a spread comes to: free values, numbered from n, in the accumulators; its stores spoilt; and the flags of
the operations that met unpredictable values free (R179). -/
def Attach.affected (a : Attach) (n : Nat) (x : Spread) : Attach :=
  let w := 8 * zBytes a.gfmt
  let free (z k : Nat) : BitVec 64 := BitVec.ofNat 64 ((Config.freeWord (n + 8192 * z + k)).toNat % 2 ^ w)
  let lost := (a.uses.filter fun u => x.met.contains u.num).filterMap (·.flags)
  let kept := (a.uses.filter fun u => !x.met.contains u.num).filterMap (·.flags)
  let only := lost.foldl (· ||| ·) 0 &&& ~~~(kept.foldl (· ||| ·) 0)
  { a with
    acc := a.acc.mapIdx fun z l => l.mapIdx fun k e => if marked (x.of z) k then free z k else e
    ops := a.ops.map fun o => match x.stores.find? fun s => s.1 == o.use with
      | some s => o.spoilt s.2
      | none => o
    flags := if lost.isEmpty || zfOf a.gfmt == 0x06 then a.flags
      else (a.flags &&& ~~~only) ||| ((Config.freeWord (n + 32768)).setWidth 5 &&& 0b11101)
    uses := a.uses.map fun u => if x.met.contains u.num then { u with flags := none } else u }

/-- What rows of a latch that a load of a runner filled, unpredictable now, lead to in its later operations (R173, R175). -/
def Attach.spreadRows (a : Attach) (n : Nat) (r : RunnerId) (use : Nat) (l : Fin 4) (rows : List Nat) : Attach :=
  let none := noneBad a.gm a.gn
  let start := none.modify (4 + l.val) (List.mapIdx fun i _ => rows.contains i)
  a.affected n ((a.uses.filter fun u => u.runner == r && use < u.num).foldl (TileUse.spread a.gn none) { bad := start })

/-- What an object that another runner reads or writes meanwhile leads to in the outstanding operations of a runner (R166). -/
def Attach.spreadObject (a : Attach) (n : Nat) (r : RunnerId) (o : Nat) : Attach :=
  let all := (noneBad a.gm a.gn).modify o (List.map fun _ => true)
  a.affected n ((a.uses.filter fun u => u.runner == r).foldl (TileUse.spread a.gn all) { bad := all })

end Sys2Proof.Machine
end

