-- ==== Sys2Proof/Machine/Mem.lean ====
section
/-! DEFINITION. Bytes of memory: one canonical list for every space, keyed so that spaces never meet. -/

namespace Sys2Proof.Machine

/-! ### Where a byte lies -/

/-- A byte's home: module memory, host memory, a team's scratchpad region, a core's TCM as its team's slot, a heat's
DSM on a die, or a peer module's space (R292, R295, R296, R304). -/
inductive Loc where
  | module (pa : Nat)
  | host (io : Nat)
  | scratch (team off : Nat)
  | tcm (team slot off : Nat)
  | dsm (heat die off : Nat)
  | peer (module va : Nat)
  deriving DecidableEq, Repr

/-- The first key past the module's physical addresses and past host addresses. -/
def hostBase : Nat := 2 ^ 64

/-- Where keys of peer bytes begin. -/
def peerBase : Nat := 2 ^ 65

/-- Where keys of the local windows begin. -/
def localBase : Nat := 2 ^ 80

/-- The key of a byte of a local window: owner and window number name a 4 GiB block. -/
def localKey (owner window off : Nat) : Nat := localBase + (owner * 32 + window) * 2 ^ 32 + off

/-- The memory key of a byte. -/
def Loc.key : Loc → Nat
  | .module pa => pa
  | .host io => hostBase + io
  | .peer m va => peerBase + m * 2 ^ 57 + va
  | .scratch t o => localKey t 0 o
  | .tcm t slot o => localKey t (1 + slot) o
  | .dsm h die o => localKey h (16 + die) o

/-- A key of module memory (R292). -/
def isModuleKey (k : Nat) : Bool := k < 2 ^ 41

/-- A key of host memory. -/
def isHostKey (k : Nat) : Bool := hostBase ≤ k && k < peerBase

/-- A key of a peer's memory. -/
def isPeerKey (k : Nat) : Bool := peerBase ≤ k && k < localBase

/-- A key of a team's scratchpad. -/
def isScratchKey (k : Nat) : Bool := localBase ≤ k && (k - localBase) / 2 ^ 32 % 32 == 0

/-- A key of a TCM. -/
def isTcmKey (k : Nat) : Bool :=
  localBase ≤ k && 1 ≤ (k - localBase) / 2 ^ 32 % 32 && (k - localBase) / 2 ^ 32 % 32 < 16

/-! ### Cells -/

/-- The byte at a key; an unlisted one reads 0 (DESIGN CHOICE, log 1). -/
def cellGet : List Host.Cell → Nat → Byte
  | [], _ => 0
  | (a, b) :: t, k => if a = k then b else cellGet t k

/-- The byte listed at a key, if one is. -/
def cellFind : List Host.Cell → Nat → Option Byte
  | [], _ => none
  | (a, b) :: t, k => if a = k then some b else cellFind t k

/-- A byte written, the canonical form kept: keys rising, no 0 listed. -/
def cellPut : List Host.Cell → Nat → Byte → List Host.Cell
  | [], k, b => if b = 0 then [] else [(k, b)]
  | (a, x) :: t, k, b =>
    if k < a then (if b = 0 then (a, x) :: t else (k, b) :: (a, x) :: t)
    else if k = a then (if b = 0 then t else (k, b) :: t)
    else (a, x) :: cellPut t k b

/-- Several bytes written in order. -/
def cellsPut (m : List Host.Cell) : List Host.Cell → List Host.Cell
  | [] => m
  | (k, b) :: t => cellsPut (cellPut m k b) t

/-- Keys above a bound, rising, and no byte 0. -/
def cellsAbove : Nat → List Host.Cell → Bool
  | _, [] => true
  | lo, (a, b) :: t => lo ≤ a && b != 0 && cellsAbove (a + 1) t

/-- The canonical form of memory. -/
def Memory.wf (m : List Host.Cell) : Bool := cellsAbove 0 m

/-- n consecutive keys. -/
def keysFrom (k : Nat) : Nat → List Nat
  | 0 => []
  | n + 1 => k :: keysFrom (k + 1) n

/-- The bytes at n consecutive keys. -/
def bytesAt (m : List Host.Cell) (k n : Nat) : List Byte := (keysFrom k n).map (cellGet m)

/-- Bytes laid at consecutive keys. -/
def cellsFrom (k : Nat) : List Byte → List Host.Cell
  | [] => []
  | b :: t => (k, b) :: cellsFrom (k + 1) t

/-- Cells of an association list that overlay a byte: the last one wins. -/
def overlay (cells : List Host.Cell) (k : Nat) (b : Byte) : Byte :=
  cells.foldl (fun acc c => if c.1 = k then c.2 else acc) b

/-- Bytes kept at most once each: the first value noted for a key stays. -/
def noteOld (m : List Host.Cell) (old : List Host.Cell) : List Nat → List Host.Cell
  | [] => old
  | k :: t => noteOld m (if (cellFind old k).isSome then old else (k, cellGet m k) :: old) t

/-! ### Poison (R341) -/

/-- Whether a poisoned unit meets the bytes at keys k to k + n − 1. -/
def poisonMeets (p : List (Nat × Nat)) (k n : Nat) : Option Nat :=
  (p.find? fun u => u.1 < k + n && k < u.1 + u.2).map (·.1)

/-- Poison left after bytes of some keys are written: a unit written whole is clean, a partly written one is not. -/
def poisonAfter (p : List (Nat × Nat)) (keys : List Nat) : List (Nat × Nat) :=
  p.filter fun u => !(keysFrom u.1 u.2).all keys.contains

/-! ### Lines of L2 (R108, R285–R288) -/

/-- Whether two regions of n and m bytes share one. -/
def regionsMeet (a n b m : Nat) : Bool := a < b + m && b < a + n

/-- The 128-byte line of a key. -/
def lineOf (k : Nat) : Nat := k / 128

/-- The replaced bytes kept for a line, dropped: the line's copy is clean now. -/
def cleanLine (under : List Host.Cell) (line : Nat) : List Host.Cell := under.filter fun c => lineOf c.1 != line

/-- Memory with a line's dirty bytes lost (R108 CINV). -/
def loseLine (m under : List Host.Cell) (line : Nat) : List Host.Cell :=
  cellsPut m (under.filter fun c => lineOf c.1 == line)

end Sys2Proof.Machine
end

