-- ==== Sys2Proof/Machine/Cache.lean ====
section
/-! DEFINITION. The caches of module memory: the slices of L2 (R285–R288, R292, R293) and each core's L1 (R27, R278). -/

namespace Sys2Proof.Machine

/-! ### Slices (R285, R292) -/

/-- The pinned region of the partition's plan that holds an address (R285). -/
def State.pinnedAt (s : State) (va : Word) : Option Pinned :=
  ((s.part? s.rid.part).bind (·.loaded)).bind fun p =>
    p.pinned.find? fun g => g.base ≤ va.toNat && va.toNat < g.base + g.size

/-- Whether some loaded meet pins a slice of a die (R285). -/
def State.slicePinned (s : State) (die slice : Nat) : Bool :=
  s.parts.any fun p => (p.loaded.map fun g => g.pinned.any fun x => x.die == die && x.slice == slice).getD false

/-- The slice a value of PINSLICE names for an access of the running runner, if the address lies in a pinned region
(R285). -/
def State.pinSliceBy (s : State) (pin va : Word) : Option Nat :=
  if bitOf pin 63 && (s.pinnedAt va).isSome then some (bitsOf pin 0 12) else none

/-- The slice PINSLICE names now for an access of the running runner (R285). -/
def State.pinSlice (s : State) (va : Word) : Option Nat := s.pinSliceBy s.r.scal.pinslice va

/-- The slices of a die over which its hash spreads lines: those no loaded meet pins (R285, R292). -/
def State.hashedSlices (s : State) (die : Nat) : List Nat := (List.range 3072).filter fun x => !s.slicePinned die x

/-- The slice in which a line of module memory that PINSLICE does not place is cached (R292). -/
def State.hashSlice (s : State) (key : Nat) : Nat :=
  let l := s.hashedSlices (key / 2 ^ 38)
  (l[Config.sliceHash (key / 2 ^ 13) l.length % l.length]?).getD 0

/-! ### Lines of L2 (R286, R287, R293) -/

/-- The fill mask of a partition on a die (R293): WAYMASK without the carved ways. -/
def State.fillMask (s : State) (part die : Nat) : BitVec 16 :=
  let m := ((s.part? part).bind fun p => p.waymask[die]?).getD 0
  ((s.die die).carved.flatMap (·.2)).foldl (fun m w => m &&& ~~~(1#16 <<< w)) m

/-- The lines of one set of a slice; the list of lines is kept least recently used first. -/
def setLines (ls : List L2Line) (die slice set : Nat) : List L2Line :=
  ls.filter fun l => l.die == die && l.slice == slice && l.line % 64 == set

/-- The way a miss fills (R286). -/
def State.victimWay (s : State) (die slice set part : Nat) : Option Nat :=
  let here := setLines s.lines die slice set
  let ways := (List.range 16).filter fun w => (s.fillMask part die).getLsbD w
  match ways.find? fun w => here.all fun l => l.way != w with
  | some w => some w
  | none =>
    match ways.find? fun w => here.any fun l => l.way == w && !(s.fillMask l.owner die).getLsbD w with
    | some w => some w
    | none => (here.find? fun l => ways.contains l.way).map (·.way)

/-- The lines, and the bytes beneath dirty ones, after a line fills a slice (R286): a copy of it in another slice leaves, and
the line evicted is written back. -/
def State.linesFilled (s : State) (line sl part : Nat) (write : Bool) : Option (List L2Line × List Host.Cell) :=
  let die := line / 2 ^ 31
  (s.victimWay die sl (line % 64) part).map fun w =>
    let gone := s.lines.filter fun l => l.line == line || (l.die == die && l.slice == sl && l.line % 64 == line % 64 && l.way == w)
    ((s.lines.filter fun x => !gone.contains x) ++
      [{ die := die, slice := sl, way := w, line := line, owner := part, dirty := write }],
     gone.foldl (fun u l => cleanLine u l.line) s.under)

/-- The lines, and the bytes beneath dirty ones, after one access of a line (R285, R286): a hit, wherever it lies (R153),
becomes the most recently used; a miss that allocates fills a way. An access that PINSLICE gives a slice of its own is cached in
that slice only: where another holds the line and the access allocates, the line moves (log 88). -/
def State.linesAfter (s : State) (line : Nat) (slice : Option Nat) (part : Nat) (write alloc : Bool) :
    List L2Line × List Host.Cell :=
  let held := s.lines.find? fun l => l.line == line
  let away := (held.map fun l => slice.any fun sl => sl != l.slice).getD false
  let filled := if alloc && (held.isNone || away) then s.linesFilled line (slice.getD (s.hashSlice (line * 128))) part write else none
  match filled, held with
  | some x, _ => x
  | none, some l => ((s.lines.filter fun x => x.line != line) ++ [{ l with dirty := l.dirty || write }], s.under)
  | none, none => (s.lines, s.under)

/-- One access of the line of a key reaches L2. -/
def State.touchL2 (s : State) (key : Nat) (slice : Option Nat) (part : Nat) (write alloc : Bool) : State :=
  if !isModuleKey key then s
  else
    let x := s.linesAfter (lineOf key) slice part write alloc
    { s with lines := x.1, under := x.2 }

/-- A read of n bytes from a key reaches L2, line by line. -/
def State.readL2 (s : State) (k n : Nat) (slice : Option Nat) (part : Nat) (alloc : Bool) : State :=
  (((keysFrom k n).map lineOf).eraseDups).foldl (fun s l => s.touchL2 (l * 128) slice part false alloc) s

/-- Whether L2 holds the line of a key. -/
def State.inL2 (s : State) (key : Nat) : Bool := s.lines.any fun l => l.line == lineOf key

/-- The lines of some keys. -/
def linesOf (keys : List Nat) : List Nat := (keys.map lineOf).eraseDups

/-- Bytes of module memory about to be written: their lines reach L2, and the old bytes beneath those it holds are kept
until they are written back (R108). -/
def State.writeL2 (s : State) (keys : List Nat) (slice : Nat → Option Nat) (part : Nat) (alloc : Bool) : State :=
  let mine := keys.filter isModuleKey
  let s := (linesOf mine).foldl (fun s l => s.touchL2 (l * 128) (slice l) part true alloc) s
  { s with under := noteOld s.mem s.under (mine.filter s.inL2) }

/-! ### How an access goes through the caches -/

/-- How an access goes through the caches: its scope, and whether it allocates (R153). -/
structure Via where
  scope : Scope := .package
  alloc : Bool := true

/-! ### L1 (R27, R278) -/

/-- L1's sets under the running runner's split: its size in KiB (R27). -/
def State.l1Sets (s : State) : Nat :=
  (if isM s.r.ident.core.cluster then 1024 else 256) - 4 * 32 * s.r.vect.vlen / 1024 - s.tcmSize / 1024

/-- The lines of an L1 with one more: of a full set one leaves, which one being free. -/
def l1Fill (sets n line : Nat) (l1 : List L1Line) : List L1Line :=
  if l1.any fun l => l.line == line then l1
  else
    let set := l1.filter fun l => l.line % max 1 sets == line % max 1 sets
    let out : Option Nat := if set.length < 8 then none else (set[(Config.freeWord n).toNat % 8]?).map (·.line)
    { line := line } :: l1.filter fun l => some l.line != out

/-- The running runner's core's L1 changed. -/
def State.mapL1 (s : State) (f : List L1Line → List L1Line) : State :=
  let c := s.myCore
  s.setCore { c with l1 := f c.l1 }

/-- Where a load is served (R270, R278): by the core's own L1; otherwise by the cluster port, or from L2 or beyond. -/
structure Served where
  l1 : Bool := false
  reaches : Bool := true
  deriving DecidableEq, Repr

/-- Where a load of the running runner is served: one of runner or core scope may be by a line of the core's L1, one of team
scope by the stores the cluster port holds, free choices (log 3); any other load, and one that L1 does not serve, reaches L2. -/
def State.servedBy (s : State) (v : Via) (key : Nat) : Served × State :=
  if !isModuleKey key then ({}, s)
  else
    let (b, t) := s.freeBool
    match v.scope with
    | .runner | .core => if s.myCore.l1.any fun l => l.line == lineOf key then ({ l1 := b, reaches := !b }, t) else ({}, s)
    | .team => ({ reaches := !b }, t)
    | _ => ({}, s)

/-- The line of a key as the running runner's core's L1 holds it. -/
def State.l1Lines (s : State) (key : Nat) : List L1Line := s.myCore.l1.filter fun l => l.line == lineOf key

/-- L1 after a load: if it has not served it, its copy of the line is brought up to date (R272), and the line fills it where
the load allocates (R153). -/
def State.refillL1 (s : State) (served alloc : Bool) (key : Nat) : State :=
  if !isModuleKey key then s
  else
    let n := s.free
    { s.mapL1 (fun l1 =>
        let stays (l : L1Line) : Bool := l.line != lineOf key || served
        let l1 := l1.map fun l => { l with old := l.old.filter fun _ => stays l, late := l.late.filter fun _ => stays l }
        if alloc then l1Fill s.l1Sets n (lineOf key) l1 else l1) with free := n + 1 }

/-- The bytes a store of a runner, by its number, has replaced in a copy that was older than memory. -/
def L1Line.lateOf (l : L1Line) (r : RunnerId) (num : Nat) : List Host.Cell :=
  (l.late.filter fun x => x.1 == r && x.2.1 == num).flatMap (·.2.2)

/-- A line of the writer's core after a store: its copy is up to date there, and keeps what the store replaced. -/
def L1Line.written (l : L1Line) (r : RunnerId) (num : Nat) (cells : List Host.Cell) : L1Line :=
  let met (o : Host.Cell) : Bool := cells.any fun c => c.1 == o.1
  { l with
    old := l.old.filter fun o => !met o
    late := if l.old.any met then (r, num, l.old.filter met) :: l.late else l.late }

/-- A line after a store that falls beneath stores of some numbers: what those replaced there is the store's own. -/
def L1Line.beneath (l : L1Line) (r : RunnerId) (late : List Nat) (cells : List Host.Cell) : L1Line :=
  { l with late := l.late.map fun x => if x.1 == r && late.contains x.2.1 then
      (x.1, x.2.1, x.2.2.filter fun o => !cells.any fun c => c.1 == o.1) else x }

/-- Lines of other cores' L1 after bytes are written: their copies keep what they held; the writer's own core, if it has one,
with the runner and the store's number, brings its copy up to date (R272, R278). -/
def State.staleL1 (s : State) (writer : Option (CoreId × RunnerId × Nat)) (cells : List Host.Cell) : State :=
  if s.cores.all fun c => c.l1.isEmpty then s
  else
    let other (l : L1Line) : L1Line := { l with old := noteOld s.mem l.old ((cells.map (·.1)).filter fun k => lineOf k == l.line) }
    let lines (c : Core) : L1Line → L1Line := match writer with
      | some (w, r, num) => if c.id = w then fun l => l.written r num cells else other
      | none => other
    { s with cores := s.cores.map fun c => { c with l1 := c.l1.map (lines c) } }

/-- Every line of the running runner's L1 dropped (R278, R281). -/
def State.dropL1 (s : State) : State := if s.myCore.l1.isEmpty then s else s.mapL1 fun _ => []

/-- One line of the running runner's L1 dropped (R108). -/
def State.dropL1Line (s : State) (line : Nat) : State :=
  if s.myCore.l1.any fun l => l.line == line then s.mapL1 fun l1 => l1.filter fun l => l.line != line else s

/-- What a load does to the caches, by where it is served. -/
def State.loadLines (s : State) (v : Via) (w : Served) (key : Nat) (slice : Option Nat) : State :=
  let t := s.touchL2 key slice s.rid.part false v.alloc
  let s : State := { s with lines := if w.reaches then t.lines else s.lines, under := if w.reaches then t.under else s.under }
  s.refillL1 w.l1 v.alloc key

/-! ### Cache maintenance (R107, R108) -/

/-- A dirty line written to memory: what lay beneath its bytes is gone (R108). -/
def State.flushLine (s : State) (line : Nat) (evict : Bool) : State :=
  { s with
    under := cleanLine s.under line
    lines := if evict then s.lines.filter fun l => l.line != line
      else s.lines.map fun l => if l.line == line then { l with dirty := false } else l }

/-- A line dropped from L2 without write-back: its dirty bytes are lost (R108). -/
def State.invLine (s : State) (line : Nat) : State :=
  { s with
    mem := loseLine s.mem s.under line
    under := cleanLine s.under line
    lines := s.lines.filter fun l => l.line != line }

/-- A cache action on the line of a key in L2 (R108): flush and keep, flush and evict, invalidate. -/
def State.lineL2 (s : State) (key mode : Nat) : State :=
  if !isModuleKey key then s
  else match mode with
    | 0 => s.flushLine (lineOf key) false
    | 1 => s.flushLine (lineOf key) true
    | _ => s.invLine (lineOf key)

/-- A cache action of the running runner on a line of this module: the core's L1 drops it too. -/
def State.lineHere (s : State) (key mode : Nat) : State :=
  if !isModuleKey key then s else (s.dropL1Line (lineOf key)).lineL2 key mode

/-- A line requested (R107): for L2 alone, or for the core's L1 too, whose own copy serves it where there is one. -/
def State.prefetchLine (s : State) (key : Nat) (slice : Option Nat) (l2only : Bool) : State :=
  if !isModuleKey key then s
  else if l2only then s.touchL2 key slice s.rid.part false true
  else if s.myCore.l1.any fun l => l.line == lineOf key then s
  else
    let s := s.touchL2 key slice s.rid.part false true
    { s.mapL1 (l1Fill s.l1Sets s.free (lineOf key)) with free := s.free + 1 }

end Sys2Proof.Machine
end

