-- ==== Sys2Proof/Machine/Walk.lean ====
section
/-! DEFINITION. Addresses: the checks of R82, page tables (R297–R299), windows (R295, R296), peers and distributed
regions (R304, R305), and what stops an instruction. -/

namespace Sys2Proof.Machine

/-- The causes of R328. -/
inductive Cause where
  | illegal | priv | align | page | access | tag | convoy | nogrant | grantLost | leaseAbsent | leaseLost
  | illwait | waittime | rngend | silent | uncorr | fpe | brk | syscall | fabric
  deriving DecidableEq, Repr

/-- The code of a cause (R328). -/
def Cause.code : Cause → Nat
  | .illegal => 0x01 | .priv => 0x02 | .align => 0x03 | .page => 0x04 | .access => 0x05 | .tag => 0x06
  | .convoy => 0x07 | .nogrant => 0x08 | .grantLost => 0x09 | .leaseAbsent => 0x0A | .leaseLost => 0x0B
  | .illwait => 0x0C | .waittime => 0x0D | .rngend => 0x0E | .silent => 0x0F | .uncorr => 0x10 | .fpe => 0x11
  | .brk => 0x12 | .syscall => 0x13 | .fabric => 0x14

/-- What stops an instruction before it completes: a trap with its TVAL, an answer from outside that it waits for, a
hand-off queue that blocks (R17), a rewind with its LAST (R110), the end of a turn at an element-group boundary (R117). -/
inductive Stop where
  | trap (c : Cause) (tval : Word)
  | ask (a : Ask)
  | queue (q : QR)
  | rewind (last : BitVec 2)
  | pause
  deriving DecidableEq, Repr

/-- A computation that may stop, with the state the stop leaves. -/
abbrev M := Except (Stop × State)

/-- A result with the state after it, or a stop with the state it leaves. -/
abbrev Res (α : Type) := M (α × State)

/-- A result without effect. -/
abbrev Res.pure {α : Type} (a : α) (s : State) : M (α × State) := .ok (a, s)

/-- Stop with a trap. -/
def stopTrap {α : Type} (c : Cause) (tval : Word) (s : State) : M (α × State) := .error (.trap c tval, s)

/-- What an access is for (R298). -/
inductive AccKind where
  | load | store | amo | fetch
  deriving DecidableEq, Repr

/-! ### Page tables (R297, R298) -/

/-- How a walk ends (R298). -/
inductive Walk where
  | leaf (entry : Word) (size : Nat)
  | invalid
  | malformed
  deriving DecidableEq, Repr

/-- A table entry's own layout (R297): reserved bits 0 and, above the last table, NEXT bits 11:8 zero. -/
def tableOk (level : Nat) (e : Word) : Bool :=
  bitsOf e 57 7 == 0 && bitsOf e 2 6 == 0 && (level == 3 || bitsOf e 8 4 == 0) && bitsOf e 8 49 * 256 < 2 ^ 41

/-- A leaf's own layout (R297, R298): reserved bits 0, TGT 00 or 01, aligned to the page, in module memory. -/
def leafOk (size : Nat) (e : Word) : Bool :=
  bitsOf e 57 7 == 0 && bitsOf e 10 6 == 0 && !bitOf e 8 && bitsOf e 2 2 ≤ 1 &&
  (bitsOf e 16 41 * 2 ^ 16) % size == 0 && (bitsOf e 2 2 == 1 || bitsOf e 16 41 * 2 ^ 16 < 2 ^ 41)

/-- The index of a level into its table (R297). -/
def walkIndex (level : Nat) (va : Nat) : Nat :=
  match level with
  | 0 => va >>> 48 % 512 | 1 => va >>> 39 % 512 | 2 => va >>> 30 % 512 | 3 => va >>> 21 % 512 | _ => va >>> 16 % 32

/-- The page a leaf of a level maps (R297). -/
def pageSize (level : Nat) : Nat := if level == 2 then 2 ^ 30 else if level == 3 then 2 ^ 21 else 2 ^ 16

/-- Walk levels 5 − n to 4 from a table (R297, R298). -/
def walkLoop (mem : List Host.Cell) (va : Nat) : Nat → Nat → Walk
  | 0, _ => .malformed
  | n + 1, table =>
    let level := 4 - n
    let e : Word := BitVec.ofNat 64 (bytesVal (bytesAt mem (table + 8 * walkIndex level va) 8))
    if !bitOf e 0 then .invalid
    else if bitOf e 1 then
      if 2 ≤ level && leafOk (pageSize level) e then .leaf e (pageSize level) else .malformed
    else if level < 4 && tableOk level e then walkLoop mem va n (bitsOf e 8 49 * 256) else .malformed

/-- A walk from a root (R297). -/
def walk (mem : List Host.Cell) (root : Word) (va : Nat) : Walk :=
  if root.toNat < 2 ^ 41 then walkLoop mem va 5 root.toNat else .malformed

/-- Whether a leaf permits an access at a level of privilege (R298). -/
def leafPermits (sys : Bool) (k : AccKind) (e : Word) : Bool :=
  (sys || bitOf e 7) &&
  match k with
  | .load => bitOf e 4
  | .store => bitOf e 5
  | .amo => bitOf e 4 && bitOf e 5
  | .fetch => bitOf e 6

/-- The key a leaf sends an address to (R298). -/
def leafKey (e : Word) (size va : Nat) : Nat :=
  let pa := bitsOf e 16 41 * 2 ^ 16 + va % size
  if bitsOf e 2 2 == 0 then (Loc.module pa).key else (Loc.host pa).key

/-! ### The TLB and the walker (R299, R300) -/

/-- The TLB bank of an address (R299). -/
def tlbBank (va : Nat) : Nat := va / 2 ^ 16 % 16

/-- A core's held translation of an address of a partition, in the address's bank. -/
def tlbFind (t : List TlbEntry) (part va : Nat) : Option TlbEntry :=
  t.find? fun e => !e.owner && e.bank == tlbBank va && e.part == part && e.page ≤ va && va < e.page + e.size

/-- A core's held owner-table entry for an address of a distributed region (R305). -/
def tlbOwner (t : List TlbEntry) (part va : Nat) : Option TlbEntry :=
  t.find? fun e => e.owner && e.bank == tlbBank va && e.part == part && e.page ≤ va && va < e.page + e.size

/-- A translation held in its bank in place of any of the same addresses there. Of a bank of 128 entries one leaves, which one
being free, drawn by number. -/
def tlbHold (n : Nat) (t : List TlbEntry) (e : TlbEntry) : List TlbEntry :=
  let kept := t.filter fun x => !(x.owner == e.owner && x.bank == e.bank && x.part == e.part && x.page < e.page + e.size &&
    e.page < x.page + x.size)
  let bank := kept.filter fun x => x.bank == e.bank
  let out := if bank.length < 128 then none else bank[(Config.freeWord n).toNat % bank.length]?
  e :: kept.filter fun x => some x != out

/-- A translation found is held by the running runner's core. -/
def State.holdTlb (s : State) (e : TlbEntry) : State :=
  let c := s.myCore
  { s.setCore { c with tlb := tlbHold s.free c.tlb e } with free := s.free + 1 }

/-- What a walk with a walker's cache comes to: its end, the table entries used, the entries read from memory, and the
free choices drawn. -/
structure Walked where
  walk : Walk
  used : List (Nat × Word) := []
  read : List Nat := []
  free : Nat

/-- Walk levels 5 − n to 4 from a table. A table entry of L0 to L3 may come from the walker's cache, which page-table stores
leave as it is: where it differs from memory either may be used, a free choice (R299). -/
def walkVia (cache : List (Nat × Word)) (mem : List Host.Cell) (va : Nat) : Nat → Nat → Nat → Walked
  | 0, _, free => { walk := .malformed, free := free }
  | n + 1, table, free =>
    let level := 4 - n
    let a := table + 8 * walkIndex level va
    let now : Word := BitVec.ofNat 64 (bytesVal (bytesAt mem a 8))
    let held := ((cache.find? fun x => x.1 == a).map (·.2)).filter fun w => w != now
    let e := match held with
      | some w => if Config.freeBool free then w else now
      | none => now
    let free := if held.isSome then free + 1 else free
    if !bitOf e 0 then { walk := .invalid, read := [a], free := free }
    else if bitOf e 1 then
      { walk := if 2 ≤ level && leafOk (pageSize level) e then .leaf e (pageSize level) else .malformed
        read := [a], free := free }
    else if level < 4 && tableOk level e then
      let w := walkVia cache mem va n (bitsOf e 8 49 * 256) free
      { w with used := (a, e) :: w.used, read := a :: w.read }
    else { walk := .malformed, read := [a], free := free }

/-- A walk by the running runner's cluster: its cache keeps the table entries used, the entries are read from L2 at system
scope (R297, R299), and a translation found is held by the core. -/
def State.walkNow (s : State) (va : Nat) : Walk × State :=
  let part := s.rid.part
  let root := s.r.scal.sysr.ptbase
  let cl := s.cluster s.r.ident.core.die s.r.ident.core.cluster
  let mine := (cl.walker.filter fun x => x.1 == part).map (·.2)
  let w := if root.toNat < 2 ^ 41 then walkVia mine s.mem va 5 root.toNat s.free else { walk := .malformed, free := s.free }
  let s := w.read.foldl (fun s a => s.touchL2 a none part false true) { s with free := w.free }
  let kept := cl.walker.filter fun x => !(x.1 == part && w.used.any fun u => u.1 == x.2.1)
  let s := s.setCluster { cl with walker := w.used.map (fun x => (part, x.1, x.2)) ++ kept }
  match w.walk with
  | .leaf e size =>
    (w.walk, s.holdTlb { bank := tlbBank va, part := part, page := va / size * size, size := size, leaf := e })
  | _ => (w.walk, s)

/-- A translation of the running runner's core, for the first element in its page: a held one that page-table stores have made
stale may still be used, a free choice (R299). -/
def State.lookup (s : State) (va : Nat) : Walk × State :=
  match tlbFind s.myCore.tlb s.rid.part va with
  | none => s.walkNow va
  | some e =>
    if walk s.mem s.r.scal.sysr.ptbase va = .leaf e.leaf e.size then (.leaf e.leaf e.size, s)
    else
      let (old, s) := s.freeBool
      if old then (.leaf e.leaf e.size, s) else s.walkNow va

/-- The translation of an address that the instruction under way has taken, of a page or of a region's block. -/
def State.taken (s : State) (owner : Bool) (va : Nat) : Option TlbEntry :=
  s.r.pages.find? fun e => e.owner == owner && e.page ≤ va && va < e.page + e.size

/-- Translation for an access: once for each page that an instruction's elements enter (R300). -/
def State.translate (s : State) (va : Nat) : Walk × State :=
  match s.taken false va with
  | some e => (.leaf e.leaf e.size, s)
  | none => match s.lookup va with
    | (.leaf l size, s) =>
      let e : TlbEntry := { bank := tlbBank va, part := s.rid.part, page := va / size * size, size := size, leaf := l }
      (.leaf l size, s.mapR fun r => { r with pages := e :: r.pages })
    | x => x

/-- Each translation is taken afresh from here on: the next instruction, or the next element of an access that translates
every one (R300). -/
def State.newPages (s : State) : State := if s.r.pages.isEmpty then s else s.mapR fun r => { r with pages := [] }

/-! ### The virtual address space (R295, R296, R304, R305) -/

/-- What the checks of R82 find: the memory key, a peer to ask, a trap, a fault for the partition's service, or a page on
the move. -/
inductive Acc where
  | found (key : Nat)
  | peer (module : Nat) (va : Word)
  | trap (c : Cause)
  | service
  | moving
  deriving DecidableEq, Repr

/-- Whether an address of the running runner's partition lies in a page on the move, which holds new accesses back (R303);
not those of a runner whose own copy the move waits for while that copy waits for it: for its strip's commit (R164), or in its
vector queue (R233). -/
def State.pageMoving (s : State) (va : Nat) : Bool :=
  ((s.part? s.rid.part).map fun p => p.moves.any fun m => m.page ≤ va && va < m.page + m.size).getD false &&
  !(s.copies.any (fun c => c.runner == s.rid && c.waits) || s.r.vq.any fun | .copy _ => true | _ => false)

/-- An address of the page table (R297, R298). -/
def State.viaTable (s : State) (va : Nat) (k : AccKind) : Acc × State :=
  match s.translate va with
  | (.invalid, s) => (.service, s)
  | (.malformed, s) => (.trap .access, s)
  | (.leaf e size, s) =>
    if !leafPermits s.r.scal.sysr.sys k e then (.trap .access, s)
    else if s.pageMoving va then (.moving, s)
    else (.found (leafKey e size va), s)

/-- The distributed region of a partition's plan that holds an address of the regions' space (R305). -/
def Part.regionAt (p : Part) (va : Nat) : Option Region :=
  p.regions.find? fun g => g.num == (va - 0x0180000000000000) / 2 ^ 50

/-- The entry of a region's owner table for a block, as memory has it now (R305). -/
def ownerNow (mem : List Host.Cell) (g : Region) (block : Nat) : Word := BitVec.ofNat 64 (bytesVal (bytesAt mem (g.table + 2 * block) 2))

/-- The owner-table entry for an address (R305): cached in the TLB like a leaf, so that one which a store to the table has made
stale may still be used, a free choice that the instruction keeps for its other elements in the block. -/
def State.ownerOf (s : State) (g : Region) (va : Nat) : Word × State :=
  let size := 2 ^ g.lb
  let now := ownerNow s.mem g (va % 2 ^ 50 / size)
  let entry (w : Word) : TlbEntry :=
    { bank := tlbBank va, part := s.rid.part, page := va / size * size, size := size, leaf := w, owner := true }
  let take (w : Word) (s : State) : Word × State := (w, s.mapR fun r => { r with pages := entry w :: r.pages })
  match s.taken true va, tlbOwner s.myCore.tlb s.rid.part va with
  | some e, _ => (e.leaf, s)
  | none, none => take now (s.holdTlb (entry now))
  | none, some e =>
    if e.leaf = now then take now s
    else
      let (old, s) := s.freeBool
      if old then take e.leaf s else take now (s.holdTlb (entry now))

/-- Whether some port carries Relay to a module (R347), one that retrains among them; none does once FABRIC has been raised for it
(R349). -/
def State.relayReaches (s : State) (m : Nat) : Bool :=
  s.pacer.ports.toList.any (fun p => p.mode == .relay && p.lanes != 0) && !s.pacer.unreachable.contains (s.rid.part, m)

/-- An address as the partition's page table has it: one of the runner's own window lies at PRIVBASE, one of the module's own
fabric window is global (R296, R304). -/
def State.tableAddr (s : State) (va : Nat) : Nat :=
  if va / 2 ^ 32 == 0x01FF0002 then (s.r.ident.ownBase.toNat + va % 2 ^ 32) % 2 ^ 57
  else if 2 ^ 56 ≤ va && va < 0x0180000000000000 && (va - 2 ^ 56) / 2 ^ 43 == s.pacer.number then va % 2 ^ 43 else va

/-- A local window (R296): not executable, cut at its size. -/
def windowAcc (k : AccKind) (off size n : Nat) (key : Nat) : Acc :=
  if k = .fetch || size < off + n then .trap .access else .found key

/-- Checks 3 and 4 of R82 on an address below 2^57 that is aligned: its window or table (R295). -/
def State.locate (s : State) (va : Word) (n : Nat) (k : AccKind) : Acc × State :=
  let a := va.toNat
  if a < 2 ^ 56 then s.viaTable a k
  else if a < 0x0180000000000000 then
    let m := (a - 2 ^ 56) / 2 ^ 43
    let off := a % 2 ^ 43
    if m == s.pacer.number then s.viaTable (s.tableAddr a) k
    else if k = .fetch || !s.relayReaches m then (.trap .access, s)
    else (.peer m (BitVec.ofNat 64 off), s)
  else if a < 0x01C0000000000000 then
    let o := a % 2 ^ 50
    match (s.part? s.rid.part).bind fun p => p.regionAt a with
    | none => (.trap .access, s)
    | some g =>
      if g.size < o + n then (.trap .access, s)
      else
        let (e, s) := s.ownerOf g a
        if 4096 ≤ e.toNat then (.trap .access, s)
        else if e.toNat == s.pacer.number then s.viaTable a k
        else if k = .fetch || !s.relayReaches e.toNat then (.trap .access, s)
        else (.peer e.toNat va, s)
  else if a < 0x01FF000000000000 then (.trap .access, s)
  else
    let off := a % 2 ^ 32
    match (a - 0x01FF000000000000) / 2 ^ 32 with
    | 0 => (windowAcc k off s.scratchSize n (Loc.scratch s.myTeamUid off).key, s)
    | 1 => (windowAcc k off s.tcmSize n (Loc.tcm s.myTeamUid s.mySlot off).key, s)
    | 2 => s.viaTable (s.tableAddr a) k
    | 4 => (windowAcc k off s.dsmSize n (Loc.dsm s.myHeatUid s.r.ident.core.die off).key, s)
    | _ => (.trap .access, s)

/-- PINSLICE against a pinned region (R285): the die must be the region's, the slice a pinned one; an access that reaches L2
otherwise traps ACCESS. -/
def State.pinFaultBy (s : State) (pin va : Word) : Bool :=
  bitOf pin 63 &&
  match s.pinnedAt va with
  | none => false
  | some g => bitsOf pin 12 3 != g.die || !s.slicePinned (bitsOf pin 12 3) (bitsOf pin 0 12)

/-- The running runner's PINSLICE against an address. -/
def State.pinFault (s : State) (va : Word) : Bool := s.pinFaultBy s.r.scal.pinslice va

/-- The checks of R82 in order, for an access of n bytes that must be aligned to al. DEDUCED (log 49): a misaligned
address past the address space gives ACCESS by check 1, for tile accesses too, whose rules name ALIGN first. -/
def State.resolve (s : State) (va : Word) (n al : Nat) (k : AccKind) : Acc × State :=
  if 2 ^ 57 ≤ va.toNat then (.trap .access, s)
  else if va.toNat % al != 0 then (.trap .align, s)
  else match s.locate va n k with
  | (.found key, s) => if (k = .store || k = .amo) && s.pinFault va then (.trap .access, s) else (.found key, s)
  | r => r

end Sys2Proof.Machine
end

