-- ==== Sys2Proof/Machine/Ops.lean ====
section
/-! DEFINITION. The named operations: reading and writing memory as a runner sees it, the strip store buffer, taking
an exception and returning from one, rewinding, and how a scalar-side instruction ends. -/

namespace Sys2Proof.Machine

/-! ### What stores of the runner have replaced (R86, R105, R159, R272) -/

/-- Who reads, where the readers of one runner may still see what a store replaced (R86, R103, R105, R159): the fetch, the
two sides, a stream, a copy. -/
inductive Obs where
  | fetch | vec | scal | strm
  | copy (id : Nat)
  deriving DecidableEq, Repr

/-- Whether an observer may still see the bytes a store replaced. -/
def Hist.seenBy (h : Hist) : Obs → Bool
  | .fetch => h.fetch | .vec => h.vec | .scal => h.scal | .strm => h.strm | .copy id => h.copies.contains id

/-- A store that both sides, streams and later copies have behind them: only fetches may still see what it replaced. -/
def Hist.settled (h : Hist) : Hist := { h with vec := false, scal := false, strm := false, box := false, copies := [] }

/-- An observer that has seen the newer bytes sees the replaced ones no more (R272); a stream's reads are the vector side's
(R269). Bytes an engine has taken from beyond the core have performed for every later reader but the fetch (R271, R273,
DEDUCED, log 4). -/
def Hist.drop (h : Hist) : Obs → Hist
  | .fetch => { h with fetch := false } | .vec => { h with vec := false }
  | .scal => { h with scal := false } | .strm => { h with strm := false, vec := false }
  | .copy _ => h.settled

/-- Whether a replaced byte lies among n keys from k. -/
def Hist.meets (h : Hist) (k n : Nat) : Bool := h.cells.any fun c => k ≤ c.1 && c.1 < k + n

/-- Whether nobody may see the replaced bytes any more. -/
def Hist.dead (h : Hist) : Bool := !(h.fetch || h.vec || h.scal || h.strm || h.box) && h.copies.isEmpty

/-- A history without the oldest entries that nobody may see: a dead one above a live one still covers it, and may be the
release that orders it. -/
def liveHist : List Hist → List Hist
  | [] => []
  | h :: t => if (liveHist t).isEmpty && h.dead then [] else h :: liveHist t

/-- A runner's history changed. -/
def Runner.mapHist (r : Runner) (f : Hist → Hist) : Runner := { r with hist := liveHist (r.hist.map f) }

/-- The numbers of the stores with a byte at some keys. -/
def histAt (p : Nat → Bool) (hs : List Hist) : List Nat := (hs.filter fun h => h.cells.any fun c => p c.1).map (·.num)

/-- Another agent, or an agent's own second reader, has met bytes at some keys: each of the runner's stores to them has
performed, whole (R84, R274), for every reader but its fetches (R271, R273). -/
def Runner.exposed (r : Runner) (p : Nat → Bool) : Runner :=
  let met := histAt p r.hist
  if met.isEmpty then r else r.mapHist fun h => if met.contains h.num then h.settled else h

/-- Bytes of some keys met by an agent that is neither side of any runner here. -/
def State.exposeAll (s : State) (p : Nat → Bool) : State :=
  { s with r := s.r.exposed p, rs := s.rs.map fun x => (x.1, x.2.exposed p) }

/-- Bytes of some keys met by the running runner: its stores are its own, those of the others have performed. -/
def State.exposeOthers (s : State) (p : Nat → Bool) : State := { s with rs := s.rs.map fun x => (x.1, x.2.exposed p) }

/-- The keys k to k + n − 1. -/
def inKeys (k n : Nat) (a : Nat) : Bool := k ≤ a && a < k + n

/-- Bytes with replaced ones laid over them. -/
def undo (cells : List Host.Cell) (k : Nat) (bs : List Byte) : List Byte :=
  (keysFrom k bs.length).zip bs |>.map fun kb => overlay cells kb.1 kb.2

/-- Bytes with the stores of some numbers not yet performed, looked at newest first: a byte of a store read as performed
stands whatever older ones did (R274). `old` says what a store replaced. -/
def undoLate (late : List Nat) (old : Hist → List Host.Cell) (k : Nat) : List Hist → List Nat → List Byte → List Byte
  | [], _, bs => bs
  | h :: t, kept, bs =>
    if late.contains h.num then undoLate late old k t kept (undo ((old h).filter fun c => !kept.contains c.1) k bs)
    else undoLate late old k t (h.cells.map (·.1) ++ kept) bs

/-- The numbers of the stores of which such a read shows a byte. -/
def shownBy (late : List Nat) (k n : Nat) : List Hist → List Nat → List Nat
  | [], _ => []
  | h :: t, kept =>
    if late.contains h.num then shownBy late k n t kept
    else
      let more := shownBy late k n t (h.cells.map (·.1) ++ kept)
      if h.cells.any fun c => inKeys k n c.1 && !kept.contains c.1 then h.num :: more else more

/-- The largest number of a history. -/
def histTop (hs : List Hist) : Nat := hs.foldl (fun n h => Nat.max n h.num) 0

/-- The stores an observer of the running runner reads as not yet performed: of those it may not have behind it, each or
not, a free choice drawn by its number (R86, R274). -/
def State.lateFor (s : State) (o : Obs) (hs : List Hist) : List Nat × State :=
  let can := ((hs.filter (·.seenBy o)).map (·.num)).eraseDups
  if can.isEmpty then ([], s)
  else (can.filter fun n => Config.freeBool (s.free + n), { s with free := s.free + histTop hs + 1 })

/-- What an observer has read of stores is behind it from now on, each store whole (R272, R274). -/
def State.readBack (s : State) (o : Obs) (shown : List Nat) : State :=
  if shown.isEmpty then s
  else s.mapR fun r => r.mapHist fun h => if shown.contains h.num && h.seenBy o then h.drop o else h

/-! ### Reading memory -/

/-- The bytes tile stores have yet to write (R181). -/
def State.pending (s : State) : List Nat :=
  s.cores.flatMap fun c => match c.att with
    | none => []
    | some a => a.ops.flatMap fun o => o.cells.map (·.1)

/-- n bytes of memory now; those an outstanding tile store will write read as unpredictable values (R181). -/
def State.look (s : State) (k n : Nat) : List Byte × State :=
  let p := s.pending
  let bs := bytesAt s.mem k n
  if p.any fun a => k ≤ a && a < k + n then
    (bs.mapIdx fun i b => if p.contains (k + i) then Config.freeByte (s.free + i) else b, { s with free := s.free + n })
  else (bs, s)

/-- n bytes of memory as an observer of the running runner may see them: where a store of the runner is not ordered before
it, what the store replaced may still be read (R86, R274). What it meets of other runners' stores has performed. Beside the
bytes of memory, those of the core's L1 by its line (R278). -/
def State.seenVia (s : State) (o : Obs) (l1 : List L1Line) (k n : Nat) : (List Byte × List Byte) × State :=
  let (now, s) := s.look k n
  let s := s.exposeOthers (inKeys k n)
  let held := undo (l1.flatMap (·.old)) k now
  let hs := s.r.hist.filter fun h => h.meets k n
  if hs.all fun h => !h.seenBy o then ((now, held), s)
  else
    let (late, s) := s.lateFor o hs
    ((undoLate late (·.cells) k hs [] now,
      undoLate late (fun h => h.cells ++ l1.flatMap fun l => l.lateOf s.rid h.num) k hs [] held),
      s.readBack o (shownBy late k n hs []))

/-- n bytes of memory as an observer of the running runner may see them. -/
def State.seen (s : State) (o : Obs) (k n : Nat) : List Byte × State :=
  let (bs, s) := s.seenVia o [] k n
  (bs.1, s)

/-- n bytes of memory as an agent beside the runners' sides meets them. -/
def State.agentLook (s : State) (k n : Nat) : List Byte × State := (s.exposeAll (inKeys k n)).look k n

/-- What a store makes of a byte: of one it writes in part the other bits keep their value (R156). -/
def StoreAct.lay (a : StoreAct) (k : Nat) (b : Byte) : Byte :=
  match a.masks.find? fun m => m.1 == k with
  | none => overlay a.cells k b
  | some m => (overlay a.cells k b &&& m.2) ||| (b &&& ~~~m.2)

/-- Bytes with stores laid over them, oldest first. -/
def overlayActs (acts : List StoreAct) (k : Nat) (bs : List Byte) : List Byte :=
  acts.foldl (fun bs a => (keysFrom k bs.length).zip bs |>.map fun kb => a.lay kb.1 kb.2) bs

/-- Bytes with stores laid over them. -/
def layAct (k : Nat) (bs : List Byte) (a : StoreAct) : List Byte := overlayActs [a] k bs

/-- Bytes with the bits of a mask cleared in the word at a key. -/
def clearIn (key : Nat) (mask : Word) (k : Nat) (bs : List Byte) : List Byte :=
  (keysFrom k bs.length).zip bs |>.map fun kb =>
    if key ≤ kb.1 && kb.1 < key + 8 then kb.2 &&& ~~~((mask >>> (8 * (kb.1 - key))).setWidth 8) else kb.2

/-- Bytes with the scalar side's own held stores and clears done (R233). -/
def layHeld (q : List VItem) (k : Nat) (bs : List Byte) : List Byte :=
  q.foldl (fun bs i => match i with
    | .store a => layAct k bs a
    | .bmclr key mask => clearIn key mask k bs
    | _ => bs) bs

/-- Bytes with the stores of its own that a side sees laid over them: the strip store buffer (R83, R87), the vector
side's own write-combining share (R283), the scalar side's held stores (R233). A stream and the fetch see memory alone, a
stream after a fence too that orders it after buffered stores (R103, R152; DEDUCED, log 4). -/
def Runner.lay (r : Runner) (o : Obs) (k : Nat) (bs : List Byte) : List Byte :=
  match o with
  | .scal => layHeld r.vq k (overlayActs r.strip.buf k bs)
  | .vec => overlayActs (r.share ++ r.strip.buf) k bs
  | _ => bs

/-- Bytes as a side of the running runner meets them where they are served: in the core's L1, or beyond it (R278, R285). -/
def State.readUnder (s : State) (o : Obs) (v : Via) (w : Served) (slice : Option Nat) (k n : Nat) : List Byte × State :=
  let (bs, s) := s.seenVia o (s.l1Lines k) k n
  (if bs.2 != bs.1 && w.l1 then bs.2 else bs.1, s.loadLines v w k slice)

/-- Bytes as a side of the running runner reads them, its own stores that have not performed laid over them. -/
def State.readRaw (s : State) (o : Obs) (v : Via) (w : Served) (slice : Option Nat) (k n : Nat) : List Byte × State :=
  let (bs, s) := s.readUnder o v w slice k n
  (s.r.lay o k bs, s)

/-- What reading poisoned bytes does (R341): a rewind the first time in a protected strip, else UNCORR with the
address of the poisoned unit. -/
def State.consume {α : Type} (s : State) (va : Word) (key unit : Nat) : M (α × State) :=
  if s.r.strip.prot && !s.r.strip.uncorrSeen then
    .error (.rewind 1, s.mapR fun r => { r with strip := { r.strip with uncorrSeen := true } })
  else stopTrap .uncorr (BitVec.ofNat 64 ((va.toNat + unit - key) / 8 * 8 % 2 ^ 63)) s

/-- Bytes read at a key under a PINSLICE, poison consumed (R341). A load of a pinned region that it does not fit traps ACCESS
if it reaches L2 (R285). -/
def State.readBy (s : State) (o : Obs) (v : Via) (pin va : Word) (k n : Nat) : M (List Byte × State) :=
  let (w, s) := s.servedBy v k
  if s.pinFaultBy pin va && w.reaches then stopTrap .access va s
  else match poisonMeets s.poison k n with
    | some u => s.consume va k u
    | none => let (bs, s) := s.readRaw o v w (s.pinSliceBy pin va) k n; .ok (bs, s)

/-- Bytes read at a key under the runner's PINSLICE. -/
def State.readAt (s : State) (o : Obs) (v : Via) (va : Word) (k n : Nat) : M (List Byte × State) :=
  s.readBy o v s.r.scal.pinslice va k n

/-- The answer to an ask, if one has come; otherwise the runner waits for it. -/
def State.answer (s : State) (a : Ask) : M (Reply × State) :=
  match s.r.replies.find? fun x => x.1 == a with
  | some (_, r) => .ok (r, s)
  | none => .error (.ask a, s)

/-- What the answer of the partition's fault service or of a peer means at an address (R301, R304). -/
def replyBytes (va : Word) (n : Nat) (r : Reply) (s : State) : M (List Byte × State) :=
  match r with
  | .data bs => .ok ((bs ++ List.replicate n 0).take n, s)
  | .done | .packed .. => .ok (List.replicate n 0, s)
  | .page => stopTrap .page va s
  | .access => stopTrap .access va s
  | .poisoned => s.consume va 0 0

/-- The checks of R82 with fault service (R301): the key, or the peer that holds the address. A mapping served is
found by translating afresh. -/
def State.check (s : State) (va : Word) (n al : Nat) (k : AccKind) : M (Acc × State) :=
  match s.resolve va n al k with
  | (.trap c, s) => stopTrap c va s
  | (.service, s) =>
    match s.r.replies.find? fun x => x.1 == .service va with
    | some (_, .page) => stopTrap .page va s
    | some (_, .access) => stopTrap .access va s
    | _ => .error (.ask (.service va), s)
  | (.moving, s) => .error (.ask .moving, s)
  | (a, s) => .ok (a, s)

/-- Bytes an outside agent answers with, as a side reads them. -/
def State.loadFrom (s : State) (o : Obs) (va : Word) (a : Ask) (k n : Nat) : M (List Byte × State) := do
  let (r, s) ← s.answer a
  let (bs, s) ← replyBytes va n r s
  .ok (s.r.lay o k bs, s)

/-- A load of n bytes, aligned to al, as a side reads it (R82, R83); host memory and a peer's are read by asking
(R91, R304). -/
def State.load (s : State) (o : Obs) (v : Via) (va : Word) (n al : Nat) : M (List Byte × State) := do
  let (a, s) ← s.check va n al .load
  match a with
  | .found k =>
    if isHostKey k then s.loadFrom o va (.host (.read (BitVec.ofNat 64 (k - hostBase)) n)) k n else s.readAt o v va k n
  | .peer m pva => s.loadFrom o va (.peer m (.read pva n)) (Loc.peer m pva.toNat).key n
  | _ => stopTrap .access va s

/-! ### Writing memory -/

/-- A latch element of some bits made free, by number. -/
def freeElem (bits n : Nat) (row : LatchRow) (e : Nat) : LatchRow :=
  { row with elems := row.elems.mapIdx fun i x =>
      if i = e then BitVec.ofNat 64 ((Config.freeWord (n + i)).toNat % 2 ^ bits) else x }

/-- What a write does to outstanding tile work (R173, R181): bytes a tile store of the runners `who` names will still write
are spoiled, latch elements and scales of those `loads` names whose source is overwritten become free values, and with them
what later operations have computed from them. -/
def Attach.touched (a : Attach) (who loads : RunnerId → Bool) (n : Nat) (cells : List Host.Cell) : Attach :=
  let ops := a.ops.map fun o => if !who o.runner then o else
    { o with taint := o.taint ++ (o.cells.filter fun c => cells.any fun d => d.1 == c.1).map (·.1) }
  let hit (c : Capture) (e : Nat) : Bool := cells.any fun d =>
    c.key ≤ d.1 && d.1 < c.key + c.len && e * c.bits < 8 * (d.1 - c.key) + 8 && 8 * (d.1 - c.key) < (e + 1) * c.bits
  let freed (c : Capture) (row : LatchRow) : LatchRow :=
    if c.scale then (if cells.any fun d => c.key ≤ d.1 && d.1 < c.key + c.len then
      { row with scale := (Config.freeWord n).setWidth 16 } else row)
    else (List.range row.elems.length).foldl (fun row e => if hit c e then freeElem c.bits n row e else row) row
  let met := a.caps.filter fun c => loads c.runner && cells.any fun d => c.key ≤ d.1 && d.1 < c.key + c.len
  let latches := (met.filter (·.live)).foldl (fun ls c =>
    ls.set c.latch (ls[c.latch].mapIdx fun i row => if i = c.row then freed c row else row)) a.latches
  met.foldl (fun a c => a.spreadRows (n + 8192) c.runner c.use c.latch [c.row]) { a with ops := ops, latches := latches }

/-- Cores' attaches after a write. -/
def State.touchTiles (s : State) (who loads : RunnerId → Bool) (cells : List Host.Cell) : State :=
  if s.cores.all fun c => c.att.isNone then s
  else { s with cores := s.cores.map fun c => { c with att := c.att.map fun a => a.touched who loads s.free cells },
                free := s.free + 65536 }

/-- Whether a key is outside the module. -/
def isOutKey (k : Nat) : Bool := isPeerKey k || isHostKey k

/-- An access of what a key outside the module names (R304, R91). -/
def askAt (k : Nat) (acc : Word → OutAccess) : Ask :=
  if isPeerKey k then .peer ((k - peerBase) / 2 ^ 57) (acc (BitVec.ofNat 64 ((k - peerBase) % 2 ^ 57)))
  else .host (acc (BitVec.ofNat 64 (k - hostBase)))

/-- A store's bytes that leave the module, to a peer by the fabric or to host memory; a byte written in part leaves with its
mask, to be merged in one action (R156, log 33). -/
def StoreAct.outWrite (a : StoreAct) : Option Ask :=
  match a.cells.filter fun c => isOutKey c.1 with
  | [] => none
  | (k, b) :: t => some (askAt k fun va => match a.masks.find? fun m => m.1 == k with
    | some m => .merge va m.2 b
    | none => .write va (((k, b) :: t).map (·.2)))

/-- The keys whose bytes a store writes whole, with those of its instruction before it in the same blocks (R341). -/
def StoreAct.whole (a : StoreAct) : List Nat :=
  ((a.cells.map (·.1)).filter fun k => !a.masks.any fun m => m.1 == k && m.2 != 0xFF#8) ++ a.cover

/-- The partition's PASID, which an access of host memory carries, and so does a page request (R298, R301). -/
def State.pasidOf (s : State) (part : Nat) (a : Ask) : Option (BitVec 20) :=
  (s.part? part).bind fun p => match a with
    | .host _ => some p.record.pasid
    | .service _ => if p.record.modes.getLsbD 0 then some p.record.pasid else none
    | _ => none

/-- The page requests a VF may have outstanding (R343). -/
def requestLimit : Nat := 256

/-- A page request to a partition's host (R301): while the limit's number is outstanding it waits (R343). -/
def State.request (s : State) (part : Nat) (m : OutMsg) : State :=
  match s.part? part with
  | none => s.emit m
  | some p =>
    let s := s.setPart { p with requests := p.requests ++ [m] }
    if p.requests.length < requestLimit then s.emit m else s

/-- A runner's page request answered: one that waits goes to the host (R343). -/
def State.requestDone (s : State) (r : RunnerId) : State :=
  match s.part? r.part with
  | none => s
  | some p =>
    let l := p.requests.eraseP fun m => match m with
      | .ask q .. => q == r
      | _ => false
    let s := s.setPart { p with requests := l }
    match (if l.length < p.requests.length then l[requestLimit - 1]? else none) with
    | some m => s.emit m
    | none => s

/-- An access of a runner leaves the module, or its page is asked for; of packed lists, one to each module (R306). -/
def State.send (s : State) (r : RunnerId) (a : Ask) : State :=
  match a with
  | .lists l => l.foldl (fun s x => s.emit (.ask r none (.lists [x]))) s
  | .service va =>
    match s.pasidOf r.part a with
    | some n => s.request r.part (.ask r (some n) (.service va))
    | none => s.emit (.ask r none (.service va))
  | a => s.emit (.ask r (s.pasidOf r.part a) a)

/-- The address of an access. -/
def accAddr : OutAccess → Nat
  | .read a _ | .write a _ | .amo a _ _ _ _ | .merge a _ _ | .poisoned a _ | .line a _ => a.toNat
  | .attest _ | .register _ | .record _ => 0

/-- Its length in bytes. -/
def accLen : OutAccess → Nat
  | .read _ n | .poisoned _ n => n
  | .write _ bs => bs.length
  | .amo _ _ w _ _ => w
  | .merge .. | .line .. => 1
  | .attest _ | .register _ | .record _ => 0

/-- What it is for. -/
def accKind : OutAccess → AccKind
  | .read .. | .line .. | .attest _ | .register _ | .record _ => .load
  | .write .. | .merge .. | .poisoned .. => .store
  | .amo .. => .amo

/-- A cache action of the running runner (R108); that on a line of a peer's is done at its home. -/
def State.lineAction (s : State) (key mode : Nat) : State :=
  if isPeerKey key then s.send s.rid (askAt key fun va => .line va mode) else s.lineHere key mode

/-- A cache action in its place: a flush after every earlier scalar-side store to its line, one still in the strip store buffer
being waited for; an invalidation at once, buffered stores being left alone (R108). -/
def State.lineAfterStores (s : State) (key mode : Nat) : State :=
  if mode < 2 && s.r.strip.buf.any fun a => !a.byVec && a.cells.any fun c => lineOf c.1 == lineOf key then
    s.mapR fun r => { r with strip := { r.strip with lines := r.strip.lines ++ [(key, mode)] } }
  else s.lineAction key mode

/-- A store's bytes written to memory for a runner: their lines reach L2, with the slice PINSLICE names for a line and whether
they allocate (R286); poison of units written whole cleared (R341). Bytes of host memory and of a peer leave the module. What
the write does to outstanding tile work, to L1 and to readers is the caller's to say. -/
def State.putCells (s : State) (who : RunnerId) (slice : Nat → Option Nat) (a : StoreAct) : State :=
  let mine := a.cells.filter fun c => !isOutKey c.1
  let s := s.writeL2 (mine.map (·.1)) slice who.part a.alloc
  let s := { s with mem := cellsPut s.mem (mine.map fun c => (c.1, a.lay c.1 (cellGet s.mem c.1)))
                    poison := poisonAfter s.poison a.whole }
  match a.outWrite with
  | none => s
  | some q => s.send who q

/-- Bytes an agent beside the runners' two sides has written for a runner reach memory; what that does to outstanding tile
work has been said. -/
def State.reachFor (s : State) (who : RunnerId) (slice : Nat → Option Nat) (alloc : Bool) (cells : List Host.Cell) : State :=
  ((s.staleL1 none cells).exposeAll fun k => cells.any fun c => c.1 == k).putCells who slice { cells := cells, alloc := alloc }

/-- An agent beside the runners' two sides writes bytes for a runner. -/
def State.writeFor (s : State) (who : RunnerId) (slice : Nat → Option Nat) (alloc : Bool) (cells : List Host.Cell) : State :=
  (s.touchTiles (fun _ => true) (fun _ => true) cells).reachFor who slice alloc cells

/-- An agent that belongs to no runner writes bytes for a partition. -/
def State.agentWrite (s : State) (part : Nat) (cells : List Host.Cell) : State :=
  s.writeFor { part := part } (fun _ => none) true cells

/-! ### Stores of the running runner -/

/-- The side that reads as a store's own. -/
def StoreAct.side (a : StoreAct) : Obs := if a.byVec then .vec else .scal

/-- The copies of the runner under way that may read what a store replaces (R103, R279): those that do not wait for it. -/
def State.copyIds (s : State) (a : StoreAct) : List Nat :=
  (s.copies.filter fun c => c.runner == s.rid && !(c.waits && (!a.byVec || !a.box)) &&
    c.elems.any fun e => a.cells.any fun x => inKeys e.1 c.esize x.1).map (·.id)

/-- Whether an IFENCE waits behind what the vector queue has still to do: the stores made meanwhile come before it (R105). -/
def Runner.ifenceQueued (r : Runner) : Bool := r.vq.any fun | .ifence => true | _ => false

/-- What a store replaces, and who of the runner may still see it (R86, R105, R159); `seen` says that both sides have seen
the store already. It has a number of its own. -/
def State.replaced (s : State) (a : StoreAct) (seen : Bool) (old : List Host.Cell) : Hist :=
  { num := histTop s.r.hist + 1, byVec := a.byVec, cells := old, fetch := a.fetch && !s.r.ifenceQueued
    vec := !seen && !a.byVec, scal := !seen && a.byVec, strm := a.strm, box := a.byVec && a.box && !seen
    copies := s.copyIds a, rel := a.rel }

/-- The old bytes of a store's keys. -/
def State.oldCells (s : State) (cells : List Host.Cell) : List Host.Cell := cells.map fun c => (c.1, cellGet s.mem c.1)

/-- A store of a number written by the running runner: its core's L1 follows, those of others do not (R272); other runners'
stores to its bytes have performed. -/
def State.writeOwn (s : State) (a : StoreAct) (num : Nat) : State :=
  ((s.staleL1 (some (s.r.ident.core, s.rid, num)) a.cells).exposeOthers fun k => a.cells.any fun c => c.1 == k).putCells
    s.rid (fun _ => a.slice) a

/-- Of the stores of some numbers, those that cannot come after an access of some keys: another that comes before it covers
one of their bytes there. Newest store first. -/
def coveredLate (keys late : List Nat) : List Hist → List Nat → List Nat
  | [], _ => []
  | h :: t, kept =>
    let ks := (h.cells.map (·.1)).filter keys.contains
    if late.contains h.num then
      (if ks.any kept.contains then h.num :: coveredLate keys late t kept else coveredLate keys late t kept)
    else coveredLate keys late t (ks ++ kept)

/-- The stores of some numbers that can all come after an access, each whole (R90, R274): n rounds take out what others
cover. -/
def closeLate (keys : List Nat) (hs : List Hist) : Nat → List Nat → List Nat
  | 0, late => late
  | n + 1, late => closeLate keys hs n (late.filter fun m => !(coveredLate keys late hs []).contains m)

/-- Which of the other side's stores that are unordered against an access of this side come after it, a free choice (R86,
R90, R282). -/
def State.lateFrom (s : State) (o : Obs) (keys : List Nat) : List Nat × State :=
  let hs := s.r.hist.filter fun h => h.cells.any fun c => keys.contains c.1
  let (late, s) := s.lateFor o hs
  (closeLate keys hs late.length late, s)

/-- A store put beneath the stores of some numbers: what the oldest of those replaced of a byte is the store's own, and the
store has replaced what that one had. -/
def putBeneath (late : List Nat) (a : StoreAct) (own : Hist) : List Hist → List Hist
  | [] => []
  | h :: t =>
    if late.contains h.num then
      let older (k : Nat) : Bool := t.any fun x => late.contains x.num && x.cells.any fun c => c.1 == k
      let here := h.cells.filter fun c => (a.cells.any fun d => d.1 == c.1) && !older c.1
      let h' := { h with cells := h.cells.map fun c => if here.contains c then (c.1, a.lay c.1 c.2) else c }
      if here.isEmpty then h :: putBeneath late a own t else h' :: { own with cells := here } :: putBeneath late a own t
    else h :: putBeneath late a own t

/-- A store of the running runner performs, the other side's stores of some numbers after it. -/
def State.performAt (s : State) (late : List Nat) (a : StoreAct) : State :=
  let above := s.r.hist.filter fun h => late.contains h.num
  let top := a.cells.filter fun c => !above.any fun h => h.cells.any fun d => d.1 == c.1
  let h := s.replaced a false (s.oldCells top)
  let hist := if late.isEmpty then s.r.hist else putBeneath late a h s.r.hist
  let s := if late.isEmpty then s else s.mapL1 (List.map fun l => l.beneath s.rid late a.cells)
  ((s.mapR fun r => { r with hist := if top.isEmpty then hist else h :: hist }).touchTiles (fun _ => true) (fun _ => true)
    a.cells).writeOwn { a with cells := top } h.num

/-- A store of the running runner performs; against one of the other side that no fence orders it falls either way (R282). -/
def State.perform (s : State) (a : StoreAct) : State :=
  let (late, s) := s.lateFrom a.side (a.cells.map (·.1))
  s.performAt late a

/-- A store performs that its own runner's tile operations have met before: one that leaves the share (R283), or a
buffered one at its commit, which both sides have seen (R87). -/
def State.performLate (s : State) (seen : Bool) (a : StoreAct) : State :=
  let h := s.replaced a seen (s.oldCells a.cells)
  ((s.mapR fun r => { r with hist := h :: r.hist }).touchTiles
    (fun r => r != s.rid) (fun r => r != s.rid) a.cells).writeOwn a h.num

/-- The write-combining share drained in program order (R283). -/
def State.drainShare (s : State) : State :=
  let acts := s.r.share
  acts.foldl (State.performLate · false) (s.mapR fun r => { r with share := [] })

/-- The share drained at the end of a barrier's phase, which a wait on the barrier puts behind both sides (R283). -/
def State.drainPhase (s : State) : State :=
  let n := s.r.share.length
  s.drainShare.mapR fun r => { r with hist := (r.hist.take n).map (fun h => { h with phase := true }) ++ r.hist.drop n }

/-- The lines a list of stores occupies (R283). -/
def actLines (acts : List StoreAct) : List Nat := (acts.flatMap fun a => a.cells.map fun c => lineOf c.1).eraseDups

/-- A vector-side store of a deterministic heat enters its share; one that needs a seventeenth line drains it (R283). -/
def State.shareStore (s : State) (a : StoreAct) : State :=
  let s := if 16 < (actLines (s.r.share ++ [a])).length then s.drainShare else s
  s.mapR fun r => { r with share := r.share ++ [a] }

/-- Whether a store enters the share (R283): global memory, DSM and the scratchpad. -/
def sharedKey (k : Nat) : Bool := !isTcmKey k && !isPeerKey k

/-- A store outside the strip store buffer. -/
def State.deliver (s : State) (a : StoreAct) : State :=
  if a.byVec && detOf s.vtype && a.cells.all (fun c => sharedKey c.1) then
    (s.touchTiles (fun r => r == s.rid) (fun r => r == s.rid) a.cells).shareStore a else s.perform a

/-- A buffered store at its commit; in a deterministic heat the vector side's enter the share then (R283), but for one that
a fence has ordered before a later copy, which performs now (R103). -/
def State.deliverSeen (s : State) (a : StoreAct) : State :=
  if a.byVec && detOf s.vtype && a.cells.all (fun c => sharedKey c.1) then
    (if a.box then s.shareStore a else s.drainShare.performLate true a)
  else s.performLate true a

/-- The running runner's copies wait for no store any more: those before them have performed or are gone (R164). -/
def State.freeCopies (s : State) : State :=
  { s with copies := s.copies.map fun c => if c.runner == s.rid then { c with waits := false } else c }

/-- The runner's outstanding tile stores belong to no protected strip any more (R185). -/
def State.freeTileOps (s : State) : State :=
  let c := s.myCore
  match c.att with
  | none => s
  | some a => s.setCore { c with att := some { a with ops := a.ops.map fun o =>
      if o.runner == s.rid then { o with prot := false } else o } }

/-- The strip store buffer commits in program order (R87). -/
def State.commitStrip (s : State) : State :=
  let acts := s.r.strip.buf
  let lines := s.r.strip.lines
  lines.foldl (fun s l => s.lineAction l.1 l.2) (acts.foldl State.deliverSeen
    (s.mapR fun r => { r with strip := { r.strip with buf := [], lines := [], count := 0 } })).freeCopies.freeTileOps

/-- Protection of the current strip ends: the buffer commits and PROT clears (R23, R101). -/
def State.endProt (s : State) : State :=
  if s.r.strip.prot then s.commitStrip.mapR fun r => { r with strip := { r.strip with prot := false } } else s

/-- The bits the strip store buffer holds (R23). -/
def State.stripCap (s : State) : Nat := if isM s.r.ident.core.cluster then 524288 else 131072

/-- A store that is definite: buffered inside a protected strip unless it would overflow the buffer (R245). -/
def State.storeNow (s : State) (a : StoreAct) : State :=
  if s.r.strip.prot then
    if s.stripCap < s.r.strip.count + a.count then s.endProt.deliver a
    else (s.touchTiles (fun r => r == s.rid) (fun r => r == s.rid) a.cells).mapR fun r =>
      { r with strip := { r.strip with buf := r.strip.buf ++ [a], count := r.strip.count + a.count } }
  else s.deliver a

/-- A store of a side; the scalar side's is held while earlier vector instructions are incomplete (R233). -/
def State.store (s : State) (a : StoreAct) : State :=
  if a.byVec || s.r.vq.isEmpty then s.storeNow a else s.mapR fun r => { r with vq := r.vq ++ [.store a] }

/-- The instruction's stores of some bits in all would overflow the strip store buffer: its first ends protection, before it
performs (R245). -/
def State.fitStrip (s : State) (bits : Nat) : State :=
  if s.r.strip.prot && s.stripCap < s.r.strip.count + bits then s.endProt else s

/-- The checks of a store, with the peer's own check where it holds the address (R82, R304): its first key. -/
def State.checkStore (s : State) (va : Word) (n al : Nat) : M (Nat × State) := do
  let (a, s) ← s.check va n al .store
  match a with
  | .found k => .ok (k, s)
  | .peer m pva =>
    let (r, s) ← s.answer (.peer m (.write pva []))
    let (_, s) ← replyBytes va 0 r s
    .ok ((Loc.peer m pva.toNat).key, s)
  | _ => stopTrap .access va s

/-! ### Orders made between the two sides (R103, R276–R278) -/

/-- Scopes from the team's on: an acquire or a fence of one invalidates the core's L1 (R278). -/
def wideScope : Scope → Bool
  | .runner | .core => false
  | _ => true

/-- L1 under an acquire or a fence of a scope (R278). -/
def State.acquireL1 (s : State) (scope : Scope) : State := if wideScope scope then s.dropL1 else s

/-- Everything both sides did before is behind both sides, streams and later copies: fence.all of team scope or wider, and
every wait or arrival that orders both sides' earlier accesses (R191, R192, R277). -/
def State.fenceAll (s : State) : State :=
  s.mapR fun r => r.mapHist fun h => { h with vec := false, scal := false, strm := false, box := false }

/-- Stores of the other side that an acquire by one side puts behind later accesses, newest store first (R276), `put` saying
how: it may have read a store of the other side that it has behind it, and with it what that store's release, or a fence
between the two, ordered earlier. `lim` is the fewest fences after a store it may have read. -/
def syncLoop (o : Obs) (put : Hist → Hist) : Bool → Option Nat → List Hist → List Hist
  | _, _, [] => []
  | all, lim, h :: t =>
    let other := h.byVec == (o == .scal)
    let behind := other && (all || (lim.map fun n => decide (n < h.ord)).getD false)
    let met := other && (behind || !h.seenBy o)
    (if behind then put h else h) ::
      syncLoop o put (all || (met && h.rel)) (if met then some (Nat.min h.ord (lim.getD h.ord)) else lim) t

/-- A history after an acquire by a side. -/
def Runner.synced (r : Runner) (o : Obs) (put : Hist → Hist) : Runner :=
  { r with hist := liveHist (syncLoop o put false none r.hist) }

/-- What an acquire of a side puts behind its own later accesses, a stream's among the vector side's. -/
def Obs.behind (o : Obs) (h : Hist) : Hist := if o = .vec then { h with vec := false, strm := false } else h.drop o

/-- An acquire of one side (R86, R92, R276, R278). -/
def State.acquire (s : State) (o : Obs) (scope : Scope) : State := (s.mapR fun r => r.synced o o.behind).acquireL1 scope

/-- An acquire of team scope for both sides: a wait on a barrier or on a bitmap that ends (R193, R196). -/
def State.acquireBoth (s : State) : State :=
  ((s.acquire .scal .team).acquire .vec .team).mapR fun r => r.mapHist fun h => if h.phase then
    { h with vec := false, scal := false, strm := false, box := false } else h

/-! ### Exceptions -/

/-- Whether one runner comes before another: by TEAM, then by RUNNER (R247). -/
def runnerBefore (a b : RunnerId) : Bool := a.team < b.team || (a.team == b.team && a.runner < b.runner)

/-- Whether a trap takes the place of the one a heat has ended by: it was taken in the same tick, by a runner before (R247). -/
def Heat.yieldsTo (h : Heat) (now : Nat) (r : RunnerId) : Bool :=
  (h.trapBy.map fun b => b.1 == now && runnerBefore r b.2).getD false

/-- A heat ends by cancellation, deadline or trap (R211, R247): teams not yet dispatched never start, the others stop. Of
traps in one tick the one of the lowest TEAM and RUNNER is recorded. -/
def State.condemn (s : State) (part heat status : Nat) (trap : Option (Nat × Word × Word)) : State :=
  { s with
    heats := s.heats.map fun h =>
      if h.part == part && h.id == heat && h.live then
        (if !h.cancelled then
          { h with cancelled := true, status := status, trap := trap, trapBy := trap.map fun _ => (s.time, s.rid) }
        else if trap.isSome && h.yieldsTo s.time s.rid then { h with trap := trap, trapBy := some (s.time, s.rid) }
        else h) else h
    teams := s.teams.map fun t =>
      if t.id.part == part && t.id.heat == heat then
        (match t.stat with
        | .queued | .saved => { t with stat := .retired }
        | .resident => { t with stat := .stopping }
        | _ => t) else t }

/-- Taking an exception (R29, R101): protection of the strip ends; TEPC, TVAL and TCAUSE are written; PPL records the
level and INH is set; the level is S and execution continues at TVEC. With INH already set the heat ends by this
cause (R29), and a heat without a handler ends at its first trap (R247); its runners stop before the step ends. -/
def State.enterTrap (s : State) (c : Cause) (tval : Word) (imp : Bool) : State :=
  let s := s.endProt
  let twice := s.r.scal.sysr.inh
  let pc := s.pc
  let cause : Word := BitVec.ofNat 64 (c.code + if imp then 256 else 0)
  let s := s.mapR fun r => { r with
    scal := { r.scal with
      pc := r.scal.sysr.tvec
      sysr := { r.scal.sysr with
        tepc := pc, tval := tval, tcause := cause, ppl := r.scal.sysr.sys, inh := true, sys := true } }
    asks := []
    replies := []
    begun := none
    pages := []
    wait := none
    fabric := if c = .fabric then none else r.fabric
    stat := .ready }
  let unhandled := (s.myHeat?.map fun h => h.desc.handler.isNone).getD false
  if twice || unhandled then
    s.condemn s.rid.part s.rid.heat 2 (some (cause.toNat, tval, pc))
  else s

/-- Return from an exception (R100): to TEPC at the level PPL holds, INH clear; the next instruction consumes a
SYNCB record (R194). -/
def State.returnTrap (s : State) : State :=
  s.mapR fun r => { r with
    scal := { r.scal with
      pc := r.scal.sysr.tepc
      sysr := { r.scal.sysr with sys := r.scal.sysr.ppl, inh := false } }
    eretPending := true }

/-! ### Cancelling what comes after (R233) -/

/-- The newest entry of a queue removed: the push is cancelled. -/
def unpush (qs : Vector (List Word) 4) (q : QR) : Vector (List Word) 4 := qs.set q (qs[q].dropLast)

/-- A popped entry returned to its queue's head. -/
def unpop (qs : Vector (List Word) 4) (q : QR) (w : Word) : Vector (List Word) 4 := qs.set q (w :: qs[q])

/-- The queues with the cancelled pushes and pops of the scalar side undone, newest first. -/
def undoQueues (items : List VItem) (qs : Vector (List Word) 4) : Vector (List Word) 4 :=
  items.reverse.foldl (fun qs i => match i with
    | .pushed q => unpush qs q
    | .popped q w => unpop qs q w
    | _ => qs) qs

/-- Everything after the oldest incomplete vector instruction is cancelled: the scalar side is as it was when that
instruction was passed, held stores and actions are gone (R233). -/
def State.cancelYounger (s : State) : State :=
  match s.r.vq with
  | .vec _ _ _ snap :: rest =>
    s.mapR fun r => { r with scal := snap, queues := undoQueues rest r.queues, vq := [], streams := [] }
  | _ => s.mapR fun r => { r with vq := [], streams := [] }

/-- The hand-off queue a vector-side instruction uses (R129, R131, R136, R139). -/
def queueOf : Instr → Option QR
  | .vqpush _ q _ _ | .vqpop _ _ q | .vmpopc _ q _ | .vmfirst _ q _ | .vmany _ q _ | .vgettag _ q _
  | .vsetvlQueue q _ _ => some q
  | _ => none

/-- The scalar side is stalled on the vector side for a reason of R113: the oldest stalled instruction traps ILLWAIT,
the vector instruction at the head with its queue, or else the scalar one with its own reason. Behind a stream that
is still landing the scalar side only waits: the stream lands before the next step (Drain). -/
def State.handoffDeadlock (s : State) (reason : Nat) : State :=
  match s.r.vq with
  | .vec i _ _ _ :: _ =>
    match queueOf i with
    | some q => s.cancelYounger.enterTrap .illwait (BitVec.ofNat 64 q.val) false
    | none => s
  | _ => s.enterTrap .illwait (BitVec.ofNat 64 reason) false

/-- A trap of a scalar-side instruction: it waits for earlier vector instructions, which an incomplete one never ends. -/
def State.scalarTrap (s : State) (c : Cause) (tval : Word) : State :=
  if s.r.vq.isEmpty then s.enterTrap c tval (c == .fabric) else s.handoffDeadlock 5

/-- A held AMO takes its place in the vector queue, numbered; its result register waits for it (R233). -/
def State.holdAmo (s : State) (i : Instr) (sd : SR) (id : Nat) : State :=
  s.mapR fun r => { r with
    vq := r.vq ++ [.vec i (BitVec.ofNat 64 id) 0 r.scal]
    scal := if sd = 0 then r.scal else { r.scal with pend := (sd, id) :: r.scal.pend.filter fun x => x.1 != sd } }

/-- The result of a held AMO in a scalar side that still waits for it. -/
def Scal.takeAmo (c : Scal) (sd : SR) (id : Nat) (x : Word) : Scal := if c.pend.contains (sd, id) then c.set sd x else c

/-- A held AMO's result arrives (R233): in the scalar side, and in what later vector instructions would bring back. -/
def State.settleAmo (s : State) (sd : SR) (id : Nat) (x : Word) : State :=
  s.mapR fun r => { r with
    scal := r.scal.takeAmo sd id x
    vq := r.vq.map fun i => match i with
      | .vec i a b c => .vec i a b (c.takeAmo sd id x)
      | i => i }

/-! ### The strip rewind (R110, R243, R244) -/

/-- The next strip length (R109). -/
def nvl (s : State) : Nat :=
  let m := min s.r.strip.sc.toNat s.vlmaxSew
  if s.r.strip.scap = 0 then m else min m s.r.strip.scap.toNat

/-- The accumulators TZERO zeroed since the checkpoint, zeroed again (R110). -/
def Attach.rezero (a : Attach) (z : BitVec 4) : Attach :=
  { a with acc := (List.finRange 4).foldl (fun (acc : Vector (List (BitVec 64)) 4) (i : Fin 4) =>
      if z.getLsbD i.val then acc.set i (acc[i].map fun _ => 0) else acc) a.acc }

/-- Induction registers back from the checkpoint. -/
def restoreInduction (sind : Word) (ck : Vector Word 64) (c : Scal) : Scal :=
  (List.finRange 64).foldl (fun (c : Scal) (i : Fin 64) => if sind.getLsbD i.val then c.set i ck[i] else c) c

/-- A rewind of a protected strip (R110, R243, R244). -/
def State.rewind (s : State) (last : BitVec 2) : State :=
  let s := s.cancelYounger.freeCopies
  let me := s.rid
  let c := s.myCore
  let s := match c.att with
    | none => s
    | some a => s.setCore { c with att := some ({ a with
        ops := a.ops.filter fun o => !(o.prot && o.runner == me) }.rezero s.r.strip.ckZeroed) }
  let s := s.mapR fun r => { r with
    streams := []
    queues := Vector.replicate 4 []
    wait := none
    asks := []
    replies := []
    begun := none
    pages := []
    stat := .ready
    scal := { restoreInduction r.strip.ckSind r.strip.ckRegs r.scal with pc := r.strip.ckPc, peek := false }
    strip := { r.strip with sc := r.strip.ckSc, buf := [], lines := [], count := 0, rewinds := min 65535 (r.strip.rewinds + 1),
                            last := last, prot := true } }
  (s.setVl (nvl s)).setVstart 0

/-! ### How a scalar-side instruction ends -/

/-- The runner stalls until an answer comes. -/
def State.stallFor (s : State) (a : Ask) : State :=
  (s.mapR fun r => { r with stat := .stalled, asks := [a] }).send s.rid a

/-- The answers an element or an item took are spent. -/
def State.spent (s : State) : State := s.mapR fun r => { r with asks := [], replies := [] }

/-- The instruction is complete: answers taken are spent, translations are taken afresh. -/
def State.completed (s : State) : State := s.mapR fun r => { r with asks := [], replies := [], pages := [] }

/-- The end of a scalar-side instruction. -/
def finish (r : M (Unit × State)) : State :=
  match r with
  | .ok (_, s) => s.completed
  | .error (.trap c v, s) => s.scalarTrap c v
  | .error (.ask a, s) => s.stallFor a
  | .error (.queue q, s) => s.handoffDeadlock q.val
  | .error (.rewind l, s) => s.rewind l
  | .error (.pause, s) => s

/-- The outcome of a scalar-side instruction. -/
def outcome (r : M (Unit × State)) : Host.Outcome State Fault Refusal := .next (finish r)

/-- An instruction that takes effect only after every earlier vector instruction has completed (R98): with one that
cannot complete it is in hand-off deadlock. -/
def State.afterVector (s : State) (k : State → M (Unit × State)) : M (Unit × State) :=
  if s.r.vq.isEmpty then k s else .error (.queue 0, s)

/-- A pending FABRIC is taken at a report point, before that instruction acts (R104). -/
def State.report (s : State) (k : State → M (Unit × State)) : M (Unit × State) :=
  match s.r.fabric with
  | some m => stopTrap .fabric (BitVec.ofNat 64 m) s
  | none => k s

/-- A privileged instruction at user level traps PRIV (R70 check 5). -/
def State.privileged (s : State) (i : Instr) (k : State → M (Unit × State)) : M (Unit × State) :=
  if s.r.scal.sysr.sys then k s else stopTrap .priv (wordOf i) s

end Sys2Proof.Machine
end

