-- ==== Sys2Proof/Machine/Ialu.lean ====
section
/-! DEFINITION. The IALU group (R73–R76). -/

namespace Sys2Proof.Machine

/-- A truth value as a register holds it. -/
def boolWord (b : Bool) : Word := if b then 1 else 0

/-- A shift or rotate count: B[5:0] (R74). -/
def cnt (b : Word) : Nat := b.toNat % 64

/-- div (R75). -/
def sdiv (a b : Word) : Word :=
  if b = 0 then BitVec.allOnes 64
  else if a = 0x8000000000000000 && b == BitVec.allOnes 64 then a
  else BitVec.ofInt 64 (a.toInt.tdiv b.toInt)

/-- rem (R75). -/
def srem (a b : Word) : Word :=
  if b = 0 then a
  else if a = 0x8000000000000000 && b == BitVec.allOnes 64 then 0
  else BitVec.ofInt 64 (a.toInt.tmod b.toInt)

/-- divu (R75). -/
def udiv (a b : Word) : Word := if b = 0 then BitVec.allOnes 64 else BitVec.ofNat 64 (a.toNat / b.toNat)

/-- remu (R75). -/
def urem (a b : Word) : Word := if b = 0 then a else BitVec.ofNat 64 (a.toNat % b.toNat)

/-- Leading zeros below bit n, from the top (R74 clz). -/
def clzLoop : Nat → Word → Nat
  | 0, _ => 0
  | n + 1, a => if a.getLsbD n then 0 else 1 + clzLoop n a

/-- Trailing zeros from bit 64 − n up (R74 ctz). -/
def ctzLoop : Nat → Word → Nat
  | 0, _ => 0
  | n + 1, a => if a.getLsbD (63 - n) then 0 else 1 + ctzLoop n a

/-- One bits below bit n (R74 popc). -/
def popLoop : Nat → Word → Nat
  | 0, _ => 0
  | n + 1, a => (a.getLsbD n).toNat + popLoop n a

/-- The field a control value names (R76): its low bit and its length, cut at bit 63. -/
def fieldOf (c : Word) : Nat × Nat :=
  let lo := c.toNat % 64
  (lo, min (c.toNat / 256 % 64 + 1) (64 - lo))

/-- bfxu: the field, zero-extended (R76). -/
def bfxu (a c : Word) : Word :=
  let (lo, len) := fieldOf c
  BitVec.ofNat 64 (a.toNat >>> lo % 2 ^ len)

/-- bfx: the field, sign-extended from its top bit (R76). -/
def bfx (a c : Word) : Word :=
  let (lo, len) := fieldOf c
  BitVec.ofInt 64 (intVal true len (a.toNat >>> lo))

/-- bfi: d with the field replaced by the low bits of a (R76). -/
def bfi (d a c : Word) : Word :=
  let (lo, len) := fieldOf c
  let m : Word := BitVec.ofNat 64 ((2 ^ len - 1) <<< lo)
  (d &&& ~~~m) ||| ((a <<< lo) &&& m)

/-- An IALU instruction: s[sd] receives f of s[sa] and OPB (R74); no flag, no trap. -/
def aluOp (f : Word → Word → Word) (sd sa : SR) (b : OpB) (s : State) : Host.Outcome State Fault Refusal :=
  .next ((s.setReg sd (f (s.reg sa) (s.opb b))).advance)

/-- An IALU instruction of one operand. -/
def unaryOp (f : Word → Word) (sd sa : SR) (s : State) : Host.Outcome State Fault Refusal :=
  .next ((s.setReg sd (f (s.reg sa))).advance)

/-- add, modulo 2^64 (R74). -/
def execAdd (sd sa : SR) (b : OpB) (s : State) : Host.Outcome State Fault Refusal :=
  aluOp (fun a b => a + b) sd sa b s

/-- sub (R74). -/
def execSub (sd sa : SR) (b : OpB) (s : State) : Host.Outcome State Fault Refusal :=
  aluOp (fun a b => a - b) sd sa b s

/-- and (R74). -/
def execAnd (sd sa : SR) (b : OpB) (s : State) : Host.Outcome State Fault Refusal :=
  aluOp (fun a b => a &&& b) sd sa b s

/-- or (R74). -/
def execOr (sd sa : SR) (b : OpB) (s : State) : Host.Outcome State Fault Refusal :=
  aluOp (fun a b => a ||| b) sd sa b s

/-- xor (R74). -/
def execXor (sd sa : SR) (b : OpB) (s : State) : Host.Outcome State Fault Refusal :=
  aluOp (fun a b => a ^^^ b) sd sa b s

/-- andn (R74). -/
def execAndn (sd sa : SR) (b : OpB) (s : State) : Host.Outcome State Fault Refusal :=
  aluOp (fun a b => a &&& ~~~b) sd sa b s

/-- shl (R74). -/
def execShl (sd sa : SR) (b : OpB) (s : State) : Host.Outcome State Fault Refusal :=
  aluOp (fun a b => a <<< cnt b) sd sa b s

/-- shr (R74). -/
def execShr (sd sa : SR) (b : OpB) (s : State) : Host.Outcome State Fault Refusal :=
  aluOp (fun a b => a >>> cnt b) sd sa b s

/-- sar (R74). -/
def execSar (sd sa : SR) (b : OpB) (s : State) : Host.Outcome State Fault Refusal :=
  aluOp (fun a b => a.sshiftRight (cnt b)) sd sa b s

/-- rol (R74). -/
def execRol (sd sa : SR) (b : OpB) (s : State) : Host.Outcome State Fault Refusal :=
  aluOp (fun a b => a.rotateLeft (cnt b)) sd sa b s

/-- slt (R74). -/
def execSlt (sd sa : SR) (b : OpB) (s : State) : Host.Outcome State Fault Refusal :=
  aluOp (fun a b => boolWord (a.slt b)) sd sa b s

/-- sltu (R74). -/
def execSltu (sd sa : SR) (b : OpB) (s : State) : Host.Outcome State Fault Refusal :=
  aluOp (fun a b => boolWord (a.ult b)) sd sa b s

/-- seq (R74). -/
def execSeq (sd sa : SR) (b : OpB) (s : State) : Host.Outcome State Fault Refusal :=
  aluOp (fun a b => boolWord (a == b)) sd sa b s

/-- sne (R74). -/
def execSne (sd sa : SR) (b : OpB) (s : State) : Host.Outcome State Fault Refusal :=
  aluOp (fun a b => boolWord (a != b)) sd sa b s

/-- min (R74). -/
def execMin (sd sa : SR) (b : OpB) (s : State) : Host.Outcome State Fault Refusal :=
  aluOp (fun a b => if a.slt b then a else b) sd sa b s

/-- max (R74). -/
def execMax (sd sa : SR) (b : OpB) (s : State) : Host.Outcome State Fault Refusal :=
  aluOp (fun a b => if a.slt b then b else a) sd sa b s

/-- minu (R74). -/
def execMinu (sd sa : SR) (b : OpB) (s : State) : Host.Outcome State Fault Refusal :=
  aluOp (fun a b => if a.ult b then a else b) sd sa b s

/-- maxu (R74). -/
def execMaxu (sd sa : SR) (b : OpB) (s : State) : Host.Outcome State Fault Refusal :=
  aluOp (fun a b => if a.ult b then b else a) sd sa b s

/-- mul: the low 64 bits (R74). -/
def execMul (sd sa : SR) (b : OpB) (s : State) : Host.Outcome State Fault Refusal :=
  aluOp (fun a b => a * b) sd sa b s

/-- mulh: the high 64 bits of the signed product (R74). -/
def execMulh (sd sa : SR) (b : OpB) (s : State) : Host.Outcome State Fault Refusal :=
  aluOp (fun a b => BitVec.ofInt 64 (a.toInt * b.toInt / 2 ^ 64)) sd sa b s

/-- mulhu (R74). -/
def execMulhu (sd sa : SR) (b : OpB) (s : State) : Host.Outcome State Fault Refusal :=
  aluOp (fun a b => BitVec.ofNat 64 (a.toNat * b.toNat / 2 ^ 64)) sd sa b s

/-- div (R74). -/
def execDiv (sd sa : SR) (b : OpB) (s : State) : Host.Outcome State Fault Refusal :=
  aluOp (fun a b => sdiv a b) sd sa b s

/-- divu (R74). -/
def execDivu (sd sa : SR) (b : OpB) (s : State) : Host.Outcome State Fault Refusal :=
  aluOp (fun a b => udiv a b) sd sa b s

/-- rem (R74). -/
def execRem (sd sa : SR) (b : OpB) (s : State) : Host.Outcome State Fault Refusal :=
  aluOp (fun a b => srem a b) sd sa b s

/-- remu (R74). -/
def execRemu (sd sa : SR) (b : OpB) (s : State) : Host.Outcome State Fault Refusal :=
  aluOp (fun a b => urem a b) sd sa b s

/-- clz (R74). -/
def execClz (sd sa : SR) (s : State) : Host.Outcome State Fault Refusal := unaryOp (fun a => BitVec.ofNat 64 (clzLoop 64 a)) sd sa s

/-- ctz (R74). -/
def execCtz (sd sa : SR) (s : State) : Host.Outcome State Fault Refusal := unaryOp (fun a => BitVec.ofNat 64 (ctzLoop 64 a)) sd sa s

/-- popc (R74). -/
def execPopc (sd sa : SR) (s : State) : Host.Outcome State Fault Refusal := unaryOp (fun a => BitVec.ofNat 64 (popLoop 64 a)) sd sa s

/-- brev (R74). -/
def execBrev (sd sa : SR) (s : State) : Host.Outcome State Fault Refusal := unaryOp (fun a => a.reverse) sd sa s

/-- bfx (R76). -/
def execBfx (sd sa : SR) (b : OpB) (s : State) : Host.Outcome State Fault Refusal := aluOp bfx sd sa b s

/-- bfxu (R76). -/
def execBfxu (sd sa : SR) (b : OpB) (s : State) : Host.Outcome State Fault Refusal := aluOp bfxu sd sa b s

/-- bfi (R76): it reads the old s[sd]. -/
def execBfi (sd sa : SR) (b : OpB) (s : State) : Host.Outcome State Fault Refusal :=
  aluOp (bfi (s.reg sd)) sd sa b s

/-- sel (R74): it tests the old s[sd]. -/
def execSel (sd sa : SR) (b : OpB) (s : State) : Host.Outcome State Fault Refusal :=
  aluOp (fun a b => if s.reg sd != 0 then a else b) sd sa b s

/-- lih (R74): imm32 above the low half of s[sa]. -/
def execLih (sd sa : SR) (imm : BitVec 32) (s : State) : Host.Outcome State Fault Refusal :=
  unaryOp (fun a => imm ++ a.extractLsb' 0 32) sd sa s

/-- addpc (R74). -/
def execAddpc (sd : SR) (imm : BitVec 32) (s : State) : Host.Outcome State Fault Refusal :=
  .next ((s.setReg sd (s.pc + sext imm)).advance)

end Sys2Proof.Machine
end

