-- ==== Sys2Proof/Machine/Falu.lean ====
section
/-! DEFINITION. The FALU group: scalar floating point (R77–R81). -/

namespace Sys2Proof.Machine

/-- Conditions of comparisons (R69): eq ne lt le gt ge un od, and the flags of R33. -/
def condX (cond : Nat) (x y : XVal) : Flagged Bool :=
  let nan := x.isNan || y.isNan
  let quiet := nvIf (x.isSnan || y.isSnan)
  match cond with
  | 0 => { val := !nan && cmpX x y == .eq, flags := quiet }
  | 1 => { val := nan || cmpX x y != .eq, flags := quiet }
  | 2 => { val := !nan && cmpX x y == .lt, flags := nvIf nan }
  | 3 => { val := !nan && cmpX x y != .gt, flags := nvIf nan }
  | 4 => { val := !nan && cmpX x y == .gt, flags := nvIf nan }
  | 5 => { val := !nan && cmpX x y != .lt, flags := nvIf nan }
  | 6 => { val := nan, flags := quiet }
  | _ => { val := !nan, flags := quiet }

/-- RESULT of an exact value with the flags its computation raised (R44). -/
def FF.deliver (f : FF) (md : Modes) (x : Flagged XVal) : Flagged Nat :=
  let r := f.result md x.val
  { val := r.val, flags := x.flags.or r.flags }

/-- A value converted to a floating format, NV for a signalling NaN (R48). -/
def FF.convert (f : FF) (md : Modes) (x : XVal) : Flagged Nat := f.deliver md { val := x, flags := nvIf x.isSnan }

/-- Whether a passed instruction that has not executed changes VTYPE. -/
def changesVtype : VItem → Bool
  | .vec (.vcfgw _) _ _ _ | .vec (.vcfgwTag _ _ _ _) _ _ _ => true
  | _ => false

/-- Flags of a scalar instruction reach VFLAGS when it completes (R22): after the vector instructions before it (R233). -/
def State.raiseInOrder (s : State) (f : Flags) : State :=
  if s.r.vq.isEmpty then s.raise f else s.mapR fun r => { r with vq := r.vq ++ [.flags f.bits] }

/-- An FALU instruction (R78, R81): it reads VTYPE in program order; an enabled flag traps FPE with nothing changed. -/
def falu (s : State) (sd : SR) (f : Modes → Flagged Nat) : M (Unit × State) :=
  if s.r.vq.any changesVtype then .error (.queue 0, s)
  else
    let y := f (modesOf s.vtype)
    if trapEnabled s.vtype y.flags then stopTrap .fpe (y.flags.bits.setWidth 64) s
    else .ok ((), (s.setReg sd (BitVec.ofNat 64 y.val)).raiseInOrder y.flags |>.advance)

/-- A floating source: the low bits of a scalar register, DAZ applied (R77, R41). -/
def State.fsrc (s : State) (f : FFmt) (md : Modes) (r : SR) : XVal := f.ff.src md.daz ((s.reg r).toNat % 2 ^ f.ff.width)

/-- A two-source FALU operation through RESULT. -/
def falu2 (op : Modes → XVal → XVal → Flagged XVal) (f : FFmt) (sd sa sb : SR) (s : State) :
    Host.Outcome State Fault Refusal :=
  outcome (falu s sd fun md => f.ff.deliver md (op md (s.fsrc f md sa) (s.fsrc f md sb)))

/-- fadd (R78). -/
def execFadd (f : FFmt) (sd sa sb : SR) (s : State) : Host.Outcome State Fault Refusal :=
  falu2 (fun md x y => addX md.rm x y) f sd sa sb s

/-- fsub (R78). -/
def execFsub (f : FFmt) (sd sa sb : SR) (s : State) : Host.Outcome State Fault Refusal :=
  falu2 (fun md x y => addX md.rm x y.negate) f sd sa sb s

/-- fmul (R78). -/
def execFmul (f : FFmt) (sd sa sb : SR) (s : State) : Host.Outcome State Fault Refusal :=
  falu2 (fun _ x y => mulX x y) f sd sa sb s

/-- ffma (R78): a × b + the old s[sd], rounded once. -/
def execFfma (f : FFmt) (sd sa sb : SR) (s : State) : Host.Outcome State Fault Refusal :=
  falu2 (fun md x y => fmaX md.rm x y (s.fsrc f md sd)) f sd sa sb s

/-- fdiv (R78). -/
def execFdiv (f : FFmt) (sd sa sb : SR) (s : State) : Host.Outcome State Fault Refusal :=
  falu2 (fun _ x y => divX x y) f sd sa sb s

/-- fsqrt (R78). -/
def execFsqrt (f : FFmt) (sd sa : SR) (s : State) : Host.Outcome State Fault Refusal :=
  outcome (falu s sd fun md => f.ff.deliver md (sqrtX (s.fsrc f md sa)))

/-- fmin (R78, R33). -/
def execFmin (f : FFmt) (sd sa sb : SR) (s : State) : Host.Outcome State Fault Refusal :=
  falu2 (fun _ x y => minMaxX false x y) f sd sa sb s

/-- fmax (R78, R33). -/
def execFmax (f : FFmt) (sd sa sb : SR) (s : State) : Host.Outcome State Fault Refusal :=
  falu2 (fun _ x y => minMaxX true x y) f sd sa sb s

/-- fcmp (R78). -/
def execFcmp (f : FFmt) (sd sa sb : SR) (cond : Fin 8) (s : State) : Host.Outcome State Fault Refusal :=
  outcome (falu s sd fun md =>
    let r := condX cond.val (s.fsrc f md sa) (s.fsrc f md sb)
    { val := r.val.toNat, flags := r.flags })

/-- The value FCVT converts (R79). -/
def State.cvtSrc (s : State) (src : CvtSrc) (md : Modes) (sa : SR) : XVal :=
  match src with
  | .fp f => s.fsrc f md sa
  | .i64 => .ofInt (s.reg sa).toInt
  | .u64 => .ofInt (s.reg sa).toNat

/-- fcvt (R79, R48). -/
def execFcvt (sd sa : SR) (src : CvtSrc) (dst : CvtDst) (s : State) : Host.Outcome State Fault Refusal :=
  outcome (falu s sd fun md =>
    let x := s.cvtSrc src md sa
    match dst with
    | .fp f => f.ff.convert md x
    | .i64 => floatToInt md.rm true 64 x
    | .u64 => floatToInt md.rm false 64 x)

/-- The class bit of an encoding (R80). -/
def classOf (f : FF) (b : Nat) : Nat :=
  let neg := f.sign b
  match f.val b with
  | .nan sig => if sig then 8 else 9
  | .inf _ => if neg then 0 else 7
  | x => if x.isZero then (if neg then 3 else 4)
    else if f.isSubnormal b then (if neg then 2 else 5) else (if neg then 1 else 6)

/-- fclass (R80): no DAZ, no flag. -/
def execFclass (f : FFmt) (sd sa : SR) (s : State) : Host.Outcome State Fault Refusal :=
  .next ((s.setReg sd (BitVec.ofNat 64 (2 ^ classOf f.ff ((s.reg sa).toNat % 2 ^ f.ff.width)))).advance)

end Sys2Proof.Machine
end

