-- ==== Sys2Proof/Machine/LoadStore.lean ====
section
/-! DEFINITION. LD, ST and the AMO group (R82–R92). -/

namespace Sys2Proof.Machine

/-! ### Loads and stores -/

/-- The operations of the AMO group, numbered as FN numbers them (R68). -/
inductive AmoOp where
  | add | and | or | xor | min | max | minu | maxu | swap | cas | fadd
  deriving DecidableEq, Repr

/-- The fields of an AMO. -/
def amoFields : Instr → Option (AmoOp × Bool × Order × Scope × SR × SR × SR)
  | .amoadd dbl o sc d b a => some (.add, dbl, o, sc, d, b, a)
  | .amoand dbl o sc d b a => some (.and, dbl, o, sc, d, b, a)
  | .amoor dbl o sc d b a => some (.or, dbl, o, sc, d, b, a)
  | .amoxor dbl o sc d b a => some (.xor, dbl, o, sc, d, b, a)
  | .amomin dbl o sc d b a => some (.min, dbl, o, sc, d, b, a)
  | .amomax dbl o sc d b a => some (.max, dbl, o, sc, d, b, a)
  | .amominu dbl o sc d b a => some (.minu, dbl, o, sc, d, b, a)
  | .amomaxu dbl o sc d b a => some (.maxu, dbl, o, sc, d, b, a)
  | .amoswap dbl o sc d b a => some (.swap, dbl, o, sc, d, b, a)
  | .amocas dbl o sc d b a => some (.cas, dbl, o, sc, d, b, a)
  | .amofadd o sc d b a => some (.fadd, false, o, sc, d, b, a)
  | _ => none

/-- Whether an order is an acquire, or a release (R66, R92). -/
def acquires : Order → Bool
  | .acquire | .both => true
  | _ => false

/-- Whether an order is a release. -/
def releases : Order → Bool
  | .release | .both => true
  | _ => false

/-- The memory key an address comes to, a peer's among them, where the checks of R82 find one. -/
def State.keyOf (s : State) (va : Word) (n : Nat) (k : AccKind) : Option Nat :=
  match (s.resolve va n n k).1 with
  | .found key => some key
  | .peer m pva => some (Loc.peer m pva.toNat).key
  | _ => none

/-- Whether a read of the scalar side of n bytes comes after an AMO that is still held: one that acquires (R92), or one of a
word it reads (R233, R272, DEDUCED, log 4). -/
def State.behindAmo (s : State) (va : Word) (n : Nat) : Bool :=
  s.r.vq.any fun
    | .vec i _ _ c => match amoFields i with
      | none => false
      | some (_, dbl, ord, _, _, _, sa) =>
        let w := if dbl then 8 else 4
        acquires ord || match s.keyOf va n .load, s.keyOf c.s[sa] w .amo with
          | some k, some j => regionsMeet k n j w
          | _, _ => false
    | _ => false

/-- The address of a scalar access: s[sa] + SEXT(imm32) (R82). -/
def State.effAddr (s : State) (sa : SR) (off : BitVec 32) : Word := s.reg sa + sext off

/-- A load's value in its register: sign- or zero-extended (R83). -/
def extendLoad (sz : LSize) (bs : List Byte) : Word :=
  if sz.signed then BitVec.ofInt 64 (intVal true (8 * sz.bytes) (bytesVal bs)) else BitVec.ofNat 64 (bytesVal bs)

/-- A load of the scalar side of n aligned bytes; it waits for a held AMO that it must follow. -/
def State.scalarLoad (s : State) (va : Word) (n : Nat) (scope : Scope) : M (List Byte × State) :=
  if s.behindAmo va n then .error (.queue 0, s) else s.load .scal { scope := scope } va n n

/-- The effect of LD; an acquire orders the scalar side's later accesses after it (R86, R278). -/
def doLoad (sz : LSize) (acq : Bool) (scope : Scope) (sd sa : SR) (off : BitVec 32) (s : State) : M (Unit × State) := do
  let (bs, s) ← s.scalarLoad (s.effAddr sa off) sz.bytes scope
  let s := if acq then s.acquire .scal scope else s
  .ok ((), (s.setReg sd (extendLoad sz bs)).advance)

/-- ld (R83, R86). -/
def execLd (sz : LSize) (acq : Bool) (scope : Scope) (sd sa : SR) (off : BitVec 32) (s : State) :
    Host.Outcome State Fault Refusal := outcome (doLoad sz acq scope sd sa off s)

/-- A scalar-side store of n bytes (R84). -/
def State.scalarStore (s : State) (va : Word) (n : Nat) (w : Word) (rel : Bool) : M (Unit × State) := do
  let (k, s) ← s.checkStore va n n
  .ok ((), s.store { cells := cellsFrom k (natToLeBytes n w.toNat), count := 8 * n, slice := s.pinSlice va, rel := rel })

/-- The effect of ST. -/
def doStore (sz : SSize) (rel : Bool) (sb sa : SR) (off : BitVec 32) (s : State) : M (Unit × State) := do
  let (_, s) ← s.scalarStore (s.effAddr sa off) sz.bytes (s.reg sb) rel
  .ok ((), s.advance)

/-- st (R84). A release performs after every earlier scalar-side access, which this model performs in program order at
every scope (log 4). -/
def execSt (sz : SSize) (rel : Bool) (_scope : Scope) (sb sa : SR) (off : BitVec 32) (s : State) :
    Host.Outcome State Fault Refusal := outcome (doStore sz rel sb sa off s)

/-! ### Atomics (R88–R92) -/

/-- The number of an AMO's operation in FN (R68). -/
def AmoOp.code : AmoOp → Nat
  | .add => 0 | .and => 1 | .or => 2 | .xor => 3 | .min => 4 | .max => 5 | .minu => 6 | .maxu => 7 | .swap => 8
  | .cas => 9 | .fadd => 10

/-- AMOFADD's sum (R89): FP32, RNE, subnormals kept, a NaN canonical. -/
def fadd32 (a b : Nat) : Nat := (FF.fp32.rne false (addX .rne (FF.fp32.val a) (FF.fp32.val b)).val).val

/-- The new value of an atomic on w bytes (R88): old, operand and comparison as numbers. -/
def amoNew (op : AmoOp) (w : Nat) (old b cmp : Nat) : Nat :=
  let lt (sg : Bool) := intVal sg (8 * w) old < intVal sg (8 * w) b
  match op with
  | .add => (old + b) % 2 ^ (8 * w)
  | .and => old &&& b | .or => old ||| b | .xor => old ^^^ b
  | .min => if lt true then old else b | .max => if lt true then b else old
  | .minu => if lt false then old else b | .maxu => if lt false then b else old
  | .swap => b
  | .cas => if old = cmp then b else old
  | .fadd => fadd32 old b

/-- The atomics PCI Express carries to host memory (R91). -/
def hostAmo : AmoOp → Bool
  | .add | .swap | .cas => true
  | _ => false

/-- The atomic action on memory at a key (R88): the old value, and the new one stored unless it is a CAS that changes
nothing; `alloc` says whether its line allocates (R153). Against stores of the other side that no fence orders it falls either
way, read and write together (R90); those it falls after it has read, as a load has (R92, R272). -/
def State.amoAt (s : State) (o : Obs) (op : AmoOp) (rel alloc : Bool) (va : Word) (k w b cmp : Nat) : M (Nat × State) :=
  match poisonMeets s.poison k w with
  | some u => s.consume va k u
  | none =>
    let (bs, s) := s.look k w
    let s := s.exposeOthers (inKeys k w)
    let (late, s) := s.lateFrom o (keysFrom k w)
    let hs := s.r.hist.filter fun h => h.meets k w
    let bs := undoLate late (·.cells) k hs [] bs
    let s := s.readBack o (shownBy late k w hs [])
    let old := bytesVal (overlayActs (if o = .vec then s.r.share else []) k bs)
    let new := amoNew op w old b cmp
    if op = .cas && new = old then .ok (old, s.touchL2 k (s.pinSlice va) s.rid.part false alloc)
    else .ok (old, s.performAt late
      { cells := cellsFrom k (natToLeBytes w new), byVec := o = .vec, slice := s.pinSlice va, alloc := alloc, rel := rel })

/-- One atomic of a side on w bytes at an address: module memory and windows here, host memory by AtomicOps, a peer's
at its home (R88, R91, R304). Atomics of the vector side never reach host memory (R157). -/
def State.atomic (s : State) (o : Obs) (op : AmoOp) (rel alloc : Bool) (va : Word) (w b cmp : Nat) : M (Nat × State) := do
  let (a, s) ← s.check va w w .amo
  match a with
  | .found k =>
    if isHostKey k then
      if o = .vec || !hostAmo op then stopTrap .access va s
      else
        let (r, s) ← s.answer (.host (.amo (BitVec.ofNat 64 (k - hostBase)) op.code w (BitVec.ofNat 64 b) (BitVec.ofNat 64 cmp)))
        let (bs, s) ← replyBytes va w r s
        .ok (bytesVal bs, s)
    else s.amoAt o op rel alloc va k w b cmp
  | .peer m pva =>
    let (r, s) ← s.answer (.peer m (.amo pva op.code w (BitVec.ofNat 64 b) (BitVec.ofNat 64 cmp)))
    let (bs, s) ← replyBytes va w r s
    .ok (bytesVal bs, s)
  | _ => stopTrap .access va s

/-- The result of an AMO's old value (R88): W forms widen, AMOFADD's by zeros. -/
def amoResult (op : AmoOp) (w old : Nat) : Word :=
  if op = .fadd then BitVec.ofNat 64 old else BitVec.ofInt 64 (intVal true (8 * w) old)

/-- The action of an AMO (R88, R92): it ends strip protection before it reads (R23); an acquire orders the scalar side's
later accesses after it. -/
def amoAct (op : AmoOp) (dbl : Bool) (ord : Order) (scope : Scope) (sd sb sa : SR) (s : State) : M (Word × State) := do
  let w := if dbl then 8 else 4
  let (old, s) ← s.endProt.atomic .scal op (releases ord) true (s.reg sa) w ((s.reg sb).toNat % 2 ^ (8 * w)) ((s.reg sd).toNat % 2 ^ (8 * w))
  .ok (amoResult op w old, if acquires ord then s.acquire .scal scope else s)

/-- The effect of an AMO (R88, R233): behind an incomplete vector instruction its address is checked, its action is held, and
its result register waits for it. -/
def doAmo (i : Instr) (op : AmoOp) (dbl : Bool) (ord : Order) (scope : Scope) (sd sb sa : SR) (s : State) : M (Unit × State) := do
  let w := if dbl then 8 else 4
  if s.r.vq.isEmpty then
    let (x, s) ← amoAct op dbl ord scope sd sb sa s
    .ok ((), (s.setReg sd x).advance)
  else
    let (a, s) ← s.check (s.reg sa) w w .amo
    let refused : Bool := match a with | .found k => isHostKey k && !hostAmo op | _ => false
    if refused then stopTrap .access (s.reg sa) s
    else .ok ((), ({ s with nextUid := s.nextUid + 1 }.holdAmo i sd s.nextUid).advance)

/-- amoadd (R88, R92). -/
def execAmoadd (dbl : Bool) (ord : Order) (scope : Scope) (sd sb sa : SR) (s : State) : Host.Outcome State Fault Refusal :=
  outcome (doAmo (.amoadd dbl ord scope sd sb sa) .add dbl ord scope sd sb sa s)

/-- amoand (R88, R92). -/
def execAmoand (dbl : Bool) (ord : Order) (scope : Scope) (sd sb sa : SR) (s : State) : Host.Outcome State Fault Refusal :=
  outcome (doAmo (.amoand dbl ord scope sd sb sa) .and dbl ord scope sd sb sa s)

/-- amoor (R88, R92). -/
def execAmoor (dbl : Bool) (ord : Order) (scope : Scope) (sd sb sa : SR) (s : State) : Host.Outcome State Fault Refusal :=
  outcome (doAmo (.amoor dbl ord scope sd sb sa) .or dbl ord scope sd sb sa s)

/-- amoxor (R88, R92). -/
def execAmoxor (dbl : Bool) (ord : Order) (scope : Scope) (sd sb sa : SR) (s : State) : Host.Outcome State Fault Refusal :=
  outcome (doAmo (.amoxor dbl ord scope sd sb sa) .xor dbl ord scope sd sb sa s)

/-- amomin (R88, R92). -/
def execAmomin (dbl : Bool) (ord : Order) (scope : Scope) (sd sb sa : SR) (s : State) : Host.Outcome State Fault Refusal :=
  outcome (doAmo (.amomin dbl ord scope sd sb sa) .min dbl ord scope sd sb sa s)

/-- amomax (R88, R92). -/
def execAmomax (dbl : Bool) (ord : Order) (scope : Scope) (sd sb sa : SR) (s : State) : Host.Outcome State Fault Refusal :=
  outcome (doAmo (.amomax dbl ord scope sd sb sa) .max dbl ord scope sd sb sa s)

/-- amominu (R88, R92). -/
def execAmominu (dbl : Bool) (ord : Order) (scope : Scope) (sd sb sa : SR) (s : State) : Host.Outcome State Fault Refusal :=
  outcome (doAmo (.amominu dbl ord scope sd sb sa) .minu dbl ord scope sd sb sa s)

/-- amomaxu (R88, R92). -/
def execAmomaxu (dbl : Bool) (ord : Order) (scope : Scope) (sd sb sa : SR) (s : State) : Host.Outcome State Fault Refusal :=
  outcome (doAmo (.amomaxu dbl ord scope sd sb sa) .maxu dbl ord scope sd sb sa s)

/-- amoswap (R88, R92). -/
def execAmoswap (dbl : Bool) (ord : Order) (scope : Scope) (sd sb sa : SR) (s : State) : Host.Outcome State Fault Refusal :=
  outcome (doAmo (.amoswap dbl ord scope sd sb sa) .swap dbl ord scope sd sb sa s)

/-- amocas (R88, R92). -/
def execAmocas (dbl : Bool) (ord : Order) (scope : Scope) (sd sb sa : SR) (s : State) : Host.Outcome State Fault Refusal :=
  outcome (doAmo (.amocas dbl ord scope sd sb sa) .cas dbl ord scope sd sb sa s)

/-- amofadd (R89). -/
def execAmofadd (ord : Order) (scope : Scope) (sd sb sa : SR) (s : State) : Host.Outcome State Fault Refusal :=
  outcome (doAmo (.amofadd ord scope sd sb sa) .fadd false ord scope sd sb sa s)

end Sys2Proof.Machine
end

