-- ==== Sys2Proof/Machine/Budget.lean ====
section
/-! DEFINITION. Power reservations and budgets (R310–R312), effective priority (R259). -/

namespace Sys2Proof.Machine

/-- Awake power of a leased engine in milliwatts (R198). -/
def kindPower : Kind → Nat
  | .sfe => 2500 | .sxe => 2000 | .cle => 1200

/-- Awake power of an octant in milliwatts (R311). -/
def octantPower (unitL : Bool) : Nat := if unitL then 2290 else 75

/-- Awake power of an engine in milliwatts (R311). -/
def enginePower (e : EngineId) : Nat :=
  match e.kind with
  | .lease k => kindPower k | .octant => octantPower (isM e.cluster)

/-- A row of the limit table (R310): its mode, the highest inlet in °C, the lowest flow in tenths of a litre a minute,
the lease pool in milliwatts and the clock cap in steps. -/
structure LimitRow where
  mode : Option CoolMode
  inlet : Nat
  flow : Nat
  pool : Nat
  cap : Nat
  deriving DecidableEq, Repr

/-- The limit table (R310), best row of each mode first. -/
def limitRows : List LimitRow :=
  [{ mode := some .coldPlate, inlet := 40, flow := 25, pool := 2200000, cap := 0 },
   { mode := some .coldPlate, inlet := 45, flow := 18, pool := 1800000, cap := 0 },
   { mode := some .coldPlate, inlet := 50, flow := 12, pool := 1200000, cap := 0 },
   { mode := some .immersion, inlet := 45, flow := 200, pool := 2400000, cap := 0 },
   { mode := some .air, inlet := 35, flow := 0, pool := 400000, cap := 2 },
   { mode := none, inlet := 0, flow := 0, pool := 0, cap := 2 }]

/-- The row in force. -/
def State.limitRow (s : State) : LimitRow :=
  (limitRows[s.pacer.cooling.row]?).getD { mode := none, inlet := 0, flow := 0, pool := 0, cap := 2 }

/-- A partition's budget in milliwatts (R311), a quarter of it from droop level 2 on (R322). -/
def State.budget (s : State) (part : Nat) : Nat :=
  let b := s.limitRow.pool * ((s.part? part).map (·.record.share)).getD 0 / 1000
  if 2 ≤ s.pacer.droop.level then b / 4 else b

/-- What a lease slot reserves (R198, R311); the lease of a saved runner names no engine and reserves nothing (R202). -/
def Lease.reserves (l : Lease) : Nat :=
  match l.st with
  | .waking | .held => if l.engine.isSome then kindPower l.kind else 0
  | _ => 0

/-- What a runner's leases reserve. -/
def Runner.reserves (r : Runner) : Nat := (r.leases.toList.map fun l => (l.map Lease.reserves).getD 0).sum

/-- One bits of an octant set. -/
def octCount (o : BitVec 8) : Nat := (List.range 8).countP fun i => o.getLsbD i

/-- What a core's attach, or one in progress, reserves for a partition (R169, R311). -/
def Core.reserves (c : Core) (part : Nat) : Nat :=
  (match c.att with
   | some a => if a.owner.part == part then octCount a.oct * octantPower a.unitL else 0
   | none => 0) +
  (match c.pend with
   | some p => if p.runner.part == part then p.octs.length * octantPower (isM c.id.cluster) else 0
   | none => 0)

/-- What evictions in progress still reserve for a partition (R313, R318). -/
def State.evicting (s : State) (part : Nat) : Nat :=
  (s.engines.map fun e =>
    if e.st == .evicting && e.orderly && (e.payer.map (·.1)) == some part then enginePower e.id else 0).sum

/-- Everything reserved against a partition's budget (R311). -/
def State.reserved (s : State) (part : Nat) : Nat :=
  (s.allRunners.map fun r => if r.ident.id.part == part then r.reserves else 0).sum +
  (s.cores.map fun c => c.reserves part).sum + s.evicting part

/-- EBUD (R311): budget minus reservations, 0 while they exceed it. -/
def State.ebud (s : State) (part : Nat) : Nat := s.budget part - s.reserved part

/-! ### Effective priority (R259) -/

/-- A queue's level: home level and aging (R261, R262). -/
def queueLevel (idx : Nat) (q : WorkQueue) : Nat := min 7 (idx / 8 + q.aged)

/-- A team's declared priority, or its queue's aged level (R259). -/
def State.basePrio (s : State) (t : TeamId) : Nat :=
  let pri := ((s.heat? t.part t.heat).map (·.pri.val)).getD 0
  match s.part? t.part, s.team? t with
  | some p, some tm => match p.queues[tm.queue]? with
    | some q => max pri (queueLevel tm.queue q)
    | none => pri
  | _, _ => pri

/-- The lowest unretired team of a heat (R259). -/
def State.lowestTeam (s : State) (part heat : Nat) : Option TeamId :=
  ((s.teams.filter fun t => t.id.part == part && t.id.heat == heat && t.stat != .retired).map (·.id)).foldl
    (fun a t => match a with | none => some t | some b => if t.team < b.team then some t else some b) none

/-- Whether a team has joined the collective a runner waits in: every runner of it has (R259). -/
def State.teamJoined (s : State) (w : Runner) (t : TeamId) : Bool :=
  let n := ((s.heat? t.part t.heat).map fun h => max 1 (h.desc.cores * h.desc.perCore)).getD 1
  match (s.part? t.part).bind fun p => p.colls.find? fun c =>
      c.joined.any (fun j => j.runner == w.ident.id) && !c.taken.contains w.ident.id with
  | some c => n ≤ c.joined.countP fun j => teamOf j.runner == t
  | none => false

/-- Whether a runner's recorded wait passes its priority to a team, until it has ended, if only for a runner whose team is saved
(R259). -/
def State.passes (s : State) (w : Runner) (t : TeamId) : Bool :=
  let me := w.ident.id
  match w.wait with
  | none => false
  | some wr =>
    if wr.endable.isSome then false
    else match wr.kind with
    | .word =>
      if wr.desig == 2 && w.ident.cls != .weak then s.lowestTeam me.part me.heat == some t
      else if wr.desig == 3 then (wr.named.map fun h => s.lowestTeam me.part h == some t).getD false
      else false
    | .join => (wr.named.map fun h => s.lowestTeam me.part h == some t).getD false
    | .collective =>
      (bitsOf wr.what 3 2 == 1 || bitsOf wr.what 3 2 == 2) && t.part == me.part && t.heat == me.heat && !s.teamJoined w t
    | _ => false

/-- EPRI with inheritance through n recorded waits (R259). -/
def State.epriLoop (s : State) : Nat → TeamId → Nat
  | 0, t => s.basePrio t
  | n + 1, t => s.allRunners.foldl (fun e w => if s.passes w t then max e (s.epriLoop n (teamOf w.ident.id)) else e) (s.basePrio t)

/-- A team's effective priority (R259). -/
def State.epri (s : State) (t : TeamId) : Nat := s.epriLoop s.teams.length t

end Sys2Proof.Machine
end

