-- ==== Sys2Proof/Machine/Control.lean ====
section
/-! DEFINITION. BR, JMP (R93–R95), control registers (R19, R20, R24, R26, R96, R97) and the SYS group but EXIT
(R98–R108). -/

namespace Sys2Proof.Machine

/-! ### Branches and jumps -/

/-- A branch or jump target: PC + SEXT(imm32) × 8. -/
def State.target (s : State) (off : BitVec 32) : Word := s.pc + sext off * 8

/-- A conditional branch (R94). -/
def branch (c : Word → Word → Bool) (sa sb : SR) (off : BitVec 32) (s : State) : Host.Outcome State Fault Refusal :=
  .next (if c (s.reg sa) (s.reg sb) then s.setPc (s.target off) else s.advance)

/-- beq (R94). -/
def execBeq (sa sb : SR) (off : BitVec 32) (s : State) : Host.Outcome State Fault Refusal :=
  branch (fun a b => a == b) sa sb off s

/-- bne (R94). -/
def execBne (sa sb : SR) (off : BitVec 32) (s : State) : Host.Outcome State Fault Refusal :=
  branch (fun a b => a != b) sa sb off s

/-- blt (R94). -/
def execBlt (sa sb : SR) (off : BitVec 32) (s : State) : Host.Outcome State Fault Refusal :=
  branch (fun a b => a.slt b) sa sb off s

/-- bge (R94). -/
def execBge (sa sb : SR) (off : BitVec 32) (s : State) : Host.Outcome State Fault Refusal :=
  branch (fun a b => !a.slt b) sa sb off s

/-- bltu (R94). -/
def execBltu (sa sb : SR) (off : BitVec 32) (s : State) : Host.Outcome State Fault Refusal :=
  branch (fun a b => a.ult b) sa sb off s

/-- bgeu (R94). -/
def execBgeu (sa sb : SR) (off : BitVec 32) (s : State) : Host.Outcome State Fault Refusal :=
  branch (fun a b => !a.ult b) sa sb off s

/-- jal (R95). -/
def execJal (sd : SR) (off : BitVec 32) (s : State) : Host.Outcome State Fault Refusal :=
  .next ((s.setReg sd (s.pc + 8)).setPc (s.target off))

/-- jalr (R95): the target is formed before the link is written; a misaligned one traps ALIGN. -/
def execJalr (sd sa : SR) (off : BitVec 32) (s : State) : Host.Outcome State Fault Refusal :=
  let t := s.reg sa + sext off
  outcome (if t.toNat % 8 != 0 then stopTrap .align t s else .ok ((), (s.setReg sd (s.pc + 8)).setPc t))

/-! ### Control registers -/

/-- The registers R20 and R213 order with the vector side. -/
def crOrdered (n : BitVec 12) : Bool :=
  [0x000, 0x001, 0x002, 0x003, 0x005, 0x006, 0x007, 0x008, 0x051, 0x060].contains n.toNat

/-- SSTAT (R22 table). -/
def Strip.sstat (p : Strip) : Word :=
  BitVec.ofNat 64 (p.active.toNat + 2 * p.prot.toNat + 4 * p.last.toNat + 2 ^ 16 * p.rewinds)

/-- QSTAT (QSTAT table). -/
def Runner.qstat (r : Runner) : Word :=
  BitVec.ofNat 64 (r.queues[0].length + 2 ^ 8 * r.queues[1].length + 2 ^ 16 * r.queues[2].length +
    2 ^ 24 * r.queues[3].length + 2 ^ 32 * r.scal.peek.toNat)

/-- GSTAT (GSTAT table). -/
def Core.gstat (c : Core) : Word :=
  let (oct, att, unit) := match c.att with
    | some a => (a.oct.toNat, 1, a.unitL.toNat)
    | none => (0, 0, 0)
  let lost := if c.loss = some .mapOut then 1 else 0
  BitVec.ofNat 64 (oct + 2 ^ 8 * att + 2 ^ 9 * c.attStatus.toNat + 2 ^ 12 * lost + 2 ^ 13 * unit)

/-- CORE (CORE table). -/
def coreWord (c : CoreId) : Word := BitVec.ofNat 64 (c.core % 8 + 8 * (c.cluster % 32) + 256 * (c.die % 8))

/-- PCLASS.CLS. -/
def clsBits : PClass → Nat
  | .concurrent => 0 | .parallel => 1 | .weak => 2

/-- PCLASS (PCLASS table). -/
def State.pclass (s : State) : Word :=
  BitVec.ofNat 64 (clsBits s.r.ident.cls + 2 ^ 8 * s.r.ident.pri.val + 2 ^ 12 * s.epri (teamOf s.rid))

/-- A region register: BASE above SIZE (SPBASE table). -/
def regionWord (base size : Nat) : Word := BitVec.ofNat 64 (size % 2 ^ 32 + (base % 2 ^ 32) * 2 ^ 32)

/-- Where the team's regions lie now (R25). -/
def State.myPlace (s : State) : Place := (s.myTeam?.bind (·.place)).getD {}

/-- RNGKEY (control register map): SEED XOR (L shifted left 32). -/
def Ident.rngkey (d : Ident) : Word := d.seed ^^^ (BitVec.ofNat 64 d.linear <<< 32)

/-- OCCUP.LINES (R287): the valid lines of a slice a partition owns. -/
def State.occupLines (s : State) (part die slice : Nat) : Nat :=
  s.lines.countP fun l => l.die == die && l.slice == slice && l.owner == part

/-- OCCUP as read (R26). -/
def State.occup (s : State) (part die slice : Nat) : Word :=
  BitVec.ofNat 64 (s.occupLines part die slice % 2 ^ 11 + slice * 2 ^ 32 + die * 2 ^ 44)

/-- ECNT in microjoules (R312); a heat's energy is kept in milliwatts times ticks. -/
def State.ecnt (s : State) : Word := BitVec.ofNat 64 ((s.myHeat?.map (·.ecnt)).getD 0 / 100000)

/-- CR(n) as read (control register map). -/
def State.crRead (s : State) (n : BitVec 12) : Word :=
  let r := s.r
  let att := s.myCore.att
  match n.toNat with
  | 0x000 => BitVec.ofNat 64 r.vect.vl
  | 0x001 => BitVec.ofNat 64 r.vect.vstart
  | 0x002 => r.vect.vtype
  | 0x003 => r.vect.vflags.setWidth 64
  | 0x004 => BitVec.ofNat 64 r.vect.vlen
  | 0x005 => r.strip.sc
  | 0x006 => r.strip.scap.setWidth 64
  | 0x007 => r.strip.sind
  | 0x008 => r.strip.sstat
  | 0x010 => BitVec.ofNat 64 ((att.map (·.gm)).getD 0)
  | 0x011 => BitVec.ofNat 64 ((att.map (·.gn)).getD 0)
  | 0x012 => BitVec.ofNat 64 ((att.map (·.gk)).getD 0)
  | 0x013 => (att.map (·.gfmt)).getD 0
  | 0x014 => s.myCore.gstat
  | 0x015 => r.treq
  | 0x020 => if isM r.ident.core.cluster then 1 else 0
  | 0x021 => coreWord r.ident.core
  | 0x022 => BitVec.ofNat 64 r.ident.id.runner
  | 0x023 => BitVec.ofNat 64 r.ident.id.team
  | 0x024 => BitVec.ofNat 64 r.ident.id.heat
  | 0x025 => r.ident.lidx[0].setWidth 64
  | 0x026 => r.ident.lidx[1].setWidth 64
  | 0x027 => r.ident.lidx[2].setWidth 64
  | 0x028 => r.ident.lidx[3].setWidth 64
  | 0x029 => r.ident.lext[0].setWidth 64
  | 0x02A => r.ident.lext[1].setWidth 64
  | 0x02B => r.ident.lext[2].setWidth 64
  | 0x02C => r.ident.lext[3].setWidth 64
  | 0x02D => s.pclass
  | 0x030 => BitVec.ofNat 64 s.time
  | 0x031 => s.myCore.cycle
  | 0x032 => r.scal.wdead
  | 0x033 => s.ecnt
  | 0x034 => BitVec.ofNat 64 (s.ebud s.rid.part)
  | 0x040 => r.ident.ownBase
  | 0x041 => regionWord s.myPlace.spBase s.scratchSize
  | 0x042 => regionWord s.myPlace.tcmBase s.tcmSize
  | 0x043 => regionWord s.myPlace.dsmBase s.dsmSize
  | 0x044 => r.scal.bypass.setWidth 64
  | 0x045 => r.scal.pinslice
  | 0x050 => r.ident.rngkey
  | 0x051 => r.vect.rngctr
  | 0x052 => r.ident.seed
  | 0x060 => r.qstat
  | 0x100 => r.scal.sysr.tcause
  | 0x101 => r.scal.sysr.tepc
  | 0x102 => r.scal.sysr.tval
  | 0x103 => r.scal.sysr.tvec
  | 0x104 => BitVec.ofNat 64 (r.scal.sysr.ppl.toNat + 2 * r.scal.sysr.inh.toNat)
  | 0x105 => r.scal.sysr.ptbase
  | 0x106 => (((s.part? s.rid.part).bind fun p => p.waymask[r.ident.core.die]?).getD 0).setWidth 64
  | 0x107 => s.occup s.rid.part r.scal.sysr.occupDie.toNat r.scal.sysr.occupSlice.toNat
  | _ => 0

/-- Whether a control register may hold a value (R19): no reserved bit set, every field in range. -/
def crLegal (n : BitVec 12) (v : Word) : Bool :=
  match n.toNat with
  | 0x000 => v.toNat ≤ 4096
  | 0x001 => v.toNat < 2 ^ 13
  | 0x002 => vtypeLegal v
  | 0x003 => v.toNat < 2 ^ 5
  | 0x006 => v.toNat < 2 ^ 16
  | 0x032 => bitsOf v 48 15 == 0
  | 0x044 => v.toNat < 2 ^ 32
  | 0x045 => bitsOf v 15 48 == 0 && bitsOf v 0 12 < 3072
  | 0x100 => v.toNat < 2 ^ 9 && bitsOf v 0 8 ≤ 0x14
  | 0x103 => bitsOf v 0 3 == 0
  | 0x104 => v.toNat < 4
  | 0x105 => bitsOf v 0 16 == 0
  | 0x106 => v.toNat < 2 ^ 16
  | 0x107 => bitsOf v 47 17 == 0 && bitsOf v 11 21 == 0 && bitsOf v 32 12 < 3072
  | _ => true

/-- System registers of a runner written. -/
def State.mapSysr (s : State) (f : Sysr → Sysr) : State :=
  s.mapR fun r => { r with scal := { r.scal with sysr := f r.scal.sysr } }

/-- WAYMASK of the die the runner sits on written (R288, R293). -/
def State.setWaymask (s : State) (m : BitVec 16) : State :=
  match s.part? s.rid.part with
  | none => s
  | some p =>
    let d := s.r.ident.core.die
    let ms := p.waymask ++ List.replicate (d + 1 - p.waymask.length) 0
    s.setPart { p with waymask := ms.set d m }

/-- CR(n) = v, for a legal value (control register map). -/
def State.crWrite (s : State) (n : BitVec 12) (v : Word) : State :=
  match n.toNat with
  | 0x000 => s.setVl v.toNat
  | 0x001 => s.setVstart v.toNat
  | 0x002 => s.mapR fun r => { r with vect := { r.vect with vtype := vtypeWrite r.vect.vtype v } }
  | 0x003 => s.mapR fun r => { r with vect := { r.vect with vflags := v.setWidth 5 } }
  | 0x005 => s.mapR fun r => { r with strip := { r.strip with sc := v } }
  | 0x006 => s.mapR fun r => { r with strip := { r.strip with scap := v.setWidth 16 } }
  | 0x007 => s.mapR fun r => { r with strip := { r.strip with sind := v } }
  | 0x032 => s.mapR fun r => { r with scal := { r.scal with wdead := v } }
  | 0x044 => s.mapR fun r => { r with scal := { r.scal with bypass := v.setWidth 32 } }
  | 0x045 => s.mapR fun r => { r with scal := { r.scal with pinslice := v } }
  | 0x051 => s.mapR fun r => { r with vect := { r.vect with rngctr := v } }
  | 0x100 => s.mapSysr fun y => { y with tcause := v }
  | 0x101 => s.mapSysr fun y => { y with tepc := v }
  | 0x102 => s.mapSysr fun y => { y with tval := v }
  | 0x103 => s.mapSysr fun y => { y with tvec := v }
  | 0x104 => s.mapSysr fun y => { y with ppl := bitOf v 0, inh := bitOf v 1 }
  | 0x105 => s.mapSysr fun y => { y with ptbase := v }
  | 0x106 => s.setWaymask (v.setWidth 16)
  | 0x107 => s.mapSysr fun y => { y with occupDie := BitVec.ofNat 3 (bitsOf v 44 3), occupSlice := BitVec.ofNat 12 (bitsOf v 32 12) }
  | _ => s

/-- The checks of a CR instruction: PRIV for a system register at user level (R19), order with the vector side for
the registers of R20; WAYMASK belongs to the partition and cannot be undone, so its write waits as well (log 8). -/
def crAccess (i : Instr) (n : BitVec 12) (write : Bool) (s : State) (k : State → M (Unit × State)) : M (Unit × State) :=
  let go (s : State) := if crOrdered n || (write && n == 0x106) then s.afterVector k else k s
  if crSystem n then s.privileged i go else go s

/-- rdcr (R96). -/
def execRdcr (sd : SR) (cr : BitVec 12) (s : State) : Host.Outcome State Fault Refusal :=
  outcome (crAccess (.rdcr sd cr) cr false s fun s => .ok ((), (s.setReg sd (s.crRead cr)).advance))

/-- wrcr (R96, R97). -/
def execWrcr (cr : BitVec 12) (sa : SR) (s : State) : Host.Outcome State Fault Refusal :=
  outcome (crAccess (.wrcr cr sa) cr true s fun s =>
    let v := s.reg sa
    if crLegal cr v then .ok ((), (s.crWrite cr v).advance) else stopTrap .illegal v s)

/-- SETCR and CLRCR: the new value is tested, s[sd] receives the old one (R96). -/
def updateCr (i : Instr) (f : Word → Word → Word) (sd : SR) (cr : BitVec 12) (sa : SR) (s : State) :
    Host.Outcome State Fault Refusal :=
  outcome (crAccess i cr true s fun s =>
    let old := s.crRead cr
    let v := f old (s.reg sa)
    if crLegal cr v then .ok ((), ((s.crWrite cr v).setReg sd old).advance) else stopTrap .illegal v s)

/-- setcr (R96). -/
def execSetcr (sd : SR) (cr : BitVec 12) (sa : SR) (s : State) : Host.Outcome State Fault Refusal :=
  updateCr (.setcr sd cr sa) (fun old a => old ||| a) sd cr sa s

/-- clrcr (R96). -/
def execClrcr (sd : SR) (cr : BitVec 12) (sa : SR) (s : State) : Host.Outcome State Fault Refusal :=
  updateCr (.clrcr sd cr sa) (fun old a => old &&& ~~~a) sd cr sa s

/-! ### The SYS group -/

/-- nop (R99). -/
def execNop (s : State) : Host.Outcome State Fault Refusal := .next s.advance

/-- syscall (R99): traps SYSCALL with TVAL = ZEXT(imm32). -/
def execSyscall (imm : BitVec 32) (s : State) : Host.Outcome State Fault Refusal :=
  outcome (s.afterVector fun s => stopTrap .syscall (imm.setWidth 64) s)

/-- break (R99): traps BREAK with TVAL = ZEXT(imm32). -/
def execBrk (imm : BitVec 32) (s : State) : Host.Outcome State Fault Refusal :=
  outcome (s.afterVector fun s => stopTrap .brk (imm.setWidth 64) s)

/-- eret (R100). -/
def execEret (s : State) : Host.Outcome State Fault Refusal :=
  outcome (s.privileged .eret fun s => s.afterVector fun s =>
    if s.r.scal.sysr.tepc.toNat % 8 != 0 then stopTrap .align s.r.scal.sysr.tepc s else .ok ((), s.returnTrap))

/-- Whether stores of bytes perform for a copy engine where a fence of a scope orders them: an engine lies within team scope, and
a store to a local window performs at every scope (R270). -/
def reachesBox (scope : Scope) (cells : List Host.Cell) : Bool := wideScope scope || cells.all fun c => localBase ≤ c.1

/-- The orders a fence of a kind makes between the two sides, streams and later copies (R103). The kinds whose X holds the vector
side's stores order them before its later ones, fence by fence (R276). -/
def Hist.fenced (h : Hist) (scope : Scope) : FenceKind → Hist
  | .sv => if h.byVec then h else { h with vec := false, strm := false }
  | .vs => if h.byVec then { h with scal := false, box := h.box && !reachesBox scope h.cells } else h
  | .vv => if h.byVec then { h with strm := false, ord := h.ord + 1 } else h
  | .all => { h with vec := false, scal := false, strm := false, box := h.box && !reachesBox scope h.cells }

/-- A store still in the strip store buffer, which a fence orders at its commit (R103). -/
def StoreAct.fenced (a : StoreAct) (scope : Scope) : FenceKind → StoreAct
  | .sv => if a.byVec then a else { a with strm := false }
  | .vs => if a.byVec then { a with box := a.box && !reachesBox scope a.cells } else a
  | .vv => if a.byVec then { a with strm := false } else a
  | .all => { a with strm := false, box := a.box && !reachesBox scope a.cells }

/-- A fence is an acquire for its Y set by the loads of its X set (R276): it puts what they have read of the other side, and what
that orders earlier, behind later streams, and of sv and vv the vector side. -/
def Runner.fenceSync (r : Runner) : FenceKind → Runner
  | .sv => r.synced .scal fun h => { h with strm := false }
  | .vv => r.synced .vec Obs.vec.behind
  | _ => r

/-- A fence's orders (R103); one of team scope or wider invalidates the core's L1 (R278). -/
def State.fenced (s : State) (k : FenceKind) (scope : Scope) : State :=
  (s.mapR fun r => { (r.fenceSync k).mapHist (fun h => h.fenced scope k) with
    strip := { r.strip with buf := r.strip.buf.map fun a => a.fenced scope k } }).acquireL1 scope

/-- A fence passed behind incomplete vector instructions and held stores takes its place among them. -/
def State.holdFence (s : State) (k : FenceKind) (scope : Scope) : State :=
  s.mapR fun r => { r with vq := r.vq ++ [.fence k scope] }

/-- A fence acts: vs, vv and all drain the share (R283). -/
def State.fenceNow (s : State) (k : FenceKind) (scope : Scope) : State :=
  match k with
  | .sv => s.fenced .sv scope
  | k => s.drainShare.fenced k scope

/-- The effect of FENCE: vs and all wait for the vector side (R98); sv and vv act in program order. -/
def doFence (kind : FenceKind) (scope : Scope) (s : State) : M (Unit × State) :=
  match kind with
  | .vs => s.afterVector fun s => .ok ((), (s.fenceNow .vs scope).advance)
  | .all => s.afterVector fun s => .ok ((), (s.fenceNow .all scope).advance)
  | k => .ok ((), (if s.r.vq.isEmpty then s.fenceNow k scope else s.holdFence k scope).advance)

/-- fence (R103, R104). -/
def execFence (kind : FenceKind) (scope : Scope) (s : State) : Host.Outcome State Fault Refusal :=
  outcome (s.report (doFence kind scope))

/-- Fetches from now on observe the stores made so far, those still buffered once they perform (R105). -/
def State.fetchAfter (s : State) : State :=
  s.mapR fun r => { r.mapHist (fun h => { h with fetch := false }) with
    strip := { r.strip with buf := r.strip.buf.map fun a => { a with fetch := false } }
    share := r.share.map fun a => { a with fetch := false } }

/-- ifence (R105): later fetches observe every earlier store of this runner; those of vector instructions not yet complete,
and held ones, once they have performed. -/
def execIfence (s : State) : Host.Outcome State Fault Refusal :=
  let s := s.fetchAfter
  .next (if s.r.vq.isEmpty then s else s.mapR fun r => { r with vq := r.vq ++ [.ifence] }).advance

/-- Whether a translation is of a partition, and of the page of an address or of any. -/
def TlbEntry.dropped (e : TlbEntry) (part : Nat) (va : Option Nat) : Bool :=
  e.part == part && (va.map fun a => e.page ≤ a && a < e.page + e.size).getD true

/-- Translations of a partition dropped on every core (R106), the page of an address or all, and with them every walker's
table entries (R299) and those that instructions under way have taken. -/
def State.dropTlb (s : State) (part : Nat) (va : Option Nat) : State :=
  let out (l : List TlbEntry) : List TlbEntry := l.filter fun e => !e.dropped part va
  { s with
    cores := s.cores.map fun c => { c with tlb := out c.tlb }
    r := { s.r with pages := out s.r.pages }
    rs := s.rs.map fun x => (x.1, { x.2 with pages := out x.2.pages })
    clusters := s.clusters.map fun c => { c with walker := c.walker.filter fun x => x.1 != part } }

/-- The number of a held prefetch among the held cache actions: into L1 or L2 alone, and the slice PINSLICE names. -/
def heldPrefetch (slice : Option Nat) (l2only : Bool) : Nat :=
  (if l2only then 4 else 3) + 8 * (slice.map fun n => n + 1).getD 0

/-- prefetch (R107): it never traps; all it can change is which lines the caches hold. Behind an incomplete vector
instruction it is checked and held (R233). -/
def execPrefetch (sa : SR) (l2only : Bool) (s : State) : Host.Outcome State Fault Refusal :=
  let va := s.reg sa
  .next (match s.resolve va 1 1 .load with
    | (.found k, s) =>
      let s := s.newPages
      if !isModuleKey k || s.pinFault va then s.advance
      else if s.r.vq.isEmpty then (s.prefetchLine k (s.pinSlice va) l2only).advance
      else (s.mapR fun r => { r with vq := r.vq ++ [.line k (heldPrefetch (s.pinSlice va) l2only)] }).advance
    | (_, s) => s.newPages.advance)

/-- A held cache action performs: flush and keep, flush and evict, invalidate, prefetch into L1 or into L2. -/
def State.heldLine (s : State) (key mode : Nat) : State :=
  if mode < 3 then s.lineAfterStores key mode
  else s.prefetchLine key (if mode < 8 then none else some (mode / 8 - 1)) (mode % 8 == 4)

/-- A cache action whose address has passed its check; it is held while earlier vector instructions are incomplete (R233). -/
def State.acceptLine (s : State) (k mode : Nat) : State :=
  if s.r.vq.isEmpty then s.lineAfterStores k mode else s.mapR fun r => { r with vq := r.vq ++ [.line k mode] }

/-- CFLUSH and CINV: the address is checked as a one-byte load, a peer's by its home; local windows are left alone (R108). -/
def doLine (sa : SR) (mode : Nat) (s : State) : M (Unit × State) := do
  let va := s.reg sa
  let (a, s) ← s.check va 1 1 .load
  match a with
  | .found k => .ok ((), (s.acceptLine k mode).advance)
  | .peer m pva => do
    let (r, s) ← s.answer (.peer m (.read pva 0))
    let (_, s) ← replyBytes va 0 r s
    .ok ((), (s.acceptLine (Loc.peer m pva.toNat).key mode).advance)
  | _ => stopTrap .access va s

/-- cflush (R108). -/
def execCflush (sa : SR) (evict : Bool) (s : State) : Host.Outcome State Fault Refusal :=
  outcome (doLine sa evict.toNat s)

/-- cinv (R108): with mode 1 it drops every line of the core's L1, which holds no dirty data. -/
def execCinv (sa : SR) (wholeL1 : Bool) (s : State) : Host.Outcome State Fault Refusal :=
  outcome (s.privileged (.cinv sa wholeL1) fun s => if wholeL1 then .ok ((), s.dropL1.advance) else doLine sa 2 s)

end Sys2Proof.Machine
end

