-- ==== Sys2Proof/Machine/StripQueue.lean ====
section
/-! DEFINITION. The STRIP and QUEUE groups (R109–R113). -/

namespace Sys2Proof.Machine

/-! ### Strips (R109) -/

/-- The checkpoint recorded with a loop top (R109, R244): the induction registers as they stand, SC, no accumulator
zeroed yet. -/
def State.takeCheckpoint (s : State) (top : Word) : State :=
  s.mapR fun r => { r with strip := { r.strip with
    ckPc := top, ckSc := r.strip.sc, ckRegs := r.scal.s, ckSind := r.strip.sind, ckZeroed := 0, uncorrSeen := false
    active := true, prot := true } }

/-- VL and s[sd] both receive a strip length. -/
def State.giveLength (s : State) (sd : SR) (n : Nat) : State := (s.setVl n).setReg sd (BitVec.ofNat 64 n)

/-- No strip is active or protected. -/
def State.leaveStrip (s : State) : State :=
  s.mapR fun r => { r with strip := { r.strip with active := false, prot := false } }

/-- The effect of STRIP.BEGIN (R109). -/
def doStripBegin (sd sa sb : SR) (cap : BitVec 16) (s : State) : State :=
  let n := s.reg sa
  let ind := s.reg sb &&& ~~~1#64
  let s := if s.r.strip.active then s.commitStrip else s
  let s := s.mapR fun r => { r with strip := { r.strip with sc := n, sind := ind, scap := cap } }
  if n = 0 then ((s.giveLength sd 0).leaveStrip).advance
  else ((s.giveLength sd (nvl s)).takeCheckpoint (s.pc + 8)).advance

/-- The effect of STRIP.NEXT (R109). -/
def doStripNext (sd : SR) (off : BitVec 32) (s : State) : State :=
  if !s.r.strip.active then (s.giveLength sd 0).advance
  else
    let s := s.commitStrip
    let left := s.r.strip.sc.toNat - min s.vl s.r.strip.sc.toNat
    let s := s.mapR fun r => { r with strip := { r.strip with sc := BitVec.ofNat 64 left } }
    if 0 < left then
      let top := s.target off
      ((s.giveLength sd (nvl s)).takeCheckpoint top).setPc top
    else ((s.giveLength sd 0).leaveStrip).advance

/-- The effect of STRIP.EXIT (R109). -/
def doStripExit (s : State) : State :=
  (s.commitStrip.leaveStrip.mapR fun r => { r with strip := { r.strip with sc := 0 } }).advance

/-- strip.begin (R109). -/
def execStripBegin (sd sa sb : SR) (cap : BitVec 16) (s : State) : Host.Outcome State Fault Refusal :=
  outcome (s.afterVector fun s => .ok ((), doStripBegin sd sa sb cap s))

/-- strip.next (R109). -/
def execStripNext (sd : SR) (off : BitVec 32) (s : State) : Host.Outcome State Fault Refusal :=
  outcome (s.afterVector fun s => .ok ((), doStripNext sd off s))

/-- strip.exit (R109). -/
def execStripExit (s : State) : Host.Outcome State Fault Refusal :=
  outcome (s.afterVector fun s => .ok ((), doStripExit s))

/-! ### Hand-off queues, the scalar side's ends (R112, R242) -/

/-- A queue's contents written. -/
def State.setQueue (s : State) (q : QR) (l : List Word) : State :=
  s.mapR fun r => { r with queues := r.queues.set q l }

/-- A pop or push noted while vector instructions are incomplete, so that a cancellation undoes it (R233). -/
def State.noteItem (s : State) (i : VItem) : State :=
  if s.r.vq.isEmpty then s else s.mapR fun r => { r with vq := r.vq ++ [i] }

/-- The head entry removed by the scalar side; an empty queue blocks it (R17). -/
def State.popScalar (s : State) (q : QR) : M (Word × State) :=
  match s.r.queues[q] with
  | [] => .error (.queue q, s)
  | w :: t => .ok (w, (s.setQueue q t).noteItem (.popped q w))

/-- qpop (R112). -/
def execQpop (sd : SR) (q : QR) (s : State) : Host.Outcome State Fault Refusal :=
  outcome (do
    let (w, s) ← s.popScalar q
    .ok ((), (s.setReg sd w).advance))

/-- PEEK written. -/
def State.setPeek (s : State) (b : Bool) : State := s.mapR fun r => { r with scal := { r.scal with peek := b } }

/-- qpeek (R112): it never waits. -/
def execQpeek (sd : SR) (q : QR) (s : State) : Host.Outcome State Fault Refusal :=
  .next (match s.r.queues[q] with
    | [] => ((s.setReg sd 0).setPeek false).advance
    | w :: _ => ((s.setReg sd w).setPeek true).advance)

/-- qpush (R112): a full queue blocks. -/
def execQpush (q : QR) (sa : SR) (s : State) : Host.Outcome State Fault Refusal :=
  outcome (if s.r.queues[q].length < 16 then
      .ok ((), ((s.setQueue q (s.r.queues[q] ++ [s.reg sa])).noteItem (.pushed q)).advance)
    else .error (.queue q, s))

/-- BQ and BQZ: as QPOP, then a branch on the value popped itself (R112). -/
def doBq (taken : Word → Bool) (sd : SR) (q : QR) (off : BitVec 32) (s : State) : M (Unit × State) := do
  let (w, s) ← s.popScalar q
  let s := s.setReg sd w
  .ok ((), if taken w then s.setPc (s.target off) else s.advance)

/-- bq (R112). -/
def execBq (sd : SR) (q : QR) (off : BitVec 32) (s : State) : Host.Outcome State Fault Refusal :=
  outcome (doBq (fun w => w != 0) sd q off s)

/-- bqz (R112). -/
def execBqz (sd : SR) (q : QR) (off : BitVec 32) (s : State) : Host.Outcome State Fault Refusal :=
  outcome (doBq (fun w => w == 0) sd q off s)

end Sys2Proof.Machine
end

