-- ==== Sys2Proof/Machine/Sync.lean ====
section
/-! DEFINITION. Scheduler-visible waits (R187–R189), the SYNC group (R190–R197) and barriers (R18). -/

namespace Sys2Proof.Machine

/-! ### Barriers (R18, R195, R283) -/

/-- One arrival on a barrier: the barrier after it, and whether the phase ended (R18). -/
def Barrier.arrival (b : Barrier) : Barrier × Bool :=
  if b.expected ≤ b.arrived + 1 then ({ b with arrived := 0, phase := !b.phase }, true)
  else ({ b with arrived := b.arrived + 1 }, false)

/-- Runners in the order of their index. -/
def insertRunner (x : Runner) : List Runner → List Runner
  | [] => [x]
  | y :: t => if x.ident.id.runner ≤ y.ident.id.runner then x :: y :: t else y :: insertRunner x t

/-- A team's runners, core slot and runner slot ascending (R283). -/
def State.inOrder (s : State) (t : TeamId) : List Runner := (s.teamRunners t).foldr insertRunner []

/-- The shares of a team drained at the end of a phase (R283). -/
def State.drainTeam (s : State) (t : TeamId) : State :=
  (s.inOrder t).foldl (fun s x => s.withRunner x.ident.id State.drainPhase) s

/-- One arrival on a barrier of a team (R18); the end of a phase drains the team's shares (R283). -/
def State.arriveOn (s : State) (t : TeamId) (b : BR) : State :=
  match s.team? t with
  | none => s
  | some tm =>
    let (x, ended) := tm.bars[b].arrival
    let s := s.setTeam { tm with bars := tm.bars.set b x }
    if ended then s.drainTeam t else s

/-- The phase bit of a barrier of the running runner's team. -/
def State.phase (s : State) (b : BR) : Bool := (s.myTeam?.map fun t => t.bars[b].phase).getD false

/-- The barrier a wait record names. -/
def WaitRec.bar (w : WaitRec) : BR := ⟨w.code % 16, Nat.mod_lt _ (by decide)⟩

/-- A runner of a resident team waits at a barrier whose phase has not ended for it. -/
def Runner.atBarrier (x : Runner) (t : Team) : Bool :=
  match x.wait with
  | some w => w.kind == .barrier && x.stat == .waiting && t.bars[w.bar].phase == x.barw.getLsbD w.bar.val
  | none => false

/-- The trap value of R189 for a designator and a producer class. -/
def State.illwait (s : State) (desig pcls : Nat) : Word :=
  BitVec.ofNat 64 (2 ^ 63 + desig * 2 ^ 16 + pcls * 2 ^ 8 + clsBits s.r.ident.cls)

/-- A team all of whose live runners wait at barriers while no copy of it will arrive: every one traps ILLWAIT (R195). A
team that is stopped or saved is looked at when it resumes. -/
def State.unstick (s : State) (t : TeamId) : State :=
  match s.team? t with
  | none => s
  | some tm =>
    let live := (s.inOrder t).filter fun x => x.stat != .exited
    if live.isEmpty || live.any (fun x => !x.atBarrier tm) ||
        s.copies.any (fun c => teamOf c.runner == t && c.arv.isSome) then s
    else live.foldl (fun s x => s.withRunner x.ident.id fun s => s.enterTrap .illwait (s.illwait 0xFF 3) false) s

/-! ### The compatibility check (R189) -/

/-- A heat that lives, by number. -/
def State.liveHeat (s : State) (id : Nat) : Option Heat := (s.heat? s.rid.part id).filter fun h => h.live

/-- Every unretired team of a heat is resident (R189). -/
def State.allResident (s : State) (part heat : Nat) : Bool :=
  s.teams.all fun t => !(t.id.part == part && t.id.heat == heat) ||
    t.stat == .resident || t.stat == .stopping || t.stat == .retired

/-- The check of R189: the producer class recorded, or ILLWAIT. Designators 0 to 3 are WAITW's, 0x10 to 0x13 a
collective's spans, 0x20 is LJOIN. -/
def State.compat (s : State) (desig : Nat) (named : Nat) : M (Nat × State) :=
  let me := s.r.ident.cls
  let stop (p : Nat) : M (Nat × State) := stopTrap .illwait (s.illwait desig p) s
  let own := clsBits me
  match desig with
  | 0x00 => if me = .weak then stop 3 else .ok (3, s)
  | 0x01 => if me = .weak then stop 0 else .ok (0, s)
  | 0x02 => if me = .weak || s.rid.team = 0 then stop own else .ok (own, s)
  | 0x10 => .ok (3, s)
  | 0x11 | 0x12 =>
    if me = .concurrent || (me = .parallel && s.allResident s.rid.part s.rid.heat) then .ok (own, s) else stop own
  | 0x13 => if me = .concurrent then .ok (own, s) else stop own
  | _ =>
    if named = s.rid.heat then stop own
    else match s.liveHeat named with
    | none => if me = .weak then stop 0 else .ok (0, s)
    | some h =>
      let p := clsBits h.desc.cls
      if (me = .concurrent && h.desc.cls != .weak) ||
          (me = .parallel && (h.desc.cls = .concurrent ||
            (h.desc.cls = .parallel && s.allResident s.rid.part named))) then .ok (p, s)
      else stop p

/-! ### The wait step (R187, R188) -/

/-- A wait record as it is entered now. -/
def State.newWait (s : State) (k : WaitKind) (what : Word) (sd : SR) : WaitRec :=
  { kind := k, what := what, sd := sd, entry := s.time, dead := bitsOf s.r.scal.wdead 0 48 }

/-- Whether a wait's deadline has passed (R187); 0 ticks is none. -/
def State.expired (s : State) (w : WaitRec) : Bool := w.dead != 0 && w.entry + w.dead ≤ s.time

/-- The end of a wait at its deadline: WAITTIME if WDEAD.WT is set, else the status (R187). -/
def State.deadlineEnd (s : State) (w : WaitRec) (status tval : Word) : M (Bool × State) :=
  if !s.expired w then .ok (false, s)
  else if bitOf s.r.scal.wdead 63 then stopTrap .waittime tval s
  else .ok (true, (s.setReg w.sd status).advance)

/-- One look at a wait's condition: the wait ends, or the runner sleeps on (R187 steps 3 and 4). -/
def State.waitStep (s : State) (w : WaitRec) (poll : WaitRec → State → M (Bool × State)) : M (Unit × State) := do
  let (ended, s) ← poll w (s.mapR fun r => { r with wait := some w, stat := .ready })
  .ok ((), s.mapR fun r => if ended then { r with wait := none } else { r with stat := .waiting })

/-- A scheduler-visible wait (R187): after earlier vector instructions and a pending FABRIC (R104), the check and the
record of a first entry, which a wait re-entered keeps (R337), then the first look. -/
def State.enterWait (s : State) (first : State → M (WaitRec × State)) (poll : WaitRec → State → M (Bool × State)) :
    M (Unit × State) :=
  s.afterVector fun s => s.report fun s => do
    let (w, s) ← match s.r.wait with
      | some w => .ok (w, s)
      | none => first s
    s.waitStep w poll

/-! ### Waiting on a word (R190, R191) -/

/-- A doubleword as it stands in memory: a wait sees no store of its own runner that is still buffered (R187). -/
def State.readWord (s : State) (va : Word) : M (Word × State) := do
  let (a, s) ← s.check va 8 8 .load
  let (bs, s) ← match a with
    | .found k =>
      if isHostKey k then s.loadFrom .strm va (.host (.read (BitVec.ofNat 64 (k - hostBase)) 8)) k 8
      else do
        if s.pinFault va then stopTrap .access va s
        else match poisonMeets s.poison k 8 with
        | some u => s.consume va k u
        | none => .ok (s.readUnder .scal {} {} (s.pinSlice va) k 8)
    | .peer m pva => s.loadFrom .strm va (.peer m (.read pva 8)) (Loc.peer m pva.toNat).key 8
    | _ => stopTrap .access va s
  .ok (BitVec.ofNat 64 (bytesVal bs), s)

/-- The conditions of WAITW (R190). -/
def condHolds (c : WCond) (a b : Word) : Bool :=
  match c with
  | .eq => a == b
  | .ne => a != b
  | .ge => b.sle a
  | .lt => a.slt b
  | .geu => b.ule a
  | .ltu => a.ult b

/-- The conditions in the order of their codes. -/
def wconds : List WCond := [.eq, .ne, .ge, .lt, .geu, .ltu]

/-- One look of WAITW (R190): the condition, then the end of the named heat, then the deadline. The read that finds the
condition orders as a fence.all of package scope would (R191). -/
def pollWord (w : WaitRec) (s : State) : M (Bool × State) := do
  let (x, s) ← s.readWord w.what
  if condHolds ((wconds[w.code]?).getD .eq) x w.value then .ok (true, ((s.fenced .all .package).setReg w.sd 0).advance)
  else if w.desig == 3 && ((w.named.bind s.liveHeat).isNone) then .ok (true, (s.setReg w.sd 2).advance)
  else s.deadlineEnd w 1 w.what

/-- The number of a condition (R190). -/
def condCode : WCond → Nat
  | .eq => 0 | .ne => 1 | .ge => 2 | .lt => 3 | .geu => 4 | .ltu => 5

/-- waitw (R190, R191). -/
def execWaitw (sd sa sb : SR) (cond : WCond) (desig : Fin 4) (s : State) : Host.Outcome State Fault Refusal :=
  outcome (s.enterWait (fun s => do
    let named := (s.reg sd).toNat % 2 ^ 32
    let (p, s) ← s.compat desig.val named
    .ok ({ s.newWait .word (s.reg sa) sd with
      code := condCode cond, value := s.reg sb, desig := desig.val, pcls := p
      named := if desig = 3 then some named else none }, s)) pollWord)

/-! ### Barriers (R192–R194) -/

/-- The first three steps of ARRIVE (R192): protection ended, both sides' accesses performed. -/
def State.beforeArrival (s : State) : State := s.endProt.fenceAll

/-- arrive (R192). -/
def execArrive (b : BR) (s : State) : Host.Outcome State Fault Refusal :=
  outcome (s.afterVector fun s =>
    .ok ((), ((s.beforeArrival.arriveOn (teamOf s.rid) b).advance).unstick (teamOf s.rid)))

/-- One look of WAITB and of SYNCB's wait (R193), an acquire when it finds the phase ended; a SYNCB whose wait traps WAITTIME is recorded (R194). -/
def pollBarrier (w : WaitRec) (s : State) : M (Bool × State) :=
  let b := w.bar
  if s.phase b != s.r.barw.getLsbD b.val then
    let ph := s.phase b
    .ok (true, ((s.acquireBoth.mapR fun r => { r with
      barw := if ph then r.barw ||| (1#16 <<< b.val) else r.barw &&& ~~~(1#16 <<< b.val) }).setReg w.sd 0).advance)
  else
    let late := w.arrived && s.expired w && bitOf s.r.scal.wdead 63
    (s.mapR fun r => { r with sya := if late then some (s.pc, b) else r.sya }).deadlineEnd w 1 (BitVec.ofNat 64 b.val)

/-- A team found stuck after a runner has gone to sleep at a barrier (R195). -/
def thenUnstick (r : M (Unit × State)) : M (Unit × State) :=
  match r with
  | .ok (_, s) => .ok ((), s.unstick (teamOf s.rid))
  | e => e

/-- waitb (R193). -/
def execWaitb (sd : SR) (b : BR) (s : State) : Host.Outcome State Fault Refusal :=
  outcome (thenUnstick (s.enterWait (fun s =>
    .ok ({ s.newWait .barrier (BitVec.ofNat 64 b.val) sd with code := b.val }, s)) pollBarrier))

/-- syncb (R194): a record of this SYNCB, at the first instruction after an ERET, stands for its arrival; that instruction
consumes the record, one inside the handler leaves it. -/
def execSyncb (sd : SR) (b : BR) (s : State) : Host.Outcome State Fault Refusal :=
  outcome (thenUnstick (s.enterWait (fun s =>
    let again := s.r.eretPending && s.r.sya == some (s.pc, b)
    let s := s.mapR fun r => { r with sya := if r.eretPending then none else r.sya, eretPending := false }
    let s := if again then s else s.beforeArrival.arriveOn (teamOf s.rid) b
    .ok ({ s.newWait .barrier (BitVec.ofNat 64 b.val) sd with code := b.val, arrived := true }, s)) pollBarrier))

/-! ### Completion bitmaps (R196) -/

/-- The key of a bitmap word: 8-aligned in the team's scratchpad region. -/
def State.bitmapKey (s : State) (va : Word) : M (Nat × State) :=
  let off := va.toNat - 0x01FF000000000000
  if 2 ^ 57 ≤ va.toNat then stopTrap .access va s
  else if va.toNat % 8 != 0 then stopTrap .align va s
  else if va.toNat < 0x01FF000000000000 || s.scratchSize < off + 8 || 2 ^ 32 ≤ off then stopTrap .access va s
  else .ok ((Loc.scratch s.myTeamUid off).key, s)

/-- A bitmap word's bytes as a number, poison consumed (R341). -/
def State.bitmapWord (s : State) (va : Word) (k : Nat) (bs : List Byte) : M (Word × State) :=
  match poisonMeets s.poison k 8 with
  | some u => s.consume va k u
  | none => .ok (BitVec.ofNat 64 (bytesVal bs), s)

/-- One look of WAITBM, an acquire when it finds the bits. -/
def pollBitmap (w : WaitRec) (s : State) : M (Bool × State) := do
  let (k, s) ← s.bitmapKey w.what
  let (bs, s) := s.readUnder .scal { scope := .team } {} none k 8
  let (x, s) ← s.bitmapWord w.what k bs
  if x &&& w.value == w.value then .ok (true, (s.acquireBoth.setReg w.sd 0).advance) else s.deadlineEnd w 1 w.what

/-- waitbm (R196). -/
def execWaitbm (sd sa sb : SR) (s : State) : Host.Outcome State Fault Refusal :=
  outcome (s.enterWait (fun s => do
    let (_, s) ← s.bitmapKey (s.reg sa)
    .ok ({ s.newWait .bitmap (s.reg sa) sd with value := s.reg sb }, s)) pollBitmap)

/-- bmtest (R196), an acquire when it finds the bits. -/
def execBmtest (sd sa sb : SR) (s : State) : Host.Outcome State Fault Refusal :=
  outcome (do
    let m := s.reg sb
    let (k, s) ← s.bitmapKey (s.reg sa)
    let (bs, s) ← if s.behindAmo (s.reg sa) 8 then .error (.queue 0, s)
      else .ok (s.readRaw .scal { scope := .team } {} none k 8)
    let (x, s) ← s.bitmapWord (s.reg sa) k bs
    let s := if x &&& m == m then s.acquireBoth else s
    .ok ((), (s.setReg sd (if x &&& m == m then 1 else 0)).advance))

/-- The bits of a mask cleared in the word at a key, in one action that no buffer holds (R196). -/
def State.clearBits (s : State) (key : Nat) (mask : Word) : State :=
  s.performAt [] { cells := cellsFrom key (natToLeBytes 8 (BitVec.ofNat 64 (bytesVal (bytesAt s.mem key 8)) &&& ~~~mask).toNat) }

/-- bmclr (R196): held while an earlier vector instruction is incomplete (R233). -/
def execBmclr (sa sb : SR) (s : State) : Host.Outcome State Fault Refusal :=
  outcome (do
    let m := s.reg sb
    let (k, s) ← s.bitmapKey (s.reg sa)
    let (_, s) ← s.bitmapWord (s.reg sa) k []
    .ok ((), (if s.r.vq.isEmpty then s.clearBits k m
      else s.mapR fun r => { r with vq := r.vq ++ [.bmclr k m] }).advance))

/-- yield (R197): a report point (R104) and a pre-emption point; by itself it goes on. -/
def execYield (s : State) : Host.Outcome State Fault Refusal :=
  outcome (s.report fun s => .ok ((), s.advance.mapR fun r => { r with yielded := true }))

end Sys2Proof.Machine
end

