-- ==== Sys2Proof/Machine/Power.lean ====
section
/-! DEFINITION. Engines, their states, holds and energy (R4, R308, R311–R317), the in-rush arbiter and the lease queue. -/

namespace Sys2Proof.Machine

/-! ### Engines (R4, R198, R312, R317) -/

/-- The leased engines of a kind in a cluster (R4). -/
def engineCount (cluster : Nat) (k : Kind) : Nat :=
  match k, isM cluster with
  | .sfe, true => 8 | .sxe, true => 4 | .cle, true => 2
  | .sfe, false => 2 | .sxe, false => 2 | .cle, false => 0

/-- The instance number of an engine in its die (R4). -/
def instanceOf (k : Kind) (cluster idx : Nat) : Nat := idx + ((List.range cluster).map fun c => engineCount c k).sum

/-- t_wake in ticks (R198, R169). -/
def engineWake (e : EngineId) : Nat :=
  match e.kind with
  | .lease .cle => 240 | .lease _ => 160 | .octant => 120

/-- Break-even time in ticks (R317). -/
def engineHold (e : EngineId) : Nat :=
  match e.kind with
  | .lease .cle => 8000 | .lease _ => 6000 | .octant => 20000

/-- The energy of one wake in milliwatts times ticks (R312): what the break-even time uses. -/
def engineEnergy (e : EngineId) : Nat := enginePower e * engineHold e

/-- An engine asleep. -/
def State.sleepEngine (s : State) (e : EngineId) : State := s.setEngine { id := e, st := .sleeping }

/-- A runner's lease slot changed. -/
def Runner.setLease (r : Runner) (i : Fin 8) (l : Option Lease) : Runner := { r with leases := r.leases.set i l }

/-- The handle of a runner's next lease (R308). -/
def handleOf (k : Kind) (seq : Nat) (slot : Fin 8) : Word :=
  BitVec.ofNat 64 ((match k with | .sfe => 0 | .sxe => 1 | .cle => 2) * 2 ^ 32 + ((seq - 1) % 65535 + 1) * 2 ^ 16 + slot.val)

/-- A request granted to a runner: the lease is held, with a handle of its own unless it has one (R337); a runner that stalls
on it is told its slot, and its LEASE completes (R198 step 5, R313). -/
def Runner.granted (r : Runner) (i : Fin 8) (e : EngineId) (now : Nat) : Runner :=
  match r.leases[i] with
  | none => r
  | some l =>
    let n := r.leaseSeq + if l.handle = 0 then 1 else 0
    let h := if l.handle = 0 then handleOf l.kind n i else l.handle
    let r := { r.setLease i (some { l with handle := h, st := .held, engine := some e, granted := now, charged := now })
      with leaseSeq := n }
    if r.stat == .stalled && r.asks == [.wake] then
      { r with stat := .ready, asks := [], replies := [(.wake, .data [BitVec.ofNat 8 i.val])] }
    else r

/-- An engine goes to a lease slot that asked for it. -/
def State.giveEngine (s : State) (e : EngineId) (r : RunnerId) (i : Fin 8) : State :=
  (s.setEngine { id := e, st := .held, holder := some (.lease r i), named := s.time, payer := some (r.part, r.heat) }).withRunner r
    fun s => s.mapR fun x => x.granted i e s.time

/-- The first queued request of a lease that an engine serves: its kind on its cluster (R313). -/
def Die.wants (d : Die) (e : EngineId) : Option (LeaseReq × RunnerId × Fin 8) :=
  d.queue.findSome? fun x => match x.holder, x.engines.head? with
    | .lease r i, some f => if f.cluster == e.cluster && f.kind == e.kind then some (x, r, i) else none
    | _, _ => none

/-- An engine in its break-even hold (R317), which droop level 2 and a thermal trip cut at once. -/
def State.restEngine (s : State) (e : EngineId) : State :=
  if 2 ≤ s.pacer.droop.level || (s.die e.die).tripped then s.sleepEngine e
  else s.setEngine { id := e, st := .hold, ends := s.time + engineHold e }

/-- Runners of a die that stall on a unit or a full queue look again (R169, R315). -/
def State.retryUnits (s : State) (die : Nat) : State :=
  let go (x : Runner) : Runner :=
    if x.stat == .stalled && x.asks == [.unit] && x.ident.core.die == die then { x with stat := .ready, asks := [] } else x
  { s with r := go s.r, rs := s.rs.map fun x => (x.1, go x.2) }

/-- The first queued ATTACH of a unit whose octants still sleep, for an octant of it (R313). -/
def Die.wantsOctant (d : Die) (e : EngineId) : Option (LeaseReq × CoreId) :=
  d.queue.findSome? fun x => match x.holder with
    | .attach c => if e.kind == .octant && c.die == e.die && c.cluster == e.cluster && !x.engines.isEmpty then some (x, c) else none
    | .lease .. => none

/-- A half of a unit still computes (R222). -/
def State.halfLive (s : State) (e : EngineId) : Bool :=
  !(if e.idx < 4 then (s.cluster e.die e.cluster).retired[0] else (s.cluster e.die e.cluster).retired[1])

/-- A queued ATTACH takes an octant that enters its hold in place of one it had still to wake, the last of its entry (R313, DESIGN
CHOICE, log 94). With its last octant it is granted after the step. -/
def State.takeOctant (s : State) (e : EngineId) (x : LeaseReq) (c : CoreId) : State :=
  let d := s.die e.die
  let core := s.core c
  match core.pend, x.engines.getLast? with
  | some p, some l =>
    let swap (o : List Nat) : List Nat := (List.range 8).filter fun j => (j != l.idx && o.contains j) || j == e.idx
    let y := { x with engines := x.engines.dropLast }
    let q := if y.engines.isEmpty then d.queue.filter fun z => z.holder != x.holder
      else d.queue.map fun z => if z.holder == x.holder then y else z
    (((s.setDie { d with queue := q }).setCore { core with pend := some { p with octs := swap p.octs, toWake := p.toWake.filter fun j => j != l.idx } }).setEngine
      { id := e, st := .held, holder := some (.attach c), named := s.time, payer := some (p.runner.part, p.runner.heat) }).retryUnits e.die
  | _, _ => s.restEngine e

/-- A released engine: a queued request of its kind on its cluster takes it (R313, R316); otherwise it enters its break-even
hold. -/
def State.toHold (s : State) (e : EngineId) : State :=
  let d := s.die e.die
  if 2 ≤ s.pacer.droop.level || d.tripped then s.sleepEngine e
  else match d.wants e, d.wantsOctant e with
  | some (x, r, i), _ => ((s.setDie { d with queue := d.queue.filter fun y => y.holder != x.holder }).giveEngine e r i).retryUnits e.die
  | none, some (x, c) => if s.halfLive e then s.takeOctant e x c else s.restEngine e
  | none, none => s.restEngine e

/-- An engine whose request is gone: one that already wakes completes and then holds for no one. -/
def State.giveBack (s : State) (e : EngineId) : State :=
  if (s.engine e).st == .waking then s.setEngine { s.engine e with holder := none, req := none } else s.sleepEngine e

/-- The engines in hold. -/
def State.holds (s : State) : List Engine := s.engines.filter fun e => e.st == .hold

/-- Everything reserved on the module. -/
def State.reservedAll (s : State) : Nat := (s.parts.map fun p => s.reserved p.idx).sum

/-- Holds cut, the one that ends soonest first, until a reservation fits the pool (R317). Engines the request itself
takes from their hold do not count. -/
def State.cutHolds (s : State) (taken : List EngineId) (mw : Nat) : Nat → State
  | 0 => s
  | n + 1 =>
    let hs := s.holds.filter fun e => !taken.contains e.id
    if s.reservedAll + mw + (hs.map fun e => enginePower e.id).sum ≤ s.limitRow.pool then s
    else match hs.foldl (fun (a : Option Engine) (e : Engine) => match a with
        | none => some e
        | some b => if e.ends < b.ends then some e else some b) none with
      | none => s
      | some e => (s.sleepEngine e.id).cutHolds taken mw n

/-- Room in the pool for a reservation (R317). -/
def State.roomFor (s : State) (taken : List EngineId) (mw : Nat) : State := s.cutHolds taken mw s.engines.length

/-- Every hold cut (R322), or every hold of a die (R324). -/
def State.cutAll (s : State) (die : Option Nat) : State :=
  (s.holds.filter fun e => (die.map fun d => e.id.die == d).getD true).foldl (fun s e => s.sleepEngine e.id) s

/-! ### Energy (R312) -/

/-- Energy added to a heat. -/
def State.addEnergy (s : State) (part heat amount : Nat) : State :=
  match s.heat? part heat with
  | some h => s.setHeat { h with ecnt := h.ecnt + amount }
  | none => s

/-- What a held lease owes since it was last charged. -/
def Lease.due (l : Lease) (now : Nat) : Nat := if l.st == .held && l.engine.isSome then kindPower l.kind * (now - l.charged) else 0

/-- A runner's leases charged up to now. -/
def State.chargeRunner (s : State) (r : RunnerId) : State :=
  match s.runner? r with
  | none => s
  | some x =>
    let due := (x.leases.toList.map fun l => (l.map fun l => l.due s.time).getD 0).sum
    (s.setRunner { x with leases := x.leases.map fun l => l.map fun l => { l with charged := s.time } }).addEnergy r.part r.heat due

/-- A core's attach charged up to now. -/
def State.chargeAttach (s : State) (c : CoreId) : State :=
  match (s.core c).att with
  | none => s
  | some a =>
    let due := octCount a.oct * octantPower a.unitL * (s.time - a.charged)
    (s.setCore { s.core c with att := some { a with charged := s.time } }).addEnergy a.owner.part a.owner.heat due

/-! ### The lease queue (R198, R315, R316) -/

/-- The start of the slot for position p, counted from the next slot that begins. -/
def slotStart (now p : Nat) : Nat := (now / 40 + 1 + p) * 40

/-- When n engines are awake, each started in the first slot after the one before is awake (R315). -/
def awakeLoop (wake : Nat) : Nat → Nat → Nat
  | 0, t => t
  | n + 1, t => if n = 0 then t + wake else awakeLoop wake n ((t + wake + 39) / 40 * 40)

/-- The positions a list of entries counts. -/
def positionsOf (q : List LeaseReq) : Nat := (q.map fun x => x.engines.length).sum

/-- t_wake of an entry's engines. -/
def LeaseReq.wake (x : LeaseReq) : Nat := ((x.engines.head?).map engineWake).getD 0

/-- The slack of an entry behind others (R316), the time its die has paused not counted. -/
def LeaseReq.slack (x : LeaseReq) (now paused : Nat) (before : List LeaseReq) : Int :=
  (x.deadline + paused : Int) - awakeLoop x.wake x.engines.length (slotStart now (positionsOf before))

/-- Whether a new entry must stand behind entry j (R316). -/
def standsBehind (now : Nat) (paused : LeaseReq → Nat) (q : List LeaseReq) (x : LeaseReq) (j : Nat) : Bool :=
  match q[j]? with
  | none => false
  | some y => y.begun || x.pri ≤ y.pri || y.slack now (paused y) (q.take j) < 40 * x.engines.length

/-- The place of a new entry: the earliest behind all it must stand behind. -/
def placeOf (now : Nat) (paused : LeaseReq → Nat) (q : List LeaseReq) (x : LeaseReq) : Nat :=
  (List.range q.length).foldl (fun k j => if standsBehind now paused q x j then j + 1 else k) 0

/-- A new entry placed, with the deadline its place gives (R198, R315). -/
def joinQueue (now : Nat) (paused : LeaseReq → Nat) (q : List LeaseReq) (x : LeaseReq) : List LeaseReq :=
  let k := placeOf now paused q x
  let n := x.engines.length
  q.take k ++ { x with joined := now, deadline := now + x.wake * n + 40 * (positionsOf (q.take k) + 1) } :: q.drop k

/-- Since when a die starts no power-up: droop level 2 or a thermal trip, one inside the other counted once (R316). -/
def State.pausedSince (s : State) (d : Die) : Option Nat :=
  let droop := if 2 ≤ s.pacer.droop.level then s.pacer.droop.level2At else none
  match droop, d.pausedAt with
  | some a, some b => some (min a b)
  | some a, none => some a
  | none, b => b

/-- The time of a pause in progress that an entry has stood in its queue (R316). -/
def State.pausedFor (s : State) (d : Die) (x : LeaseReq) : Nat :=
  ((s.pausedSince d).map fun t => s.time - max t x.joined).getD 0

/-- The priority the arbiter gives a request of the running runner's partition: its own by the Pacer's tables, in host-assisted mode
the one that the table of LEASETAB has for it (R357, DESIGN CHOICE, log 95). -/
def State.arbPri (s : State) (pri : Nat) : Nat :=
  match s.part? s.rid.part with
  | some p => if p.record.modes.getLsbD 3 then (p.leaseTable[pri]?).getD pri else pri
  | none => pri

/-- A request of the running runner joins its die's queue. -/
def State.enqueueReq (s : State) (die : Nat) (x : LeaseReq) : State :=
  let d := s.die die
  let x := { x with pri := s.arbPri x.pri }
  s.setDie { d with queue := joinQueue s.time (s.pausedFor d) d.queue x }

/-- Requests of a holder leave a die's queue: ATTACHs that stall on its being full look again (R315). -/
def State.withdraw (s : State) (die : Nat) (h : Holder) : State :=
  let d := s.die die
  (s.setDie { d with queue := d.queue.filter fun x => x.holder != h }).retryUnits die

/-- Whether a die's lease queue holds 32 entries. -/
def State.queueFull (s : State) (die : Nat) : Bool := 32 ≤ (s.die die).queue.length

/-- Whether a queue entry waits for an engine. -/
def State.awaited (s : State) (e : EngineId) : Bool := (s.die e.die).queue.any fun x => x.engines.contains e

/-! ### Taking a leased engine (R198 steps 1 to 4) -/

/-- The engines of a kind in the running runner's cluster. -/
def State.myEngines (s : State) (k : Kind) : List EngineId :=
  let c := s.r.ident.core
  (List.range (engineCount c.cluster k)).map fun i => { die := c.die, cluster := c.cluster, kind := .lease k, idx := i }

/-- The engine a request takes: the lowest in hold, else the lowest asleep that no entry waits for. -/
def State.pickEngine (s : State) (k : Kind) : Option EngineId :=
  let l := s.myEngines k
  match l.find? fun e => (s.engine e).st == .hold with
  | some e => some e
  | none => l.find? fun e => (s.engine e).st == .sleeping && !s.awaited e

/-- What a LEASE finds. -/
inductive LeaseTry where
  | none | limit | budget | busy
  | hold (e : EngineId) (slot : Fin 8)
  | wake (e : EngineId) (slot : Fin 8)
  deriving DecidableEq, Repr

/-- The lowest empty lease slot (R308). -/
def Runner.freeSlot (r : Runner) : Option (Fin 8) := (List.finRange 8).find? fun i => r.leases[i].isNone

/-- Steps 1 to 4 of R198, without effect. -/
def State.tryLease (s : State) (k : Kind) : LeaseTry :=
  if engineCount s.r.ident.core.cluster k = 0 then .none
  else match s.r.freeSlot with
  | Option.none => .limit
  | some slot =>
    if s.ebud s.rid.part < kindPower k then .budget
    else match s.pickEngine k with
    | Option.none => .busy
    | some e =>
      if (s.engine e).st == .hold then .hold e slot
      else if s.queueFull e.die then .busy else .wake e slot

/-- A lease slot of the running runner written. -/
def State.setSlot (s : State) (i : Fin 8) (l : Option Lease) : State := s.mapR fun r => r.setLease i l

/-- A lease granted at once from a hold: the engine held, the handle in its slot and in s[sd] (R198 step 5). -/
def State.grantLease (s : State) (k : Kind) (pri : Fin 8) (e : EngineId) (slot : Fin 8) (sd : SR) : State :=
  let s := (s.setSlot slot (some { handle := 0, kind := k, pri := pri, st := .waking, engine := some e })).giveEngine e s.rid slot
  (s.setReg sd ((s.r.leases[slot].map (·.handle)).getD 0)).advance

/-- A lease asked of the arbiter: its slot and reservation taken, its engine in the die's queue. -/
def State.askLease (s : State) (k : Kind) (pri : Fin 8) (e : EngineId) (slot : Fin 8) : State :=
  let l : Lease := { handle := 0, kind := k, pri := pri, st := .waking, engine := some e }
  (s.setSlot slot (some l)).enqueueReq e.die { holder := .lease s.rid slot, engines := [e], pri := pri.val }

/-- The runner's lease that is waking, if one is. -/
def Runner.wakingSlot (r : Runner) : Option (Fin 8 × Lease) :=
  (List.finRange 8).findSome? fun i => match r.leases[i] with
    | some l => if l.st == .waking then some (i, l) else none
    | none => none

/-- An engine that its release has put in hold bears the lease's marks, for an eviction decided in the same cycle (R314). -/
def State.released (s : State) (e : EngineId) (l : Lease) : State :=
  let x := s.engine e
  if x.st == .hold then
    s.setEngine { x with payer := some (s.rid.part, s.rid.heat), pri := l.pri.val, granted := l.granted }
  else s

/-- A held lease given up: charged, its engine in hold, its slot empty (R199, R102). -/
def State.endLease (s : State) (slot : Fin 8) : State :=
  let s := s.chargeRunner s.rid
  match s.r.leases[slot] with
  | none => s
  | some l =>
    let s := s.setSlot slot none
    match l.st, l.engine with
    | .held, some e => (s.toHold e).released e l
    | .waking, some e => (s.withdraw e.die (.lease s.rid slot)).giveBack e
    | _, _ => s

/-- Every lease of the running runner given up. -/
def State.endLeases (s : State) : State := (List.finRange 8).foldl State.endLease s

end Sys2Proof.Machine
end

