-- ==== Sys2Proof/Machine/RegPoison.lean ====
section
/-! DEFINITION. Poisoned registers (R341): which registers an instruction reads, and the trap or rewind when it reads one
that holds an uncorrectable word. -/

namespace Sys2Proof.Machine

/-! ### Scalar registers -/

/-- The register of OPB. -/
def OpB.regs : OpB → List SR
  | .reg r => [r]
  | .imm _ => []

/-- The scalar register of a vector operand. -/
def VB.scalars : VB → List SR
  | .scal r => [r]
  | .vec _ => []

/-- The vector register of a vector operand. -/
def VB.vectors : VB → List VR
  | .vec r => [r]
  | .scal _ => []

/-- The scalar registers an instruction reads. -/
def scalReads : Instr → List SR
  | .add _ a b | .sub _ a b | .and _ a b | .or _ a b | .xor _ a b | .andn _ a b | .shl _ a b | .shr _ a b | .sar _ a b
  | .rol _ a b | .slt _ a b | .sltu _ a b | .seq _ a b | .sne _ a b | .min _ a b | .max _ a b | .minu _ a b | .maxu _ a b
  | .mul _ a b | .mulh _ a b | .mulhu _ a b | .div _ a b | .divu _ a b | .rem _ a b | .remu _ a b | .bfx _ a b
  | .bfxu _ a b => a :: OpB.regs b
  | .bfi d a b | .sel d a b => d :: a :: OpB.regs b
  | .clz _ a | .ctz _ a | .popc _ a | .brev _ a | .lih _ a _ | .fsqrt _ _ a | .fcvt _ a _ _ | .fclass _ _ a
  | .ld _ _ _ _ a _ | .jalr _ a _ | .wrcr _ a | .setcr _ _ a | .clrcr _ _ a | .cflush a _ | .qpush _ a
  | .vcfgw a | .vcfgwTag a _ _ _ | .vsetvl a _ | .vsetvlQueue _ a _ | .vbcastScalar _ _ a | .vinsert _ _ a _
  | .vldx _ _ _ a _ | .vldff _ _ a _ | .vstxo _ _ _ a _ | .vstxu _ _ _ a _ | .vamoadd _ _ _ a _ | .vamomin _ _ _ a _
  | .vamomax _ _ _ a _ | .vamofadd _ _ _ a _ | .tsave _ a | .trestore _ a | .release a | .lstat _ a
  | .sfn _ _ _ _ a | .xsort _ _ _ _ _ a | .xtopk _ _ _ _ _ a | .xhist _ _ _ a | .cred _ _ _ _ _ _ a
  | .cgather _ _ _ _ _ a | .cbcast _ _ _ _ _ _ a | .launch _ a | .ljoin _ a | .lcancel _ a | .rngseed _ a => [a]
  | .fadd _ _ a b | .fsub _ _ a b | .fmul _ _ a b | .fdiv _ _ a b | .fmin _ _ a b | .fmax _ _ a b | .fcmp _ _ a b _
  | .st _ _ _ a b _ | .amoadd _ _ _ _ a b | .amoand _ _ _ _ a b | .amoor _ _ _ _ a b | .amoxor _ _ _ _ a b
  | .amomin _ _ _ _ a b | .amomax _ _ _ _ a b | .amominu _ _ _ _ a b | .amomaxu _ _ _ _ a b | .amoswap _ _ _ _ a b
  | .amofadd _ _ _ a b | .beq a b _ | .bne a b _ | .blt a b _ | .bge a b _ | .bltu a b _ | .bgeu a b _
  | .stripBegin _ a b _ | .vld _ _ a b _ | .vlds _ _ a b _ | .vst _ _ a b _ | .vsts _ _ a b _ | .stream _ _ a b _
  | .streamseg _ _ a b _ _ _ | .copy _ a b _ | .tshape a b _ _ _ _ | .tlda _ a b _ | .tldb _ a b _ | .tldax _ a b _ _
  | .waitw _ a b _ _ | .waitbm _ a b | .bmtest _ a b | .bmclr a b => [a, b]
  | .ffma _ d a b | .amocas _ _ _ d a b => [d, a, b]
  | .tst _ _ a b r => a :: b :: (r.map fun x => x.reg).toList
  | .tstv _ _ r => (r.map fun x => x.reg).toList
  | .tlbinv a all => if all then [] else [a]
  | .cinv a all => if all then [] else [a]
  | .vadd _ _ _ b | .vsub _ _ _ b | .vmul _ _ _ b | .vdiv _ _ _ b | .vmin _ _ _ b | .vmax _ _ _ b | .vfma _ _ _ b _
  | .vfms _ _ _ b _ | .vfnma _ _ _ b _ | .vand _ _ _ b | .vor _ _ _ b | .vxor _ _ _ b | .vshl _ _ _ b | .vshr _ _ _ b
  | .vsar _ _ _ b | .vsel _ _ _ b _ | .vtwosum _ _ _ b | .vscalb _ _ _ b | .vcmp _ _ _ b _ => VB.scalars b
  | .vslideup _ _ _ _ o | .vslidedn _ _ _ _ o | .vperm _ _ _ _ o => o.toList
  | _ => []

/-- TVAL of UNCORR for a register (R341). -/
def regTval (vec : Bool) (n : Nat) : Word := BitVec.ofNat 64 (2 ^ 63 + (if vec then 256 else 0) + n)

/-- What reading a poisoned register does (R341): a rewind the first time in a protected strip, else UNCORR with the
register. -/
def State.consumeReg {α : Type} (s : State) (vec : Bool) (n : Nat) : M (α × State) :=
  if s.r.strip.prot && !s.r.strip.uncorrSeen then
    .error (.rewind 1, s.mapR fun r => { r with strip := { r.strip with uncorrSeen := true } })
  else stopTrap .uncorr (regTval vec n) s

/-- Whether the level does not permit an instruction: it traps before it reads anything (R98). -/
def State.barred (s : State) (i : Instr) : Bool :=
  !s.r.scal.sysr.sys && match i with
    | .wrcr cr _ | .setcr _ cr _ | .clrcr _ cr _ => crSystem cr
    | .tlbinv .. | .cinv .. => true
    | _ => false

/-- The first poisoned scalar register an instruction reads. -/
def State.poisonedScalar (s : State) (i : Instr) : Option SR :=
  if s.barred i then none else (scalReads i).find? fun n => s.r.scal.bad.contains n

/-- Whether an instruction reads a register that waits for a held AMO (R233). -/
def State.awaits (s : State) (i : Instr) : Bool :=
  !s.barred i && (scalReads i).any fun n => s.r.scal.pend.any fun x => x.1 == n

/-- Whether an instruction reports a pending FABRIC before anything else of its own (R104, R329). -/
def State.reportsFirst (s : State) (i : Instr) : Bool :=
  s.r.fabric.isSome && s.r.vq.isEmpty && match i with
    | .waitw .. | .waitbm .. | .ljoin .. | .cred .. | .cgather .. | .cbcast .. => true
    | _ => false

/-- The scalar registers an instruction reads hold their values, none held back by an AMO that waits for the vector side
(R233), and are free of poison, or it is consumed (R341). -/
def State.readScalars (s : State) (i : Instr) : M (Unit × State) :=
  if s.awaits i then .error (.queue 0, s)
  else if s.reportsFirst i then .ok ((), s)
  else match s.poisonedScalar i with
  | some n => s.consumeReg false n.val
  | none => .ok ((), s)

/-! ### Vector registers -/

/-- Which elements of its sources a vector instruction reads: each active one when its turn comes, the active ones below
VL, those of whole registers, or one. -/
inductive Reach where
  | each | below | whole | one (k : Nat)
  deriving DecidableEq, Repr

/-- The mask and the vector registers an instruction reads, and how far. -/
def vecReads : Instr → Option (Mask × List VR × Reach)
  | .vadd m _ a b | .vsub m _ a b | .vmul m _ a b | .vdiv m _ a b | .vmin m _ a b | .vmax m _ a b | .vand m _ a b
  | .vor m _ a b | .vxor m _ a b | .vshl m _ a b | .vshr m _ a b | .vsar m _ a b | .vtwosum m _ a b | .vscalb m _ a b
  | .vcmp m _ a b _ => some (m.mask, a :: VB.vectors b, .each)
  | .vfma m _ a b c | .vfms m _ a b c | .vfnma m _ a b c | .vsel m _ a b c => some (m.mask, a :: c :: VB.vectors b, .each)
  | .vabs m _ a | .vneg m _ a | .vsqrt m _ a | .vnot m _ a | .vcvt m _ a | .vmov m _ a => some (m.mask, [a], .each)
  | .vcvtsr m _ a b => some (m.mask, [a, b], .each)
  | .sfn m _ a _ _ => some (m.mask, [a], .each)
  | .vbcast m _ a k => some (m.mask, [a], .one k.toNat)
  | .vqpush m _ a k => some (m.mask, [a], .one k.toNat)
  | .vbcastScalar m _ _ | .vidx m _ _ _ => some (m.mask, [], .each)
  | .vqpop m _ _ | .vrng m _ => some (m.mask, [], .below)
  | .vmpopc m _ a | .vmfirst m _ a | .vmany m _ a | .vredsum m _ a | .vredmin m _ a | .vredmax m _ a | .vredand m _ a
  | .vredor m _ a | .vscan m _ a _ | .vcompress m _ a | .xsort m _ a _ _ _ | .xtopk m _ a _ _ _
  | .xhist m _ a _ | .cred m _ a _ _ _ _ | .cgather m _ a _ _ _ => some (m.mask, [a], .below)
  | .vredts m _ a b => some (m.mask, [a, b], .below)
  | .cbcast m _ a root _ _ _ => some (m.mask, if root then [a] else [], .below)
  | .vslideup m _ a _ _ | .vslidedn m _ a _ _ | .vexpand m _ a | .vrev m _ a | .vscset m _ a => some (m.mask, [a], .whole)
  | .vperm m _ a c _ => some (m.mask, [a, c], .whole)
  | .vzip m _ a b | .vunzipe m _ a b | .vunzipo m _ a b => some (m.mask, [a, b], .whole)
  | .vld m _ _ _ _ | .vlds m _ _ _ _ | .vldff m _ _ _ => some (m.mask, [], .each)
  | .vldx m _ i _ _ => some (m.mask, [i], .each)
  | .vst m d _ _ _ | .vsts m d _ _ _ => some (m.mask, [d], .each)
  | .vstxo m d i _ _ | .vstxu m d i _ _ | .vamoadd m d i _ _ | .vamomin m d i _ _ | .vamomax m d i _ _
  | .vamofadd m d i _ _ => some (m.mask, [d, i], .each)
  | .stream m _ _ _ _ => some (m.mask, [], .below)
  | .streamseg m _ _ _ i _ _ => some (m.mask, [i], .below)
  | _ => none

/-- Whether element k of a register lies in a poisoned word. -/
def State.elemPoisoned (s : State) (r : VR) (k : Nat) : Bool :=
  let f := (s.vreg r).fmt.getD .untagged
  s.r.vect.bad.any fun b => b.1 == r && f.bitAt k / 64 ≤ b.2 && b.2 ≤ (f.bitAt k + f.width - 1) / 64

/-- The first element of a register that lies in a poisoned word. -/
def State.firstBad (s : State) (r : VR) : Nat :=
  ((List.range ((s.vreg r).count s.vlen)).find? fun k => s.elemPoisoned r k).getD 0

/-- Whether an instruction reads its sources element by element, the first consuming element, and its poisoned register (R341);
a mask register holds element k's bit in its word k / 64. Of an instruction that reads whole registers the element is that of the
source (DEDUCED, log 37). -/
def State.poisonedRead (s : State) (i : Instr) : Option (Bool × Nat × VR) :=
  match vecReads i with
  | none => none
  | some (m, rs, reach) =>
    let mreg := Fin.ofNat 32 m.reg.val
    let maskBad (k : Nat) : Bool := m.reg != 0 && s.r.vect.bad.contains (mreg, k / 64)
    let start := if reach = .each then s.vstart else 0
    let hit := ((List.range s.vl).drop start).find? fun k =>
      maskBad k || ((reach = .each || reach = .below) && s.active m k && rs.any fun r => s.elemPoisoned r k)
    match hit with
    | some k => some (reach = .each, k,
        if maskBad k then mreg else (rs.find? fun r => s.elemPoisoned r k).getD mreg)
    | none =>
      match reach with
      | .one k => (rs.find? fun r => s.elemPoisoned r k).map fun r => (false, k, r)
      | .whole => (rs.find? fun r => s.r.vect.bad.any fun b => b.1 == r).map fun r => (false, s.firstBad r, r)
      | _ => none

/-- The state with VL cut to k and nothing to settle: what comes before element k. -/
def State.cutAt (s : State) (k : Nat) : State :=
  s.mapR fun r => { r with vect := { r.vect with vl := k, vtype := r.vect.vtype &&& ~~~0xC0#64 } }

/-- VL and VTYPE back as they were. -/
def State.uncut (s0 s : State) : State :=
  s.mapR fun r => { r with vect := { r.vect with vl := s0.vl, vtype := s0.vtype } }

/-- A word of a register replaced. -/
def State.fillWord (s : State) (b : VR × Nat) (x : Nat) : State :=
  s.setVreg b.1 { s.vreg b.1 with data := putBits (s.vreg b.1).data (64 * b.2) 64 x }

/-- The state a body ends in. -/
def endState (r : M (Unit × State)) : State :=
  match r with
  | .ok (_, s) => s
  | .error (_, s) => s

/-- The words a body has wholly written are poisoned no more (R341): those whose new value does not depend on the old. -/
def State.cleansed (s0 : State) (body : State → M (Unit × State)) (s : State) : State :=
  let word (x : Nat) (b : VR × Nat) : Nat := takeBits (((endState (body (s0.fillWord b x))).vreg b.1).data) (64 * b.2) 64
  s.mapR fun r => { r with vect := { r.vect with
    bad := r.vect.bad.filter fun b => word 0 b != word (2 ^ 64 - 1) b } }

/-- The element a conversion into a block-scaled register stops at for element k: the start of its block (R117, R125). -/
def State.stopElem (s : State) (i : Instr) (k : Nat) : Nat :=
  match i with
  | .vcvt _ d _ | .vcvtsr _ d _ _ => if (s.vreg d).bs then k / 32 * 32 else k
  | _ => k

/-- The stop at a poisoned register with VSTART at the consuming element (R328): what lies below it is done where the instruction
goes element by element. -/
def State.poisonStop (s : State) (i : Instr) (each : Bool) (k : Nat) (r : VR) (body : State → M (Unit × State)) : M (Unit × State) :=
  if each then
    let k := s.stopElem i k
    match body (s.cutAt k) with
    | .ok (_, t) => ((s.uncut t).setVstart k).consumeReg true r.val
    | .error (e, t) => .error (e, s.uncut t)
  else (s.setVstart k).consumeReg true r.val

/-- Causes of the state checks that come before an instruction reads an element (R329). -/
def Cause.ofState : Cause → Bool
  | .tag | .leaseAbsent | .leaseLost | .illegal | .rngend => true
  | _ => false

/-- The body of a vector-side instruction where registers may be poisoned (R341): it stops at the element that reads a
poisoned word, what lies below done; a state check that fails and a queue that blocks come first. -/
def State.guarded (s : State) (i : Instr) (body : State → M (Unit × State)) : M (Unit × State) :=
  if s.r.vect.bad.isEmpty then body s
  else match s.poisonedRead i, body s with
    | none, .ok (_, t) => .ok ((), s.cleansed body t)
    | none, .error (e, t) => .error (e, s.cleansed body t)
    | _, .error (.queue q, t) => .error (.queue q, t)
    | some (each, k, r), x =>
      match x with
      | .error (.trap c v, t) => if c.ofState then .error (.trap c v, t) else s.poisonStop i each k r body
      | _ => s.poisonStop i each k r body


/-- Elements (register, index) written by a tile store: the words they cover whole are poisoned no more. -/
def Vect.cover (v : Vect) (f : VR → Fmt) (es : List (VR × Nat)) : Vect :=
  { v with bad := v.bad.filter fun b =>
      (es.countP fun e => e.1 == b.1 && (f b.1).bitAt e.2 / 64 == b.2) * (f b.1).width < 64 }

/-- The poisoned register among the elements of a concatenation from vi onward, e to a register. -/
def State.poisonedOf (s : State) (vi : VR) (e : Nat) (ks : List Nat) : Option VR :=
  if s.r.vect.bad.isEmpty then none
  else (ks.map fun k => (vi + Fin.ofNat 32 (k / e), k % e)).findSome? fun x =>
    if s.elemPoisoned x.1 x.2 then some x.1 else none

end Sys2Proof.Machine
end

