-- ==== Sys2Proof/Machine/VectorSide.lean ====
section
/-! DEFINITION. The vector side: how an instruction is passed (R232, R233), convoys (R239, R240), the state checks of
R115 and R116, elements in order with their flags (R117, R118), checking lanes (R338, R339). -/

namespace Sys2Proof.Machine

/-! ### Functional units and convoys -/

/-- The functional units of R239 that an instruction uses. -/
inductive FU where
  | fma | alu | xp | ld | st | en
  deriving DecidableEq, Repr

/-- The units of a vector-side instruction a convoy may hold; none for every other instruction (R239, R240). -/
def unitsOf : Instr → List FU
  | .vadd .. | .vsub .. | .vmul .. | .vdiv .. | .vmin .. | .vmax .. | .vfma .. | .vfms .. | .vfnma .. | .vabs ..
  | .vneg .. | .vsqrt .. | .vcvt .. | .vcvtsr .. | .vtwosum .. | .vscalb .. | .vidx .. => [.fma]
  | .vand .. | .vor .. | .vxor .. | .vnot .. | .vshl .. | .vshr .. | .vsar .. | .vmov .. | .vbcast ..
  | .vbcastScalar .. | .vsel .. | .vqpush .. | .vqpop .. | .vcmp .. | .vmpopc .. | .vmfirst .. | .vmany ..
  | .vgettag .. | .vscget .. | .vscset .. | .vrng .. | .rngseed .. => [.alu]
  | .vslideup .. | .vslidedn .. | .vperm .. | .vcompress .. | .vexpand .. | .vrev .. | .vzip .. | .vunzipe ..
  | .vunzipo .. | .vinsert .. | .vredsum .. | .vredmin .. | .vredmax .. | .vredand .. | .vredor .. | .vredts ..
  | .vscan .. => [.xp]
  | .vld .. | .vlds .. | .vldx .. | .vldff .. | .stream .. | .streamseg .. => [.ld]
  | .vamoadd .. | .vamomin .. | .vamomax .. | .vamofadd .. => [.ld, .st]
  | .vst .. | .vsts .. | .vstxo .. | .vstxu .. => [.st]
  | .sfn .. | .xsort .. | .xtopk .. | .xhist .. | .cred .. | .cgather .. | .cbcast .. => [.en]
  | _ => []

/-- CV of an instruction (R66). -/
def cvOf : Instr → Bool
  | .vadd m _ _ _ | .vsub m _ _ _ | .vmul m _ _ _ | .vdiv m _ _ _ | .vmin m _ _ _ | .vmax m _ _ _
  | .vfma m _ _ _ _ | .vfms m _ _ _ _ | .vfnma m _ _ _ _ | .vabs m _ _ | .vneg m _ _ | .vsqrt m _ _
  | .vcvt m _ _ | .vcvtsr m _ _ _ | .vtwosum m _ _ _ | .vscalb m _ _ _ | .vidx m _ _ _
  | .vand m _ _ _ | .vor m _ _ _ | .vxor m _ _ _ | .vnot m _ _ | .vshl m _ _ _ | .vshr m _ _ _ | .vsar m _ _ _
  | .vmov m _ _ | .vbcast m _ _ _ | .vbcastScalar m _ _ | .vsel m _ _ _ _ | .vqpush m _ _ _ | .vqpop m _ _
  | .vcmp m _ _ _ _ | .vmpopc m _ _ | .vmfirst m _ _ | .vmany m _ _ | .vgettag m _ _ | .vscget m _ _
  | .vscset m _ _ | .vrng m _ | .rngseed m _ | .vslideup m _ _ _ _ | .vslidedn m _ _ _ _ | .vperm m _ _ _ _
  | .vcompress m _ _ | .vexpand m _ _ | .vrev m _ _ | .vzip m _ _ _ | .vunzipe m _ _ _ | .vunzipo m _ _ _
  | .vinsert m _ _ _ | .vredsum m _ _ | .vredmin m _ _ | .vredmax m _ _ | .vredand m _ _ | .vredor m _ _
  | .vredts m _ _ _ | .vscan m _ _ _ | .sfn m _ _ _ _ | .xsort m _ _ _ _ _ | .xtopk m _ _ _ _ _ | .xhist m _ _ _
  | .cred m _ _ _ _ _ _ | .cgather m _ _ _ _ _ | .cbcast m _ _ _ _ _ _ => m.cv
  | .vld m _ _ _ _ | .vlds m _ _ _ _ | .vldx m _ _ _ _ | .vldff m _ _ _ | .vst m _ _ _ _ | .vsts m _ _ _ _
  | .vstxo m _ _ _ _ | .vstxu m _ _ _ _ | .vamoadd m _ _ _ _ | .vamomin m _ _ _ _ | .vamomax m _ _ _ _
  | .vamofadd m _ _ _ _ | .stream m _ _ _ _ | .streamseg m _ _ _ _ _ _ => m.cv
  | _ => false

/-- The instruction a word is, if it is one. -/
def wordInstr (bs : List Byte) : Option Instr :=
  match decodeBytes bs with
  | .ok (.unassignedPattern _) => none
  | .ok i => some i
  | .error _ => none

/-- The instruction in module memory at an address the runner may fetch from, if there is one. -/
def State.instrAt (s : State) (va : Word) : Option Instr :=
  match (s.resolve va 8 8 .fetch).1 with
  | .found k => wordInstr (bytesAt s.mem k 8)
  | _ => none

/-- A convoy member at an address: none where no instruction can be fetched. Host memory is asked for its word, and fault
service for a page it has not mapped (R301). -/
def State.memberAt (s : State) (va : Word) : M (Option Instr × State) :=
  match s.resolve va 8 8 .fetch with
  | (.found k, _) =>
    if isHostKey k then
      match s.answer (.host (.read (BitVec.ofNat 64 (k - hostBase)) 8)) with
      | .ok (.data bs, s) => .ok (wordInstr bs, s)
      | .ok (_, s) => .ok (none, s)
      | .error e => .error e
    else .ok (wordInstr (bytesAt s.mem k 8), s)
  | (.service, _) =>
    if s.r.replies.any fun x => x.1 == .service va then .ok (none, s) else .error (.ask (.service va), s)
  | (.moving, _) => .error (.ask .moving, s)
  | _ => .ok (none, s)

/-- The members of a convoy looked at n members on from an address, with the units taken so far: it stops with CONVOY at the
one that breaks a rule (R240). -/
def State.convoyLoop : Nat → Word → List FU → State → M (Unit × State)
  | 0, pc, _, s => do
    let (j, s) ← s.memberAt pc
    match j with
    | none => .ok ((), s)
    | some _ => stopTrap .convoy pc s
  | n + 1, pc, units, s => do
    let (j, s) ← s.memberAt pc
    match j with
    | none => .ok ((), s)
    | some j =>
      if (unitsOf j).isEmpty || (unitsOf j).any units.contains then stopTrap .convoy pc s
      else if cvOf j then State.convoyLoop n (pc + 8) (unitsOf j ++ units) s else .ok ((), s)

/-- The convoy an instruction with CV = 1 begins is checked when it issues, before any member executes (R240). A word that
is no instruction is taken as ILLEGAL when it is reached (R70, DEDUCED, log 9). -/
def State.convoyCheck (s : State) (i : Instr) : M (Unit × State) :=
  if cvOf i then State.convoyLoop 3 (s.pc + 8) (unitsOf i) s else .ok ((), s)

/-! ### Passing into the vector instruction queue (R232) -/

/-- An instruction passed behind others, with its captured scalars and the scalar side as it stands. -/
def State.enqueue (s : State) (i : Instr) (a b : Word) : State :=
  s.mapR fun r => { r with vq := r.vq ++ [.vec i a b r.scal] }

/-- Whether an instruction is an AMO, which the vector queue holds as an action (R233). -/
def isAmo : Instr → Bool
  | .amoadd .. | .amoand .. | .amoor .. | .amoxor .. | .amomin .. | .amomax .. | .amominu .. | .amomaxu .. | .amoswap ..
  | .amocas .. | .amofadd .. => true
  | _ => false

/-- The vector instructions the queue holds. -/
def vecCount (q : List VItem) : Nat := q.countP fun | .vec i .. => !isAmo i | _ => false

/-- Registers a vector-side instruction may write. -/
def destsOf : Instr → List VR
  | .vadd _ d _ _ | .vsub _ d _ _ | .vmul _ d _ _ | .vdiv _ d _ _ | .vmin _ d _ _ | .vmax _ d _ _ | .vfma _ d _ _ _
  | .vfms _ d _ _ _ | .vfnma _ d _ _ _ | .vabs _ d _ | .vneg _ d _ | .vsqrt _ d _ | .vand _ d _ _ | .vor _ d _ _
  | .vxor _ d _ _ | .vnot _ d _ | .vshl _ d _ _ | .vshr _ d _ _ | .vsar _ d _ _ | .vcvt _ d _ | .vcvtsr _ d _ _
  | .vmov _ d _ | .vbcast _ d _ _ | .vbcastScalar _ d _ | .vsel _ d _ _ _ | .vscalb _ d _ _ | .vqpop _ d _
  | .vcmp _ d _ _ _ | .vslideup _ d _ _ _ | .vslidedn _ d _ _ _ | .vperm _ d _ _ _ | .vcompress _ d _
  | .vexpand _ d _ | .vrev _ d _ | .vzip _ d _ _ | .vunzipe _ d _ _ | .vunzipo _ d _ _ | .vinsert _ d _ _
  | .vredsum _ d _ | .vredmin _ d _ | .vredmax _ d _ | .vredand _ d _ | .vredor _ d _ | .vredts _ d _ _
  | .vscan _ d _ _ | .vidx _ d _ _ | .vscget _ d _ | .vscset _ d _ | .vld _ d _ _ _ | .vlds _ d _ _ _
  | .vldx _ d _ _ _ | .vldff _ d _ _ | .stream _ d _ _ _ | .sfn _ d _ _ _ | .xhist _ d _ _ | .cred _ d _ _ _ _ _
  | .cbcast _ d _ _ _ _ _ | .vrng _ d => [d]
  | .vtwosum _ d _ _ | .xsort _ d _ _ _ _ | .xtopk _ d _ _ _ _ => [d, d + 1]
  | .streamseg _ d _ _ _ f _ => (List.range (f.val + 1)).map fun n => d + Fin.ofNat 32 n
  | .cgather _ d _ _ _ _ | .tstv _ d _ => (List.finRange 32).filter fun r => d ≤ r
  | .vcfgwTag _ d a _ | .vtag d a _ => (List.finRange 32).filter fun r => d ≤ r && r ≤ a
  | _ => []

/-- Registers of a tile store's destination that a vector instruction has written since hold no result of it (R181), and
none that an MFENCE need keep from a TLDV (R175). -/
def Attach.taintRegs (a : Attach) (r : RunnerId) (ds : List VR) : Attach :=
  { a with
    ops := a.ops.map fun o => if o.runner == r then { o with regTaint := ds ++ o.regTaint } else o
    tldvs := a.tldvs.map fun t => if t.runner == r then { t with kept := t.kept.filter fun d => !ds.contains d } else t }

/-- A register of a vector side. -/
def Vect.reg (v : Vect) (n : VR) : VReg := v.v[n]

/-- A register written. -/
def Vect.setReg (v : Vect) (n : VR) (x : VReg) : Vect := { v with v := v.v.set n x }

/-- An element of a register written. -/
def Vect.putElem (v : Vect) (n : VR) (f : Fmt) (i x : Nat) : Vect := v.setReg n ((v.reg n).setElem f i x)

/-- Elements of registers made free values, numbered from n. -/
def freePlaces (n : Nat) (l : List (VR × Nat)) (v : Vect) : Vect :=
  (l.zip (List.range l.length)).foldl (fun (v : Vect) (x : (VR × Nat) × Nat) =>
    v.putElem x.1.1 ((v.reg x.1.1).fmt.getD .untagged) x.1.2 (Config.freeWord (n + x.2)).toNat) v

/-- Register elements that an outstanding TSTV will write hold unpredictable values (R181). -/
def State.freeRegElems (s : State) (l : List (VR × Nat)) : State :=
  { s with r := { s.r with vect := freePlaces s.free l s.r.vect }, free := s.free + l.length + 1 }

/-- The elements of some registers that outstanding tile stores of a runner will write. -/
def Attach.placesIn (a : Attach) (r : RunnerId) (ds : List VR) : List (VR × Nat) :=
  a.ops.flatMap fun o => if o.runner == r then (o.elems.filter fun e => ds.contains e.1).map fun e => (e.1, e.2.1) else []

/-- Registers written by a vector instruction noted for TLDV and TSTV (R175, R181). -/
def State.noteWrites (s : State) (ds : List VR) : State :=
  if ds.isEmpty then s
  else
    let s := s.mapR fun r =>
      { r with vecWrites := ds.foldl (fun (b : BitVec 32) (d : VR) => b ||| (1#32 <<< d.val)) r.vecWrites }
    match s.myCore.att with
    | none => s
    | some a => (s.setCore { s.myCore with att := some (a.taintRegs s.rid ds) }).freeRegElems (a.placesIn s.rid ds)

/-- The active elements from an element to VL − 1. -/
def State.activeFrom (s : State) (m : Mask) (start : Nat) : List Nat :=
  ((List.range s.vl).drop start).filter fun i => s.active m i

/-- Whether an instruction gives registers tags. -/
def isTag : Instr → Bool
  | .vcfgw .. | .vcfgwTag .. | .vtag .. => true
  | _ => false

/-- The registers an instruction has written, of those it may write: every one that has changed, and where it computed some
element of its own, all. -/
def State.written (s t : State) (i : Instr) : List VR :=
  let some_ : Bool := match vecReads i with
    | none => !isTag i
    | some (m, _, reach) =>
      (s.activeFrom m (if reach = .each then s.vstart else 0)).any fun e =>
        reach != .each || t.vstart = 0 || decide (e < t.vstart)
  (destsOf i).filter fun d => t.vreg d != s.vreg d || some_

/-- The result of a vector instruction's body with its register writes noted; one that stops has written what has changed. -/
def noted (s : State) (i : Instr) (r : M (Unit × State)) : M (Unit × State) :=
  match r with
  | .ok (_, t) => .ok ((), t.noteWrites (s.written t i))
  | .error (e, t) => .error (e, t.noteWrites ((destsOf i).filter fun d => t.vreg d != s.vreg d || s.vstart < t.vstart))

/-- A vector-side instruction is passed: behind incomplete ones it waits, and so it does when its own hand-off queue
blocks it; otherwise its effect is complete at once (R232, R233, R113 for the full queue). -/
def passVector (i : Instr) (a b : Word) (body : State → M (Unit × State)) (s : State) : Host.Outcome State Fault Refusal :=
  outcome (do
    if s.r.vq.isEmpty then
      let (_, s) ← s.convoyCheck i
      match noted s i (s.guarded i body) with
      | .ok (_, t) => .ok ((), t.advance)
      | .error (.queue _, _) => .ok ((), (s.enqueue i a b).advance)
      | .error e => .error e
    else if vecCount s.r.vq < 32 then .ok ((), (s.enqueue i a b).advance)
    else .error (.queue 0, s))

/-! ### The state checks (R115, R116) -/

/-- The registers an instruction names (R115), field by field, and those it names beside its fields. -/
structure Names where
  vd : Option VR := none
  va : Option VR := none
  vb : Option VR := none
  vc : Option VR := none
  more : List VR := []

/-- All of them. -/
def Names.all (n : Names) : List VR := n.vd.toList ++ n.va.toList ++ n.vb.toList ++ n.vc.toList ++ n.more

/-- The instruction's VLMAX (R115). -/
def State.vlmaxOf (s : State) (n : Names) : Nat :=
  ((n.all.map fun r => (s.vreg r).count s.vlen).min?).getD 0

/-- The tag of a field, 0 when it is not read. -/
def State.tagOf (s : State) (r : Option VR) : Byte := (r.map fun r => (s.vreg r).tag).getD 0

/-- Stop with TAG (R116). -/
def State.tagStop {α : Type} (s : State) (n : Names) (m : Mask) (idx len : Bool) : M (α × State) :=
  stopTrap .tag (tagTval (s.tagOf n.vd) (s.tagOf n.va) (s.tagOf n.vb) (s.tagOf n.vc)
    (if m.reg = 0 then 0 else (s.vregN m.reg.val).tag) (s.vlmaxOf n) idx len) s

/-- The checks of R116 in order: the mask's tag, the named registers' tags, VL against VLMAX where VL counts. -/
def State.tagChecks (s : State) (n : Names) (m : Mask) (ok byVl : Bool) : M (Nat × State) :=
  if m.reg != 0 && (s.vregN m.reg.val).fmt != some .mask then s.tagStop n m false false
  else if !ok then s.tagStop n m false false
  else if byVl && s.vlmaxOf n < s.vl then s.tagStop n m false true
  else .ok (s.vlmaxOf n, s)

/-- The kind of a register as a destination: block-scaled and grouped ones are none of R121's. -/
def VReg.destKind (v : VReg) : TagKind := if v.bs then .grouped else v.kind

/-- The kind of a register. -/
def State.kind (s : State) (r : VR) : TagKind := (s.vreg r).kind

/-- The kind of a register as a destination. -/
def State.destKind (s : State) (r : VR) : TagKind := (s.vreg r).destKind

/-- The format of a register whose tag has passed the checks. -/
def State.fmtOf (s : State) (r : VR) : Fmt := (s.vreg r).fmt.getD .untagged

/-! ### Element groups and lanes (R235, R241, R338) -/

/-- Elements of a group of the widest of the named registers (R235). -/
def Fmt.perGroup : Fmt → Nat
  | .untagged => 32
  | .int4g | .int3g => 64
  | f => 256 / f.width

/-- Elements of an instruction's element group. -/
def State.groupOf (s : State) (n : Names) : Nat :=
  ((n.all.map fun r => (s.fmtOf r).perGroup).min?).getD 32

/-- Whether INT3G is the widest of the named registers' formats. -/
def State.allTight (s : State) (n : Names) : Bool := n.all.all fun r => s.fmtOf r == .int3g

/-- The live lane groups of a core, by number (R241). -/
def Core.live (c : Core) : List Nat := ((List.range c.groups.length).zip c.groups).filterMap fun g =>
  if g.2.retired then none else some g.1

/-- The lane group element group g runs on. -/
def Core.groupFor (c : Core) (g : Nat) : Nat := (c.live[g % max 1 c.live.length]?).getD 0

/-- Whether a working lane that still serves computes wrong bits. -/
def State.laneBad (s : State) (c : Core) (lg lane : Nat) : Bool :=
  (s.world.badLanes.any fun b => b.core == c.id && b.group == lg && b.lane == lane) &&
  ((c.groups[lg]?).map fun g => g.lanes.getLsbD lane).getD false

/-- The working lanes that compute an element of a group of `per`: lane j has bytes 4j to 4j + 3 of the group (R338). Where INT3G
is the widest format, its elements lie in 12 of every 16 bytes (R36). -/
def lanesOf (tight : Bool) (per e : Nat) : List Nat :=
  let x := e % per
  let (lo, hi) := if tight then ((x / 32 * 128 + x % 32 * 3) / 32, (x / 32 * 128 + x % 32 * 3 + 2) / 32)
    else (x * 8 / per, (x * 8 + 7) / per)
  (List.range (hi + 1 - lo)).map fun n => lo + n

/-! ### What a checked instruction does, element by element -/

/-- One act of an instruction: the range of elements it covers, which of them it computes, the flags it raises and its effect
on the registers. -/
structure Item where
  first : Nat
  past : Nat
  acts : Nat → Bool := fun _ => true
  flags : Flags := {}
  put : Vect → Vect

/-- The elements an act computes. -/
def Item.elems (i : Item) : List Nat := ((List.range i.past).drop i.first).filter i.acts

/-- What an instruction does once its checks have passed: its element groups, and whether they are INT3G's; whether it is a
whole-result instruction (R132), the registers it writes, the flags of a scalar conversion (R47), its acts in order, what
ends it, a value it pushes or a queue it pops, and which elements of its registers, or which sidecar entries of a register,
wrong bits of some elements reach. -/
structure VPlan where
  per : Nat
  tight : Bool := false
  whole : Bool := false
  dests : List VR := []
  scalar : Flags := {}
  items : List Item
  done : Vect → Vect
  push : Option (QR × Word) := none
  pop : Option QR := none
  hurt : List Nat → List Nat := id
  side : Option VR := none

/-- How the acts end: all done, at an act whose flag traps, at a group the checking lane refuses, or at the group where
the turn ends. -/
inductive Ended where
  | all
  | fpe (at_ : Nat) (flags : Flags)
  | lane (at_ : Nat)
  | pause (at_ : Nat)
  deriving DecidableEq, Repr

/-- Whether an act goes past a group that starts at an element. -/
def Item.beyond (i : Item) (c : Option Nat) : Bool := (c.map fun c => decide (c < i.past)).getD false

/-- The acts in order (R117, R118): an enabled flag stops before its element is written; a mismatch in the group from element
`cut` on stops before it, and so does the end of the turn at the group from element `stop` on: at that group's first
element (R339), or at the start of a block that reaches into it (R125). The flags gathered are those of the acts done. -/
def runItems (vt : Word) (cut stop : Option Nat) : List Item → Vect → Flags → Vect × Flags × Ended
  | [], v, fl => (v, fl, .all)
  | i :: t, v, fl =>
    if i.beyond stop then (v, fl, .pause (Nat.min i.first (stop.getD i.first)))
    else if i.beyond cut then (v, fl, .lane (Nat.min i.first (cut.getD i.first)))
    else if trapEnabled vt i.flags then (v, fl, .fpe i.first i.flags)
    else runItems vt cut stop t (i.put v) (fl.or i.flags)

/-- The VSTART an instruction began with when it goes on after a stall or a pause at an element, which costs only time (R150,
R301). -/
def State.beganAt (s : State) : Nat := s.r.begun.getD s.vstart

/-- Where an instruction began, noted while it is stalled or paused. -/
def State.setBegun (s : State) (b : Option Nat) : State := if s.r.begun = b then s else s.mapR fun r => { r with begun := b }

/-- The first element of the group at which an element-wise instruction with groups of `per` elements pauses, where the turn
gives it only some groups (R117, R235). -/
def State.pauseAt (s : State) (per : Nat) : Option Nat := s.quota.map fun n => (s.vstart / per + max 1 n) * per

/-- The vector side of the running runner replaced. -/
def State.setVect (s : State) (v : Vect) : State := s.mapR fun r => { r with vect := v }

/-- The first element group of a plan in which the checking lane sees lane j disagree (R338): one in which that lane computes an
element for the instruction. -/
def State.laneStop (s : State) (c : Core) (p : VPlan) (j : Nat) : Option (Nat × Nat) :=
  (p.items.flatMap Item.elems).findSome? fun e =>
    let lg := c.groupFor (e / p.per)
    if (lanesOf p.tight p.per e).contains j && ((c.groups[lg]?).map fun x => x.checking && !x.retired).getD false &&
      s.laneBad c lg j then some (e / p.per, lg) else none

/-- The elements of the acts done that lanes have computed wrong with no checking lane on them. -/
def State.wrongElems (s : State) (c : Core) (p : VPlan) (upto : Option Nat) : List Nat :=
  ((p.items.filter fun i => !i.beyond upto).flatMap Item.elems).filter fun e =>
    (lanesOf p.tight p.per e).any (s.laneBad c (c.groupFor (e / p.per)))

/-- What those elements reach becomes free values: elements of the registers written, and a word pushed (R339). -/
def State.spoil (s : State) (es : List Nat) (p : VPlan) : VPlan × State :=
  if es.isEmpty then (p, s)
  else
    let v := (p.hurt es).foldl (fun (v : Vect) (e : Nat) => p.dests.foldl (fun (v : Vect) (d : VR) =>
      v.putElem d (((s.vreg d).fmt).getD .untagged) e (Config.freeWord (s.free + 1 + e)).toNat) v) s.r.vect
    let v := match p.side with
      | some d => es.foldl (fun (v : Vect) (e : Nat) => v.setReg d ((v.reg d).setEntry e (Config.freeWord (s.free + 1 + e)).toNat)) v
      | none => v
    ({ p with push := p.push.map fun x => (x.1, Config.freeWord s.free) }, { s.setVect v with free := s.free + 16385 })

/-- A wrong lane that has been so for one checked instruction of a core computes right again. -/
def State.laneCured (s : State) (c : CoreId) : State :=
  if s.world.badLanes.isEmpty then s
  else { s with world := { s.world with badLanes := s.world.badLanes.filter fun b => !(b.once && b.core == c) } }

/-- A lane's blame noted (R339). -/
def State.blameLane (s : State) (lg lane : Nat) : State :=
  let c := s.myCore
  s.setCore { c with
    blamed := (lg, lane, s.time) :: c.blamed
    pendingLane := if c.blamed.any (fun b => b.1 == lg && b.2.1 == lane && s.time ≤ b.2.2 + 1000000000)
      then (lg, lane) :: c.pendingLane else c.pendingLane }

/-- A mismatch of the checking lane (R339): a protected strip rewinds; otherwise SILENT, what lies below standing. -/
def State.mismatch (s : State) (lg lane vstart : Nat) : M (Unit × State) :=
  let s := (s.blameLane lg lane).emit (.logged 0x0F (BitVec.ofNat 64 (0x100 + lg * 16 + lane)))
  if s.r.strip.prot then .error (.rewind 2, s)
  else stopTrap .silent (BitVec.ofNat 64 (0x100 + lg * 16 + lane)) (s.setVstart vstart)

/-- Whether an instruction is checked (R338). -/
def checkedInstr (i : Instr) : Bool := (unitsOf i).any fun u => u == .fma || u == .alu || u == .xp

/-- A word pushed by the vector side. -/
def State.pushVec (s : State) (q : QR) (w : Word) : State := s.setQueue q (s.r.queues[q] ++ [w])

/-- The effect on the queues of a completed instruction. -/
def State.handOff (s : State) (p : VPlan) : State :=
  let s := match p.pop with
    | some q => s.setQueue q s.r.queues[q].tail
    | none => s
  match p.push with
  | some (q, w) => s.pushVec q w
  | none => s

/-- Whether a plan is blocked by its queue (R129): a push by a full one, a pop by an empty one. -/
def State.blockedBy (s : State) (p : VPlan) : Option QR :=
  match p.push, p.pop with
  | some (q, _), _ => if s.r.queues[q].length < 16 then none else some q
  | none, some q => if s.r.queues[q].isEmpty then some q else none
  | none, none => none

/-- A plan carried out (R117, R118, R132, R338, R339). A lane check leaves VSTART at its group's first element, but not below
where the execution began (R117; DEDUCED, log 29). -/
def State.runPlan (s : State) (i : Instr) (p : VPlan) : M (Unit × State) :=
  match s.blockedBy p with
  | some q => .error (.queue q, s)
  | none =>
    if trapEnabled s.vtype p.scalar then stopTrap .fpe (p.scalar.bits.setWidth 64) s
    else
      let c := s.myCore
      let checks := checkedInstr i && !s.world.badLanes.isEmpty
      let lane := if s.r.begun.isNone then c.checked % 8 else s.r.shadow
      let hit := if checks then s.laneStop c p lane else none
      let wrong (upto : Option Nat) : List Nat := if checks then s.wrongElems c p upto else []
      let s := if checkedInstr i && s.r.begun.isNone then s.setCore { c with checked := (c.checked + 1) % 8 } else s
      let cut := hit.map fun h => if p.whole then 0 else max s.vstart (h.1 * p.per)
      let stop := if p.whole then none else s.pauseAt p.per
      match runItems s.vtype cut stop p.items s.r.vect p.scalar with
      | (v, fl, .all) =>
        let (p, s) := ((((s.setVect (p.done v)).raise fl).setVstart 0).setBegun none).spoil (wrong none) p
        .ok ((), (s.laneCured c.id).handOff p)
      | (v, fl, .fpe at_ bad) =>
        let (_, s) := ((s.setVect v).raise fl).spoil (wrong (some at_)) p
        stopTrap .fpe (bad.bits.setWidth 64) ((s.laneCured c.id).setVstart at_)
      | (v, fl, .pause at_) =>
        let (_, t) := ((s.setVect v).raise fl).spoil (wrong (some at_)) p
        .error (.pause, ((t.mapR fun r => { r with shadow := lane }).setBegun (some s.beganAt)).setVstart at_)
      | (v, fl, .lane at_) =>
        let (_, s) := ((s.setVect v).raise fl).spoil (wrong (some at_)) p
        (s.laneCured c.id).mismatch ((hit.map (·.2)).getD 0) lane at_

/-! ### Plans -/

/-- settle on a destination (R72), with the mask as the instruction found it. -/
def State.settleReg (s : State) (m : Mask) (start vlmax : Nat) (d : VR) (v : Vect) : Vect :=
  v.setReg d (settle s.vtype (s.fmtOf d) (fun i => s.active m i) start s.vl vlmax (v.reg d))

/-- An element-wise instruction with one destination: element i by f (R117). -/
def State.elemPlan (s : State) (n : Names) (m : Mask) (vlmax : Nat) (d : VR) (scalar : Flags)
    (f : Nat → Flagged Nat) : VPlan :=
  { per := s.groupOf n
    tight := s.allTight n
    dests := [d]
    scalar := scalar
    items := (s.activeFrom m s.vstart).map fun i =>
      { first := i, past := i + 1, flags := (f i).flags, put := fun v => v.putElem d (s.fmtOf d) i (f i).val }
    done := s.settleReg m s.beganAt vlmax d }

/-- A whole-result instruction: one act with all its flags (R132), that computes some elements. -/
def State.wholePlan (s : State) (n : Names) (dests : List VR) (scalar flags : Flags) (els : List Nat) (put : Vect → Vect) : VPlan :=
  { per := s.groupOf n, whole := true, dests := dests, scalar := scalar
    items := [{ first := 0, past := els.foldl (fun p e => max p (e + 1)) 1, acts := els.contains, flags := flags, put := put }]
    done := fun v => v }

/-- The modes VTYPE gives. -/
def State.modes (s : State) : Modes := modesOf s.vtype

end Sys2Proof.Machine
end

