-- ==== Sys2Proof/Machine/Valu.lean ====
section
/-! DEFINITION. The VALU and VCMP groups (R122–R131). -/

namespace Sys2Proof.Machine

/-! ### Operand b (R47, R72 SRCB) -/

/-- The registers operand b names. -/
def VB.reg? : VB → Option VR
  | .vec r => some r
  | .scal _ => none

/-- The scalar register operand b names. -/
def VB.scal? : VB → Option SR
  | .vec _ => none
  | .scal r => some r

/-- The scalar captured when an instruction with an operand b is passed (R232). -/
def State.capture (s : State) (b : VB) : Word := ((VB.scal? b).map s.reg).getD 0

/-- SRCB(i) as a floating value, with the flags of the one conversion (R47). -/
def State.srcB (s : State) (va : VR) (b : VB) (w : Word) : Flagged (Nat → XVal) :=
  match b with
  | .vec r => { val := fun i => (s.vreg r).src s.modes.daz i }
  | .scal _ =>
    let c := scalarTo s.modes (s.vreg va) w
    { val := fun _ => scalarVal s.modes (s.vreg va) c.val, flags := c.flags }

/-- SRCB(i) as an integer (R47: reduced to va's format). -/
def State.intB (s : State) (va : VR) (b : VB) (w : Word) : Nat → Int :=
  match b with
  | .vec r => fun i => (s.vreg r).index i
  | .scal _ =>
    let f := s.fmtOf va
    let x := intVal (f.intSigned.getD false) f.width (scalarTo s.modes (s.vreg va) w).val
    fun _ => x

/-- The names of an instruction with fields vd, va, b and vc. -/
def namesOf (vd va : VR) (b : Option VB) (vc : Option VR) : Names :=
  { vd := some vd, va := some va, vb := b.bind VB.reg?, vc := vc }

/-! ### Arithmetic (R122–R124) -/

/-- The kinds of a list of sources all equal a kind. -/
def State.kindsAre (s : State) (k : TagKind) (l : List VR) : Bool := l.all fun r => s.kind r == k

/-- An exact integer result delivered to a destination (R37, R124): none is a division by zero, all ones. -/
def intResult (md : Modes) (d : Fmt) (x : Option Int) : Flagged Nat :=
  match x with
  | some x => { val := reduceInt md.sat (d.intSigned.getD false) d.width x }
  | none => { val := 2 ^ d.width - 1 }

/-- An element-wise arithmetic instruction: its integer and its floating operation (R123). -/
structure Arith where
  int : Option (Int → Int → Int → Option Int)
  fp : Modes → XVal → XVal → XVal → Flagged XVal

/-- The effect of an arithmetic instruction on the vector side (R122, R123). -/
def doArith (i : Instr) (o : Arith) (m : Mask) (vd va : VR) (b : Option VB) (vc : Option VR) (w : Word) (s : State) :
    M (Unit × State) := do
  let n := namesOf vd va b vc
  let srcs := n.va.toList ++ n.vb.toList ++ n.vc.toList
  let k := s.kind va
  let ok := (k == .float || (k == .int && o.int.isSome)) && s.kindsAre k srcs && s.destKind vd == k
  let (vlmax, s) ← s.tagChecks n m ok true
  let md := s.modes
  if k == .int then
    let x := fun j => (s.vreg va).index j
    let y := (b.map fun b => s.intB va b w).getD (fun _ => 0)
    let z := (vc.map fun c j => (s.vreg c).index j).getD (fun _ => 0)
    s.runPlan i (s.elemPlan n m vlmax vd {} fun j =>
      intResult md (s.fmtOf vd) ((o.int.bind fun g => g (x j) (y j) (z j))))
  else
    let y := (b.map fun b => s.srcB va b w).getD { val := fun _ => .zero false }
    let z := (vc.map fun c j => (s.vreg c).src md.daz j).getD (fun _ => .zero false)
    match s.fmtOf vd with
    | .fp g => s.runPlan i (s.elemPlan n m vlmax vd y.flags fun j =>
        g.deliver md (o.fp md ((s.vreg va).src md.daz j) (y.val j) (z j)))
    | _ => .ok ((), s)

/-- A value with NV for a signalling NaN read by arithmetic (R32). -/
def quietNaN (x : XVal) (y : XVal) : Flagged XVal := { val := y, flags := nvIf x.isSnan }

/-- vadd's operations. -/
def opAdd : Arith := { int := some fun a b _ => some (a + b), fp := fun md a b _ => addX md.rm a b }

/-- vsub's. -/
def opSub : Arith := { int := some fun a b _ => some (a - b), fp := fun md a b _ => addX md.rm a b.negate }

/-- vmul's. -/
def opMul : Arith := { int := some fun a b _ => some (a * b), fp := fun _ a b _ => mulX a b }

/-- vdiv's (R124). -/
def opDiv : Arith :=
  { int := some fun a b _ => if b = 0 then none else some (a.tdiv b), fp := fun _ a b _ => divX a b }

/-- vmin's (R33). -/
def opMin : Arith := { int := some fun a b _ => some (min a b), fp := fun _ a b _ => minMaxX false a b }

/-- vmax's (R33). -/
def opMax : Arith := { int := some fun a b _ => some (max a b), fp := fun _ a b _ => minMaxX true a b }

/-- vfma's. -/
def opFma : Arith := { int := some fun a b c => some (a * b + c), fp := fun md a b c => fmaX md.rm a b c }

/-- vfms's. -/
def opFms : Arith := { int := some fun a b c => some (a * b - c), fp := fun md a b c => fmaX md.rm a b c.negate }

/-- vfnma's. -/
def opFnma : Arith := { int := some fun a b c => some (c - a * b), fp := fun md a b c => fmaX md.rm a.negate b c }

/-- vabs's. -/
def opAbs : Arith := { int := some fun a _ _ => some (Int.natAbs a), fp := fun _ a _ _ => quietNaN a a.abs }

/-- vneg's. -/
def opNeg : Arith := { int := some fun a _ _ => some (-a), fp := fun _ a _ _ => quietNaN a a.negate }

/-- vsqrt's: floating only. -/
def opSqrt : Arith := { int := none, fp := fun _ a _ _ => sqrtX a }

/-- An arithmetic instruction with operand b. -/
def arith (i : Instr) (o : Arith) (m : VMod) (vd va : VR) (b : VB) (vc : Option VR) (s : State) :
    Host.Outcome State Fault Refusal :=
  passVector i (s.capture b) 0 (doArith i o m.mask vd va (some b) vc (s.capture b)) s

/-- An arithmetic instruction of one source. -/
def arith1 (i : Instr) (o : Arith) (m : VMod) (vd va : VR) (s : State) : Host.Outcome State Fault Refusal :=
  passVector i 0 0 (doArith i o m.mask vd va none none 0) s

/-- vadd (R122, R123). -/
def execVadd (m : VMod) (vd va : VR) (b : VB) (s : State) : Host.Outcome State Fault Refusal :=
  arith (.vadd m vd va b) opAdd m vd va b none s

/-- vsub (R122, R123). -/
def execVsub (m : VMod) (vd va : VR) (b : VB) (s : State) : Host.Outcome State Fault Refusal :=
  arith (.vsub m vd va b) opSub m vd va b none s

/-- vmul (R122, R123). -/
def execVmul (m : VMod) (vd va : VR) (b : VB) (s : State) : Host.Outcome State Fault Refusal :=
  arith (.vmul m vd va b) opMul m vd va b none s

/-- vdiv (R122–R124). -/
def execVdiv (m : VMod) (vd va : VR) (b : VB) (s : State) : Host.Outcome State Fault Refusal :=
  arith (.vdiv m vd va b) opDiv m vd va b none s

/-- vmin (R122, R33). -/
def execVmin (m : VMod) (vd va : VR) (b : VB) (s : State) : Host.Outcome State Fault Refusal :=
  arith (.vmin m vd va b) opMin m vd va b none s

/-- vmax (R122, R33). -/
def execVmax (m : VMod) (vd va : VR) (b : VB) (s : State) : Host.Outcome State Fault Refusal :=
  arith (.vmax m vd va b) opMax m vd va b none s

/-- vfma (R122, R123). -/
def execVfma (m : VMod) (vd va : VR) (b : VB) (vc : VR) (s : State) : Host.Outcome State Fault Refusal :=
  arith (.vfma m vd va b vc) opFma m vd va b (some vc) s

/-- vfms (R122, R123). -/
def execVfms (m : VMod) (vd va : VR) (b : VB) (vc : VR) (s : State) : Host.Outcome State Fault Refusal :=
  arith (.vfms m vd va b vc) opFms m vd va b (some vc) s

/-- vfnma (R122, R123). -/
def execVfnma (m : VMod) (vd va : VR) (b : VB) (vc : VR) (s : State) : Host.Outcome State Fault Refusal :=
  arith (.vfnma m vd va b vc) opFnma m vd va b (some vc) s

/-- vabs (R122, R123). -/
def execVabs (m : VMod) (vd va : VR) (s : State) : Host.Outcome State Fault Refusal :=
  arith1 (.vabs m vd va) opAbs m vd va s

/-- vneg (R122, R123). -/
def execVneg (m : VMod) (vd va : VR) (s : State) : Host.Outcome State Fault Refusal :=
  arith1 (.vneg m vd va) opNeg m vd va s

/-- vsqrt (R122). -/
def execVsqrt (m : VMod) (vd va : VR) (s : State) : Host.Outcome State Fault Refusal :=
  arith1 (.vsqrt m vd va) opSqrt m vd va s

/-! ### Logic and shifts (R124) -/

/-- The effect of a logic instruction: 64-bit patterns, or masks (R124). -/
def doLogic (i : Instr) (f : Int → Int → Int) (m : Mask) (vd va : VR) (b : Option VB) (w : Word) (s : State) :
    M (Unit × State) := do
  let n := namesOf vd va b none
  let k := s.kind va
  let scal := (b.bind VB.scal?).isSome
  let ok := (k == .int || (k == .mask && !scal)) && s.kindsAre k n.vb.toList && s.destKind vd == k
  let (vlmax, s) ← s.tagChecks n m ok true
  let d := s.fmtOf vd
  let y := (b.map fun b => s.intB va b w).getD (fun _ => 0)
  s.runPlan i (s.elemPlan n m vlmax vd {} fun j => { val := wrapInt d.width (f ((s.vreg va).index j) (y j)) })

/-- Bitwise operations on integers as two's-complement patterns of 64 bits. -/
def bits64 (f : Word → Word → Word) (a b : Int) : Int := (f (BitVec.ofInt 64 a) (BitVec.ofInt 64 b)).toInt

/-- The effect of a shift (R124): W bits, the count the low log2(W) bits of b; a scalar b is INT64 unconverted. -/
def doShift (i : Instr) (f : (w : Nat) → Int → Nat → Int) (m : Mask) (vd va : VR) (b : VB) (w : Word) (s : State) :
    M (Unit × State) := do
  let n := namesOf vd va (some b) none
  let ok := s.kind va == .int && s.kindsAre .int n.vb.toList && s.destKind vd == .int
  let (vlmax, s) ← s.tagChecks n m ok true
  let d := s.fmtOf vd
  let wd := max (s.fmtOf va).width d.width
  let y : Nat → Int := match b with
    | .vec r => fun j => (s.vreg r).index j
    | .scal _ => fun _ => w.toInt
  s.runPlan i (s.elemPlan n m vlmax vd {} fun j =>
    { val := wrapInt d.width (f wd ((s.vreg va).index j) (wrapInt 64 (y j) % wd)) })

/-- VSHL of a value extended to w bits. -/
def shl (_w : Nat) (a : Int) (c : Nat) : Int := a * 2 ^ c

/-- VSHR: the w-bit pattern shifted right with zeros. -/
def shr (w : Nat) (a : Int) (c : Nat) : Int := (wrapInt w a >>> c : Nat)

/-- VSAR: the w-bit pattern shifted right with copies of its top bit. -/
def sar (w : Nat) (a : Int) (c : Nat) : Int := intVal true w (wrapInt w a) >>> c

/-- vand (R124). -/
def execVand (m : VMod) (vd va : VR) (b : VB) (s : State) : Host.Outcome State Fault Refusal :=
  passVector (.vand m vd va b) (s.capture b) 0
    (doLogic (.vand m vd va b) (bits64 (· &&& ·)) m.mask vd va (some b) (s.capture b)) s

/-- vor (R124). -/
def execVor (m : VMod) (vd va : VR) (b : VB) (s : State) : Host.Outcome State Fault Refusal :=
  passVector (.vor m vd va b) (s.capture b) 0
    (doLogic (.vor m vd va b) (bits64 (· ||| ·)) m.mask vd va (some b) (s.capture b)) s

/-- vxor (R124). -/
def execVxor (m : VMod) (vd va : VR) (b : VB) (s : State) : Host.Outcome State Fault Refusal :=
  passVector (.vxor m vd va b) (s.capture b) 0
    (doLogic (.vxor m vd va b) (bits64 (· ^^^ ·)) m.mask vd va (some b) (s.capture b)) s

/-- vnot (R124). -/
def execVnot (m : VMod) (vd va : VR) (s : State) : Host.Outcome State Fault Refusal :=
  passVector (.vnot m vd va) 0 0 (doLogic (.vnot m vd va) (bits64 fun a _ => ~~~a) m.mask vd va none 0) s

/-- vshl (R124). -/
def execVshl (m : VMod) (vd va : VR) (b : VB) (s : State) : Host.Outcome State Fault Refusal :=
  passVector (.vshl m vd va b) (s.capture b) 0 (doShift (.vshl m vd va b) shl m.mask vd va b (s.capture b)) s

/-- vshr (R124). -/
def execVshr (m : VMod) (vd va : VR) (b : VB) (s : State) : Host.Outcome State Fault Refusal :=
  passVector (.vshr m vd va b) (s.capture b) 0 (doShift (.vshr m vd va b) shr m.mask vd va b (s.capture b)) s

/-- vsar (R124). -/
def execVsar (m : VMod) (vd va : VR) (b : VB) (s : State) : Host.Outcome State Fault Refusal :=
  passVector (.vsar m vd va b) (s.capture b) 0 (doShift (.vsar m vd va b) sar m.mask vd va b (s.capture b)) s

/-! ### Conversions (R125, R48) -/

/-- A source of a conversion: an exact integer, or a value read by SRC. -/
inductive CvtVal where
  | int (i : Int)
  | fp (x : XVal)

/-- Element j of a conversion's source (R125). -/
def State.cvtVal (s : State) (va : VR) (j : Nat) : CvtVal :=
  match s.kind va with
  | .int => .int ((s.vreg va).index j)
  | _ => .fp ((s.vreg va).src s.modes.daz j)

/-- The value as a floating one. -/
def CvtVal.x : CvtVal → XVal
  | .int i => .ofInt i
  | .fp x => x

/-- SRND into a floating format (R42): overflow and E4M3 as in ROUND with RNE, FTZ and flags as for ROUND. -/
def FF.convertSr (f : FF) (md : Modes) (rb : Nat) (x : XVal) : Flagged Nat :=
  let r := f.roundBy (.srnd rb) md.ftz md.sat x
  { val := r.val, flags := r.flags.or (nvIf x.isSnan) }

/-- One element converted to a destination that is not block-scaled (R48). -/
def cvtElem (md : Modes) (d : Fmt) (rb : Option Nat) (x : CvtVal) : Flagged Nat :=
  match d with
  | .fp g => match rb with
    | none => g.convert md x.x
    | some r => g.convertSr md r x.x
  | d =>
    let sg := d.intSigned.getD false
    match x with
    | .int i => { val := reduceInt md.sat sg d.width i }
    | .fp x => floatToInt md.rm sg d.width x

/-- The amount by which a block is divided: its new scale (R48), from the finite active elements. -/
def blockScale (d : Fmt) (xs : List XVal) : Nat :=
  let emax : Int := match d with
    | .fp .e4m3 => 8
    | .fp _ => 15
    | _ => 6
  match ((xs.filter XVal.isFinNonzero).map XVal.lead).max? with
  | none => 127
  | some l => (max 0 (min 254 (l - emax + 127))).toNat

/-- One element of a block-scaled destination, already divided by its scale (R48, R42). -/
def blockElem (md : Modes) (d : Fmt) (rb : Option Nat) (x : XVal) : Flagged Nat :=
  match d with
  | .fp g =>
    let r := match rb with
      | none => g.convert md x
      | some k => g.convertSr md k x
    if r.flags.of then { val := g.maxf x.neg, flags := { of := true, nx := true } } else r
  | _ =>
    match x with
    | .nan _ => { val := 0, flags := flagNV }
    | .inf sg => { val := wrapInt 8 (if sg then -127 else 127), flags := flagNV }
    | .fin .. =>
      let r := toIntBy (match rb with | none => .mode md.rm | some k => .srnd k) x
      if r.1 < -127 then { val := wrapInt 8 (-127), flags := { of := true, nx := true } }
      else if 127 < r.1 then { val := 127, flags := { of := true, nx := true } }
      else { val := wrapInt 8 r.1, flags := { nx := r.2 } }

/-- One block of a conversion into a block-scaled register (R125): nothing when no element of it is active. -/
def State.blockItem (s : State) (m : Mask) (vd va : VR) (rb : Nat → Option Nat) (k : Nat) : Item :=
  let md := s.modes
  let act := (s.activeFrom m (32 * k)).filter fun j => j < 32 * k + 32
  let xs := act.map fun j => (j, (s.cvtVal va j).x)
  let e := blockScale (s.fmtOf vd) (xs.map (·.2))
  let ys := xs.map fun jx => (jx.1, blockElem md (s.fmtOf vd) (rb jx.1) (jx.2.scale (127 - (e : Int))))
  { first := 32 * k, past := 32 * k + 32, acts := act.contains
    flags := ys.foldl (fun fl y => fl.or y.2.flags) {}
    put := fun v =>
      if act.isEmpty then v
      else
        let x := (v.reg vd).setEntry k e
        v.setReg vd (ys.foldl (fun x y => x.setElem (s.fmtOf vd) y.1 y.2.val) x) }

/-- The flags a block traps with: those of its first element that an enable names, none gathered (R22, R125). -/
def State.blockFlags (s : State) (m : Mask) (vd va : VR) (rb : Nat → Option Nat) (k : Nat) : Flags :=
  let md := s.modes
  let act := (s.activeFrom m (32 * k)).filter fun j => j < 32 * k + 32
  let xs := act.map fun j => (j, (s.cvtVal va j).x)
  let e := blockScale (s.fmtOf vd) (xs.map (·.2))
  let fls := xs.map fun jx => (blockElem md (s.fmtOf vd) (rb jx.1) (jx.2.scale (127 - (e : Int)))).flags
  (fls.find? fun f => trapEnabled s.vtype f).getD (fls.foldl Flags.or {})

/-- The effect of VCVT and VCVTSR (R125): element by element, or block by block into a block-scaled register. -/
def doCvt (i : Instr) (m : Mask) (vd va : VR) (vb : Option VR) (s : State) : M (Unit × State) := do
  let n : Names := { vd := some vd, va := some va, vb := vb }
  let ka := s.kind va
  let kd := s.kind vd
  let ok := (ka == .int || ka == .float || (ka == .grouped && vb.isNone)) &&
    (kd == .float || (kd == .int && vb.isNone)) && ((vb.map fun r => s.kind r == .int).getD true)
  let (vlmax, s) ← s.tagChecks n m ok true
  let rb : Nat → Option Nat := fun j => vb.map fun r => (s.vreg r).elem (s.fmtOf r) j % 2 ^ 16
  if (s.vreg vd).bs then
    if s.vstart % 32 != 0 then s.tagStop n m true false
    else
      let ks := (List.range ((s.vl + 31) / 32)).drop (s.vstart / 32)
      s.runPlan i
        { per := s.groupOf n, dests := [vd], done := s.settleReg m s.beganAt vlmax vd
          items := ks.map fun k => { s.blockItem m vd va rb k with flags := s.blockFlags m vd va rb k } }
  else
    s.runPlan i (s.elemPlan n m vlmax vd {} fun j => cvtElem s.modes (s.fmtOf vd) (rb j) (s.cvtVal va j))

/-- vcvt (R125). -/
def execVcvt (m : VMod) (vd va : VR) (s : State) : Host.Outcome State Fault Refusal :=
  passVector (.vcvt m vd va) 0 0 (doCvt (.vcvt m vd va) m.mask vd va none) s

/-- vcvtsr (R125). -/
def execVcvtsr (m : VMod) (vd va vb : VR) (s : State) : Host.Outcome State Fault Refusal :=
  passVector (.vcvtsr m vd va vb) 0 0 (doCvt (.vcvtsr m vd va vb) m.mask vd va (some vb)) s

/-! ### Moves and selection (R126) -/

/-- Tags a move accepts beside block-scaled and grouped ones. -/
def State.plainKind (s : State) (r : VR) : Bool :=
  s.destKind r == .int || s.destKind r == .float || s.destKind r == .mask

/-- Sidecar entries copied with the elements they scale. -/
def copyEntries (src : VReg) (lo hi : Nat) (x : VReg) : VReg :=
  ((List.range hi).drop lo).foldl (fun (x : VReg) (j : Nat) => x.setEntry j (src.entry j)) x

/-- An act that copies the sidecar entry of its element too. -/
def withEntry (src : VReg) (vd : VR) (it : Item) : Item :=
  { it with put := fun v => (it.put v).setReg vd (copyEntries src (it.first / 32) (it.first / 32 + 1) ((it.put v).reg vd)) }

/-- The effect of VMOV. -/
def doMov (i : Instr) (m : Mask) (vd va : VR) (s : State) : M (Unit × State) := do
  let n : Names := { vd := some vd, va := some va }
  let a := s.vreg va
  let scaled := a.bs || a.kind == .grouped
  let ok := a.kind != .none && a.tag == (s.vreg vd).tag && !(scaled && m.reg != 0)
  let (vlmax, s) ← s.tagChecks n m ok true
  let p := s.elemPlan n m vlmax vd {} fun j => { val := a.elem (s.fmtOf va) j }
  s.runPlan i (if scaled then { p with items := p.items.map (withEntry a vd) } else p)

/-- vmov (R126). -/
def execVmov (m : VMod) (vd va : VR) (s : State) : Host.Outcome State Fault Refusal :=
  passVector (.vmov m vd va) 0 0 (doMov (.vmov m vd va) m.mask vd va) s

/-- The effect of VBCAST of an element. -/
def doBcast (i : Instr) (m : Mask) (vd va : VR) (idx : Nat) (s : State) : M (Unit × State) := do
  let n : Names := { vd := some vd, va := some va }
  let (vlmax, s) ← s.tagChecks n m (s.plainKind vd && (s.vreg va).tag == (s.vreg vd).tag) true
  if (s.vreg va).count s.vlen ≤ idx then s.tagStop n m true false
  else s.runPlan i (s.elemPlan n m vlmax vd {} fun _ => { val := (s.vreg va).elem (s.fmtOf va) idx })

/-- vbcast (R126). -/
def execVbcast (m : VMod) (vd va : VR) (idx : BitVec 16) (s : State) : Host.Outcome State Fault Refusal :=
  passVector (.vbcast m vd va idx) 0 0 (doBcast (.vbcast m vd va idx) m.mask vd va idx.toNat) s

/-- Integer and floating destinations that are neither block-scaled nor grouped. -/
def State.numKind (s : State) (r : VR) : Bool := s.destKind r == .int || s.destKind r == .float

/-- The effect of VBCAST of a scalar. -/
def doBcastScalar (i : Instr) (m : Mask) (vd : VR) (w : Word) (s : State) : M (Unit × State) := do
  let n : Names := { vd := some vd }
  let (vlmax, s) ← s.tagChecks n m (s.numKind vd) true
  let c := scalarTo s.modes (s.vreg vd) w
  s.runPlan i (s.elemPlan n m vlmax vd c.flags fun _ => { val := c.val })

/-- vbcast of a scalar (R126). -/
def execVbcastScalar (m : VMod) (vd : VR) (ss : SR) (s : State) : Host.Outcome State Fault Refusal :=
  passVector (.vbcastScalar m vd ss) (s.reg ss) 0 (doBcastScalar (.vbcastScalar m vd ss) m.mask vd (s.reg ss)) s

/-- The effect of VSEL. -/
def doSel (i : Instr) (m : Mask) (vd va : VR) (b : VB) (vc : VR) (w : Word) (s : State) : M (Unit × State) := do
  let n := namesOf vd va (some b) (some vc)
  let same (r : VR) : Bool := (s.vreg r).tag == (s.vreg vd).tag
  let ok := s.plainKind vd && same va && s.kind vc == .mask &&
    (match b with | .vec r => same r | .scal _ => s.destKind vd != .mask)
  let (vlmax, s) ← s.tagChecks n m ok true
  let c := scalarTo s.modes (s.vreg vd) w
  let other : Nat → Nat := match b with
    | .vec r => fun j => (s.vreg r).elem (s.fmtOf r) j
    | .scal _ => fun _ => c.val
  let fl := match b with
    | .vec _ => {}
    | .scal _ => c.flags
  s.runPlan i (s.elemPlan n m vlmax vd fl fun j =>
    { val := if (s.vreg vc).elem .mask j == 1 then (s.vreg va).elem (s.fmtOf va) j else other j })

/-- vsel (R126). -/
def execVsel (m : VMod) (vd va : VR) (b : VB) (vc : VR) (s : State) : Host.Outcome State Fault Refusal :=
  passVector (.vsel m vd va b vc) (s.capture b) 0 (doSel (.vsel m vd va b vc) m.mask vd va b vc (s.capture b)) s

/-! ### Two-sum and scaling (R127, R128, R44) -/

/-- TwoSum in a format, with FTZ: the rounded sum, its error, and the sum's flags (R44, R127); a flush raises UF and NX,
the error nothing else. Its RNE saturates an E4M3 overflow as VTYPE.SAT says (R38, DEDUCED, log 30). -/
def twoSum (f : FF) (ftz sat : Bool) (x y : XVal) : Flagged (Nat × Nat) :=
  let t := addX .rne x y
  let r := f.roundBy (.mode .rne) false sat t.val
  let s := f.val r.val
  if s.isNan || s.isInf then { val := (r.val, 0), flags := t.flags.or r.flags }
  else
    let e := addFin .rne t.val s.negate
    let rs := f.rne ftz s
    let e := if e.isZero then .zero false else e
    let re := f.rne ftz e
    let fl (b : Flags) : Flags := { uf := b.uf, nx := b.nx }
    let cut : Flags := if re.val = (f.rne false e).val then {} else { uf := true, nx := true }
    { val := (rs.val, re.val), flags := (t.flags.or r.flags).or ((fl rs.flags).or cut) }

/-- The operation format of va and operand b. -/
def State.opfOf (s : State) (va : VR) (b : Option VR) : FF :=
  match b with
  | some r => opFormat (s.vreg va).opf (s.vreg r).opf
  | none => opFormat (s.vreg va).opf (s.vreg va).opf

/-- The effect of VTWOSUM. -/
def doTwosum (i : Instr) (m : Mask) (vd va : VR) (b : VB) (w : Word) (s : State) : M (Unit × State) := do
  let vd1 : VR := vd + 1
  let n : Names := { vd := some vd, va := some va, vb := VB.reg? b, more := [vd1] }
  let f := s.opfOf va (VB.reg? b)
  let ok := s.kind va == .float && s.kindsAre .float n.vb.toList &&
    s.destKind vd == .float && s.fmtOf vd == .fp f && s.destKind vd1 == .float && s.fmtOf vd1 == .fp f
  let (vlmax, s) ← s.tagChecks n m ok true
  let md := s.modes
  let y := s.srcB va b w
  let two := fun j => twoSum f md.ftz md.sat ((s.vreg va).src md.daz j) (y.val j)
  s.runPlan i
    { per := s.groupOf n, dests := [vd, vd1], scalar := y.flags
      items := (s.activeFrom m s.vstart).map fun j =>
        { first := j, past := j + 1, flags := (two j).flags,
          put := fun v => (v.putElem vd (.fp f) j (two j).val.1).putElem vd1 (.fp f) j (two j).val.2 }
      done := fun v => s.settleReg m s.beganAt vlmax vd1 (s.settleReg m s.beganAt vlmax vd v) }

/-- vtwosum (R127). -/
def execVtwosum (m : VMod) (vd va : VR) (b : VB) (s : State) : Host.Outcome State Fault Refusal :=
  passVector (.vtwosum m vd va b) (s.capture b) 0 (doTwosum (.vtwosum m vd va b) m.mask vd va b (s.capture b)) s

/-- The effect of VSCALB. -/
def doScalb (i : Instr) (m : Mask) (vd va : VR) (b : VB) (w : Word) (s : State) : M (Unit × State) := do
  let n := namesOf vd va (some b) none
  let ok := s.kind va == .float && s.kindsAre .int n.vb.toList && s.destKind vd == .float
  let (vlmax, s) ← s.tagChecks n m ok true
  let md := s.modes
  let k : Nat → Int := match b with
    | .vec r => fun j => (s.vreg r).index j
    | .scal _ => fun _ => w.toInt
  match s.fmtOf vd with
  | .fp g => s.runPlan i (s.elemPlan n m vlmax vd {} fun j =>
      let x := (s.vreg va).src md.daz j
      g.deliver md (quietNaN x (x.scale (max (-65536) (min 65535 (k j))))))
  | _ => .ok ((), s)

/-- vscalb (R128). -/
def execVscalb (m : VMod) (vd va : VR) (b : VB) (s : State) : Host.Outcome State Fault Refusal :=
  passVector (.vscalb m vd va b) (s.capture b) 0 (doScalb (.vscalb m vd va b) m.mask vd va b (s.capture b)) s

/-! ### Queues from the vector side (R129, R131) -/

/-- A plan that changes no register but pushes a word it computes from some elements. -/
def State.pushPlan (s : State) (n : Names) (els : List Nat) (q : QR) (w : Word) : VPlan :=
  { s.wholePlan n [] {} {} els id with push := some (q, w) }

/-- An element as VQPUSH makes 64 bits of it (R129). -/
def VReg.elemWord (v : VReg) (f : Fmt) (j : Nat) : Word :=
  if f.intSigned = some true && !v.bs then BitVec.ofInt 64 (intVal true f.width (v.elem f j)) else BitVec.ofNat 64 (v.elem f j)

/-- The effect of VQPUSH. -/
def doVqpush (i : Instr) (q : QR) (va : VR) (idx : Nat) (s : State) : M (Unit × State) := do
  let n : Names := { va := some va }
  let (_, s) ← s.tagChecks n {} (s.kind va != .none && s.kind va != .grouped) false
  if (s.vreg va).count s.vlen ≤ idx then s.tagStop n {} true false
  else s.runPlan i (s.pushPlan n [idx] q ((s.vreg va).elemWord (s.fmtOf va) idx))

/-- vqpush (R129). -/
def execVqpush (m : VMod) (q : QR) (va : VR) (idx : BitVec 16) (s : State) : Host.Outcome State Fault Refusal :=
  passVector (.vqpush m q va idx) 0 0 (doVqpush (.vqpush m q va idx) q va idx.toNat) s

/-- The effect of VQPOP: the entry stays in its queue when its conversion traps (R47, R132). -/
def doVqpop (i : Instr) (m : Mask) (vd : VR) (q : QR) (s : State) : M (Unit × State) := do
  let n : Names := { vd := some vd }
  let (vlmax, s) ← s.tagChecks n m (s.numKind vd) true
  match s.r.queues[q] with
  | [] => .error (.queue q, s)
  | w :: _ =>
    let c := scalarTo s.modes (s.vreg vd) w
    s.runPlan i { s.wholePlan n [vd] c.flags {} (s.activeFrom m 0) (fun v =>
        (s.activeFrom m 0).foldl (fun (v : Vect) (j : Nat) => v.putElem vd (s.fmtOf vd) j c.val) v) with
      done := s.settleReg m 0 vlmax vd
      pop := some q }

/-- vqpop (R129). -/
def execVqpop (m : VMod) (vd : VR) (q : QR) (s : State) : Host.Outcome State Fault Refusal :=
  passVector (.vqpop m vd q) 0 0 (doVqpop (.vqpop m vd q) m.mask vd q) s

/-- The effect of a mask count: a word of the active set elements' indices (R131). -/
def doCount (i : Instr) (f : List Nat → Word) (m : Mask) (q : QR) (va : VR) (s : State) : M (Unit × State) := do
  let n : Names := { va := some va }
  let (_, s) ← s.tagChecks n m (s.kind va == .mask) true
  s.runPlan i (s.pushPlan n (s.activeFrom m 0) q (f ((s.activeFrom m 0).filter fun j => (s.vreg va).elem .mask j == 1)))

/-- vmpopc (R131). -/
def execVmpopc (m : VMod) (q : QR) (va : VR) (s : State) : Host.Outcome State Fault Refusal :=
  passVector (.vmpopc m q va) 0 0 (doCount (.vmpopc m q va) (fun l => BitVec.ofNat 64 l.length) m.mask q va) s

/-- vmfirst (R131). -/
def execVmfirst (m : VMod) (q : QR) (va : VR) (s : State) : Host.Outcome State Fault Refusal :=
  passVector (.vmfirst m q va) 0 0
    (doCount (.vmfirst m q va) (fun l => (l.head?.map fun j => BitVec.ofNat 64 j).getD (BitVec.allOnes 64)) m.mask q va) s

/-- vmany (R131). -/
def execVmany (m : VMod) (q : QR) (va : VR) (s : State) : Host.Outcome State Fault Refusal :=
  passVector (.vmany m q va) 0 0 (doCount (.vmany m q va) (fun l => boolWord (!l.isEmpty)) m.mask q va) s

/-! ### Comparisons (R130) -/

/-- A condition on integers: by value, or for the codes 8 to 11 on the encodings. -/
def condInt (cond : Nat) (a b : Int) (ua ub : Nat) : Bool :=
  match cond with
  | 0 => a == b | 1 => a != b | 2 => a < b | 3 => a ≤ b | 4 => a > b | 5 => a ≥ b
  | 8 => ua < ub | 9 => ua ≤ ub | 10 => ua > ub | _ => ua ≥ ub

/-- The effect of VCMP. -/
def doCmp (i : Instr) (m : Mask) (vd va : VR) (b : VB) (cond : Nat) (w : Word) (s : State) : M (Unit × State) := do
  let n := namesOf vd va (some b) none
  let k := s.kind va
  let ok := s.kind vd == .mask && s.kindsAre k n.vb.toList &&
    ((k == .int && cond != 6 && cond != 7) || (k == .float && cond < 8))
  let (vlmax, s) ← s.tagChecks n m ok true
  let md := s.modes
  if k == .int then
    let y := s.intB va b w
    let ub : Nat → Nat := match b with
      | .vec r => fun j => (s.vreg r).elem (s.fmtOf r) j
      | .scal _ => fun _ => (scalarTo md (s.vreg va) w).val
    s.runPlan i (s.elemPlan n m vlmax vd {} fun j =>
      { val := (condInt cond ((s.vreg va).index j) (y j) ((s.vreg va).elem (s.fmtOf va) j) (ub j)).toNat })
  else
    let y := s.srcB va b w
    s.runPlan i (s.elemPlan n m vlmax vd y.flags fun j =>
      let r := condX cond ((s.vreg va).src md.daz j) (y.val j)
      { val := r.val.toNat, flags := r.flags })

/-- vcmp (R130). -/
def execVcmp (m : VMod) (vd va : VR) (b : VB) (cond : Fin 12) (s : State) : Host.Outcome State Fault Refusal :=
  passVector (.vcmp m vd va b cond) (s.capture b) 0 (doCmp (.vcmp m vd va b cond) m.mask vd va b cond.val (s.capture b)) s

end Sys2Proof.Machine
end

