-- ==== Sys2Proof/Machine/Vred.lean ====
section
/-! DEFINITION. The VRED group: reductions and scans (R54–R57, R132–R135). -/

namespace Sys2Proof.Machine

/-! ### The fixed tree (R54) -/

/-- One level of the tree: padding, none, passes its neighbour through; an odd last node has padding beside it. -/
def treeLevel {α : Type} (f : α → α → α) : List (Option α) → List (Option α)
  | some a :: some b :: t => some (f a b) :: treeLevel f t
  | a :: none :: t => a :: treeLevel f t
  | none :: b :: t => b :: treeLevel f t
  | l => l

/-- n levels. -/
def treeLoop {α : Type} (f : α → α → α) : Nat → List (Option α) → Option α
  | 0, l => l.head?.join
  | n + 1, l => treeLoop f n (treeLevel f l)

/-- The root of the tree over leaves padded to a power of two (R54). -/
def tree {α : Type} (f : α → α → α) (leaves : List (Option α)) : Option α :=
  treeLoop f ((leaves.length - 1).log2 + 1) leaves

/-- The operations of reductions (R54). -/
inductive RedOp where
  | sum | min | max | and | or
  deriving DecidableEq, Repr

/-- VSCAN's operation codes (R135). -/
def redOpOf (n : Nat) : RedOp :=
  match n with
  | 0 => .sum | 1 => .min | 2 => .max | 3 => .and | _ => .or

/-- An integer node. -/
def RedOp.int : RedOp → Int → Int → Int
  | .sum, a, b => a + b | .min, a, b => Min.min a b | .max, a, b => Max.max a b
  | .and, a, b => bits64 (· &&& ·) a b | .or, a, b => bits64 (· ||| ·) a b

/-- The identity of an operation in an integer destination (R54). -/
def RedOp.intId (d : Fmt) : RedOp → Int
  | .sum => 0
  | .min => intMax (d.intSigned.getD false) d.width
  | .max => intMin (d.intSigned.getD false) d.width
  | .and => -1
  | .or => 0

/-- An integer root in its destination: AND and OR always wrap (R54, R133). -/
def RedOp.intRoot (md : Modes) (d : Fmt) (o : RedOp) (x : Int) : Nat :=
  match o with
  | .and | .or => wrapInt d.width x
  | _ => reduceInt md.sat (d.intSigned.getD false) d.width x

/-- A floating node: one exact operation and RESULT in the reduction format, the flags gathered (R54). -/
def RedOp.fpNode (md : Modes) (g : FF) (o : RedOp) (a b : Flagged XVal) : Flagged XVal :=
  let x := match o with
    | .sum => addX md.rm a.val b.val
    | .max => minMaxX true a.val b.val
    | _ => minMaxX false a.val b.val
  let r := g.deliver md x
  { val := g.val r.val, flags := (a.flags.or b.flags).or r.flags }

/-- The identity of an operation on floating values. -/
def RedOp.fpId : RedOp → XVal
  | .min => .inf false
  | .max => .inf true
  | _ => .zero false

/-- The elements below n that are active, as leaves. -/
def State.leaves {α : Type} (s : State) (m : Mask) (lo hi : Nat) (f : Nat → α) : List (Option α) :=
  ((List.range hi).drop lo).map fun j => if s.active m j then some (f j) else none

/-- A block of a block-scaled source: its tree over unscaled values in FP32, then its scale (R55). -/
def State.blockRoot (s : State) (md : Modes) (o : RedOp) (m : Mask) (va : VR) (n k : Nat) : Option (Flagged XVal) :=
  let v := s.vreg va
  (tree (o.fpNode md .fp32) (s.leaves m (32 * k) (min n (32 * k + 32)) fun j =>
    ({ val := (s.fmtOf va).elemVal md.daz (v.elem (s.fmtOf va) j) } : Flagged XVal))).map fun root =>
      match e8m0 (v.entry k) with
      | none => { val := .nan false, flags := root.flags }
      | some e =>
        let r := FF.fp32.deliver md (quietNaN root.val (root.val.scale e))
        { val := FF.fp32.val r.val, flags := root.flags.or r.flags }

/-- The floating root over the first n elements (R54, R55). -/
def State.fpRoot (s : State) (md : Modes) (o : RedOp) (m : Mask) (va : VR) (n : Nat) : Option (Flagged XVal) :=
  let v := s.vreg va
  let g := redFormat v.opf
  if v.bs then tree (o.fpNode md g) ((List.range ((n + 31) / 32)).map fun k => s.blockRoot md o m va n k)
  else tree (o.fpNode md g) (s.leaves m 0 n fun j => ({ val := v.src md.daz j } : Flagged XVal))

/-- The result of a reduction of the first n elements in a destination's format (R54, R55). -/
def State.reduce (s : State) (o : RedOp) (m : Mask) (vd va : VR) (n : Nat) : Flagged Nat :=
  let md := s.modes
  match s.fmtOf vd with
  | .fp g =>
    let root := (s.fpRoot md o m va n).getD { val := o.fpId }
    let r := g.deliver md (quietNaN root.val root.val)
    { val := r.val, flags := root.flags.or r.flags }
  | d =>
    { val := o.intRoot md d ((tree o.int (s.leaves m 0 n fun j => (s.vreg va).index j)).getD (o.intId d)) }

/-- The tail of a reduction's destination, elements 1 to VLMAX − 1, follows TP (R133). -/
def State.redTail (s : State) (vlmax : Nat) (d : VR) (v : Vect) : Vect :=
  v.setReg d (settle s.vtype (s.fmtOf d) (fun _ => true) 0 1 vlmax (v.reg d))

/-- The tags a reduction accepts (R133). -/
def State.redOk (s : State) (o : RedOp) (vd va : VR) : Bool :=
  (s.kind va == .int || (s.kind va == .float && o != .and && o != .or)) && s.destKind vd == s.kind va

/-- The effect of a reduction to one element. -/
def doRed (i : Instr) (o : RedOp) (m : Mask) (vd va : VR) (s : State) : M (Unit × State) := do
  let n : Names := { vd := some vd, va := some va }
  let (vlmax, s) ← s.tagChecks n m (s.redOk o vd va) true
  let r := s.reduce o m vd va s.vl
  s.runPlan i { s.wholePlan n [vd] {} r.flags (s.activeFrom m 0) (fun v => s.redTail vlmax vd (v.putElem vd (s.fmtOf vd) 0 r.val)) with
    hurt := fun _ => [0] }

/-- vredsum (R133). -/
def execVredsum (m : VMod) (vd va : VR) (s : State) : Host.Outcome State Fault Refusal :=
  passVector (.vredsum m vd va) 0 0 (doRed (.vredsum m vd va) .sum m.mask vd va) s

/-- vredmin (R133). -/
def execVredmin (m : VMod) (vd va : VR) (s : State) : Host.Outcome State Fault Refusal :=
  passVector (.vredmin m vd va) 0 0 (doRed (.vredmin m vd va) .min m.mask vd va) s

/-- vredmax (R133). -/
def execVredmax (m : VMod) (vd va : VR) (s : State) : Host.Outcome State Fault Refusal :=
  passVector (.vredmax m vd va) 0 0 (doRed (.vredmax m vd va) .max m.mask vd va) s

/-- vredand (R133). -/
def execVredand (m : VMod) (vd va : VR) (s : State) : Host.Outcome State Fault Refusal :=
  passVector (.vredand m vd va) 0 0 (doRed (.vredand m vd va) .and m.mask vd va) s

/-- vredor (R133). -/
def execVredor (m : VMod) (vd va : VR) (s : State) : Host.Outcome State Fault Refusal :=
  passVector (.vredor m vd va) 0 0 (doRed (.vredor m vd va) .or m.mask vd va) s

/-- The effect of VSCAN: element j is the reduction of the elements up to j (R56). -/
def doScan (i : Instr) (o : RedOp) (m : Mask) (vd va : VR) (s : State) : M (Unit × State) := do
  let n : Names := { vd := some vd, va := some va }
  let (vlmax, s) ← s.tagChecks n m (s.redOk o vd va) true
  let rs := (s.activeFrom m 0).map fun j => (j, s.reduce o m vd va (j + 1))
  s.runPlan i { s.wholePlan n [vd] {} (rs.foldl (fun fl r => fl.or r.2.flags) {}) (s.activeFrom m 0) (fun v =>
      s.settleReg m 0 vlmax vd (rs.foldl (fun (v : Vect) (r : Nat × Flagged Nat) => v.putElem vd (s.fmtOf vd) r.1 r.2.val) v)) with
    hurt := fun es => (s.activeFrom m 0).filter fun e => es.any fun x => x ≤ e }

/-- vscan (R135). -/
def execVscan (m : VMod) (vd va : VR) (op : Fin 5) (s : State) : Host.Outcome State Fault Refusal :=
  passVector (.vscan m vd va op) 0 0 (doScan (.vscan m vd va op) (redOpOf op.val) m.mask vd va) s

/-! ### Two-sum trees (R57, R134) -/

/-- A rounding by RNE in the reduction format, FTZ applied, with the flags so far. -/
def rneAdd (g : FF) (ftz : Bool) (x y : XVal) : Flagged XVal :=
  let t := addX .rne x y
  let r := g.rne ftz t.val
  { val := g.val r.val, flags := t.flags.or r.flags }

/-- A node of VREDTS (R57). -/
def tsNode (g : FF) (ftz : Bool) (a b : Flagged (XVal × XVal)) : Flagged (XVal × XVal) :=
  let se := twoSum g ftz false a.val.1 b.val.1
  let sv := g.val se.val.1
  let ev := g.val se.val.2
  let ll := rneAdd g ftz a.val.2 b.val.2
  let t := rneAdd g ftz ll.val ev
  let h := rneAdd g ftz sv t.val
  let fl := ((a.flags.or b.flags).or (se.flags.or ll.flags)).or (t.flags.or h.flags)
  if h.val.isNan || h.val.isInf then { val := (h.val, .zero false), flags := fl }
  else
    let d := rneAdd g ftz h.val sv.negate
    let l := rneAdd g ftz t.val d.val.negate
    { val := (h.val, l.val), flags := fl.or (d.flags.or l.flags) }

/-- The effect of VREDTS: the root pair rounded once each by RNE (R57). -/
def doRedts (i : Instr) (m : Mask) (vd va vb : VR) (s : State) : M (Unit × State) := do
  let vd1 : VR := vd + 1
  let n : Names := { vd := some vd, va := some va, vb := some vb, more := [vd1] }
  let ok := s.kind va == .float && s.kind vb == .float && s.destKind vd == .float && s.destKind vd1 == .float
  let (vlmax, s) ← s.tagChecks n m ok true
  let md := s.modes
  let g := redFormat (s.opfOf va (some vb))
  let root := (tree (tsNode g md.ftz) (s.leaves m 0 s.vl fun j =>
      ({ val := ((s.vreg va).src md.daz j, (s.vreg vb).src md.daz j) } : Flagged (XVal × XVal)))).getD
    { val := (.zero false, .zero false) }
  let fin := fun (d : VR) (x : XVal) => match s.fmtOf d with
    | .fp f =>
      let r := f.roundBy (.mode .rne) md.ftz md.sat x
      ({ val := r.val, flags := r.flags.or (nvIf x.isSnan) } : Flagged Nat)
    | _ => { val := 0 }
  let h := fin vd root.val.1
  let l := fin vd1 root.val.2
  s.runPlan i { s.wholePlan n [vd, vd1] {} (root.flags.or (h.flags.or l.flags)) (s.activeFrom m 0) (fun v =>
      s.redTail vlmax vd1 (s.redTail vlmax vd
        ((v.putElem vd (s.fmtOf vd) 0 h.val).putElem vd1 (s.fmtOf vd1) 0 l.val))) with
    hurt := fun _ => [0] }

/-- vredts (R134). -/
def execVredts (m : VMod) (vd va vb : VR) (s : State) : Host.Outcome State Fault Refusal :=
  passVector (.vredts m vd va vb) 0 0 (doRedts (.vredts m vd va vb) m.mask vd va vb) s

end Sys2Proof.Machine
end

