-- ==== Sys2Proof/Machine/Vperm.lean ====
section
/-! DEFINITION. The VPERM group (R141–R147). -/

namespace Sys2Proof.Machine

/-- The inserted value (R143): all zero, or the scalar converted once into vd's format. -/
def State.inserted (s : State) (vd : VR) (ins : Option SR) (w : Word) : Flagged Nat :=
  match ins with
  | none => { val := 0 }
  | some _ =>
    let v := s.vreg vd
    if v.bs && s.fmtOf vd == .i8 then scalarToScaledI8 s.modes w else scalarTo s.modes v w

/-- The scalar an inserting instruction captures (R232). -/
def State.captureIns (s : State) (ins : Option SR) : Word := (ins.map s.reg).getD 0

/-- A permute's registers and what its tags must be (R142). -/
structure PermShape where
  vd : VR
  va : VR
  vb : Option VR := none
  vc : Option VR := none
  ins : Option SR := none
  slide : Option Nat := none

/-- The names of a permute. -/
def PermShape.names (p : PermShape) : Names := { vd := some p.vd, va := some p.va, vb := p.vb, vc := p.vc }

/-- The tags a permute accepts (R142). -/
def State.permOk (s : State) (p : PermShape) (m : Mask) : Bool :=
  let t := (s.vreg p.vd).tag
  let k := s.kind p.vd
  t == (s.vreg p.va).tag && ((p.vb.map fun r => (s.vreg r).tag == t).getD true) &&
  k != .none && k != .grouped && !(k == .mask && p.ins.isSome) &&
  ((p.vc.map fun r => s.kind r == .int).getD true) &&
  (!(s.vreg p.vd).bs || ((p.slide.map fun o => o % 32 == 0).getD false && m.reg == 0))

/-- The effect of a permute whose element j comes from x j, or is the inserted value (R144). -/
def doPerm (i : Instr) (p : PermShape) (x : State → Nat → Option Nat) (fix : State → VReg → VReg) (m : Mask) (w : Word)
    (s : State) : M (Unit × State) := do
  let (vlmax, s) ← s.tagChecks p.names m (s.permOk p m) true
  let c := s.inserted p.vd p.ins w
  let out := (s.activeFrom m 0).map fun j => (j, (x s j).getD c.val)
  s.runPlan i (s.wholePlan p.names [p.vd] c.flags {} (s.activeFrom m 0) fun v =>
    let v := out.foldl (fun (v : Vect) (e : Nat × Nat) => v.putElem p.vd (s.fmtOf p.vd) e.1 e.2) v
    s.settleReg m 0 vlmax p.vd (v.setReg p.vd (fix s (v.reg p.vd))))

/-- No sidecar entry moves. -/
def keepEntries (_ : State) (x : VReg) : VReg := x

/-- Element j of a register if j lies below VL. -/
def State.sourceAt (s : State) (r : VR) (j : Nat) : Option Nat :=
  if j < s.vl then some ((s.vreg r).elem (s.fmtOf r) j) else none

/-- Sidecar entries that move with the blocks of a slide (R145): entry j from another, or scale 1. -/
def slideEntries (va : VR) (from_ : Nat → Nat → Option Nat) (s : State) (x : VReg) : VReg :=
  if (s.vreg va).bs then
    let n := (s.vl + 31) / 32
    (List.range n).foldl (fun (x : VReg) (j : Nat) =>
      x.setEntry j (match from_ n j with | some k => (s.vreg va).entry k | none => 127)) x
  else x

/-- vslideup (R144, R145). -/
def doSlideup (i : Instr) (m : Mask) (vd va : VR) (off : Nat) (ins : Option SR) (w : Word) (s : State) : M (Unit × State) :=
  doPerm i { vd := vd, va := va, ins := ins, slide := some off }
    (fun s j => if off ≤ j then s.sourceAt va (j - off) else none)
    (slideEntries va fun _ j => if off / 32 ≤ j then some (j - off / 32) else none) m w s

/-- vslidedn (R144, R145). -/
def doSlidedn (i : Instr) (m : Mask) (vd va : VR) (off : Nat) (ins : Option SR) (w : Word) (s : State) : M (Unit × State) :=
  doPerm i { vd := vd, va := va, ins := ins, slide := some off }
    (fun s j => s.sourceAt va (j + off))
    (slideEntries va fun n j => if j + off / 32 < n then some (j + off / 32) else none) m w s

/-- vperm (R144). -/
def doVperm (i : Instr) (m : Mask) (vd va vc : VR) (ins : Option SR) (w : Word) (s : State) : M (Unit × State) :=
  doPerm i { vd := vd, va := va, vc := some vc, ins := ins }
    (fun s j => let k := (s.vreg vc).index j; if k < 0 then none else s.sourceAt va k.toNat) keepEntries m w s

/-- vrev (R144). -/
def doVrev (i : Instr) (m : Mask) (vd va : VR) (s : State) : M (Unit × State) :=
  doPerm i { vd := vd, va := va } (fun s j => s.sourceAt va (s.vl - 1 - j)) keepEntries m 0 s

/-- vzip (R144). -/
def doVzip (i : Instr) (m : Mask) (vd va vb : VR) (s : State) : M (Unit × State) :=
  doPerm i { vd := vd, va := va, vb := some vb }
    (fun s j => s.sourceAt (if j % 2 == 0 then va else vb) (j / 2)) keepEntries m 0 s

/-- vunzipe and vunzipo (R144): the even or the odd positions of va followed by vb. -/
def doVunzip (i : Instr) (odd : Nat) (m : Mask) (vd va vb : VR) (s : State) : M (Unit × State) :=
  doPerm i { vd := vd, va := va, vb := some vb }
    (fun s j => let k := 2 * j + odd; if k < s.vl then s.sourceAt va k else s.sourceAt vb (k - s.vl)) keepEntries m 0 s

/-- vslideup (R144, R145). -/
def execVslideup (m : VMod) (vd va : VR) (off : BitVec 16) (ins : Option SR) (s : State) : Host.Outcome State Fault Refusal :=
  passVector (.vslideup m vd va off ins) (s.captureIns ins) 0
    (doSlideup (.vslideup m vd va off ins) m.mask vd va off.toNat ins (s.captureIns ins)) s

/-- vslidedn (R144, R145). -/
def execVslidedn (m : VMod) (vd va : VR) (off : BitVec 16) (ins : Option SR) (s : State) : Host.Outcome State Fault Refusal :=
  passVector (.vslidedn m vd va off ins) (s.captureIns ins) 0
    (doSlidedn (.vslidedn m vd va off ins) m.mask vd va off.toNat ins (s.captureIns ins)) s

/-- vperm (R144). -/
def execVperm (m : VMod) (vd va vc : VR) (ins : Option SR) (s : State) : Host.Outcome State Fault Refusal :=
  passVector (.vperm m vd va vc ins) (s.captureIns ins) 0
    (doVperm (.vperm m vd va vc ins) m.mask vd va vc ins (s.captureIns ins)) s

/-- vrev (R144). -/
def execVrev (m : VMod) (vd va : VR) (s : State) : Host.Outcome State Fault Refusal :=
  passVector (.vrev m vd va) 0 0 (doVrev (.vrev m vd va) m.mask vd va) s

/-- vzip (R144). -/
def execVzip (m : VMod) (vd va vb : VR) (s : State) : Host.Outcome State Fault Refusal :=
  passVector (.vzip m vd va vb) 0 0 (doVzip (.vzip m vd va vb) m.mask vd va vb) s

/-- vunzipe (R144). -/
def execVunzipe (m : VMod) (vd va vb : VR) (s : State) : Host.Outcome State Fault Refusal :=
  passVector (.vunzipe m vd va vb) 0 0 (doVunzip (.vunzipe m vd va vb) 0 m.mask vd va vb) s

/-- vunzipo (R144). -/
def execVunzipo (m : VMod) (vd va vb : VR) (s : State) : Host.Outcome State Fault Refusal :=
  passVector (.vunzipo m vd va vb) 0 0 (doVunzip (.vunzipo m vd va vb) 1 m.mask vd va vb) s

/-- The effect of VCOMPRESS (R146): MP is ignored, the elements behind the last one taken follow TP, and those from
VL up are never written. -/
def doCompress (i : Instr) (m : Mask) (vd va : VR) (s : State) : M (Unit × State) := do
  let p : PermShape := { vd := vd, va := va }
  let (_, s) ← s.tagChecks p.names m (s.permOk p m) true
  let f := s.fmtOf vd
  let out := (s.activeFrom m 0).map fun j => (s.vreg va).elem f j
  s.runPlan i (s.wholePlan p.names [vd] {} {} (List.range out.length) fun v =>
    let x := ((List.range out.length).zip out).foldl (fun (x : VReg) (e : Nat × Nat) => x.setElem f e.1 e.2) (v.reg vd)
    v.setReg vd (settle s.vtype f (fun _ => true) 0 out.length s.vl x))

/-- The effect of VEXPAND (R146). -/
def doExpand (i : Instr) (m : Mask) (vd va : VR) (s : State) : M (Unit × State) := do
  let p : PermShape := { vd := vd, va := va }
  let (vlmax, s) ← s.tagChecks p.names m (s.permOk p m) true
  let f := s.fmtOf vd
  let act := s.activeFrom m 0
  let out := ((List.range act.length).zip act).map fun e => (e.2, (s.vreg va).elem f e.1)
  s.runPlan i (s.wholePlan p.names [vd] {} {} act fun v =>
    s.settleReg m 0 vlmax vd (out.foldl (fun (v : Vect) (e : Nat × Nat) => v.putElem vd f e.1 e.2) v))

/-- vcompress (R146). -/
def execVcompress (m : VMod) (vd va : VR) (s : State) : Host.Outcome State Fault Refusal :=
  passVector (.vcompress m vd va) 0 0 (doCompress (.vcompress m vd va) m.mask vd va) s

/-- vexpand (R146). -/
def execVexpand (m : VMod) (vd va : VR) (s : State) : Host.Outcome State Fault Refusal :=
  passVector (.vexpand m vd va) 0 0 (doExpand (.vexpand m vd va) m.mask vd va) s

/-- The effect of VINSERT (R147). -/
def doInsert (i : Instr) (vd : VR) (idx : Nat) (w : Word) (s : State) : M (Unit × State) := do
  let n : Names := { vd := some vd }
  let (_, s) ← s.tagChecks n {} (s.numKind vd) false
  if (s.vreg vd).count s.vlen ≤ idx then s.tagStop n {} true false
  else
    let c := scalarTo s.modes (s.vreg vd) w
    s.runPlan i (s.wholePlan n [vd] c.flags {} [idx] fun v => v.putElem vd (s.fmtOf vd) idx c.val)

/-- vinsert (R147). -/
def execVinsert (m : VMod) (vd : VR) (ss : SR) (idx : BitVec 16) (s : State) : Host.Outcome State Fault Refusal :=
  passVector (.vinsert m vd ss idx) (s.reg ss) 0 (doInsert (.vinsert m vd ss idx) vd idx.toNat (s.reg ss)) s

end Sys2Proof.Machine
end

