-- ==== Sys2Proof/Machine/Vcfg.lean ====
section
/-! DEFINITION. The VCFG group (R136–R140) and the RNG group (R212, R213). -/

namespace Sys2Proof.Machine

/-! ### Tags and VTYPE (R136, R137) -/

/-- Sidecar entries a tag uses (R15, R137). -/
def usedEntries (vlen : Nat) (t : Byte) : Nat :=
  match Fmt.ofTag t with
  | some .int4g | some .int3g => vlen / 16
  | _ => vlen / 32

/-- A register's tag written: its data stay, entries the new tag does not use become 0 (R137). The bytes that INT3G ignores keep
what they hold, which no instruction reads under that tag (R14, R36). -/
def VReg.retag (v : VReg) (vlen : Nat) (t : Byte) : VReg :=
  { v with tag := t, side := v.side &&& BitVec.ofNat 2048 (2 ^ (16 * usedEntries vlen t) - 1) }

/-- The registers from vd to va retagged (R137). -/
def Vect.retag (v : Vect) (vd va : VR) (t : Byte) : Vect :=
  { v with v := Vector.ofFn fun (i : Fin 32) =>
      if vd ≤ i && i ≤ va then v.v[i].retag v.vlen t else v.v[i] }

/-- A change of the vector side's configuration: it is no checked instruction (R239). -/
def State.configure (s : State) (f : Vect → Vect) : M (Unit × State) := .ok ((), (s.setVect (f s.r.vect)).setVstart 0)

/-- The effect of VCFGW (R136). -/
def doVcfgw (w : Word) (tags : Option (VR × VR × Byte)) (s : State) : M (Unit × State) :=
  if vtypeLegal w then
    s.configure fun v =>
      let v := { v with vtype := vtypeWrite v.vtype w }
      match tags with
      | some (vd, va, t) => v.retag vd va t
      | none => v
  else stopTrap .illegal w s

/-- vcfgw (R136). -/
def execVcfgw (ss : SR) (s : State) : Host.Outcome State Fault Refusal :=
  passVector (.vcfgw ss) (s.reg ss) 0 (doVcfgw (s.reg ss) none) s

/-- vcfgw with tags (R136). -/
def execVcfgwTag (ss : SR) (vd va : VR) (tag : Byte) (s : State) : Host.Outcome State Fault Refusal :=
  passVector (.vcfgwTag ss vd va tag) (s.reg ss) 0 (doVcfgw (s.reg ss) (some (vd, va, tag))) s

/-- The effect of VTAG (R137). -/
def doVtag (vd va : VR) (t : Byte) (s : State) : M (Unit × State) := s.configure fun v => v.retag vd va t

/-- vtag (R137). -/
def execVtag (vd va : VR) (tag : Byte) (s : State) : Host.Outcome State Fault Refusal :=
  passVector (.vtag vd va tag) 0 0 (doVtag vd va tag) s

/-- The effect of VGETTAG. -/
def doVgettag (i : Instr) (q : QR) (va : VR) (s : State) : M (Unit × State) :=
  s.runPlan i (s.pushPlan { va := some va } [] q ((s.vreg va).tag.setWidth 64))

/-- vgettag (R136). -/
def execVgettag (m : VMod) (q : QR) (va : VR) (s : State) : Host.Outcome State Fault Refusal :=
  passVector (.vgettag m q va) 0 0 (doVgettag (.vgettag m q va) q va) s

/-- The effect of VIDX (R138). -/
def doVidx (i : Instr) (m : Mask) (vd : VR) (start : Nat) (step : Int) (s : State) : M (Unit × State) := do
  let n : Names := { vd := some vd }
  let (vlmax, s) ← s.tagChecks n m (s.numKind vd) true
  let md := s.modes
  s.runPlan i (s.elemPlan n m vlmax vd {} fun j =>
    let x : Int := start + j * step
    match s.fmtOf vd with
    | .fp g => g.result md (.ofInt x)
    | d => intResult md d (some x))

/-- vidx (R138). -/
def execVidx (m : VMod) (vd : VR) (start : BitVec 16) (step : BitVec 10) (s : State) : Host.Outcome State Fault Refusal :=
  passVector (.vidx m vd start step) 0 0 (doVidx (.vidx m vd start step) m.mask vd start.toNat step.toInt) s

/-- The length VSETVL sets (R139). -/
def State.newVl (s : State) (w : Word) (cap : Nat) : Nat :=
  let n := min w.toNat s.vlmaxSew
  if cap = 0 then n else min n cap

/-- The effect of VSETVL, without and with a queue. -/
def doVsetvl (q : Option QR) (w : Word) (cap : Nat) (s : State) : M (Unit × State) :=
  let n := s.newVl w cap
  match q with
  | none => s.configure fun v => { v with vl := n }
  | some q =>
    if s.r.queues[q].length < 16 then
      (s.pushVec q (BitVec.ofNat 64 n)).configure fun v => { v with vl := n }
    else .error (.queue q, s)

/-- vsetvl (R139). -/
def execVsetvl (ss : SR) (cap : BitVec 16) (s : State) : Host.Outcome State Fault Refusal :=
  passVector (.vsetvl ss cap) (s.reg ss) 0 (doVsetvl none (s.reg ss) cap.toNat) s

/-- vsetvl with a queue (R139). -/
def execVsetvlQueue (q : QR) (ss : SR) (cap : BitVec 16) (s : State) : Host.Outcome State Fault Refusal :=
  passVector (.vsetvlQueue q ss cap) (s.reg ss) 0 (doVsetvl (some q) (s.reg ss) cap.toNat) s

/-- A register tagged INT16 or UINT16, which carries sidecar entries (R140). -/
def State.entryReg (s : State) (r : VR) : Bool := (s.vreg r).tag == 0x20 || (s.vreg r).tag == 0x28

/-- The effect of VSCGET (R140). -/
def doVscget (i : Instr) (vd va : VR) (s : State) : M (Unit × State) := do
  let n : Names := { vd := some vd, va := some va }
  let (_, s) ← s.tagChecks n {} (s.entryReg vd && (s.vreg va).fmt.isSome) false
  s.runPlan i (s.wholePlan n [vd] {} {} (List.range (s.vlen / 16)) fun v =>
    (List.range (s.vlen / 16)).foldl (fun (v : Vect) (j : Nat) => v.putElem vd (s.fmtOf vd) j ((s.vreg va).entry j)) v)

/-- vscget (R140). -/
def execVscget (m : VMod) (vd va : VR) (s : State) : Host.Outcome State Fault Refusal :=
  passVector (.vscget m vd va) 0 0 (doVscget (.vscget m vd va) vd va) s

/-- The effect of VSCSET (R140). -/
def doVscset (i : Instr) (vd va : VR) (s : State) : M (Unit × State) := do
  let n : Names := { vd := some vd, va := some va }
  let (_, s) ← s.tagChecks n {} (s.entryReg va && (s.vreg vd).fmt.isSome) false
  let d := s.vreg vd
  let js := List.range (usedEntries s.vlen d.tag)
  s.runPlan i { s.wholePlan n [] {} {} js (fun v =>
    v.setReg vd (js.foldl (fun (x : VReg) (j : Nat) =>
      let e := (s.vreg va).elem (s.fmtOf va) j
      x.setEntry j (if d.bs then e % 256 else e)) { v.reg vd with side := 0 })) with side := some vd }

/-- vscset (R140). -/
def execVscset (m : VMod) (vd va : VR) (s : State) : Host.Outcome State Fault Refusal :=
  passVector (.vscset m vd va) 0 0 (doVscset (.vscset m vd va) vd va) s

/-! ### Random numbers (R212, R213) -/

/-- Block c of the runner's stream as 128 bits (R212). -/
def rngBlock (key : Word) (c : Nat) : Nat :=
  let (w0, w1, w2, w3) := philox key (c % 2 ^ 32) (c / 2 ^ 32) 0 0
  w0 + w1 * 2 ^ 32 + w2 * 2 ^ 64 + w3 * 2 ^ 96

/-- The formats VRNG fills (R212): mask, integers, and floating formats of at least 16 bits. -/
def rngFmt : Fmt → Bool
  | .untagged | .int4g | .int3g | .fp .e4m3 | .fp .e5m2 => false
  | _ => true

/-- An element from its random bits (R212): a floating one lies in [0, 1) with P bits. -/
def rngElem (f : Fmt) (x : Nat) : Nat :=
  match f with
  | .fp g => (g.rne false (.fin false (x >>> (g.width - g.prec)) (-(g.prec : Int)) false)).val
  | _ => x

/-- The effect of VRNG (R212). -/
def doVrng (i : Instr) (m : Mask) (vd : VR) (s : State) : M (Unit × State) := do
  let n : Names := { vd := some vd }
  let f := s.fmtOf vd
  let (vlmax, s) ← s.tagChecks n m (!(s.vreg vd).bs && (s.vreg vd).fmt.isSome && rngFmt f) true
  let blocks := (s.vl * f.width + 127) / 128
  let ctr := s.r.vect.rngctr
  if 2 ^ 64 < ctr.toNat + blocks then stopTrap .rngend ctr s
  else
    let key := s.r.ident.rngkey
    let p := s.elemPlan n m vlmax vd {} fun j =>
      { val := rngElem f (rngBlock key (ctr.toNat + f.width * j / 128) >>> (f.width * j % 128) % 2 ^ f.width) }
    s.runPlan i { p with done := fun v => { p.done v with rngctr := ctr + BitVec.ofNat 64 blocks } }

/-- vrng (R212). -/
def execVrng (m : VMod) (vd : VR) (s : State) : Host.Outcome State Fault Refusal :=
  passVector (.vrng m vd) 0 0 (doVrng (.vrng m vd) m.mask vd) s

/-- The effect of RNGSEED (R213). -/
def doRngseed (i : Instr) (w : Word) (s : State) : M (Unit × State) :=
  s.runPlan i { per := 32, whole := true, items := [], done := fun v => { v with rngctr := w } }

/-- rngseed (R213). -/
def execRngseed (m : VMod) (ss : SR) (s : State) : Host.Outcome State Fault Refusal :=
  passVector (.rngseed m ss) (s.reg ss) 0 (doRngseed (.rngseed m ss) (s.reg ss)) s

end Sys2Proof.Machine
end

