-- ==== Sys2Proof/Machine/Vmem.lean ====
section
/-! DEFINITION. Vector loads, stores and atomics (R148–R157). -/

namespace Sys2Proof.Machine

/-! ### Shapes, addresses and tags (R148, R149) -/

/-- How element i of a vector access is addressed (R148): by unit stride, a byte stride, or an index register. -/
inductive VForm where
  | unit
  | strided (stride : Word)
  | indexed (vi : VR)
  deriving DecidableEq, Repr

/-- Formats of whole bytes, in bytes; none for mask and grouped formats. -/
def Fmt.wholeBytes : Fmt → Option Nat
  | .untagged | .mask | .int4g | .int3g => none
  | f => some (f.width / 8)

/-- The address of element i (R148). -/
def State.elemAddr (s : State) (base : Word) (f : Fmt) (form : VForm) (i : Nat) : Word :=
  match form with
  | .unit => base + BitVec.ofNat 64 (f.width * i / 8)
  | .strided st => base + BitVec.ofNat 64 i * st
  | .indexed vi => base + BitVec.ofInt 64 ((s.vreg vi).index i)

/-- Integer and floating tags of 8 to 64 bits without BS. -/
def VReg.plain (v : VReg) : Bool := v.destKind == .int || v.destKind == .float

/-- Block-scaled and grouped tags, whose scales lie in an array of their own (R149). -/
def VReg.scaled (v : VReg) : Bool := v.bs || v.kind == .grouped

/-- The tags a form accepts, and their conditions (R149); `array` says that sb may name a scale array. DEDUCED (log 97): they hold for
a VSTART inside a block too at which an access that has trapped is executed again (R150): it traps TAG. -/
def State.memOk (s : State) (vd : VR) (form : VForm) (m : Mask) (array : Bool) : Bool :=
  let v := s.vreg vd
  let start := s.beganAt
  match form with
  | .indexed vi => v.plain && s.kind vi == .int
  | .strided _ => v.plain
  | .unit =>
    match v.fmt with
    | none => false
    | some .mask => m.reg == 0 && start % 8 == 0 && s.vl % 8 == 0
    | some .int4g => start % 2 == 0 && s.vl % 2 == 0 && array
    | some .int3g => start % 32 == 0 && s.vl % 32 == 0 && array
    | some _ => if v.bs then m.reg == 0 && start % 32 == 0 && array else v.plain

/-- The names of a vector access (R148: vi is named). -/
def memNames (vd : VR) (form : VForm) : Names :=
  { vd := some vd, more := match form with | .indexed vi => [vi] | _ => [] }

/-- The footprint of an access (R153). -/
def State.footprint (s : State) (f : Fmt) (form : VForm) : Nat :=
  match form with
  | .strided st => s.vl * st.toInt.natAbs
  | _ => s.vl * f.width / 8

/-- Whether an access allocates (R153). -/
def State.allocates (s : State) (h : Hint) (foot : Nat) : Bool :=
  match h with
  | .keep => true
  | .stream => false
  | .threshold => foot ≤ s.r.scal.bypass.toNat

/-! ### Hotness (R302) -/

/-- The module that holds an address of a distributed region (R305), another module's among them. -/
def State.elsewhere (s : State) (va : Nat) : Bool :=
  0x0180000000000000 ≤ va && va < 0x01C0000000000000 &&
  (((s.part? s.rid.part).bind fun p => p.regionAt va).map fun g => (s.ownerOf g va).1.toNat != s.pacer.number).getD false

/-- The partition's page an address lies in, when the page table of this module maps it. -/
def State.pageOf (s : State) (va : Word) : Option (Nat × Nat) :=
  if s.elsewhere va.toNat then none
  else
    let a := s.tableAddr va.toNat
    match walk s.mem s.r.scal.sysr.ptbase a with
    | .leaf _ size => some (a / size * size, size)
    | _ => none

/-- Counts of one page in a core: partition, page, and the three counts (R302). -/
def bumpHot (part page : Nat) (form : VForm) : List (Nat × Nat × Nat × Nat × Nat) → List (Nat × Nat × Nat × Nat × Nat)
  | [] =>
    match form with
    | .unit => [(part, page, 1, 0, 0)]
    | .strided _ => [(part, page, 0, 1, 0)]
    | .indexed _ => [(part, page, 0, 0, 1)]
  | (p, g, u, st, ix) :: t =>
    if p = part ∧ g = page then
      (match form with
       | .unit => (p, g, u + 1, st, ix)
       | .strided _ => (p, g, u, st + 1, ix)
       | .indexed _ => (p, g, u, st, ix + 1)) :: t
    else (p, g, u, st, ix) :: bumpHot part page form t

/-- An active element of a form counted for its page (R302). -/
def State.heatPage (s : State) (va : Word) (form : VForm) : State :=
  match s.pageOf va with
  | none => s
  | some (page, _) => let c := s.myCore; s.setCore { c with hot := bumpHot s.rid.part page form c.hot }

/-! ### One element -/

/-- How the accesses of an instruction go through the caches (R151, R153). -/
def State.viaOf (s : State) (mm : MMod) (foot : Nat) : Via := { scope := mm.scope, alloc := s.allocates mm.hint foot }

/-- An indexed element is translated by itself (R150, R300). -/
def State.nextPage (s : State) (form : VForm) : State :=
  match form with
  | .indexed _ => s.newPages
  | _ => s

/-- Bytes from a to a + n − 1 read one by one. -/
def State.loadBytes (s : State) (v : Via) (a : Word) : Nat → M (List Byte × State)
  | 0 => .ok ([], s)
  | n + 1 => do
    let (b, s) ← s.load .vec v a 1 1
    let (t, s) ← s.loadBytes v (a + 1) n
    .ok (b ++ t, s)

/-! ### Indexed accesses split by home module (R306) -/

/-- The elements of an indexed access that lie in other modules, with module and address there. -/
def State.farElems (s : State) (k : AccKind) (n : Nat) (addr : Nat → Word) (els : List Nat) : List (Nat × Nat × Word) :=
  els.filterMap fun i => match (s.resolve (addr i) n n k).1 with
    | .peer m va => some (i, m, va)
    | _ => none

/-- One packed list for each module: its elements' accesses in increasing element index. -/
def packedLists (far : List (Nat × Nat × Word)) (acc : Nat → Word → OutAccess) : List (Nat × List OutAccess) :=
  (far.map fun x => x.2.1).eraseDups.map fun m => (m, (far.filter fun x => x.2.1 == m).map fun x => acc x.1 x.2.2)

/-- The answer to a packed list as an answer to its n-th access, if the list was performed so far. -/
def listNth (vals : List (List Byte)) (e : ListEnd) (n : Nat) : Option Reply :=
  match vals[n]? with
  | some bs => some (.data bs)
  | none => if n != vals.length then none else match e with
    | .all => none | .page => some .page | .access => some .access | .poisoned => some .poisoned

/-- Whether the elements of an indexed access lie in more than one module. -/
def splits (els : List Nat) (far : List (Nat × Nat × Word)) : Bool :=
  !far.isEmpty && (far.length != els.length || 1 < (far.map fun x => x.2.1).eraseDups.length)

/-- What the list of an element's module has brought for it: its key there, and the answer. -/
abbrev Got := Option (Nat × Reply)

/-- The answers element by element: every module gets its list, and all have answered. -/
def State.askLists (s : State) (far : List (Nat × Nat × Word)) (acc : Nat → Word → OutAccess) : M ((Nat → Got) × State) :=
  let lists := packedLists far acc
  let got (l : Nat × List OutAccess) : Option Reply := (s.r.replies.find? fun x => x.1 == .lists [l]).map (·.2)
  let missing := lists.filter fun l => (got l).isNone
  if !missing.isEmpty then .error (.ask (.lists missing), s)
  else
    let answer (i : Nat) : Got := (far.find? fun x => x.1 == i).bind fun x =>
      (lists.find? fun l => l.1 == x.2.1).bind fun l => (got l).bind fun r => match r with
        | .packed vals e => (listNth vals e ((far.filter fun y => y.2.1 == x.2.1 && y.1 < i).length)).map fun r =>
          ((Loc.peer x.2.1 x.2.2.toNat).key, r)
        | _ => none
    .ok (answer, s)

/-- The elements of an indexed access that this module performs or asks the host for, checked one by one: the first that stops
it, with the stop. -/
def State.nearStop (s : State) (k : AccKind) (n : Nat) (addr : Nat → Word) : List Nat → State × Option (Nat × Stop)
  | [] => (s, none)
  | i :: t => match s.check (addr i) n n k with
    | .error (e, s) => (s, some (i, e))
    | .ok (.found key, s) =>
      if k = .amo && isHostKey key then (s, some (i, .trap .access (addr i)))
      else if k != .store && (poisonMeets s.poison key n).isSome then (s, some (i, .trap .uncorr (addr i)))
      else s.newPages.nearStop k n addr t
    | .ok (_, s) => s.newPages.nearStop k n addr t

/-- The lists of an indexed access whose elements lie in more than one module, asked for and answered (R306); an access within one
module asks for its elements one by one, and other forms have no lists. Where the lists do more than read, the elements held here
are checked first: of the others those below the first that fails are sent, and how their modules keep to the lowest failing
index among them is theirs (log 35). -/
def State.listsFor (s : State) (form : VForm) (k : AccKind) (n : Nat) (addr : Nat → Word) (els : List Nat)
    (acc : Nat → Word → OutAccess) : M ((Nat → Got) × State) :=
  let far := match form with
    | .indexed _ => s.farElems k n addr els
    | _ => []
  if !splits els far then .ok (fun _ => none, s)
  else if k = .load then s.askLists far acc
  else
    let (s, stop) := s.nearStop k n addr (els.filter fun i => !far.any fun x => x.1 == i)
    match stop with
    | some (_, .ask a) => .error (.ask a, s)
    | some (i, _) => s.askLists (far.filter fun x => x.1 < i) acc
    | none => s.askLists far acc

/-- Bytes an element reads: what its module's list has brought, with the side's own stores laid over it, or a load of its own. -/
def State.loadGot (s : State) (v : Via) (got : Got) (a : Word) (n : Nat) : M (List Byte × State) :=
  match got with
  | some (k, r) => do
    let (bs, s) ← replyBytes a n r s
    .ok (s.r.lay .vec k bs, s)
  | none => s.load .vec v a n n

/-- Element i loaded into vd: raw bits (R154). -/
def State.loadElem (s : State) (v : Via) (got : Got) (vd : VR) (base : Word) (form : VForm) (i : Nat) :
    M (Unit × State) := do
  let f := s.fmtOf vd
  let a := s.elemAddr base f form i
  let (x, s) ← match f.wholeBytes with
    | some n => do
      let (bs, s) ← s.loadGot v got a n
      .ok (bytesVal bs, s)
    | none => do
      let lo := f.width * i % 8
      let (bs, s) ← s.loadBytes v a ((lo + f.width + 7) / 8)
      .ok (bytesVal bs >>> lo, s)
  let s := (s.heatPage a form).nextPage form
  .ok ((), s.setVreg vd ((s.vreg vd).setElem f i x))

/-- Scale entry k of a block or group: one byte or two, aligned to its size (R149, R150). -/
def State.entryAddr (s : State) (vd : VR) (array : Word) (k : Nat) : Word × Nat :=
  let n := if (s.vreg vd).bs then 1 else 2
  (array + BitVec.ofNat 64 (n * k), n)

/-- Scale entry k loaded. -/
def State.loadEntry (s : State) (v : Via) (vd : VR) (array : Word) (k : Nat) : M (Unit × State) := do
  let (a, n) := s.entryAddr vd array k
  let (bs, s) ← s.load .vec v a n n
  .ok ((), s.setVreg vd ((s.vreg vd).setEntry k (bytesVal bs)))

/-- How an instruction's vector-side stores go out: whether they allocate (R153), whether the instruction is a release. -/
structure Out where
  alloc : Bool
  rel : Bool

/-- What a store instruction's modifiers give. -/
def State.outOf (s : State) (mm : MMod) (foot : Nat) : Out := { alloc := s.allocates mm.hint foot, rel := releases mm.ord }

/-- A vector-side store of bytes to an address at its checked key. -/
def State.vecAct (s : State) (o : Out) (va : Word) (k : Nat) (bs : List Byte) : StoreAct :=
  { cells := cellsFrom k bs, count := 8 * bs.length, byVec := true, slice := s.pinSlice va, alloc := o.alloc, rel := o.rel }

/-- Scale entry k stored. -/
def State.storeEntry (s : State) (o : Out) (vd : VR) (array : Word) (k : Nat) : M (Unit × State) := do
  let (a, n) := s.entryAddr vd array k
  let (key, s) ← s.checkStore a n n
  .ok ((), s.store (s.vecAct o a key (natToLeBytes n ((s.vreg vd).entry k))))

/-! ### The elements in order (R150, R151) -/

/-- A stop at an element: what lies below stands, VSTART is the element (R150). -/
def stopAt (i : Nat) (r : M (Unit × State)) : M (Unit × State) :=
  match r with
  | .error (e, s) => .error (e, s.setVstart i)
  | ok => ok

/-- The elements in increasing order, each scale entry before its block's first element (R149, R150). An element done
spends the answers it took. -/
def eachElem (entry : Option (Nat → State → M (Unit × State))) (elem : Nat → State → M (Unit × State)) :
    List Nat → Option Nat → State → M (Unit × State)
  | [], _, s => .ok ((), s)
  | i :: t, blk, s => do
    let (_, s) ← match entry with
      | some f => if blk = some (i / 32) then .ok ((), s) else stopAt (i / 32 * 32) (f (i / 32) s)
      | none => .ok ((), s)
    let (_, s) ← stopAt i (elem i s)
    eachElem entry elem t (some (i / 32)) s.spent

/-- The scale array of an access, when its tag has one. -/
def State.scaleArray (s : State) (vd : VR) (sb : SR) (w : Word) : Option Word :=
  if (s.vreg vd).scaled && sb != 0 then some w else none

/-- The active elements an access has still to make: from VSTART, but none before the one it began with. -/
def State.elemsLeft (s : State) (m : Mask) : List Nat := s.activeFrom m (max s.beganAt s.vstart)

/-- The block whose scale entry an access that goes on after a stall has accessed already. -/
def State.blockDone (s : State) (m : Mask) : Option Nat :=
  if s.r.begun.isSome && (s.activeFrom m (max s.beganAt (s.vstart / 32 * 32))).any fun i => i < s.vstart then
    some (s.vstart / 32) else none

/-- Where an access that stalls or pauses began stays noted; one that completes, or stops otherwise, notes nothing (R301). -/
def keepBegun (b : Nat) (r : M (Unit × State)) : M (Unit × State) :=
  match r with
  | .ok (_, s) => .ok ((), (s.setVstart 0).setBegun none)
  | .error (.ask a, s) => .error (.ask a, s.setBegun (some b))
  | .error (.pause, s) => .error (.pause, s.setBegun (some b))
  | e => e

/-- Of the elements an access has still to make, those before the group at which the turn ends, and that group's first element
where others remain (R117, R235). -/
def State.turnElems (s : State) (per : Nat) (els : List Nat) : List Nat × Option Nat :=
  match s.pauseAt per with
  | none => (els, none)
  | some b => (els.filter fun i => i < b, if els.any fun i => b ≤ i then some b else none)

/-- An access that has made all the elements of its turn goes on, or pauses. -/
def pauseOr (p : Option Nat) (r : M (Unit × State)) : M (Unit × State) :=
  match p, r with
  | some b, .ok (_, s) => .error (.pause, s.setVstart b)
  | _, r => r

/-- An acquire puts what it read before every later access of the vector side (R151, R276, R280). -/
def State.acquireVec (s : State) (mm : MMod) : State := if acquires mm.ord then s.acquire .vec mm.scope else s

/-- The effect of VLD, VLDS and VLDX (R154). -/
def doVload (mm : MMod) (vd : VR) (base : Word) (form : VForm) (sb : SR) (w : Word) (s : State) : M (Unit × State) := do
  let n := memNames vd form
  let (vlmax, s) ← s.tagChecks n mm.mask (s.memOk vd form mm.mask (sb != 0)) true
  let v := s.viaOf mm (s.footprint (s.fmtOf vd) form)
  let entry := (s.scaleArray vd sb w).map fun array k (s : State) => s.loadEntry v vd array k
  let b := s.beganAt
  let f := s.fmtOf vd
  keepBegun b (do
    let (els, p) := s.turnElems (s.groupOf n) (s.elemsLeft mm.mask)
    let (got, t) ← s.listsFor form .load (f.width / 8) (s.elemAddr base f form) els fun _ va => .read va (f.width / 8)
    let (_, t) ← pauseOr p (eachElem entry (fun i s => s.loadElem v (got i) vd base form i) els (s.blockDone mm.mask) t)
    .ok ((), (t.setVect (s.settleReg mm.mask b vlmax vd t.r.vect)).acquireVec mm))

/-- vld (R154). -/
def execVld (m : MMod) (vd : VR) (sa sb : SR) (off : BitVec 16) (s : State) : Host.Outcome State Fault Refusal :=
  passVector (.vld m vd sa sb off) (s.reg sa) (s.reg sb) (doVload m vd (s.reg sa + sext off) .unit sb (s.reg sb)) s

/-- vlds (R154). -/
def execVlds (m : MMod) (vd : VR) (sa sb : SR) (off : BitVec 16) (s : State) : Host.Outcome State Fault Refusal :=
  passVector (.vlds m vd sa sb off) (s.reg sa) (s.reg sb)
    (doVload m vd (s.reg sa + sext off) (.strided (s.reg sb)) sb (s.reg sb)) s

/-- vldx (R154). -/
def execVldx (m : MMod) (vd vi : VR) (sa : SR) (off : BitVec 16) (s : State) : Host.Outcome State Fault Refusal :=
  passVector (.vldx m vd vi sa off) (s.reg sa) 0 (doVload m vd (s.reg sa + sext off) (.indexed vi) 0 0) s

/-- Whether a stop only keeps an access waiting: for host memory, a peer, or a page on the move, but for no fault service. -/
def Stop.waitsFor : Stop → Option Ask
  | .ask (.service _) => none
  | .ask a => some a
  | _ => none

/-- The elements of VLDFF after its first: the index of the first failing one, if one fails, or what one waits for; no fault
service (R155). -/
def ffElems (elem : Nat → State → M (Unit × State)) : List Nat → State → Except (Ask × State) (Option Nat × State)
  | [], s => .ok (none, s)
  | i :: t, s =>
    match elem i s with
    | .ok (_, s) => ffElems elem t s
    | .error (e, _) => match e.waitsFor with
      | some a => .error (a, s)
      | none => .ok (some i, s)

/-- The effect of VLDFF (R155). A later element that reads poison fails like any other (log 75). -/
def doVldff (mm : MMod) (vd : VR) (base : Word) (s : State) : M (Unit × State) := do
  let n := memNames vd .unit
  let (vlmax, s) ← s.tagChecks n mm.mask ((s.vreg vd).plain) true
  let v := s.viaOf mm (s.footprint (s.fmtOf vd) .unit)
  let s0 := s
  keepBegun s0.beganAt (match s.activeFrom mm.mask s.vstart with
  | [] => .ok ((), (s.setVect (s.settleReg mm.mask s.beganAt vlmax vd s.r.vect)).acquireVec mm)
  | f :: t => do
    let (_, s) ← stopAt f (s.loadElem v none vd base .unit f)
    match ffElems (fun i s => s.loadElem v none vd base .unit i) t s with
    | .error (a, s) => .error (.ask a, s0.mapR fun r => { r with replies := s.r.replies, pages := s.r.pages })
    | .ok (short, s) =>
      let vl := short.getD s0.vl
      let done := settle s0.vtype (s0.fmtOf vd) (fun i => s0.active mm.mask i) s0.beganAt vl vlmax
      .ok ((), ((s.setVreg vd (done (s.vreg vd))).setVl vl).acquireVec mm))

/-- vldff (R155). -/
def execVldff (m : MMod) (vd : VR) (sa : SR) (off : BitVec 16) (s : State) : Host.Outcome State Fault Refusal :=
  passVector (.vldff m vd sa off) (s.reg sa) 0 (doVldff m vd (s.reg sa + sext off)) s

/-! ### Stores (R156) -/

/-- The key an element is stored at: as its module's list has checked it (R306), or by a check of its own. -/
def State.storeKey (s : State) (got : Got) (a : Word) (n : Nat) : M (Nat × State) :=
  match got with
  | none => s.checkStore a n n
  | some (k, r) => do
    let (_, s) ← replyBytes a 0 r s
    .ok (k, s)

/-- The keys of a 64-byte block that the elements of an instruction before one have written, beside the n at a key (R341): they
lie around it as their addresses lie around its own. -/
def blockCover (addr : Nat → Word) (n : Nat) (els : List Nat) (i : Nat) (k : Nat) : List Nat :=
  let at_ (b : Nat) : Nat := (addr i).toNat / 64 * 64 + b
  (List.range 64).filterMap fun b =>
    if els.any fun j => j < i && (addr j).toNat ≤ at_ b && at_ b < (addr j).toNat + n then some (k + at_ b - (addr i).toNat) else none

/-- Element i of n bytes stored at its key; where its module's list has performed it, only what that does to outstanding tile work
is left. Inside a protected strip a list has only checked it (R152). -/
def State.storeAt (s : State) (o : Out) (got : Got) (vd : VR) (addr : Nat → Word) (els : List Nat) (n i k : Nat) : State :=
  let act := { s.vecAct o (addr i) k (natToLeBytes n ((s.vreg vd).elem (s.fmtOf vd) i)) with
    cover := if s.poison.isEmpty then [] else blockCover addr n els i k }
  if got.isSome && !s.r.strip.prot then s.touchTiles (fun _ => true) (fun _ => true) act.cells else s.store act

/-- Element i stored, of a format of whole bytes; `els` are the elements of its instruction. -/
def State.storeElem (s : State) (o : Out) (got : Got) (vd : VR) (base : Word) (form : VForm) (els : List Nat) (n i : Nat) :
    M (Unit × State) := do
  let addr := s.elemAddr base (s.fmtOf vd) form
  let (k, s) ← s.storeKey got (addr i) n
  .ok ((), ((s.storeAt o got vd addr els n i k).heatPage (addr i) form).nextPage form)

/-- The access of a list that stores element i: inside a protected strip only its check. -/
def State.listWrite (s : State) (vd : VR) (n i : Nat) (va : Word) : OutAccess :=
  .write va (if s.r.strip.prot then [] else natToLeBytes n ((s.vreg vd).elem (s.fmtOf vd) i))

/-- The part of a byte that one element has (R156): element i has bits w·i to w·i + w − 1 of the array, byte b bits 8·b to
8·b + 7. -/
def spanIn (f : Fmt) (b i : Nat) : Nat × Nat := (max (f.width * i) (8 * b), min (f.width * i + f.width) (8 * b + 8))

/-- The active elements with bits in a byte. -/
def byteElems (f : Fmt) (act : List Nat) (b : Nat) : List Nat :=
  act.filter fun i => (spanIn f b i).1 < (spanIn f b i).2

/-- The bits of a byte that active elements have. -/
def byteMask (f : Fmt) (act : List Nat) (b : Nat) : Byte :=
  (byteElems f act b).foldl (fun (x : Byte) i =>
    let (lo, hi) := spanIn f b i
    putBits x (lo - 8 * b) (hi - lo) (2 ^ (hi - lo) - 1)) 0

/-- Those bits. -/
def byteValue (v : VReg) (f : Fmt) (act : List Nat) (b : Nat) : Byte :=
  (byteElems f act b).foldl (fun (x : Byte) i =>
    let (lo, hi) := spanIn f b i
    putBits x (lo - 8 * b) (hi - lo) (v.elem f i >>> (lo - f.width * i))) 0

/-- The bits of a byte that active elements have, counted (R245). -/
def byteBits (f : Fmt) (act : List Nat) (b : Nat) : Nat :=
  ((byteElems f act b).map fun i => (spanIn f b i).2 - (spanIn f b i).1).sum

/-- The bytes of a sub-byte store that hold bits of active elements, each named by its first one. -/
def storeBytes (f : Fmt) (act : List Nat) : List (Nat × Nat) :=
  let first := (act.head?.map fun i => f.width * i / 8).getD 0
  let last := (act.getLast?.map fun i => (f.width * i + f.width + 7) / 8).getD 0
  (List.range (last - first)).filterMap fun b => ((byteElems f act (first + b)).head?).map fun i => (i, first + b)

/-- The bytes of a sub-byte store checked in order: the keys of those before the first that fails, and that one's first element
with the stop. -/
def checkBytes (base : Word) : List (Nat × Nat) → State → List (Nat × Nat) × Option (Nat × Stop) × State
  | [], s => ([], none, s)
  | (i, b) :: t, s =>
    match s.checkStore (base + BitVec.ofNat 64 b) 1 1 with
    | .error (e, s) => ([], some (i, e), s)
    | .ok (k, s) => let (ks, stop, s) := checkBytes base t s; ((b, k) :: ks, stop, s)

/-- The active elements of one group stored: every byte that holds bits of one is written once, with the bits of those whose own
bytes have all passed their checks (R150, R156); its other bits are merged when the store performs. -/
def State.storeGroup (s : State) (o : Out) (vd : VR) (base : Word) (act : List Nat) : M (Unit × State) :=
  let f := s.fmtOf vd
  let (keys, stop, s) := checkBytes base (storeBytes f act) s
  let good := match stop with
    | none => act
    | some (i, _) => act.filter fun j => j < i
  let s := keys.foldl (fun (s : State) (x : Nat × Nat) =>
    let (b, k) := x
    if (byteElems f good b).isEmpty then s
    else s.store { s.vecAct o (base + BitVec.ofNat 64 b) k [byteValue (s.vreg vd) f good b] with
      masks := if byteMask f good b = 0xFF#8 then [] else [(k, byteMask f good b)]
      cover := if s.poison.isEmpty then [] else
        blockCover (fun j => base + BitVec.ofNat 64 j) 1 ((keys.map (·.1)).filter fun j => byteMask f good j = 0xFF#8) b k
      count := byteBits f good b }) s
  let s := good.foldl (fun (s : State) i => s.heatPage (s.elemAddr base f .unit i) .unit) s
  match stop with
  | none => .ok ((), s.spent)
  | some (i, e) => .error (e, (if good.isEmpty then s else s.spent).setVstart i)

/-- The groups in order, each scale entry before its group's first byte (R149, R150). -/
def eachGroup (entry : Option (Nat → State → M (Unit × State))) (group : List Nat → State → M (Unit × State)) (act : List Nat) :
    List Nat → Option Nat → State → M (Unit × State)
  | [], _, s => .ok ((), s)
  | g :: t, blk, s => do
    let (_, s) ← match entry with
      | some f => if blk = some g then .ok ((), s) else stopAt (32 * g) (f g s)
      | none => .ok ((), s)
    let (_, s) ← group (act.filter fun i => i / 32 == g) s
    eachGroup entry group act t blk s

/-- The bits of a vector store in the strip store buffer (R245): its active elements and the scale entries still to come. -/
def State.storeBits (s : State) (vd : VR) (scaled : Bool) (act : List Nat) (blk : Option Nat) : Nat :=
  (s.fmtOf vd).width * act.length +
  if scaled then (if (s.vreg vd).bs then 8 else 16) * ((act.map (· / 32)).eraseDups.filter fun g => some g != blk).length else 0

/-- A release store drains the share before its first write (R283). -/
def State.releaseVec (s : State) (o : Order) : State := if releases o then s.drainShare else s

/-- The effect of VST, VSTS and VSTXO (R156). -/
def doVstore (mm : MMod) (vd : VR) (base : Word) (form : VForm) (sb : SR) (w : Word) (s : State) : M (Unit × State) := do
  let n := memNames vd form
  let (_, s) ← s.tagChecks n mm.mask (s.memOk vd form mm.mask (sb != 0)) true
  let f := s.fmtOf vd
  let o := s.outOf mm (s.footprint f form)
  let entry := (s.scaleArray vd sb w).map fun array k (s : State) => s.storeEntry o vd array k
  let blk := s.blockDone mm.mask
  let all := s.activeFrom mm.mask s.beganAt
  let s := s.fitStrip (s.storeBits vd entry.isSome (s.elemsLeft mm.mask) blk)
  let (act, p) := s.turnElems (s.groupOf n) (s.elemsLeft mm.mask)
  keepBegun s.beganAt (pauseOr p (match f.wholeBytes with
    | some k => do
      let (got, s) ← s.listsFor form .store k (s.elemAddr base f form) act (s.listWrite vd k)
      eachElem entry (fun i s => s.storeElem o (got i) vd base form all k i) act blk (s.releaseVec mm.ord)
    | none => eachGroup entry (fun act s => s.storeGroup o vd base act) act ((act.map (· / 32)).eraseDups) blk (s.releaseVec mm.ord)))

/-- vst (R156). -/
def execVst (m : MMod) (vd : VR) (sa sb : SR) (off : BitVec 16) (s : State) : Host.Outcome State Fault Refusal :=
  passVector (.vst m vd sa sb off) (s.reg sa) (s.reg sb) (doVstore m vd (s.reg sa + sext off) .unit sb (s.reg sb)) s

/-- vsts (R156). -/
def execVsts (m : MMod) (vd : VR) (sa sb : SR) (off : BitVec 16) (s : State) : Host.Outcome State Fault Refusal :=
  passVector (.vsts m vd sa sb off) (s.reg sa) (s.reg sb)
    (doVstore m vd (s.reg sa + sext off) (.strided (s.reg sb)) sb (s.reg sb)) s

/-- vstxo (R156). -/
def execVstxo (m : MMod) (vd vi : VR) (sa : SR) (off : BitVec 16) (s : State) : Host.Outcome State Fault Refusal :=
  passVector (.vstxo m vd vi sa off) (s.reg sa) 0 (doVstore m vd (s.reg sa + sext off) (.indexed vi) 0 0) s

/-- The elements of VSTXU checked in order: those before the first that fails with their keys, and that one with its stop. -/
def checkElems (got : Nat → Got) (addr : Nat → Word) (form : VForm) (n : Nat) :
    List Nat → State → List (Nat × Nat) × Option (Nat × Stop) × State
  | [], s => ([], none, s)
  | i :: t, s =>
    match s.storeKey (got i) (addr i) n with
    | .error (e, s) => ([], some (i, e), s)
    | .ok (k, s) =>
      let (ks, stop, s) := checkElems got addr form n t ((s.heatPage (addr i) form).nextPage form)
      ((i, k) :: ks, stop, s)

/-- Elements in a free order, drawn by number. -/
def shuffled (n : Nat) : List (Nat × Nat) → List (Nat × Nat)
  | [] => []
  | x :: t =>
    let rest := shuffled (n + 1) t
    let at_ := (Config.freeWord n).toNat % (rest.length + 1)
    rest.take at_ ++ x :: rest.drop at_

/-- Whether two of some keys begin elements of n bytes that share a byte. -/
def anyMeet (n : Nat) : List (Nat × Nat) → Bool
  | [] => false
  | x :: t => (t.any fun y => regionsMeet x.2 n y.2 n) || anyMeet n t

/-- The effect of VSTXU (R156): ordered in deterministic mode (R283); else the elements below one that stops perform in an order
of their own, a free choice where they share bytes. -/
def doVstxu (mm : MMod) (vd vi : VR) (base : Word) (s : State) : M (Unit × State) :=
  if detOf s.vtype then doVstore mm vd base (.indexed vi) 0 0 s
  else do
    let form := VForm.indexed vi
    let (_, s) ← s.tagChecks (memNames vd form) mm.mask (s.memOk vd form mm.mask false) true
    let f := s.fmtOf vd
    let n := f.width / 8
    let o := s.outOf mm (s.footprint f form)
    let els := s.activeFrom mm.mask s.vstart
    let addr := s.elemAddr base f form
    let (got, s) ← (s.fitStrip (s.storeBits vd false els none)).listsFor form .store n addr els (s.listWrite vd n)
    let (ks, stop, s) := checkElems got addr form n els (s.releaseVec mm.ord)
    let (ks, s) := if anyMeet n ks then (shuffled s.free ks, { s with free := s.free + ks.length }) else (ks, s)
    let s := ks.foldl (fun (s : State) (x : Nat × Nat) => s.storeAt o (got x.1) vd addr els n x.1 x.2) s
    match stop with
    | none => .ok ((), s.setVstart 0)
    | some (i, e) => .error (e, (if ks.isEmpty then s else s.spent).setVstart i)

/-- vstxu (R156). -/
def execVstxu (m : MMod) (vd vi : VR) (sa : SR) (off : BitVec 16) (s : State) : Host.Outcome State Fault Refusal :=
  passVector (.vstxu m vd vi sa off) (s.reg sa) 0 (doVstxu m vd vi (s.reg sa + sext off)) s

/-! ### Vector atomics (R157) -/

/-- The operation of a vector atomic by its data tag: signed or unsigned comparison. -/
def vamoOp (o : AmoOp) (f : Fmt) : AmoOp :=
  match o, f.intSigned with
  | .min, some false => .minu
  | .max, some false => .maxu
  | o, _ => o

/-- The tags a vector atomic accepts (R157). -/
def vamoOk (o : AmoOp) (v : VReg) : Bool :=
  !v.bs && match o, v.fmt with
  | .fadd, some (.fp .fp32) => true
  | .fadd, _ => false
  | _, some .i32 | _, some .u32 | _, some .i64 | _, some .u64 => true
  | _, _ => false

/-- Element i's action, unless its module's list has performed it. -/
def State.vamoElem (s : State) (op : AmoOp) (mm : MMod) (alloc : Bool) (got : Got) (vd vi : VR) (base : Word) (i : Nat) :
    M (Unit × State) := do
  let f := s.fmtOf vd
  let a := s.elemAddr base f (.indexed vi) i
  let (_, s) ← match got with
    | some (_, r) => do
      let (_, s) ← replyBytes a 0 r s
      .ok ((0, s) : Nat × State)
    | none => do
      let (_, s) ← s.atomic .vec (vamoOp op f) (releases mm.ord) alloc a (f.width / 8) ((s.vreg vd).elem f i) 0
      .ok (0, s)
  .ok ((), (s.heatPage a (.indexed vi)).newPages)

/-- The effect of a vector atomic (R157): it ends protection and drains the share before its first read. -/
def doVamo (op : AmoOp) (mm : MMod) (vd vi : VR) (base : Word) (s : State) : M (Unit × State) := do
  let form := VForm.indexed vi
  let (_, s) ← s.tagChecks (memNames vd form) mm.mask (vamoOk op (s.vreg vd) && s.kind vi == .int) true
  let f := s.fmtOf vd
  let n := f.width / 8
  let alloc := s.allocates mm.hint (s.footprint f form)
  let (els, p) := s.turnElems (s.groupOf (memNames vd form)) (s.activeFrom mm.mask s.vstart)
  let (got, s) ← s.endProt.drainShare.listsFor form .amo n (s.elemAddr base f form) els fun i va =>
    .amo va (vamoOp op f).code n (BitVec.ofNat 64 ((s.vreg vd).elem f i)) 0
  let (_, s) ← pauseOr p (eachElem none (fun i s => s.vamoElem op mm alloc (got i) vd vi base i) els none s)
  .ok ((), (s.acquireVec mm).setVstart 0)

/-- vamoadd (R157). -/
def execVamoadd (m : MMod) (vd vi : VR) (sa : SR) (off : BitVec 16) (s : State) : Host.Outcome State Fault Refusal :=
  passVector (.vamoadd m vd vi sa off) (s.reg sa) 0 (doVamo .add m vd vi (s.reg sa + sext off)) s

/-- vamomin (R157). -/
def execVamomin (m : MMod) (vd vi : VR) (sa : SR) (off : BitVec 16) (s : State) : Host.Outcome State Fault Refusal :=
  passVector (.vamomin m vd vi sa off) (s.reg sa) 0 (doVamo .min m vd vi (s.reg sa + sext off)) s

/-- vamomax (R157). -/
def execVamomax (m : MMod) (vd vi : VR) (sa : SR) (off : BitVec 16) (s : State) : Host.Outcome State Fault Refusal :=
  passVector (.vamomax m vd vi sa off) (s.reg sa) 0 (doVamo .max m vd vi (s.reg sa + sext off)) s

/-- vamofadd (R157, R89). -/
def execVamofadd (m : MMod) (vd vi : VR) (sa : SR) (off : BitVec 16) (s : State) : Host.Outcome State Fault Refusal :=
  passVector (.vamofadd m vd vi sa off) (s.reg sa) 0 (doVamo .fadd m vd vi (s.reg sa + sext off)) s

end Sys2Proof.Machine
end

