-- ==== Sys2Proof/Machine/Unit.lean ====
section
/-! DEFINITION. Matrix units: geometry and grants (R216–R221), the formats of an attach, accumulator images (R182),
outstanding tile stores (R178, R181) and the ends of a share (R171, R183, R184). -/

namespace Sys2Proof.Machine

/-! ### Geometry and grants (R216–R219) -/

/-- What a unit offers for a B format (R216): an octant's extents and the unit's maxima. -/
structure UnitGeom where
  oM : Nat
  oN : Nat
  oK : Nat
  xM : Nat
  xN : Nat
  xK : Nat
  deriving DecidableEq, Repr

/-- The geometry of a unit (R216); with either half retired the columns shrink (R218). -/
def unitGeom (large grouped halfGone : Bool) : UnitGeom :=
  let g : UnitGeom :=
    if large then
      (if grouped then { oM := 32, oN := 64, oK := 16, xM := 64, xN := 128, xK := 32 }
       else { oM := 32, oN := 32, oK := 16, xM := 64, xN := 64, xK := 32 })
    else { oM := 8, oN := 8, oK := 8, xM := 16, xN := 16, xK := 16 }
  if halfGone then { g with xN := g.oN } else g

/-- The largest power of two at most v and at least 8 (R218). -/
def p2 (v : Nat) : Nat := if v < 8 then 8 else 2 ^ v.log2

/-- The largest power of two at most v; 0 for 0. -/
def floorPow2 (v : Nat) : Nat := if v = 0 then 0 else 2 ^ v.log2

/-- A grant: GM, GN, GK and its octants (R218). -/
structure Grant where
  gm : Nat
  gn : Nat
  gk : Nat
  count : Nat
  deriving DecidableEq, Repr

/-- Octants of a shape. -/
def UnitGeom.need (g : UnitGeom) (m n k : Nat) : Nat := (m / g.oM) * (n / g.oN) * (k / g.oK)

/-- The halving loop of R218. -/
def UnitGeom.shrink (g : UnitGeom) (l : Nat) : Nat → Nat → Nat → Nat → Grant
  | 0, m, n, k => { gm := m, gn := n, gk := k, count := g.need m n k }
  | f + 1, m, n, k =>
    if g.need m n k ≤ l then { gm := m, gn := n, gk := k, count := g.need m n k }
    else if g.oK < k then g.shrink l f m n (k / 2)
    else if m / g.oM ≤ n / g.oN && g.oN < n then g.shrink l f m (n / 2) k
    else g.shrink l f (m / 2) n k

/-- The grant algorithm (R218). -/
def UnitGeom.grant (g : UnitGeom) (m n k l : Nat) : Grant :=
  let gm := p2 (min m g.xM)
  let gn := p2 (min n g.xN)
  let gk := p2 (min k g.xK)
  if gm < g.oM || gn < g.oN || gk < g.oK then { gm := min gm g.oM, gn := min gn g.oN, gk := min gk g.oK, count := 1 }
  else g.shrink l 16 gm gn gk

/-! ### Formats (R168, R172) -/

/-- AF of a GFMT word. -/
def afOf (g : Word) : Nat := bitsOf g 0 5

/-- BF of a GFMT word. -/
def bfOf (g : Word) : Nat := bitsOf g 5 5

/-- The modes a GFMT word captured. -/
def gModes (g : Word) : Modes :=
  { rm := rmOf (BitVec.ofNat 64 (bitsOf g 15 3)), ftz := bitOf g 18, daz := bitOf g 19, sat := false }

/-- GFMT.SLICES. -/
def gSlices (g : Word) : Nat := bitsOf g 20 4

/-- INT4G and INT3G codes. -/
def groupedCode (c : Nat) : Bool := c == 0x10 || c == 0x11

/-- The triples of R168. -/
def tripleOk (a b z : Nat) : Bool :=
  (a == 0x0D && b == 0x0D && z == 0x0E) ||
  ([0x0D, 0x0A, 0x0B].contains a && groupedCode b && z == 0x0E) ||
  ([0x0A, 0x0B].contains a && [0x0A, 0x0B].contains b && z == 0x0E) ||
  (a == 0x02 && b == 0x02 && (z == 0x06 || z == 0x0E)) ||
  (a == 0x0F && b == 0x0F && z == 0x0F)

/-- The format of a code. -/
def fmtOfCode (c : Nat) : Fmt := (Fmt.ofTag (BitVec.ofNat 8 (c * 8))).getD .untagged

/-! ### Octants (R217, R219–R221) -/

/-- Octant k of a cluster. -/
def octantId (die cluster k : Nat) : EngineId := { die := die, cluster := cluster, kind := .octant, idx := k }

/-- The cores of a cluster with an attach or one whose octants wake. -/
def State.attached (s : State) (die cluster : Nat) : List Core :=
  s.cores.filter fun c => c.id.die == die && c.id.cluster == cluster && (c.att.isSome || c.pend.isSome)

/-- The octants a core has, or will have. -/
def Core.octants (c : Core) : List Nat :=
  (match c.att with | some a => (List.range 8).filter fun k => a.oct.getLsbD k | none => []) ++
  (match c.pend with | some p => p.octs | none => [])

/-- The free octants of a unit, lowest first (R217): in live halves, asleep or in hold, taken by no core. -/
def State.freeOctants (s : State) (die cluster : Nat) : List Nat :=
  let taken := (s.attached die cluster).flatMap Core.octants
  (List.range 8).filter fun k =>
    !(if k < 4 then (s.cluster die cluster).retired[0] else (s.cluster die cluster).retired[1]) && !taken.contains k &&
    ((s.engine (octantId die cluster k)).st == .sleeping || (s.engine (octantId die cluster k)).st == .hold)

/-- Whether a half of a unit is retired. -/
def Cluster.halfGone (c : Cluster) : Bool := c.retired[0] || c.retired[1]

/-- The fair share of a core of a unit (R219), the asking core counted. -/
def State.fairShare (s : State) (c : CoreId) : Nat :=
  let n := ((s.attached c.die c.cluster).filter fun x => x.id != c).length + 1
  floorPow2 (8 / n)

/-- The octant cap of a partition (R219). -/
def State.octCap (s : State) (part : Nat) : Nat := ((s.part? part).map (·.record.octcap)).getD 8

/-- A runner's target with an allowance (R218, R221): from its TREQ and the formats it captured. -/
def State.targetOf (s : State) (x : Runner) (l : Nat) : Grant :=
  let c := x.ident.core
  let g := unitGeom (isM c.cluster) (groupedCode (bfOf (x.tfmt.setWidth 64))) (s.cluster c.die c.cluster).halfGone
  g.grant (bitsOf x.treq 0 16) (bitsOf x.treq 16 16) (bitsOf x.treq 32 16) l

/-- Whether both halves of a unit are retired: it grants nothing (R222). -/
def Cluster.unitGone (c : Cluster) : Bool := c.retired[0] && c.retired[1]

/-- Whether a unit can grant a saved shape (R225), and the octants it takes there. -/
def State.reGrant (s : State) (part die cluster : Nat) (a : SavedAttach) : Option Grant :=
  let g := unitGeom (isM cluster) (groupedCode (bfOf a.gfmt)) (s.cluster die cluster).halfGone
  let r := g.grant a.gm a.gn a.gk 8
  if (s.cluster die cluster).unitGone then none
  else if r.gm = a.gm ∧ r.gn = a.gn ∧ r.gk = a.gk ∧ r.count ≤ s.octCap part then some r else none

/-- The allowance of a runner's core without regard to free octants (R219, R221). -/
def State.allowance (s : State) (x : Runner) : Nat := min (s.fairShare x.ident.core) (s.octCap x.ident.id.part)

/-- The waiters of a unit in order: effective priority, then arrival (R221). -/
def State.waitersOf (s : State) (c : Cluster) : List AttachWaiter :=
  let ins (x : AttachWaiter) : List AttachWaiter → List AttachWaiter := fun l =>
    l.takeWhile (fun y => s.epri (teamOf x.runner) < s.epri (teamOf y.runner) ||
      (s.epri (teamOf x.runner) = s.epri (teamOf y.runner) && y.arrival ≤ x.arrival)) ++ x ::
    l.dropWhile (fun y => s.epri (teamOf x.runner) < s.epri (teamOf y.runner) ||
      (s.epri (teamOf x.runner) = s.epri (teamOf y.runner) && y.arrival ≤ x.arrival))
  c.attachQ.foldl (fun l x => ins x l) []

/-- The octants a waiter asks for: its target, or the saved shape of a resuming team (R221, R225). -/
def State.waiterCount (s : State) (w : AttachWaiter) : Nat :=
  if w.again then
    (((s.team? (teamOf w.runner)).bind fun t => t.attaches.find? fun a => a.live && a.owner == w.runner).bind
      (s.reGrant w.runner.part w.core.die w.core.cluster)).elim 0 (·.count)
  else ((s.runner? w.runner).map fun x => (s.targetOf x (s.allowance x)).count).getD 0

/-- The octants left for a runner after the waiters ahead of it (R221): the head's target is set aside, and one behind
it that fits is granted first. A runner that is no waiter has all of them ahead. DESIGN CHOICE (log 91): the octants set aside
are the lowest-numbered free ones, of which the rule names only the count. -/
def State.leftFor (s : State) (me : RunnerId) : Bool → List AttachWaiter → List Nat → List Nat
  | _, [], avail => avail
  | head, w :: t, avail =>
    if w.runner == me then avail
    else
      let n := s.waiterCount w
      let fits := n ≤ avail.length && n * octantPower (isM w.core.cluster) ≤ s.ebud w.runner.part
      s.leftFor me false t (if head || fits then avail.drop n else avail)

/-- The octants kept awake for a core's ATTACH that a map-out serves again (R222). -/
def State.keptOctants (s : State) (c : CoreId) : List Nat :=
  (List.range 8).filter fun k => (s.engine (octantId c.die c.cluster k)).st == .hold &&
    (s.engine (octantId c.die c.cluster k)).holder == some (.attach c)

/-- The octants a runner may take now: those left for it, and those kept for it. -/
def State.available (s : State) (x : Runner) : List Nat :=
  let c := x.ident.core
  let kept := s.keptOctants c
  let left := s.leftFor x.ident.id true (s.waitersOf (s.cluster c.die c.cluster))
    ((s.freeOctants c.die c.cluster).filter fun k => !kept.contains k)
  (List.range 8).filter fun k => kept.contains k || left.contains k

/-! ### Stalls on a unit -/

/-- A runner's request leaves its unit: no waiter, no waking octants (R221, R316). -/
def State.leaveUnit (s : State) (r : RunnerId) (c : CoreId) : State :=
  let cl := s.cluster c.die c.cluster
  let s := s.setCluster { cl with attachQ := cl.attachQ.filter fun w => w.runner != r }
  let core := s.core c
  match core.pend with
  | some p =>
    if p.runner == r then
      let s := (s.setCore { core with pend := none }).withdraw c.die (.attach c)
      (p.octs.foldl (fun s k =>
        let e := octantId c.die c.cluster k
        if (s.engine e).st == .held then s.toHold e else s.giveBack e) s).retryUnits c.die
    else s
  | none => s.retryUnits c.die

/-! ### Outstanding tile stores (R178, R180, R181) -/

/-- A tile store's bytes as they land: a byte another write has touched, and every byte of a discarded store, holds an
unpredictable value. -/
def TileOp.landing (o : TileOp) (real : Bool) (n : Nat) : List Host.Cell :=
  o.cells.mapIdx fun i c => if real && !o.taint.contains c.1 then c else (c.1, Config.freeByte (n + i))

/-- Bytes as stores of n bytes each; the last knows all of them as its operation's (R341). -/
def pieces (n : Nat) (all : List Nat) : Nat → List Host.Cell → List StoreAct
  | 0, _ => []
  | f + 1, l =>
    if l.isEmpty then []
    else { cells := l.take n, byVec := true, cover := if l.length ≤ n then all else [] } :: pieces n all f (l.drop n)

/-- The runner that issued a tile store gets its bytes and register elements; bytes of a protected strip go to its strip
store buffer, already counted, element by element (R185). Outstanding tile work has met the store at its issue. -/
def State.landOp (s : State) (o : TileOp) (real : Bool) : State :=
  let cells := o.landing real s.free
  let s := { s with free := s.free + o.cells.length + 1 }
  let s := if cells.isEmpty then s
    else s.withRunner o.runner fun s => s.mapR fun r =>
      { r with share := r.share.map fun a => { a with cells := a.cells.filter fun c => !cells.any fun d => d.1 == c.1 } }
  let s := if cells.isEmpty then s
    else if o.prot && ((s.runner? o.runner).map fun r => r.strip.prot).getD false then
      s.withRunner o.runner fun s => s.mapR fun r =>
        { r with strip := { r.strip with buf := r.strip.buf ++ pieces (max 1 o.unit) (cells.map (·.1)) cells.length cells } }
    else s.reachFor o.runner (fun _ => none) true cells
  let n := s.free
  let s := { s with free := s.free + o.elems.length + 1 }
  if o.elems.isEmpty then s
  else s.withRunner o.runner fun s => s.setVect (((o.elems.zip (List.range o.elems.length)).foldl
    (fun (v : Vect) (x : (VR × Nat × Nat) × Nat) =>
      let (d, i, e) := x.1
      v.putElem d (s.fmtOf d) i (if real && !o.regTaint.contains d && !o.bad.contains x.2 then e
        else (Config.freeWord (n + x.2)).toNat)) s.r.vect).cover
        s.fmtOf (o.elems.map fun x => (x.1, x.2.1)))

/-- The stores of a core's attach that `which` names land, in order, and are outstanding no more. -/
def State.landOps (s : State) (c : CoreId) (which : TileOp → Bool) (real : TileOp → Bool) : State :=
  match (s.core c).att with
  | none => s
  | some a =>
    let s := s.setCore { s.core c with att := some { a with ops := a.ops.filter fun o => !which o } }
    (a.ops.filter which).foldl (fun s o => s.landOp o (real o)) s

/-! ### Images (R182) and the ends of a share (R171, R183, R184) -/

/-- An accumulator's image (R182): header and elements. -/
def Attach.image (a : Attach) (z : ZR) : List Byte :=
  natToLeBytes 8 a.gfmt.toNat ++ natToLeBytes 2 a.gm ++ natToLeBytes 2 a.gn ++ natToLeBytes 2 a.gk ++ natToLeBytes 2 0 ++
  natToLeBytes 8 (a.gm * a.gn * 2 ^ 32 + 0x5A170003) ++ List.replicate 40 0 ++
  a.acc[z].flatMap fun x => natToLeBytes (zBytes a.gfmt) x.toNat

/-- The attach of a core ends: its octants by `next`, its energy charged, what the core then remembers. -/
def State.endAttach (s : State) (c : CoreId) (loss : Option TileLoss) (next : State → EngineId → State) : State :=
  let s := s.chargeAttach c
  match (s.core c).att with
  | none => s
  | some a =>
    let s := s.setCore { s.core c with att := none, loss := loss }
    (((List.range 8).filter fun k => a.oct.getLsbD k).foldl (fun s k => next s (octantId c.die c.cluster k)) s).retryUnits c.die

/-- A share is withdrawn or evicted: stores the unit has finished stand, the others hold unpredictable values (R183). -/
def State.loseShare (s : State) (c : CoreId) (loss : TileLoss) (next : State → EngineId → State) : State :=
  (s.landOps c (fun _ => true) (fun o => o.done)).endAttach c (some loss) next

/-- What a save area offers for an image's bytes (R184): the cells they go to, a page fault service is to map, or none. -/
inductive SaveArea where
  | cells (l : List Host.Cell)
  | service (va : Word)
  | refused
  deriving DecidableEq, Repr

/-- Where bytes go in the running runner's own memory from an address on (R184). -/
def State.saveCells (s : State) (va : Word) : List Byte → SaveArea
  | [] => .cells []
  | b :: t =>
    match (s.resolve va 1 1 .store).1, s.saveCells (va + 1) t with
    | .found k, .cells l => .cells ((k, b) :: l)
    | .found _, r => r
    | .service, .refused | .moving, .refused => .refused
    | .service, _ | .moving, _ => .service va
    | _, _ => .refused

/-- An eviction whose images are not whole: nothing is left of the share, the trap will say 0 (R184, R314). -/
def State.unsaved (s : State) (c : CoreId) : State :=
  let x := s.core c
  (s.setCore { x with saving := none, loss := match x.loss with | some (.evicted _) => some (.evicted 0) | l => l }).retryUnits c.die

/-- The images of an evicted share written once their pages are there (R184); fault service is asked for one page after the
other. -/
def State.finishSave (s : State) (c : CoreId) : State :=
  match (s.core c).saving with
  | none => s
  | some v =>
    match (s.focus v.owner).saveCells v.va v.bytes with
    | .cells l => ((s.agentWrite v.owner.part l).setCore { s.core c with saving := none }).retryUnits c.die
    | .service f =>
      if f = v.asked then s
      else (s.setCore { s.core c with saving := some { v with asked := f } }).send v.owner (.service f)
    | .refused => s.unsaved c

/-- Images still to be written looked at again. -/
def State.finishSaves (s : State) : State :=
  if s.cores.all fun c => c.saving.isNone then s else s.cores.foldl (fun s c => s.finishSave c.id) s

/-- The octant of a share that an orderly eviction takes (R313, R318). -/
def Attach.evictOctant (a : Attach) (c : CoreId) (s : State) (e : EngineId) : State :=
  s.setEngine { id := e, st := .evicting, holder := some (.attach c), ends := s.time + 2000,
                payer := some (a.owner.part, a.owner.heat), pri := a.pri, granted := a.granted }

/-- An eviction of a core's share (R184, R318, R319): an orderly one saves the images of z0 to z3 into the tile save
area of the runner that last executed ATTACH, where fault service may have to map a page first, and becomes an emergency
one when they cannot be written. -/
def State.evictAttach (s : State) (c : CoreId) (orderly : Bool) : State :=
  match (s.core c).att with
  | none => s
  | some a =>
    let bytes := (List.finRange 4).flatMap a.image
    let o := s.focus a.owner
    let va := o.r.ident.ownBase
    match (if orderly then o.saveCells va bytes else .refused) with
    | .cells l => (s.agentWrite a.owner.part l).loseShare c (.evicted va) (a.evictOctant c)
    | .service f =>
      let s := s.loseShare c (.evicted va) (a.evictOctant c)
      (s.setCore { s.core c with saving := some { owner := a.owner, va := va, bytes := bytes, asked := f } }).send a.owner (.service f)
    | .refused => s.loseShare c (.evicted 0) State.sleepEngine

/-- Everything tile operations of a runner hold back ends with its MWAIT (R166, R173, R175, R180, R181). -/
def Attach.settled (a : Attach) (r : RunnerId) : Attach :=
  { a with
    flags := 0
    caps := a.caps.filter fun c => c.runner != r
    tldvs := a.tldvs.filter fun t => t.runner != r
    uses := a.uses.filter fun u => u.runner != r }

end Sys2Proof.Machine
end

