-- ==== Sys2Proof/Machine/Evict.lean ====
section
/-! DEFINITION. Eviction of leases and attaches (R318–R320): what is held, in what order it goes, orderly and at once. -/

namespace Sys2Proof.Machine

/-- A held lease or attach, as R320 orders them, or one whose orderly eviction is not over yet, or the engine, in hold, of one
released in the same cycle (R314). -/
structure Holding where
  what : Holder
  part : Nat
  pri : Nat
  mw : Nat
  granted : Nat
  named : Nat
  evicting : Bool := false
  freed : Option EngineId := none
  deriving DecidableEq, Repr

/-- The held leases of a runner. -/
def State.leaseHoldings (s : State) (x : Runner) : List Holding :=
  (List.finRange 8).filterMap fun i => match x.leases[i] with
    | some l => if l.st == .held then l.engine.map fun e =>
        { what := .lease x.ident.id i, part := x.ident.id.part, pri := l.pri.val, mw := kindPower l.kind
          granted := l.granted, named := (s.engine e).named } else none
    | none => none

/-- The attach of a core as a holding. -/
def Core.holding (c : Core) : Option Holding :=
  c.att.map fun a =>
    { what := .attach c.id, part := a.owner.part, pri := a.pri, mw := octCount a.oct * octantPower a.unitL
      granted := a.granted, named := a.named }

/-- The orderly evictions in progress, with what each still reserves. -/
def State.leaving (s : State) : List Holding :=
  let es := s.engines.filter fun e => e.st == .evicting
  (es.filterMap (·.holder)).eraseDups.filterMap fun h =>
    let l := es.filter fun e => e.holder == some h
    l.head?.map fun e =>
      { what := h, part := (e.payer.map (·.1)).getD 0, pri := e.pri
        mw := (l.map fun e => if e.orderly then enginePower e.id else 0).sum
        granted := e.granted, named := e.named, evicting := true }

/-- Everything held. -/
def State.holdings (s : State) : List Holding :=
  (s.allRunners.flatMap s.leaseHoldings) ++ s.cores.filterMap Core.holding

/-- Whether a holding is evicted before another (R320). -/
def Holding.before (a b : Holding) : Bool :=
  a.pri < b.pri || (a.pri == b.pri && (b.mw < a.mw || (a.mw == b.mw && b.granted ≤ a.granted)))

/-- A holding put in its place. -/
def insertHolding (h : Holding) : List Holding → List Holding
  | [] => [h]
  | x :: t => if h.before x then h :: x :: t else x :: insertHolding h t

/-- Holdings in the order of R320. -/
def inEvictOrder (l : List Holding) : List Holding := l.foldr insertHolding []

/-- The engines a holding keeps awake. -/
def State.enginesOf (s : State) (h : Holder) : List EngineId := (s.engines.filter fun e => e.holder == some h).map (·.id)

/-- A lease of a runner marked lost, its energy charged up to now. -/
def State.markLost (s : State) (r : RunnerId) (slot : Fin 8) (st : LeaseSt) : State :=
  let s := s.chargeRunner r
  match s.runner? r with
  | none => s
  | some x => s.setRunner { x with leases := x.leases.set slot (x.leases[slot].map fun l => { l with st := st, engine := none }) }

/-- The engine of a lease that an orderly eviction takes (R313, R318). -/
def Lease.evictEngine (l : Lease) (r : RunnerId) (slot : Fin 8) (s : State) (e : EngineId) : State :=
  s.setEngine { id := e, st := .evicting, holder := some (.lease r slot), ends := s.time + 2000,
                payer := some (r.part, r.heat), pri := l.pri.val, granted := l.granted }

/-- An orderly eviction begins (R318): a lease is lost at once, its engine EVICTING for at most 20 µs; an attach ends as
R184 gives. `counted` says whether the reservation returns only at the end. -/
def State.evictOrderly (s : State) (h : Holder) (counted : Bool) (handTo : Option Holder) : State :=
  let es := (s.enginesOf h).filter fun e => (s.engine e).st == .held
  let s := match h with
    | .lease r slot =>
      match (s.runner? r).bind fun x => x.leases[slot] with
      | some l => es.foldl (l.evictEngine r slot) (s.markLost r slot .lostOrderly)
      | none => s
    | .attach c => s.evictAttach c true
  es.foldl (fun (s : State) (e : EngineId) =>
    if (s.engine e).st == .evicting then s.setEngine { s.engine e with orderly := counted, handTo := handTo } else s) s

/-- An emergency eviction (R319): the engine sleeps, its reservation returns at once. -/
def State.evictNow (s : State) (h : Holder) : State :=
  match h with
  | .lease r slot => (s.enginesOf h).foldl State.sleepEngine (s.markLost r slot .lostEmergency)
  | .attach c => s.evictAttach c false

/-- An emergency inside an orderly window (R314): the engine stops at once, the lease is lost with state 3, of a share no image
is whole. -/
def State.stopEvicting (s : State) (h : Holder) : State :=
  let s := ((s.enginesOf h).filter fun e => (s.engine e).st == .evicting).foldl State.sleepEngine s
  match h with
  | .lease r slot =>
    match s.runner? r with
    | some x => s.setRunner (x.setLease slot (x.leases[slot].map fun l =>
        if l.st == .lostOrderly then { l with st := .lostEmergency } else l))
    | none => s
  | .attach c => s.unsaved c

/-- An emergency eviction of what is held, or of what is already leaving (R314, R319). -/
def State.emergency (s : State) (h : Holding) : State := if h.evicting then s.stopEvicting h.what else s.evictNow h.what

/-- The first holdings of a list that together free an amount; none when all of them do not. -/
def enoughOf : Nat → List Holding → Option (List Holding)
  | 0, _ => some []
  | _ + 1, [] => none
  | n + 1, h :: t => (enoughOf (n + 1 - h.mw) t).map fun l => h :: l

/-- What holdings reserve together. -/
def powerOf (l : List Holding) : Nat := (l.map (·.mw)).sum

/-- What a partition lacks for a reservation, its evictions in progress counted as done. -/
def State.lacks (s : State) (part mw : Nat) : Nat := s.reserved part + mw - s.budget part - s.evicting part

/-- Where an evicted engine goes when the waiter it is evicted for wants its kind in its cluster (R313). -/
def handOver (s : State) (h : Holder) (c : CoreId) (kind : EngineKind) (dest : Holder) : Option Holder :=
  if (s.enginesOf h).any fun e => e.die == c.die && e.cluster == c.cluster && e.kind == kind then some dest else none

/-- The leases of a partition released in the cycle of an eviction decision, with which RELEASE acts first (R314): of those
released in this tick all or none, a free choice (log 86). -/
def State.justReleased (s : State) (part : Nat) : List Holding × State :=
  let l := s.engines.filterMap fun e =>
    if e.st == .hold && e.ends == s.time + engineHold e.id && (e.payer.map (·.1)) == some part then
      some { what := .lease s.rid 0, part := part, pri := e.pri, mw := enginePower e.id, granted := e.granted
             named := e.named, freed := some e.id }
    else none
  if l.isEmpty then ([], s) else let (b, s) := s.freeBool; (if b then l else [], s)

/-- What an eviction decision takes in orderly fashion: a released lease has left its engine in hold, which goes to sleep, and
none is lost (R314). -/
def State.evictDecided (s : State) (h : Holding) (handTo : Option Holder) : State :=
  match h.freed with
  | some e => s.sleepEngine e
  | none => s.evictOrderly h.what true handTo

/-- A priority eviction for a waiter (R318, R320): of holdings of its partition below its priority, or of none. -/
def State.makeRoom (s : State) (pri mw : Nat) (kind : EngineKind) (dest : Holder) : State :=
  let part := s.rid.part
  let (freed, s) := s.justReleased part
  match enoughOf (s.lacks part (mw + powerOf freed))
      (inEvictOrder ((s.holdings ++ freed).filter fun h => h.part == part && h.pri < pri)) with
  | none => s
  | some l => l.foldl (fun (s : State) (h : Holding) =>
      s.evictDecided h (handOver s h.what s.r.ident.core kind dest)) s

/-- A budget reallocation (R311, R318): a partition's leases evicted until its reservations fit. -/
def State.reallocate (s : State) (part : Nat) : State :=
  let (freed, s) := s.justReleased part
  let l := inEvictOrder ((s.holdings ++ freed).filter fun h => h.part == part)
  ((enoughOf (s.lacks part (powerOf freed)) l).getD l).foldl (fun (s : State) (h : Holding) => s.evictDecided h none) s

/-- Emergency evictions until a partition's reservations fit (R319, R320, R322 step 6): of what reserves nothing any more none. -/
def State.evictOver (s : State) (part : Nat) : State :=
  let l := inEvictOrder ((s.holdings ++ s.leaving).filter fun h => h.part == part && 0 < h.mw)
  ((enoughOf (s.reserved part - s.budget part) l).getD l).foldl State.emergency s

/-- Reservations over a budget are brought within it as soon as what they are for is held (R311, R322). -/
def State.keepBudgets (s : State) : State :=
  s.parts.foldl (fun s p =>
    if s.reserved p.idx ≤ s.budget p.idx then s
    else if 2 ≤ s.pacer.droop.level then s.evictOver p.idx else s.reallocate p.idx) s

end Sys2Proof.Machine
end

