-- ==== Sys2Proof/Machine/Lease.lean ====
section
/-! DEFINITION. The LEASE group (R198–R201). -/

namespace Sys2Proof.Machine

/-- The number of a kind (R198). -/
def kindCode : Kind → Nat
  | .sfe => 0 | .sxe => 1 | .cle => 2

/-- imm32 of a LEASE (R198). -/
def leaseImm (k : Kind) (pri : Fin 8) (wait : Bool) : Word :=
  BitVec.ofNat 64 (kindCode k + 16 * pri.val + if wait then 256 else 0)

/-- A status written, the instruction complete. -/
def State.answerWith (s : State) (sd : SR) (w : Word) : State := (s.setReg sd w).advance

/-- Whether droop level 2 has withdrawn the request the runner stalls on (R322). -/
def Runner.withdrawn (r : Runner) : Bool := r.replies.contains (.wake, .access)

/-- A lease asked for: its reservation fits the pool, its engine joins the queue, the runner stalls on the wake. -/
def State.wakeLease (s : State) (k : Kind) (pri : Fin 8) (e : EngineId) (slot : Fin 8) : State :=
  (s.roomFor [] (kindPower k)).askLease k pri e slot

/-- A lease taken from a hold. -/
def State.holdLease (s : State) (k : Kind) (pri : Fin 8) (e : EngineId) (slot : Fin 8) (sd : SR) : State :=
  (s.roomFor [e] (kindPower k)).grantLease k pri e slot sd

/-- The handle of a lease granted after its wake, of which the runner has been told the slot (R198 step 5, R313). -/
def Runner.told (r : Runner) : Option Word :=
  r.replies.findSome? fun x => match x with
    | (.wake, .data [b]) => some ((r.leases[Fin.ofNat 8 b.toNat].map (·.handle)).getD 0)
    | _ => none

/-- The effect of LEASE without the wait bit. -/
def doLease (sd : SR) (k : Kind) (pri : Fin 8) (s : State) : M (Unit × State) :=
  if s.r.withdrawn then .ok ((), s.answerWith sd (-2))
  else match s.r.told, s.r.wakingSlot with
  | some h, _ => .ok ((), s.answerWith sd h)
  | none, some _ => .error (.ask .wake, s)
  | none, none =>
    match s.tryLease k with
    | .none => .ok ((), s.answerWith sd (-3))
    | .limit => .ok ((), s.answerWith sd (-4))
    | .budget => .ok ((), s.answerWith sd (-2))
    | .busy => .ok ((), s.answerWith sd (-1))
    | .hold e slot => .ok ((), s.holdLease k pri e slot sd)
    | .wake e slot => .error (.ask .wake, s.wakeLease k pri e slot)

/-- lease (R198). -/
def execLease (sd : SR) (kind : Kind) (pri : Fin 8) (s : State) : Host.Outcome State Fault Refusal :=
  outcome (s.afterVector fun s => doLease sd kind pri s.endProt)

/-- The engine a waiting LEASE evicts for (R318). -/
def State.leaseRoom (s : State) (k : Kind) (pri : Fin 8) : State :=
  s.makeRoom pri.val (kindPower k) (.lease k) (.lease s.rid 0)

/-- One look of LEASE with the wait bit. -/
def pollLease (k : Kind) (pri : Fin 8) (w : WaitRec) (s : State) : M (Bool × State) :=
  let late (s : State) := s.deadlineEnd w (-5) (leaseImm k pri true)
  if s.r.withdrawn then .ok (false, s.completed)
  else match s.r.told, s.r.wakingSlot with
  | some h, _ => .ok (true, s.answerWith w.sd h)
  | none, some _ => .error (.ask .wake, s)
  | none, none =>
    match s.tryLease k with
    | .none => .ok (true, s.answerWith w.sd (-3))
    | .limit => .ok (true, s.answerWith w.sd (-4))
    | .budget => late (s.leaseRoom k pri)
    | .busy => late s
    | .hold e slot => .ok (true, s.holdLease k pri e slot w.sd)
    | .wake e slot => .error (.ask .wake, s.wakeLease k pri e slot)

/-- lease.w (R198): the waiting of steps 3 and 4 is scheduler-visible. DESIGN CHOICE (log 98): COND of its wait record holds the kind as
condition and the priority as value. -/
def execLeaseW (sd : SR) (kind : Kind) (pri : Fin 8) (s : State) : Host.Outcome State Fault Refusal :=
  outcome (s.enterWait (fun s =>
    let s := s.endProt
    .ok ({ s.newWait .lease (BitVec.ofNat 64 (kindCode kind)) sd with code := kindCode kind, value := BitVec.ofNat 64 pri.val }, s))
    (pollLease kind pri))

/-- The slot that holds a handle (R202): the one its SLOT field names, if it holds this very handle. -/
def Runner.leaseOf (r : Runner) (h : Word) : Option (Fin 8 × Lease) :=
  let slot : Fin 8 := Fin.ofNat 8 (bitsOf h 0 3)
  match r.leases[slot] with
  | some l => if l.handle == h && l.st != .waking then some (slot, l) else none
  | none => none

/-- release (R199): after every engine instruction that names the handle; a lost handle only empties its slot. -/
def execRelease (sa : SR) (s : State) : Host.Outcome State Fault Refusal :=
  outcome (s.afterVector fun s =>
    let s := s.endProt
    match s.r.leaseOf (s.reg sa) with
    | some (slot, _) => .ok ((), (s.endLease slot).advance)
    | none => stopTrap .leaseAbsent (s.reg sa) s)

/-- STATE of LSTAT (R200). -/
def lstatState : LeaseSt → Nat
  | .waking => 0 | .held => 1 | .lostOrderly => 2 | .lostEmergency => 3 | .lostResume => 4

/-- The LSTAT result (R200 table). -/
def State.lstat (s : State) (h : Word) : Word :=
  match s.r.leaseOf h with
  | none => 0xF0
  | some (_, l) =>
    let inst := match l.st, l.engine with
      | .held, some e => instanceOf l.kind e.cluster e.idx
      | _, _ => 0
    BitVec.ofNat 64 (lstatState l.st + 16 * kindCode l.kind + 256 * l.pri.val + 2 ^ 16 * inst)

/-- lstat (R200): it never traps. -/
def execLstat (sd sa : SR) (s : State) : Host.Outcome State Fault Refusal := .next (s.answerWith sd (s.lstat (s.reg sa)))

/-- equery (R201): EBUD, or ECNT. -/
def execEquery (sd : SR) (ecnt : Bool) (s : State) : Host.Outcome State Fault Refusal :=
  .next (s.answerWith sd (if ecnt then s.ecnt else BitVec.ofNat 64 (s.ebud s.rid.part)))

end Sys2Proof.Machine
end

