-- ==== Sys2Proof/Machine/TileNum.lean ====
section
/-! DEFINITION. The numbers of tile instructions: a depth group's value and its sum into an accumulator (R49, R50, R52),
rows of latches (R172, R174), stored elements (R178). -/

namespace Sys2Proof.Machine

/-! ### A depth group (R49, R52) -/

/-- The group sum of floating products: cut at 51 bits below the largest, then exact (R49 steps 2 and 3). -/
def cutSum (rm : RM) (ps : List XVal) : XVal :=
  match (ps.filterMap fun p => if p.isZero then none else some p.lead).max? with
  | none => .zero (ps.all XVal.neg)
  | some top =>
    let cut := top - 51
    let sum := (ps.map fun p => (truncX cut p).atExp cut).sum
    if sum == 0 then .zero (rm == .rdn) else .fin (sum < 0) sum.natAbs cut false

/-- The slices of one side of a group with the exponent of its ρ (R52); none when all its elements are zero. -/
def slicesOfGroup (s : Nat) (xs : List XVal) : Option (Int × List (List Int)) :=
  match (xs.filterMap fun x => if x.isZero then none else some x.lead).max? with
  | none => none
  | some top =>
    let e := top + 1
    let n (x : XVal) : Nat := (((truncX 0 (x.abs.scale (8 * s - e))).atExp 0).natAbs)
    some (e, xs.map fun x => (List.range s).map fun t =>
      let v : Int := (n x / 2 ^ (8 * (s - 1 - t)) % 256 : Nat)
      if x.neg then -v else v)

/-- Slice t of element k. -/
def sliceAt (l : List (List Int)) (k t : Nat) : Int := ((l[k]?).bind fun r => r[t]?).getD 0

/-- The exact sum of one level's slice products (R52). -/
def sliceLevel (a b : List (List Int)) (lev : Nat) : Int :=
  ((List.range a.length).map fun k => ((List.range (lev + 1)).map fun t => sliceAt a k t * sliceAt b k (lev - t)).sum).sum

/-- The group value of FP64 by slices (R52). -/
def sliceSum (rm : RM) (s : Nat) (pa pb ps : List XVal) : XVal :=
  match slicesOfGroup s pa, slicesOfGroup s pb with
  | some (ea, a), some (eb, b) =>
    let sum := ((List.range s).map fun lev => sliceLevel a b lev * 2 ^ (8 * (s - 1 - lev))).sum
    if sum == 0 then .zero (if ps.all XVal.isZero then ps.all XVal.neg else rm == .rdn)
    else .fin (sum < 0) sum.natAbs (ea + eb - 8 * (s + 1)) false
  | _, _ => .zero (ps.all XVal.neg)

/-- A group's value (R49 steps 1 to 4), and whether it is one of step 1's special cases. `grouped` says that fb is a BF16
group scale; `slices` is the slice count of FP64. -/
def groupValue (rm : RM) (slices : Option Nat) (grouped : Bool) (pa pb : List XVal) (fa fb : XVal) :
    Flagged XVal × Bool :=
  if fa.isNan || fb.isNan then ({ val := .nan false }, true)
  else if grouped && fb.isZero && pa.any XVal.isInf then ({ val := .nan false, flags := flagNV }, true)
  else
    let rs := pa.zipWith mulX pb
    let ps := rs.map fun r => r.val
    let fl := rs.foldl (fun (f : Flags) (r : Flagged XVal) => f.or r.flags) {}
    let up := ps.any fun p => p.isInf && !p.neg
    let down := ps.any fun p => p.isInf && p.neg
    if ps.any XVal.isNan || (up && down) then ({ val := .nan false, flags := fl.or (nvIf (up && down)) }, true)
    else if up || down then ({ val := .inf (down != (grouped && fb.neg)), flags := fl }, true)
    else
      let sum := match slices with
        | some s => sliceSum rm s pa pb ps
        | none => cutSum rm ps
      ({ val := (mulX (mulX sum fa).val fb).val, flags := fl }, false)

/-- One group added to an accumulator element of a floating format (R49 steps 5 and 6). -/
def stepFloat (z : FF) (md : Modes) (v : Flagged XVal × Bool) (acc : Nat) : Flagged Nat :=
  let r : Flagged Nat := if v.2 then { val := 0 } else z.roundBy (.mode md.rm) md.ftz false v.1.val
  let x := addX md.rm (z.val acc) (if v.2 then v.1.val else z.val r.val)
  let o := z.roundBy (.mode md.rm) md.ftz false x.val
  { val := o.val, flags := ((v.1.flags.or r.flags).or x.flags).or o.flags }

/-- One group added to an INT32 accumulator element (R50). -/
def stepInt (sat : Bool) (pa pb : List Nat) (acc : Nat) : Nat :=
  reduceInt sat true 32 (intVal true 32 acc + ((pa.zipWith (fun a b => intVal true 8 a * intVal true 8 b) pb).sum))

/-! ### Rows of latches -/

/-- The scale of a row as an exact value: BF16 for grouped weights, E8M0 otherwise (R172). -/
def LatchRow.factor (r : LatchRow) (grouped : Bool) : XVal :=
  if grouped then FF.bf16.val r.scale.toNat
  else match e8m0 r.scale.toNat with
  | some k => .fin false 1 k false
  | none => .nan false

/-- Depth group g of a row. -/
def LatchRow.group (r : LatchRow) (g : Nat) : List Nat := ((r.elems.drop (8 * g)).take 8).map BitVec.toNat

/-- The result of one group for an accumulator element (R176). -/
def mmaGroup (gf : Word) (sat : Bool) (ra rb : LatchRow) (acc : Nat) (g : Nat) : Flagged Nat :=
  if zfOf gf == 0x06 then { val := stepInt sat (ra.group g) (rb.group g) acc }
  else
    let md := gModes gf
    let fp64 := zfOf gf == 0x0F
    let grouped := groupedCode (bfOf gf)
    let val (c : Nat) (b : Nat) : XVal := (fmtOfCode c).elemVal md.daz b
    stepFloat (if fp64 then .fp64 else .fp32) md
      (groupValue md.rm (if fp64 then some (gSlices gf) else none) grouped ((ra.group g).map (val (afOf gf)))
        ((rb.group g).map (val (bfOf gf))) (ra.factor false) (rb.factor grouped)) acc

/-- An accumulator element after a TMMA: its groups in increasing depth (R176). -/
def mmaElem (gf : Word) (sat : Bool) (gk : Nat) (ra rb : LatchRow) (acc : Nat) : Flagged Nat :=
  (List.range (gk / 8)).foldl (fun (x : Flagged Nat) (g : Nat) =>
    let y := mmaGroup gf sat ra rb x.val g
    { val := y.val, flags := x.flags.or y.flags }) { val := acc }

/-- A whole accumulator after a TMMA, row by row, with the flags of all its elements (R176, R179). -/
def mmaAll (gf : Word) (sat : Bool) (gk gn : Nat) (a b : List LatchRow) (acc : List (BitVec 64)) :
    Flagged (List (BitVec 64)) :=
  let rs := acc.mapIdx fun k x =>
    mmaElem gf sat gk ((a[k / gn]?).getD {}) ((b[k % gn]?).getD {}) x.toNat
  { val := rs.map fun r => BitVec.ofNat 64 r.val
    flags := rs.foldl (fun (f : Flags) (r : Flagged Nat) => f.or r.flags) {} }

/-- Whether a load of a code may carry scales with an accumulator code (R172). -/
def scalable (code z : Nat) : Bool := groupedCode code || ([0x02, 0x0A, 0x0B].contains code && z != 0x06)

/-- The format code a latch takes (R172). -/
def latchCode (gf : Word) (l : Fin 4) : Nat := if l < 2 then afOf gf else bfOf gf

/-- The number of a latch. -/
def latchIdx : Latch → Fin 4
  | .la0 => 0 | .la1 => 1 | .lb0 => 2 | .lb1 => 3

/-- Rows of a latch under a grant (R172). -/
def Attach.rows (a : Attach) (l : Fin 4) : Nat := if l < 2 then a.gm else a.gn

/-- The register stride between rows of a TLDV (R174). -/
def rowStride (code gk : Nat) (bs : Bool) : Nat := if bs || groupedCode code then 32 else gk

/-- The register that supplies a place of a TLDV's concatenation, from the one named. -/
def regAt (vi : VR) (e p : Nat) : VR := vi + Fin.ofNat 32 (p / e)

/-- The rows a TLDV takes from registers (R174). -/
def tldvRows (v : Vect) (code gk rows : Nat) (bs : Bool) (vi : VR) : List LatchRow :=
  let f := fmtOfCode code
  let e := f.count v.vlen
  let rs := rowStride code gk bs
  (List.range rows).map fun r =>
    let entry := (v.reg (regAt vi e (r * rs))).entry (r * rs % e / 32)
    { elems := (List.range gk).map fun k =>
        BitVec.ofNat 64 ((v.reg (regAt vi e (r * rs + k))).elem f ((r * rs + k) % e))
      scale := if groupedCode code then BitVec.ofNat 16 entry else if bs then BitVec.ofNat 16 (entry % 256) else 127 }

/-- Rows a TLDV took whose registers a set names hold free values (R175), numbered from n. -/
def spoilRows (written : BitVec 32) (n vlen code gk : Nat) (bs : Bool) (vi : VR) (rows : List LatchRow) : List LatchRow :=
  let e := (fmtOfCode code).count vlen
  let rs := rowStride code gk bs
  let hit (p : Nat) : Bool := written.getLsbD (regAt vi e p).val
  rows.mapIdx fun r row =>
    { elems := row.elems.mapIdx fun k x => if hit (r * rs + k) then
        BitVec.ofNat 64 ((Config.freeWord (n + r * 33 + k)).toNat % 2 ^ (fmtOfCode code).width) else x
      scale := if (bs || groupedCode code) && hit (r * rs) then (Config.freeWord (n + r * 33 + 32)).setWidth 16
        else row.scale }

/-- Rows a TLDV took, those elements and scales whose register `sel` names taken from other rows (R175). -/
def mixRows (sel : VR → Bool) (vlen code gk : Nat) (bs : Bool) (vi : VR) (old new : List LatchRow) : List LatchRow :=
  let e := (fmtOfCode code).count vlen
  let rs := rowStride code gk bs
  (old.zip new).mapIdx fun r x =>
    { elems := (x.1.elems.zip x.2.elems).mapIdx fun k y => if sel (regAt vi e (r * rs + k)) then y.2 else y.1
      scale := if sel (regAt vi e (r * rs)) then x.2.scale else x.1.scale }

/-- A row of a latch from its bytes in memory (R172). -/
def memRow (code gk : Nat) (bs : List Byte) (scale : BitVec 16) : LatchRow :=
  let w := (fmtOfCode code).width
  { elems := (List.range gk).map fun k => BitVec.ofNat 64 (bytesVal bs / 2 ^ (w * k) % 2 ^ w), scale := scale }

/-- Bytes of a row (R172). -/
def rowBytes (code gk : Nat) : Nat := ((fmtOfCode code).width * gk + 7) / 8

/-! ### Stored elements (R178) -/

/-- The accumulator format. -/
def zFmt (gf : Word) : Fmt := fmtOfCode (zfOf gf)

/-- The output format of a TST. -/
def outFmt (gf : Word) : OutFmt → Fmt
  | .acc => zFmt gf | .bf16 => .fp .bf16 | .fp16 => .fp .fp16 | .fp32 => .fp .fp32

/-- The output formats an accumulator offers (R178 table). -/
def outAllowed (z out : Fmt) : Bool :=
  match z with
  | .fp .fp32 => out == .fp .fp32 || out == .fp .bf16 || out == .fp .fp16
  | .fp .fp64 => out == .fp .fp64 || out == .fp .fp32
  | _ => out == z

/-- Element (i, j) as a store forms it (R178): copied in its own format, else rounded under the captured modes, or
stochastically with the bits of R43; a signalling NaN converted raises NV (R32). -/
def storeElemVal (gf : Word) (seed : Word) (sr : Option (Word × Nat)) (out : Fmt) (i j e : Nat) : Flagged Nat :=
  if out == zFmt gf then { val := e }
  else match zFmt gf, out with
  | .fp f, .fp o =>
    let how := match sr with
      | some (w, d) => How.srnd (tileRandom seed (bitsOf w 0 32 + i) (bitsOf w 32 32 + j) d)
      | none => How.mode (gModes gf).rm
    let r := o.roundBy how (gModes gf).ftz false (f.val e)
    { val := r.val, flags := r.flags.or (nvIf (f.val e).isSnan) }
  | _, _ => { val := e }

/-- All elements of an accumulator as a store forms them, row by row. -/
def storeVals (gf : Word) (gn : Nat) (seed : Word) (sr : Option (Word × Nat)) (out : Fmt) (acc : List (BitVec 64)) :
    Flagged (List Nat) :=
  let rs := acc.mapIdx fun k x => storeElemVal gf seed sr out (k / gn) (k % gn) x.toNat
  { val := rs.map fun r => r.val
    flags := rs.foldl (fun (f : Flags) (r : Flagged Nat) => f.or r.flags) {} }

end Sys2Proof.Machine
end

