-- ==== Sys2Proof/Machine/Tile.lean ====
section
/-! DEFINITION. Tile instructions but ATTACH (R165–R185): the checks at issue, latch loads, TMMA and TZERO, stores, images,
MFENCE, MWAIT, DETACH, and what a wrong residue or poison does (R340, R341). -/

namespace Sys2Proof.Machine

/-! ### The share of the running runner's core -/

/-- The attach of the running runner's core written. -/
def State.setAttach (s : State) (a : Attach) : State := s.setCore { s.myCore with att := some a }

/-- What the core remembers of a lost or failed share written. -/
def State.setLoss (s : State) (l : Option TileLoss) : State := s.setCore { s.myCore with loss := l }

/-- Elements of a width replaced by free values. -/
def freeList (n w : Nat) (l : List (BitVec 64)) : List (BitVec 64) :=
  l.mapIdx fun i _ => BitVec.ofNat 64 ((Config.freeWord (n + i)).toNat % 2 ^ w)

/-- An accumulator (0 to 3) or a latch (4 to 7) holds free values; a later MFENCE takes nothing for that latch anew. -/
def Attach.freeObject (a : Attach) (n o : Nat) : Attach :=
  if o < 4 then
    let z : Fin 4 := Fin.ofNat 4 o
    { a with acc := a.acc.set z (freeList n (8 * zBytes a.gfmt) a.acc[z]) }
  else
    let l : Fin 4 := Fin.ofNat 4 (o - 4)
    let w := (fmtOfCode (latchCode a.gfmt l)).width
    { a with
      latches := a.latches.set l (a.latches[l].mapIdx fun r row =>
        { elems := freeList (n + 33 * r) w row.elems, scale := (Config.freeWord (n + 33 * r + 32)).setWidth 16 })
      tldvs := a.tldvs.map fun t => if latchIdx t.latch = l then { t with live := false } else t }

/-- Objects of the running runner's attach made free values. -/
def State.freeObjects (s : State) (os : List Nat) : State :=
  os.foldl (fun (s : State) (o : Nat) => match s.myCore.att with
    | some a => { s.setAttach (a.freeObject s.free o) with free := s.free + 8192 }
    | none => s) s

/-- Checks 1 to 3 of R165 with what R340 and R341 add; each failure waits for earlier vector instructions. -/
def State.tileReady (s : State) : M (Attach × State) :=
  let c := s.myCore
  let prot := s.r.strip.prot
  let mine (r : RunnerId) : Bool := r == s.rid
  let go : M (Attach × State) := match c.att with
    | some a => let a := { a with named := s.time }; .ok (a, s.setAttach a)
    | none => stopTrap .nogrant 0 s
  match c.loss with
  | some .mapOut =>
    if !s.r.vq.isEmpty then .error (.queue 0, s)
    else if prot then .error (.rewind 2, s.setLoss none) else stopTrap .grantLost 0 s
  | some (.evicted va) => if c.saving.isSome then .error (.ask .unit, s) else stopTrap .leaseLost va s
  | some (.residue r v) =>
    if !mine r then go
    else if !s.r.vq.isEmpty then .error (.queue 0, s)
    else if prot then .error (.rewind 2, s.setLoss none)
    else stopTrap .silent v ((s.setLoss none).freeObjects [0, 1, 2, 3])
  | some (.poisoned r v) =>
    if !mine r then go
    else if !s.r.vq.isEmpty then .error (.queue 0, s)
    else if prot && !s.r.strip.uncorrSeen then
      .error (.rewind 1, (s.setLoss none).mapR fun r => { r with strip := { r.strip with uncorrSeen := true } })
    else stopTrap .uncorr v ((s.setLoss none).freeObjects [0, 1, 2, 3])
  | none => go

/-- Instructions that change tags or modes in the vector queue, for which a tile operation waits (R165). -/
def isConfig : Instr → Bool
  | .vcfgw .. | .vcfgwTag .. | .vtag .. | .vsetvl .. | .vsetvlQueue .. => true
  | _ => false

/-- The tile operations (R165). -/
def isTileOp : Instr → Bool
  | .tlda .. | .tldb .. | .tldax .. | .tldv .. | .tmma .. | .tzero .. | .tst .. | .tstv .. | .tsave .. | .trestore .. => true
  | _ => false

/-- A tile operation passed (R165): its waits, its checks, then its effect, at once or behind earlier vector
instructions. -/
def passTile (i : Instr) (waits : Instr → Bool) (checks : Attach → State → M (Unit × State)) (body : State → State)
    (s : State) : Host.Outcome State Fault Refusal :=
  outcome (
    if s.r.vq.any fun x => match x with | .vec j _ _ _ => isConfig j || waits j | _ => false then .error (.queue 0, s)
    else do
      let (a, s) ← s.tileReady
      let (_, s) ← checks a s
      if s.r.vq.isEmpty then .ok ((), (body s).advance)
      else if vecCount s.r.vq < 32 then .ok ((), (s.enqueue i 0 0).advance)
      else .error (.queue 0, s))

/-- No further wait. -/
def noWaits (_ : Instr) : Bool := false

/-- Stop with TAG, naming a register or none. -/
def tileTag {α : Type} (vi : Option VR) (s : State) : M (α × State) := s.tagStop { more := vi.toList } {} false false

/-- What the operations of other runners outstanding on some objects come to when the running runner reads or writes those
(R166). -/
def State.spreadObjects (s : State) (os : List Nat) : State :=
  let others (a : Attach) (o : Nat) : List RunnerId :=
    ((a.uses.filter fun u => u.runner != s.rid && u.act.objects.contains o).map (·.runner)).eraseDups
  os.foldl (fun (s : State) (o : Nat) => match s.myCore.att with
    | some a => (others a o).foldl (fun (s : State) (r : RunnerId) => match s.myCore.att with
      | some a => { s.setAttach (a.spreadObject s.free r o) with free := s.free + 40000 }
      | none => s) s
    | none => s) s

/-- The effect of a tile operation on the attach, objects of other runners' outstanding operations becoming free
before and after, and what those have computed from them (R166); nothing when the share has been lost or the attach has failed
(R183, R340). The operation is outstanding from now on, the last of the attach. -/
def State.tileDo (s : State) (act : TileAct) (f : Attach → State → State) : State :=
  match s.myCore.att with
  | none => s
  | some a =>
    if s.myCore.loss.isSome then s
    else
      let clash := act.objects.filter fun o => a.uses.any fun u => u.runner != s.rid && u.act.objects.contains o
      let s := (s.spreadObjects clash).freeObjects clash
      let s := match s.myCore.att with
        | some a =>
          let use : TileUse := { runner := s.rid, num := a.count + 1, act := act }
          let a := { a with uses := a.uses ++ [use], count := a.count + 1 }
          f a (s.setAttach a)
        | none => s
      s.freeObjects clash

/-- Flags the last operation has raised (R179). -/
def Attach.raise (a : Attach) (f : BitVec 5) : Attach :=
  { a with flags := a.flags ||| f, uses := a.uses.map fun u => if u.num = a.count then { u with flags := some f } else u }

/-! ### Addresses of tile operations -/

/-- The checks of R82 for n bytes that must lie in the scratchpad or TCM window (R165, R173): elsewhere an address that no
page maps traps PAGE, any other ACCESS. -/
def State.tileKey (s : State) (va : Word) (n al : Nat) (k : AccKind) : M (Nat × State) := do
  let (a, s) ← s.check va n al k
  match a with
  | .found key => if isScratchKey key || isTcmKey key then .ok (key, s) else stopTrap .access va s
  | _ => stopTrap .access va s

/-- One row's place: its address, its key and its scale entry's key. -/
structure RowAt where
  va : Word
  key : Nat
  entry : Option Nat
  deriving DecidableEq, Repr

/-- The rows of a tile access checked in order: n bytes each, aligned to al, and a scale entry of es bytes at soff
where es is not 0 (R173). -/
def State.rowKeys (s : State) (k : AccKind) (n al es : Nat) (soff : Word) : List Word → M (List RowAt × State)
  | [] => .ok ([], s)
  | va :: t => do
    let (key, s) ← s.tileKey va n al k
    let (e, s) ← if es = 0 then (.ok (none, s) : M (Option Nat × State)) else do
      let (e, s) ← s.tileKey (va + soff) es es .load
      .ok (some e, s)
    let (l, s) ← s.rowKeys k n al es soff t
    .ok ({ va := va, key := key, entry := e } :: l, s)

/-- The places found by checks that have passed. -/
def placesOf {α : Type} (r : M (List α × State)) : List α :=
  match r with
  | .ok (l, _) => l
  | .error _ => []

/-- Bytes with what outstanding tile stores do to them: the own runner's, all earlier in program order, have written theirs
(R165); those of others, and spoiled ones, are free values (R181). -/
def State.layTiles (s : State) (k : Nat) (bs : List Byte) : List Byte × State :=
  let ops := s.cores.flatMap fun c => match c.att with | some a => a.ops | none => []
  let mine := ops.filter fun o => o.runner == s.rid
  let others := (ops.filter fun o => o.runner != s.rid).flatMap fun o => o.cells.map (·.1)
  let bs := mine.foldl (fun (bs : List Byte) (o : TileOp) =>
    bs.mapIdx fun i b => if o.taint.contains (k + i) then Config.freeByte (s.free + i) else overlay o.cells (k + i) b) bs
  let read := bs.mapIdx fun i b => if others.contains (k + i) then Config.freeByte (s.free + i) else b
  (read, { s with free := s.free + bs.length })

/-- Bytes a latch load reads (R173): memory with every earlier store of its runner, those in the strip store buffer too, but none
that has not left the share (R283); what it meets of other runners' stores has performed. -/
def State.tileBytes (s : State) (k n : Nat) : List Byte × State :=
  (s.exposeOthers (inKeys k n)).layTiles k (overlayActs s.r.strip.buf k (bytesAt s.mem k n))

/-- Bytes TRESTORE reads at a place: as an observer of its runner sees them, not ordered after earlier stores without a fence,
with its own that lie in the strip store buffer (R182). -/
def State.restoreBytes (s : State) (o : Obs) (k n : Nat) : List Byte × State :=
  let (bs, s) := s.seen o k n
  s.layTiles k (if o = .scal then s.r.lay .scal k bs else overlayActs s.r.strip.buf k bs)

/-! ### TSHAPE (R167) -/

/-- A request's dimension in TREQ, saturating. -/
def treqDim (w : Word) : Nat := min w.toNat 65535

/-- The formats and the modes TSHAPE captures, as GFMT will hold them (GFMT table). -/
def captureFmt (vt : Word) (af bf zf : BitVec 5) : BitVec 24 :=
  BitVec.ofNat 24 (af.toNat + bf.toNat * 2 ^ 5 + zf.toNat * 2 ^ 10 + bitsOf vt 0 3 * 2 ^ 15 + bitsOf vt 3 2 * 2 ^ 18 +
    (if zf == 0x0F then slicesOf vt * 2 ^ 20 else 0))

/-- tshape (R167). -/
def execTshape (sa sb : SR) (k : Byte) (af bf zf : BitVec 5) (s : State) : Host.Outcome State Fault Refusal :=
  outcome (s.afterVector fun s => .ok ((), (s.mapR fun r => { r with
    treq := BitVec.ofNat 64 (treqDim (s.reg sa) + treqDim (s.reg sb) * 2 ^ 16 + k.toNat * 2 ^ 32)
    tfmt := captureFmt s.vtype af bf zf }).advance))

/-! ### Latch loads from memory (R172, R173) -/

/-- The vector side's registers with what the runner's own outstanding TSTVs will write (R165, R181). -/
def Attach.withStores (a : Attach) (r : RunnerId) (v : Vect) : Vect :=
  (a.ops.filter fun o => o.runner == r).foldl (fun (v : Vect) (o : TileOp) =>
    o.elems.foldl (fun (v : Vect) (x : VR × Nat × Nat) =>
      if o.regTaint.contains x.1 then v else v.putElem x.1 ((v.reg x.1).fmt.getD .untagged) x.2.1 x.2.2) v) v

/-- The row addresses of a latch load: row r at index r, or at the index v[vi] holds. -/
def State.latchRows (s : State) (a : Attach) (sa sb : SR) (vi : Option VR) (rows : Nat) : List Word :=
  let v := a.withStores s.rid s.r.vect
  (List.range rows).map fun r =>
    let idx : Word := match vi with
      | some n => BitVec.ofInt 64 ((v.reg n).index r)
      | none => BitVec.ofNat 64 r
    s.reg sa + idx * s.reg sb

/-- The alignment of a row (R173). -/
def rowAlign (code : Nat) : Nat := if code == 0x0D then 2 else if code == 0x0F then 8 else 1

/-- Bytes of a scale entry, 0 with no soff. -/
def entryBytes (code : Nat) (soff : BitVec 24) : Nat := if soff = 0 then 0 else if groupedCode code then 2 else 1

/-- Where the rows of a latch load lie. -/
def State.latchPlaces (s : State) (a : Attach) (l : Fin 4) (sa sb : SR) (vi : Option VR) (soff : BitVec 24) :
    M (List RowAt × State) :=
  let c := latchCode a.gfmt l
  s.rowKeys .load (rowBytes c a.gk) (rowAlign c) (entryBytes c soff) (soff.setWidth 64) (s.latchRows a sa sb vi (a.rows l))

/-- The checks of a latch load (R172, R173). -/
def latchChecks (l : Fin 4) (sa sb : SR) (vi : Option VR) (soff : BitVec 24) (a : Attach) (s : State) : M (Unit × State) := do
  let c := latchCode a.gfmt l
  let idxOk := match vi with
    | some v => s.kind v == .int && a.gm ≤ (s.vreg v).count s.vlen
    | none => true
  if (soff != 0 && !scalable c (zfOf a.gfmt)) || (soff == 0 && groupedCode c) || !idxOk then tileTag vi s
  else do
    let (_, s) ← s.latchPlaces a l sa sb vi soff
    .ok ((), s)

/-- One row read: its elements and scale, and what a later write to its bytes frees. -/
def State.readRow (s : State) (code gk : Nat) (l : Fin 4) (es : Nat) (row : Nat) (p : RowAt) :
    (LatchRow × List Capture) × State :=
  let n := rowBytes code gk
  let (bs, s) := s.tileBytes p.key n
  let use := (s.myCore.att.map (·.count)).getD 0
  let c : Capture := { runner := s.rid, latch := l, row := row, key := p.key, len := n, bits := (fmtOfCode code).width, use := use }
  match p.entry with
  | none => ((memRow code gk bs 127, [c]), s)
  | some k =>
    let (e, s) := s.tileBytes k es
    ((memRow code gk bs (BitVec.ofNat 16 (bytesVal e)), [c, { c with key := k, len := es, bits := 8, scale := true }]), s)

/-- The rows of a latch read in order. -/
def State.readRows (s : State) (code gk : Nat) (l : Fin 4) (es : Nat) : Nat → List RowAt →
    (List LatchRow × List Capture) × State
  | _, [] => (([], []), s)
  | r, p :: t =>
    let ((x, c), s) := s.readRow code gk l es r p
    let ((xs, cs), s) := s.readRows code gk l es (r + 1) t
    ((x :: xs, c ++ cs), s)

/-- Whether the bytes of a row or of its scale entry are poisoned (R341). -/
def RowAt.poisoned (p : RowAt) (u : List (Nat × Nat)) (n es : Nat) : Bool :=
  (poisonMeets u p.key n).isSome || ((p.entry.map fun k => (poisonMeets u k es).isSome).getD false)

/-- A latch filled anew: what earlier loads of it brought is there no more, though operations between may have used it. -/
def Attach.fill (a : Attach) (l : Fin 4) (rows : List LatchRow) (caps : List Capture) (t : List TldvRec) : Attach :=
  { a with
    latches := a.latches.set l rows
    caps := (a.caps.map fun c => if c.latch = l then { c with live := false } else c) ++ caps
    tldvs := (a.tldvs.map fun t => if latchIdx t.latch = l then { t with live := false } else t) ++ t }

/-- Earlier stores of the runner that a latch load begins after (R173): once it has been waited for they are behind both sides. -/
def State.noteLatch (s : State) : State := s.mapR fun r => { r with hist := r.hist.map fun h => { h with latch := true } }

/-- Stores that a latch load, now complete, has begun after have performed at team scope (R173, R279). -/
def State.latchesDone (s : State) : State :=
  s.mapR fun r => r.mapHist fun h => if h.latch then { h.settled with latch := true } else h

/-- The effect of a latch load from memory: poison fails the attach with the address of the row (R341). -/
def doLatch (l : Fin 4) (sa sb : SR) (vi : Option VR) (soff : BitVec 24) (s : State) : State :=
  s.tileDo (.load l) fun a s =>
    let c := latchCode a.gfmt l
    let ps := placesOf (s.latchPlaces a l sa sb vi soff)
    match ps.find? fun p => p.poisoned s.poison (rowBytes c a.gk) (entryBytes c soff) with
    | some p => s.setLoss (some (.poisoned s.rid p.va))
    | none =>
      let ((rows, caps), s) := s.readRows c a.gk l (entryBytes c soff) 0 ps
      (s.setAttach (a.fill l rows caps [])).noteLatch

/-- tlda (R173). -/
def execTlda (l : Latch) (sa sb : SR) (soff : BitVec 24) (s : State) : Host.Outcome State Fault Refusal :=
  passTile (.tlda l sa sb soff) noWaits (latchChecks (latchIdx l) sa sb none soff) (doLatch (latchIdx l) sa sb none soff) s

/-- tldb (R173). -/
def execTldb (l : Latch) (sa sb : SR) (soff : BitVec 24) (s : State) : Host.Outcome State Fault Refusal :=
  passTile (.tldb l sa sb soff) noWaits (latchChecks (latchIdx l) sa sb none soff) (doLatch (latchIdx l) sa sb none soff) s

/-- tldax (R173): its indices are those of program order. -/
def execTldax (l : Latch) (sa sb : SR) (vi : VR) (soff : BitVec 24) (s : State) : Host.Outcome State Fault Refusal :=
  passTile (.tldax l sa sb vi soff) (fun j => (destsOf j).contains vi)
    (fun a s => do
      let (_, s) ← latchChecks (latchIdx l) sa sb (some vi) soff a s
      match s.poisonedOf vi ((s.vreg vi).count s.vlen) (List.range a.gm) with
      | some r => s.consumeReg true r.val
      | none => .ok ((), s)) (doLatch (latchIdx l) sa sb (some vi) soff) s

/-! ### Latch loads from registers (R174, R175) -/

/-- The registers of a concatenation of n elements from vi onward; none when they pass v31 or differ in tag. -/
def State.sameTags (s : State) (vi : VR) (n : Nat) : Bool :=
  let e := (s.vreg vi).count s.vlen
  let k := (n + e - 1) / e
  vi.val + k ≤ 32 && (List.range k).all fun j => (s.vregN (vi.val + j)).tag == (s.vreg vi).tag

/-- The checks of TLDV (R174). -/
def tldvChecks (l : Fin 4) (vi : VR) (a : Attach) (s : State) : M (Unit × State) :=
  let c := latchCode a.gfmt l
  let v := s.vreg vi
  if (v.fmt.map Fmt.code) != some c || (v.bs && !scalable c (zfOf a.gfmt)) ||
      !s.sameTags vi (a.rows l * rowStride c a.gk v.bs) then tileTag (some vi) s
  else .ok ((), s)

/-- The rows of a TLDV as its registers stand. -/
def State.takeRows (s : State) (a : Attach) (l : Fin 4) (bs : Bool) (vi : VR) : List LatchRow :=
  tldvRows (a.withStores s.rid s.r.vect) (latchCode a.gfmt l) a.gk (a.rows l) bs vi

/-- The effect of TLDV; poison in a source fails the attach with the register (R341). -/
def doTldv (l : Latch) (vi : VR) (s : State) : State :=
  s.tileDo (.load (latchIdx l)) fun a s =>
    let bs := (s.vreg vi).bs
    let rs := rowStride (latchCode a.gfmt (latchIdx l)) a.gk bs
    let ks := (List.range (a.rows (latchIdx l))).flatMap fun r => (List.range a.gk).map fun k => r * rs + k
    match s.poisonedOf vi ((s.vreg vi).count s.vlen) ks with
    | some r => s.setLoss (some (.poisoned s.rid (regTval true r.val)))
    | none => s.setAttach (a.fill (latchIdx l) (s.takeRows a (latchIdx l) bs vi) []
      [{ runner := s.rid, latch := l, vi := vi, bs := bs, use := a.count }])

/-- tldv (R174). -/
def execTldv (l : Latch) (vi : VR) (s : State) : Host.Outcome State Fault Refusal :=
  passTile (.tldv l vi) noWaits (tldvChecks (latchIdx l) vi) (doTldv l vi) s

/-- A TLDV's latch with the elements of the registers `sel` names taken from them as they stand now. -/
def State.retake (s : State) (t : TldvRec) (sel : VR → Bool) (a : Attach) : Attach :=
  let l := latchIdx t.latch
  { a with latches := a.latches.set l (mixRows sel s.vlen (latchCode a.gfmt l) a.gk t.bs t.vi a.latches[l]
      (s.takeRows a l t.bs t.vi)) }

/-- The TLDVs of the runner capture for good the registers that a later TSTV is about to write (R165). -/
def State.keepSources (s : State) (ds : List VR) : State :=
  match s.myCore.att with
  | none => s
  | some a =>
    let a := (a.tldvs.filter fun (t : TldvRec) => t.runner == s.rid && t.live).foldl (fun (a : Attach) (t : TldvRec) =>
      s.retake t (fun d => ds.contains d && !t.kept.contains d) a) a
    s.setAttach { a with tldvs := a.tldvs.map fun (t : TldvRec) => if t.runner == s.rid then { t with kept := ds ++ t.kept } else t }

/-- The effect of MFENCE (R175): the runner's latch loads have captured their sources as they stand; what a TSTV issued
after them writes is none of it. -/
def doMfence (s : State) : State :=
  let s := match s.myCore.att with
    | none => s
    | some a =>
      let a := (a.tldvs.filter fun (t : TldvRec) => t.runner == s.rid && t.live).foldl (fun (a : Attach) (t : TldvRec) =>
        s.retake t (fun d => !t.kept.contains d) a) a
      s.setAttach { a with
        caps := a.caps.filter fun c => c.runner != s.rid
        tldvs := a.tldvs.filter fun t => t.runner != s.rid }
  s.latchesDone.mapR fun r => { r with vecWrites := 0 }

/-- mfence (R175): it goes down the vector queue, needs no attach and traps nothing. -/
def execMfence (s : State) : Host.Outcome State Fault Refusal :=
  outcome (
    if s.r.vq.isEmpty then .ok ((), (doMfence s).advance)
    else if vecCount s.r.vq < 32 then .ok ((), (s.enqueue .mfence 0 0).advance)
    else .error (.queue 0, s))

/-- A latch as a TMMA of the running runner reads it: rows a TLDV took from registers written since the runner's last
MFENCE or MWAIT are free values (R175). -/
def State.latchView (s : State) (a : Attach) (l : Fin 4) (n : Nat) : List LatchRow :=
  (a.tldvs.filter fun t => t.runner == s.rid && latchIdx t.latch == l && t.live).foldl (fun (rows : List LatchRow) (t : TldvRec) =>
    spoilRows s.r.vecWrites n s.vlen (latchCode a.gfmt l) a.gk t.bs t.vi rows) a.latches[l]

/-! ### TMMA and TZERO (R176, R177) -/

/-- A column of the attach's halves that computes wrong bits (R340): half and column. -/
def State.badColumn (s : State) (a : Attach) : Option (Nat × Nat) :=
  let c := s.r.ident.core
  (s.world.badColumns.find? fun b => b.1 == c.die && b.2.1 == c.cluster &&
    (bitsOf (a.oct.setWidth 64) (4 * b.2.2.1) 4 != 0)).map fun b => b.2.2

/-- An ATTACH in progress on a unit that a column map-out changes (R222): it keeps the octants already awake in a half that stays
live, gives the others back, and is served again. -/
def State.servedAgain (s : State) (half : Nat) (live : Bool) (c : CoreId) (p : PendAttach) : State :=
  let id (k : Nat) : EngineId := octantId c.die c.cluster k
  let kept := p.octs.filter fun k => (live || k / 4 != half) && (s.engine (id k)).st == .held
  let s := (s.setCore { s.core c with pend := some { p with octs := kept, toWake := [], again := true } }).withdraw c.die (.attach c)
  let s := (p.octs.filter fun k => !kept.contains k).foldl (fun (s : State) (k : Nat) =>
    if (s.engine (id k)).st == .held then s.toHold (id k) else s.giveBack (id k)) s
  s.withRunner p.runner fun s => s.mapR fun r =>
    if r.stat == .stalled && r.asks == [.wake] then { r with stat := .ready, asks := [] } else r

/-- A column map-out (R222): grants in the half are withdrawn, a spare takes the column or the half is retired, attaches
still waking on the unit are served again. -/
def State.mapOut (s : State) (die cluster half col : Nat) : State :=
  let inHalf (c : Core) : Bool := (c.octants.any fun k => k / 4 == half)
  let cores := s.attached die cluster
  let h : Fin 2 := Fin.ofNat 2 half
  let cl := s.cluster die cluster
  let spare : Bool := 0 < cl.spares[h]
  let cl := { cl with blamed := cl.blamed.filter fun b => !(b.1 == half && b.2.1 == col) }
  let s := s.setCluster (if spare then { cl with spares := cl.spares.set h (cl.spares[h] - 1) }
    else { cl with retired := cl.retired.set h true })
  let s := (cores.filter fun c => c.att.isSome && inHalf c).foldl (fun (s : State) (c : Core) =>
    s.loseShare c.id .mapOut State.toHold) s
  let s := cores.foldl (fun (s : State) (c : Core) => match (s.core c.id).pend with
    | some p => if inHalf (s.core c.id) then s.servedAgain half spare c.id p else s
    | none => s) s
  { s with world := { s.world with badColumns := s.world.badColumns.filter fun b => b != (die, cluster, half, col) } }.retryUnits die

/-- A residue mismatch (R340): the attach fails, the column is blamed, and mapped out when blamed twice within 10 s. -/
def State.residue (s : State) (a : Attach) (half col : Nat) : State :=
  let c := s.r.ident.core
  let tval := BitVec.ofNat 64 (0x200 + half * 2 ^ 7 + col % 2 ^ 7 + if a.unitL then 0x10000 else 0)
  let s := (s.setLoss (some (.residue s.rid tval))).emit (.logged 0x0F tval)
  let cl := s.cluster c.die c.cluster
  let again := cl.blamed.any fun b => b.1 == half && b.2.1 == col && s.time ≤ b.2.2 + 1000000000
  let s := s.setCluster { cl with blamed := (half, col, s.time) :: cl.blamed }
  if again then s.mapOut c.die c.cluster half col else s

/-- The effect of TMMA (R176). DEDUCED (log 89): what a vector instruction issued after it writes to a source register of a TLDV
before it does not reach the product. -/
def doTmma (z : ZR) (la lb : Fin 4) (s : State) : State :=
  s.tileDo (.mma z la lb) fun a s =>
    match s.badColumn a with
    | some (h, c) => s.residue a h c
    | none =>
      let r := mmaAll a.gfmt (bitOf s.vtype 5) a.gk a.gn (s.latchView a la s.free) (s.latchView a lb (s.free + 4400)) a.acc[z]
      { s with free := s.free + 8800 }.setAttach ({ a with acc := a.acc.set z r.val }.raise r.flags.bits)

/-- The latches a TMMA selects (R176). -/
def tmmaLatches (a1 b1 : Bool) : Fin 4 × Fin 4 := (if a1 then 1 else 0, if b1 then 3 else 2)

/-- tmma (R176). -/
def execTmma (z : ZR) (a1 b1 : Bool) (s : State) : Host.Outcome State Fault Refusal :=
  passTile (.tmma z a1 b1) noWaits (fun _ s => .ok ((), s)) (doTmma z (tmmaLatches a1 b1).1 (tmmaLatches a1 b1).2) s

/-- The effect of TZERO (R177). -/
def doTzero (z : ZR) (s : State) : State :=
  (s.tileDo (.clear z) fun a s => s.setAttach { a with acc := a.acc.set z (a.acc[z].map fun _ => 0) }).mapR fun r =>
    { r with strip := { r.strip with ckZeroed := r.strip.ckZeroed ||| (1#4 <<< z.val) } }

/-- tzero (R177). -/
def execTzero (z : ZR) (s : State) : Host.Outcome State Fault Refusal :=
  passTile (.tzero z) noWaits (fun _ s => .ok ((), s)) (doTzero z) s

/-! ### Stores (R178, R181, R185) -/

/-- The bytes of some cells that tile stores of other runners will still write. -/
def State.othersPending (s : State) (cells : List Host.Cell) : List Nat :=
  let keys := s.cores.flatMap fun c => match c.att with
    | none => []
    | some a => (a.ops.filter fun o => o.runner != s.rid).flatMap fun o => o.cells.map (·.1)
  (cells.map (·.1)).filter keys.contains

/-- A tile store outstanding from now on, the last operation of the attach, of elements of some bytes after a head: counted and
buffered in a protected strip it does not overflow (R185), its bytes and registers unpredictable until MWAIT or DETACH, where
another runner's outstanding store writes too for good (R181); what earlier latch loads took from them captured or
unpredictable (R173, R175). -/
def State.tileStore (s : State) (head unit : Nat) (cells : List Host.Cell) (elems : List (VR × Nat × Nat)) : State :=
  let n := cells.length
  let s := if s.r.strip.prot && s.stripCap < s.r.strip.count + 8 * n then s.endProt else s
  let prot := s.r.strip.prot
  let s := if prot then s.mapR fun r => { r with strip := { r.strip with count := r.strip.count + 8 * n } } else s
  let shared := s.othersPending cells
  let s := (s.touchTiles (fun r => r != s.rid) (fun _ => true) cells).keepSources ((elems.map (·.1)).eraseDups)
  match s.myCore.att with
  | none => s
  | some a => (s.setAttach { a with ops := a.ops ++
      [{ runner := s.rid, cells := cells, elems := elems, taint := shared, prot := prot, use := a.count, head := head, unit := unit }] }).freeRegElems
      (elems.map fun e => (e.1, e.2.1))

/-- The scalar operand of a stochastic store with its depth strip. -/
def State.srArg (s : State) (sr : Option SrArg) : Option (Word × Nat) := sr.map fun x => (s.reg x.reg, x.d.toNat)

/-- The row addresses of TST. -/
def State.tstPlaces (s : State) (a : Attach) (out : Fmt) (sa sb : SR) : M (List RowAt × State) :=
  s.rowKeys .store (a.gn * (out.width / 8)) (out.width / 8) 0 0
    ((List.range a.gm).map fun i => s.reg sa + BitVec.ofNat 64 i * s.reg sb)

/-- The checks of TST (R178). -/
def tstChecks (o : OutFmt) (sa sb : SR) (sr : Option SrArg) (a : Attach) (s : State) : M (Unit × State) :=
  let z := zFmt a.gfmt
  if !outAllowed z (outFmt a.gfmt o) || (sr.isSome && z == .i32) then tileTag none s
  else do
    let (_, s) ← s.tstPlaces a (outFmt a.gfmt o) sa sb
    .ok ((), s)

/-- The bytes of a row of stored elements. -/
def rowCells (key w : Nat) (l : List Nat) : List Host.Cell := cellsFrom key (l.flatMap fun e => natToLeBytes (w / 8) e)

/-- The effect of TST (R178). -/
def doTst (z : ZR) (o : OutFmt) (sa sb : SR) (sr : Option SrArg) (s : State) : State :=
  s.tileDo (.store z) fun a s =>
    let out := outFmt a.gfmt o
    let r := storeVals a.gfmt a.gn s.r.ident.seed (s.srArg sr) out a.acc[z]
    let ps := placesOf (s.tstPlaces a out sa sb)
    let cells := ((ps.zip (List.range ps.length)).map fun p => rowCells p.1.key out.width ((r.val.drop (p.2 * a.gn)).take a.gn)).flatten
    (s.setAttach (a.raise r.flags.bits)).tileStore 0 (out.width / 8) cells []

/-- tst (R178). -/
def execTst (z : ZR) (out : OutFmt) (sa sb : SR) (sr : Option SrArg) (s : State) : Host.Outcome State Fault Refusal :=
  passTile (.tst z out sa sb sr) noWaits (tstChecks out sa sb sr) (doTst z out sa sb sr) s

/-- The checks of TSTV (R178). -/
def tstvChecks (vi : VR) (sr : Option SrArg) (a : Attach) (s : State) : M (Unit × State) :=
  let z := zFmt a.gfmt
  let v := s.vreg vi
  if !outAllowed z (s.fmtOf vi) || v.bs || v.fmt.isNone || (sr.isSome && z == .i32) || !s.sameTags vi (a.gm * a.gn)
  then tileTag (some vi) s else .ok ((), s)

/-- The effect of TSTV (R178). -/
def doTstv (z : ZR) (vi : VR) (sr : Option SrArg) (s : State) : State :=
  s.tileDo (.store z) fun a s =>
    let out := s.fmtOf vi
    let r := storeVals a.gfmt a.gn s.r.ident.seed (s.srArg sr) out a.acc[z]
    let e := out.count s.vlen
    let elems := r.val.mapIdx fun k x => (regAt vi e k, k % e, x)
    (s.setAttach (a.raise r.flags.bits)).tileStore 0 1 [] elems

/-- tstv (R178). -/
def execTstv (z : ZR) (vi : VR) (sr : Option SrArg) (s : State) : Host.Outcome State Fault Refusal :=
  passTile (.tstv z vi sr) noWaits (tstvChecks vi sr) (doTstv z vi sr) s

/-! ### Images (R182) -/

/-- Bytes of an accumulator image. -/
def Attach.imageBytes (a : Attach) : Nat := 64 + a.gm * a.gn * zBytes a.gfmt

/-- The effect of TSAVE (R182). -/
def doTsave (z : ZR) (sa : SR) (s : State) : State :=
  s.tileDo (.store z) fun a s =>
    match s.tileKey (s.reg sa) a.imageBytes 64 .store with
    | .ok (k, s) => s.tileStore 64 (zBytes a.gfmt) (cellsFrom k (a.image z)) []
    | .error _ => s

/-- tsave (R182). -/
def execTsave (z : ZR) (sa : SR) (s : State) : Host.Outcome State Fault Refusal :=
  passTile (.tsave z sa) noWaits (fun a s => do
    let (_, s) ← s.tileKey (s.reg sa) a.imageBytes 64 .store
    .ok ((), s)) (doTsave z sa) s

/-- The checks of TRESTORE (R182): its place, then the header, which must be this attach's bit for bit but for GK;
the scalar side reads it, as it reads any bytes (R269), once no held AMO of theirs is left (R233). -/
def trestoreChecks (sa : SR) (a : Attach) (s : State) : M (Unit × State) := do
  let va := s.reg sa
  let (k, s) ← s.tileKey va a.imageBytes 64 .load
  match poisonMeets s.poison k 64 with
  | some u => s.consume va k u
  | none =>
    let (h, s) := s.restoreBytes .scal k 64
    let field (lo n : Nat) : Nat := bytesVal ((h.drop lo).take n)
    if s.behindAmo va 64 then .error (.queue 0, s)
    else if field 0 8 == a.gfmt.toNat && field 8 2 == a.gm && field 10 2 == a.gn && field 14 2 == 0 &&
        field 16 8 == a.gm * a.gn * 2 ^ 32 + 0x5A170003 && field 24 40 == 0 then .ok ((), s)
    else stopTrap .tag va s

/-- Numbers of n bytes each from bytes. -/
def wordsOf (n : Nat) : Nat → List Byte → List (BitVec 64)
  | 0, _ => []
  | k + 1, bs => BitVec.ofNat 64 (bytesVal (bs.take n)) :: wordsOf n k (bs.drop n)

/-- The effect of TRESTORE (R182); poisoned elements fail the attach (R341). -/
def doTrestore (z : ZR) (sa : SR) (s : State) : State :=
  s.tileDo (.clear z) fun a s =>
    let es := zBytes a.gfmt
    match s.tileKey (s.reg sa) a.imageBytes 64 .load with
    | .ok (k, s) =>
      match poisonMeets s.poison (k + 64) (a.gm * a.gn * es) with
      | some u => s.setLoss (some (.poisoned s.rid (BitVec.ofNat 64 (((s.reg sa).toNat + u - k) / 8 * 8 % 2 ^ 63))))
      | none =>
        let (bs, s) := s.restoreBytes .strm (k + 64) (a.gm * a.gn * es)
        s.setAttach { a with acc := a.acc.set z (wordsOf es (a.gm * a.gn) bs) }
    | .error _ => s

/-- trestore (R182): after every earlier tile operation of the runner. -/
def execTrestore (z : ZR) (sa : SR) (s : State) : Host.Outcome State Fault Refusal :=
  passTile (.trestore z sa) isTileOp (trestoreChecks sa) (doTrestore z sa) s

/-! ### MWAIT and DETACH (R171, R180) -/

/-- The attach's pending flags reach VFLAGS (R179). -/
def State.takeTileFlags (s : State) : State :=
  match s.myCore.att with
  | none => s
  | some a => (s.mapR fun r => { r with vect := { r.vect with vflags := r.vect.vflags ||| a.flags } }).setAttach
      { a with flags := 0, uses := a.uses.map fun u => { u with flags := none } }

/-- Latches a TLDV of the runner filled from registers written without an MFENCE hold free values from here on, also past a later
MFENCE (R175; DEDUCED, log 89). -/
def State.settleLatches (s : State) : State :=
  match s.myCore.att with
  | none => s
  | some a =>
    let mine := a.tldvs.filter fun t => t.runner == s.rid && t.live
    let a := mine.foldl (fun (a : Attach) (t : TldvRec) =>
      { a with latches := a.latches.set (latchIdx t.latch) (s.latchView a (latchIdx t.latch) (s.free + 4400 * (latchIdx t.latch).val)) }) a
    { s with free := s.free + 17600 }.setAttach a

/-- Every tile operation of the attach has completed (R180): those of the running runner are outstanding no more; the
results of the others stand from now on, unpredictable to every reader until their own runner's MWAIT (R181). -/
def State.tileWait (s : State) : State :=
  let me := s.rid
  let s := s.settleLatches.takeTileFlags.latchesDone
  let s := s.landOps s.r.ident.core (fun o => o.runner == me) (fun _ => true)
  match s.myCore.att with
  | none => s
  | some a =>
    (s.setAttach { a.settled me with ops := (a.settled me).ops.map fun o => { o with done := true } }).mapR fun r =>
      { r with vecWrites := 0 }

/-- mwait (R180). -/
def execMwait (s : State) : Host.Outcome State Fault Refusal :=
  outcome (s.afterVector fun s => do
    let (_, s) ← s.tileReady
    .ok ((), s.tileWait.advance))

/-- Another runner of the core has passed tile operations that have not been issued yet. -/
def State.tileQueued (s : State) : Bool :=
  s.rs.any fun x => x.2.ident.core == s.r.ident.core && x.2.vq.any fun
    | .vec i _ _ _ => isTileOp i
    | _ => false

/-- detach (R171): every tile operation of the attach completes, its flags reach VFLAGS, the octants enter their hold; it
waits for operations that other runners of the core have still to issue. A lost share or a recorded eviction is only
forgotten. -/
def execDetach (s : State) : Host.Outcome State Fault Refusal :=
  outcome (s.afterVector fun s =>
    match s.myCore.loss, s.myCore.att with
    | some .mapOut, _ | some (.evicted _), _ => .ok ((), (s.setLoss none).advance)
    | _, _ => do
      let (_, s) ← s.tileReady
      let c := s.r.ident.core
      if s.tileQueued then .ok ((), s)
      else .ok ((), (((s.landOps c (fun _ => true) (fun _ => true)).takeTileFlags.latchesDone).endAttach c none State.toHold).advance))

end Sys2Proof.Machine
end

