-- ==== Sys2Proof/Machine/Image.lean ====
section
/-! DEFINITION. The saved context: team records, runner images and their attach part (R333–R335). -/

namespace Sys2Proof.Machine

/-- Eight bytes. -/
def b8 (w : Word) : List Byte := natToLeBytes 8 w.toNat

/-- Eight bytes of a number. -/
def n8 (n : Nat) : List Byte := natToLeBytes 8 n

/-- Zeros. -/
def zeros (n : Nat) : List Byte := List.replicate n 0

/-- Zeros up to a multiple of 64 bytes. -/
def pad64 (bs : List Byte) : List Byte := bs ++ zeros ((64 - bs.length % 64) % 64)

/-- TSTATUS. -/
def Sysr.tstatus (y : Sysr) : Nat := y.ppl.toNat + 2 * y.inh.toNat

/-- The CTRL field (R334). -/
def Runner.ctrlBytes (r : Runner) : List Byte :=
  n8 r.vect.vl ++ n8 r.vect.vstart ++ b8 r.vect.vtype ++ n8 r.vect.vflags.toNat ++ b8 r.strip.sc ++ n8 r.strip.scap.toNat ++
  b8 r.strip.sind ++ b8 r.strip.sstat ++ b8 r.scal.wdead ++ n8 r.scal.bypass.toNat ++ b8 r.scal.pinslice ++ b8 r.vect.rngctr ++
  b8 r.scal.sysr.tcause ++ b8 r.scal.sysr.tepc ++ b8 r.scal.sysr.tval ++ b8 r.scal.sysr.tvec ++ n8 r.scal.sysr.tstatus

/-- BARW (R334). -/
def Runner.barwWord (r : Runner) : Nat :=
  r.barw.toNat + match r.sya with
    | some (_, b) => 2 ^ 24 + b.val * 2 ^ 16
    | none => 0

/-- KIND of a wait record (R188). -/
def kindNumber : WaitKind → Nat
  | .word => 0 | .barrier => 1 | .bitmap => 2 | .attach => 3 | .lease => 4 | .join => 5 | .collective => 6

/-- The WAIT field (R334). -/
def Runner.waitBytes (r : Runner) : List Byte :=
  match r.wait with
  | none => zeros 48
  | some w =>
    let cond := if w.kind = .word then w.code % 8 else 0
    n8 (kindNumber w.kind + cond * 2 ^ 8 + w.desig % 256 * 2 ^ 16 + w.pcls % 4 * 2 ^ 24) ++ b8 w.what ++ b8 w.value ++
    n8 w.entry ++ n8 w.dead ++ zeros 8

/-- The LEASES field (R334): handle, then LSTAT without its instance. -/
def Runner.leaseBytes (r : Runner) : List Byte :=
  r.leases.toList.flatMap fun l => match l with
    | some l => b8 l.handle ++ n8 (lstatState l.st + 16 * kindCode l.kind + 256 * l.pri.val)
    | none => zeros 16

/-- The QUEUES field (R334). -/
def Runner.queueBytes (r : Runner) : List Byte :=
  r.queues.toList.flatMap fun q => (List.range 16).flatMap fun e => b8 ((q[e]?).getD 0)

/-- Scalar registers' bytes, s0 as 0. -/
def regBytes (v : Vector Word 64) : List Byte := ((v.set 0 0).toList).flatMap b8

/-- An element list packed into bytes, w bits each. -/
def packBits (w : Nat) (l : List (BitVec 64)) : List Byte :=
  let n := (l.zip (List.range l.length)).foldl (fun (a : Nat) (x : BitVec 64 × Nat) => a + (x.1.toNat % 2 ^ w) * 2 ^ (w * x.2)) 0
  natToLeBytes ((w * l.length + 7) / 8) n

/-- A latch's rows, then its scales (R335). -/
def latchBytes (code : Nat) (rows : List LatchRow) : List Byte :=
  (rows.flatMap fun r => packBits (fmtOfCode code).width r.elems) ++ rows.flatMap fun r => natToLeBytes 2 r.scale.toNat

/-- A saved attach as it stood. -/
def SavedAttach.toAttach (a : SavedAttach) : Attach :=
  { gm := a.gm, gn := a.gn, gk := a.gk, gfmt := a.gfmt, acc := a.acc, latches := a.latches, tldvs := a.tldvs, flags := a.flags,
    owner := a.owner }

/-- The attach part of a runner image (R335). -/
def SavedAttach.bytes (a : SavedAttach) : List Byte :=
  b8 a.gfmt ++ natToLeBytes 2 a.gm ++ natToLeBytes 2 a.gn ++ natToLeBytes 2 a.gk ++ natToLeBytes 2 a.octants ++
  n8 a.flags.toNat ++ zeros 40 ++ ((List.finRange 4).flatMap a.toAttach.image) ++
  (List.finRange 4).flatMap fun (l : Fin 4) => latchBytes (latchCode a.gfmt l) a.latches[l]

/-- INFO (R334). -/
def Runner.info (r : Runner) (att : Bool) : Nat :=
  r.ident.id.runner % 32 + r.vect.vlen * 2 ^ 16 + (isM r.ident.core.cluster).toNat * 2 ^ 32 +
  r.scal.sysr.sys.toNat * 2 ^ 33 + att.toNat * 2 ^ 34 + r.wait.isSome.toNat * 2 ^ 35

/-- A runner image without its magic word (R334). -/
def Runner.imageBody (r : Runner) (att : Option SavedAttach) : List Byte :=
  n8 (r.ident.id.heat + r.ident.id.team * 2 ^ 32) ++ n8 (r.info att.isSome) ++ b8 r.scal.pc ++ r.ctrlBytes ++ n8 r.barwWord ++
  b8 r.qstat ++ b8 r.strip.ckPc ++ b8 r.strip.ckSc ++ n8 r.strip.ckZeroed.toNat ++ r.waitBytes ++ r.leaseBytes ++
  regBytes r.strip.ckRegs ++ regBytes r.scal.s ++ r.queueBytes ++ (r.vect.v.toList.flatMap fun v => natToLeBytes 1 v.tag.toNat) ++
  zeros 96 ++ (r.vect.v.toList.flatMap fun v => natToLeBytes r.vect.vlen v.data.toNat) ++
  (r.vect.v.toList.flatMap fun v => natToLeBytes (r.vect.vlen / 8) v.side.toNat) ++
  (att.map SavedAttach.bytes).getD []

/-- A runner image (R334). -/
def Runner.image (r : Runner) (att : Option SavedAttach) : List Byte :=
  let b := r.imageBody att
  n8 (0x5A170103 + (b.length + 8) * 2 ^ 32) ++ b

/-- A barrier's word in a team record (R333). -/
def Barrier.word (b : Barrier) : Nat := b.expected % 256 + b.arrived % 256 * 2 ^ 8 + b.phase.toNat * 2 ^ 16

/-- A team record without its magic word (R333): its memory as it stands, then its runners' images. -/
def State.recordBody (s : State) (h : Heat) (t : Team) (m : Bool) (atts : List SavedAttach) : List Byte :=
  let tcm := t.split.tcmKiB * 1024
  let rs := s.inOrder t.id
  n8 (t.id.heat + t.id.team * 2 ^ 32) ++ n8 (h.desc.scratch + tcm * 2 ^ 32) ++
  n8 (h.desc.cores + h.desc.perCore * 2 ^ 8 + m.toNat * 2 ^ 16 + t.split.vlen * 2 ^ 20) ++ zeros 32 ++
  (t.bars.toList.flatMap fun b => n8 b.word) ++ zeros 64 ++ bytesAt s.mem (Loc.scratch t.uid 0).key h.desc.scratch ++
  ((List.range h.desc.cores).flatMap fun c => bytesAt s.mem (Loc.tcm t.uid c 0).key tcm) ++
  rs.flatMap fun x => pad64 (x.image (atts.find? fun a => a.live && a.owner == x.ident.id))

/-- A team record (R333). -/
def State.teamRecord (s : State) (h : Heat) (t : Team) (m : Bool) (atts : List SavedAttach) : List Byte :=
  let b := s.recordBody h t m atts
  n8 (0x5A170203 + (b.length + 8) * 2 ^ 32) ++ b

end Sys2Proof.Machine
end

