-- ==== Sys2Proof/Machine/Stream.lean ====
section
/-! DEFINITION. STREAM and STREAMSEG (R158–R160): the issue on the scalar side, the landing and the effect on the
vector side. -/

namespace Sys2Proof.Machine

/-- A STREAM or STREAMSEG with its captured scalars: its fields and, in bytes, the step from record to record when a
register gives it. -/
structure StreamOp where
  mm : MMod
  vd : VR
  fields : Nat
  vi : Option VR
  base : Word
  step : Option Word
  seg : Bool

/-- Field f's register. -/
def StreamOp.dest (o : StreamOp) (f : Nat) : VR := ⟨(o.vd.val + f) % 32, Nat.mod_lt _ (by decide)⟩

/-- The registers of the fields. -/
def StreamOp.dests (o : StreamOp) : List VR := (List.range o.fields).map o.dest

/-- The names of R115. -/
def StreamOp.names (o : StreamOp) : Names := { vd := some o.vd, more := o.dests.drop 1 ++ o.vi.toList }

/-- The step from record to record. -/
def StreamOp.stepBytes (o : StreamOp) (es : Nat) : Word := o.step.getD (BitVec.ofNat 64 (o.fields * es))

/-- The address of field f of record r (R158, R160). -/
def StreamOp.addr (o : StreamOp) (es r f : Nat) : Word :=
  o.base + BitVec.ofNat 64 r * o.stepBytes es + BitVec.ofNat 64 (f * es)

/-- The form an element counts for (R302). -/
def StreamOp.form (o : StreamOp) (es : Nat) : VForm :=
  if !o.seg && o.stepBytes es == BitVec.ofNat 64 es then .unit else .strided (o.stepBytes es)

/-- The tags a stream takes (R158, R160). -/
def State.streamOk (s : State) (o : StreamOp) (vstart : Nat) : Bool :=
  (s.vreg o.vd).plain && o.dests.all (fun d => (s.vreg d).tag == (s.vreg o.vd).tag) &&
  match o.vi with
  | none => true
  | some v => s.kind v == .int && o.mm.mask.reg == 0 && vstart == 0

/-! ### The issue (R158) -/

/-- Instructions that change VL, VTYPE or a tag, which a stream waits for (R158 step 1). -/
def configures : Instr → Bool
  | .vcfgw .. | .vcfgwTag .. | .vtag .. | .vsetvl .. | .vsetvlQueue .. | .vldff .. => true
  | _ => false

/-- Whether a stream must wait for something the queue holds (R158 step 1). -/
def streamWaits (q : List VItem) (m : Mask) : Bool :=
  q.any fun | .vec i _ _ _ => configures i || (m.reg != 0 && (destsOf i).any fun d => d.val == m.reg.val) | _ => false

/-- One field of a record checked: its key, and its value where an outside agent holds it. -/
def State.issueField (s : State) (va : Word) (es : Nat) : M ((Nat × Option Nat) × State) := do
  let (a, s) ← s.check va es es .load
  match a with
  | .found k =>
    if isHostKey k then do
      let (bs, s) ← s.loadFrom .strm va (.host (.read (BitVec.ofNat 64 (k - hostBase)) es)) k es
      .ok ((k, some (bytesVal bs)), s)
    else .ok ((k, none), s)
  | .peer m pva => do
    let k := (Loc.peer m pva.toNat).key
    let (bs, s) ← s.loadFrom .strm va (.peer m (.read pva es)) k es
    .ok ((k, some (bytesVal bs)), s)
  | _ => stopTrap .access va s

/-- n fields of a record from field f. -/
def StreamOp.issueFields (o : StreamOp) (es r : Nat) : Nat → Nat → State → M (List (Nat × Option Nat) × State)
  | 0, _, s => .ok ([], s)
  | n + 1, f, s => do
    let (x, s) ← s.issueField (o.addr es r f) es
    let (t, s) ← o.issueFields es r n (f + 1) s
    .ok (x :: t, s)

/-- The records in order: those that passed, and the first that stops with its stop. -/
def StreamOp.issue (o : StreamOp) (es : Nat) : List Nat → State →
    List (Nat × List (Nat × Option Nat)) × Option (Nat × Stop) × State
  | [], s => ([], none, s)
  | r :: t, s =>
    match o.issueFields es r o.fields 0 s with
    | .error (e, s) => ([], some (r, e), s)
    | .ok (x, s) => let (xs, e, s) := o.issue es t s; ((r, x) :: xs, e, s)

/-! ### Landing and effect (R159, R160) -/

/-- The fields of a record of a stream read, from field f. -/
def StreamOp.landFields (o : StreamOp) (x : StreamRec) (r : Nat) : Nat → List (Nat × Option Nat) → State →
    M (List Nat × State)
  | _, [], s => .ok ([], s)
  | f, (k, v) :: t, s => do
    let va := o.addr x.es r f
    let (y, s) ← match v with
      | some y => .ok (y, s)
      | none => do
        let (bs, s) ← s.readBy .strm { scope := o.mm.scope, alloc := x.alloc } x.pin va k x.es
        .ok (bytesVal bs, s)
    let (ys, s) ← o.landFields x r (f + 1) t s
    .ok (y :: ys, s)

/-- Records read in order, until one stops. -/
def StreamOp.land (o : StreamOp) (x : StreamRec) : List (Nat × List (Nat × Option Nat)) → State →
    List (Nat × List Nat) × Option (Nat × Stop) × State
  | [], s => ([], none, s)
  | (r, ks) :: t, s =>
    match o.landFields x r 0 ks s with
    | .error (e, s) => ([], some (r, e), s)
    | .ok (y, s) => let (ys, e, s) := o.land x t s; ((r, y) :: ys, e, s)

/-- Field f of record r among landed records, all zero where none is. -/
def landedField (l : List (Nat × List Nat)) (r f : Nat) : Nat :=
  match l.find? fun x => x.1 == r with
  | some (_, xs) => (xs[f]?).getD 0
  | none => 0

/-- Field f of element i: its own record's, or the one that the index vi holds now names (R160). -/
def StreamOp.elem (o : StreamOp) (l : List (Nat × List Nat)) (vl : Nat) (v : Vect) (i f : Nat) : Nat :=
  match o.vi with
  | none => landedField l i f
  | some n =>
    let j := (v.reg n).index i
    if 0 ≤ j && j < vl then landedField l j.toNat f else 0

/-- Field f of some elements written. -/
def StreamOp.putField (o : StreamOp) (l : List (Nat × List Nat)) (vl : Nat) (els : List Nat) (f : Nat) (v : Vect) : Vect :=
  els.foldl (fun (v : Vect) (i : Nat) => v.putElem (o.dest f) (((v.reg o.vd).fmt).getD .untagged) i (o.elem l vl v i f)) v

/-- The page counts of the elements of some records (R302). -/
def State.streamHeat (s : State) (o : StreamOp) (es : Nat) (rs : List Nat) : State :=
  rs.foldl (fun s r => (List.range o.fields).foldl (fun s f => s.heatPage (o.addr es r f) (o.form es)) s) s

/-- Some records complete where a later one stops: their elements written, in every field, and counted. -/
def State.writeStream (s : State) (o : StreamOp) (es : Nat) (l : List (Nat × List Nat)) (els : List Nat) : State :=
  (s.setVect ((List.range o.fields).foldl (fun (v : Vect) (f : Nat) => o.putField l s.vl els f v) s.r.vect)).streamHeat o es els

/-- The bytes a stream's elements take (R153). -/
def StreamOp.foot (o : StreamOp) (es vl : Nat) : Nat :=
  match o.form es with
  | .strided st => vl * st.toInt.natAbs
  | _ => vl * es

/-- The effect of a stream at its place on the vector side, its record at the head: what has not landed is read, then
every element is written, field by field (R159, R160). Read errors stop it at their record. -/
def doStream (o : StreamOp) (s : State) : M (Unit × State) :=
  match s.r.streams with
  | [] => .ok ((), s)
  | x :: rest =>
    let todo := x.recs.filter fun r => !x.landed.any fun l => l.1 == r.1
    let (got, stop, s) := o.land x todo s
    let all := x.landed ++ got
    let els := x.recs.map (·.1)
    match stop with
    | none =>
      let vlmax := s.vlmaxOf o.names
      let v := (List.range o.fields).foldl (fun (v : Vect) (f : Nat) =>
        s.settleReg o.mm.mask s.vstart vlmax (o.dest f) (o.putField all s.vl els f v)) s.r.vect
      .ok ((), (((s.setVect v).streamHeat o x.es els).setVstart 0).mapR fun r => { r with streams := rest })
    | some (i, e) =>
      match o.vi with
      | some _ => .error (e, s.setVstart 0)
      | none => .error (e, (s.writeStream o x.es all (els.filter fun j => j < i)).setVstart i)

/-- A stream as it is issued. -/
def State.newStream (s : State) (i : Instr) (o : StreamOp) (a b : Word) (es : Nat)
    (recs : List (Nat × List (Nat × Option Nat))) : StreamRec :=
  { id := s.nextUid, i := i, a := a, b := b, es := es, recs := recs, pin := s.r.scal.pinslice
    alloc := s.allocates o.mm.hint (o.foot es s.vl) }

/-- The elements below a failing one completed at issue (R158 step 3). -/
def State.cutIssue (s : State) (o : StreamOp) (x : StreamRec) (i : Nat) (e : Stop) : M (Unit × State) :=
  match o.vi with
  | some _ => .error (e, s.setVstart 0)
  | none =>
    match o.land x x.recs s with
    | (got, none, s) => .error (e, (s.writeStream o x.es got (got.map (·.1))).setVstart i)
    | (got, some (j, e), s) => .error (e, (s.writeStream o x.es got (got.map (·.1))).setVstart j)

/-- An accepted stream: its instruction passed to the vector queue, its record among those that land. -/
def State.acceptStream (s : State) (x : StreamRec) : State :=
  let s : State := { s with nextUid := s.nextUid + 1 }
  (s.enqueue x.i x.a x.b).mapR fun r => { r with streams := r.streams ++ [x] }

/-- STREAM and STREAMSEG at their issue (R158). -/
def issueStream (i : Instr) (o : StreamOp) (a b : Word) (s : State) : M (Unit × State) := do
  let (_, s) ← if s.r.vq.isEmpty then s.convoyCheck i else .ok ((), s)
  if 32 ≤ vecCount s.r.vq || streamWaits s.r.vq o.mm.mask then .error (.queue 0, s)
  else
    let vstart := if s.r.vq.isEmpty then s.vstart else 0
    let (_, s) ← s.tagChecks o.names o.mm.mask (s.streamOk o vstart) true
    let es := (s.fmtOf o.vd).width / 8
    match o.issue es (s.activeFrom o.mm.mask vstart) s with
    | (_, some (_, .ask q), s) => .error (.ask q, s)
    | (recs, some (r, e), s) =>
      if s.r.vq.isEmpty then s.cutIssue o (s.newStream i o a b es recs) r e else .error (.queue 0, s)
    | (recs, none, s) => .ok ((), (s.acceptStream (s.newStream i o a b es recs)).advance)

/-- The operands of stream (R158). -/
def streamOp (m : MMod) (vd : VR) (sb : SR) (off : BitVec 16) (a b : Word) : StreamOp :=
  { mm := m, vd := vd, fields := 1, vi := none, base := a + sext off, step := if sb = 0 then none else some b, seg := false }

/-- The operands of streamseg (R160). -/
def streamsegOp (m : MMod) (vd : VR) (sb : SR) (vi : VR) (fields : Fin 8) (off : BitVec 13) (a b : Word) : StreamOp :=
  { mm := m, vd := vd, fields := fields.val + 1, vi := if vi = 0 then none else some vi, base := a + sext off
    step := if sb = 0 then none else some b, seg := true }

/-- stream (R158). -/
def execStream (m : MMod) (vd : VR) (sa sb : SR) (off : BitVec 16) (s : State) : Host.Outcome State Fault Refusal :=
  outcome (issueStream (.stream m vd sa sb off) (streamOp m vd sb off (s.reg sa) (s.reg sb)) (s.reg sa) (s.reg sb) s)

/-- streamseg (R160). -/
def execStreamseg (m : MMod) (vd : VR) (sa sb : SR) (vi : VR) (fields : Fin 8) (off : BitVec 13) (s : State) :
    Host.Outcome State Fault Refusal :=
  outcome (issueStream (.streamseg m vd sa sb vi fields off) (streamsegOp m vd sb vi fields off (s.reg sa) (s.reg sb))
    (s.reg sa) (s.reg sb) s)

end Sys2Proof.Machine
end

