-- ==== Sys2Proof/Machine/Copy.lean ====
section
/-! DEFINITION. COPY (R161–R164, R226–R229): its descriptor, its checks, its start and the landing of its chunks. -/

namespace Sys2Proof.Machine

/-- The fields of a copy descriptor (R161). -/
structure CopyDesc where
  src : Word
  dst : Word
  sst : Word × Word × Word
  dstr : Word × Word × Word
  bmap : Word
  ctrl : Word
  resA : Word
  resB : Word
  deriving DecidableEq, Repr

/-- Bytes of an element. -/
def CopyDesc.es (d : CopyDesc) : Nat := 2 ^ bitsOf d.ctrl 0 2

/-- The doublewords of a descriptor read in order (R162 step 1). -/
def State.readDesc (s : State) (scope : Scope) : Nat → Word → M (List Word × State)
  | 0, _ => .ok ([], s)
  | n + 1, va => do
    let (bs, s) ← s.scalarLoad va 8 scope
    let (t, s) ← s.readDesc scope n (va + 8)
    .ok (BitVec.ofNat 64 (bytesVal bs) :: t, s)

/-- A descriptor from its twelve doublewords. -/
def copyDesc (w : List Word) : CopyDesc :=
  let f (n : Nat) : Word := (w[n]?).getD 0
  { src := f 0, dst := f 1, sst := (f 2, f 3, f 4), dstr := (f 5, f 6, f 7), bmap := f 8, ctrl := f 9, resA := f 10, resB := f 11 }

/-- Whether an address lies in the scratchpad, TCM or DSM window (R296). -/
def inLocal (va : Word) : Bool :=
  va.toNat / 2 ^ 48 == 0x01FF && [0, 1, 4].contains (va.toNat % 2 ^ 48 / 2 ^ 32)

/-- The extents E0 to E3 (R161). -/
def extents (w : Word) : List Nat := (List.range 4).map fun k => bitsOf w (16 * k) 16

/-- The elements of a box. -/
def boxCount (e : List Nat) : Nat := e.foldl (fun a b => a * b) 1

/-- The addresses of a box's elements in box order (R161). -/
def boxAddrs (base : Word) (st : Word × Word × Word) (e : List Nat) (es : Nat) : List Word :=
  let n (k : Nat) : Nat := (e[k]?).getD 0
  let at_ (b : Word) (i : Nat) (w : Word) : Word := b + BitVec.ofNat 64 i * w
  (List.range (n 3)).flatMap fun d => (List.range (n 2)).flatMap fun c => (List.range (n 1)).flatMap fun b =>
    (List.range (n 0)).map fun a => at_ (at_ (at_ (at_ base a (BitVec.ofNat 64 es)) b st.1) c st.2.1) d st.2.2

/-- The first field of a descriptor that fails its checks, by offset (R162 step 2, R228). -/
def State.badField (s : State) (d : CopyDesc) (bytes : Nat) : Option Nat :=
  let words := max 1 ((bytes + 512 * 64 - 1) / (512 * 64))
  let off := d.bmap.toNat - 0x01FF000000000000
  if d.ctrl &&& 0xF13 != d.ctrl then some 0x48
  else if d.resA != 0 || d.resB != 0 then some 0x50
  else if d.bmap != 0 && (d.bmap.toNat < 0x01FF000000000000 || off % 8 != 0 || 2 ^ 32 ≤ off || s.scratchSize < off + 8 * words)
  then some 0x40
  else if !inLocal d.src && !inLocal d.dst then some 0x08
  else if d.bmap != 0 && 2 ^ 24 < bytes then some 0x40
  else none

/-- One element of a box checked: its key and the peer that holds it, if one does. The engine's reads reach L2, where a
PINSLICE that does not fit its region traps (R285). -/
def State.boxKey (s : State) (k : AccKind) (es : Nat) (va : Word) : M ((Nat × Option Nat) × State) := do
  let (a, s) ← s.check va es es k
  match a with
  | .found key => if s.pinFault va then stopTrap .access va s else .ok ((key, none), s)
  | .peer m pva => do
    let (r, s) ← s.answer (.peer m (if k = .store then .write pva [] else .read pva 0))
    let (_, s) ← replyBytes va 0 r s
    .ok (((Loc.peer m pva.toNat).key, some m), s)
  | _ => stopTrap .access va s

/-- The elements of a box checked in order (R162 step 4): their keys and the peers among them. -/
def State.boxKeys (s : State) (k : AccKind) (es : Nat) : List Word → M ((List Nat × List Nat) × State)
  | [] => .ok (([], []), s)
  | va :: t => do
    let ((key, q), s) ← s.boxKey k es va
    let ((ks, ps), s) ← s.boxKeys k es t
    .ok ((key :: ks, (q.toList ++ ps).eraseDups), s)

/-- The lines of a box that PINSLICE places, with the slice it names (R285). -/
def State.boxPins (s : State) (vas : List Word) (keys : List Nat) : List (Nat × Nat) :=
  if !bitOf s.r.scal.pinslice 63 then []
  else ((vas.zip keys).filterMap fun x => (s.pinSlice x.1).map fun sl => (lineOf x.2, sl)).eraseDups

/-- The accepted copies a runner's queue holds. -/
def Runner.heldCopies (x : Runner) : Nat := x.vq.countP fun | .copy d => d.elems != [] | _ => false

/-- The copies accepted in the running runner's cluster, and those of the runner itself (R226). -/
def State.copyLoad (s : State) : Nat × Nat :=
  let c := s.r.ident.core
  let near := s.allRunners.filter fun x => x.ident.core.die == c.die && x.ident.core.cluster == c.cluster
  ((s.copies.countP fun x => x.die == c.die && x.cluster == c.cluster) + (near.map Runner.heldCopies).sum,
   (s.copies.countP fun x => x.runner == s.rid) + s.r.heldCopies)

/-- A copy's own arrival (R163). -/
def State.copyArrives (s : State) (c : CopyRec) : State :=
  match c.arv with
  | some b => s.arriveOn (teamOf c.runner) b
  | none => s

/-- A copy starts (R163, R164): one to memory ends protection first; one with a zero extent is complete at once; one
with stores in the strip store buffer that it must follow begins after they perform: the scalar side's, and the vector
side's that a fence has ordered before it (R103). What other stores of the vector side replaced it may still read. -/
def State.startCopy (s : State) (c : CopyRec) : State :=
  let s := if c.toMem then s.endProt else s
  if c.elems.isEmpty then (s.copyArrives c).unstick (teamOf c.runner)
  else
    let s := s.mapR fun r => r.mapHist fun h => if h.box then { h with copies := c.id :: h.copies } else h
    { s with copies := s.copies ++ [{ c with waits := s.r.strip.buf.any fun a => !a.byVec || !a.box }] }

/-- A COPY whose checks have passed: held while an earlier vector instruction is incomplete (R233). -/
def State.acceptCopy (s : State) (c : CopyRec) : State :=
  if s.r.vq.isEmpty then s.startCopy c else s.mapR fun r => { r with vq := r.vq ++ [.copy c] }

/-- A COPY at a limit of its engine (R226): it waits for a copy to land, its vector side going on meanwhile; where the limit is
reached by copies the vector queue holds alone, it waits for that queue (R113). -/
def State.copyWaits (s : State) : M (Unit × State) :=
  if 16 ≤ s.r.heldCopies then .error (.queue 0, s) else .ok ((), s)

/-- The effect of COPY (R161, R162). -/
def doCopy (scope : Scope) (d : Word) (ext : Word) (s : State) : M (Unit × State) := do
  let (engine, mine) := s.copyLoad
  if 64 ≤ engine || 16 ≤ mine then s.copyWaits
  else
    let (w, s) ← s.readDesc scope 12 d
    let desc := copyDesc w
    let es := desc.es
    let e := extents ext
    let bytes := boxCount e * es
    match s.badField desc bytes with
    | some o => stopTrap .access (d + BitVec.ofNat 64 o) s
    | none =>
      let arv : Option BR := if bitOf desc.ctrl 4 then some (Fin.ofNat 16 (bitsOf desc.ctrl 8 4)) else none
      let c : CopyRec :=
        { id := s.nextUid, runner := s.rid, die := s.r.ident.core.die, cluster := s.r.ident.core.cluster, elems := []
          esize := es, bmap := none, arv := arv, toMem := !inLocal desc.dst }
      if bytes = 0 then .ok ((), (s.acceptCopy c).advance)
      else
        let sv := boxAddrs desc.src desc.sst e es
        let dv := boxAddrs desc.dst desc.dstr e es
        let ((sk, p), s) ← s.boxKeys .load es sv
        let ((dk, q), s) ← s.boxKeys .store es dv
        let bmap := if desc.bmap = 0 then none else some (Loc.scratch s.myTeamUid (desc.bmap.toNat - 0x01FF000000000000)).key
        let c : CopyRec := { c with
          elems := sk.zip dk, bmap := bmap, peers := (p ++ q).eraseDups, pins := s.boxPins sv sk ++ s.boxPins dv dk
          alloc := bytes ≤ s.r.scal.bypass.toNat }
        .ok ((), ({ s with nextUid := s.nextUid + 1 }.acceptCopy c).advance)

/-- copy (R161–R164). -/
def execCopy (scope : Scope) (sa sb : SR) (off : BitVec 16) (s : State) : Host.Outcome State Fault Refusal :=
  outcome (doCopy scope (s.reg sa + sext off) (s.reg sb) s)

/-! ### Landing (R163) -/

/-- The chunks of a copy. -/
def CopyRec.chunks (c : CopyRec) : Nat := (c.elems.length * c.esize + 511) / 512

/-- The elements of chunk n. -/
def CopyRec.chunk (c : CopyRec) (n : Nat) : List (Nat × Nat) := (c.elems.drop (n * (512 / c.esize))).take (512 / c.esize)

/-- Whether a destination byte lies in the source box (R163). -/
def CopyRec.onSource (c : CopyRec) (k : Nat) : Bool := c.elems.any fun e => e.1 ≤ k && k < e.1 + c.esize

/-- The slice PINSLICE named for a line of a copy. -/
def CopyRec.slice (c : CopyRec) (line : Nat) : Option Nat := (c.pins.find? fun p => p.1 == line).map (·.2)

/-- Bytes a copy reads, as its runner's stores leave them to it: one not ordered before it may be missing (R103, R279). -/
def State.copyLook (s : State) (c : CopyRec) (k n : Nat) : List Byte × State :=
  let t := s.focus c.runner
  let (bs, t) := if t.rid = c.runner then t.seen (.copy c.id) k n else t.agentLook k n
  (bs, (t.focus s.rid).touchL2 k (c.slice (lineOf k)) c.runner.part false c.alloc)

/-- Whether bytes a copy reads are poisoned (R341): in host memory they may arrive so, a free choice. -/
def State.arrivesBad (s : State) (k n : Nat) : Bool × State :=
  if isHostKey k then s.freeBool else ((poisonMeets s.poison k n).isSome, s)

/-- What an element's source holds: a copy asks for what lies outside the module (R298, R304), and receives bytes nothing here
fixes (log 36). -/
def State.copyRead (s : State) (c : CopyRec) (k : Nat) : List Byte × State :=
  if isOutKey k then (s.send c.runner (askAt k fun va => .read va c.esize)).freeBytes c.esize else s.copyLook c k c.esize

/-- One element moved: a byte inside the source box receives an
unpredictable value (R163); poison goes with its bytes (R341). -/
def State.moveElem (s : State) (c : CopyRec) (e : Nat × Nat) : State :=
  let (now, s) := s.copyRead c e.1
  let bytes := (List.range c.esize).map fun i =>
    if c.onSource (e.2 + i) then Config.freeByte (s.free + 8 + i) else (now[i]?).getD 0
  let (bad, s) := s.arrivesBad e.1 c.esize
  let s := { s with free := s.free + 16 }.writeFor c.runner c.slice c.alloc (cellsFrom e.2 bytes)
  if bad && !isOutKey e.2 then { s with poison := (e.2 / 8 * 8, 8) :: s.poison } else s

/-- A bit of the completion bitmap set. -/
def State.setChunkBit (s : State) (c : CopyRec) (n : Nat) : State :=
  match c.bmap with
  | none => s
  | some k =>
    let a := k + 8 * (n / 64)
    let w := bytesVal (bytesAt s.mem a 8) ||| 2 ^ (n % 64)
    s.writeFor c.runner (fun _ => none) true (cellsFrom a (natToLeBytes 8 w))

/-- A copy with all its chunks landed is done: its arrival, and room for others (R163, R226, R229). -/
def State.endCopy (s : State) (c : CopyRec) : State :=
  let s := { s with copies := s.copies.filter fun x => x.id != c.id }
  let s := s.withRunner c.runner fun s => s.mapR fun r => r.mapHist fun h =>
    { h with copies := h.copies.filter fun x => x != c.id }
  (s.copyArrives c).unstick (teamOf c.runner)

/-- Chunk n of a copy noted as landed, the copy ended with the last one. -/
def State.noteChunk (s : State) (c : CopyRec) (n : Nat) : State :=
  let c := { c with landed := n :: c.landed }
  let s := s.setChunkBit c n
  if c.chunks ≤ c.landed.length then s.endCopy c
  else { s with copies := s.copies.map fun x => if x.id == c.id then c else x }

/-- A chunk lands (R163). -/
def State.landChunk (s : State) (c : CopyRec) (n : Nat) : State :=
  ((c.chunk n).foldl (fun s e => s.moveElem c e) s).noteChunk c n

/-- The event COPY_CHUNK_LANDED (R163). -/
def execCopyChunkLanded (id chunk : Nat) (s : State) : Host.Outcome State Fault Refusal :=
  match s.copies.find? fun c => c.id == id with
  | some c => if !c.waits && chunk < c.chunks && !c.landed.contains chunk then .next (s.landChunk c chunk)
    else .next s
  | none => .next s

end Sys2Proof.Machine
end

