-- ==== Sys2Proof/Machine/Heats.lean ====
section
/-! DEFINITION. Heats: from the loop table to teams (R249–R251), admission (R256, R261), how a team retires and a heat
ends (R102, R211, R247), the launch graph (R265). -/

namespace Sys2Proof.Machine

/-! ### The loop table (R249–R251) -/

/-- The product of the C extents. -/
def cProduct (ls : List Level) : Nat := (ls.map fun l => if l.kind = .c then l.extent else 1).foldl (fun a b => a * b) 1

/-- The runners of a loop table: the product of the D and C extents. -/
def runnerCount (ls : List Level) : Nat := (ls.map fun l => if l.kind = .t then 1 else l.extent).foldl (fun a b => a * b) 1

/-- An extent replaced. -/
def setExtent (ls : List Level) (i e : Nat) : List Level := ls.mapIdx fun j l => if j = i then { l with extent := e } else l

/-- The extent of a level. -/
def extentAt (ls : List Level) (i : Nat) : Nat := ((ls[i]?).map (·.extent)).getD 1

/-- The kind of a level. -/
def kindAt (ls : List Level) (i : Nat) : LevelKind := ((ls[i]?).map (·.kind)).getD .t

/-- Launch extents in place of the declared ones; 0 keeps the declared extent (R209). -/
def withExtents (ls : List Level) (ext : List Nat) : List Level :=
  ls.mapIdx fun i l => if (ext[i]?).getD 0 = 0 then l else { l with extent := (ext[i]?).getD 0 }

/-- By how much C level i may move while the product of the C extents stays a multiple of the team size. -/
def cStep (size : Nat) (ls : List Level) (i : Nat) : Nat := size / Nat.gcd size (cProduct (setExtent ls i 1))

/-- The innermost C level raised until the C extents fill whole teams (R251). -/
def raiseInner (size : Nat) (ls : List Level) : List Level :=
  let i := (((List.range ls.length).filter fun i => kindAt ls i = .c).getLast?).getD 0
  let st := max 1 (cStep size ls i)
  setExtent ls i ((extentAt ls i + st - 1) / st * st)

/-- A spatial level lowered when the runner count reaches 2^32 (R251). -/
def lowerLevel (size : Nat) (ls : List Level) (i : Nat) : List Level :=
  if runnerCount ls < 2 ^ 32 || kindAt ls i = .t then ls
  else
    let st := if kindAt ls i = .c then max 1 (cStep size ls i) else 1
    setExtent ls i (max st ((2 ^ 32 - 1) / max 1 (runnerCount (setExtent ls i 1)) / st * st))

/-- The loop table a heat runs with (R251): where lowering the outermost level is not enough, the next one follows. -/
def launchLoops (size : Nat) (ls : List Level) (ext : List Nat) : List Level :=
  (List.range ls.length).foldl (lowerLevel size) (raiseInner size (withExtents ls ext))

/-- The runners of a team. -/
def teamSize (d : HeatDesc) : Nat := max 1 (d.cores * d.perCore)

/-- The D digit of a team: its runners' LIDX0 when level 0 is a D level (R252). -/
def teamDigit (ls : List Level) (size team : Nat) : Nat :=
  if kindAt ls 0 = .d then team * size / max 1 (cProduct ls) else 0

/-- The digits of a linear index, outermost first: 0 for a T level (R250). -/
def digitsOf : List Level → Nat → List Nat
  | [], _ => []
  | l :: t, n => if l.kind = .t then 0 :: digitsOf t n else n / runnerCount t :: digitsOf t (n % runnerCount t)

/-! ### Admission (R209, R256, R261, R265) -/

/-- 0x9E37_79B9_7F4A_7C15, the step of derived seeds (R209). -/
def goldenSeed : Word := 0x9E3779B97F4A7C15

/-- A heat's seed: the one given, or one derived from the launcher's and the new identifier. -/
def seedOf (given base : Word) (id : Nat) : Word := if given = 0 then base + goldenSeed * BitVec.ofNat 64 id else given

/-- A new heat of a partition's meet, before its admission. -/
def State.newHeat (s : State) (p : Part) (number : Nat) (d : HeatDesc) (args given base : Word) (pri : Option Nat)
    (ext : List Nat) (launcher node : Option Nat) : Heat :=
  { part := p.idx, id := p.nextHeat, uid := s.nextUid, number := number, desc := d, args := args
    seed := seedOf given base p.nextHeat, pri := Fin.ofNat 8 (pri.getD d.prio)
    loops := launchLoops (teamSize d) d.loops ext, launcher := launcher, node := node }

/-- The teams of a heat (R250). -/
def Heat.teamCount (h : Heat) : Nat := runnerCount h.loops / teamSize h.desc

/-- What is reserved for a team of a concurrent heat (R256): the class, and the cluster that has a resident slot for it or the
bytes of the pre-emption pool that it holds. -/
structure Resv where
  m : Bool
  slot : Option (Nat × Nat) := none
  pool : Nat := 0
  deriving DecidableEq, Repr

/-- A team of a heat at its admission: its barriers with the counts of the descriptor (R63, R263). -/
def Heat.team (h : Heat) (queue n : Nat) (resv : Option Resv) : Team :=
  let count (b : Nat) : Nat := (h.desc.barcnt[b]?).getD (teamSize h.desc)
  { id := { part := h.part, heat := h.id, team := n }, uid := h.uid + 1 + n, queue := queue
    digit := teamDigit h.loops (teamSize h.desc) n
    bars := Vector.ofFn fun (b : Fin 16) => { expected := count b.val }
    resvM := resv.map (·.m), resvAt := resv.bind (·.slot), resvPool := (resv.map (·.pool)).getD 0 }

/-- Whether a core is retired. -/
def State.coreRetired (s : State) (c : CoreId) : Bool := (s.core c).retired

/-- The cores of a cluster. -/
def coresOf (die cluster : Nat) : List CoreId :=
  (List.range (if isM cluster then 4 else 8)).map fun i => { die := die, cluster := cluster, core := i }

/-- The cores of a class that a partition owns and that serve. -/
def State.classCores (s : State) (p : Part) (m : Bool) : Nat :=
  ((p.record.clusters.filter fun c => isM c.2 == m).map fun c =>
    (coresOf c.1 c.2).countP fun k => !s.coreRetired k).sum

/-- The cores a partition's concurrent teams hold of a class (R256). -/
def State.classTaken (s : State) (p : Part) (m : Bool) : Nat :=
  (s.teams.map fun t =>
    if t.id.part == p.idx && t.resvM == some m && t.stat != .retired then
      ((s.heat? p.idx t.id.heat).map fun h => h.desc.cores).getD 0 else 0).sum

/-- A heat's split for a class. -/
def splitFor (d : HeatDesc) (m : Bool) : Option Split := if m then d.splitM else d.splitE

/-- Bytes of the largest attach part of a class (R335). -/
def attachBytes (m : Bool) : Nat :=
  if m then 64 + 4 * (64 + 64 * 128 * 4) + 384 * 258 else 64 + 4 * (64 + 16 * 16 * 8) + 64 * 130

/-- Bytes of a team record with every attach part (R333 to R335). -/
def recordBytes (d : HeatDesc) (sp : Split) (m : Bool) : Nat :=
  256 + d.scratch + d.cores * (sp.tcmKiB * 1024 + attachBytes m) + d.cores * d.perCore * (2048 + 36 * sp.vlen)

/-- Save space for the team that a team may displace: the largest of the meet on that class (log 12). -/
def Part.saveSpace (p : Part) (m : Bool) : Nat :=
  (((p.loaded.map (·.heats)).getD []).map fun d => ((splitFor d m).map fun sp => recordBytes d sp m).getD 0).foldl max 0

/-- What is left to reserve of a partition: cores of each class, cores of each cluster, bytes of the pre-emption pool. -/
structure Room where
  m : Nat
  e : Nat
  slots : List ((Nat × Nat) × Nat)
  pool : Nat

/-- The cores of a class that are left. -/
def Room.ofClass (r : Room) (m : Bool) : Nat := if m then r.m else r.e

/-- A resident slot of a class for some cores. -/
def Room.slot? (r : Room) (m : Bool) (cores : Nat) : Option (Nat × Nat) :=
  (r.slots.find? fun x => isM x.1.2 == m && cores ≤ x.2).map (·.1)

/-- What is left after a team's reservation. -/
def Room.less (r : Room) (cores : Nat) (x : Resv) : Room :=
  { m := if x.m then r.m - cores else r.m
    e := if x.m then r.e else r.e - cores
    slots := r.slots.map fun y => if x.slot == some y.1 then (y.1, y.2 - cores) else y
    pool := if x.pool = 0 then r.pool else r.pool - x.pool }

/-- A reservation for one team: a resident slot, an M-cluster's before an E-cluster's, else save space (R256). -/
def Room.resv (r : Room) (d : HeatDesc) (space : Bool → Nat) : Option Resv :=
  let may (m : Bool) : Bool := (splitFor d m).isSome && d.cores ≤ r.ofClass m
  let slot (m : Bool) : Option Resv := if may m then (r.slot? m d.cores).map fun c => { m := m, slot := some c } else none
  let save (m : Bool) : Option Resv := if may m && space m ≤ r.pool then some { m := m, pool := space m } else none
  (slot true).or ((slot false).or ((save true).or (save false)))

/-- Reservations for n teams. -/
def Room.assign (d : HeatDesc) (space : Bool → Nat) : Nat → Room → Option (List Resv)
  | 0, _ => some []
  | n + 1, r => (r.resv d space).bind fun x => (Room.assign d space n (r.less d.cores x)).map fun l => x :: l

/-- Whether the ways a partition's live heats may carve on one die at once fit, the concurrent ones counted whole (R256, R294). -/
def State.dsmRoom (s : State) (p : Part) (h : Heat) : Bool :=
  h.desc.dsmWays = 0 ||
  (p.record.clusters.map (·.1)).eraseDups.all fun d =>
    let carved := ((s.die d).carved.map fun c =>
      if s.heats.any fun g => g.uid == c.1 && g.desc.cls == .concurrent && g.part == p.idx then 0 else c.2.length).sum
    let held := (s.heats.map fun g => if g.desc.cls == .concurrent && g.part == p.idx then g.desc.dsmWays else 0).sum
    carved + held + h.desc.dsmWays ≤ 10

/-- Whether a concurrent team holds cores of a cluster or has them reserved. -/
def Team.takesOf (t : Team) (c : Nat × Nat) : Bool :=
  t.resvM.isSome && (t.resvAt == some c || (t.place.map fun p => (p.die, p.cluster)) == some c)

/-- What a partition's concurrent teams leave (R256). The size of its pre-emption pool is its firmware's (log 12). -/
def State.room (s : State) (p : Part) : Room :=
  let cores (t : Team) : Nat := ((s.heat? p.idx t.id.heat).map fun h => h.desc.cores).getD 0
  let ts := s.teams.filter fun t => t.id.part == p.idx && t.stat != .retired
  { m := s.classCores p true - s.classTaken p true
    e := s.classCores p false - s.classTaken p false
    slots := p.record.clusters.map fun c =>
      (c, (coresOf c.1 c.2).countP (fun k => !s.coreRetired k) - (ts.map fun t => if t.takesOf c then cores t else 0).sum)
    pool := Config.poolBytes p.idx - (ts.map (·.resvPool)).sum }

/-- The reservation of a concurrent heat (R256): one for each team, or no room. -/
def State.reserve (s : State) (p : Part) (h : Heat) : Option (List (Option Resv)) :=
  if h.desc.cls != .concurrent then some (List.replicate h.teamCount none)
  else if !s.dsmRoom p h then none
  else (Room.assign h.desc p.saveSpace h.teamCount (s.room p)).map fun l => l.map some

/-- The queue of a home level that holds the fewest teams, the lowest on a tie (R261). -/
def Part.homeQueue (p : Part) (level : Nat) : Nat :=
  (List.range 8).foldl (fun b i =>
    let n (q : Nat) : Nat := ((p.queues[q]?).map fun w => w.teams.length).getD 0
    if n (8 * level + i) < n b then 8 * level + i else b) (8 * level)

/-- A work queue changed. -/
def Part.mapQueue (p : Part) (i : Nat) (f : WorkQueue → WorkQueue) : Part :=
  { p with queues := p.queues.mapIdx fun j q => if j = i then f q else q }

/-- Teams joining a queue; a head that is new waits from now on (R262). -/
def WorkQueue.join (q : WorkQueue) (ts : List TeamId) (front : Bool) (now : Nat) : WorkQueue :=
  { q with teams := if front then ts ++ q.teams else q.teams ++ ts, since := if front || q.teams.isEmpty then now else q.since }

/-- A heat identifier used (R209): the next runs from 1 to 2^32 − 1. -/
def Part.useId (p : Part) : Part := { p with nextHeat := p.nextHeat % (2 ^ 32 - 1) + 1 }

/-- A heat admitted: its teams in increasing TEAM at the end of its queue (R261); none is NOROOM. -/
def State.admitHeat (s : State) (h : Heat) : Option State :=
  match s.part? h.part with
  | none => none
  | some p =>
    (s.reserve p h).map fun rs =>
      let q := p.homeQueue h.pri.val
      let ts := (rs.zip (List.range rs.length)).map fun x => h.team q x.2 x.1
      let h := { h with order := s.nextUid, admitted := s.time }
      let s : State := { s with
        heats := s.heats ++ [h], teams := s.teams ++ ts, nextUid := max (s.nextUid + 1) (h.uid + 1 + ts.length) }
      s.setPart (p.mapQueue q fun w => w.join (ts.map (·.id)) false s.time)

/-- A heat that waits for the host's approval (R357): the names of its teams are taken. -/
def State.holdAdmission (s : State) (p : Part) (a : Admission) : State :=
  { s.setPart { p with admissions := p.admissions ++ [a] } with nextUid := max s.nextUid (a.heat.uid + 1 + a.heat.teamCount) }

/-- Whether a partition's function runs host-assisted (R357). -/
def Part.assisted (p : Part) (bit : Nat) : Bool := p.record.modes.getLsbD bit

/-! ### The end of a heat (R102, R210, R211, R247) -/

/-- A runner of a condemned heat stops where it stands: what is not complete is cancelled, a protected strip's buffer with
it, and its waits and leases are given up (R211, R330). -/
def State.haltRunner (s : State) : State :=
  let s := (if s.r.strip.prot then s.rewind 3 else s.cancelYounger).drainShare.endLeases
  (s.leaveUnit s.rid s.r.ident.core).mapR fun r =>
    { r with wait := none, asks := [], replies := [], stat := .stopped, strip := { r.strip with prot := false, active := false } }

/-- A heat that ends early. -/
def State.condemned (s : State) (t : TeamId) : Bool := ((s.heat? t.part t.heat).map (·.cancelled)).getD false

/-- Whether a heat has been ended by a trap of this very tick: runners that have not trapped go on to the end of the tick, since
the trap of the lowest of those that trap in it is recorded (R247). -/
def State.endsThisTick (s : State) (t : TeamId) : Bool :=
  ((s.heat? t.part t.heat).bind fun h => h.trapBy.map fun b => b.1 == s.time).getD false

/-- The runners of condemned heats stop (R211, R247). -/
def State.haltCondemned (s : State) : State :=
  let rs := s.allRunners.filter fun x => s.condemned (teamOf x.ident.id) &&
    (x.stat == .ready || x.stat == .waiting || x.stat == .stalled) &&
    (x.scal.sysr.inh || !s.endsThisTick (teamOf x.ident.id))
  rs.foldl (fun s x => s.withRunner x.ident.id State.haltRunner) s

/-- Whether a team is done: its runners have exited, or its heat ends early and they have stopped, and its copies have
landed (R102). -/
def State.teamDone (s : State) (t : Team) : Bool :=
  (t.stat == .resident || t.stat == .stopping) &&
  (s.teamRunners t.id).all (fun x => x.stat == .exited || (s.condemned t.id && x.stat == .stopped)) &&
  !s.copies.any fun c => teamOf c.runner == t.id

/-- The cores a team sits on. -/
def Team.coreIds (t : Team) : List CoreId :=
  match t.place with
  | some p => p.cores.map fun c => { die := p.die, cluster := p.cluster, core := c }
  | none => []

/-- A team retires (R102): its runners' leases are given up (R211), its cores are free, its reservation is returned (R256). -/
def State.retireTeam (s : State) (t : Team) : State :=
  let s := (s.teamRunners t.id).foldl (fun s x => s.withRunner x.ident.id State.endLeases) s
  let s := t.coreIds.foldl (fun s c => (s.landOps c (fun _ => true) (fun _ => true)).endAttach c none State.toHold) s
  s.setTeam { t with stat := .retired, place := none, resvM := none, resvAt := none, resvPool := 0, image := none }

/-- The teams that are done retire. -/
def State.retireTeams (s : State) : State := (s.teams.filter s.teamDone).foldl State.retireTeam s

/-- A queue without some teams; a new head waits from now on (R262). -/
def WorkQueue.prune (q : WorkQueue) (gone : List TeamId) (now : Nat) : WorkQueue :=
  let ts := q.teams.filter fun t => !gone.contains t
  { q with teams := ts, since := if ts.head? == q.teams.head? then q.since else now }

/-- Retired teams leave the work queues. -/
def State.pruneQueues (s : State) : State :=
  let gone := (s.teams.filter fun t => t.stat == .retired).map (·.id)
  if gone.isEmpty then s
  else { s with parts := s.parts.map fun p => { p with queues := p.queues.map fun q => q.prune gone s.time } }

/-- A node of a launch graph set. -/
def Part.setNode (p : Part) (i : Nat) (n : Node) : Part := { p with nodes := p.nodes.set i n }

/-- A heat has ended (R102, R210): its status is kept, unless the heat that launched it has ended before it; those of the heats it
launched are forgotten; its carved ways
return to caching (R294); the cause that ended it is reported to the partition (R29). -/
def State.endHeat (s : State) (h : Heat) : State :=
  let st := if h.cancelled then h.status else 0
  let s : State := { s with
    heats := s.heats.filter fun g => !(g.part == h.part && g.id == h.id)
    teams := s.teams.filter fun t => !(t.id.part == h.part && t.id.heat == h.id)
    rs := s.rs.filter fun x => !(x.1.part == h.part && x.1.heat == h.id)
    dies := s.dies.map fun d => { d with carved := d.carved.filter fun c => c.1 != h.uid } }
  let s := if s.rid.part = h.part ∧ s.rid.heat = h.id then s.mapR fun r => { r with stat := .exited } else s
  match s.part? h.part with
  | none => s
  | some p =>
    let keep := h.launcher.all fun l => s.heats.any fun g => g.part == h.part && g.id == l
    let p := { p with
      ended := (p.ended.filter fun e => e.2.2 != some h.id) ++ if keep then [(h.id, st, h.launcher)] else []
      trapRec := if h.trap.isSome then h.trap else p.trapRec
      colls := p.colls.filter fun c => c.heat != h.id
      pool := p.pool.filter fun x => x.1.heat != h.id }
    s.setPart (match h.node with
      | some i => p.setNode i (.ended st)
      | none => p)

/-- Heats all of whose teams have retired end. -/
def State.endHeats (s : State) : State :=
  (s.heats.filter fun h => s.teams.all fun t => !(t.id.part == h.part && t.id.heat == h.id) || t.stat == .retired).foldl
    State.endHeat s

/-! ### The launch graph (R265) -/

/-- The status a node ended with. -/
def Part.nodeStatus (p : Part) (i : Nat) : Option Nat :=
  match p.nodes[i]? with
  | some (.ended st) => some st
  | _ => none

/-- A node fires (R265): admitted with ARGBASE, or held for the host's approval; one that fails ends with status 1. -/
def State.startNode (s : State) (p : Part) (i : Nat) (d : HeatDesc) : State :=
  let h := s.newHeat p i d p.nodeArgs 0 0 none [] none (some i)
  let q := p.useId
  if p.assisted 2 then
    s.holdAdmission (q.setNode i (.fired h.id)) { heat := h, launcher := none }
  else
    match (s.setPart (q.setNode i (.fired h.id))).admitHeat h with
    | some s => s
    | none => s.setPart { q.setNode i (.ended 1) with ended := q.ended ++ [(h.id, 1, none)] }

/-- A node looked at: it fires when every predecessor ended with status 0, and is cancelled by any other status. -/
def State.tryNode (s : State) (part : Nat) (x : HeatDesc × Nat) : State :=
  match s.part? part with
  | none => s
  | some p =>
    if p.nodes[x.2]? != some .idle || x.1.launched then s
    else if x.1.preds.any fun j => ((p.nodeStatus j).map fun st => decide (st ≠ 0)).getD false then s.setPart (p.setNode x.2 (.ended 1))
    else if x.1.preds.all fun j => p.nodeStatus j = some 0 then s.startNode p x.2 x.1
    else s

/-- Every node of a partition's graph looked at. -/
def State.tryNodes (s : State) (p : Part) : State :=
  let ds := ((p.loaded.map (·.heats)).getD [])
  (ds.zip (List.range ds.length)).foldl (fun s x => s.tryNode p.idx x) s

/-- The graph of a partition fired as far as it goes: a cancelled node cancels those after it. -/
def State.fireGraph (s : State) (p : Part) : State := (List.range p.nodes.length).foldl (fun s _ => s.tryNodes p) s

/-- What follows from teams and runners that have ended: runners of condemned heats stop, teams retire, heats end,
launch-graph nodes fire. -/
def State.tidy (s : State) : State :=
  let s := s.haltCondemned.retireTeams.pruneQueues.endHeats
  s.parts.foldl State.fireGraph s

end Sys2Proof.Machine
end

