-- ==== Sys2Proof/Machine/Launch.lean ====
section
/-! DEFINITION. LAUNCH, LJOIN, LCANCEL (R209–R211) and EXIT (R102). -/

namespace Sys2Proof.Machine

/-! ### LAUNCH (R209) -/

/-- The first reserved field of a launch descriptor that is not zero, by offset. -/
def badLaunchField (w : List Word) : Option Nat :=
  let f (n : Nat) : Word := (w[n]?).getD 0
  if bitsOf (f 0) 16 48 != 0 then some 0x00
  else if bitsOf (f 3) 4 60 != 0 then some 0x18
  else if f 6 != 0 || f 7 != 0 then some 0x30
  else none

/-- The priority a launch descriptor asks for, if its USE bit is set. -/
def launchPrio (w : Word) : Option Nat := if bitOf w 3 then some (bitsOf w 0 3) else none

/-- The extents of a launch descriptor. -/
def launchExts (w : List Word) : List Nat :=
  let f (n : Nat) : Word := (w[n]?).getD 0
  [bitsOf (f 4) 0 32, bitsOf (f 4) 32 32, bitsOf (f 5) 0 32, bitsOf (f 5) 32 32]

/-- A heat admitted for its launcher: its identifier, or NOROOM. In host-assisted mode the launcher waits for the host's
decision (R357). -/
def State.launchHeat (s : State) (p : Part) (h : Heat) (sd : SR) : M (Unit × State) :=
  if (s.reserve p h).isNone then .ok ((), (s.setReg sd (-1)).advance)
  else
    let q := p.useId
    if p.assisted 2 then
      .error (.ask .admission, s.holdAdmission q { heat := h, launcher := some s.rid })
    else match (s.setPart q).admitHeat h with
    | some s => .ok ((), (s.setReg sd (BitVec.ofNat 64 h.id)).advance)
    | none => .ok ((), (s.setReg sd (-1)).advance)

/-- LAUNCH with its descriptor read. -/
def State.launchDesc (s : State) (w : List Word) (sd : SR) : M (Unit × State) :=
  let f (n : Nat) : Word := (w[n]?).getD 0
  match s.part? s.rid.part with
  | none => .ok ((), (s.setReg sd (-2)).advance)
  | some p =>
    match ((p.loaded.map (·.heats)).getD [])[(f 0).toNat]? with
    | none => .ok ((), (s.setReg sd (-2)).advance)
    | some d =>
      s.launchHeat p (s.newHeat p (f 0).toNat d (f 1) (f 2) s.r.ident.seed (launchPrio (f 3)) (launchExts w)
        (some s.rid.heat) none) sd

/-- The host's answer to the admission a LAUNCH waits for. -/
def admissionWord : Reply → Word
  | .data bs => BitVec.ofNat 64 (bytesVal bs)
  | _ => -1

/-- The effect of LAUNCH. -/
def doLaunch (sd sa : SR) (s : State) : M (Unit × State) :=
  match s.r.replies.find? fun x => x.1 == .admission with
  | some (_, a) => .ok ((), (s.setReg sd (admissionWord a)).advance)
  | none => do
    let s := s.endProt
    let d := s.reg sa
    let (w, s) ← s.readDesc .runner 8 d
    match badLaunchField w with
    | some o => stopTrap .access (d + BitVec.ofNat 64 o) s
    | none => s.drainShare.fenceAll.launchDesc w sd

/-- launch (R209). -/
def execLaunch (sd sa : SR) (s : State) : Host.Outcome State Fault Refusal := outcome (s.afterVector (doLaunch sd sa))

/-! ### LJOIN (R210) -/

/-- The kept status of an ended heat. -/
def State.endedStatus (s : State) (id : Nat) : Option Nat :=
  (s.part? s.rid.part).bind fun p => (p.ended.find? fun e => e.1 == id).map (·.2.1)

/-- A kept status read: it is forgotten. -/
def State.takeStatus (s : State) (id : Nat) : State :=
  match s.part? s.rid.part with
  | none => s
  | some p => s.setPart { p with ended := p.ended.filter fun e => e.1 != id }

/-- One look of LJOIN (R210): after status 0 the joined heat's stores are before both sides' later accesses (R277, R278). -/
def pollJoin (w : WaitRec) (s : State) : M (Bool × State) :=
  let id := w.what.toNat
  match s.endedStatus id with
  | some st => .ok (true, (((if st = 0 then s.fenceAll.acquireL1 .package else s).takeStatus id).setReg w.sd (BitVec.ofNat 64 st)).advance)
  | none =>
    if (s.liveHeat id).isSome then s.deadlineEnd w 3 w.what
    else .ok (true, (s.setReg w.sd 4).advance)

/-- ljoin (R210). -/
def execLjoin (sd sa : SR) (s : State) : Host.Outcome State Fault Refusal :=
  outcome (s.enterWait (fun s => do
    let named := (s.reg sa).toNat
    let (p, s) ← s.compat 0x20 named
    .ok ({ s.newWait .join (s.reg sa) sd with desig := 0x20, pcls := p, named := some named }, s)) pollJoin)

/-! ### LCANCEL (R211) -/

/-- lcancel (R211): after earlier vector instructions, since a cancellation cannot be undone (R233). DEDUCED (log 92): a heat that
has ended answers 4, its status kept or not. -/
def execLcancel (sd sa : SR) (s : State) : Host.Outcome State Fault Refusal :=
  outcome (s.afterVector fun s =>
    let id := (s.reg sa).toNat
    if id = s.rid.heat then .ok ((), (s.setReg sd 5).advance)
    else if (s.liveHeat id).isNone then .ok ((), (s.setReg sd 4).advance)
    else .ok ((), (((s.setReg sd 0).advance).condemn s.rid.part id 1 none).tidy))

/-! ### EXIT (R102) -/

/-- Whether the running runner is the last of its core that runs. -/
def State.lastOnCore (s : State) : Bool :=
  s.rs.all fun x => x.2.ident.core != s.r.ident.core ||
    !(x.2.stat == .ready || x.2.stat == .waiting || x.2.stat == .stalled || x.2.stat == .stopped)

/-- DETACH at the last EXIT of a core: unsaved accumulators are lost, a lost share is forgotten. -/
def State.exitDetach (s : State) : State :=
  if s.lastOnCore then
    let c := s.r.ident.core
    (((s.landOps c (fun _ => true) (fun _ => true)).takeTileFlags).endAttach c none State.toHold).setLoss none
  else s

/-- A barrier's expected count lowered by one: the phase ends when its arrived count now equals it (R102 step 7). -/
def Barrier.lower (b : Barrier) : Barrier :=
  let e := b.expected - 1
  if b.arrived = e then { expected := e, arrived := 0, phase := !b.phase } else { b with expected := e }

/-- The barriers of the running runner's team lowered; phases that end drain the team's shares (R283). -/
def State.lowerBarriers (s : State) : State :=
  match s.myTeam? with
  | none => s
  | some t =>
    let s := s.setTeam { t with bars := t.bars.map Barrier.lower }
    if t.bars.toList.any fun b => b.arrived = b.expected - 1 then s.drainTeam t.id else s

/-- The strip of an exiting runner: its buffer commits, SSTAT clears (R102 step 1). -/
def State.exitStrip (s : State) : State :=
  if s.r.strip.active then s.commitStrip.mapR fun r =>
    { r with strip := { r.strip with active := false, prot := false, rewinds := 0, last := 0 } } else s

/-- The effect of EXIT. -/
def doExit (s : State) : State :=
  let s := s.exitStrip.drainShare.fenceAll
  let s := s.mapR fun r => { r with streams := [], queues := Vector.replicate 4 [], sya := none, stat := .exited }
  let s := s.exitDetach.endLeases.lowerBarriers
  (s.unstick (teamOf s.rid)).tidy

/-- The streams at the end of the vector queue that have not landed, taken out with their records; both lists newest
first. -/
def dropTail : List VItem → List StreamRec → List VItem × List StreamRec
  | .vec i a b c :: t, x :: xs =>
    if x.i = i && x.landed.length < x.recs.length then dropTail t xs else (.vec i a b c :: t, x :: xs)
  | .vec i a b c :: t, [] => (.vec i a b c :: t, [])
  | y :: t, xs => let (q, zs) := dropTail t xs; (y :: q, zs)
  | [], xs => ([], xs)

/-- Streams that no later vector instruction waits for and that have not landed are discarded (R102 step 3). -/
def State.dropStreams (s : State) : State :=
  if s.r.streams.isEmpty then s
  else
    let (q, xs) := dropTail s.r.vq.reverse s.r.streams.reverse
    s.mapR fun r => { r with vq := q.reverse, streams := xs.reverse }

/-- exit (R102): a report point (R104). -/
def execExit (s : State) : Host.Outcome State Fault Refusal :=
  outcome ((if s.r.fabric.isNone then s.dropStreams else s).afterVector fun s => s.report fun s => .ok ((), doExit s))

end Sys2Proof.Machine
end

