-- ==== Sys2Proof/Machine/Strideform.lean ====
section
/-! DEFINITION. Strideform kernels (R266): their translation to a native image, the translation cache with its key (R267), the
image a team starts with (R268); the lane map and the column map (R325, R353). -/

namespace Sys2Proof

open Machine

/-! ### What a kernel may hold (R266) -/

/-- An operation a body may use: a vector instruction, neither a load nor a store nor an engine's. -/
def bodyOp (i : Instr) : Bool := (unitsOf i).all (fun u => u == .fma || u == .alu || u == .xp) && !(unitsOf i).isEmpty

/-- A stream of a kernel: four extents from 1 and four strides at most, a tag of R45. -/
def SfStream.ok (x : SfStream) : Bool :=
  x.ext.length ≤ 4 && x.ext.all (fun n => 1 ≤ n) && x.str.length ≤ 4 && (Fmt.ofTag x.tag).isSome

/-- A kernel of R266: streams, and a body of vector operations. -/
def SfKernel.ok (k : SfKernel) : Bool :=
  k.streams.all SfStream.ok && k.body.all fun w => ((wordInstr (natToLeBytes 8 w.toNat)).map bodyOp).getD false

/-! ### The translation (R266, log 68) -/

/-- The iteration space on a dimension: the largest extent. -/
def SfKernel.extent (k : SfKernel) (d : Nat) : Nat := (k.streams.map fun x => (x.ext[d]?).getD 1).foldl max 1

/-- A stream's byte step on a dimension; one whose extent there is 1 stays where it is. -/
def SfStream.step (x : SfStream) (d : Nat) : Int := if (x.ext[d]?).getD 1 ≤ 1 then 0 else (x.str[d]?).getD 0

/-- The bits of a stream's element. -/
def SfStream.bits (x : SfStream) : Nat := ((Fmt.ofTag x.tag).map (·.width)).getD 8

/-- Whether a stream's elements are not whole bytes: its accesses are unit-stride. -/
def SfStream.packed (x : SfStream) : Bool := x.bits % 8 != 0

/-- VTYPE of an image: the element width of the widest stream, every mode as at runner start. -/
def SfKernel.vtype (k : SfKernel) : Word :=
  let w := (k.streams.map SfStream.bits).foldl max 8
  BitVec.ofNat 64 (256 * (if w ≤ 8 then 0 else if w ≤ 16 then 1 else if w ≤ 32 then 2 else 3))

/-- Instructions as words. -/
def codeOf (l : List Instr) : List Word := l.map wordOf

/-- A scalar register set to a constant. -/
def setConst (r : SR) (w : Word) : List Instr := [.add r 0 (.imm (w.setWidth 32)), .lih r r ((w >>> 32).setWidth 32)]

/-- The counter of the loop over dimension d: s8 to s10. -/
def counterOf (d : Nat) : SR := Fin.ofNat 64 (7 + d)

/-- What sets up one stream: its register's tag. -/
def SfStream.setup (x : SfStream) : List Instr := [.vtag x.reg x.reg x.tag]

/-- The offset of a stream along an outer dimension, by how many rounds of its loop are done, added to s14. -/
def SfStream.along (x : SfStream) (k : SfKernel) (d : Nat) : List Instr :=
  if x.step d = 0 then []
  else setConst 11 (BitVec.ofNat 64 (k.extent d)) ++ [.sub 11 11 (.reg (counterOf d))] ++ setConst 15 (BitVec.ofInt 64 (x.step d)) ++
    [.mul 11 11 (.reg 15), .add 14 14 (.reg 11)]

/-- The offset of a stream along the innermost dimension, s13 elements on, added to s14; s15 holds its step. -/
def SfStream.inner (x : SfStream) : List Instr :=
  if x.packed then
    (if x.step 0 = 0 then [] else setConst 15 (BitVec.ofNat 64 x.bits) ++ [.mul 11 13 (.reg 15), .shr 11 11 (.imm 3), .add 14 14 (.reg 11)])
  else setConst 15 (BitVec.ofInt 64 (x.step 0)) ++ [.mul 11 13 (.reg 15), .add 14 14 (.reg 11)]

/-- A stream's address at a strip, in s14: its base from the argument block, and what the loops have done. -/
def SfStream.addr (x : SfStream) (k : SfKernel) : List Instr :=
  setConst 14 (BitVec.ofNat 64 x.base) ++ [.add 14 14 (.reg 3), .ld .d false .runner 14 14 0] ++
  x.along k 1 ++ x.along k 2 ++ x.along k 3 ++ x.inner

/-- The load of a stream's elements. -/
def SfStream.load (x : SfStream) (k : SfKernel) : List Instr :=
  if x.dir = .write then [] else x.addr k ++ if x.packed then [.vld {} x.reg 14 0 0] else [.vlds {} x.reg 14 15 0]

/-- The store of a stream's elements. -/
def SfStream.store (x : SfStream) (k : SfKernel) : List Instr :=
  if x.dir = .read then [] else x.addr k ++ if x.packed then [.vst {} x.reg 14 0 0] else [.vsts {} x.reg 14 15 0]

/-- The strip cap of image n: the one the kernel states, every strip being shorter than 2^16 elements, else the translator's. -/
def SfKernel.stripCap (k : SfKernel) (host : Bool) (n : Nat) : BitVec 16 :=
  match k.cap with
  | some c => BitVec.ofNat 16 (min c 65535)
  | none => Config.stripCap host n

/-- The strip-mined loop over the innermost dimension: read streams, body, write streams; s6 holds a strip's length. -/
def SfKernel.strip (k : SfKernel) (cap : BitVec 16) : List Word :=
  let loop := codeOf (k.streams.flatMap fun x => x.load k) ++ k.body ++ codeOf ((k.streams.flatMap fun x => x.store k) ++ [.add 13 13 (.reg 6)])
  codeOf ([.add 13 0 (.imm 0)] ++ setConst 7 (BitVec.ofNat 64 (k.extent 0)) ++ [.stripBegin 6 7 5 cap]) ++ loop ++
  codeOf [.stripNext 6 (-(BitVec.ofNat 32 loop.length))]

/-- A loop over dimension d around an inner one. -/
def SfKernel.around (k : SfKernel) (d : Nat) (loop : List Word) : List Word :=
  let c := counterOf d
  codeOf (setConst c (BitVec.ofNat 64 (k.extent d))) ++ loop ++
  codeOf [.add c c (.imm (-1)), .bne c 0 (-(BitVec.ofNat 32 (loop.length + 1)))]

/-- The native image of a kernel: tags set up, s13 named for induction, four nested loops, EXIT. -/
def SfKernel.image (k : SfKernel) (cap : BitVec 16) : List Word :=
  codeOf (setConst 12 k.vtype ++ [.vcfgw 12] ++ (k.streams.flatMap SfStream.setup) ++ setConst 5 0x2000) ++
  k.around 3 (k.around 2 (k.around 1 (k.strip cap))) ++ codeOf [.exit]

/-- Where an image at an offset lies in the meet's address space: one follows the other (R268, log 68). -/
def Package.imageAt (g : Package) (off : Nat) : Word := BitVec.ofNat 64 (g.sfBase + off)

end Sys2Proof

namespace Sys2Proof.Machine

/-! ### Lane map, column map and the cache's key (R267, R325, R353) -/

/-- Every core, by die, cluster, core. -/
def allCores : List CoreId := (List.range 8).flatMap fun d => (List.range 18).flatMap fun c => coresOf d c

/-- A lane group's entry of LANEMAP. -/
def LaneGroup.entry (g : LaneGroup) : Nat := g.lanes.toNat + 2 ^ 15 * g.retired.toNat

/-- LANEMAP. -/
def State.laneMap (s : State) : List Byte :=
  allCores.flatMap fun c => (s.core c).groups.flatMap fun g => natToLeBytes 2 g.entry

/-- Spare columns in each half of a cluster's unit (R216). -/
def spareColumns (cluster : Nat) : Nat := if isM cluster then 2 else 1

/-- A half's entry of COLMAP: spares used, and whether it is retired. -/
def Cluster.halfEntry (c : Cluster) (h : Fin 2) : Nat := (spareColumns c.idx - c.spares[h]) + 2 ^ 15 * c.retired[h].toNat

/-- COLMAP. -/
def State.colMap (s : State) : List Byte :=
  (List.range 8).flatMap fun d => (List.range 18).flatMap fun c =>
    natToLeBytes 2 ((s.cluster d c).halfEntry 0) ++ natToLeBytes 2 ((s.cluster d c).halfEntry 1)

/-- The key of the translation cache (R267): SHA-512 over the kernel, the translator's version, the feature vector, the
microcode revision and the numeric behaviour version, each number little-endian (log 68). -/
def State.sfKey (s : State) (k : SfKernel) (m host : Bool) : List Byte :=
  sha512 (k.bytes ++ natToLeBytes 4 (Config.translatorVersion host).toNat ++
    natToLeBytes 8 (Config.featureVector m s.laneMap s.colMap).toNat ++ natToLeBytes 4 Config.microcodeRevision.toNat ++
    natToLeBytes 4 3)

/-! ### The image a team starts with (R267, R268) -/

/-- A new translation of some words in the cache, behind every image so far: the one that teams start with from now on (R268). -/
def Part.newImage (p : Part) (kernel : Nat) (key : List Byte) (words : Nat) : Part :=
  { p with
    images := (p.images.map fun x => if x.kernel == kernel && x.key == key then { x with current := false } else x) ++
      [{ num := p.nextImage, kernel := kernel, key := key, off := p.imageEnd }]
    nextImage := p.nextImage + 1
    imageEnd := p.imageEnd + 8 * words }

/-- The image of a heat's Strideform kernel on a class, by number and offset, with what has still to be written of it: the cached
one, or a new translation where there is none or the translator swaps in a better one, a free choice (R267, R268, log 68). The
host translates in host-assisted mode (R357). -/
def State.imageFor (s : State) (part : Nat) (g : Package) (d : HeatDesc) (m : Bool) : Option (Nat × Nat × List Word) × State :=
  match s.part? part, d.strideform.bind fun n => (g.kernels[n]?).map fun k => (n, k) with
  | some p, some (n, k) =>
    let host := p.assisted 4
    let key := s.sfKey k m host
    let (again, s) := s.freeBool
    match p.images.find? fun x => x.kernel == n && x.key == key && x.current && !again with
    | some x => (some (x.num, x.off, []), s)
    | none =>
      let words := k.image (k.stripCap host p.nextImage)
      (some (p.nextImage, p.imageEnd, words), s.setPart (p.newImage n key words.length))
  | _, _ => (none, s)

/-- An image written where the meet maps it; words of it that lie on no page are lost. -/
def State.writeImage (s : State) (va : Word) : List Word → State
  | [] => s
  | w :: t =>
    match (s.resolve va 8 8 .fetch).1 with
    | .found k => (s.agentWrite s.rid.part (cellsFrom k (natToLeBytes 8 w.toNat))).writeImage (va + 8) t
    | _ => s.writeImage (va + 8) t

/-- Images no team needs any more leave the cache (R268). -/
def State.dropImages (s : State) : State :=
  let needed (p : Part) (x : SfImage) : Bool := x.current || s.teams.any fun t => t.id.part == p.idx && t.image == some x.num
  if s.parts.all fun p => p.images.all (·.current) then s
  else { s with parts := s.parts.map fun p => { p with images := p.images.filter (needed p) } }

end Sys2Proof.Machine
end

