-- ==== Sys2Proof/Machine/Attest.lean ====
section
/-! DEFINITION. The attestation report (R353). -/

namespace Sys2Proof.Machine

/-- The number of a stage in VSTATUS. -/
def stageCode : Stage → Nat
  | .a => 0xA | .b => 0xB | .c => 0xC | .d => 0xD | .failed => 0xF

/-- Bytes cut or filled up with zeros to a length. -/
def fitTo (n : Nat) (bs : List Byte) : List Byte := (bs ++ zeros n).take n

/-- The chain of partition n; zeros where there is none. -/
def State.partChain (s : State) (n : Nat) : List Byte := fitTo 64 (((s.part? n).map (·.chain)).getD [])

/-- SHAKE, SHTIME and TRANS. -/
def Pacer.shakeBytes (p : Pacer) : List Byte :=
  n8 (p.shake.pass.toNat + 2 * p.shake.full.toNat + 4 * p.shake.running.toNat + 256 * p.shake.category) ++ n8 p.shake.time ++
  n8 (p.transAtC.toNat + 2 ^ 16 * p.events)

/-- The report without its signature. -/
def State.reportBody (s : State) (nonce : List Byte) : List Byte :=
  n8 0x5A170A01 ++ n8 (stageCode s.pacer.stage) ++ fitTo 64 nonce ++ sha512 Config.identityKey ++ fitTo 64 s.pacer.chain ++
  ((List.range 16).flatMap s.partChain) ++ s.pacer.shakeBytes ++ zeros 88 ++ s.laneMap ++ s.colMap

/-- The attestation report (R353): signed over the digest of what stands before the signature. -/
def State.attestation (s : State) (nonce : List Byte) : List Byte :=
  let b := s.reportBody nonce
  b ++ fitTo 132 (Config.signature (sha512 b)) ++ zeros 4

end Sys2Proof.Machine
end

