-- ==== Sys2Proof/Machine/Peers.lean ====
section
/-! DEFINITION. What peers and the host do to the memory of a partition (R269, R304–R306). -/

namespace Sys2Proof.Machine

/-- The operation a number names. -/
def amoOfCode (n : Nat) : Option AmoOp :=
  [AmoOp.add, .and, .or, .xor, .min, .max, .minu, .maxu, .swap, .cas, .fadd][n]?

/-- Bytes that an agent outside the module reads for a partition, from L2, line by line. -/
def State.outsideLook (s : State) (part key n : Nat) : List Byte × State :=
  let (bs, s) := s.agentLook key n
  (bs, s.readL2 key n none part true)

/-- The ECC unit of a byte (R341): a 64-byte block of LPDDR-5X, or a word of SRAM, which L2 is. -/
def State.eccUnit (s : State) (key : Nat) : Nat × Nat :=
  if isModuleKey key && !s.inL2 key then (key / 64 * 64, 64) else (key / 8 * 8, 8)

/-- The ECC units of some bytes poisoned (R341). -/
def State.poisonAt (s : State) (keys : List Nat) : State :=
  let us := (keys.map s.eccUnit).eraseDups
  { s with poison := us ++ s.poison.filter fun u => !us.contains u }

/-- An access at keys of this module as an outside agent makes it: poison is reported, every write is an agent's; one that
arrives poisoned marks its data so (R341, R343), which then hold nothing that is known. -/
def State.accessAt (s : State) (part key : Nat) (a : OutAccess) : Reply × State :=
  match a with
  | .read _ n =>
    if (poisonMeets s.poison key n).isSome then (.poisoned, s)
    else let (bs, s) := s.outsideLook part key n; (.data bs, s)
  | .write _ bytes => (.done, s.agentWrite part (cellsFrom key bytes))
  | .merge _ m b =>
    let (bs, s) := s.outsideLook part key 1
    let old := bs.headD 0
    let bad := poisonMeets s.poison key 1
    let s := s.agentWrite part [(key, (b &&& m) ||| (old &&& ~~~m))]
    (.done, if bad.isSome && m != 0xFF#8 then s.poisonAt [key] else s)
  | .poisoned _ n =>
    let (bs, s) := s.freeBytes n
    (.done, (s.agentWrite part (cellsFrom key bs)).poisonAt (keysFrom key n))
  | .line _ mode => (.done, s.lineL2 key mode)
  | .attest _ | .register _ | .record _ => (.access, s)
  | .amo _ op w b cmp =>
    match amoOfCode op with
    | none => (.access, s)
    | some o =>
      if (poisonMeets s.poison key w).isSome then (.poisoned, s)
      else
        let (bs, s) := s.outsideLook part key w
        let old := bytesVal bs
        (.data bs, if o = .cas && old != cmp.toNat then s
          else s.agentWrite part (cellsFrom key (natToLeBytes w (amoNew o w old (b.toNat % 2 ^ (8 * w)) cmp.toNat))))

/-- Whether a peer may name an address of a partition: an offset below 2^43, or an address of a distributed region, which the
owner of its block translates (R304, R305). -/
def peerMay (p : Part) (va : Nat) : Bool :=
  va < 2 ^ 43 ||
  (0x0180000000000000 ≤ va && va < 0x01C0000000000000 && (p.regionAt va).any fun g => va % 2 ^ 50 < g.size)

/-- What the home of a peer's access finds (R82, R298, R304): the key, the answer that reports why there is none, or a page that
the partition's fault service is to map first. -/
inductive PeerAcc where
  | key (k : Nat)
  | no (r : Reply)
  | service
  deriving DecidableEq, Repr

/-- A peer's address in the partition's own page table. -/
def State.peerKey (s : State) (p : Part) (a : OutAccess) : PeerAcc :=
  let va := accAddr a
  if !peerMay p va then .no .access
  else match walk s.mem ((p.loaded.map (·.ptRoot)).getD 0) va with
  | .invalid => .service
  | .malformed => .no .access
  | .leaf e size =>
    if !leafPermits false (accKind a) e || size < va % size + accLen a || isHostKey (leafKey e size va) then .no .access
    else .key (leafKey e size va)

/-- Whether an answer reports a failure. -/
def failed : Reply → Bool
  | .page | .access | .poisoned => true
  | _ => false

/-- The accesses of a transaction performed in order (R306): until one fails, which ends it, or needs its page mapped. -/
def State.serveList (p : Part) : List OutAccess → PeerWork → State → PeerWork × State
  | [], w, s => ({ w with todo := [] }, s)
  | a :: t, w, s =>
    match s.peerKey p a with
    | .service => ({ w with todo := a :: t }, s)
    | .no r => ({ w with todo := [], done := w.done ++ [r] }, s)
    | .key k =>
      let (r, s) := s.accessAt p.idx k a
      if failed r then ({ w with todo := [], done := w.done ++ [r] }, s)
      else State.serveList p t { w with done := w.done ++ [r] } s

/-- A transaction worked on: answered when it is through, else the partition's service is asked for the page (R304). -/
def State.workOn (s : State) (part : Nat) (w : PeerWork) : State :=
  match s.part? part with
  | none => s
  | some p =>
    let (w, s) := State.serveList p w.todo w s
    match w.todo with
    | [] => s.emit (.answer w.peer w.seq w.done)
    | a :: _ =>
      let s := match s.part? part with
        | some p => s.setPart { p with pending := p.pending ++ [w] }
        | none => s
      s.send { part := part } (.service (BitVec.ofNat 64 (accAddr a)))

/-- The partition's fault service has come to an end for the transactions that wait for it (R301, R304): they go on, or the
first is answered PAGE when service declines. -/
def State.peersServed (s : State) (part : Nat) (mapped : Bool) : State :=
  match s.part? part with
  | none => s
  | some p =>
    if mapped then p.pending.foldl (fun s w => s.workOn part w) (s.setPart { p with pending := [] })
    else match p.pending with
      | [] => s
      | w :: t => (s.setPart { p with pending := t }).emit (.answer w.peer w.seq (w.done ++ [.page]))

/-- Whether a transaction of a peer, by its end-to-end number, has been performed (R349). -/
def State.performed (s : State) (peer seq : Nat) : Bool := s.pacer.seqIn.contains (peer, seq)

/-- A transaction of a peer noted as performed. -/
def State.notePeer (s : State) (peer seq : Nat) : State := { s with pacer := { s.pacer with seqIn := (peer, seq) :: s.pacer.seqIn } }

/-- A peer's transaction begun: an attestation request is answered with the report (R353), accesses are those of a partition, and
fail where CONFIG has made none. -/
def State.serve (s : State) (peer part seq : Nat) (accs : List OutAccess) : State :=
  match accs with
  | [.attest nonce] => s.emit (.answer peer seq [if nonce.length = 64 then .data (s.attestation nonce) else .access])
  | _ =>
    if ((s.part? part).map (·.known)).getD false then s.workOn part { peer := peer, seq := seq, todo := accs }
    else s.emit (.answer peer seq [.access])

/-- A peer's transaction served once: one already performed is discarded (R349). -/
def State.serveOnce (s : State) (peer part seq : Nat) (accs : List OutAccess) : Host.Outcome State Fault Refusal :=
  .next (if s.performed peer seq then s else (s.notePeer peer seq).serve peer part seq accs)

end Sys2Proof.Machine
end

