-- ==== Sys2Proof/Machine/Attach.lean ====
section
/-! DEFINITION. ATTACH (R169, R170, R216–R221). -/

namespace Sys2Proof.Machine

/-- The runner's core gets a status in GSTAT. -/
def State.attachStatus (s : State) (n : BitVec 3) : State := s.setCore { s.myCore with attStatus := n }

/-- The instruction ends without a grant. -/
def State.noGrant (s : State) (n : BitVec 3) : State := (s.attachStatus n).advance

/-- Another runner's ATTACH of the same core is still in progress (R169 step 1). -/
def State.attachBusy (s : State) : Bool :=
  let c := s.r.ident.core
  ((s.myCore.pend.map fun p => p.runner != s.rid).getD false) ||
  (s.cluster c.die c.cluster).attachQ.any fun w => w.core == c && w.runner != s.rid

/-- The running runner's ATTACH whose octants wake. -/
def State.myPend (s : State) : Option PendAttach := s.myCore.pend.filter fun p => p.runner == s.rid

/-- Octants of the running runner's unit. -/
def State.octantOf (s : State) (k : Nat) : EngineId := octantId s.r.ident.core.die s.r.ident.core.cluster k

/-- The octants of a list that sleep. -/
def State.asleep (s : State) (octs : List Nat) : List Nat := octs.filter fun k => (s.engine (s.octantOf k)).st == .sleeping

/-- An octant set as GSTAT.OCT shows it. -/
def octSet (octs : List Nat) : BitVec 8 := octs.foldl (fun (b : BitVec 8) (k : Nat) => b ||| (1#8 <<< k)) 0

/-- An octant held by the running runner's core. -/
def State.holdOctant (s : State) (k : Nat) : State :=
  s.setEngine { id := s.octantOf k, st := .held, holder := some (.attach s.r.ident.core), named := s.time,
                payer := some (s.rid.part, s.rid.heat) }

/-- The octants of a grant that sleep join the die's queue as one entry; while it is full they wait outside (R315). -/
def State.queueAttach (s : State) (p : PendAttach) : State :=
  let die := s.r.ident.core.die
  if p.toWake.isEmpty || s.queueFull die then s.setCore { s.myCore with pend := some { p with queued := p.toWake.isEmpty } }
  else (s.setCore { s.myCore with pend := some { p with queued := true } }).enqueueReq die
    { holder := .attach s.r.ident.core, engines := p.toWake.map s.octantOf, pri := s.epri (teamOf s.rid) }

/-- An ATTACH takes its octants (R169 steps 4 and 5): its reservation stands, those in hold are held at once, the sleeping
ones form one queue entry. Its core counts as attached from now on (R219). -/
def State.startAttach (s : State) (wait : Bool) (g : Grant) (octs : List Nat) : State :=
  let core := s.r.ident.core
  let s := s.roomFor (octs.map s.octantOf) (g.count * octantPower (isM core.cluster))
  let sleeping := s.asleep octs
  let s := (octs.filter fun k => !sleeping.contains k).foldl State.holdOctant s
  let cl := s.cluster core.die core.cluster
  let s := s.setCluster { cl with attachQ := cl.attachQ.filter fun w => w.runner != s.rid }
  s.queueAttach { runner := s.rid, wait := wait, gm := g.gm, gn := g.gn, gk := g.gk, octs := octs, toWake := sleeping }

/-- A latch of zeros with scale 1 (R169 step 6). -/
def zeroLatch (rows gk : Nat) (grouped : Bool) : List LatchRow :=
  List.replicate rows { elems := List.replicate gk 0, scale := if grouped then 0x3F80 else 127 }

/-- A new attach: every accumulator element and latch zero, every latch scale 1 (R169 step 6). -/
def newAttach (gf : Word) (gm gn gk : Nat) (oct : BitVec 8) (unitL : Bool) (owner : RunnerId) (pri now : Nat) : Attach :=
  { gm := gm, gn := gn, gk := gk, gfmt := gf, oct := oct, unitL := unitL
    acc := Vector.replicate 4 (List.replicate (gm * gn) 0)
    latches := #v[zeroLatch gm gk false, zeroLatch gm gk false, zeroLatch gn gk (groupedCode (bfOf gf)),
      zeroLatch gn gk (groupedCode (bfOf gf))]
    owner := owner, pri := pri, granted := now, charged := now, named := now }

/-- The grant (R169 step 6). -/
def State.grantAttach (s : State) (p : PendAttach) : State :=
  let core := s.r.ident.core
  let a := newAttach (s.r.tfmt.setWidth 64) p.gm p.gn p.gk (octSet p.octs) (isM core.cluster) s.rid (s.epri (teamOf s.rid)) s.time
  (s.setCore { s.myCore with att := some a, pend := none, loss := none, attStatus := 0 }).retryUnits core.die

/-- Whether the request names formats the unit offers (R168). -/
def State.tripleOffered (s : State) : Bool :=
  let g : Word := s.r.tfmt.setWidth 64
  tripleOk (afOf g) (bfOf g) (zfOf g)

/-- A granted ATTACH ends, or its runner stalls on the wakes, or on the full queue before them. -/
def State.afterStart (s : State) : M (Unit × State) :=
  match s.myPend with
  | none => .error (.ask .unit, s)
  | some p =>
    if p.toWake.isEmpty then .ok ((), (s.grantAttach p).advance)
    else
      let s := if p.queued then s else s.queueAttach p
      .error (.ask (if (s.myPend.map (·.queued)).getD false then .wake else .unit), s)

/-- The runner has been told that its octants are awake and its ATTACH is granted (R313). -/
def Runner.attachTold (r : Runner) : Bool := r.replies.contains (.wake, .done)

/-- The last octant of an ATTACH is awake: the grant stands, and its runner, which stalls on it, is told. -/
def State.grantWoken (s : State) (p : PendAttach) : State :=
  s.withRunner p.runner fun s =>
    if s.r.stat == .stalled && s.r.asks == [.wake] then
      (s.grantAttach p).mapR fun r => { r with stat := .ready, asks := [], replies := [(.wake, .done)] }
    else s

/-- An ATTACH whose last octant came from a hold is granted (R313). -/
def State.grantReady (s : State) : State :=
  s.cores.foldl (fun s c => match (s.core c.id).pend with
    | some p => if p.queued && p.toWake.isEmpty then s.grantWoken p else s
    | none => s) s

/-- An ATTACH that a map-out serves again (R222) starts from the octants it has kept: as it computes its grant afresh they
are there for it alone, awake, and those it does not take return. -/
def State.serveAgain {α : Type} (s : State) (k : State → M (α × State)) : M (α × State) :=
  match s.myPend.filter (·.again) with
  | none => k s
  | some p =>
    let ids := p.octs.map s.octantOf
    let s := ids.foldl (fun (s : State) (e : EngineId) => s.setEngine { s.engine e with st := .hold, holder := some (.attach s.r.ident.core) })
      (s.setCore { s.myCore with pend := none })
    let back (s : State) : State := ids.foldl (fun (s : State) (e : EngineId) =>
      if (s.engine e).st == .hold then s.toHold e else s) s
    match k s with
    | .ok (x, s) => .ok (x, back s)
    | .error (e, s) => .error (e, back s)

/-- The effect of plain ATTACH. -/
def doAttach (s : State) : M (Unit × State) :=
  if s.r.withdrawn then .ok ((), s.noGrant 2)
  else if s.r.attachTold then .ok ((), s.advance)
  else s.serveAgain fun s =>
  if s.myPend.isSome then s.afterStart
  else if s.myCore.att.isSome then stopTrap .nogrant 1 s
  else if s.attachBusy then .error (.ask .unit, s)
  else
    let s := s.setLoss none
    if !s.tripleOffered then .ok ((), s.noGrant 3)
    else
      let avail := s.available s.r
      let g := s.targetOf s.r (min (s.allowance s.r) (floorPow2 avail.length))
      let octs := avail.take g.count
      if avail.isEmpty then .ok ((), s.noGrant 1)
      else if s.ebud s.rid.part < g.count * octantPower (isM s.r.ident.core.cluster) then .ok ((), s.noGrant 2)
      else (s.startAttach false g octs).afterStart

/-- attach (R169). -/
def execAttach (s : State) : Host.Outcome State Fault Refusal := outcome (s.afterVector doAttach)

/-- The runner stands in its unit's attach queue (R221). -/
def State.joinUnit (s : State) (w : WaitRec) : State :=
  let core := s.r.ident.core
  let cl := s.cluster core.die core.cluster
  if cl.attachQ.any fun x => x.runner == s.rid then s
  else
    let x : AttachWaiter := { runner := s.rid, core := core, pri := s.epri (teamOf s.rid), arrival := w.entry }
    s.setCluster { cl with attachQ := cl.attachQ ++ [x] }

/-- The end of an ATTACH.W at its deadline: STATUS, or WAITTIME with the same number (R169, R187). -/
def State.attachLate (s : State) (w : WaitRec) (reason : Nat) : M (Bool × State) :=
  if !s.expired w then .ok (false, s)
  else
    let s := s.leaveUnit s.rid s.r.ident.core
    if bitOf s.r.scal.wdead 63 then stopTrap .waittime (BitVec.ofNat 64 reason) s
    else .ok (true, s.noGrant (BitVec.ofNat 3 reason))

/-- One look of ATTACH.W. -/
def pollAttach (w : WaitRec) (s : State) : M (Bool × State) :=
  if s.r.withdrawn then .ok (false, s.completed.joinUnit w)
  else if s.r.attachTold then .ok (true, s.advance)
  else s.serveAgain fun s =>
  if s.myPend.isSome then s.afterStart.map fun r => (true, r.2)
  else if s.myCore.att.isSome then stopTrap .nogrant 1 s
  else if s.attachBusy then s.attachLate w 1
  else
    let s := s.setLoss none
    if !s.tripleOffered then .ok (true, s.noGrant 3)
    else
      let s := s.joinUnit w
      let g := s.targetOf s.r (s.allowance s.r)
      let avail := s.available s.r
      let octs := avail.take g.count
      let mw := g.count * octantPower (isM s.r.ident.core.cluster)
      if avail.length < g.count then s.attachLate w 1
      else if s.ebud s.rid.part < mw then
        (s.makeRoom (s.epri (teamOf s.rid)) mw .octant (.attach s.r.ident.core)).attachLate w 2
      else (s.startAttach true g octs).afterStart.map fun r => (true, r.2)

/-- attach.w (R169): it waits, scheduler-visibly, for the share it asks for. -/
def execAttachW (s : State) : Host.Outcome State Fault Refusal :=
  outcome (s.enterWait (fun s => .ok (s.newWait .attach 0 0, s)) pollAttach)

end Sys2Proof.Machine
end

