-- ==== Sys2Proof/Machine/Sfe.lean ====
section
/-! DEFINITION. The functions of the special-function engine (R203): their values to far more than FP32 precision, and
F(x) as any FP32 number within the bound R203 gives. -/

namespace Sys2Proof.Machine

/-! ### Fixed-point numbers of 400 fraction bits -/

/-- The number 1. -/
def fx1 : Int := 2 ^ 400

/-- ln 2. -/
def fxLn2 : Int :=
  1789879222497203190815761498240779176894896805856420935579692301363062920687047601279850318367644315849030039181347319086

/-- π ÷ 2. -/
def fxHalfPi : Int :=
  4056188623365485619431135675650447259580575800089632601795595518807615452686995249372761680463408407713783389863663788118

/-- 2 ÷ √π. -/
def fxErf : Int :=
  2913756966668194800300214067270034030186276855045544562015353861004409627435460814446341471088463227900768995815277951550

/-- A product. -/
def fxMul (a b : Int) : Int := a * b / fx1

/-- A quotient. -/
def fxDiv (a b : Int) : Int := a * fx1 / b

/-- A value, exactly: an FP32 number has no bit below 2^−149. -/
def fxOf (x : XVal) : Int := x.atExp (-400)

/-- A fixed-point number times 2^n as a value that is not exact. -/
def fxVal (v n : Int) : XVal := .fin (v < 0) v.natAbs (n - 400) true

/-- The first n terms of a series: term k + 1 from term k, each with its weight. -/
def series (next weigh : Nat → Int → Int) : Nat → Nat → Int → Int
  | 0, _, _ => 0
  | n + 1, k, t => weigh k t + series next weigh n (k + 1) (next k t)

/-- exp of a number from 0 to 1. -/
def fxExp (r : Int) : Int := series (fun k t => fxMul t r / ((k : Int) + 1)) (fun _ t => t) 100 0 fx1

/-- sin of a small number. -/
def fxSin (r : Int) : Int :=
  series (fun k t => -(fxMul t (fxMul r r)) / ((2 * (k : Int) + 2) * (2 * k + 3))) (fun _ t => t) 60 0 r

/-- cos of a small number. -/
def fxCos (r : Int) : Int :=
  series (fun k t => -(fxMul t (fxMul r r)) / ((2 * (k : Int) + 1) * (2 * k + 2))) (fun _ t => t) 60 0 fx1

/-- erf of a number from 0 to 6. -/
def fxErfOf (x : Int) : Int :=
  fxMul fxErf (series (fun k t => -(fxMul t (fxMul x x)) / ((k : Int) + 1)) (fun k t => t / (2 * (k : Int) + 1)) 260 0 x)

/-- ln of a number from 1 to 2. -/
def fxLn (m : Int) : Int :=
  let z := fxDiv (m - fx1) (m + fx1)
  2 * series (fun _ t => fxMul t (fxMul z z)) (fun k t => t / (2 * (k : Int) + 1)) 130 0 z

/-- A number kept within 300 of zero, beyond which every exponential leaves the FP32 range. -/
def fxCap (x : Int) : Int := max (-300 * fx1) (min (300 * fx1) x)

/-- exp as a number from 1 to 2 and a power of two. -/
def fxExp2 (x : Int) : Int × Int :=
  let n := fxCap x / fxLn2
  (fxExp (fxCap x - n * fxLn2), n)

/-- exp as one fixed-point number, for an exponent of magnitude at most 300. -/
def fxExpFull (x : Int) : Int :=
  let (e, n) := fxExp2 x
  if 0 ≤ n then e * 2 ^ n.toNat else e / 2 ^ (-n).toNat

/-- sin or cos, the quadrant counted from 0 for sin and 1 for cos. -/
def fxCircle (x : Int) (turn : Int) : Int :=
  let q := (2 * x + fxHalfPi) / (2 * fxHalfPi)
  let r := x - q * fxHalfPi
  match ((q + turn) % 4).toNat with
  | 0 => fxSin r
  | 1 => fxCos r
  | 2 => -fxSin r
  | _ => -fxCos r

/-! ### The functions (R203) -/

/-- The codes of SFN. -/
inductive SfFn where
  | exp2 | log2 | rcp | rsqrt | sin | cos | tanh | erf | exp | sigmoid
  deriving DecidableEq, Repr

/-- A code's function. -/
def sfFn (n : Fin 10) : SfFn :=
  match n.val with
  | 0 => .exp2 | 1 => .log2 | 2 => .rcp | 3 => .rsqrt | 4 => .sin | 5 => .cos | 6 => .tanh | 7 => .erf | 8 => .exp
  | _ => .sigmoid

/-- A function's value at a finite argument that no row of the special-value table names. -/
def SfFn.value (f : SfFn) (x : XVal) : XVal :=
  let v := fxOf x
  let odd (y : Int) : XVal := if x.neg then fxVal (-y) 0 else fxVal y 0
  match f with
  | .exp2 => let p := fxExp2 (fxMul (fxCap v) fxLn2); fxVal p.1 p.2
  | .exp => let p := fxExp2 v; fxVal p.1 p.2
  | .log2 =>
    match x with
    | .fin _ m e _ => fxVal (((m.log2 : Int) + e) * fx1 + fxDiv (fxLn ((m : Int) * 2 ^ 400 / 2 ^ m.log2)) fxLn2) 0
    | _ => .zero false
  | .rcp => (divX (.ofInt 1) x).val
  | .rsqrt => (sqrtX (divX (.ofInt 1) x).val).val
  | .sin => fxVal (fxCircle v 0) 0
  | .cos => fxVal (fxCircle v 1) 0
  | .tanh => let e := fxExpFull (min (2 * v.natAbs) (128 * fx1)); odd (fxDiv (e - fx1) (e + fx1))
  | .erf => odd (fxErfOf (min v.natAbs (6 * fx1)))
  | .sigmoid => fxVal (fxDiv fx1 (fx1 + fxExpFull (-v))) 0

/-- The bound of the table in units in the last place. -/
def SfFn.ulps : SfFn → Nat
  | .exp2 | .log2 | .rsqrt => 1
  | .rcp => 0
  | .sin | .cos | .tanh | .erf | .exp => 2
  | .sigmoid => 3

/-- The largest error at an exact value (R203 table). -/
def SfFn.bound (f : SfFn) (y : XVal) : XVal :=
  let unit := max y.lead (-126) - 23
  let b : XVal := .fin false f.ulps unit false
  match f with
  | .sin | .cos => let a : XVal := .fin false 1 (-26) false; if cmpX b a == .lt then a else b
  | _ => b

/-- FP32 numbers in order of value. -/
def fp32Order (b : Nat) : Int := if b / 2 ^ 31 % 2 == 1 then -((b % 2 ^ 31 : Nat) : Int) else (b % 2 ^ 31 : Nat)

/-- The FP32 number at a place of that order. -/
def fp32At (i : Int) : Nat := if i < 0 then 2 ^ 31 + i.natAbs % 2 ^ 31 else i.natAbs % 2 ^ 31

/-- Whether an FP32 number lies within the bound of an exact value. -/
def SfFn.near (f : SfFn) (y : XVal) (b : Nat) : Bool :=
  let c := FF.fp32.val b
  match c with
  | .fin .. => cmpX (addX .rne c y.negate).val.abs (f.bound y) != .gt
  | _ => false

/-- F of a finite argument with no exact case: ±∞ beyond the FP32 range, else the number the fixed algorithm gives,
which R203 only bounds (log 5); NX, and UF when the result is tiny. -/
def SfFn.approx (f : SfFn) (code : Nat) (x y : XVal) : Flagged XVal :=
  if cmpX y.abs (FF.fp32.val (FF.fp32.maxf false)) == .gt then
    { val := .inf y.neg, flags := { of := true, nx := true } }
  else
    let b := (FF.fp32.roundBy (.mode .rne) false false y).val
    let c := fp32At (fp32Order b + Config.sfeOffset code (BitVec.ofNat 32 (FF.fp32.roundBy (.mode .rne) false false x).val))
    let r := FF.fp32.val (if f.near y c then c else b)
    { val := r, flags := { uf := r.isZero || r.lead < -126, nx := true } }

/-- An exact finite case: rounded into FP32 only when it leaves the range. -/
def sfExact (y : XVal) : Flagged XVal :=
  let r := FF.fp32.roundBy (.mode .rne) false false y
  { val := FF.fp32.val r.val, flags := r.flags }

/-- A value whose magnitude is a power of two, with its exponent. -/
def powerOfTwo : XVal → Option Int
  | .fin _ m e _ => if m != 0 && m == 2 ^ m.log2 then some (m.log2 + e) else none
  | _ => none

/-- An integer value, kept within 4,000 of zero. -/
def smallInt : XVal → Option Int
  | .fin s m e _ =>
    if 0 ≤ e then some (let n : Int := min (m <<< e.toNat : Nat) 4000; if s then -n else n)
    else if m % 2 ^ (-e).toNat == 0 then some (let n : Int := min (m >>> (-e).toNat : Nat) 4000; if s then -n else n)
    else none
  | _ => none

/-- NaN with NV. -/
def sfInvalid : Flagged XVal := { val := .nan false, flags := flagNV }

/-- The special-value table at an infinity. -/
def SfFn.atInf (f : SfFn) (neg : Bool) : Flagged XVal :=
  match f with
  | .exp2 | .exp => { val := if neg then .zero false else .inf false }
  | .log2 => if neg then sfInvalid else { val := .inf false }
  | .rcp => { val := .zero neg }
  | .rsqrt => if neg then sfInvalid else { val := .zero false }
  | .sin | .cos => sfInvalid
  | .tanh | .erf => { val := .fin neg 1 0 false }
  | .sigmoid => { val := if neg then .zero false else .ofInt 1 }

/-- The special-value table at a zero. -/
def SfFn.atZero (f : SfFn) (neg : Bool) : Flagged XVal :=
  match f with
  | .exp2 | .exp | .cos => { val := .ofInt 1 }
  | .log2 => { val := .inf true, flags := { dz := true } }
  | .rcp | .rsqrt => { val := .inf neg, flags := { dz := true } }
  | .sin | .tanh | .erf => { val := .zero neg }
  | .sigmoid => { val := .fin false 1 (-1) false }

/-- The exact finite cases of the table. -/
def SfFn.exact (f : SfFn) (x : XVal) : Option XVal :=
  match f with
  | .exp2 => (smallInt x).map fun n => .fin false 1 n false
  | .log2 => (powerOfTwo x).map .ofInt
  | .rcp => (powerOfTwo x).map fun n => .fin x.neg 1 (-n) false
  | .rsqrt => (powerOfTwo x).bind fun n => if n % 2 == 0 then some (.fin false 1 (-n / 2) false) else none
  | _ => none

/-- F(x) with its own flags (R203). -/
def sfApply (n : Fin 10) (x : XVal) : Flagged XVal :=
  let f := sfFn n
  match x with
  | .nan s => { val := .nan false, flags := nvIf s }
  | .inf s => f.atInf s
  | .fin s _ _ _ =>
    if x.isZero then f.atZero s
    else if s && (f == .log2 || f == .rsqrt) then sfInvalid
    else match f.exact x with
    | some y => sfExact y
    | none => f.approx n.val x (f.value x)

end Sys2Proof.Machine
end

