-- ==== Sys2Proof/Machine/Engine.lean ====
section
/-! DEFINITION. The ENGINE group but the collectives: SFN, XSORT, XTOPK, XHIST (R202–R206). -/

namespace Sys2Proof.Machine

/-- Whether an engine instruction of the runner is in flight: one that has stopped between element groups, or a collective
that waits (R318). -/
def Runner.inFlight (r : Runner) : Bool :=
  r.begun.isSome || (r.wait.map fun w => w.kind == .collective).getD false

/-- Whether the engine of a lease slot is being evicted. -/
def State.leaseEvicting (s : State) (r : RunnerId) (slot : Fin 8) : Bool :=
  s.engines.any fun e => e.holder == some (.lease r slot) && e.st == .evicting

/-- Checks 1 and 2 of R202: the lease the handle names, of the kind the instruction uses; its engine has been named
(R322). An instruction in flight goes on while an orderly eviction of its engine lasts (R318). -/
def State.engineCheck (s : State) (h : Word) (k : Kind) : M (Unit × State) :=
  match s.r.leaseOf h with
  | none => stopTrap .leaseAbsent h s
  | some (slot, l) =>
    if l.st != .held && !(s.r.inFlight && l.st == .lostOrderly && s.leaseEvicting s.rid slot) then stopTrap .leaseLost h s
    else if l.kind != k then stopTrap .leaseAbsent h s
    else match l.engine with
    | some e => .ok ((), s.setEngine { s.engine e with named := s.time })
    | none => .ok ((), s)

/-- The checks of an engine instruction before its tags: the lease, then the end of strip protection (R23, R202). -/
def State.engineStart (s : State) (h : Word) (k : Kind) : M (Unit × State) := do
  let (_, s) ← s.engineCheck h k
  .ok ((), s.endProt)

/-- Integer and floating registers of 8 to 64 bits without BS. -/
def State.plainNum (s : State) (r : VR) : Bool := s.destKind r == .int || s.destKind r == .float

/-! ### SFN (R203) -/

/-- The tags SFN accepts. -/
def State.sfnOk (s : State) (vd va : VR) : Bool :=
  [Fmt.fp .fp32, .fp .bf16, .fp .fp16].contains (s.fmtOf va) && !(s.vreg va).bs &&
  [Fmt.fp .fp32, .fp .bf16, .fp .fp16, .fp .e4m3, .fp .e5m2].contains (s.fmtOf vd) && !(s.vreg vd).bs

/-- One element of SFN. -/
def State.sfnElem (s : State) (vd va : VR) (fn : Fin 10) (i : Nat) : Flagged Nat :=
  let y := sfApply fn ((s.vreg va).src s.modes.daz i)
  match s.fmtOf vd with
  | .fp g => g.deliver s.modes y
  | _ => { val := 0 }

/-- The effect of SFN. -/
def doSfn (i : Instr) (m : Mask) (vd va : VR) (fn : Fin 10) (h : Word) (s : State) : M (Unit × State) := do
  let (_, s) ← s.engineStart h .sfe
  let n : Names := { vd := some vd, va := some va }
  let (vlmax, s) ← s.tagChecks n m (s.sfnOk vd va) true
  s.runPlan i (s.elemPlan n m vlmax vd {} (s.sfnElem vd va fn))

/-- sfn (R203). -/
def execSfn (m : VMod) (vd va : VR) (fn : Fin 10) (sh : SR) (s : State) : Host.Outcome State Fault Refusal :=
  passVector (.sfn m vd va fn sh) (s.reg sh) 0 (doSfn (.sfn m vd va fn sh) m.mask vd va fn (s.reg sh)) s

/-! ### XSORT and XTOPK (R204, R205) -/

/-- Whether a number stands before another in the key order, −0 before +0. -/
def keyBefore (a b : XVal) : Bool :=
  match cmpX a b with
  | .lt => true
  | .eq => a.isZero && b.isZero && a.neg && !b.neg
  | .gt => false

/-- Whether a key stands before another in a direction: NaNs come last in both. -/
def sortBefore (desc : Bool) (a b : XVal) : Bool :=
  if a.isNan then false else if b.isNan then true else if desc then keyBefore b a else keyBefore a b

/-- An element put in its place, behind its equals. -/
def insertKey (desc : Bool) (x : Nat × XVal) : List (Nat × XVal) → List (Nat × XVal)
  | [] => [x]
  | y :: t => if sortBefore desc x.2 y.2 then x :: y :: t else y :: insertKey desc x t

/-- The indices of the active elements below VL in the key order. -/
def State.sorted (s : State) (m : Mask) (va : VR) (desc : Bool) : List Nat :=
  (((s.activeFrom m 0).map fun i => (i, (s.vreg va).src s.modes.daz i)).foldl
    (fun (l : List (Nat × XVal)) (x : Nat × XVal) => insertKey desc x l) []).map (·.1)

/-- Values written to the first elements of a register, those after them by TP (R204, R205). -/
def State.putFirst (s : State) (vlmax : Nat) (d : VR) (xs : List Nat) (v : Vect) : Vect :=
  let f := s.fmtOf d
  let v := (xs.zip (List.range xs.length)).foldl (fun (v : Vect) (x : Nat × Nat) => v.putElem d f x.2 x.1) v
  if tpOf s.vtype then ((List.range vlmax).drop xs.length).foldl (fun (v : Vect) (i : Nat) => v.putElem d f i 0) v else v

/-- Whether a register may receive indices below VL: an integer tag whose largest value reaches VL − 1. -/
def State.indexReg (s : State) (r : VR) : Bool :=
  s.destKind r == .int && (s.vl : Int) - 1 ≤ intMax ((s.fmtOf r).intSigned.getD false) (s.fmtOf r).width

/-- The effect of XSORT. -/
def doXsort (i : Instr) (m : Mask) (vd va : VR) (desc idx : Bool) (h : Word) (s : State) : M (Unit × State) := do
  let (_, s) ← s.engineStart h .sxe
  let n : Names := { vd := some vd, va := some va, more := if idx then [vd + 1] else [] }
  let ok := s.plainNum va && (s.vreg vd).tag == (s.vreg va).tag && (!idx || s.indexReg (vd + 1))
  let (vlmax, s) ← s.tagChecks n m ok true
  let l := s.sorted m va desc
  s.runPlan i (s.wholePlan n (if idx then [vd, vd + 1] else [vd]) {} {} [] fun v =>
    let v := s.putFirst vlmax vd (l.map fun j => (s.vreg va).elem (s.fmtOf va) j) v
    if idx then s.putFirst vlmax (vd + 1) l v else v)

/-- xsort (R204). -/
def execXsort (m : VMod) (vd va : VR) (desc idx : Bool) (sh : SR) (s : State) : Host.Outcome State Fault Refusal :=
  passVector (.xsort m vd va desc idx sh) (s.reg sh) 0 (doXsort (.xsort m vd va desc idx sh) m.mask vd va desc idx (s.reg sh)) s

/-- The effect of XTOPK. -/
def doXtopk (i : Instr) (m : Mask) (vd va : VR) (k : Nat) (smallest : Bool) (h : Word) (s : State) : M (Unit × State) := do
  let (_, s) ← s.engineStart h .sxe
  let n : Names := { vd := some vd, va := some va, more := [vd + 1] }
  let ok := s.plainNum va && (s.vreg (vd + 1)).tag == (s.vreg va).tag && s.indexReg vd
  let (vlmax, s) ← s.tagChecks n m ok true
  if vlmax < k then s.tagStop n m true false
  else
    let l := (s.sorted m va (!smallest)).take k
    s.runPlan i (s.wholePlan n [vd, vd + 1] {} {} [] fun v =>
      s.putFirst vlmax (vd + 1) (l.map fun j => (s.vreg va).elem (s.fmtOf va) j) (s.putFirst vlmax vd l v))

/-- xtopk (R205). -/
def execXtopk (m : VMod) (vd va : VR) (k : BitVec 13) (smallest : Bool) (sh : SR) (s : State) :
    Host.Outcome State Fault Refusal :=
  passVector (.xtopk m vd va k smallest sh) (s.reg sh) 0
    (doXtopk (.xtopk m vd va k smallest sh) m.mask vd va k.toNat smallest (s.reg sh)) s

/-! ### XHIST (R206) -/

/-- A count added to the element an index names. -/
def countInto (sat : Bool) (f : Fmt) (n : Nat) (v : VReg) (b : Int) : VReg :=
  if 0 ≤ b && b < n then
    let e := v.elem f b.toNat
    v.setElem f b.toNat (reduceInt sat (f.intSigned.getD false) f.width (intVal (f.intSigned.getD false) f.width e + 1))
  else v

/-- The tags XHIST accepts. -/
def State.histOk (s : State) (vd va : VR) : Bool :=
  s.kind va == .int && [Fmt.i32, .u32, .i64, .u64].contains (s.fmtOf vd) && !(s.vreg vd).bs

/-- The effect of XHIST: its VLMAX is va's element count alone. -/
def doXhist (i : Instr) (m : Mask) (vd va : VR) (h : Word) (s : State) : M (Unit × State) := do
  let (_, s) ← s.engineStart h .sxe
  let n : Names := { va := some va }
  let td := (s.vreg vd).tag
  let mt : Byte := if m.reg = 0 then 0 else (s.vregN m.reg.val).tag
  let cnt := (s.vreg va).count s.vlen
  let bad := (m.reg != 0 && (s.vregN m.reg.val).fmt != some .mask) || !s.histOk vd va
  if bad || cnt < s.vl then stopTrap .tag (tagTval td (s.vreg va).tag 0 0 mt cnt false (!bad)) s
  else
    let f := s.fmtOf vd
    let r := (s.activeFrom m 0).foldl (fun (v : VReg) (j : Nat) =>
      countInto s.modes.sat f (f.count s.vlen) v ((s.vreg va).index j)) (s.vreg vd)
    s.runPlan i (s.wholePlan n [vd] {} {} [] fun v => v.setReg vd r)

/-- xhist (R206). -/
def execXhist (m : VMod) (vd va : VR) (sh : SR) (s : State) : Host.Outcome State Fault Refusal :=
  passVector (.xhist m vd va sh) (s.reg sh) 0 (doXhist (.xhist m vd va sh) m.mask vd va (s.reg sh)) s

end Sys2Proof.Machine
end

