-- ==== Sys2Proof/Machine/Collect.lean ====
section
/-! DEFINITION. The collective engine: CRED, CGATHER, CBCAST (R207, R208). -/

namespace Sys2Proof.Machine

/-- What a collective instruction does. -/
inductive CollFn where
  | red (op : RedOp)
  | gather
  | bcast (root : Bool)
  deriving DecidableEq, Repr

/-- A collective instruction's fields (R207). -/
structure CollOp where
  fn : CollFn
  m : Mask
  vd : VR
  va : VR
  span : Nat
  id : Nat
  imm : Nat
  deriving DecidableEq, Repr

/-- imm16 (R207 table). -/
def collImm (id : Byte) (root : Bool) (span : Fin 4) (op : Nat) : Nat := id.toNat * 256 + root.toNat * 32 + span.val * 8 + op

/-- CRED's fields. -/
def credOp (m : VMod) (vd va : VR) (op : Fin 5) (span : Fin 4) (id : Byte) : CollOp :=
  { fn := .red (redOpOf op.val), m := m.mask, vd := vd, va := va, span := span.val, id := id.toNat, imm := collImm id false span op.val }

/-- CGATHER's fields. -/
def cgatherOp (m : VMod) (vd va : VR) (span : Fin 4) (id : Byte) : CollOp :=
  { fn := .gather, m := m.mask, vd := vd, va := va, span := span.val, id := id.toNat, imm := collImm id false span 0 }

/-- CBCAST's fields. -/
def cbcastOp (m : VMod) (vd va : VR) (root : Bool) (span : Fin 4) (id : Byte) : CollOp :=
  { fn := .bcast root, m := m.mask, vd := vd, va := va, span := span.val, id := id.toNat, imm := collImm id root span 0 }

/-! ### Who takes part (R207) -/

/-- The teams of a span, by index. -/
def State.spanTeams (s : State) (span : Nat) : List TeamId :=
  let me := s.rid
  let die (t : Team) : Option Nat := (t.place.map (·.die)).orElse fun _ => t.homeDie
  let ts := s.teams.filter fun t => t.id.part == me.part && t.id.heat == me.heat &&
    (match span with
     | 0 => t.id.team == me.team
     | 1 => die t == some s.r.ident.core.die
     | _ => true)
  (ts.map (·.id)).foldl (fun (l : List TeamId) (t : TeamId) =>
    l.takeWhile (fun x => x.team ≤ t.team) ++ t :: l.dropWhile fun x => x.team ≤ t.team) []

/-- The participants on this module in linear order. -/
def State.participants (s : State) (span : Nat) : List RunnerId :=
  let n := (s.myHeat?.map fun h => h.desc.cores * h.desc.perCore).getD 0
  (s.spanTeams span).flatMap fun t => (List.range n).map fun i =>
    { part := t.part, heat := t.heat, team := t.team, runner := i }

/-- Module numbers in order. -/
def insertNat (x : Nat) : List Nat → List Nat
  | [] => [x]
  | y :: t => if x ≤ y then x :: y :: t else y :: insertNat x t

/-- The modules of the partition's collective group, if it has one. -/
def State.groupModules (s : State) : Option (List Nat) := ((s.part? s.rid.part).bind (·.group)).map (·.2)

/-- The other modules that take part, by number: those of the heat's collective group, for span 11. -/
def State.farModules (s : State) (span : Nat) : List Nat :=
  if span != 3 then [] else ((s.groupModules.getD []).filter fun m => m != s.pacer.number).foldr insertNat []

/-- A collective instruction as its heat treats it: without a group, span 11 is span 10 (R207). -/
def State.spanned (s : State) (c : CollOp) : CollOp := if c.span = 3 && s.groupModules.isNone then { c with span := 2 } else c

/-- What tells collectives of one id and span apart: the team, the die, or nothing. -/
def State.collScope (s : State) (span : Nat) : Nat :=
  match span with
  | 0 => s.rid.team | 1 => s.r.ident.core.die | _ => 0

/-- How many collectives of an id and span the runner has completed. -/
def Runner.collCount (r : Runner) (span id : Nat) : Nat :=
  ((r.collSeq.find? fun x => x.1 == span * 256 + id).map (·.2)).getD 0

/-- One more completed. -/
def Runner.collNext (r : Runner) (span id : Nat) : Runner :=
  { r with collSeq := upsert (fun x => x.1 == span * 256 + id) (span * 256 + id, r.collCount span id + 1) r.collSeq }

/-- The collective the runner's next instruction of an id and span belongs to; a new one if none is open. -/
def State.collective (s : State) (c : CollOp) : Collective :=
  let seq := s.r.collCount c.span c.id
  let new : Collective := { span := c.span, id := c.id, scope := s.collScope c.span, heat := s.rid.heat, seq := seq, draw := s.free }
  match s.part? s.rid.part with
  | none => new
  | some p => (p.colls.find? fun x => x.span == c.span && x.id == c.id && x.scope == s.collScope c.span &&
      x.heat == s.rid.heat && x.seq == seq).getD new

/-- Whether two collectives are one. -/
def Collective.same (a b : Collective) : Bool :=
  a.span == b.span && a.id == b.id && a.scope == b.scope && a.heat == b.heat && a.seq == b.seq

/-- A collective put back; one all of whose participants have their result, or that nobody has joined, is gone. -/
def State.setCollective (s : State) (c : Collective) : State :=
  match s.part? s.rid.part with
  | none => s
  | some p =>
    if c.joined.isEmpty || (s.participants c.span).all fun r => c.taken.contains r then
      s.setPart { p with colls := p.colls.filter fun x => !x.same c }
    else s.setPart { p with colls := upsert (fun x => x.same c) c p.colls }

/-- The runner leaves a collective that has not completed. -/
def State.leaveCollective (s : State) (c : CollOp) : State :=
  let x := s.collective c
  s.setCollective { x with joined := x.joined.filter fun j => j.runner != s.rid }

/-! ### What the participants contribute -/

/-- The active elements below VL as a set of bits. -/
def State.maskBits (s : State) (m : Mask) : BitVec 16384 :=
  BitVec.ofNat 16384 ((s.activeFrom m 0).foldl (fun n i => n ||| 2 ^ i) 0)

/-- What the running runner joins with. -/
def State.contribution (s : State) (i : Instr) (c : CollOp) : Joined :=
  { runner := s.rid, i := i, vl := s.vl, vtype := s.vtype, va := s.vreg c.va, tagD := (s.vreg c.vd).tag, mask := s.maskBits c.m }

/-- A CBCAST as its root's. -/
def asRoot : Instr → Instr
  | .cbcast m vd va _ span id sh => .cbcast m vd va true span id sh
  | i => i

/-- The contributions of another module's participants, of a CBCAST only its root's, as its answer lists them: for each,
the mask of the elements below VL in whole bytes, then the elements (log 10). -/
def farJoined (j : Joined) (f : Fmt) : Nat → List Byte → List Joined
  | 0, _ => []
  | n + 1, bs =>
    let mb := (j.vl + 7) / 8
    let eb := (j.vl * f.width + 7) / 8
    if bs.length < mb + eb || mb + eb = 0 then []
    else { j with
      i := asRoot j.i
      mask := BitVec.ofNat 16384 (bytesVal (bs.take mb))
      va := { j.va with data := BitVec.ofNat 16384 (bytesVal ((bs.drop mb).take eb)) } } :: farJoined j f n (bs.drop (mb + eb))

/-- Every contribution in linear order: modules by number, this module's by TEAM and RUNNER. -/
def State.contributions (s : State) (x : Collective) (f : Fmt) : List Joined :=
  let near := (s.participants x.span).filterMap fun r => x.joined.find? fun j => j.runner == r
  let far (p : Nat → Bool) : List Joined := match near.head? with
    | none => []
    | some j => ((s.farModules x.span).filter p).flatMap fun m =>
      match x.remote.find? fun y => y.1 == m with
      | some (_, bs) => farJoined j f bs.length bs
      | none => []
  far (fun m => m < s.pacer.number) ++ near ++ far (fun m => s.pacer.number < m)

/-- Whether every participant has joined. -/
def State.collComplete (s : State) (x : Collective) : Bool :=
  (s.participants x.span).all (fun r => x.joined.any fun j => j.runner == r) &&
  (s.farModules x.span).all fun m => x.remote.any fun y => y.1 == m

/-- The function, and the id and span set aside, of a collective instruction; roots counted separately. -/
def collFnOf : Instr → Option CollFn
  | .cred m vd va op span id _ => some (credOp m vd va op span id).fn
  | .cgather .. => some .gather
  | .cbcast .. => some (.bcast false)
  | _ => none

/-- Whether an instruction is a root's. -/
def isRoot : Instr → Bool
  | .cbcast _ _ _ root _ _ _ => root
  | _ => false

/-- Whether the participants agree (R207): function, VL, tags, and exactly one root. -/
def collAgree (js : List Joined) : Bool :=
  match js with
  | [] => true
  | j :: t => t.all (fun k => collFnOf k.i == collFnOf j.i && k.vl == j.vl && k.va.tag == j.va.tag && k.tagD == j.tagD) &&
    (collFnOf j.i != some (.bcast false) || js.countP (fun k => isRoot k.i) == 1)

/-! ### Results (R208) -/

/-- A tree whose shape nothing fixes, over leaves in order: each split is a free choice (log 3). -/
def freeTree {α : Type} (f : α → α → α) (n : Nat) : Nat → List α → Option α
  | 0, l => l.head?
  | d + 1, l =>
    if l.length ≤ 1 then l.head?
    else
      let k := 1 + (Config.freeWord n).toNat % (l.length - 1)
      match freeTree f (2 * n + 1) d (l.take k), freeTree f (2 * n + 2) d (l.drop k) with
      | some a, some b => some (f a b)
      | some a, none => some a
      | none, b => b

/-- The tree of a CRED: R54's over participants when DET is set, any shape otherwise (R208). -/
def collTree {α : Type} (det : Bool) (n : Nat) (f : α → α → α) (leaves : List (Option α)) : Option α :=
  if det then tree f leaves else freeTree f n leaves.length (leaves.filterMap id)

/-- Element i of a CRED. -/
def credElem (o : RedOp) (md : Modes) (det : Bool) (n : Nat) (d : Fmt) (js : List Joined) (i : Nat) : Flagged Nat :=
  match d with
  | .fp g =>
    let leaf (j : Joined) : Option (Flagged XVal) := if j.mask.getLsbD i then some { val := j.va.src md.daz i } else none
    let w := redFormat ((js.head?.map fun j => j.va.opf).getD .fp32)
    let root := (collTree det n (o.fpNode md w) (js.map leaf)).getD { val := o.fpId }
    let r := g.deliver md (quietNaN root.val root.val)
    { val := r.val, flags := root.flags.or r.flags }
  | d =>
    { val := o.intRoot md d ((collTree det n o.int (js.map fun j =>
        if j.mask.getLsbD i then some (j.va.index i) else none)).getD (o.intId d)) }

/-- The registers a CGATHER of p participants writes, when vd onward has that many of its tag (R208). -/
def State.gatherRegs (s : State) (vd : VR) (p : Nat) : Option Nat :=
  let e := (s.vreg vd).count s.vlen
  let n := (p * s.vl + e - 1) / e
  if vd.val + n ≤ 32 && (List.range n).all fun j => (s.vregN (vd.val + j)).tag == (s.vreg vd).tag then some n else none

/-- The registers a complete collective of p participants writes. -/
def State.collDests (s : State) (c : CollOp) (p : Nat) : List VR :=
  match c.fn with
  | .gather => ((List.finRange 32).filter fun r => c.vd ≤ r).take ((s.gatherRegs c.vd p).getD 0)
  | _ => [c.vd]

/-- The tags a collective accepts (R208); elements moved unchanged need one tag (log 10). The registers of a CGATHER are
counted for this module's participants here, for all of them once they have joined. -/
def State.collOk (s : State) (c : CollOp) : Bool :=
  match c.fn with
  | .red o => s.plainNum c.va && s.redOk o c.vd c.va
  | .gather => s.plainNum c.va && (s.vreg c.vd).tag == (s.vreg c.va).tag &&
      (s.gatherRegs c.vd (s.participants c.span).length).isSome
  | .bcast _ => s.plainNum c.va && (s.vreg c.vd).tag == (s.vreg c.va).tag

/-- The plan of a complete collective. The modes are those of participant 0 (DESIGN CHOICE, log 10). -/
def State.collPlan (s : State) (c : CollOp) (x : Collective) (js : List Joined) (n : Names) (vlmax : Nat) : VPlan :=
  let f := s.fmtOf c.vd
  let put (val : Nat → Nat) (fl : Flags) : VPlan := s.wholePlan n [c.vd] {} fl [] fun v =>
    s.settleReg c.m 0 vlmax c.vd ((s.activeFrom c.m 0).foldl (fun (v : Vect) (i : Nat) => v.putElem c.vd f i (val i)) v)
  match c.fn with
  | .red o =>
    let vt := ((js.head?.map (·.vtype)).getD s.vtype)
    let rs (i : Nat) : Flagged Nat := credElem o (modesOf vt) (detOf vt) (2 ^ 70 * (x.draw + 1) + 2 ^ 60 * i) f js i
    put (fun i => (rs i).val) ((s.activeFrom c.m 0).foldl (fun (fl : Flags) (i : Nat) => fl.or (rs i).flags) {})
  | .gather =>
    let e := f.count s.vlen
    s.wholePlan n [c.vd] {} {} [] fun v => (js.zip (List.range js.length)).foldl (fun (v : Vect) (jp : Joined × Nat) =>
      (List.range s.vl).foldl (fun (v : Vect) (i : Nat) =>
        let k := jp.2 * s.vl + i
        v.putElem (c.vd + Fin.ofNat 32 (k / e)) f (k % e)
          (if jp.1.mask.getLsbD i then jp.1.va.elem ((jp.1.va.fmt).getD .untagged) i else 0)) v) v
  | .bcast _ =>
    match js.find? fun j => isRoot j.i with
    | some j => put (fun i => j.va.elem f i) {}
    | none => put (fun _ => 0) {}

/-! ### The instruction (R187, R202, R207) -/

/-- What a participant's earlier vector-side accesses must have done before its contribution is read (R208): they perform
at the span's scope. -/
def State.beforeJoin (s : State) : State :=
  s.drainShare.mapR fun r => r.mapHist fun h => if h.byVec then { h with vec := false, strm := false } else h

/-- What a participant contributes to the other modules, as they list it (log 10): of a CBCAST only its root's. -/
def Joined.packed (f : Fmt) (j : Joined) : List Byte :=
  if collFnOf j.i == some (.bcast false) && !isRoot j.i then []
  else natToLeBytes ((j.vl + 7) / 8) (j.mask.toNat % 2 ^ j.vl) ++
    natToLeBytes ((j.vl * f.width + 7) / 8) (j.va.data.toNat % 2 ^ (j.vl * f.width))

/-- This module's participants have all joined: what they contribute goes to the other modules (R207, R347). -/
def State.contribute (s : State) (c : CollOp) : State :=
  let x := s.collective c
  if (s.participants c.span).all fun r => x.joined.any fun j => j.runner == r then
    let bs := ((s.participants c.span).filterMap fun r => x.joined.find? fun j => j.runner == r).flatMap (Joined.packed (s.fmtOf c.va))
    (s.farModules c.span).foldl (fun s m => s.emit (.contribution m s.rid.part s.rid.heat c.imm x.seq bs)) s
  else s

/-- A collective joined: its place in the record; with the last of this module's participants what they contribute leaves for
the other modules. -/
def State.joinCollective (s : State) (i : Instr) (c : CollOp) : State :=
  let s := s.beforeJoin
  let x := s.collective c
  let s := if x.joined.isEmpty then { s with free := s.free + 1 } else s
  if x.joined.any fun j => j.runner == s.rid then s
  else (s.setCollective { x with joined := x.joined ++ [s.contribution i c] }).contribute c

/-- The running runner has had its part of a collective: it is one of those that need no result of it any more, and its next
instruction of that id and span belongs to the next one. -/
def State.collDone (s : State) (c : CollOp) : State :=
  let x := s.collective c
  (s.setCollective { x with taken := x.taken ++ [s.rid] }).mapR fun r => r.collNext c.span c.id

/-- The scope of a span: the team, the die, the package, the system (R208). -/
def spanScope : Nat → Scope
  | 0 => .team | 1 => .die | 2 => .package | _ => .system

/-- The record of a collective's wait (R188): collective id and span. -/
def State.collWait (s : State) (c : CollOp) (p : Nat) : WaitRec :=
  { s.newWait .collective (BitVec.ofNat 64 (c.id * 256 + c.span * 8)) 0 with desig := 0x10 + c.span, pcls := p }

/-- The end of a collective's wait at its deadline: WAITTIME with imm16 when WDEAD.WT is set; otherwise, no status
register being named, the instruction completes and leaves vd as it was (log 11). -/
def State.collLate (s : State) (c : CollOp) : M (Bool × State) :=
  if bitOf s.r.scal.wdead 63 then stopTrap .waittime (BitVec.ofNat 64 c.imm) (s.leaveCollective c)
  else .ok (true, ((s.collDone c).setVstart 0).mapR fun r => { r with wait := none })

/-- One look at a collective the runner has joined: once everyone has, later vector accesses come after its result (R208). -/
def State.collPoll (s : State) (i : Instr) (c : CollOp) (w : WaitRec) (n : Names) (vlmax : Nat) : M (Bool × State) :=
  let x := s.collective c
  if s.collComplete x then
    let js := s.contributions x (s.fmtOf c.va)
    if !collAgree js then
      stopTrap .tag (tagTval (s.vreg c.vd).tag (s.vreg c.va).tag 0 0
        (if c.m.reg = 0 then 0 else (s.vregN c.m.reg.val).tag) vlmax false false ||| 0x2000000000000000) (s.collDone c)
    else if c.fn == .gather && (s.gatherRegs c.vd js.length).isNone then s.tagStop n c.m false false
    else do
      let ds := s.collDests c js.length
      let (_, s) ← s.runPlan i (s.collPlan c x js n vlmax)
      .ok (true, (((s.collDone c).acquire .vec (spanScope c.span)).mapR fun r => { r with wait := none }).noteWrites ds)
  else if s.expired w then s.collLate c
  else .ok (false, s.mapR fun r => { r with wait := some w, stat := .waiting })

/-- What a runner contributes is read when it joins: poison in it is consumed then (R341). -/
def State.joinRead (s : State) (i : Instr) : M (Unit × State) :=
  if s.r.wait.isSome then .ok ((), s)
  else match s.poisonedRead i with
    | some (_, k, r) => (s.setVstart k).consumeReg true r.val
    | none => .ok ((), s)

/-- A collective instruction at the head of the vector side: true when it has completed. Its convoy is checked as it issues
(R240). A runner that traps
before every participant has joined takes its contribution back; it joins when it executes the instruction again (R207). -/
def collStep (i : Instr) (c : CollOp) (h : Word) (s : State) : M (Bool × State) :=
  let c := s.spanned c
  let n : Names := { vd := some c.vd, va := some c.va }
  let first (s : State) : M (WaitRec × State) := match s.r.wait with
    | some w => .ok (w, s)
    | none => do
      let (p, s) ← s.compat (0x10 + c.span) 0
      .ok (s.collWait c p, s.joinCollective i c)
  let r : M (Bool × State) := do
    let (_, s) ← s.report fun s => .ok ((), s)
    let (_, s) ← if s.r.wait.isSome then .ok ((), s) else s.convoyCheck i
    let (_, s) ← s.engineStart h .cle
    let (vlmax, s) ← s.tagChecks n c.m (s.collOk c) true
    let (_, s) ← s.joinRead i
    let (w, s) ← first s
    s.collPoll i c w n vlmax
  match r with
  | .error (.trap e v, s) =>
    .error (.trap e v, if s.collComplete (s.collective c) then s else s.leaveCollective c)
  | r => r

/-- A collective instruction passed (R202, R207): behind earlier vector instructions it takes its place in the queue;
otherwise it waits for its participants here, scheduler-visibly. -/
def passCollective (i : Instr) (c : CollOp) (sh : SR) (s : State) : Host.Outcome State Fault Refusal :=
  outcome (do
    if s.r.vq.isEmpty then
      let (done, s) ← collStep i c (s.reg sh) (s.mapR fun r => { r with stat := .ready })
      .ok ((), if done then s.advance else s)
    else if vecCount s.r.vq < 32 then .ok ((), (s.enqueue i (s.reg sh) 0).advance)
    else .error (.queue 0, s))

/-- cred (R208). -/
def execCred (m : VMod) (vd va : VR) (op : Fin 5) (span : Fin 4) (id : Byte) (sh : SR) (s : State) :
    Host.Outcome State Fault Refusal :=
  passCollective (.cred m vd va op span id sh) (credOp m vd va op span id) sh s

/-- cgather (R208). -/
def execCgather (m : VMod) (vd va : VR) (span : Fin 4) (id : Byte) (sh : SR) (s : State) : Host.Outcome State Fault Refusal :=
  passCollective (.cgather m vd va span id sh) (cgatherOp m vd va span id) sh s

/-- cbcast (R208). -/
def execCbcast (m : VMod) (vd va : VR) (root : Bool) (span : Fin 4) (id : Byte) (sh : SR) (s : State) :
    Host.Outcome State Fault Refusal :=
  passCollective (.cbcast m vd va root span id sh) (cbcastOp m vd va root span id) sh s

end Sys2Proof.Machine
end

