-- ==== Sys2Proof/Machine/Drain.lean ====
section
/-! DEFINITION. The vector instruction queue worked off in program order (R232, R233): what a passed instruction does when
its turn comes, and the held stores and actions of the scalar side. -/

namespace Sys2Proof.Machine

/-- An effect that cannot stop. -/
def always (f : State → State) (s : State) : M (Unit × State) := .ok ((), f s)

/-- The effect of a passed instruction with the scalars captured when it was passed. -/
def vbody (i : Instr) (x y : Word) : State → M (Unit × State) :=
  match i with
  | .vadd m vd va b => doArith i opAdd m.mask vd va (some b) none x
  | .vsub m vd va b => doArith i opSub m.mask vd va (some b) none x
  | .vmul m vd va b => doArith i opMul m.mask vd va (some b) none x
  | .vdiv m vd va b => doArith i opDiv m.mask vd va (some b) none x
  | .vmin m vd va b => doArith i opMin m.mask vd va (some b) none x
  | .vmax m vd va b => doArith i opMax m.mask vd va (some b) none x
  | .vfma m vd va b vc => doArith i opFma m.mask vd va (some b) (some vc) x
  | .vfms m vd va b vc => doArith i opFms m.mask vd va (some b) (some vc) x
  | .vfnma m vd va b vc => doArith i opFnma m.mask vd va (some b) (some vc) x
  | .vabs m vd va => doArith i opAbs m.mask vd va none none 0
  | .vneg m vd va => doArith i opNeg m.mask vd va none none 0
  | .vsqrt m vd va => doArith i opSqrt m.mask vd va none none 0
  | .vand m vd va b => doLogic i (bits64 (· &&& ·)) m.mask vd va (some b) x
  | .vor m vd va b => doLogic i (bits64 (· ||| ·)) m.mask vd va (some b) x
  | .vxor m vd va b => doLogic i (bits64 (· ^^^ ·)) m.mask vd va (some b) x
  | .vnot m vd va => doLogic i (bits64 fun a _ => ~~~a) m.mask vd va none 0
  | .vshl m vd va b => doShift i shl m.mask vd va b x
  | .vshr m vd va b => doShift i shr m.mask vd va b x
  | .vsar m vd va b => doShift i sar m.mask vd va b x
  | .vcvt m vd va => doCvt i m.mask vd va none
  | .vcvtsr m vd va vb => doCvt i m.mask vd va (some vb)
  | .vmov m vd va => doMov i m.mask vd va
  | .vbcast m vd va idx => doBcast i m.mask vd va idx.toNat
  | .vbcastScalar m vd _ => doBcastScalar i m.mask vd x
  | .vsel m vd va b vc => doSel i m.mask vd va b vc x
  | .vtwosum m vd va b => doTwosum i m.mask vd va b x
  | .vscalb m vd va b => doScalb i m.mask vd va b x
  | .vqpush _ q va idx => doVqpush i q va idx.toNat
  | .vqpop m vd q => doVqpop i m.mask vd q
  | .vmpopc m q va => doCount i (fun l => BitVec.ofNat 64 l.length) m.mask q va
  | .vmfirst m q va => doCount i (fun l => (l.head?.map fun j => BitVec.ofNat 64 j).getD (BitVec.allOnes 64)) m.mask q va
  | .vmany m q va => doCount i (fun l => boolWord (!l.isEmpty)) m.mask q va
  | .vcmp m vd va b cond => doCmp i m.mask vd va b cond.val x
  | .vredsum m vd va => doRed i .sum m.mask vd va
  | .vredmin m vd va => doRed i .min m.mask vd va
  | .vredmax m vd va => doRed i .max m.mask vd va
  | .vredand m vd va => doRed i .and m.mask vd va
  | .vredor m vd va => doRed i .or m.mask vd va
  | .vscan m vd va op => doScan i (redOpOf op.val) m.mask vd va
  | .vredts m vd va vb => doRedts i m.mask vd va vb
  | .vslideup m vd va off ins => doSlideup i m.mask vd va off.toNat ins x
  | .vslidedn m vd va off ins => doSlidedn i m.mask vd va off.toNat ins x
  | .vperm m vd va vc ins => doVperm i m.mask vd va vc ins x
  | .vrev m vd va => doVrev i m.mask vd va
  | .vzip m vd va vb => doVzip i m.mask vd va vb
  | .vunzipe m vd va vb => doVunzip i 0 m.mask vd va vb
  | .vunzipo m vd va vb => doVunzip i 1 m.mask vd va vb
  | .vcompress m vd va => doCompress i m.mask vd va
  | .vexpand m vd va => doExpand i m.mask vd va
  | .vinsert _ vd _ idx => doInsert i vd idx.toNat x
  | .vcfgw _ => doVcfgw x none
  | .vcfgwTag _ vd va tag => doVcfgw x (some (vd, va, tag))
  | .vtag vd va tag => doVtag vd va tag
  | .vgettag _ q va => doVgettag i q va
  | .vidx m vd start step => doVidx i m.mask vd start.toNat step.toInt
  | .vsetvl _ cap => doVsetvl none x cap.toNat
  | .vsetvlQueue q _ cap => doVsetvl (some q) x cap.toNat
  | .vscget _ vd va => doVscget i vd va
  | .vscset _ vd va => doVscset i vd va
  | .vrng m vd => doVrng i m.mask vd
  | .rngseed _ _ => doRngseed i x
  | .vld m vd _ sb off => doVload m vd (x + sext off) .unit sb y
  | .vlds m vd _ sb off => doVload m vd (x + sext off) (.strided y) sb y
  | .vldx m vd vi _ off => doVload m vd (x + sext off) (.indexed vi) 0 0
  | .vldff m vd _ off => doVldff m vd (x + sext off)
  | .vst m vd _ sb off => doVstore m vd (x + sext off) .unit sb y
  | .vsts m vd _ sb off => doVstore m vd (x + sext off) (.strided y) sb y
  | .vstxo m vd vi _ off => doVstore m vd (x + sext off) (.indexed vi) 0 0
  | .vstxu m vd vi _ off => doVstxu m vd vi (x + sext off)
  | .vamoadd m vd vi _ off => doVamo .add m vd vi (x + sext off)
  | .vamomin m vd vi _ off => doVamo .min m vd vi (x + sext off)
  | .vamomax m vd vi _ off => doVamo .max m vd vi (x + sext off)
  | .vamofadd m vd vi _ off => doVamo .fadd m vd vi (x + sext off)
  | .sfn m vd va fn _ => doSfn i m.mask vd va fn x
  | .xsort m vd va desc idx _ => doXsort i m.mask vd va desc idx x
  | .xtopk m vd va k smallest _ => doXtopk i m.mask vd va k.toNat smallest x
  | .xhist m vd va _ => doXhist i m.mask vd va x
  | .stream m vd _ sb off => doStream (streamOp m vd sb off x y)
  | .streamseg m vd _ sb vi fields off => doStream (streamsegOp m vd sb vi fields off x y)
  | .tlda l sa sb soff => always (doLatch (latchIdx l) sa sb none soff)
  | .tldb l sa sb soff => always (doLatch (latchIdx l) sa sb none soff)
  | .tldax l sa sb vi soff => always (doLatch (latchIdx l) sa sb (some vi) soff)
  | .tldv l vi => always (doTldv l vi)
  | .mfence => always doMfence
  | .tmma z a1 b1 => always (doTmma z (tmmaLatches a1 b1).1 (tmmaLatches a1 b1).2)
  | .tzero z => always (doTzero z)
  | .tst z out sa sb sr => always (doTst z out sa sb sr)
  | .tstv z vi sr => always (doTstv z vi sr)
  | .tsave z sa => always (doTsave z sa)
  | .trestore z sa => always (doTrestore z sa)
  | _ => always id

/-- A passed instruction's turn with the scalar side as it was when passed, which the later one takes up again. -/
def State.asPassed {α : Type} (s : State) (c : Scal) (f : State → M (α × State)) : M (α × State) :=
  let now := s.r.scal
  let back (t : State) : State := t.mapR fun r => { r with scal := now }
  match f (s.mapR fun r => { r with scal := c }) with
  | .ok (x, t) => .ok (x, back t)
  | .error (e, t) => .error (e, back t)

/-- The fields of a collective instruction. -/
def collOpOf : Instr → Option CollOp
  | .cred m vd va op span id _ => some (credOp m vd va op span id)
  | .cgather m vd va span id _ => some (cgatherOp m vd va span id)
  | .cbcast m vd va root span id _ => some (cbcastOp m vd va root span id)
  | _ => none

/-- Whether an instruction is a stream. -/
def isStream : Instr → Bool
  | .stream .. | .streamseg .. => true
  | _ => false

/-- A held AMO's turn, numbered by x: its action performs, and its result arrives (R233). -/
def amoTurn (f : AmoOp × Bool × Order × Scope × SR × SR × SR) (x : Word) (c : Scal) (s : State) : M (Bool × State) := do
  let (op, dbl, ord, scope, sd, sb, sa) := f
  let (r, s) ← s.asPassed c fun s => amoAct op dbl ord scope sd sb sa s
  .ok (true, s.settleAmo sd x.toNat r)

/-- One passed instruction's turn: true when it has completed (a collective may wait on). A convoy is checked as it issues
(R240). -/
def vturn (i : Instr) (x y : Word) (c : Scal) (s : State) : M (Bool × State) :=
  match amoFields i with
  | some f => amoTurn f x c s
  | none => s.asPassed c fun s =>
    match collOpOf i with
    | some o => collStep i o x s
    | none => do
      let (_, s) ← s.convoyCheck i
      let (_, s) ← if isTileOp i || i = .mfence then vbody i x y s else noted s i (s.guarded i (vbody i x y))
      .ok (true, s)

/-- A held store or action of the scalar side performs (R233). -/
def State.heldAct (s : State) : VItem → State
  | .vec .. => s
  | .store a => s.storeNow a
  | .bmclr k m => s.clearBits k m
  | .line k m => s.heldLine k m
  | .copy c => s.startCopy c
  | .fence k scope => s.fenceNow k scope
  | .ifence => s.fetchAfter
  | .flags f => s.mapR fun r => { r with vect := { r.vect with vflags := r.vect.vflags ||| f } }
  | .pushed _ => s
  | .popped _ _ => s

/-- The head of the vector queue done. -/
def State.popItem (s : State) : State := s.mapR fun r => { r with vq := r.vq.tail }

/-- Whether the head of the queue must wait for its stream to land: its records are still outstanding. -/
def State.streamPending (s : State) (i : Instr) : Bool :=
  isStream i && (s.r.streams.head?.map fun x => decide (x.landed.length < x.recs.length)).getD false

/-- The items of the queue in order, n at most: until one is blocked, waits for an answer, waits for its participants, or
traps. An outstanding stream at the head lands now if `land` says so. -/
def drainLoop (land : Bool) : Nat → State → State
  | 0, s => s
  | n + 1, s =>
    match s.r.vq with
    | [] => s
    | .vec i x y c :: _ =>
      if s.streamPending i && !land then s
      else match vturn i x y c s with
      | .ok (true, t) => drainLoop land n t.popItem.completed
      | .ok (false, t) => t
      | .error (.queue _, _) => s
      | .error (.ask a, t) => t.stallFor a
      | .error (.trap e v, t) => t.cancelYounger.enterTrap e v (e == .fabric)
      | .error (.rewind l, t) => t.rewind l
      | .error (.pause, t) => t
    | a :: _ => drainLoop land n (s.heldAct a).popItem

/-- The vector queue of a running runner worked off as far as it goes. -/
def State.drain (s : State) (land : Bool) : State :=
  if s.r.stat = .ready then drainLoop land s.r.vq.length s else s

end Sys2Proof.Machine
end

