-- ==== Sys2Proof/Machine/Hot.lean ====
section
/-! DEFINITION. Hotness counts reaching their records (R302). -/

namespace Sys2Proof.Machine

/-- A count added to a saturating 32-bit field. -/
def satAdd (old n : Nat) : Nat := min (2 ^ 32 - 1) (old + n)

/-- The record of a page in its partition's hotness table: 16 bytes for each 64 KiB of address, a larger page at the
place of its first one (log 14). -/
def hotRecord (p : Part) (page : Nat) : Nat := (p.record.hotbase + 16 * (page / 2 ^ 16)) % 2 ^ 41

/-- Gathered counts of one page added to its record (R302). -/
def State.flushPage (s : State) (h : Nat × Nat × Nat × Nat × Nat) : State :=
  match s.part? h.1 with
  | none => s
  | some p =>
    let k := hotRecord p h.2.1
    let f (n : Nat) : Nat := bytesVal (bytesAt s.mem (k + 4 * n) 4)
    s.agentWrite h.1 (cellsFrom k (natToLeBytes 4 (satAdd (f 0) h.2.2.1) ++ natToLeBytes 4 (satAdd (f 1) h.2.2.2.1) ++
      natToLeBytes 4 (satAdd (f 2) h.2.2.2.2) ++ natToLeBytes 4 (f 3 + 1)))

/-- A core's gathered counts reach their records. -/
def State.flushHot (s : State) (c : CoreId) : State :=
  let h := (s.core c).hot
  if h.isEmpty then s else h.foldl State.flushPage (s.setCore { s.core c with hot := [] })

/-- The event HOTNESS_FLUSH. -/
def execHotnessFlush (c : CoreId) (s : State) : Host.Outcome State Fault Refusal := .next (s.flushHot c)

end Sys2Proof.Machine
end

