-- ==== Sys2Proof/Machine/Place.lean ====
section
/-! DEFINITION. Where a team may go and which team goes next (R252–R254, R258–R262, R336), and the start of a team
(R13, R250, R294). -/

namespace Sys2Proof.Machine

/-! ### What a cluster can take (R252, R253, R336) -/

/-- Bytes of a cluster's scratchpad (R2). -/
def scratchCap (cluster : Nat) : Nat := if isM cluster then 4 * 2 ^ 20 else 2 ^ 20

/-- Bytes of a core's pool (R27). -/
def poolCap (cluster : Nat) : Nat := if isM cluster then 2 ^ 20 else 2 ^ 18

/-- The teams that sit on a cluster. -/
def State.teamsOn (s : State) (die cluster : Nat) (gone : List TeamId) : List Team :=
  s.teams.filter fun t => (t.stat == .resident || t.stat == .stopping) && !gone.contains t.id &&
    (t.place.map fun p => p.die == die && p.cluster == cluster).getD false

/-- Whether a core is being drained for another team that still waits for a place (R254). -/
def State.drained (s : State) (c : CoreId) (t : TeamId) : Bool :=
  match (s.core c).drain with
  | some (u, _) => u != t && ((s.team? u).map fun x => x.stat == .queued || x.stat == .saved).getD false
  | none => false

/-- The cores of a cluster without a team, that serve and that are not drained for another team (R253, R254). -/
def State.freeCores (s : State) (t : TeamId) (die cluster : Nat) (gone : List TeamId) : List Nat :=
  let busy := (s.teamsOn die cluster gone).flatMap fun t => (t.place.map (·.cores)).getD []
  ((coresOf die cluster).filter fun c => !s.coreRetired c && !busy.contains c.core && !s.drained c t).map (·.core)

/-- A team's scratchpad bytes. -/
def State.scratchOf (s : State) (t : Team) : Nat := ((s.heat? t.id.part t.id.heat).map (·.desc.scratch)).getD 0

/-- The C-dies of a partition by slot (R252). -/
def Part.dieSlots (p : Part) : List Nat := (List.range 8).filter fun d => p.record.dies.contains d

/-- The ways of a die nobody has carved, highest first (R294). -/
def State.freeWays (s : State) (die : Nat) : List Nat :=
  let taken := (s.die die).carved.flatMap (·.2)
  ((List.range 16).reverse).filter fun w => !taken.contains w

/-- Whether a heat's ways are carved on a die, or can be now: a die carves at most 10 (R294). -/
def State.waysOk (s : State) (h : Heat) (die : Nat) : Bool :=
  h.desc.dsmWays = 0 || (s.die die).carved.any (fun c => c.1 == h.uid) ||
  ((s.die die).carved.map fun c => c.2.length).sum + h.desc.dsmWays ≤ 10

/-- The dies a team may run on (R252): its D slot's; a saved team of a heat with DSM returns to its die (R336). -/
def State.dieOk (s : State) (p : Part) (h : Heat) (t : Team) (die : Nat) : Bool :=
  let slots := p.dieSlots
  (kindAt h.loops 0 != .d || slots[t.digit % max 1 slots.length]? == some die) &&
  (h.desc.dsmWays = 0 || !t.dispatched || t.homeDie == some die) && s.waysOk h die

/-- The split a team would run with on a class (R253, R256, R336). -/
def classSplit (h : Heat) (t : Team) (m : Bool) : Option Split :=
  if (t.resvM.map fun b => b == m).getD true then
    (splitFor h.desc m).filter fun sp => !t.dispatched || t.split == sp
  else none

/-- Where a cluster's scratchpad is taken. -/
def State.scratchUsed (s : State) (die cluster : Nat) (gone : List TeamId) : List (Nat × Nat) :=
  (s.teamsOn die cluster gone).map fun u => ((u.place.map (·.spBase)).getD 0, s.scratchOf u)

/-- Whether a scratchpad region of n bytes lies at a base, beside those taken. -/
def fitsAt (cap n : Nat) (used : List (Nat × Nat)) (base : Nat) : Bool :=
  base + n ≤ cap && used.all fun u => !regionsMeet base n u.1 u.2

/-- Whether a scratchpad has a gap of n bytes. -/
def hasGap (cap n : Nat) (used : List (Nat × Nat)) : Bool := (0 :: used.map fun u => u.1 + u.2).any (fitsAt cap n used)

/-- Whether a cluster can take a team now, whole (R253). No team of a parallel heat starts before every lower one (R258). -/
def State.clusterTakes (s : State) (p : Part) (h : Heat) (t : Team) (die cluster : Nat) (gone : List TeamId) : Bool :=
  p.record.clusters.contains (die, cluster) && s.dieOk p h t die && (classSplit h t (isM cluster)).isSome &&
  h.desc.cores ≤ (s.freeCores t.id die cluster gone).length &&
  hasGap (scratchCap cluster) h.desc.scratch (s.scratchUsed die cluster gone) &&
  t.attaches.all (fun a => !a.live || (s.reGrant p.idx die cluster a).isSome) &&
  (t.dispatched || h.desc.cls != .parallel ||
    s.teams.all fun u => u.id.part != p.idx || u.id.heat != h.id || t.id.team ≤ u.id.team || u.dispatched)

/-- Whether some cluster of a class can take a team. -/
def State.classTakes (s : State) (p : Part) (h : Heat) (t : Team) (m : Bool) (gone : List TeamId) : Bool :=
  p.record.clusters.any fun c => isM c.2 == m && s.clusterTakes p h t c.1 c.2 gone

/-- Whether a place is one the scheduler may choose for a team: M-clusters are preferred (R253), the cores are free, the
regions fit and meet no other (R25); teams of one heat on one die share their die shared memory (R294). -/
def State.placeOk (s : State) (p : Part) (h : Heat) (t : Team) (pl : Place) : Bool :=
  s.clusterTakes p h t pl.die pl.cluster [] && (isM pl.cluster || !s.classTakes p h t true []) &&
  pl.cores.length == h.desc.cores && pl.cores.eraseDups == pl.cores &&
  pl.cores.all (fun c => (s.freeCores t.id pl.die pl.cluster []).contains c) &&
  fitsAt (scratchCap pl.cluster) h.desc.scratch (s.scratchUsed pl.die pl.cluster []) pl.spBase &&
  pl.tcmBase + ((classSplit h t (isM pl.cluster)).map fun sp => sp.tcmKiB * 1024).getD 0 ≤ poolCap pl.cluster &&
  s.teams.all fun u => u.id.part != h.part || u.id.heat != h.id ||
    (u.place.map fun q => q.die != pl.die || q.dsmBase == pl.dsmBase).getD true

/-! ### Which team goes next (R259, R261, R262) -/

/-- Whether a recorded wait has raised a team's effective priority (R259). -/
def State.raised (s : State) (t : TeamId) : Bool := s.basePrio t < s.epri t

/-- The team a queue offers: its head, or a raised team of at least its level, which goes first (R259, R261). -/
def State.offered (s : State) (q : WorkQueue) : Option TeamId :=
  match q.teams with
  | [] => none
  | h :: t =>
    let best := (t.filter s.raised).foldl (fun (b : TeamId) (x : TeamId) =>
      if s.epri b < s.epri x || (b == h && s.epri b == s.epri x && !s.raised h) then x else b) h
    some best

/-- A queue's offer: the queue, the team, its level. -/
structure Offer where
  queue : Nat
  team : TeamId
  level : Nat
  deriving DecidableEq, Repr

/-- The offers of a partition's queues. -/
def State.offers (s : State) (p : Part) : List Offer :=
  ((List.range 64).zip p.queues.toList).filterMap fun x =>
    (s.offered x.2).map fun t => { queue := x.1, team := t, level := s.epri t }

/-- How far a queue lies behind its level's pointer (R262). -/
def Part.ring (p : Part) (o : Offer) : Nat := (o.queue + 64 - (p.pointers[o.level]?).getD 0) % 64

/-- Whether an offer goes before another: by level, then raised teams, then round robin (R259, R262). -/
def State.goesFirst (s : State) (p : Part) (a b : Offer) : Bool :=
  b.level < a.level || (a.level == b.level && ((s.raised a.team && !s.raised b.team) ||
    (s.raised a.team == s.raised b.team && p.ring a < p.ring b)))

/-- Whether a team can be placed somewhere, if some teams were gone. -/
def State.placeable (s : State) (p : Part) (t : TeamId) (gone : List TeamId) : Bool :=
  match s.heat? t.part t.heat, s.team? t with
  | some h, some tm => s.classTakes p h tm true gone || s.classTakes p h tm false gone
  | _, _ => false

/-- A team leaves its queue: the pointer of the level it won at moves one past, the queue is at its home level again; a new head
waits from now on (R262). -/
def State.takeOffer (s : State) (p : Part) (o : Offer) : State :=
  let p := p.mapQueue o.queue fun q =>
    { q with teams := q.teams.filter fun t => t != o.team, aged := 0, since := if q.teams.head? == some o.team then s.time else q.since }
  s.setPart { p with pointers := p.pointers.mapIdx fun l x => if l = o.level then (o.queue + 1) % 64 else x }

/-! ### Victims (R260) -/

/-- The rank of a class among victims. -/
def victimRank : PClass → Nat
  | .weak => 0 | .parallel => 1 | .concurrent => 2

/-- What orders victims (R260): class, EPRI, then the heat admitted last, then the highest TEAM. -/
def State.victimKey (s : State) (t : Team) : Nat × Nat × Nat × Nat :=
  match s.heat? t.id.part t.id.heat with
  | some h => (victimRank h.desc.cls, s.epri t.id, h.order, t.id.team)
  | none => (0, 0, 0, 0)

/-- Whether a victim comes before another. -/
def victimBefore (a b : Nat × Nat × Nat × Nat) : Bool :=
  a.1 < b.1 || (a.1 == b.1 && (a.2.1 < b.2.1 || (a.2.1 == b.2.1 &&
    (b.2.2.1 < a.2.2.1 || (a.2.2.1 == b.2.2.1 && b.2.2.2 ≤ a.2.2.2)))))

/-- Resident teams of a partition. -/
def State.residents (s : State) (part : Nat) : List Team := s.teams.filter fun t => t.id.part == part && t.stat == .resident

/-- Whether a team has a runner that has just executed YIELD (R197). -/
def State.atYield (s : State) (t : TeamId) : Bool := (s.teamRunners t).any (·.yielded)

/-- Whether a team holds cores of the split that an offer's team would run with there: none is pre-empted only to drain a
core (R254). -/
def State.sameSplit (s : State) (t : Team) (o : Offer) : Bool :=
  match s.heat? o.team.part o.team.heat, s.team? o.team with
  | some h, some u => (t.place.map fun pl => classSplit h u (isM pl.cluster) == some t.split).getD false
  | _, _ => false

/-- The teams of a partition that are already stopping. -/
def State.leavers (s : State) (part : Nat) : List TeamId :=
  (s.teams.filter fun t => t.id.part == part && t.stat == .stopping).map (·.id)

/-- Whether a team may be pre-empted for an offer (R197, R260): one of a higher level that cannot be placed now, nor once the teams
that already stop are gone, but can once the team is, no victim before it serving as well. At a YIELD a level as high as its own is
enough. -/
def State.victimOf (s : State) (p : Part) (t : Team) (o : Offer) : Bool :=
  let serves (v : Team) : Bool := s.sameSplit v o && s.placeable p o.team (v.id :: s.leavers p.idx)
  let fits (v : Team) : Bool := s.epri v.id < o.level && serves v
  !s.placeable p o.team [] && !s.placeable p o.team (s.leavers p.idx) &&
  ((fits t && (s.residents p.idx).all fun v => !fits v || victimBefore (s.victimKey t) (s.victimKey v)) ||
  (s.atYield t.id && s.epri t.id ≤ o.level && serves t))

/-- Whether an offer is ready (R261): its team can be placed now, or once a victim is pre-empted, which may have begun. -/
def State.readyOffer (s : State) (p : Part) (o : Offer) : Bool :=
  s.placeable p o.team [] || s.placeable p o.team (s.leavers p.idx) || (s.residents p.idx).any fun t => s.victimOf p t o

/-- The offer that is dispatched or resumed next: the first of the ready ones (R262). -/
def State.winner (s : State) (p : Part) : Option Offer :=
  ((s.offers p).filter (s.readyOffer p)).foldl
    (fun (b : Option Offer) (o : Offer) => match b with
      | none => some o
      | some x => if s.goesFirst p o x then some o else some x) none

/-! ### The start of a team (R13, R250, R294, R307) -/

/-- Where the memory of a runner's own window begins: one 4 GiB block for each runner (log 13). -/
def ownBaseOf (pkg : Package) (t : Team) (i : Nat) : Word := BitVec.ofNat 64 (pkg.runnerMem + (t.uid * 32 + i) * 2 ^ 32)

/-- Runner i of a team at its start, at an entry (R13, R24, R250). -/
def newRunner (now : Nat) (pkg : Package) (h : Heat) (t : Team) (pl : Place) (sp : Split) (entry : Word) (i : Nat) : Runner :=
  let l := t.id.team * teamSize h.desc + i
  let ds := digitsOf h.loops l
  let d : Ident :=
    { id := { part := h.part, heat := h.id, team := t.id.team, runner := i }
      core := { die := pl.die, cluster := pl.cluster, core := (pl.cores[i / max 1 h.desc.perCore]?).getD 0 }
      linear := l
      lidx := Vector.ofFn fun (k : Fin 4) => BitVec.ofNat 32 ((ds[k.val]?).getD 0)
      lext := Vector.ofFn fun (k : Fin 4) => BitVec.ofNat 32 (extentAt h.loops k.val)
      cls := h.desc.cls, pri := h.pri, seed := h.seed, ownBase := ownBaseOf pkg t i }
  let y : Sysr := { tvec := h.desc.handler.getD pkg.defaultHandler, ptbase := pkg.ptRoot }
  { Runner.blank with
    ident := d, stat := .ready, readySince := now
    scal := { Scal.start entry pkg.exitStub h.args with sysr := y }
    vect := Vect.start sp.vlen h.desc.det }

/-- The initial image of a heat's DSM on a die (R263). -/
def State.fillDsm (s : State) (h : Heat) (die : Nat) : State :=
  let rs := (((s.part? h.part).bind (·.loaded)).map (·.dsm)).getD []
  (rs.filter fun g => g.heat == h.number).foldl
    (fun s g => s.agentWrite h.part (cellsFrom (Loc.dsm h.uid die g.base).key g.image)) s

/-- A heat's ways carved on a die for its first team there: their lines are written back and dropped (R294), and its DSM takes its
initial image. -/
def State.carve (s : State) (h : Heat) (die : Nat) : State :=
  if h.desc.dsmWays = 0 || (s.die die).carved.any (fun c => c.1 == h.uid) then s
  else
    let ways := (s.freeWays die).take h.desc.dsmWays
    let gone := s.lines.filter fun l => l.die == die && ways.contains l.way
    let s : State := { s with
      lines := s.lines.filter fun l => !gone.contains l
      under := gone.foldl (fun u l => cleanLine u l.line) s.under }
    (s.setDie { s.die die with carved := (s.die die).carved ++ [(h.uid, ways)] }).fillDsm h die

/-- Cores taken by a team, with its split (R28); nothing of an earlier team's share is left on them, and their L1 holds no
line (R281). -/
def State.splitCores (s : State) (pl : Place) (sp : Split) : State :=
  pl.cores.foldl (fun s c =>
    let id : CoreId := { die := pl.die, cluster := pl.cluster, core := c }
    s.setCore { s.core id with split := some sp, drain := none, loss := none, attStatus := 0, l1 := [] }) s

/-- No core is drained for a team any more (R254). -/
def State.undrain (s : State) (t : TeamId) : State :=
  let mine (c : Core) : Bool := (c.drain.map fun d => d.1 == t).getD false
  if s.cores.all fun c => !mine c then s
  else { s with cores := s.cores.map fun c => if mine c then { c with drain := none } else c }

/-- Cores that other splits still hold drained for a team that is to run on them (R254). -/
def State.drainCores (s : State) (t : TeamId) (pl : Place) (sp : Split) : State :=
  let busy := (s.teamsOn pl.die pl.cluster []).filter fun u => u.split != sp
  pl.cores.foldl (fun s c =>
    let id : CoreId := { die := pl.die, cluster := pl.cluster, core := c }
    if busy.any fun u => (u.place.map fun q => q.cores.contains c).getD false then s.setCore { s.core id with drain := some (t, sp) }
    else s) s

/-- A team sits at a place. -/
def State.seat (s : State) (h : Heat) (t : Team) (pl : Place) (sp : Split) : State :=
  (((s.carve h pl.die).undrain t.id).splitCores pl sp).setTeam { t with
    stat := .resident, place := some pl, split := sp, dispatched := true, homeDie := t.homeDie.or (some pl.die) }

/-- A team's first dispatch: its runners start (R13), those of a Strideform kernel at its translated image (R268). -/
def State.startTeam (s : State) (pkg : Package) (h : Heat) (t : Team) (pl : Place) (sp : Split) : State :=
  let (img, s) := s.imageFor h.part pkg h.desc (isM pl.cluster)
  let entry := (img.map fun x => pkg.imageAt x.2.1).getD h.desc.entry
  let s := s.seat h { t with started := true, image := img.map (·.1) } pl sp
  let s : State := { s with rs := s.rs ++ (List.range (teamSize h.desc)).map fun i =>
      let x := newRunner s.time pkg h t pl sp entry i
      (x.ident.id, x) }
  match img with
  | some (_, _, w) => s.withRunner { part := h.part, heat := h.id, team := t.id.team, runner := 0 } fun s => s.writeImage entry w
  | none => s

end Sys2Proof.Machine
end

