-- ==== Sys2Proof/Machine/Pages.lean ====
section
/-! DEFINITION. Pages that move (R303). -/

namespace Sys2Proof.Machine

/-! ### Accesses in flight follow their page -/

/-- Where a byte of a page that moves from `key` to `dest` lies afterwards. -/
def movedKey (key dest size k : Nat) : Nat := if inKeys key size k then k - key + dest else k

/-- Cells at other keys. -/
def mapCells (f : Nat → Nat) (l : List Host.Cell) : List Host.Cell := l.map fun c => (f c.1, c.2)

/-- A store that has not performed goes where its page goes. -/
def StoreAct.mapKeys (f : Nat → Nat) (a : StoreAct) : StoreAct :=
  { a with cells := mapCells f a.cells, masks := mapCells f a.masks, cover := a.cover.map f }

/-- A held store or action of the scalar side likewise. -/
def VItem.mapKeys (f : Nat → Nat) : VItem → VItem
  | .store a => .store (a.mapKeys f)
  | .bmclr k m => .bmclr (f k) m
  | .line k m => .line (f k) m
  | i => i

/-- A stream likewise. -/
def StreamRec.mapKeys (f : Nat → Nat) (x : StreamRec) : StreamRec :=
  { x with recs := x.recs.map fun r => (r.1, r.2.map fun k => (f k.1, k.2)) }

/-- What stores have replaced, after a page has moved: what was at the destination before is nobody's. -/
def Hist.moved (key dest size : Nat) (h : Hist) : Hist :=
  { h with cells := mapCells (movedKey key dest size) (h.cells.filter fun c => !inKeys dest size c.1) }

/-- A runner after a page has moved. -/
def Runner.moved (key dest size : Nat) (x : Runner) : Runner :=
  let f := movedKey key dest size
  { x with
    vq := x.vq.map (VItem.mapKeys f)
    strip := { x.strip with buf := x.strip.buf.map (StoreAct.mapKeys f), lines := x.strip.lines.map fun l => (f l.1, l.2) }
    share := x.share.map (StoreAct.mapKeys f)
    streams := x.streams.map (StreamRec.mapKeys f)
    hist := (x.hist.map (Hist.moved key dest size)).filter fun h => !h.cells.isEmpty }

/-- A tile store after a page has moved. -/
def TileOp.mapKeys (f : Nat → Nat) (o : TileOp) : TileOp := { o with cells := mapCells f o.cells, taint := o.taint.map f }

/-- A core after a page has moved: its tile operations follow, its L1 holds no line of either place. -/
def Core.moved (key dest size : Nat) (c : Core) : Core :=
  let f := movedKey key dest size
  { c with
    att := c.att.map fun a => { a with ops := a.ops.map (TileOp.mapKeys f), caps := a.caps.map fun x => { x with key := f x.key } }
    l1 := c.l1.filter fun l => !(inKeys key size (l.line * 128) || inKeys dest size (l.line * 128)) }

/-! ### The move -/

/-- The address of the leaf that a walk ends in (R297). -/
def leafAt (mem : List Host.Cell) (va : Nat) : Nat → Nat → Option Nat
  | 0, _ => none
  | n + 1, table =>
    let level := 4 - n
    let a := table + 8 * walkIndex level va
    let e : Word := BitVec.ofNat 64 (bytesVal (bytesAt mem a 8))
    if bitOf e 1 then some a else leafAt mem va n (bitsOf e 8 49 * 256)

/-- The root of a partition's page tables. -/
def Part.root (p : Part) : Word := (p.loaded.map (·.ptRoot)).getD 0

/-- The order to move the page of an address, with the address of its leaf and the leaf, if it may move there (R303). -/
def State.moveOf (s : State) (p : Part) (va dest : Nat) (host : Bool) : Option (PageMove × Nat × Word) :=
  match walk s.mem p.root va, leafAt s.mem va 5 p.root.toNat with
  | .leaf e size, some a =>
    let page := va / size * size
    let pinned := ((p.loaded.map (·.pinned)).getD []).any fun g => g.base < page + size && page < g.base + g.size
    if (size != 2 ^ 16 && size != 2 ^ 21) || bitsOf e 2 2 != 0 || bitOf e 9 || pinned || dest % size != 0 ||
        2 ^ 41 < dest + size || !p.dieSlots.contains (dest / 2 ^ 38) then none
    else some ({ page := page, size := size, dest := dest, host := host }, a, e)
  | _, _ => none

/-- Whether a copy still moves bytes of a page. -/
def CopyRec.onPage (c : CopyRec) (key size : Nat) : Bool := c.elems.any fun e => inKeys key size e.1 || inKeys key size e.2

/-- Whether a copy that has been accepted holds a page where it is (R303), one that a runner's vector queue holds (R233) among
them. Other accesses in flight take effect as the page is copied or follow it, which no access can tell. -/
def State.pageHeld (s : State) (key size : Nat) : Bool :=
  (s.copies.any fun c => c.onPage key size) ||
  s.allRunners.any fun x => x.vq.any fun | .copy c => c.onPage key size | _ => false

/-- The cells of a page at another place. -/
def pageCells (mem : List Host.Cell) (key dest size : Nat) : List Host.Cell :=
  (mem.filter fun c => inKeys key size c.1).map fun c => (c.1 - key + dest, c.2)

/-- A page moved (R303): its bytes and its poison, its leaf, no line of either place in L2, its translations gone as TLBINV
drops them. -/
def State.movePage (s : State) (part : Nat) (m : PageMove) (entry : Nat) (leaf : Word) : State :=
  let key := bitsOf leaf 16 41 * 2 ^ 16
  let e := leaf.toNat - key + m.dest
  let there (k : Nat) : Bool := inKeys m.dest m.size k
  let either (k : Nat) : Bool := inKeys key m.size k || there k
  let mem := s.mem.filter fun c => !there c.1
  let s : State := { s with
    r := s.r.moved key m.dest m.size
    rs := s.rs.map fun x => (x.1, x.2.moved key m.dest m.size)
    cores := s.cores.map (Core.moved key m.dest m.size)
    mem := cellsPut mem (pageCells s.mem key m.dest m.size ++ cellsFrom entry (natToLeBytes 8 e))
    under := s.under.filter fun c => !either c.1
    lines := s.lines.filter fun l => !either (l.line * 128)
    poison := (s.poison.filter fun u => !there u.1).map fun u => (movedKey key m.dest m.size u.1, u.2) }
  s.dropTlb part (some m.page)

/-- Runners that a page on the move has held back look again. -/
def State.goOn (s : State) : State :=
  let go (x : Runner) : Runner := if x.stat == .stalled && x.asks == [.moving] then { x with stat := .ready, asks := [] } else x
  { s with r := go s.r, rs := s.rs.map fun x => (x.1, go x.2) }

/-- An order to move a page carried out once nothing holds the page (R303); the host is told of the end of its own. -/
def State.tryMove (s : State) (part : Nat) (m : PageMove) : State :=
  match s.part? part with
  | none => s
  | some p =>
    let s' := s.setPart { p with moves := p.moves.filter fun x => x != m }
    match s.moveOf p m.page m.dest m.host with
    | none => (if m.host then s'.emit (.status 1) else s').goOn
    | some (_, a, e) =>
      if s.pageHeld (bitsOf e 16 41 * 2 ^ 16) m.size then s
      else
        let t := s'.movePage part m a e
        (if m.host then t.emit (.status 0) else t).goOn

/-- Every page on the move looked at. -/
def State.tryMoves (s : State) : State :=
  s.parts.foldl (fun s p => p.moves.foldl (fun s m => s.tryMove p.idx m) s) s

/-- A page starts to move. -/
def State.startMove (s : State) (p : Part) (m : PageMove) : State := s.setPart { p with moves := p.moves ++ [m] }

end Sys2Proof.Machine
end

