-- ==== Sys2Proof/Machine/Preempt.lean ====
section
/-! DEFINITION. Pre-emption: how a runner stops (R330, R331, R186), how a team is saved (R332) and how it resumes
(R336, R337). -/

namespace Sys2Proof.Machine

/-! ### Stopping a runner (R330, R331) -/

/-- Whether an answer is on its way from outside the module. -/
def isOutAsk : Ask → Bool
  | .peer _ _ | .host _ => true
  | _ => false

/-- Whether a runner must complete its instruction before it stops: an access of it outside the module is under way or
has been answered. A wait's own read is none such. -/
def Runner.committed (x : Runner) : Bool := !x.replies.isEmpty || (x.stat == .stalled && x.wait.isNone && x.asks.any isOutAsk)

/-- Whether a runner has a turn to come. -/
def Runner.live (x : Runner) : Bool := x.stat == .ready || x.stat == .waiting || x.stat == .stalled

/-- The operands of a passed stream. -/
def streamOpOf (a b : Word) : Instr → Option StreamOp
  | .stream m vd _ sb off => some (streamOp m vd sb off a b)
  | .streamseg m vd _ sb vi fields off => some (streamsegOp m vd sb vi fields off a b)
  | _ => none

/-- The elements of a stream below the first that has not landed. -/
def StreamRec.landedFirst (x : StreamRec) : List Nat := (x.recs.map (·.1)).takeWhile fun r => x.landed.any fun l => l.1 == r

/-- The stream at the head of the vector queue cut back to what has landed, its restart index in VSTART; a permuted
one restarts from its first record (R159, R160). -/
def State.cutStream (s : State) : State :=
  match s.r.vq, s.r.streams with
  | .vec i a b _ :: _, x :: _ =>
    match streamOpOf a b i with
    | some o =>
      if o.vi.isSome then s
      else
        let els := x.landedFirst
        (s.writeStream o x.es x.landed els).setVstart (((x.recs.map (·.1))[els.length]?).getD s.vstart)
    | none => s
  | _, _ => s

/-- The number of elements of which an access may be cut at a multiple only (R149). -/
def VReg.cutStep (v : VReg) : Nat :=
  match v.fmt with
  | some .mask => 8
  | some .int4g => 2
  | some .int3g => 32
  | _ => if v.bs then 32 else 1

/-- An access stopped at an element of its middle goes on from there, from a place at which it may begin (R117, R149). -/
def State.cutAccess (s : State) : State :=
  let i := match s.r.vq with
    | .vec i _ _ _ :: _ => some i
    | _ => s.instrAt s.pc
  match s.r.begun, i with
  | some b, some (.vld _ vd ..) | some b, some (.vst _ vd ..) =>
    s.setVstart (max b (s.vstart / (s.vreg vd).cutStep * (s.vreg vd).cutStep))
  | _, _ => s

/-- The vector side carries on before a stop (R330), behind a stalled scalar side too: its oldest incomplete instruction to the
next element-group boundary, where its turn has not brought it to one already; a stream as far as it has landed. -/
def State.carryOn (s : State) : State :=
  if s.quota.isSome || s.r.vq.isEmpty then s
  else
    let s := if s.r.stat = .stalled then s.mapR fun r => { r with stat := .ready, asks := [] } else s
    if s.r.stat = .ready then { drainLoop false 1 { s with quota := some 1 } with quota := none } else s

/-- What the running runner asks of the arbiter, its unit and the host is withdrawn; its instruction asks again. -/
def State.withdrawAsks (s : State) : State :=
  let s := match s.r.wakingSlot with
    | some (slot, _) => s.endLease slot
    | none => s
  let s := s.leaveUnit s.rid s.r.ident.core
  match s.part? s.rid.part with
  | some p => s.setPart { p with admissions := p.admissions.filter fun a => a.launcher != some s.rid }
  | none => s

/-- The attach of the running runner's core is given up (R186): what protected strips have outstanding is discarded, what else
other runners have lands. -/
def State.giveUpAttach (s : State) : State :=
  let c := s.r.ident.core
  let s := match s.myCore.att with
    | some a => s.setCore { s.myCore with att := some { a with ops := a.ops.filter fun o => !o.prot } }
    | none => s
  (s.landOps c (fun _ => true) (fun _ => true)).endAttach c none State.toHold

/-- A stopped runner, runnable again from now on (R257). -/
def State.nowStopped (s : State) : State :=
  s.mapR fun r => { r with asks := [], begun := none, pages := [], stat := .stopped, readySince := s.time }

/-- The running runner stops where it stands (R331): a protected strip rewinds with LAST 11 and its attach is given up;
otherwise the oldest incomplete instruction is where it resumes. -/
def State.stopHere (s : State) : State :=
  let s := s.withdrawAsks
  (if s.r.strip.prot then (s.rewind 3).giveUpAttach else s.cutAccess.cutStream.cancelYounger).nowStopped

/-- The leases and octants a resume was waiting for are withdrawn: it will ask again. -/
def State.unresume (s : State) : State :=
  let s := (List.finRange 8).foldl (fun (s : State) (i : Fin 8) => match s.r.leases[i] with
    | some l => if l.st = .waking then
        (match l.engine with
         | some e => (s.withdraw e.die (.lease s.rid i)).giveBack e
         | none => s).setSlot i (some { l with st := .held, engine := none })
      else s
    | none => s) s
  s.leaveUnit s.rid s.r.ident.core

/-- The running runner of a team that is asked to stop reaches its pre-emption point, if it is at one (R330). -/
def State.stopRunner (s : State) : State :=
  if s.r.stat = .saved then s.unresume
  else if !s.r.live || s.r.committed then s
  else
    let s := s.carryOn
    if !s.r.live || s.r.committed then s else s.stopHere

/-- A team asked to stop: every runner at a pre-emption point stops there. -/
def State.askStop (s : State) (t : TeamId) : State :=
  match s.team? t with
  | some tm =>
    if tm.stat = .resident then
      let s := s.setTeam { tm with stat := .stopping }
      (s.inOrder t).foldl (fun s x => s.withRunner x.ident.id State.stopRunner) s
    else s
  | none => s

/-- The event PREEMPT_REQUEST (R197, R260, R330): for a team that an offer's team takes the place of. -/
def execPreemptRequest (t : TeamId) (s : State) : Host.Outcome State Fault Refusal :=
  match s.part? t.part, s.team? t with
  | some p, some tm =>
    if tm.stat = .resident && (s.offers p).any fun o => s.victimOf p tm o then .next (s.askStop t) else .next s
  | _, _ => .next s

/-! ### Saving a team (R332) -/

/-- The tile operations of a core end as if by MWAIT, its pending flags kept (R186), and the latches with what an MFENCE
after the resume still gives them. -/
def State.endTileOps (s : State) (c : CoreId) : State := s.landOps c (fun _ => true) (fun _ => true)

/-- What a save keeps of a core (R186, R335); of a team that had not started yet, what it still waits for. -/
def Core.saved (c : Core) (slot : Nat) (old : List SavedAttach) : SavedAttach :=
  match c.att with
  | some a =>
    { slot := slot, gm := a.gm, gn := a.gn, gk := a.gk, octants := octCount a.oct, gfmt := a.gfmt, acc := a.acc,
      latches := a.latches, tldvs := a.tldvs, flags := a.flags, owner := a.owner, loss := c.loss, status := c.attStatus }
  | none => (old.find? fun x => x.slot == slot && x.live).getD
      { slot := slot, live := false, acc := Vector.replicate 4 [], latches := Vector.replicate 4 [], loss := c.loss,
        status := c.attStatus }

/-- A core of a team saved: its attach kept, its octants in hold, its hotness counts flushed. -/
def State.saveCore (t : Team) (x : State × List SavedAttach) (c : CoreId × Nat) : State × List SavedAttach :=
  let s := x.1.endTileOps c.1
  ((s.endAttach c.1 none State.toHold).flushHot c.1, x.2 ++ [(s.core c.1).saved c.2 t.attaches])

/-- The held leases of a runner keep their handles and give up their engines (R202, R332). -/
def State.saveLeases (s : State) : State :=
  let s := s.chargeRunner s.rid
  (List.finRange 8).foldl (fun (s : State) (i : Fin 8) => match s.r.leases[i] with
    | some l => match l.st, l.engine with
      | .held, some e => (s.toHold e).setSlot i (some { l with engine := none })
      | _, _ => s
    | none => s) s

/-- A runner saved: its stores perform, its leases give up their engines. -/
def State.saveRunner (s : State) : State :=
  s.saveLeases.drainShare.mapR fun r => { r with hist := [], stat := if r.stat = .exited then .exited else .saved }

/-- Whether a copy must land before its team is saved (R227, R332). -/
def CopyRec.holdsSave (c : CopyRec) (t : TeamId) : Bool :=
  teamOf c.runner == t && c.elems.any fun e => isScratchKey e.2 || isTcmKey e.2

/-- Whether a team that is asked to stop can be saved now. -/
def State.canSave (s : State) (t : Team) : Bool :=
  t.stat == .stopping && !s.condemned t.id &&
  (s.teamRunners t.id).all (fun x => x.stat == .stopped || x.stat == .exited || x.stat == .saved) &&
  !s.copies.any fun c => c.holdsSave t.id

/-- A team's record in its partition's pre-emption pool, or gone from there (R332). -/
def Part.putRecord (p : Part) (t : TeamId) (r : Option (List Byte)) : Part :=
  { p with pool := (p.pool.filter fun x => x.1 != t) ++ (r.map fun b => (t, b)).toList }

/-- A team's record written to the pool of its partition, which host drivers and the checkpoint read (R332, R333). -/
def State.poolRecord (s : State) (t : TeamId) (b : List Byte) : State :=
  match s.part? t.part with
  | some p => (s.setPart (p.putRecord t (some b))).emit (.record t b)
  | none => s.emit (.record t b)

/-- A team saved (R332): its record is in the pool, its cores are free, it stands at the head of its queue (R260). -/
def State.saveTeam (s : State) (h : Heat) (t : Team) : State :=
  let m := (t.place.map fun p => isM p.cluster).getD true
  let cs := t.coreIds
  let (s, atts) := (cs.zip (List.range cs.length)).foldl (State.saveCore t) (s, [])
  let s := (s.inOrder t.id).foldl (fun s x => s.withRunner x.ident.id State.saveRunner) s
  let s := s.poolRecord t.id (s.teamRecord h t m atts)
  let s := s.setTeam { t with stat := .saved, place := none, attaches := atts }
  match s.part? t.id.part with
  | some p => s.setPart (p.mapQueue t.queue fun q => q.join [t.id] true s.time)
  | none => s

/-- The event TEAM_SAVE (R332). -/
def execTeamSave (t : TeamId) (s : State) : Host.Outcome State Fault Refusal :=
  match s.heat? t.part t.heat, s.team? t with
  | some h, some tm => if s.canSave tm then .next (s.saveTeam h tm) else .next s
  | _, _ => .next s

/-! ### Resuming a team (R336, R337) -/

/-- A runner on the core of its slot at a new place (R24). -/
def Runner.atPlace (x : Runner) (h : Heat) (pl : Place) : Runner :=
  { x with ident := { x.ident with core :=
      { die := pl.die, cluster := pl.cluster, core := (pl.cores[x.ident.id.runner / max 1 h.desc.perCore]?).getD 0 } } }

/-- What a core remembers of a share that was lost, and its GSTAT.STATUS. -/
def State.restoreLoss (pl : Place) (s : State) (a : SavedAttach) : State :=
  let c := s.core { die := pl.die, cluster := pl.cluster, core := (pl.cores[a.slot]?).getD 0 }
  s.setCore { c with loss := a.loss, attStatus := a.status }

/-- A saved team sits at a place; its runners start when what they held is theirs again. -/
def State.resumeAt (s : State) (h : Heat) (t : Team) (pl : Place) : State :=
  let s := s.seat h { t with started := false } pl t.split
  let s := (s.inOrder t.id).foldl (fun s x => s.setRunner (x.atPlace h pl)) s
  let s := match s.part? t.id.part with
    | some p => s.setPart (p.putRecord t.id none)
    | none => s
  t.attaches.foldl (State.restoreLoss pl) s

/-- A saved handle leased again (R202, R337): over the budget it is lost with state 4; without an engine to take it
waits. -/
def State.reLease (s : State) (i : Fin 8) (l : Lease) : State :=
  if s.ebud s.rid.part < kindPower l.kind then s.setSlot i (some { l with st := .lostResume })
  else match s.pickEngine l.kind with
  | none => s
  | some e =>
    if (s.engine e).st = .hold then
      let s := (s.roomFor [e] (kindPower l.kind)).setEngine { id := e, st := .held, holder := some (.lease s.rid i), named := s.time }
      s.setSlot i (some { l with engine := some e, granted := s.time, charged := s.time })
    else if s.queueFull e.die then s
    else
      let s := s.roomFor [] (kindPower l.kind)
      (s.setSlot i (some { l with st := .waking, engine := some e })).enqueueReq e.die
        { holder := .lease s.rid i, engines := [e], pri := l.pri.val }

/-- One lease slot of a runner that is to resume: a wake it waits for ends with the engine given to it (R313). -/
def State.resumeSlot (s : State) (i : Fin 8) : State :=
  match s.r.leases[i] with
  | none => s
  | some l =>
    match l.st, l.engine with
    | .held, none => s.reLease i l
    | _, _ => s

/-- A saved attach stands again as it was (R186). -/
def State.restoreAttach (s : State) (a : SavedAttach) (p : PendAttach) : State :=
  let c := s.myCore
  let x : Attach :=
    { a.toAttach with oct := octSet p.octs, unitL := isM c.id.cluster, pri := s.epri (teamOf s.rid), granted := s.time,
                      charged := s.time, named := s.time }
  (s.setCore { c with att := some x, pend := none, loss := a.loss, attStatus := a.status }).retryUnits c.id.die

/-- The octants of a saved attach taken: it stands again, waits for their wakes, or for room in the die's queue. -/
def State.goOnAttach (s : State) (a : SavedAttach) (p : PendAttach) : State :=
  if p.toWake.isEmpty then s.restoreAttach a p else if p.queued then s else s.queueAttach p

/-- The request of a saved attach stands in its unit's queue, as an ATTACH.W does (R221, R225). -/
def State.joinAgain (s : State) : State :=
  let core := s.r.ident.core
  let cl := s.cluster core.die core.cluster
  if cl.attachQ.any fun x => x.runner == s.rid then s
  else
    let x : AttachWaiter := { runner := s.rid, core := core, pri := s.epri (teamOf s.rid), arrival := s.time, again := true }
    s.setCluster { cl with attachQ := cl.attachQ ++ [x] }

/-- A saved attach asked for: its octants when its turn comes, others evicted for it where the budget is short (R318). -/
def State.askAttach (s : State) (a : SavedAttach) : State :=
  let c := s.r.ident.core
  match s.reGrant s.rid.part c.die c.cluster a with
  | none => s
  | some g =>
    let s := s.joinAgain
    let avail := s.available s.r
    let mw := g.count * octantPower (isM c.cluster)
    if avail.length < g.count then s
    else if s.ebud s.rid.part < mw then s.makeRoom (s.epri (teamOf s.rid)) mw .octant (.attach c)
    else
      let s := s.startAttach true g (avail.take g.count)
      (s.myPend.map (s.goOnAttach a)).getD s

/-- A saved attach requested again, by ATTACH.W with the allowance raised to its count (R225, R337): the running runner is
its owner. A map-out makes it ask once more (R222). -/
def State.resumeAttach (s : State) (a : SavedAttach) : State :=
  if !a.live || s.myCore.att.isSome then s
  else match s.serveAgain fun s => Res.pure () ((s.myPend.map (s.goOnAttach a)).getD (s.askAttach a)) with
  | .ok (_, t) => t
  | .error (_, t) => t

/-- Whether a runner's leases are all its own again or lost. -/
def Runner.leasesBack (x : Runner) : Bool :=
  x.leases.toList.all fun l => match l with
    | some l => !(l.st == .waking || (l.st == .held && l.engine.isNone))
    | none => true

/-- A runner of a resumed team starts: in the wait it was saved in, or at its instruction (R337). -/
def Runner.startAgain (now : Nat) (x : Runner) : Runner :=
  if x.stat = .saved then
    { x with stat := if x.wait.isSome then .waiting else .ready, readySince := now, wait := x.wait.map fun w => { w with endable := none } }
  else x

/-- A team that sits at its place asks again for what it held, and starts once it has it all (R337). Whether its runners all
wait at barriers is looked at then (R195). -/
def State.resumeTeam (s : State) (t : Team) : State :=
  let s := (s.inOrder t.id).foldl (fun s x => s.withRunner x.ident.id fun s => (List.finRange 8).foldl State.resumeSlot s) s
  let s := t.attaches.foldl (fun s a => s.withRunner a.owner fun s => s.resumeAttach a) s
  let back := t.attaches.all fun a => !a.live || ((s.runner? a.owner).map fun x => (s.core x.ident.core).att.isSome).getD true
  if back && (s.inOrder t.id).all Runner.leasesBack then
    let s := s.setTeam { t with started := true, attaches := [] }
    ((s.inOrder t.id).foldl (fun s x => s.setRunner (x.startAgain s.time)) s).unstick t.id
  else s

/-- Every team that sits at its place without having started goes on. -/
def State.resumeTeams (s : State) : State :=
  (s.teams.filter fun t => t.stat == .resident && !t.started).foldl State.resumeTeam s

/-! ### A checkpoint once every team is saved (R355) -/

/-- Whether every team has been saved. -/
def State.allSaved (s : State) : Bool := s.teams.all fun t => t.stat != .resident && t.stat != .stopping

/-- Every engine asleep, every lease queue empty (R323, R355). -/
def State.allAsleep (s : State) : State :=
  { s with engines := [], dies := s.dies.map fun d => { d with queue := [], pausedAt := none } }

/-- A checkpoint whose teams have all been saved: the engines sleep, the link to the host enters L2 (R355). -/
def State.linkDown (s : State) : State :=
  if s.pacer.flash.writing && !s.pacer.flash.linkOff && s.allSaved then
    { s.allAsleep with pacer := { s.pacer with flash := { s.pacer.flash with linkOff := true } } }.emit .linkDown
  else s

/-- What follows from a step: images of lost shares are written, pages move, teams retire and heats end, translations nobody
runs are dropped, what an ATTACH or a resuming team waited for is theirs, budgets are kept, a checkpoint goes on. -/
def State.settleStep (s : State) : State := s.finishSaves.tryMoves.tidy.dropImages.grantReady.resumeTeams.keepBudgets.linkDown

end Sys2Proof.Machine
end

