-- ==== Sys2Proof/Machine/WaitEvents.lean ====
section
/-! DEFINITION. What a runner waits for comes about: waits that end (R187), streams that land (R159), translation service
(R301), answers from the host and from peers (R91, R104, R304, R349), tile operations that complete (R180); and the word
that is no instruction (R70). -/

namespace Sys2Proof.Machine

/-! ### Scheduler-visible waits (R187) -/

/-- The kind of a LEASE by its number (R198). -/
def kindOfCode (n : Nat) : Kind := if n = 0 then .sfe else if n = 1 then .sxe else .cle

/-- The look at a wait's condition that its kind makes. -/
def pollOf (w : WaitRec) : State → M (Bool × State) :=
  match w.kind with
  | .word => pollWord w
  | .barrier => pollBarrier w
  | .bitmap => pollBitmap w
  | .attach => pollAttach w
  | .lease => pollLease (kindOfCode w.code) (Fin.ofNat 8 w.value.toNat) w
  | .join => pollJoin w
  | .collective => fun s => .ok (false, s)

/-- The register that holds the handle of a collective. -/
def collHandle : Instr → SR
  | .cred _ _ _ _ _ _ sh | .cgather _ _ _ _ _ sh | .cbcast _ _ _ _ _ _ sh => sh
  | _ => 0

/-- A collective in its wait looks again: at the head of the vector queue, or as the instruction at the PC. -/
def State.recheckCollective (s : State) : State :=
  if s.r.vq.isEmpty then
    match s.instrAt s.pc with
    | some i =>
      match collOpOf i with
      | some c => match passCollective i c (collHandle i) s with
        | .next t => t
        | _ => s
      | none => s
    | none => s
  else (s.mapR fun r => { r with stat := .ready }).drain false

/-- The collective the running runner waits in. -/
def State.ownColl (s : State) : Option CollOp :=
  let i := match s.r.vq with
    | .vec i _ _ _ :: _ => some i
    | _ => s.instrAt s.pc
  (i.bind collOpOf).map s.spanned

/-- The running runner leaves the collective it waits in. -/
def State.leaveColl (s : State) : State := (s.ownColl.map s.leaveCollective).getD s

/-- The running runner takes its pending FABRIC in a wait in progress, which ends by the trap (R104); a contribution to a
collective is abandoned. -/
def State.fabricInWait (s : State) (m : Nat) : State :=
  let s := if (s.r.wait.map fun w => w.kind == .collective).getD false then s.leaveColl else s
  let s := s.leaveUnit s.rid s.r.ident.core
  let s := s.mapR fun r => { r with fabric := none, stat := .ready }
  s.cancelYounger.enterTrap .fabric (BitVec.ofNat 64 m) true

/-- The running runner's wait looked at again (R187 step 4). -/
def State.recheck (s : State) : State :=
  match s.r.fabric, s.r.wait with
  | some m, some _ => s.fabricInWait m
  | none, some w => if w.kind = .collective then s.recheckCollective else finish (s.waitStep w pollOf)
  | _, none => s

/-- A runner in a scheduler-visible wait, with its record. -/
def State.waiter (s : State) (r : RunnerId) : Option WaitRec :=
  (s.runner? r).bind fun x => if x.stat = .waiting then x.wait else none

/-- Whether a wait would end if it were looked at: one on memory, a barrier, a bitmap or a heat by its condition, one in a
collective when all have joined, every one by its deadline (R187). -/
def State.waitOver (s : State) (w : WaitRec) : Bool :=
  s.expired w || (w.kind == .collective && (s.ownColl.map fun c => s.collComplete (s.collective c)).getD false) || ([WaitKind.word, .barrier, .bitmap, .join].contains w.kind &&
    match pollOf w (s.mapR fun r => { r with stat := .ready }) with
    | .ok (b, _) => b
    | .error (.trap .., _) => true
    | _ => false)

/-- The wait of a runner whose team is saved looked at: from when it could end the runner is runnable (R255), though it looks
again when it resumes (R337). -/
def State.lookSaved (s : State) : State :=
  match s.r.wait with
  | some w => s.mapR fun r => { r with wait := some { w with endable := if s.waitOver w then w.endable.or (some s.time) else none } }
  | none => s

/-- A wait looked at, of a runner that sleeps in it or is saved inside it. -/
def State.lookAtWait (s : State) (r : RunnerId) : State :=
  match s.runner? r with
  | some x => if x.stat = .waiting then s.withRunner r State.recheck else if x.stat = .saved then s.withRunner r State.lookSaved
      else s
  | none => s

/-- The event WAIT_CONDITION_MET (R187): a wait looked at whose condition does not hold goes on. -/
def execWaitConditionMet (r : RunnerId) (s : State) : Host.Outcome State Fault Refusal := .next (s.lookAtWait r)

/-- The event WAIT_DEADLINE (R187). -/
def execWaitDeadline (r : RunnerId) (s : State) : Host.Outcome State Fault Refusal :=
  match (s.runner? r).bind (·.wait) with
  | some w => if s.expired w then .next (s.lookAtWait r) else .next s
  | none => .next s

/-! ### Streams (R159) -/

/-- What stands before the n-th stream of a vector queue. -/
def beforeStream : Nat → List VItem → List VItem
  | _, [] => []
  | n, .vec i a b c :: t => if isStream i then (if n = 0 then [] else .vec i a b c :: beforeStream (n - 1) t)
      else .vec i a b c :: beforeStream n t
  | n, x :: t => x :: beforeStream n t

/-- Whether an item of the queue keeps a later stream from reading: a fence, and with it the stores it orders (R103). -/
def VItem.isFence : VItem → Bool
  | .fence .. => true
  | _ => false

/-- The records of a stream's element group that have not landed. -/
def StreamRec.due (x : StreamRec) (per group : Nat) : List (Nat × List (Nat × Option Nat)) :=
  x.recs.filter fun r => r.1 / per == group && !x.landed.any fun l => l.1 == r.1

/-- An element group of the running runner's stream lands; one that meets a read error waits for the stream's own turn. -/
def State.landGroup (s : State) (x : StreamRec) (o : StreamOp) (group : Nat) : State :=
  match o.land x (x.due (s.groupOf o.names) group) s with
  | (got, none, t) => t.mapR fun r => { r with streams := r.streams.map fun y =>
      if y.id == x.id then { y with landed := y.landed ++ got } else y }
  | _ => s

/-- Whether a stream's element group can land now. -/
def State.canLand (s : State) (x : StreamRec) (o : StreamOp) (group : Nat) : Bool :=
  s.r.live && !(x.due (s.groupOf o.names) group).isEmpty &&
  !(beforeStream (s.r.streams.findIdx fun y => y.id == x.id) s.r.vq).any VItem.isFence

/-- The event STREAM_GROUP_LANDED (R159). -/
def execStreamGroupLanded (r : RunnerId) (id group : Nat) (s : State) : Host.Outcome State Fault Refusal :=
  let t := s.focus r
  match (if t.rid = r then t.r.streams.find? fun x => x.id == id else none) with
  | some x =>
    match streamOpOf x.a x.b x.i with
    | some o => if t.canLand x o group then .next (s.withRunner r fun s => s.landGroup x o group) else .next s
    | none => .next s
  | none => .next s

/-! ### Answers (R91, R301, R304) -/

/-- A stalled runner gets its answer and goes on. -/
def State.reply (s : State) (r : RunnerId) (a : Ask) (x : Reply) : State :=
  s.withRunner r fun s => s.mapR fun r => { r with asks := [], replies := r.replies ++ [(a, x)], stat := .ready }

/-- What a runner stalls on. -/
def State.stalledOn (s : State) (r : RunnerId) : Option Ask :=
  (s.runner? r).bind fun x => if x.stat = .stalled then x.asks.head? else none

/-- Page-table entries written by the service of a partition that maps a page. -/
def State.writeEntries (s : State) (part : Nat) (l : List (Nat × Word)) : State :=
  l.foldl (fun s e => s.agentWrite part (cellsFrom e.1 (natToLeBytes 8 e.2.toNat))) s

/-- The core whose lost share still has images to be written for a runner (R184). -/
def State.savingFor (s : State) (r : RunnerId) : Option CoreId :=
  (s.cores.find? fun c => (c.saving.map fun v => v.owner == r).getD false).map (·.id)

/-- What fault service ends for a runner (R301): its stalled access goes on or is declined; the images of its share are looked at
after the step, or never written (R184). A partition's own name stands for the transactions of peers that wait (R304). -/
def State.serviceEnds (s : State) (r : RunnerId) (mapped : Bool) : State :=
  let s := s.requestDone r
  match s.stalledOn r with
  | some (.service va) =>
    if mapped then s.withRunner r fun s => s.mapR fun r => { r with asks := [], stat := .ready } else s.reply r (.service va) .page
  | _ =>
    match s.savingFor r with
    | some c => if mapped then s else s.unsaved c
    | none => if r = { part := r.part } then s.peersServed r.part mapped else s

/-- The event FAULT_SERVICE_COMPLETE (R301): the page is mapped and the access goes on, or service declines. -/
def execFaultServiceComplete (r : RunnerId) (mapping : Option (List (Nat × Word))) (s : State) : Host.Outcome State Fault Refusal :=
  match mapping with
  | none => .next (s.serviceEnds r false)
  | some l =>
    if l.all fun e => e.1 % 8 == 0 && e.1 + 8 ≤ 2 ^ 41 then .next ((s.writeEntries r.part l).serviceEnds r true) else .next s

/-- The event HOST_COMPLETION (R91, R341). -/
def execHostCompletion (r : RunnerId) (answer : Reply) (s : State) : Host.Outcome State Fault Refusal :=
  match s.stalledOn r with
  | some (.host a) => if answer = .page then .next s else .next (s.reply r (.host a) answer)
  | _ => .next s

/-- What another module's participants contribute to the collective a runner waits in (R207). -/
def State.farContribution (s : State) (r : RunnerId) (module : Nat) (bytes : List Byte) : Option State :=
  match s.part? r.part with
  | none => none
  | some p =>
    let open_ (c : Collective) : Bool := c.span == 3 && c.heat == r.heat && c.joined.any (fun j => j.runner == r) &&
      !c.remote.any fun x => x.1 == module
    if p.colls.any open_ then
      some (s.setPart { p with colls := p.colls.map fun c => if open_ c then { c with remote := c.remote ++ [(module, bytes)] } else c })
    else none

/-- A module has answered its list of an indexed access; the runner goes on once all have (R306). -/
def State.listReply (s : State) (r : RunnerId) (l : Nat × List OutAccess) (rest : List (Nat × List OutAccess)) (x : Reply) : State :=
  s.withRunner r fun s => s.mapR fun r => { r with
    replies := r.replies ++ [(.lists [l], x)]
    asks := if rest.isEmpty then [] else [.lists rest]
    stat := if rest.isEmpty then .ready else .stalled }

/-- A packed vector of answers to what a runner stalls on. -/
def State.packedReply (s : State) (r : RunnerId) (module : Nat) (x : Reply) : State :=
  match s.stalledOn r with
  | some (.lists l) =>
    match l.find? fun y => y.1 == module with
    | some y => (s.answered (.ask r none (.lists [y])) module).listReply r y (l.filter fun z => z != y) x
    | none => s
  | _ => s

/-- The event FABRIC_RESPONSE (R304): a peer's answer to an access, to a list of accesses (R306), or its contribution to a
collective. -/
def execFabricResponse (r : RunnerId) (module : Nat) (answer : Reply) (s : State) : Host.Outcome State Fault Refusal :=
  match s.stalledOn r, answer with
  | some (.lists _), .packed vals e => .next (s.packedReply r module (.packed vals e))
  | some (.peer m a), x => if m = module then .next ((s.answered (.ask r none (.peer m a)) m).reply r (.peer m a) x) else .next s
  | none, .data bytes =>
    match s.farContribution r module bytes with
    | some t => .next t
    | none => .next s
  | _, _ => .next s

/-! ### FABRIC (R104, R349) -/

/-- FABRIC pending on a runner. -/
def State.setFabric (s : State) (r : RunnerId) (m : Nat) : State :=
  s.withRunner r fun s => s.mapR fun r => { r with fabric := some m }

/-- An abandoned access completes: a read with unpredictable values. -/
def State.abandon (s : State) (r : RunnerId) (m : Nat) (a : OutAccess) : State :=
  let (x, s) : Reply × State := match a with
    | .read _ n => let (bs, s) := s.freeBytes n; (.data bs, s)
    | .write .. | .merge .. | .poisoned .. | .line .. | .attest _ | .register _ | .record _ => (.done, s)
    | .amo .. => let (bs, s) := s.freeBytes 8; (.data bs, s)
  s.reply r (.peer m a) x

/-- A list of accesses abandoned: every read of it with unpredictable values. -/
def State.abandonList (s : State) (r : RunnerId) (l : Nat × List OutAccess) : State :=
  let (vals, s) := l.2.foldl (fun (x : List (List Byte) × State) a =>
    let (bs, s) := x.2.freeBytes (max 8 (accLen a)); (x.1 ++ [bs], s)) (([] : List (List Byte)), s)
  s.packedReply r l.1 (.packed vals .all)

/-- The accesses to a peer that a partition's runners stall on, abandoned. -/
def State.abandonAccesses (s : State) (part m : Nat) : State :=
  (s.allRunners.filter fun x => x.ident.id.part == part).foldl (fun s x => match s.stalledOn x.ident.id with
    | some (.peer k a) => if k = m then (s.abandon x.ident.id m a).setFabric x.ident.id m else s
    | some (.lists l) =>
      match l.find? fun y => y.1 == m with
      | some y => (s.abandonList x.ident.id y).setFabric x.ident.id m
      | none => s
    | _ => s) s

/-- One chunk of an abandoned copy: its bytes on this module are unpredictable, its bit is set. -/
def State.abandonChunk (s : State) (c : CopyRec) (n : Nat) : State :=
  match s.copies.find? fun x => x.id == c.id with
  | none => s
  | some c =>
    if c.landed.contains n then s
    else ((c.chunk n).foldl (fun (s : State) (e : Nat × Nat) =>
      if isOutKey e.2 then s
      else let (bs, s) := s.freeBytes c.esize; s.writeFor c.runner c.slice c.alloc (cellsFrom e.2 bs)) s).noteChunk c n

/-- A partition's copies that need a peer, abandoned: bitmap bits set, arrivals performed. -/
def State.abandonCopies (s : State) (part m : Nat) : State :=
  (s.copies.filter fun c => c.runner.part == part && c.peers.contains m).foldl (fun s c =>
    (List.range c.chunks).foldl (fun s n => s.abandonChunk c n) (s.setFabric c.runner m)) s

/-- A partition's runners whose collective needs a peer. -/
def State.abandonCollectives (s : State) (part m : Nat) : State :=
  let rs := (s.parts.filter fun p => p.idx == part).flatMap fun p => if (p.group.map fun g => g.2.contains m).getD false then
      p.colls.flatMap fun c => if c.span == 3 && !c.remote.any (fun x => x.1 == m) then c.joined.map (·.runner) else []
    else []
  rs.foldl (fun s r => s.setFabric r m) s

/-- Waits in progress of runners with FABRIC pending end by the trap (R104). -/
def State.endFabricWaits (s : State) : State :=
  (s.allRunners.filter fun x => x.stat == .waiting && x.fabric.isSome).foldl
    (fun s x => s.withRunner x.ident.id State.recheck) s

/-- The partition a message to a peer is for. -/
def OutMsg.part? : OutMsg → Option Nat
  | .ask r .. => some r.part
  | .contribution _ part .. => some part
  | _ => none

/-- What a partition has sent a peer it gives up is not sent again. -/
def State.giveUpSent (s : State) (part module : Nat) : State :=
  { s with pacer := { s.pacer with sent := s.pacer.sent.filter fun x => !(x.dest == module && x.msg.part? == some part) } }

/-- A partition gives up a peer (R349). -/
def State.loseModule (s : State) (part module : Nat) : State :=
  let s := (((s.abandonAccesses part module).abandonCopies part module).abandonCollectives part module).giveUpSent part module
  let s : State := { s with pacer := { s.pacer with unreachable := (part, module) :: s.pacer.unreachable } }
  s.endFabricWaits

/-- The time in ticks that a port has not reached a peer, less the 30 s at most for which the peer writes or reads a checkpoint
(R349, R356). -/
def State.downFor (s : State) (m i : Nat) : Nat :=
  let port := match s.pacer.ports[i]? with
    | some p => if p.mode == .relay && p.lanes != 0 then (p.down.map fun t => s.time - t).getD 0 else s.time
    | none => s.time
  let cut := ((s.world.cuts.find? fun c => c.module == m && c.port == i).map fun c =>
    s.time - c.since - if c.saving then 3000000000 else 0).getD 0
  max port cut

/-- Whether all 16 ports to a peer have been down for longer than a partition's FDEAD, in milliseconds (R349). -/
def State.lost (s : State) (part m : Nat) : Bool :=
  match s.part? part with
  | none => false
  | some p => (s.livePorts m).isEmpty && (List.range 16).all fun i => p.record.fdead * 100000 < s.downFor m i

/-- The event FABRIC_TIMEOUT (R104, R349): every port to a peer has been down for longer than a partition's FDEAD. Its number
is the module's, 12 bits, with the partition's above them (log 87). -/
def execFabricTimeout (module : Nat) (s : State) : Host.Outcome State Fault Refusal :=
  let part := module / 4096
  let m := module % 4096
  if m != s.pacer.number && s.lost part m then .next (s.loseModule part m) else .next s

/-! ### Tile operations and words that are no instruction -/

/-- The first operation the unit has not finished, finished. -/
def finishFirst : List TileOp → List TileOp
  | [] => []
  | o :: t => if o.done then o :: finishFirst t else { o with done := true } :: t

/-- The event TILE_OPERATION_COMPLETE (R180): the unit finishes its oldest operation; its results are there for every
reader from the MWAIT on (R181). -/
def execTileOperationComplete (c : CoreId) (s : State) : Host.Outcome State Fault Refusal :=
  match (s.core c).att with
  | some a => .next (s.setCore { s.core c with att := some { a with ops := finishFirst a.ops } })
  | none => .next s

/-- A word with an unassigned opcode or function (R70): ILLEGAL with the word. -/
def execUnassignedPattern (w : Word) (s : State) : Host.Outcome State Fault Refusal := outcome (stopTrap .illegal w s)

end Sys2Proof.Machine
end

