-- ==== Sys2Proof/Machine/PowerEvents.lean ====
section
/-! DEFINITION. The events of engines, the energy budget, cooling, droop, temperature and lanes (R310–R325). -/

namespace Sys2Proof.Machine

/-! ### The in-rush arbiter (R313, R315) -/

/-- Whether a holder's engine still wakes. -/
def State.wakingFor (s : State) (h : Holder) : Bool := s.engines.any fun e => e.st == .waking && e.holder == some h

/-- The entry whose engine starts in a slot (R315): the next octant of a begun one whose predecessor is awake, else the
first that joined before the slot. -/
def State.startable (s : State) (d : Die) : Option LeaseReq :=
  (d.queue.find? fun x => x.begun && !x.engines.isEmpty && !s.wakingFor x.holder).or
    (d.queue.find? fun x => !x.begun && !x.engines.isEmpty && x.joined < s.time)

/-- Whether the arbiter may start a power-up now: a slot begins, none has started in it, and neither droop level 2 nor a
thermal trip stops it (R315, R322, R324). -/
def State.slotFree (s : State) (d : Die) : Bool :=
  s.time % 40 == 0 && d.lastSlot != some (s.time / 40) && s.pacer.droop.level < 2 && !d.tripped

/-- A queue after the first engine of a holder's entry has started. -/
def startedQueue (h : Holder) (q : List LeaseReq) : List LeaseReq :=
  (q.map fun x => if x.holder = h then { x with engines := x.engines.tail, begun := true } else x).filter fun x =>
    !(x.holder == h && x.engines.isEmpty)

/-- The partition and the heat a request belongs to (R312). -/
def State.payerOf (s : State) (h : Holder) : Option (Nat × Nat) :=
  match h with
  | .lease r _ => some (r.part, r.heat)
  | .attach c => (s.core c).pend.map fun p => (p.runner.part, p.runner.heat)

/-- A power-up started. -/
def State.powerUp (s : State) (d : Die) (x : LeaseReq) : State :=
  match x.engines with
  | [] => s
  | e :: _ =>
    let s := s.setEngine { id := e, st := .waking, holder := some x.holder, ends := s.time + engineWake e, named := s.time,
                           payer := s.payerOf x.holder, req := some x }
    (s.setDie { d with queue := startedQueue x.holder d.queue, lastSlot := some (s.time / 40) }).retryUnits d.idx

/-- The event POWER_UP_START (R315). -/
def execPowerUpStart (die : Nat) (s : State) : Host.Outcome State Fault Refusal :=
  let d := s.die die
  match (if s.slotFree d then s.startable d else none) with
  | some x => .next (s.powerUp d x)
  | none => .next s

/-- An octant awake: with the last one its ATTACH is granted, a saved attach by its resume (R337). -/
def State.wokenOctant (s : State) (e : Engine) (c : CoreId) : State :=
  let core := s.core c
  match core.pend with
  | none => s.toHold e.id
  | some p =>
    let p := { p with toWake := p.toWake.filter fun k => k != e.id.idx }
    let s := (s.setEngine { e with st := .held, named := s.time, req := none }).setCore { core with pend := some p }
    if p.toWake.isEmpty then s.grantWoken p else s

/-- An engine awake: held by its requester, the wake charged once to the heat whose request caused it (R312, R313). -/
def State.woken (s : State) (x : Engine) : State :=
  let s := match x.payer with
    | some (p, h) => s.addEnergy p h (engineEnergy x.id)
    | none => s
  match x.holder with
  | none => s.toHold x.id
  | some (.lease r i) => s.giveEngine x.id r i
  | some (.attach c) => s.wokenOctant x c

/-- Runners that wait in a collective look at it again: the engine of one may be gone (R202, R318). -/
def State.endLostWaits (s : State) : State :=
  (s.allRunners.filter fun x => x.stat == .waiting && (x.wait.map fun w => w.kind == .collective).getD false).foldl
    (fun s x => s.withRunner x.ident.id State.recheck) s

/-- The event WAKE_COMPLETE (R313). What is granted during droop level 2 is then treated as held (R314, R322). -/
def execWakeComplete (e : EngineId) (s : State) : Host.Outcome State Fault Refusal :=
  let x := s.engine e
  if x.st = .waking && x.ends ≤ s.time then
    let s := s.woken x
    .next (if 2 ≤ s.pacer.droop.level then s.keepBudgets.endLostWaits else s)
  else .next s

/-- The event HOLD_EXPIRY (R317). -/
def execHoldExpiry (e : EngineId) (s : State) : Host.Outcome State Fault Refusal :=
  if (s.engine e).st = .hold && (s.engine e).ends ≤ s.time then .next (s.sleepEngine e) else .next s

/-- The runner an engine was evicted for, if it still waits: a LEASE.W, or the ATTACH.W of a core. -/
def State.evictedFor (s : State) (h : Holder) : Option RunnerId :=
  match h with
  | .lease r _ => ((s.waiter r).filter fun w => w.kind == .lease).map fun _ => r
  | .attach c => (((s.cluster c.die c.cluster).attachQ.find? fun w => w.core == c).map (·.runner)).filter fun r =>
      ((s.waiter r).map fun w => w.kind == .attach).getD false

/-- Whether an engine instruction of a runner is in flight (R318). -/
def State.engineBusy (s : State) (r : RunnerId) : Bool :=
  match s.runner? r with
  | none => false
  | some x =>
    x.inFlight && (match x.vq with
      | .vec i .. :: _ => (unitsOf i).contains .en
      | _ => (((s.focus r).instrAt x.scal.pc).map fun i => (unitsOf i).contains .en).getD false)

/-- Whether an orderly eviction of an engine may end (R313): its 20 µs are over, the instruction in flight has completed, or
the images of the share are written. -/
def State.mayEnd (s : State) (x : Engine) : Bool :=
  x.ends ≤ s.time || (match x.holder with
    | some (.lease r _) => !s.engineBusy r
    | some (.attach c) => (s.core c).saving.isNone
    | none => true)

/-- The waiter an engine was evicted for finds it awake, and takes it or lets it sleep (R313). -/
def State.handTo (s : State) (e : EngineId) (r : RunnerId) : State :=
  let s := (s.setEngine { id := e, st := .hold, ends := s.time + engineHold e }).withRunner r State.recheck
  if (s.engine e).st = .hold then s.sleepEngine e else s

/-- The event EVICTION_END (R313, R318): the engine sleeps, or the waiter it was evicted for finds it awake. Images that are
not written by then never are (R184). -/
def execEvictionEnd (e : EngineId) (s : State) : Host.Outcome State Fault Refusal :=
  let x := s.engine e
  if x.st = .evicting && s.mayEnd x then
    let s := match x.holder with
      | some (.attach c) => if (s.core c).saving.isSome then s.unsaved c else s
      | _ => s
    .next (match x.handTo.bind s.evictedFor with
      | some r => ((s.handTo e r).retryUnits e.die).endLostWaits
      | none => ((s.sleepEngine e).retryUnits e.die).endLostWaits)
  else .next s

/-! ### Energy and budgets (R310–R312) -/

/-- A heat's energy brought up to now: its leases, its attaches and what its cores have drawn (R312). -/
def State.chargeHeat (s : State) (part heat core : Nat) : State :=
  let s := (s.allRunners.filter fun x => x.ident.id.part == part && x.ident.id.heat == heat).foldl
    (fun s x => s.chargeRunner x.ident.id) s
  let s := (s.cores.filter fun c => (c.att.map fun a => a.owner.part == part && a.owner.heat == heat).getD false).foldl
    (fun s c => s.chargeAttach c.id) s
  s.addEnergy part heat (core * 100000)

/-- The event ECNT_UPDATE (R312). -/
def execEcntUpdate (part heat coreMicrojoules : Nat) (s : State) : Host.Outcome State Fault Refusal :=
  if (s.heat? part heat).isSome then .next (s.chargeHeat part heat coreMicrojoules) else .next s

/-- Every partition's reservations brought within its budget (R311). -/
def State.reallocateAll (s : State) : State := s.parts.foldl (fun s p => s.reallocate p.idx) s

/-- Whether a row's conditions hold at a sample (R310); the last row's always do. -/
def LimitRow.holds (r : LimitRow) (mode : Option CoolMode) (inlet flow : Option Nat) : Bool :=
  match r.mode with
  | none => true
  | some m => mode == some m && (inlet.map fun x => decide (x ≤ r.inlet)).getD false &&
      (flow.map fun x => decide (r.flow ≤ x)).getD false

/-- The rows by number with what each needs. -/
def numberedRows : List (Nat × LimitRow) := (List.range limitRows.length).zip limitRows

/-- The first row whose conditions hold. -/
def rowFor (mode : Option CoolMode) (inlet flow : Option Nat) : Nat :=
  ((numberedRows.find? fun r => r.2.holds mode inlet flow).map (·.1)).getD 5

/-- The cooling state after a sample (R310): a lower row at once, a higher one noted with the time since when it holds. -/
def Cooling.sample (c : Cooling) (now : Nat) (inlet flow : Option Nat) : Cooling :=
  let row := max c.row (rowFor c.mode inlet flow)
  let up := (numberedRows.filter fun r => r.1 < row && r.2.holds c.mode inlet flow).map fun r =>
    (r.1, ((c.higher.find? fun h => h.1 == r.1).map (·.2)).getD now)
  { c with inlet := inlet, flow := flow, row := row, higher := up }

/-- Cooling state written, and what the new budgets ask for. -/
def State.setCooling (s : State) (c : Cooling) : State :=
  { s with pacer := { s.pacer with cooling := c } }.reallocateAll

/-- The event COOLING_MODE_DECLARE (R310): at stage A. -/
def execCoolingModeDeclare (m : CoolMode) (s : State) : Host.Outcome State Fault Refusal :=
  if s.pacer.stage = .a then .next { s with pacer := { s.pacer with cooling := { s.pacer.cooling with mode := some m } } }
  else .next s

/-- The event COOLING_SAMPLE (R310). -/
def execCoolingSample (inlet flow : Option Nat) (s : State) : Host.Outcome State Fault Refusal :=
  .next (s.setCooling (s.pacer.cooling.sample s.time inlet flow))

/-- The event COOLING_ROW_RAISE (R310): the highest row whose conditions have held for 1 s. -/
def execCoolingRowRaise (s : State) : Host.Outcome State Fault Refusal :=
  let c := s.pacer.cooling
  match c.higher.find? fun h => h.2 + 100000000 ≤ s.time with
  | some (row, _) => .next (s.setCooling { c with row := row, higher := c.higher.filter fun h => h.1 < row })
  | none => .next s

/-! ### Droop (R321–R323) -/

/-- The droop state changed. -/
def State.setDroop (s : State) (d : Droop) : State := { s with pacer := { s.pacer with droop := d } }

/-- Deadlines of a die's queue moved by the time it has paused (R316). -/
def Die.resumed (d : Die) (now since : Nat) : Die :=
  { d with pausedAt := none, queue := d.queue.map fun x => { x with deadline := x.deadline + (now - max since x.joined) } }

/-- Every holding that no instruction has named for 10 µs is evicted in orderly fashion, its reservation counted as
released at once (R322 step 4). -/
def State.evictIdle (s : State) : State :=
  ((inEvictOrder s.holdings).filter fun h => h.named + 1000 ≤ s.time).foldl
    (fun (s : State) (h : Holding) => s.evictOrderly h.what false none) s

/-- A runner told that its request, in the queue or outside a full one, is withdrawn (R322 step 5). -/
def State.tellWithdrawn (s : State) (r : RunnerId) : State :=
  s.withRunner r fun s => s.mapR fun r =>
    if r.stat == .stalled && (r.asks == [.wake] || r.asks == [.unit]) then { r with stat := .ready, asks := [], replies := [(.wake, .access)] } else r

/-- A queued request withdrawn, its reservation returned (R311, R322). -/
def State.withdrawEntry (s : State) (die : Nat) (x : LeaseReq) : State :=
  match x.holder with
  | .lease r slot =>
    let s := s.withdraw die x.holder
    (s.withRunner r fun s =>
      if s.r.stat = .saved then s.setSlot slot (s.r.leases[slot].map fun l => { l with st := .held, engine := none })
      else s.setSlot slot none).tellWithdrawn r
  | .attach c =>
    match (s.core c).pend with
    | some p => (s.leaveUnit p.runner c).tellWithdrawn p.runner
    | none => s.withdraw die x.holder

/-- The partition a request belongs to. -/
def State.partOf (s : State) (h : Holder) : Option Nat :=
  match h with
  | .lease r _ => some r.part
  | .attach c => (s.core c).pend.map (·.runner.part)

/-- Whether the reservations of a holder's partition exceed its budget. -/
def State.overBudget (s : State) (h : Holder) : Bool := ((s.partOf h).map fun p => decide (s.budget p < s.reserved p)).getD false

/-- Requests withdrawn while a partition's reservations exceed its budget (R322 step 5): those in the queues, and the ATTACHs that
stall outside a full one. -/
def State.withdrawOver (s : State) : State :=
  let s := s.dies.foldl (fun s d => (s.die d.idx).queue.foldl (fun (s : State) (x : LeaseReq) =>
    if s.overBudget x.holder then s.withdrawEntry d.idx x else s) s) s
  s.cores.foldl (fun s c => match (s.core c.id).pend with
    | some p => if !p.queued && s.overBudget (.attach c.id) then (s.leaveUnit p.runner c.id).tellWithdrawn p.runner else s
    | none => s) s

/-- Droop level 1 entered: the clock stretches one step (R321). -/
def State.enterLevel1 (s : State) : State :=
  let d := s.pacer.droop
  s.setDroop { d with level := 1, steps := min 4 (d.steps + 1), recovering := false, stepAt := s.time }

/-- A droop to level 2 or 3 during stage C starts the shakedown again (R351). -/
def State.restartShake (s : State) : State :=
  let p := s.pacer
  if p.shake.running then { s with pacer := { p with shake := { p.shake with began := some s.time } } } else s

/-- Droop level 2 entered (R322). -/
def State.enterLevel2 (s : State) : State :=
  let s := (s.setDroop { s.pacer.droop with level := 2, level2At := some s.time }).restartShake.cutAll none
  let s := s.evictIdle.withdrawOver
  s.parts.foldl (fun s p => s.evictOver p.idx) s

/-- Since when a condition has held. -/
def sinceWhen (holds : Bool) (old : Option Nat) (now : Nat) : Option Nat := if holds then some (old.getD now) else none

/-- The event DROOP_SAMPLE (R321): levels 1 and 2 are entered at the first sample below their thresholds. -/
def execDroopSample (millivolts : Nat) (s : State) : Host.Outcome State Fault Refusal :=
  let d := s.pacer.droop
  let s := s.setDroop { d with
    millivolts := millivolts
    since48 := sinceWhen (48000 ≤ millivolts) d.since48 s.time
    since44 := sinceWhen (44000 ≤ millivolts) d.since44 s.time
    below40 := sinceWhen (millivolts < 40000) d.below40 s.time }
  let s := if millivolts < 48000 && d.level < 1 then s.enterLevel1 else s
  .next (if millivolts < 44000 && d.level < 2 then s.enterLevel2.endLostWaits else s)

/-- Every team is asked to stop (R323, R355). -/
def State.stopAll (s : State) : State := (s.teams.filter fun t => t.stat == .resident).foldl (fun s t => s.askStop t.id) s

/-- A checkpoint starts (R355): every team stops. -/
def State.startCheckpoint (s : State) : State :=
  if s.pacer.flash.writing then s
  else { s with pacer := { s.pacer with flash := { s.pacer.flash with writing := true, began := s.time } } }.stopAll

/-- Droop level 3 entered (R323), with what the lower levels do (R321); before full function there is nothing to save. -/
def State.enterLevel3 (s : State) : State :=
  let s := if s.pacer.droop.level < 1 then s.enterLevel1 else s
  let s := if s.pacer.droop.level < 2 then s.enterLevel2 else s.restartShake
  let s := s.setDroop { s.pacer.droop with level := 3, level3At := some s.time }
  if s.pacer.stage = .d then s.startCheckpoint.stopAll
  else { s with pacer := { s.pacer with flash := { s.pacer.flash with outage := true } } }

/-- The event DROOP_RIDE_THROUGH_EXPIRY (R321): below 40 V for more than 20 ms. -/
def execDroopRideThroughExpiry (s : State) : Host.Outcome State Fault Refusal :=
  let d := s.pacer.droop
  if d.level < 3 && (d.below40.map fun t => decide (t + 2000000 < s.time)).getD false then .next s.enterLevel3.endLostWaits
  else .next s

/-- The event HOLD_UP_WARNING (R321). -/
def execHoldUpWarning (s : State) : Host.Outcome State Fault Refusal :=
  let t := s.setDroop { s.pacer.droop with holdUp := true }
  .next (if t.pacer.droop.level < 3 then t.enterLevel3.endLostWaits else t)

/-- The deadlines of every die's queue moved by the time power-ups have stopped; a die under a thermal trip stays
paused (R316). -/
def State.resumeQueues (s : State) (since : Nat) : State :=
  { s with dies := s.dies.map fun d =>
      let t := min since (d.pausedAt.getD since)
      if d.tripped then { d with pausedAt := some t } else d.resumed s.time t }

/-- The event DROOP_LEVEL_EXIT (R321): level 1 or 2 is left after 20 µs at or above its threshold. -/
def execDroopLevelExit (s : State) : Host.Outcome State Fault Refusal :=
  let d := s.pacer.droop
  let held (t : Option Nat) : Bool := (t.map fun t => decide (t + 2000 ≤ s.time)).getD false
  if d.level = 2 && held d.since44 then
    .next (((s.resumeQueues (d.level2At.getD s.time)).setDroop { d with level := 1, level2At := none }))
  else if d.level = 1 && held d.since48 then .next (s.setDroop { d with level := 0, recovering := true, stepAt := s.time })
  else .next s

/-- The event CLOCK_STRETCH_STEP (R321). -/
def execClockStretchStep (s : State) : Host.Outcome State Fault Refusal :=
  let d := s.pacer.droop
  if 1 ≤ d.level && d.steps < 4 && d.stepAt + 5000 ≤ s.time then .next (s.setDroop { d with steps := d.steps + 1, stepAt := s.time })
  else .next s

/-- The event CLOCK_RECOVER_STEP (R321): after level 1 has ended. -/
def execClockRecoverStep (s : State) : Host.Outcome State Fault Refusal :=
  let d := s.pacer.droop
  if d.recovering && d.level == 0 && 0 < d.steps && d.stepAt + 5000 ≤ s.time then
    .next (s.setDroop { d with steps := d.steps - 1, stepAt := s.time, recovering := 1 < d.steps })
  else .next s

/-! ### Temperature (R324) -/

/-- An engine whose wake a trip stops: asleep, its request at the head of its queue again (R313). -/
def State.unwake (s : State) (e : Engine) : State :=
  let s := s.sleepEngine e.id
  match e.holder with
  | none => s
  | some h =>
    let d := s.die e.id.die
    let old := d.queue.find? fun x => x.holder == h
    let x : LeaseReq := match old with
      | some x => { x with engines := e.id :: x.engines }
      | none => { e.req.getD { holder := h, engines := [], pri := 7 } with engines := [e.id], begun := true }
    s.setDie { d with queue := x :: d.queue.filter fun y => y.holder != h }

/-- The die a holding's engines lie on. -/
def State.onDie (s : State) (die : Nat) (h : Holding) : Bool := (s.enginesOf h.what).any fun e => e.die == die

/-- The octants of a die that an ATTACH in progress already has, asleep again, to be woken once more (R324). -/
def State.unholdPend (s : State) (die : Nat) : State :=
  s.cores.foldl (fun s c => match (s.core c.id).pend with
    | some p =>
      if c.id.die != die then s
      else
        let up := p.octs.filter fun k => (s.engine (octantId die c.id.cluster k)).st == .held
        let s := s.setCore { s.core c.id with pend := some { p with toWake := p.octs.filter fun k => p.toWake.contains k || up.contains k } }
        up.foldl (fun s k => let e := s.engine (octantId die c.id.cluster k)
          if p.queued then s.unwake { e with holder := some (.attach c.id) } else s.sleepEngine e.id) s
    | none => s) s

/-- A thermal trip (R324). -/
def State.trip (s : State) (die : Nat) : State :=
  let d := s.die die
  let s := (s.setDie { d with tripped := true, throttle := 4, pausedAt := some (d.pausedAt.getD s.time) }).cutAll (some die)
  let s := ((inEvictOrder (s.holdings ++ s.leaving)).filter (s.onDie die)).foldl State.emergency s
  ((s.engines.filter fun e => e.st == .waking && e.id.die == die).foldl State.unwake s).unholdPend die

/-- A thermal trip ends: wake starts resume unless droop level 2 stops them. -/
def State.untrip (s : State) (die : Nat) : State :=
  let d := { s.die die with tripped := false }
  s.setDie (if s.pacer.droop.level < 2 then d.resumed s.time (d.pausedAt.getD s.time) else d)

/-- The event THERMAL_SAMPLE (R324). -/
def execThermalSample (die celsius : Nat) (s : State) : Host.Outcome State Fault Refusal :=
  let d := s.die die
  let s := s.setDie { d with celsius := celsius }
  .next (if 110 ≤ celsius && !d.tripped then (s.trip die).endLostWaits else if celsius < 95 && d.tripped then s.untrip die else s)

/-- The event THERMAL_THROTTLE_STEP (R324). -/
def execThermalThrottleStep (die : Nat) (s : State) : Host.Outcome State Fault Refusal :=
  let d := s.die die
  if d.steppedAt + 100000 ≤ s.time && 100 < d.celsius && d.throttle < 4 then
    .next (s.setDie { d with throttle := d.throttle + 1, steppedAt := s.time })
  else if d.steppedAt + 100000 ≤ s.time && d.celsius < 95 && 0 < d.throttle then
    .next (s.setDie { d with throttle := d.throttle - 1, steppedAt := s.time })
  else .next s

/-! ### Lanes (R325) -/

/-- A lane group that loses a lane (R325): the first working lane is replaced by the checking lane, a second lost lane
retires the group; checking stops either way. -/
def LaneGroup.lose (g : LaneGroup) (lane : Nat) : LaneGroup :=
  if g.retired || !g.lanes.getLsbD lane then g
  else
    { g with
      lanes := g.lanes &&& ~~~(1#9 <<< lane)
      checking := false
      retired := g.lanes != 0x1FF }

/-- A lane's voltage raised by one step. -/
def LaneGroup.raise (g : LaneGroup) (lane : Nat) : LaneGroup :=
  { g with volts := g.volts.mapIdx fun i v => if i = lane then v + 1 else v }

/-- A group of a core changed. -/
def Core.mapGroup (c : Core) (i : Nat) (f : LaneGroup → LaneGroup) : Core :=
  { c with groups := c.groups.mapIdx fun j g => if j = i then f g else g }

/-- The event LANE_MARGIN_LOST (R325): 10 mV more, up to 50 mV above the trim; at the ceiling the lane is to retire. -/
def execLaneMarginLost (c : CoreId) (group lane : Nat) (s : State) : Host.Outcome State Fault Refusal :=
  let x := s.core c
  match x.groups[group]? with
  | some g =>
    if g.retired || !g.lanes.getLsbD lane then .next s
    else if (g.volts[lane]?).getD 5 < 5 then .next (s.setCore (x.mapGroup group fun g => g.raise lane))
    else .next (s.setCore { x with pendingLane := (group, lane) :: x.pendingLane })
  | none => .next s

/-- A core's lanes that are to retire, retired; with the last live group the core is (R325). -/
def Core.retireLanes (c : Core) : Core :=
  let d := c.pendingLane.foldl (fun (c : Core) (x : Nat × Nat) => c.mapGroup x.1 fun g => g.lose x.2) { c with pendingLane := [] }
  { d with retired := d.groups.all (·.retired) }

/-- The team on a core. -/
def State.teamAt (s : State) (c : CoreId) : Option Team := s.teams.find? fun t => t.stat == .resident && t.coreIds.contains c

/-- The event LANE_RETIREMENT (R325): the team of a core that retires is pre-empted. -/
def execLaneRetirement (c : CoreId) (s : State) : Host.Outcome State Fault Refusal :=
  let x := s.core c
  if x.pendingLane.isEmpty then .next s
  else
    let s := (x.pendingLane.foldl (fun (s : State) (l : Nat × Nat) =>
      s.emit (.logged 0x100 (BitVec.ofNat 64 (l.1 * 16 + l.2)))) s).setCore x.retireLanes
    match (if x.retireLanes.retired then s.teamAt c else none) with
    | some t => .next (s.askStop t.id)
    | none => .next s

end Sys2Proof.Machine
end

