-- ==== Sys2Proof/Machine/Boot.lean ====
section
/-! DEFINITION. The staged start, the shakedown and the logger (R350–R352), the checkpoint and the restore (R354–R356). -/

namespace Sys2Proof.Machine

/-- The Pacer's state changed. -/
def State.mapPacer (s : State) (f : Pacer → Pacer) : State := { s with pacer := f s.pacer }

/-! ### Power good and the start stages (R350) -/

/-- Power comes: everything volatile is as at reset; the logger, the save flash, the module's place in the fabric and what
the outside shows stay. -/
def State.powerCycle (s : State) : State :=
  { State.reset with
    pacer := { Pacer.reset with
      transported := s.pacer.transported
      events := s.pacer.events
      flash := { s.pacer.flash with writing := false, linkOff := false }
      number := s.pacer.number }
    world := s.world
    nextUid := s.nextUid
    outbox := s.outbox
    agenda := s.agenda
    free := s.free }

/-- Whether power went while nothing but the save flash could keep the module's state: after the checkpoint of droop level 3, or
before it was written (R354–R356). -/
def State.outageCame (s : State) : Bool := s.pacer.flash.outage || (s.pacer.flash.writing && s.pacer.droop.level == 3)

/-- The event POWER_GOOD (R350): stage A; after a level-3 outage POWER_GOOD_RESTORE comes in its place. -/
def execPowerGood (s : State) : Host.Outcome State Fault Refusal := .next (if s.outageCame then s else s.powerCycle)

/-- Whether the input has been good for 100 ms (R356). -/
def State.goodFor100 (s : State) : Bool := (s.pacer.droop.since48.map fun t => decide (t + 10000000 ≤ s.time)).getD false

/-- The event POWER_GOOD_RESTORE (R356): stages A to C again; the newest valid checkpoint is read after them. -/
def execPowerGoodRestore (s : State) : Host.Outcome State Fault Refusal :=
  .next (if s.outageCame && s.goodFor100 then
    s.powerCycle.mapPacer fun p => { p with flash := { p.flash with outage := true } } else s)

/-- A measurement chain extended by an item (R352). -/
def extendChain (m item : List Byte) : List Byte := sha512 (m ++ sha512 item)

/-- Stage C entered (R351): a full shakedown when TRANSPORTED is set or the host asks for one. -/
def State.enterStageC (s : State) (full : Bool) : State :=
  s.mapPacer fun p => { p with
    stage := .c
    transAtC := p.transported
    shake := { p.shake with running := true, full := full || p.transported, requested := false, began := none } }

/-- Stage A ends (R350, R352): the hardware has measured the boot ROM, which runs from now on. -/
def State.endStageA (s : State) (rom : List Byte) : State :=
  if s.pacer.stage = .a then s.mapPacer fun p => { p with stage := .b, chain := extendChain p.chain rom } else s

/-- The event FIRMWARE_VERIFY (R350, R352): stage B ends, in stage C with the chain extended by the firmware, or in failure. The ROM
has been measured in stage A, at its end if no turn before has ended it. -/
def execFirmwareVerify (rom firmware : List Byte) (ok : Bool) (s : State) : Host.Outcome State Fault Refusal :=
  let s := s.endStageA rom
  .next (if s.pacer.stage != .b then s
    else if ok then (s.mapPacer fun p => { p with chain := extendChain p.chain firmware }).enterStageC s.pacer.shake.requested
    else s.mapPacer fun p => { p with stage := .failed })

/-! ### The shakedown (R222, R325, R351) -/

/-- Lanes trimmed and columns tested afresh: what an earlier shakedown or the run took out of service is looked at again. -/
def State.retest (s : State) : State :=
  { s with
    cores := s.cores.map fun c => { c with
      groups := (Core.blank c.id).groups, pendingLane := [], blamed := [], retired := false }
    clusters := s.clusters.map fun c => { c with
      spares := Vector.replicate 2 (spareColumns c.idx), retired := Vector.replicate 2 false, blamed := [] } }

/-- A faulty lane mapped out (R325). -/
def State.mapLane (s : State) (x : CoreId × Nat × Nat) : State :=
  s.setCore { s.core x.1 with pendingLane := [x.2] }.retireLanes

/-- A faulty column mapped to a spare of its half, or the half retired (R222): it computes nothing any more. -/
def State.mapColumn (s : State) (x : Nat × Nat × Nat) : State :=
  let c := s.cluster x.1 x.2.1
  let h : Fin 2 := Fin.ofNat 2 x.2.2
  let here (b : Nat × Nat × Nat × Nat) : Bool := b.1 == x.1 && b.2.1 == x.2.1 && b.2.2.1 == h.val
  if 0 < c.spares[h] then
    { s with world := { s.world with badColumns := s.world.badColumns.eraseP here } }.setCluster
      { c with spares := c.spares.set h (c.spares[h] - 1) }
  else
    { s with world := { s.world with badColumns := s.world.badColumns.filter fun b => !here b } }.setCluster
      { c with retired := c.retired.set h true }

/-- The category of the first fault that a shakedown has mapped out (R353). -/
def faultCategory (f : ShakeFaults) : Nat := if !f.lanes.isEmpty then 4 else if !f.columns.isEmpty then 5 else 0

/-- A shakedown that passes: only a full one clears TRANSPORTED (R351). -/
def Pacer.passed (p : Pacer) (now category : Nat) : Pacer :=
  { p with
    stage := .d
    transported := p.transported && !p.shake.full
    shake := { p.shake with pass := true, running := false, category := category, time := now } }

/-- A shakedown that fails. -/
def Pacer.shakeFailed (p : Pacer) (now category : Nat) : Pacer :=
  { p with stage := .failed, shake := { p.shake with pass := false, running := false, category := category, time := now } }

/-! ### The checkpoint (R354, R355) -/

/-- A runner whose wait and starvation timer do not count some time (R257, R323). -/
def Runner.excused (x : Runner) (waits : Bool) (dt : Nat) : Runner :=
  { x with
    wait := x.wait.map fun w => { w with
      entry := if waits then w.entry + dt else w.entry
      endable := w.endable.map fun t => t + dt }
    readySince := x.readySince + dt }

/-- Every runner excused some time, one whose team has not been placed yet as well. -/
def State.excuse (s : State) (waits : Bool) (dt : Nat) : State :=
  { s with
    r := s.r.excused waits dt
    rs := s.rs.map fun x => (x.1, x.2.excused waits dt)
    heats := s.heats.map fun h => { h with admitted := h.admitted + dt } }

/-- What a checkpoint writes. -/
def State.snapshot (s : State) : Checkpoint :=
  { seq := s.pacer.flash.seq, mem := s.mem
    runners := (s.allRunners.filter fun x => x.stat != .absent).map fun x => (x.ident.id, x)
    teams := s.teams, heats := s.heats, parts := s.parts, copies := s.copies, under := s.under, lines := s.lines
    carved := s.dies.map fun d => (d.idx, d.carved), time := s.time, poison := s.poison }

/-- Whether power is good (R321): the input is, and the carrier asserts no hold-up warning; whether it still asserts one it
has given is a free choice. -/
def State.powerIsGood (s : State) : Bool × State :=
  let d := s.pacer.droop
  if d.holdUp then let (b, s) := s.freeBool; (48000 ≤ d.millivolts && b, s) else (48000 ≤ d.millivolts, s)

/-- Droop level 3 ends: waits, starvation timers and budgets go on (R321, R323). -/
def State.leaveLevel3 (s : State) : State :=
  let d := s.pacer.droop
  let s := s.excuse true (s.time - d.level3At.getD s.time)
  s.setDroop { d with level := 0, level2At := none, level3At := none, below40 := none, holdUp := false,
                      recovering := 0 < d.steps, stepAt := s.time }

/-- A slot of the save flash written, alternately (R354). -/
def Flash.write (f : Flash) (c : Checkpoint) : Flash :=
  { f with slots := f.slots.set (Fin.ofNat 2 f.seq) (some c), seq := f.seq + 1, writing := false, linkOff := false }

/-- A checkpoint after droop level 3 is on flash: with power good the module goes on from its memories, else the outage
has come (R355). -/
def State.afterDroopWrite (s : State) : State :=
  let (good, s) := s.powerIsGood
  if good then s.leaveLevel3
  else s.mapPacer fun p => { p with flash := { p.flash with outage := true } }

/-- The event CHECKPOINT_WRITE_COMPLETE (R354, R355). -/
def execCheckpointWriteComplete (s : State) : Host.Outcome State Fault Refusal :=
  if s.pacer.flash.writing && s.allSaved then
    let began := s.pacer.flash.began
    let level3 := s.pacer.droop.level == 3
    let s := s.allAsleep
    let c := (if level3 then s.excuse true (s.time - s.pacer.droop.level3At.getD s.time) else s).snapshot
    let s := s.mapPacer fun p => { p with flash := p.flash.write c }
    .next (if level3 then s.afterDroopWrite else s.excuse false (s.time - began))
  else .next s

/-! ### The restore (R356) -/

/-- The newest valid slot. -/
def Flash.newest (f : Flash) : Option Checkpoint :=
  match f.slots[0], f.slots[1] with
  | some a, some b => if a.seq < b.seq then some b else some a
  | some a, none => some a
  | none, b => b

/-- The carved ways of a die brought back. -/
def State.restoreWays (s : State) (x : Nat × List (Nat × List Nat)) : State := s.setDie { s.die x.1 with carved := x.2 }

/-- TIME after a restore (R356): the saved value plus the outage as the carrier's clock reports it, or plus one tick; never
less than it is now. -/
def State.timeAfter (s : State) (c : Checkpoint) : Nat := max s.time (c.time + s.world.outage.getD 1)

/-- A checkpoint read back; its teams are there to be resumed. -/
def State.restoreFrom (s : State) (c : Checkpoint) : State :=
  let s : State := { s with
    r := Runner.blank, rs := c.runners, teams := c.teams, heats := c.heats, parts := c.parts, copies := c.copies
    mem := c.mem, under := c.under, lines := c.lines, poison := c.poison, engines := [], time := s.timeAfter c }
  c.carved.foldl State.restoreWays s

/-- The restore after an outage: its time is not counted against waits and starvation timers (R323). -/
def State.restoreOutage (s : State) : State :=
  let s := s.mapPacer fun p => { p with flash := { p.flash with outage := false } }
  match s.pacer.flash.newest with
  | some c => let t := s.restoreFrom c; t.excuse true (t.time - c.time)
  | none => s

/-- Whether the shakedown under way can end: it has not just begun anew, and the module is not at droop level 3 (R351). -/
def State.shaken (s : State) : Bool :=
  s.pacer.stage == .c && s.pacer.shake.running && s.pacer.shake.began != some s.time && s.pacer.droop.level < 3

/-- The event SHAKEDOWN_COMPLETE (R351): the faults found are mapped out and stage D entered, or the module fails. After an
outage the checkpoint is read next. -/
def execShakedownComplete (s : State) : Host.Outcome State Fault Refusal :=
  if s.shaken then
    let f := s.world.silicon
    let t := f.columns.foldl State.mapColumn (f.lanes.foldl State.mapLane s.retest)
    if f.fatal != 0 then .next (t.mapPacer fun p => p.shakeFailed s.time f.fatal)
    else
      let t := t.mapPacer fun p => p.passed s.time (faultCategory f)
      .next (if t.pacer.flash.outage then t.restoreOutage else t)
  else .next s

/-! ### The logger (R351) -/

/-- A shock or tilt recorded; during stage C the shakedown starts again, as a full one. -/
def State.logEvent (s : State) : State :=
  s.mapPacer fun p => { p with
    transported := true
    events := min 65535 (p.events + 1)
    shake := if p.shake.running then { p.shake with full := true, began := some s.time } else p.shake }

/-- The event SHOCK_EVENT (R351). -/
def execShockEvent (s : State) : Host.Outcome State Fault Refusal := .next s.logEvent

/-- The event TILT_TIMEOUT (R351). -/
def execTiltTimeout (s : State) : Host.Outcome State Fault Refusal := .next s.logEvent

end Sys2Proof.Machine
end

