-- ==== Sys2Proof/Machine/Fabric.lean ====
section
/-! DEFINITION. The fabric ports (R347–R349), the events of peers on a partition's memory (R304–R306), of pages that move (R303) and
of the patrol scrubber (R342), and what goes wrong. -/

namespace Sys2Proof.Machine

/-! ### Accesses of peers (R304, R306) -/

/-- The event FABRIC_ACCESS_REQUEST (R304). -/
def execFabricAccessRequest (peer part seq : Nat) (acc : OutAccess) (s : State) : Host.Outcome State Fault Refusal :=
  s.serveOnce peer part seq [acc]

/-- The event PEER_GATHER_LIST (R306). -/
def execPeerGatherList (peer part seq : Nat) (accs : List OutAccess) (s : State) : Host.Outcome State Fault Refusal :=
  s.serveOnce peer part seq accs

/-! ### Ports (R347–R349) -/

/-- The event FLIT_REPLAY (R348): a flit of the replay buffer is sent again. -/
def execFlitReplay (port seq : Nat) (s : State) : Host.Outcome State Fault Refusal :=
  match s.pacer.ports[port]? with
  | some p =>
    if p.replay.any fun x => x.seq == seq then .next (s.mapPacer fun q => q.mapPort port fun x => { x with replayed := x.replayed + 1 })
    else .next s
  | none => .next s

/-- A port goes down: what it had sent and no peer has acknowledged moves to other planes (R349). -/
def State.portDown (s : State) (i : Nat) (retrain : Bool) : State :=
  let s := s.mapPacer fun p => p.mapPort i fun x =>
    { x with down := some (x.down.getD s.time), retraining := retrain, replay := [] }
  s.resend fun x => x.port == some i

/-- Whether the host retrains the ports: a partition's record says so (R357, DESIGN CHOICE, log 93). -/
def State.hostRetrains (s : State) : Bool := s.parts.any fun p => p.known && p.assisted 6

/-- The event PORT_ERROR_THRESHOLD (R349): the port's traffic moves, and the Pacer retrains it unless the host does (R357). -/
def execPortErrorThreshold (port : Nat) (s : State) : Host.Outcome State Fault Refusal :=
  .next (if port < 16 then s.portDown port (!s.hostRetrains) else s)

/-- The lanes a port of a mode may come up with (R347). -/
def laneChoices : PortMode → List Nat
  | .relay => [4, 2]
  | .eth1600 => [4]
  | .eth800 => [2]

/-- The port is up again: peers that no port reached may be reached, and what waited for a port is sent (R349). -/
def State.portUp (s : State) (i lanes : Nat) : State :=
  (s.mapPacer fun p => { p.mapPort i (fun x => { x with lanes := lanes, down := none, retraining := false }) with
    unreachable := [] }).resend fun x => x.port.isNone

/-- The event PORT_RETRAIN_COMPLETE (R349): a port that finds no lanes stays down. -/
def execPortRetrainComplete (port lanes : Nat) (s : State) : Host.Outcome State Fault Refusal :=
  .next (match s.pacer.ports[port]? with
  | some p =>
    if !p.retraining then s
    else if (laneChoices p.mode).contains lanes then s.portUp port lanes
    else if lanes = 0 then s.mapPacer fun q => q.mapPort port fun x => { x with lanes := 0, retraining := false }
    else s
  | none => s)

/-! ### Pages that move (R303) -/

/-- The event PAGE_MIGRATION (R303): a page starts to move, which it does at once when no copy holds it. -/
def execPageMigration (part : Nat) (va : Word) (dest : Nat) (s : State) : Host.Outcome State Fault Refusal :=
  match s.known? part with
  | some p =>
    match s.moveOf p va.toNat dest false with
    | some (m, _) => .next (if p.assisted 1 then s else s.startMove p m)
    | none => .next s
  | none => .next s

/-! ### The patrol scrubber (R342) -/

/-- The event PATROL_SCRUB (R342): an uncorrectable unit is marked poisoned; a corrected one reads as it did. Of a line that L2
holds it has read L2's copy, of any other that of LPDDR-5X (DEDUCED, log 37). -/
def execPatrolScrub (addr : Nat) (uncorrectable : Bool) (s : State) : Host.Outcome State Fault Refusal :=
  .next (if uncorrectable then s.poisonAt [addr] else s)

/-! ### What goes wrong (R338, R340, R341, R349) -/

/-- A plane reaches a peer no more, or again (R349): what it carried moves, what waited is sent. -/
def State.setPath (s : State) (m port : Nat) : Option Bool → State
  | some saving =>
    let w := s.world
    let s := if w.cuts.any fun c => c.module == m && c.port == port then s
      else { s with world := { w with cuts := { module := m, port := port, since := s.time, saving := saving } :: w.cuts } }
    s.resend fun x => x.dest == m && x.port == some port
  | none =>
    let w := s.world
    let s : State := { s with
      world := { w with cuts := w.cuts.filter fun c => !(c.module == m && c.port == port) }
      pacer := { s.pacer with unreachable := s.pacer.unreachable.filter fun x => x.2 != m } }
    s.resend fun x => x.dest == m && x.port.isNone

/-- Something goes wrong in the silicon; what it does shows when it is next used. s0 holds no bit. -/
def State.upset (s : State) : Upset → State
  | .lane b => { s with world := { s.world with badLanes := b :: s.world.badLanes } }
  | .column d c h k => { s with world := { s.world with badColumns := (d, c, h, k) :: s.world.badColumns } }
  | .vreg r v w =>
    if w < 256 then s.withRunner r fun s => s.mapR fun x => { x with vect := { x.vect with bad := (v, w) :: x.vect.bad } }
    else s
  | .sreg r n =>
    if n = 0 then s else s.withRunner r fun s => s.mapR fun x => { x with scal := { x.scal with bad := n :: x.scal.bad } }
  | .memory k => if isOutKey k then s else s.poisonAt [k]
  | .path m port cut => s.setPath m port cut

end Sys2Proof.Machine
end

