-- ==== Sys2Proof/Machine/Ecdsa.lean ====
section
/-! DEFINITION. ECDSA on P-521 over SHA-512, with which meet packages are signed (R263, R264). -/

namespace Sys2Proof.Machine

/-- The prime of P-521. -/
def ecP : Nat := 2 ^ 521 - 1

/-- The coefficient b of P-521; a is −3. -/
def ecB : Nat :=
  0x0051953EB9618E1C9A1F929A21A0B68540EEA2DA725B99B315F3B8B489918EF109E156193951EC7E937B1652C0BD3BB1BF073573DF883D2C34F1EF451FD46B503F00

/-- The order of the base point. -/
def ecN : Nat :=
  0x01FFFFFFFFFFFFFFFFFFFFFFFFFFFFFFFFFFFFFFFFFFFFFFFFFFFFFFFFFFFFFFFFFA51868783BF2F966B7FCC0148F709A5D03BB5C9B8899C47AEBB6FB71E91386409

/-- The base point. -/
def ecG : Nat × Nat :=
  (0x00C6858E06B70404E9CD9E3ECB662395B4429C648139053FB521F828AF606B4D3DBAA14B5E77EFE75928FE1DC127A2FFA8DE3348B3C1856A429BF97E7E31C2E5BD66,
   0x011839296A789A3BC0045C8A5FB42C7D1BD998F54449579B446817AFBD17273E662C97EE72995EF42640C550B9013FAD0761353C7086A272C24088BE94769FD16650)

/-- A point in Jacobian coordinates; z = 0 is the point at infinity. -/
structure EcPoint where
  x : Nat
  y : Nat
  z : Nat
  deriving DecidableEq, Repr

/-- The point at infinity. -/
def EcPoint.inf : EcPoint := { x := 1, y := 1, z := 0 }

/-- An affine point. -/
def EcPoint.affine (q : Nat × Nat) : EcPoint := { x := q.1, y := q.2, z := 1 }

/-- a − b modulo the prime. -/
def ecSub (a b : Nat) : Nat := (a + (ecP - b)) % ecP

/-- A point doubled. -/
def EcPoint.dbl (q : EcPoint) : EcPoint :=
  if q.z = 0 then q
  else
    let d := q.z * q.z % ecP
    let g := q.y * q.y % ecP
    let b := q.x * g % ecP
    let a := 3 * (ecSub q.x d * ((q.x + d) % ecP) % ecP) % ecP
    let x := ecSub (a * a % ecP) (8 * b % ecP)
    { x := x
      y := ecSub (a * ecSub (4 * b % ecP) x % ecP) (8 * (g * g % ecP) % ecP)
      z := 2 * (q.y * q.z % ecP) % ecP }

/-- The sum of two points. -/
def EcPoint.add (q r : EcPoint) : EcPoint :=
  if q.z = 0 then r
  else if r.z = 0 then q
  else
    let z1 := q.z * q.z % ecP
    let z2 := r.z * r.z % ecP
    let u1 := q.x * z2 % ecP
    let u2 := r.x * z1 % ecP
    let s1 := q.y * (r.z * z2 % ecP) % ecP
    let s2 := r.y * (q.z * z1 % ecP) % ecP
    if u1 = u2 then (if s1 = s2 then q.dbl else .inf)
    else
      let h := ecSub u2 u1
      let w := ecSub s2 s1
      let h2 := h * h % ecP
      let h3 := h2 * h % ecP
      let v := u1 * h2 % ecP
      let x := ecSub (ecSub (w * w % ecP) h3) (2 * v % ecP)
      { x := x
        y := ecSub (w * ecSub v x % ecP) (s1 * h3 % ecP)
        z := q.z * r.z % ecP * h % ecP }

/-- A power modulo a number, from bit k − 1 of the exponent down. -/
def powMod (m b e : Nat) : Nat → Nat → Nat
  | 0, acc => acc
  | k + 1, acc => powMod m b e k (if e.testBit k then acc * acc % m * b % m else acc * acc % m)

/-- u times the base point plus v times a point, from bit k − 1 down. -/
def ecCombine (u v : Nat) (q both : EcPoint) : Nat → EcPoint → EcPoint
  | 0, acc => acc
  | k + 1, acc =>
    let d := acc.dbl
    ecCombine u v q both k (match u.testBit k, v.testBit k with
      | true, true => d.add both
      | true, false => d.add (.affine ecG)
      | false, true => d.add q
      | false, false => d)

/-- Whether an affine point lies on the curve. -/
def onCurve (q : Nat × Nat) : Bool :=
  q.1 < ecP && q.2 < ecP && q.2 * q.2 % ecP == (q.1 * (q.1 * q.1 % ecP) + (ecP - 3) * q.1 + ecB) % ecP

/-- Bytes as a number, the first most significant. -/
def bigEndian (bs : List Byte) : Nat := bs.foldl (fun n b => n * 256 + b.toNat) 0

/-- Whether a signature (r, s) of a message verifies under a public key. -/
def ecdsaOk (key sig : Nat × Nat) (message : List Byte) : Bool :=
  let (r, s) := sig
  if !onCurve key || r = 0 || s = 0 || ecN ≤ r || ecN ≤ s then false
  else
    let e := bigEndian (sha512 message)
    let w := powMod ecN s (ecN - 2) 521 1
    let q := EcPoint.affine key
    let x := ecCombine (e * w % ecN) (r * w % ecN) q (q.add (.affine ecG)) 521 .inf
    x.z != 0 && (x.x == r * (x.z * x.z % ecP) % ecP ||
      (r + ecN < ecP && x.x == (r + ecN) * (x.z * x.z % ecP) % ecP))

end Sys2Proof.Machine
end

