-- ==== Sys2Proof/Machine/Meet.lean ====
section
/-! DEFINITION. Meet packages and the checks of a load (R263, R264). -/

namespace Sys2Proof

open Sys2Proof.Machine

/-! ### The signature and the parts of a package (R263, R305) -/

/-- The bytes of a number, the first most significant. -/
def beBytes (n x : Nat) : List Byte := (natToLeBytes n x).reverse

/-- A number as eight bytes. -/
def packNum (n : Nat) : List Byte := natToLeBytes 8 n

/-- A list as its length and its entries. -/
def packList {α : Type} (f : α → List Byte) (l : List α) : List Byte := packNum l.length ++ l.flatMap f

/-- What may be absent as a list. -/
def packOpt {α : Type} (f : α → List Byte) (x : Option α) : List Byte := packList f x.toList

/-- Bytes with their length. -/
def packBytes (l : List Byte) : List Byte := packNum l.length ++ l

/-- The number of a direction. -/
def SfDir.num : SfDir → Nat
  | .read => 0 | .write => 1 | .both => 2

/-- The number of a progress class. -/
def PClass.num : PClass → Nat
  | .concurrent => 0 | .parallel => 1 | .weak => 2

/-- The number of a loop level's kind. -/
def LevelKind.num : LevelKind → Nat
  | .d => 0 | .c => 1 | .t => 2

/-- A Strideform stream in a package. -/
def SfStream.pack (x : SfStream) : List Byte :=
  packNum x.base ++ packList packNum x.ext ++ packList (fun i => packNum (BitVec.ofInt 64 i).toNat) x.str ++
  packNum x.tag.toNat ++ packNum x.dir.num ++ packNum x.reg.val

/-- A Strideform kernel in a package. -/
def SfKernel.pack (k : SfKernel) : List Byte :=
  packBytes k.bytes ++ packList SfStream.pack k.streams ++ packList (fun w => packNum w.toNat) k.body ++ packOpt packNum k.cap

/-- A split in a package. -/
def Split.pack (x : Split) : List Byte := packNum x.vlen ++ packNum x.tcmKiB

/-- A heat descriptor in a package. -/
def HeatDesc.pack (d : HeatDesc) : List Byte :=
  packList (fun l => packNum l.kind.num ++ packNum l.extent) d.loops ++ packNum d.cores ++ packNum d.perCore ++ packNum d.cls.num ++
  packNum d.prio ++ packNum d.det.toNat ++ packOpt Split.pack d.splitM ++ packOpt Split.pack d.splitE ++ packNum d.scratch ++
  packNum d.dsmWays ++ packNum d.entry.toNat ++ packOpt packNum d.strideform ++ packOpt (fun h => packNum h.toNat) d.handler ++
  packList packNum d.barcnt

/-- A region with its initial image in a package. -/
def packRegion (fields : List Nat) (image : List Byte) : List Byte := fields.flatMap packNum ++ packBytes image

/-- A distributed region in a package. -/
def Region.pack (g : Region) : List Byte :=
  packNum g.num ++ packNum g.size ++ packNum g.lb ++ packNum g.table ++ packList packNum g.owners

/-- The sections between the header and the signature, in the order of R263: kernels, heat descriptors, launch graph, memory
plan. -/
def Package.sections (g : Package) : List (List Byte) :=
  [packList (fun x => packNum x.1 ++ packBytes x.2) g.images ++ packList SfKernel.pack g.kernels,
   packList HeatDesc.pack g.heats,
   packList (fun d => packNum d.launched.toNat ++ packList packNum d.preds) g.heats,
   packList (fun x => packRegion [x.base, x.size, x.align] x.image) g.globals ++
   packList (fun x => packRegion [x.heat, x.base, x.size, x.align] x.image) g.dsm ++
   packList (fun x => packRegion [x.base, x.size, x.die, x.slice] x.image) g.pinned ++ packList Region.pack g.regions]

/-- The bytes of every section before the signature (R263), each number in eight bytes; the header gives the package version, the
meet's name, the numeric behaviour version and the sizes of the sections, which follow it (DESIGN CHOICE, log 66). -/
def Package.bytes (g : Package) : List Byte :=
  packNum g.pkgVersion ++ packBytes g.name ++ packNum g.version ++ packList (fun x => packNum x.length) g.sections ++
  g.sections.flatten

/-- What the signature of a certificate is over: the key, and what else it says (log 78). -/
def Cert.signed (c : Cert) : List Byte := beBytes 66 c.key.1 ++ beBytes 66 c.key.2 ++ c.body

/-- A certificate chain: each certificate is signed by the next one's key, and the last key is one the partition trusts. -/
def chainOk (trusted : List (Nat × Nat)) : List Cert → Bool
  | [] => false
  | [c] => trusted.contains c.key
  | c :: d :: t => ecdsaOk d.key c.sig c.signed && chainOk trusted (d :: t)

/-- The signature and the certificate chain of a package (R263, R264). -/
def Package.signedFor (g : Package) (trusted : List (Nat × Nat)) : Bool :=
  chainOk trusted g.chain && (g.chain.head?.map fun c => ecdsaOk c.key g.sig g.bytes).getD false

/-- The addresses a package gives for runners to start at or to trap to hold an instruction (R65). -/
def Package.entriesOk (g : Package) : Bool :=
  g.exitStub.toNat % 8 == 0 && g.defaultHandler.toNat % 8 == 0 && g.sfBase % 8 == 0

/-- The kernel a heat descriptor names is in the package, and is one (R266). -/
def Package.kernelsOk (g : Package) : Bool :=
  g.kernels.all SfKernel.ok && g.heats.all fun d => (d.strideform.map fun n => decide (n < g.kernels.length)).getD true

/-- The bytes of a region's owner table: 16 bits for each block (R305). -/
def Region.tableBytes (g : Region) : List Byte := g.owners.flatMap (natToLeBytes 2)

/-- The bytes a plan puts at physical addresses: its images, and the owner tables of its distributed regions. -/
def Package.physical (g : Package) : List (Nat × List Byte) := g.images ++ g.regions.map fun r => (r.table, r.tableBytes)

/-- A global region of a plan: aligned as it says, its image no larger than it is. -/
def PlanRegion.ok (g : PlanRegion) : Bool := 0 < g.align && g.base % g.align == 0 && g.image.length ≤ g.size && g.base + g.size ≤ 2 ^ 56

end Sys2Proof

namespace Sys2Proof.Machine

/-! ### Heat descriptors and launch graphs (R264 checks 3 and 4) -/

/-- The splits of R27. -/
def splitFits (sp : Split) (m : Bool) : Bool :=
  if m then [256, 512, 1024, 2048].contains sp.vlen && 64 ≤ sp.tcmKiB && sp.tcmKiB ≤ 512 && sp.tcmKiB % 64 == 0
  else [128, 256, 512].contains sp.vlen && 32 ≤ sp.tcmKiB && sp.tcmKiB ≤ 128 && sp.tcmKiB % 16 == 0

/-- A split of a class, if there is one, is allowed. -/
def splitOk (o : Option Split) (m : Bool) : Bool := (o.map fun sp => splitFits sp m).getD true

/-- The conditions on a loop table (R62, R249). -/
def loopsOk (ls : List Level) (size : Nat) : Bool :=
  1 ≤ ls.length && ls.length ≤ 4 && ls.all (fun l => 1 ≤ l.extent && l.extent < 2 ^ 32) &&
  ls.any (fun l => l.kind == .c) && (ls.drop 1).all (fun l => l.kind != .d) && cProduct ls % size == 0

/-- A heat descriptor by R27, R62, R249, R253 and R294, its kernel at an address of an instruction (R65). -/
def heatOk (d : HeatDesc) : Bool :=
  1 ≤ d.cores && d.cores ≤ 8 && (d.cores ≤ 4 || d.splitM.isNone) && 1 ≤ d.perCore && d.perCore ≤ 4 &&
  (d.splitM.isSome || d.splitE.isSome) && splitOk d.splitM true && splitOk d.splitE false &&
  loopsOk d.loops (teamSize d) && d.prio ≤ 7 && d.scratch % 512 == 0 &&
  (d.splitM.isNone || d.scratch ≤ scratchCap 0) && (d.splitE.isNone || d.scratch ≤ scratchCap 14) && d.dsmWays ≤ 10 &&
  d.entry.toNat % 8 == 0 && (d.handler.map fun h => h.toNat % 8 == 0).getD true && d.barcnt.length ≤ 16 && d.barcnt.all (fun n => 1 ≤ n && n ≤ 255) && d.preds.length ≤ 16 && (!d.launched || d.preds.isEmpty)

/-- The nodes of a launch graph that can fire once some have. -/
def readyNodes (ds : List HeatDesc) (done : List Nat) : List Nat :=
  (List.range ds.length).filter fun i => ((ds[i]?).map fun d => d.preds.all done.contains).getD false

/-- A launch graph without a cycle, over the meet's own heats (R63, R264): every node fires at last. -/
def graphOk (ds : List HeatDesc) : Bool :=
  ds.all (fun d => d.preds.all fun j => decide (j < ds.length)) &&
  ((List.range ds.length).foldl (fun done _ => readyNodes ds done) []).length == ds.length

/-! ### The memory plan (R264 check 5) -/

/-- Bytes of module memory on the dies of a partition (log 81). -/
def Part.holds (p : Part) (pa n : Nat) : Bool :=
  pa + n ≤ 2 ^ 41 && p.dieSlots.contains (pa / 2 ^ 38) && p.dieSlots.contains ((pa + max 1 n - 1) / 2 ^ 38)

/-- A distributed region of a plan (R305): its number, its block exponent, an owner for every block, its table. -/
def Part.regionOk (p : Part) (g : Region) : Bool :=
  g.num ≤ 15 && 16 ≤ g.lb && g.lb ≤ 30 && 0 < g.size && g.size ≤ 2 ^ 50 && g.size ≤ g.owners.length * 2 ^ g.lb &&
  g.owners.all (fun m => m < 4096) && g.table % 2 == 0 && p.holds g.table (2 * g.owners.length)

/-- Memory with the images of a plan written. -/
def planMem (mem : List Host.Cell) (g : Package) : List Host.Cell :=
  g.physical.foldl (fun mem x => cellsPut mem (cellsFrom x.1 x.2)) mem

/-- Whether a page of module memory on a die lies behind an address, by a plan's page tables. -/
def homedOn (mem : List Host.Cell) (root : Word) (die va : Nat) : Bool :=
  match walk mem root va with
  | .leaf e size => let k := leafKey e size va; isModuleKey k && k / 2 ^ 38 == die
  | _ => false

/-- A pinned region of a plan (R285): aligned to 64 KiB, on a die of the partition, every page backed by memory of that die. -/
def Part.pinnedOk (p : Part) (mem : List Host.Cell) (root : Word) (g : Pinned) : Bool :=
  g.base % 2 ^ 16 == 0 && g.size % 2 ^ 16 == 0 && g.image.length ≤ g.size && g.slice < 3072 && p.dieSlots.contains g.die &&
  (List.range (g.size / 2 ^ 16)).all fun i => homedOn mem root g.die (g.base + i * 2 ^ 16)

/-- A DSM region of a plan: inside the DSM of a heat of the meet, aligned as it says, its image no larger than it is. -/
def DsmRegion.ok (ds : List HeatDesc) (g : DsmRegion) : Bool :=
  0 < g.align && g.base % g.align == 0 && g.image.length ≤ g.size &&
  ((ds[g.heat]?).map fun d => decide (g.base + g.size ≤ d.dsmWays * 24 * 2 ^ 20)).getD false

/-- Whether a memory plan fits the partition (R264 check 5, log 81). -/
def Part.planOk (p : Part) (mem : List Host.Cell) (g : Package) : Bool :=
  g.ptRoot.toNat % 2 ^ 16 == 0 && g.ptRoot.toNat < 2 ^ 41 && g.images.all (fun x => p.holds x.1 x.2.length) &&
  g.globals.all PlanRegion.ok && g.dsm.all (DsmRegion.ok g.heats) && g.regions.all p.regionOk && (g.regions.map (·.num)).eraseDups == g.regions.map (·.num) &&
  g.pinned.all (p.pinnedOk mem g.ptRoot)

/-- The checks of R264 on a meet, in its order. -/
def State.meetOk (s : State) (p : Part) (g : Package) : Bool :=
  g.signedFor p.record.trusted && g.version == 3 && (g.heats.all heatOk && g.entriesOk && g.kernelsOk) && graphOk g.heats &&
  p.planOk (planMem s.mem g) g

end Sys2Proof.Machine
end

