-- ==== Sys2Proof/Machine/Sched.lean ====
section
/-! DEFINITION. The scheduler's events: a team dispatched or resumed (R262, R337), a starving runner (R257), a queue
aged (R262). -/

namespace Sys2Proof.Machine

/-- Whether the scheduler places teams now: not at droop level 3, nor during a checkpoint (R257, R323, R355). -/
def State.scheduling (s : State) : Bool := s.pacer.droop.level < 3 && !s.pacer.flash.writing

/-- The level a team stands at in its queue, as an offer. -/
def State.ownOffer (s : State) (t : Team) : Offer := { queue := t.queue, team := t.id, level := s.epri t.id }

/-- A team that waits for a place. -/
def Team.unplaced (t : Team) : Bool := t.stat == .queued || t.stat == .saved

/-- A team put at a place: for the first time, or again. -/
def State.putTeam (s : State) (pkg : Package) (h : Heat) (t : Team) (pl : Place) : State :=
  if t.stat = .saved then s.resumeAt h t pl
  else match classSplit h t (isM pl.cluster) with
  | some sp => s.startTeam pkg h t pl sp
  | none => s

/-- The team a place is wanted for: its partition's record, meet, heat and team. -/
def State.wanted (s : State) (t : TeamId) : Option (Part × Package × Heat × Team) :=
  (s.part? t.part).bind fun p => p.loaded.bind fun g => (s.heat? t.part t.heat).bind fun h => (s.team? t).map fun u => (p, g, h, u)

/-- Whether a team would run at a place once cores that other splits hold there are drained (R254): it has a split there, and
the place names cores of a cluster it may have. -/
def State.drainsAt (s : State) (p : Part) (h : Heat) (t : Team) (pl : Place) : Option Split :=
  if p.record.clusters.contains (pl.die, pl.cluster) && s.dieOk p h t pl.die && pl.cores.length == h.desc.cores &&
      pl.cores.all (fun c => (coresOf pl.die pl.cluster).any fun k => k.core == c && !s.coreRetired k && !s.drained k t.id) then
    classSplit h t (isM pl.cluster)
  else none

/-- The first of the offers that cannot be placed now has cores drained for it at a place it may have (R254). -/
def State.drainFor (s : State) (p : Part) (stat : TStat) (only : Option TeamId) (pl : Place) : State :=
  let os := (s.offers p).filter fun o => !s.placeable p o.team [] && (only.map fun x => x == o.team).getD true
  match os.foldl (fun (b : Option Offer) (o : Offer) => match b with
      | none => some o
      | some x => if s.goesFirst p o x then some o else some x) none with
  | none => s
  | some o =>
    match s.wanted o.team with
    | some (p, _, h, t) => if t.stat != stat then s else match s.drainsAt p h t pl with
      | some sp => s.drainCores t.id pl sp
      | none => s
    | none => s

/-- The team that goes next is placed, if it stands as given and the place is one it may have (R253, R262); cores of another
split at the place are drained for a team that cannot be placed yet (R254). -/
def State.placeNext (s : State) (part : Nat) (stat : TStat) (only : Option TeamId) (pl : Place) : Host.Outcome State Fault Refusal :=
  match s.part? part with
  | none => .next s
  | some p =>
    if !s.scheduling then .next s
    else match (s.winner p).bind fun o => (s.wanted o.team).map fun x => (o, x) with
    | some (o, p, g, h, t) =>
      if t.stat == stat && (only.map fun x => x == t.id).getD true && s.placeOk p h t pl then
        .next ((s.takeOffer p o).putTeam g h t pl)
      else .next (s.drainFor p stat only pl)
    | none => .next (s.drainFor p stat only pl)

/-- The event DISPATCH (R253, R262). -/
def execDispatch (part : Nat) (at_ : Place) (s : State) : Host.Outcome State Fault Refusal := s.placeNext part .queued none at_

/-- The event TEAM_RESUME (R336, R337). -/
def execTeamResume (t : TeamId) (at_ : Place) (s : State) : Host.Outcome State Fault Refusal :=
  s.placeNext t.part .saved (some t) at_

/-- Since when a runner of a team without a place has been runnable (R257), if it is: since its heat was admitted, before its
team's first dispatch; since it stopped or its wait ended, when it is saved outside a wait. -/
def State.starvedSince (s : State) (r : RunnerId) (h : Heat) : Option Nat :=
  match s.runner? r with
  | none => some h.admitted
  | some x => if x.stat != .saved then none else match x.wait with
    | none => some x.readySince
    | some w => w.endable

/-- A team put in its place among victims. -/
def State.insertVictim (s : State) (v : Team) : List Team → List Team
  | [] => [v]
  | x :: t => if victimBefore (s.victimKey v) (s.victimKey x) then v :: x :: t else x :: s.insertVictim v t

/-- The shortest beginning of a list of victims whose going makes room on a cluster. -/
def State.roomAfter (s : State) (p : Part) (h : Heat) (t : Team) (c : Nat × Nat) : List TeamId → List Team → List TeamId
  | _, [] => []
  | gone, v :: rest =>
    if s.clusterTakes p h t c.1 c.2 (gone ++ [v.id]) then gone ++ [v.id]
    else s.roomAfter p h t c (gone ++ [v.id]) rest

/-- The victims on a cluster in their order, concurrent ones among them or not. -/
def State.victimsAt (s : State) (p : Part) (t : TeamId) (all : Bool) (c : Nat × Nat) : List Team :=
  let may (v : Team) : Bool := all || ((s.heat? v.id.part v.id.heat).map fun g => g.desc.cls != .concurrent).getD true
  ((s.residents p.idx).filter fun v => v.id != t && may v &&
    (v.place.map fun q => q.die == c.1 && q.cluster == c.2).getD false).foldr s.insertVictim []

/-- Those of some victims on a cluster that make room there: the first that is enough, else the first ones that are enough together;
teams that already stop are gone first. -/
def State.roomBy (s : State) (p : Part) (h : Heat) (t : Team) (c : Nat × Nat) (vs : List Team) : List TeamId :=
  match vs.find? fun v => s.clusterTakes p h t c.1 c.2 (v.id :: s.leavers p.idx) with
  | some v => [v.id]
  | none => s.roomAfter p h t c (s.leavers p.idx) vs

/-- The victims that make room on a cluster (R257, R260), no concurrent one while others make room on any cluster. Where the team
can be placed now, or when teams that already stop are gone, there are none. -/
def State.victimsOn (s : State) (p : Part) (h : Heat) (t : Team) (pl : Place) : List TeamId :=
  if s.placeable p t.id [] || s.placeable p t.id (s.leavers p.idx) then []
  else
    let c := (pl.die, pl.cluster)
    let weak (c : Nat × Nat) : List TeamId := s.roomBy p h t c (s.victimsAt p t.id false c)
    if !(weak c).isEmpty then weak c
    else if p.record.clusters.any fun d => !(weak d).isEmpty then []
    else s.roomBy p h t c (s.victimsAt p t.id true c)

/-- The event STARVATION_TIMER (R257): 2 ms runnable without running, the runner's team is placed, or room is made for it. -/
def execStarvationTimer (r : RunnerId) (at_ : Place) (s : State) : Host.Outcome State Fault Refusal :=
  match s.wanted (teamOf r) with
  | some (p, g, h, t) =>
    if s.scheduling && h.desc.cls == .concurrent && t.unplaced && r.runner < teamSize h.desc &&
        ((s.starvedSince r h).map fun n => decide (n + 200000 ≤ s.time)).getD false then
      if s.placeOk p h t at_ then .next ((s.takeOffer p (s.ownOffer t)).putTeam g h t at_)
      else .next ((s.victimsOn p h t at_).foldl State.askStop s)
    else .next s
  | none => .next s

/-- A queue whose head has waited 50 ms (R262). -/
def WorkQueue.age (q : WorkQueue) (home : Nat) : WorkQueue :=
  { q with aged := if home + q.aged < 7 then q.aged + 1 else q.aged, since := q.since + 5000000 }

/-- The event QUEUE_AGING (R262). -/
def execQueueAging (part queue : Nat) (s : State) : Host.Outcome State Fault Refusal :=
  match s.part? part with
  | some p =>
    match p.queues[queue]? with
    | some q =>
      if !q.teams.isEmpty && q.since + 5000000 ≤ s.time then .next (s.setPart (p.mapQueue queue fun q => q.age (queue / 8)))
      else .next s
    | none => .next s
  | none => .next s

end Sys2Proof.Machine
end

