-- ==== Sys2Proof/Machine/Tlbinv.lean ====
section
/-! DEFINITION. TLBINV (R106, R299): what it drops, and the accesses it waits for. -/

namespace Sys2Proof.Machine

/-- The memory, as first key and size, that the translations a TLBINV drops lead to: pages, and blocks of a distributed region at
their owners. -/
def State.droppedFrames (s : State) (part : Nat) (va : Option Nat) : List (Nat × Nat) :=
  let frame (e : TlbEntry) : Nat × Nat :=
    if e.owner then ((Loc.peer e.leaf.toNat e.page).key, e.size) else (leafKey e.leaf e.size 0, e.size)
  ((s.cores.flatMap (·.tlb) ++ s.allRunners.flatMap (·.pages)).filterMap fun e =>
    if e.dropped part va then some (frame e) else none).eraseDups

/-- Whether an access that waits for its answer goes to some keys. -/
def Ask.onKeys (on : Nat → Bool) : Ask → Bool
  | .peer m a => on (Loc.peer m (accAddr a)).key
  | .host a => on (Loc.host (accAddr a)).key
  | .lists l => l.any fun x => x.2.any fun a => on (Loc.peer x.1 (accAddr a)).key
  | _ => false

/-- Whether a store goes to some keys. -/
def StoreAct.onKeys (on : Nat → Bool) (a : StoreAct) : Bool := a.cells.any fun c => on c.1

/-- Whether a copy does. -/
def CopyRec.onKeys (on : Nat → Bool) (c : CopyRec) : Bool := c.elems.any fun e => on e.1 || on e.2

/-- Whether a held store or action does. -/
def VItem.onKeys (on : Nat → Bool) : VItem → Bool
  | .store a => a.onKeys on
  | .copy c => c.onKeys on
  | .bmclr k _ | .line k _ => on k
  | _ => false

/-- Whether accesses of a runner through some keys wait for its vector side: held ones, and streams. -/
def Runner.heldOn (x : Runner) (on : Nat → Bool) : Bool :=
  x.vq.any (VItem.onKeys on) || x.streams.any fun t => t.recs.any fun r => r.2.any fun f => on f.1

/-- Whether accesses of a runner through some keys have still to perform. -/
def Runner.accesses (x : Runner) (on : Nat → Bool) : Bool :=
  x.heldOn on || (x.strip.buf ++ x.share).any (StoreAct.onKeys on) || x.asks.any (Ask.onKeys on)

/-- Whether another runner's accesses through some keys, or the copies of any, have still to perform (R299): a TLBINV does not
wait for a copy of its own that waits for its strip's commit (log 77). -/
def State.underWay (s : State) (on : Nat → Bool) : Bool :=
  (s.rs.any fun x => x.2.accesses on) ||
  (s.cores.any fun c => c.att.any fun a => a.ops.any fun o => o.runner != s.rid && o.cells.any fun c => on c.1) ||
  s.copies.any fun c => !(c.waits && c.runner == s.rid) && c.onKeys on

/-- The runner's own accesses through some keys perform, but for those its strip's commit is to bring (log 77): its share drains
and its tile stores land. -/
def State.settleOwn (s : State) (on : Nat → Bool) : State :=
  let me := s.rid
  let s := if s.r.share.any (StoreAct.onKeys on) then s.drainShare else s
  s.landOps s.r.ident.core (fun o => o.runner == me && !o.prot && o.cells.any fun c => on c.1) (fun _ => true)

/-- tlbinv (R106, R299): it waits, not complete yet, while accesses translated by what it drops are under way. -/
def execTlbinv (sa : SR) (all : Bool) (s : State) : Host.Outcome State Fault Refusal :=
  outcome (s.privileged (.tlbinv sa all) fun s =>
    let va := if all then none else some (s.tableAddr (s.reg sa).toNat)
    let frames := s.droppedFrames s.rid.part va
    let on (k : Nat) : Bool := frames.any fun f => inKeys f.1 f.2 k
    if s.r.heldOn on then .error (.queue 0, s)
    else if s.underWay on then .ok ((), s)
    else .ok ((), ((s.settleOwn on).dropTlb s.rid.part va).advance))

end Sys2Proof.Machine
end

