-- ==== Sys2Proof/Machine/HostEvents.lean ====
section
/-! DEFINITION. What the host orders: the VF registers (R345), the mailbox (R344, R346), meets (R263–R265), split of duties
(R357), the attestation report (R353). -/

namespace Sys2Proof.Machine

/-! ### What the host reaches (R345, R346, R355) -/

/-- What the host sends, while the link is not in L2 (R355). -/
def State.fromHost (s : State) (k : State → State) : Host.Outcome State Fault Refusal :=
  .next (if s.pacer.flash.linkOff then s else k s)

/-- A command's status. -/
def State.status (s : State) (code : Nat) : State := s.emit (.status code)

/-- Whether a mailbox command is still under way: a MIGRATE whose page has not moved yet (R303). -/
def State.mailboxBusy (s : State) : Bool := s.parts.any fun p => p.moves.any (·.host)

/-- A mailbox command (R346): one that comes while another is under way finds the mailbox busy (DESIGN CHOICE, log 96). -/
def State.mailbox (s : State) (k : State → State) : Host.Outcome State Fault Refusal :=
  s.fromHost fun s => if s.mailboxBusy then s.status 2 else k s

/-- A command by R346: a bad argument, a state that forbids it, content that fails its checks; full function is needed (R350). -/
def State.order (s : State) (bad busy refused : Bool) (k : State) : State :=
  if bad then s.status 3 else if s.pacer.stage != .d || busy then s.status 2 else if refused then s.status 1 else k

/-- A command aimed at a partition: one that CONFIG has not made is a bad argument. -/
def State.forPart (s : State) (part : Nat) (k : Part → State → State) : Host.Outcome State Fault Refusal :=
  s.mailbox fun s => match s.known? part with
    | some p => k p s
    | none => s.status 3

/-! ### VF registers (R345) -/

/-- A partition nothing has configured: the registers of its VF are there (R345). -/
def Part.blank (idx : Nat) : Part :=
  { idx := idx, known := false, queues := Vector.replicate 64 {}, pointers := Vector.replicate 8 0 }

/-- The partition of a VF, of which there are 16 (R343). -/
def State.vf? (s : State) (n : Nat) : Option Part := if n < 16 then some ((s.part? n).getD (Part.blank n)) else none

/-- RUN: a heat of the partition lives or awaits its admission. -/
def State.running (s : State) (p : Part) : Bool := s.heats.any (fun h => h.part == p.idx) || !p.admissions.isEmpty

/-- VSTATUS as the host reads it. -/
def State.vstatus (s : State) (p : Part) : Nat :=
  p.loaded.isSome.toNat + 2 * (s.running p).toNat + 4 * p.err.toNat + 16 * stageCode s.pacer.stage + 256 * p.errcode

/-- The first reason to refuse a START, by its ERRCODE. -/
def State.startRefusal (s : State) (p : Part) (value : Word) : Option Nat :=
  if value >>> 1 != 0 then some 5
  else if s.pacer.stage != .d then some 1
  else if p.loaded.isNone then some 2
  else if s.running p then some 3
  else if p.argbase.toNat % 8 != 0 then some 4
  else none

/-- The event START (R345): reserved bits are refused, GO = 0 does nothing, an accepted GO latches ARGBASE and fires the
graph's roots (R265). -/
def execStart (part : Nat) (value : Word) (s : State) : Host.Outcome State Fault Refusal :=
  s.fromHost fun s => match s.vf? part with
  | none => s
  | some p =>
    if value = 0 then s
    else match s.startRefusal p value with
    | some c => s.setPart { p with err := true, errcode := c }
    | none => s.setPart { p with
        err := false, errcode := 0, nodeArgs := p.argbase
        nodes := List.replicate ((p.loaded.map (·.heats.length)).getD 0) .idle }

/-- A partition with another WAYMASK on a die (R288). -/
def Part.withMask (p : Part) (die : Nat) (m : BitVec 16) : Part :=
  { p with waymask := (p.waymask ++ List.replicate (die + 1 - p.waymask.length) 0).set die m }

/-- Whether an offset is that of a die's mask in a VF's page, which the model chooses: 0x100 + 8 × die (log 80). -/
def isMaskReg (offset : Nat) : Bool := 0x100 ≤ offset && offset < 0x140 && offset % 8 == 0

/-- The event REGISTER_WRITE (R345): ARGBASE is written, or the mask of a die, which the host changes beside the runners (R289); no
other register of the page changes by a write alone. -/
def execRegisterWrite (part offset : Nat) (value : Word) (s : State) : Host.Outcome State Fault Refusal :=
  s.fromHost fun s => match s.vf? part with
  | none => s
  | some p =>
    if offset = 8 then s.setPart { p with argbase := value }
    else if isMaskReg offset then s.setPart (p.withMask ((offset - 0x100) / 8) (value.setWidth 16))
    else s

/-- A register of a VF's page read: VSTATUS, ARGBASE or a die's mask; what any other offset reads as is open (log 80). -/
def State.readRegister (s : State) (p : Part) (offset : Nat) : List Byte × State :=
  if offset = 0 then (n8 (s.vstatus p), s)
  else if offset = 8 then (b8 p.argbase, s)
  else if isMaskReg offset then (n8 ((p.waymask[(offset - 0x100) / 8]?).getD 0).toNat, s)
  else s.freeBytes 8

/-! ### The host as a memory agent (R269, R333, R343) -/

/-- What the host may send (R343): reads, writes, and the atomics that PCI Express carries, of 32 and 64 bits, of which the
module is the completer. -/
def hostMay : OutAccess → Bool
  | .merge .. | .line .. | .attest _ | .register _ | .record _ => false
  | .amo a op w _ _ => (w == 4 || w == 8) && a.toNat % w == 0 && ((amoOfCode op).map hostAmo).getD false
  | _ => true

/-- What the host gets: module memory, which it names by its physical address, a register of a VF, a record of the partition's
pre-emption pool. -/
def State.hostAccess (s : State) (part : Nat) (acc : OutAccess) : Reply × State :=
  match acc with
  | .register off => match s.vf? part with
    | some p => let (bs, s) := s.readRegister p off; (.data bs, s)
    | none => (.access, s)
  | .record t =>
    match (s.part? part).bind fun p => p.pool.find? fun x => x.1 == t with
    | some x => (.data x.2, s)
    | none => (.access, s)
  | acc =>
    if accAddr acc + accLen acc ≤ 2 ^ 41 && hostMay acc then s.accessAt part (Loc.module (accAddr acc)).key acc else (.access, s)

/-- The event HOST_MEMORY_ACCESS (R269). -/
def execHostMemoryAccess (part : Nat) (acc : OutAccess) (s : State) : Host.Outcome State Fault Refusal :=
  s.fromHost fun s => let (r, s) := s.hostAccess part acc; s.emit (.hostAnswer part r)

/-! ### Configuration (R344, R346) -/

/-- The ranges of a partition record (R342, R344): one mask for each die. -/
def recordOk (r : PartRecord) : Bool :=
  r.dies.all (fun d => d < 8) && r.dies.eraseDups == r.dies &&
  r.clusters.all (fun c => r.dies.contains c.1 && c.2 < 18) && r.clusters.eraseDups == r.clusters && r.share ≤ 1000 &&
  [1, 2, 4, 8].contains r.octcap && r.waymask.length == 8 && r.prio ≤ 7 && r.hotbase < 2 ^ 41 &&
  600 ≤ r.scrubSram && r.scrubSram ≤ 86400 && 3600 ≤ r.scrubLpddr && r.scrubLpddr ≤ 604800 && 1 ≤ r.fdead && r.fdead ≤ 60000

/-- Whether a record conflicts with another partition (R311, R344): shares above 1,000, a cluster owned twice. -/
def State.conflicts (s : State) (part : Nat) (r : PartRecord) : Bool :=
  let others := s.parts.filter fun p => p.idx != part
  1000 < (others.map fun p => p.record.share).sum + r.share ||
  others.any fun p => p.record.clusters.any fun c => r.clusters.contains c

/-- A partition with a new record: its measurement chain starts afresh (R352), its fill masks are the record's (R293). -/
def Part.configured (p : Part) (r : PartRecord) : Part :=
  { p with known := true, record := r, chain := List.replicate 64 0, waymask := r.waymask }

/-- The command CONFIG (R344): also at stage C. -/
def execConfig (part : Nat) (rec : PartRecord) (s : State) : Host.Outcome State Fault Refusal :=
  s.mailbox fun s => match s.vf? part with
  | none => s.status 3
  | some p =>
    if !recordOk rec || s.conflicts part rec then s.status 3
    else if (s.pacer.stage != .c && s.pacer.stage != .d) || p.loaded.isSome then s.status 2
    else ((s.setPart (p.configured rec)).reallocateAll).status 0

/-! ### Meets (R263, R264) -/

/-- A collective group LOADMEET names (R346). -/
def groupOk (g : Option (Nat × List Nat)) : Bool :=
  (g.map fun x => x.1 < 2 ^ 16 && x.2.length ≤ 4096 && x.2.all fun m => decide (m < 4096)).getD true

/-- Bytes the loader writes for a partition: to memory, no line of L2 being filled for them (R289, log 88). -/
def State.loaderWrite (s : State) (part : Nat) (cells : List Host.Cell) : State :=
  s.writeFor { part := part } (fun _ => none) false cells

/-- The images of a memory plan at physical addresses written. -/
def State.writeImages (s : State) (part : Nat) (l : List (Nat × List Byte)) : State :=
  l.foldl (fun s x => s.loaderWrite part (cellsFrom x.1 x.2)) s

/-- A byte of a global region's image written where the plan's page tables map it; one on no page of the module is lost. -/
def State.writeGlobal (s : State) (part : Nat) (root : Word) (x : Nat × Byte) : State :=
  match walk s.mem root x.1 with
  | .leaf e size => let k := leafKey e size x.1; if isModuleKey k then s.loaderWrite part [(k, x.2)] else s
  | _ => s

/-- The initial images of a memory plan (R263): those at physical addresses, then those of the global and the pinned regions. -/
def State.writePlan (s : State) (part : Nat) (g : Package) : State :=
  ((g.globals.flatMap fun x => cellsFrom x.base x.image) ++ g.pinned.flatMap fun x => cellsFrom x.base x.image).foldl
    (fun s x => s.writeGlobal part g.ptRoot x) (s.writeImages part g.physical)

/-- A slice that a meet pins serves its regions alone from now on (R285): lines the hash had put there are written back and leave
(R289, log 88). -/
def State.clearSlice (s : State) (g : Pinned) : State :=
  if s.slicePinned g.die g.slice then s
  else (s.lines.filter fun l => l.die == g.die && l.slice == g.slice).foldl (fun s l => s.flushLine l.line true) s

/-- A meet in its partition, measured (R264, R352). -/
def Part.withMeet (p : Part) (pkg : Package) (group : Option (Nat × List Nat)) : Part :=
  { p with loaded := some pkg, group := group, regions := pkg.regions, nodes := [], ended := [], trapRec := none
           chain := extendChain p.chain (pkg.bytes ++ pkg.sigBytes) }

/-- The command LOADMEET (R264, R346). -/
def execLoadmeet (part : Nat) (pkg : Package) (group : Option (Nat × List Nat)) (s : State) : Host.Outcome State Fault Refusal :=
  s.forPart part fun p s => s.order (!groupOk group) p.loaded.isSome (!s.meetOk p pkg)
    (((pkg.pinned.foldl State.clearSlice (s.writePlan part pkg)).setPart (p.withMeet pkg group)).status 0)

/-- A partition without its meet. -/
def Part.unloaded (p : Part) : Part :=
  { p with loaded := none, group := none, regions := [], nodes := [], ended := [], colls := [], images := [], imageEnd := 0, pool := [] }

/-- The command UNLOADMEET (R264). No line leaves L2 (R287). -/
def execUnloadmeet (part : Nat) (s : State) : Host.Outcome State Fault Refusal :=
  s.forPart part fun p s => s.order false (p.loaded.isNone || s.running p) false ((s.setPart p.unloaded).status 0)

/-- The command OCCUPREAD (R288). -/
def execOccupread (part die slice : Nat) (s : State) : Host.Outcome State Fault Refusal :=
  s.forPart part fun _ s => s.order (8 ≤ die || 3072 ≤ slice) false false ((s.emit (.occup (s.occup part die slice))).status 0)

/-! ### Split of duties (R357) -/

/-- Whether a page may move to a physical address of a partition (R303). -/
def Part.destOk (p : Part) (dest : Nat) : Bool := dest % 2 ^ 16 == 0 && dest + 2 ^ 16 ≤ 2 ^ 41 && p.dieSlots.contains (dest / 2 ^ 38)

/-- The command MIGRATE (R303): in host-assisted mode. A page that cannot move is refused; the status of one that can is given
when it has moved. -/
def execMigrate (part : Nat) (va : Word) (dest : Nat) (s : State) : Host.Outcome State Fault Refusal :=
  s.forPart part fun p s =>
    s.order (!p.destOk dest) (!p.assisted 1) (s.moveOf p va.toNat dest true).isNone
      (((s.moveOf p va.toNat dest true).map fun m => s.startMove p m.1).getD s)

/-- The command LEASETAB (R357): a table of at most eight priorities, one for each priority of a request (DESIGN CHOICE, log 95). -/
def execLeasetab (part : Nat) (table : List Nat) (s : State) : Host.Outcome State Fault Refusal :=
  s.forPart part fun p s => s.order (!(table.length ≤ 8 && table.all fun n => n ≤ 7)) (!p.assisted 3) false
    ((s.setPart { p with leaseTable := table }).status 0)

/-- What the host's decision gives the launcher: the identifier, or NOROOM. -/
def State.answerLaunch (s : State) (a : Admission) (ok : Bool) : State :=
  match a.launcher with
  | none => s
  | some r =>
    if s.stalledOn r = some .admission then
      s.reply r .admission (if ok then .data (natToLeBytes 8 a.heat.id) else .access)
    else s

/-- A launch-graph heat that is not admitted ends with status 1 (R265). -/
def State.failNode (s : State) (part : Nat) (h : Heat) : State :=
  match s.part? part, h.node with
  | some p, some i => s.setPart { p.setNode i (.ended 1) with ended := p.ended ++ [(h.id, 1, none)] }
  | _, _ => s

/-- An admission decided (R209, R357). -/
def State.decide (s : State) (p : Part) (a : Admission) (ok : Bool) : State :=
  let s := s.setPart { p with admissions := p.admissions.filter fun x => x.heat.id != a.heat.id }
  match (if ok then s.admitHeat a.heat else none) with
  | some t => t.answerLaunch a true
  | none => (s.failNode p.idx a.heat).answerLaunch a false

/-- The command ADMIT (R357). -/
def execAdmitHeat (part heat : Nat) (ok : Bool) (s : State) : Host.Outcome State Fault Refusal :=
  s.forPart part fun p s =>
    if !p.assisted 2 then s.status 2
    else match p.admissions.find? fun a => a.heat.id == heat with
    | some a => s.order false false false ((s.decide p a ok).status 0)
    | none => s.status 3

/-- The command SCRUBSET (R342): deadlines in seconds. -/
def execScrubset (part sram lpddr : Nat) (s : State) : Host.Outcome State Fault Refusal :=
  s.forPart part fun p s => s.order (sram < 600 || 86400 < sram || lpddr < 3600 || 604800 < lpddr) (!p.assisted 5) false
    ((s.setPart { p with record := { p.record with scrubSram := sram, scrubLpddr := lpddr } }).status 0)

/-- What a LINKCTL order finds forbidden (R347): a mode while the port is up, two lanes where the mode has four. -/
def Port.forbids (x : Port) : LinkOrder → Bool
  | .mode _ => x.down.isNone
  | .degrade => x.mode == .eth1600
  | .retrain => false

/-- A LINKCTL order carried out. -/
def State.linkOrder (s : State) (port : Nat) : LinkOrder → State
  | .mode m => s.mapPacer fun p => p.mapPort port fun x => { x with mode := m, lanes := 0 }
  | .retrain => s.portDown port true
  | .degrade => s.mapPacer fun p => p.mapPort port fun x => { x with lanes := min 2 x.lanes }

/-- The command LINKCTL (R347). -/
def execLinkctl (port : Nat) (order : LinkOrder) (s : State) : Host.Outcome State Fault Refusal :=
  s.mailbox fun s => match s.pacer.ports[port]? with
  | none => s.status 3
  | some x => s.order false (x.forbids order) false ((s.linkOrder port order).status 0)

/-- The command SHAKEDOWN (R346, R351): stage C again. -/
def execShakedown (full : Bool) (s : State) : Host.Outcome State Fault Refusal :=
  s.mailbox fun s => s.order false (s.parts.any fun p => p.loaded.isSome) false ((s.enterStageC full).status 0)

/-! ### The checkpoint (R355, R356) -/

/-- The command CHECKPOINT (R355): one under way is joined. -/
def execCheckpoint (s : State) : Host.Outcome State Fault Refusal :=
  s.mailbox fun s => s.order false false false (s.startCheckpoint.status 0)

/-- The command RESTORE (R356): busy while teams run or a checkpoint is written, and without a valid slot. -/
def execRestore (s : State) : Host.Outcome State Fault Refusal :=
  s.mailbox fun s => s.order false (s.pacer.flash.writing || !s.allSaved || s.pacer.flash.newest.isNone) false
    ((s.pacer.flash.newest.map fun c => (s.restoreFrom c).status 0).getD s)

/-! ### Attestation (R353) -/

/-- The command ATTEST (R346, R350, R353): served at every stage. -/
def execAttest (nonce : List Byte) (s : State) : Host.Outcome State Fault Refusal :=
  s.mailbox fun s => if nonce.length = 64 then (s.emit (.report (s.attestation nonce))).status 0 else s.status 3

end Sys2Proof.Machine
end

