-- ==== Sys2Proof/Machine/Dispatch.lean ====
section
/-! DEFINITION. The meaning of every instruction and event. -/

namespace Sys2Proof.Machine

/-- What an instruction does. -/
def exec (i : Instr) (s : State) : Host.Outcome State Fault Refusal :=
  match i with
  | .add sd sa b => Sys2Proof.Machine.execAdd sd sa b s
  | .sub sd sa b => Sys2Proof.Machine.execSub sd sa b s
  | .and sd sa b => Sys2Proof.Machine.execAnd sd sa b s
  | .or sd sa b => Sys2Proof.Machine.execOr sd sa b s
  | .xor sd sa b => Sys2Proof.Machine.execXor sd sa b s
  | .andn sd sa b => Sys2Proof.Machine.execAndn sd sa b s
  | .shl sd sa b => Sys2Proof.Machine.execShl sd sa b s
  | .shr sd sa b => Sys2Proof.Machine.execShr sd sa b s
  | .sar sd sa b => Sys2Proof.Machine.execSar sd sa b s
  | .rol sd sa b => Sys2Proof.Machine.execRol sd sa b s
  | .slt sd sa b => Sys2Proof.Machine.execSlt sd sa b s
  | .sltu sd sa b => Sys2Proof.Machine.execSltu sd sa b s
  | .seq sd sa b => Sys2Proof.Machine.execSeq sd sa b s
  | .sne sd sa b => Sys2Proof.Machine.execSne sd sa b s
  | .min sd sa b => Sys2Proof.Machine.execMin sd sa b s
  | .max sd sa b => Sys2Proof.Machine.execMax sd sa b s
  | .minu sd sa b => Sys2Proof.Machine.execMinu sd sa b s
  | .maxu sd sa b => Sys2Proof.Machine.execMaxu sd sa b s
  | .mul sd sa b => Sys2Proof.Machine.execMul sd sa b s
  | .mulh sd sa b => Sys2Proof.Machine.execMulh sd sa b s
  | .mulhu sd sa b => Sys2Proof.Machine.execMulhu sd sa b s
  | .div sd sa b => Sys2Proof.Machine.execDiv sd sa b s
  | .divu sd sa b => Sys2Proof.Machine.execDivu sd sa b s
  | .rem sd sa b => Sys2Proof.Machine.execRem sd sa b s
  | .remu sd sa b => Sys2Proof.Machine.execRemu sd sa b s
  | .clz sd sa => Sys2Proof.Machine.execClz sd sa s
  | .ctz sd sa => Sys2Proof.Machine.execCtz sd sa s
  | .popc sd sa => Sys2Proof.Machine.execPopc sd sa s
  | .brev sd sa => Sys2Proof.Machine.execBrev sd sa s
  | .bfx sd sa b => Sys2Proof.Machine.execBfx sd sa b s
  | .bfxu sd sa b => Sys2Proof.Machine.execBfxu sd sa b s
  | .bfi sd sa b => Sys2Proof.Machine.execBfi sd sa b s
  | .sel sd sa b => Sys2Proof.Machine.execSel sd sa b s
  | .lih sd sa imm => Sys2Proof.Machine.execLih sd sa imm s
  | .addpc sd imm => Sys2Proof.Machine.execAddpc sd imm s
  | .fadd f sd sa sb => Sys2Proof.Machine.execFadd f sd sa sb s
  | .fsub f sd sa sb => Sys2Proof.Machine.execFsub f sd sa sb s
  | .fmul f sd sa sb => Sys2Proof.Machine.execFmul f sd sa sb s
  | .ffma f sd sa sb => Sys2Proof.Machine.execFfma f sd sa sb s
  | .fdiv f sd sa sb => Sys2Proof.Machine.execFdiv f sd sa sb s
  | .fsqrt f sd sa => Sys2Proof.Machine.execFsqrt f sd sa s
  | .fmin f sd sa sb => Sys2Proof.Machine.execFmin f sd sa sb s
  | .fmax f sd sa sb => Sys2Proof.Machine.execFmax f sd sa sb s
  | .fcmp f sd sa sb cond => Sys2Proof.Machine.execFcmp f sd sa sb cond s
  | .fcvt sd sa src dst => Sys2Proof.Machine.execFcvt sd sa src dst s
  | .fclass f sd sa => Sys2Proof.Machine.execFclass f sd sa s
  | .ld size acq scope sd sa off => Sys2Proof.Machine.execLd size acq scope sd sa off s
  | .st size rel scope sb sa off => Sys2Proof.Machine.execSt size rel scope sb sa off s
  | .amoadd dbl ord scope sd sb sa => Sys2Proof.Machine.execAmoadd dbl ord scope sd sb sa s
  | .amoand dbl ord scope sd sb sa => Sys2Proof.Machine.execAmoand dbl ord scope sd sb sa s
  | .amoor dbl ord scope sd sb sa => Sys2Proof.Machine.execAmoor dbl ord scope sd sb sa s
  | .amoxor dbl ord scope sd sb sa => Sys2Proof.Machine.execAmoxor dbl ord scope sd sb sa s
  | .amomin dbl ord scope sd sb sa => Sys2Proof.Machine.execAmomin dbl ord scope sd sb sa s
  | .amomax dbl ord scope sd sb sa => Sys2Proof.Machine.execAmomax dbl ord scope sd sb sa s
  | .amominu dbl ord scope sd sb sa => Sys2Proof.Machine.execAmominu dbl ord scope sd sb sa s
  | .amomaxu dbl ord scope sd sb sa => Sys2Proof.Machine.execAmomaxu dbl ord scope sd sb sa s
  | .amoswap dbl ord scope sd sb sa => Sys2Proof.Machine.execAmoswap dbl ord scope sd sb sa s
  | .amocas dbl ord scope sd sb sa => Sys2Proof.Machine.execAmocas dbl ord scope sd sb sa s
  | .amofadd ord scope sd sb sa => Sys2Proof.Machine.execAmofadd ord scope sd sb sa s
  | .beq sa sb off => Sys2Proof.Machine.execBeq sa sb off s
  | .bne sa sb off => Sys2Proof.Machine.execBne sa sb off s
  | .blt sa sb off => Sys2Proof.Machine.execBlt sa sb off s
  | .bge sa sb off => Sys2Proof.Machine.execBge sa sb off s
  | .bltu sa sb off => Sys2Proof.Machine.execBltu sa sb off s
  | .bgeu sa sb off => Sys2Proof.Machine.execBgeu sa sb off s
  | .jal sd off => Sys2Proof.Machine.execJal sd off s
  | .jalr sd sa off => Sys2Proof.Machine.execJalr sd sa off s
  | .rdcr sd cr => Sys2Proof.Machine.execRdcr sd cr s
  | .wrcr cr sa => Sys2Proof.Machine.execWrcr cr sa s
  | .setcr sd cr sa => Sys2Proof.Machine.execSetcr sd cr sa s
  | .clrcr sd cr sa => Sys2Proof.Machine.execClrcr sd cr sa s
  | .syscall imm => Sys2Proof.Machine.execSyscall imm s
  | .brk imm => Sys2Proof.Machine.execBrk imm s
  | .fence kind scope => Sys2Proof.Machine.execFence kind scope s
  | .tlbinv sa all => Sys2Proof.Machine.execTlbinv sa all s
  | .prefetch sa l2only => Sys2Proof.Machine.execPrefetch sa l2only s
  | .cflush sa evict => Sys2Proof.Machine.execCflush sa evict s
  | .cinv sa wholeL1 => Sys2Proof.Machine.execCinv sa wholeL1 s
  | .stripBegin sd sa sb cap => Sys2Proof.Machine.execStripBegin sd sa sb cap s
  | .stripNext sd off => Sys2Proof.Machine.execStripNext sd off s
  | .qpop sd q => Sys2Proof.Machine.execQpop sd q s
  | .qpeek sd q => Sys2Proof.Machine.execQpeek sd q s
  | .qpush q sa => Sys2Proof.Machine.execQpush q sa s
  | .bq sd q off => Sys2Proof.Machine.execBq sd q off s
  | .bqz sd q off => Sys2Proof.Machine.execBqz sd q off s
  | .vadd m vd va b => Sys2Proof.Machine.execVadd m vd va b s
  | .vsub m vd va b => Sys2Proof.Machine.execVsub m vd va b s
  | .vmul m vd va b => Sys2Proof.Machine.execVmul m vd va b s
  | .vdiv m vd va b => Sys2Proof.Machine.execVdiv m vd va b s
  | .vmin m vd va b => Sys2Proof.Machine.execVmin m vd va b s
  | .vmax m vd va b => Sys2Proof.Machine.execVmax m vd va b s
  | .vfma m vd va b vc => Sys2Proof.Machine.execVfma m vd va b vc s
  | .vfms m vd va b vc => Sys2Proof.Machine.execVfms m vd va b vc s
  | .vfnma m vd va b vc => Sys2Proof.Machine.execVfnma m vd va b vc s
  | .vabs m vd va => Sys2Proof.Machine.execVabs m vd va s
  | .vneg m vd va => Sys2Proof.Machine.execVneg m vd va s
  | .vsqrt m vd va => Sys2Proof.Machine.execVsqrt m vd va s
  | .vand m vd va b => Sys2Proof.Machine.execVand m vd va b s
  | .vor m vd va b => Sys2Proof.Machine.execVor m vd va b s
  | .vxor m vd va b => Sys2Proof.Machine.execVxor m vd va b s
  | .vnot m vd va => Sys2Proof.Machine.execVnot m vd va s
  | .vshl m vd va b => Sys2Proof.Machine.execVshl m vd va b s
  | .vshr m vd va b => Sys2Proof.Machine.execVshr m vd va b s
  | .vsar m vd va b => Sys2Proof.Machine.execVsar m vd va b s
  | .vcvt m vd va => Sys2Proof.Machine.execVcvt m vd va s
  | .vcvtsr m vd va vb => Sys2Proof.Machine.execVcvtsr m vd va vb s
  | .vmov m vd va => Sys2Proof.Machine.execVmov m vd va s
  | .vbcast m vd va idx => Sys2Proof.Machine.execVbcast m vd va idx s
  | .vbcastScalar m vd ss => Sys2Proof.Machine.execVbcastScalar m vd ss s
  | .vsel m vd va b vc => Sys2Proof.Machine.execVsel m vd va b vc s
  | .vtwosum m vd va b => Sys2Proof.Machine.execVtwosum m vd va b s
  | .vscalb m vd va b => Sys2Proof.Machine.execVscalb m vd va b s
  | .vqpush m q va idx => Sys2Proof.Machine.execVqpush m q va idx s
  | .vqpop m vd q => Sys2Proof.Machine.execVqpop m vd q s
  | .vcmp m vd va b cond => Sys2Proof.Machine.execVcmp m vd va b cond s
  | .vmpopc m q va => Sys2Proof.Machine.execVmpopc m q va s
  | .vmfirst m q va => Sys2Proof.Machine.execVmfirst m q va s
  | .vmany m q va => Sys2Proof.Machine.execVmany m q va s
  | .vslideup m vd va off ins => Sys2Proof.Machine.execVslideup m vd va off ins s
  | .vslidedn m vd va off ins => Sys2Proof.Machine.execVslidedn m vd va off ins s
  | .vperm m vd va vc ins => Sys2Proof.Machine.execVperm m vd va vc ins s
  | .vcompress m vd va => Sys2Proof.Machine.execVcompress m vd va s
  | .vexpand m vd va => Sys2Proof.Machine.execVexpand m vd va s
  | .vrev m vd va => Sys2Proof.Machine.execVrev m vd va s
  | .vzip m vd va vb => Sys2Proof.Machine.execVzip m vd va vb s
  | .vunzipe m vd va vb => Sys2Proof.Machine.execVunzipe m vd va vb s
  | .vunzipo m vd va vb => Sys2Proof.Machine.execVunzipo m vd va vb s
  | .vinsert m vd ss idx => Sys2Proof.Machine.execVinsert m vd ss idx s
  | .vredsum m vd va => Sys2Proof.Machine.execVredsum m vd va s
  | .vredmin m vd va => Sys2Proof.Machine.execVredmin m vd va s
  | .vredmax m vd va => Sys2Proof.Machine.execVredmax m vd va s
  | .vredand m vd va => Sys2Proof.Machine.execVredand m vd va s
  | .vredor m vd va => Sys2Proof.Machine.execVredor m vd va s
  | .vredts m vd va vb => Sys2Proof.Machine.execVredts m vd va vb s
  | .vscan m vd va op => Sys2Proof.Machine.execVscan m vd va op s
  | .vcfgw ss => Sys2Proof.Machine.execVcfgw ss s
  | .vcfgwTag ss vd va tag => Sys2Proof.Machine.execVcfgwTag ss vd va tag s
  | .vtag vd va tag => Sys2Proof.Machine.execVtag vd va tag s
  | .vgettag m q va => Sys2Proof.Machine.execVgettag m q va s
  | .vidx m vd start step => Sys2Proof.Machine.execVidx m vd start step s
  | .vsetvl ss cap => Sys2Proof.Machine.execVsetvl ss cap s
  | .vsetvlQueue q ss cap => Sys2Proof.Machine.execVsetvlQueue q ss cap s
  | .vscget m vd va => Sys2Proof.Machine.execVscget m vd va s
  | .vscset m vd va => Sys2Proof.Machine.execVscset m vd va s
  | .vld m vd sa sb off => Sys2Proof.Machine.execVld m vd sa sb off s
  | .vlds m vd sa sb off => Sys2Proof.Machine.execVlds m vd sa sb off s
  | .vldx m vd vi sa off => Sys2Proof.Machine.execVldx m vd vi sa off s
  | .vldff m vd sa off => Sys2Proof.Machine.execVldff m vd sa off s
  | .vst m vd sa sb off => Sys2Proof.Machine.execVst m vd sa sb off s
  | .vsts m vd sa sb off => Sys2Proof.Machine.execVsts m vd sa sb off s
  | .vstxo m vd vi sa off => Sys2Proof.Machine.execVstxo m vd vi sa off s
  | .vstxu m vd vi sa off => Sys2Proof.Machine.execVstxu m vd vi sa off s
  | .vamoadd m vd vi sa off => Sys2Proof.Machine.execVamoadd m vd vi sa off s
  | .vamomin m vd vi sa off => Sys2Proof.Machine.execVamomin m vd vi sa off s
  | .vamomax m vd vi sa off => Sys2Proof.Machine.execVamomax m vd vi sa off s
  | .vamofadd m vd vi sa off => Sys2Proof.Machine.execVamofadd m vd vi sa off s
  | .stream m vd sa sb off => Sys2Proof.Machine.execStream m vd sa sb off s
  | .streamseg m vd sa sb vi fields off => Sys2Proof.Machine.execStreamseg m vd sa sb vi fields off s
  | .copy scope sa sb off => Sys2Proof.Machine.execCopy scope sa sb off s
  | .tshape sa sb k af bf zf => Sys2Proof.Machine.execTshape sa sb k af bf zf s
  | .tlda l sa sb soff => Sys2Proof.Machine.execTlda l sa sb soff s
  | .tldb l sa sb soff => Sys2Proof.Machine.execTldb l sa sb soff s
  | .tldax l sa sb vi soff => Sys2Proof.Machine.execTldax l sa sb vi soff s
  | .tldv l vi => Sys2Proof.Machine.execTldv l vi s
  | .tmma z a1 b1 => Sys2Proof.Machine.execTmma z a1 b1 s
  | .tzero z => Sys2Proof.Machine.execTzero z s
  | .tst z out sa sb sr => Sys2Proof.Machine.execTst z out sa sb sr s
  | .tstv z vi sr => Sys2Proof.Machine.execTstv z vi sr s
  | .tsave z sa => Sys2Proof.Machine.execTsave z sa s
  | .trestore z sa => Sys2Proof.Machine.execTrestore z sa s
  | .waitw sd sa sb cond desig => Sys2Proof.Machine.execWaitw sd sa sb cond desig s
  | .arrive b => Sys2Proof.Machine.execArrive b s
  | .waitb sd b => Sys2Proof.Machine.execWaitb sd b s
  | .syncb sd b => Sys2Proof.Machine.execSyncb sd b s
  | .waitbm sd sa sb => Sys2Proof.Machine.execWaitbm sd sa sb s
  | .bmtest sd sa sb => Sys2Proof.Machine.execBmtest sd sa sb s
  | .bmclr sa sb => Sys2Proof.Machine.execBmclr sa sb s
  | .lease sd kind pri => Sys2Proof.Machine.execLease sd kind pri s
  | .leaseW sd kind pri => Sys2Proof.Machine.execLeaseW sd kind pri s
  | .release sa => Sys2Proof.Machine.execRelease sa s
  | .lstat sd sa => Sys2Proof.Machine.execLstat sd sa s
  | .equery sd ecnt => Sys2Proof.Machine.execEquery sd ecnt s
  | .sfn m vd va fn sh => Sys2Proof.Machine.execSfn m vd va fn sh s
  | .xsort m vd va desc idx sh => Sys2Proof.Machine.execXsort m vd va desc idx sh s
  | .xtopk m vd va k smallest sh => Sys2Proof.Machine.execXtopk m vd va k smallest sh s
  | .xhist m vd va sh => Sys2Proof.Machine.execXhist m vd va sh s
  | .cred m vd va op span id sh => Sys2Proof.Machine.execCred m vd va op span id sh s
  | .cgather m vd va span id sh => Sys2Proof.Machine.execCgather m vd va span id sh s
  | .cbcast m vd va root span id sh => Sys2Proof.Machine.execCbcast m vd va root span id sh s
  | .launch sd sa => Sys2Proof.Machine.execLaunch sd sa s
  | .ljoin sd sa => Sys2Proof.Machine.execLjoin sd sa s
  | .lcancel sd sa => Sys2Proof.Machine.execLcancel sd sa s
  | .vrng m vd => Sys2Proof.Machine.execVrng m vd s
  | .rngseed m ss => Sys2Proof.Machine.execRngseed m ss s
  | .waitConditionMet r => Sys2Proof.Machine.execWaitConditionMet r s
  | .waitDeadline r => Sys2Proof.Machine.execWaitDeadline r s
  | .copyChunkLanded id chunk => Sys2Proof.Machine.execCopyChunkLanded id chunk s
  | .streamGroupLanded r id group => Sys2Proof.Machine.execStreamGroupLanded r id group s
  | .faultServiceComplete r mapping => Sys2Proof.Machine.execFaultServiceComplete r mapping s
  | .preemptRequest t => Sys2Proof.Machine.execPreemptRequest t s
  | .teamSave t => Sys2Proof.Machine.execTeamSave t s
  | .teamResume t place => Sys2Proof.Machine.execTeamResume t place s
  | .dispatch part place => Sys2Proof.Machine.execDispatch part place s
  | .starvationTimer r place => Sys2Proof.Machine.execStarvationTimer r place s
  | .queueAging part queue => Sys2Proof.Machine.execQueueAging part queue s
  | .powerUpStart die => Sys2Proof.Machine.execPowerUpStart die s
  | .wakeComplete e => Sys2Proof.Machine.execWakeComplete e s
  | .holdExpiry e => Sys2Proof.Machine.execHoldExpiry e s
  | .evictionEnd e => Sys2Proof.Machine.execEvictionEnd e s
  | .ecntUpdate part heat coreMicrojoules => Sys2Proof.Machine.execEcntUpdate part heat coreMicrojoules s
  | .coolingModeDeclare m => Sys2Proof.Machine.execCoolingModeDeclare m s
  | .coolingSample inlet flow => Sys2Proof.Machine.execCoolingSample inlet flow s
  | .droopSample millivolts => Sys2Proof.Machine.execDroopSample millivolts s
  | .thermalSample die celsius => Sys2Proof.Machine.execThermalSample die celsius s
  | .thermalThrottleStep die => Sys2Proof.Machine.execThermalThrottleStep die s
  | .laneMarginLost c group lane => Sys2Proof.Machine.execLaneMarginLost c group lane s
  | .laneRetirement c => Sys2Proof.Machine.execLaneRetirement c s
  | .hotnessFlush c => Sys2Proof.Machine.execHotnessFlush c s
  | .pageMigration part va dest => Sys2Proof.Machine.execPageMigration part va dest s
  | .patrolScrub addr uncorrectable => Sys2Proof.Machine.execPatrolScrub addr uncorrectable s
  | .fabricAccessRequest peer part seq acc => Sys2Proof.Machine.execFabricAccessRequest peer part seq acc s
  | .peerGatherList peer part seq accs => Sys2Proof.Machine.execPeerGatherList peer part seq accs s
  | .flitReplay port seq => Sys2Proof.Machine.execFlitReplay port seq s
  | .portErrorThreshold port => Sys2Proof.Machine.execPortErrorThreshold port s
  | .portRetrainComplete port lanes => Sys2Proof.Machine.execPortRetrainComplete port lanes s
  | .fabricTimeout module => Sys2Proof.Machine.execFabricTimeout module s
  | .start part value => Sys2Proof.Machine.execStart part value s
  | .registerWrite part offset value => Sys2Proof.Machine.execRegisterWrite part offset value s
  | .config part rec => Sys2Proof.Machine.execConfig part rec s
  | .loadmeet part pkg group => Sys2Proof.Machine.execLoadmeet part pkg group s
  | .unloadmeet part => Sys2Proof.Machine.execUnloadmeet part s
  | .occupread part die slice => Sys2Proof.Machine.execOccupread part die slice s
  | .migrate part va dest => Sys2Proof.Machine.execMigrate part va dest s
  | .leasetab part table => Sys2Proof.Machine.execLeasetab part table s
  | .admitHeat part heat ok => Sys2Proof.Machine.execAdmitHeat part heat ok s
  | .scrubset part sram lpddr => Sys2Proof.Machine.execScrubset part sram lpddr s
  | .linkctl port order => Sys2Proof.Machine.execLinkctl port order s
  | .shakedown full => Sys2Proof.Machine.execShakedown full s
  | .attest nonce => Sys2Proof.Machine.execAttest nonce s
  | .firmwareVerify rom firmware ok => Sys2Proof.Machine.execFirmwareVerify rom firmware ok s
  | .unassignedPattern w => Sys2Proof.Machine.execUnassignedPattern w s
  | .tileOperationComplete c => Sys2Proof.Machine.execTileOperationComplete c s
  | .fabricResponse r module answer => Sys2Proof.Machine.execFabricResponse r module answer s
  | .hostCompletion r answer => Sys2Proof.Machine.execHostCompletion r answer s
  | .hostMemoryAccess part acc => Sys2Proof.Machine.execHostMemoryAccess part acc s
  | .nop => Sys2Proof.Machine.execNop s
  | .eret => Sys2Proof.Machine.execEret s
  | .exit => Sys2Proof.Machine.execExit s
  | .ifence => Sys2Proof.Machine.execIfence s
  | .stripExit => Sys2Proof.Machine.execStripExit s
  | .attach => Sys2Proof.Machine.execAttach s
  | .attachW => Sys2Proof.Machine.execAttachW s
  | .detach => Sys2Proof.Machine.execDetach s
  | .mfence => Sys2Proof.Machine.execMfence s
  | .mwait => Sys2Proof.Machine.execMwait s
  | .yield => Sys2Proof.Machine.execYield s
  | .coolingRowRaise => Sys2Proof.Machine.execCoolingRowRaise s
  | .droopRideThroughExpiry => Sys2Proof.Machine.execDroopRideThroughExpiry s
  | .holdUpWarning => Sys2Proof.Machine.execHoldUpWarning s
  | .droopLevelExit => Sys2Proof.Machine.execDroopLevelExit s
  | .clockStretchStep => Sys2Proof.Machine.execClockStretchStep s
  | .clockRecoverStep => Sys2Proof.Machine.execClockRecoverStep s
  | .checkpoint => Sys2Proof.Machine.execCheckpoint s
  | .restore => Sys2Proof.Machine.execRestore s
  | .checkpointWriteComplete => Sys2Proof.Machine.execCheckpointWriteComplete s
  | .powerGood => Sys2Proof.Machine.execPowerGood s
  | .shockEvent => Sys2Proof.Machine.execShockEvent s
  | .tiltTimeout => Sys2Proof.Machine.execTiltTimeout s
  | .powerGoodRestore => Sys2Proof.Machine.execPowerGoodRestore s
  | .shakedownComplete => Sys2Proof.Machine.execShakedownComplete s

end Sys2Proof.Machine
end

