-- ==== Sys2Proof/Machine/Fetch.lean ====
section
/-! DEFINITION. Fetching an instruction (R65, R70, R82, R93), the passing of TIME and CYCLE (R24), and what surrounds an
instruction in a runner's turn (R194, R232). -/

namespace Sys2Proof.Machine

/-- The eight bytes at the PC, fetched (R93). -/
def State.fetchBytes (s : State) : M (List Byte × State) := do
  let (a, s) ← s.check s.pc 8 8 .fetch
  match a with
  | .found k =>
    if isHostKey k then s.loadFrom .fetch s.pc (.host (.read (BitVec.ofNat 64 (k - hostBase)) 8)) k 8
    else s.readAt .fetch { scope := .team } s.pc k 8
  | _ => stopTrap .access s.pc s

/-- The instruction at the PC (R70): a word the decoder rejects traps ILLEGAL; one that reads a poisoned scalar register
consumes the poison (R341). -/
def State.fetch (s : State) : M (Instr × State) := do
  let (bs, s) ← s.fetchBytes
  match decodeBytes bs with
  | .ok i => do
    let (_, s) ← s.readScalars i
    .ok (i, s)
  | .error _ => stopTrap .illegal (BitVec.ofNat 64 (bytesVal bs)) s

/-- The eighths by which a die's clock is stretched: by droop, by the cooling row and by the die's temperature (R310,
R321, R324). -/
def State.stretch (s : State) (die : Nat) : Nat :=
  max (max s.pacer.droop.steps s.limitRow.cap) (if (s.die die).tripped then 4 else (s.die die).throttle)

/-- TIME advances, and with it CYCLE of every core, 8 cycles a tick at the full clock (R24, R321). -/
def State.elapse (s : State) (dt : Nat) : State :=
  if dt = 0 then s
  else { s with
    time := s.time + dt
    cores := s.cores.map fun c => { c with cycle := c.cycle + BitVec.ofNat 64 (dt * (8 - s.stretch c.id.die)) } }

/-- Before an instruction runs: the runner stands at a YIELD no more (R197); what a SYNCB record stood for ends with the
first instruction after an ERET (R194). -/
def State.beforeInstr (s : State) (i : Instr) : State :=
  let s := if s.r.yielded then s.mapR fun r => { r with yielded := false } else s
  if s.r.eretPending then
    match i with
    | .syncb _ _ => s
    | _ => s.mapR fun r => { r with eretPending := false, sya := none }
  else s

/-- After an instruction: the vector side goes on; a stream that the scalar side has been held up by lands. -/
def State.afterInstr (s : State) (pc : Word) : State := (s.drain (s.pc == pc)).settleStep

end Sys2Proof.Machine
end

