-- ==== Sys2Proof/Machine/Step.lean ====
section
/-! DEFINITION. One step of the machine: the next turn of the agenda, an event or an instruction of a runner. -/

namespace Sys2Proof.Machine

/-- A fetched instruction of the running runner. -/
def State.runInstr (s : State) (i : Instr) (t : State) : Host.Outcome State Fault Refusal :=
  match exec i (t.beforeInstr i) with
  | .next u => .next (u.afterInstr s.pc)
  | o => o

/-- Whether the running runner stops now: its team is asked to, and no access of it outside the module is under way. One whose
heat has ended by another runner's trap in this very tick goes on (R247). -/
def State.mustStop (s : State) : Bool :=
  s.r.stat == .ready && !s.r.committed && (s.myTeam?.map fun t => t.stat == .stopping).getD false &&
  (s.r.scal.sysr.inh || !s.endsThisTick (teamOf s.rid))

/-- Whether the vector side has paused at the head of its queue, after the element groups its turn gave it (R117). -/
def State.paused (s : State) : Bool := s.quota.isSome && s.r.begun.isSome && !s.r.vq.isEmpty

/-- The turn of the running runner: what its vector side can do, then its next instruction. A runner that is not ready
does nothing. -/
def State.runTurn (s : State) : Host.Outcome State Fault Refusal :=
  let s := s.drain false
  if s.mustStop then .next s.stopRunner.settleStep
  else if s.r.stat = .ready && !s.paused then
    match s.fetch with
    | .ok (i, t) => s.runInstr i t
    | .error e => .next ((finish (.error e)).afterInstr s.pc)
  else .next s.settleStep

/-- The turn of a runner of whose element-wise instruction only n element groups run, one at least (R117, R235). -/
def State.runPart (s : State) (n : Nat) : Host.Outcome State Fault Refusal :=
  match { s with quota := some n }.runTurn with
  | .next t => .next { t with quota := none }
  | o => o

/-- Whether an instruction of the opcode table is an event, which has no word. -/
def isEvent (i : Instr) : Bool := (encode i).isNone

/-- An event happens. -/
def State.runEvent (s : State) (i : Instr) : Host.Outcome State Fault Refusal :=
  if isEvent i then
    match exec i s with
    | .next t => .next t.settleStep
    | o => o
  else .fault .notAnEvent

/-- One step: the agenda's next turn, or the running runner's. -/
def step (s : State) : Host.Outcome State Fault Refusal :=
  match s.agenda with
  | [] => s.runTurn
  | .input dt i :: rest => ({ s with agenda := rest }.elapse dt).runEvent i
  | .run dt r :: rest => (({ s with agenda := rest }.elapse dt).focus r).runTurn
  | .part dt r n :: rest => (({ s with agenda := rest }.elapse dt).focus r).runPart n
  | .upset dt u :: rest => .next (({ s with agenda := rest }.elapse dt).upset u)
  | .measured dt rom :: rest => .next (({ s with agenda := rest }.elapse dt).endStageA rom)

/-! ### Placing an instruction -/

/-- A page-table entry: valid; a table, or a leaf that permits everything (R297). -/
def tableEntry (next : Nat) : Nat := next + 1

/-- A leaf entry for a page of module memory. -/
def leafEntry (pa : Nat) : Nat := pa + 0xF3

/-- The cells of the page tables that map the page of an address to the page at 0x30000: tables at 0x10000 to 0x14000. -/
def tableCells (va : Nat) : List Host.Cell :=
  let entry (l w : Nat) : List Host.Cell := cellsFrom (0x10000 + 0x1000 * l + 8 * walkIndex l va) (natToLeBytes 8 w)
  entry 0 (tableEntry 0x11000) ++ entry 1 (tableEntry 0x12000) ++ entry 2 (tableEntry 0x13000) ++
  entry 3 (tableEntry 0x14000) ++ entry 4 (leafEntry 0x30000)

/-- A state with an instruction where the running runner fetches its next one: the runner ready with nothing pending, its
PC kept when it can be fetched from, its page mapped by page tables in module memory. -/
def State.withFetchWord (s : State) (_nbits w : Nat) : State :=
  let pc : Word := if s.pc.toNat % 8 = 0 ∧ s.pc.toNat < 2 ^ 56 then s.pc else 0
  let c := s.myCore
  let cl := s.cluster s.r.ident.core.die s.r.ident.core.cluster
  let s : State := { s with
    agenda := []
    poison := []
    quota := none
    parts := s.parts.map fun p => { p with moves := [] }
    mem := cellsPut s.mem (tableCells pc.toNat ++ cellsFrom (0x30000 + pc.toNat % 2 ^ 16) (natToLeBytes 8 w)) }
  ((s.setCore { c with tlb := [] }).setCluster { cl with walker := [] }).mapR fun r =>
    { r with
      stat := .ready, vq := [], streams := [], hist := [], wait := none, asks := [], replies := [], begun := none, pages := []
      eretPending := false, yielded := false
      scal := { r.scal with pc := pc, pinslice := 0, bad := [], pend := [], sysr := { r.scal.sysr with ptbase := 0x10000 } }
      vect := { r.vect with bad := [] } }

end Sys2Proof.Machine
end

