-- ==== Sys2Proof/Safety.lean ====
section
/-! DEFINITION. What the statements say of a step, in the manual's terms: what is written, what is left unchanged, what
an instruction needs to complete. -/

namespace Sys2Proof.Machine

/-! ### What stays -/

/-- The byte of memory at a key. -/
def State.byteAt (s : State) (k : Nat) : Byte := cellGet s.mem k

/-- Every byte of memory reads as before. -/
def SameMemory (s t : State) : Prop := ∀ k, t.byteAt k = s.byteAt k

/-- Every byte of memory outside n bytes at a key reads as before. -/
def SameMemoryBut (s t : State) (key n : Nat) : Prop := ∀ k, k < key ∨ key + n ≤ k → t.byteAt k = s.byteAt k

/-- Nothing but the scalar registers and the PC has changed (asks, replies and the translations in use are the model's own
bookkeeping). -/
def ScalarFrame (s t : State) : Prop :=
  SameMemory s t ∧
  t = { s with r := { s.r with scal := { s.r.scal with s := t.r.scal.s, pc := t.r.scal.pc, bad := t.r.scal.bad, pend := t.r.scal.pend },
                               asks := t.r.asks, replies := t.r.replies, pages := t.r.pages } }

/-- The scalar side but its registers, its PC and PEEK, the vector registers and modes, the strip, the hand-off queues,
the leases: what no memory instruction writes. -/
def RegisterFrame (s t : State) : Prop :=
  t.r.scal = { s.r.scal with s := t.r.scal.s, pc := t.r.scal.pc, bad := t.r.scal.bad, pend := t.r.scal.pend } ∧ t.r.vect = s.r.vect ∧ t.r.queues = s.r.queues ∧
  t.r.leases = s.r.leases ∧ t.r.barw = s.r.barw ∧ t.r.ident = s.r.ident ∧ t.time = s.time

/-- What a vector instruction leaves unchanged beside its destinations: memory, the scalar side but the PC, every other
vector register, VL, VTYPE, VLEN, the strip, the leases; VSTART is 0 (R117). -/
def VectorFrame (s t : State) (ds : List VR) : Prop :=
  SameMemory s t ∧ t.pc = s.pc + 8 ∧ t.r.scal = { s.r.scal with pc := s.pc + 8 } ∧
  (∀ n, n ∉ ds → t.vreg n = s.vreg n) ∧ t.vstart = 0 ∧ t.vl = s.vl ∧ t.vtype = s.vtype ∧ t.vlen = s.vlen ∧
  t.r.strip = s.r.strip ∧ t.r.leases = s.r.leases ∧ t.r.barw = s.r.barw ∧ t.r.ident = s.r.ident

/-- VFLAGS, the hand-off queues and RNGCTR as before. -/
def QuietFrame (s t : State) : Prop :=
  t.r.vect.vflags = s.r.vect.vflags ∧ t.r.queues = s.r.queues ∧ t.r.vect.rngctr = s.r.vect.rngctr

/-! ### What is written -/

/-- The scalar register sd receives w; a write of s0 is discarded (R13). -/
def Writes (s t : State) (sd : SR) (w : Word) : Prop := ∀ n : SR, t.reg n = if n = sd ∧ n ≠ 0 then w else s.reg n

/-- An instruction completes: s[sd] receives w, the PC advances, nothing else changes. -/
def Gives (i : Instr) (s : State) (sd : SR) (w : Word) : Prop :=
  ∃ t, exec i s = .next t ∧ Writes s t sd w ∧ t.pc = s.pc + 8 ∧ ScalarFrame s t

/-- An instruction completes: it only goes to an address. -/
def GoesTo (i : Instr) (s : State) (a : Word) : Prop :=
  ∃ t, exec i s = .next t ∧ t.pc = a ∧ (∀ n, t.reg n = s.reg n) ∧ ScalarFrame s t

/-- Elements of a destination after an instruction (R117, R132, R72): the value of each active element from `start` to
VL − 1, zero or the old element where VTYPE says so. Every element that lies in the 16,384 bits of the longest vector
register is spoken of. -/
def ElementsAre (s t : State) (m : Mask) (vd : VR) (start vlmax : Nat) (val : Nat → Nat) : Prop :=
  ∀ j, (s.fmtOf vd).bitAt j + (s.fmtOf vd).width ≤ 16384 →
    (t.vreg vd).elem (s.fmtOf vd) j =
      if j < s.vl then
        if j < start then (s.vreg vd).elem (s.fmtOf vd) j
        else if s.active m j then val j % 2 ^ (s.fmtOf vd).width
        else if mpOf s.vtype then 0 else (s.vreg vd).elem (s.fmtOf vd) j
      else if j < vlmax ∧ tpOf s.vtype then 0 else (s.vreg vd).elem (s.fmtOf vd) j

/-- What a vector instruction leaves in its destination: its elements, the tag and the sidecar as before. -/
def ElementResult (s t : State) (m : Mask) (vd : VR) (start vlmax : Nat) (val : Nat → Nat) : Prop :=
  (t.vreg vd).tag = (s.vreg vd).tag ∧ (t.vreg vd).side = (s.vreg vd).side ∧ ElementsAre s t m vd start vlmax val

/-- The flags of a scalar conversion and of the active elements, gathered (R22, R47). -/
def State.gather (s : State) (m : Mask) (scalar : Flags) (f : Nat → Flags) : Flags :=
  (s.activeFrom m s.vstart).foldl (fun fl j => fl.or (f j)) scalar

/-- A vector instruction completes: its destination's elements from `start`, its flags ORed into VFLAGS, all else as
before. -/
def VectorGives (i : Instr) (s : State) (m : Mask) (vd : VR) (start vlmax : Nat) (fl : Flags) (val : Nat → Nat) : Prop :=
  ∃ t, exec i s = .next t ∧ ElementResult s t m vd start vlmax val ∧ VectorFrame s t [vd] ∧
    t.r.queues = s.r.queues ∧ t.r.vect.rngctr = s.r.vect.rngctr ∧ t.r.vect.vflags = s.r.vect.vflags ||| fl.bits

/-- An element-wise instruction completes (R117): the active elements' values and flags from VSTART, those of a scalar's
conversion first (R47). -/
def Elementwise (i : Instr) (s : State) (m : Mask) (vd : VR) (vlmax : Nat) (scalar : Flags) (val : Nat → Flagged Nat) :
    Prop :=
  VectorGives i s m vd s.vstart vlmax (s.gather m scalar fun j => (val j).flags) fun j => (val j).val

/-- A number reduced to an integer format of w bits (R37): clamped when VTYPE.SAT is set, else modulo. -/
def fitted (sat signed : Bool) (w : Nat) (x : Int) : Int :=
  if sat then
    (if signed then max (-(2 ^ (w - 1))) (min (2 ^ (w - 1) - 1) x) else max 0 (min (2 ^ w - 1) x))
  else if signed then x.bmod (2 ^ w) else x % 2 ^ w

/-- An encoding of a number in w bits. -/
def bitsIn (w : Nat) (x : Int) : Nat := (x % 2 ^ w).toNat

/-- SRCB(i) among integers (R47): an element, or the scalar reduced to va's format. -/
def State.intOperand (s : State) (va : VR) (b : VB) (j : Nat) : Int :=
  match b with
  | .vec r => (s.vreg r).index j
  | .scal r => fitted (bitOf s.vtype 5) ((s.fmtOf va).intSigned = some true) (s.fmtOf va).width (s.reg r).toInt

/-- Operand b of an instruction on registers of a kind: a scalar, or a register of the kind. -/
def State.operandIs (s : State) (k : TagKind) (b : VB) : Prop := ∀ r, b = .vec r → s.kind r = k

/-! ### What an instruction needs to complete -/

/-- Nothing holds a vector-side instruction up: no incomplete one before it, its convoy legal (R240), every lane
computing right (R338), no word of a vector register poisoned (R341), no instruction half done, no tile store outstanding on the
core (R181), and the turn gives it all its element groups (R117). -/
def FreeToRun (i : Instr) (s : State) : Prop :=
  s.r.vq = [] ∧ s.convoyCheck i = .ok ((), s) ∧ s.world.badLanes = [] ∧ s.r.vect.bad = [] ∧ s.r.begun = none ∧ s.quota = none ∧
  ∀ a, s.myCore.att = some a → a.ops = []

/-- The mask register, if one is named, is tagged mask (R116). -/
def MaskOk (s : State) (m : Mask) : Prop := m.reg = 0 ∨ (s.vregN m.reg.val).fmt = some .mask

/-- The checks of R116 that count for a mask and for VL. -/
def LengthOk (s : State) (n : Names) (m : Mask) : Prop := MaskOk s m ∧ s.vl ≤ s.vlmaxOf n

/-- No access of another runner is under way: nothing is held, buffered, sent or outstanding (R299). -/
def NothingUnderWay (s : State) : Prop :=
  s.copies = [] ∧ s.r.streams = [] ∧
  (∀ x ∈ s.rs, x.2.vq = [] ∧ x.2.streams = [] ∧ x.2.strip.buf = [] ∧ x.2.share = [] ∧ x.2.asks = []) ∧
  ∀ c ∈ s.cores, ∀ a, c.att = some a → a.ops = []

/-- No floating-point trap is enabled (VTYPE bits 20:16). -/
def NoFpTraps (s : State) : Prop := bitsOf s.vtype 16 5 = 0

/-- The handle names a held lease of a kind (R202), and no strip protection is there to end (R23). -/
def LeaseHeld (s : State) (h : Word) (k : Kind) : Prop :=
  (∃ slot l, s.r.leaseOf h = some (slot, l) ∧ l.st = .held ∧ l.kind = k) ∧ s.r.strip.prot = false

/-- The running runner may use its core's share: it holds one, nothing was lost, no other runner's operations are
outstanding on it, no tile store is, no word of a vector register is poisoned, and nothing waits in the vector queue (R165, R166). -/
def TileReady (s : State) (a : Attach) : Prop :=
  s.r.vq = [] ∧ s.myCore.att = some a ∧ s.myCore.loss = none ∧ (∀ u ∈ a.uses, u.runner = s.rid) ∧ s.r.vect.bad = [] ∧
  ∀ c ∈ s.cores, ∀ b, c.att = some b → b.ops = []

/-- What a tile operation leaves unchanged: memory, the registers of both sides but the PC, the strip, the queues; of the
core's share its shape and formats. -/
def TileFrame (s t : State) (a b : Attach) : Prop :=
  SameMemory s t ∧ t.r.scal = { s.r.scal with pc := s.pc + 8 } ∧ t.r.vect = s.r.vect ∧ t.r.queues = s.r.queues ∧
  t.myCore.att = some b ∧ b.gm = a.gm ∧ b.gn = a.gn ∧ b.gk = a.gk ∧ b.gfmt = a.gfmt ∧ b.oct = a.oct

/-- Every runner that does not run is kept under its own number. -/
def State.Kept (s : State) : Prop := ∀ x ∈ s.rs, x.1 = x.2.ident.id

/-- Memory is in its canonical form, in the checkpoints on flash too, and every runner that does not run is kept under its
own number. -/
def State.Inv (s : State) : Prop :=
  Memory.wf s.mem ∧ s.Kept ∧
  ∀ n : Fin 2, ∀ c, s.pacer.flash.slots[n] = some c → Memory.wf c.mem ∧ ∀ x ∈ c.runners, x.1 = x.2.ident.id

/-- No launch graph has a node that has still to fire. -/
def State.graphsDone (s : State) : Prop := ∀ p ∈ s.parts, ∀ n ∈ p.nodes, n ≠ .idle

/-- An instruction completes without a change of a vector register, the strip, a queue or memory. -/
def Settles (i : Instr) (s : State) (sd : SR) (w : Word) (p : State → Prop) : Prop :=
  ∃ t, exec i s = .next t ∧ Writes s t sd w ∧ t.pc = s.pc + 8 ∧ t.r.stat = .ready ∧ t.r.wait = none ∧ SameMemory s t ∧
    t.r.vect = s.r.vect ∧ t.r.strip = s.r.strip ∧ t.r.queues = s.r.queues ∧ p t

/-- A runner goes to sleep in a scheduler-visible wait, its record made now (R187, R188). -/
def Sleeps (i : Instr) (s : State) (p : State → Prop) : Prop :=
  ∃ t x, exec i s = .next t ∧ t.r.scal = s.r.scal ∧ t.r.stat = .waiting ∧ t.r.wait = some x ∧ x.entry = s.time ∧
    x.dead = bitsOf s.r.scal.wdead 0 48 ∧ SameMemory s t ∧ t.r.vect = s.r.vect ∧ t.r.strip = s.r.strip ∧
    t.r.queues = s.r.queues ∧ p t

/-- An instruction traps: the cause, the instruction's own PC and the value are saved, no scalar register changes. -/
def Traps (i : Instr) (s : State) (c : Cause) (v : Word) : Prop :=
  ∃ t, exec i s = .next t ∧ t.r.scal.sysr.tcause = BitVec.ofNat 64 c.code ∧ t.r.scal.sysr.tepc = s.pc ∧
    t.r.scal.sysr.tval = v ∧ t.pc = s.r.scal.sysr.tvec ∧ ∀ n, t.reg n = s.reg n

/-! ### Scalar floating point -/

/-- What R78 and R79 compute for an FALU instruction but FCLASS: its destination, the encoding and the flags, from the
exact operation of R31–R44 and one rounding. -/
def State.floatOp (s : State) : Instr → Option (SR × Flagged Nat)
  | .fadd f sd sa sb => some (sd, f.ff.deliver s.modes (addX s.modes.rm (s.fsrc f s.modes sa) (s.fsrc f s.modes sb)))
  | .fsub f sd sa sb => some (sd, f.ff.deliver s.modes (addX s.modes.rm (s.fsrc f s.modes sa) (s.fsrc f s.modes sb).negate))
  | .fmul f sd sa sb => some (sd, f.ff.deliver s.modes (mulX (s.fsrc f s.modes sa) (s.fsrc f s.modes sb)))
  | .ffma f sd sa sb => some (sd, f.ff.deliver s.modes
      (fmaX s.modes.rm (s.fsrc f s.modes sa) (s.fsrc f s.modes sb) (s.fsrc f s.modes sd)))
  | .fdiv f sd sa sb => some (sd, f.ff.deliver s.modes (divX (s.fsrc f s.modes sa) (s.fsrc f s.modes sb)))
  | .fsqrt f sd sa => some (sd, f.ff.deliver s.modes (sqrtX (s.fsrc f s.modes sa)))
  | .fmin f sd sa sb => some (sd, f.ff.deliver s.modes (minMaxX false (s.fsrc f s.modes sa) (s.fsrc f s.modes sb)))
  | .fmax f sd sa sb => some (sd, f.ff.deliver s.modes (minMaxX true (s.fsrc f s.modes sa) (s.fsrc f s.modes sb)))
  | .fcmp f sd sa sb c =>
    let r := condX c.val (s.fsrc f s.modes sa) (s.fsrc f s.modes sb)
    some (sd, { val := r.val.toNat, flags := r.flags })
  | .fcvt sd sa src dst => some (sd, match dst with
    | .fp f => f.ff.convert s.modes (s.cvtSrc src s.modes sa)
    | .i64 => floatToInt s.modes.rm true 64 (s.cvtSrc src s.modes sa)
    | .u64 => floatToInt s.modes.rm false 64 (s.cvtSrc src s.modes sa))
  | _ => none

/-! ### Reaching memory -/

/-- The running runner reads bytes as they are: no store of its own to them is still unordered between its sides (R86), its
core's L1 holds no older copy of them (R278), PINSLICE does not shut them out (R285), and no translation is kept that memory no
longer has (R300). -/
def Fresh (s : State) (va : Word) (key n : Nat) : Prop :=
  (∀ h ∈ s.r.hist, h.meets key n = false) ∧ (∀ l ∈ s.myCore.l1, ∀ c ∈ l.old, ¬(key ≤ c.1 ∧ c.1 < key + n)) ∧
  s.pinFault va = false ∧ s.r.pages = []

/-- The checks of R82 find a key in the module's own memory or windows for n bytes, the same when made again from the
state they leave (it holds the translation); the bytes hold no poison, no outstanding tile store will write them, and the
runner reads them as they are. -/
def Reaches (s : State) (va : Word) (n : Nat) (k : AccKind) (key : Nat) : Prop :=
  (s.resolve va n n k).1 = .found key ∧
  (s.resolve va n n k).2.resolve va n n k = (.found key, (s.resolve va n n k).2) ∧
  (∀ a, key ≤ a → a < key + n → isOutKey a = false) ∧ poisonMeets s.poison key n = none ∧
  (∀ c ∈ s.cores, ∀ a, c.att = some a → a.ops = []) ∧ Fresh s va key n

/-- A state with other bytes in memory and other translations in use. -/
def State.served (s : State) (mem : List Host.Cell) (l : List TlbEntry) : State := { s with mem := mem, r := { s.r with pages := l } }

/-- The checks of R82 find a key for n bytes and change nothing but the translations in use, all of which the core holds (a
window, or a translation the core holds), whatever the bytes of a footprint come to be; the bytes lie in the module, hold no
poison, and the runner reads them as they are. -/
def Serves (s : State) (foot : Nat → Prop) (va : Word) (n : Nat) (k : AccKind) (key : Nat) : Prop :=
  (∀ (mem : List Host.Cell) (l : List TlbEntry), (∀ a, ¬foot a → cellGet mem a = s.byteAt a) → (∀ e ∈ l, e ∈ s.myCore.tlb) →
    ∃ l', (∀ e ∈ l', e ∈ s.myCore.tlb) ∧ (s.served mem l).resolve va n n k = (.found key, s.served mem l')) ∧
  (∀ a, key ≤ a → a < key + n → isOutKey a = false) ∧ poisonMeets s.poison key n = none ∧ Fresh s va key n

/-- The bytes at a key with the runner's own buffered strip stores laid over them (R83, R87). -/
def State.ownBytes (s : State) (key n : Nat) : List Byte := overlayActs s.r.strip.buf key (bytesAt s.mem key n)

end Sys2Proof.Machine
end

