-- ==== Sys2Proof/Certificates/Slice0/Obligations.lean ====
section
/-! DEFINITION. The statements for the provers. -/

open Sys2Proof Sys2Proof.Machine

/-! ### Words and steps -/

/-- Decoding the word of a well-formed instruction gives it back, with every operand at every value its field admits
(R65–R70; an unassigned pattern is the name of its own word and is left out); and a word decodes only to an
instruction it is the whole encoding of: a nonzero bit in a field the instruction does not use is refused (R70, checks
3 and 4).
The model's own choices it rests on: log 64. -/
def Obligations.EncodingRoundTrip : Prop :=
  (∀ (i : Instr) (w : Word), i.wf = true → (∀ x, i ≠ .unassignedPattern x) → encode i = some w → decode w = .ok i) ∧
  ∀ (w : Word) (i : Instr), decode w = .ok i → i.wf = true ∧ encode i = some w

/-- Words the manual prints decode to the instructions it prints them for. -/
def Obligations.PrintedWordsDecode : Prop :=
  decode 0x04C45140000001FF = .ok (.lih 5 5 0x1FF) ∧
  decode 0x0804A2CC00000000 = .ok (.fadd .f64 10 11 12) ∧
  decode 0x0920518000000001 = .ok (.fcvt 5 6 (.fp .f64) (.fp .f32)) ∧
  decode 0x0D30910000000010 = .ok (.ld .w true .team 9 4 16) ∧
  decode 0x1258014600000008 = .ok (.st .d true .package 6 5 8) ∧
  decode 0x15E5455600000003 = .ok (.amocas true .both .die 20 22 21) ∧
  decode 0x18000146FFFFFFFD = .ok (.beq 5 6 0xFFFFFFFD) ∧
  decode 0x1C04004000000000 = .ok (.jalr 0 1 0) ∧
  decode 0x2004014000000002 = .ok (.wrcr 0x002 5) ∧
  decode 0x2414000000000009 = .ok (.fence .vs .team) ∧
  decode 0x2800610500000008 = .ok (.stripBegin 6 4 5 8) ∧
  decode 0x2C08024000000000 = .ok (.qpush 0 9) ∧
  decode 0x40208110D7800000 = .ok (.vfma { mask := { reg := 7, neg := true }, cb := true } 4 1 (.vec 2) 3) ∧
  decode 0x4400284800000002 = .ok (.vcmp {} 1 8 (.vec 9) 2) ∧
  decode 0x4800A40000460001 = .ok (.vslideup {} 5 4 1 (some 6)) ∧
  decode 0x4C1A842800000000 = .ok (.vredts {} 20 4 5) ∧
  decode 0x500C60FFC0000064 = .ok (.vidx {} 3 100 0x3FF) ∧
  decode 0x70098D5002000000 = .ok (.vldx { mask := { reg := 2 } } 12 13 20 0) ∧
  decode 0x7806005150004000 = .ok (.streamseg {} 16 20 21 0 2 0) ∧
  decode 0x801D800000000000 = .ok (.tmma 1 true false) ∧
  decode 0x8400518700000202 = .ok (.waitw 5 6 7 .ge 2) ∧
  decode 0x8802800000000150 = .ok (.leaseW 40 .sfe 5) ∧
  decode 0x8C09940000290002 = .ok (.xtopk {} 12 20 2 false 41) ∧
  decode 0x9005650000000000 = .ok (.ljoin 22 20) ∧
  decode 0 = .ok (.unassignedPattern 0)

/-- With nothing on the agenda, nothing waiting in the vector queue and the runner free to go on, a step
fetches the instruction at the PC and is exec of it, with what stands around an instruction: the first one after an ERET
ends the SYNCB record, and the vector side and the module's own housekeeping follow. An instruction that reads a poisoned
scalar register traps UNCORR with bit 63 and the register in TVAL (R341; outside a protected strip). No register the
instruction reads waits for a held AMO (R233). At an instruction that reports a pending FABRIC the report comes first, before
the registers are looked at (R104, R329).
The model's own choices it rests on: log 16, 37, 53, 67, 71. -/
def Obligations.StepRunsTheDecodedInstruction : Prop :=
  ∀ (s t : State) (i : Instr) (bs : List Byte),
    s.agenda = [] → s.r.vq = [] → s.r.stat = .ready → s.mustStop = false →
    s.fetchBytes = .ok (bs, t) → decodeBytes bs = .ok i →
    (t.awaits i = false → t.poisonedScalar i = none ∨ t.reportsFirst i = true →
      step s = match exec i (t.beforeInstr i) with
        | .next u => .next (u.afterInstr s.pc)
        | o => o) ∧
    ∀ n, t.awaits i = false → t.reportsFirst i = false → t.poisonedScalar i = some n → t.r.strip.prot = false →
      step s = .next ((t.enterTrap .uncorr (BitVec.ofNat 64 (2 ^ 63 + n.val)) false).afterInstr s.pc)

/-! ### Scalar registers and integer arithmetic -/

/-- R74, the functions of two operands: the register each of them leaves, with the operands as signed or unsigned numbers;
nothing else changes. R13: s0 reads as zero, and a write of it is discarded; every other register holds what was
written, and no register changes with another. -/
def Obligations.IntegerResults : Prop :=
  (∀ (s : State) (sd sa : SR) (b : OpB),
    let a := s.reg sa
    let y := s.opb b
    let n := y.toNat % 64
    let flag (c : Prop) [Decidable c] : Word := if c then 1 else 0
    Gives (.add sd sa b) s sd (BitVec.ofInt 64 (a.toInt + y.toInt)) ∧
    Gives (.sub sd sa b) s sd (BitVec.ofInt 64 (a.toInt - y.toInt)) ∧
    Gives (.and sd sa b) s sd (a &&& y) ∧ Gives (.or sd sa b) s sd (a ||| y) ∧
    Gives (.xor sd sa b) s sd (a ^^^ y) ∧ Gives (.andn sd sa b) s sd (a &&& ~~~y) ∧
    Gives (.shl sd sa b) s sd (BitVec.ofNat 64 (a.toNat * 2 ^ n)) ∧
    Gives (.shr sd sa b) s sd (BitVec.ofNat 64 (a.toNat / 2 ^ n)) ∧
    Gives (.sar sd sa b) s sd (BitVec.ofInt 64 (a.toInt / 2 ^ n)) ∧
    Gives (.rol sd sa b) s sd (BitVec.ofNat 64 (a.toNat * 2 ^ n + a.toNat / 2 ^ (64 - n))) ∧
    Gives (.slt sd sa b) s sd (flag (a.toInt < y.toInt)) ∧ Gives (.sltu sd sa b) s sd (flag (a.toNat < y.toNat)) ∧
    Gives (.seq sd sa b) s sd (flag (a = y)) ∧ Gives (.sne sd sa b) s sd (flag (a ≠ y)) ∧
    Gives (.min sd sa b) s sd (BitVec.ofInt 64 (min a.toInt y.toInt)) ∧
    Gives (.max sd sa b) s sd (BitVec.ofInt 64 (max a.toInt y.toInt)) ∧
    Gives (.minu sd sa b) s sd (BitVec.ofNat 64 (min a.toNat y.toNat)) ∧
    Gives (.maxu sd sa b) s sd (BitVec.ofNat 64 (max a.toNat y.toNat)) ∧
    Gives (.mul sd sa b) s sd (BitVec.ofInt 64 (a.toInt * y.toInt)) ∧
    Gives (.mulh sd sa b) s sd (BitVec.ofInt 64 (a.toInt * y.toInt / 2 ^ 64)) ∧
    Gives (.mulhu sd sa b) s sd (BitVec.ofNat 64 (a.toNat * y.toNat / 2 ^ 64))) ∧
  ∀ (s : State) (n : SR) (w : Word),
    s.reg 0 = 0 ∧ (s.setReg n w).reg 0 = 0 ∧ (n = 0 → s.setReg n w = s) ∧
    (n ≠ 0 → (s.setReg n w).reg n = w) ∧ ∀ k : SR, k ≠ n → (s.setReg n w).reg k = s.reg k

/-- R75 whole. Division truncates toward zero, the remainder takes the dividend's sign, and no case
traps. -/
def Obligations.Division : Prop :=
  ∀ (s : State) (sd sa : SR) (b : OpB),
    let a := s.reg sa
    let y := s.opb b
    let wraps := a = 0x8000000000000000 ∧ y = -1
    (∃ q : Word, Gives (.div sd sa b) s sd q ∧ (y = 0 → q = -1) ∧ (wraps → q = a) ∧
      (y ≠ 0 → ¬wraps → q.toInt = a.toInt.tdiv y.toInt)) ∧
    (∃ r : Word, Gives (.rem sd sa b) s sd r ∧ (y = 0 → r = a) ∧ (wraps → r = 0) ∧
      (y ≠ 0 → ¬wraps → r.toInt = a.toInt - a.toInt.tdiv y.toInt * y.toInt)) ∧
    (∃ q : Word, Gives (.divu sd sa b) s sd q ∧ (y = 0 → q = 0xFFFFFFFFFFFFFFFF) ∧
      (y ≠ 0 → q.toNat = a.toNat / y.toNat)) ∧
    ∃ r : Word, Gives (.remu sd sa b) s sd r ∧ (y = 0 → r = a) ∧
      (y ≠ 0 → r.toNat = a.toNat - a.toNat / y.toNat * y.toNat)

/-- R76 and the rest of R74: the bit-field instructions bit by bit, with the field cut at bit 63; SEL, LIH, ADDPC. R74,
the functions of one operand: CLZ and CTZ count the zero bits above and below the highest and the lowest one bit (64
when there is none), POPC counts the one bits, BREV moves bit i to bit 63 − i. -/
def Obligations.FieldsAndConstants : Prop :=
  (∀ (s : State) (sd sa : SR) (b : OpB) (imm : BitVec 32),
    let a := s.reg sa
    let c := s.opb b
    let lo := c.toNat % 64
    let len := min (c.toNat / 256 % 64 + 1) (64 - lo)
    (∃ w : Word, Gives (.bfxu sd sa b) s sd w ∧
      ∀ i, i < 64 → w.getLsbD i = (decide (i < len) && a.getLsbD (lo + i))) ∧
    (∃ w : Word, Gives (.bfx sd sa b) s sd w ∧
      ∀ i, i < 64 → w.getLsbD i = if i < len then a.getLsbD (lo + i) else a.getLsbD (lo + len - 1)) ∧
    (∃ w : Word, Gives (.bfi sd sa b) s sd w ∧
      ∀ i, i < 64 → w.getLsbD i = if lo ≤ i ∧ i < lo + len then a.getLsbD (i - lo) else (s.reg sd).getLsbD i) ∧
    Gives (.sel sd sa b) s sd (if s.reg sd ≠ 0 then a else c) ∧
    Gives (.lih sd sa imm) s sd (imm.setWidth 64 <<< 32 ||| (a.setWidth 32).setWidth 64) ∧
    Gives (.addpc sd imm) s sd (s.pc + imm.signExtend 64)) ∧
  ∀ (s : State) (sd sa : SR),
    let a := s.reg sa
    (∃ n, Gives (.clz sd sa) s sd (BitVec.ofNat 64 n) ∧ n ≤ 64 ∧ (n < 64 → a.getLsbD (63 - n) = true) ∧
      ∀ i, 64 - n ≤ i → i < 64 → a.getLsbD i = false) ∧
    (∃ n, Gives (.ctz sd sa) s sd (BitVec.ofNat 64 n) ∧ n ≤ 64 ∧ (n < 64 → a.getLsbD n = true) ∧
      ∀ i, i < n → a.getLsbD i = false) ∧
    Gives (.popc sd sa) s sd (BitVec.ofNat 64 ((List.range 64).countP fun i => a.getLsbD i)) ∧
    ∃ w : Word, Gives (.brev sd sa) s sd w ∧ ∀ i, i < 64 → w.getLsbD i = a.getLsbD (63 - i)

/-! ### Branches and jumps -/

/-- R94's conditions. A taken branch continues at PC + SEXT(imm32) × 8, another at PC + 8; nothing
else changes. -/
def Obligations.Branches : Prop :=
  ∀ (s : State) (sa sb : SR) (off : BitVec 32),
    let a := s.reg sa
    let b := s.reg sb
    let dest (c : Prop) [Decidable c] : Word := if c then s.pc + off.signExtend 64 * 8 else s.pc + 8
    GoesTo (.beq sa sb off) s (dest (a = b)) ∧ GoesTo (.bne sa sb off) s (dest (a ≠ b)) ∧
    GoesTo (.blt sa sb off) s (dest (a.toInt < b.toInt)) ∧ GoesTo (.bge sa sb off) s (dest (a.toInt ≥ b.toInt)) ∧
    GoesTo (.bltu sa sb off) s (dest (a.toNat < b.toNat)) ∧ GoesTo (.bgeu sa sb off) s (dest (a.toNat ≥ b.toNat))

/-- R95: JAL and JALR link and jump; JALR reads s[sa] before it writes s[sd], and traps ALIGN with
TVAL = t and nothing written when t is not a multiple of 8 (with the vector side idle). -/
def Obligations.Jumps : Prop :=
  ∀ (s : State) (sd sa : SR) (off : BitVec 32),
    let t := s.reg sa + off.signExtend 64
    (∃ u, exec (.jal sd off) s = .next u ∧ Writes s u sd (s.pc + 8) ∧ u.pc = s.pc + off.signExtend 64 * 8 ∧
      ScalarFrame s u) ∧
    (t.toNat % 8 = 0 → ∃ u, exec (.jalr sd sa off) s = .next u ∧ Writes s u sd (s.pc + 8) ∧ u.pc = t ∧
      ScalarFrame s u) ∧
    (t.toNat % 8 ≠ 0 → s.r.vq = [] → exec (.jalr sd sa off) s = .next (s.enterTrap .align t false))

/-! ### Scalar floating point -/

/-- R78, R79: an FALU instruction that raises no flag whose trap is enabled writes its result, ORs its flags into VFLAGS,
and changes nothing else; the rounding and the exact operations are those of R31–R44, R48. R79's last form: FCVT from
a floating format to itself leaves every encoding but a NaN's as it is and makes a NaN canonical, when DAZ and FTZ are
clear and no trap is enabled. -/
def Obligations.FloatResults : Prop :=
  (∀ (s : State) (i : Instr) (sd : SR) (r : Flagged Nat),
    s.floatOp i = some (sd, r) → s.r.vq = [] → trapEnabled s.vtype r.flags = false →
    ∃ t, exec i s = .next t ∧ Writes s t sd (BitVec.ofNat 64 r.val) ∧ t.pc = s.pc + 8 ∧
      t.r.vect = { s.r.vect with vflags := s.r.vect.vflags ||| r.flags.bits } ∧ SameMemory s t ∧
      t = { s with r := { s.r with scal := { s.r.scal with s := t.r.scal.s, pc := t.r.scal.pc, bad := t.r.scal.bad, pend := t.r.scal.pend },
                                   vect := t.r.vect, asks := t.r.asks, replies := t.r.replies, pages := t.r.pages } }) ∧
  ∀ (s : State) (sd sa : SR) (f : FFmt),
    s.r.vq = [] → NoFpTraps s → bitOf s.vtype 3 = false → bitOf s.vtype 4 = false →
    let x := (s.reg sa).toNat % 2 ^ f.ff.width
    ∃ t, exec (.fcvt sd sa (.fp f) (.fp f)) s = .next t ∧
      Writes s t sd (BitVec.ofNat 64 (if (f.ff.val x).isNan then f.ff.qnan else x))

/-- R81 whole. An enabled flag traps FPE precisely: TEPC is the instruction's PC, TVAL bits 4:0
hold every flag raised, no scalar register and no flag has changed. -/
def Obligations.FloatTraps : Prop :=
  ∀ (s : State) (i : Instr) (sd : SR) (r : Flagged Nat),
    s.floatOp i = some (sd, r) → s.r.vq = [] → trapEnabled s.vtype r.flags = true →
    ∃ t, exec i s = .next t ∧ t.r.scal.sysr.tcause = 0x11 ∧ t.r.scal.sysr.tepc = s.pc ∧
      t.r.scal.sysr.tval = r.flags.bits.setWidth 64 ∧ (∀ n, t.reg n = s.reg n) ∧
      t.r.vect.vflags = s.r.vect.vflags

/-- R80. FCLASS writes one bit, by the encoding's sign, exponent and fraction alone; it raises no
flag and does not look at DAZ. -/
def Obligations.FloatClasses : Prop :=
  ∀ (s : State) (sd sa : SR) (f : FFmt),
    let (eb, fb) : Nat × Nat := match f with
      | .f32 => (8, 23) | .f64 => (11, 52) | .bf16 => (8, 7) | .f16 => (5, 10)
    let x := (s.reg sa).toNat
    let frac := x % 2 ^ fb
    let e := x / 2 ^ fb % 2 ^ eb
    let neg := x / 2 ^ (fb + eb) % 2 = 1
    let k := if e = 2 ^ eb - 1 then
        (if frac = 0 then (if neg then 0 else 7) else if frac < 2 ^ (fb - 1) then 8 else 9)
      else if e = 0 then
        (if frac = 0 then (if neg then 3 else 4) else (if neg then 2 else 5))
      else if neg then 1 else 6
    Gives (.fclass f sd sa) s sd (BitVec.ofNat 64 (2 ^ k))

/-! ### Loads, stores, atomics -/

/-- R83: a load of the module's own memory writes its bytes, little-endian and extended as its size says,
the runner's buffered strip stores included; no byte of memory and no other register changes.
The model's own choices it rests on: log 4. -/
def Obligations.Loads : Prop :=
  ∀ (s : State) (sz : LSize) (acq : Bool) (scope : Scope) (sd sa : SR) (off : BitVec 32) (key : Nat),
    let va := s.reg sa + off.signExtend 64
    Reaches s va sz.bytes .load key → s.r.vq = [] →
    let v := leBytesToNat (s.ownBytes key sz.bytes)
    ∃ t, exec (.ld sz acq scope sd sa off) s = .next t ∧
      Writes s t sd (if sz.signed then (BitVec.ofNat (8 * sz.bytes) v).signExtend 64 else BitVec.ofNat 64 v) ∧
      t.pc = s.pc + 8 ∧ SameMemory s t ∧ RegisterFrame s t ∧ t.r.strip = s.r.strip

/-- R84: outside a protected strip a store of the module's own memory writes the low bytes of s[sb], little-endian, at its
address; every other byte of memory and every register but the PC is unchanged. R87: inside a protected strip a store
that fits enters the strip store buffer: memory is unchanged, a load by the runner afterwards gives the bytes stored;
one that would overflow the buffer ends protection (R23). R87: the strip store buffer commits in program order:
outside deterministic mode every byte of memory afterwards is the last one buffered for it, or as before.
The model's own choices it rests on: log 4. -/
def Obligations.Stores : Prop :=
  (∀ (s : State) (sz : SSize) (rel : Bool) (scope : Scope) (sb sa : SR) (off : BitVec 32) (key : Nat),
    let va := s.reg sa + off.signExtend 64
    Reaches s va sz.bytes .store key → s.r.vq = [] → s.r.strip.prot = false → Memory.wf s.mem →
    ∃ t, exec (.st sz rel scope sb sa off) s = .next t ∧
      (∀ i, i < sz.bytes → t.byteAt (key + i) = (s.reg sb).extractLsb' (8 * i) 8) ∧
      SameMemoryBut s t key sz.bytes ∧ (∀ n, t.reg n = s.reg n) ∧ t.pc = s.pc + 8 ∧ RegisterFrame s t ∧
      t.r.strip = s.r.strip) ∧
  (∀ (s : State) (sz : SSize) (rel : Bool) (scope : Scope) (sb sa : SR) (off : BitVec 32) (key : Nat),
    let va := s.reg sa + off.signExtend 64
    Reaches s va sz.bytes .store key → s.r.vq = [] → s.r.strip.prot = true →
    ∃ t, exec (.st sz rel scope sb sa off) s = .next t ∧ (∀ n, t.reg n = s.reg n) ∧ t.pc = s.pc + 8 ∧
      (s.r.strip.count + 8 * sz.bytes ≤ s.stripCap →
        SameMemory s t ∧ t.r.strip.prot = true ∧ t.r.strip.count = s.r.strip.count + 8 * sz.bytes ∧
        ∀ i, i < sz.bytes → (t.ownBytes key sz.bytes)[i]? = some ((s.reg sb).extractLsb' (8 * i) 8)) ∧
      (s.stripCap < s.r.strip.count + 8 * sz.bytes → t.r.strip.prot = false ∧ t.r.strip.buf = [])) ∧
  ∀ (s : State) (a : Nat), detOf s.vtype = false → Memory.wf s.mem → s.r.strip.lines = [] →
    (∀ x ∈ s.r.strip.buf, ∀ c ∈ x.cells, isOutKey c.1 = false) →
    [s.commitStrip.byteAt a] = overlayActs s.r.strip.buf a [s.byteAt a] ∧
    s.commitStrip.r.strip.buf = []

/-- R82, checks 1 and 2, in their order: an address with a bit of 63:57 set traps ACCESS, another that is
no multiple of the access size traps ALIGN, with TVAL the address, for loads, stores and atomics (with the vector side
idle). -/
def Obligations.AddressChecks : Prop :=
  ∀ (s : State) (lz : LSize) (sz : SSize) (acq dbl : Bool) (ord : Order) (scope : Scope) (sd sb sa : SR)
    (off : BitVec 32), s.r.vq = [] →
    let la := s.reg sa + off.signExtend 64
    let check (i : Instr) (va : Word) (n : Nat) : Prop :=
      (2 ^ 57 ≤ va.toNat → exec i s = .next (s.enterTrap .access va false)) ∧
      (va.toNat < 2 ^ 57 → va.toNat % n ≠ 0 → exec i s = .next (s.enterTrap .align va false))
    let w := if dbl then 8 else 4
    check (.ld lz acq scope sd sa off) la lz.bytes ∧ check (.st sz acq scope sb sa off) la sz.bytes ∧
    check (.amoadd dbl ord scope sd sb sa) (s.reg sa) w ∧ check (.amoand dbl ord scope sd sb sa) (s.reg sa) w ∧
    check (.amoor dbl ord scope sd sb sa) (s.reg sa) w ∧ check (.amoxor dbl ord scope sd sb sa) (s.reg sa) w ∧
    check (.amomin dbl ord scope sd sb sa) (s.reg sa) w ∧ check (.amomax dbl ord scope sd sb sa) (s.reg sa) w ∧
    check (.amominu dbl ord scope sd sb sa) (s.reg sa) w ∧ check (.amomaxu dbl ord scope sd sb sa) (s.reg sa) w ∧
    check (.amoswap dbl ord scope sd sb sa) (s.reg sa) w ∧ check (.amocas dbl ord scope sd sb sa) (s.reg sa) w ∧
    check (.amofadd ord scope sd sb sa) (s.reg sa) 4

/-- R88, R89: an atomic on the module's own memory gives s[sd] the old value, sign-extended (zero-extended
for AMOFADD), and leaves the new one in memory, little-endian; a failed AMOCAS writes nothing; no other byte and no other
register changes.
The model's own choices it rests on: log 7, 38. -/
def Obligations.Atomics : Prop :=
  ∀ (s : State) (dbl : Bool) (ord : Order) (scope : Scope) (sd sb sa : SR) (key : Nat) (n : Nat),
    n = (if dbl then 8 else 4) →
    Reaches s (s.reg sa) n .amo key → s.r.vq = [] → s.r.strip.prot = false → Memory.wf s.mem →
    let old := leBytesToNat (bytesAt s.mem key n)
    let b := (s.reg sb).toNat % 2 ^ (8 * n)
    let sg (x : Nat) : Int := (BitVec.ofNat (8 * n) x).toInt
    let done (i : Instr) (new : Nat) (res : Word) : Prop :=
      ∃ t, exec i s = .next t ∧ Writes s t sd res ∧ t.pc = s.pc + 8 ∧
        (∀ j, j < n → t.byteAt (key + j) = BitVec.ofNat 8 (new / 2 ^ (8 * j))) ∧ SameMemoryBut s t key n ∧
        RegisterFrame s t
    let sext : Word := (BitVec.ofNat (8 * n) old).signExtend 64
    done (.amoadd dbl ord scope sd sb sa) ((old + b) % 2 ^ (8 * n)) sext ∧
    done (.amoand dbl ord scope sd sb sa) (old &&& b) sext ∧ done (.amoor dbl ord scope sd sb sa) (old ||| b) sext ∧
    done (.amoxor dbl ord scope sd sb sa) (old ^^^ b) sext ∧
    done (.amomin dbl ord scope sd sb sa) (if sg old < sg b then old else b) sext ∧
    done (.amomax dbl ord scope sd sb sa) (if sg old < sg b then b else old) sext ∧
    done (.amominu dbl ord scope sd sb sa) (min old b) sext ∧ done (.amomaxu dbl ord scope sd sb sa) (max old b) sext ∧
    done (.amoswap dbl ord scope sd sb sa) b sext ∧
    done (.amocas dbl ord scope sd sb sa) (if old = (s.reg sd).toNat % 2 ^ (8 * n) then b else old) sext ∧
    (dbl = false → done (.amofadd ord scope sd sb sa)
      (FF.fp32.rne false (addX .rne (FF.fp32.val old) (FF.fp32.val b)).val).val (BitVec.ofNat 64 old))

/-! ### Control registers, levels and traps -/

/-- The control register map: RDCR gives s[sd] what the register holds and changes nothing else; the values
of the registers that are not made of fields (R20, R24, R96). -/
def Obligations.ControlReads : Prop :=
  ∀ (s : State) (sd : SR),
    (∀ cr, crExists cr = true → (crSystem cr = true → s.r.scal.sysr.sys = true) → (crOrdered cr = true → s.r.vq = []) →
      Gives (.rdcr sd cr) s sd (s.crRead cr)) ∧
    s.crRead 0x000 = BitVec.ofNat 64 s.vl ∧ s.crRead 0x001 = BitVec.ofNat 64 s.vstart ∧ s.crRead 0x002 = s.vtype ∧
    s.crRead 0x003 = s.r.vect.vflags.setWidth 64 ∧ s.crRead 0x004 = BitVec.ofNat 64 s.vlen ∧
    s.crRead 0x005 = s.r.strip.sc ∧ s.crRead 0x006 = s.r.strip.scap.setWidth 64 ∧ s.crRead 0x007 = s.r.strip.sind ∧
    s.crRead 0x020 = (if s.r.ident.core.cluster < 14 then 1 else 0) ∧
    s.crRead 0x022 = BitVec.ofNat 64 s.rid.runner ∧ s.crRead 0x023 = BitVec.ofNat 64 s.rid.team ∧
    s.crRead 0x024 = BitVec.ofNat 64 s.rid.heat ∧ s.crRead 0x025 = s.r.ident.lidx[0].setWidth 64 ∧
    s.crRead 0x02C = s.r.ident.lext[3].setWidth 64 ∧ s.crRead 0x030 = BitVec.ofNat 64 s.time ∧
    s.crRead 0x031 = s.myCore.cycle ∧ s.crRead 0x032 = s.r.scal.wdead ∧ s.crRead 0x040 = s.r.ident.ownBase ∧
    s.crRead 0x044 = s.r.scal.bypass.setWidth 64 ∧ s.crRead 0x045 = s.r.scal.pinslice ∧
    s.crRead 0x050 = s.r.ident.seed ^^^ (BitVec.ofNat 64 s.r.ident.linear <<< 32) ∧
    s.crRead 0x051 = s.r.vect.rngctr ∧ s.crRead 0x052 = s.r.ident.seed ∧ s.crRead 0x100 = s.r.scal.sysr.tcause ∧
    s.crRead 0x101 = s.r.scal.sysr.tepc ∧ s.crRead 0x102 = s.r.scal.sysr.tval ∧ s.crRead 0x103 = s.r.scal.sysr.tvec ∧
    s.crRead 0x105 = s.r.scal.sysr.ptbase

/-- R96, R97, R19: a legal write reaches its register, DET and LINES excepted, and no other control register
reads differently; SETCR and CLRCR give s[sd] the old value. Memory is unchanged.
The model's own choices it rests on: log 8. -/
def Obligations.ControlWrites : Prop :=
  ∀ (s : State) (cr : BitVec 12) (sd sa : SR), s.r.vq = [] → (crSystem cr = true → s.r.scal.sysr.sys = true) →
    crWritable cr = true → (cr = 0x106 → (s.part? s.rid.part).isSome = true) →
    let old := s.crRead cr
    let w (i : Instr) (v : Word) (regs : State → Prop) : Prop :=
      (crLegal cr v = false → exec i s = .next (s.enterTrap .illegal v false)) ∧ (crLegal cr v = true →
      ∃ t, exec i s = .next t ∧ t.pc = s.pc + 8 ∧ regs t ∧ SameMemory s t ∧
        (t.crRead cr = if cr = 0x002 then (v &&& ~~~0x8000#64) ||| (old &&& 0x8000#64)
          else if cr = 0x107 then s.occup s.rid.part (bitsOf v 44 3) (bitsOf v 32 12) else v) ∧
        ∀ k, crExists k = true → k ≠ cr → t.crRead k = s.crRead k)
    w (.wrcr cr sa) (s.reg sa) (fun t => ∀ n, t.reg n = s.reg n) ∧
    w (.setcr sd cr sa) (old ||| s.reg sa) (fun t => Writes s t sd old) ∧
    w (.clrcr sd cr sa) (old &&& ~~~s.reg sa) (fun t => Writes s t sd old)

/-- R29, R70 (check 5), R98: at user level ERET, TLBINV, CINV and every CR instruction that names a system register trap
PRIV with the instruction's word in TVAL, whatever their operands (with the vector side idle). R99: SYSCALL and BREAK
take their trap with TEPC the instruction's own PC and TVAL = ZEXT(imm32); NOP advances the PC and nothing else. -/
def Obligations.SystemInstructions : Prop :=
  (∀ (s : State) (cr : BitVec 12) (sd sa : SR) (all : Bool), s.r.vq = [] → s.r.scal.sysr.sys = false →
    let traps (i : Instr) : Prop := ∃ w, encode i = some w ∧ exec i s = .next (s.enterTrap .priv w false)
    traps .eret ∧ traps (.tlbinv sa all) ∧ traps (.cinv sa all) ∧
    (crSystem cr = true → traps (.rdcr sd cr) ∧ traps (.wrcr cr sa) ∧ traps (.setcr sd cr sa) ∧ traps (.clrcr sd cr sa))) ∧
  ∀ (s : State) (imm : BitVec 32),
    GoesTo .nop s (s.pc + 8) ∧
    (s.r.vq = [] →
      (∃ t, exec (.syscall imm) s = .next t ∧ t = s.enterTrap .syscall (imm.setWidth 64) false ∧
        t.r.scal.sysr.tepc = s.pc ∧ t.r.scal.sysr.tcause = 0x13 ∧ t.r.scal.sysr.tval = imm.setWidth 64 ∧
        t.pc = s.r.scal.sysr.tvec) ∧
      ∃ t, exec (.brk imm) s = .next t ∧ t = s.enterTrap .brk (imm.setWidth 64) false ∧
        t.r.scal.sysr.tepc = s.pc ∧ t.r.scal.sysr.tcause = 0x12 ∧ t.r.scal.sysr.tval = imm.setWidth 64 ∧
        t.pc = s.r.scal.sysr.tvec)

/-- R29, R101, R114: taking a trap saves the PC, the value and the cause, records the level, inhibits
nesting, enters system level at TVEC and ends strip protection; every scalar and vector register and every queue stays,
and memory too when no strip store was buffered. -/
def Obligations.TrapEntry : Prop :=
  ∀ (s : State) (c : Cause) (v : Word) (imp : Bool),
    let t := s.enterTrap c v imp
    let y := t.r.scal.sysr
    t.pc = s.r.scal.sysr.tvec ∧ y.tepc = s.pc ∧ y.tval = v ∧ y.tcause = BitVec.ofNat 64 (c.code + if imp then 256 else 0) ∧
    y.ppl = s.r.scal.sysr.sys ∧ y.inh = true ∧ y.sys = true ∧ y.tvec = s.r.scal.sysr.tvec ∧
    y.ptbase = s.r.scal.sysr.ptbase ∧ (∀ n, t.reg n = s.reg n) ∧ t.r.vect = s.r.vect ∧ t.r.queues = s.r.queues ∧
    t.r.strip.prot = false ∧ t.r.strip.active = s.r.strip.active ∧ t.r.strip.ckPc = s.r.strip.ckPc ∧
    (s.r.strip.prot = false → SameMemory s t) ∧
    ∀ h, s.myHeat? = some h →
      (s.r.scal.sysr.inh = true ∨ h.desc.handler = none → h.live = true → h.cancelled = false →
        ∃ g, t.heat? s.rid.part s.rid.heat = some g ∧ g.cancelled = true ∧ g.status = 2 ∧
          g.trap = some (c.code + if imp then 256 else 0, v, s.pc)) ∧
      (s.r.scal.sysr.inh = false → h.desc.handler ≠ none → t.heats = s.heats)

/-- R100. At system level ERET continues at TEPC at the level TSTATUS.PPL with INH clear, nothing
else changed; a TEPC that is no multiple of 8 traps ALIGN with TVAL = TEPC. -/
def Obligations.ReturnFromTrap : Prop :=
  ∀ (s : State), s.r.vq = [] → s.r.scal.sysr.sys = true →
    let y := s.r.scal.sysr
    (y.tepc.toNat % 8 = 0 → ∃ t, exec .eret s = .next t ∧ t.pc = y.tepc ∧
      t.r.scal = { s.r.scal with pc := y.tepc, sysr := { y with sys := y.ppl, inh := false } } ∧
      SameMemory s t ∧ t.r.vect = s.r.vect ∧ t.r.strip = s.r.strip ∧ t.r.queues = s.r.queues ∧ t.heats = s.heats) ∧
    (y.tepc.toNat % 8 ≠ 0 → exec .eret s = .next (s.enterTrap .align y.tepc false))

/-- R103, R105, R106, R108: the fences, IFENCE, TLBINV, PREFETCH, CFLUSH and CINV complete, change no
register but the PC and no byte of memory (CINV may lose bytes of its own line), and leave behind the order they make:
which side, stream or later copy may still see what an earlier store of the runner replaced, which lines the core's L1
still holds (R278), which translations a core and which table entries a walker still holds (R299; with no access under
way). A copy engine lies within team scope, and a store to a local window performs at every scope (R270), so a fence of any
scope puts such a store before later copies. A store still in the strip store buffer keeps its bytes and takes the same order
with it; CFLUSH acts at once when the buffer holds none of the scalar side for its line, CINV whatever it holds.
The model's own choices it rests on: log 3, 4, 77. -/
def Obligations.FencesAndCaches : Prop :=
  ∀ (s : State) (kind : FenceKind) (scope : Scope) (sa : SR) (mode : Bool) (key : Nat),
    s.r.vq = [] → s.r.fabric = none → s.r.share = [] →
    let quiet (i : Instr) (p : State → Prop) : Prop := ∃ t, exec i s = .next t ∧ t.pc = s.pc + 8 ∧
      (∀ n, t.reg n = s.reg n) ∧ t.r.vect = s.r.vect ∧ t.r.queues = s.r.queues ∧
      t.r.strip = { s.r.strip with buf := t.r.strip.buf } ∧
      t.r.strip.buf.map (fun a => a.cells) = s.r.strip.buf.map (fun a => a.cells) ∧ p t
    let wide := wideScope scope = true
    let near (l : List Host.Cell) : Prop := wide ∨ ∀ c ∈ l, localBase ≤ c.1
    quiet (.fence kind scope) (fun t => SameMemory s t ∧ (wide → t.myCore.l1 = []) ∧
      (∀ h ∈ t.r.hist,
        (kind = .all → h.vec = false ∧ h.scal = false ∧ h.strm = false ∧ (near h.cells → h.box = false)) ∧
        (kind = .sv → h.byVec = false → h.vec = false ∧ h.strm = false) ∧
        (kind = .vs → h.byVec = true → h.scal = false ∧ (near h.cells → h.box = false)) ∧
        (kind = .vv → h.byVec = true → h.strm = false)) ∧
      ∀ a ∈ t.r.strip.buf,
        (kind = .all → a.strm = false ∧ (near a.cells → a.box = false)) ∧
        (kind = .sv → a.byVec = false → a.strm = false) ∧
        (kind = .vs → a.byVec = true → near a.cells → a.box = false) ∧
        (kind = .vv → a.byVec = true → a.strm = false)) ∧
    quiet .ifence (fun t => SameMemory s t ∧ (∀ h ∈ t.r.hist, h.fetch = false) ∧ ∀ a ∈ t.r.strip.buf, a.fetch = false) ∧
    (s.r.scal.sysr.sys = true → NothingUnderWay s →
      quiet (.tlbinv sa mode) (fun t => SameMemory s t ∧
        (∀ c ∈ t.cores, ∀ e ∈ c.tlb, e.part = s.rid.part →
          mode = false ∧ ¬(e.page ≤ s.tableAddr (s.reg sa).toNat ∧ s.tableAddr (s.reg sa).toNat < e.page + e.size)) ∧
        ∀ c ∈ t.clusters, ∀ x ∈ c.walker, x.1 ≠ s.rid.part)) ∧
    quiet (.prefetch sa mode) (SameMemory s) ∧
    ((s.resolve (s.reg sa) 1 1 .load).1 = .found key → key < 2 ^ 41 →
      ((∀ a ∈ s.r.strip.buf, a.byVec = false → ∀ c ∈ a.cells, lineOf c.1 ≠ lineOf key) →
        quiet (.cflush sa mode) (fun t => SameMemory s t ∧ (∀ c ∈ t.under, lineOf c.1 ≠ lineOf key) ∧
          (mode = true → ∀ l ∈ t.lines, l.line ≠ lineOf key))) ∧
      (s.r.scal.sysr.sys = true → Memory.wf s.mem →
        quiet (.cinv sa false) (fun t => (∀ a, lineOf a ≠ lineOf key → t.byteAt a = s.byteAt a) ∧
          (∀ l ∈ t.lines, l.line ≠ lineOf key) ∧ ∀ c ∈ t.under, lineOf c.1 ≠ lineOf key))) ∧
    (s.r.scal.sysr.sys = true → quiet (.cinv sa true) (fun t => SameMemory s t ∧ t.myCore.l1 = []))

/-! ### Strips and hand-off queues -/

/-- R109: STRIP.BEGIN, STRIP.NEXT and STRIP.EXIT as their pseudocode has them: SC, SIND, SCAP, VL and s[sd], the
checkpoint, ACTIVE and PROT, the next PC. VSTART does not change. R110, R243: a rewind restores the induction
registers SIND named when the checkpoint was taken and SC, sets VL to NVL, empties the strip store buffer and the hand-off queues, counts itself,
and continues at the checkpoint's PC, protected; no other scalar or vector register and no byte of memory changes.
The model's own choices it rests on: log 4. -/
def Obligations.StripInstructions : Prop :=
  (∀ (s : State) (sd sa sb : SR) (cap : BitVec 16) (off : BitVec 32), s.r.vq = [] →
    let nvl (sc c : Nat) : Nat := if c = 0 then min sc (s.vlen * 8 / sewOf s.vtype)
      else min (min sc (s.vlen * 8 / sewOf s.vtype)) c
    let begins (t : State) (sc c : Nat) (top : Word) : Prop :=
      t.vl = nvl sc c ∧ Writes s t sd (BitVec.ofNat 64 (nvl sc c)) ∧ t.r.strip.active = true ∧ t.r.strip.prot = true ∧
      t.r.strip.ckPc = top ∧ t.r.strip.ckSc = t.r.strip.sc ∧ t.r.strip.ckRegs = t.r.scal.s ∧
      t.r.strip.ckSind = t.r.strip.sind ∧ t.pc = top
    let ends (t : State) : Prop :=
      t.vl = 0 ∧ Writes s t sd 0 ∧ t.r.strip.active = false ∧ t.r.strip.prot = false ∧ t.pc = s.pc + 8
    (∃ t, exec (.stripBegin sd sa sb cap) s = .next t ∧ t.vstart = s.vstart ∧ t.r.strip.sc = s.reg sa ∧
      t.r.strip.sind = s.reg sb &&& ~~~1#64 ∧ t.r.strip.scap = cap ∧ t.r.vect.v = s.r.vect.v ∧
      (s.reg sa = 0 → ends t) ∧ (s.reg sa ≠ 0 → begins t (s.reg sa).toNat cap.toNat (s.pc + 8))) ∧
    (∃ t, exec (.stripNext sd off) s = .next t ∧ t.vstart = s.vstart ∧ t.r.strip.sind = s.r.strip.sind ∧
      t.r.vect.v = s.r.vect.v ∧
      (s.r.strip.active = false → t.vl = 0 ∧ Writes s t sd 0 ∧ t.pc = s.pc + 8 ∧ t.r.strip = s.r.strip) ∧
      (s.r.strip.active = true →
        let left := s.r.strip.sc.toNat - min s.vl s.r.strip.sc.toNat
        t.r.strip.sc = BitVec.ofNat 64 left ∧ t.r.strip.buf = [] ∧ (left = 0 → ends t) ∧
        (0 < left → begins t left s.r.strip.scap.toNat (s.pc + off.signExtend 64 * 8)))) ∧
    ∃ t, exec .stripExit s = .next t ∧ t.pc = s.pc + 8 ∧ t.r.strip.sc = 0 ∧ t.r.strip.active = false ∧
      t.r.strip.prot = false ∧ t.r.strip.buf = [] ∧ t.r.vect = s.r.vect ∧ ∀ n, t.reg n = s.reg n) ∧
  ∀ (s : State) (last : BitVec 2), s.r.vq = [] →
    let t := s.rewind last
    let n := min s.r.strip.ckSc.toNat (s.vlen * 8 / sewOf s.vtype)
    t.pc = s.r.strip.ckPc ∧ t.r.strip.sc = s.r.strip.ckSc ∧
    (∀ r : SR, t.reg r = if r ≠ 0 ∧ s.r.strip.ckSind.getLsbD r.val then s.r.strip.ckRegs[r] else s.reg r) ∧
    t.vl = (if s.r.strip.scap = 0 then n else min n s.r.strip.scap.toNat) ∧ t.r.vect.v = s.r.vect.v ∧
    t.r.vect.vflags = s.r.vect.vflags ∧ t.r.strip.buf = [] ∧ (∀ q : QR, t.r.queues[q] = []) ∧
    t.r.strip.rewinds = min 65535 (s.r.strip.rewinds + 1) ∧ t.r.strip.last = last ∧ t.r.strip.prot = true ∧ SameMemory s t

/-- R112, R17: the scalar side's ends of the hand-off queues, first in, first out, with nothing in the vector
queue: QPOP, BQ and BQZ remove the head of a queue that has one and test that value itself; QPUSH appends to one with
room; QPEEK never waits.
The model's own choices it rests on: log 71. -/
def Obligations.QueueInstructions : Prop :=
  ∀ (s : State) (sd sa : SR) (q : QR) (off : BitVec 32), s.r.vq = [] →
    let dest (c : Prop) [Decidable c] : Word := if c then s.pc + off.signExtend 64 * 8 else s.pc + 8
    let pops (i : Instr) (w : Word) (l : List Word) (pc : Word) : Prop := ∃ t, exec i s = .next t ∧ Writes s t sd w ∧
      t.pc = pc ∧ t.r.queues[q] = l ∧ (∀ p : QR, p ≠ q → t.r.queues[p] = s.r.queues[p]) ∧ SameMemory s t ∧
      t.r.vect = s.r.vect ∧ t.r.strip = s.r.strip
    let dead (i : Instr) : Prop := exec i s = .next (s.enterTrap .illwait (BitVec.ofNat 64 q.val) false)
    (s.r.queues[q] = [] → dead (.qpop sd q) ∧ dead (.bq sd q off) ∧ dead (.bqz sd q off)) ∧
    (16 ≤ s.r.queues[q].length → dead (.qpush q sa)) ∧
    (∀ w l, s.r.queues[q] = w :: l →
      pops (.qpop sd q) w l (s.pc + 8) ∧ pops (.bq sd q off) w l (dest (w ≠ 0)) ∧
      pops (.bqz sd q off) w l (dest (w = 0))) ∧
    (s.r.queues[q].length < 16 → ∃ t, exec (.qpush q sa) s = .next t ∧ t.pc = s.pc + 8 ∧
      t.r.queues[q] = s.r.queues[q] ++ [s.reg sa] ∧ (∀ p : QR, p ≠ q → t.r.queues[p] = s.r.queues[p]) ∧
      (∀ n, t.reg n = s.reg n) ∧ SameMemory s t ∧ t.r.vect = s.r.vect) ∧
    ∃ t, exec (.qpeek sd q) s = .next t ∧ t.pc = s.pc + 8 ∧ t.r.queues = s.r.queues ∧
      t.r.scal.peek = !s.r.queues[q].isEmpty ∧ Writes s t sd (s.r.queues[q].headD 0) ∧ SameMemory s t

/-! ### Vector arithmetic, logic, conversions -/

/-- R122–R124, R37, R117: integer vector arithmetic, element by element, the exact result clamped or taken modulo 2^w as
VTYPE.SAT says; a division by zero gives all ones. Nothing but the destination changes. -/
def Obligations.VectorIntegers : Prop :=
  ∀ (s : State) (m : VMod) (vd va vc : VR) (b : VB),
    s.kind va = .int → s.destKind vd = .int → s.operandIs .int b →
    let d := s.fmtOf vd
    let x := (s.vreg va).index
    let y := s.intOperand va b
    let z := (s.vreg vc).index
    let fit (v : Int) : Nat := bitsIn d.width (fitted (bitOf s.vtype 5) (d.intSigned = some true) d.width v)
    let runs (i : Instr) (n : Names) (val : Nat → Nat) : Prop := FreeToRun i s → LengthOk s n m.mask →
      Elementwise i s m.mask vd (s.vlmaxOf n) {} fun j => { val := val j }
    let one := namesOf vd va none none
    let two := namesOf vd va (some b) none
    let three := namesOf vd va (some b) (some vc)
    runs (.vadd m vd va b) two (fun j => fit (x j + y j)) ∧ runs (.vsub m vd va b) two (fun j => fit (x j - y j)) ∧
    runs (.vmul m vd va b) two (fun j => fit (x j * y j)) ∧
    runs (.vdiv m vd va b) two (fun j => if y j = 0 then 2 ^ d.width - 1 else fit ((x j).tdiv (y j))) ∧
    runs (.vmin m vd va b) two (fun j => fit (min (x j) (y j))) ∧
    runs (.vmax m vd va b) two (fun j => fit (max (x j) (y j))) ∧
    runs (.vabs m vd va) one (fun j => fit |x j|) ∧ runs (.vneg m vd va) one (fun j => fit (-x j)) ∧
    (s.kind vc = .int →
      runs (.vfma m vd va b vc) three (fun j => fit (x j * y j + z j)) ∧
      runs (.vfms m vd va b vc) three (fun j => fit (x j * y j - z j)) ∧
      runs (.vfnma m vd va b vc) three (fun j => fit (z j - x j * y j)))

/-- R122, R123, R44, R47: floating vector arithmetic: each active element is one exact operation on the sources read by
SRC, delivered once to the destination's format; the flags of the active elements and of a scalar's one conversion are
gathered into VFLAGS. With no trap enabled nothing else changes. R128, R127: VSCALB multiplies by 2 to the power of an
integer clamped to 17 bits; VTWOSUM leaves the sum rounded to nearest in vd and, when the sum is finite, its error in
vd + 1.
The model's own choices it rests on: log 30, 72. -/
def Obligations.VectorFloats : Prop :=
  (∀ (s : State) (m : VMod) (vd va vc : VR) (b : VB) (g : FF),
    s.kind va = .float → s.destKind vd = .float → s.fmtOf vd = .fp g → s.operandIs .float b → NoFpTraps s →
    let rm := rmOf s.vtype
    let x := (s.vreg va).src (bitOf s.vtype 4)
    let y := s.srcB va b (s.capture b)
    let z := (s.vreg vc).src (bitOf s.vtype 4)
    let runs (i : Instr) (n : Names) (fl : Flags) (val : Nat → Flagged XVal) : Prop :=
      FreeToRun i s → LengthOk s n m.mask →
      Elementwise i s m.mask vd (s.vlmaxOf n) fl fun j => g.deliver (modesOf s.vtype) (val j)
    let one := namesOf vd va none none
    let two := namesOf vd va (some b) none
    let three := namesOf vd va (some b) (some vc)
    runs (.vadd m vd va b) two y.flags (fun j => addX rm (x j) (y.val j)) ∧
    runs (.vsub m vd va b) two y.flags (fun j => addX rm (x j) (y.val j).negate) ∧
    runs (.vmul m vd va b) two y.flags (fun j => mulX (x j) (y.val j)) ∧
    runs (.vdiv m vd va b) two y.flags (fun j => divX (x j) (y.val j)) ∧
    runs (.vmin m vd va b) two y.flags (fun j => minMaxX false (x j) (y.val j)) ∧
    runs (.vmax m vd va b) two y.flags (fun j => minMaxX true (x j) (y.val j)) ∧
    runs (.vabs m vd va) one {} (fun j => { val := (x j).abs, flags := nvIf (x j).isSnan }) ∧
    runs (.vneg m vd va) one {} (fun j => { val := (x j).negate, flags := nvIf (x j).isSnan }) ∧
    runs (.vsqrt m vd va) one {} (fun j => sqrtX (x j)) ∧
    (s.kind vc = .float →
      runs (.vfma m vd va b vc) three y.flags (fun j => fmaX rm (x j) (y.val j) (z j)) ∧
      runs (.vfms m vd va b vc) three y.flags (fun j => fmaX rm (x j) (y.val j) (z j).negate) ∧
      runs (.vfnma m vd va b vc) three y.flags (fun j => fmaX rm (x j).negate (y.val j) (z j)))) ∧
  ∀ (s : State) (m : VMod) (vd va : VR) (b : VB) (g : FF),
    s.kind va = .float → s.destKind vd = .float → s.fmtOf vd = .fp g → NoFpTraps s →
    let x := (s.vreg va).src (bitOf s.vtype 4)
    let k (j : Nat) : Int := match b with
      | .vec r => (s.vreg r).index j
      | .scal r => (s.reg r).toInt
    (s.operandIs .int b → FreeToRun (.vscalb m vd va b) s → LengthOk s (namesOf vd va (some b) none) m.mask →
      Elementwise (.vscalb m vd va b) s m.mask vd (s.vlmaxOf (namesOf vd va (some b) none)) {} fun j =>
        g.deliver (modesOf s.vtype)
          { val := (x j).scale (max (-65536) (min 65535 (k j))), flags := nvIf (x j).isSnan }) ∧
    (s.operandIs .float b → s.destKind (vd + 1) = .float → s.fmtOf (vd + 1) = .fp g →
      (match b with | .vec r => opFormat (s.vreg va).opf (s.vreg r).opf | .scal _ => (s.vreg va).opf) = g →
      let n : Names := { vd := some vd, va := some va, vb := VB.reg? b, more := [vd + 1] }
      FreeToRun (.vtwosum m vd va b) s → LengthOk s n m.mask →
      let y := s.srcB va b (s.capture b)
      let two (j : Nat) := twoSum g (bitOf s.vtype 3) (bitOf s.vtype 5) (x j) (y.val j)
      ∃ t, exec (.vtwosum m vd va b) s = .next t ∧ VectorFrame s t [vd, vd + 1] ∧ t.r.queues = s.r.queues ∧
        ElementResult s t m.mask vd s.vstart (s.vlmaxOf n) (fun j => (two j).val.1) ∧
        ElementResult s t m.mask (vd + 1) s.vstart (s.vlmaxOf n) (fun j => (two j).val.2) ∧
        t.r.vect.vflags = s.r.vect.vflags ||| (s.gather m.mask y.flags fun j => (two j).flags).bits)

/-- R118: at the first active element, from VSTART up, that raises a flag whose trap is enabled, a floating vector
instruction traps FPE: TVAL holds that element's flags, VSTART its index; the elements below it are written, and no
other register is, and VFLAGS gathers the flags of those elements alone. R115, R116, R240: before any element a vector
instruction checks its mask's tag, then its registers' tags, then VL against VLMAX, and traps TAG with the fields of
TVAL as R116 lays them out, no register written; a convoy that breaks a rule traps CONVOY before its first member
acts, as one does whose second member uses no unit or a unit of the first.
The model's own choices it rests on: log 9, 29, 32, 72, 84. -/
def Obligations.VectorTraps : Prop :=
  (∀ (s : State) (m : VMod) (vd va : VR) (b : VB) (g : FF) (k : Nat),
    s.kind va = .float → s.destKind vd = .float → s.fmtOf vd = .fp g → s.operandIs .float b →
    let x := (s.vreg va).src (bitOf s.vtype 4)
    let y := s.srcB va b (s.capture b)
    trapEnabled s.vtype y.flags = false → s.vstart ≤ k → k < s.vl → s.active m.mask k = true →
    let stops (i : Instr) (exact : Nat → Flagged XVal) : Prop :=
      let val (j : Nat) := g.deliver (modesOf s.vtype) (exact j)
      trapEnabled s.vtype (val k).flags = true →
      (∀ j, s.vstart ≤ j → j < k → s.active m.mask j = true → trapEnabled s.vtype (val j).flags = false) →
      FreeToRun i s → LengthOk s (namesOf vd va (some b) none) m.mask →
      ∃ t, exec i s = .next t ∧ t.r.scal.sysr.tcause = 0x11 ∧ t.r.scal.sysr.tepc = s.pc ∧
        t.r.scal.sysr.tval = (val k).flags.bits.setWidth 64 ∧ t.vstart = k ∧ t.vl = s.vl ∧ (∀ n, t.reg n = s.reg n) ∧
        (∀ n, n ≠ vd → t.vreg n = s.vreg n) ∧
        (∀ j, (s.fmtOf vd).bitAt j + (s.fmtOf vd).width ≤ 16384 → (t.vreg vd).elem (s.fmtOf vd) j =
          if s.vstart ≤ j ∧ j < k ∧ s.active m.mask j = true then (val j).val % 2 ^ g.width
          else (s.vreg vd).elem (s.fmtOf vd) j) ∧
        t.r.vect.vflags = s.r.vect.vflags |||
          (((s.activeFrom m.mask s.vstart).filter fun j => decide (j < k)).foldl (fun fl j => fl.or (val j).flags) y.flags).bits
    stops (.vadd m vd va b) (fun j => addX (rmOf s.vtype) (x j) (y.val j)) ∧
    stops (.vsub m vd va b) (fun j => addX (rmOf s.vtype) (x j) (y.val j).negate) ∧
    stops (.vmul m vd va b) (fun j => mulX (x j) (y.val j)) ∧ stops (.vdiv m vd va b) (fun j => divX (x j) (y.val j))) ∧
  ∀ (s : State) (m : VMod) (vd va vb : VR),
    let n := namesOf vd va (some (.vec vb)) none
    let kinds := (s.kind va = .int ∨ s.kind va = .float) ∧ s.kind vb = s.kind va ∧ s.destKind vd = s.kind va
    let stops (i : Instr) : Prop :=
      (s.r.vq = [] →
        (∀ j, cvOf i = true → s.memberAt (s.pc + 8) = .ok (some j, s) →
          (unitsOf j = [] ∨ ∃ u ∈ unitsOf j, u ∈ unitsOf i) →
          exec i s = .next (s.enterTrap .convoy (s.pc + 8) false)) ∧
        ∀ pc, s.convoyCheck i = .error (.trap .convoy pc, s) → exec i s = .next (s.enterTrap .convoy pc false)) ∧
      (FreeToRun i s → ¬MaskOk s m.mask ∨ ¬kinds ∨ s.vlmaxOf n < s.vl →
        ∃ t, exec i s = .next t ∧ t.r.scal.sysr.tcause = 0x06 ∧ t.r.scal.sysr.tepc = s.pc ∧ t.r.vect = s.r.vect ∧
          (∀ k, t.reg k = s.reg k) ∧
          let v := t.r.scal.sysr.tval
          v.extractLsb' 0 8 = (s.vreg vd).tag ∧ v.extractLsb' 8 8 = (s.vreg va).tag ∧
          v.extractLsb' 16 8 = (s.vreg vb).tag ∧ v.extractLsb' 24 8 = 0#8 ∧
          v.extractLsb' 32 8 = (if m.mask.reg = 0 then 0#8 else (s.vregN m.mask.reg.val).tag) ∧
          (v.extractLsb' 40 15).toNat = s.vlmaxOf n % 2 ^ 15 ∧ v.getLsbD 62 = false ∧
          (v.getLsbD 63 = true ↔ MaskOk s m.mask ∧ kinds))
    stops (.vadd m vd va (.vec vb)) ∧ stops (.vsub m vd va (.vec vb)) ∧ stops (.vmul m vd va (.vec vb)) ∧
    stops (.vdiv m vd va (.vec vb)) ∧ stops (.vmin m vd va (.vec vb)) ∧ stops (.vmax m vd va (.vec vb))

/-- R124: vector logic on 64-bit patterns or on masks, and shifts of W bits by the low log2(W) bits of b, W the wider of
the source and the destination. -/
def Obligations.VectorLogic : Prop :=
  ∀ (s : State) (m : VMod) (vd va : VR) (b : VB),
    let x (j : Nat) : Word := BitVec.ofInt 64 ((s.vreg va).index j)
    let y (j : Nat) : Word := BitVec.ofInt 64 (s.intOperand va b j)
    let runs (i : Instr) (b : Option VB) (val : Nat → Nat) : Prop :=
      FreeToRun i s → LengthOk s (namesOf vd va b none) m.mask →
      Elementwise i s m.mask vd (s.vlmaxOf (namesOf vd va b none)) {} fun j => { val := val j }
    (s.kind va = .int ∨ s.kind va = .mask → s.destKind vd = s.kind va →
      runs (.vnot m vd va) none (fun j => (~~~x j).toNat) ∧
      (s.operandIs (s.kind va) b → (s.kind va = .mask → ∃ r, b = .vec r) →
        runs (.vand m vd va b) (some b) (fun j => (x j &&& y j).toNat) ∧
        runs (.vor m vd va b) (some b) (fun j => (x j ||| y j).toNat) ∧
        runs (.vxor m vd va b) (some b) (fun j => (x j ^^^ y j).toNat))) ∧
    (s.kind va = .int → s.destKind vd = .int → s.operandIs .int b →
      let w := max (s.fmtOf va).width (s.fmtOf vd).width
      let a (j : Nat) : BitVec w := BitVec.ofInt w ((s.vreg va).index j)
      let c (j : Nat) : Nat := match b with
        | .vec r => (BitVec.ofInt 64 ((s.vreg r).index j)).toNat % w
        | .scal r => (s.reg r).toNat % w
      runs (.vshl m vd va b) (some b) (fun j => (a j <<< c j).toNat) ∧
      runs (.vshr m vd va b) (some b) (fun j => (a j >>> c j).toNat) ∧
      runs (.vsar m vd va b) (some b) (fun j => bitsIn w ((a j).toInt / 2 ^ c j)))

/-- R130, R33: a comparison writes one mask element for each active element: by value for the conditions 0 to 5, as
unsigned encodings for 8 to 11 on integers, and with the orders of R33 on floating values.
The model's own choices it rests on: log 72. -/
def Obligations.VectorCompares : Prop :=
  ∀ (s : State) (m : VMod) (vd va : VR) (b : VB) (cond : Fin 12), s.kind vd = .mask →
    let i : Instr := .vcmp m vd va b cond
    let n := namesOf vd va (some b) none
    let x := (s.vreg va).index
    let y := s.intOperand va b
    let w := (s.fmtOf va).width
    FreeToRun i s → LengthOk s n m.mask →
    (s.kind va = .int → s.operandIs .int b → cond.val ≠ 6 → cond.val ≠ 7 →
      let ux (j : Nat) := (s.vreg va).elem (s.fmtOf va) j
      let uy (j : Nat) := match b with
        | .vec r => (s.vreg r).elem (s.fmtOf r) j
        | .scal _ => bitsIn w (y j)
      Elementwise i s m.mask vd (s.vlmaxOf n) {} fun j => { val := (match cond.val with
        | 0 => decide (x j = y j) | 1 => decide (x j ≠ y j) | 2 => decide (x j < y j) | 3 => decide (x j ≤ y j)
        | 4 => decide (x j > y j) | 5 => decide (x j ≥ y j) | 8 => decide (ux j < uy j) | 9 => decide (ux j ≤ uy j)
        | 10 => decide (ux j > uy j) | _ => decide (ux j ≥ uy j)).toNat }) ∧
    (s.kind va = .float → s.operandIs .float b → cond.val < 8 → NoFpTraps s →
      let f := s.srcB va b (s.capture b)
      Elementwise i s m.mask vd (s.vlmaxOf n) f.flags fun j =>
        let c := condX cond.val ((s.vreg va).src (bitOf s.vtype 4) j) (f.val j)
        { val := c.val.toNat, flags := c.flags })

/-- R125, R48: a conversion into a register that is not block-scaled, element by element: an integer's exact value or what
SRC reads, rounded into a floating format (by the sixteen random bits of vb for VCVTSR) or to an integer. R125, R48,
R42: a conversion into a block-scaled register starts at a block: each block with an active element gets the scale R48
takes from its finite active elements, and those elements divided by it; the other sidecar entries stay. R121, R36: VCVT
of an untagged or a mask register, and VCVTSR of any register but one of integers or floating numbers (a grouped one among
them), traps TAG.
The model's own choices it rests on: log 29. -/
def Obligations.VectorConversions : Prop :=
  ((∀ (s : State) (m : VMod) (vd va vb : VR),
    s.kind va ≠ .none → s.kind va ≠ .mask → (s.vreg vd).bs = false → NoFpTraps s →
    let md := modesOf s.vtype
    let x (j : Nat) : XVal := if s.kind va = .int then .ofInt ((s.vreg va).index j) else (s.vreg va).src md.daz j
    let runs (i : Instr) (vb : Option VR) (val : Nat → Flagged Nat) : Prop :=
      let n : Names := { vd := some vd, va := some va, vb := vb }
      FreeToRun i s → LengthOk s n m.mask → Elementwise i s m.mask vd (s.vlmaxOf n) {} val
    (∀ g, s.fmtOf vd = .fp g →
      runs (.vcvt m vd va) none (fun j => g.convert md (x j)) ∧
      (s.kind va ≠ .grouped → s.kind vb = .int → runs (.vcvtsr m vd va vb) (some vb)
        (fun j => g.convertSr md ((s.vreg vb).elem (s.fmtOf vb) j % 2 ^ 16) (x j)))) ∧
    (s.kind vd = .int →
      let w := (s.fmtOf vd).width
      let sg : Bool := (s.fmtOf vd).intSigned = some true
      (s.kind va = .int → runs (.vcvt m vd va) none fun j =>
        { val := bitsIn w (fitted md.sat sg w ((s.vreg va).index j)) }) ∧
      (s.kind va ≠ .int → runs (.vcvt m vd va) none fun j => floatToInt md.rm sg w (x j)))) ∧
  ∀ (s : State) (m : VMod) (vd va vb : VR),
    s.kind va ≠ .none → s.kind va ≠ .mask → (s.vreg vd).bs = true → s.kind vd = .float → s.vstart % 32 = 0 → NoFpTraps s →
    let md := modesOf s.vtype
    let x (j : Nat) : XVal := if s.kind va = .int then .ofInt ((s.vreg va).index j) else (s.vreg va).src md.daz j
    let act (k : Nat) := (List.range s.vl).filter fun j => j / 32 = k && s.active m.mask j
    let e (k : Nat) : Nat := blockScale (s.fmtOf vd) ((act k).map x)
    let runs (i : Instr) (vb : Option VR) (rb : Nat → Option Nat) : Prop :=
      let n : Names := { vd := some vd, va := some va, vb := vb }
      let val (j : Nat) := blockElem md (s.fmtOf vd) (rb j) ((x j).scale (127 - (e (j / 32) : Int)))
      FreeToRun i s → LengthOk s n m.mask →
      ∃ t, exec i s = .next t ∧ VectorFrame s t [vd] ∧ t.r.queues = s.r.queues ∧ (t.vreg vd).tag = (s.vreg vd).tag ∧
        ElementsAre s t m.mask vd s.vstart (s.vlmaxOf n) (fun j => (val j).val) ∧
        (∀ k, k < 128 → (t.vreg vd).entry k = if s.vstart / 32 ≤ k ∧ act k ≠ [] then e k else (s.vreg vd).entry k) ∧
        t.r.vect.vflags = s.r.vect.vflags ||| (s.gather m.mask {} fun j => (val j).flags).bits
    runs (.vcvt m vd va) none (fun _ => none) ∧
    (s.kind va ≠ .grouped → s.kind vb = .int →
      runs (.vcvtsr m vd va vb) (some vb) fun j => some ((s.vreg vb).elem (s.fmtOf vb) j % 2 ^ 16))) ∧
  ∀ (s : State) (m : VMod) (vd va vb : VR),
    let stops (i : Instr) : Prop := FreeToRun i s →
      ∃ t, exec i s = .next t ∧ t.r.scal.sysr.tcause = 0x06 ∧ t.r.scal.sysr.tepc = s.pc ∧ t.r.vect = s.r.vect ∧
        ∀ n, t.reg n = s.reg n
    (s.kind va = .none ∨ s.kind va = .mask → stops (.vcvt m vd va)) ∧
    (s.kind va ≠ .int → s.kind va ≠ .float → stops (.vcvtsr m vd va vb))

/-- R126: moves, broadcasts and selection copy encodings; a broadcast or selected scalar is converted once (R47).
The model's own choices it rests on: log 72, 85. -/
def Obligations.VectorMoves : Prop :=
  ∀ (s : State) (m : VMod) (vd va vc : VR) (b : VB) (ss : SR) (idx : BitVec 16),
    let plain := s.destKind vd = .int ∨ s.destKind vd = .float ∨ s.destKind vd = .mask
    let x (j : Nat) : Nat := (s.vreg va).elem (s.fmtOf va) j
    let runs (i : Instr) (n : Names) (fl : Flags) (val : Nat → Nat) : Prop := FreeToRun i s → LengthOk s n m.mask →
      Elementwise i s m.mask vd (s.vlmaxOf n) fl fun j => { val := val j }
    let two : Names := { vd := some vd, va := some va }
    (s.vreg va).tag = (s.vreg vd).tag → NoFpTraps s →
    (plain → runs (.vmov m vd va) two {} x ∧
      (idx.toNat < (s.vreg va).count s.vlen → runs (.vbcast m vd va idx) two {} fun _ => x idx.toNat) ∧
      (s.kind vc = .mask → ∀ r, b = .vec r → (s.vreg r).tag = (s.vreg vd).tag →
        runs (.vsel m vd va b vc) (namesOf vd va (some b) (some vc)) {} fun j =>
          if (s.vreg vc).elem .mask j = 1 then x j else (s.vreg r).elem (s.fmtOf r) j)) ∧
    (plain → s.destKind vd ≠ .mask →
      (runs (.vbcastScalar m vd ss) { vd := some vd } (scalarTo (modesOf s.vtype) (s.vreg vd) (s.reg ss)).flags fun _ =>
        (scalarTo (modesOf s.vtype) (s.vreg vd) (s.reg ss)).val) ∧
      (s.kind vc = .mask → b = .scal ss → runs (.vsel m vd va b vc) (namesOf vd va (some b) (some vc))
        (scalarTo (modesOf s.vtype) (s.vreg vd) (s.reg ss)).flags fun j =>
          if (s.vreg vc).elem .mask j = 1 then x j else (scalarTo (modesOf s.vtype) (s.vreg vd) (s.reg ss)).val)) ∧
    (s.destKind vd = .grouped → (s.vreg vd).fmt ≠ none → m.mask.reg = 0 → FreeToRun (.vmov m vd va) s → LengthOk s two m.mask →
      ∃ t, exec (.vmov m vd va) s = .next t ∧ VectorFrame s t [vd] ∧ QuietFrame s t ∧
        (t.vreg vd).tag = (s.vreg vd).tag ∧ ElementsAre s t m.mask vd s.vstart (s.vlmaxOf two) x ∧
        ∀ k, k < 128 → (t.vreg vd).entry k =
          if s.vstart < s.vl ∧ s.vstart / 32 ≤ k ∧ k ≤ (s.vl - 1) / 32 then
            (if (s.vreg vd).bs then (s.vreg va).entry k % 256 else (s.vreg va).entry k)
          else (s.vreg vd).entry k)

/-- R129, R131, R136: what the vector side pushes into a hand-off queue with room, and VQPOP, which writes the head,
converted once, to every active element and removes it.
The model's own choices it rests on: log 72. -/
def Obligations.VectorQueueSide : Prop :=
  ∀ (s : State) (m : VMod) (q : QR) (vd va : VR) (idx : BitVec 16),
    let act := (List.range s.vl).filter fun j => s.active m.mask j && (s.vreg va).elem .mask j == 1
    let pushes (i : Instr) (w : Word) : Prop := FreeToRun i s → s.r.queues[q].length < 16 →
      ∃ t, exec i s = .next t ∧ VectorFrame s t [] ∧ t.r.vect.vflags = s.r.vect.vflags ∧
        t.r.vect.rngctr = s.r.vect.rngctr ∧ t.r.queues[q] = s.r.queues[q] ++ [w] ∧
        ∀ p : QR, p ≠ q → t.r.queues[p] = s.r.queues[p]
    pushes (.vgettag m q va) ((s.vreg va).tag.setWidth 64) ∧
    (s.kind va ≠ .none → s.kind va ≠ .grouped → idx.toNat < (s.vreg va).count s.vlen →
      pushes (.vqpush m q va idx) (if s.kind va = .int then BitVec.ofInt 64 ((s.vreg va).index idx.toNat)
        else BitVec.ofNat 64 ((s.vreg va).elem (s.fmtOf va) idx.toNat))) ∧
    (s.kind va = .mask → LengthOk s { va := some va } m.mask →
      pushes (.vmpopc m q va) (BitVec.ofNat 64 act.length) ∧ pushes (.vmany m q va) (if act = [] then 0 else 1) ∧
      pushes (.vmfirst m q va) (match act with | [] => -1 | j :: _ => BitVec.ofNat 64 j)) ∧
    (s.destKind vd = .int ∨ s.destKind vd = .float → LengthOk s { vd := some vd } m.mask → NoFpTraps s →
      FreeToRun (.vqpop m vd q) s → ∀ w l, s.r.queues[q] = w :: l →
      let c := scalarTo (modesOf s.vtype) (s.vreg vd) w
      ∃ t, exec (.vqpop m vd q) s = .next t ∧ VectorFrame s t [vd] ∧ t.r.queues[q] = l ∧
        (∀ p : QR, p ≠ q → t.r.queues[p] = s.r.queues[p]) ∧ t.r.vect.rngctr = s.r.vect.rngctr ∧
        t.r.vect.vflags = s.r.vect.vflags ||| c.flags.bits ∧
        ElementResult s t m.mask vd 0 (s.vlmaxOf { vd := some vd }) fun _ => c.val)

/-! ### Permutes and reductions -/

/-- R142–R144, R147: the permutes of unscaled registers: element j of the result is the source element each names, if its
index lies below VL, else the inserted value (zero, or s[ss] converted once); they start at element 0. VINSERT writes
one element, whatever VL and the mask. R145, R143: a slide of block-scaled registers by whole blocks, without a mask,
moves the sidecar entries with their blocks; a block without a source gets the scale 1, its elements the inserted
value, unscaled. R146: VCOMPRESS packs the active elements at the bottom, what follows them below VL as TP says;
VEXPAND gives active element number k the element k.
The model's own choices it rests on: log 28, 72. -/
def Obligations.Permutes : Prop :=
  ((∀ (s : State) (m : VMod) (vd va vb vc : VR) (off idx : BitVec 16) (ins : Option SR) (ss : SR),
    NoFpTraps s →
    let conv (r : SR) : Flagged Nat := scalarTo (modesOf s.vtype) (s.vreg vd) (s.reg r)
    let fill : Nat := (ins.map fun r => (conv r).val).getD 0
    let fl : Flags := (ins.map fun r => (conv r).flags).getD {}
    let pick (r : VR) (k : Int) : Nat :=
      if 0 ≤ k ∧ k < s.vl then (s.vreg r).elem (s.fmtOf r) k.toNat else fill
    let runs (i : Instr) (vb vc : Option VR) (fl : Flags) (val : Nat → Nat) : Prop :=
      let n : Names := { vd := some vd, va := some va, vb := vb, vc := vc }
      FreeToRun i s → LengthOk s n m.mask → VectorGives i s m.mask vd 0 (s.vlmaxOf n) fl val
    let zero (r : VR) (k : Int) : Nat := if 0 ≤ k ∧ k < s.vl then (s.vreg r).elem (s.fmtOf r) k.toNat else 0
    (s.destKind vd = .int ∨ s.destKind vd = .float ∨ s.destKind vd = .mask → (s.vreg va).tag = (s.vreg vd).tag →
      (s.kind vd = .mask → ins = none) →
      runs (.vslideup m vd va off ins) none none fl (fun j => pick va (j - off.toNat)) ∧
      runs (.vslidedn m vd va off ins) none none fl (fun j => pick va (j + off.toNat)) ∧
      (s.kind vc = .int → runs (.vperm m vd va vc ins) none (some vc) fl (fun j => pick va ((s.vreg vc).index j))) ∧
      runs (.vrev m vd va) none none {} (fun j => zero va (s.vl - 1 - j)) ∧
      ((s.vreg vb).tag = (s.vreg vd).tag →
        runs (.vzip m vd va vb) (some vb) none {} (fun j => zero (if j % 2 = 0 then va else vb) (j / 2)) ∧
        runs (.vunzipe m vd va vb) (some vb) none {} (fun j =>
          if 2 * j < s.vl then zero va (2 * j) else zero vb (2 * j - s.vl)) ∧
        runs (.vunzipo m vd va vb) (some vb) none {} (fun j =>
          if 2 * j + 1 < s.vl then zero va (2 * j + 1) else zero vb (2 * j + 1 - s.vl)))) ∧
    (s.destKind vd = .int ∨ s.destKind vd = .float → idx.toNat < (s.vreg vd).count s.vlen →
      FreeToRun (.vinsert m vd ss idx) s →
      ∃ t, exec (.vinsert m vd ss idx) s = .next t ∧ VectorFrame s t [vd] ∧ t.r.queues = s.r.queues ∧
        (t.vreg vd).tag = (s.vreg vd).tag ∧ (t.vreg vd).side = (s.vreg vd).side ∧
        t.r.vect.vflags = s.r.vect.vflags ||| (conv ss).flags.bits ∧
        ∀ j, (s.fmtOf vd).bitAt j + (s.fmtOf vd).width ≤ 16384 → (t.vreg vd).elem (s.fmtOf vd) j =
          if j = idx.toNat then (conv ss).val % 2 ^ (s.fmtOf vd).width
          else (s.vreg vd).elem (s.fmtOf vd) j)) ∧
  ∀ (s : State) (m : VMod) (vd va : VR) (off : BitVec 16) (ins : Option SR),
    (s.vreg vd).bs = true → s.kind vd = .float → (s.vreg va).tag = (s.vreg vd).tag → m.mask.reg = 0 →
    off.toNat % 32 = 0 → NoFpTraps s →
    let n : Names := { vd := some vd, va := some va }
    let md := modesOf s.vtype
    let conv (r : SR) : Flagged Nat :=
      if s.fmtOf vd = .i8 then floatToInt md.rm true 8 (FF.fp64.src md.daz (s.reg r).toNat)
      else scalarTo md (s.vreg vd) (s.reg r)
    let fill : Nat := (ins.map fun r => (conv r).val).getD 0
    let fl : Flags := (ins.map fun r => (conv r).flags).getD {}
    let nb := (s.vl + 31) / 32
    let runs (i : Instr) (src : Int → Int) (blk : Int → Int) : Prop := FreeToRun i s → LengthOk s n m.mask →
      ∃ t, exec i s = .next t ∧ VectorFrame s t [vd] ∧ t.r.queues = s.r.queues ∧ (t.vreg vd).tag = (s.vreg vd).tag ∧
        t.r.vect.vflags = s.r.vect.vflags ||| fl.bits ∧
        ElementsAre s t m.mask vd 0 (s.vlmaxOf n) (fun j =>
          if 0 ≤ src j ∧ src j < s.vl then (s.vreg va).elem (s.fmtOf va) (src j).toNat else fill) ∧
        ∀ k, k < 128 → (t.vreg vd).entry k = if nb ≤ k then (s.vreg vd).entry k
          else if 0 ≤ blk k ∧ blk k < nb then (s.vreg va).entry (blk k).toNat % 256 else 127
    runs (.vslideup m vd va off ins) (fun j => j - off.toNat) (fun k => k - off.toNat / 32) ∧
    runs (.vslidedn m vd va off ins) (fun j => j + off.toNat) (fun k => k + off.toNat / 32)) ∧
  ∀ (s : State) (m : VMod) (vd va : VR),
    s.destKind vd = .int ∨ s.destKind vd = .float ∨ s.destKind vd = .mask → (s.vreg va).tag = (s.vreg vd).tag →
    let n : Names := { vd := some vd, va := some va }
    let act := (List.range s.vl).filter fun j => s.active m.mask j
    LengthOk s n m.mask →
    (FreeToRun (.vcompress m vd va) s → ∃ t, exec (.vcompress m vd va) s = .next t ∧ VectorFrame s t [vd] ∧
      QuietFrame s t ∧ (t.vreg vd).tag = (s.vreg vd).tag ∧ (t.vreg vd).side = (s.vreg vd).side ∧
      ∀ j, (s.fmtOf vd).bitAt j + (s.fmtOf vd).width ≤ 16384 → (t.vreg vd).elem (s.fmtOf vd) j =
        if h : j < act.length then (s.vreg va).elem (s.fmtOf va) act[j]
        else if j < s.vl ∧ tpOf s.vtype then 0 else (s.vreg vd).elem (s.fmtOf vd) j) ∧
    (FreeToRun (.vexpand m vd va) s → VectorGives (.vexpand m vd va) s m.mask vd 0 (s.vlmaxOf n) {} fun j =>
      (s.vreg va).elem (s.fmtOf va) ((List.range j).countP fun k => s.active m.mask k))

/-- R54, R133, R135 on integers: a reduction's element 0 is the sum, the least, the greatest, the AND or the OR of the
active elements, exact and then fitted, the elements above it as TP says; element j of a scan reduces the elements up
to j. With no element the identity stands. R54, R55, R57, R133–R135 on floating registers: the root of the fixed tree,
delivered once; VREDTS leaves the pair of its two-sum tree; the flags of every node are gathered.
The model's own choices it rests on: log 29, 82. -/
def Obligations.Reductions : Prop :=
  (∀ (s : State) (m : VMod) (vd va : VR) (op : Fin 5),
    s.kind va = .int → s.destKind vd = .int →
    let n : Names := { vd := some vd, va := some va }
    let d := s.fmtOf vd
    let sg : Bool := d.intSigned = some true
    let xs (k : Nat) := ((List.range k).filter fun j => s.active m.mask j).map (s.vreg va).index
    let fit (v : Int) : Nat := bitsIn d.width (fitted (bitOf s.vtype 5) sg d.width v)
    let sum (k : Nat) := fit (xs k).sum
    let least (k : Nat) := fit ((xs k).min?.getD (if sg then 2 ^ (d.width - 1) - 1 else 2 ^ d.width - 1))
    let most (k : Nat) := fit ((xs k).max?.getD (if sg then -(2 ^ (d.width - 1)) else 0))
    let all (k : Nat) := (((xs k).map fun v => BitVec.ofInt 64 v).foldl (· &&& ·) (BitVec.allOnes 64)).toNat
    let any (k : Nat) := (((xs k).map fun v => BitVec.ofInt 64 v).foldl (· ||| ·) 0#64).toNat
    let runs (i : Instr) (val : Nat → Nat) : Prop := FreeToRun i s →
      ∃ t, exec i s = .next t ∧ VectorFrame s t [vd] ∧ QuietFrame s t ∧ (t.vreg vd).tag = (s.vreg vd).tag ∧
        (t.vreg vd).side = (s.vreg vd).side ∧
        ∀ j, d.bitAt j + d.width ≤ 16384 → (t.vreg vd).elem d j =
          if j = 0 then val s.vl % 2 ^ d.width
          else if j < s.vlmaxOf n ∧ tpOf s.vtype then 0 else (s.vreg vd).elem d j
    LengthOk s n m.mask →
    runs (.vredsum m vd va) sum ∧ runs (.vredmin m vd va) least ∧ runs (.vredmax m vd va) most ∧
    runs (.vredand m vd va) all ∧ runs (.vredor m vd va) any ∧
    (FreeToRun (.vscan m vd va op) s → VectorGives (.vscan m vd va op) s m.mask vd 0 (s.vlmaxOf n) {} fun j =>
      match op.val with
      | 0 => sum (j + 1) | 1 => least (j + 1) | 2 => most (j + 1) | 3 => all (j + 1) | _ => any (j + 1))) ∧
  ∀ (s : State) (m : VMod) (vd va vb : VR) (op : Fin 5) (g : FF),
    s.kind va = .float → s.destKind vd = .float → s.fmtOf vd = .fp g → NoFpTraps s →
    let n : Names := { vd := some vd, va := some va }
    let md := modesOf s.vtype
    let root (o : RedOp) (k : Nat) : Flagged Nat :=
      let x := (s.fpRoot md o m.mask va k).getD { val := o.fpId }
      let r := g.deliver md { val := x.val, flags := nvIf x.val.isSnan }
      { val := r.val, flags := x.flags.or r.flags }
    let first (t : State) (d : VR) (vlmax v : Nat) : Prop :=
      (t.vreg d).tag = (s.vreg d).tag ∧ (t.vreg d).side = (s.vreg d).side ∧
      ∀ j, (s.fmtOf d).bitAt j + (s.fmtOf d).width ≤ 16384 → (t.vreg d).elem (s.fmtOf d) j =
        if j = 0 then v % 2 ^ (s.fmtOf d).width
        else if j < vlmax ∧ tpOf s.vtype then 0 else (s.vreg d).elem (s.fmtOf d) j
    let runs (i : Instr) (o : RedOp) : Prop := FreeToRun i s → LengthOk s n m.mask →
      ∃ t, exec i s = .next t ∧ VectorFrame s t [vd] ∧ t.r.queues = s.r.queues ∧
        t.r.vect.vflags = s.r.vect.vflags ||| (root o s.vl).flags.bits ∧ first t vd (s.vlmaxOf n) (root o s.vl).val
    runs (.vredsum m vd va) .sum ∧ runs (.vredmin m vd va) .min ∧ runs (.vredmax m vd va) .max ∧
    (op.val < 3 → FreeToRun (.vscan m vd va op) s → LengthOk s n m.mask →
      let o : RedOp := match op.val with | 0 => .sum | 1 => .min | _ => .max
      VectorGives (.vscan m vd va op) s m.mask vd 0 (s.vlmaxOf n)
        (((List.range s.vl).filter fun j => s.active m.mask j).foldl (fun fl j => fl.or (root o (j + 1)).flags) {})
        fun j => (root o (j + 1)).val) ∧
    (∀ g', s.kind vb = .float → s.destKind (vd + 1) = .float → s.fmtOf (vd + 1) = .fp g' →
      let n : Names := { vd := some vd, va := some va, vb := some vb, more := [vd + 1] }
      let f := redFormat (opFormat (s.vreg va).opf (s.vreg vb).opf)
      let pair := (tree (tsNode f md.ftz) (s.leaves m.mask 0 s.vl fun j =>
        { val := ((s.vreg va).src md.daz j, (s.vreg vb).src md.daz j) })).getD { val := (.zero false, .zero false) }
      let h := g.roundBy (.mode .rne) md.ftz md.sat pair.val.1
      let l := g'.roundBy (.mode .rne) md.ftz md.sat pair.val.2
      let fl := pair.flags.or ((h.flags.or (nvIf pair.val.1.isSnan)).or (l.flags.or (nvIf pair.val.2.isSnan)))
      FreeToRun (.vredts m vd va vb) s → LengthOk s n m.mask →
      ∃ t, exec (.vredts m vd va vb) s = .next t ∧ VectorFrame s t [vd, vd + 1] ∧ t.r.queues = s.r.queues ∧
        t.r.vect.vflags = s.r.vect.vflags ||| fl.bits ∧
        first t vd (s.vlmaxOf n) h.val ∧ first t (vd + 1) (s.vlmaxOf n) l.val)

/-! ### Configuration, random numbers, checks -/

/-- R136, R137, R139, R19: VCFGW writes a legal value to VTYPE but DET, and traps ILLEGAL on another with nothing changed;
tags set by VCFGW or VTAG leave the data bytes as they are and clear the sidecar entries the new tag does not use; VSETVL sets
VL to the least of s[ss], VLMAX(SEW) and its cap, and may push it. R138, R140: VIDX writes start + i × step, fitted or
rounded; VSCGET and VSCSET move every sidecar entry to or from the elements of a register tagged INT16 or UINT16,
whatever VL, VSTART and the mask. -/
def Obligations.VectorConfiguration : Prop :=
  (∀ (s : State) (ss : SR) (vd va : VR) (tag : Byte) (q : QR) (cap : BitVec 16),
    let w := s.reg ss
    let legal := w.toNat < 2 ^ 21 ∧ bitOf w 14 = false ∧ bitsOf w 0 3 ≤ 4 ∧
      (bitsOf w 10 4 = 0 ∨ (3 ≤ bitsOf w 10 4 ∧ bitsOf w 10 4 ≤ 8))
    let vt := (w &&& ~~~0x8000#64) ||| (s.vtype &&& 0x8000#64)
    let used := if tag.toNat / 8 = 0x10 ∨ tag.toNat / 8 = 0x11 then s.vlen / 16 else s.vlen / 32
    let tags (t : State) : Prop := ∀ n : VR,
      if vd ≤ n ∧ n ≤ va then (t.vreg n).tag = tag ∧ (t.vreg n).data = (s.vreg n).data ∧
        ∀ j, j < 128 → (t.vreg n).entry j = if j < used then (s.vreg n).entry j else 0
      else t.vreg n = s.vreg n
    let vl := if cap = 0 then min w.toNat (s.vlen * 8 / sewOf s.vtype)
      else min (min w.toNat (s.vlen * 8 / sewOf s.vtype)) cap.toNat
    let runs (i : Instr) (rest : State → Prop) : Prop := FreeToRun i s →
      ∃ t, exec i s = .next t ∧ SameMemory s t ∧ t.r.scal = { s.r.scal with pc := s.pc + 8 } ∧ t.r.strip = s.r.strip ∧
        t.vstart = 0 ∧ t.vlen = s.vlen ∧ t.r.vect.vflags = s.r.vect.vflags ∧ t.r.vect.rngctr = s.r.vect.rngctr ∧ rest t
    let tag0 := tagDefined tag = true
    (legal → runs (.vcfgw ss) (fun t => t.vtype = vt ∧ t.vl = s.vl ∧ t.r.vect.v = s.r.vect.v ∧ t.r.queues = s.r.queues) ∧
      (tag0 → runs (.vcfgwTag ss vd va tag) fun t => t.vtype = vt ∧ t.vl = s.vl ∧ tags t ∧ t.r.queues = s.r.queues)) ∧
    (¬legal → FreeToRun (.vcfgw ss) s → ∃ t, exec (.vcfgw ss) s = .next t ∧ t.r.scal.sysr.tcause = 0x01 ∧
      t.r.scal.sysr.tepc = s.pc ∧ t.r.scal.sysr.tval = w ∧ t.r.vect = s.r.vect) ∧
    (tag0 → runs (.vtag vd va tag) fun t => t.vtype = s.vtype ∧ t.vl = s.vl ∧ tags t ∧ t.r.queues = s.r.queues) ∧
    runs (.vsetvl ss cap) (fun t => t.vl = vl ∧ t.vtype = s.vtype ∧ t.r.vect.v = s.r.vect.v ∧ t.r.queues = s.r.queues) ∧
    (s.r.queues[q].length < 16 → runs (.vsetvlQueue q ss cap) fun t => t.vl = vl ∧ t.vtype = s.vtype ∧
      t.r.vect.v = s.r.vect.v ∧ t.r.queues[q] = s.r.queues[q] ++ [BitVec.ofNat 64 vl] ∧
      ∀ p : QR, p ≠ q → t.r.queues[p] = s.r.queues[p])) ∧
  ∀ (s : State) (m : VMod) (vd va : VR) (start : BitVec 16) (step : BitVec 10),
    let one : Names := { vd := some vd }
    let x (j : Nat) : Int := start.toNat + j * step.toInt
    let half (r : VR) := (s.vreg r).tag = 0x20 ∨ (s.vreg r).tag = 0x28
    (FreeToRun (.vidx m vd start step) s → LengthOk s one m.mask →
      (s.destKind vd = .int → Elementwise (.vidx m vd start step) s m.mask vd (s.vlmaxOf one) {} fun j =>
        { val := bitsIn (s.fmtOf vd).width
            (fitted (bitOf s.vtype 5) ((s.fmtOf vd).intSigned = some true) (s.fmtOf vd).width (x j)) }) ∧
      (∀ g, s.destKind vd = .float → s.fmtOf vd = .fp g → NoFpTraps s →
        Elementwise (.vidx m vd start step) s m.mask vd (s.vlmaxOf one) {} fun j =>
          g.result (modesOf s.vtype) (.ofInt (x j)))) ∧
    (half vd → (s.vreg va).fmt ≠ none → FreeToRun (.vscget m vd va) s →
      ∃ t, exec (.vscget m vd va) s = .next t ∧ VectorFrame s t [vd] ∧ QuietFrame s t ∧
        (t.vreg vd).tag = (s.vreg vd).tag ∧ (t.vreg vd).side = (s.vreg vd).side ∧
        ∀ j, 16 * j + 16 ≤ 16384 → (t.vreg vd).elem (s.fmtOf vd) j =
          if j < s.vlen / 16 then (s.vreg va).entry j else (s.vreg vd).elem (s.fmtOf vd) j) ∧
    (half va → (s.vreg vd).fmt ≠ none → FreeToRun (.vscset m vd va) s →
      let used := if s.fmtOf vd = .int4g ∨ s.fmtOf vd = .int3g then s.vlen / 16 else s.vlen / 32
      ∃ t, exec (.vscset m vd va) s = .next t ∧ VectorFrame s t [vd] ∧ QuietFrame s t ∧
        (t.vreg vd).tag = (s.vreg vd).tag ∧ (t.vreg vd).data = (s.vreg vd).data ∧
        ∀ j, j < 128 → (t.vreg vd).entry j = if j < used then
          (if (s.vreg vd).bs then (s.vreg va).elem (s.fmtOf va) j % 256 else (s.vreg va).elem (s.fmtOf va) j) else 0)

/-- R212, R213, R43: VRNG gives every element below VL its own bits of the runner's Philox stream, masked off or not, and
advances RNGCTR by the blocks drawn; it traps RNGEND before any element when they would pass 2^64. RNGSEED sets RNGCTR. -/
def Obligations.RandomNumbers : Prop :=
  ∀ (s : State) (m : VMod) (vd : VR) (ss : SR),
    (FreeToRun (.rngseed m ss) s → ∃ t, exec (.rngseed m ss) s = .next t ∧ VectorFrame s t [] ∧
      t.r.vect.rngctr = s.reg ss ∧ t.r.vect.vflags = s.r.vect.vflags ∧ t.r.queues = s.r.queues) ∧
    let n : Names := { vd := some vd }
    let w := (s.fmtOf vd).width
    let blocks := (s.vl * w + 127) / 128
    let ctr := s.r.vect.rngctr
    let word (c k : Nat) : Nat :=
      let ws := philox s.r.ident.rngkey (c % 2 ^ 32) (c / 2 ^ 32) 0 0
      match k with | 0 => ws.1 | 1 => ws.2.1 | 2 => ws.2.2.1 | _ => ws.2.2.2
    let bit (b : Nat) : Bool := (word (ctr.toNat + b / 128) (b % 128 / 32)).testBit (b % 32)
    s.destKind vd = .int ∨ s.destKind vd = .mask ∨
      (s.destKind vd = .float ∧ s.fmtOf vd ≠ .fp .e4m3 ∧ s.fmtOf vd ≠ .fp .e5m2) →
    FreeToRun (.vrng m vd) s → LengthOk s n m.mask →
    (2 ^ 64 < ctr.toNat + blocks → ∃ t, exec (.vrng m vd) s = .next t ∧ t.r.scal.sysr.tcause = 0x0E ∧
      t.r.scal.sysr.tepc = s.pc ∧ t.r.scal.sysr.tval = ctr ∧ t.r.vect = s.r.vect) ∧
    (ctr.toNat + blocks ≤ 2 ^ 64 → ∃ (t : State) (val : Nat → Nat), exec (.vrng m vd) s = .next t ∧
      VectorFrame s t [vd] ∧ t.r.queues = s.r.queues ∧ t.r.vect.vflags = s.r.vect.vflags ∧
      t.r.vect.rngctr = ctr + BitVec.ofNat 64 blocks ∧ ElementResult s t m.mask vd s.vstart (s.vlmaxOf n) val ∧
      ∀ j, j < s.vl → match s.fmtOf vd with
        | .fp g => ∃ r, (∀ k, k < g.prec → r.testBit k = bit (w * j + (w - g.prec) + k)) ∧ r < 2 ^ g.prec ∧
            val j = (g.rne false (.fin false r (-(g.prec : Int)) false)).val
        | _ => val j < 2 ^ w ∧ ∀ k, k < w → (val j).testBit k = bit (w * j + k))

/-! ### Vector memory -/

/-- R148, R149, R154, R155 for the tags of whole bytes without scales: each active element is read, raw, from its address
(unit stride, a byte stride, an index register), the runner's own share and strip buffer laid over memory. A first-fault
load sets VL to the first later element whose check fails.
The model's own choices it rests on: log 4, 75. -/
def Obligations.VectorLoads : Prop :=
  ∀ (s : State) (m : MMod) (vd vi : VR) (sa sb : SR) (off : BitVec 16) (key : Word → Nat),
    s.destKind vd = .int ∨ s.destKind vd = .float → s.pending = [] →
    let w := (s.fmtOf vd).width / 8
    let base := s.reg sa + off.signExtend 64
    let one : Names := { vd := some vd }
    let val (a : Word) : Nat :=
      leBytesToNat (overlayActs (s.r.share ++ s.r.strip.buf) (key a) (bytesAt s.mem (key a) w))
    let live (j : Nat) : Prop := s.vstart ≤ j ∧ j < s.vl ∧ s.active m.mask j = true
    let runs (i : Instr) (n : Names) (addr : Nat → Word) : Prop := FreeToRun i s → LengthOk s n m.mask →
      (∀ j, live j → Serves s (fun _ => False) (addr j) w .load (key (addr j))) →
      VectorGives i s m.mask vd s.vstart (s.vlmaxOf n) {} fun j => val (addr j)
    let unit (j : Nat) : Word := base + BitVec.ofNat 64 (w * j)
    runs (.vld m vd sa sb off) one unit ∧
    runs (.vlds m vd sa sb off) one (fun j => base + BitVec.ofNat 64 j * s.reg sb) ∧
    (s.kind vi = .int → runs (.vldx m vd vi sa off) { vd := some vd, more := [vi] }
      fun j => base + BitVec.ofInt 64 ((s.vreg vi).index j)) ∧
    runs (.vldff m vd sa off) one unit ∧
    (FreeToRun (.vldff m vd sa off) s → LengthOk s one m.mask → ∀ f k c, live f → live k → f < k →
      let drawn (n : Nat) : State := { s with free := n }
      (∀ j, live j → j < k → Serves s (fun _ => False) (unit j) w .load (key (unit j))) →
      (∀ n l, (∀ e ∈ l, e ∈ s.myCore.tlb) → (((drawn n).served s.mem l).resolve (unit k) w w .load).1 = .trap c ∨
        (((drawn n).served s.mem l).resolve (unit k) w w .load).1 = .service) →
      ∃ t, exec (.vldff m vd sa off) s = .next t ∧ t.vl = k ∧ t.vstart = 0 ∧ SameMemory s t ∧
        t.r.scal = { s.r.scal with pc := s.pc + 8 } ∧ (∀ n, n ≠ vd → t.vreg n = s.vreg n) ∧
        ElementResult (s.setVl k) t m.mask vd s.vstart (s.vlmaxOf one) fun j => val (unit j))

/-- R149, R150, R154 for the other tags VLD takes: a mask or grouped element is cut out of the bytes that hold it, a
block-scaled one is its byte, and every block or group with an element loaded takes its scale entry from the array
s[sb] names. R156, R149 for the other tags VST takes, outside a protected strip and deterministic mode: the bits of
the active elements change, no other bit of memory does but the scale entries of their blocks.
The model's own choices it rests on: log 4, 33, 76. -/
def Obligations.ScaledMemory : Prop :=
  (∀ (s : State) (m : MMod) (vd : VR) (sa sb : SR) (off : BitVec 16) (key : Word → Nat),
    let f := s.fmtOf vd
    let w := f.width
    let base := s.reg sa + off.signExtend 64
    let one : Names := { vd := some vd }
    let i : Instr := .vld m vd sa sb off
    let live (j : Nat) : Prop := s.vstart ≤ j ∧ j < s.vl ∧ s.active m.mask j = true
    let byte (a : Word) : Byte := ((overlayActs (s.r.share ++ s.r.strip.buf) (key a) [s.byteAt (key a)])[0]?).getD 0
    let bit (b : Nat) : Bool := (byte (base + BitVec.ofNat 64 (b / 8))).getLsbD (b % 8)
    let read (a : Word) : Prop := Serves s (fun _ => False) a 1 .load (key a)
    (f = .mask ∧ m.mask.reg = 0 ∧ s.vstart % 8 = 0 ∧ s.vl % 8 = 0) ∨
      (f = .int4g ∧ s.vstart % 2 = 0 ∧ s.vl % 2 = 0 ∧ sb ≠ 0) ∨
      (f = .int3g ∧ s.vstart % 32 = 0 ∧ s.vl % 32 = 0 ∧ sb ≠ 0) ∨
      ((s.vreg vd).bs = true ∧ (s.vreg vd).fmt ≠ none ∧ m.mask.reg = 0 ∧ s.vstart % 32 = 0 ∧ sb ≠ 0) →
    s.pending = [] → FreeToRun i s → LengthOk s one m.mask →
    (∀ j, live j → ∀ b, w * j / 8 ≤ b → b < (w * j + w + 7) / 8 → read (base + BitVec.ofNat 64 b)) →
    let n := if (s.vreg vd).bs then 1 else 2
    let entry (k : Nat) : Word := s.reg sb + BitVec.ofNat 64 (n * k)
    let scaled : Prop := (s.vreg vd).destKind = .grouped
    (scaled → ∀ j, live j → Serves s (fun _ => False) (entry (j / 32)) n .load (key (entry (j / 32)))) →
    ∃ (t : State) (val : Nat → Nat), exec i s = .next t ∧ VectorFrame s t [vd] ∧ QuietFrame s t ∧
      (t.vreg vd).tag = (s.vreg vd).tag ∧ ElementsAre s t m.mask vd s.vstart (s.vlmaxOf one) val ∧
      (∀ j, live j → val j < 2 ^ w ∧ ∀ k, k < w → (val j).testBit k = bit (w * j + k)) ∧
      (¬scaled → (t.vreg vd).side = (s.vreg vd).side) ∧
      (scaled → ∀ k, k < 128 →
        ((∃ j, live j ∧ j / 32 = k) → (t.vreg vd).entry k = leBytesToNat
          (overlayActs (s.r.share ++ s.r.strip.buf) (key (entry k)) (bytesAt s.mem (key (entry k)) n))) ∧
        ((∀ j, live j → j / 32 ≠ k) → (t.vreg vd).entry k = (s.vreg vd).entry k))) ∧
  ∀ (s : State) (m : MMod) (vd : VR) (sa sb : SR) (off : BitVec 16) (key : Word → Nat),
    let f := s.fmtOf vd
    let w := f.width
    let base := s.reg sa + off.signExtend 64
    let one : Names := { vd := some vd }
    let i : Instr := .vst m vd sa sb off
    let live (j : Nat) : Prop := s.vstart ≤ j ∧ j < s.vl ∧ s.active m.mask j = true
    let at_ (b : Nat) : Word := base + BitVec.ofNat 64 b
    let n := if (s.vreg vd).bs then 1 else 2
    let entry (k : Nat) : Word := s.reg sb + BitVec.ofNat 64 (n * k)
    let scaled : Prop := (s.vreg vd).destKind = .grouped
    let touched (b : Nat) : Prop := ∃ j, live j ∧ w * j / 8 ≤ b ∧ b < (w * j + w + 7) / 8
    let foot (a : Nat) : Prop := (∃ b, touched b ∧ a = key (at_ b)) ∨
      (scaled ∧ ∃ j, live j ∧ key (entry (j / 32)) ≤ a ∧ a < key (entry (j / 32)) + n)
    (f = .mask ∧ m.mask.reg = 0 ∧ s.vstart % 8 = 0 ∧ s.vl % 8 = 0) ∨
      (f = .int4g ∧ s.vstart % 2 = 0 ∧ s.vl % 2 = 0 ∧ sb ≠ 0) ∨
      (f = .int3g ∧ s.vstart % 32 = 0 ∧ s.vl % 32 = 0 ∧ sb ≠ 0) ∨
      ((s.vreg vd).bs = true ∧ (s.vreg vd).fmt ≠ none ∧ m.mask.reg = 0 ∧ s.vstart % 32 = 0 ∧ sb ≠ 0) →
    s.pending = [] → s.r.strip.prot = false → detOf s.vtype = false → s.r.share = [] → s.r.strip.buf = [] →
    Memory.wf s.mem →
    FreeToRun i s → LengthOk s one m.mask →
    (∀ b, touched b → Serves s foot (at_ b) 1 .store (key (at_ b))) →
    (∀ b b', touched b → touched b' → b ≠ b' → key (at_ b) ≠ key (at_ b')) →
    (scaled → ∀ j, live j → Serves s foot (entry (j / 32)) n .store (key (entry (j / 32))) ∧
      ∀ b, touched b → ¬(key (entry (j / 32)) ≤ key (at_ b) ∧ key (at_ b) < key (entry (j / 32)) + n)) →
    ∃ t, exec i s = .next t ∧ t.r.vect = { s.r.vect with vstart := 0 } ∧ t.r.scal = { s.r.scal with pc := s.pc + 8 } ∧
      t.r.strip = s.r.strip ∧ t.r.queues = s.r.queues ∧ (∀ a, ¬foot a → t.byteAt a = s.byteAt a) ∧
      (∀ b, touched b → ∀ k, k < 8 → (t.byteAt (key (at_ b))).getLsbD k =
        if live ((8 * b + k) / w) then ((s.vreg vd).elem f ((8 * b + k) / w)).testBit ((8 * b + k) % w)
        else (s.byteAt (key (at_ b))).getLsbD k) ∧
      (scaled → ∀ j, live j → (∀ j', live j' → j' / 32 ≠ j / 32 →
          key (entry (j' / 32)) + n ≤ key (entry (j / 32)) ∨ key (entry (j / 32)) + n ≤ key (entry (j' / 32))) →
        ∀ k, k < n → t.byteAt (key (entry (j / 32)) + k) = BitVec.ofNat 8 ((s.vreg vd).entry (j / 32) / 2 ^ (8 * k)))

/-- R148, R149, R156 for the tags of whole bytes without scales, outside a protected strip and deterministic mode: each
active element is written, raw, in increasing order at its address; VSTXU may leave either element's bytes where two meet.
Every other byte of memory is unchanged, and every register but the PC and VSTART.
The model's own choices it rests on: log 3, 4. -/
def Obligations.VectorStores : Prop :=
  ∀ (s : State) (m : MMod) (vd vi : VR) (sa sb : SR) (off : BitVec 16) (key : Word → Nat),
    s.destKind vd = .int ∨ s.destKind vd = .float → s.pending = [] → s.r.strip.prot = false → detOf s.vtype = false →
    s.r.share = [] → Memory.wf s.mem →
    let w := (s.fmtOf vd).width / 8
    let base := s.reg sa + off.signExtend 64
    let one : Names := { vd := some vd }
    let two : Names := { vd := some vd, more := [vi] }
    let live (j : Nat) : Prop := s.vstart ≤ j ∧ j < s.vl ∧ s.active m.mask j = true
    let byte (j i : Nat) : Byte := BitVec.ofNat 8 ((s.vreg vd).elem (s.fmtOf vd) j / 2 ^ (8 * i))
    let foot (addr : Nat → Word) (a : Nat) : Prop := ∃ j, live j ∧ key (addr j) ≤ a ∧ a < key (addr j) + w
    let ends (i : Instr) (n : Names) (addr : Nat → Word) (mem : State → Prop) : Prop :=
      FreeToRun i s → LengthOk s n m.mask →
      (∀ j, live j → Serves s (foot addr) (addr j) w .store (key (addr j))) →
      ∃ t, exec i s = .next t ∧ t.r.vect = { s.r.vect with vstart := 0 } ∧ t.r.scal = { s.r.scal with pc := s.pc + 8 } ∧
        t.r.strip = s.r.strip ∧ t.r.queues = s.r.queues ∧ (∀ a, ¬foot addr a → t.byteAt a = s.byteAt a) ∧ mem t
    let inOrder (i : Instr) (n : Names) (addr : Nat → Word) : Prop := ends i n addr fun t =>
      ∀ j k, live j → k < w →
        (∀ j', live j' → j < j' → ¬(key (addr j') ≤ key (addr j) + k ∧ key (addr j) + k < key (addr j') + w)) →
        t.byteAt (key (addr j) + k) = byte j k
    let indexed (j : Nat) : Word := base + BitVec.ofInt 64 ((s.vreg vi).index j)
    inOrder (.vst m vd sa sb off) one (fun j => base + BitVec.ofNat 64 (w * j)) ∧
    inOrder (.vsts m vd sa sb off) one (fun j => base + BitVec.ofNat 64 j * s.reg sb) ∧
    (s.kind vi = .int → inOrder (.vstxo m vd vi sa off) two indexed ∧
      ends (.vstxu m vd vi sa off) two indexed fun t => ∀ a, foot indexed a →
        ∃ j k, live j ∧ k < w ∧ a = key (indexed j) + k ∧ t.byteAt a = byte j k)

/-- R157, R88, R89: a vector atomic acts on its elements one after the other, in increasing order, each on what the ones
before it left; nothing but memory, the PC and VSTART changes.
The model's own choices it rests on: log 38. -/
def Obligations.VectorAtomics : Prop :=
  ∀ (s : State) (m : MMod) (vd vi : VR) (sa : SR) (off : BitVec 16) (key : Word → Nat),
    s.kind vi = .int → s.pending = [] → s.r.strip.prot = false → s.r.share = [] → Memory.wf s.mem →
    let f := s.fmtOf vd
    let w := f.width / 8
    let sg (x : Nat) : Int := if f = .i32 ∨ f = .i64 then (BitVec.ofNat f.width x).toInt else x
    let n : Names := { vd := some vd, more := [vi] }
    let live (j : Nat) : Prop := s.vstart ≤ j ∧ j < s.vl ∧ s.active m.mask j = true
    let at_ (j : Nat) : Nat := key (s.reg sa + off.signExtend 64 + BitVec.ofInt 64 ((s.vreg vi).index j))
    let foot (a : Nat) : Prop := ∃ j, live j ∧ at_ j ≤ a ∧ a < at_ j + w
    let runs (i : Instr) (new : Nat → Nat → Nat) : Prop := FreeToRun i s → LengthOk s n m.mask →
      (∀ j, live j →
        Serves s foot (s.reg sa + off.signExtend 64 + BitVec.ofInt 64 ((s.vreg vi).index j)) w .amo (at_ j)) →
      let act (mem : Nat → Byte) (j : Nat) : Nat → Byte := fun a =>
        let x := leBytesToNat ((keysFrom (at_ j) w).map mem)
        if at_ j ≤ a ∧ a < at_ j + w then BitVec.ofNat 8 (new x ((s.vreg vd).elem f j) / 2 ^ (8 * (a - at_ j))) else mem a
      ∃ t, exec i s = .next t ∧ t.r.vect = { s.r.vect with vstart := 0 } ∧ t.r.scal = { s.r.scal with pc := s.pc + 8 } ∧
        t.r.strip = s.r.strip ∧ t.r.queues = s.r.queues ∧
        ∀ a, t.byteAt a = (s.activeFrom m.mask s.vstart).foldl act s.byteAt a
    (f = .i32 ∨ f = .u32 ∨ f = .i64 ∨ f = .u64 → (s.vreg vd).bs = false →
      runs (.vamoadd m vd vi sa off) (fun x y => (x + y) % 2 ^ (8 * w)) ∧
      runs (.vamomin m vd vi sa off) (fun x y => if sg x < sg y then x else y) ∧
      runs (.vamomax m vd vi sa off) (fun x y => if sg x < sg y then y else x)) ∧
    (f = .fp .fp32 → (s.vreg vd).bs = false → runs (.vamofadd m vd vi sa off) fun x y =>
      (FF.fp32.rne false (addX .rne (FF.fp32.val x) (FF.fp32.val y)).val).val)

/-! ### Streams and copies -/

/-- R158–R160, R152: STREAM and STREAMSEG pass the vector queue with one record for each active element, whose fields lie
where R158 and R160 say, and change no register; when they have landed, at their turn, field f of element i, or of the
record vi's index names (as vi stands when field f is written, R160), stands in v[vd + f] as memory has it, and everything
else is as before.
The model's own choices it rests on: log 4, 39. -/
def Obligations.Streams : Prop :=
  ∀ (s : State) (m : MMod) (vd vi : VR) (sa sb : SR) (off : BitVec 16) (off13 : BitVec 13) (fields : Fin 8)
    (key : Word → Nat),
    s.destKind vd = .int ∨ s.destKind vd = .float → s.r.stat = .ready → s.r.streams = [] → s.pending = [] →
    s.r.replies = [] → s.r.pages = [] →
    let es := (s.fmtOf vd).width / 8
    let live (j : Nat) : Prop := s.vstart ≤ j ∧ j < s.vl ∧ s.active m.mask j = true
    let runs (i : Instr) (nf : Nat) (more : List VR) (addr : Nat → Nat → Word) (pick : State → Nat → Nat → Option Nat) : Prop :=
      let n : Names := { vd := some vd, more := ((List.range nf).drop 1).map (fun f => vd + Fin.ofNat 32 f) ++ more }
      FreeToRun i s → LengthOk s n m.mask →
      (∀ k, ({ s with free := k } : State).convoyCheck i = .ok ((), { s with free := k })) →
      (∀ f, f < nf → (s.vreg (vd + Fin.ofNat 32 f)).tag = (s.vreg vd).tag) →
      (∀ j f, live j → f < nf → Serves s (fun _ => False) (addr j f) es .load (key (addr j f))) →
      ∃ t, exec i s = .next t ∧ t.r.scal = { s.r.scal with pc := s.pc + 8 } ∧ t.r.vect = s.r.vect ∧ SameMemory s t ∧
        t.r.queues = s.r.queues ∧ (∃ a b snap, t.r.vq = [.vec i a b snap]) ∧
        (∃ x, t.r.streams = [x] ∧ x.recs = (s.activeFrom m.mask s.vstart).map fun j =>
          (j, (List.range nf).map fun f => (key (addr j f), none))) ∧
        let u := t.drain true
        u.r.vq = [] ∧ u.r.streams = [] ∧ u.r.scal = t.r.scal ∧ SameMemory s u ∧ u.vstart = 0 ∧ u.vl = s.vl ∧
        u.r.queues = s.r.queues ∧ u.r.vect.vflags = s.r.vect.vflags ∧
        (∀ r, (∀ f, f < nf → r ≠ vd + Fin.ofNat 32 f) → u.vreg r = s.vreg r) ∧
        ∀ f, f < nf → ElementResult s u m.mask (vd + Fin.ofNat 32 f) s.vstart (s.vlmaxOf n) fun j =>
          match pick u f j with
          | some r => leBytesToNat (bytesAt s.mem (key (addr r f)) es)
          | none => 0
    runs (.stream m vd sa sb off) 1 []
      (fun j _ => s.reg sa + off.signExtend 64 + BitVec.ofNat 64 j * (if sb = 0 then BitVec.ofNat 64 es else s.reg sb)) (fun _ _ => some) ∧
    let seg (j f : Nat) : Word := s.reg sa + off13.signExtend 64 +
      BitVec.ofNat 64 j * (if sb = 0 then BitVec.ofNat 64 ((fields.val + 1) * es) else s.reg sb) + BitVec.ofNat 64 (f * es)
    (vi = 0 → runs (.streamseg m vd sa sb vi fields off13) (fields.val + 1) [] seg fun _ _ => some) ∧
    (vi ≠ 0 → s.kind vi = .int → m.mask.reg = 0 → s.vstart = 0 →
      runs (.streamseg m vd sa sb vi fields off13) (fields.val + 1) [vi] seg fun u f j =>
        let x := if ∃ g, g < f ∧ vi = vd + Fin.ofNat 32 g then (u.vreg vi).index j else (s.vreg vi).index j
        if 0 ≤ x ∧ x < s.vl then some x.toNat else none)

/-- R161–R164, R226: with room in the engine and a descriptor that passes its checks, COPY advances the PC and changes no
register and no byte; one with no element is complete at once, another is accepted with its source and destination
elements in box order.
The model's own choices it rests on: log 41. -/
def Obligations.CopyAcceptance : Prop :=
  ∀ (s : State) (scope : Scope) (sa sb : SR) (off : BitVec 16) (words : List Word) (key : Word → Nat),
    let d := s.reg sa + off.signExtend 64
    let i : Instr := .copy scope sa sb off
    let f (n : Nat) : Word := (words[n]?).getD 0
    let e := (List.range 4).map fun k => bitsOf (s.reg sb) (16 * k) 16
    let es := 2 ^ bitsOf (f 9) 0 2
    let count := e.foldl (· * ·) 1
    let desc := copyDesc words
    s.r.vq = [] → s.r.stat = .ready → s.r.strip.prot = false → s.pending = [] → (s.copyLoad).1 < 64 → (s.copyLoad).2 < 16 →
    words.length = 12 →
    (∀ n, n < 12 → Serves s (fun _ => False) (d + BitVec.ofNat 64 (8 * n)) 8 .load (key (d + BitVec.ofNat 64 (8 * n))) ∧
      f n = BitVec.ofNat 64 (leBytesToNat (s.ownBytes (key (d + BitVec.ofNat 64 (8 * n))) 8))) →
    let done (copies : State → Prop) : Prop :=
      ∃ t, exec i s = .next t ∧ (∀ n, t.reg n = s.reg n) ∧ t.pc = s.pc + 8 ∧ t.r.vect = s.r.vect ∧
        t.r.queues = s.r.queues ∧ SameMemory s t ∧ copies t
    (s.badField desc (count * es) = none →
      (count = 0 → bitOf (f 9) 4 = false → done fun t => t.copies = s.copies) ∧
      (0 < count → s.r.strip.buf = [] →
        (∀ a ∈ boxAddrs (f 0) (f 2, f 3, f 4) e es, Serves s (fun _ => False) a es .load (key a)) →
        (∀ a ∈ boxAddrs (f 1) (f 5, f 6, f 7) e es, Serves s (fun _ => False) a es .store (key a)) →
        done fun t => ∃ c : CopyRec, t.copies = s.copies ++ [c] ∧ c.runner = s.rid ∧ c.esize = es ∧ c.landed = [] ∧
          c.waits = false ∧ (c.arv.isSome = bitOf (f 9) 4) ∧
          c.elems = ((boxAddrs (f 0) (f 2, f 3, f 4) e es).map key).zip ((boxAddrs (f 1) (f 5, f 6, f 7) e es).map key))) ∧
    (∀ o, s.badField desc (count * es) = some o →
      ∃ t, exec i s = .next t ∧ t.r.scal.sysr.tcause = 0x05 ∧ t.r.scal.sysr.tepc = s.pc ∧
        t.r.scal.sysr.tval = d + BitVec.ofNat 64 o ∧ t.copies = s.copies)

/-! ### Leased engines and collectives -/

/-- R202, R203: with a held SFE and tags R203 accepts SFN completes, whatever its ten functions: the PC advances, VSTART is
0. Each active element becomes F of the source read by SRC, delivered once to the destination's format. F takes the special
values of R203's table: at a NaN, at each infinity, at each zero, below zero, and without a flag at the arguments whose
result is exact; at any other finite argument it raises NX, and where the exact value lies in the FP32 range its result is a
finite FP32 number no further from it than the table's bound, RCP correctly rounded; beyond the range it is ±∞ with OF. The
exact value is the model's, a fixed-point number of 400 fraction bits (log 5). Without a lease of that kind, or with a lost one, SFN traps and changes nothing.
The model's own choices it rests on: log 5. -/
def Obligations.SpecialFunctions : Prop :=
  (∀ (s : State) (m : VMod) (vd va : VR) (fn : Fin 10) (sh : SR) (g : FF),
    let n : Names := { vd := some vd, va := some va }
    FreeToRun (.sfn m vd va fn sh) s →
    (LeaseHeld s (s.reg sh) .sfe → s.fmtOf va = .fp .fp32 ∨ s.fmtOf va = .fp .bf16 ∨ s.fmtOf va = .fp .fp16 →
      (s.vreg va).bs = false → (s.vreg vd).bs = false → s.fmtOf vd = .fp g → g ≠ .fp64 → LengthOk s n m.mask →
      NoFpTraps s →
      (∃ t, exec (.sfn m vd va fn sh) s = .next t ∧ t.pc = s.pc + 8 ∧ t.vstart = 0 ∧ ∀ k, t.reg k = s.reg k) ∧
      Elementwise (.sfn m vd va fn sh) s m.mask vd (s.vlmaxOf n) {} fun j =>
        g.deliver (modesOf s.vtype) (sfApply fn ((s.vreg va).src (bitOf s.vtype 4) j))) ∧
    (∀ c : Cause, (c = .leaseAbsent ∧ s.r.leaseOf (s.reg sh) = none) ∨
        (c = .leaseLost ∧ s.r.wait = none ∧ ∃ slot l, s.r.leaseOf (s.reg sh) = some (slot, l) ∧ l.st ≠ .held) ∨
        (c = .leaseAbsent ∧ ∃ slot l, s.r.leaseOf (s.reg sh) = some (slot, l) ∧ l.st = .held ∧ l.kind ≠ .sfe) →
      ∃ t, exec (.sfn m vd va fn sh) s = .next t ∧ t.r.scal.sysr.tcause = BitVec.ofNat 64 c.code ∧
        t.r.scal.sysr.tepc = s.pc ∧ t.r.scal.sysr.tval = s.reg sh ∧ t.r.vect = s.r.vect)) ∧
  (∀ (neg : Bool) (k : Fin 10) (m : Nat) (e : Int) (st : Bool),
    let bad : Flagged XVal := { val := .nan false, flags := { nv := true } }
    let pole (b : Bool) : Flagged XVal := { val := .inf b, flags := { dz := true } }
    let one : XVal := .ofInt 1
    let gives (x : XVal) (y : XVal) : Prop := sfApply k x = { val := y }
    let exactly (x : XVal) (y : XVal) : Prop := cmpX (sfApply k x).val y = .eq ∧ (sfApply k x).flags = {}
    sfApply k (.nan neg) = { val := .nan false, flags := { nv := neg } } ∧
    (k = 0 ∨ k = 8 → gives (.inf neg) (if neg then .zero false else .inf false)) ∧
    (k = 1 → sfApply k (.inf neg) = if neg then bad else { val := .inf false }) ∧
    (k = 2 → gives (.inf neg) (.zero neg)) ∧
    (k = 3 → sfApply k (.inf neg) = if neg then bad else { val := .zero false }) ∧
    (k = 4 ∨ k = 5 → sfApply k (.inf neg) = bad) ∧
    (k = 6 ∨ k = 7 → gives (.inf neg) (.fin neg 1 0 false)) ∧
    (k = 9 → gives (.inf neg) (if neg then .zero false else one)) ∧
    (k = 0 ∨ k = 5 ∨ k = 8 → gives (.zero neg) one) ∧
    (k = 1 → sfApply k (.zero neg) = pole true) ∧
    (k = 2 ∨ k = 3 → sfApply k (.zero neg) = pole neg) ∧
    (k = 4 ∨ k = 6 ∨ k = 7 → gives (.zero neg) (.zero neg)) ∧
    (k = 9 → gives (.zero neg) (.fin false 1 (-1) false)) ∧
    (m ≠ 0 → k = 1 ∨ k = 3 → sfApply k (.fin true m e st) = bad) ∧
    (-126 ≤ e → e ≤ 126 →
      (k = 0 → exactly (.ofInt e) (.fin false 1 e false)) ∧
      (k = 1 → exactly (.fin false 1 e false) (.ofInt e)) ∧
      (k = 2 → exactly (.fin neg 1 e false) (.fin neg 1 (-e) false)) ∧
      (k = 3 → e % 2 = 0 → exactly (.fin false 1 e false) (.fin false 1 (-e / 2) false))) ∧
    (m ≠ 0 → (neg = true → k ≠ 1 ∧ k ≠ 3) → (sfFn k).exact (.fin neg m e st) = none →
      (sfApply k (.fin neg m e st)).flags.nx = true)) ∧
  ∀ (k : Fin 10) (w : Nat), w < 2 ^ 32 → w / 2 ^ 23 % 256 ≠ 255 → w % 2 ^ 31 ≠ 0 → (2 ^ 31 ≤ w → k ≠ 1 ∧ k ≠ 3) →
    let x := FF.fp32.val w
    let rounded (y : XVal) : Flagged Nat := FF.fp32.roundBy (.mode .rne) false false y
    (∀ y, (sfFn k).exact x = some y →
      sfApply k x = { val := FF.fp32.val (rounded y).val, flags := (rounded y).flags }) ∧
    ((sfFn k).exact x = none →
      let y := (sfFn k).value x
      let beyond : Prop := cmpX y.abs (FF.fp32.val 0x7F7FFFFF) = .gt
      (beyond → sfApply k x = { val := .inf y.neg, flags := { of := true, nx := true } }) ∧
      (¬beyond →
        let r := (sfApply k x).val
        let within (b : XVal) : Prop := cmpX (addX .rne r y.negate).val.abs b ≠ .gt
        let halves : Nat := match k.val with
          | 0 | 1 | 3 => 2 | 2 => 1 | 9 => 6 | _ => 4
        (∃ b, b < 2 ^ 32 ∧ b / 2 ^ 23 % 256 ≠ 255 ∧ r = FF.fp32.val b) ∧
        (within (.fin false halves (max y.lead (-126) - 24) false) ∨
          ((k = 4 ∨ k = 5) ∧ within (.fin false 1 (-26) false))) ∧
        (k = 2 → r = FF.fp32.val (rounded y).val)))

/-- R204–R206: XSORT leaves the active elements in key order, equal keys in element order, NaNs last, with their indices
beside them if asked; XTOPK the first k of them, indices in vd and values in vd + 1; XHIST counts each value of an index
into the element it names. What follows in a sorted register is as TP says.
The model's own choices it rests on: log 51. -/
def Obligations.SortEngine : Prop :=
  ∀ (s : State) (m : VMod) (vd va : VR) (desc idx smallest : Bool) (k : BitVec 13) (sh : SR),
    LeaseHeld s (s.reg sh) .sxe →
    let act := (List.range s.vl).filter fun j => s.active m.mask j
    let x := (s.vreg va).src (bitOf s.vtype 4)
    let inOrder (d : Bool) (l : List Nat) : Prop := l.Perm act ∧
      l.Pairwise fun a b => sortBefore d (x a) (x b) = true ∨ (sortBefore d (x b) (x a) = false ∧ a < b)
    let holds (t : State) (r : VR) (vlmax : Nat) (l : List Nat) : Prop :=
      (t.vreg r).tag = (s.vreg r).tag ∧ (t.vreg r).side = (s.vreg r).side ∧
      ∀ j, (s.fmtOf r).bitAt j + (s.fmtOf r).width ≤ 16384 → (t.vreg r).elem (s.fmtOf r) j =
        if h : j < l.length then l[j] % 2 ^ (s.fmtOf r).width
        else if j < vlmax ∧ tpOf s.vtype then 0 else (s.vreg r).elem (s.fmtOf r) j
    let raw (l : List Nat) : List Nat := l.map fun j => (s.vreg va).elem (s.fmtOf va) j
    let plain := s.destKind va = .int ∨ s.destKind va = .float
    (let i : Instr := .xsort m vd va desc idx sh
     let n : Names := { vd := some vd, va := some va, more := if idx then [vd + 1] else [] }
     FreeToRun i s → LengthOk s n m.mask → plain → (s.vreg vd).tag = (s.vreg va).tag →
     (idx = true → s.indexReg (vd + 1) = true) →
     ∃ t l, exec i s = .next t ∧ inOrder desc l ∧ VectorFrame s t (if idx then [vd, vd + 1] else [vd]) ∧ QuietFrame s t ∧
       holds t vd (s.vlmaxOf n) (raw l) ∧ (idx = true → holds t (vd + 1) (s.vlmaxOf n) l)) ∧
    (let i : Instr := .xtopk m vd va k smallest sh
     let n : Names := { vd := some vd, va := some va, more := [vd + 1] }
     FreeToRun i s → LengthOk s n m.mask → plain → (s.vreg (vd + 1)).tag = (s.vreg va).tag → s.indexReg vd = true →
     k.toNat ≤ s.vlmaxOf n →
     ∃ t l, exec i s = .next t ∧ inOrder (!smallest) l ∧ VectorFrame s t [vd, vd + 1] ∧ QuietFrame s t ∧
       holds t vd (s.vlmaxOf n) (l.take k.toNat) ∧ holds t (vd + 1) (s.vlmaxOf n) (raw (l.take k.toNat))) ∧
    (let i : Instr := .xhist m vd va sh
     let f := s.fmtOf vd
     let sg : Bool := f.intSigned = some true
     FreeToRun i s → MaskOk s m.mask → s.vl ≤ (s.vreg va).count s.vlen → s.kind va = .int → (s.vreg vd).bs = false →
     f = .i32 ∨ f = .u32 ∨ f = .i64 ∨ f = .u64 →
     ∃ t, exec i s = .next t ∧ VectorFrame s t [vd] ∧ QuietFrame s t ∧ (t.vreg vd).tag = (s.vreg vd).tag ∧
       (t.vreg vd).side = (s.vreg vd).side ∧
       ∀ j, f.bitAt j + f.width ≤ 16384 → (t.vreg vd).elem f j =
         if j < f.count s.vlen then bitsIn f.width (fitted (bitOf s.vtype 5) sg f.width
           ((s.vreg vd).index j + act.countP fun e => (s.vreg va).index e == j))
         else (s.vreg vd).elem f j)

/-- R207, R208: the participant that completes a collective with all others joined gets its result from the contributions
in linear order: on integers the exact sum, minimum, maximum, AND or OR of the active ones, whatever the shape of the tree;
on floating registers of a deterministic heat R54's tree; CGATHER lays the contributions one after the other; CBCAST gives
everyone the root's. Without a collective group, span 11 is span 10. One whose others have not joined waits with its
contribution noted. A CRED of AND or OR on floating registers traps TAG (R133, R208).
The model's own choices it rests on: log 3, 10, 43, 52. -/
def Obligations.Collectives : Prop :=
  ∀ (s : State) (m : VMod) (vd va : VR) (op : Fin 5) (root : Bool) (span : Fin 4) (id : Byte) (sh : SR),
    LeaseHeld s (s.reg sh) .cle → s.r.fabric = none → s.r.wait = none → s.pending = [] → s.r.share = [] →
    (s.part? s.rid.part).isSome = true →
    s.destKind va = .int ∨ s.destKind va = .float → NoFpTraps s →
    let n : Names := { vd := some vd, va := some va }
    let joinsAs (i : Instr) (op : CollOp) (ok : Nat → Prop) (rest : Collective → List Joined → Prop) : Prop :=
      let c := s.spanned op
      ok (s.participants c.span).length →
      (∃ p, s.compat (0x10 + c.span) 0 = .ok (p, s)) → s.rid ∈ s.participants c.span →
      FreeToRun i s → LengthOk s n m.mask → (s.collective c).joined.any (fun j => j.runner == s.rid) = false →
      s.rid ∉ (s.collective c).taken →
      let x : Collective := { s.collective c with joined := (s.collective c).joined ++ [s.contribution i c] }
      let js := s.contributions x (s.fmtOf va)
      (s.collComplete x = true → collAgree js = true → rest x js) ∧
      (s.collComplete x = false → ∃ t, exec i s = .next t ∧ t.pc = s.pc ∧ t.r.stat = .waiting ∧ t.r.vect = s.r.vect ∧
        (∀ r, t.reg r = s.reg r) ∧ (t.collective c).joined = x.joined)
    let d := s.fmtOf vd
    (s.destKind vd = s.kind va →
      let i : Instr := .cred m vd va op span id sh
      joinsAs i (credOp m vd va op span id) (fun _ => s.kind va = .float → op.val < 3) fun _ js =>
        let vt := (js.head?.map (·.vtype)).getD s.vtype
        let sg : Bool := d.intSigned = some true
        let xs (e : Nat) := (js.filter fun j => j.mask.getLsbD e).map fun j => j.va.index e
        let fit (v : Int) : Nat := bitsIn d.width (fitted (bitOf vt 5) sg d.width v)
        (s.kind va = .int → VectorGives i s m.mask vd 0 (s.vlmaxOf n) {} fun e => match op.val with
          | 0 => fit (xs e).sum
          | 1 => fit ((xs e).min?.getD (if sg then 2 ^ (d.width - 1) - 1 else 2 ^ d.width - 1))
          | 2 => fit ((xs e).max?.getD (if sg then -(2 ^ (d.width - 1)) else 0))
          | 3 => (((xs e).map fun v => BitVec.ofInt 64 v).foldl (· &&& ·) (BitVec.allOnes 64)).toNat
          | _ => (((xs e).map fun v => BitVec.ofInt 64 v).foldl (· ||| ·) 0#64).toNat) ∧
        (∀ g, s.kind va = .float → d = .fp g → ∃ fl val, VectorGives i s m.mask vd 0 (s.vlmaxOf n) fl val ∧
          (detOf vt = true → ∀ e, val e =
            let o : RedOp := match op.val with | 0 => .sum | 1 => .min | _ => .max
            let leaves := js.map fun j => if j.mask.getLsbD e then
              some ({ val := j.va.src (bitOf vt 4) e } : Flagged XVal) else none
            let w := redFormat ((js.head?.map fun j => j.va.opf).getD .fp32)
            let y := (tree (o.fpNode (modesOf vt) w) leaves).getD { val := o.fpId }
            (g.deliver (modesOf vt) { val := y.val, flags := nvIf y.val.isSnan }).val))) ∧
    (s.kind va = .float → 3 ≤ op.val → FreeToRun (.cred m vd va op span id sh) s →
      ∃ t, exec (.cred m vd va op span id sh) s = .next t ∧ t.r.scal.sysr.tcause = 0x06 ∧ t.r.scal.sysr.tepc = s.pc ∧
        t.r.vect = s.r.vect ∧ ∀ r, t.reg r = s.reg r) ∧
    ((s.vreg vd).tag = (s.vreg va).tag →
      (let i : Instr := .cbcast m vd va root span id sh
       joinsAs i (cbcastOp m vd va root span id) (fun _ => True) fun _ js => ∃ j ∈ js, isRoot j.i = true ∧
         VectorGives i s m.mask vd 0 (s.vlmaxOf n) {} fun e => j.va.elem d e) ∧
      (let i : Instr := .cgather m vd va span id sh
       let e := (s.vreg vd).count s.vlen
       let fits (p : Nat) : Prop := vd.val + (p * s.vl + e - 1) / e ≤ 32 ∧
         ∀ k, k < (p * s.vl + e - 1) / e → (s.vregN (vd.val + k)).tag = (s.vreg vd).tag
       joinsAs i (cgatherOp m vd va span id) fits fun _ js =>
         let regs := (js.length * s.vl + e - 1) / e
         fits js.length →
         ∃ t, exec i s = .next t ∧ VectorFrame s t ((List.range regs).map fun k => vd + Fin.ofNat 32 k) ∧ QuietFrame s t ∧
           ∀ k j, k < regs → j < e → d.bitAt j + d.width ≤ 16384 →
             (t.vregN (vd.val + k)).elem d j = match js[(k * e + j) / s.vl]? with
               | some x => if k * e + j < js.length * s.vl then
                   (if x.mask.getLsbD ((k * e + j) % s.vl) then x.va.elem d ((k * e + j) % s.vl) else 0)
                 else (s.vregN (vd.val + k)).elem d j
               | none => (s.vregN (vd.val + k)).elem d j))

/-! ### The matrix unit -/

/-- R167, R169, R171, R175: TSHAPE records the request and captures the modes; an ATTACH whose octants are awake is granted:
every accumulator element and latch zero, every scale 1, GSTAT.STATUS 0; one whose octants are all in their break-even hold
is granted at once by R218's algorithm; a triple R168 does not offer ends with STATUS 3. DETACH, with no store outstanding
and no tile operation of another runner still to be issued, gives the share up, its octants to their hold, its flags to VFLAGS.
The model's own choices it rests on: log 47, 91. -/
def Obligations.Shares : Prop :=
  ∀ (s : State) (sa sb : SR) (k : Byte) (af bf zf : BitVec 5), s.r.vq = [] → s.r.fabric = none →
    let quiet (t : State) : Prop := (∀ n, t.reg n = s.reg n) ∧ t.pc = s.pc + 8 ∧ t.r.vect.v = s.r.vect.v ∧ SameMemory s t ∧
      t.r.queues = s.r.queues
    (∃ t, exec (.tshape sa sb k af bf zf) s = .next t ∧ quiet t ∧ t.r.vect = s.r.vect ∧
      bitsOf t.r.treq 0 16 = min (s.reg sa).toNat 65535 ∧ bitsOf t.r.treq 16 16 = min (s.reg sb).toNat 65535 ∧
      bitsOf t.r.treq 32 16 = k.toNat ∧
      let f : Word := t.r.tfmt.setWidth 64
      afOf f = af.toNat ∧ bfOf f = bf.toNat ∧ zfOf f = zf.toNat ∧ bitsOf f 15 3 = bitsOf s.vtype 0 3 ∧
      bitsOf f 18 2 = bitsOf s.vtype 3 2 ∧ (zf = 0x0F → gSlices f = slicesOf s.vtype)) ∧
    (s.r.withdrawn = false → s.r.attachTold = false →
      let granted (i : Instr) (g : Grant) (octs : List Nat) : Prop := ∃ t a, exec i s = .next t ∧ quiet t ∧
        t.myCore.att = some a ∧ t.myCore.attStatus = 0 ∧ t.myCore.loss = none ∧ a.gm = g.gm ∧ a.gn = g.gn ∧ a.gk = g.gk ∧
        a.gfmt = s.r.tfmt.setWidth 64 ∧ a.flags = 0 ∧ a.ops = [] ∧ (∀ n, n < 8 → a.oct.getLsbD n = octs.contains n) ∧
        (∀ z : Fin 4, a.acc[z] = List.replicate (g.gm * g.gn) 0) ∧
        ∀ l : Fin 4, ∀ row ∈ a.latches[l], row.elems = List.replicate g.gk 0 ∧
          row.scale = if 2 ≤ l.val ∧ groupedCode (bfOf a.gfmt) then 0x3F80 else 127
      (∀ p, s.myPend = some p → p.again = false → p.toWake = [] → (∀ n ∈ p.octs, n < 8) →
        granted .attach { gm := p.gm, gn := p.gn, gk := p.gk, count := p.octs.length } p.octs ∧
        (s.r.wait = none → granted .attachW { gm := p.gm, gn := p.gn, gk := p.gk, count := p.octs.length } p.octs)) ∧
      (s.myPend = none → s.myCore.att = none → s.attachBusy = false →
        (s.tripleOffered = false → ∃ t, exec .attach s = .next t ∧ quiet t ∧ t.myCore.att = none ∧ t.myCore.attStatus = 3) ∧
        (s.tripleOffered = true →
          let avail := s.available s.r
          let g := s.targetOf s.r (min (s.allowance s.r) (floorPow2 avail.length))
          avail ≠ [] → (∀ n ∈ avail.take g.count, (s.engine (s.octantOf n)).st = .hold) →
          g.count * octantPower (isM s.r.ident.core.cluster) ≤ s.ebud s.rid.part →
          granted .attach g (avail.take g.count)))) ∧
    (∀ a, s.myCore.att = some a → s.myCore.loss = none → a.ops = [] → s.tileQueued = false →
      (∀ n, (s.die s.r.ident.core.die).wants (s.octantOf n) = none) →
      ∃ t, exec .detach s = .next t ∧ quiet t ∧ t.myCore.att = none ∧ t.myCore.attStatus = s.myCore.attStatus ∧
        t.r.vect = { s.r.vect with vflags := s.r.vect.vflags ||| a.flags } ∧
        (s.pacer.droop.level < 2 → (s.die s.r.ident.core.die).tripped = false →
          (∀ n, (s.die s.r.ident.core.die).wantsOctant (s.octantOf n) = none) → ∀ n, n < 8 → a.oct.getLsbD n = true →
          (t.engine (s.octantOf n)).st = .hold ∧ (t.engine (s.octantOf n)).ends = s.time + 20000))

/-- R172–R175: a latch load takes its rows from the scratchpad or the TCM, or from concatenated registers, each row with
its scale (1 where the load gives none), and no other latch and no accumulator changes; MFENCE ends what those loads still
watch of their sources.
The model's own choices it rests on: log 4, 44. -/
def Obligations.LatchLoads : Prop :=
  ∀ (s : State) (a : Attach) (l : Latch) (sa sb : SR) (vi : VR) (soff : BitVec 24) (key : Word → Nat),
    TileReady s a → s.r.strip.buf = [] → s.poison = [] →
    let n := latchIdx l
    let c := latchCode a.gfmt n
    let f := fmtOfCode c
    let rows := a.rows n
    let bytes := (f.width * a.gk + 7) / 8
    let al := if c = 0x0D then 2 else if c = 0x0F then 8 else 1
    let es := if soff = 0 then 0 else if groupedCode c then 2 else 1
    let loads (i : Instr) (elem : Nat → Nat → Nat) (scale : Nat → BitVec 16) : Prop :=
      ∃ t b, exec i s = .next t ∧ TileFrame s t a b ∧ b.acc = a.acc ∧ b.flags = a.flags ∧
        (∀ m : Fin 4, m ≠ n → b.latches[m] = a.latches[m]) ∧
        b.latches[n] = (List.range rows).map fun r =>
          { elems := (List.range a.gk).map fun k => BitVec.ofNat 64 (elem r k % 2 ^ f.width), scale := scale r }
    let memory (i : Instr) (addr : Nat → Word) : Prop :=
      (∀ r, r < rows → s.tileKey (addr r) bytes al .load = .ok (key (addr r), s)) →
      (es ≠ 0 → ∀ r, r < rows → s.tileKey (addr r + soff.setWidth 64) es es .load =
        .ok (key (addr r + soff.setWidth 64), s)) →
      loads i (fun r k => leBytesToNat (bytesAt s.mem (key (addr r)) bytes) / 2 ^ (f.width * k))
        (fun r => if es = 0 then 127 else BitVec.ofNat 16 (leBytesToNat (bytesAt s.mem (key (addr r + soff.setWidth 64)) es)))
    (soff ≠ 0 → scalable c (zfOf a.gfmt) = true) → (soff = 0 → groupedCode c = false) →
    (n.val < 2 → memory (.tlda l sa sb soff) (fun r => s.reg sa + BitVec.ofNat 64 r * s.reg sb) ∧
      (s.kind vi = .int → a.gm ≤ (s.vreg vi).count s.vlen →
        memory (.tldax l sa sb vi soff) fun r => s.reg sa + BitVec.ofInt 64 ((s.vreg vi).index r) * s.reg sb)) ∧
    (2 ≤ n.val → memory (.tldb l sa sb soff) (fun r => s.reg sa + BitVec.ofNat 64 r * s.reg sb)) ∧
    (let bs := (s.vreg vi).bs
     let e := (s.vreg vi).count s.vlen
     let step := if bs ∨ groupedCode c then 32 else a.gk
     (s.vreg vi).fmt.map Fmt.code = some c → (bs = true → scalable c (zfOf a.gfmt) = true) →
     vi.val + (rows * step + e - 1) / e ≤ 32 →
     (∀ k, k < (rows * step + e - 1) / e → (s.vregN (vi.val + k)).tag = (s.vreg vi).tag) →
     loads (.tldv l vi) (fun r k => (s.vregN (vi.val + (r * step + k) / e)).elem (s.fmtOf vi) ((r * step + k) % e))
       (fun r =>
         let x := (s.vregN (vi.val + r * step / e)).entry (r * step % e / 32)
         if groupedCode c then BitVec.ofNat 16 x else if bs then BitVec.ofNat 16 (x % 256) else 127)) ∧
    ∃ t b, exec .mfence s = .next t ∧ TileFrame s t a b ∧ b.acc = a.acc ∧ t.r.vecWrites = 0 ∧
      (∀ x ∈ b.caps, x.runner ≠ s.rid) ∧ ∀ x ∈ b.tldvs, x.runner ≠ s.rid

/-- R176, R177, R49–R52, R179: TMMA adds to every accumulator element its GK/8 depth groups in increasing depth, the
operands row i of the A latch and row j of the B latch; on the integer path each group adds its exact sum, fitted to INT32
as VTYPE.SAT says. The flags join the attach's. TZERO makes every element zero.
The model's own choices it rests on: log 50, 83. -/
def Obligations.TileMultiply : Prop :=
  ∀ (s : State) (a : Attach) (z : ZR) (a1 b1 : Bool),
    TileReady s a → s.world.badColumns = [] → a.tldvs = [] →
    let ra := a.latches[if a1 then (1 : Fin 4) else 0]
    let rb := a.latches[if b1 then (3 : Fin 4) else 2]
    (∃ t b, exec (.tmma z a1 b1) s = .next t ∧ TileFrame s t a b ∧ b.latches = a.latches ∧
      (∀ y : Fin 4, y ≠ z → b.acc[y] = a.acc[y]) ∧ (b.acc[z]).length = (a.acc[z]).length ∧
      let new (k : Nat) (x : BitVec 64) : Flagged Nat := mmaElem a.gfmt (bitOf s.vtype 5) a.gk
        ((ra[k / a.gn]?).getD {}) ((rb[k % a.gn]?).getD {}) x.toNat
      b.flags = a.flags ||| (((a.acc[z]).mapIdx new).foldl (fun (f : Flags) (r : Flagged Nat) => f.or r.flags) {}).bits ∧
      ∀ k x, (a.acc[z])[k]? = some x → (b.acc[z])[k]? = some (BitVec.ofNat 64 (new k x).val) ∧
        (zfOf a.gfmt = 0x06 → 8 ≤ a.gk → ∀ u v, ra[k / a.gn]? = some u → rb[k % a.gn]? = some v →
          let dot (g : Nat) : Int := (((u.elems.drop (8 * g)).take 8).zipWith
            (fun p q => (p.setWidth 8).toInt * (q.setWidth 8).toInt) ((v.elems.drop (8 * g)).take 8)).sum
          (b.acc[z])[k]? = some (BitVec.ofNat 64 (bitsIn 32 ((List.range (a.gk / 8)).foldl
            (fun (y : Int) (g : Nat) => fitted (bitOf s.vtype 5) true 32 (y + dot g)) (x.setWidth 32).toInt))))) ∧
    ∃ t b, exec (.tzero z) s = .next t ∧ TileFrame s t a b ∧ b.latches = a.latches ∧ b.flags = a.flags ∧
      (∀ y : Fin 4, b.acc[y] = if y = z then (a.acc[z]).map fun _ => 0 else a.acc[y]) ∧
      t.r.strip.ckZeroed = s.r.strip.ckZeroed ||| (1#4 <<< z.val)

/-- R178–R182: a tile store is outstanding with the bytes or the register elements it will deliver; MWAIT delivers those
of its runner in order, and ORs the attach's flags into VFLAGS; TRESTORE takes an image of exactly this attach back into
an accumulator. Outside a protected strip; a tile store that writes no byte an earlier latch load still watches (R173).
The model's own choices it rests on: log 44, 48, 83. -/
def Obligations.TileStores : Prop :=
  ∀ (s : State) (a : Attach) (z : ZR) (o : OutFmt) (sa sb : SR) (sr : Option SrArg) (vi : VR) (key : Word → Nat),
    s.r.strip.prot = false →
    let zf := zFmt a.gfmt
    let arg := sr.map fun x => (s.reg x.reg, x.d.toNat)
    let val (out : Fmt) := storeVals a.gfmt a.gn s.r.ident.seed arg out a.acc[z]
    let byte (x i : Nat) : Byte := BitVec.ofNat 8 (x / 2 ^ (8 * i))
    let clear (k n : Nat) : Prop := ∀ x ∈ a.caps, x.key + x.len ≤ k ∨ k + n ≤ x.key
    let stores (i : Instr) (fl : BitVec 5) (p : TileOp → Prop) : Prop := ∃ t b op, exec i s = .next t ∧
      SameMemory s t ∧ t.r.scal = { s.r.scal with pc := s.pc + 8 } ∧ t.r.queues = s.r.queues ∧ t.myCore.att = some b ∧
      b.acc = a.acc ∧ b.flags = a.flags ||| fl ∧ b.ops = [op] ∧ op.runner = s.rid ∧ op.taint = [] ∧ op.regTaint = [] ∧
      op.prot = false ∧ p op
    (TileReady s a → (a.acc[z]).length = a.gm * a.gn →
      (let out := outFmt a.gfmt o
       let w := out.width / 8
       outAllowed zf out = true → (sr ≠ none → zf ≠ .i32) →
       (∀ i, i < a.gm → s.tileKey (s.reg sa + BitVec.ofNat 64 i * s.reg sb) (a.gn * w) w .store =
         .ok (key (s.reg sa + BitVec.ofNat 64 i * s.reg sb), s) ∧ clear (key (s.reg sa + BitVec.ofNat 64 i * s.reg sb)) (a.gn * w)) →
       stores (.tst z o sa sb sr) (val out).flags.bits fun op => op.elems = [] ∧
         op.cells.length = a.gm * a.gn * w ∧
         ∀ i j b, i < a.gm → j < a.gn → b < w → op.cells[(i * a.gn + j) * w + b]? =
           some (key (s.reg sa + BitVec.ofNat 64 i * s.reg sb) + j * w + b,
             byte (((val out).val[i * a.gn + j]?).getD 0) b)) ∧
      (let out := s.fmtOf vi
       let e := (s.vreg vi).count s.vlen
       let n := (a.gm * a.gn + e - 1) / e
       outAllowed zf out = true → (s.vreg vi).bs = false → (s.vreg vi).fmt ≠ none → (sr ≠ none → zf ≠ .i32) →
       vi.val + n ≤ 32 → (∀ k, k < n → (s.vregN (vi.val + k)).tag = (s.vreg vi).tag) →
       stores (.tstv z vi sr) (val out).flags.bits fun op => op.cells = [] ∧ op.elems.length = a.gm * a.gn ∧
         ∀ k, k < a.gm * a.gn → op.elems[k]? = some (vi + Fin.ofNat 32 (k / e), k % e, ((val out).val[k]?).getD 0)) ∧
      (let va := s.reg sa
       let w := if zfOf a.gfmt = 0x0F then 8 else 4
       let size := 64 + a.gm * a.gn * w
       (s.tileKey va size 64 .store = .ok (key va, s) → clear (key va) size → stores (.tsave z sa) 0 fun op => op.elems = [] ∧
         op.cells = cellsFrom (key va) (natToLeBytes 8 a.gfmt.toNat ++ natToLeBytes 2 a.gm ++ natToLeBytes 2 a.gn ++
           natToLeBytes 2 a.gk ++ natToLeBytes 2 0 ++ natToLeBytes 4 0x5A170003 ++ natToLeBytes 4 (a.gm * a.gn) ++
           List.replicate 40 0 ++ (a.acc[z]).flatMap fun x => natToLeBytes w x.toNat)) ∧
       (s.tileKey va size 64 .load = .ok (key va, s) → (∀ h ∈ s.r.hist, h.meets (key va) size = false) → s.r.strip.buf = [] →
        s.poison = [] →
         let h (lo n : Nat) : Nat := leBytesToNat (bytesAt s.mem (key va + lo) n)
         h 0 8 = a.gfmt.toNat → h 8 2 = a.gm → h 10 2 = a.gn → h 14 2 = 0 → h 16 4 = 0x5A170003 → h 20 4 = a.gm * a.gn →
         (∀ j, j < 40 → s.byteAt (key va + 24 + j) = 0) →
         ∃ t b, exec (.trestore z sa) s = .next t ∧ TileFrame s t a b ∧ b.latches = a.latches ∧ b.flags = a.flags ∧
           ∀ y : Fin 4, b.acc[y] = if y = z then (List.range (a.gm * a.gn)).map fun k =>
             BitVec.ofNat 64 (leBytesToNat (bytesAt s.mem (key va + 64 + k * w) w)) else a.acc[y]))) ∧
    (s.r.vq = [] → s.myCore.att = some a → s.myCore.loss = none → s.r.share = [] → a.tldvs = [] → Memory.wf s.mem →
      (∀ op ∈ a.ops, op.runner = s.rid ∧ op.prot = false ∧ op.taint = [] ∧ op.regTaint = [] ∧ op.bad = [] ∧
        ∀ c ∈ op.cells, isOutKey c.1 = false) →
      ∃ t b, exec .mwait s = .next t ∧ t.r.scal = { s.r.scal with pc := s.pc + 8 } ∧ t.r.queues = s.r.queues ∧
        t.myCore.att = some b ∧ b.ops = [] ∧ b.flags = 0 ∧ b.acc = a.acc ∧ b.latches = a.latches ∧
        t.r.vect.vflags = s.r.vect.vflags ||| a.flags ∧
        (∀ k, t.byteAt k = overlay (a.ops.flatMap fun op => op.cells) k (s.byteAt k)) ∧
        ∀ r, t.vreg r = ((a.ops.flatMap fun op => op.elems).filter fun e => e.1 == r).foldl
          (fun v e => v.setElem (s.fmtOf r) e.2.1 e.2.2) (s.vreg r))

/-! ### Waits, barriers, bitmaps -/

/-- R187, R189–R191, R196, R197, R104: WAITW ends at once when its condition holds, or with 2 when the heat it names has
ended, and otherwise sleeps; a weak runner's is refused by ILLWAIT. WAITBM, BMTEST and BMCLR on a bitmap word of the
scratchpad. YIELD goes on; with FABRIC pending it takes that trap.
The model's own choices it rests on: log 38. -/
def Obligations.Waits : Prop :=
  ∀ (s : State) (sd sa sb : SR) (c : WCond) (d : Fin 4) (key off : Nat), s.r.vq = [] → s.pending = [] →
    (∀ f, s.r.fabric = some f → ∃ t, exec .yield s = .next t ∧ t = s.enterTrap .fabric (BitVec.ofNat 64 f) true ∧
      t.r.fabric = none) ∧
    (s.r.fabric = none → s.r.wait = none →
      (∃ t, exec .yield s = .next t ∧ t.pc = s.pc + 8 ∧ (∀ n, t.reg n = s.reg n) ∧ t.r.yielded = true ∧ SameMemory s t ∧
        RegisterFrame s t ∧ t.r.strip = s.r.strip) ∧
      (let named := (s.reg sd).toNat % 2 ^ 32
       let i : Instr := .waitw sd sa sb c d
       let x : Word := BitVec.ofNat 64 (leBytesToNat (bytesAt s.mem key 8))
       let y := s.reg sb
       let holds : Prop := match c with
         | .eq => x = y | .ne => x ≠ y | .ge => y.toInt ≤ x.toInt | .lt => x.toInt < y.toInt
         | .geu => y.toNat ≤ x.toNat | .ltu => x.toNat < y.toNat
       let gone : Prop := d = 3 ∧ ∀ h, s.heat? s.rid.part named = some h → h.live = false
       ((∃ p, s.compat d.val named = .ok (p, s)) → Serves s (fun _ => False) (s.reg sa) 8 .load key →
         (holds → s.r.strip.buf = [] → Settles i s sd 0 fun _ => True) ∧ (¬holds → gone → Settles i s sd 2 fun _ => True) ∧
         (¬holds → ¬gone → Sleeps i s fun _ => True)) ∧
       (s.r.ident.cls = .weak → d ≠ 3 →
         Traps i s .illwait (BitVec.ofNat 64 (2 ^ 63 + d.val * 2 ^ 16 + (if d = 0 then 3 else if d = 1 then 0 else 2) * 2 ^ 8 + 2)))) ∧
      ((s.reg sa).toNat = 0x01FF000000000000 + off → off % 8 = 0 → off + 8 ≤ s.scratchSize → off < 2 ^ 32 →
        key = (Loc.scratch s.myTeamUid off).key → poisonMeets s.poison key 8 = none →
        (∀ h ∈ s.r.hist, h.meets key 8 = false) →
        let m := s.reg sb
        let x : Word := BitVec.ofNat 64 (leBytesToNat (bytesAt s.mem key 8))
        let own : Word := BitVec.ofNat 64 (leBytesToNat (s.ownBytes key 8))
        (x &&& m = m → Settles (.waitbm sd sa sb) s sd 0 fun _ => True) ∧
        (x &&& m ≠ m → Sleeps (.waitbm sd sa sb) s fun _ => True) ∧
        (∃ t, exec (.bmtest sd sa sb) s = .next t ∧ Writes s t sd (if own &&& m = m then 1 else 0) ∧ t.pc = s.pc + 8 ∧
          SameMemory s t ∧ RegisterFrame s t ∧ t.r.strip = s.r.strip) ∧
        (Memory.wf s.mem → ∃ t, exec (.bmclr sa sb) s = .next t ∧ (∀ n, t.reg n = s.reg n) ∧ t.pc = s.pc + 8 ∧
          (∀ j, j < 8 → t.byteAt (key + j) = s.byteAt (key + j) &&& ~~~(m.extractLsb' (8 * j) 8)) ∧
          SameMemoryBut s t key 8 ∧ RegisterFrame s t ∧ t.r.strip = s.r.strip)))

/-- R18, R192–R195, R283: an arrival counts, and ends the phase when all are there; WAITB ends with 0 once the phase is
not the one the runner last saw, whose bit it takes over; SYNCB is both, but arrives no second time when its record stands
after an ERET. A runner that waits when nobody is left to arrive traps ILLWAIT.
The model's own choices it rests on: log 25, 42. -/
def Obligations.Barriers : Prop :=
  ∀ (s : State) (sd : SR) (b : BR) (tm : Team),
    s.r.vq = [] → s.r.fabric = none → s.r.wait = none → s.r.stat = .ready → s.r.strip.prot = false →
    s.myTeam? = some tm →
    let x := tm.bars[b]
    let last := x.expected ≤ x.arrived + 1
    let next : Barrier := if last then { x with arrived := 0, phase := !x.phase } else { x with arrived := x.arrived + 1 }
    let arrives (t : State) : Prop := ∃ u, t.team? tm.id = some u ∧ ∀ k : BR, u.bars[k] = if k = b then next else tm.bars[k]
    let seen (ph : Bool) (t : State) : Prop := ∀ k, k < 16 → t.r.barw.getLsbD k = if k = b.val then ph else s.r.barw.getLsbD k
    let mine := s.r.barw.getLsbD b.val
    let calm : Prop := s.Kept ∧ ∀ y ∈ s.allRunners, y.share = []
    let another : Prop := ∃ y ∈ s.rs, teamOf y.1 = tm.id ∧ y.2.stat = .ready
    let again : Prop := s.r.eretPending = true ∧ s.r.sya = some (s.pc, b)
    (∃ t, exec (.arrive b) s = .next t ∧ arrives t ∧ (¬last ∨ calm → (∀ n, t.reg n = s.reg n) ∧ t.pc = s.pc + 8 ∧
      SameMemory s t ∧ t.r.vect = s.r.vect ∧ t.r.strip = s.r.strip ∧ t.r.queues = s.r.queues ∧ t.r.barw = s.r.barw)) ∧
    (x.phase ≠ mine → Settles (.waitb sd b) s sd 0 fun t => seen x.phase t ∧ t.teams = s.teams) ∧
    (x.phase = mine → another → Sleeps (.waitb sd b) s fun t => t.teams = s.teams ∧ t.r.barw = s.r.barw) ∧
    (x.phase = mine → s.rs = [] → (∀ c ∈ s.copies, teamOf c.runner = tm.id → c.arv = none) →
      Traps (.waitb sd b) s .illwait (BitVec.ofNat 64 (2 ^ 63 + 0xFF * 2 ^ 16 + 3 * 2 ^ 8 + clsBits s.r.ident.cls))) ∧
    (¬again → x.phase = mine → last → calm → Settles (.syncb sd b) s sd 0 fun t => seen (!x.phase) t ∧ arrives t) ∧
    (¬again → x.phase = mine → ¬last → another → Sleeps (.syncb sd b) s fun t => arrives t ∧ t.r.barw = s.r.barw) ∧
    (again → x.phase ≠ mine → Settles (.syncb sd b) s sd 0 fun t => seen x.phase t ∧ t.teams = s.teams)

/-! ### Leases, launches, ends -/

/-- R198–R201, R308, R313, R317: LEASE takes the lowest engine in hold at once, asks for a sleeping one and completes when
it is awake (the grant of a wake is told it, and gives the handle), or answers −3, −4, −2 or −1; RELEASE sends an engine
that no queued request takes into its hold; LSTAT reads a handle's state; EQUERY the
budget or the energy.
The model's own choices it rests on: log 47. -/
def Obligations.Leases : Prop :=
  ∀ (s : State) (sd sa : SR) (k : Kind) (pri : Fin 8),
    s.r.vq = [] → s.r.fabric = none → s.r.wait = none → s.r.strip.prot = false →
    let count := engineCount s.r.ident.core.cluster k
    let code : Kind → Nat := fun | .sfe => 0 | .sxe => 1 | .cle => 2
    let power : Nat := match k with | .sfe => 2500 | .sxe => 2000 | .cle => 1200
    let engines := (List.range count).map fun i => ({ die := s.r.ident.core.die, cluster := s.r.ident.core.cluster
                                                      kind := .lease k, idx := i } : EngineId)
    let free : Option (Fin 8) := (List.finRange 8).find? fun i => s.r.leases[i].isNone
    let both (p : Instr → Prop) : Prop := p (.lease sd k pri) ∧ p (.leaseW sd k pri)
    let answers (w : Word) (i : Instr) : Prop := Settles i s sd w fun t => t.r.leases = s.r.leases
    let grants (kd : Kind) (pr : Fin 8) (e : EngineId) (slot : Fin 8) (i : Instr) : Prop :=
      let h : Word := BitVec.ofNat 64 (code kd * 2 ^ 32 + (s.r.leaseSeq % 65535 + 1) * 2 ^ 16 + slot.val)
      Settles i s sd h fun t => (t.engine e).st = .held ∧ (t.engine e).holder = some (.lease s.rid slot) ∧
        t.r.leases[slot] = some { handle := h, kind := kd, pri := pr, st := .held, engine := some e, granted := s.time, charged := s.time } ∧
        ∀ n : Fin 8, n ≠ slot → t.r.leases[n] = s.r.leases[n]
    (s.r.stat = .ready → s.r.replies = [] → s.r.wakingSlot = none →
      (count = 0 → both (answers (-3))) ∧ (count ≠ 0 → free = none → both (answers (-4))) ∧
      (∀ slot, count ≠ 0 → free = some slot →
        (s.ebud s.rid.part < power → answers (-2) (.lease sd k pri)) ∧
        (power ≤ s.ebud s.rid.part →
          ((∀ e ∈ engines, (s.engine e).st ≠ .hold ∧ ((s.engine e).st = .sleeping → s.awaited e = true)) →
            answers (-1) (.lease sd k pri)) ∧
          (∀ a e z, engines = a ++ e :: z → (s.engine e).st = .hold → (∀ y ∈ a, (s.engine y).st ≠ .hold) →
            both (grants k pri e slot)) ∧
          (∀ a e z, engines = a ++ e :: z → (∀ y ∈ engines, (s.engine y).st ≠ .hold) → (s.engine e).st = .sleeping →
            s.awaited e = false → (∀ y ∈ a, (s.engine y).st = .sleeping → s.awaited y = true) → (s.die e.die).queue.length < 32 →
            both fun i => ∃ t, exec i s = .next t ∧ t.r.scal = s.r.scal ∧ t.r.stat = .stalled ∧ t.r.asks = [.wake] ∧
              SameMemory s t ∧ (∃ l, t.r.leases[slot] = some l ∧ l.st = .waking ∧ l.engine = some e ∧ l.kind = k) ∧
              ∃ x ∈ (t.die e.die).queue, x.holder = .lease s.rid slot ∧ x.engines = [e])))) ∧
    (∀ (slot : Fin 8) l, s.r.stat = .ready → s.r.replies = [(.wake, .data [BitVec.ofNat 8 slot.val])] →
      s.r.leases[slot] = some l → both (answers l.handle)) ∧
    (s.r.leaseOf (s.reg sa) = none → Traps (.release sa) s .leaseAbsent (s.reg sa) ∧ Gives (.lstat sd sa) s sd 0xF0) ∧
    (∀ slot l, s.r.leaseOf (s.reg sa) = some (slot, l) →
      ((∀ e, l.engine = some e → (s.die e.die).wants e = none) → ∃ t, exec (.release sa) s = .next t ∧ (∀ n, t.reg n = s.reg n) ∧ t.pc = s.pc + 8 ∧ SameMemory s t ∧ t.r.vect = s.r.vect ∧
        t.r.leases[slot] = none ∧ (∀ n : Fin 8, n ≠ slot → (t.r.leases[n]).map (fun y => (y.handle, y.kind, y.st, y.engine)) =
          (s.r.leases[n]).map fun y => (y.handle, y.kind, y.st, y.engine)) ∧
        ∀ e kd, l.st = .held → l.engine = some e → e.kind = .lease kd → s.pacer.droop.level < 2 → (s.die e.die).tripped = false →
          (t.engine e).st = .hold ∧ (t.engine e).ends = s.time + (match kd with | .cle => 8000 | _ => 6000)) ∧
      ∃ w, Gives (.lstat sd sa) s sd w ∧ bitsOf w 4 4 = code l.kind ∧ bitsOf w 8 8 = l.pri.val ∧
        bitsOf w 0 4 = (match l.st with | .waking => 0 | .held => 1 | .lostOrderly => 2 | .lostEmergency => 3 | .lostResume => 4) ∧
        bitsOf w 16 16 = (match l.st, l.engine with
          | .held, some e => instanceOf l.kind e.cluster e.idx % 2 ^ 16
          | _, _ => 0)) ∧
    Gives (.equery sd false) s sd (BitVec.ofNat 64 (s.ebud s.rid.part)) ∧ Gives (.equery sd true) s sd s.ecnt

/-- R209–R211, R102: LAUNCH admits a heat with the next identifier and the seed, priority, extents and arguments its
descriptor gives, or answers −1 or −2, or traps ACCESS at a reserved field; LJOIN gives a kept status once, 4 for an
identifier nothing is known of, and else waits; LCANCEL answers 5 for its own heat, 4 for none, and cancels; EXIT ends the
runner, its strip and its leases, and lowers the barriers of its team.
The model's own choices it rests on: log 20, 21, 22, 23, 25, 92. -/
def Obligations.Launches : Prop :=
  ∀ (s : State) (sd sa : SR) (words : List Word) (key : Word → Nat) (p : Part),
    s.r.vq = [] → s.r.fabric = none → s.r.wait = none → s.r.strip.prot = false → s.r.replies = [] → s.r.stat = .ready →
    s.part? s.rid.part = some p →
    let d := s.reg sa
    let f (n : Nat) : Word := (words[n]?).getD 0
    let i : Instr := .launch sd sa
    let id := (s.reg sa).toNat
    (words.length = 8 → s.pending = [] → s.r.share = [] →
      (∀ n, n < 8 → Serves s (fun _ => False) (d + BitVec.ofNat 64 (8 * n)) 8 .load (key (d + BitVec.ofNat 64 (8 * n))) ∧
        f n = BitVec.ofNat 64 (leBytesToNat (s.ownBytes (key (d + BitVec.ofNat 64 (8 * n))) 8))) →
      let ok : Prop := f 0 >>> 16 = 0 ∧ f 3 >>> 4 = 0 ∧ f 6 = 0 ∧ f 7 = 0
      (f 0 >>> 16 ≠ 0 → Traps i s .access d) ∧ (f 0 >>> 16 = 0 → f 3 >>> 4 ≠ 0 → Traps i s .access (d + 0x18)) ∧
      (f 0 >>> 16 = 0 → f 3 >>> 4 = 0 → f 6 ≠ 0 ∨ f 7 ≠ 0 → Traps i s .access (d + 0x30)) ∧
      (ok → ((p.loaded.map (·.heats)).getD [])[(f 0).toNat]? = none → Settles i s sd (-2) fun t => t.heats = s.heats) ∧
      (ok → ∀ h, ((p.loaded.map (·.heats)).getD [])[(f 0).toNat]? = some h →
        let x := s.newHeat p (f 0).toNat h (f 1) (f 2) s.r.ident.seed (if (f 3).getLsbD 3 then some (bitsOf (f 3) 0 3) else none)
          [bitsOf (f 4) 0 32, bitsOf (f 4) 32 32, bitsOf (f 5) 0 32, bitsOf (f 5) 32 32] (some s.rid.heat) none
        x.id = p.nextHeat ∧ x.args = f 1 ∧ x.pri = Fin.ofNat 8 (if (f 3).getLsbD 3 then bitsOf (f 3) 0 3 else h.prio) ∧ x.seed = (if f 2 = 0 then s.r.ident.seed + 0x9E3779B97F4A7C15 * BitVec.ofNat 64 p.nextHeat else f 2) ∧
        (s.reserve p x = none → Settles i s sd (-1) fun t => t.heats = s.heats) ∧
        (s.reserve p x ≠ none → p.record.modes.getLsbD 2 = false → Settles i s sd (BitVec.ofNat 64 p.nextHeat) fun t =>
          t.heats = s.heats ++ [{ x with order := s.nextUid, admitted := s.time }] ∧ (∃ q, t.part? s.rid.part = some q ∧ q.nextHeat = p.nextHeat % (2 ^ 32 - 1) + 1) ∧
          ∃ ts, t.teams = s.teams ++ ts ∧ ts.length = x.teamCount ∧ ∀ u ∈ ts, u.stat = .queued ∧ u.id.heat = p.nextHeat))) ∧
    ((∃ c, s.compat 0x20 id = .ok (c, s)) →
      (∀ st, s.endedStatus id = some st → Settles (.ljoin sd sa) s sd (BitVec.ofNat 64 st) fun t => t.endedStatus id = none) ∧
      (s.endedStatus id = none → (∀ h, s.heat? s.rid.part id = some h → h.live = false) →
        Settles (.ljoin sd sa) s sd 4 fun t => t.heats = s.heats) ∧
      (s.endedStatus id = none → (∃ h, s.heat? s.rid.part id = some h ∧ h.live = true) →
        Sleeps (.ljoin sd sa) s fun t => t.heats = s.heats)) ∧
    (id = s.rid.heat → Settles (.lcancel sd sa) s sd 5 fun t => t.heats = s.heats) ∧
    (id ≠ s.rid.heat → (∀ h, s.heat? s.rid.part id = some h → h.live = false) →
      Settles (.lcancel sd sa) s sd 4 fun t => t.heats = s.heats) ∧
    (∀ h, id ≠ s.rid.heat → s.heat? s.rid.part id = some h → h.live = true → h.cancelled = false → s.Kept →
      s.condemned (teamOf s.rid) = false →
      ∃ t, exec (.lcancel sd sa) s = .next t ∧ Writes s t sd 0 ∧ t.pc = s.pc + 8 ∧
        (s.graphsDone → ∀ g, t.heat? s.rid.part id = some g → g.cancelled = true ∧ g.status = 1)) ∧
    (s.Kept → s.r.streams = [] → s.condemned (teamOf s.rid) = false → ∃ t, exec .exit s = .next t ∧ t.r.stat = .exited ∧
      t.r.ident = s.r.ident ∧ (∀ n : Fin 8, t.r.leases[n] = none) ∧ t.r.strip.active = false ∧ (∀ q : QR, t.r.queues[q] = []) ∧
      ((∀ x ∈ s.allRunners, x.share = [] ∧ x.strip.buf = [] ∧ x.strip.lines = []) → (∀ c ∈ s.cores, c.att = none) → SameMemory s t) ∧
      (s.graphsDone → (s.teams.map (·.id)).Nodup → ∀ tm u, s.myTeam? = some tm → t.team? tm.id = some u → ∀ b : BR, u.bars[b] =
        let x := tm.bars[b]
        if x.arrived = x.expected - 1 then { expected := x.expected - 1, arrived := 0, phase := !x.phase }
        else { x with expected := x.expected - 1 }))

/-! ### Events of waits, copies, streams, answers, the scheduler -/

/-- R70, R91, R159, R163, R180, R187, R301, R304: what a runner waits for comes about. A barrier wait looked at again ends,
ends at its deadline with 1 or WAITTIME, or goes on; a chunk of a copy moves its elements and sets its bit; a stream's
element group lands as memory has it; a page mapped or declined, an answer from the host or a peer, lets the runner go on;
a tile operation finishes; a word that is no instruction traps ILLEGAL.
The model's own choices it rests on: log 36, 65. -/
def Obligations.WaitEvents : Prop :=
  ∀ (s : State) (r : RunnerId) (x : Runner), s.Kept → s.runner? r = some x →
    let gives (i : Instr) (p : State → Runner → Prop) : Prop := ∃ t y, exec i s = .next t ∧ t.runner? r = some y ∧
      (∀ q, q ≠ r → t.runner? q = s.runner? q) ∧ p t y
    (∀ w tm, x.stat = .waiting → x.wait = some w → w.kind = .barrier → x.fabric = none → x.vq = [] →
      s.team? (teamOf r) = some tm →
      let go := tm.bars[w.bar].phase ≠ x.barw.getLsbD w.bar.val
      let ended (st : Word) (t : State) (y : Runner) : Prop := y.stat = .ready ∧ y.wait = none ∧ SameMemory s t ∧
        y.scal.pc = x.scal.pc + 8 ∧ ∀ n : SR, n ≠ 0 → y.scal.s[n] = if n = w.sd then st else x.scal.s[n]
      let late := w.dead ≠ 0 ∧ w.entry + w.dead ≤ s.time
      (go → gives (.waitConditionMet r) (ended 0)) ∧
      (¬go → ¬late → gives (.waitConditionMet r) fun t y => y.stat = .waiting ∧ y.wait = some w ∧ y.scal = x.scal ∧ SameMemory s t) ∧
      (late → go → gives (.waitDeadline r) (ended 0)) ∧
      (late → ¬go → x.scal.wdead.getLsbD 63 = false → gives (.waitDeadline r) (ended 1)) ∧
      (late → ¬go → x.scal.wdead.getLsbD 63 = true → x.strip.buf = [] → x.strip.lines = [] → gives (.waitDeadline r) fun _ y => y.stat = .ready ∧ y.wait = none ∧
        y.scal.sysr.tcause = 0x0D ∧ y.scal.sysr.tval = BitVec.ofNat 64 w.bar.val ∧ y.scal.sysr.tepc = x.scal.pc ∧
        y.scal.pc = x.scal.sysr.tvec)) ∧
    (∀ id n c, s.copies.find? (fun c => c.id == id) = some c → c.waits = false → n < c.chunks → n ∉ c.landed →
      s.pending = [] → Memory.wf s.mem → c.arv = none → (∀ y ∈ s.allRunners, y.strip.buf = [] ∧ y.strip.lines = []) →
      let es := c.chunk n
      (∀ y ∈ s.allRunners, ∀ h ∈ y.hist, h.copies.contains id = true → ∀ e ∈ es, h.meets e.1 c.esize = false) →
      (∀ e ∈ es, ∀ i, i < c.esize → isOutKey (e.1 + i) = false ∧ isOutKey (e.2 + i) = false ∧
        ∀ e' ∈ c.elems, ¬(e'.1 ≤ e.2 + i ∧ e.2 + i < e'.1 + c.esize)) →
      es.Pairwise (fun e e' => e.2 + c.esize ≤ e'.2 ∨ e'.2 + c.esize ≤ e.2) →
      (∀ k, c.bmap = some k → ∀ i, i < 8 → isOutKey (k + 8 * (n / 64) + i) = false ∧
        ∀ e ∈ es, ∀ j, j < c.esize → e.1 + j ≠ k + 8 * (n / 64) + i ∧ e.2 + j ≠ k + 8 * (n / 64) + i) →
      ∃ t, exec (.copyChunkLanded id n) s = .next t ∧
        (∀ e ∈ es, ∀ i, i < c.esize → t.byteAt (e.2 + i) = s.byteAt (e.1 + i)) ∧
        (∀ k, c.bmap = some k → leBytesToNat (bytesAt t.mem (k + 8 * (n / 64)) 8) =
          leBytesToNat (bytesAt s.mem (k + 8 * (n / 64)) 8) ||| 2 ^ (n % 64)) ∧
        (∀ a, (∀ e ∈ es, a < e.2 ∨ e.2 + c.esize ≤ a) →
          (∀ k, c.bmap = some k → a < k + 8 * (n / 64) ∨ k + 8 * (n / 64) + 8 ≤ a) → t.byteAt a = s.byteAt a) ∧
        (if c.chunks ≤ c.landed.length + 1 then ∀ d ∈ t.copies, d.id ≠ id
         else ∃ d ∈ t.copies, d = { c with landed := n :: c.landed })) ∧
    (∀ id group z o, x.streams.find? (fun z => z.id == id) = some z → streamOpOf z.a z.b z.i = some o → x.live = true →
      s.pending = [] → (∀ v ∈ x.vq, ∀ k sc, v ≠ .fence k sc) → (∀ va, (s.focus r).pinFaultBy z.pin va = false) →
      let due := z.due ((s.focus r).groupOf o.names) group
      due ≠ [] → (∀ d ∈ due, ∀ f ∈ d.2, f.2 = none →
        poisonMeets s.poison f.1 z.es = none ∧ (∀ y ∈ s.allRunners, ∀ h ∈ y.hist, h.meets f.1 z.es = false) ∧
        ∀ l ∈ (s.core x.ident.core).l1, ∀ b ∈ l.old, ¬(f.1 ≤ b.1 ∧ b.1 < f.1 + z.es)) →
      gives (.streamGroupLanded r id group) fun t y => SameMemory s t ∧ y.scal = x.scal ∧ y.vect = x.vect ∧
        y.streams = x.streams.map fun u => if u.id = id then { u with landed := u.landed ++ due.map fun d =>
          (d.1, d.2.map fun f => f.2.getD (leBytesToNat (bytesAt s.mem f.1 z.es))) } else u) ∧
    (∀ a as, x.stat = .stalled → x.asks = a :: as →
      let goesOn (b : Reply) (t : State) (y : Runner) : Prop := y.stat = .ready ∧ y.asks = [] ∧ y.replies = x.replies ++ [(a, b)] ∧
        y.scal = x.scal ∧ y.vect = x.vect ∧ SameMemory s t
      (∀ va, a = .service va → gives (.faultServiceComplete r none) (goesOn .page) ∧
        (∀ l : List (Nat × Word), (∀ e ∈ l, e.1 % 8 = 0 ∧ e.1 + 8 ≤ 2 ^ 41) → (l.map (·.1)).Nodup → Memory.wf s.mem →
          (∀ y ∈ s.allRunners, ∀ h ∈ y.hist, ∀ e ∈ l, h.meets e.1 8 = false) →
          gives (.faultServiceComplete r (some l)) fun t y => y.stat = .ready ∧ y.asks = [] ∧ y.replies = x.replies ∧
            y.scal = x.scal ∧ y.vect = x.vect ∧
            (∀ e ∈ l, ∀ i, i < 8 → t.byteAt (e.1 + i) = e.2.extractLsb' (8 * i) 8) ∧
            ∀ k, (∀ e ∈ l, k < e.1 ∨ e.1 + 8 ≤ k) → t.byteAt k = s.byteAt k)) ∧
      (∀ acc b, a = .host acc → b ≠ .page → gives (.hostCompletion r b) (goesOn b)) ∧
      (∀ m acc b, a = .peer m acc → gives (.fabricResponse r m b) (goesOn b))) ∧
    (∀ m bytes p c, x.stat ≠ .stalled → s.part? r.part = some p → c ∈ p.colls → c.span = 3 → c.heat = r.heat →
      (∃ j ∈ c.joined, j.runner = r) → (∀ z ∈ c.remote, z.1 ≠ m) →
      ∃ t q, exec (.fabricResponse r m (.data bytes)) s = .next t ∧ t.part? r.part = some q ∧ SameMemory s t ∧
        { c with remote := c.remote ++ [(m, bytes)] } ∈ q.colls) ∧
    (∀ c a l o z, (s.core c).att = some a → a.ops = l ++ o :: z → (∀ u ∈ l, u.done = true) → o.done = false →
      ∃ t, exec (.tileOperationComplete c) s = .next t ∧ SameMemory s t ∧ t.r = s.r ∧ t.rs = s.rs ∧
        (t.core c).att = some { a with ops := l ++ { o with done := true } :: z }) ∧
    ∀ w, s.r.vq = [] → exec (.unassignedPattern w) s = .next (s.enterTrap .illegal w false)

/-- R197, R253, R257, R260, R262, R330–R332, R336: the scheduler. A team that goes next is placed, its runners start where
its heat says (R13) or, saved before, sit on their new cores; a team asked to stop stops its ready runners at once; one that
has stopped is saved, at the head of its queue; a head that has waited 50 ms ages its queue by one level.
The model's own choices it rests on: log 12, 18, 54, 56, 68. -/
def Obligations.SchedulerEvents : Prop :=
  ∀ (s : State) (part : Nat) (p : Part), s.Kept → (s.teams.map (·.id)).Nodup → s.part? part = some p →
    let sits (t : State) (tm : Team) (pl : Place) : Prop := ∃ u, t.team? tm.id = some u ∧ u.stat = .resident ∧
      u.place = some pl ∧ u.dispatched = true
    (∀ g o tm h pl sp, p.loaded = some g → s.scheduling = true → o.part = part → s.team? o = some tm → s.heat? part o.heat = some h →
      s.placeOk p h tm pl = true →
      let next : Prop := ∃ f, s.winner p = some f ∧ f.team = o
      let entry := ((s.imageFor part g h.desc (isM pl.cluster)).1.map fun x => g.imageAt x.2.1).getD h.desc.entry
      let starts (t : State) : Prop := sits t tm pl ∧ ∀ i, i < teamSize h.desc →
        let id : RunnerId := { part := part, heat := h.id, team := tm.id.team, runner := i }
        s.runner? id = none → ∃ y, t.runner? id = some y ∧ y.stat = .ready ∧ y.scal.pc = entry ∧
          y.scal.sysr.sys = false ∧ y.scal.sysr.tvec = h.desc.handler.getD g.defaultHandler ∧ y.scal.sysr.ptbase = g.ptRoot ∧
          (∀ n : SR, y.scal.s[n] = if n = 1 then g.exitStub else if n = 2 then 0x01FF000300000000 else if n = 3 then h.args else 0) ∧
          y.vect.vl = 0 ∧ y.vect.vstart = 0 ∧ y.vect.vlen = sp.vlen ∧ y.ident.core.die = pl.die ∧ y.ident.core.cluster = pl.cluster
      (tm.stat = .queued → classSplit h tm (isM pl.cluster) = some sp → next →
        ∃ t, exec (.dispatch part pl) s = .next t ∧ starts t) ∧
      (tm.stat = .saved → next → ∃ t, exec (.teamResume o pl) s = .next t ∧ sits t tm pl) ∧
      (∀ r n, teamOf r = o → h.desc.cls = .concurrent → r.runner < teamSize h.desc → s.starvedSince r h = some n → n + 200000 ≤ s.time →
        tm.stat = .queued →
        classSplit h tm (isM pl.cluster) = some sp → ∃ t, exec (.starvationTimer r pl) s = .next t ∧ starts t)) ∧
    (∀ r g tm h pl n, p.loaded = some g → s.scheduling = true → s.team? (teamOf r) = some tm → s.heat? part r.heat = some h →
      r.part = part → h.desc.cls = .concurrent → tm.unplaced = true → r.runner < teamSize h.desc → s.starvedSince r h = some n → n + 200000 ≤ s.time →
      s.placeOk p h tm pl = false →
      ∃ t, exec (.starvationTimer r pl) s = .next t ∧ ∀ v ∈ s.victimsOn p h tm pl, ∀ u, s.team? v = some u → u.stat = .resident →
        ∃ w, t.team? v = some w ∧ w.stat = .stopping) ∧
    (∀ o tm, (∀ c ∈ s.cores, ∀ a, c.att = some a → ∀ op ∈ a.ops, ∀ y, s.runner? op.runner = some y → y.ident.core = c.id) →
      o.part = part → s.team? o = some tm → tm.stat = .resident → ((s.offers p).any fun f => s.victimOf p tm f) = true →
      ∃ t, exec (.preemptRequest o) s = .next t ∧ (∃ u, t.team? o = some u ∧ u.stat = .stopping) ∧
        ∀ r x, s.runner? r = some x → teamOf r = o → x.stat = .ready → x.replies = [] → x.vq = [] →
          ∃ y, t.runner? r = some y ∧ y.stat = .stopped ∧
            (x.strip.prot = false → y.scal = x.scal) ∧
            (x.strip.prot = true → y.scal.pc = x.strip.ckPc ∧ y.strip.last = 3 ∧ y.strip.buf = [])) ∧
    (∀ o tm h, o.part = part → s.heat? part o.heat = some h → s.team? o = some tm → tm.stat = .stopping → h.cancelled = false →
      (∀ x ∈ s.teamRunners o, x.stat = .stopped ∨ x.stat = .exited ∨ x.stat = .saved) →
      (∀ c ∈ s.copies, c.holdsSave o = false) →
      ∃ t, exec (.teamSave o) s = .next t ∧ (∃ u, t.team? o = some u ∧ u.stat = .saved ∧ u.place = none) ∧
        (∃ bytes, .record o bytes ∈ t.outbox) ∧
        (tm.queue < 64 → ∃ q w l, t.part? part = some q ∧ q.queues[tm.queue]? = some w ∧ w.teams = o :: l) ∧
        ∀ r x, s.runner? r = some x → teamOf r = o → ∃ y, t.runner? r = some y ∧ y.scal = x.scal ∧
          y.stat = if x.stat = .exited then .exited else .saved) ∧
    ∀ k q o l, p.queues[k]? = some q → q.teams = o :: l → q.since + 5000000 ≤ s.time →
      ∃ t u, exec (.queueAging part k) s = .next t ∧ t.part? part = some u ∧
        (∀ j, j ≠ k → u.queues[j]? = p.queues[j]?) ∧
        u.queues[k]? = some { q with aged := if k / 8 + q.aged < 7 then q.aged + 1 else q.aged, since := q.since + 5000000 }

/-! ### Events of engines, energy, cooling, droop, temperature, lanes -/

/-- R310–R325: the power events. A power-up starts at a slot, an engine wakes, holds for its break-even time, sleeps; energy
is counted; the worst row of the limit table counts at once, a better one after 1 s; droop levels are entered below 48 V, 44 V
and 40 V for 20 ms, and left after 20 µs; the clock stretches and recovers by steps of 50 µs; a die trips at 110 °C and
throttles above 100 °C; a lane is raised by five steps and then retires.
The model's own choices it rests on: log 47, 57, 58, 63, 69. -/
def Obligations.PowerEvents : Prop :=
  ∀ (s : State),
    let gives (i : Instr) (p : State → Prop) : Prop := ∃ t, exec i s = .next t ∧ p t
    let c := s.pacer.cooling
    let d := s.pacer.droop
    let wakes : EngineKind → Nat := fun | .lease .cle => 240 | .lease _ => 160 | .octant => 120
    let holds : EngineKind → Nat := fun | .lease .cle => 8000 | .lease _ => 6000 | .octant => 20000
    (∀ die x e es q, s.time % 40 = 0 → (s.die die).lastSlot ≠ some (s.time / 40) → d.level < 2 → (s.die die).tripped = false →
      (s.die die).queue = x :: q → (∀ y ∈ x :: q, y.begun = false) → x.joined < s.time → x.engines = e :: es →
      (∀ y ∈ q, y.holder ≠ x.holder) → gives (.powerUpStart die) fun t =>
        (t.engine e).st = .waking ∧ (t.engine e).ends = s.time + wakes e.kind ∧ (t.engine e).holder = some x.holder ∧
        (t.die die).lastSlot = some (s.time / 40) ∧
        (t.die die).queue = if es = [] then q else { x with engines := es, begun := true } :: q) ∧
    (∀ e, (s.engine e).st = .waking → (s.engine e).ends ≤ s.time →
      ((s.engine e).holder = none → d.level < 2 → (s.die e.die).tripped = false →
        ((s.die e.die).wants e = none → (s.die e.die).wantsOctant e = none → gives (.wakeComplete e) fun t =>
          (t.engine e).st = .hold ∧ (t.engine e).ends = s.time + holds e.kind) ∧
        ∀ x r slot, (s.die e.die).wants e = some (x, r, slot) → gives (.wakeComplete e) fun t =>
          (t.engine e).st = .held ∧ (t.engine e).holder = some (.lease r slot) ∧
          (t.die e.die).queue = (s.die e.die).queue.filter fun y => y.holder ≠ x.holder) ∧
      (∀ p h g, (s.engine e).payer = some (p, h) → s.heat? p h = some g → d.level < 2 → s.Kept → (s.engine e).holder = none →
        gives (.wakeComplete e) fun t => ∃ u, t.heat? p h = some u ∧ u.ecnt = g.ecnt + enginePower e * holds e.kind) ∧
      (∀ r slot, (s.engine e).holder = some (.lease r slot) → s.Kept → d.level < 2 → gives (.wakeComplete e) fun t =>
        (t.engine e).st = .held ∧ (t.engine e).holder = some (.lease r slot) ∧
        (∀ h, (s.engine e).payer = some (r.part, r.heat) → s.heat? r.part r.heat = some h → ∃ g, t.heat? r.part r.heat = some g ∧
          g.ecnt = h.ecnt + enginePower e * holds e.kind) ∧
        ∀ x l, s.runner? r = some x → x.stat = .stalled → x.asks = [.wake] → x.leases[slot] = some l →
          ∃ y m, t.runner? r = some y ∧ y.stat = .ready ∧ y.scal = x.scal ∧ y.leases[slot] = some m ∧ m.st = .held ∧
            m.engine = some e ∧ m.kind = l.kind) ∧
      (∀ k p, (s.engine e).holder = some (.attach k) → (s.core k).pend = some p → d.level < 2 →
        let left := p.toWake.filter fun n => n != e.idx
        (left ≠ [] → gives (.wakeComplete e) fun t => (t.engine e).st = .held ∧ (t.core k).pend = some { p with toWake := left }) ∧
        ∀ x, left = [] → s.Kept → s.runner? p.runner = some x → x.stat = .stalled → x.asks = [.wake] → x.ident.core = k →
          gives (.wakeComplete e) fun t => (t.engine e).st = .held ∧ (t.core k).pend = none ∧
            (∃ a, (t.core k).att = some a ∧ a.gm = p.gm ∧ a.gn = p.gn ∧ a.gk = p.gk ∧ a.owner = p.runner) ∧
            ∃ y, t.runner? p.runner = some y ∧ y.stat = .ready ∧ y.scal = x.scal)) ∧
    (∀ e, (s.engine e).st = .hold → (s.engine e).ends ≤ s.time → gives (.holdExpiry e) fun t => (t.engine e).st = .sleeping) ∧
    (∀ e, (s.engine e).st = .evicting → s.mayEnd (s.engine e) = true → (s.engine e).handTo = none → gives (.evictionEnd e) fun t =>
      (t.engine e).st = .sleeping) ∧
    (∀ part heat core h, s.heat? part heat = some h → gives (.ecntUpdate part heat core) fun t =>
      ∃ g, t.heat? part heat = some g ∧ h.ecnt + core * 100000 ≤ g.ecnt ∧
        ((∀ x ∈ s.allRunners, ∀ n : Fin 8, x.leases[n] = none) → (∀ k ∈ s.cores, k.att = none) →
          g.ecnt = h.ecnt + core * 100000)) ∧
    (∀ m, s.pacer.stage = .a → gives (.coolingModeDeclare m) fun t => t.pacer.cooling = { c with mode := some m }) ∧
    (∀ inlet flow, gives (.coolingSample (some inlet) (some flow)) fun t =>
      t.pacer.cooling.inlet = some inlet ∧ t.pacer.cooling.flow = some flow ∧ t.pacer.cooling.row = max c.row (match c.mode with
        | some .coldPlate => if inlet ≤ 40 ∧ 25 ≤ flow then 0 else if inlet ≤ 45 ∧ 18 ≤ flow then 1
          else if inlet ≤ 50 ∧ 12 ≤ flow then 2 else 5
        | some .immersion => if inlet ≤ 45 ∧ 200 ≤ flow then 3 else 5
        | some .air => if inlet ≤ 35 then 4 else 5
        | none => 5)) ∧
    (gives (.coolingSample none none) fun t => t.pacer.cooling.row = max c.row 5) ∧
    (∀ row since l, c.higher = (row, since) :: l → since + 100000000 ≤ s.time → gives .coolingRowRaise fun t =>
      t.pacer.cooling.row = row) ∧
    (∀ mv, gives (.droopSample mv) fun t => t.pacer.droop.millivolts = mv ∧
      t.pacer.droop.level = max d.level (if mv < 44000 then 2 else if mv < 48000 then 1 else 0) ∧
      t.pacer.droop.since48 = (if 48000 ≤ mv then some (d.since48.getD s.time) else none) ∧
      t.pacer.droop.since44 = (if 44000 ≤ mv then some (d.since44.getD s.time) else none) ∧
      t.pacer.droop.below40 = (if mv < 40000 then some (d.below40.getD s.time) else none) ∧
      (mv < 44000 → d.level < 2 → ∀ e ∈ t.engines, e.st ≠ .hold)) ∧
    (let third (t : State) : Prop := t.pacer.droop.level = 3 ∧
       (if s.pacer.stage = .d then t.pacer.flash.writing = true else t.pacer.flash.outage = true)
     (∀ since, d.level < 3 → d.below40 = some since → since + 2000000 < s.time → gives .droopRideThroughExpiry third) ∧
     (d.level < 3 → gives .holdUpWarning fun t => third t ∧ t.pacer.droop.holdUp = true)) ∧
    (∀ since, since + 2000 ≤ s.time →
      (d.level = 2 → d.since44 = some since → gives .droopLevelExit fun t => t.pacer.droop.level = 1) ∧
      (d.level = 1 → d.since48 = some since → gives .droopLevelExit fun t =>
        t.pacer.droop.level = 0 ∧ t.pacer.droop.recovering = true)) ∧
    (1 ≤ d.level → d.steps < 4 → d.stepAt + 5000 ≤ s.time → gives .clockStretchStep fun t =>
      t.pacer.droop = { d with steps := d.steps + 1, stepAt := s.time }) ∧
    (d.recovering = true → d.level = 0 → 0 < d.steps → d.stepAt + 5000 ≤ s.time → gives .clockRecoverStep fun t =>
      t.pacer.droop.steps = d.steps - 1 ∧ t.pacer.droop.stepAt = s.time ∧ t.pacer.droop.recovering = decide (1 < d.steps)) ∧
    (∀ die celsius, gives (.thermalSample die celsius) fun t => (t.die die).celsius = celsius ∧
      (110 ≤ celsius → (s.die die).tripped = false → (t.die die).tripped = true ∧ (t.die die).throttle = 4 ∧
        ∀ e ∈ t.engines, e.id.die = die → e.st ≠ .hold ∧ e.st ≠ .waking) ∧
      (celsius < 95 → (t.die die).tripped = false) ∧ (95 ≤ celsius → celsius < 110 → (t.die die).tripped = (s.die die).tripped)) ∧
    (∀ die, (s.die die).steppedAt + 100000 ≤ s.time →
      (100 < (s.die die).celsius → (s.die die).throttle < 4 → gives (.thermalThrottleStep die) fun t =>
        (t.die die).throttle = (s.die die).throttle + 1 ∧ (t.die die).steppedAt = s.time) ∧
      ((s.die die).celsius < 95 → 0 < (s.die die).throttle → gives (.thermalThrottleStep die) fun t =>
        (t.die die).throttle = (s.die die).throttle - 1 ∧ (t.die die).steppedAt = s.time)) ∧
    ∀ k n g, (s.core k).groups[n]? = some g → g.retired = false →
      (∀ lane, g.lanes.getLsbD lane = true → gives (.laneMarginLost k n lane) fun t =>
        (∀ v, g.volts[lane]? = some v → v < 5 → ∃ u, (t.core k).groups[n]? = some u ∧ u.volts[lane]? = some (v + 1) ∧
          u.lanes = g.lanes) ∧
        (∀ v, g.volts[lane]? = some v → 5 ≤ v → (n, lane) ∈ (t.core k).pendingLane)) ∧
      ∀ lane, g.lanes.getLsbD lane = true → (s.core k).pendingLane = [(n, lane)] → gives (.laneRetirement k) fun t =>
        (s.world.badLanes = [] → (t.core k).pendingLane = []) ∧ ∃ u, (t.core k).groups[n]? = some u ∧ u.lanes = g.lanes &&& ~~~(1#9 <<< lane) ∧
          u.checking = false ∧ u.retired = decide (g.lanes ≠ 0x1FF)

/-! ### Events of memory, the fabric and the ports -/

/-- R269, R302–R306, R342, R347–R349, R104: the host and peers read, write and act on module memory, a peer's transaction at
most once and only where its page table lets it; hotness counts reach their records, saturating; a page moves with its
bytes, its leaf follows, no core keeps its translation; the scrubber marks what it cannot correct; flits are sent again, a port
that goes down hands on what it carried, ports retrain; a peer that no port has reached for longer than FDEAD lets the runners
that stall on it go on, FABRIC pending.
The model's own choices it rests on: log 14, 37, 61, 63, 80, 87, 93. -/
def Obligations.FabricEvents : Prop :=
  ∀ (s : State), s.pending = [] → Memory.wf s.mem →
    let gives (i : Instr) (p : State → Prop) : Prop := ∃ t, exec i s = .next t ∧ p t
    let acts (k : Nat) (a : OutAccess) (r : Reply) (t : State) : Prop := match a with
      | .read _ n => r = .data (bytesAt s.mem k n) ∧ SameMemory s t
      | .write _ bs => r = .done ∧ (∀ j b, bs[j]? = some b → t.byteAt (k + j) = b) ∧ SameMemoryBut s t k bs.length
      | .amo _ op w b cmp => ∀ o, amoOfCode op = some o →
        let old := leBytesToNat (bytesAt s.mem k w)
        r = .data (bytesAt s.mem k w) ∧ SameMemoryBut s t k w ∧ leBytesToNat (bytesAt t.mem k w) =
          if o = .cas ∧ old ≠ cmp.toNat then old else amoNew o w old (b.toNat % 2 ^ (8 * w)) cmp.toNat % 2 ^ (8 * w)
      | .merge _ m b => r = .done ∧ t.byteAt k = (b &&& m) ||| (s.byteAt k &&& ~~~m) ∧ SameMemoryBut s t k 1
      | .poisoned _ n => r = .done ∧ SameMemoryBut s t k n ∧ ∀ j, j < n → (poisonMeets t.poison (k + j) 1).isSome = true
      | .line _ mode => r = .done ∧ (mode < 2 → SameMemory s t) ∧ ∀ j, lineOf j ≠ lineOf k → t.byteAt j = s.byteAt j
      | .attest _ | .register _ | .record _ => r = .access ∧ SameMemory s t
    let free (k : Nat) (a : OutAccess) : Prop :=
      poisonMeets s.poison k (accLen a) = none ∧ ∀ j, j < accLen a → isOutKey (k + j) = false
    let linked : Prop := s.pacer.flash.linkOff = false
    (∀ part a, linked → accAddr a + accLen a ≤ 2 ^ 41 → hostMay a = true → free (accAddr a) a → gives (.hostMemoryAccess part a) fun t =>
      ∃ r, t.outbox = s.outbox ++ [.hostAnswer part r] ∧ acts (accAddr a) a r t) ∧
    (∀ part a, linked → 2 ^ 41 < accAddr a + accLen a ∨ hostMay a = false → (∀ off, a ≠ .register off) → (∀ o, a ≠ .record o) →
      gives (.hostMemoryAccess part a) fun t => t.outbox = s.outbox ++ [.hostAnswer part .access] ∧ SameMemory s t) ∧
    (∀ part p, linked → s.part? part = some p →
      (∀ o bytes, p.pool.find? (fun x => x.1 == o) = some (o, bytes) → gives (.hostMemoryAccess part (.record o)) fun t =>
        t.outbox = s.outbox ++ [.hostAnswer part (.data bytes)] ∧ SameMemory s t) ∧
      (part < 16 → gives (.hostMemoryAccess part (.register 8)) fun t =>
        t.outbox = s.outbox ++ [.hostAnswer part (.data (natToLeBytes 8 p.argbase.toNat))] ∧ SameMemory s t)) ∧
    (¬linked → ∀ part a, exec (.hostMemoryAccess part a) s = .next s) ∧
    (∀ peer part p seq, s.part? part = some p →
      (∀ accs, s.performed peer seq = true → exec (.peerGatherList peer part seq accs) s = .next s ∧
        ∀ a, exec (.fabricAccessRequest peer part seq a) s = .next s) ∧
      (s.performed peer seq = false →
        let noted (t : State) : Prop := t.performed peer seq = true
        (∀ nonce, nonce.length = 64 → gives (.fabricAccessRequest peer part seq (.attest nonce)) fun t => noted t ∧ SameMemory s t ∧
          ∃ bytes, t.outbox = s.outbox ++ [.answer peer seq [.data bytes]] ∧ bytes.take 8 = natToLeBytes 8 0x5A170A01 ∧
            (bytes.drop 16).take 64 = nonce) ∧
        (p.known = false → ∀ accs, (∀ nonce, accs ≠ [.attest nonce]) → gives (.peerGatherList peer part seq accs) fun t =>
          t.outbox = s.outbox ++ [.answer peer seq [.access]] ∧ SameMemory s t ∧ noted t) ∧
        (p.known = true →
        (∀ a k, (∀ nonce, a ≠ .attest nonce) → s.peerKey p a = .key k → free k a → gives (.fabricAccessRequest peer part seq a) fun t =>
          ∃ r, t.outbox = s.outbox ++ [.answer peer seq [r]] ∧ acts k a r t ∧ noted t) ∧
        (∀ a r, (∀ nonce, a ≠ .attest nonce) → s.peerKey p a = .no r → gives (.fabricAccessRequest peer part seq a) fun t =>
          t.outbox = s.outbox ++ [.answer peer seq [r]] ∧ SameMemory s t ∧ noted t) ∧
        (∀ a, (∀ nonce, a ≠ .attest nonce) → s.peerKey p a = .service → gives (.fabricAccessRequest peer part seq a) fun t => SameMemory s t ∧
          noted t ∧ ∃ q, t.part? part = some q ∧
            q.pending = p.pending ++ [{ peer := peer, seq := seq, todo := [a], done := [] }]) ∧
        ∀ (accs : List OutAccess) (ks : List Nat), accs.length = ks.length →
          (∀ (j : Nat) (a : OutAccess) (k : Nat), accs[j]? = some a → ks[j]? = some k → (∃ va n, a = .read va n) ∧ s.peerKey p a = .key k ∧ free k a) →
          gives (.peerGatherList peer part seq accs) fun t => SameMemory s t ∧ noted t ∧
            t.outbox = s.outbox ++ [.answer peer seq ((accs.zip ks).map fun x => .data (bytesAt s.mem x.2 (accLen x.1)))]))) ∧
    (∀ c, (s.core c).hot = [] → gives (.hotnessFlush c) fun t => SameMemory s t) ∧
    (∀ c part page l m n p, (s.core c).hot = [(part, page, l, m, n)] → s.part? part = some p →
      let k := (p.record.hotbase + 16 * (page / 2 ^ 16)) % 2 ^ 41
      let f (x : State) (j : Nat) : Nat := leBytesToNat (bytesAt x.mem (k + 4 * j) 4)
      gives (.hotnessFlush c) fun t => (t.core c).hot = [] ∧ f t 0 = min (2 ^ 32 - 1) (f s 0 + l) ∧
        f t 1 = min (2 ^ 32 - 1) (f s 1 + m) ∧ f t 2 = min (2 ^ 32 - 1) (f s 2 + n) ∧ f t 3 = (f s 3 + 1) % 2 ^ 32 ∧
        SameMemoryBut s t k 16) ∧
    (∀ a, exec (.patrolScrub a false) s = .next s ∧ gives (.patrolScrub a true) fun t => SameMemory s t ∧
      (a < 2 ^ 41 → s.inL2 a = false → (a / 64 * 64, 64) ∈ t.poison) ∧
      (2 ^ 41 ≤ a ∨ s.inL2 a = true → (a / 8 * 8, 8) ∈ t.poison)) ∧
    (∀ part p va dest m a e, s.part? part = some p → p.known = true → s.moveOf p va.toNat dest false = some (m, a, e) → p.record.modes.getLsbD 1 = false →
      gives (.pageMigration part va dest) fun t => SameMemory s t ∧ ∃ q, t.part? part = some q ∧ q.moves = p.moves ++ [m]) ∧
    (∀ part p m n a e, s.part? part = some p → s.moveOf p m.page m.dest m.host = some (n, a, e) → n.size = m.size →
      s.pageHeld (bitsOf e 16 41 * 2 ^ 16) m.size = false → a + 8 ≤ m.dest ∨ m.dest + m.size ≤ a →
      let key := bitsOf e 16 41 * 2 ^ 16
      let t := s.tryMove part m
      (∀ j, j < m.size → t.byteAt (m.dest + j) = s.byteAt (key + j)) ∧
      leBytesToNat (bytesAt t.mem a 8) = e.toNat - key + m.dest ∧
      (∀ k, (k < m.dest ∨ m.dest + m.size ≤ k) → (k < a ∨ a + 8 ≤ k) → t.byteAt k = s.byteAt k) ∧
      (∃ q, t.part? part = some q ∧ q.moves = p.moves.filter fun x => x ≠ m) ∧
      (m.host = true → t.outbox = s.outbox ++ [.status 0]) ∧
      ∀ c ∈ t.cores, ∀ x ∈ c.tlb, x.part = part → ¬(x.page ≤ m.page ∧ m.page < x.page + x.size)) ∧
    (∀ n q, s.pacer.ports[n]? = some q →
      let others (t : State) : Prop := ∀ j, j ≠ n → t.pacer.ports[j]? = s.pacer.ports[j]?
      let port (i : Instr) (x : Port) (p : State → Prop) : Prop := gives i fun t => t.pacer.ports[n]? = some x ∧ SameMemory s t ∧ p t
      (∀ seq, (∃ x ∈ q.replay, x.seq = seq) → port (.flitReplay n seq) { q with replayed := q.replayed + 1 } others) ∧
      port (.portErrorThreshold n) { q with down := some (q.down.getD s.time), retraining := !s.hostRetrains, replay := [] } (fun t =>
        ((∀ y ∈ s.pacer.sent, y.port ≠ some n) → others t) ∧
        ∀ y ∈ s.pacer.sent, y.port = some n → ∃ z ∈ t.pacer.sent, z.msg = y.msg ∧ z.dest = y.dest ∧ z.num = y.num ∧ z.port ≠ some n) ∧
      (q.retraining = true → (∀ y ∈ s.pacer.sent, y.port ≠ none) →
        (port (.portRetrainComplete n 0) { q with lanes := 0, retraining := false } others) ∧
        ∀ lanes, (match q.mode with | .relay => lanes = 4 ∨ lanes = 2 | .eth1600 => lanes = 4 | .eth800 => lanes = 2) →
          port (.portRetrainComplete n lanes) { q with lanes := lanes, down := none, retraining := false } others)) ∧
    ∀ n m p, m < 4096 → m ≠ s.pacer.number → s.part? n = some p → s.livePorts m = [] →
      (∀ i, i < 16 → p.record.fdead * 100000 < s.downFor m i) → gives (.fabricTimeout (4096 * n + m)) fun t => (n, m) ∈ t.pacer.unreachable ∧
      (s.Kept → ∀ r x a l, s.runner? r = some x → r.part = n → x.stat = .stalled → x.asks = .peer m a :: l →
        ∃ y b, t.runner? r = some y ∧ y.stat = .ready ∧ y.fabric = some m ∧ y.replies = x.replies ++ [(.peer m a, b)] ∧
          y.scal = x.scal)

/-! ### What the host orders, the start, the checkpoint -/

/-- R263–R265, R288, R303, R342, R344–R347, R353, R357: VF register writes and mailbox commands, with the status each is
answered with: 0 done, 1 failed, 2 busy, 3 a bad argument, a bad argument before a state that forbids the command, that before
content that fails its checks. With the link to the host in L2 nothing of the host's has an effect (R355).
The model's own choices it rests on: log 60, 62, 66, 70, 78, 80, 81, 93, 95, 96. -/
def Obligations.HostCommands : Prop :=
  ∀ (s : State) (part : Nat),
    let answers (i : Instr) (code : Nat) (p : State → Prop) : Prop :=
      ∃ t, exec i s = .next t ∧ t.outbox.getLast? = some (.status code) ∧ p t
    let full := s.pacer.stage = .d
    let idle : Prop := s.pacer.flash.linkOff = false ∧ ∀ p ∈ s.parts, ∀ m ∈ p.moves, m.host = false
    (s.pacer.flash.linkOff = true → exec (.unloadmeet part) s = .next s ∧ ∀ w off, exec (.start part w) s = .next s ∧
      exec (.registerWrite part off w) s = .next s) ∧
    (s.pacer.flash.linkOff = false → (∃ p ∈ s.parts, ∃ m ∈ p.moves, m.host = true) → answers (.unloadmeet part) 2 (SameMemory s)) ∧
    (idle → (∀ p, s.part? part = some p → p.known = false) → answers (.unloadmeet part) 3 (SameMemory s)) ∧
    (∀ p, s.pacer.flash.linkOff = false → s.vf? part = some p →
      let runs := (∃ h ∈ s.heats, h.part = p.idx) ∨ p.admissions ≠ []
      let sets (i : Instr) (q : Part) : Prop := ∃ t, exec i s = .next t ∧ t.part? part = some q ∧ t.outbox = s.outbox
      let refuses (c : Nat) (w : Word) : Prop := sets (.start part w) { p with err := true, errcode := c }
      (∀ w, sets (.registerWrite part 8 w) { p with argbase := w }) ∧
      (∀ die w, die < 8 → ∃ t q, exec (.registerWrite part (0x100 + 8 * die) w) s = .next t ∧ t.part? part = some q ∧
        q.waymask[die]? = some (w.setWidth 16) ∧ (∀ j, j ≠ die → (q.waymask[j]?).getD 0 = (p.waymask[j]?).getD 0) ∧
        q = { p with waymask := q.waymask } ∧ t.lines = s.lines) ∧
      (∀ off w, off ≠ 8 → ¬(0x100 ≤ off ∧ off < 0x140 ∧ off % 8 = 0) → exec (.registerWrite part off w) s = .next s) ∧
      exec (.start part 0) s = .next s ∧ (∀ w, w >>> 1 ≠ 0#64 → refuses 5 w) ∧ (¬full → refuses 1 1) ∧
      (full → p.loaded = none → refuses 2 1) ∧ (full → p.loaded ≠ none → runs → refuses 3 1) ∧
      (full → p.loaded ≠ none → ¬runs → p.argbase.toNat % 8 ≠ 0 → refuses 4 1) ∧
      (∀ g, full → p.loaded = some g → ¬runs → p.argbase.toNat % 8 = 0 → sets (.start part 1)
        { p with err := false, errcode := 0, nodeArgs := p.argbase, nodes := List.replicate g.heats.length .idle })) ∧
    (∀ p, idle → s.part? part = some p → p.known = true →
      let runs := (∃ h ∈ s.heats, h.part = p.idx) ∨ p.admissions ≠ []
      let sets (i : Instr) (q : Part) : Prop := ∃ t, exec i s = .next t ∧ t.part? part = some q ∧ t.outbox = s.outbox
      (¬full → answers (.unloadmeet part) 2 (SameMemory s)) ∧
      (full →
        (∀ pkg g, (groupOk g = false → answers (.loadmeet part pkg g) 3 (SameMemory s)) ∧
          (groupOk g = true → p.loaded ≠ none → answers (.loadmeet part pkg g) 2 (SameMemory s)) ∧
          (groupOk g = true → p.loaded = none → s.meetOk p pkg = false → answers (.loadmeet part pkg g) 1 (SameMemory s)) ∧
          (groupOk g = true → p.loaded = none → s.meetOk p pkg = true → Memory.wf s.mem →
            answers (.loadmeet part pkg g) 0 fun t =>
              (pkg.globals = [] → (∀ x ∈ pkg.pinned, x.image = []) → ∀ k, t.byteAt k = overlay (pkg.physical.flatMap fun x => cellsFrom x.1 x.2) k (s.byteAt k)) ∧
              ∃ q, t.part? part = some q ∧ q.loaded = some pkg ∧ q.group = g ∧ q.regions = pkg.regions ∧
                q.chain = sha512 (p.chain ++ sha512 (pkg.bytes ++ pkg.sigBytes)))) ∧
        (p.loaded = none ∨ runs → answers (.unloadmeet part) 2 (SameMemory s)) ∧
        (p.loaded ≠ none → ¬runs → answers (.unloadmeet part) 0 fun t => SameMemory s t ∧
          ∃ q, t.part? part = some q ∧ q.loaded = none ∧ q.nodes = []) ∧
        (∀ die slice, (die < 8 → slice < 3072 → answers (.occupread part die slice) 0 fun t =>
            t.outbox = s.outbox ++ [.occup (s.occup part die slice), .status 0]) ∧
          (8 ≤ die ∨ 3072 ≤ slice → answers (.occupread part die slice) 3 (SameMemory s))) ∧
        (∀ va dest, (p.destOk dest = false → answers (.migrate part va dest) 3 (SameMemory s)) ∧
          (p.destOk dest = true → p.record.modes.getLsbD 1 = false → answers (.migrate part va dest) 2 (SameMemory s)) ∧
          (p.destOk dest = true → p.record.modes.getLsbD 1 = true →
            (s.moveOf p va.toNat dest true = none → answers (.migrate part va dest) 1 (SameMemory s)) ∧
            ∀ m a e, s.moveOf p va.toNat dest true = some (m, a, e) → sets (.migrate part va dest) { p with moves := p.moves ++ [m] })) ∧
        (∀ l : List Nat, let fits : Prop := l.length ≤ 8 ∧ ∀ n ∈ l, n ≤ 7
          (¬fits → answers (.leasetab part l) 3 (SameMemory s)) ∧
          (fits → if p.record.modes.getLsbD 3 then answers (.leasetab part l) 0 fun t => ∃ q, t.part? part = some q ∧ q.leaseTable = l
            else answers (.leasetab part l) 2 (SameMemory s))) ∧
        (∀ a b, (a < 600 ∨ 86400 < a ∨ b < 3600 ∨ 604800 < b → answers (.scrubset part a b) 3 (SameMemory s)) ∧
          (600 ≤ a → a ≤ 86400 → 3600 ≤ b → b ≤ 604800 →
            (p.record.modes.getLsbD 5 = false → answers (.scrubset part a b) 2 (SameMemory s)) ∧
            (p.record.modes.getLsbD 5 = true → answers (.scrubset part a b) 0 fun t =>
              ∃ q, t.part? part = some q ∧ q.record.scrubSram = a ∧ q.record.scrubLpddr = b))) ∧
        (∀ n ok, (p.record.modes.getLsbD 2 = false → answers (.admitHeat part n ok) 2 fun t => t.heats = s.heats) ∧
          (p.record.modes.getLsbD 2 = true →
            ((∀ a ∈ p.admissions, a.heat.id ≠ n) → answers (.admitHeat part n ok) 3 fun t => t.heats = s.heats) ∧
            ∀ a l, p.admissions = a :: l → a.heat.id = n → a.heat.part = p.idx →
              (s.reserve p a.heat ≠ none → answers (.admitHeat part n true) 0 fun t =>
                t.heats = s.heats ++ [{ a.heat with order := s.nextUid, admitted := s.time }]) ∧
              answers (.admitHeat part n false) 0 fun t => t.heats = s.heats)))) ∧
    (∀ rec, idle →
      (16 ≤ part ∨ recordOk rec = false ∨ s.conflicts part rec = true → answers (.config part rec) 3 (SameMemory s)) ∧
      (part < 16 → recordOk rec = true → s.conflicts part rec = false →
        ((s.pacer.stage ≠ .c ∧ ¬full) ∨ (∃ p, s.part? part = some p ∧ p.loaded ≠ none) →
          answers (.config part rec) 2 (SameMemory s)) ∧
        (s.pacer.stage = .c ∨ full → (∀ p, s.part? part = some p → p.loaded = none) → answers (.config part rec) 0 fun t =>
          ∃ q, t.part? part = some q ∧ q.known = true ∧ q.record = rec ∧ q.chain = List.replicate 64 0))) ∧
    (idle → full → ∀ n q, s.pacer.ports[n]? = some q →
      let orders (o : LinkOrder) (x : Port) : Prop := answers (.linkctl n o) 0 fun t => t.pacer.ports[n]? = some x
      (∀ m, if q.down = none then answers (.linkctl n (.mode m)) 2 (SameMemory s) else orders (.mode m) { q with mode := m, lanes := 0 }) ∧
      orders .retrain { q with down := some (q.down.getD s.time), retraining := true, replay := [] } ∧
      (if q.mode = .eth1600 then answers (.linkctl n .degrade) 2 (SameMemory s)
        else orders .degrade { q with lanes := min 2 q.lanes })) ∧
    (∀ b, idle → (¬full → answers (.shakedown b) 2 (SameMemory s)) ∧
      (full → (∃ p ∈ s.parts, p.loaded ≠ none) → answers (.shakedown b) 2 (SameMemory s)) ∧
      (full → (∀ p ∈ s.parts, p.loaded = none) → answers (.shakedown b) 0 fun t =>
        t.pacer.stage = .c ∧ t.pacer.shake.running = true ∧ t.pacer.shake.full = (b || s.pacer.transported))) ∧
    ∀ nonce : List Byte, idle → (nonce.length ≠ 64 → answers (.attest nonce) 3 (SameMemory s)) ∧
      (nonce.length = 64 → ∃ bytes, answers (.attest nonce) 0 (fun t => t.outbox = s.outbox ++ [.report bytes, .status 0]) ∧
        bytes.take 8 = natToLeBytes 8 0x5A170A01 ∧ (bytes.drop 16).take 64 = nonce)

/-- R350–R352, R354–R356: power good leaves stage A with TIME 0 and nothing in memory, the save flash and the logger as
before; verified firmware leads to stage C with the chain extended, other firmware to failure; a shakedown that finds
nothing fatal leads to stage D, clears TRANSPORTED if it was full, and after an outage brings the newest checkpoint back. A
checkpoint is written to the slots alternately; a shock is logged. After an outage that cut a checkpoint short, as after one that
it preceded, the restore comes once power has been good for 100 ms (R356). A shakedown that a shock or a droop has started
again in this tick does not end, nor does one at droop level 3 (R351).
The model's own choices it rests on: log 58, 59, 60. -/
def Obligations.StartAndCheckpoint : Prop :=
  ∀ (s : State),
    let gives (i : Instr) (p : State → Prop) : Prop := ∃ t, exec i s = .next t ∧ p t
    let p := s.pacer
    let f := p.flash
    let fresh (t : State) : Prop := t.pacer.stage = .a ∧ t.time = 0 ∧ t.mem = [] ∧ t.parts = [] ∧ t.heats = [] ∧ t.teams = [] ∧
      t.rs = [] ∧ t.engines = [] ∧ t.pacer.flash.slots = f.slots ∧ t.pacer.transported = p.transported ∧ t.pacer.events = p.events ∧
      t.pacer.chain = List.replicate 64 0
    let read (c : Checkpoint) (late : Nat) (t : State) : Prop := t.mem = c.mem ∧ t.teams = c.teams ∧
      t.heats = (c.heats.map fun h => { h with admitted := h.admitted + late }) ∧ t.parts = c.parts ∧
      t.copies = c.copies ∧ t.engines = [] ∧ t.time = max s.time (c.time + s.world.outage.getD 1)
    let lost : Prop := f.outage = true ∨ (f.writing = true ∧ p.droop.level = 3)
    (¬lost → gives .powerGood fresh) ∧
    (∀ since, lost → p.droop.since48 = some since → since + 10000000 ≤ s.time → gives .powerGoodRestore fun t =>
      fresh t ∧ t.pacer.flash.outage = true) ∧
    (p.stage = .b → ∀ rom fw,
      gives (.firmwareVerify rom fw true) (fun t => t.pacer.stage = .c ∧ t.pacer.chain = sha512 (p.chain ++ sha512 fw)) ∧
      gives (.firmwareVerify rom fw false) fun t => t.pacer.stage = .failed ∧ t.pacer.chain = p.chain) ∧
    (p.stage = .a → ∀ rom fw, let m := sha512 (p.chain ++ sha512 rom)
      gives (.firmwareVerify rom fw true) (fun t => t.pacer.stage = .c ∧ t.pacer.chain = sha512 (m ++ sha512 fw) ∧
        t.pacer.shake.running = true ∧ (p.transported = true → t.pacer.shake.full = true) ∧ t.pacer.transAtC = p.transported) ∧
      gives (.firmwareVerify rom fw false) fun t => t.pacer.stage = .failed ∧ t.pacer.chain = m) ∧
    (p.stage = .c → p.shake.running = true → p.shake.began ≠ some s.time → p.droop.level < 3 →
      (s.world.silicon.fatal ≠ 0 → gives .shakedownComplete fun t => t.pacer.stage = .failed ∧ t.pacer.shake.pass = false ∧
        t.pacer.shake.category = s.world.silicon.fatal ∧ t.pacer.shake.time = s.time) ∧
      (s.world.silicon.fatal = 0 →
        let ready (t : State) : Prop := t.pacer.stage = .d ∧ t.pacer.shake.pass = true ∧ t.pacer.shake.running = false ∧
          t.pacer.shake.time = s.time ∧ t.pacer.transported = (p.transported && !p.shake.full) ∧
          t.pacer.shake.category = (if s.world.silicon.lanes ≠ [] then 4 else if s.world.silicon.columns ≠ [] then 5 else 0)
        (f.outage = false → gives .shakedownComplete fun t => ready t ∧ t.mem = s.mem ∧ t.parts = s.parts) ∧
        (∀ c, f.outage = true → f.newest = some c → gives .shakedownComplete fun t =>
          ready t ∧ read c (t.time - c.time) t ∧ t.pacer.flash.outage = false))) ∧
    let idle : Prop := f.linkOff = false ∧ ∀ q ∈ s.parts, ∀ m ∈ q.moves, m.host = false
    (idle → p.stage = .d → gives .checkpoint fun t => t.pacer.flash.writing = true ∧ t.outbox.getLast? = some (.status 0)) ∧
    (idle → p.stage ≠ .d → gives .checkpoint fun t => t.outbox = s.outbox ++ [.status 2] ∧ t.pacer.flash = f) ∧
    (f.writing = true → (∀ tm ∈ s.teams, tm.stat ≠ .resident ∧ tm.stat ≠ .stopping) →
      gives .checkpointWriteComplete fun t => t.pacer.flash.writing = false ∧ t.pacer.flash.seq = f.seq + 1 ∧ t.engines = [] ∧
        (∃ c, t.pacer.flash.slots[f.seq % 2]? = some (some c) ∧ c.seq = f.seq ∧ c.mem = s.mem ∧ c.teams = s.teams ∧
          c.parts = s.parts ∧ c.time = s.time) ∧
        (p.droop.level = 3 → (t.pacer.droop.level = 0 ∧ t.pacer.flash.outage = f.outage) ∨
          (t.pacer.droop.level = 3 ∧ t.pacer.flash.outage = true)) ∧
        (p.droop.level = 3 → 48000 ≤ p.droop.millivolts → p.droop.holdUp = false → t.pacer.droop.level = 0)) ∧
    (let busy : Prop := p.stage ≠ .d ∨ f.writing = true ∨ f.newest = none ∨ ∃ tm ∈ s.teams, tm.stat = .resident ∨ tm.stat = .stopping
     (idle → busy → gives .restore fun t => t.outbox = s.outbox ++ [.status 2] ∧ SameMemory s t) ∧
     ∀ c, idle → ¬busy → f.newest = some c → gives .restore fun t => t.outbox = s.outbox ++ [.status 0] ∧ read c 0 t) ∧
    let logged (t : State) : Prop := t.pacer.transported = true ∧ t.pacer.events = min 65535 (p.events + 1) ∧
      (p.shake.running = true → t.pacer.shake.full = true ∧ t.pacer.shake.began = some s.time) ∧ SameMemory s t
    gives .shockEvent logged ∧ gives .tiltTimeout logged

/-! ### Invariants and reset -/

/-- A step keeps what the module's own bookkeeping rests on: memory stays in its canonical form, in the checkpoints on
flash too, and every runner that does not run is kept under its own number.
The model's own choices it rests on: log 67. -/
def Obligations.StepKeepsInvariant : Prop :=
  ∀ (s t : State), s.Inv → step s = .next t → t.Inv

/-- R13, R24, R29, R350, and the model's own reset values (log 2): right after power good the module is at stage A with
TIME 0, holds nothing in memory, no partition, heat, team or engine; the runner context that stands for none has the values
a runner starts with; and the invariant holds. -/
def Obligations.ResetState : Prop :=
  let s := State.reset
  s.Inv ∧ s.time = 0 ∧ s.pacer.stage = .a ∧ (∀ k, s.byteAt k = 0) ∧ s.parts = [] ∧ s.heats = [] ∧ s.teams = [] ∧ s.engines = [] ∧
  s.r.stat = .absent ∧ (∀ n : SR, s.reg n = if n = 2 then 0x01FF000300000000 else 0) ∧ s.pc = 0 ∧ s.vl = 0 ∧ s.vstart = 0 ∧
  s.vtype = 0x200 ∧ s.r.vect.vflags = 0 ∧ (∀ n, s.vreg n = {}) ∧ s.r.scal.sysr = {} ∧ s.r.strip.active = false ∧
  s.r.strip.prot = false ∧ (∀ q : QR, s.r.queues[q] = []) ∧ (∀ n : Fin 8, s.r.leases[n] = none) ∧ s.agenda = [] ∧ s.outbox = []
end

