-- ==== Sys2Proof/Laws/State.lean ====
section
/-! SUPPORT. One lemma per field per update, so that no later proof unfolds a record update. -/

namespace Sys2Proof.Machine

/-! ### Updates of the running runner -/

@[simp] theorem State.setReg_rs (s : State) (n : SR) (w : Word) : (s.setReg n w).rs = s.rs := rfl
@[simp] theorem State.setReg_teams (s : State) (n : SR) (w : Word) : (s.setReg n w).teams = s.teams := rfl
@[simp] theorem State.setReg_heats (s : State) (n : SR) (w : Word) : (s.setReg n w).heats = s.heats := rfl
@[simp] theorem State.setReg_cores (s : State) (n : SR) (w : Word) : (s.setReg n w).cores = s.cores := rfl
@[simp] theorem State.setReg_clusters (s : State) (n : SR) (w : Word) : (s.setReg n w).clusters = s.clusters := rfl
@[simp] theorem State.setReg_engines (s : State) (n : SR) (w : Word) : (s.setReg n w).engines = s.engines := rfl
@[simp] theorem State.setReg_dies (s : State) (n : SR) (w : Word) : (s.setReg n w).dies = s.dies := rfl
@[simp] theorem State.setReg_parts (s : State) (n : SR) (w : Word) : (s.setReg n w).parts = s.parts := rfl
@[simp] theorem State.setReg_copies (s : State) (n : SR) (w : Word) : (s.setReg n w).copies = s.copies := rfl
@[simp] theorem State.setReg_mem (s : State) (n : SR) (w : Word) : (s.setReg n w).mem = s.mem := rfl
@[simp] theorem State.setReg_under (s : State) (n : SR) (w : Word) : (s.setReg n w).under = s.under := rfl
@[simp] theorem State.setReg_lines (s : State) (n : SR) (w : Word) : (s.setReg n w).lines = s.lines := rfl
@[simp] theorem State.setReg_poison (s : State) (n : SR) (w : Word) : (s.setReg n w).poison = s.poison := rfl
@[simp] theorem State.setReg_pacer (s : State) (n : SR) (w : Word) : (s.setReg n w).pacer = s.pacer := rfl
@[simp] theorem State.setReg_world (s : State) (n : SR) (w : Word) : (s.setReg n w).world = s.world := rfl
@[simp] theorem State.setReg_time (s : State) (n : SR) (w : Word) : (s.setReg n w).time = s.time := rfl
@[simp] theorem State.setReg_nextUid (s : State) (n : SR) (w : Word) : (s.setReg n w).nextUid = s.nextUid := rfl
@[simp] theorem State.setReg_outbox (s : State) (n : SR) (w : Word) : (s.setReg n w).outbox = s.outbox := rfl
@[simp] theorem State.setReg_agenda (s : State) (n : SR) (w : Word) : (s.setReg n w).agenda = s.agenda := rfl
@[simp] theorem State.setReg_free (s : State) (n : SR) (w : Word) : (s.setReg n w).free = s.free := rfl
@[simp] theorem State.setReg_quota (s : State) (n : SR) (w : Word) : (s.setReg n w).quota = s.quota := rfl
@[simp] theorem State.setReg_r_ident (s : State) (n : SR) (w : Word) : (s.setReg n w).r.ident = s.r.ident := rfl
@[simp] theorem State.setReg_r_stat (s : State) (n : SR) (w : Word) : (s.setReg n w).r.stat = s.r.stat := rfl
@[simp] theorem State.setReg_r_vect (s : State) (n : SR) (w : Word) : (s.setReg n w).r.vect = s.r.vect := rfl
@[simp] theorem State.setReg_r_queues (s : State) (n : SR) (w : Word) : (s.setReg n w).r.queues = s.r.queues := rfl
@[simp] theorem State.setReg_r_vq (s : State) (n : SR) (w : Word) : (s.setReg n w).r.vq = s.r.vq := rfl
@[simp] theorem State.setReg_r_strip (s : State) (n : SR) (w : Word) : (s.setReg n w).r.strip = s.r.strip := rfl
@[simp] theorem State.setReg_r_share (s : State) (n : SR) (w : Word) : (s.setReg n w).r.share = s.r.share := rfl
@[simp] theorem State.setReg_r_hist (s : State) (n : SR) (w : Word) : (s.setReg n w).r.hist = s.r.hist := rfl
@[simp] theorem State.setReg_r_streams (s : State) (n : SR) (w : Word) : (s.setReg n w).r.streams = s.r.streams := rfl
@[simp] theorem State.setReg_r_leases (s : State) (n : SR) (w : Word) : (s.setReg n w).r.leases = s.r.leases := rfl
@[simp] theorem State.setReg_r_leaseSeq (s : State) (n : SR) (w : Word) : (s.setReg n w).r.leaseSeq = s.r.leaseSeq := rfl
@[simp] theorem State.setReg_r_barw (s : State) (n : SR) (w : Word) : (s.setReg n w).r.barw = s.r.barw := rfl
@[simp] theorem State.setReg_r_sya (s : State) (n : SR) (w : Word) : (s.setReg n w).r.sya = s.r.sya := rfl
@[simp] theorem State.setReg_r_eretPending (s : State) (n : SR) (w : Word) : (s.setReg n w).r.eretPending = s.r.eretPending := rfl
@[simp] theorem State.setReg_r_wait (s : State) (n : SR) (w : Word) : (s.setReg n w).r.wait = s.r.wait := rfl
@[simp] theorem State.setReg_r_asks (s : State) (n : SR) (w : Word) : (s.setReg n w).r.asks = s.r.asks := rfl
@[simp] theorem State.setReg_r_replies (s : State) (n : SR) (w : Word) : (s.setReg n w).r.replies = s.r.replies := rfl
@[simp] theorem State.setReg_r_fabric (s : State) (n : SR) (w : Word) : (s.setReg n w).r.fabric = s.r.fabric := rfl
@[simp] theorem State.setReg_r_treq (s : State) (n : SR) (w : Word) : (s.setReg n w).r.treq = s.r.treq := rfl
@[simp] theorem State.setReg_r_tfmt (s : State) (n : SR) (w : Word) : (s.setReg n w).r.tfmt = s.r.tfmt := rfl
@[simp] theorem State.setReg_r_vecWrites (s : State) (n : SR) (w : Word) : (s.setReg n w).r.vecWrites = s.r.vecWrites := rfl
@[simp] theorem State.setReg_r_collSeq (s : State) (n : SR) (w : Word) : (s.setReg n w).r.collSeq = s.r.collSeq := rfl
@[simp] theorem State.setReg_r_readySince (s : State) (n : SR) (w : Word) : (s.setReg n w).r.readySince = s.r.readySince := rfl
@[simp] theorem State.setReg_r_begun (s : State) (n : SR) (w : Word) : (s.setReg n w).r.begun = s.r.begun := rfl
@[simp] theorem State.setReg_r_pages (s : State) (n : SR) (w : Word) : (s.setReg n w).r.pages = s.r.pages := rfl
@[simp] theorem State.setReg_r_yielded (s : State) (n : SR) (w : Word) : (s.setReg n w).r.yielded = s.r.yielded := rfl

@[simp] theorem State.setPc_rs (s : State) (a : Word) : (s.setPc a).rs = s.rs := rfl
@[simp] theorem State.setPc_teams (s : State) (a : Word) : (s.setPc a).teams = s.teams := rfl
@[simp] theorem State.setPc_heats (s : State) (a : Word) : (s.setPc a).heats = s.heats := rfl
@[simp] theorem State.setPc_cores (s : State) (a : Word) : (s.setPc a).cores = s.cores := rfl
@[simp] theorem State.setPc_clusters (s : State) (a : Word) : (s.setPc a).clusters = s.clusters := rfl
@[simp] theorem State.setPc_engines (s : State) (a : Word) : (s.setPc a).engines = s.engines := rfl
@[simp] theorem State.setPc_dies (s : State) (a : Word) : (s.setPc a).dies = s.dies := rfl
@[simp] theorem State.setPc_parts (s : State) (a : Word) : (s.setPc a).parts = s.parts := rfl
@[simp] theorem State.setPc_copies (s : State) (a : Word) : (s.setPc a).copies = s.copies := rfl
@[simp] theorem State.setPc_mem (s : State) (a : Word) : (s.setPc a).mem = s.mem := rfl
@[simp] theorem State.setPc_under (s : State) (a : Word) : (s.setPc a).under = s.under := rfl
@[simp] theorem State.setPc_lines (s : State) (a : Word) : (s.setPc a).lines = s.lines := rfl
@[simp] theorem State.setPc_poison (s : State) (a : Word) : (s.setPc a).poison = s.poison := rfl
@[simp] theorem State.setPc_pacer (s : State) (a : Word) : (s.setPc a).pacer = s.pacer := rfl
@[simp] theorem State.setPc_world (s : State) (a : Word) : (s.setPc a).world = s.world := rfl
@[simp] theorem State.setPc_time (s : State) (a : Word) : (s.setPc a).time = s.time := rfl
@[simp] theorem State.setPc_nextUid (s : State) (a : Word) : (s.setPc a).nextUid = s.nextUid := rfl
@[simp] theorem State.setPc_outbox (s : State) (a : Word) : (s.setPc a).outbox = s.outbox := rfl
@[simp] theorem State.setPc_agenda (s : State) (a : Word) : (s.setPc a).agenda = s.agenda := rfl
@[simp] theorem State.setPc_free (s : State) (a : Word) : (s.setPc a).free = s.free := rfl
@[simp] theorem State.setPc_quota (s : State) (a : Word) : (s.setPc a).quota = s.quota := rfl
@[simp] theorem State.setPc_r_ident (s : State) (a : Word) : (s.setPc a).r.ident = s.r.ident := rfl
@[simp] theorem State.setPc_r_stat (s : State) (a : Word) : (s.setPc a).r.stat = s.r.stat := rfl
@[simp] theorem State.setPc_r_vect (s : State) (a : Word) : (s.setPc a).r.vect = s.r.vect := rfl
@[simp] theorem State.setPc_r_queues (s : State) (a : Word) : (s.setPc a).r.queues = s.r.queues := rfl
@[simp] theorem State.setPc_r_vq (s : State) (a : Word) : (s.setPc a).r.vq = s.r.vq := rfl
@[simp] theorem State.setPc_r_strip (s : State) (a : Word) : (s.setPc a).r.strip = s.r.strip := rfl
@[simp] theorem State.setPc_r_share (s : State) (a : Word) : (s.setPc a).r.share = s.r.share := rfl
@[simp] theorem State.setPc_r_hist (s : State) (a : Word) : (s.setPc a).r.hist = s.r.hist := rfl
@[simp] theorem State.setPc_r_streams (s : State) (a : Word) : (s.setPc a).r.streams = s.r.streams := rfl
@[simp] theorem State.setPc_r_leases (s : State) (a : Word) : (s.setPc a).r.leases = s.r.leases := rfl
@[simp] theorem State.setPc_r_leaseSeq (s : State) (a : Word) : (s.setPc a).r.leaseSeq = s.r.leaseSeq := rfl
@[simp] theorem State.setPc_r_barw (s : State) (a : Word) : (s.setPc a).r.barw = s.r.barw := rfl
@[simp] theorem State.setPc_r_sya (s : State) (a : Word) : (s.setPc a).r.sya = s.r.sya := rfl
@[simp] theorem State.setPc_r_eretPending (s : State) (a : Word) : (s.setPc a).r.eretPending = s.r.eretPending := rfl
@[simp] theorem State.setPc_r_wait (s : State) (a : Word) : (s.setPc a).r.wait = s.r.wait := rfl
@[simp] theorem State.setPc_r_asks (s : State) (a : Word) : (s.setPc a).r.asks = s.r.asks := rfl
@[simp] theorem State.setPc_r_replies (s : State) (a : Word) : (s.setPc a).r.replies = s.r.replies := rfl
@[simp] theorem State.setPc_r_fabric (s : State) (a : Word) : (s.setPc a).r.fabric = s.r.fabric := rfl
@[simp] theorem State.setPc_r_treq (s : State) (a : Word) : (s.setPc a).r.treq = s.r.treq := rfl
@[simp] theorem State.setPc_r_tfmt (s : State) (a : Word) : (s.setPc a).r.tfmt = s.r.tfmt := rfl
@[simp] theorem State.setPc_r_vecWrites (s : State) (a : Word) : (s.setPc a).r.vecWrites = s.r.vecWrites := rfl
@[simp] theorem State.setPc_r_collSeq (s : State) (a : Word) : (s.setPc a).r.collSeq = s.r.collSeq := rfl
@[simp] theorem State.setPc_r_readySince (s : State) (a : Word) : (s.setPc a).r.readySince = s.r.readySince := rfl
@[simp] theorem State.setPc_r_begun (s : State) (a : Word) : (s.setPc a).r.begun = s.r.begun := rfl
@[simp] theorem State.setPc_r_pages (s : State) (a : Word) : (s.setPc a).r.pages = s.r.pages := rfl
@[simp] theorem State.setPc_r_yielded (s : State) (a : Word) : (s.setPc a).r.yielded = s.r.yielded := rfl

@[simp] theorem State.advance_rs (s : State) : (s.advance).rs = s.rs := rfl
@[simp] theorem State.advance_teams (s : State) : (s.advance).teams = s.teams := rfl
@[simp] theorem State.advance_heats (s : State) : (s.advance).heats = s.heats := rfl
@[simp] theorem State.advance_cores (s : State) : (s.advance).cores = s.cores := rfl
@[simp] theorem State.advance_clusters (s : State) : (s.advance).clusters = s.clusters := rfl
@[simp] theorem State.advance_engines (s : State) : (s.advance).engines = s.engines := rfl
@[simp] theorem State.advance_dies (s : State) : (s.advance).dies = s.dies := rfl
@[simp] theorem State.advance_parts (s : State) : (s.advance).parts = s.parts := rfl
@[simp] theorem State.advance_copies (s : State) : (s.advance).copies = s.copies := rfl
@[simp] theorem State.advance_mem (s : State) : (s.advance).mem = s.mem := rfl
@[simp] theorem State.advance_under (s : State) : (s.advance).under = s.under := rfl
@[simp] theorem State.advance_lines (s : State) : (s.advance).lines = s.lines := rfl
@[simp] theorem State.advance_poison (s : State) : (s.advance).poison = s.poison := rfl
@[simp] theorem State.advance_pacer (s : State) : (s.advance).pacer = s.pacer := rfl
@[simp] theorem State.advance_world (s : State) : (s.advance).world = s.world := rfl
@[simp] theorem State.advance_time (s : State) : (s.advance).time = s.time := rfl
@[simp] theorem State.advance_nextUid (s : State) : (s.advance).nextUid = s.nextUid := rfl
@[simp] theorem State.advance_outbox (s : State) : (s.advance).outbox = s.outbox := rfl
@[simp] theorem State.advance_agenda (s : State) : (s.advance).agenda = s.agenda := rfl
@[simp] theorem State.advance_free (s : State) : (s.advance).free = s.free := rfl
@[simp] theorem State.advance_quota (s : State) : (s.advance).quota = s.quota := rfl
@[simp] theorem State.advance_r_ident (s : State) : (s.advance).r.ident = s.r.ident := rfl
@[simp] theorem State.advance_r_stat (s : State) : (s.advance).r.stat = s.r.stat := rfl
@[simp] theorem State.advance_r_vect (s : State) : (s.advance).r.vect = s.r.vect := rfl
@[simp] theorem State.advance_r_queues (s : State) : (s.advance).r.queues = s.r.queues := rfl
@[simp] theorem State.advance_r_vq (s : State) : (s.advance).r.vq = s.r.vq := rfl
@[simp] theorem State.advance_r_strip (s : State) : (s.advance).r.strip = s.r.strip := rfl
@[simp] theorem State.advance_r_share (s : State) : (s.advance).r.share = s.r.share := rfl
@[simp] theorem State.advance_r_hist (s : State) : (s.advance).r.hist = s.r.hist := rfl
@[simp] theorem State.advance_r_streams (s : State) : (s.advance).r.streams = s.r.streams := rfl
@[simp] theorem State.advance_r_leases (s : State) : (s.advance).r.leases = s.r.leases := rfl
@[simp] theorem State.advance_r_leaseSeq (s : State) : (s.advance).r.leaseSeq = s.r.leaseSeq := rfl
@[simp] theorem State.advance_r_barw (s : State) : (s.advance).r.barw = s.r.barw := rfl
@[simp] theorem State.advance_r_sya (s : State) : (s.advance).r.sya = s.r.sya := rfl
@[simp] theorem State.advance_r_eretPending (s : State) : (s.advance).r.eretPending = s.r.eretPending := rfl
@[simp] theorem State.advance_r_wait (s : State) : (s.advance).r.wait = s.r.wait := rfl
@[simp] theorem State.advance_r_asks (s : State) : (s.advance).r.asks = s.r.asks := rfl
@[simp] theorem State.advance_r_replies (s : State) : (s.advance).r.replies = s.r.replies := rfl
@[simp] theorem State.advance_r_fabric (s : State) : (s.advance).r.fabric = s.r.fabric := rfl
@[simp] theorem State.advance_r_treq (s : State) : (s.advance).r.treq = s.r.treq := rfl
@[simp] theorem State.advance_r_tfmt (s : State) : (s.advance).r.tfmt = s.r.tfmt := rfl
@[simp] theorem State.advance_r_vecWrites (s : State) : (s.advance).r.vecWrites = s.r.vecWrites := rfl
@[simp] theorem State.advance_r_collSeq (s : State) : (s.advance).r.collSeq = s.r.collSeq := rfl
@[simp] theorem State.advance_r_readySince (s : State) : (s.advance).r.readySince = s.r.readySince := rfl
@[simp] theorem State.advance_r_begun (s : State) : (s.advance).r.begun = s.r.begun := rfl
@[simp] theorem State.advance_r_pages (s : State) : (s.advance).r.pages = s.r.pages := rfl
@[simp] theorem State.advance_r_yielded (s : State) : (s.advance).r.yielded = s.r.yielded := rfl

@[simp] theorem State.setVreg_rs (s : State) (n : VR) (v : VReg) : (s.setVreg n v).rs = s.rs := rfl
@[simp] theorem State.setVreg_teams (s : State) (n : VR) (v : VReg) : (s.setVreg n v).teams = s.teams := rfl
@[simp] theorem State.setVreg_heats (s : State) (n : VR) (v : VReg) : (s.setVreg n v).heats = s.heats := rfl
@[simp] theorem State.setVreg_cores (s : State) (n : VR) (v : VReg) : (s.setVreg n v).cores = s.cores := rfl
@[simp] theorem State.setVreg_clusters (s : State) (n : VR) (v : VReg) : (s.setVreg n v).clusters = s.clusters := rfl
@[simp] theorem State.setVreg_engines (s : State) (n : VR) (v : VReg) : (s.setVreg n v).engines = s.engines := rfl
@[simp] theorem State.setVreg_dies (s : State) (n : VR) (v : VReg) : (s.setVreg n v).dies = s.dies := rfl
@[simp] theorem State.setVreg_parts (s : State) (n : VR) (v : VReg) : (s.setVreg n v).parts = s.parts := rfl
@[simp] theorem State.setVreg_copies (s : State) (n : VR) (v : VReg) : (s.setVreg n v).copies = s.copies := rfl
@[simp] theorem State.setVreg_mem (s : State) (n : VR) (v : VReg) : (s.setVreg n v).mem = s.mem := rfl
@[simp] theorem State.setVreg_under (s : State) (n : VR) (v : VReg) : (s.setVreg n v).under = s.under := rfl
@[simp] theorem State.setVreg_lines (s : State) (n : VR) (v : VReg) : (s.setVreg n v).lines = s.lines := rfl
@[simp] theorem State.setVreg_poison (s : State) (n : VR) (v : VReg) : (s.setVreg n v).poison = s.poison := rfl
@[simp] theorem State.setVreg_pacer (s : State) (n : VR) (v : VReg) : (s.setVreg n v).pacer = s.pacer := rfl
@[simp] theorem State.setVreg_world (s : State) (n : VR) (v : VReg) : (s.setVreg n v).world = s.world := rfl
@[simp] theorem State.setVreg_time (s : State) (n : VR) (v : VReg) : (s.setVreg n v).time = s.time := rfl
@[simp] theorem State.setVreg_nextUid (s : State) (n : VR) (v : VReg) : (s.setVreg n v).nextUid = s.nextUid := rfl
@[simp] theorem State.setVreg_outbox (s : State) (n : VR) (v : VReg) : (s.setVreg n v).outbox = s.outbox := rfl
@[simp] theorem State.setVreg_agenda (s : State) (n : VR) (v : VReg) : (s.setVreg n v).agenda = s.agenda := rfl
@[simp] theorem State.setVreg_free (s : State) (n : VR) (v : VReg) : (s.setVreg n v).free = s.free := rfl
@[simp] theorem State.setVreg_quota (s : State) (n : VR) (v : VReg) : (s.setVreg n v).quota = s.quota := rfl
@[simp] theorem State.setVreg_r_ident (s : State) (n : VR) (v : VReg) : (s.setVreg n v).r.ident = s.r.ident := rfl
@[simp] theorem State.setVreg_r_stat (s : State) (n : VR) (v : VReg) : (s.setVreg n v).r.stat = s.r.stat := rfl
@[simp] theorem State.setVreg_r_scal (s : State) (n : VR) (v : VReg) : (s.setVreg n v).r.scal = s.r.scal := rfl
@[simp] theorem State.setVreg_r_queues (s : State) (n : VR) (v : VReg) : (s.setVreg n v).r.queues = s.r.queues := rfl
@[simp] theorem State.setVreg_r_vq (s : State) (n : VR) (v : VReg) : (s.setVreg n v).r.vq = s.r.vq := rfl
@[simp] theorem State.setVreg_r_strip (s : State) (n : VR) (v : VReg) : (s.setVreg n v).r.strip = s.r.strip := rfl
@[simp] theorem State.setVreg_r_share (s : State) (n : VR) (v : VReg) : (s.setVreg n v).r.share = s.r.share := rfl
@[simp] theorem State.setVreg_r_hist (s : State) (n : VR) (v : VReg) : (s.setVreg n v).r.hist = s.r.hist := rfl
@[simp] theorem State.setVreg_r_streams (s : State) (n : VR) (v : VReg) : (s.setVreg n v).r.streams = s.r.streams := rfl
@[simp] theorem State.setVreg_r_leases (s : State) (n : VR) (v : VReg) : (s.setVreg n v).r.leases = s.r.leases := rfl
@[simp] theorem State.setVreg_r_leaseSeq (s : State) (n : VR) (v : VReg) : (s.setVreg n v).r.leaseSeq = s.r.leaseSeq := rfl
@[simp] theorem State.setVreg_r_barw (s : State) (n : VR) (v : VReg) : (s.setVreg n v).r.barw = s.r.barw := rfl
@[simp] theorem State.setVreg_r_sya (s : State) (n : VR) (v : VReg) : (s.setVreg n v).r.sya = s.r.sya := rfl
@[simp] theorem State.setVreg_r_eretPending (s : State) (n : VR) (v : VReg) : (s.setVreg n v).r.eretPending = s.r.eretPending := rfl
@[simp] theorem State.setVreg_r_wait (s : State) (n : VR) (v : VReg) : (s.setVreg n v).r.wait = s.r.wait := rfl
@[simp] theorem State.setVreg_r_asks (s : State) (n : VR) (v : VReg) : (s.setVreg n v).r.asks = s.r.asks := rfl
@[simp] theorem State.setVreg_r_replies (s : State) (n : VR) (v : VReg) : (s.setVreg n v).r.replies = s.r.replies := rfl
@[simp] theorem State.setVreg_r_fabric (s : State) (n : VR) (v : VReg) : (s.setVreg n v).r.fabric = s.r.fabric := rfl
@[simp] theorem State.setVreg_r_treq (s : State) (n : VR) (v : VReg) : (s.setVreg n v).r.treq = s.r.treq := rfl
@[simp] theorem State.setVreg_r_tfmt (s : State) (n : VR) (v : VReg) : (s.setVreg n v).r.tfmt = s.r.tfmt := rfl
@[simp] theorem State.setVreg_r_vecWrites (s : State) (n : VR) (v : VReg) : (s.setVreg n v).r.vecWrites = s.r.vecWrites := rfl
@[simp] theorem State.setVreg_r_collSeq (s : State) (n : VR) (v : VReg) : (s.setVreg n v).r.collSeq = s.r.collSeq := rfl
@[simp] theorem State.setVreg_r_readySince (s : State) (n : VR) (v : VReg) : (s.setVreg n v).r.readySince = s.r.readySince := rfl
@[simp] theorem State.setVreg_r_begun (s : State) (n : VR) (v : VReg) : (s.setVreg n v).r.begun = s.r.begun := rfl
@[simp] theorem State.setVreg_r_pages (s : State) (n : VR) (v : VReg) : (s.setVreg n v).r.pages = s.r.pages := rfl
@[simp] theorem State.setVreg_r_yielded (s : State) (n : VR) (v : VReg) : (s.setVreg n v).r.yielded = s.r.yielded := rfl

@[simp] theorem State.setVl_rs (s : State) (n : Nat) : (s.setVl n).rs = s.rs := rfl
@[simp] theorem State.setVl_teams (s : State) (n : Nat) : (s.setVl n).teams = s.teams := rfl
@[simp] theorem State.setVl_heats (s : State) (n : Nat) : (s.setVl n).heats = s.heats := rfl
@[simp] theorem State.setVl_cores (s : State) (n : Nat) : (s.setVl n).cores = s.cores := rfl
@[simp] theorem State.setVl_clusters (s : State) (n : Nat) : (s.setVl n).clusters = s.clusters := rfl
@[simp] theorem State.setVl_engines (s : State) (n : Nat) : (s.setVl n).engines = s.engines := rfl
@[simp] theorem State.setVl_dies (s : State) (n : Nat) : (s.setVl n).dies = s.dies := rfl
@[simp] theorem State.setVl_parts (s : State) (n : Nat) : (s.setVl n).parts = s.parts := rfl
@[simp] theorem State.setVl_copies (s : State) (n : Nat) : (s.setVl n).copies = s.copies := rfl
@[simp] theorem State.setVl_mem (s : State) (n : Nat) : (s.setVl n).mem = s.mem := rfl
@[simp] theorem State.setVl_under (s : State) (n : Nat) : (s.setVl n).under = s.under := rfl
@[simp] theorem State.setVl_lines (s : State) (n : Nat) : (s.setVl n).lines = s.lines := rfl
@[simp] theorem State.setVl_poison (s : State) (n : Nat) : (s.setVl n).poison = s.poison := rfl
@[simp] theorem State.setVl_pacer (s : State) (n : Nat) : (s.setVl n).pacer = s.pacer := rfl
@[simp] theorem State.setVl_world (s : State) (n : Nat) : (s.setVl n).world = s.world := rfl
@[simp] theorem State.setVl_time (s : State) (n : Nat) : (s.setVl n).time = s.time := rfl
@[simp] theorem State.setVl_nextUid (s : State) (n : Nat) : (s.setVl n).nextUid = s.nextUid := rfl
@[simp] theorem State.setVl_outbox (s : State) (n : Nat) : (s.setVl n).outbox = s.outbox := rfl
@[simp] theorem State.setVl_agenda (s : State) (n : Nat) : (s.setVl n).agenda = s.agenda := rfl
@[simp] theorem State.setVl_free (s : State) (n : Nat) : (s.setVl n).free = s.free := rfl
@[simp] theorem State.setVl_quota (s : State) (n : Nat) : (s.setVl n).quota = s.quota := rfl
@[simp] theorem State.setVl_r_ident (s : State) (n : Nat) : (s.setVl n).r.ident = s.r.ident := rfl
@[simp] theorem State.setVl_r_stat (s : State) (n : Nat) : (s.setVl n).r.stat = s.r.stat := rfl
@[simp] theorem State.setVl_r_scal (s : State) (n : Nat) : (s.setVl n).r.scal = s.r.scal := rfl
@[simp] theorem State.setVl_r_queues (s : State) (n : Nat) : (s.setVl n).r.queues = s.r.queues := rfl
@[simp] theorem State.setVl_r_vq (s : State) (n : Nat) : (s.setVl n).r.vq = s.r.vq := rfl
@[simp] theorem State.setVl_r_strip (s : State) (n : Nat) : (s.setVl n).r.strip = s.r.strip := rfl
@[simp] theorem State.setVl_r_share (s : State) (n : Nat) : (s.setVl n).r.share = s.r.share := rfl
@[simp] theorem State.setVl_r_hist (s : State) (n : Nat) : (s.setVl n).r.hist = s.r.hist := rfl
@[simp] theorem State.setVl_r_streams (s : State) (n : Nat) : (s.setVl n).r.streams = s.r.streams := rfl
@[simp] theorem State.setVl_r_leases (s : State) (n : Nat) : (s.setVl n).r.leases = s.r.leases := rfl
@[simp] theorem State.setVl_r_leaseSeq (s : State) (n : Nat) : (s.setVl n).r.leaseSeq = s.r.leaseSeq := rfl
@[simp] theorem State.setVl_r_barw (s : State) (n : Nat) : (s.setVl n).r.barw = s.r.barw := rfl
@[simp] theorem State.setVl_r_sya (s : State) (n : Nat) : (s.setVl n).r.sya = s.r.sya := rfl
@[simp] theorem State.setVl_r_eretPending (s : State) (n : Nat) : (s.setVl n).r.eretPending = s.r.eretPending := rfl
@[simp] theorem State.setVl_r_wait (s : State) (n : Nat) : (s.setVl n).r.wait = s.r.wait := rfl
@[simp] theorem State.setVl_r_asks (s : State) (n : Nat) : (s.setVl n).r.asks = s.r.asks := rfl
@[simp] theorem State.setVl_r_replies (s : State) (n : Nat) : (s.setVl n).r.replies = s.r.replies := rfl
@[simp] theorem State.setVl_r_fabric (s : State) (n : Nat) : (s.setVl n).r.fabric = s.r.fabric := rfl
@[simp] theorem State.setVl_r_treq (s : State) (n : Nat) : (s.setVl n).r.treq = s.r.treq := rfl
@[simp] theorem State.setVl_r_tfmt (s : State) (n : Nat) : (s.setVl n).r.tfmt = s.r.tfmt := rfl
@[simp] theorem State.setVl_r_vecWrites (s : State) (n : Nat) : (s.setVl n).r.vecWrites = s.r.vecWrites := rfl
@[simp] theorem State.setVl_r_collSeq (s : State) (n : Nat) : (s.setVl n).r.collSeq = s.r.collSeq := rfl
@[simp] theorem State.setVl_r_readySince (s : State) (n : Nat) : (s.setVl n).r.readySince = s.r.readySince := rfl
@[simp] theorem State.setVl_r_begun (s : State) (n : Nat) : (s.setVl n).r.begun = s.r.begun := rfl
@[simp] theorem State.setVl_r_pages (s : State) (n : Nat) : (s.setVl n).r.pages = s.r.pages := rfl
@[simp] theorem State.setVl_r_yielded (s : State) (n : Nat) : (s.setVl n).r.yielded = s.r.yielded := rfl

@[simp] theorem State.setVstart_rs (s : State) (n : Nat) : (s.setVstart n).rs = s.rs := rfl
@[simp] theorem State.setVstart_teams (s : State) (n : Nat) : (s.setVstart n).teams = s.teams := rfl
@[simp] theorem State.setVstart_heats (s : State) (n : Nat) : (s.setVstart n).heats = s.heats := rfl
@[simp] theorem State.setVstart_cores (s : State) (n : Nat) : (s.setVstart n).cores = s.cores := rfl
@[simp] theorem State.setVstart_clusters (s : State) (n : Nat) : (s.setVstart n).clusters = s.clusters := rfl
@[simp] theorem State.setVstart_engines (s : State) (n : Nat) : (s.setVstart n).engines = s.engines := rfl
@[simp] theorem State.setVstart_dies (s : State) (n : Nat) : (s.setVstart n).dies = s.dies := rfl
@[simp] theorem State.setVstart_parts (s : State) (n : Nat) : (s.setVstart n).parts = s.parts := rfl
@[simp] theorem State.setVstart_copies (s : State) (n : Nat) : (s.setVstart n).copies = s.copies := rfl
@[simp] theorem State.setVstart_mem (s : State) (n : Nat) : (s.setVstart n).mem = s.mem := rfl
@[simp] theorem State.setVstart_under (s : State) (n : Nat) : (s.setVstart n).under = s.under := rfl
@[simp] theorem State.setVstart_lines (s : State) (n : Nat) : (s.setVstart n).lines = s.lines := rfl
@[simp] theorem State.setVstart_poison (s : State) (n : Nat) : (s.setVstart n).poison = s.poison := rfl
@[simp] theorem State.setVstart_pacer (s : State) (n : Nat) : (s.setVstart n).pacer = s.pacer := rfl
@[simp] theorem State.setVstart_world (s : State) (n : Nat) : (s.setVstart n).world = s.world := rfl
@[simp] theorem State.setVstart_time (s : State) (n : Nat) : (s.setVstart n).time = s.time := rfl
@[simp] theorem State.setVstart_nextUid (s : State) (n : Nat) : (s.setVstart n).nextUid = s.nextUid := rfl
@[simp] theorem State.setVstart_outbox (s : State) (n : Nat) : (s.setVstart n).outbox = s.outbox := rfl
@[simp] theorem State.setVstart_agenda (s : State) (n : Nat) : (s.setVstart n).agenda = s.agenda := rfl
@[simp] theorem State.setVstart_free (s : State) (n : Nat) : (s.setVstart n).free = s.free := rfl
@[simp] theorem State.setVstart_quota (s : State) (n : Nat) : (s.setVstart n).quota = s.quota := rfl
@[simp] theorem State.setVstart_r_ident (s : State) (n : Nat) : (s.setVstart n).r.ident = s.r.ident := rfl
@[simp] theorem State.setVstart_r_stat (s : State) (n : Nat) : (s.setVstart n).r.stat = s.r.stat := rfl
@[simp] theorem State.setVstart_r_scal (s : State) (n : Nat) : (s.setVstart n).r.scal = s.r.scal := rfl
@[simp] theorem State.setVstart_r_queues (s : State) (n : Nat) : (s.setVstart n).r.queues = s.r.queues := rfl
@[simp] theorem State.setVstart_r_vq (s : State) (n : Nat) : (s.setVstart n).r.vq = s.r.vq := rfl
@[simp] theorem State.setVstart_r_strip (s : State) (n : Nat) : (s.setVstart n).r.strip = s.r.strip := rfl
@[simp] theorem State.setVstart_r_share (s : State) (n : Nat) : (s.setVstart n).r.share = s.r.share := rfl
@[simp] theorem State.setVstart_r_hist (s : State) (n : Nat) : (s.setVstart n).r.hist = s.r.hist := rfl
@[simp] theorem State.setVstart_r_streams (s : State) (n : Nat) : (s.setVstart n).r.streams = s.r.streams := rfl
@[simp] theorem State.setVstart_r_leases (s : State) (n : Nat) : (s.setVstart n).r.leases = s.r.leases := rfl
@[simp] theorem State.setVstart_r_leaseSeq (s : State) (n : Nat) : (s.setVstart n).r.leaseSeq = s.r.leaseSeq := rfl
@[simp] theorem State.setVstart_r_barw (s : State) (n : Nat) : (s.setVstart n).r.barw = s.r.barw := rfl
@[simp] theorem State.setVstart_r_sya (s : State) (n : Nat) : (s.setVstart n).r.sya = s.r.sya := rfl
@[simp] theorem State.setVstart_r_eretPending (s : State) (n : Nat) : (s.setVstart n).r.eretPending = s.r.eretPending := rfl
@[simp] theorem State.setVstart_r_wait (s : State) (n : Nat) : (s.setVstart n).r.wait = s.r.wait := rfl
@[simp] theorem State.setVstart_r_asks (s : State) (n : Nat) : (s.setVstart n).r.asks = s.r.asks := rfl
@[simp] theorem State.setVstart_r_replies (s : State) (n : Nat) : (s.setVstart n).r.replies = s.r.replies := rfl
@[simp] theorem State.setVstart_r_fabric (s : State) (n : Nat) : (s.setVstart n).r.fabric = s.r.fabric := rfl
@[simp] theorem State.setVstart_r_treq (s : State) (n : Nat) : (s.setVstart n).r.treq = s.r.treq := rfl
@[simp] theorem State.setVstart_r_tfmt (s : State) (n : Nat) : (s.setVstart n).r.tfmt = s.r.tfmt := rfl
@[simp] theorem State.setVstart_r_vecWrites (s : State) (n : Nat) : (s.setVstart n).r.vecWrites = s.r.vecWrites := rfl
@[simp] theorem State.setVstart_r_collSeq (s : State) (n : Nat) : (s.setVstart n).r.collSeq = s.r.collSeq := rfl
@[simp] theorem State.setVstart_r_readySince (s : State) (n : Nat) : (s.setVstart n).r.readySince = s.r.readySince := rfl
@[simp] theorem State.setVstart_r_begun (s : State) (n : Nat) : (s.setVstart n).r.begun = s.r.begun := rfl
@[simp] theorem State.setVstart_r_pages (s : State) (n : Nat) : (s.setVstart n).r.pages = s.r.pages := rfl
@[simp] theorem State.setVstart_r_yielded (s : State) (n : Nat) : (s.setVstart n).r.yielded = s.r.yielded := rfl

@[simp] theorem State.raise_rs (s : State) (f : Flags) : (s.raise f).rs = s.rs := rfl
@[simp] theorem State.raise_teams (s : State) (f : Flags) : (s.raise f).teams = s.teams := rfl
@[simp] theorem State.raise_heats (s : State) (f : Flags) : (s.raise f).heats = s.heats := rfl
@[simp] theorem State.raise_cores (s : State) (f : Flags) : (s.raise f).cores = s.cores := rfl
@[simp] theorem State.raise_clusters (s : State) (f : Flags) : (s.raise f).clusters = s.clusters := rfl
@[simp] theorem State.raise_engines (s : State) (f : Flags) : (s.raise f).engines = s.engines := rfl
@[simp] theorem State.raise_dies (s : State) (f : Flags) : (s.raise f).dies = s.dies := rfl
@[simp] theorem State.raise_parts (s : State) (f : Flags) : (s.raise f).parts = s.parts := rfl
@[simp] theorem State.raise_copies (s : State) (f : Flags) : (s.raise f).copies = s.copies := rfl
@[simp] theorem State.raise_mem (s : State) (f : Flags) : (s.raise f).mem = s.mem := rfl
@[simp] theorem State.raise_under (s : State) (f : Flags) : (s.raise f).under = s.under := rfl
@[simp] theorem State.raise_lines (s : State) (f : Flags) : (s.raise f).lines = s.lines := rfl
@[simp] theorem State.raise_poison (s : State) (f : Flags) : (s.raise f).poison = s.poison := rfl
@[simp] theorem State.raise_pacer (s : State) (f : Flags) : (s.raise f).pacer = s.pacer := rfl
@[simp] theorem State.raise_world (s : State) (f : Flags) : (s.raise f).world = s.world := rfl
@[simp] theorem State.raise_time (s : State) (f : Flags) : (s.raise f).time = s.time := rfl
@[simp] theorem State.raise_nextUid (s : State) (f : Flags) : (s.raise f).nextUid = s.nextUid := rfl
@[simp] theorem State.raise_outbox (s : State) (f : Flags) : (s.raise f).outbox = s.outbox := rfl
@[simp] theorem State.raise_agenda (s : State) (f : Flags) : (s.raise f).agenda = s.agenda := rfl
@[simp] theorem State.raise_free (s : State) (f : Flags) : (s.raise f).free = s.free := rfl
@[simp] theorem State.raise_quota (s : State) (f : Flags) : (s.raise f).quota = s.quota := rfl
@[simp] theorem State.raise_r_ident (s : State) (f : Flags) : (s.raise f).r.ident = s.r.ident := rfl
@[simp] theorem State.raise_r_stat (s : State) (f : Flags) : (s.raise f).r.stat = s.r.stat := rfl
@[simp] theorem State.raise_r_scal (s : State) (f : Flags) : (s.raise f).r.scal = s.r.scal := rfl
@[simp] theorem State.raise_r_queues (s : State) (f : Flags) : (s.raise f).r.queues = s.r.queues := rfl
@[simp] theorem State.raise_r_vq (s : State) (f : Flags) : (s.raise f).r.vq = s.r.vq := rfl
@[simp] theorem State.raise_r_strip (s : State) (f : Flags) : (s.raise f).r.strip = s.r.strip := rfl
@[simp] theorem State.raise_r_share (s : State) (f : Flags) : (s.raise f).r.share = s.r.share := rfl
@[simp] theorem State.raise_r_hist (s : State) (f : Flags) : (s.raise f).r.hist = s.r.hist := rfl
@[simp] theorem State.raise_r_streams (s : State) (f : Flags) : (s.raise f).r.streams = s.r.streams := rfl
@[simp] theorem State.raise_r_leases (s : State) (f : Flags) : (s.raise f).r.leases = s.r.leases := rfl
@[simp] theorem State.raise_r_leaseSeq (s : State) (f : Flags) : (s.raise f).r.leaseSeq = s.r.leaseSeq := rfl
@[simp] theorem State.raise_r_barw (s : State) (f : Flags) : (s.raise f).r.barw = s.r.barw := rfl
@[simp] theorem State.raise_r_sya (s : State) (f : Flags) : (s.raise f).r.sya = s.r.sya := rfl
@[simp] theorem State.raise_r_eretPending (s : State) (f : Flags) : (s.raise f).r.eretPending = s.r.eretPending := rfl
@[simp] theorem State.raise_r_wait (s : State) (f : Flags) : (s.raise f).r.wait = s.r.wait := rfl
@[simp] theorem State.raise_r_asks (s : State) (f : Flags) : (s.raise f).r.asks = s.r.asks := rfl
@[simp] theorem State.raise_r_replies (s : State) (f : Flags) : (s.raise f).r.replies = s.r.replies := rfl
@[simp] theorem State.raise_r_fabric (s : State) (f : Flags) : (s.raise f).r.fabric = s.r.fabric := rfl
@[simp] theorem State.raise_r_treq (s : State) (f : Flags) : (s.raise f).r.treq = s.r.treq := rfl
@[simp] theorem State.raise_r_tfmt (s : State) (f : Flags) : (s.raise f).r.tfmt = s.r.tfmt := rfl
@[simp] theorem State.raise_r_vecWrites (s : State) (f : Flags) : (s.raise f).r.vecWrites = s.r.vecWrites := rfl
@[simp] theorem State.raise_r_collSeq (s : State) (f : Flags) : (s.raise f).r.collSeq = s.r.collSeq := rfl
@[simp] theorem State.raise_r_readySince (s : State) (f : Flags) : (s.raise f).r.readySince = s.r.readySince := rfl
@[simp] theorem State.raise_r_begun (s : State) (f : Flags) : (s.raise f).r.begun = s.r.begun := rfl
@[simp] theorem State.raise_r_pages (s : State) (f : Flags) : (s.raise f).r.pages = s.r.pages := rfl
@[simp] theorem State.raise_r_yielded (s : State) (f : Flags) : (s.raise f).r.yielded = s.r.yielded := rfl

@[simp] theorem State.setVect_rs (s : State) (v : Vect) : (s.setVect v).rs = s.rs := rfl
@[simp] theorem State.setVect_teams (s : State) (v : Vect) : (s.setVect v).teams = s.teams := rfl
@[simp] theorem State.setVect_heats (s : State) (v : Vect) : (s.setVect v).heats = s.heats := rfl
@[simp] theorem State.setVect_cores (s : State) (v : Vect) : (s.setVect v).cores = s.cores := rfl
@[simp] theorem State.setVect_clusters (s : State) (v : Vect) : (s.setVect v).clusters = s.clusters := rfl
@[simp] theorem State.setVect_engines (s : State) (v : Vect) : (s.setVect v).engines = s.engines := rfl
@[simp] theorem State.setVect_dies (s : State) (v : Vect) : (s.setVect v).dies = s.dies := rfl
@[simp] theorem State.setVect_parts (s : State) (v : Vect) : (s.setVect v).parts = s.parts := rfl
@[simp] theorem State.setVect_copies (s : State) (v : Vect) : (s.setVect v).copies = s.copies := rfl
@[simp] theorem State.setVect_mem (s : State) (v : Vect) : (s.setVect v).mem = s.mem := rfl
@[simp] theorem State.setVect_under (s : State) (v : Vect) : (s.setVect v).under = s.under := rfl
@[simp] theorem State.setVect_lines (s : State) (v : Vect) : (s.setVect v).lines = s.lines := rfl
@[simp] theorem State.setVect_poison (s : State) (v : Vect) : (s.setVect v).poison = s.poison := rfl
@[simp] theorem State.setVect_pacer (s : State) (v : Vect) : (s.setVect v).pacer = s.pacer := rfl
@[simp] theorem State.setVect_world (s : State) (v : Vect) : (s.setVect v).world = s.world := rfl
@[simp] theorem State.setVect_time (s : State) (v : Vect) : (s.setVect v).time = s.time := rfl
@[simp] theorem State.setVect_nextUid (s : State) (v : Vect) : (s.setVect v).nextUid = s.nextUid := rfl
@[simp] theorem State.setVect_outbox (s : State) (v : Vect) : (s.setVect v).outbox = s.outbox := rfl
@[simp] theorem State.setVect_agenda (s : State) (v : Vect) : (s.setVect v).agenda = s.agenda := rfl
@[simp] theorem State.setVect_free (s : State) (v : Vect) : (s.setVect v).free = s.free := rfl
@[simp] theorem State.setVect_quota (s : State) (v : Vect) : (s.setVect v).quota = s.quota := rfl
@[simp] theorem State.setVect_r_ident (s : State) (v : Vect) : (s.setVect v).r.ident = s.r.ident := rfl
@[simp] theorem State.setVect_r_stat (s : State) (v : Vect) : (s.setVect v).r.stat = s.r.stat := rfl
@[simp] theorem State.setVect_r_scal (s : State) (v : Vect) : (s.setVect v).r.scal = s.r.scal := rfl
@[simp] theorem State.setVect_r_queues (s : State) (v : Vect) : (s.setVect v).r.queues = s.r.queues := rfl
@[simp] theorem State.setVect_r_vq (s : State) (v : Vect) : (s.setVect v).r.vq = s.r.vq := rfl
@[simp] theorem State.setVect_r_strip (s : State) (v : Vect) : (s.setVect v).r.strip = s.r.strip := rfl
@[simp] theorem State.setVect_r_share (s : State) (v : Vect) : (s.setVect v).r.share = s.r.share := rfl
@[simp] theorem State.setVect_r_hist (s : State) (v : Vect) : (s.setVect v).r.hist = s.r.hist := rfl
@[simp] theorem State.setVect_r_streams (s : State) (v : Vect) : (s.setVect v).r.streams = s.r.streams := rfl
@[simp] theorem State.setVect_r_leases (s : State) (v : Vect) : (s.setVect v).r.leases = s.r.leases := rfl
@[simp] theorem State.setVect_r_leaseSeq (s : State) (v : Vect) : (s.setVect v).r.leaseSeq = s.r.leaseSeq := rfl
@[simp] theorem State.setVect_r_barw (s : State) (v : Vect) : (s.setVect v).r.barw = s.r.barw := rfl
@[simp] theorem State.setVect_r_sya (s : State) (v : Vect) : (s.setVect v).r.sya = s.r.sya := rfl
@[simp] theorem State.setVect_r_eretPending (s : State) (v : Vect) : (s.setVect v).r.eretPending = s.r.eretPending := rfl
@[simp] theorem State.setVect_r_wait (s : State) (v : Vect) : (s.setVect v).r.wait = s.r.wait := rfl
@[simp] theorem State.setVect_r_asks (s : State) (v : Vect) : (s.setVect v).r.asks = s.r.asks := rfl
@[simp] theorem State.setVect_r_replies (s : State) (v : Vect) : (s.setVect v).r.replies = s.r.replies := rfl
@[simp] theorem State.setVect_r_fabric (s : State) (v : Vect) : (s.setVect v).r.fabric = s.r.fabric := rfl
@[simp] theorem State.setVect_r_treq (s : State) (v : Vect) : (s.setVect v).r.treq = s.r.treq := rfl
@[simp] theorem State.setVect_r_tfmt (s : State) (v : Vect) : (s.setVect v).r.tfmt = s.r.tfmt := rfl
@[simp] theorem State.setVect_r_vecWrites (s : State) (v : Vect) : (s.setVect v).r.vecWrites = s.r.vecWrites := rfl
@[simp] theorem State.setVect_r_collSeq (s : State) (v : Vect) : (s.setVect v).r.collSeq = s.r.collSeq := rfl
@[simp] theorem State.setVect_r_readySince (s : State) (v : Vect) : (s.setVect v).r.readySince = s.r.readySince := rfl
@[simp] theorem State.setVect_r_begun (s : State) (v : Vect) : (s.setVect v).r.begun = s.r.begun := rfl
@[simp] theorem State.setVect_r_pages (s : State) (v : Vect) : (s.setVect v).r.pages = s.r.pages := rfl
@[simp] theorem State.setVect_r_yielded (s : State) (v : Vect) : (s.setVect v).r.yielded = s.r.yielded := rfl

@[simp] theorem State.mapR_rs (s : State) (f : Runner → Runner) : (s.mapR f).rs = s.rs := rfl
@[simp] theorem State.mapR_teams (s : State) (f : Runner → Runner) : (s.mapR f).teams = s.teams := rfl
@[simp] theorem State.mapR_heats (s : State) (f : Runner → Runner) : (s.mapR f).heats = s.heats := rfl
@[simp] theorem State.mapR_cores (s : State) (f : Runner → Runner) : (s.mapR f).cores = s.cores := rfl
@[simp] theorem State.mapR_clusters (s : State) (f : Runner → Runner) : (s.mapR f).clusters = s.clusters := rfl
@[simp] theorem State.mapR_engines (s : State) (f : Runner → Runner) : (s.mapR f).engines = s.engines := rfl
@[simp] theorem State.mapR_dies (s : State) (f : Runner → Runner) : (s.mapR f).dies = s.dies := rfl
@[simp] theorem State.mapR_parts (s : State) (f : Runner → Runner) : (s.mapR f).parts = s.parts := rfl
@[simp] theorem State.mapR_copies (s : State) (f : Runner → Runner) : (s.mapR f).copies = s.copies := rfl
@[simp] theorem State.mapR_mem (s : State) (f : Runner → Runner) : (s.mapR f).mem = s.mem := rfl
@[simp] theorem State.mapR_under (s : State) (f : Runner → Runner) : (s.mapR f).under = s.under := rfl
@[simp] theorem State.mapR_lines (s : State) (f : Runner → Runner) : (s.mapR f).lines = s.lines := rfl
@[simp] theorem State.mapR_poison (s : State) (f : Runner → Runner) : (s.mapR f).poison = s.poison := rfl
@[simp] theorem State.mapR_pacer (s : State) (f : Runner → Runner) : (s.mapR f).pacer = s.pacer := rfl
@[simp] theorem State.mapR_world (s : State) (f : Runner → Runner) : (s.mapR f).world = s.world := rfl
@[simp] theorem State.mapR_time (s : State) (f : Runner → Runner) : (s.mapR f).time = s.time := rfl
@[simp] theorem State.mapR_nextUid (s : State) (f : Runner → Runner) : (s.mapR f).nextUid = s.nextUid := rfl
@[simp] theorem State.mapR_outbox (s : State) (f : Runner → Runner) : (s.mapR f).outbox = s.outbox := rfl
@[simp] theorem State.mapR_agenda (s : State) (f : Runner → Runner) : (s.mapR f).agenda = s.agenda := rfl
@[simp] theorem State.mapR_free (s : State) (f : Runner → Runner) : (s.mapR f).free = s.free := rfl
@[simp] theorem State.mapR_quota (s : State) (f : Runner → Runner) : (s.mapR f).quota = s.quota := rfl
@[simp] theorem State.mapR_r (s : State) (f : Runner → Runner) : (s.mapR f).r = f s.r := rfl

@[simp] theorem State.completed_rs (s : State) : (s.completed).rs = s.rs := rfl
@[simp] theorem State.completed_teams (s : State) : (s.completed).teams = s.teams := rfl
@[simp] theorem State.completed_heats (s : State) : (s.completed).heats = s.heats := rfl
@[simp] theorem State.completed_cores (s : State) : (s.completed).cores = s.cores := rfl
@[simp] theorem State.completed_clusters (s : State) : (s.completed).clusters = s.clusters := rfl
@[simp] theorem State.completed_engines (s : State) : (s.completed).engines = s.engines := rfl
@[simp] theorem State.completed_dies (s : State) : (s.completed).dies = s.dies := rfl
@[simp] theorem State.completed_parts (s : State) : (s.completed).parts = s.parts := rfl
@[simp] theorem State.completed_copies (s : State) : (s.completed).copies = s.copies := rfl
@[simp] theorem State.completed_mem (s : State) : (s.completed).mem = s.mem := rfl
@[simp] theorem State.completed_under (s : State) : (s.completed).under = s.under := rfl
@[simp] theorem State.completed_lines (s : State) : (s.completed).lines = s.lines := rfl
@[simp] theorem State.completed_poison (s : State) : (s.completed).poison = s.poison := rfl
@[simp] theorem State.completed_pacer (s : State) : (s.completed).pacer = s.pacer := rfl
@[simp] theorem State.completed_world (s : State) : (s.completed).world = s.world := rfl
@[simp] theorem State.completed_time (s : State) : (s.completed).time = s.time := rfl
@[simp] theorem State.completed_nextUid (s : State) : (s.completed).nextUid = s.nextUid := rfl
@[simp] theorem State.completed_outbox (s : State) : (s.completed).outbox = s.outbox := rfl
@[simp] theorem State.completed_agenda (s : State) : (s.completed).agenda = s.agenda := rfl
@[simp] theorem State.completed_free (s : State) : (s.completed).free = s.free := rfl
@[simp] theorem State.completed_quota (s : State) : (s.completed).quota = s.quota := rfl
@[simp] theorem State.completed_r_ident (s : State) : (s.completed).r.ident = s.r.ident := rfl
@[simp] theorem State.completed_r_stat (s : State) : (s.completed).r.stat = s.r.stat := rfl
@[simp] theorem State.completed_r_scal (s : State) : (s.completed).r.scal = s.r.scal := rfl
@[simp] theorem State.completed_r_vect (s : State) : (s.completed).r.vect = s.r.vect := rfl
@[simp] theorem State.completed_r_queues (s : State) : (s.completed).r.queues = s.r.queues := rfl
@[simp] theorem State.completed_r_vq (s : State) : (s.completed).r.vq = s.r.vq := rfl
@[simp] theorem State.completed_r_strip (s : State) : (s.completed).r.strip = s.r.strip := rfl
@[simp] theorem State.completed_r_share (s : State) : (s.completed).r.share = s.r.share := rfl
@[simp] theorem State.completed_r_hist (s : State) : (s.completed).r.hist = s.r.hist := rfl
@[simp] theorem State.completed_r_streams (s : State) : (s.completed).r.streams = s.r.streams := rfl
@[simp] theorem State.completed_r_leases (s : State) : (s.completed).r.leases = s.r.leases := rfl
@[simp] theorem State.completed_r_leaseSeq (s : State) : (s.completed).r.leaseSeq = s.r.leaseSeq := rfl
@[simp] theorem State.completed_r_barw (s : State) : (s.completed).r.barw = s.r.barw := rfl
@[simp] theorem State.completed_r_sya (s : State) : (s.completed).r.sya = s.r.sya := rfl
@[simp] theorem State.completed_r_eretPending (s : State) : (s.completed).r.eretPending = s.r.eretPending := rfl
@[simp] theorem State.completed_r_wait (s : State) : (s.completed).r.wait = s.r.wait := rfl
@[simp] theorem State.completed_r_fabric (s : State) : (s.completed).r.fabric = s.r.fabric := rfl
@[simp] theorem State.completed_r_treq (s : State) : (s.completed).r.treq = s.r.treq := rfl
@[simp] theorem State.completed_r_tfmt (s : State) : (s.completed).r.tfmt = s.r.tfmt := rfl
@[simp] theorem State.completed_r_vecWrites (s : State) : (s.completed).r.vecWrites = s.r.vecWrites := rfl
@[simp] theorem State.completed_r_collSeq (s : State) : (s.completed).r.collSeq = s.r.collSeq := rfl
@[simp] theorem State.completed_r_readySince (s : State) : (s.completed).r.readySince = s.r.readySince := rfl
@[simp] theorem State.completed_r_begun (s : State) : (s.completed).r.begun = s.r.begun := rfl
@[simp] theorem State.completed_r_yielded (s : State) : (s.completed).r.yielded = s.r.yielded := rfl

/-! ### Updates of the module's parts -/

@[simp] theorem State.setCore_r (s : State) (c : Core) : (s.setCore c).r = s.r := rfl
@[simp] theorem State.setCore_rs (s : State) (c : Core) : (s.setCore c).rs = s.rs := rfl
@[simp] theorem State.setCore_teams (s : State) (c : Core) : (s.setCore c).teams = s.teams := rfl
@[simp] theorem State.setCore_heats (s : State) (c : Core) : (s.setCore c).heats = s.heats := rfl
@[simp] theorem State.setCore_clusters (s : State) (c : Core) : (s.setCore c).clusters = s.clusters := rfl
@[simp] theorem State.setCore_engines (s : State) (c : Core) : (s.setCore c).engines = s.engines := rfl
@[simp] theorem State.setCore_dies (s : State) (c : Core) : (s.setCore c).dies = s.dies := rfl
@[simp] theorem State.setCore_parts (s : State) (c : Core) : (s.setCore c).parts = s.parts := rfl
@[simp] theorem State.setCore_copies (s : State) (c : Core) : (s.setCore c).copies = s.copies := rfl
@[simp] theorem State.setCore_mem (s : State) (c : Core) : (s.setCore c).mem = s.mem := rfl
@[simp] theorem State.setCore_under (s : State) (c : Core) : (s.setCore c).under = s.under := rfl
@[simp] theorem State.setCore_lines (s : State) (c : Core) : (s.setCore c).lines = s.lines := rfl
@[simp] theorem State.setCore_poison (s : State) (c : Core) : (s.setCore c).poison = s.poison := rfl
@[simp] theorem State.setCore_pacer (s : State) (c : Core) : (s.setCore c).pacer = s.pacer := rfl
@[simp] theorem State.setCore_world (s : State) (c : Core) : (s.setCore c).world = s.world := rfl
@[simp] theorem State.setCore_time (s : State) (c : Core) : (s.setCore c).time = s.time := rfl
@[simp] theorem State.setCore_nextUid (s : State) (c : Core) : (s.setCore c).nextUid = s.nextUid := rfl
@[simp] theorem State.setCore_outbox (s : State) (c : Core) : (s.setCore c).outbox = s.outbox := rfl
@[simp] theorem State.setCore_agenda (s : State) (c : Core) : (s.setCore c).agenda = s.agenda := rfl
@[simp] theorem State.setCore_free (s : State) (c : Core) : (s.setCore c).free = s.free := rfl
@[simp] theorem State.setCore_quota (s : State) (c : Core) : (s.setCore c).quota = s.quota := rfl

@[simp] theorem State.setCluster_r (s : State) (c : Cluster) : (s.setCluster c).r = s.r := rfl
@[simp] theorem State.setCluster_rs (s : State) (c : Cluster) : (s.setCluster c).rs = s.rs := rfl
@[simp] theorem State.setCluster_teams (s : State) (c : Cluster) : (s.setCluster c).teams = s.teams := rfl
@[simp] theorem State.setCluster_heats (s : State) (c : Cluster) : (s.setCluster c).heats = s.heats := rfl
@[simp] theorem State.setCluster_cores (s : State) (c : Cluster) : (s.setCluster c).cores = s.cores := rfl
@[simp] theorem State.setCluster_engines (s : State) (c : Cluster) : (s.setCluster c).engines = s.engines := rfl
@[simp] theorem State.setCluster_dies (s : State) (c : Cluster) : (s.setCluster c).dies = s.dies := rfl
@[simp] theorem State.setCluster_parts (s : State) (c : Cluster) : (s.setCluster c).parts = s.parts := rfl
@[simp] theorem State.setCluster_copies (s : State) (c : Cluster) : (s.setCluster c).copies = s.copies := rfl
@[simp] theorem State.setCluster_mem (s : State) (c : Cluster) : (s.setCluster c).mem = s.mem := rfl
@[simp] theorem State.setCluster_under (s : State) (c : Cluster) : (s.setCluster c).under = s.under := rfl
@[simp] theorem State.setCluster_lines (s : State) (c : Cluster) : (s.setCluster c).lines = s.lines := rfl
@[simp] theorem State.setCluster_poison (s : State) (c : Cluster) : (s.setCluster c).poison = s.poison := rfl
@[simp] theorem State.setCluster_pacer (s : State) (c : Cluster) : (s.setCluster c).pacer = s.pacer := rfl
@[simp] theorem State.setCluster_world (s : State) (c : Cluster) : (s.setCluster c).world = s.world := rfl
@[simp] theorem State.setCluster_time (s : State) (c : Cluster) : (s.setCluster c).time = s.time := rfl
@[simp] theorem State.setCluster_nextUid (s : State) (c : Cluster) : (s.setCluster c).nextUid = s.nextUid := rfl
@[simp] theorem State.setCluster_outbox (s : State) (c : Cluster) : (s.setCluster c).outbox = s.outbox := rfl
@[simp] theorem State.setCluster_agenda (s : State) (c : Cluster) : (s.setCluster c).agenda = s.agenda := rfl
@[simp] theorem State.setCluster_free (s : State) (c : Cluster) : (s.setCluster c).free = s.free := rfl
@[simp] theorem State.setCluster_quota (s : State) (c : Cluster) : (s.setCluster c).quota = s.quota := rfl

@[simp] theorem State.setDie_r (s : State) (d : Die) : (s.setDie d).r = s.r := rfl
@[simp] theorem State.setDie_rs (s : State) (d : Die) : (s.setDie d).rs = s.rs := rfl
@[simp] theorem State.setDie_teams (s : State) (d : Die) : (s.setDie d).teams = s.teams := rfl
@[simp] theorem State.setDie_heats (s : State) (d : Die) : (s.setDie d).heats = s.heats := rfl
@[simp] theorem State.setDie_cores (s : State) (d : Die) : (s.setDie d).cores = s.cores := rfl
@[simp] theorem State.setDie_clusters (s : State) (d : Die) : (s.setDie d).clusters = s.clusters := rfl
@[simp] theorem State.setDie_engines (s : State) (d : Die) : (s.setDie d).engines = s.engines := rfl
@[simp] theorem State.setDie_parts (s : State) (d : Die) : (s.setDie d).parts = s.parts := rfl
@[simp] theorem State.setDie_copies (s : State) (d : Die) : (s.setDie d).copies = s.copies := rfl
@[simp] theorem State.setDie_mem (s : State) (d : Die) : (s.setDie d).mem = s.mem := rfl
@[simp] theorem State.setDie_under (s : State) (d : Die) : (s.setDie d).under = s.under := rfl
@[simp] theorem State.setDie_lines (s : State) (d : Die) : (s.setDie d).lines = s.lines := rfl
@[simp] theorem State.setDie_poison (s : State) (d : Die) : (s.setDie d).poison = s.poison := rfl
@[simp] theorem State.setDie_pacer (s : State) (d : Die) : (s.setDie d).pacer = s.pacer := rfl
@[simp] theorem State.setDie_world (s : State) (d : Die) : (s.setDie d).world = s.world := rfl
@[simp] theorem State.setDie_time (s : State) (d : Die) : (s.setDie d).time = s.time := rfl
@[simp] theorem State.setDie_nextUid (s : State) (d : Die) : (s.setDie d).nextUid = s.nextUid := rfl
@[simp] theorem State.setDie_outbox (s : State) (d : Die) : (s.setDie d).outbox = s.outbox := rfl
@[simp] theorem State.setDie_agenda (s : State) (d : Die) : (s.setDie d).agenda = s.agenda := rfl
@[simp] theorem State.setDie_free (s : State) (d : Die) : (s.setDie d).free = s.free := rfl
@[simp] theorem State.setDie_quota (s : State) (d : Die) : (s.setDie d).quota = s.quota := rfl

@[simp] theorem State.setTeam_r (s : State) (t : Team) : (s.setTeam t).r = s.r := rfl
@[simp] theorem State.setTeam_rs (s : State) (t : Team) : (s.setTeam t).rs = s.rs := rfl
@[simp] theorem State.setTeam_heats (s : State) (t : Team) : (s.setTeam t).heats = s.heats := rfl
@[simp] theorem State.setTeam_cores (s : State) (t : Team) : (s.setTeam t).cores = s.cores := rfl
@[simp] theorem State.setTeam_clusters (s : State) (t : Team) : (s.setTeam t).clusters = s.clusters := rfl
@[simp] theorem State.setTeam_engines (s : State) (t : Team) : (s.setTeam t).engines = s.engines := rfl
@[simp] theorem State.setTeam_dies (s : State) (t : Team) : (s.setTeam t).dies = s.dies := rfl
@[simp] theorem State.setTeam_parts (s : State) (t : Team) : (s.setTeam t).parts = s.parts := rfl
@[simp] theorem State.setTeam_copies (s : State) (t : Team) : (s.setTeam t).copies = s.copies := rfl
@[simp] theorem State.setTeam_mem (s : State) (t : Team) : (s.setTeam t).mem = s.mem := rfl
@[simp] theorem State.setTeam_under (s : State) (t : Team) : (s.setTeam t).under = s.under := rfl
@[simp] theorem State.setTeam_lines (s : State) (t : Team) : (s.setTeam t).lines = s.lines := rfl
@[simp] theorem State.setTeam_poison (s : State) (t : Team) : (s.setTeam t).poison = s.poison := rfl
@[simp] theorem State.setTeam_pacer (s : State) (t : Team) : (s.setTeam t).pacer = s.pacer := rfl
@[simp] theorem State.setTeam_world (s : State) (t : Team) : (s.setTeam t).world = s.world := rfl
@[simp] theorem State.setTeam_time (s : State) (t : Team) : (s.setTeam t).time = s.time := rfl
@[simp] theorem State.setTeam_nextUid (s : State) (t : Team) : (s.setTeam t).nextUid = s.nextUid := rfl
@[simp] theorem State.setTeam_outbox (s : State) (t : Team) : (s.setTeam t).outbox = s.outbox := rfl
@[simp] theorem State.setTeam_agenda (s : State) (t : Team) : (s.setTeam t).agenda = s.agenda := rfl
@[simp] theorem State.setTeam_free (s : State) (t : Team) : (s.setTeam t).free = s.free := rfl
@[simp] theorem State.setTeam_quota (s : State) (t : Team) : (s.setTeam t).quota = s.quota := rfl

@[simp] theorem State.setHeat_r (s : State) (h : Heat) : (s.setHeat h).r = s.r := rfl
@[simp] theorem State.setHeat_rs (s : State) (h : Heat) : (s.setHeat h).rs = s.rs := rfl
@[simp] theorem State.setHeat_teams (s : State) (h : Heat) : (s.setHeat h).teams = s.teams := rfl
@[simp] theorem State.setHeat_cores (s : State) (h : Heat) : (s.setHeat h).cores = s.cores := rfl
@[simp] theorem State.setHeat_clusters (s : State) (h : Heat) : (s.setHeat h).clusters = s.clusters := rfl
@[simp] theorem State.setHeat_engines (s : State) (h : Heat) : (s.setHeat h).engines = s.engines := rfl
@[simp] theorem State.setHeat_dies (s : State) (h : Heat) : (s.setHeat h).dies = s.dies := rfl
@[simp] theorem State.setHeat_parts (s : State) (h : Heat) : (s.setHeat h).parts = s.parts := rfl
@[simp] theorem State.setHeat_copies (s : State) (h : Heat) : (s.setHeat h).copies = s.copies := rfl
@[simp] theorem State.setHeat_mem (s : State) (h : Heat) : (s.setHeat h).mem = s.mem := rfl
@[simp] theorem State.setHeat_under (s : State) (h : Heat) : (s.setHeat h).under = s.under := rfl
@[simp] theorem State.setHeat_lines (s : State) (h : Heat) : (s.setHeat h).lines = s.lines := rfl
@[simp] theorem State.setHeat_poison (s : State) (h : Heat) : (s.setHeat h).poison = s.poison := rfl
@[simp] theorem State.setHeat_pacer (s : State) (h : Heat) : (s.setHeat h).pacer = s.pacer := rfl
@[simp] theorem State.setHeat_world (s : State) (h : Heat) : (s.setHeat h).world = s.world := rfl
@[simp] theorem State.setHeat_time (s : State) (h : Heat) : (s.setHeat h).time = s.time := rfl
@[simp] theorem State.setHeat_nextUid (s : State) (h : Heat) : (s.setHeat h).nextUid = s.nextUid := rfl
@[simp] theorem State.setHeat_outbox (s : State) (h : Heat) : (s.setHeat h).outbox = s.outbox := rfl
@[simp] theorem State.setHeat_agenda (s : State) (h : Heat) : (s.setHeat h).agenda = s.agenda := rfl
@[simp] theorem State.setHeat_free (s : State) (h : Heat) : (s.setHeat h).free = s.free := rfl
@[simp] theorem State.setHeat_quota (s : State) (h : Heat) : (s.setHeat h).quota = s.quota := rfl

@[simp] theorem State.setPart_r (s : State) (p : Part) : (s.setPart p).r = s.r := rfl
@[simp] theorem State.setPart_rs (s : State) (p : Part) : (s.setPart p).rs = s.rs := rfl
@[simp] theorem State.setPart_teams (s : State) (p : Part) : (s.setPart p).teams = s.teams := rfl
@[simp] theorem State.setPart_heats (s : State) (p : Part) : (s.setPart p).heats = s.heats := rfl
@[simp] theorem State.setPart_cores (s : State) (p : Part) : (s.setPart p).cores = s.cores := rfl
@[simp] theorem State.setPart_clusters (s : State) (p : Part) : (s.setPart p).clusters = s.clusters := rfl
@[simp] theorem State.setPart_engines (s : State) (p : Part) : (s.setPart p).engines = s.engines := rfl
@[simp] theorem State.setPart_dies (s : State) (p : Part) : (s.setPart p).dies = s.dies := rfl
@[simp] theorem State.setPart_copies (s : State) (p : Part) : (s.setPart p).copies = s.copies := rfl
@[simp] theorem State.setPart_mem (s : State) (p : Part) : (s.setPart p).mem = s.mem := rfl
@[simp] theorem State.setPart_under (s : State) (p : Part) : (s.setPart p).under = s.under := rfl
@[simp] theorem State.setPart_lines (s : State) (p : Part) : (s.setPart p).lines = s.lines := rfl
@[simp] theorem State.setPart_poison (s : State) (p : Part) : (s.setPart p).poison = s.poison := rfl
@[simp] theorem State.setPart_pacer (s : State) (p : Part) : (s.setPart p).pacer = s.pacer := rfl
@[simp] theorem State.setPart_world (s : State) (p : Part) : (s.setPart p).world = s.world := rfl
@[simp] theorem State.setPart_time (s : State) (p : Part) : (s.setPart p).time = s.time := rfl
@[simp] theorem State.setPart_nextUid (s : State) (p : Part) : (s.setPart p).nextUid = s.nextUid := rfl
@[simp] theorem State.setPart_outbox (s : State) (p : Part) : (s.setPart p).outbox = s.outbox := rfl
@[simp] theorem State.setPart_agenda (s : State) (p : Part) : (s.setPart p).agenda = s.agenda := rfl
@[simp] theorem State.setPart_free (s : State) (p : Part) : (s.setPart p).free = s.free := rfl
@[simp] theorem State.setPart_quota (s : State) (p : Part) : (s.setPart p).quota = s.quota := rfl

/-! ### The scalar registers and the PC -/

@[simp] theorem State.setReg_pc (s : State) (n : SR) (w : Word) : (s.setReg n w).pc = s.pc := by
  unfold State.pc State.setReg Scal.set; split <;> rfl
@[simp] theorem State.setPc_pc (s : State) (a : Word) : (s.setPc a).pc = a := rfl
@[simp] theorem State.advance_pc (s : State) : s.advance.pc = s.pc + 8 := rfl
@[simp] theorem State.completed_pc (s : State) : s.completed.pc = s.pc := rfl
@[simp] theorem State.setPc_reg (s : State) (a : Word) (n : SR) : (s.setPc a).reg n = s.reg n := rfl
@[simp] theorem State.advance_reg (s : State) (n : SR) : s.advance.reg n = s.reg n := rfl
@[simp] theorem State.completed_reg (s : State) (n : SR) : s.completed.reg n = s.reg n := rfl
@[simp] theorem State.reg_zero (s : State) : s.reg 0 = 0 := rfl

/-- A scalar register after a write (R13): s0 discards it. -/
@[simp] theorem State.setReg_reg (s : State) (n : SR) (w : Word) (m : SR) :
    (s.setReg n w).reg m = if m = n ∧ m ≠ 0 then w else s.reg m := by
  unfold State.reg State.setReg Scal.set Scal.get
  by_cases hn : n = 0
  · subst hn; by_cases hm : m = 0 <;> simp [hm]
  · by_cases hm : m = n
    · subst hm; simp [hn]
    · have h : n.val ≠ m.val := fun h => hm (Fin.ext h.symm)
      simp [hn, hm, Vector.getElem_set_ne _ _ h]

@[simp] theorem State.raise_pc (s : State) (f : Flags) : (s.raise f).pc = s.pc := rfl
@[simp] theorem State.raise_reg (s : State) (f : Flags) (n : SR) : (s.raise f).reg n = s.reg n := rfl
@[simp] theorem State.setVect_vect (s : State) (v : Vect) : (s.setVect v).r.vect = v := rfl
@[simp] theorem State.setVl_vl (s : State) (n : Nat) : (s.setVl n).vl = n := rfl
@[simp] theorem State.setVstart_vstart (s : State) (n : Nat) : (s.setVstart n).vstart = n := rfl
@[simp] theorem State.advance_vreg (s : State) (n : VR) : s.advance.vreg n = s.vreg n := rfl
@[simp] theorem State.completed_vreg (s : State) (n : VR) : s.completed.vreg n = s.vreg n := rfl

/-- A vector register after a write. -/
@[simp] theorem State.setVreg_vreg (s : State) (n : VR) (v : VReg) (m : VR) :
    (s.setVreg n v).vreg m = if m = n then v else s.vreg m := by
  unfold State.vreg State.setVreg
  by_cases hm : m = n
  · subst hm; simp
  · have h : n.val ≠ m.val := fun h => hm (Fin.ext h.symm)
    simp [hm, Vector.getElem_set_ne _ _ h]

/-! ### Finding what was put -/

/-- What was put is found. -/
theorem find?_upsert {α : Type} (p : α → Bool) (x : α) (h : p x) (l : List α) : (upsert p x l).find? p = some x := by
  induction l with
  | nil => simp [upsert, h]
  | cons a t ih => unfold upsert; split <;> simp_all

/-- What others find is as before. -/
theorem find?_upsert_of_apart {α : Type} (p q : α → Bool) (x : α) (hx : ¬q x) (h : ∀ a, p a → ¬q a) (l : List α) :
    (upsert p x l).find? q = l.find? q := by
  induction l with
  | nil => simp [upsert, hx]
  | cons a t ih =>
    unfold upsert
    split
    · rename_i ha; simp [hx, h a ha]
    · simp only [List.find?_cons, ih]

@[simp] theorem State.setCore_core (s : State) (c : Core) : (s.setCore c).core c.id = c := by
  unfold State.core State.setCore; simp only []; rw [find?_upsert _ _ (by simp)]; rfl

/-- A core is the core of its number. -/
theorem State.core_id (s : State) (c : CoreId) : (s.core c).id = c := by
  unfold State.core
  cases h : s.cores.find? fun x => x.id == c with
  | none => rfl
  | some x => simpa using List.find?_some h

@[simp] theorem State.myCore_id (s : State) : s.myCore.id = s.r.ident.core := s.core_id _

/-- The running runner's core put back is the core found. -/
theorem State.setCore_myCore (s : State) (c : Core) (h : c.id = s.r.ident.core) : (s.setCore c).myCore = c := by
  unfold State.myCore
  simp only [State.setCore_r, ← h, State.setCore_core]

end Sys2Proof.Machine
end

