-- ==== Sys2Proof/Laws/Address.lean ====
section
/-! SUPPORT. The checks of an address change nothing but translations held, what walks leave in L2 and in the walker's cache,
and the counter of free values. -/

namespace Sys2Proof.Machine

/-- Two states that differ in what translation leaves alone: translations held and those in use, lines of L2, the walkers'
caches, the counter of free values. -/
def TlbApart (s t : State) : Prop :=
  ∃ cs cl ls un n op, t = { s with cores := cs, clusters := cl, lines := ls, under := un, free := n,
                                   r := { s.r with pages := op } }

theorem TlbApart.refl (s : State) : TlbApart s s := ⟨s.cores, s.clusters, s.lines, s.under, s.free, s.r.pages, rfl⟩

theorem TlbApart.trans {s t u : State} (h : TlbApart s t) (k : TlbApart t u) : TlbApart s u := by
  obtain ⟨a1, a2, a3, a4, a5, a6, rfl⟩ := h
  obtain ⟨b1, b2, b3, b4, b5, b6, rfl⟩ := k
  exact ⟨b1, b2, b3, b4, b5, b6, rfl⟩

theorem TlbApart.setCore (s : State) (c : Core) : TlbApart s (s.setCore c) :=
  ⟨_, s.clusters, s.lines, s.under, s.free, s.r.pages, rfl⟩

theorem TlbApart.setCluster (s : State) (c : Cluster) : TlbApart s (s.setCluster c) :=
  ⟨s.cores, _, s.lines, s.under, s.free, s.r.pages, rfl⟩

theorem TlbApart.free (s : State) (n : Nat) : TlbApart s { s with free := n } :=
  ⟨s.cores, s.clusters, s.lines, s.under, n, s.r.pages, rfl⟩

theorem TlbApart.pages (s : State) (l : List TlbEntry) : TlbApart s (s.mapR fun r => { r with pages := l }) :=
  ⟨s.cores, s.clusters, s.lines, s.under, s.free, l, rfl⟩

theorem TlbApart.holdTlb (s : State) (e : TlbEntry) : TlbApart s (s.holdTlb e) :=
  ⟨_, s.clusters, s.lines, s.under, _, s.r.pages, rfl⟩

theorem TlbApart.usePage (s : State) (e : TlbEntry) : TlbApart s (s.mapR fun r => { r with pages := e :: r.pages }) :=
  ⟨s.cores, s.clusters, s.lines, s.under, s.free, e :: s.r.pages, rfl⟩

theorem TlbApart.touchL2 (s : State) (k : Nat) (sl : Option Nat) (p : Nat) (w a : Bool) : TlbApart s (s.touchL2 k sl p w a) := by
  unfold State.touchL2
  split
  · exact .refl s
  · exact ⟨s.cores, s.clusters, _, _, s.free, s.r.pages, rfl⟩

theorem TlbApart.walked (l : List Nat) (p : Nat) (s : State) :
    TlbApart s (l.foldl (fun s a => s.touchL2 a none p false true) s) := by
  induction l generalizing s with
  | nil => exact .refl s
  | cons a t ih => exact (TlbApart.touchL2 s a none p false true).trans (ih _)

theorem State.walkNow_apart (s : State) (va : Nat) : TlbApart s (s.walkNow va).2 := by
  unfold State.walkNow
  dsimp only
  generalize (if s.r.scal.sysr.ptbase.toNat < 2 ^ 41 then _ else _ : Walked) = w
  have h := (TlbApart.free s w.free).trans (TlbApart.walked w.read s.rid.part { s with free := w.free })
  split
  · exact (h.trans (.setCluster _ _)).trans (.holdTlb _ _)
  · exact h.trans (.setCluster _ _)

theorem State.lookup_apart (s : State) (va : Nat) : TlbApart s (s.lookup va).2 := by
  unfold State.lookup
  split
  · exact s.walkNow_apart va
  · split
    · exact .refl s
    · have h : TlbApart s s.freeBool.2 := .free s _
      dsimp only
      split
      · exact h
      · exact h.trans (State.walkNow_apart _ va)

theorem State.translate_apart (s : State) (va : Nat) : TlbApart s (s.translate va).2 := by
  have h := s.lookup_apart va
  unfold State.translate
  split
  · exact .refl s
  · split
    · rename_i e; rw [e] at h; exact h.trans (.usePage _ _)
    · exact h

theorem State.viaTable_apart (s : State) (va : Nat) (k : AccKind) : TlbApart s (s.viaTable va k).2 := by
  have h := s.translate_apart va
  unfold State.viaTable
  split <;> rename_i e <;> rw [e] at h
  · exact h
  · exact h
  · repeat' split
    all_goals exact h

theorem State.ownerOf_apart (s : State) (g : Region) (va : Nat) : TlbApart s (s.ownerOf g va).2 := by
  have h : TlbApart s s.freeBool.2 := .free s _
  unfold State.ownerOf
  dsimp only
  split
  · exact .refl s
  · exact (TlbApart.holdTlb s _).trans (.usePage _ _)
  · split
    · exact .usePage _ _
    · split
      · exact h.trans (.usePage _ _)
      · exact (h.trans (.holdTlb _ _)).trans (.usePage _ _)

theorem State.locate_apart (s : State) (va : Word) (n : Nat) (k : AccKind) : TlbApart s (s.locate va n k).2 := by
  unfold State.locate
  dsimp only
  repeat' split
  all_goals first
    | exact .refl s
    | exact s.viaTable_apart _ k
    | exact s.ownerOf_apart _ _
    | exact (s.ownerOf_apart _ _).trans (State.viaTable_apart _ _ k)

/-- The checks of R82 change what translation leaves alone. -/
theorem State.resolve_apart (s : State) (va : Word) (n al : Nat) (k : AccKind) : TlbApart s (s.resolve va n al k).2 := by
  have h := s.locate_apart va n k
  unfold State.resolve
  split
  · exact .refl s
  · split
    · exact .refl s
    · split
      · rename_i e; rw [e] at h; split <;> exact h
      · exact h

/-- An address out of range (R82, check 1). -/
theorem State.resolve_range {s : State} {va : Word} {n al : Nat} {k : AccKind} (h : 2 ^ 57 ≤ va.toNat) :
    s.resolve va n al k = (.trap .access, s) := by unfold State.resolve; rw [if_pos h]

/-- A misaligned address in range (R82, check 2). -/
theorem State.resolve_align {s : State} {va : Word} {n al : Nat} {k : AccKind} (h : va.toNat < 2 ^ 57)
    (ha : va.toNat % al ≠ 0) : s.resolve va n al k = (.trap .align, s) := by
  unfold State.resolve; rw [if_neg (by omega), if_pos (by simpa using ha)]

/-- An address of the team's scratchpad window (R296). -/
theorem State.locate_scratch {s : State} {va : Word} {off n : Nat} {k : AccKind}
    (h : va.toNat = 0x01FF000000000000 + off) (ho : off < 2 ^ 32) (hs : off + n ≤ s.scratchSize) (hk : k ≠ .fetch) :
    s.locate va n k = (.found (Loc.scratch s.myTeamUid off).key, s) := by
  have h0 : (va.toNat - 0x01FF000000000000) / 2 ^ 32 = 0 := by omega
  have h1 : va.toNat % 2 ^ 32 = off := by omega
  unfold State.locate
  dsimp only
  rw [if_neg (by omega), if_neg (by omega), if_neg (by omega), if_neg (by omega), h0, h1]
  simp only [windowAcc]
  rw [if_neg (by simp [hk]; omega)]

/-- An access inside the team's scratchpad by its window (R82, R296) finds its bytes and changes nothing. -/
theorem State.resolve_scratch {s : State} {va : Word} {off n al : Nat} {k : AccKind}
    (h : va.toNat = 0x01FF000000000000 + off) (ho : off < 2 ^ 32) (hs : off + n ≤ s.scratchSize)
    (ha : va.toNat % al = 0) (hk : k ≠ .fetch) (hp : s.pinFault va = false) :
    s.resolve va n al k = (.found (Loc.scratch s.myTeamUid off).key, s) := by
  unfold State.resolve
  rw [if_neg (by omega), if_neg (by simp [ha]), State.locate_scratch h ho hs hk]
  simp [hp]

/-- An access that reaches past the end of the team's scratchpad (R82, R296). -/
theorem State.resolve_pastScratch {s : State} {va : Word} {off n al : Nat} {k : AccKind}
    (h : va.toNat = 0x01FF000000000000 + off) (ho : off < 2 ^ 32) (hs : s.scratchSize < off + n)
    (ha : va.toNat % al = 0) : s.resolve va n al k = (.trap .access, s) := by
  have h0 : (va.toNat - 0x01FF000000000000) / 2 ^ 32 = 0 := by omega
  have h1 : va.toNat % 2 ^ 32 = off := by omega
  have hl : s.locate va n k = (.trap .access, s) := by
    unfold State.locate
    dsimp only
    rw [if_neg (by omega), if_neg (by omega), if_neg (by omega), if_neg (by omega), h0, h1]
    simp only [windowAcc]
    rw [if_pos (by simp [hs])]
  unfold State.resolve
  rw [if_neg (by omega), if_neg (by simp [ha]), hl]

/-- The window of a local key. -/
theorem window_of (b o w off : Nat) (hw : w < 32) (ho : off < 2 ^ 32) : (b + (o * 32 + w) * 2 ^ 32 + off - b) / 2 ^ 32 % 32 = w := by
  omega

/-- A key of a team's scratchpad. -/
theorem isScratchKey_scratch {uid off : Nat} (ho : off < 2 ^ 32) : isScratchKey (Loc.scratch uid off).key = true := by
  have h : (Loc.scratch uid off).key = localBase + (uid * 32 + 0) * 2 ^ 32 + off := rfl
  unfold isScratchKey
  rw [h, window_of _ _ _ _ (by decide) ho, Bool.and_eq_true, decide_eq_true_eq]
  exact ⟨by omega, rfl⟩

/-- Checks that find a key without a change. -/
theorem State.check_found {s : State} {va : Word} {n al key : Nat} {k : AccKind} (h : s.resolve va n al k = (.found key, s)) :
    s.check va n al k = .ok (.found key, s) := by unfold State.check; rw [h]

/-- A tile operation's access to a scratchpad key. -/
theorem State.tileKey_of {s : State} {va : Word} {n al key : Nat} {k : AccKind} (h : s.check va n al k = .ok (.found key, s))
    (hk : isScratchKey key = true) : s.tileKey va n al k = .ok (key, s) := by
  unfold State.tileKey
  simp only [h, bind, Except.bind, hk, Bool.true_or, if_true]

/-- A tile operation's access inside the team's scratchpad. -/
theorem State.tileKey_scratch {s : State} {va : Word} {off n al : Nat} {k : AccKind}
    (h : va.toNat = 0x01FF000000000000 + off) (ho : off < 2 ^ 32) (hs : off + n ≤ s.scratchSize)
    (ha : va.toNat % al = 0) (hk : k ≠ .fetch) (hp : s.pinFault va = false) :
    s.tileKey va n al k = .ok ((Loc.scratch s.myTeamUid off).key, s) :=
  State.tileKey_of (State.check_found (State.resolve_scratch h ho hs ha hk hp)) (isScratchKey_scratch ho)

/-- A local window's bytes are the module's own. -/
theorem scratch_notOut {uid off a : Nat} (h : (Loc.scratch uid off).key ≤ a) : isOutKey a = false := by
  simp only [Loc.key, localKey] at h
  simp only [isOutKey, isHostKey, isPeerKey, Bool.or_eq_false_iff, Bool.and_eq_false_iff, decide_eq_false_iff_not]
  constructor <;> right <;> simp only [peerBase, localBase] at * <;> omega

/-- The team's scratchpad serves an access by its window, whatever its bytes come to be. -/
theorem serves_scratch {s : State} {foot : Nat → Prop} {va : Word} {off n : Nat} {k : AccKind}
    (h : va.toNat = 0x01FF000000000000 + off) (ho : off < 2 ^ 32) (hs : off + n ≤ s.scratchSize)
    (ha : va.toNat % n = 0) (hk : k ≠ .fetch) (hq : s.poison = [])
    (hf : Fresh s va (Loc.scratch s.myTeamUid off).key n) : Serves s foot va n k (Loc.scratch s.myTeamUid off).key :=
  ⟨fun mem l _ hl => ⟨l, hl, State.resolve_scratch (s := s.served mem l) h ho hs ha hk hf.2.2.1⟩,
    fun _ ha _ => scratch_notOut ha, by rw [hq]; rfl, hf⟩

/-- The team's scratchpad is reached by its window. -/
theorem reaches_scratch {s : State} {va : Word} {off n : Nat} {k : AccKind}
    (h : va.toNat = 0x01FF000000000000 + off) (ho : off < 2 ^ 32) (hs : off + n ≤ s.scratchSize)
    (ha : va.toNat % n = 0) (hk : k ≠ .fetch) (hq : s.poison = [])
    (hc : ∀ c ∈ s.cores, ∀ a, c.att = some a → a.ops = []) (hf : Fresh s va (Loc.scratch s.myTeamUid off).key n) :
    Reaches s va n k (Loc.scratch s.myTeamUid off).key := by
  have hr := State.resolve_scratch (s := s) (n := n) (al := n) h ho hs ha hk hf.2.2.1
  exact ⟨by rw [hr], by rw [hr]; exact hr, fun _ ha _ => scratch_notOut ha, by rw [hq]; rfl, hc, hf⟩

/-- With no store of the runner's own, an L1 that holds no line, PINSLICE off and no translation in use, bytes are read as
they are. -/
theorem fresh_of {s : State} {va : Word} {key n : Nat} (hh : s.r.hist = []) (hl : s.myCore.l1 = [])
    (hp : bitOf s.r.scal.pinslice 63 = false) (ho : s.r.pages = []) : Fresh s va key n :=
  ⟨by simp [hh], by simp [hl], by simp [State.pinFault, State.pinFaultBy, hp], ho⟩

end Sys2Proof.Machine
end

