-- ==== Sys2Proof/Laws/Bits.lean ====
section
/-! SUPPORT. Fields of bit vectors, and elements of vector registers, after a write. -/

namespace Sys2Proof.Machine

theorem testBit_takeBits {w : Nat} (d : BitVec w) (lo n i : Nat) :
    (takeBits d lo n).testBit i = (decide (i < n) && d.getLsbD (lo + i)) := by
  simp [takeBits, Nat.testBit_mod_two_pow, Nat.testBit_shiftRight, BitVec.getLsbD]

theorem getLsbD_putBits {w : Nat} (d : BitVec w) (lo n x i : Nat) :
    (putBits d lo n x).getLsbD i =
      (decide (i < w) && if lo ≤ i ∧ i < lo + n then x.testBit (i - lo) else d.getLsbD i) := by
  simp only [putBits, BitVec.getLsbD_ofNat, Nat.testBit_xor, Nat.testBit_shiftLeft, testBit_takeBits,
    Nat.testBit_mod_two_pow]
  by_cases hw : i < w <;> by_cases h : lo ≤ i
  · obtain ⟨j, rfl⟩ := Nat.exists_eq_add_of_le h
    by_cases hj : j < n <;> simp [hw, hj, BitVec.getLsbD]
  · simp [hw, h, BitVec.getLsbD]
  · simp [hw]
  · simp [hw]

/-- A field written reads as the low bits of what was written. -/
theorem takeBits_putBits {w : Nat} (d : BitVec w) (lo n x : Nat) (h : lo + n ≤ w) :
    takeBits (putBits d lo n x) lo n = x % 2 ^ n := by
  apply Nat.eq_of_testBit_eq
  intro i
  rw [testBit_takeBits, getLsbD_putBits, Nat.testBit_mod_two_pow]
  by_cases hi : i < n
  · simp [hi, show lo + i < w by omega]
  · simp [hi]

/-- A field apart from the one written is unchanged. -/
theorem takeBits_putBits_of_apart {w : Nat} (d : BitVec w) (lo n x lo' n' : Nat) (h : lo' + n' ≤ lo ∨ lo + n ≤ lo') :
    takeBits (putBits d lo n x) lo' n' = takeBits d lo' n' := by
  apply Nat.eq_of_testBit_eq
  intro i
  rw [testBit_takeBits, testBit_takeBits, getLsbD_putBits]
  by_cases hi : i < n'
  · have h1 : ¬(lo ≤ lo' + i ∧ lo' + i < lo + n) := by omega
    simp only [h1, if_false]
    by_cases hw : lo' + i < w
    · simp [hw]
    · simp [hw, BitVec.getLsbD_of_ge d (lo' + i) (by omega)]
  · simp [hi]

/-- Whether the bits of element j lie in the 16,384 bits that hold the longest vector register (R27). -/
theorem Fmt.apart (f : Fmt) (i j : Nat) (h : i ≠ j) :
    f.bitAt i + f.width ≤ f.bitAt j ∨ f.bitAt j + f.width ≤ f.bitAt i := by
  have lin : ∀ w, w * i + w ≤ w * j ∨ w * j + w ≤ w * i := by
    intro w
    rcases Nat.lt_or_gt_of_ne h with h | h
    · left; nlinarith
    · right; nlinarith
  cases f <;> simp only [Fmt.bitAt] <;> try exact lin _
  simp only [Fmt.width]
  rcases Nat.lt_or_gt_of_ne h with h | h
  · have := Nat.div_le_div_right (c := 32) h.le; omega
  · have := Nat.div_le_div_right (c := 32) h.le; omega

@[simp] theorem VReg.setElem_tag (v : VReg) (f : Fmt) (i x : Nat) : (v.setElem f i x).tag = v.tag := rfl
@[simp] theorem VReg.setElem_side (v : VReg) (f : Fmt) (i x : Nat) : (v.setElem f i x).side = v.side := rfl
@[simp] theorem VReg.setElem_fmt (v : VReg) (f : Fmt) (i x : Nat) : (v.setElem f i x).fmt = v.fmt := rfl

/-- An element written reads as the low bits of what was written; the others are unchanged. -/
theorem VReg.elem_setElem (v : VReg) (f : Fmt) (i x j : Nat) (h : f.bitAt j + f.width ≤ 16384) :
    (v.setElem f i x).elem f j = if j = i then x % 2 ^ f.width else v.elem f j := by
  by_cases hj : j = i
  · subst hj; simp [VReg.elem, VReg.setElem, takeBits_putBits _ _ _ _ h]
  · simp [VReg.elem, VReg.setElem, hj, takeBits_putBits_of_apart _ _ _ _ _ _ (f.apart j i hj)]

/-- Elements written from a list of indices, each by a function of its index. -/
theorem VReg.elem_foldl_setElem (f : Fmt) (g : Nat → Nat) (j : Nat) (h : f.bitAt j + f.width ≤ 16384)
    (l : List Nat) (v : VReg) :
    (l.foldl (fun (v : VReg) (i : Nat) => v.setElem f i (g i)) v).elem f j =
      if j ∈ l then g j % 2 ^ f.width else v.elem f j := by
  induction l generalizing v with
  | nil => simp
  | cons i t ih =>
    rw [List.foldl_cons, ih, VReg.elem_setElem _ _ _ _ _ h]
    by_cases hj : j = i
    · subst hj; simp
    · simp [hj]

/-- Elements made 0 where a test holds. -/
theorem VReg.elem_foldl_zero (f : Fmt) (c : Nat → Bool) (j : Nat) (h : f.bitAt j + f.width ≤ 16384)
    (l : List Nat) (v : VReg) :
    (l.foldl (fun (v : VReg) (i : Nat) => if c i then v.setElem f i 0 else v) v).elem f j =
      if j ∈ l ∧ c j then 0 else v.elem f j := by
  induction l generalizing v with
  | nil => simp
  | cons i t ih =>
    rw [List.foldl_cons, ih]
    by_cases hj : j = i
    · subst hj; by_cases hc : c j <;> simp [hc, VReg.elem_setElem _ _ _ _ _ h]
    · by_cases hc : c i <;> simp [hc, hj, VReg.elem_setElem _ _ _ _ _ h]

/-- What settle does to one element. -/
theorem settle_eq (vt : Word) (f : Fmt) (act : Nat → Bool) (vstart vl vlmax : Nat) (v : VReg) :
    settle vt f act vstart vl vlmax v = (List.range vlmax).foldl (fun (v : VReg) (i : Nat) =>
      if (if i < vl then decide (vstart ≤ i) && !act i && mpOf vt else tpOf vt) then v.setElem f i 0 else v) v := by
  unfold settle
  congr 1
  funext v i
  by_cases h : i < vl <;> simp [h]

/-- What settle leaves in a register (R72). -/
theorem elem_settle (vt : Word) (f : Fmt) (act : Nat → Bool) (vstart vl vlmax : Nat) (v : VReg) (j : Nat)
    (h : f.bitAt j + f.width ≤ 16384) :
    (settle vt f act vstart vl vlmax v).elem f j =
      if j < vlmax ∧ (if j < vl then decide (vstart ≤ j) && !act j && mpOf vt else tpOf vt) then 0 else v.elem f j := by
  rw [settle_eq, VReg.elem_foldl_zero _ _ _ h]; simp

theorem VReg.foldl_keeps {α β : Type} (p : VReg → α) (g : VReg → β → VReg) (h : ∀ v b, p (g v b) = p v) (l : List β)
    (v : VReg) : p (l.foldl g v) = p v := by
  induction l generalizing v with
  | nil => rfl
  | cons b t ih => rw [List.foldl_cons, ih, h]

@[simp] theorem settle_tag (vt : Word) (f : Fmt) (act : Nat → Bool) (vstart vl vlmax : Nat) (v : VReg) :
    (settle vt f act vstart vl vlmax v).tag = v.tag :=
  VReg.foldl_keeps _ _ (fun v b => by split <;> split <;> rfl) _ _

@[simp] theorem settle_side (vt : Word) (f : Fmt) (act : Nat → Bool) (vstart vl vlmax : Nat) (v : VReg) :
    (settle vt f act vstart vl vlmax v).side = v.side :=
  VReg.foldl_keeps _ _ (fun v b => by split <;> split <;> rfl) _ _

end Sys2Proof.Machine
end

