-- ==== Sys2Proof/Laws/Encode.lean ====
section
/-! SUPPORT. The fields of a word put together by the encoder are what the encoder put there. -/

set_option linter.unusedSimpArgs false

namespace Sys2Proof

/-- A field that lies above the low part of a concatenation. -/
theorem field_hi {a b : Nat} (x : BitVec a) (y : BitVec b) (lo len : Nat) (h : b ≤ lo) :
    (x ++ y).extractLsb' lo len = x.extractLsb' (lo - b) len := by
  apply BitVec.eq_of_getLsbD_eq
  intro i hi
  have h1 : ¬ lo + i < b := by omega
  simp [BitVec.getLsbD_append, h1, show lo + i - b = lo - b + i by omega]

/-- A field that lies in the low part of a concatenation. -/
theorem field_lo {a b : Nat} (x : BitVec a) (y : BitVec b) (lo len : Nat) (h : lo + len ≤ b) :
    (x ++ y).extractLsb' lo len = y.extractLsb' lo len := by
  apply BitVec.eq_of_getLsbD_eq
  intro i hi
  have h1 : lo + i < b := by omega
  simp [BitVec.getLsbD_append, h1]

/-- The whole of a bit vector. -/
theorem field_all {a : Nat} (x : BitVec a) (len : Nat) (h : len = a) : x.extractLsb' 0 len = x.setWidth len := by
  subst h; simp

section S
variable (op : BitVec 6) (fn : BitVec 8) (sd sa sb : BitVec 6) (imm : BitVec 32)

@[simp] theorem encS_op : field (encS op fn sd sa sb imm) 58 6 = op := by
  unfold encS
  exact (by simp (disch := decide) only [field_hi, field_lo, Nat.reduceSub, BitVec.extractLsb'_eq_self] :
    BitVec.extractLsb' (n := 6+8+6+6+6+32) 58 6 (op ++ fn ++ sd ++ sa ++ sb ++ imm) = op)
@[simp] theorem encS_fn : field (encS op fn sd sa sb imm) 50 8 = fn := by
  unfold encS
  exact (by simp (disch := decide) only [field_hi, field_lo, Nat.reduceSub, BitVec.extractLsb'_eq_self] :
    BitVec.extractLsb' (n := 6+8+6+6+6+32) 50 8 (op ++ fn ++ sd ++ sa ++ sb ++ imm) = fn)
@[simp] theorem encS_sd : field (encS op fn sd sa sb imm) 44 6 = sd := by
  unfold encS
  exact (by simp (disch := decide) only [field_hi, field_lo, Nat.reduceSub, BitVec.extractLsb'_eq_self] :
    BitVec.extractLsb' (n := 6+8+6+6+6+32) 44 6 (op ++ fn ++ sd ++ sa ++ sb ++ imm) = sd)
@[simp] theorem encS_sa : field (encS op fn sd sa sb imm) 38 6 = sa := by
  unfold encS
  exact (by simp (disch := decide) only [field_hi, field_lo, Nat.reduceSub, BitVec.extractLsb'_eq_self] :
    BitVec.extractLsb' (n := 6+8+6+6+6+32) 38 6 (op ++ fn ++ sd ++ sa ++ sb ++ imm) = sa)
@[simp] theorem encS_sb : field (encS op fn sd sa sb imm) 32 6 = sb := by
  unfold encS
  exact (by simp (disch := decide) only [field_hi, field_lo, Nat.reduceSub, BitVec.extractLsb'_eq_self] :
    BitVec.extractLsb' (n := 6+8+6+6+6+32) 32 6 (op ++ fn ++ sd ++ sa ++ sb ++ imm) = sb)
@[simp] theorem encS_imm : field (encS op fn sd sa sb imm) 0 32 = imm := by
  unfold encS
  exact (by simp (disch := decide) only [field_hi, field_lo, Nat.reduceSub, BitVec.extractLsb'_eq_self] :
    BitVec.extractLsb' (n := 6+8+6+6+6+32) 0 32 (op ++ fn ++ sd ++ sa ++ sb ++ imm) = imm)
@[simp] theorem encS_fn_0_3 : field (encS op fn sd sa sb imm) 50 3 = fn.extractLsb' 0 3 := by
  unfold encS
  exact (by simp (disch := decide) only [field_hi, field_lo, Nat.reduceSub, BitVec.extractLsb'_eq_self] :
    BitVec.extractLsb' (n := 6+8+6+6+6+32) 50 3 (op ++ fn ++ sd ++ sa ++ sb ++ imm) = fn.extractLsb' 0 3)
@[simp] theorem encS_fn_3_5 : field (encS op fn sd sa sb imm) 53 5 = fn.extractLsb' 3 5 := by
  unfold encS
  exact (by simp (disch := decide) only [field_hi, field_lo, Nat.reduceSub, BitVec.extractLsb'_eq_self] :
    BitVec.extractLsb' (n := 6+8+6+6+6+32) 53 5 (op ++ fn ++ sd ++ sa ++ sb ++ imm) = fn.extractLsb' 3 5)
@[simp] theorem encS_fn_5_3 : field (encS op fn sd sa sb imm) 55 3 = fn.extractLsb' 5 3 := by
  unfold encS
  exact (by simp (disch := decide) only [field_hi, field_lo, Nat.reduceSub, BitVec.extractLsb'_eq_self] :
    BitVec.extractLsb' (n := 6+8+6+6+6+32) 55 3 (op ++ fn ++ sd ++ sa ++ sb ++ imm) = fn.extractLsb' 5 3)
@[simp] theorem encS_fn_3_2 : field (encS op fn sd sa sb imm) 53 2 = fn.extractLsb' 3 2 := by
  unfold encS
  exact (by simp (disch := decide) only [field_hi, field_lo, Nat.reduceSub, BitVec.extractLsb'_eq_self] :
    BitVec.extractLsb' (n := 6+8+6+6+6+32) 53 2 (op ++ fn ++ sd ++ sa ++ sb ++ imm) = fn.extractLsb' 3 2)
@[simp] theorem encS_fn_3_1 : field (encS op fn sd sa sb imm) 53 1 = fn.extractLsb' 3 1 := by
  unfold encS
  exact (by simp (disch := decide) only [field_hi, field_lo, Nat.reduceSub, BitVec.extractLsb'_eq_self] :
    BitVec.extractLsb' (n := 6+8+6+6+6+32) 53 1 (op ++ fn ++ sd ++ sa ++ sb ++ imm) = fn.extractLsb' 3 1)
@[simp] theorem encS_fn_4_1 : field (encS op fn sd sa sb imm) 54 1 = fn.extractLsb' 4 1 := by
  unfold encS
  exact (by simp (disch := decide) only [field_hi, field_lo, Nat.reduceSub, BitVec.extractLsb'_eq_self] :
    BitVec.extractLsb' (n := 6+8+6+6+6+32) 54 1 (op ++ fn ++ sd ++ sa ++ sb ++ imm) = fn.extractLsb' 4 1)
@[simp] theorem encS_fn_0_4 : field (encS op fn sd sa sb imm) 50 4 = fn.extractLsb' 0 4 := by
  unfold encS
  exact (by simp (disch := decide) only [field_hi, field_lo, Nat.reduceSub, BitVec.extractLsb'_eq_self] :
    BitVec.extractLsb' (n := 6+8+6+6+6+32) 50 4 (op ++ fn ++ sd ++ sa ++ sb ++ imm) = fn.extractLsb' 0 4)
@[simp] theorem encS_fn_5_2 : field (encS op fn sd sa sb imm) 55 2 = fn.extractLsb' 5 2 := by
  unfold encS
  exact (by simp (disch := decide) only [field_hi, field_lo, Nat.reduceSub, BitVec.extractLsb'_eq_self] :
    BitVec.extractLsb' (n := 6+8+6+6+6+32) 55 2 (op ++ fn ++ sd ++ sa ++ sb ++ imm) = fn.extractLsb' 5 2)
@[simp] theorem encS_fn_7_1 : field (encS op fn sd sa sb imm) 57 1 = fn.extractLsb' 7 1 := by
  unfold encS
  exact (by simp (disch := decide) only [field_hi, field_lo, Nat.reduceSub, BitVec.extractLsb'_eq_self] :
    BitVec.extractLsb' (n := 6+8+6+6+6+32) 57 1 (op ++ fn ++ sd ++ sa ++ sb ++ imm) = fn.extractLsb' 7 1)
@[simp] theorem encS_imm_0_1 : field (encS op fn sd sa sb imm) 0 1 = imm.extractLsb' 0 1 := by
  unfold encS
  exact (by simp (disch := decide) only [field_hi, field_lo, Nat.reduceSub, BitVec.extractLsb'_eq_self] :
    BitVec.extractLsb' (n := 6+8+6+6+6+32) 0 1 (op ++ fn ++ sd ++ sa ++ sb ++ imm) = imm.extractLsb' 0 1)
@[simp] theorem encS_imm_0_2 : field (encS op fn sd sa sb imm) 0 2 = imm.extractLsb' 0 2 := by
  unfold encS
  exact (by simp (disch := decide) only [field_hi, field_lo, Nat.reduceSub, BitVec.extractLsb'_eq_self] :
    BitVec.extractLsb' (n := 6+8+6+6+6+32) 0 2 (op ++ fn ++ sd ++ sa ++ sb ++ imm) = imm.extractLsb' 0 2)
@[simp] theorem encS_imm_2_3 : field (encS op fn sd sa sb imm) 2 3 = imm.extractLsb' 2 3 := by
  unfold encS
  exact (by simp (disch := decide) only [field_hi, field_lo, Nat.reduceSub, BitVec.extractLsb'_eq_self] :
    BitVec.extractLsb' (n := 6+8+6+6+6+32) 2 3 (op ++ fn ++ sd ++ sa ++ sb ++ imm) = imm.extractLsb' 2 3)
@[simp] theorem encS_imm_0_3 : field (encS op fn sd sa sb imm) 0 3 = imm.extractLsb' 0 3 := by
  unfold encS
  exact (by simp (disch := decide) only [field_hi, field_lo, Nat.reduceSub, BitVec.extractLsb'_eq_self] :
    BitVec.extractLsb' (n := 6+8+6+6+6+32) 0 3 (op ++ fn ++ sd ++ sa ++ sb ++ imm) = imm.extractLsb' 0 3)
@[simp] theorem encS_imm_0_4 : field (encS op fn sd sa sb imm) 0 4 = imm.extractLsb' 0 4 := by
  unfold encS
  exact (by simp (disch := decide) only [field_hi, field_lo, Nat.reduceSub, BitVec.extractLsb'_eq_self] :
    BitVec.extractLsb' (n := 6+8+6+6+6+32) 0 4 (op ++ fn ++ sd ++ sa ++ sb ++ imm) = imm.extractLsb' 0 4)
@[simp] theorem encS_imm_4_4 : field (encS op fn sd sa sb imm) 4 4 = imm.extractLsb' 4 4 := by
  unfold encS
  exact (by simp (disch := decide) only [field_hi, field_lo, Nat.reduceSub, BitVec.extractLsb'_eq_self] :
    BitVec.extractLsb' (n := 6+8+6+6+6+32) 4 4 (op ++ fn ++ sd ++ sa ++ sb ++ imm) = imm.extractLsb' 4 4)
@[simp] theorem encS_imm_0_12 : field (encS op fn sd sa sb imm) 0 12 = imm.extractLsb' 0 12 := by
  unfold encS
  exact (by simp (disch := decide) only [field_hi, field_lo, Nat.reduceSub, BitVec.extractLsb'_eq_self] :
    BitVec.extractLsb' (n := 6+8+6+6+6+32) 0 12 (op ++ fn ++ sd ++ sa ++ sb ++ imm) = imm.extractLsb' 0 12)
@[simp] theorem encS_imm_0_16 : field (encS op fn sd sa sb imm) 0 16 = imm.extractLsb' 0 16 := by
  unfold encS
  exact (by simp (disch := decide) only [field_hi, field_lo, Nat.reduceSub, BitVec.extractLsb'_eq_self] :
    BitVec.extractLsb' (n := 6+8+6+6+6+32) 0 16 (op ++ fn ++ sd ++ sa ++ sb ++ imm) = imm.extractLsb' 0 16)
@[simp] theorem encS_imm_8_2 : field (encS op fn sd sa sb imm) 8 2 = imm.extractLsb' 8 2 := by
  unfold encS
  exact (by simp (disch := decide) only [field_hi, field_lo, Nat.reduceSub, BitVec.extractLsb'_eq_self] :
    BitVec.extractLsb' (n := 6+8+6+6+6+32) 8 2 (op ++ fn ++ sd ++ sa ++ sb ++ imm) = imm.extractLsb' 8 2)
@[simp] theorem encS_imm_4_3 : field (encS op fn sd sa sb imm) 4 3 = imm.extractLsb' 4 3 := by
  unfold encS
  exact (by simp (disch := decide) only [field_hi, field_lo, Nat.reduceSub, BitVec.extractLsb'_eq_self] :
    BitVec.extractLsb' (n := 6+8+6+6+6+32) 4 3 (op ++ fn ++ sd ++ sa ++ sb ++ imm) = imm.extractLsb' 4 3)

end S

section V
variable (op : BitVec 6) (fn : BitVec 7) (m : VMod) (vd va vb vc : BitVec 5) (bs : BitVec 1) (ss : BitVec 6) (imm : BitVec 16)

@[simp] theorem encV_op : field (encV op fn m vd va vb vc bs ss imm) 58 6 = op := by
  unfold encV
  exact (by simp (disch := decide) only [field_hi, field_lo, Nat.reduceSub, BitVec.extractLsb'_eq_self] :
    BitVec.extractLsb' (n := 6+1+7+5+5+5+5+1+1+1+3+1+1+6+16) 58 6 (op ++ bit1 m.cv ++ fn ++ vd ++ va ++ vb ++ vc ++ bit1 m.ca ++ bit1 m.cb ++ bit1 m.cc ++ (BitVec.ofFin m.mask.reg : BitVec 3) ++ bit1 m.mask.neg ++ bs ++ ss ++ imm) = op)
@[simp] theorem encV_fn : field (encV op fn m vd va vb vc bs ss imm) 50 7 = fn := by
  unfold encV
  exact (by simp (disch := decide) only [field_hi, field_lo, Nat.reduceSub, BitVec.extractLsb'_eq_self] :
    BitVec.extractLsb' (n := 6+1+7+5+5+5+5+1+1+1+3+1+1+6+16) 50 7 (op ++ bit1 m.cv ++ fn ++ vd ++ va ++ vb ++ vc ++ bit1 m.ca ++ bit1 m.cb ++ bit1 m.cc ++ (BitVec.ofFin m.mask.reg : BitVec 3) ++ bit1 m.mask.neg ++ bs ++ ss ++ imm) = fn)
@[simp] theorem encV_vd : field (encV op fn m vd va vb vc bs ss imm) 45 5 = vd := by
  unfold encV
  exact (by simp (disch := decide) only [field_hi, field_lo, Nat.reduceSub, BitVec.extractLsb'_eq_self] :
    BitVec.extractLsb' (n := 6+1+7+5+5+5+5+1+1+1+3+1+1+6+16) 45 5 (op ++ bit1 m.cv ++ fn ++ vd ++ va ++ vb ++ vc ++ bit1 m.ca ++ bit1 m.cb ++ bit1 m.cc ++ (BitVec.ofFin m.mask.reg : BitVec 3) ++ bit1 m.mask.neg ++ bs ++ ss ++ imm) = vd)
@[simp] theorem encV_va : field (encV op fn m vd va vb vc bs ss imm) 40 5 = va := by
  unfold encV
  exact (by simp (disch := decide) only [field_hi, field_lo, Nat.reduceSub, BitVec.extractLsb'_eq_self] :
    BitVec.extractLsb' (n := 6+1+7+5+5+5+5+1+1+1+3+1+1+6+16) 40 5 (op ++ bit1 m.cv ++ fn ++ vd ++ va ++ vb ++ vc ++ bit1 m.ca ++ bit1 m.cb ++ bit1 m.cc ++ (BitVec.ofFin m.mask.reg : BitVec 3) ++ bit1 m.mask.neg ++ bs ++ ss ++ imm) = va)
@[simp] theorem encV_vb : field (encV op fn m vd va vb vc bs ss imm) 35 5 = vb := by
  unfold encV
  exact (by simp (disch := decide) only [field_hi, field_lo, Nat.reduceSub, BitVec.extractLsb'_eq_self] :
    BitVec.extractLsb' (n := 6+1+7+5+5+5+5+1+1+1+3+1+1+6+16) 35 5 (op ++ bit1 m.cv ++ fn ++ vd ++ va ++ vb ++ vc ++ bit1 m.ca ++ bit1 m.cb ++ bit1 m.cc ++ (BitVec.ofFin m.mask.reg : BitVec 3) ++ bit1 m.mask.neg ++ bs ++ ss ++ imm) = vb)
@[simp] theorem encV_vc : field (encV op fn m vd va vb vc bs ss imm) 30 5 = vc := by
  unfold encV
  exact (by simp (disch := decide) only [field_hi, field_lo, Nat.reduceSub, BitVec.extractLsb'_eq_self] :
    BitVec.extractLsb' (n := 6+1+7+5+5+5+5+1+1+1+3+1+1+6+16) 30 5 (op ++ bit1 m.cv ++ fn ++ vd ++ va ++ vb ++ vc ++ bit1 m.ca ++ bit1 m.cb ++ bit1 m.cc ++ (BitVec.ofFin m.mask.reg : BitVec 3) ++ bit1 m.mask.neg ++ bs ++ ss ++ imm) = vc)
@[simp] theorem encV_bs : field (encV op fn m vd va vb vc bs ss imm) 22 1 = bs := by
  unfold encV
  exact (by simp (disch := decide) only [field_hi, field_lo, Nat.reduceSub, BitVec.extractLsb'_eq_self] :
    BitVec.extractLsb' (n := 6+1+7+5+5+5+5+1+1+1+3+1+1+6+16) 22 1 (op ++ bit1 m.cv ++ fn ++ vd ++ va ++ vb ++ vc ++ bit1 m.ca ++ bit1 m.cb ++ bit1 m.cc ++ (BitVec.ofFin m.mask.reg : BitVec 3) ++ bit1 m.mask.neg ++ bs ++ ss ++ imm) = bs)
@[simp] theorem encV_ss : field (encV op fn m vd va vb vc bs ss imm) 16 6 = ss := by
  unfold encV
  exact (by simp (disch := decide) only [field_hi, field_lo, Nat.reduceSub, BitVec.extractLsb'_eq_self] :
    BitVec.extractLsb' (n := 6+1+7+5+5+5+5+1+1+1+3+1+1+6+16) 16 6 (op ++ bit1 m.cv ++ fn ++ vd ++ va ++ vb ++ vc ++ bit1 m.ca ++ bit1 m.cb ++ bit1 m.cc ++ (BitVec.ofFin m.mask.reg : BitVec 3) ++ bit1 m.mask.neg ++ bs ++ ss ++ imm) = ss)
@[simp] theorem encV_imm : field (encV op fn m vd va vb vc bs ss imm) 0 16 = imm := by
  unfold encV
  exact (by simp (disch := decide) only [field_hi, field_lo, Nat.reduceSub, BitVec.extractLsb'_eq_self] :
    BitVec.extractLsb' (n := 6+1+7+5+5+5+5+1+1+1+3+1+1+6+16) 0 16 (op ++ bit1 m.cv ++ fn ++ vd ++ va ++ vb ++ vc ++ bit1 m.ca ++ bit1 m.cb ++ bit1 m.cc ++ (BitVec.ofFin m.mask.reg : BitVec 3) ++ bit1 m.mask.neg ++ bs ++ ss ++ imm) = imm)

@[simp] theorem encV_cv : field (encV op fn m vd va vb vc bs ss imm) 57 1 = bit1 m.cv := by
  unfold encV
  exact (by simp (disch := decide) only [field_hi, field_lo, Nat.reduceSub, BitVec.extractLsb'_eq_self] :
    BitVec.extractLsb' (n := 6+1+7+5+5+5+5+1+1+1+3+1+1+6+16) 57 1 (op ++ bit1 m.cv ++ fn ++ vd ++ va ++ vb ++ vc ++ bit1 m.ca ++ bit1 m.cb ++ bit1 m.cc ++ (BitVec.ofFin m.mask.reg : BitVec 3) ++ bit1 m.mask.neg ++ bs ++ ss ++ imm) = bit1 m.cv)
@[simp] theorem encV_ca : field (encV op fn m vd va vb vc bs ss imm) 29 1 = bit1 m.ca := by
  unfold encV
  exact (by simp (disch := decide) only [field_hi, field_lo, Nat.reduceSub, BitVec.extractLsb'_eq_self] :
    BitVec.extractLsb' (n := 6+1+7+5+5+5+5+1+1+1+3+1+1+6+16) 29 1 (op ++ bit1 m.cv ++ fn ++ vd ++ va ++ vb ++ vc ++ bit1 m.ca ++ bit1 m.cb ++ bit1 m.cc ++ (BitVec.ofFin m.mask.reg : BitVec 3) ++ bit1 m.mask.neg ++ bs ++ ss ++ imm) = bit1 m.ca)
@[simp] theorem encV_cb : field (encV op fn m vd va vb vc bs ss imm) 28 1 = bit1 m.cb := by
  unfold encV
  exact (by simp (disch := decide) only [field_hi, field_lo, Nat.reduceSub, BitVec.extractLsb'_eq_self] :
    BitVec.extractLsb' (n := 6+1+7+5+5+5+5+1+1+1+3+1+1+6+16) 28 1 (op ++ bit1 m.cv ++ fn ++ vd ++ va ++ vb ++ vc ++ bit1 m.ca ++ bit1 m.cb ++ bit1 m.cc ++ (BitVec.ofFin m.mask.reg : BitVec 3) ++ bit1 m.mask.neg ++ bs ++ ss ++ imm) = bit1 m.cb)
@[simp] theorem encV_cc : field (encV op fn m vd va vb vc bs ss imm) 27 1 = bit1 m.cc := by
  unfold encV
  exact (by simp (disch := decide) only [field_hi, field_lo, Nat.reduceSub, BitVec.extractLsb'_eq_self] :
    BitVec.extractLsb' (n := 6+1+7+5+5+5+5+1+1+1+3+1+1+6+16) 27 1 (op ++ bit1 m.cv ++ fn ++ vd ++ va ++ vb ++ vc ++ bit1 m.ca ++ bit1 m.cb ++ bit1 m.cc ++ (BitVec.ofFin m.mask.reg : BitVec 3) ++ bit1 m.mask.neg ++ bs ++ ss ++ imm) = bit1 m.cc)
@[simp] theorem encV_mk : field (encV op fn m vd va vb vc bs ss imm) 24 3 = BitVec.ofFin m.mask.reg := by
  unfold encV
  exact (by simp (disch := decide) only [field_hi, field_lo, Nat.reduceSub, BitVec.extractLsb'_eq_self] :
    BitVec.extractLsb' (n := 6+1+7+5+5+5+5+1+1+1+3+1+1+6+16) 24 3 (op ++ bit1 m.cv ++ fn ++ vd ++ va ++ vb ++ vc ++ bit1 m.ca ++ bit1 m.cb ++ bit1 m.cc ++ (BitVec.ofFin m.mask.reg : BitVec 3) ++ bit1 m.mask.neg ++ bs ++ ss ++ imm) = BitVec.ofFin m.mask.reg)
@[simp] theorem encV_mn : field (encV op fn m vd va vb vc bs ss imm) 23 1 = bit1 m.mask.neg := by
  unfold encV
  exact (by simp (disch := decide) only [field_hi, field_lo, Nat.reduceSub, BitVec.extractLsb'_eq_self] :
    BitVec.extractLsb' (n := 6+1+7+5+5+5+5+1+1+1+3+1+1+6+16) 23 1 (op ++ bit1 m.cv ++ fn ++ vd ++ va ++ vb ++ vc ++ bit1 m.ca ++ bit1 m.cb ++ bit1 m.cc ++ (BitVec.ofFin m.mask.reg : BitVec 3) ++ bit1 m.mask.neg ++ bs ++ ss ++ imm) = bit1 m.mask.neg)

/-- A flag's bit read back. -/
@[simp] theorem bit1_beq (b : Bool) : (bit1 b == 1) = b := by cases b <;> rfl

@[simp] theorem encV_vmod : vmodOf (encV op fn m vd va vb vc bs ss imm) = m := by
  obtain ⟨cv, ca, cb, cc, ⟨reg, neg⟩⟩ := m
  simp only [vmodOf, encV_cv, encV_ca, encV_cb, encV_cc, encV_mk, encV_mn, bit1_beq]

end V

section M
variable (op : BitVec 6) (fn : BitVec 7) (m : MMod) (vd vi : BitVec 5) (sa sb : BitVec 6) (imm : BitVec 16)

@[simp] theorem encM_op : field (encM op fn m vd vi sa sb imm) 58 6 = op := by
  unfold encM
  exact (by simp (disch := decide) only [field_hi, field_lo, Nat.reduceSub, BitVec.extractLsb'_eq_self] :
    BitVec.extractLsb' (n := 6+1+7+5+5+6+6+1+3+1+2+3+2+16) 58 6 (op ++ bit1 m.cv ++ fn ++ vd ++ vi ++ sa ++ sb ++ bit1 m.ca ++ (BitVec.ofFin m.mask.reg : BitVec 3) ++ bit1 m.mask.neg ++ m.ord.bits ++ m.scope.bits ++ m.hint.bits ++ imm) = op)
@[simp] theorem encM_fn : field (encM op fn m vd vi sa sb imm) 50 7 = fn := by
  unfold encM
  exact (by simp (disch := decide) only [field_hi, field_lo, Nat.reduceSub, BitVec.extractLsb'_eq_self] :
    BitVec.extractLsb' (n := 6+1+7+5+5+6+6+1+3+1+2+3+2+16) 50 7 (op ++ bit1 m.cv ++ fn ++ vd ++ vi ++ sa ++ sb ++ bit1 m.ca ++ (BitVec.ofFin m.mask.reg : BitVec 3) ++ bit1 m.mask.neg ++ m.ord.bits ++ m.scope.bits ++ m.hint.bits ++ imm) = fn)
@[simp] theorem encM_vd : field (encM op fn m vd vi sa sb imm) 45 5 = vd := by
  unfold encM
  exact (by simp (disch := decide) only [field_hi, field_lo, Nat.reduceSub, BitVec.extractLsb'_eq_self] :
    BitVec.extractLsb' (n := 6+1+7+5+5+6+6+1+3+1+2+3+2+16) 45 5 (op ++ bit1 m.cv ++ fn ++ vd ++ vi ++ sa ++ sb ++ bit1 m.ca ++ (BitVec.ofFin m.mask.reg : BitVec 3) ++ bit1 m.mask.neg ++ m.ord.bits ++ m.scope.bits ++ m.hint.bits ++ imm) = vd)
@[simp] theorem encM_vi : field (encM op fn m vd vi sa sb imm) 40 5 = vi := by
  unfold encM
  exact (by simp (disch := decide) only [field_hi, field_lo, Nat.reduceSub, BitVec.extractLsb'_eq_self] :
    BitVec.extractLsb' (n := 6+1+7+5+5+6+6+1+3+1+2+3+2+16) 40 5 (op ++ bit1 m.cv ++ fn ++ vd ++ vi ++ sa ++ sb ++ bit1 m.ca ++ (BitVec.ofFin m.mask.reg : BitVec 3) ++ bit1 m.mask.neg ++ m.ord.bits ++ m.scope.bits ++ m.hint.bits ++ imm) = vi)
@[simp] theorem encM_sa : field (encM op fn m vd vi sa sb imm) 34 6 = sa := by
  unfold encM
  exact (by simp (disch := decide) only [field_hi, field_lo, Nat.reduceSub, BitVec.extractLsb'_eq_self] :
    BitVec.extractLsb' (n := 6+1+7+5+5+6+6+1+3+1+2+3+2+16) 34 6 (op ++ bit1 m.cv ++ fn ++ vd ++ vi ++ sa ++ sb ++ bit1 m.ca ++ (BitVec.ofFin m.mask.reg : BitVec 3) ++ bit1 m.mask.neg ++ m.ord.bits ++ m.scope.bits ++ m.hint.bits ++ imm) = sa)
@[simp] theorem encM_sb : field (encM op fn m vd vi sa sb imm) 28 6 = sb := by
  unfold encM
  exact (by simp (disch := decide) only [field_hi, field_lo, Nat.reduceSub, BitVec.extractLsb'_eq_self] :
    BitVec.extractLsb' (n := 6+1+7+5+5+6+6+1+3+1+2+3+2+16) 28 6 (op ++ bit1 m.cv ++ fn ++ vd ++ vi ++ sa ++ sb ++ bit1 m.ca ++ (BitVec.ofFin m.mask.reg : BitVec 3) ++ bit1 m.mask.neg ++ m.ord.bits ++ m.scope.bits ++ m.hint.bits ++ imm) = sb)
@[simp] theorem encM_imm : field (encM op fn m vd vi sa sb imm) 0 16 = imm := by
  unfold encM
  exact (by simp (disch := decide) only [field_hi, field_lo, Nat.reduceSub, BitVec.extractLsb'_eq_self] :
    BitVec.extractLsb' (n := 6+1+7+5+5+6+6+1+3+1+2+3+2+16) 0 16 (op ++ bit1 m.cv ++ fn ++ vd ++ vi ++ sa ++ sb ++ bit1 m.ca ++ (BitVec.ofFin m.mask.reg : BitVec 3) ++ bit1 m.mask.neg ++ m.ord.bits ++ m.scope.bits ++ m.hint.bits ++ imm) = imm)

@[simp] theorem encM_cv : field (encM op fn m vd vi sa sb imm) 57 1 = bit1 m.cv := by
  unfold encM
  exact (by simp (disch := decide) only [field_hi, field_lo, Nat.reduceSub, BitVec.extractLsb'_eq_self] :
    BitVec.extractLsb' (n := 6+1+7+5+5+6+6+1+3+1+2+3+2+16) 57 1 (op ++ bit1 m.cv ++ fn ++ vd ++ vi ++ sa ++ sb ++ bit1 m.ca ++ (BitVec.ofFin m.mask.reg : BitVec 3) ++ bit1 m.mask.neg ++ m.ord.bits ++ m.scope.bits ++ m.hint.bits ++ imm) = bit1 m.cv)
@[simp] theorem encM_ca : field (encM op fn m vd vi sa sb imm) 27 1 = bit1 m.ca := by
  unfold encM
  exact (by simp (disch := decide) only [field_hi, field_lo, Nat.reduceSub, BitVec.extractLsb'_eq_self] :
    BitVec.extractLsb' (n := 6+1+7+5+5+6+6+1+3+1+2+3+2+16) 27 1 (op ++ bit1 m.cv ++ fn ++ vd ++ vi ++ sa ++ sb ++ bit1 m.ca ++ (BitVec.ofFin m.mask.reg : BitVec 3) ++ bit1 m.mask.neg ++ m.ord.bits ++ m.scope.bits ++ m.hint.bits ++ imm) = bit1 m.ca)
@[simp] theorem encM_mk : field (encM op fn m vd vi sa sb imm) 24 3 = BitVec.ofFin m.mask.reg := by
  unfold encM
  exact (by simp (disch := decide) only [field_hi, field_lo, Nat.reduceSub, BitVec.extractLsb'_eq_self] :
    BitVec.extractLsb' (n := 6+1+7+5+5+6+6+1+3+1+2+3+2+16) 24 3 (op ++ bit1 m.cv ++ fn ++ vd ++ vi ++ sa ++ sb ++ bit1 m.ca ++ (BitVec.ofFin m.mask.reg : BitVec 3) ++ bit1 m.mask.neg ++ m.ord.bits ++ m.scope.bits ++ m.hint.bits ++ imm) = BitVec.ofFin m.mask.reg)
@[simp] theorem encM_mn : field (encM op fn m vd vi sa sb imm) 23 1 = bit1 m.mask.neg := by
  unfold encM
  exact (by simp (disch := decide) only [field_hi, field_lo, Nat.reduceSub, BitVec.extractLsb'_eq_self] :
    BitVec.extractLsb' (n := 6+1+7+5+5+6+6+1+3+1+2+3+2+16) 23 1 (op ++ bit1 m.cv ++ fn ++ vd ++ vi ++ sa ++ sb ++ bit1 m.ca ++ (BitVec.ofFin m.mask.reg : BitVec 3) ++ bit1 m.mask.neg ++ m.ord.bits ++ m.scope.bits ++ m.hint.bits ++ imm) = bit1 m.mask.neg)
@[simp] theorem encM_ord : field (encM op fn m vd vi sa sb imm) 21 2 = m.ord.bits := by
  unfold encM
  exact (by simp (disch := decide) only [field_hi, field_lo, Nat.reduceSub, BitVec.extractLsb'_eq_self] :
    BitVec.extractLsb' (n := 6+1+7+5+5+6+6+1+3+1+2+3+2+16) 21 2 (op ++ bit1 m.cv ++ fn ++ vd ++ vi ++ sa ++ sb ++ bit1 m.ca ++ (BitVec.ofFin m.mask.reg : BitVec 3) ++ bit1 m.mask.neg ++ m.ord.bits ++ m.scope.bits ++ m.hint.bits ++ imm) = m.ord.bits)
@[simp] theorem encM_scope : field (encM op fn m vd vi sa sb imm) 18 3 = m.scope.bits := by
  unfold encM
  exact (by simp (disch := decide) only [field_hi, field_lo, Nat.reduceSub, BitVec.extractLsb'_eq_self] :
    BitVec.extractLsb' (n := 6+1+7+5+5+6+6+1+3+1+2+3+2+16) 18 3 (op ++ bit1 m.cv ++ fn ++ vd ++ vi ++ sa ++ sb ++ bit1 m.ca ++ (BitVec.ofFin m.mask.reg : BitVec 3) ++ bit1 m.mask.neg ++ m.ord.bits ++ m.scope.bits ++ m.hint.bits ++ imm) = m.scope.bits)
@[simp] theorem encM_hint : field (encM op fn m vd vi sa sb imm) 16 2 = m.hint.bits := by
  unfold encM
  exact (by simp (disch := decide) only [field_hi, field_lo, Nat.reduceSub, BitVec.extractLsb'_eq_self] :
    BitVec.extractLsb' (n := 6+1+7+5+5+6+6+1+3+1+2+3+2+16) 16 2 (op ++ bit1 m.cv ++ fn ++ vd ++ vi ++ sa ++ sb ++ bit1 m.ca ++ (BitVec.ofFin m.mask.reg : BitVec 3) ++ bit1 m.mask.neg ++ m.ord.bits ++ m.scope.bits ++ m.hint.bits ++ imm) = m.hint.bits)

@[simp] theorem scopeOf_bits (s : Scope) : scopeOf s.bits = .ok s := by cases s <;> rfl
@[simp] theorem orderOf_bits (o : Order) : orderOf o.bits = o := by cases o <;> rfl
@[simp] theorem hintOf_bits (h : Hint) : hintOf h.bits = .ok h := by cases h <;> rfl

@[simp] theorem encM_mmod : mmodOf (encM op fn m vd vi sa sb imm) = .ok m := by
  obtain ⟨cv, ca, ⟨reg, neg⟩, ord, scope, hint⟩ := m
  simp only [mmodOf, encM_cv, encM_ca, encM_mk, encM_mn, encM_ord, encM_scope, encM_hint, bit1_beq, scopeOf_bits,
    hintOf_bits, orderOf_bits, bind, Except.bind]
  rfl

end M

section T
variable (fn : BitVec 8) (za lt : BitVec 2) (sa sb : BitVec 6) (vi : BitVec 5) (sr : Bool) (imm : BitVec 24)

@[simp] theorem encT_op : field (encT fn za lt sa sb vi sr imm) 58 6 = 0x20#6 := by
  unfold encT
  exact (by simp (disch := decide) only [field_hi, field_lo, Nat.reduceSub, BitVec.extractLsb'_eq_self] :
    BitVec.extractLsb' (n := 6+8+2+2+6+6+5+1+1+3+24) 58 6 (0x20#6 ++ fn ++ za ++ lt ++ sa ++ sb ++ vi ++ 0#1 ++ bit1 sr ++ 0#3 ++ imm) = 0x20#6)
@[simp] theorem encT_fn : field (encT fn za lt sa sb vi sr imm) 50 8 = fn := by
  unfold encT
  exact (by simp (disch := decide) only [field_hi, field_lo, Nat.reduceSub, BitVec.extractLsb'_eq_self] :
    BitVec.extractLsb' (n := 6+8+2+2+6+6+5+1+1+3+24) 50 8 (0x20#6 ++ fn ++ za ++ lt ++ sa ++ sb ++ vi ++ 0#1 ++ bit1 sr ++ 0#3 ++ imm) = fn)
@[simp] theorem encT_za : field (encT fn za lt sa sb vi sr imm) 48 2 = za := by
  unfold encT
  exact (by simp (disch := decide) only [field_hi, field_lo, Nat.reduceSub, BitVec.extractLsb'_eq_self] :
    BitVec.extractLsb' (n := 6+8+2+2+6+6+5+1+1+3+24) 48 2 (0x20#6 ++ fn ++ za ++ lt ++ sa ++ sb ++ vi ++ 0#1 ++ bit1 sr ++ 0#3 ++ imm) = za)
@[simp] theorem encT_lt : field (encT fn za lt sa sb vi sr imm) 46 2 = lt := by
  unfold encT
  exact (by simp (disch := decide) only [field_hi, field_lo, Nat.reduceSub, BitVec.extractLsb'_eq_self] :
    BitVec.extractLsb' (n := 6+8+2+2+6+6+5+1+1+3+24) 46 2 (0x20#6 ++ fn ++ za ++ lt ++ sa ++ sb ++ vi ++ 0#1 ++ bit1 sr ++ 0#3 ++ imm) = lt)
@[simp] theorem encT_sa : field (encT fn za lt sa sb vi sr imm) 40 6 = sa := by
  unfold encT
  exact (by simp (disch := decide) only [field_hi, field_lo, Nat.reduceSub, BitVec.extractLsb'_eq_self] :
    BitVec.extractLsb' (n := 6+8+2+2+6+6+5+1+1+3+24) 40 6 (0x20#6 ++ fn ++ za ++ lt ++ sa ++ sb ++ vi ++ 0#1 ++ bit1 sr ++ 0#3 ++ imm) = sa)
@[simp] theorem encT_sb : field (encT fn za lt sa sb vi sr imm) 34 6 = sb := by
  unfold encT
  exact (by simp (disch := decide) only [field_hi, field_lo, Nat.reduceSub, BitVec.extractLsb'_eq_self] :
    BitVec.extractLsb' (n := 6+8+2+2+6+6+5+1+1+3+24) 34 6 (0x20#6 ++ fn ++ za ++ lt ++ sa ++ sb ++ vi ++ 0#1 ++ bit1 sr ++ 0#3 ++ imm) = sb)
@[simp] theorem encT_vi : field (encT fn za lt sa sb vi sr imm) 29 5 = vi := by
  unfold encT
  exact (by simp (disch := decide) only [field_hi, field_lo, Nat.reduceSub, BitVec.extractLsb'_eq_self] :
    BitVec.extractLsb' (n := 6+8+2+2+6+6+5+1+1+3+24) 29 5 (0x20#6 ++ fn ++ za ++ lt ++ sa ++ sb ++ vi ++ 0#1 ++ bit1 sr ++ 0#3 ++ imm) = vi)
@[simp] theorem encT_imm : field (encT fn za lt sa sb vi sr imm) 0 24 = imm := by
  unfold encT
  exact (by simp (disch := decide) only [field_hi, field_lo, Nat.reduceSub, BitVec.extractLsb'_eq_self] :
    BitVec.extractLsb' (n := 6+8+2+2+6+6+5+1+1+3+24) 0 24 (0x20#6 ++ fn ++ za ++ lt ++ sa ++ sb ++ vi ++ 0#1 ++ bit1 sr ++ 0#3 ++ imm) = imm)
@[simp] theorem encT_sr : field (encT fn za lt sa sb vi sr imm) 27 1 = bit1 sr := by
  unfold encT
  exact (by simp (disch := decide) only [field_hi, field_lo, Nat.reduceSub, BitVec.extractLsb'_eq_self] :
    BitVec.extractLsb' (n := 6+8+2+2+6+6+5+1+1+3+24) 27 1 (0x20#6 ++ fn ++ za ++ lt ++ sa ++ sb ++ vi ++ 0#1 ++ bit1 sr ++ 0#3 ++ imm) = bit1 sr)

end T

@[simp] theorem srOf_srBits (r : SR) : srOf (srBits r) = r := rfl
@[simp] theorem vrOf_vrBits (r : VR) : vrOf (vrBits r) = r := rfl

end Sys2Proof
end

