-- ==== Sys2Proof/Laws/Memory.lean ====
section
/-! SUPPORT. Memory keeps its canonical form, and a byte written is the byte read. -/

namespace Sys2Proof.Machine

/-- A later bound is a weaker one. -/
theorem cellsAbove_mono {lo hi : Nat} (h : lo ≤ hi) : ∀ {m : List Host.Cell}, cellsAbove hi m → cellsAbove lo m
  | [], _ => rfl
  | (a, b) :: t, hm => by
    simp only [cellsAbove, Bool.and_eq_true, decide_eq_true_eq] at hm ⊢
    exact ⟨⟨by omega, hm.1.2⟩, hm.2⟩

/-- A key below the bound is not listed. -/
theorem cellGet_below {lo k : Nat} (h : k < lo) : ∀ {m : List Host.Cell}, cellsAbove lo m → cellGet m k = 0
  | [], _ => rfl
  | (a, b) :: t, hm => by
    simp only [cellsAbove, Bool.and_eq_true, decide_eq_true_eq] at hm
    have : a ≠ k := by omega
    simp only [cellGet, this, if_false]
    exact cellGet_below (show k < a + 1 by omega) hm.2

/-- A byte written at or above the bound keeps the form. -/
theorem cellsAbove_cellPut {lo : Nat} (k : Nat) (b : Byte) (hk : lo ≤ k) :
    ∀ {m : List Host.Cell}, cellsAbove lo m → cellsAbove lo (cellPut m k b)
  | [], _ => by
    unfold cellPut
    split
    · rfl
    · simp_all [cellsAbove]
  | (a, x) :: t, hm => by
    simp only [cellsAbove, Bool.and_eq_true, decide_eq_true_eq] at hm
    unfold cellPut
    split
    · split
      · simp only [cellsAbove, Bool.and_eq_true, decide_eq_true_eq]; exact ⟨hm.1, hm.2⟩
      · rename_i h1 h2
        simp only [cellsAbove, Bool.and_eq_true, decide_eq_true_eq]
        exact ⟨⟨hk, by simpa using h2⟩, ⟨by omega, hm.1.2⟩, hm.2⟩
    · split
      · split
        · exact cellsAbove_mono (by omega) hm.2
        · rename_i h1 h2 h3
          simp only [cellsAbove, Bool.and_eq_true, decide_eq_true_eq]
          refine ⟨⟨hk, by simpa using h3⟩, ?_⟩
          rw [h2]; exact hm.2
      · simp only [cellsAbove, Bool.and_eq_true, decide_eq_true_eq]
        exact ⟨⟨hm.1.1, hm.1.2⟩, cellsAbove_cellPut k b (by omega) hm.2⟩

/-- A byte written keeps the canonical form. -/
theorem wf_cellPut {m : List Host.Cell} (k : Nat) (b : Byte) (h : Memory.wf m) : Memory.wf (cellPut m k b) :=
  cellsAbove_cellPut k b (Nat.zero_le k) h

/-- Bytes written keep the canonical form. -/
theorem wf_cellsPut (l : List Host.Cell) : ∀ {m : List Host.Cell}, Memory.wf m → Memory.wf (cellsPut m l) := by
  induction l with
  | nil => exact fun h => h
  | cons c t ih => exact fun h => ih (wf_cellPut c.1 c.2 h)

/-- Bytes taken out keep the bound. -/
theorem cellsAbove_filter (p : Host.Cell → Bool) : ∀ {lo : Nat} {m : List Host.Cell}, cellsAbove lo m → cellsAbove lo (m.filter p)
  | _, [], _ => rfl
  | lo, (a, b) :: t, hm => by
    simp only [cellsAbove, Bool.and_eq_true, decide_eq_true_eq] at hm
    rw [List.filter_cons]
    split
    · simp only [cellsAbove, Bool.and_eq_true, decide_eq_true_eq]
      exact ⟨hm.1, cellsAbove_filter p hm.2⟩
    · exact cellsAbove_filter p (cellsAbove_mono (by omega) hm.2)

/-- Bytes taken out keep the canonical form (R303: what stood where a page goes). -/
theorem wf_filter {m : List Host.Cell} (p : Host.Cell → Bool) (h : Memory.wf m) : Memory.wf (m.filter p) :=
  cellsAbove_filter p h

/-- Losing a line's dirty bytes keeps the canonical form. -/
theorem wf_loseLine {m : List Host.Cell} (under : List Host.Cell) (line : Nat) (h : Memory.wf m) :
    Memory.wf (loseLine m under line) := wf_cellsPut _ h

theorem cellGet_cellPut_above {lo : Nat} (k : Nat) (b : Byte) (a : Nat) (hk : lo ≤ k) :
    ∀ {m : List Host.Cell}, cellsAbove lo m → cellGet (cellPut m k b) a = if a = k then b else cellGet m a
  | [], _ => by
    unfold cellPut
    by_cases hb : b = 0
    · simp [hb, cellGet]
    · rw [if_neg hb]
      by_cases ha : a = k
      · simp [ha, cellGet]
      · simp [ha, cellGet, Ne.symm ha]
  | (c, x) :: t, hm => by
    have hx := hm
    simp only [cellsAbove, Bool.and_eq_true, decide_eq_true_eq] at hm
    unfold cellPut
    split
    · rename_i h1
      split
      · rename_i hb
        by_cases ha : a = k
        · subst ha
          simp only [hb, if_true]
          exact cellGet_below h1 (m := (c, x) :: t)
            (by simp only [cellsAbove, Bool.and_eq_true, decide_eq_true_eq]; exact ⟨⟨Nat.le_refl c, hm.1.2⟩, hm.2⟩)
        · simp [ha]
      · by_cases ha : a = k
        · simp [ha, cellGet]
        · simp [ha, cellGet, Ne.symm ha]
    · split
      · rename_i h1 h2
        subst h2
        split
        · rename_i hb
          by_cases ha : a = k
          · subst ha; simp only [hb, if_true]; exact cellGet_below (show a < a + 1 by omega) hm.2
          · simp [ha, cellGet, Ne.symm ha]
        · by_cases ha : a = k
          · simp [ha, cellGet]
          · simp [ha, cellGet, Ne.symm ha]
      · rename_i h1 h2
        by_cases hc : c = a
        · subst hc; simp [cellGet, Ne.symm h2]
        · simp only [cellGet, hc, if_false]
          exact cellGet_cellPut_above k b a (by omega) hm.2

/-- A byte written is the byte read; every other is as before. -/
theorem cellGet_cellPut {m : List Host.Cell} (h : Memory.wf m) (k : Nat) (b : Byte) (a : Nat) :
    cellGet (cellPut m k b) a = if a = k then b else cellGet m a := cellGet_cellPut_above k b a (Nat.zero_le k) h

/-- After bytes are written in order, a byte is the last one written to it, or as before. -/
theorem cellGet_cellsPut (l : List Host.Cell) (a : Nat) :
    ∀ {m : List Host.Cell}, Memory.wf m → cellGet (cellsPut m l) a = overlay l a (cellGet m a) := by
  induction l with
  | nil => intro m _; rfl
  | cons c t ih =>
    intro m h
    obtain ⟨k, b⟩ := c
    simp only [cellsPut]
    rw [ih (wf_cellPut k b h), cellGet_cellPut h]
    simp only [overlay, List.foldl_cons]
    congr 1
    by_cases hk : a = k
    · simp [hk]
    · simp [hk, Ne.symm hk]

/-- Cells none of which is at a key leave its byte. -/
theorem overlay_of_absent (l : List Host.Cell) (a : Nat) (b : Byte) (h : ∀ c ∈ l, c.1 ≠ a) : overlay l a b = b := by
  induction l generalizing b with
  | nil => rfl
  | cons c t ih =>
    simp only [overlay, List.foldl_cons, h c (by simp), if_false]
    exact ih b fun d hd => h d (by simp [hd])

/-- The keys of bytes laid at consecutive keys. -/
theorem mem_cellsFrom (k : Nat) (bs : List Byte) (c : Host.Cell) (h : c ∈ cellsFrom k bs) :
    k ≤ c.1 ∧ c.1 < k + bs.length := by
  induction bs generalizing k with
  | nil => simp [cellsFrom] at h
  | cons b t ih =>
    simp only [cellsFrom, List.mem_cons] at h
    rcases h with rfl | h
    · simp
    · have := ih (k + 1) h; simp only [List.length_cons]; omega

/-- Bytes laid at consecutive keys, read back one by one. -/
theorem overlay_cellsFrom (bs : List Byte) (k i : Nat) (x : Byte) (hi : i < bs.length) :
    overlay (cellsFrom k bs) (k + i) x = bs[i] := by
  induction bs generalizing k i x with
  | nil => simp at hi
  | cons b t ih =>
    cases i with
    | zero =>
      simp only [cellsFrom, overlay, List.foldl_cons, Nat.add_zero, if_true, List.getElem_cons_zero]
      exact overlay_of_absent _ _ _ fun c hc => by have := mem_cellsFrom _ _ _ hc; omega
    | succ i =>
      simp only [cellsFrom, overlay, List.foldl_cons, List.getElem_cons_succ]
      have := ih (k + 1) i (if k = k + (i + 1) then b else x) (by simpa using hi)
      rw [show k + 1 + i = k + (i + 1) by omega] at this
      exact this

/-- Bytes outside those laid at consecutive keys. -/
theorem overlay_cellsFrom_apart (bs : List Byte) (k a : Nat) (x : Byte) (h : a < k ∨ k + bs.length ≤ a) :
    overlay (cellsFrom k bs) a x = x :=
  overlay_of_absent _ _ _ fun c hc => by have := mem_cellsFrom _ _ _ hc; omega

end Sys2Proof.Machine
end

