-- ==== Sys2Proof/Laws/Vector.lean ====
section
/-! SUPPORT. What the shared operations of the vector side do: the checks, plans carried out, passing an instruction. -/

namespace Sys2Proof.Machine

/-! ### Registers -/

@[simp] theorem Vect.reg_setReg (v : Vect) (n : VR) (x : VReg) (m : VR) :
    (v.setReg n x).reg m = if m = n then x else v.reg m := by
  unfold Vect.reg Vect.setReg
  by_cases hm : m = n
  · subst hm; simp
  · have h : n.val ≠ m.val := fun h => hm (Fin.ext h.symm)
    simp [hm, Vector.getElem_set_ne _ _ h]

/-- The vector side but its registers. -/
def Vect.rest (v : Vect) : Nat × Nat × Word × BitVec 5 × Nat × Word := (v.vl, v.vstart, v.vtype, v.vflags, v.vlen, v.rngctr)

@[simp] theorem Vect.rest_setReg (v : Vect) (n : VR) (x : VReg) : (v.setReg n x).rest = v.rest := rfl
@[simp] theorem Vect.rest_putElem (v : Vect) (n : VR) (f : Fmt) (i x : Nat) : (v.putElem n f i x).rest = v.rest := rfl

/-- Elements of one register written one after the other. -/
theorem Vect.foldl_putElem (d : VR) (f : Fmt) (g : Nat → Nat) (l : List Nat) (v : Vect) (m : VR) :
    ((l.foldl (fun (v : Vect) (j : Nat) => v.putElem d f j (g j)) v).reg m =
      if m = d then l.foldl (fun (x : VReg) (j : Nat) => x.setElem f j (g j)) (v.reg d) else v.reg m) ∧
    (l.foldl (fun (v : Vect) (j : Nat) => v.putElem d f j (g j)) v).rest = v.rest := by
  induction l generalizing v with
  | nil => by_cases h : m = d <;> simp [h]
  | cons a t ih =>
    refine ⟨?_, ?_⟩
    · rw [List.foldl_cons, (ih _).1]
      by_cases h : m = d <;> simp [h, Vect.putElem]
    · rw [List.foldl_cons, (ih _).2]; rfl

/-! ### Checks -/

/-- The checks of R116 pass. -/
theorem State.tagChecks_ok {s : State} {n : Names} {m : Mask} {byVl : Bool} (hm : MaskOk s m)
    (hv : byVl = true → s.vl ≤ s.vlmaxOf n) : s.tagChecks n m true byVl = .ok (s.vlmaxOf n, s) := by
  unfold State.tagChecks
  have h1 : (m.reg != 0 && (s.vregN m.reg.val).fmt != some .mask) = false := by
    rcases hm with h | h <;> simp [h]
  rw [h1]
  cases byVl with
  | false => rfl
  | true =>
    have h2 := hv rfl
    simp [Nat.not_lt.mpr h2]

/-! ### Plans -/

theorem runItems_all (vt : Word) (l : List Item) (v : Vect) (fl : Flags)
    (h : ∀ i ∈ l, trapEnabled vt i.flags = false) :
    runItems vt none none l v fl = (l.foldl (fun v i => i.put v) v, l.foldl (fun fl i => fl.or i.flags) fl, .all) := by
  induction l generalizing v fl with
  | nil => rfl
  | cons a t ih =>
    have ha := h a (by simp)
    simp only [runItems, Item.beyond, Option.map_none, Option.getD_none, ha, List.foldl_cons]
    exact ih _ _ fun i hi => h i (by simp [hi])

/-- A plan that no queue blocks, no flag stops and the turn does not cut: its acts, its end, its flags; VSTART is 0. -/
theorem State.runPlan_ok {s : State} (i : Instr) (p : VPlan) (hq : s.blockedBy p = none) (hw : s.world.badLanes = [])
    (hb : s.r.begun = none) (hc : s.quota = none)
    (hs : trapEnabled s.vtype p.scalar = false) (hf : ∀ x ∈ p.items, trapEnabled s.vtype x.flags = false) :
    ∃ cs, s.runPlan i p = .ok ((), ((((({ s with cores := cs } : State).setVect
        (p.done (p.items.foldl (fun v x => x.put v) s.r.vect))).raise
          (p.items.foldl (fun fl x => fl.or x.flags) p.scalar)).setVstart 0).handOff p)) ∧
      ∃ c : Core, (({ s with cores := cs } : State).myCore = c ∧ c.att = s.myCore.att) := by
  have hset : ∀ u : State, u.r.begun = none → u.setBegun none = u := fun u hu => by simp [State.setBegun, hu]
  have hstop : (if p.whole = true then none else s.pauseAt p.per) = none := by simp [State.pauseAt, hc]
  have hcure : ∀ (u : State) (c : CoreId), u.world.badLanes = [] → u.laneCured c = u := fun u c hu => by simp [State.laneCured, hu]
  have hspoil : ∀ u : State, u.spoil [] p = (p, u) := fun u => rfl
  unfold State.runPlan
  simp only [hq, hs, hw, hb, List.isEmpty_nil, Bool.not_true, Bool.and_false, Bool.false_eq_true, if_false,
    Option.isNone_none, Bool.and_true]
  by_cases hci : checkedInstr i = true
  · refine ⟨(s.setCore { s.myCore with checked := (s.myCore.checked + 1) % 8 }).cores, ?_, _, rfl, ?_⟩
    · simp only [hci, if_true, Option.map_none]
      have h1 : (if p.whole = true then none else
          (s.setCore { s.myCore with checked := (s.myCore.checked + 1) % 8 }).pauseAt p.per) = none := hstop
      have h2 : (s.setCore { s.myCore with checked := (s.myCore.checked + 1) % 8 }).r = s.r := rfl
      have h3 : (s.setCore { s.myCore with checked := (s.myCore.checked + 1) % 8 }).vtype = s.vtype := rfl
      rw [h1, h2, h3, runItems_all _ _ _ _ hf]
      dsimp only
      rw [hset, hspoil, hcure]
      · rfl
      · exact hw
      · exact hb
    · have := s.setCore_myCore { s.myCore with checked := (s.myCore.checked + 1) % 8 } s.myCore_id
      have h4 : ({ s with cores := (s.setCore { s.myCore with checked := (s.myCore.checked + 1) % 8 }).cores } : State) =
          s.setCore { s.myCore with checked := (s.myCore.checked + 1) % 8 } := rfl
      rw [h4, this]
  · have hci : checkedInstr i = false := by simpa using hci
    refine ⟨s.cores, ?_, _, rfl, rfl⟩
    simp only [hci, Bool.false_eq_true, if_false, Option.map_none]
    rw [hstop, runItems_all _ _ _ _ hf]
    dsimp only
    rw [hset, hspoil, hcure]
    · exact hw
    · exact hb

/-! ### Passing -/

/-- What a passed instruction's note of its writes leaves: everything but the note, cores' bookkeeping and the counter
of free values, when no tile store is outstanding. -/
theorem State.noteWrites_same {s : State} (ds : List VR) (h : ∀ a, s.myCore.att = some a → a.ops = []) :
    ∃ cs w n, s.noteWrites ds = { s with cores := cs, free := n, r := { s.r with vecWrites := w } } := by
  unfold State.noteWrites
  split
  · exact ⟨s.cores, s.r.vecWrites, s.free, rfl⟩
  · dsimp only
    split
    · exact ⟨s.cores, _, s.free, rfl⟩
    · rename_i a ha
      have hp : a.placesIn s.rid ds = [] := by simp [Attach.placesIn, h a ha]
      have hrid : ∀ f : Runner → Runner, (s.mapR f).rid = (f s.r).ident.id := fun _ => rfl
      simp only [hrid]
      rw [show a.placesIn s.r.ident.id ds = [] from hp]
      exact ⟨_, _, _, rfl⟩

/-- With no poisoned word a body runs as it stands. -/
theorem State.guarded_clean {s : State} (i : Instr) (body : State → M (Unit × State)) (h : s.r.vect.bad = []) :
    s.guarded i body = body s := by simp [State.guarded, h]

/-- A vector-side instruction whose body completes is complete at once. -/
theorem passVector_ok {i : Instr} {a b : Word} {body : State → M (Unit × State)} {s u : State}
    (h : s.r.vq = []) (hc : s.convoyCheck i = .ok ((), s))
    (hp : s.r.vect.bad = []) (hb : body s = .ok ((), u)) : passVector i a b body s = .next (u.noteWrites (s.written u i)).advance.completed := by
  unfold passVector
  simp only [hc, bind, Except.bind, h, List.isEmpty_nil, if_true, noted, State.guarded_clean _ _ hp, hb]
  rfl

/-- A plan that touches no queue, carried out by a free instruction: the vector side it leaves, and all else as before. -/
theorem plan_completes {i : Instr} {a b : Word} {body : State → M (Unit × State)} {s : State} (p : VPlan)
    (h : FreeToRun i s) (hb : body s = s.runPlan i p) (hq : p.push = none) (hp : p.pop = none)
    (hs : trapEnabled s.vtype p.scalar = false) (hf : ∀ x ∈ p.items, trapEnabled s.vtype x.flags = false) :
    ∃ t, passVector i a b body s = .next t ∧
      t.r.vect = { (p.done (p.items.foldl (fun v x => x.put v) s.r.vect)).raise
        (p.items.foldl (fun fl x => fl.or x.flags) p.scalar) with vstart := 0 } ∧
      t.r.scal = { s.r.scal with pc := s.pc + 8 } ∧ t.mem = s.mem ∧ t.r.strip = s.r.strip ∧ t.r.queues = s.r.queues ∧
      t.r.leases = s.r.leases ∧ t.r.barw = s.r.barw ∧ t.r.ident = s.r.ident := by
  obtain ⟨h1, h2, h3, hbad, hbeg, hquo, h4⟩ := h
  have hbl : s.blockedBy p = none := by simp [State.blockedBy, hq, hp]
  obtain ⟨cs, hr, c, hc, ha⟩ := s.runPlan_ok i p hbl h3 hbeg hquo hs hf
  have hrun := passVector_ok (a := a) (b := b) h1 h2 hbad (hb.trans hr)
  have hh : ∀ x : State, x.handOff p = x := by intro x; simp [State.handOff, hq, hp]
  rw [hh] at hrun
  generalize hu : ((({ s with cores := cs } : State).setVect
        (p.done (p.items.foldl (fun v x => x.put v) s.r.vect))).raise
          (p.items.foldl (fun fl x => fl.or x.flags) p.scalar)).setVstart 0 = u at hrun
  have huc : u.myCore = c := by rw [← hu, ← hc]; rfl
  obtain ⟨cs', w, n, hn⟩ := State.noteWrites_same (s := u) (s.written u i) (by
    intro a hatt; rw [huc, ha] at hatt; exact h4 a hatt)
  subst hu
  rw [hn] at hrun
  exact ⟨_, hrun, rfl, rfl, rfl, rfl, rfl, rfl, rfl, rfl⟩

/-- An element-wise plan of a free instruction completes, with R117's result (R22 for the flags). -/
theorem elem_completes {i : Instr} {a b : Word} {body : State → M (Unit × State)} {s : State} {n : Names} {m : Mask}
    {vlmax : Nat} {d : VR} {scalar : Flags} {f : Nat → Flagged Nat} (h : FreeToRun i s)
    (hb : body s = s.runPlan i (s.elemPlan n m vlmax d scalar f)) (hv : s.vl ≤ vlmax)
    (hs : trapEnabled s.vtype scalar = false)
    (hf : ∀ j ∈ s.activeFrom m s.vstart, trapEnabled s.vtype (f j).flags = false) :
    ∃ t, passVector i a b body s = .next t ∧ ElementResult s t m d s.vstart vlmax (fun j => (f j).val) ∧
      VectorFrame s t [d] ∧ t.r.queues = s.r.queues ∧ t.r.vect.rngctr = s.r.vect.rngctr ∧
      t.r.vect.vflags = s.r.vect.vflags ||| (s.gather m scalar fun j => (f j).flags).bits := by
  obtain ⟨t, ht, hvect, hscal, hmem, hstrip, hqs, hl, hbw, hid⟩ := plan_completes (a := a) (b := b)
    (s.elemPlan n m vlmax d scalar f) h hb rfl rfl hs (by
      intro x hx
      simp only [State.elemPlan, List.mem_map] at hx
      obtain ⟨j, hj, rfl⟩ := hx
      exact hf j hj)
  refine ⟨t, ht, ?_, ?_, hqs, ?_, ?_⟩
  all_goals simp only [State.elemPlan, List.foldl_map] at hvect
  all_goals have hfold := fun m' => Vect.foldl_putElem d (s.fmtOf d) (fun j => (f j).val) (s.activeFrom m s.vstart) s.r.vect m'
  · have hbegan : s.beganAt = s.vstart := by simp [State.beganAt, h.2.2.2.2.1]
    rw [hbegan] at hvect
    have hreg : t.vreg d = settle s.vtype (s.fmtOf d) (fun i => s.active m i) s.vstart s.vl vlmax
        ((s.activeFrom m s.vstart).foldl (fun (x : VReg) (j : Nat) => x.setElem (s.fmtOf d) j (f j).val) (s.vreg d)) := by
      have : t.vreg d = t.r.vect.reg d := rfl
      rw [this, hvect]
      simp only [Vect.raise, State.settleReg]
      have hd := (hfold d).1
      rw [if_pos rfl] at hd
      show Vect.reg (Vect.setReg _ _ _) d = _
      rw [Vect.reg_setReg, if_pos rfl, hd]; rfl
    refine ⟨?_, ?_, ?_⟩
    · rw [hreg, settle_tag]; exact VReg.foldl_keeps (fun v => v.tag) (fun (x : VReg) (j : Nat) => x.setElem (s.fmtOf d) j (f j).val) (fun _ _ => rfl) _ _
    · rw [hreg, settle_side]; exact VReg.foldl_keeps (fun v => v.side) (fun (x : VReg) (j : Nat) => x.setElem (s.fmtOf d) j (f j).val) (fun _ _ => rfl) _ _
    · intro j hj
      rw [hreg, elem_settle _ _ _ _ _ _ _ _ hj, VReg.elem_foldl_setElem _ _ _ hj]
      have hmem' : j ∈ s.activeFrom m s.vstart ↔ (s.vstart ≤ j ∧ j < s.vl) ∧ s.active m j = true := by
        simp only [State.activeFrom, List.mem_filter]
        constructor
        · rintro ⟨h1, h2⟩
          obtain ⟨k, hk, rfl⟩ := List.mem_iff_getElem.mp h1
          simp only [List.length_drop, List.length_range] at hk
          simp only [List.getElem_drop, List.getElem_range] at h2 ⊢
          exact ⟨by omega, h2⟩
        · rintro ⟨⟨h1, h2⟩, h3⟩
          refine ⟨List.mem_iff_getElem.mpr ⟨j - s.vstart, by simp; omega, ?_⟩, h3⟩
          simp; omega
      by_cases h1 : j < s.vl
      · have h2 : j < vlmax := by omega
        by_cases h3 : s.vstart ≤ j
        · by_cases h4 : s.active m j = true
          · simp [h1, h2, h3, h4, hmem', Nat.not_lt.mpr h3]
          · simp only [Bool.not_eq_true] at h4
            by_cases h5 : mpOf s.vtype = true <;> simp [h1, h2, h3, h4, h5, hmem', Nat.not_lt.mpr h3]
        · simp [h1, h2, h3, hmem', Nat.lt_of_not_le h3]
      · by_cases h2 : j < vlmax <;> by_cases h5 : tpOf s.vtype = true <;> simp [h1, h2, h5, hmem']
  · have hrest : t.r.vect.rest = ({ s.r.vect with
        vflags := s.r.vect.vflags ||| ((s.activeFrom m s.vstart).foldl (fun fl j => fl.or (f j).flags) scalar).bits
        vstart := 0 } : Vect).rest := by
      rw [hvect]
      have := (hfold d).2
      simp only [Vect.rest, Vect.raise, State.settleReg, Prod.mk.injEq] at this ⊢
      obtain ⟨a1, a2, a3, a4, a5, a6⟩ := this
      exact ⟨a1, trivial, a3, by show (Vect.setReg _ _ _).vflags ||| _ = _; rw [← a4]; rfl, a5, a6⟩
    simp only [Vect.rest, Prod.mk.injEq] at hrest
    obtain ⟨a1, a2, a3, a4, a5, a6⟩ := hrest
    refine ⟨fun k => by unfold State.byteAt; rw [hmem], by unfold State.pc; rw [hscal]; rfl, hscal, ?_, a2, a1, a3, a5, hstrip, hl, hbw, hid⟩
    intro k hk
    have hk : k ≠ d := by simpa using hk
    have : t.vreg k = t.r.vect.reg k := rfl
    rw [this, hvect]
    show Vect.reg (Vect.setReg _ _ _) k = _
    rw [Vect.reg_setReg, if_neg hk, (hfold k).1, if_neg hk]; rfl
  · have := (hfold d).2
    rw [hvect]
    simp only [Vect.rest, Prod.mk.injEq] at this
    exact this.2.2.2.2.2
  · have := (hfold d).2
    rw [hvect]
    simp only [Vect.rest, Prod.mk.injEq] at this
    show (Vect.setReg _ _ _).vflags ||| _ = _
    unfold State.gather
    rw [← this.2.2.2.1]; rfl

end Sys2Proof.Machine
end

