-- ==== Sys2Proof/Tests/Slice0.lean ====
section
/-! SUPPORT. Tests: words and ill-formed operands, one step of an instruction, and witnesses: for every statement a state that
meets its hypotheses. -/

namespace Sys2Proof.Tests

open Machine
set_option Elab.async false

/-! ### Small states -/

/-- A heat of one team with a 4 KiB scratchpad and a trap handler. -/
def demoHeat : HeatDesc :=
  { entry := 0x1000, handler := some 0x2000, loops := [{ kind := .c, extent := 2 }], perCore := 2, scratch := 4096
    splitM := some { vlen := 256, tcmKiB := 64 }, cls := .concurrent }

/-- Runner n of team 0 of heat 1 of partition 0, ready. -/
def demoRunner (n : Nat) : Runner :=
  { Runner.blank with
    stat := .ready
    ident := { Ident.blank with id := { heat := 1, runner := n }, cls := .concurrent } }

/-- A module at stage D with one partition, one heat, one team, one runner. -/
def demo : State :=
  { State.reset with
    r := demoRunner 0
    teams := [{ id := { heat := 1 }, uid := 1, stat := .resident, place := some { cores := [0] }, bars := Vector.replicate 16 {} }]
    heats := [{ part := 0, id := 1, uid := 2, desc := demoHeat, order := 1 }]
    parts := [{ Part.blank 0 with known := true, loaded := some { heats := [demoHeat] }, nextHeat := 2 }]
    pacer := { Pacer.reset with stage := .d } }

/-- The first byte of the scratchpad window. -/
def pad : Word := 0x01FF000000000000

/-- Scalar registers of the running runner set. -/
def withReg (s : State) (l : List (SR × Word)) : State := l.foldl (fun s x => s.setReg x.1 x.2) s

/-- A vector register of the running runner set, by tag and data. -/
def withVec (s : State) (r : VR) (tag : Byte) (data : BitVec 16384) : State := s.setVreg r { data := data, tag := tag }

/-- VL and VTYPE set. -/
def withVl (s : State) (vl : Nat) (vtype : Word) : State :=
  s.mapR fun r => { r with vect := { r.vect with vl := vl, vtype := vtype } }

/-- The running runner at system level, with a TEPC. -/
def atSystem (s : State) (tepc : Word) : State :=
  s.mapR fun r => { r with scal := { r.scal with sysr := { r.scal.sysr with sys := true, tepc := tepc } } }

/-- A strip whose protection holds, with some bytes counted. -/
def inStrip (s : State) (count : Nat) : State :=
  s.mapR fun r => { r with strip := { r.strip with sc := 9, active := true, prot := true, count := count } }

/-- A hand-off queue's contents set. -/
def withQueue (s : State) (q : QR) (l : List Word) : State := s.mapR fun r => { r with queues := r.queues.set q l }

/-- An element of a register after an instruction. -/
def elemAfter (i : Instr) (s : State) (r : VR) (f : Fmt) (j : Nat) : Option Nat :=
  match exec i s with
  | .next t => some ((t.vreg r).elem f j)
  | _ => none

/-- A scalar register after an instruction. -/
def regAfter (i : Instr) (s : State) (r : SR) : Option Word :=
  match exec i s with
  | .next t => some (t.reg r)
  | _ => none

/-- Something of the state an instruction leaves. -/
def stateAfter {α : Type} (i : Instr) (s : State) (f : State → α) : Option α :=
  match exec i s with
  | .next t => some (f t)
  | _ => none

theorem free_of {i : Instr} {s : State} (h1 : s.r.vq = []) (h2 : cvOf i = false) (h3 : s.world.badLanes = [])
    (h4 : s.myCore.att = none) (h5 : s.r.vect.bad = [] ∧ s.r.begun = none ∧ s.quota = none := by decide +kernel) : FreeToRun i s :=
  ⟨h1, by simp [State.convoyCheck, h2], h3, h5.1, h5.2.1, h5.2.2, fun a h => by rw [h4] at h; cases h⟩

/-! ### Words that are refused (R70) -/

theorem test_sb_and_immediate : decode 0x0400514700000064 = .error .unusedField := by decide +kernel
theorem test_unassigned_function : decode 0x0418000000000000 = .ok (.unassignedPattern 0x0418000000000000) := by decide +kernel
theorem test_eret_with_immediate : decode 0x240C000000000001 = .error .unusedField := by decide +kernel

/-! ### Ill-formed operands (R69, R70) -/

theorem test_wf_register_b_zero : (Instr.add 1 2 (.reg 0)).wf = false := by decide
theorem test_wf_field_control : (Instr.bfx 1 2 (.imm 0x4000)).wf = false := by decide
theorem test_wf_convert_integers : (Instr.fcvt 1 2 .i64 .u64).wf = false := by decide
theorem test_wf_absent_register : (Instr.rdcr 1 0x108).wf = false := by decide
theorem test_wf_read_only_register : (Instr.wrcr 0x004 1).wf = false := by decide
theorem test_wf_tlbinv_all : (Instr.tlbinv 1 true).wf = false := by decide
theorem test_wf_cinv_whole : (Instr.cinv 1 true).wf = false := by decide
theorem test_wf_pop_q1 : (Instr.qpop 1 1).wf = false := by decide
theorem test_wf_push_q2 : (Instr.qpush 2 1).wf = false := by decide
theorem test_wf_branch_q0 : (Instr.bq 1 0 0).wf = false := by decide
theorem test_wf_mask_complement : (Instr.vadd { mask := { neg := true } } 1 2 (.vec 3)).wf = false := by decide
theorem test_wf_chain_scalar : (Instr.vadd { cb := true } 1 2 (.scal 3)).wf = false := by decide
theorem test_wf_chain_c : (Instr.vadd { cc := true } 1 2 (.vec 3)).wf = false := by decide
theorem test_wf_pair_of_31 : (Instr.vtwosum {} 31 2 (.vec 3)).wf = false := by decide
theorem test_wf_vqpush_masked : (Instr.vqpush { mask := { reg := 1 } } 2 2 0).wf = false := by decide
theorem test_wf_vqpush_q0 : (Instr.vqpush {} 0 2 0).wf = false := by decide
theorem test_wf_vqpop_q2 : (Instr.vqpop {} 1 2).wf = false := by decide
theorem test_wf_tag : (Instr.vtag 8 11 0x90).wf = false := by decide
theorem test_wf_tag_range : (Instr.vtag 11 8 0x70).wf = false := by decide
theorem test_wf_block_scale : (Instr.vtag 8 8 0x74).wf = false := by decide
theorem test_wf_load_release : (Instr.vld { ord := .release } 1 2 3 0).wf = false := by decide
theorem test_wf_store_acquire : (Instr.vst { ord := .acquire } 1 2 3 0).wf = false := by decide
theorem test_wf_chain_vld : (Instr.vld { ca := true } 1 2 3 0).wf = false := by decide
theorem test_wf_stream_order : (Instr.stream { ord := .acquire } 1 2 3 0).wf = false := by decide
theorem test_wf_streamseg_one : (Instr.streamseg {} 1 2 3 0 0 0).wf = false := by decide
theorem test_wf_streamseg_end : (Instr.streamseg {} 30 2 3 0 2 0).wf = false := by decide
theorem test_wf_shape_format : (Instr.tshape 1 2 16 0x0E 0x0D 0x0E).wf = false := by decide
theorem test_wf_tlda_b : (Instr.tlda .lb0 1 2 0).wf = false := by decide
theorem test_wf_tldb_a : (Instr.tldb .la0 1 2 0).wf = false := by decide
theorem test_wf_tst_register : (Instr.tst 0 .acc 1 2 (some ⟨32, 0⟩)).wf = false := by decide
theorem test_wf_xtopk_zero : (Instr.xtopk {} 1 2 0 false 3).wf = false := by decide
theorem test_wf_xsort_pair : (Instr.xsort {} 31 2 false true 3).wf = false := by decide

/-- Words of the ialu group by R66 to R69, field by field. -/
theorem test_decode_ialu :
    [decode 0x0400518700000000,
     decode 0x0407F840FFFFFFFE,
     decode 0x0408518700000000,
     decode 0x040FF840FFFFFFFE,
     decode 0x0410518700000000,
     decode 0x0417F840FFFFFFFE,
     decode 0x0420518700000000,
     decode 0x0427F840FFFFFFFE,
     decode 0x0428518700000000,
     decode 0x042FF840FFFFFFFE,
     decode 0x0440518700000000,
     decode 0x0447F840FFFFFFFE,
     decode 0x0448518700000000,
     decode 0x044FF840FFFFFFFE,
     decode 0x0450518700000000,
     decode 0x0457F840FFFFFFFE,
     decode 0x0458518700000000,
     decode 0x045FF840FFFFFFFE,
     decode 0x0460518700000000,
     decode 0x0467F840FFFFFFFE,
     decode 0x0468518700000000,
     decode 0x046FF840FFFFFFFE,
     decode 0x0470518700000000,
     decode 0x0477F840FFFFFFFE,
     decode 0x0478518700000000,
     decode 0x04C3F840FFFFFFFE,
     decode 0x0480928000000000,
     decode 0x0484928000000000,
     decode 0x0488928000000000,
     decode 0x048C928000000000,
     decode 0x04A0928000000720,
     decode 0x04A4928B00000000,
     decode 0x04A8928000003F3F,
     decode 0x04C45140000001FF,
     decode 0x04C85000FFFFFFFF] =
    [.ok (.add 5 6 (.reg 7)),
     .ok (.sub 63 33 (.imm 0xFFFFFFFE)),
     .ok (.and 5 6 (.reg 7)),
     .ok (.or 63 33 (.imm 0xFFFFFFFE)),
     .ok (.xor 5 6 (.reg 7)),
     .ok (.andn 63 33 (.imm 0xFFFFFFFE)),
     .ok (.shl 5 6 (.reg 7)),
     .ok (.shr 63 33 (.imm 0xFFFFFFFE)),
     .ok (.sar 5 6 (.reg 7)),
     .ok (.rol 63 33 (.imm 0xFFFFFFFE)),
     .ok (.slt 5 6 (.reg 7)),
     .ok (.sltu 63 33 (.imm 0xFFFFFFFE)),
     .ok (.seq 5 6 (.reg 7)),
     .ok (.sne 63 33 (.imm 0xFFFFFFFE)),
     .ok (.min 5 6 (.reg 7)),
     .ok (.max 63 33 (.imm 0xFFFFFFFE)),
     .ok (.minu 5 6 (.reg 7)),
     .ok (.maxu 63 33 (.imm 0xFFFFFFFE)),
     .ok (.mul 5 6 (.reg 7)),
     .ok (.mulh 63 33 (.imm 0xFFFFFFFE)),
     .ok (.mulhu 5 6 (.reg 7)),
     .ok (.div 63 33 (.imm 0xFFFFFFFE)),
     .ok (.divu 5 6 (.reg 7)),
     .ok (.rem 63 33 (.imm 0xFFFFFFFE)),
     .ok (.remu 5 6 (.reg 7)),
     .ok (.sel 63 33 (.imm 0xFFFFFFFE)),
     .ok (.clz 9 10),
     .ok (.ctz 9 10),
     .ok (.popc 9 10),
     .ok (.brev 9 10),
     .ok (.bfx 9 10 (.imm 0x720)),
     .ok (.bfxu 9 10 (.reg 11)),
     .ok (.bfi 9 10 (.imm 0x3F3F)),
     .ok (.lih 5 5 0x1FF),
     .ok (.addpc 5 0xFFFFFFFF)] := by decide +kernel

/-- Words of the falu group by R66 to R69, field by field. -/
theorem test_decode_falu :
    [decode 0x0800108300000000,
     decode 0x0824108300000000,
     decode 0x0848108300000000,
     decode 0x086C108300000000,
     decode 0x0880108300000000,
     decode 0x08C4108300000000,
     decode 0x08E8108300000000,
     decode 0x08AC108000000000,
     decode 0x0904108300000005,
     decode 0x0928108000000009,
     decode 0x0940108000000000] =
    [.ok (.fadd .f32 1 2 3),
     .ok (.fsub .f64 1 2 3),
     .ok (.fmul .bf16 1 2 3),
     .ok (.ffma .f16 1 2 3),
     .ok (.fdiv .f32 1 2 3),
     .ok (.fmin .f64 1 2 3),
     .ok (.fmax .bf16 1 2 3),
     .ok (.fsqrt .f16 1 2),
     .ok (.fcmp .f64 1 2 3 5),
     .ok (.fcvt 1 2 .u64 (.fp .bf16)),
     .ok (.fclass .f32 1 2)] := by decide +kernel

/-- Words of the memory group by R66 to R69, field by field. -/
theorem test_decode_memory :
    [decode 0x0C00910000000010,
     decode 0x0CA4910000000010,
     decode 0x0D08910000000010,
     decode 0x0DAC910000000010,
     decode 0x0E10910000000010,
     decode 0x0EB4910000000010,
     decode 0x0C18910000000010,
     decode 0x10800109FFFFFFF8,
     decode 0x11480109FFFFFFF8,
     decode 0x11900109FFFFFFF8,
     decode 0x12580109FFFFFFF8,
     decode 0x1401455600000000,
     decode 0x14C5455600000001,
     decode 0x1509455600000002,
     decode 0x15CD455600000003,
     decode 0x1411455600000004,
     decode 0x14D5455600000005,
     decode 0x1519455600000000,
     decode 0x15DD455600000001,
     decode 0x1421455600000002,
     decode 0x14E5455600000003,
     decode 0x14A9455600000002] =
    [.ok (.ld .b false .runner 9 4 16),
     .ok (.ld .bu true .core 9 4 16),
     .ok (.ld .h false .team 9 4 16),
     .ok (.ld .hu true .die 9 4 16),
     .ok (.ld .w false .package 9 4 16),
     .ok (.ld .wu true .system 9 4 16),
     .ok (.ld .d false .runner 9 4 16),
     .ok (.st .b false .core 9 4 0xFFFFFFF8),
     .ok (.st .h true .team 9 4 0xFFFFFFF8),
     .ok (.st .w false .die 9 4 0xFFFFFFF8),
     .ok (.st .d true .package 9 4 0xFFFFFFF8),
     .ok (.amoadd false .plain .runner 20 22 21),
     .ok (.amoand true .acquire .core 20 22 21),
     .ok (.amoor false .release .team 20 22 21),
     .ok (.amoxor true .both .die 20 22 21),
     .ok (.amomin false .plain .package 20 22 21),
     .ok (.amomax true .acquire .system 20 22 21),
     .ok (.amominu false .release .runner 20 22 21),
     .ok (.amomaxu true .both .core 20 22 21),
     .ok (.amoswap false .plain .team 20 22 21),
     .ok (.amocas true .acquire .die 20 22 21),
     .ok (.amofadd .acquire .team 20 22 21)] := by decide +kernel

/-- Words of the control group by R66 to R69, field by field. -/
theorem test_decode_control :
    [decode 0x18000146FFFFFFFD,
     decode 0x18040146FFFFFFFD,
     decode 0x18080146FFFFFFFD,
     decode 0x180C0146FFFFFFFD,
     decode 0x18100146FFFFFFFD,
     decode 0x18140146FFFFFFFD,
     decode 0x1C00100000000004,
     decode 0x1C04004000000000,
     decode 0x2001E00000000100,
     decode 0x2004050000000045,
     decode 0x2008310000000002,
     decode 0x200C310000000003,
     decode 0x2400000000000000,
     decode 0x2404000000000007,
     decode 0x2408000000000002,
     decode 0x240C000000000000,
     decode 0x2410000000000000,
     decode 0x2414000000000015,
     decode 0x2418000000000000,
     decode 0x241C010000000000,
     decode 0x2420010000000001,
     decode 0x2424010000000001,
     decode 0x2428010000000000,
     decode 0x2800610500000008,
     decode 0x28046000FFFFFFFE,
     decode 0x2808000000000000,
     decode 0x2C02C00200000000,
     decode 0x2C06C00300000000,
     decode 0x2C080AC100000000,
     decode 0x2C0C400300000005,
     decode 0x2C10400200000005] =
    [.ok (.beq 5 6 0xFFFFFFFD),
     .ok (.bne 5 6 0xFFFFFFFD),
     .ok (.blt 5 6 0xFFFFFFFD),
     .ok (.bge 5 6 0xFFFFFFFD),
     .ok (.bltu 5 6 0xFFFFFFFD),
     .ok (.bgeu 5 6 0xFFFFFFFD),
     .ok (.jal 1 4),
     .ok (.jalr 0 1 0),
     .ok (.rdcr 30 0x100),
     .ok (.wrcr 0x045 20),
     .ok (.setcr 3 0x002 4),
     .ok (.clrcr 3 0x003 4),
     .ok (.nop),
     .ok (.syscall 7),
     .ok (.brk 2),
     .ok (.eret),
     .ok (.exit),
     .ok (.fence .vs .system),
     .ok (.ifence),
     .ok (.tlbinv 4 false),
     .ok (.prefetch 4 true),
     .ok (.cflush 4 true),
     .ok (.cinv 4 false),
     .ok (.stripBegin 6 4 5 8),
     .ok (.stripNext 6 0xFFFFFFFE),
     .ok (.stripExit),
     .ok (.qpop 44 2),
     .ok (.qpeek 44 3),
     .ok (.qpush 1 43),
     .ok (.bq 4 3 5),
     .ok (.bqz 4 2 5)] := by decide +kernel

/-- Words of the valu group by R66 to R69, field by field. -/
theorem test_decode_valu :
    [decode 0x40014B6010000000,
     decode 0x40054B0023450000,
     decode 0x40094B6010000000,
     decode 0x40114B0023450000,
     decode 0x40194B6010000000,
     decode 0x401D4B0023450000,
     decode 0x40414B6010000000,
     decode 0x40454B0023450000,
     decode 0x40494B6010000000,
     decode 0x40514B0023450000,
     decode 0x40554B6010000000,
     decode 0x40594B0023450000,
     decode 0x40954B6010000000,
     decode 0x40994B0023450000,
     decode 0x40208110CF800000,
     decode 0x40248110CF800000,
     decode 0x40288110CF800000,
     decode 0x40908110CF800000,
     decode 0x422C810000000000,
     decode 0x4230810000000000,
     decode 0x4234810000000000,
     decode 0x424C810000000000,
     decode 0x4280810000000000,
     decode 0x4288810000000000,
     decode 0x4084811000000000,
     decode 0x408DAC0000000009,
     decode 0x408DA00000470000,
     decode 0x40A0460000000003,
     decode 0x40A5A10000000000] =
    [.ok (.vadd ({ cb := true }) 10 11 (.vec 12)),
     .ok (.vsub ({ ca := true, mask := { reg := 3 } }) 10 11 (.scal 5)),
     .ok (.vmul ({ cb := true }) 10 11 (.vec 12)),
     .ok (.vdiv ({ ca := true, mask := { reg := 3 } }) 10 11 (.scal 5)),
     .ok (.vmin ({ cb := true }) 10 11 (.vec 12)),
     .ok (.vmax ({ ca := true, mask := { reg := 3 } }) 10 11 (.scal 5)),
     .ok (.vand ({ cb := true }) 10 11 (.vec 12)),
     .ok (.vor ({ ca := true, mask := { reg := 3 } }) 10 11 (.scal 5)),
     .ok (.vxor ({ cb := true }) 10 11 (.vec 12)),
     .ok (.vshl ({ ca := true, mask := { reg := 3 } }) 10 11 (.scal 5)),
     .ok (.vshr ({ cb := true }) 10 11 (.vec 12)),
     .ok (.vsar ({ ca := true, mask := { reg := 3 } }) 10 11 (.scal 5)),
     .ok (.vtwosum ({ cb := true }) 10 11 (.vec 12)),
     .ok (.vscalb ({ ca := true, mask := { reg := 3 } }) 10 11 (.scal 5)),
     .ok (.vfma ({ cc := true, mask := { reg := 7, neg := true } }) 4 1 (.vec 2) 3),
     .ok (.vfms ({ cc := true, mask := { reg := 7, neg := true } }) 4 1 (.vec 2) 3),
     .ok (.vfnma ({ cc := true, mask := { reg := 7, neg := true } }) 4 1 (.vec 2) 3),
     .ok (.vsel ({ cc := true, mask := { reg := 7, neg := true } }) 4 1 (.vec 2) 3),
     .ok (.vabs ({ cv := true }) 4 1),
     .ok (.vneg ({ cv := true }) 4 1),
     .ok (.vsqrt ({ cv := true }) 4 1),
     .ok (.vnot ({ cv := true }) 4 1),
     .ok (.vcvt ({ cv := true }) 4 1),
     .ok (.vmov ({ cv := true }) 4 1),
     .ok (.vcvtsr {} 4 1 2),
     .ok (.vbcast {} 13 12 9),
     .ok (.vbcastScalar {} 13 7),
     .ok (.vqpush {} 2 6 3),
     .ok (.vqpop {} 13 1)] := by decide +kernel

/-- Words of the vector group by R66 to R69, field by field. -/
theorem test_decode_vector :
    [decode 0x4400284800000002,
     decode 0x4404410000000000,
     decode 0x4408610000000000,
     decode 0x440C410000000000,
     decode 0x4800A40000460001,
     decode 0x4804A40000000001,
     decode 0x4808A40180460000,
     decode 0x480D280001000000,
     decode 0x4811280000000000,
     decode 0x4815CC0000000000,
     decode 0x4819CC6800000000,
     decode 0x481DCC6800000000,
     decode 0x4821CC6800000000,
     decode 0x4825C0000043001F,
     decode 0x4C02D20000000000,
     decode 0x4C06D20000000000,
     decode 0x4C0AD20000000000,
     decode 0x4C0ED20000000000,
     decode 0x4C12D20000000000,
     decode 0x4C1A842800000000,
     decode 0x4C1E840000000002,
     decode 0x5000000000450000,
     decode 0x50010B0000450170,
     decode 0x50050B0000000070,
     decode 0x5008490000000000,
     decode 0x500C60FFC0000064,
     decode 0x5010000000470008,
     decode 0x5010400000460000,
     decode 0x5014640000000000,
     decode 0x5018640000000000] =
    [.ok (.vcmp {} 1 8 (.vec 9) 2),
     .ok (.vmpopc {} 2 1),
     .ok (.vmfirst {} 3 1),
     .ok (.vmany {} 2 1),
     .ok (.vslideup {} 5 4 1 (some 6)),
     .ok (.vslidedn {} 5 4 1 none),
     .ok (.vperm {} 5 4 6 (some 6)),
     .ok (.vcompress { mask := { reg := 1 } } 9 8),
     .ok (.vexpand {} 9 8),
     .ok (.vrev {} 14 12),
     .ok (.vzip {} 14 12 13),
     .ok (.vunzipe {} 14 12 13),
     .ok (.vunzipo {} 14 12 13),
     .ok (.vinsert {} 14 3 31),
     .ok (.vredsum {} 22 18),
     .ok (.vredmin {} 22 18),
     .ok (.vredmax {} 22 18),
     .ok (.vredand {} 22 18),
     .ok (.vredor {} 22 18),
     .ok (.vredts {} 20 4 5),
     .ok (.vscan {} 20 4 2),
     .ok (.vcfgw 5),
     .ok (.vcfgwTag 5 8 11 0x70),
     .ok (.vtag 8 11 0x70),
     .ok (.vgettag {} 2 9),
     .ok (.vidx {} 3 100 0x3FF),
     .ok (.vsetvl 7 8),
     .ok (.vsetvlQueue 2 6 0),
     .ok (.vscget {} 3 4),
     .ok (.vscset {} 3 4)] := by decide +kernel

/-- Words of the vectorMemory group by R66 to R69, field by field. -/
theorem test_decode_vectorMemory :
    [decode 0x700100A29002FFFC,
     decode 0x70048028B0010008,
     decode 0x70098D500A000000,
     decode 0x7011805000280000,
     decode 0x74012030004C0040,
     decode 0x74052030D8000000,
     decode 0x74092A3000000000,
     decode 0x740D2A3001800000,
     decode 0x7C012A3000740000,
     decode 0x7C052A3000740000,
     decode 0x7C092A3000740000,
     decode 0x7C0D2A3000740000,
     decode 0x7802005150000010,
     decode 0x7806035150004008,
     decode 0x78080038F0080000] =
    [.ok (.vld { hint := .keep } 8 40 41 0xFFFC),
     .ok (.vlds { hint := .stream } 4 10 11 8),
     .ok (.vldx { ca := true, mask := { reg := 2 } } 12 13 20 0),
     .ok (.vldff { ord := .acquire, scope := .team } 12 20 0),
     .ok (.vst { ord := .release, scope := .die } 9 12 0 64),
     .ok (.vsts { ca := true } 9 12 13 0),
     .ok (.vstxo {} 9 10 12 0),
     .ok (.vstxu { mask := { reg := 1, neg := true } } 9 10 12 0),
     .ok (.vamoadd { ord := .both, scope := .system } 9 10 12 0),
     .ok (.vamomin { ord := .both, scope := .system } 9 10 12 0),
     .ok (.vamomax { ord := .both, scope := .system } 9 10 12 0),
     .ok (.vamofadd { ord := .both, scope := .system } 9 10 12 0),
     .ok (.stream {} 16 20 21 16),
     .ok (.streamseg {} 16 20 21 3 2 8),
     .ok (.copy .team 14 15 0)] := by decide +kernel

/-- Words of the tile group by R66 to R69, field by field. -/
theorem test_decode_tile :
    [decode 0x800014540039AD10,
     decode 0x8004000000000000,
     decode 0x8004000000000001,
     decode 0x8008000000000000,
     decode 0x800C565C00000005,
     decode 0x8010D65C00000000,
     decode 0x8014165D20000007,
     decode 0x8018800180000000,
     decode 0x801D800000000000,
     decode 0x8023000000000000,
     decode 0x80265A6D28000003,
     decode 0x80261A6C00000000,
     decode 0x8029000080000000,
     decode 0x802D050000000000,
     decode 0x8031050000000000,
     decode 0x8034000000000000,
     decode 0x8038000000000000] =
    [.ok (.tshape 20 21 16 0x0D 0x0D 0x0E),
     .ok (.attach),
     .ok (.attachW),
     .ok (.detach),
     .ok (.tlda .la1 22 23 5),
     .ok (.tldb .lb1 22 23 0),
     .ok (.tldax .la0 22 23 9 7),
     .ok (.tldv .lb0 12),
     .ok (.tmma 1 true false),
     .ok (.tzero 3),
     .ok (.tst 2 .bf16 26 27 (some ⟨9, 3⟩)),
     .ok (.tst 2 .acc 26 27 none),
     .ok (.tstv 1 4 none),
     .ok (.tsave 1 5),
     .ok (.trestore 1 5),
     .ok (.mfence),
     .ok (.mwait)] := by decide +kernel

/-- Words of the sync group by R66 to R69, field by field. -/
theorem test_decode_sync :
    [decode 0x8400518700000202,
     decode 0x8404000000000005,
     decode 0x8408800000000005,
     decode 0x840C80000000000F,
     decode 0x8410928B00000000,
     decode 0x8414928B00000000,
     decode 0x8418028B00000000,
     decode 0x841C000000000000,
     decode 0x8802800000000051,
     decode 0x8802800000000150,
     decode 0x88040A0000000000,
     decode 0x880A07C000000000,
     decode 0x880C700000000001,
     decode 0x9001454000000000,
     decode 0x9005650000000000,
     decode 0x9009650000000000] =
    [.ok (.waitw 5 6 7 .ge 2),
     .ok (.arrive 5),
     .ok (.waitb 8 5),
     .ok (.syncb 8 15),
     .ok (.waitbm 9 10 11),
     .ok (.bmtest 9 10 11),
     .ok (.bmclr 10 11),
     .ok (.yield),
     .ok (.lease 40 .sxe 5),
     .ok (.leaseW 40 .sfe 5),
     .ok (.release 40),
     .ok (.lstat 32 31),
     .ok (.equery 7 true),
     .ok (.launch 20 21),
     .ok (.ljoin 22 20),
     .ok (.lcancel 22 20)] := by decide +kernel

/-- Words of the engine group by R66 to R69, field by field. -/
theorem test_decode_engine :
    [decode 0x8C01480000280000,
     decode 0x8C05480000280003,
     decode 0x8C09940000290002,
     decode 0x8C0D940000290000,
     decode 0x8C11940000290711,
     decode 0x8C15940000290708,
     decode 0x8C19940000290720,
     decode 0x9400C00000000000,
     decode 0x94040000004C0000] =
    [.ok (.sfn {} 10 8 0 40),
     .ok (.xsort {} 10 8 true true 40),
     .ok (.xtopk {} 12 20 2 false 41),
     .ok (.xhist {} 12 20 41),
     .ok (.cred {} 12 20 1 2 7 41),
     .ok (.cgather {} 12 20 1 7 41),
     .ok (.cbcast {} 12 20 true 0 7 41),
     .ok (.vrng {} 6),
     .ok (.rngseed {} 12)] := by decide +kernel

/-! ### Scalar instructions -/

/-- R75's table: −7 divided by 2. -/
theorem test_div : regAfter (.div 1 2 (.imm 2)) (withReg demo [(2, -7)]) 1 = some (-3) := by decide +kernel
theorem test_rem : regAfter (.rem 1 2 (.imm 2)) (withReg demo [(2, -7)]) 1 = some (-1) := by decide +kernel
theorem test_divu_zero : regAfter (.divu 1 2 (.imm 0)) (withReg demo [(2, 9)]) 1 = some (-1) := by decide +kernel
/-- A shift count counts modulo 64 (R74). -/
theorem test_shl_wraps : regAfter (.shl 1 2 (.imm 65)) (withReg demo [(2, 3)]) 1 = some 6 := by decide +kernel
/-- A write of s0 is discarded (R13). -/
theorem test_s0 : regAfter (.add 0 2 (.imm 1)) (withReg demo [(2, 3)]) 0 = some 0 := by decide +kernel
/-- bfxu 32, 8 of R76's handle example: the kind above bit 32. -/
theorem test_bfxu : regAfter (.bfxu 1 2 (.imm 0x720)) (withReg demo [(2, 0x0000000200030001)]) 1 = some 2 := by decide +kernel
/-- 1.0 + 2^−53 in FP64, to nearest even. -/
theorem test_fadd_tie : regAfter (.fadd .f64 1 2 3) (withReg demo [(2, 0x3FF0000000000000), (3, 0x3CA0000000000000)]) 1 =
    some 0x3FF0000000000000 := by decide +kernel
/-- 1 / 3 in FP32. -/
theorem test_fdiv : regAfter (.fdiv .f32 1 2 3) (withReg demo [(2, 0x3F800000), (3, 0x40400000)]) 1 = some 0x3EAAAAAB := by
  decide +kernel
/-- The square root of 2 in FP64. -/
theorem test_fsqrt : regAfter (.fsqrt .f64 1 2) (withReg demo [(2, 0x4000000000000000)]) 1 = some 0x3FF6A09E667F3BCD := by
  decide +kernel
/-- FCVT to BF16 of 1 + 2^−8 ties to even. -/
theorem test_fcvt : regAfter (.fcvt 1 2 (.fp .f32) (.fp .bf16)) (withReg demo [(2, 0x3F808000)]) 1 = some 0x3F80 := by
  decide +kernel
/-- A byte stored and loaded with its sign. -/
theorem test_store_load :
    ((stateAfter (.st .b false .runner 5 4 3) (withReg demo [(4, pad), (5, 0x80)]) fun t =>
      regAfter (.ld .b false .runner 6 4 3) t 6).join) = some (-128) := by decide +kernel
/-- AMOADD of a word gives the old value sign-extended. -/
theorem test_amoadd :
    ((stateAfter (.st .w false .runner 5 4 0) (withReg demo [(4, pad), (5, 0xFFFFFFFF)]) fun t =>
      regAfter (.amoadd false .plain .runner 6 5 4) t 6).join) = some (-1) := by decide +kernel
theorem test_branch : stateAfter (.beq 0 0 0xFFFFFFFD) (demo.setPc 64) State.pc = some 40 := by decide +kernel
theorem test_jalr_source_is_destination :
    stateAfter (.jalr 5 5 8) (withReg (demo.setPc 64) [(5, 0x100)]) (fun t => (t.pc, t.reg 5)) = some (0x108, 72) := by
  decide +kernel
theorem test_syscall : stateAfter (.syscall 7) (demo.setPc 64) (fun t => (t.r.scal.sysr.tepc, t.r.scal.sysr.tval,
    t.r.scal.sysr.tcause)) = some (64, 7, 0x13) := by decide +kernel
/-- A strip of 9 elements with a cap of 8 (R109). -/
theorem test_strip : stateAfter (.stripBegin 6 4 0 8) (withReg demo [(4, 9)]) (fun t => (t.reg 6, t.vl)) = some (8, 8) := by
  decide +kernel

/-! ### Witnesses: hypotheses of the statements that a state meets -/

theorem witness_EncodingRoundTrip :
    (Instr.add 5 6 (.reg 7)).wf = true ∧ (∀ x, Instr.add 5 6 (.reg 7) ≠ .unassignedPattern x) ∧
    encode (.add 5 6 (.reg 7)) = some 0x0400518700000000 ∧ decode 0x0400518700000000 = .ok (.add 5 6 (.reg 7)) :=
  ⟨by decide, (by intro x h; cases h), by decide +kernel, by decide +kernel⟩

/-- The runner of demo with a NOP where it fetches. -/
def atNop : State := demo.withFetchWord 64 0x2400000000000000

theorem witness_StepRunsTheDecodedInstruction :
    (atNop.agenda = [] ∧ atNop.r.vq = [] ∧ atNop.r.stat = .ready ∧ atNop.mustStop = false) ∧
    (atNop.fetchBytes.toOption.map fun x => (decodeBytes x.1, x.2.awaits .nop, x.2.poisonedScalar .nop)) =
      some (.ok .nop, false, none) := by
  decide +kernel

/-- Register 6 holds an uncorrectable word, and the next instruction reads it. -/
def atPoison : State := (demo.withFetchWord 64 0x0400018600000000).mapR fun r => { r with scal := { r.scal with bad := [6] } }

theorem witness_StepRuns_poison :
    (atPoison.agenda = [] ∧ atPoison.r.vq = [] ∧ atPoison.r.stat = .ready ∧ atPoison.mustStop = false) ∧
    (atPoison.fetchBytes.toOption.map fun x => (decodeBytes x.1, x.2.awaits (.add 0 6 (.reg 6)), x.2.poisonedScalar (.add 0 6 (.reg 6)), x.2.r.strip.prot)) =
      some (.ok (.add 0 6 (.reg 6)), false, some 6, false) ∧
    (atPoison.fetchBytes.toOption.map fun x => x.2.reportsFirst (.add 0 6 (.reg 6))) = some false := by decide +kernel

/-- The next instruction waits at an address in the poisoned register, with FABRIC pending. -/
def atReport : State := (demo.withFetchWord 64 0x8400518600000000).mapR fun r =>
  { r with scal := { r.scal with bad := [6] }, fabric := some 3 }

theorem witness_StepRuns_report :
    (atReport.agenda = [] ∧ atReport.r.vq = [] ∧ atReport.r.stat = .ready ∧ atReport.mustStop = false) ∧
    (atReport.fetchBytes.toOption.map fun x => (decodeBytes x.1, x.2.awaits (.waitw 5 6 6 .eq 0), x.2.reportsFirst (.waitw 5 6 6 .eq 0))) =
      some (.ok (.waitw 5 6 6 .eq 0), false, true) := by decide +kernel

/-- The report comes before the poison (R329). -/
theorem test_fabric_before_poison :
    (match step atReport with
      | .next t => decide (t.r.scal.sysr.tcause = 0x114 ∧ t.r.fabric = none)
      | _ => false) = true := by decide +kernel

theorem test_poisoned_register :
    (match step atPoison with
      | .next t => decide (t.r.scal.sysr.tcause = 0x10 ∧ t.r.scal.sysr.tval = 0x8000000000000006 ∧ t.r.scal.bad = [6])
      | _ => false) = true := by decide +kernel

theorem witness_Jumps :
    let s := withReg demo [(6, 8), (7, 4)]
    (s.reg 6 + (0 : BitVec 32).signExtend 64).toNat % 8 = 0 ∧
    (s.reg 7 + (0 : BitVec 32).signExtend 64).toNat % 8 ≠ 0 ∧ s.r.vq = [] := by decide +kernel

theorem witness_FloatResults :
    ∃ sd r, demo.floatOp (.fadd .f64 1 2 3) = some (sd, r) ∧ demo.r.vq = [] ∧ trapEnabled demo.vtype r.flags = false ∧
      NoFpTraps demo ∧ bitOf demo.vtype 3 = false ∧ bitOf demo.vtype 4 = false :=
  ⟨_, _, rfl, rfl, by decide +kernel, by unfold NoFpTraps; decide +kernel, by decide +kernel, by decide +kernel⟩

/-- A division by zero with its trap enabled. -/
def divByZero : State := withReg (withVl demo 0 0x1F0200) [(2, 0x3FF0000000000000)]

theorem witness_FloatTraps :
    ∃ sd r, divByZero.floatOp (.fdiv .f64 1 2 3) = some (sd, r) ∧ divByZero.r.vq = [] ∧
      trapEnabled divByZero.vtype r.flags = true :=
  ⟨_, _, rfl, rfl, by decide +kernel⟩

/-- s4 names the scratchpad. -/
def padded : State := withReg demo [(4, pad), (5, 7)]

theorem witness_Loads : Reaches padded pad 8 .load (Loc.scratch 1 0).key ∧ padded.r.vq = [] :=
  ⟨reaches_scratch (s := padded) (off := 0) (by decide) (by decide) (by decide +kernel) (by decide) (by decide)
    rfl (by intro c h; cases h) (fresh_of rfl rfl (by decide +kernel) rfl), rfl⟩

theorem witness_Stores_plain : Reaches padded pad 8 .store (Loc.scratch 1 0).key ∧ padded.r.vq = [] ∧
    padded.r.strip.prot = false ∧ Memory.wf padded.mem :=
  ⟨reaches_scratch (s := padded) (off := 0) (by decide) (by decide) (by decide +kernel) (by decide) (by decide)
    rfl (by intro c h; cases h) (fresh_of rfl rfl (by decide +kernel) rfl), rfl, rfl, by decide +kernel⟩

/-- Protected strips with room and without it. -/
theorem witness_Stores_strip :
    (Reaches (inStrip padded 0) pad 8 .store (Loc.scratch 1 0).key ∧ (inStrip padded 0).r.vq = [] ∧
      (inStrip padded 0).r.strip.prot = true) ∧
    (inStrip padded 0).r.strip.count + 8 ≤ (inStrip padded 0).stripCap ∧
    (inStrip padded (demo.stripCap - 7)).stripCap < (inStrip padded (demo.stripCap - 7)).r.strip.count + 8 :=
  ⟨⟨reaches_scratch (s := inStrip padded 0) (off := 0) (by decide) (by decide) (by decide +kernel) (by decide) (by decide)
    rfl (by intro c h; cases h) (fresh_of rfl rfl (by decide +kernel) rfl), rfl, rfl⟩, by decide +kernel, by decide +kernel⟩

/-- A strip buffer with one store of module memory. -/
def buffered : State :=
  padded.mapR fun r => { r with strip := { r.strip with buf := [{ cells := [(64, 5)], count := 1 }] } }

theorem witness_Stores_commit : detOf buffered.vtype = false ∧ Memory.wf buffered.mem ∧ buffered.r.strip.lines = [] ∧
    ∀ x ∈ buffered.r.strip.buf, ∀ c ∈ x.cells, isOutKey c.1 = false := by decide +kernel

theorem witness_AddressChecks :
    let s := withReg demo [(4, 0x0200000000000000), (5, pad + 1)]
    s.r.vq = [] ∧ 2 ^ 57 ≤ (s.reg 4).toNat ∧ (s.reg 5).toNat < 2 ^ 57 ∧ (s.reg 5).toNat % 8 ≠ 0 := by decide +kernel

theorem witness_Atomics : Reaches padded (padded.reg 4) 8 .amo (Loc.scratch 1 0).key ∧ padded.r.vq = [] ∧
    padded.r.strip.prot = false ∧ Memory.wf padded.mem :=
  ⟨reaches_scratch (s := padded) (off := 0) (by decide +kernel) (by decide) (by decide +kernel) (by decide +kernel) (by decide)
    rfl (by intro c h; cases h) (fresh_of rfl rfl (by decide +kernel) rfl), rfl, rfl, by decide +kernel⟩

theorem witness_ControlReads : (atSystem demo 0).r.vq = [] ∧ (atSystem demo 0).r.scal.sysr.sys = true ∧
    (∀ n : Fin 8, crExists (0x100 + BitVec.ofNat 12 n.val) = true) := by decide +kernel

theorem witness_ControlWrites : demo.r.vq = [] ∧ crWritable 0x002 = true ∧ crSystem 0x002 = false ∧
    crLegal 0x002 0x200 = true ∧ crLegal 0x002 0x4000 = false ∧ crWritable 0x106 = true ∧
    (atSystem demo 0).r.scal.sysr.sys = true ∧ ((atSystem demo 0).part? demo.rid.part).isSome = true := by decide +kernel

theorem witness_SystemInstructions : demo.r.vq = [] ∧ demo.r.scal.sysr.sys = false ∧ crSystem 0x100 = true := by
  decide +kernel

/-- A heat with a handler, the same one inside a handler, and one without a handler. -/
theorem witness_TrapEntry :
    let nested := demo.mapR fun r => { r with scal := { r.scal with sysr := { r.scal.sysr with inh := true } } }
    let bare : State := { demo with heats := demo.heats.map fun h => { h with desc := { h.desc with handler := none } } }
    (∃ h, demo.myHeat? = some h ∧ demo.r.scal.sysr.inh = false ∧ h.desc.handler ≠ none) ∧
    (∃ h, nested.myHeat? = some h ∧ nested.r.scal.sysr.inh = true ∧ h.live = true ∧ h.cancelled = false) ∧
    ∃ h, bare.myHeat? = some h ∧ h.desc.handler = none ∧ h.live = true ∧ h.cancelled = false :=
  ⟨⟨_, rfl, by decide +kernel⟩, ⟨_, rfl, by decide +kernel⟩, ⟨_, rfl, by decide +kernel⟩⟩

theorem witness_ReturnFromTrap : (atSystem demo 8).r.vq = [] ∧ (atSystem demo 8).r.scal.sysr.sys = true ∧
    (atSystem demo 8).r.scal.sysr.tepc.toNat % 8 = 0 ∧ (atSystem demo 12).r.scal.sysr.tepc.toNat % 8 ≠ 0 := by decide +kernel

/-- At system level with a mapped page, as CINV and CFLUSH need. -/
theorem witness_FencesAndCaches :
    let s := atSystem atNop 0
    (s.r.vq = [] ∧ s.r.fabric = none ∧ s.r.share = [] ∧ s.r.scal.sysr.sys = true ∧ Memory.wf s.mem ∧
    (s.resolve (s.reg 5) 1 1 .load).1 = .found 0x30000 ∧ 0x30000 < 2 ^ 41 ∧
    s.r.strip.buf = [] ∧ wideScope .team = true ∧ wideScope .runner = false) ∧ NothingUnderWay s :=
  ⟨by decide +kernel, by decide +kernel, by decide +kernel, (by intro x h; cases h),
   (by intro c h a ha; cases h with
     | head => cases show (none : Option Attach) = some a from ha
     | tail _ h => cases h)⟩

/-- A strip begun with a count and without one, one that goes on, and none. -/
theorem witness_StripInstructions :
    let s := withReg demo [(4, 9)]
    s.r.vq = [] ∧ s.reg 4 ≠ 0 ∧ s.reg 5 = 0 ∧ s.r.strip.active = false ∧ (inStrip demo 0).r.strip.active = true ∧
    0 < (inStrip demo 0).r.strip.sc.toNat - min (inStrip demo 0).vl (inStrip demo 0).r.strip.sc.toNat ∧
    (withVl (inStrip demo 0) 9 0x200).r.strip.sc.toNat - min (withVl (inStrip demo 0) 9 0x200).vl 9 = 0 := by decide +kernel

theorem witness_QueueInstructions : demo.r.vq = [] ∧ demo.r.queues[(2 : QR)] = [] ∧
    (withQueue demo 2 [7]).r.queues[(2 : QR)] = 7 :: [] ∧
    16 ≤ (withQueue demo 0 (List.replicate 16 1)).r.queues[(0 : QR)].length ∧
    (withQueue demo 0 (List.replicate 15 1)).r.queues[(0 : QR)].length < 16 := by decide +kernel

/-! ### Vector instructions -/

/-- Elements of 32 bits, the first at the bottom. -/
def words (l : List Nat) : BitVec 16384 := l.foldr (fun x a => a <<< 32 ||| BitVec.ofNat 16384 x) 0

/-- Registers v8 to v11: INT32; a mask in v1; VL 4. -/
def ints : State :=
  withVl (withVec (withVec (withVec (withVec (withVec (padded) 8 0x30 (words [1, 2, 3, 0xFFFFFFFF])) 9 0x30 (words [5, 6, 7, 8]))
    10 0x30 0) 11 0x30 (words [3, 2, 1, 0])) 1 0x08 5) 4 0x200

/-- Registers v8 to v13: FP32: 0.5, 2.0, NaN, 2.0, −1.0 in v8; 1.0 in v9. VL 5. -/
def floats : State :=
  withVl (withVec (withVec (withVec (withVec (withVec (withVec (withVec padded 8 0x70
    (words [0x3F000000, 0x40000000, 0x7FC00000, 0x40000000, 0xBF800000])) 9 0x70 (words (List.replicate 8 0x3F800000)))
    10 0x70 0) 11 0x70 0) 12 0x30 (words [3, 2, 1, 0])) 13 0x70 0) 1 0x08 5) 5 0x200

theorem test_vadd_wraps : elemAfter (.vadd {} 10 8 (.vec 9)) ints 10 .i32 3 = some 7 := by decide +kernel
/-- The mask v1 = 0101 leaves element 1 as it was (R117, MP clear). -/
theorem test_vadd_masked : (List.range 4).map (elemAfter (.vadd { mask := { reg := 1 } } 9 8 (.vec 9)) ints 9 .i32) =
    [some 6, some 6, some 10, some 8] := by decide +kernel
/-- Word 1 of v8, its elements 2 and 3, is poisoned: elements 0 and 1 are done, element 2 consumes it (R341). -/
theorem test_poisoned_vector :
    let s := ints.mapR fun r => { r with vect := { r.vect with bad := [(8, 1)] } }
    (List.range 4).map (elemAfter (.vadd { mask := { reg := 1 } } 9 8 (.vec 9)) s 9 .i32) = [some 6, some 6, some 7, some 8] ∧
    stateAfter (.vadd {} 9 8 (.vec 9)) s (fun t => (t.r.scal.sysr.tcause, t.r.scal.sysr.tval, t.vstart, t.vl)) =
      some (0x10, 0x8000000000000108, 2, 4) := by decide +kernel
theorem test_vredsum : elemAfter (.vredsum {} 10 8) ints 10 .i32 0 = some 5 := by decide +kernel
theorem test_vslideup : (List.range 4).map (elemAfter (.vslideup {} 10 9 1 none) ints 10 .i32) = [some 0, some 5, some 6, some 7] := by
  decide +kernel
theorem test_vfma : elemAfter (.vfma {} 10 8 (.vec 8) 9) floats 10 (.fp .fp32) 1 = some 0x40A00000 := by decide +kernel
theorem test_vcompress : (List.range 3).map (elemAfter (.vcompress { mask := { reg := 1 } } 10 9) ints 10 .i32) =
    [some 5, some 7, some 0] := by decide +kernel

theorem witness_VectorIntegers : (ints.kind 8 = .int ∧ ints.destKind 10 = .int ∧ ints.operandIs .int (.vec 9) ∧
      ints.kind 11 = .int) ∧ FreeToRun (.vfma {} 10 8 (.vec 9) 11) ints ∧
    LengthOk ints (namesOf 10 8 (some (.vec 9)) (some 11)) {} :=
  ⟨⟨by decide +kernel, by decide +kernel, (by intro r h; cases h; decide +kernel), by decide +kernel⟩, free_of (by decide +kernel) rfl (by decide +kernel) (by decide +kernel), Or.inl rfl, by decide +kernel⟩

/-- VL is VLMAX, the greatest value that passes. -/
theorem witness_VectorIntegers_full : let s := withVl ints 32 0x200
    LengthOk s (namesOf 10 8 (some (.vec 9)) (some 11)) { reg := 1 } :=
  ⟨Or.inr (by decide +kernel), by decide +kernel⟩

theorem witness_VectorFloats : (floats.kind 8 = .float ∧ floats.destKind 10 = .float ∧ floats.fmtOf 10 = .fp .fp32 ∧
      floats.operandIs .float (.vec 9) ∧ NoFpTraps floats ∧ floats.kind 11 = .float ∧ floats.operandIs .int (.vec 12)) ∧
    FreeToRun (.vfma {} 10 8 (.vec 9) 11) floats ∧ LengthOk floats (namesOf 10 8 (some (.vec 9)) (some 11)) {} ∧
    FreeToRun (.vscalb {} 10 8 (.vec 12)) floats ∧ LengthOk floats (namesOf 10 8 (some (.vec 12)) none) {} :=
  ⟨⟨by decide +kernel, by decide +kernel, by decide +kernel, (by intro r h; cases h; decide +kernel),
    by unfold NoFpTraps; decide +kernel, by decide +kernel, (by intro r h; cases h; decide +kernel)⟩,
   free_of (by decide +kernel) rfl (by decide +kernel) (by decide +kernel), ⟨Or.inl rfl, by decide +kernel⟩, free_of (by decide +kernel) rfl (by decide +kernel) (by decide +kernel), ⟨Or.inl rfl, by decide +kernel⟩⟩

theorem witness_VectorFloats_pair : (floats.destKind (10 + 1) = .float ∧ floats.fmtOf (10 + 1) = .fp .fp32 ∧
      opFormat (floats.vreg 8).opf (floats.vreg 9).opf = .fp32) ∧ FreeToRun (.vtwosum {} 10 8 (.vec 9)) floats ∧
    LengthOk floats { vd := some 10, va := some 8, vb := VB.reg? (.vec 9), more := [10 + 1] } {} :=
  ⟨by decide +kernel, free_of (by decide +kernel) rfl (by decide +kernel) (by decide +kernel), Or.inl rfl, by decide +kernel⟩

/-- The trap of an invalid operation enabled; element 2 of v8 is a signalling NaN. -/
def trapping : State :=
  withVl (withVec floats 8 0x70 (words [0x3F000000, 0x40000000, 0x7F800001, 0x40000000, 0xBF800000])) 5 0x1F0200

theorem witness_VectorTraps_flag :
    let val (j : Nat) := FF.fp32.deliver (modesOf trapping.vtype)
      (addX (rmOf trapping.vtype) ((trapping.vreg 8).src false j) ((trapping.srcB 8 (.vec 9) (trapping.capture (.vec 9))).val j))
    (trapEnabled trapping.vtype (trapping.srcB 8 (.vec 9) (trapping.capture (.vec 9))).flags = false ∧
      trapping.vstart ≤ 2 ∧ 2 < trapping.vl ∧ trapping.active {} 2 = true ∧ trapEnabled trapping.vtype (val 2).flags = true) ∧
    (∀ j, j < 2 → trapEnabled trapping.vtype (val j).flags = false) ∧
    FreeToRun (.vadd {} 10 8 (.vec 9)) trapping ∧ LengthOk trapping (namesOf 10 8 (some (.vec 9)) none) {} :=
  ⟨by decide +kernel, by decide +kernel, free_of (by decide +kernel) rfl (by decide +kernel) (by decide +kernel), Or.inl rfl, by decide +kernel⟩

/-- The runner of demo right before a NOP. -/
def beforeNop : State := let s := demo.withFetchWord 64 0x2400000000000000
  s.mapR fun r => { r with scal := { r.scal with pc := s.pc - 8 } }

theorem member_nop : beforeNop.memberAt (beforeNop.pc + 8) = .ok (some .nop, beforeNop) := by
  have h : (beforeNop.resolve (beforeNop.pc + 8) 8 8 .fetch).1 = .found 0x30000 := by decide +kernel
  have w : wordInstr (bytesAt beforeNop.mem 0x30000 8) = some .nop := by decide +kernel
  unfold State.memberAt
  revert h
  cases beforeNop.resolve (beforeNop.pc + 8) 8 8 .fetch with
  | mk a u => intro h; dsimp only at h; subst h; simp [isHostKey, hostBase, w]

/-- A convoy whose second member uses no unit. -/
theorem witness_VectorTraps_convoy :
    let i : Instr := .vadd { cv := true } 1 2 (.vec 3)
    beforeNop.r.vq = [] ∧ cvOf i = true ∧ beforeNop.memberAt (beforeNop.pc + 8) = .ok (some .nop, beforeNop) ∧
    unitsOf .nop = [] ∧ beforeNop.convoyCheck i = .error (.trap .convoy (beforeNop.pc + 8), beforeNop) :=
  ⟨by decide +kernel, rfl, member_nop, rfl, by
    rw [State.convoyCheck, show cvOf (.vadd { cv := true } 1 2 (.vec 3)) = true from rfl, if_pos rfl, State.convoyLoop, member_nop]
    rfl⟩

/-- A mask register without the mask tag, two kinds, VL above VLMAX. -/
theorem witness_VectorTraps_tag : FreeToRun (.vadd { mask := { reg := 2 } } 10 8 (.vec 9)) ints ∧
    ¬MaskOk ints { reg := 2 } ∧ ¬(ints.kind 1 = ints.kind 8) ∧
    (withVl ints 33 0x200).vlmaxOf (namesOf 10 8 (some (.vec 9)) none) < (withVl ints 33 0x200).vl :=
  ⟨free_of (by decide +kernel) rfl (by decide +kernel) (by decide +kernel), by unfold MaskOk; decide +kernel, by decide +kernel, by decide +kernel⟩

theorem witness_VectorLogic : ints.kind 8 = .int ∧ ints.destKind 10 = ints.kind 8 ∧ ints.operandIs (ints.kind 8) (.vec 9) ∧
    FreeToRun (.vxor {} 10 8 (.vec 9)) ints ∧ LengthOk ints (namesOf 10 8 (some (.vec 9)) none) {} ∧
    ints.kind 1 = .mask ∧ ints.destKind 1 = ints.kind 1 ∧ ints.operandIs (ints.kind 1) (.vec 1) :=
  ⟨by decide +kernel, by decide +kernel, (by intro r h; cases h; decide +kernel), free_of (by decide +kernel) rfl (by decide +kernel) (by decide +kernel), ⟨Or.inl rfl, by decide +kernel⟩, by decide +kernel, by decide +kernel,
   (by intro r h; cases h; decide +kernel)⟩

theorem witness_VectorCompares : floats.kind 1 = .mask ∧ FreeToRun (.vcmp {} 1 8 (.vec 9) 2) floats ∧
    LengthOk floats (namesOf 1 8 (some (.vec 9)) none) {} ∧ floats.kind 8 = .float ∧ floats.operandIs .float (.vec 9) ∧
    NoFpTraps floats ∧ ints.kind 1 = .mask ∧ ints.kind 8 = .int ∧ ints.operandIs .int (.vec 9) :=
  ⟨by decide +kernel, free_of (by decide +kernel) rfl (by decide +kernel) (by decide +kernel), ⟨Or.inl rfl, by decide +kernel⟩, by decide +kernel, (by intro r h; cases h; decide +kernel),
    by unfold NoFpTraps; decide +kernel, by decide +kernel, by decide +kernel, (by intro r h; cases h; decide +kernel)⟩

/-- v14: FP8E4M3 with a block scale. -/
def blocks : State := withVec floats 14 0x54 0

theorem witness_VectorConversions :
    (blocks.kind 8 ≠ .none ∧ blocks.kind 8 ≠ .mask ∧ blocks.kind 8 ≠ .grouped ∧ (blocks.vreg 10).bs = false ∧ blocks.fmtOf 10 = .fp .fp32 ∧
      blocks.kind 12 = .int ∧ blocks.fmtOf 12 = .i32 ∧ (blocks.vreg 14).bs = true ∧ blocks.kind 14 = .float ∧
      blocks.vstart % 32 = 0) ∧ NoFpTraps blocks ∧
    FreeToRun (.vcvtsr {} 14 8 12) blocks ∧ LengthOk blocks { vd := some 14, va := some 8, vb := some 12 } {} ∧
    FreeToRun (.vcvt {} 12 8) blocks ∧ LengthOk blocks { vd := some 12, va := some 8 } {} :=
  ⟨by decide +kernel, by unfold NoFpTraps; decide +kernel, free_of (by decide +kernel) rfl (by decide +kernel) (by decide +kernel), ⟨Or.inl rfl, by decide +kernel⟩,
   free_of (by decide +kernel) rfl (by decide +kernel) (by decide +kernel), ⟨Or.inl rfl, by decide +kernel⟩⟩

/-- v16, v17: INT4G. -/
def groups : State := withVl (withVec (withVec ints 16 0x80 0x4321) 17 0x80 0) 4 0x200

/-- A mask, a register of no tag, a grouped register. -/
theorem witness_VectorConversions_tag : ints.kind 1 = .mask ∧ FreeToRun (.vcvt {} 12 1) ints ∧ groups.kind 16 = .grouped ∧
    FreeToRun (.vcvtsr {} 14 16 12) groups ∧ (withVec ints 20 0 0).kind 20 = .none ∧ FreeToRun (.vcvt {} 12 20) (withVec ints 20 0 0) :=
  ⟨by decide +kernel, free_of (by decide +kernel) rfl (by decide +kernel) (by decide +kernel), by decide +kernel,
   free_of (by decide +kernel) rfl (by decide +kernel) (by decide +kernel), by decide +kernel,
   free_of (by decide +kernel) rfl (by decide +kernel) (by decide +kernel)⟩

theorem witness_VectorMoves :
    ((ints.vreg 8).tag = (ints.vreg 10).tag ∧ ints.destKind 10 = .int ∧ (3 : BitVec 16).toNat < (ints.vreg 8).count ints.vlen ∧
      ints.kind 1 = .mask ∧ (ints.vreg 9).tag = (ints.vreg 10).tag) ∧ NoFpTraps ints ∧
    FreeToRun (.vsel {} 10 8 (.vec 9) 1) ints ∧ LengthOk ints (namesOf 10 8 (some (.vec 9)) (some 1)) {} ∧
    ((groups.vreg 16).tag = (groups.vreg 17).tag ∧ groups.destKind 17 = .grouped ∧ (groups.vreg 17).fmt ≠ none) ∧ NoFpTraps groups ∧
    FreeToRun (.vmov {} 17 16) groups ∧ LengthOk groups { vd := some 17, va := some 16 } {} :=
  ⟨by decide +kernel, by unfold NoFpTraps; decide +kernel, free_of (by decide +kernel) rfl (by decide +kernel) (by decide +kernel), ⟨Or.inl rfl, by decide +kernel⟩,
   by decide +kernel, by unfold NoFpTraps; decide +kernel, free_of (by decide +kernel) rfl (by decide +kernel) (by decide +kernel), ⟨Or.inl rfl, by decide +kernel⟩⟩

theorem witness_VectorQueueSide :
    let s := withQueue (withQueue ints 0 [7]) 2 (List.replicate 15 0)
    FreeToRun (.vqpush {} 2 8 0) s ∧ s.r.queues[(2 : QR)].length < 16 ∧ s.r.queues[(0 : QR)] = 7 :: [] ∧
    FreeToRun (.vqpop {} 10 0) s ∧ LengthOk s { vd := some 10 } {} ∧ NoFpTraps s ∧ s.destKind 10 = .int ∧
    s.kind 1 = .mask ∧ LengthOk s { va := some 1 } {} ∧ (31 : BitVec 16).toNat < (s.vreg 8).count s.vlen :=
  ⟨free_of (by decide +kernel) rfl (by decide +kernel) (by decide +kernel), by decide +kernel, by decide +kernel, free_of (by decide +kernel) rfl (by decide +kernel) (by decide +kernel), ⟨Or.inl rfl, by decide +kernel⟩,
   by unfold NoFpTraps; decide +kernel, by decide +kernel, by decide +kernel, ⟨Or.inl rfl, by decide +kernel⟩, by decide +kernel⟩

theorem witness_Permutes :
    (NoFpTraps ints ∧ ints.destKind 10 = .int ∧ (ints.vreg 8).tag = (ints.vreg 10).tag ∧ ints.kind 11 = .int ∧
      (ints.vreg 9).tag = (ints.vreg 10).tag) ∧
    FreeToRun (.vperm {} 10 8 11 (some 5)) ints ∧ LengthOk ints { vd := some 10, va := some 8, vc := some 11 } {} ∧
    FreeToRun (.vzip {} 10 8 9) ints ∧ LengthOk ints { vd := some 10, va := some 8, vb := some 9 } {} ∧
    FreeToRun (.vinsert {} 10 5 31) ints ∧ (31 : BitVec 16).toNat < (ints.vreg 10).count ints.vlen ∧
    FreeToRun (.vexpand { mask := { reg := 1 } } 10 8) ints ∧ LengthOk ints { vd := some 10, va := some 8 } { reg := 1 } :=
  ⟨⟨by unfold NoFpTraps; decide +kernel, by decide +kernel⟩, free_of (by decide +kernel) rfl (by decide +kernel) (by decide +kernel), ⟨Or.inl rfl, by decide +kernel⟩,
   free_of (by decide +kernel) rfl (by decide +kernel) (by decide +kernel), ⟨Or.inl rfl, by decide +kernel⟩, free_of (by decide +kernel) rfl (by decide +kernel) (by decide +kernel), by decide +kernel,
   free_of (by decide +kernel) rfl (by decide +kernel) (by decide +kernel), ⟨Or.inr (by decide +kernel), by decide +kernel⟩⟩

theorem witness_Permutes_blocks :
    let s := withVl (withVec blocks 15 0x54 0) 64 0x200
    ((s.vreg 14).bs = true ∧ s.kind 14 = .float ∧ (s.vreg 15).tag = (s.vreg 14).tag ∧ (32 : BitVec 16).toNat % 32 = 0) ∧
    NoFpTraps s ∧ FreeToRun (.vslidedn {} 14 15 32 none) s ∧ LengthOk s { vd := some 14, va := some 15 } {} :=
  ⟨by decide +kernel, by unfold NoFpTraps; decide +kernel, free_of (by decide +kernel) rfl (by decide +kernel) (by decide +kernel), ⟨Or.inl rfl, by decide +kernel⟩⟩

theorem witness_Reductions :
    (ints.kind 8 = .int ∧ ints.destKind 10 = .int ∧ floats.kind 8 = .float ∧ floats.destKind 10 = .float ∧
      floats.fmtOf 10 = .fp .fp32 ∧ floats.kind 9 = .float ∧ floats.destKind (10 + 1) = .float ∧
      floats.fmtOf (10 + 1) = .fp .fp32) ∧ NoFpTraps floats ∧
    FreeToRun (.vscan {} 10 8 4) ints ∧ LengthOk ints { vd := some 10, va := some 8 } {} ∧
    FreeToRun (.vredts {} 10 8 9) floats ∧
    LengthOk floats { vd := some 10, va := some 8, vb := some 9, more := [10 + 1] } {} ∧
    LengthOk floats { vd := some 10, va := some 8 } {} :=
  ⟨by decide +kernel, by unfold NoFpTraps; decide +kernel, free_of (by decide +kernel) rfl (by decide +kernel) (by decide +kernel), ⟨Or.inl rfl, by decide +kernel⟩,
   free_of (by decide +kernel) rfl (by decide +kernel) (by decide +kernel), ⟨Or.inl rfl, by decide +kernel⟩, ⟨Or.inl rfl, by decide +kernel⟩⟩

/-- The least and the greatest fields VTYPE takes, one beyond each, and an empty queue. -/
theorem witness_VectorConfiguration :
    let ok (w : Word) : Bool := w.toNat < 2 ^ 21 && !bitOf w 14 && bitsOf w 0 3 ≤ 4 &&
      (bitsOf w 10 4 == 0 || (3 ≤ bitsOf w 10 4 && bitsOf w 10 4 ≤ 8))
    ok 0x200 = true ∧ ok 0x1F2204 = true ∧ ok 0x200000 = false ∧ ok 0x205 = false ∧ ok 0x800 = false ∧
    tagDefined 0x54 = true ∧ ints.r.queues[(2 : QR)].length < 16 ∧ FreeToRun (.vcfgw 5) ints ∧
    FreeToRun (.vsetvlQueue 2 5 0) ints :=
  ⟨by decide +kernel, by decide +kernel, by decide +kernel, by decide +kernel, by decide +kernel, by decide +kernel,
   by decide +kernel, free_of (by decide +kernel) rfl (by decide +kernel) (by decide +kernel), free_of (by decide +kernel) rfl (by decide +kernel) (by decide +kernel)⟩

theorem witness_VectorConfiguration_entries :
    let s := withVec groups 18 0x20 0
    FreeToRun (.vidx {} 10 1 1) s ∧ LengthOk s { vd := some 10 } {} ∧ s.destKind 10 = .int ∧ (s.vreg 18).tag = 0x20 ∧
    (s.vreg 16).fmt ≠ none ∧ FreeToRun (.vscget {} 18 16) s ∧ FreeToRun (.vscset {} 16 18) s :=
  ⟨free_of (by decide +kernel) rfl (by decide +kernel) (by decide +kernel), ⟨Or.inl rfl, by decide +kernel⟩, by decide +kernel, by decide +kernel, by decide +kernel,
   free_of (by decide +kernel) rfl (by decide +kernel) (by decide +kernel), free_of (by decide +kernel) rfl (by decide +kernel) (by decide +kernel)⟩

/-- The counter with room for its blocks to the last one, and without. -/
theorem witness_RandomNumbers : let last := ints.mapR fun r => { r with vect := { r.vect with rngctr := -1 } }
    let s := withVl last 5 0x200
    FreeToRun (.vrng {} 10) last ∧ LengthOk last { vd := some 10 } {} ∧ last.destKind 10 = .int ∧
    last.r.vect.rngctr.toNat + (last.vl * 32 + 127) / 128 ≤ 2 ^ 64 ∧
    2 ^ 64 < s.r.vect.rngctr.toNat + (s.vl * 32 + 127) / 128 ∧ FreeToRun (.vrng {} 10) s ∧ LengthOk s { vd := some 10 } {} :=
  ⟨free_of (by decide +kernel) rfl (by decide +kernel) (by decide +kernel), ⟨Or.inl rfl, by decide +kernel⟩, by decide +kernel, by decide +kernel, by decide +kernel,
   free_of (by decide +kernel) rfl (by decide +kernel) (by decide +kernel), ⟨Or.inl rfl, by decide +kernel⟩⟩

/-! ### Vector memory, streams, copies -/

/-- The key of an address of the scratchpad window. -/
def padKey (a : Word) : Nat := (Loc.scratch 1 (a.toNat % 2 ^ 32)).key

theorem serves_pad {s : State} {foot : Nat → Prop} (a : Word) (n : Nat) {k : AccKind} (hu : s.myTeamUid = 1)
    (hs : s.scratchSize = 4096) (hp : bitOf s.r.scal.pinslice 63 = false) (hq : s.poison = []) (hh : s.r.hist = [])
    (hk : k ≠ .fetch) (h : a.toNat = 0x01FF000000000000 + a.toNat % 2 ^ 32) (he : a.toNat % 2 ^ 32 + n ≤ 4096)
    (ha : a.toNat % n = 0) (hl : s.myCore.l1 = [] := by decide +kernel) (ho : s.r.pages = [] := by decide +kernel) : Serves s foot a n k (padKey a) := by
  have := serves_scratch (s := s) (foot := foot) (n := n) (k := k) h (Nat.mod_lt _ (by decide)) (by rw [hs]; exact he) ha hk hq
    (fresh_of hh hl hp ho)
  rw [hu] at this
  exact this

/-- An address among a few served by the pad. -/
theorem serves_range {s : State} {foot : Nat → Prop} (addr : Nat → Word) (n c : Nat) {k : AccKind} (hu : s.myTeamUid = 1)
    (hs : s.scratchSize = 4096) (hp : bitOf s.r.scal.pinslice 63 = false) (hq : s.poison = []) (hh : s.r.hist = [])
    (hk : k ≠ .fetch)
    (h : ((List.range c).all fun j => decide ((addr j).toNat = 0x01FF000000000000 + (addr j).toNat % 2 ^ 32) &&
      decide ((addr j).toNat % 2 ^ 32 + n ≤ 4096) && decide ((addr j).toNat % n = 0)) = true)
    (hl : s.myCore.l1 = [] := by decide +kernel) (ho : s.r.pages = [] := by decide +kernel) :
    ∀ j, j < c → Serves s foot (addr j) n k (padKey (addr j)) := by
  intro j hj
  have := List.all_eq_true.mp h j (List.mem_range.mpr hj)
  simp only [Bool.and_eq_true, decide_eq_true_eq] at this
  exact serves_pad (addr j) n hu hs hp hq hh hk this.1.1 this.1.2 this.2 hl ho

/-- VLD of words of the pad (R154). -/
theorem test_vld : elemAfter (.vld {} 10 4 0 0)
    { ints with mem := cellsPut [] (cellsFrom (padKey (pad + 12)) [9, 1]) } 10 .i32 3 = some 0x109 := by decide +kernel

theorem witness_VectorLoads :
    ints.destKind 10 = .int ∧ ints.pending = [] ∧ FreeToRun (.vld {} 10 4 0 0) ints ∧ LengthOk ints { vd := some 10 } {} ∧
    ∀ j, ints.vstart ≤ j ∧ j < ints.vl ∧ ints.active {} j = true →
      Serves ints (fun _ => False) (ints.reg 4 + (0 : BitVec 16).signExtend 64 + BitVec.ofNat 64 (4 * j)) 4 .load
        (padKey (ints.reg 4 + (0 : BitVec 16).signExtend 64 + BitVec.ofNat 64 (4 * j))) :=
  ⟨by decide +kernel, by decide +kernel, free_of (by decide +kernel) rfl (by decide +kernel) (by decide +kernel),
   ⟨Or.inl rfl, by decide +kernel⟩, fun j h => serves_range (fun j => ints.reg 4 + (0 : BitVec 16).signExtend 64 + BitVec.ofNat 64 (4 * j))
    4 4 (by decide +kernel) (by decide +kernel) (by decide +kernel) (by decide +kernel) (by decide +kernel) (by decide)
    (by decide +kernel) (by decide +kernel) (by decide +kernel) j h.2.1⟩

/-- A first-fault load whose element 2 lies past the end of the pad. -/
theorem witness_VectorLoads_fault :
    let s := withReg ints [(4, pad + 4088)]
    let unit (j : Nat) : Word := s.reg 4 + (0 : BitVec 16).signExtend 64 + BitVec.ofNat 64 (4 * j)
    let drawn (n : Nat) : State := { s with free := n }
    (List.range 4).all (fun j => s.active {} j) = true ∧
    (∀ n l, (((drawn n).served s.mem l).resolve (unit 2) 4 4 .load).1 = .trap .access) ∧
    ∀ j, j < 2 → Serves s (fun _ => False) (unit j) 4 .load (padKey (unit j)) := by
  intro s unit drawn
  refine ⟨by decide +kernel, fun n l => ?_,
    serves_range _ 4 2 (by decide +kernel) (by decide +kernel) (by decide +kernel) (by decide +kernel) (by decide +kernel)
      (by decide) (by decide +kernel)⟩
  have h : (unit 2).toNat = 0x01FF000000000000 + 4096 := by decide +kernel
  have hs : ((drawn n).served s.mem l).scratchSize = 4096 := rfl
  rw [State.resolve_pastScratch (off := 4096) h (by omega) (by rw [hs]; omega) (by omega)]

/-- INT4G elements and their scales in the pad. -/
theorem witness_ScaledMemory :
    let s := withReg groups [(4, pad), (5, pad + 64)]
    (s.fmtOf 16 = .int4g ∧ s.vstart % 2 = 0 ∧ s.vl % 2 = 0 ∧ s.destKind 16 = .grouped ∧ s.pending = [] ∧
      s.r.strip.prot = false ∧ detOf s.vtype = false ∧ s.r.share = [] ∧ s.r.strip.buf = [] ∧ Memory.wf s.mem) ∧
    FreeToRun (.vld {} 16 4 5 0) s ∧ FreeToRun (.vst {} 16 4 5 0) s ∧ LengthOk s { vd := some 16 } {} ∧
    (∀ b, b < 2 → Serves s (fun _ => False) (s.reg 4 + BitVec.ofNat 64 b) 1 .load (padKey (s.reg 4 + BitVec.ofNat 64 b))) ∧
    (∀ foot b, b < 2 → Serves s foot (s.reg 4 + BitVec.ofNat 64 b) 1 .store (padKey (s.reg 4 + BitVec.ofNat 64 b))) ∧
    padKey (s.reg 4) ≠ padKey (s.reg 4 + 1) ∧
    (∀ foot k, k < 1 → Serves s foot (s.reg 5 + BitVec.ofNat 64 (2 * k)) 2 .store (padKey (s.reg 5 + BitVec.ofNat 64 (2 * k)))) ∧
    padKey (s.reg 4 + 1) < padKey (s.reg 5) :=
  ⟨by decide +kernel, free_of (by decide +kernel) rfl (by decide +kernel) (by decide +kernel),
   free_of (by decide +kernel) rfl (by decide +kernel) (by decide +kernel), ⟨Or.inl rfl, by decide +kernel⟩,
   serves_range _ 1 2 (by decide +kernel) (by decide +kernel) (by decide +kernel) (by decide +kernel)
    (by decide +kernel) (by decide) (by decide +kernel),
   fun foot => serves_range _ 1 2 (by decide +kernel) (by decide +kernel) (by decide +kernel) (by decide +kernel)
    (by decide +kernel) (by decide) (by decide +kernel),
   by decide +kernel,
   fun foot => serves_range (fun k => _ + BitVec.ofNat 64 (2 * k)) 2 1 (by decide +kernel) (by decide +kernel) (by decide +kernel)
    (by decide +kernel) (by decide +kernel) (by decide) (by decide +kernel),
   by decide +kernel⟩

/-- The other tags of that statement: a mask of eight bits, INT3G in whole groups, a block-scaled register. -/
theorem witness_ScaledMemory_tags :
    let s := withVl (withVec blocks 19 0x88 0) 32 0x200
    (s.fmtOf 1 = .mask ∧ s.vstart % 8 = 0 ∧ s.vl % 8 = 0) ∧ (s.fmtOf 19 = .int3g ∧ s.vstart % 32 = 0 ∧ s.vl % 32 = 0) ∧
    ((s.vreg 14).bs = true ∧ (s.vreg 14).fmt ≠ none ∧ s.vstart % 32 = 0) := by decide +kernel

theorem witness_VectorStores :
    (ints.destKind 8 = .int ∧ ints.pending = [] ∧ ints.r.strip.prot = false ∧ detOf ints.vtype = false ∧ ints.r.share = [] ∧
      Memory.wf ints.mem ∧ ints.kind 11 = .int) ∧
    FreeToRun (.vstxu {} 8 11 4 0) ints ∧ LengthOk ints { vd := some 8, more := [11] } {} ∧
    ∀ foot j, j < 4 → Serves ints foot (ints.reg 4 + BitVec.ofInt 64 (4 * (ints.vreg 11).index j)) 4 .store
      (padKey (ints.reg 4 + BitVec.ofInt 64 (4 * (ints.vreg 11).index j))) :=
  ⟨by decide +kernel, free_of (by decide +kernel) rfl (by decide +kernel) (by decide +kernel), ⟨Or.inl rfl, by decide +kernel⟩,
   fun foot => serves_range (fun j => ints.reg 4 + BitVec.ofInt 64 (4 * (ints.vreg 11).index j)) 4 4 (by decide +kernel)
    (by decide +kernel) (by decide +kernel) (by decide +kernel) (by decide +kernel) (by decide) (by decide +kernel)⟩

/-- Byte offsets 0, 4, 4, 0: two pairs of elements meet. -/
theorem witness_VectorAtomics :
    let s := withVec ints 11 0x30 (words [0, 4, 4, 0])
    let at_ (j : Nat) : Word := s.reg 4 + (0 : BitVec 16).signExtend 64 + BitVec.ofInt 64 ((s.vreg 11).index j)
    (s.kind 11 = .int ∧ s.pending = [] ∧ s.r.strip.prot = false ∧ s.r.share = [] ∧ Memory.wf s.mem ∧ s.fmtOf 8 = .i32 ∧
      (s.vreg 8).bs = false) ∧
    FreeToRun (.vamoadd {} 8 11 4 0) s ∧ LengthOk s { vd := some 8, more := [11] } {} ∧
    ∀ foot j, j < 4 → Serves s foot (at_ j) 4 .amo (padKey (at_ j)) :=
  ⟨by decide +kernel, free_of (by decide +kernel) rfl (by decide +kernel) (by decide +kernel), ⟨Or.inl rfl, by decide +kernel⟩,
   fun foot => serves_range _ 4 4 (by decide +kernel)
    (by decide +kernel) (by decide +kernel) (by decide +kernel) (by decide +kernel) (by decide) (by decide +kernel)⟩

/-- Two fields of four records, 8 bytes apart; the permutation 3, 2, 1, 0. -/
theorem witness_Streams :
    let seg (j f : Nat) : Word := ints.reg 4 + (0 : BitVec 13).signExtend 64 + BitVec.ofNat 64 j * 8 + BitVec.ofNat 64 (f * 4)
    (ints.destKind 8 = .int ∧ ints.r.stat = .ready ∧ ints.r.streams = [] ∧ ints.pending = [] ∧ ints.r.replies = [] ∧ ints.kind 11 = .int ∧
      ints.vstart = 0 ∧ (ints.vreg (8 + 1)).tag = (ints.vreg 8).tag) ∧
    FreeToRun (.streamseg {} 8 4 0 11 1 0) ints ∧ LengthOk ints { vd := some 8, more := [8 + 1, 11] } {} ∧
    (∀ k, ({ ints with free := k } : State).convoyCheck (.streamseg {} 8 4 0 11 1 0) = .ok ((), { ints with free := k })) ∧
    ∀ f, f < 2 → ∀ j, j < 4 → Serves ints (fun _ => False) (seg j f) 4 .load (padKey (seg j f)) :=
  ⟨by decide +kernel, free_of (by decide +kernel) rfl (by decide +kernel) (by decide +kernel), ⟨Or.inl rfl, by decide +kernel⟩,
   fun _ => rfl, fun f hf => by
    have h (f : Nat) (h : ((List.range 4).all fun j =>
        decide ((ints.reg 4 + (0 : BitVec 13).signExtend 64 + BitVec.ofNat 64 j * 8 + BitVec.ofNat 64 (f * 4)).toNat =
          0x01FF000000000000 + (ints.reg 4 + (0 : BitVec 13).signExtend 64 + BitVec.ofNat 64 j * 8 + BitVec.ofNat 64 (f * 4)).toNat % 2 ^ 32) &&
        decide ((ints.reg 4 + (0 : BitVec 13).signExtend 64 + BitVec.ofNat 64 j * 8 + BitVec.ofNat 64 (f * 4)).toNat % 2 ^ 32 + 4 ≤ 4096) &&
        decide ((ints.reg 4 + (0 : BitVec 13).signExtend 64 + BitVec.ofNat 64 j * 8 + BitVec.ofNat 64 (f * 4)).toNat % 4 = 0)) = true) :=
      serves_range (s := ints) (foot := fun _ => False) (k := .load)
        (fun j => ints.reg 4 + (0 : BitVec 13).signExtend 64 + BitVec.ofNat 64 j * 8 + BitVec.ofNat 64 (f * 4)) 4 4
        (by decide +kernel) (by decide +kernel) (by decide +kernel) (by decide +kernel) (by decide +kernel) (by decide) h
    match f, hf with
    | 0, _ => exact h 0 (by decide +kernel)
    | 1, _ => exact h 1 (by decide +kernel)⟩

/-- A descriptor in the pad: 2 × 1 × 1 × 1 elements of 4 bytes from offset 256 to offset 512. -/
def descWords : List Word := [pad + 256, pad + 512, 0, 0, 0, 0, 0, 0, 0, 2, 0, 0]

/-- s4 names a descriptor, s5 the extents. -/
def copying (ws : List Word) (ext : Word) : State :=
  { withReg demo [(4, pad), (5, ext)] with
    mem := cellsPut [] (cellsFrom (padKey pad) (ws.flatMap fun w => natToLeBytes 8 w.toNat)) }

theorem witness_CopyAcceptance :
    let s := copying descWords 0x0001000100010002
    let d := s.reg 4 + (0 : BitVec 16).signExtend 64
    (s.r.vq = [] ∧ s.r.stat = .ready ∧ s.r.strip.prot = false ∧ s.pending = [] ∧ (s.copyLoad).1 < 64 ∧ (s.copyLoad).2 < 16 ∧
      descWords.length = 12 ∧ s.r.strip.buf = [] ∧ s.badField (copyDesc descWords) 8 = none ∧
      s.badField (copyDesc (descWords.set 9 4)) 8 = some 0x48) ∧
    (∀ n : Fin 12, (descWords[n.val]?).getD 0 =
      BitVec.ofNat 64 (leBytesToNat (s.ownBytes (padKey (d + BitVec.ofNat 64 (8 * n.val))) 8))) ∧
    (∀ n, n < 12 → Serves s (fun _ => False) (d + BitVec.ofNat 64 (8 * n)) 8 .load (padKey (d + BitVec.ofNat 64 (8 * n)))) ∧
    (∀ j, j < 2 → Serves s (fun _ => False) (pad + 256 + BitVec.ofNat 64 (4 * j)) 4 .load (padKey (pad + 256 + BitVec.ofNat 64 (4 * j)))) ∧
    (∀ j, j < 2 → Serves s (fun _ => False) (pad + 512 + BitVec.ofNat 64 (4 * j)) 4 .store (padKey (pad + 512 + BitVec.ofNat 64 (4 * j)))) ∧
    boxAddrs (pad + 256) (0, 0, 0) [2, 1, 1, 1] 4 = [pad + 256, pad + 260] :=
  ⟨by decide +kernel, by decide +kernel,
   serves_range (fun n => _ + BitVec.ofNat 64 (8 * n)) 8 12 (by decide +kernel) (by decide +kernel) (by decide +kernel)
    (by decide +kernel) (by decide +kernel) (by decide) (by decide +kernel),
   serves_range (fun n => _ + BitVec.ofNat 64 (4 * n)) 4 2 (by decide +kernel) (by decide +kernel) (by decide +kernel)
    (by decide +kernel) (by decide +kernel) (by decide) (by decide +kernel),
   serves_range (fun n => _ + BitVec.ofNat 64 (4 * n)) 4 2 (by decide +kernel) (by decide +kernel) (by decide +kernel)
    (by decide +kernel) (by decide +kernel) (by decide) (by decide +kernel), by decide +kernel⟩

/-! ### Leased engines and collectives -/

/-- A held lease of a kind in slot 0, its handle in s6. -/
def leasing (s : State) (k : Kind) (st : LeaseSt) : State :=
  (withReg s [(6, 0x10000)]).mapR fun r => { r with leases := r.leases.set 0 (some
    { handle := 0x10000, kind := k, pri := 0, st := st, engine := some { kind := .lease k } }) }

/-- R205's example: the two largest of 0.5, 2.0, NaN, 2.0, −1.0 are elements 1 and 3. -/
theorem test_xtopk : (List.range 2).map (elemAfter (.xtopk {} 12 8 2 false 6)
    (leasing (withVec floats 13 0x70 0) .sxe .held) 12 .i32) = [some 1, some 3] := by decide +kernel

theorem witness_SpecialFunctions :
    let s := leasing floats .sfe .held
    FreeToRun (.sfn {} 10 8 0 6) s ∧ LeaseHeld s (s.reg 6) .sfe ∧
    (s.fmtOf 8 = .fp .fp32 ∧ (s.vreg 8).bs = false ∧ (s.vreg 10).bs = false ∧ s.fmtOf 10 = .fp .fp32 ∧ FF.fp32 ≠ FF.fp64) ∧
    LengthOk s { vd := some 10, va := some 8 } {} ∧ NoFpTraps s :=
  ⟨free_of (by decide +kernel) rfl (by decide +kernel) (by decide +kernel), ⟨⟨0, _, rfl, rfl, rfl⟩, rfl⟩, by decide +kernel,
   ⟨Or.inl rfl, by decide +kernel⟩, by unfold NoFpTraps; decide +kernel⟩

/-- No lease, a lost one, one of another kind. -/
theorem witness_SpecialFunctions_traps :
    floats.r.leaseOf (floats.reg 7) = none ∧
    ((leasing floats .sfe .lostOrderly).r.wait = none ∧
      ∃ slot l, (leasing floats .sfe .lostOrderly).r.leaseOf 0x10000 = some (slot, l) ∧ l.st ≠ .held) ∧
    ∃ slot l, (leasing floats .sxe .held).r.leaseOf 0x10000 = some (slot, l) ∧ l.st = .held ∧ l.kind ≠ .sfe :=
  ⟨by decide +kernel, ⟨by decide +kernel, 0, _, rfl, by decide⟩, ⟨0, _, rfl, by decide⟩⟩

/-- Arguments 3 and 5 of 2^x, log2 of 8, 1/x of −4, 1/√x of 4; log2 of −3; 2^x of 3/4, which is not exact. -/
theorem witness_SpecialFunctions_values :
    (-126 ≤ (3 : Int) ∧ (3 : Int) ≤ 126 ∧ (4 : Int) % 2 = 0) ∧
    ((3 : Nat) ≠ 0 ∧ (sfFn 0).exact (.fin false 3 (-2) false) = none) := by decide +kernel

/-- Words of FP32: 3/4 and 200, whose powers of two are inexact and beyond the range; 4, whose reciprocal is exact. -/
theorem witness_SpecialFunctions_words :
    ((0x3F400000 : Nat) < 2 ^ 32 ∧ 0x3F400000 / 2 ^ 23 % 256 ≠ 255 ∧ 0x3F400000 % 2 ^ 31 ≠ 0 ∧ ¬2 ^ 31 ≤ 0x3F400000) ∧
    ((sfFn 0).exact (FF.fp32.val 0x3F400000) = none ∧
      cmpX ((sfFn 0).value (FF.fp32.val 0x3F400000)).abs (FF.fp32.val 0x7F7FFFFF) ≠ .gt) ∧
    ((sfFn 0).exact (FF.fp32.val 0x43480001) = none ∧
      cmpX ((sfFn 0).value (FF.fp32.val 0x43480001)).abs (FF.fp32.val 0x7F7FFFFF) = .gt) ∧
    ((sfFn 2).exact (FF.fp32.val 0x40800000)).isSome = true := by decide +kernel

/-- 2 to the power of 3, the reciprocal square root of 2^4, the reciprocal of −2^2 (R203's exact cases); log2 of −3. -/
theorem test_sfn_exact :
    cmpX (sfApply 0 (.ofInt 3)).val (.ofInt 8) = .eq ∧ cmpX (sfApply 3 (.ofInt 16)).val (.fin false 1 (-2) false) = .eq ∧
    cmpX (sfApply 2 (.ofInt (-4))).val (.fin true 1 (-2) false) = .eq ∧
    sfApply 1 (.ofInt (-3)) = { val := .nan false, flags := { nv := true } } := by decide +kernel

theorem witness_SortEngine :
    let s := leasing (withVec (withVec floats 13 0x70 0) 11 0x30 0) .sxe .held
    LeaseHeld s (s.reg 6) .sxe ∧
    (s.destKind 8 = .float ∧ (s.vreg 10).tag = (s.vreg 8).tag ∧ s.indexReg (10 + 1) = true ∧
      (s.vreg (12 + 1)).tag = (s.vreg 8).tag ∧ s.indexReg 12 = true) ∧
    FreeToRun (.xsort {} 10 8 true true 6) s ∧ LengthOk s { vd := some 10, va := some 8, more := [10 + 1] } {} ∧
    FreeToRun (.xtopk {} 12 8 32 false 6) s ∧ LengthOk s { vd := some 12, va := some 8, more := [12 + 1] } {} ∧
    (32 : BitVec 13).toNat ≤ s.vlmaxOf { vd := some 12, va := some 8, more := [12 + 1] } ∧
    FreeToRun (.xhist {} 11 12 6) s ∧ MaskOk s {} ∧
    (s.vl ≤ (s.vreg 12).count s.vlen ∧ s.kind 12 = .int ∧ (s.vreg 11).bs = false ∧ s.fmtOf 11 = .i32) :=
  ⟨⟨⟨0, _, rfl, rfl, rfl⟩, rfl⟩, by decide +kernel, free_of (by decide +kernel) rfl (by decide +kernel) (by decide +kernel),
   ⟨Or.inl rfl, by decide +kernel⟩, free_of (by decide +kernel) rfl (by decide +kernel) (by decide +kernel),
   ⟨Or.inl rfl, by decide +kernel⟩, by decide +kernel, free_of (by decide +kernel) rfl (by decide +kernel) (by decide +kernel),
   Or.inl rfl, by decide +kernel⟩

/-- A heat of one runner alone. -/
def solo (s : State) : State :=
  leasing { s with heats := s.heats.map fun h => { h with desc := { h.desc with perCore := 1 } } } .cle .held

/-- With one participant a collective completes at once; with two the first waits. -/
theorem witness_Collectives :
    let n : Names := { vd := some 10, va := some 8 }
    let c := credOp {} 10 8 0 0 5
    let joined (s : State) : Collective := { s.collective c with joined := [s.contribution (.cred {} 10 8 0 0 5 6) c] }
    let s := solo ints
    let t := leasing ints .cle .held
    (LeaseHeld s (s.reg 6) .cle ∧ LeaseHeld t (t.reg 6) .cle) ∧
    (s.r.fabric = none ∧ s.r.wait = none ∧ s.pending = [] ∧ s.r.share = [] ∧ s.spanned c = c ∧ s.rid ∈ s.participants 0 ∧ (s.part? s.rid.part).isSome = true ∧
      s.destKind 8 = .int ∧ s.destKind 10 = s.kind 8 ∧ (s.vreg 10).tag = (s.vreg 8).tag ∧ t.rid ∈ t.participants 0) ∧
    s.compat 0x10 0 = .ok (3, s) ∧ NoFpTraps s ∧ FreeToRun (.cred {} 10 8 0 0 5 6) s ∧ LengthOk s n {} ∧
    ((s.collective c).joined = [] ∧ (s.collective c).taken = [] ∧ s.collComplete (joined s) = true ∧
      collAgree (s.contributions (joined s) .i32) = true ∧ t.collComplete (joined t) = false) ∧
    FreeToRun (.cgather {} 10 8 0 5 6) s ∧ FreeToRun (.cbcast {} 10 8 true 0 5 6) s :=
  ⟨⟨⟨⟨0, _, rfl, rfl, rfl⟩, rfl⟩, ⟨⟨0, _, rfl, rfl, rfl⟩, rfl⟩⟩, by decide +kernel, rfl, by unfold NoFpTraps; decide +kernel,
   free_of (by decide +kernel) rfl (by decide +kernel) (by decide +kernel), ⟨Or.inl rfl, by decide +kernel⟩, by decide +kernel,
   free_of (by decide +kernel) rfl (by decide +kernel) (by decide +kernel),
   free_of (by decide +kernel) rfl (by decide +kernel) (by decide +kernel)⟩

/-- A floating register for CRED; contributions that fit the registers of CGATHER, and some that do not. -/
theorem witness_Collectives_tags : let s := solo floats
    let e := (s.vreg 10).count s.vlen
    LeaseHeld s (s.reg 6) .cle ∧ (s.kind 8 = .float ∧ 3 ≤ (3 : Fin 5).val ∧ (0 : Fin 5).val < 3) ∧ FreeToRun (.cred {} 10 8 3 0 5 6) s ∧
    (10 + (1 * s.vl + e - 1) / e ≤ 32 ∧ (1 * s.vl + e - 1) / e = 1 ∧ (s.vregN (10 + 0)).tag = (s.vreg 10).tag) ∧
    ¬10 + (200 * s.vl + e - 1) / e ≤ 32 :=
  ⟨⟨⟨0, _, rfl, rfl, rfl⟩, rfl⟩, by decide +kernel, free_of (by decide +kernel) rfl (by decide +kernel) (by decide +kernel),
   by decide +kernel, by decide +kernel⟩

/-- CRED of AND on floating registers traps TAG (R133, R208). -/
theorem test_cred_tag : stateAfter (.cred {} 10 8 3 0 5 6) (solo floats) (fun t => (t.r.scal.sysr.tcause, t.r.stat)) = some (0x06, .ready) := by
  decide +kernel

theorem test_cred : elemAfter (.cred {} 10 8 0 0 5 6) (solo ints) 10 .i32 2 = some 3 := by decide +kernel

/-! ### The matrix unit -/

/-- GFMT of INT8 times INT8 to INT32, and of BF16 times BF16 to FP32. -/
def intTile : Word := 0x1842
def floatTile : Word := 0x39AD

/-- An attach of 8 by 8 by 8 with a unit's octant 0. -/
def share (gf : Word) : Attach := newAttach gf 8 8 8 1 true { heat := 1 } 0 0

/-- The running runner's core with a share. -/
def tiled (s : State) (a : Attach) : State := { s with cores := [{ Core.blank {} with att := some a }] }

theorem ready_of {s : State} {a : Attach} (hc : s.cores = [{ Core.blank {} with att := some a }])
    (hi : s.r.ident.core = {}) (hq : s.r.vq = []) (hu : a.uses = []) (ho : a.ops = [])
    (hb : s.r.vect.bad = [] := by decide +kernel) : TileReady s a := by
  have hm : s.myCore = { Core.blank {} with att := some a } := by
    simp only [State.myCore, State.core, hc, hi]; rfl
  refine ⟨hq, by rw [hm], by rw [hm]; rfl, (by rw [hu]; intro u h; cases h), hb, ?_⟩
  intro c hcm b hb
  rw [hc, List.mem_singleton] at hcm
  subst hcm
  cases hb
  exact ho

/-- An address of the pad as a tile operation reaches it. -/
theorem tileKey_pad {s : State} (a : Word) (n al : Nat) {k : AccKind} (hu : s.myTeamUid = 1) (hs : s.scratchSize = 4096)
    (hk : k ≠ .fetch) (h : a.toNat = 0x01FF000000000000 + a.toNat % 2 ^ 32) (he : a.toNat % 2 ^ 32 + n ≤ 4096)
    (ha : a.toNat % al = 0) (hp : s.pinFault a = false) : s.tileKey a n al k = .ok (padKey a, s) := by
  have := State.tileKey_scratch (s := s) (n := n) (k := k) h (Nat.mod_lt _ (by decide)) (by rw [hs]; exact he) ha hk hp
  rw [hu] at this
  exact this

theorem tileKey_range {s : State} (addr : Nat → Word) (n al c : Nat) {k : AccKind} (hu : s.myTeamUid = 1)
    (hs : s.scratchSize = 4096) (hk : k ≠ .fetch)
    (h : ((List.range c).all fun j => decide ((addr j).toNat = 0x01FF000000000000 + (addr j).toNat % 2 ^ 32) &&
      decide ((addr j).toNat % 2 ^ 32 + n ≤ 4096) && decide ((addr j).toNat % al = 0)) = true)
    (hp : bitOf s.r.scal.pinslice 63 = false := by decide +kernel) :
    ∀ j, j < c → s.tileKey (addr j) n al k = .ok (padKey (addr j), s) := by
  intro j hj
  have := List.all_eq_true.mp h j (List.mem_range.mpr hj)
  simp only [Bool.and_eq_true, decide_eq_true_eq] at this
  exact tileKey_pad (addr j) n al hu hs hk this.1.1 this.1.2 this.2 (by simp [State.pinFault, State.pinFaultBy, hp])

/-- Rows 0 of the latches hold 1 and −1 at depth 0. -/
def loaded : Attach :=
  { share intTile with latches := (share intTile).latches.set 0 [{ elems := 1 :: List.replicate 7 0 }]
                         |>.set 2 [{ elems := 0xFF :: List.replicate 7 0 }] }

theorem test_tmma : stateAfter (.tmma 1 false false) (tiled demo loaded) (fun t => t.myCore.att.map fun a => a.acc[(1 : Fin 4)].head?) =
    some (some (some 0xFFFFFFFF)) := by decide +kernel

/-- A pending ATTACH with its octants awake, one whose octant is in hold, and a triple no unit offers. -/
theorem witness_Shares :
    let p : PendAttach := { runner := { heat := 1 }, wait := false, gm := 8, gn := 8, gk := 8, octs := [0], toWake := [] }
    let s : State := { demo with cores := [{ Core.blank {} with pend := some p }] }
    let shaped := demo.mapR fun r => { r with treq := 0x0010001800180018, tfmt := 0x39AD }
    let t : State := { shaped with
      parts := shaped.parts.map fun p => { p with record := { p.record with share := 1000 } }
      pacer := { shaped.pacer with cooling := { shaped.pacer.cooling with mode := some .coldPlate, row := 0 } }
      engines := (List.range 8).map fun n => { id := { kind := .octant, idx := n }, st := .hold, ends := 100 } }
    (demo.r.vq = [] ∧ demo.r.fabric = none ∧ demo.r.withdrawn = false ∧ demo.r.attachTold = false ∧ s.myPend = some p ∧
      p.again = false ∧ (∀ n ∈ p.octs, n < 8) ∧ p.toWake = [] ∧ s.r.wait = none) ∧
    (demo.myPend = none ∧ demo.myCore.att = none ∧ demo.attachBusy = false ∧ demo.tripleOffered = false) ∧
    (t.tripleOffered = true ∧ t.available t.r ≠ [] ∧
      (∀ n ∈ (t.available t.r).take (t.targetOf t.r (min (t.allowance t.r) (floorPow2 (t.available t.r).length))).count,
        (t.engine (t.octantOf n)).st = .hold) ∧
      (t.targetOf t.r (min (t.allowance t.r) (floorPow2 (t.available t.r).length))).count * octantPower true ≤ t.ebud 0) ∧
    ((tiled demo (share intTile)).myCore.att = some (share intTile) ∧ (tiled demo (share intTile)).myCore.loss = none ∧
      (share intTile).ops = [] ∧ (tiled demo (share intTile)).tileQueued = false ∧
      ∀ n, ((tiled demo (share intTile)).die 0).wants ((tiled demo (share intTile)).octantOf n) = none) ∧
    ∀ n, ((tiled demo (share intTile)).die 0).wantsOctant ((tiled demo (share intTile)).octantOf n) = none :=
  ⟨by decide +kernel, by decide +kernel, by decide +kernel,
   ⟨by decide +kernel, by decide +kernel, by decide +kernel, by decide +kernel, fun _ => rfl⟩, fun _ => rfl⟩

/-- Rows 16 bytes apart, their scales 256 bytes further; v8 to v15 hold INT8 rows for TLDV. -/
def tiling : State := tiled (withVec (withReg demo [(4, pad), (5, 16)]) 8 0x10 0) (share intTile)

theorem witness_LatchLoads :
    let s := tiling
    TileReady s (share intTile) ∧ (s.r.share = [] ∧ s.r.strip.buf = [] ∧ s.poison = []) ∧
    (∀ r, r < 8 → s.tileKey (s.reg 4 + BitVec.ofNat 64 r * s.reg 5) 8 1 .load =
      .ok (padKey (s.reg 4 + BitVec.ofNat 64 r * s.reg 5), s)) ∧
    (groupedCode 2 = false ∧ (s.vreg 8).fmt.map Fmt.code = some 2 ∧ (s.vreg 8).bs = false ∧
      8 + (8 * 8 + (s.vreg 8).count s.vlen - 1) / (s.vreg 8).count s.vlen ≤ 32 ∧
      (8 * 8 + (s.vreg 8).count s.vlen - 1) / (s.vreg 8).count s.vlen = 1) :=
  ⟨ready_of rfl rfl rfl rfl rfl, by decide +kernel,
   tileKey_range _ 8 1 8 (by decide +kernel) (by decide +kernel) (by decide) (by decide +kernel), by decide +kernel⟩

/-- FP8 rows with a scale entry each, and a row register for TLDAX. -/
theorem witness_LatchLoads_scaled :
    let gf : Word := 0x394A
    let s := tiled (withVec (withReg demo [(4, pad), (5, 16)]) 12 0x30 (words [7, 6, 5, 4, 3, 2, 1, 0])) (share gf)
    TileReady s (share gf) ∧ (scalable (latchCode gf 0) (zfOf gf) = true ∧ s.kind 12 = .int ∧
      (share gf).gm ≤ (s.vreg 12).count s.vlen) ∧
    (∀ r, r < 8 → s.tileKey (s.reg 4 + BitVec.ofInt 64 ((s.vreg 12).index r) * s.reg 5) 8 1 .load =
      .ok (padKey (s.reg 4 + BitVec.ofInt 64 ((s.vreg 12).index r) * s.reg 5), s)) ∧
    ∀ r, r < 8 → s.tileKey (s.reg 4 + BitVec.ofInt 64 ((s.vreg 12).index r) * s.reg 5 + (8 : BitVec 24).setWidth 64) 1 1 .load =
      .ok (padKey (s.reg 4 + BitVec.ofInt 64 ((s.vreg 12).index r) * s.reg 5 + (8 : BitVec 24).setWidth 64), s) :=
  ⟨ready_of rfl rfl rfl rfl rfl, by decide +kernel,
   tileKey_range (fun r => _ + BitVec.ofInt 64 (VReg.index _ r) * _) 8 1 8 (by decide +kernel) (by decide +kernel) (by decide) (by decide +kernel),
   tileKey_range (fun r => _ + BitVec.ofInt 64 (VReg.index _ r) * _ + _) 1 1 8 (by decide +kernel) (by decide +kernel) (by decide) (by decide +kernel)⟩

theorem witness_TileMultiply : TileReady tiling (share intTile) ∧ tiling.world.badColumns = [] ∧ (share intTile).tldvs = [] ∧
    zfOf (share intTile).gfmt = 0x06 ∧ 8 ≤ (share intTile).gk ∧ ((share intTile).acc[(0 : Fin 4)])[63]? = some 0 :=
  ⟨ready_of rfl rfl rfl rfl rfl, by decide +kernel⟩

/-- Rows of 32 bytes; v16 to v17 hold 64 INT32 results; an image's place; a store to deliver. -/
theorem witness_TileStores :
    let s := tiled (withVec (withVec (withReg demo [(4, pad), (5, 32)]) 16 0x30 0) 17 0x30 0) (share intTile)
    TileReady s (share intTile) ∧
    (s.r.strip.prot = false ∧ outAllowed (zFmt intTile) (outFmt intTile .acc) = true ∧
      ((share intTile).acc[(0 : Fin 4)]).length = 8 * 8 ∧ s.fmtOf 16 = .i32 ∧ outAllowed (zFmt intTile) .i32 = true ∧
      (share intTile).caps = [] ∧ s.r.hist = [] ∧ s.r.strip.buf = [] ∧ s.poison = [] ∧
      (s.vreg 16).bs = false ∧ (8 * 8 + (s.vreg 16).count s.vlen - 1) / (s.vreg 16).count s.vlen = 2 ∧
      (s.vreg 17).tag = (s.vreg 16).tag) ∧
    (∀ r, r < 8 → s.tileKey (s.reg 4 + BitVec.ofNat 64 r * s.reg 5) (8 * 4) 4 .store =
      .ok (padKey (s.reg 4 + BitVec.ofNat 64 r * s.reg 5), s)) ∧
    s.tileKey (s.reg 4) (64 + 8 * 8 * 4) 64 .store = .ok (padKey (s.reg 4), s) :=
  ⟨ready_of rfl rfl rfl rfl rfl, by decide +kernel,
   tileKey_range _ 32 4 8 (by decide +kernel) (by decide +kernel) (by decide) (by decide +kernel),
   tileKey_pad _ _ _ (by decide +kernel) (by decide +kernel) (by decide) (by decide +kernel) (by decide +kernel) (by decide +kernel) (by decide +kernel)⟩

/-- An image of this very share in the pad (R182). -/
theorem witness_TileStores_restore :
    let img := natToLeBytes 8 intTile.toNat ++ natToLeBytes 2 8 ++ natToLeBytes 2 8 ++ natToLeBytes 2 8 ++ natToLeBytes 2 0 ++
      natToLeBytes 4 0x5A170003 ++ natToLeBytes 4 64 ++ List.replicate 40 0
    let s : State := { tiling with mem := cellsPut [] (cellsFrom (padKey pad) img) }
    let h (lo n : Nat) : Nat := leBytesToNat (bytesAt s.mem (padKey pad + lo) n)
    s.tileKey (s.reg 4) (64 + 8 * 8 * 4) 64 .load = .ok (padKey (s.reg 4), s) ∧
    (h 0 8 = intTile.toNat ∧ h 8 2 = 8 ∧ h 10 2 = 8 ∧ h 14 2 = 0 ∧ h 16 4 = 0x5A170003 ∧ h 20 4 = 64 ∧
      (List.range 40).all (fun j => s.byteAt (padKey pad + 24 + j) = 0) = true) :=
  ⟨tileKey_pad _ _ _ (by decide +kernel) (by decide +kernel) (by decide) (by decide +kernel) (by decide +kernel) (by decide +kernel) (by decide +kernel),
   by decide +kernel⟩

theorem witness_TileStores_wait :
    let op : TileOp := { runner := { heat := 1 }, cells := [(padKey pad, 1)], elems := [(8, 0, 1)] }
    let s := tiled demo { share intTile with ops := [op] }
    s.r.vq = [] ∧ s.myCore.att = some { share intTile with ops := [op] } ∧ s.myCore.loss = none ∧ s.r.share = [] ∧
    Memory.wf s.mem ∧ op.runner = s.rid ∧ op.bad = [] ∧ ∀ c ∈ op.cells, isOutKey c.1 = false := by decide +kernel

/-! ### Waits, barriers, leases, launches -/

/-- A weak runner, a runner with FABRIC pending. -/
theorem witness_Waits :
    let weak := padded.mapR fun r => { r with ident := { r.ident with cls := .weak } }
    let far := padded.mapR fun r => { r with fabric := some 3 }
    (padded.r.vq = [] ∧ padded.pending = [] ∧ padded.r.fabric = none ∧ padded.r.wait = none ∧ padded.r.strip.buf = [] ∧
      padded.r.hist = [] ∧ padded.poison = []) ∧ far.r.fabric = some 3 ∧
    padded.compat 1 0 = .ok (0, padded) ∧ padded.compat 3 9 = .ok (0, padded) ∧ padded.heat? 0 9 = none ∧
    Serves padded (fun _ => False) (padded.reg 4) 8 .load (padKey (padded.reg 4)) ∧ weak.r.ident.cls = .weak ∧
    ((padded.reg 4).toNat = 0x01FF000000000000 + 0 ∧ 0 + 8 ≤ padded.scratchSize ∧ Memory.wf padded.mem) :=
  ⟨by decide +kernel, rfl, rfl, rfl, by decide +kernel,
   serves_pad _ 8 (by decide +kernel) (by decide +kernel) (by decide +kernel) (by decide +kernel) (by decide +kernel) (by decide)
     (by decide +kernel) (by decide +kernel) (by decide +kernel), rfl, by decide +kernel⟩

theorem test_waitw_met : stateAfter (.waitw 7 4 0 .eq 1) padded (fun t => (t.reg 7, t.r.stat, t.pc)) = some (0, .ready, 8) := by
  decide +kernel
theorem test_waitw_sleeps : stateAfter (.waitw 7 4 5 .eq 1) padded (fun t => (t.r.stat, t.pc)) = some (.waiting, 0) := by
  decide +kernel

/-- The demo team with another runner, and its barrier 2 as given. -/
def meeting (b : Barrier) (others : List Runner) : State :=
  { demo with
    rs := others.map fun x => (x.ident.id, x)
    teams := demo.teams.map fun t => { t with bars := t.bars.set 2 b } }

theorem kept_meeting (b : Barrier) (others : List Runner) : (meeting b others).Kept := by
  intro x hx
  simp only [meeting, List.mem_map] at hx
  obtain ⟨y, _, rfl⟩ := hx
  rfl

/-- The last arrival, one that is not, a phase already over, a record that stands after an ERET. -/
theorem witness_Barriers :
    let last := meeting { expected := 2, arrived := 1 } [demoRunner 1]
    let early := meeting { expected := 2 } [demoRunner 1]
    let over' := (meeting { expected := 2, phase := true } []).mapR fun r => { r with eretPending := true, sya := some (0, 2) }
    (last.r.vq = [] ∧ last.r.fabric = none ∧ last.r.wait = none ∧ last.r.stat = .ready ∧ last.r.strip.prot = false) ∧
    (∃ tm, last.myTeam? = some tm ∧ (tm.bars[(2 : BR)]).expected ≤ (tm.bars[(2 : BR)]).arrived + 1 ∧
      (tm.bars[(2 : BR)]).phase = last.r.barw.getLsbD 2) ∧
    (∃ tm, early.myTeam? = some tm ∧ ¬(tm.bars[(2 : BR)]).expected ≤ (tm.bars[(2 : BR)]).arrived + 1 ∧
      ∃ y ∈ early.rs, teamOf y.1 = tm.id ∧ y.2.stat = .ready) ∧
    (∃ tm, over'.myTeam? = some tm ∧ (tm.bars[(2 : BR)]).phase ≠ over'.r.barw.getLsbD 2 ∧ over'.r.eretPending = true ∧
      over'.r.sya = some (over'.pc, 2) ∧ over'.rs = []) ∧ last.Kept ∧ ∀ y ∈ last.allRunners, y.share = [] :=
  ⟨by decide +kernel, ⟨_, rfl, by decide +kernel, by decide +kernel⟩,
   ⟨_, rfl, by decide +kernel, ⟨_, List.mem_singleton.mpr rfl, by decide +kernel, by decide +kernel⟩⟩,
   ⟨_, rfl, by decide +kernel⟩, kept_meeting _ _, by decide +kernel⟩

theorem test_syncb_last : stateAfter (.syncb 7 2) (meeting { expected := 2, arrived := 1 } [demoRunner 1])
    (fun t => (t.reg 7, t.pc, t.r.barw.getLsbD 2)) = some (0, 8, true) := by decide +kernel

/-- A partition with a share of the pool; a module in its first row of the limit table. -/
def powered : State :=
  { demo with
    parts := demo.parts.map fun p => { p with record := { p.record with share := 1000, dies := [0], clusters := [(0, 0)] } }
    pacer := { demo.pacer with cooling := { demo.pacer.cooling with mode := some .coldPlate, row := 0 } } }

/-- A sleeping engine, engine 0 in hold, a waking slot whose engine is held, an engineless budget, an E-cluster. -/
theorem witness_Leases :
    let e0 : EngineId := { kind := .lease .sfe }
    let held : State := { powered with engines := [{ id := e0, st := .hold, ends := 9 }] }
    let woken : State := { powered.mapR (fun r => { r with
      leases := r.leases.set 0 (some { handle := 0x10000, kind := .sfe, pri := 5, st := .held, engine := some e0 })
      replies := [(.wake, .data [0])] }) with engines := [{ id := e0, st := .held }] }
    (powered.r.vq = [] ∧ powered.r.fabric = none ∧ powered.r.wait = none ∧ powered.r.strip.prot = false ∧ powered.r.replies = [] ∧
      powered.r.stat = .ready ∧ powered.r.wakingSlot = none ∧ engineCount 0 .sfe = 8 ∧ engineCount 14 .cle = 0) ∧
    (2500 ≤ powered.ebud 0 ∧ demo.ebud 0 < 2500 ∧ (powered.engine e0).st = .sleeping ∧ powered.awaited e0 = false ∧
      (powered.die 0).queue.length < 32 ∧ (held.engine e0).st = .hold ∧ 2500 ≤ held.ebud 0) ∧
    (∃ l, woken.r.leases[(0 : Fin 8)] = some l ∧ l.handle = 0x10000 ∧ woken.r.replies = [(.wake, .data [BitVec.ofNat 8 (0 : Fin 8).val])] ∧
      woken.r.stat = .ready) ∧
    ((leasing demo .cle .held).die 0).wants { kind := .lease .cle } = none ∧
    (demo.r.leaseOf (demo.reg 7) = none ∧ ∃ l, (leasing demo .cle .held).r.leaseOf ((leasing demo .cle .held).reg 6) = some (0, l) ∧
      l.st = .held ∧ l.engine = some { kind := .lease .cle }) :=
  ⟨by decide +kernel, by decide +kernel, ⟨_, rfl, rfl, rfl, rfl⟩, by decide +kernel, by decide +kernel, ⟨_, rfl, rfl, rfl⟩⟩

/-- A lease of a sleeping engine stalls for its wake. -/
theorem test_lease_wakes : stateAfter (.lease 7 .sfe 5) powered (fun t => (t.r.stat, t.r.asks)) = some (.stalled, [.wake]) := by
  decide +kernel
/-- The handle of the first lease of an engine in hold: kind 0, sequence 1, slot 0. -/
theorem test_lease_held : regAfter (.lease 7 .sfe 5)
    { powered with engines := [{ id := { kind := .lease .sfe }, st := .hold, ends := 9 }] } 7 = some 0x10000 := by decide +kernel

/-- A launch descriptor in the pad, for heat 0 of the package. -/
def launching (ws : List Word) : State :=
  { withReg powered [(4, pad)] with mem := cellsPut [] (cellsFrom (padKey pad) (ws.flatMap fun w => natToLeBytes 8 w.toNat)) }

theorem witness_Launches :
    let ws : List Word := [0, 0, 0, 0, 0, 0, 0, 0]
    let s := launching ws
    let other (live : Bool) : State :=
      { withReg demo [(4, 3)] with heats := demo.heats ++ [{ part := 0, id := 3, uid := 5, desc := demoHeat, live := live }] }
    let kept : State := { demo with parts := demo.parts.map fun p => { p with ended := [(3, 1, some 1)] } }
    (s.r.vq = [] ∧ s.r.fabric = none ∧ s.r.wait = none ∧ s.r.strip.prot = false ∧ s.r.replies = [] ∧ s.r.stat = .ready ∧
      ws.length = 8 ∧ s.pending = [] ∧ s.r.share = []) ∧
    (∃ p, s.part? s.rid.part = some p ∧ ((p.loaded.map (·.heats)).getD [])[(0 : Word).toNat]? = some demoHeat ∧
      ((p.loaded.map (·.heats)).getD [])[(1 : Word).toNat]? = none ∧ p.record.modes.getLsbD 2 = false ∧
      s.reserve p (s.newHeat p 0 demoHeat 0 0 0 none [0, 0, 0, 0] (some 1) none) ≠ none) ∧
    (∃ p, demo.part? demo.rid.part = some p ∧
      demo.reserve p (demo.newHeat p 0 demoHeat 0 0 0 none [0, 0, 0, 0] (some 1) none) = none) ∧
    (∀ n, n < 8 → Serves s (fun _ => False) (s.reg 4 + BitVec.ofNat 64 (8 * n)) 8 .load (padKey (s.reg 4 + BitVec.ofNat 64 (8 * n)))) ∧
    (∃ h, (other true).heat? 0 3 = some h ∧ h.live = true ∧ h.cancelled = false ∧ (other true).endedStatus 3 = none) ∧
    (∃ c, (other true).compat 0x20 3 = .ok (c, other true)) ∧
    (kept.endedStatus 3).isSome = true ∧ kept.compat 0x20 3 = .ok (0, kept) ∧ kept.heat? 0 3 = none ∧
    demo.condemned (teamOf demo.rid) = false ∧ demo.r.streams = [] ∧ demo.Kept :=
  ⟨by decide +kernel, ⟨_, rfl, by decide +kernel⟩, ⟨_, rfl, by decide +kernel⟩,
   serves_range (fun n => _ + BitVec.ofNat 64 (8 * n)) 8 8 (by decide +kernel) (by decide +kernel) (by decide +kernel)
    (by decide +kernel) (by decide +kernel) (by decide) (by decide +kernel),
   ⟨_, rfl, by decide +kernel⟩, ⟨_, rfl⟩, by decide +kernel, rfl, by decide +kernel, by decide +kernel, rfl, (by intro x h; cases h)⟩

theorem test_launch : stateAfter (.launch 7 4) (launching [0, 0, 0, 0, 0, 0, 0, 0]) (fun t => (t.reg 7, t.heats.length)) =
    some (2, 2) := by decide +kernel

/-! ### Events -/

/-- A runner at a barrier's wait, entered at 10 with a deadline of 100 ticks. -/
def sleeper (wt : Word) : Runner :=
  { demoRunner 1 with
    stat := .waiting, scal := { (demoRunner 1).scal with wdead := wt }
    wait := some { kind := .barrier, what := 2, code := 2, sd := 7, entry := 10, dead := 100 } }

/-- A barrier that has ended, one that has not before and after the deadline, with and without WT. -/
theorem witness_WaitEvents_barrier :
    let r : RunnerId := { heat := 1, runner := 1 }
    let over' := meeting { expected := 2, phase := true } [sleeper 0]
    let on : State := { meeting { expected := 2 } [sleeper 0] with time := 109 }
    let late : State := { meeting { expected := 2 } [sleeper 0x8000000000000064] with time := 110 }
    (sleeper 0x8000000000000064).strip.buf = [] ∧ (sleeper 0x8000000000000064).strip.lines = [] ∧
    (over'.runner? r).isSome = true ∧ (sleeper 0).stat = .waiting ∧ (sleeper 0).fabric = none ∧ (sleeper 0).vq = [] ∧
    (∃ tm, over'.team? (teamOf r) = some tm ∧ (tm.bars[(2 : BR)]).phase ≠ (sleeper 0).barw.getLsbD 2) ∧
    (∃ tm, on.team? (teamOf r) = some tm ∧ (tm.bars[(2 : BR)]).phase = (sleeper 0).barw.getLsbD 2 ∧ ¬10 + 100 ≤ on.time) ∧
    10 + 100 ≤ late.time ∧ (sleeper 0x8000000000000064).scal.wdead.getLsbD 63 = true ∧ (sleeper 0).scal.wdead.getLsbD 63 = false :=
  ⟨rfl, rfl, by decide +kernel, rfl, rfl, rfl, ⟨_, rfl, by decide +kernel⟩, ⟨_, rfl, by decide +kernel, by decide +kernel⟩, by decide,
   by decide, by decide⟩

theorem test_wait_deadline :
    stateAfter (.waitDeadline { heat := 1, runner := 1 }) { meeting { expected := 2 } [sleeper 0] with time := 110 }
      (fun t => (t.runner? { heat := 1, runner := 1 }).map fun y => (y.stat, y.scal.s[(7 : SR)])) = some (some (.ready, 1)) := by
  decide +kernel

/-- A copy of two words of module memory with a bitmap in the pad; its one chunk. -/
def copyOf : CopyRec := { id := 1, runner := { heat := 1 }, elems := [(64, 128), (68, 132)], esize := 4, bmap := some (padKey pad), arv := none }

theorem witness_WaitEvents_copy :
    let s : State := { demo with copies := [copyOf] }
    s.copies.find? (fun c => c.id == 1) = some copyOf ∧ copyOf.waits = false ∧ 0 < copyOf.chunks ∧ 0 ∉ copyOf.landed ∧
    s.pending = [] ∧ Memory.wf s.mem ∧ copyOf.arv = none ∧ (∀ y ∈ s.allRunners, y.strip.buf = [] ∧ y.strip.lines = [] ∧ y.hist = []) ∧
    copyOf.chunk 0 = [(64, 128), (68, 132)] ∧ (isOutKey 64 = false ∧ isOutKey 135 = false) ∧
    (∀ i : Fin 8, isOutKey (padKey pad + i.val) = false) := by decide +kernel

/-- A stream of v8 whose first group is due. -/
theorem witness_WaitEvents_stream :
    let z : StreamRec := { id := 1, i := .stream {} 8 4 0 0, a := pad, b := 0, es := 4, recs := [(0, [(padKey pad, none)])] }
    let s : State := ints.mapR fun r => { r with streams := [z] }
    (s.r.streams.find? (fun z => z.id == 1) = some z ∧ s.r.live = true ∧ s.pending = [] ∧ s.r.vq = [] ∧ s.poison = [] ∧
      (∀ y ∈ s.allRunners, y.hist = []) ∧ s.myCore.l1 = []) ∧ (∀ va, (s.focus s.rid).pinFaultBy z.pin va = false) ∧
    ∃ o, streamOpOf z.a z.b z.i = some o ∧ z.due ((s.focus s.rid).groupOf o.names) 0 ≠ [] :=
  ⟨by decide +kernel, fun _ => rfl, _, rfl, by decide +kernel⟩

/-- Runners that wait for a page, the host, a peer, a collective's other module; a tile operation not finished. -/
theorem witness_WaitEvents_answers :
    let stalled (a : Ask) : State := demo.mapR fun r => { r with stat := .stalled, asks := [a] }
    let c : Collective := { span := 3, id := 5, scope := 0, heat := 1, seq := 0,
                            joined := [demo.contribution (.cred {} 10 8 0 3 5 6) (credOp {} 10 8 0 3 5)] }
    let s : State := { demo with parts := demo.parts.map fun p => { p with colls := [c] } }
    let a : Attach := { share intTile with ops := [{ runner := { heat := 1 } }] }
    ((stalled (.service 64)).r.asks = .service 64 :: [] ∧ (stalled (.peer 3 (.read 64 8))).r.stat = .stalled ∧
      (stalled (.host (.read 64 8))).r.asks = .host (.read 64 8) :: []) ∧
    (s.r.stat ≠ .stalled ∧ c.span = 3 ∧ c.heat = s.rid.heat ∧ c.remote = [] ∧ ∃ j ∈ c.joined, j.runner = s.rid) ∧
    (∃ p, s.part? 0 = some p ∧ c ∈ p.colls) ∧
    ((tiled demo a).core {}).att = some a ∧ a.ops = [] ++ { runner := { heat := 1 } } :: [] :=
  ⟨by decide +kernel, ⟨by decide +kernel, rfl, rfl, rfl, _, List.mem_singleton.mpr rfl, rfl⟩,
   ⟨_, rfl, List.mem_singleton.mpr rfl⟩, rfl, rfl⟩

/-! ### The scheduler -/

/-- Beside the demo team one of heat 3 of priority pri, queued or saved, on a partition with one cluster. -/
def waiting (pri : Fin 8) (stat : TStat) : State :=
  { powered with
    time := 5000000
    heats := powered.heats ++ [{ part := 0, id := 3, uid := 3, desc := demoHeat, pri := pri, order := 2 }]
    teams := powered.teams ++ [{ id := { heat := 3 }, uid := 4, stat := stat, queue := 8 * pri.val, bars := Vector.replicate 16 {} }]
    parts := powered.parts.map fun p => { p with queues := p.queues.set (8 * pri.val) { teams := [{ heat := 3 }] } (by omega) } }

/-- Where heat 3's team can sit beside the demo team. -/
def seat : Place := { cores := [1], spBase := 4096 }

theorem witness_SchedulerEvents_places :
    let q := waiting 3 .queued
    let v := waiting 3 .saved
    (q.scheduling = true ∧ (q.teams.map (·.id)).Nodup ∧ v.scheduling = true) ∧
    (∃ p tm h, q.part? 0 = some p ∧ p.loaded = some { heats := [demoHeat] } ∧ q.team? { heat := 3 } = some tm ∧
      q.heat? 0 3 = some h ∧ q.placeOk p h tm seat = true ∧ tm.stat = .queued ∧ (classSplit h tm true).isSome = true ∧
      ((q.winner p).map (·.team)) = some { heat := 3 } ∧ h.desc.cls = .concurrent ∧
      0 < teamSize h.desc ∧ q.starvedSince { heat := 3 } h = some 0 ∧ 0 + 200000 ≤ q.time ∧
      q.runner? { heat := 3 } = none) ∧
    (∃ p tm h, v.part? 0 = some p ∧ v.team? { heat := 3 } = some tm ∧ v.heat? 0 3 = some h ∧ v.placeOk p h tm seat = true ∧
      tm.stat = .saved ∧ ((v.winner p).map (·.team)) = some { heat := 3 }) ∧
    (∃ p w, q.part? 0 = some p ∧ p.queues[24]? = some w ∧ w.teams = { heat := 3 } :: [] ∧ w.since + 5000000 ≤ q.time) ∧ q.Kept :=
  ⟨by decide +kernel, ⟨_, _, _, rfl, rfl, rfl, rfl, by decide +kernel⟩, ⟨_, _, _, rfl, rfl, rfl, by decide +kernel⟩,
   ⟨_, _, rfl, rfl, by decide +kernel⟩, (by intro x h; cases h)⟩

/-- The demo team on all four cores of the cluster: heat 3 of a higher level can only take its place. -/
def crowded : State :=
  { waiting 5 .queued with
    teams := (waiting 5 .queued).teams.map fun t =>
      if t.stat = .resident then { t with place := some { cores := [0, 1, 2, 3] }, split := { vlen := 256, tcmKiB := 64 } } else t
    heats := (waiting 5 .queued).heats.map fun h => if h.id = 1 then { h with desc := { h.desc with cores := 4 } } else h }

theorem witness_SchedulerEvents_victims :
    (∃ p tm h, crowded.part? 0 = some p ∧ crowded.team? { heat := 3 } = some tm ∧ crowded.heat? 0 3 = some h ∧
      crowded.placeOk p h tm seat = false ∧ tm.unplaced = true ∧ crowded.starvedSince { heat := 3 } h = some 0 ∧ crowded.victimsOn p h tm seat = [{ heat := 1 }]) ∧
    (∃ p tm, crowded.part? 0 = some p ∧ crowded.team? { heat := 1 } = some tm ∧ tm.stat = .resident ∧
      ((crowded.offers p).any fun f => crowded.victimOf p tm f) = true) ∧
    (crowded.r.stat = .ready ∧ crowded.r.replies = [] ∧ crowded.r.vq = [] ∧ (inStrip crowded 0).r.strip.prot = true) ∧
    ∀ c ∈ crowded.cores, ∀ a, c.att = some a → ∀ op ∈ a.ops, ∀ y, crowded.runner? op.runner = some y → y.ident.core = c.id :=
  ⟨⟨_, _, _, rfl, rfl, rfl, by decide +kernel⟩, ⟨_, _, rfl, rfl, by decide +kernel⟩, by decide +kernel, (by intro c h; cases h)⟩

/-- The demo team asked to stop, its runner stopped. -/
theorem witness_SchedulerEvents_save :
    let s : State := { demo.mapR (fun r => { r with stat := .stopped }) with
      teams := demo.teams.map fun t => { t with stat := .stopping } }
    (∃ h tm, s.heat? 0 1 = some h ∧ s.team? { heat := 1 } = some tm ∧ tm.stat = .stopping ∧ h.cancelled = false ∧ tm.queue < 64) ∧
    (∀ x ∈ s.teamRunners { heat := 1 }, x.stat = .stopped) ∧ s.copies = [] :=
  ⟨⟨_, _, rfl, rfl, by decide +kernel⟩, by decide +kernel, rfl⟩

/-! ### Power -/

/-- A power-up due at a slot for a lease; an engine that wakes, one that holds, one that is evicted. -/
theorem witness_PowerEvents_engines :
    let e : EngineId := { kind := .lease .sfe }
    let o : EngineId := { kind := .octant }
    let s : State := { demo with time := 400, dies := [{ idx := 0, queue := [{ holder := .lease { heat := 1 } 0, engines := [e], pri := 5 }] }] }
    let w (st : EState) (h : Option Holder) (id : EngineId) : State := { demo with
      time := 400, engines := [{ id := id, st := st, holder := h, ends := 400 }]
      cores := [{ Core.blank {} with pend := some { runner := { heat := 1 }, wait := false, gm := 8, gn := 8, gk := 8, octs := [0], toWake := [0] } }] }
    let wanted : State := { w .waking none e with dies := [{ idx := 0, queue := [{ holder := .lease { heat := 1 } 0, engines := [e], pri := 5 }] }] }
    (s.time % 40 = 0 ∧ (s.die 0).lastSlot ≠ some (s.time / 40) ∧ s.pacer.droop.level < 2 ∧ (s.die 0).tripped = false) ∧
    ((w .waking none e).engine e).st = .waking ∧ ((w .waking none e).engine e).ends ≤ 400 ∧
    ((w .waking (some (.lease { heat := 1 } 0)) e).engine e).holder = some (.lease { heat := 1 } 0) ∧
    ((w .waking (some (.attach {})) o).engine o).holder = some (.attach {}) ∧
    (((w .waking (some (.attach {})) o).core {}).pend).isSome = true ∧
    ((w .hold none e).engine e).st = .hold ∧ ((w .evicting none e).engine e).st = .evicting ∧
    (w .evicting none e).mayEnd ((w .evicting none e).engine e) = true ∧ ((w .evicting none e).engine e).handTo = none ∧
    ((w .waking none e).die 0).wants e = none ∧ ((wanted.die 0).wants e).isSome = true ∧ ((w .waking none e).die 0).wantsOctant e = none ∧
    (∀ x ∈ demo.allRunners, ∀ n : Fin 8, x.leases[n] = none) ∧ (∀ k ∈ demo.cores, k.att = none) ∧ (demo.heat? 0 1).isSome = true := by
  decide +kernel

/-- Samples due, each level of droop, steps of the clock, a die above and below its limits, a lane with steps left. -/
theorem witness_PowerEvents_levels :
    let at_ (d : Droop) (time : Nat) : State := { demo with time := time, pacer := { demo.pacer with droop := d } }
    let hot (c th : Nat) : State := { demo with time := 100000, dies := [{ idx := 0, celsius := c, throttle := th }] }
    let cool : State := { demo with time := 100000000, pacer := { demo.pacer with cooling := { row := 2, higher := [(0, 0)] } } }
    (State.reset.pacer.stage = .a ∧ cool.pacer.cooling.higher = (0, 0) :: [] ∧ 0 + 100000000 ≤ cool.time) ∧
    ((at_ { below40 := some 0 } 2000001).pacer.droop.level < 3 ∧ 0 + 2000000 < (at_ { below40 := some 0 } 2000001).time) ∧
    ((at_ { level := 2, since44 := some 0 } 2000).pacer.droop.level = 2 ∧ (at_ { level := 1, since48 := some 0 } 2000).pacer.droop.level = 1) ∧
    ((at_ { level := 1, steps := 3 } 5000).pacer.droop.steps < 4 ∧ (at_ { recovering := true, steps := 1 } 5000).pacer.droop.recovering = true ∧
      (at_ { recovering := true, steps := 1 } 5000).pacer.droop.level = 0) ∧
    (100 < ((hot 101 3).die 0).celsius ∧ ((hot 101 3).die 0).throttle < 4 ∧ ((hot 94 1).die 0).celsius < 95 ∧
      0 < ((hot 94 1).die 0).throttle) ∧
    (∃ g, (demo.core {}).groups[7]? = some g ∧ g.retired = false ∧ g.lanes.getLsbD 8 = true ∧ g.volts[8]? = some 0) :=
  ⟨by decide +kernel, by decide +kernel, by decide +kernel, by decide +kernel, by decide +kernel, ⟨_, rfl, by decide +kernel⟩⟩

theorem test_droop : stateAfter (.droopSample 43999) demo (fun t => t.pacer.droop.level) = some 2 := by decide +kernel
theorem test_trip : stateAfter (.thermalSample 0 110) demo (fun t => (t.die 0).tripped) = some true := by decide +kernel

/-! ### The fabric, the host, the start -/

/-- A page of the demo partition: module memory at 0x30000, mapped at 0. -/
def paged : State :=
  { atNop with
    parts := atNop.parts.map fun p => { p with loaded := some { heats := [demoHeat], ptRoot := 0x10000 }
                                               record := { p.record with dies := [0], clusters := [(0, 0)] } } }

theorem witness_FabricEvents :
    let hot : State := { demo with cores := [{ Core.blank {} with hot := [(0, 0, 1, 0, 0)] }] }
    let far : State := demo.mapR fun r => { r with stat := .stalled, asks := [.peer 3 (.read 64 8)] }
    (paged.pending = [] ∧ Memory.wf paged.mem ∧ accAddr (.read 64 8) + accLen (.read 64 8) ≤ 2 ^ 41 ∧
      paged.pacer.flash.linkOff = false) ∧
    (hostMay (.read 64 8) = true ∧ hostMay (.amo 64 9 8 0 0) = true ∧ hostMay (.amo 64 1 8 0 0) = false) ∧
    poisonMeets paged.poison 64 8 = none ∧ isOutKey 71 = false ∧
    (∃ p, paged.part? 0 = some p ∧ p.known = true ∧ paged.performed 3 0 = false ∧ (paged.notePeer 3 0).performed 3 0 = true ∧
      paged.peerKey p (.read 64 8) = .key 0x30040 ∧ paged.peerKey p (.read (BitVec.ofNat 64 (2 ^ 43)) 8) = .no .access ∧
      paged.peerKey p (.read 0x100000 8) = .service ∧ p.record.modes.getLsbD 1 = false ∧
      ∃ m a e, paged.moveOf p 0 0x40000 false = some (m, a, e) ∧ (a + 8 ≤ m.dest ∨ m.dest + m.size ≤ a) ∧
        paged.pageHeld (bitsOf e 16 41 * 2 ^ 16) m.size = false ∧ (paged.moveOf p 0 0x40000 true).isSome = true ∧
        paged.moveOf p 0 0x40001 true = none) ∧
    ((hot.core {}).hot = [(0, 0, 1, 0, 0)] ∧ (demo.core {}).hot = []) ∧
    (far.r.asks = .peer 3 (.read 64 8) :: [] ∧ 3 ≠ demo.pacer.number) :=
  ⟨by decide +kernel, by decide +kernel, by decide +kernel, by decide +kernel,
   ⟨_, rfl, by decide +kernel, by decide +kernel, by decide +kernel, by decide +kernel, by decide +kernel, by decide +kernel, by decide +kernel,
    { page := 0, size := 0x10000, dest := 0x40000, host := false }, 0x14000, 0x300F3, by decide +kernel, by decide +kernel, by decide +kernel⟩,
   by decide +kernel, by decide +kernel⟩

/-- With the link to the host in L2; a partition CONFIG has not made; a record saved in a pool; a line in L2. -/
theorem witness_FabricEvents_host :
    let off : State := { demo with pacer := { demo.pacer with flash := { demo.pacer.flash with linkOff := true } } }
    let blank : State := { demo with parts := [{ Part.blank 1 with known := false }] }
    let saved : State := { demo with parts := demo.parts.map fun p => { p with pool := [({ heat := 1 }, [1, 2])] } }
    off.pacer.flash.linkOff = true ∧ (∃ p, blank.part? 1 = some p ∧ p.known = false) ∧
    (∃ p, saved.part? 0 = some p ∧ p.pool.find? (fun x => x.1 == { heat := 1 }) = some ({ heat := 1 }, [1, 2])) ∧
    (List.replicate 64 (7 : Byte)).length = 64 ∧ demo.inL2 64 = false ∧
    ({ demo with lines := [{ die := 0, slice := 0, way := 0, line := 0, owner := 0 }] } : State).inL2 64 = true :=
  ⟨rfl, ⟨_, rfl, rfl⟩, ⟨_, rfl, by decide +kernel⟩, by decide, by decide +kernel, by decide +kernel⟩

/-- A port that carries a transaction and retrains; no port has reached any peer for 3 s, FDEAD being 2 s. -/
theorem witness_FabricEvents_ports :
    let q : Port := { mode := .relay, lanes := 4, replay := [{ seq := 5, dest := 3, num := 1 }], down := some 0, retraining := true }
    let x : Parcel := { dest := 3, num := 1, flits := 1, msg := .status 0, port := some 15 }
    let s : State := { demo with
      time := 300000000, pacer := { demo.pacer with ports := Vector.replicate 16 q, sent := [x] } }
    (∃ q', s.pacer.ports[15]? = some q' ∧ q'.retraining = true ∧ ∃ f ∈ q'.replay, f.seq = 5) ∧
    (∃ y ∈ s.pacer.sent, y.port = some 15) ∧ (∀ y ∈ demo.pacer.sent, y.port ≠ none) ∧
    (∃ p, s.part? 0 = some p ∧ p.record.fdead = 2000 ∧ ∀ i, i < 16 → p.record.fdead * 100000 < s.downFor 3 i) ∧ s.livePorts 3 = [] :=
  ⟨⟨_, rfl, rfl, _, List.mem_singleton.mpr rfl, rfl⟩, ⟨_, List.mem_singleton.mpr rfl, rfl⟩, (by intro y h; cases h),
   ⟨_, rfl, by decide +kernel, by decide +kernel⟩, by decide +kernel⟩

/-- A P-521 key, and its signature of the package below. -/
def signer : Nat × Nat :=
  (0x1273732f1efb6d19cd1803329d205f2681d0dd872c9220af22cb6d604fe94640efee87c8072f3cba00a15114adcf0ff35a77e9bb49342cc9f1a395310e7307dfe4f,
   0x14a437ee6838cc906d69227a9a9730bbf895e16faf97adfc00264e161bb8a569f8a55bd0f6232c18af243f7a78059f57f68d1448d6a88984ea5dacc064083d765fb)
def signature : Nat × Nat :=
  (0x68efd4be6bd117893617acde8541f2d0a0e056c392f6548c70fc7306c258fbf7d6dd959e2136b77414a51ed8ea570be925d703df4f1f18969838f06870f0360de9,
   0xafc6f57d23e28109707e3b377ac9f4f3be5242ae032c39f82d72c2958df7c44ca8d310ccc211c40757e82e46d8a879fe4c6cb5e3520f2ccee693f329fdb52bd15f)

/-- A signed package of one heat, with an image for the partition's die. -/
def signed : Package := { heats := [demoHeat], images := [(0x2000, [1, 2])], chain := [{ key := signer }], sig := signature }

theorem test_signature : ecdsaOk signer signature signed.bytes = true := by decide +kernel

theorem signed_ok : signed.signedFor [signer] = true := by
  have h : chainOk [signer] signed.chain = true := by decide +kernel
  have e : signed.chain.head? = some { key := signer } := rfl
  rw [Package.signedFor, h, e, Option.map_some, Option.getD_some, Bool.true_and]
  exact test_signature

/-- A module at stage D with and without a meet, a heat alive or none, and each host-assisted mode. -/
theorem witness_HostCommands :
    let idle : State := { demo with heats := [] }
    let bare : State := { idle with parts := [{ Part.blank 0 with record := { dies := [0], clusters := [(0, 0)], trusted := [signer] } }] }
    let weak : HeatDesc := { demoHeat with cls := .weak }
    let held : State := { idle with parts := idle.parts.map fun p => { p with
      admissions := [{ heat := { part := 0, id := 5, uid := 9, desc := weak, order := 3 }, launcher := none }], record := { p.record with modes := 4 } } }
    let mode (m : BitVec 7) : State := { demo with parts := demo.parts.map fun p => { p with record := { p.record with modes := m } } }
    (demo.pacer.stage = .d ∧ State.reset.pacer.stage ≠ .d ∧ State.reset.pacer.stage ≠ .c) ∧
    (∃ p, idle.part? 0 = some p ∧ p.loaded ≠ none ∧ p.admissions = [] ∧ p.argbase.toNat % 8 = 0) ∧
    (∃ p, bare.part? 0 = some p ∧ p.loaded = none) ∧ (∃ p, demo.part? 0 = some p ∧ ∃ h ∈ demo.heats, h.part = p.idx) ∧
    (groupOk none = true ∧ groupOk (some (65536, [])) = false) ∧
    (∀ p ∈ bare.parts, p.loaded = none) ∧
    (∃ p a, held.part? 0 = some p ∧ p.admissions = a :: [] ∧ a.heat.id = 5 ∧ a.heat.part = p.idx ∧ p.record.modes.getLsbD 2 = true ∧
      held.reserve p a.heat ≠ none) ∧
    (∃ p, bare.part? 0 = some p ∧ p.loaded = none ∧ Memory.wf bare.mem ∧ bare.meetOk p signed = true ∧
      bare.meetOk p { signed with chain := [] } = false) ∧
    (∃ p, (mode 0x2E).part? 0 = some p ∧ p.record.modes.getLsbD 1 = true ∧ p.record.modes.getLsbD 2 = true ∧
      p.record.modes.getLsbD 3 = true ∧ p.record.modes.getLsbD 5 = true) ∧
    (recordOk { dies := [0], clusters := [(0, 0)], share := 1000 } = true ∧ bare.conflicts 0 { dies := [0], clusters := [(0, 0)], share := 1000 } = false ∧
      (∃ q, demo.pacer.ports[0]? = some q ∧ q.lanes = 0)) :=
  ⟨by decide +kernel, ⟨_, rfl, by decide +kernel⟩, ⟨_, rfl, rfl⟩, ⟨_, rfl, _, List.mem_singleton.mpr rfl, rfl⟩, by decide +kernel, by decide +kernel,
   ⟨_, _, rfl, rfl, by decide +kernel⟩, ⟨_, rfl, rfl, by decide +kernel, by simp only [State.meetOk, signed_ok]; decide +kernel, rfl⟩,
   ⟨_, rfl, by decide +kernel⟩, by decide +kernel, by decide +kernel, ⟨_, rfl, rfl⟩⟩

/-- The link to the host in L2; a page on the move for the host; a VF that CONFIG has not made; a loaded meet and one not; what
MIGRATE, LEASETAB and SCRUBSET take and refuse; ports up and down. -/
theorem witness_HostCommands_order :
    let off : State := { demo with pacer := { demo.pacer with flash := { demo.pacer.flash with linkOff := true } } }
    let m : PageMove := { page := 0, size := 65536, dest := 65536, host := true }
    let move (l : List PageMove) : State := { demo with parts := demo.parts.map fun p => { p with moves := l } }
    let up : State := { demo with pacer := { demo.pacer with ports := Vector.replicate 16 { lanes := 4, down := none } } }
    (off.pacer.flash.linkOff = true ∧ demo.pacer.flash.linkOff = false ∧ (∀ p ∈ demo.parts, ∀ m ∈ p.moves, m.host = false)) ∧
    (∃ p ∈ (move [m]).parts, ∃ m ∈ p.moves, m.host = true) ∧
    (∃ p, demo.vf? 5 = some p ∧ p.known = false ∧ p.loaded = none) ∧ (∃ p, demo.vf? 0 = some p ∧ p.known = true ∧ p.loaded ≠ none) ∧
    demo.part? 5 = none ∧
    (∃ p, paged.part? 0 = some p ∧ p.destOk 65536 = true ∧ p.destOk 65537 = false) ∧
    (([7, 0] : List Nat).length ≤ 8 ∧ (∀ n ∈ ([7, 0] : List Nat), n ≤ 7) ∧ ¬∀ n ∈ ([8] : List Nat), n ≤ 7) ∧
    (recordOk { dies := [9] } = false ∧ recordOk { dies := [0], clusters := [(0, 0)], share := 1000 } = true) ∧
    (∃ q, up.pacer.ports[0]? = some q ∧ q.down = none ∧ q.mode ≠ .eth1600) ∧ ∃ q, demo.pacer.ports[0]? = some q ∧ q.down = some 0 :=
  ⟨by decide +kernel, ⟨_, List.mem_singleton.mpr rfl, _, List.mem_singleton.mpr rfl, rfl⟩, ⟨_, rfl, rfl, rfl⟩,
   ⟨_, rfl, rfl, by decide +kernel⟩, by decide +kernel, ⟨_, rfl, by decide +kernel⟩, by decide +kernel, by decide +kernel,
   ⟨_, rfl, rfl, by decide⟩, ⟨_, rfl, rfl⟩⟩

theorem test_start : stateAfter (.start 0 1) { demo with heats := [] } (fun t => (t.part? 0).map (·.nodes)) = some (some [.idle]) := by
  decide +kernel
theorem test_start_running : stateAfter (.start 0 1) demo (fun t => (t.part? 0).map fun p => (p.err, p.errcode)) = some (some (true, 3)) := by
  decide +kernel

/-- Each stage the start events come in, a checkpoint under way, a slot to restore, an outage. -/
theorem witness_StartAndCheckpoint :
    let c : Checkpoint := { demo.snapshot with seq := 1 }
    let flash (f : Flash) : State := { demo with teams := [], pacer := { demo.pacer with flash := f } }
    let empty : Flash := { slots := Vector.replicate 2 none }
    let full : Flash := { slots := #v[some c, none] }
    let third : State := { flash { empty with writing := true } with pacer := { (flash { empty with writing := true }).pacer with droop := { level := 3, level3At := some 0 } } }
    let shaking (o : Bool) : State := { demo with pacer := { demo.pacer with stage := .c, shake := { running := true }, flash := { full with outage := o } } }
    (State.reset.pacer.flash.outage = false ∧ (shaking true).pacer.flash.outage = true ∧ (shaking false).pacer.flash.outage = false ∧
      State.reset.pacer.stage = .a ∧ (shaking true).pacer.stage = .c ∧ (shaking true).world.silicon.fatal = 0) ∧
    full.newest = some c ∧ empty.newest = none ∧
    ((flash { empty with writing := true }).pacer.flash.writing = true ∧ (flash { empty with writing := true }).teams = [] ∧
      third.pacer.droop.level = 3 ∧ 48000 ≤ third.pacer.droop.millivolts ∧ third.pacer.droop.holdUp = false) ∧
    ((shaking true).pacer.shake.running = true ∧ (shaking true).pacer.shake.began ≠ some (shaking true).time ∧
      (shaking true).pacer.droop.level < 3 ∧ demo.pacer.flash.linkOff = false ∧ ∀ q ∈ demo.parts, ∀ m ∈ q.moves, m.host = false) :=
  ⟨by decide +kernel, rfl, rfl, by decide +kernel, by decide +kernel⟩

/-- Power lost under a checkpoint's write, then good for 100 ms. -/
theorem witness_StartAndCheckpoint_power :
    let s : State := { State.reset with
      time := 10000000
      pacer := { State.reset.pacer with
        flash := { State.reset.pacer.flash with writing := true }, droop := { level := 3, since48 := some 0 } } }
    s.pacer.flash.writing = true ∧ s.pacer.droop.level = 3 ∧ s.pacer.droop.since48 = some 0 ∧ 0 + 10000000 ≤ s.time ∧
    ({ State.reset with pacer := { State.reset.pacer with stage := .b } } : State).pacer.stage = .b := by decide +kernel

/-- A state that is no reset state, with its step. -/
theorem witness_StepKeepsInvariant : atNop.Inv ∧ ∃ t, step atNop = .next t := by
  have hn : ∀ n : Fin 2, atNop.pacer.flash.slots[n] = none := by decide +kernel
  refine ⟨⟨by decide +kernel, (by intro x h; cases h), ?_⟩, ?_⟩
  · intro n c h
    rw [hn n] at h
    cases h
  · have h : (match step atNop with | .next _ => true | _ => false) = true := by decide +kernel
    revert h
    cases step atNop with
    | next t => intro _; exact ⟨t, rfl⟩
    | fault f => intro h; cases h
    | refused f => intro h; cases h

theorem test_step_nop : (match step atNop with | .next t => some t.pc | _ => none) = some 8 := by decide +kernel
/-- Reset alone runs nothing: the runner context is absent. -/
theorem test_step_reset : (match step State.reset with | .next t => some (t.r.stat, t.pc) | _ => none) = some (.absent, 0) := by
  decide +kernel

end Sys2Proof.Tests
end

section
/-! Every step keeps the invariant (O59). The invariant speaks of three fields of the state alone, so each function of
the model that gives a state has one lemma, in the model's own order, named after the function: from a state that meets
the invariant it gives one that does. A function that computes in `M` keeps it whether it stops or not (`KeepsInv`), an
instruction or event when it goes on (`NextInv`). -/

namespace Sys2Proof.Machine
variable {s : State}

/-- What the invariant says of the checkpoints on flash. -/
def SlotsOk (slots : Vector (Option Checkpoint) 2) : Prop :=
  ∀ n : Fin 2, ∀ c, slots[n] = some c → Memory.wf c.mem ∧ ∀ x ∈ c.runners, x.1 = x.2.ident.id

/-- The invariant speaks of memory, of the runners that do not run and of the checkpoints, of nothing else. -/
theorem State.inv_iff :
    s.Inv ↔ Memory.wf s.mem ∧ (∀ x ∈ s.rs, x.1 = x.2.ident.id) ∧ SlotsOk s.pacer.flash.slots := Iff.rfl

/-- What keeps the invariant at each element keeps it along a list. -/
theorem State.Inv.foldl {β : Type} {f : State → β → State} {l : List β} (h : s.Inv) (hf : ∀ s x, s.Inv → (f s x).Inv) :
    (l.foldl f s).Inv := by
  induction l generalizing s with
  | nil => exact h
  | cons x t ih => exact ih (hf s x h)

/-- A computation leaves the invariant, whether it stops or not. -/
def KeepsInv {α : Type} : M (α × State) → Prop
  | .ok (_, s) => s.Inv
  | .error (_, s) => s.Inv

/-- The next state, if there is one, meets the invariant. -/
def NextInv : Host.Outcome State Fault Refusal → Prop
  | .next s => s.Inv
  | _ => True

/-- Two computations in a row. -/
theorem KeepsInv.bind {α β : Type} {m : M (α × State)} {k : α × State → M (β × State)} (h : KeepsInv m)
    (hk : ∀ a t, t.Inv → KeepsInv (k (a, t))) : KeepsInv (m >>= k) := by
  match m with
  | .ok (a, t) => exact hk a t h
  | .error e => exact h

/-- The address checks leave the state apart from the translations in use (`TlbApart`). -/
theorem State.Inv.of_tlbApart {t : State} (h : s.Inv) (k : TlbApart s t) : t.Inv := by
  obtain ⟨_, _, _, _, _, _, rfl⟩ := k
  exact h

theorem State.Inv.cellsPut {l : List Host.Cell} {p : List (Nat × Nat)} (h : s.Inv) :
    ({ s with mem := cellsPut s.mem l, poison := p } : State).Inv := ⟨wf_cellsPut l h.1, h.2⟩

/-- Runners changed in place, each kept under its number. -/
theorem State.Kept.map (f : Runner → Runner) (h : s.Kept) (hf : ∀ x, (f x).ident = x.ident) :
    ∀ y ∈ s.rs.map fun x => (x.1, f x.2), y.1 = y.2.ident.id := by
  intro y hy
  obtain ⟨x, hx, rfl⟩ := List.mem_map.mp hy
  rw [h x hx, hf]

theorem forall_mem_upsert {α : Type} {q : α → Bool} {p : α → Prop} {x : α} (hx : p x) {l : List α} (hl : ∀ y ∈ l, p y) :
    ∀ y ∈ upsert q x l, p y := by
  induction l with
  | nil => simpa [upsert] using hx
  | cons a t ih =>
    obtain ⟨ha, ht⟩ := List.forall_mem_cons.mp hl
    unfold upsert
    split
    · exact List.forall_mem_cons.mpr ⟨hx, ht⟩
    · exact List.forall_mem_cons.mpr ⟨ha, ih ht⟩

@[simp] theorem Runner.exposed_ident (x : Runner) (p : Nat → Bool) : (x.exposed p).ident = x.ident := by
  unfold Runner.exposed
  dsimp only
  split <;> rfl

theorem KeepsInv.ok {α : Type} {a : α} (h : s.Inv) : KeepsInv (.ok (a, s)) := h

theorem KeepsInv.error {α : Type} {e : Stop} (h : s.Inv) : KeepsInv (α := α) (.error (e, s)) := h

theorem State.Inv.ite {c : Prop} [Decidable c] {a b : State} (ha : a.Inv) (hb : b.Inv) : (if c then a else b).Inv := by
  split
  · exact ha
  · exact hb

theorem State.Inv.getD_map {α : Type} {o : Option α} {f : α → State} (h : s.Inv) (hf : ∀ a, (f a).Inv) :
    ((o.map f).getD s).Inv := by
  cases o with
  | none => exact h
  | some a => exact hf a

theorem KeepsInv.ite {α : Type} {c : Prop} [Decidable c] {a b : M (α × State)} (ha : KeepsInv a) (hb : KeepsInv b) :
    KeepsInv (if c then a else b) := by
  split
  · exact ha
  · exact hb

theorem KeepsInv.map {α β : Type} {m : M (α × State)} {f : α × State → β × State} (h : KeepsInv m)
    (hf : ∀ a t, t.Inv → (f (a, t)).2.Inv) : KeepsInv (m.map f) := by
  match m with
  | .ok (a, t) => exact hf a t h
  | .error e => exact h

/-! ### Machine/Flags -/

theorem State.Inv.raise {f : Flags} (h : s.Inv) : (s.raise f).Inv := h

/-! ### Machine/Operands -/

theorem State.Inv.setReg {n : SR} {w : Word} (h : s.Inv) : (s.setReg n w).Inv := h

theorem State.Inv.setPc {a : Word} (h : s.Inv) : (s.setPc a).Inv := h

theorem State.Inv.advance (h : s.Inv) : (s.advance).Inv := h

theorem State.Inv.setVreg {n : VR} {v : VReg} (h : s.Inv) : (s.setVreg n v).Inv := h

theorem State.Inv.setVstart {i : Nat} (h : s.Inv) : (s.setVstart i).Inv := h

theorem State.Inv.setVl {n : Nat} (h : s.Inv) : (s.setVl n).Inv := h

/-! ### Machine/Find -/

theorem State.Inv.setCore {c : Core} (h : s.Inv) : (s.setCore c).Inv := h

theorem State.Inv.setCluster {c : Cluster} (h : s.Inv) : (s.setCluster c).Inv := h

theorem State.Inv.setDie {d : Die} (h : s.Inv) : (s.setDie d).Inv := h

theorem State.Inv.setEngine {e : Engine} (h : s.Inv) : (s.setEngine e).Inv := State.Inv.ite h h

theorem State.Inv.setTeam {t : Team} (h : s.Inv) : (s.setTeam t).Inv := h

theorem State.Inv.setHeat {ht : Heat} (h : s.Inv) : (s.setHeat ht).Inv := h

theorem State.Inv.setPart {p : Part} (h : s.Inv) : (s.setPart p).Inv := h

theorem State.Inv.setRunner {x : Runner} (h : s.Inv) : (s.setRunner x).Inv := by
  obtain ⟨hm, hr, hf⟩ := h
  unfold State.setRunner
  split
  · exact ⟨hm, hr, hf⟩
  · exact ⟨hm, forall_mem_upsert (p := fun y : RunnerId × Runner => y.1 = y.2.ident.id) rfl hr, hf⟩

theorem State.Inv.focus {r : RunnerId} (h : s.Inv) : (s.focus r).Inv := by
  obtain ⟨hm, hr, hf⟩ := h
  unfold State.focus
  split
  · exact ⟨hm, hr, hf⟩
  · split
    · exact ⟨hm, hr, hf⟩
    · refine ⟨hm, fun y hy => ?_, hf⟩
      rcases List.mem_cons.mp hy with rfl | hy
      · rfl
      · exact hr y (List.mem_filter.mp hy).1

theorem State.Inv.withRunner {r : RunnerId} {f : State → State} (h : s.Inv) (hf : ∀ t, t.Inv → (f t).Inv) :
    (s.withRunner r f).Inv := by
  unfold State.withRunner
  split
  · exact (hf _ h.focus).focus
  · exact h

theorem State.Inv.mapR {f : Runner → Runner} (h : s.Inv) : (s.mapR f).Inv := h

theorem State.Inv.freeBool (h : s.Inv) : (s.freeBool).2.Inv := h

theorem State.Inv.freeBytes {n : Nat} (h : s.Inv) : (s.freeBytes n).2.Inv := h

theorem State.Inv.transmit {x : Parcel} (h : s.Inv) : (s.transmit x).Inv := by
  unfold State.transmit
  split <;> exact h

theorem State.Inv.post {m : OutMsg} {x : Nat × Nat} (h : s.Inv) : (s.post m x).Inv := State.Inv.transmit h

theorem State.Inv.emit {m : OutMsg} (h : s.Inv) : (s.emit m).Inv := State.Inv.foldl h fun _ _ h => h.post

theorem State.Inv.resend {which : Parcel → Bool} (h : s.Inv) : (s.resend which).Inv := by
  unfold State.resend
  grind [State.inv_iff, State.Inv.foldl, State.Inv.transmit]

theorem State.Inv.answered {m : OutMsg} {dest : Nat} (h : s.Inv) : (s.answered m dest).Inv := h

/-! ### Machine/Cache -/

theorem State.Inv.touchL2 {key : Nat} {slice : Option Nat} {part : Nat} {write alloc : Bool} (h : s.Inv) :
    (s.touchL2 key slice part write alloc).Inv := State.Inv.ite h h

theorem State.Inv.readL2 {k n : Nat} {slice : Option Nat} {part : Nat} {alloc : Bool} (h : s.Inv) :
    (s.readL2 k n slice part alloc).Inv := State.Inv.foldl h fun _ _ h => h.touchL2

theorem State.Inv.writeL2 {keys : List Nat} {slice : Nat → Option Nat} {part : Nat} {alloc : Bool} (h : s.Inv) :
    (s.writeL2 keys slice part alloc).Inv := State.Inv.foldl h fun _ _ h => h.touchL2

theorem State.Inv.mapL1 {f : List L1Line → List L1Line} (h : s.Inv) : (s.mapL1 f).Inv := h

theorem State.Inv.servedBy {v : Via} {key : Nat} (h : s.Inv) : (s.servedBy v key).2.Inv := by
  unfold State.servedBy
  grind [State.inv_iff, State.Inv.freeBool]

theorem State.Inv.refillL1 {served alloc : Bool} {key : Nat} (h : s.Inv) : (s.refillL1 served alloc key).Inv := by
  unfold State.refillL1
  grind [State.inv_iff, State.Inv.mapL1]

theorem State.Inv.staleL1 {writer : Option (CoreId × RunnerId × Nat)} {cells : List Host.Cell} (h : s.Inv) :
    (s.staleL1 writer cells).Inv := State.Inv.ite h h

theorem State.Inv.dropL1 (h : s.Inv) : (s.dropL1).Inv := State.Inv.ite h h.mapL1

theorem State.Inv.dropL1Line {line : Nat} (h : s.Inv) : (s.dropL1Line line).Inv := State.Inv.ite h.mapL1 h

theorem State.Inv.loadLines {v : Via} {w : Served} {key : Nat} {slice : Option Nat} (h : s.Inv) :
    (s.loadLines v w key slice).Inv := State.Inv.refillL1 h

theorem State.Inv.flushLine {line : Nat} {evict : Bool} (h : s.Inv) : (s.flushLine line evict).Inv := h

theorem State.Inv.invLine {line : Nat} (h : s.Inv) : (s.invLine line).Inv := ⟨wf_loseLine _ _ h.1, h.2⟩

theorem State.Inv.lineL2 {key mode : Nat} (h : s.Inv) : (s.lineL2 key mode).Inv := by
  unfold State.lineL2
  grind [State.inv_iff, State.Inv.flushLine, State.Inv.invLine]

theorem State.Inv.lineHere {key mode : Nat} (h : s.Inv) : (s.lineHere key mode).Inv :=
    State.Inv.ite h h.dropL1Line.lineL2

theorem State.Inv.prefetchLine {key : Nat} {slice : Option Nat} {l2only : Bool} (h : s.Inv) :
    (s.prefetchLine key slice l2only).Inv := by
  unfold State.prefetchLine
  grind [State.inv_iff, State.Inv.touchL2, State.Inv.mapL1]

/-! ### Machine/Walk -/

theorem State.Inv.stopTrap {α : Type} {c : Cause} {v : Word} (h : s.Inv) : KeepsInv (stopTrap (α := α) c v s) := h

theorem State.Inv.newPages (h : s.Inv) : (s.newPages).Inv := State.Inv.ite h h

theorem State.Inv.resolve {va : Word} {n al : Nat} {k : AccKind} (h : s.Inv) : (s.resolve va n al k).2.Inv :=
  h.of_tlbApart (s.resolve_apart va n al k)

/-! ### Machine/Ops -/

theorem State.Inv.exposeAll {p : Nat → Bool} (h : s.Inv) : (s.exposeAll p).Inv :=
  ⟨h.1, h.2.1.map (·.exposed p) fun x => x.exposed_ident p, h.2.2⟩

theorem State.Inv.exposeOthers {p : Nat → Bool} (h : s.Inv) : (s.exposeOthers p).Inv :=
  ⟨h.1, h.2.1.map (·.exposed p) fun x => x.exposed_ident p, h.2.2⟩

theorem State.Inv.lateFor {o : Obs} {hs : List Hist} (h : s.Inv) : (s.lateFor o hs).2.Inv := by
  unfold State.lateFor
  grind [State.inv_iff]

theorem State.Inv.readBack {o : Obs} {shown : List Nat} (h : s.Inv) : (s.readBack o shown).Inv := State.Inv.ite h h

theorem State.Inv.look {k n : Nat} (h : s.Inv) : (s.look k n).2.Inv := by
  unfold State.look
  grind [State.inv_iff]

theorem State.Inv.seenVia {o : Obs} {l1 : List L1Line} {k n : Nat} (h : s.Inv) : (s.seenVia o l1 k n).2.Inv := by
  unfold State.seenVia
  grind [State.Inv.look, State.Inv.exposeOthers, State.Inv.lateFor, State.Inv.readBack]

theorem State.Inv.seen {o : Obs} {k n : Nat} (h : s.Inv) : (s.seen o k n).2.Inv := h.seenVia

theorem State.Inv.agentLook {k n : Nat} (h : s.Inv) : (s.agentLook k n).2.Inv := h.exposeAll.look

theorem State.Inv.readUnder {o : Obs} {v : Via} {w : Served} {slice : Option Nat} {k n : Nat} (h : s.Inv) :
    (s.readUnder o v w slice k n).2.Inv := h.seenVia.loadLines

theorem State.Inv.readRaw {o : Obs} {v : Via} {w : Served} {slice : Option Nat} {k n : Nat} (h : s.Inv) :
    (s.readRaw o v w slice k n).2.Inv := h.readUnder

theorem State.Inv.consume {α : Type} {va : Word} {key unit : Nat} (h : s.Inv) :
    KeepsInv (s.consume (α := α) va key unit) := by
  unfold State.consume
  split <;> exact h

theorem State.Inv.readBy {o : Obs} {v : Via} {pin va : Word} {k n : Nat} (h : s.Inv) :
    KeepsInv (s.readBy o v pin va k n) := by
  unfold State.readBy
  grind [KeepsInv, State.Inv.servedBy, State.Inv.stopTrap, State.Inv.consume, State.Inv.readRaw]

theorem State.Inv.readAt {o : Obs} {v : Via} {va : Word} {k n : Nat} (h : s.Inv) : KeepsInv (s.readAt o v va k n) :=
    h.readBy

theorem State.Inv.answer {a : Ask} (h : s.Inv) : KeepsInv (s.answer a) := by
  unfold State.answer
  grind [KeepsInv]

theorem State.Inv.replyBytes {va : Word} {n : Nat} {r : Reply} (h : s.Inv) : KeepsInv (replyBytes va n r s) := by
  unfold Machine.replyBytes
  grind [KeepsInv, State.Inv.stopTrap, State.Inv.consume]

theorem State.Inv.check {va : Word} {n al : Nat} {k : AccKind} (h : s.Inv) : KeepsInv (s.check va n al k) := by
  unfold State.check
  grind [KeepsInv, State.Inv.resolve, State.Inv.stopTrap]

theorem State.Inv.loadFrom {o : Obs} {va : Word} {a : Ask} {k n : Nat} (h : s.Inv) : KeepsInv (s.loadFrom o va a k n) :=
    KeepsInv.bind h.answer fun _ _ h => KeepsInv.bind h.replyBytes fun _ _ h => h

theorem State.Inv.load {o : Obs} {v : Via} {va : Word} {n al : Nat} (h : s.Inv) : KeepsInv (s.load o v va n al) := by
  unfold State.load
  grind [KeepsInv.bind, State.Inv.check, State.Inv.loadFrom, State.Inv.readAt, State.Inv.stopTrap]

theorem State.Inv.touchTiles {who loads : RunnerId → Bool} {cells : List Host.Cell} (h : s.Inv) :
    (s.touchTiles who loads cells).Inv := State.Inv.ite h h

theorem State.Inv.request {part : Nat} {m : OutMsg} (h : s.Inv) : (s.request part m).Inv := by
  unfold State.request
  grind [State.inv_iff, State.Inv.emit, State.Inv.setPart]

theorem State.Inv.requestDone {r : RunnerId} (h : s.Inv) : (s.requestDone r).Inv := by
  unfold State.requestDone
  grind [State.inv_iff, State.Inv.setPart, State.Inv.emit]

theorem State.Inv.send {r : RunnerId} {a : Ask} (h : s.Inv) : (s.send r a).Inv := by
  unfold State.send
  grind [State.inv_iff, State.Inv.foldl, State.Inv.emit, State.Inv.request]

theorem State.Inv.lineAction {key mode : Nat} (h : s.Inv) : (s.lineAction key mode).Inv :=
    State.Inv.ite h.send h.lineHere

theorem State.Inv.lineAfterStores {key mode : Nat} (h : s.Inv) : (s.lineAfterStores key mode).Inv :=
    State.Inv.ite h h.lineAction

theorem State.Inv.putCells {who : RunnerId} {slice : Nat → Option Nat} {a : StoreAct} (h : s.Inv) :
    (s.putCells who slice a).Inv := by
  unfold State.putCells
  dsimp only
  split
  · exact h.writeL2.cellsPut
  · exact State.Inv.send h.writeL2.cellsPut

theorem State.Inv.reachFor {who : RunnerId} {slice : Nat → Option Nat} {alloc : Bool} {cells : List Host.Cell}
    (h : s.Inv) : (s.reachFor who slice alloc cells).Inv := h.staleL1.exposeAll.putCells

theorem State.Inv.writeFor {who : RunnerId} {slice : Nat → Option Nat} {alloc : Bool} {cells : List Host.Cell}
    (h : s.Inv) : (s.writeFor who slice alloc cells).Inv := h.touchTiles.reachFor

theorem State.Inv.agentWrite {part : Nat} {cells : List Host.Cell} (h : s.Inv) : (s.agentWrite part cells).Inv :=
    h.writeFor

theorem State.Inv.writeOwn {a : StoreAct} {num : Nat} (h : s.Inv) : (s.writeOwn a num).Inv :=
    h.staleL1.exposeOthers.putCells

theorem State.Inv.lateFrom {o : Obs} {keys : List Nat} (h : s.Inv) : (s.lateFrom o keys).2.Inv := h.lateFor

theorem State.Inv.performAt {late : List Nat} {a : StoreAct} (h : s.Inv) : (s.performAt late a).Inv := by
  unfold State.performAt
  grind [State.Inv.mapL1, State.Inv.mapR, State.Inv.touchTiles, State.Inv.writeOwn]

theorem State.Inv.perform {a : StoreAct} (h : s.Inv) : (s.perform a).Inv := h.lateFrom.performAt

theorem State.Inv.performLate {seen : Bool} {a : StoreAct} (h : s.Inv) : (s.performLate seen a).Inv :=
    State.Inv.writeOwn (State.Inv.touchTiles h)

theorem State.Inv.drainShare (h : s.Inv) : (s.drainShare).Inv := State.Inv.foldl h fun _ _ h => h.performLate

theorem State.Inv.drainPhase (h : s.Inv) : (s.drainPhase).Inv := h.drainShare

theorem State.Inv.shareStore {a : StoreAct} (h : s.Inv) : (s.shareStore a).Inv := State.Inv.ite h.drainShare h

theorem State.Inv.deliver {a : StoreAct} (h : s.Inv) : (s.deliver a).Inv := by
  unfold State.deliver
  grind [State.Inv.touchTiles, State.Inv.shareStore, State.Inv.perform]

theorem State.Inv.deliverSeen {a : StoreAct} (h : s.Inv) : (s.deliverSeen a).Inv := by
  unfold State.deliverSeen
  grind [State.Inv.shareStore, State.Inv.drainShare, State.Inv.performLate]

theorem State.Inv.freeCopies (h : s.Inv) : (s.freeCopies).Inv := h

theorem State.Inv.freeTileOps (h : s.Inv) : (s.freeTileOps).Inv := by
  unfold State.freeTileOps
  grind [State.Inv.setCore]

theorem State.Inv.commitStrip (h : s.Inv) : (s.commitStrip).Inv := by
  unfold State.commitStrip
  grind [State.Inv.foldl, State.Inv.lineAction, State.Inv.deliverSeen, State.Inv.mapR, State.Inv.freeCopies,
    State.Inv.freeTileOps]

theorem State.Inv.endProt (h : s.Inv) : (s.endProt).Inv := State.Inv.ite h.commitStrip h

theorem State.Inv.storeNow {a : StoreAct} (h : s.Inv) : (s.storeNow a).Inv := by
  unfold State.storeNow
  grind [State.Inv.endProt, State.Inv.deliver, State.Inv.touchTiles, State.Inv.mapR]

theorem State.Inv.store {a : StoreAct} (h : s.Inv) : (s.store a).Inv := State.Inv.ite h.storeNow h

theorem State.Inv.fitStrip {bits : Nat} (h : s.Inv) : (s.fitStrip bits).Inv := State.Inv.ite h.endProt h

theorem State.Inv.checkStore {va : Word} {n al : Nat} (h : s.Inv) : KeepsInv (s.checkStore va n al) := by
  unfold State.checkStore
  grind [KeepsInv, KeepsInv.bind, State.Inv.check, State.Inv.answer, State.Inv.replyBytes, State.Inv.stopTrap]

theorem State.Inv.acquireL1 {scope : Scope} (h : s.Inv) : (s.acquireL1 scope).Inv := State.Inv.ite h.dropL1 h

theorem State.Inv.fenceAll (h : s.Inv) : (s.fenceAll).Inv := h

theorem State.Inv.acquire {o : Obs} {scope : Scope} (h : s.Inv) : (s.acquire o scope).Inv := State.Inv.acquireL1 h

theorem State.Inv.acquireBoth (h : s.Inv) : (s.acquireBoth).Inv := by
  unfold State.acquireBoth
  grind [State.Inv.acquire, State.Inv.mapR]

theorem State.Inv.condemn {part heat status : Nat} {trap : Option (Nat × Word × Word)} (h : s.Inv) :
    (s.condemn part heat status trap).Inv := h

theorem State.Inv.enterTrap {c : Cause} {tval : Word} {imp : Bool} (h : s.Inv) : (s.enterTrap c tval imp).Inv := by
  unfold State.enterTrap
  grind [State.Inv.endProt, State.Inv.mapR, State.Inv.condemn]

theorem State.Inv.returnTrap (h : s.Inv) : (s.returnTrap).Inv := h

theorem State.Inv.cancelYounger (h : s.Inv) : (s.cancelYounger).Inv := by
  unfold State.cancelYounger
  grind [State.Inv.mapR]

theorem State.Inv.handoffDeadlock {reason : Nat} (h : s.Inv) : (s.handoffDeadlock reason).Inv := by
  unfold State.handoffDeadlock
  grind [State.inv_iff, State.Inv.cancelYounger, State.Inv.enterTrap]

theorem State.Inv.scalarTrap {c : Cause} {tval : Word} (h : s.Inv) : (s.scalarTrap c tval).Inv :=
    State.Inv.ite h.enterTrap h.handoffDeadlock

theorem State.Inv.holdAmo {i : Instr} {sd : SR} {id : Nat} (h : s.Inv) : (s.holdAmo i sd id).Inv := h

theorem State.Inv.rewind {last : BitVec 2} (h : s.Inv) : (s.rewind last).Inv := by
  unfold State.rewind
  grind [State.Inv.cancelYounger, State.Inv.freeCopies, State.Inv.setCore, State.Inv.mapR, State.Inv.setVl,
    State.Inv.setVstart]

theorem State.Inv.stallFor {a : Ask} (h : s.Inv) : (s.stallFor a).Inv := State.Inv.send h

theorem State.Inv.completed (h : s.Inv) : (s.completed).Inv := h

theorem KeepsInv.finish {m : M (Unit × State)} (h : KeepsInv m) : (finish m).Inv := by
  unfold Machine.finish
  split
  · exact h
  · exact State.Inv.scalarTrap h
  · exact State.Inv.stallFor h
  · exact State.Inv.handoffDeadlock h
  · exact State.Inv.rewind h
  · exact h

theorem KeepsInv.outcome {m : M (Unit × State)} (h : KeepsInv m) : NextInv (outcome m) := h.finish

theorem State.Inv.afterVector {k : State → M (Unit × State)} (h : s.Inv) (hk : KeepsInv (k s)) :
    KeepsInv (s.afterVector k) := by
  unfold State.afterVector
  split
  · exact hk
  · exact h

theorem State.Inv.report {k : State → M (Unit × State)} (h : s.Inv) (hk : KeepsInv (k s)) : KeepsInv (s.report k) := by
  unfold State.report
  split
  · exact h
  · exact hk

theorem State.Inv.privileged {i : Instr} {k : State → M (Unit × State)} (h : s.Inv) (hk : KeepsInv (k s)) :
    KeepsInv (s.privileged i k) := by
  unfold State.privileged
  split
  · exact hk
  · exact h

/-! ### Machine/Ialu -/

theorem State.Inv.aluOp {f : Word → Word → Word} {sd sa : SR} {b : OpB} (h : s.Inv) : NextInv (aluOp f sd sa b s) := h

theorem State.Inv.unaryOp {f : Word → Word} {sd sa : SR} (h : s.Inv) : NextInv (unaryOp f sd sa s) := h

/-! ### Machine/Falu -/

theorem State.Inv.raiseInOrder {f : Flags} (h : s.Inv) : (s.raiseInOrder f).Inv := State.Inv.ite h.raise h

theorem State.Inv.falu {sd : SR} {f : Modes → Flagged Nat} (h : s.Inv) : KeepsInv (falu s sd f) := by
  unfold Machine.falu
  grind [KeepsInv, State.Inv.stopTrap, State.Inv.setReg, State.Inv.raiseInOrder, State.Inv.advance]

theorem State.Inv.falu2 {op : Modes → XVal → XVal → Flagged XVal} {f : FFmt} {sd sa sb : SR} (h : s.Inv) :
    NextInv (falu2 op f sd sa sb s) := KeepsInv.outcome h.falu

/-! ### Machine/LoadStore -/

theorem State.Inv.scalarLoad {va : Word} {n : Nat} {scope : Scope} (h : s.Inv) : KeepsInv (s.scalarLoad va n scope) :=
    by
  unfold State.scalarLoad
  grind [KeepsInv, State.Inv.load]

theorem State.Inv.doLoad {sz : LSize} {acq : Bool} {scope : Scope} {sd sa : SR} {off : BitVec 32} (h : s.Inv) :
    KeepsInv (doLoad sz acq scope sd sa off s) := by
  unfold Machine.doLoad
  grind [KeepsInv, KeepsInv.bind, State.Inv.scalarLoad, State.Inv.acquire, State.Inv.setReg, State.Inv.advance]

theorem State.Inv.scalarStore {va : Word} {n : Nat} {w : Word} {rel : Bool} (h : s.Inv) :
    KeepsInv (s.scalarStore va n w rel) := KeepsInv.bind h.checkStore fun _ _ h => h.store

theorem State.Inv.doStore {sz : SSize} {rel : Bool} {sb sa : SR} {off : BitVec 32} (h : s.Inv) :
    KeepsInv (doStore sz rel sb sa off s) := KeepsInv.bind h.scalarStore fun _ _ h => h.advance

theorem State.Inv.amoAt {o : Obs} {op : AmoOp} {rel alloc : Bool} {va : Word} {k w b cmp : Nat} (h : s.Inv) :
    KeepsInv (s.amoAt o op rel alloc va k w b cmp) := by
  unfold State.amoAt
  grind [State.inv_iff, KeepsInv, State.Inv.consume, State.Inv.look, State.Inv.exposeOthers, State.Inv.lateFrom,
    State.Inv.readBack, State.Inv.touchL2, State.Inv.performAt]

theorem State.Inv.atomic {o : Obs} {op : AmoOp} {rel alloc : Bool} {va : Word} {w b cmp : Nat} (h : s.Inv) :
    KeepsInv (s.atomic o op rel alloc va w b cmp) := by
  unfold State.atomic
  grind [KeepsInv, KeepsInv.bind, State.Inv.check, State.Inv.stopTrap, State.Inv.answer, State.Inv.replyBytes,
    State.Inv.amoAt]

theorem State.Inv.amoAct {op : AmoOp} {dbl : Bool} {ord : Order} {scope : Scope} {sd sb sa : SR} (h : s.Inv) :
    KeepsInv (amoAct op dbl ord scope sd sb sa s) := by
  unfold Machine.amoAct
  grind [KeepsInv, KeepsInv.bind, State.Inv.endProt, State.Inv.atomic, State.Inv.acquire]

theorem State.Inv.doAmo {i : Instr} {op : AmoOp} {dbl : Bool} {ord : Order} {scope : Scope} {sd sb sa : SR}
    (h : s.Inv) : KeepsInv (doAmo i op dbl ord scope sd sb sa s) := by
  unfold Machine.doAmo
  grind [State.inv_iff, KeepsInv, KeepsInv.bind, State.Inv.amoAct, State.Inv.setReg, State.Inv.advance, State.Inv.check,
    State.Inv.stopTrap, State.Inv.holdAmo]

/-! ### Machine/Control -/

theorem State.Inv.branch {c : Word → Word → Bool} {sa sb : SR} {off : BitVec 32} (h : s.Inv) :
    NextInv (branch c sa sb off s) := State.Inv.ite h h

theorem State.Inv.execJalr {sd sa : SR} {off : BitVec 32} (h : s.Inv) : NextInv (execJalr sd sa off s) := by
  unfold Machine.execJalr
  grind [KeepsInv, KeepsInv.outcome, State.Inv.stopTrap, State.Inv.setReg, State.Inv.setPc]

theorem State.Inv.mapSysr {f : Sysr → Sysr} (h : s.Inv) : (s.mapSysr f).Inv := h

theorem State.Inv.setWaymask {m : BitVec 16} (h : s.Inv) : (s.setWaymask m).Inv := by
  unfold State.setWaymask
  grind [State.Inv.setPart]

theorem State.Inv.crWrite {n : BitVec 12} {v : Word} (h : s.Inv) : (s.crWrite n v).Inv := by
  unfold State.crWrite
  grind [State.Inv.setVl, State.Inv.setVstart, State.Inv.mapR, State.Inv.mapSysr, State.Inv.setWaymask]

theorem State.Inv.crAccess {i : Instr} {n : BitVec 12} {write : Bool} {k : State → M (Unit × State)} (h : s.Inv)
    (hk : KeepsInv (k s)) : KeepsInv (crAccess i n write s k) := by
  unfold Machine.crAccess
  grind [State.Inv.afterVector, State.Inv.privileged]

theorem State.Inv.execWrcr {cr : BitVec 12} {sa : SR} (h : s.Inv) : NextInv (execWrcr cr sa s) := by
  unfold Machine.execWrcr
  grind [KeepsInv, KeepsInv.outcome, State.Inv.crAccess, State.Inv.crWrite, State.Inv.advance, State.Inv.stopTrap]

theorem State.Inv.updateCr {i : Instr} {f : Word → Word → Word} {sd : SR} {cr : BitVec 12} {sa : SR} (h : s.Inv) :
    NextInv (updateCr i f sd cr sa s) := by
  refine KeepsInv.outcome (h.crAccess ?_)
  dsimp only
  split
  · exact h.crWrite
  · exact h

theorem State.Inv.execEret (h : s.Inv) : NextInv (execEret s) := by
  unfold Machine.execEret
  grind [KeepsInv, KeepsInv.outcome, State.Inv.privileged, State.Inv.afterVector, State.Inv.stopTrap,
    State.Inv.returnTrap]

theorem State.Inv.fenced {k : FenceKind} {scope : Scope} (h : s.Inv) : (s.fenced k scope).Inv := State.Inv.acquireL1 h

theorem State.Inv.fenceNow {k : FenceKind} {scope : Scope} (h : s.Inv) : (s.fenceNow k scope).Inv := by
  unfold State.fenceNow
  grind [State.Inv.fenced, State.Inv.drainShare]

theorem State.Inv.doFence {kind : FenceKind} {scope : Scope} (h : s.Inv) : KeepsInv (doFence kind scope s) := by
  unfold Machine.doFence
  split
  · exact h.afterVector h.fenceNow
  · exact h.afterVector h.fenceNow
  · change State.Inv _
    split
    · exact h.fenceNow
    · exact h

theorem State.Inv.fetchAfter (h : s.Inv) : (s.fetchAfter).Inv := h

theorem State.Inv.execIfence (h : s.Inv) : NextInv (execIfence s) := State.Inv.ite h.fetchAfter h.advance

theorem State.Inv.dropTlb {part : Nat} {va : Option Nat} (h : s.Inv) : (s.dropTlb part va).Inv :=
  ⟨h.1, h.2.1.map (fun x => { x with pages := x.pages.filter fun e => !e.dropped part va }) fun _ => rfl, h.2.2⟩

theorem State.Inv.execPrefetch {sa : SR} {l2only : Bool} (h : s.Inv) : NextInv (execPrefetch sa l2only s) := by
  unfold Machine.execPrefetch
  grind [NextInv, State.Inv.resolve, State.Inv.newPages, State.Inv.advance, State.Inv.prefetchLine, State.Inv.mapR]

theorem State.Inv.heldLine {key mode : Nat} (h : s.Inv) : (s.heldLine key mode).Inv :=
    State.Inv.ite h.lineAfterStores h.prefetchLine

theorem State.Inv.acceptLine {k mode : Nat} (h : s.Inv) : (s.acceptLine k mode).Inv := State.Inv.ite h.lineAfterStores h

theorem State.Inv.doLine {sa : SR} {mode : Nat} (h : s.Inv) : KeepsInv (doLine sa mode s) := by
  unfold Machine.doLine
  grind [KeepsInv, KeepsInv.bind, State.Inv.check, State.Inv.acceptLine, State.Inv.advance, State.Inv.answer,
    State.Inv.replyBytes, State.Inv.stopTrap]

theorem State.Inv.execCinv {sa : SR} {wholeL1 : Bool} (h : s.Inv) : NextInv (execCinv sa wholeL1 s) := by
  unfold Machine.execCinv
  grind [KeepsInv, KeepsInv.outcome, State.Inv.privileged, State.Inv.dropL1, State.Inv.advance, State.Inv.doLine]

/-! ### Machine/StripQueue -/

theorem State.Inv.takeCheckpoint {top : Word} (h : s.Inv) : (s.takeCheckpoint top).Inv := h

theorem State.Inv.giveLength {sd : SR} {n : Nat} (h : s.Inv) : (s.giveLength sd n).Inv := h

theorem State.Inv.leaveStrip (h : s.Inv) : (s.leaveStrip).Inv := h

theorem State.Inv.doStripBegin {sd sa sb : SR} {cap : BitVec 16} (h : s.Inv) : (doStripBegin sd sa sb cap s).Inv := by
  unfold Machine.doStripBegin
  grind [State.Inv.commitStrip, State.Inv.mapR, State.Inv.giveLength, State.Inv.leaveStrip, State.Inv.advance,
    State.Inv.takeCheckpoint]

theorem State.Inv.doStripNext {sd : SR} {off : BitVec 32} (h : s.Inv) : (doStripNext sd off s).Inv := by
  unfold Machine.doStripNext
  grind [State.Inv.giveLength, State.Inv.advance, State.Inv.commitStrip, State.Inv.mapR, State.Inv.takeCheckpoint,
    State.Inv.setPc, State.Inv.leaveStrip]

theorem State.Inv.doStripExit (h : s.Inv) : (doStripExit s).Inv := h.commitStrip.leaveStrip.advance

theorem State.Inv.setQueue {q : QR} {l : List Word} (h : s.Inv) : (s.setQueue q l).Inv := h

theorem State.Inv.noteItem {i : VItem} (h : s.Inv) : (s.noteItem i).Inv := State.Inv.ite h h

theorem State.Inv.popScalar {q : QR} (h : s.Inv) : KeepsInv (s.popScalar q) := by
  unfold State.popScalar
  grind [KeepsInv, State.Inv.setQueue, State.Inv.noteItem]

theorem State.Inv.setPeek {b : Bool} (h : s.Inv) : (s.setPeek b).Inv := h

theorem State.Inv.execQpeek {sd : SR} {q : QR} (h : s.Inv) : NextInv (execQpeek sd q s) := by
  unfold Machine.execQpeek
  grind [NextInv, State.Inv.setReg, State.Inv.setPeek, State.Inv.advance]

theorem State.Inv.execQpush {q : QR} {sa : SR} (h : s.Inv) : NextInv (execQpush q sa s) := by
  unfold Machine.execQpush
  grind [KeepsInv, KeepsInv.outcome, State.Inv.setQueue, State.Inv.noteItem, State.Inv.advance]

theorem State.Inv.doBq {taken : Word → Bool} {sd : SR} {q : QR} {off : BitVec 32} (h : s.Inv) :
    KeepsInv (doBq taken sd q off s) := by
  unfold Machine.doBq
  grind [KeepsInv, KeepsInv.bind, State.Inv.popScalar, State.Inv.setReg, State.Inv.setPc, State.Inv.advance]

/-! ### Machine/Sync -/

theorem State.Inv.drainTeam {t : TeamId} (h : s.Inv) : (s.drainTeam t).Inv :=
  h.foldl fun _ _ h => h.withRunner fun _ h => h.drainPhase

theorem State.Inv.arriveOn {t : TeamId} {b : BR} (h : s.Inv) : (s.arriveOn t b).Inv := by
  unfold State.arriveOn
  grind [State.inv_iff, State.Inv.setTeam, State.Inv.drainTeam]

theorem State.Inv.unstick {t : TeamId} (h : s.Inv) : (s.unstick t).Inv := by
  unfold State.unstick
  split
  · exact h
  · dsimp only
    split
    · exact h
    · exact h.foldl fun _ _ h => h.withRunner fun _ h => h.enterTrap

theorem State.Inv.compat {desig named : Nat} (h : s.Inv) : KeepsInv (s.compat desig named) := by
  unfold State.compat
  dsimp only
  repeat' split
  all_goals exact h

theorem State.Inv.deadlineEnd {w : WaitRec} {status tval : Word} (h : s.Inv) :
    KeepsInv (s.deadlineEnd w status tval) := by
  unfold State.deadlineEnd
  split
  · exact h
  · split <;> exact h

theorem State.Inv.waitStep {w : WaitRec} {poll : WaitRec → State → M (Bool × State)} (h : s.Inv)
    (hp : ∀ w t, t.Inv → KeepsInv (poll w t)) : KeepsInv (s.waitStep w poll) := by
  unfold State.waitStep
  refine KeepsInv.bind (hp w _ h) fun ended t ht => ?_
  exact ht

theorem State.Inv.enterWait {first : State → M (WaitRec × State)} {poll : WaitRec → State → M (Bool × State)}
    (h : s.Inv)
    (hf : KeepsInv (first s)) (hp : ∀ w t, t.Inv → KeepsInv (poll w t)) : KeepsInv (s.enterWait first poll) := by
  unfold State.enterWait
  refine h.afterVector (h.report ?_)
  dsimp only
  split
  · exact h.waitStep hp
  · exact hf.bind fun w t ht => ht.waitStep hp

theorem State.Inv.readWord {va : Word} (h : s.Inv) : KeepsInv (s.readWord va) := by
  unfold State.readWord
  grind [KeepsInv, KeepsInv.bind, State.Inv.check, State.Inv.loadFrom, State.Inv.stopTrap, State.Inv.consume,
    State.Inv.readUnder]

theorem State.Inv.pollWord {w : WaitRec} (h : s.Inv) : KeepsInv (pollWord w s) := by
  unfold Machine.pollWord
  grind [KeepsInv, KeepsInv.bind, State.Inv.readWord, State.Inv.fenced, State.Inv.setReg, State.Inv.advance,
    State.Inv.deadlineEnd]

theorem State.Inv.beforeArrival (h : s.Inv) : (s.beforeArrival).Inv := h.endProt.fenceAll

theorem State.Inv.pollBarrier {w : WaitRec} (h : s.Inv) : KeepsInv (pollBarrier w s) := by
  unfold Machine.pollBarrier
  grind [KeepsInv, State.Inv.acquireBoth, State.Inv.mapR, State.Inv.setReg, State.Inv.advance, State.Inv.deadlineEnd]

theorem KeepsInv.thenUnstick {m : M (Unit × State)} (h : KeepsInv m) : KeepsInv (thenUnstick m) := by
  unfold Machine.thenUnstick
  split
  · exact State.Inv.unstick h
  · exact h

theorem State.Inv.execWaitb {sd : SR} {b : BR} (h : s.Inv) : NextInv (execWaitb sd b s) :=
  KeepsInv.outcome (KeepsInv.thenUnstick (h.enterWait h fun _ _ h => h.pollBarrier))

theorem State.Inv.execSyncb {sd : SR} {b : BR} (h : s.Inv) : NextInv (execSyncb sd b s) := by
  refine KeepsInv.outcome (KeepsInv.thenUnstick (h.enterWait ?_ fun _ _ h => h.pollBarrier))
  exact State.Inv.ite h (State.Inv.arriveOn (State.Inv.beforeArrival h))

theorem State.Inv.bitmapKey {va : Word} (h : s.Inv) : KeepsInv (s.bitmapKey va) := by
  unfold State.bitmapKey
  grind [KeepsInv, State.Inv.stopTrap]

theorem State.Inv.bitmapWord {va : Word} {k : Nat} {bs : List Byte} (h : s.Inv) : KeepsInv (s.bitmapWord va k bs) := by
  unfold State.bitmapWord
  grind [KeepsInv, State.Inv.consume]

theorem State.Inv.pollBitmap {w : WaitRec} (h : s.Inv) : KeepsInv (pollBitmap w s) := by
  unfold Machine.pollBitmap
  grind [KeepsInv, KeepsInv.bind, State.Inv.bitmapKey, State.Inv.readUnder, State.Inv.bitmapWord, State.Inv.acquireBoth,
    State.Inv.setReg, State.Inv.advance, State.Inv.deadlineEnd]

theorem State.Inv.execWaitbm {sd sa sb : SR} (h : s.Inv) : NextInv (execWaitbm sd sa sb s) :=
  KeepsInv.outcome (h.enterWait (KeepsInv.bind h.bitmapKey fun _ _ h => h) fun _ _ h => h.pollBitmap)

theorem State.Inv.execBmtest {sd sa sb : SR} (h : s.Inv) : NextInv (execBmtest sd sa sb s) := by
  unfold Machine.execBmtest
  grind [KeepsInv, KeepsInv.bind, KeepsInv.outcome, State.Inv.bitmapKey, State.Inv.readRaw, State.Inv.bitmapWord,
    State.Inv.acquireBoth, State.Inv.setReg, State.Inv.advance]

theorem State.Inv.clearBits {key : Nat} {mask : Word} (h : s.Inv) : (s.clearBits key mask).Inv := h.performAt

theorem State.Inv.execBmclr {sa sb : SR} (h : s.Inv) : NextInv (execBmclr sa sb s) := by
  unfold Machine.execBmclr
  grind [KeepsInv, KeepsInv.bind, KeepsInv.outcome, State.Inv.bitmapKey, State.Inv.bitmapWord, State.Inv.clearBits,
    State.Inv.mapR, State.Inv.advance]

/-! ### Machine/Power -/

theorem State.Inv.sleepEngine {e : EngineId} (h : s.Inv) : (s.sleepEngine e).Inv := h

theorem State.Inv.giveEngine {e : EngineId} {r : RunnerId} {i : Fin 8} (h : s.Inv) : (s.giveEngine e r i).Inv :=
  h.setEngine.withRunner fun _ h => h

theorem State.Inv.restEngine {e : EngineId} (h : s.Inv) : (s.restEngine e).Inv :=
    State.Inv.ite h.sleepEngine h.setEngine

theorem State.Inv.retryUnits {die : Nat} (h : s.Inv) : (s.retryUnits die).Inv := by
  refine ⟨h.1, h.2.1.map (fun x => if x.stat == .stalled && x.asks == [.unit] && x.ident.core.die == die then
    { x with stat := .ready, asks := [] } else x) fun x => ?_, h.2.2⟩
  split <;> rfl

theorem State.Inv.takeOctant {e : EngineId} {x : LeaseReq} {c : CoreId} (h : s.Inv) : (s.takeOctant e x c).Inv := by
  unfold State.takeOctant
  grind [State.Inv.setDie, State.Inv.setCore, State.Inv.setEngine, State.Inv.retryUnits, State.Inv.restEngine]

theorem State.Inv.toHold {e : EngineId} (h : s.Inv) : (s.toHold e).Inv := by
  unfold State.toHold
  grind [State.inv_iff, State.Inv.sleepEngine, State.Inv.setDie, State.Inv.giveEngine, State.Inv.retryUnits,
    State.Inv.takeOctant, State.Inv.restEngine]

theorem State.Inv.giveBack {e : EngineId} (h : s.Inv) : (s.giveBack e).Inv := State.Inv.ite h.setEngine h.sleepEngine

theorem State.Inv.cutHolds {taken : List EngineId} {mw n : Nat} (h : s.Inv) : (s.cutHolds taken mw n).Inv := by
  induction n generalizing s with
  | zero => exact h
  | succ n ih =>
    unfold State.cutHolds
    dsimp only
    split
    · exact h
    · split
      · exact h
      · exact ih h

theorem State.Inv.roomFor {taken : List EngineId} {mw : Nat} (h : s.Inv) : (s.roomFor taken mw).Inv := h.cutHolds

theorem State.Inv.cutAll {die : Option Nat} (h : s.Inv) : (s.cutAll die).Inv :=
    State.Inv.foldl h fun _ _ h => h.sleepEngine

theorem State.Inv.addEnergy {part heat amount : Nat} (h : s.Inv) : (s.addEnergy part heat amount).Inv := by
  unfold State.addEnergy
  grind [State.Inv.setHeat]

theorem State.Inv.chargeRunner {r : RunnerId} (h : s.Inv) : (s.chargeRunner r).Inv := by
  unfold State.chargeRunner
  grind [State.Inv.setRunner, State.Inv.addEnergy]

theorem State.Inv.chargeAttach {c : CoreId} (h : s.Inv) : (s.chargeAttach c).Inv := by
  unfold State.chargeAttach
  grind [State.Inv.setCore, State.Inv.addEnergy]

theorem State.Inv.enqueueReq {die : Nat} {x : LeaseReq} (h : s.Inv) : (s.enqueueReq die x).Inv := h

theorem State.Inv.withdraw {die : Nat} {ht : Holder} (h : s.Inv) : (s.withdraw die ht).Inv := h.setDie.retryUnits

theorem State.Inv.setSlot {i : Fin 8} {l : Option Lease} (h : s.Inv) : (s.setSlot i l).Inv := h

theorem State.Inv.grantLease {k : Kind} {pri : Fin 8} {e : EngineId} {slot : Fin 8} {sd : SR} (h : s.Inv) :
    (s.grantLease k pri e slot sd).Inv := by
  unfold State.grantLease
  grind [State.Inv.setSlot, State.Inv.giveEngine, State.Inv.setReg, State.Inv.advance]

theorem State.Inv.askLease {k : Kind} {pri : Fin 8} {e : EngineId} {slot : Fin 8} (h : s.Inv) :
    (s.askLease k pri e slot).Inv := h

theorem State.Inv.released {e : EngineId} {l : Lease} (h : s.Inv) : (s.released e l).Inv := State.Inv.ite h.setEngine h

theorem State.Inv.endLease {slot : Fin 8} (h : s.Inv) : (s.endLease slot).Inv := by
  unfold State.endLease
  grind [State.inv_iff, State.Inv.chargeRunner, State.Inv.setSlot, State.Inv.toHold, State.Inv.released,
    State.Inv.withdraw, State.Inv.giveBack]

theorem State.Inv.endLeases (h : s.Inv) : (s.endLeases).Inv := State.Inv.foldl h fun _ _ h => h.endLease

/-! ### Machine/RegPoison -/

theorem State.Inv.consumeReg {α : Type} {vec : Bool} {n : Nat} (h : s.Inv) : KeepsInv (State.consumeReg (α :=
    α) s vec n) := by
  unfold State.consumeReg
  grind [KeepsInv, State.Inv.mapR, State.Inv.stopTrap]

theorem State.Inv.readScalars {i : Instr} (h : s.Inv) : KeepsInv (s.readScalars i) := by
  unfold State.readScalars
  grind [KeepsInv, State.Inv.consumeReg]

theorem State.Inv.poisonStop {i : Instr} {each : Bool} {k : Nat} {r : VR} {body : State → M (Unit × State)} (h : s.Inv)
    (hb : ∀ t, t.Inv → KeepsInv (body t)) : KeepsInv (s.poisonStop i each k r body) := by
  unfold State.poisonStop
  split
  · have hc := hb (s.cutAt (s.stopElem i k)) h
    grind [State.inv_iff, KeepsInv, State.Inv.consumeReg, State.uncut, State.setVstart, State.mapR]
  · exact State.Inv.consumeReg (s := s.setVstart k) h

theorem State.Inv.guarded {i : Instr} {body : State → M (Unit × State)} (h : s.Inv)
    (hb : ∀ t, t.Inv → KeepsInv (body t)) : KeepsInv (s.guarded i body) := by
  have hs := hb s h
  unfold State.guarded
  grind [State.inv_iff, KeepsInv, State.Inv.poisonStop, State.cleansed, State.mapR]

/-! ### Machine/VectorSide -/

theorem State.Inv.memberAt {va : Word} (h : s.Inv) : KeepsInv (s.memberAt va) := by
  have ha := fun a => h.answer (a := a)
  unfold State.memberAt
  grind [KeepsInv, State.Inv.answer]

theorem State.Inv.convoyLoop {n : Nat} {pc : Word} {units : List FU} (h : s.Inv) :
    KeepsInv (State.convoyLoop n pc units s) := by
  induction n generalizing s pc units with
  | zero =>
    refine KeepsInv.bind h.memberAt fun j t ht => ?_
    grind [KeepsInv, State.Inv.stopTrap]
  | succ n ih =>
    refine KeepsInv.bind h.memberAt fun j t ht => ?_
    grind [KeepsInv, State.Inv.stopTrap]

theorem State.Inv.convoyCheck {i : Instr} (h : s.Inv) : KeepsInv (s.convoyCheck i) := by
  unfold State.convoyCheck
  grind [KeepsInv, State.Inv.convoyLoop]

theorem State.Inv.enqueue {i : Instr} {a b : Word} (h : s.Inv) : (s.enqueue i a b).Inv := h

theorem State.Inv.freeRegElems {l : List (VR × Nat)} (h : s.Inv) : (s.freeRegElems l).Inv := h

theorem State.Inv.noteWrites {ds : List VR} (h : s.Inv) : (s.noteWrites ds).Inv := by
  unfold State.noteWrites
  grind [State.Inv.mapR, State.Inv.setCore, State.Inv.freeRegElems]

theorem KeepsInv.noted {i : Instr} {m : M (Unit × State)} (h : KeepsInv m) : KeepsInv (noted s i m) := by
  unfold Machine.noted
  split
  · exact State.Inv.noteWrites h
  · exact State.Inv.noteWrites h

theorem State.Inv.passVector {i : Instr} {a b : Word} {body : State → M (Unit × State)} (h : s.Inv)
    (hb : ∀ t, t.Inv → KeepsInv (body t)) : NextInv (passVector i a b body s) := by
  unfold Machine.passVector
  refine KeepsInv.outcome ?_
  split
  · refine KeepsInv.bind h.convoyCheck fun _ t ht => ?_
    have hn : KeepsInv (Machine.noted t i (t.guarded i body)) := (ht.guarded hb).noted
    grind [State.inv_iff, KeepsInv, State.enqueue, State.advance, State.setPc, State.mapR]
  · split <;> exact h

theorem State.Inv.tagStop {α : Type} {n : Names} {m : Mask} {idx len : Bool} (h : s.Inv) : KeepsInv (State.tagStop (α :=
    α) s n m idx len) := h

theorem State.Inv.tagChecks {n : Names} {m : Mask} {ok byVl : Bool} (h : s.Inv) : KeepsInv (s.tagChecks n m ok byVl) :=
    by
  unfold State.tagChecks
  grind [KeepsInv, State.Inv.tagStop]

theorem State.Inv.setBegun {b : Option Nat} (h : s.Inv) : (s.setBegun b).Inv := State.Inv.ite h h

theorem State.Inv.setVect {v : Vect} (h : s.Inv) : (s.setVect v).Inv := h

theorem State.Inv.spoil {es : List Nat} {p : VPlan} (h : s.Inv) : (s.spoil es p).2.Inv := by
  unfold State.spoil
  grind [State.inv_iff, State.Inv.setVect]

theorem State.Inv.laneCured {c : CoreId} (h : s.Inv) : (s.laneCured c).Inv := State.Inv.ite h h

theorem State.Inv.blameLane {lg lane : Nat} (h : s.Inv) : (s.blameLane lg lane).Inv := h

theorem State.Inv.mismatch {lg lane vstart : Nat} (h : s.Inv) : KeepsInv (s.mismatch lg lane vstart) := by
  unfold State.mismatch
  grind [KeepsInv, State.Inv.blameLane, State.Inv.emit, State.Inv.stopTrap, State.Inv.setVstart]

theorem State.Inv.pushVec {q : QR} {w : Word} (h : s.Inv) : (s.pushVec q w).Inv := h

theorem State.Inv.handOff {p : VPlan} (h : s.Inv) : (s.handOff p).Inv := by
  unfold State.handOff
  grind [State.Inv.setQueue, State.Inv.pushVec]

theorem State.Inv.runPlan {i : Instr} {p : VPlan} (h : s.Inv) : KeepsInv (s.runPlan i p) := by
  unfold State.runPlan
  grind [KeepsInv, State.Inv.stopTrap, State.Inv.setCore, State.Inv.setVect, State.Inv.raise, State.Inv.setVstart,
    State.Inv.setBegun, State.Inv.spoil, State.Inv.laneCured, State.Inv.handOff, State.Inv.mapR, State.Inv.mismatch]

/-! ### Machine/Valu -/

theorem State.Inv.doArith {i : Instr} {o : Arith} {m : Mask} {vd va : VR} {b : Option VB} {vc : Option VR} {w : Word}
    (h : s.Inv) : KeepsInv (doArith i o m vd va b vc w s) := by
  unfold Machine.doArith
  grind [KeepsInv, KeepsInv.bind, State.Inv.tagChecks, State.Inv.runPlan]

theorem State.Inv.arith {i : Instr} {o : Arith} {m : VMod} {vd va : VR} {b : VB} {vc : Option VR} (h : s.Inv) :
    NextInv (arith i o m vd va b vc s) := h.passVector fun _ h => h.doArith

theorem State.Inv.arith1 {i : Instr} {o : Arith} {m : VMod} {vd va : VR} (h : s.Inv) : NextInv (arith1 i o m vd va s) :=
    h.passVector fun _ h => h.doArith

theorem State.Inv.doLogic {i : Instr} {f : Int → Int → Int} {m : Mask} {vd va : VR} {b : Option VB} {w : Word}
    (h : s.Inv) : KeepsInv (doLogic i f m vd va b w s) := KeepsInv.bind h.tagChecks fun _ _ h => h.runPlan

theorem State.Inv.doShift {i : Instr} {f : (w : Nat) → Int → Nat → Int} {m : Mask} {vd va : VR} {b : VB} {w : Word}
    (h : s.Inv) : KeepsInv (doShift i f m vd va b w s) := KeepsInv.bind h.tagChecks fun _ _ h => h.runPlan

theorem State.Inv.doCvt {i : Instr} {m : Mask} {vd va : VR} {vb : Option VR} (h : s.Inv) :
    KeepsInv (doCvt i m vd va vb s) := by
  unfold Machine.doCvt
  grind [KeepsInv.bind, State.Inv.tagChecks, State.Inv.tagStop, State.Inv.runPlan]

theorem State.Inv.doMov {i : Instr} {m : Mask} {vd va : VR} (h : s.Inv) : KeepsInv (doMov i m vd va s) :=
    KeepsInv.bind h.tagChecks fun _ _ h => h.runPlan

theorem State.Inv.doBcast {i : Instr} {m : Mask} {vd va : VR} {idx : Nat} (h : s.Inv) :
    KeepsInv (doBcast i m vd va idx s) := by
  unfold Machine.doBcast
  grind [KeepsInv.bind, State.Inv.tagChecks, State.Inv.tagStop, State.Inv.runPlan]

theorem State.Inv.doBcastScalar {i : Instr} {m : Mask} {vd : VR} {w : Word} (h : s.Inv) :
    KeepsInv (doBcastScalar i m vd w s) := KeepsInv.bind h.tagChecks fun _ _ h => h.runPlan

theorem State.Inv.doSel {i : Instr} {m : Mask} {vd va : VR} {b : VB} {vc : VR} {w : Word} (h : s.Inv) :
    KeepsInv (doSel i m vd va b vc w s) := KeepsInv.bind h.tagChecks fun _ _ h => h.runPlan

theorem State.Inv.doTwosum {i : Instr} {m : Mask} {vd va : VR} {b : VB} {w : Word} (h : s.Inv) :
    KeepsInv (doTwosum i m vd va b w s) := KeepsInv.bind h.tagChecks fun _ _ h => h.runPlan

theorem State.Inv.doScalb {i : Instr} {m : Mask} {vd va : VR} {b : VB} {w : Word} (h : s.Inv) :
    KeepsInv (doScalb i m vd va b w s) := by
  unfold Machine.doScalb
  grind [KeepsInv, KeepsInv.bind, State.Inv.tagChecks, State.Inv.runPlan]

theorem State.Inv.doVqpush {i : Instr} {q : QR} {va : VR} {idx : Nat} (h : s.Inv) : KeepsInv (doVqpush i q va idx s) :=
    by
  unfold Machine.doVqpush
  grind [KeepsInv.bind, State.Inv.tagChecks, State.Inv.tagStop, State.Inv.runPlan]

theorem State.Inv.doVqpop {i : Instr} {m : Mask} {vd : VR} {q : QR} (h : s.Inv) : KeepsInv (doVqpop i m vd q s) := by
  unfold Machine.doVqpop
  grind [KeepsInv, KeepsInv.bind, State.Inv.tagChecks, State.Inv.runPlan]

theorem State.Inv.doCount {i : Instr} {f : List Nat → Word} {m : Mask} {q : QR} {va : VR} (h : s.Inv) :
    KeepsInv (doCount i f m q va s) := KeepsInv.bind h.tagChecks fun _ _ h => h.runPlan

theorem State.Inv.doCmp {i : Instr} {m : Mask} {vd va : VR} {b : VB} {cond : Nat} {w : Word} (h : s.Inv) :
    KeepsInv (doCmp i m vd va b cond w s) := by
  unfold Machine.doCmp
  grind [KeepsInv.bind, State.Inv.tagChecks, State.Inv.runPlan]

/-! ### Machine/Vred -/

theorem State.Inv.doRed {i : Instr} {o : RedOp} {m : Mask} {vd va : VR} (h : s.Inv) : KeepsInv (doRed i o m vd va s) :=
    KeepsInv.bind h.tagChecks fun _ _ h => h.runPlan

theorem State.Inv.doScan {i : Instr} {o : RedOp} {m : Mask} {vd va : VR} (h : s.Inv) :
    KeepsInv (doScan i o m vd va s) := KeepsInv.bind h.tagChecks fun _ _ h => h.runPlan

theorem State.Inv.doRedts {i : Instr} {m : Mask} {vd va vb : VR} (h : s.Inv) : KeepsInv (doRedts i m vd va vb s) :=
    KeepsInv.bind h.tagChecks fun _ _ h => h.runPlan

/-! ### Machine/Vperm -/

theorem State.Inv.doPerm {i : Instr} {p : PermShape} {x : State → Nat → Option Nat}
    {fix : State → VReg → VReg} {m : Mask} {w : Word} (h : s.Inv) : KeepsInv (doPerm i p x fix m w s) :=
  KeepsInv.bind h.tagChecks fun _ _ h => h.runPlan

theorem State.Inv.doSlideup {i : Instr} {m : Mask} {vd va : VR} {off : Nat} {ins : Option SR} {w : Word} (h : s.Inv) :
    KeepsInv (doSlideup i m vd va off ins w s) := h.doPerm

theorem State.Inv.doSlidedn {i : Instr} {m : Mask} {vd va : VR} {off : Nat} {ins : Option SR} {w : Word} (h : s.Inv) :
    KeepsInv (doSlidedn i m vd va off ins w s) := h.doPerm

theorem State.Inv.doVperm {i : Instr} {m : Mask} {vd va vc : VR} {ins : Option SR} {w : Word} (h : s.Inv) :
    KeepsInv (doVperm i m vd va vc ins w s) := h.doPerm

theorem State.Inv.doVrev {i : Instr} {m : Mask} {vd va : VR} (h : s.Inv) : KeepsInv (doVrev i m vd va s) := h.doPerm

theorem State.Inv.doVzip {i : Instr} {m : Mask} {vd va vb : VR} (h : s.Inv) : KeepsInv (doVzip i m vd va vb s) :=
    h.doPerm

theorem State.Inv.doVunzip {i : Instr} {odd : Nat} {m : Mask} {vd va vb : VR} (h : s.Inv) :
    KeepsInv (doVunzip i odd m vd va vb s) := h.doPerm

theorem State.Inv.doCompress {i : Instr} {m : Mask} {vd va : VR} (h : s.Inv) : KeepsInv (doCompress i m vd va s) :=
    KeepsInv.bind h.tagChecks fun _ _ h => h.runPlan

theorem State.Inv.doExpand {i : Instr} {m : Mask} {vd va : VR} (h : s.Inv) : KeepsInv (doExpand i m vd va s) :=
    KeepsInv.bind h.tagChecks fun _ _ h => h.runPlan

theorem State.Inv.doInsert {i : Instr} {vd : VR} {idx : Nat} {w : Word} (h : s.Inv) :
    KeepsInv (doInsert i vd idx w s) := by
  unfold Machine.doInsert
  grind [KeepsInv.bind, State.Inv.tagChecks, State.Inv.tagStop, State.Inv.runPlan]

/-! ### Machine/Vcfg -/

theorem State.Inv.configure {f : Vect → Vect} (h : s.Inv) : KeepsInv (s.configure f) := h

theorem State.Inv.doVcfgw {w : Word} {tags : Option (VR × VR × Byte)} (h : s.Inv) : KeepsInv (doVcfgw w tags s) := by
  unfold Machine.doVcfgw
  grind [State.Inv.configure, State.Inv.stopTrap]

theorem State.Inv.doVtag {vd va : VR} {t : Byte} (h : s.Inv) : KeepsInv (doVtag vd va t s) := h.configure

theorem State.Inv.doVgettag {i : Instr} {q : QR} {va : VR} (h : s.Inv) : KeepsInv (doVgettag i q va s) := h.runPlan

theorem State.Inv.doVidx {i : Instr} {m : Mask} {vd : VR} {start : Nat} {step : Int} (h : s.Inv) :
    KeepsInv (doVidx i m vd start step s) := KeepsInv.bind h.tagChecks fun _ _ h => h.runPlan

theorem State.Inv.doVsetvl {q : Option QR} {w : Word} {cap : Nat} (h : s.Inv) : KeepsInv (doVsetvl q w cap s) := by
  unfold Machine.doVsetvl
  grind [KeepsInv, State.Inv.configure, State.Inv.pushVec]

theorem State.Inv.doVscget {i : Instr} {vd va : VR} (h : s.Inv) : KeepsInv (doVscget i vd va s) :=
    KeepsInv.bind h.tagChecks fun _ _ h => h.runPlan

theorem State.Inv.doVscset {i : Instr} {vd va : VR} (h : s.Inv) : KeepsInv (doVscset i vd va s) :=
    KeepsInv.bind h.tagChecks fun _ _ h => h.runPlan

theorem State.Inv.doVrng {i : Instr} {m : Mask} {vd : VR} (h : s.Inv) : KeepsInv (doVrng i m vd s) := by
  unfold Machine.doVrng
  grind [KeepsInv.bind, State.Inv.tagChecks, State.Inv.stopTrap, State.Inv.runPlan]

theorem State.Inv.doRngseed {i : Instr} {w : Word} (h : s.Inv) : KeepsInv (doRngseed i w s) := h.runPlan

/-! ### Machine/Vmem -/

theorem State.Inv.heatPage {va : Word} {form : VForm} (h : s.Inv) : (s.heatPage va form).Inv := by
  unfold State.heatPage
  grind [State.Inv.setCore]

theorem State.Inv.nextPage {form : VForm} (h : s.Inv) : (s.nextPage form).Inv := by
  unfold State.nextPage
  grind [State.Inv.newPages]

theorem State.Inv.loadBytes {v : Via} {a : Word} {n : Nat} (h : s.Inv) : KeepsInv (s.loadBytes v a n) := by
  induction n generalizing s a with
  | zero => exact h
  | succ n ih => exact KeepsInv.bind h.load fun _ _ h => KeepsInv.bind (ih h) fun _ _ h => h

theorem State.Inv.askLists {far : List (Nat × Nat × Word)} {acc : Nat → Word → OutAccess} (h : s.Inv) :
    KeepsInv (s.askLists far acc) := by
  unfold State.askLists
  grind [KeepsInv]

theorem State.Inv.nearStop {k : AccKind} {n : Nat} {addr : Nat → Word} {l : List Nat} (h : s.Inv) :
    (s.nearStop k n addr l).1.Inv := by
  induction l generalizing s with
  | nil => exact h
  | cons i t ih =>
    have hc : KeepsInv (s.check (addr i) n n k) := h.check
    unfold State.nearStop
    grind [KeepsInv, State.Inv.newPages]

theorem State.Inv.listsFor {form : VForm} {k : AccKind} {n : Nat} {addr : Nat → Word} {els : List Nat}
    {acc : Nat → Word → OutAccess} (h : s.Inv) : KeepsInv (s.listsFor form k n addr els acc) := by
  unfold State.listsFor
  grind [KeepsInv, State.Inv.askLists, State.Inv.nearStop]

theorem State.Inv.loadGot {v : Via} {got : Got} {a : Word} {n : Nat} (h : s.Inv) : KeepsInv (s.loadGot v got a n) := by
  unfold State.loadGot
  grind [KeepsInv, KeepsInv.bind, State.Inv.replyBytes, State.Inv.load]

theorem State.Inv.loadElem {v : Via} {got : Got} {vd : VR} {base : Word} {form : VForm} {i : Nat} (h : s.Inv) :
    KeepsInv (s.loadElem v got vd base form i) := by
  unfold State.loadElem
  dsimp only
  split
  · exact KeepsInv.bind h.loadGot fun _ _ h => h.heatPage.nextPage
  · exact KeepsInv.bind h.loadBytes fun _ _ h => h.heatPage.nextPage

theorem State.Inv.loadEntry {v : Via} {vd : VR} {array : Word} {k : Nat} (h : s.Inv) :
    KeepsInv (s.loadEntry v vd array k) := KeepsInv.bind h.load fun _ _ h => h.setVreg

theorem State.Inv.storeEntry {o : Out} {vd : VR} {array : Word} {k : Nat} (h : s.Inv) :
    KeepsInv (s.storeEntry o vd array k) := KeepsInv.bind h.checkStore fun _ _ h => h.store

theorem KeepsInv.stopAt {i : Nat} {m : M (Unit × State)} (h : KeepsInv m) : KeepsInv (stopAt i m) := by
  unfold Machine.stopAt
  split <;> exact h

theorem State.Inv.eachElem {entry : Option (Nat → State → M (Unit × State))}
    {elem : Nat → State → M (Unit × State)} (h : s.Inv) (he : ∀ f ∈ entry, ∀ k t, t.Inv → KeepsInv (f k t))
    (hf : ∀ i t, t.Inv → KeepsInv (elem i t)) {l : List Nat} {blk : Option Nat} :
    KeepsInv (eachElem entry elem l blk s) := by
  induction l generalizing s blk with
  | nil => exact h
  | cons i l ih =>
    have tail (t : State) (ht : t.Inv) : KeepsInv (do
        let (_, u) ← Machine.stopAt i (elem i t)
        Machine.eachElem entry elem l (some (i / 32)) u.spent) :=
      KeepsInv.bind (hf i t ht).stopAt fun _ u hu => ih (s := u.spent) hu
    unfold Machine.eachElem
    dsimp only
    split
    · rename_i f
      split
      · exact tail s h
      · exact KeepsInv.bind (he f rfl _ s h).stopAt fun _ t ht => tail t ht
    · exact tail s h

theorem KeepsInv.keepBegun {b : Nat} {m : M (Unit × State)} (h : KeepsInv m) : KeepsInv (keepBegun b m) := by
  unfold Machine.keepBegun
  split
  · exact KeepsInv.ok (State.Inv.setBegun h)
  · exact KeepsInv.error (State.Inv.setBegun h)
  · exact KeepsInv.error (State.Inv.setBegun h)
  · exact h

theorem KeepsInv.pauseOr {p : Option Nat} {m : M (Unit × State)} (h : KeepsInv m) : KeepsInv (pauseOr p m) := by
  unfold Machine.pauseOr
  split <;> exact h

theorem State.Inv.acquireVec {mm : MMod} (h : s.Inv) : (s.acquireVec mm).Inv := State.Inv.ite h.acquire h

theorem State.Inv.doVload {mm : MMod} {vd : VR} {base : Word} {form : VForm} {sb : SR} {w : Word} (h : s.Inv) :
    KeepsInv (doVload mm vd base form sb w s) := by
  refine KeepsInv.bind h.tagChecks fun _ _ h => KeepsInv.keepBegun (KeepsInv.bind h.listsFor fun _ _ h => ?_)
  refine KeepsInv.bind (KeepsInv.pauseOr (h.eachElem ?_ fun _ _ h => h.loadElem))
    fun _ _ h => KeepsInv.ok (State.Inv.acquireVec h)
  intro f hf k t ht
  obtain ⟨_, _, rfl⟩ := Option.map_eq_some_iff.mp hf
  exact ht.loadEntry

theorem State.Inv.ffElems {elem : Nat → State → M (Unit × State)} (h : s.Inv)
    (hf : ∀ i t, t.Inv → KeepsInv (elem i t)) {l : List Nat} {n : Option Nat} {t : State}
    (he : ffElems elem l s = .ok (n, t)) : t.Inv := by
  induction l generalizing s with
  | nil => grind [Machine.ffElems]
  | cons i l ih =>
    have hi := hf i s h
    unfold Machine.ffElems at he
    grind [KeepsInv]

theorem State.Inv.doVldff {mm : MMod} {vd : VR} {base : Word} (h : s.Inv) : KeepsInv (doVldff mm vd base s) := by
  refine KeepsInv.bind h.tagChecks fun _ s h => KeepsInv.keepBegun ?_
  dsimp only
  split
  · exact KeepsInv.ok (State.Inv.acquireVec h)
  · refine KeepsInv.bind (State.Inv.loadElem h).stopAt fun _ t ht => ?_
    dsimp only
    split
    · exact h
    · rename_i e
      have hu := ht.ffElems (fun _ _ h => h.loadElem) e
      exact KeepsInv.ok (State.Inv.acquireVec hu)

theorem State.Inv.storeKey {got : Got} {a : Word} {n : Nat} (h : s.Inv) : KeepsInv (s.storeKey got a n) := by
  unfold State.storeKey
  grind [KeepsInv, KeepsInv.bind, State.Inv.checkStore, State.Inv.replyBytes]

theorem State.Inv.storeAt {o : Out} {got : Got} {vd : VR} {addr : Nat → Word} {els : List Nat} {n i k : Nat}
    (h : s.Inv) : (s.storeAt o got vd addr els n i k).Inv := State.Inv.ite h.touchTiles h.store

theorem State.Inv.storeElem {o : Out} {got : Got} {vd : VR} {base : Word} {form : VForm} {els : List Nat} {n i : Nat}
    (h : s.Inv) : KeepsInv (s.storeElem o got vd base form els n i) := by
  unfold State.storeElem
  grind [KeepsInv, KeepsInv.bind, State.Inv.storeKey, State.Inv.storeAt, State.Inv.heatPage, State.Inv.nextPage]

theorem State.Inv.checkBytes {base : Word} {l : List (Nat × Nat)} (h : s.Inv) : (checkBytes base l s).2.2.Inv := by
  induction l generalizing s with
  | nil => exact h
  | cons x l ih =>
    have hc : KeepsInv (s.checkStore (base + BitVec.ofNat 64 x.2) 1 1) := h.checkStore
    unfold Machine.checkBytes
    grind [KeepsInv]

theorem State.Inv.storeGroup {o : Out} {vd : VR} {base : Word} {act : List Nat} (h : s.Inv) :
    KeepsInv (s.storeGroup o vd base act) := by
  have hs {keys : List (Nat × Nat)} {good : List Nat} {g : Nat × Nat → State → StoreAct} {f : Fmt} (t : State)
      (ht : t.Inv) :
      ((good.foldl (fun (s : State) i => s.heatPage (s.elemAddr base f .unit i) .unit)
        (keys.foldl (fun (s : State) x => if (byteElems f good x.1).isEmpty then s else s.store (g x s)) t))).Inv := by
    refine State.Inv.foldl (ht.foldl fun s x h => ?_) fun s i h => h.heatPage
    split
    · exact h
    · exact h.store
  have hc : (Machine.checkBytes base (storeBytes (s.fmtOf vd) act) s).2.2.Inv := h.checkBytes
  unfold State.storeGroup
  dsimp only
  generalize Machine.checkBytes base (storeBytes (s.fmtOf vd) act) s = x at hc ⊢
  obtain ⟨keys, stop | ⟨i, e⟩, t⟩ := x
  · exact KeepsInv.ok (hs t hc)
  · exact KeepsInv.error (State.Inv.ite (hs t hc) (hs t hc))

theorem State.Inv.eachGroup {entry : Option (Nat → State → M (Unit × State))}
    {group : List Nat → State → M (Unit × State)} {act : List Nat} (h : s.Inv) (he : ∀ f ∈ entry, ∀ k t,
      t.Inv → KeepsInv (f k t))
    (hf : ∀ l t, t.Inv → KeepsInv (group l t)) {l : List Nat} {blk : Option Nat} :
    KeepsInv (eachGroup entry group act l blk s) := by
  induction l generalizing s with
  | nil => exact h
  | cons g l ih =>
    have tail (t : State) (ht : t.Inv) : KeepsInv (do
        let (_, u) ← group (act.filter fun i => i / 32 == g) t
        Machine.eachGroup entry group act l blk u) :=
      KeepsInv.bind (hf _ t ht) fun _ u hu => ih hu
    unfold Machine.eachGroup
    dsimp only
    split
    · rename_i f
      split
      · exact tail s h
      · exact KeepsInv.bind (he f rfl _ s h).stopAt fun _ t ht => tail t ht
    · exact tail s h

theorem State.Inv.releaseVec {o : Order} (h : s.Inv) : (s.releaseVec o).Inv := State.Inv.ite h.drainShare h

theorem State.Inv.doVstore {mm : MMod} {vd : VR} {base : Word} {form : VForm} {sb : SR} {w : Word} (h : s.Inv) :
    KeepsInv (doVstore mm vd base form sb w s) := by
  refine KeepsInv.bind h.tagChecks fun _ s h => KeepsInv.keepBegun (KeepsInv.pauseOr ?_)
  have he : ∀ f ∈ (s.scaleArray vd sb w).map fun array k (t : State) =>
      t.storeEntry (s.outOf mm (s.footprint (s.fmtOf vd) form)) vd array k, ∀ k t, t.Inv → KeepsInv (f k t) := by
    intro f hf k t ht
    obtain ⟨_, _, rfl⟩ := Option.map_eq_some_iff.mp hf
    exact ht.storeEntry
  dsimp only
  split
  · exact KeepsInv.bind h.fitStrip.listsFor fun _ _ h => h.releaseVec.eachElem he fun _ _ h => h.storeElem
  · exact h.fitStrip.releaseVec.eachGroup he fun _ _ h => h.storeGroup

theorem State.Inv.checkElems {got : Nat → Got} {addr : Nat → Word} {form : VForm} {n : Nat} {l : List Nat} (h : s.Inv) :
    (checkElems got addr form n l s).2.2.Inv := by
  induction l generalizing s with
  | nil => exact h
  | cons i l ih =>
    have hc : KeepsInv (s.storeKey (got i) (addr i) n) := h.storeKey
    unfold Machine.checkElems
    grind [KeepsInv, State.Inv.heatPage, State.Inv.nextPage]

theorem State.Inv.doVstxu {mm : MMod} {vd vi : VR} {base : Word} (h : s.Inv) : KeepsInv (doVstxu mm vd vi base s) := by
  unfold Machine.doVstxu
  split
  · exact h.doVstore
  · refine KeepsInv.bind h.tagChecks fun _ s h => KeepsInv.bind h.fitStrip.listsFor fun got t ht => ?_
    have hc : (Machine.checkElems got (s.elemAddr base (s.fmtOf vd) (.indexed vi)) (.indexed vi)
        ((s.fmtOf vd).width / 8) (s.activeFrom mm.mask s.vstart) (t.releaseVec mm.ord)).2.2.Inv := ht.releaseVec.checkElems
    dsimp only
    generalize Machine.checkElems got _ _ _ _ (t.releaseVec mm.ord) = x at hc ⊢
    obtain ⟨ks, stop | ⟨i, e⟩, u⟩ := x
    · refine KeepsInv.ok (?_ : State.Inv (State.setVstart _ _))
      refine State.Inv.foldl ?_ fun _ _ h => h.storeAt
      split <;> exact hc
    · refine KeepsInv.error (State.Inv.ite ?_ ?_)
      all_goals
        refine State.Inv.foldl ?_ fun _ _ h => h.storeAt
        split <;> exact hc

theorem State.Inv.vamoElem {op : AmoOp} {mm : MMod} {alloc : Bool} {got : Got} {vd vi : VR} {base : Word} {i : Nat}
    (h : s.Inv) : KeepsInv (s.vamoElem op mm alloc got vd vi base i) := by
  unfold State.vamoElem
  grind [KeepsInv, KeepsInv.bind, State.Inv.replyBytes, State.Inv.atomic, State.Inv.heatPage, State.Inv.newPages]

theorem State.Inv.doVamo {op : AmoOp} {mm : MMod} {vd vi : VR} {base : Word} (h : s.Inv) :
    KeepsInv (doVamo op mm vd vi base s) := by
  refine KeepsInv.bind h.tagChecks fun _ s h => KeepsInv.bind h.endProt.drainShare.listsFor fun _ _ h => ?_
  refine KeepsInv.bind (KeepsInv.pauseOr (h.eachElem (by simp) fun _ _ h => h.vamoElem)) fun _ _ h => h.acquireVec

/-! ### Machine/Unit -/

theorem State.Inv.leaveUnit {r : RunnerId} {c : CoreId} (h : s.Inv) : (s.leaveUnit r c).Inv := by
  unfold State.leaveUnit
  grind [State.inv_iff, State.Inv.foldl, State.Inv.setCluster, State.Inv.setCore, State.Inv.withdraw, State.Inv.toHold,
    State.Inv.giveBack, State.Inv.retryUnits]

theorem State.Inv.landOp {o : TileOp} {real : Bool} (h : s.Inv) : (s.landOp o real).Inv := by
  unfold State.landOp
  grind [State.inv_iff, State.Inv.withRunner, State.Inv.mapR, State.Inv.reachFor, State.Inv.setVect]

theorem State.Inv.landOps {c : CoreId} {which : TileOp → Bool} {real : TileOp → Bool} (h : s.Inv) :
    (s.landOps c which real).Inv := by
  unfold State.landOps
  grind [State.inv_iff, State.Inv.foldl, State.Inv.setCore, State.Inv.landOp]

theorem State.Inv.endAttach {c : CoreId} {loss : Option TileLoss} {next : State → EngineId → State} (h : s.Inv)
    (hn : ∀ t e, t.Inv → (next t e).Inv) : (s.endAttach c loss next).Inv := by
  unfold State.endAttach
  dsimp only
  split
  · exact h.chargeAttach
  · exact State.Inv.retryUnits (State.Inv.foldl (State.Inv.setCore h.chargeAttach) fun s k h => hn s _ h)

theorem State.Inv.loseShare {c : CoreId} {loss : TileLoss} {next : State → EngineId → State} (h : s.Inv)
    (hn : ∀ t e, t.Inv → (next t e).Inv) : (s.loseShare c loss next).Inv := h.landOps.endAttach hn

theorem State.Inv.unsaved {c : CoreId} (h : s.Inv) : (s.unsaved c).Inv := h.setCore.retryUnits

theorem State.Inv.finishSave {c : CoreId} (h : s.Inv) : (s.finishSave c).Inv := by
  unfold State.finishSave
  grind [State.inv_iff, State.Inv.agentWrite, State.Inv.setCore, State.Inv.retryUnits, State.Inv.send,
    State.Inv.unsaved]

theorem State.Inv.finishSaves (h : s.Inv) : (s.finishSaves).Inv := by
  unfold State.finishSaves
  grind [State.Inv.foldl, State.Inv.finishSave]

theorem State.Inv.evictOctant {a : Attach} {c : CoreId} {e : EngineId} (h : s.Inv) : (Attach.evictOctant a c s e).Inv :=
    h

theorem State.Inv.evictAttach {c : CoreId} {orderly : Bool} (h : s.Inv) : (s.evictAttach c orderly).Inv := by
  have hl {t : State} (ht : t.Inv) {a : Attach} {loss : TileLoss} : (t.loseShare c loss (a.evictOctant c)).Inv :=
    ht.loseShare fun _ _ h => h.evictOctant
  unfold State.evictAttach
  split
  · exact h
  · dsimp only
    split
    · exact hl h.agentWrite
    · exact State.Inv.send (State.Inv.setCore (hl h))
    · exact h.loseShare fun _ _ h => h.sleepEngine

/-! ### Machine/Evict -/

theorem State.Inv.markLost {r : RunnerId} {slot : Fin 8} {st : LeaseSt} (h : s.Inv) : (s.markLost r slot st).Inv := by
  unfold State.markLost
  grind [State.Inv.chargeRunner, State.Inv.setRunner]

theorem State.Inv.evictEngine {l : Lease} {r : RunnerId} {slot : Fin 8} {e : EngineId} (h : s.Inv) :
    (Lease.evictEngine l r slot s e).Inv := h

theorem State.Inv.evictOrderly {x : Holder} {counted : Bool} {handTo : Option Holder} (h : s.Inv) :
    (s.evictOrderly x counted handTo).Inv := by
  unfold State.evictOrderly
  refine State.Inv.foldl ?_ fun t e ht => ?_
  · split
    · split
      · exact State.Inv.foldl h.markLost fun _ _ h => h.evictEngine
      · exact h
    · exact h.evictAttach
  · split
    · exact ht.setEngine
    · exact ht

theorem State.Inv.evictNow {ht : Holder} (h : s.Inv) : (s.evictNow ht).Inv := by
  unfold State.evictNow
  grind [State.inv_iff, State.Inv.foldl, State.Inv.sleepEngine, State.Inv.markLost, State.Inv.evictAttach]

theorem State.Inv.stopEvicting {ht : Holder} (h : s.Inv) : (s.stopEvicting ht).Inv := by
  unfold State.stopEvicting
  grind [State.inv_iff, State.Inv.foldl, State.Inv.sleepEngine, State.Inv.setRunner, State.Inv.unsaved]

theorem State.Inv.emergency {ht : Holding} (h : s.Inv) : (s.emergency ht).Inv := State.Inv.ite h.stopEvicting h.evictNow

theorem State.Inv.justReleased {part : Nat} (h : s.Inv) : (s.justReleased part).2.Inv := by
  unfold State.justReleased
  grind [State.Inv.freeBool]

theorem State.Inv.evictDecided {x : Holding} {handTo : Option Holder} (h : s.Inv) : (s.evictDecided x handTo).Inv := by
  unfold State.evictDecided
  split
  · exact h.sleepEngine
  · exact h.evictOrderly

theorem State.Inv.makeRoom {pri mw : Nat} {kind : EngineKind} {dest : Holder} (h : s.Inv) :
    (s.makeRoom pri mw kind dest).Inv := by
  unfold State.makeRoom
  grind [State.inv_iff, State.Inv.foldl, State.Inv.justReleased, State.Inv.evictDecided]

theorem State.Inv.reallocate {part : Nat} (h : s.Inv) : (s.reallocate part).Inv :=
    State.Inv.foldl h.justReleased fun _ _ h => h.evictDecided

theorem State.Inv.evictOver {part : Nat} (h : s.Inv) : (s.evictOver part).Inv :=
    State.Inv.foldl h fun _ _ h => h.emergency

theorem State.Inv.keepBudgets (h : s.Inv) : (s.keepBudgets).Inv := by
  unfold State.keepBudgets
  grind [State.Inv.foldl, State.Inv.evictOver, State.Inv.reallocate]

/-! ### Machine/Lease -/

theorem State.Inv.answerWith {sd : SR} {w : Word} (h : s.Inv) : (s.answerWith sd w).Inv := h

theorem State.Inv.wakeLease {k : Kind} {pri : Fin 8} {e : EngineId} {slot : Fin 8} (h : s.Inv) :
    (s.wakeLease k pri e slot).Inv := h.roomFor.askLease

theorem State.Inv.holdLease {k : Kind} {pri : Fin 8} {e : EngineId} {slot : Fin 8} {sd : SR} (h : s.Inv) :
    (s.holdLease k pri e slot sd).Inv := h.roomFor.grantLease

theorem State.Inv.doLease {sd : SR} {k : Kind} {pri : Fin 8} (h : s.Inv) : KeepsInv (doLease sd k pri s) := by
  unfold Machine.doLease
  grind [KeepsInv, State.Inv.answerWith, State.Inv.holdLease, State.Inv.wakeLease]

theorem State.Inv.leaseRoom {k : Kind} {pri : Fin 8} (h : s.Inv) : (s.leaseRoom k pri).Inv := h.makeRoom

theorem State.Inv.pollLease {k : Kind} {pri : Fin 8} {w : WaitRec} (h : s.Inv) : KeepsInv (pollLease k pri w s) := by
  unfold Machine.pollLease
  grind [KeepsInv, State.Inv.deadlineEnd, State.Inv.completed, State.Inv.answerWith, State.Inv.leaseRoom,
    State.Inv.holdLease, State.Inv.wakeLease]

theorem State.Inv.execRelease {sa : SR} (h : s.Inv) : NextInv (execRelease sa s) := by
  unfold Machine.execRelease
  grind [KeepsInv, KeepsInv.outcome, State.Inv.afterVector, State.Inv.endProt, State.Inv.endLease, State.Inv.advance,
    State.Inv.stopTrap]

/-! ### Machine/Tile -/

theorem State.Inv.setAttach {a : Attach} (h : s.Inv) : (s.setAttach a).Inv := h

theorem State.Inv.setLoss {l : Option TileLoss} (h : s.Inv) : (s.setLoss l).Inv := h

theorem State.Inv.freeObjects {os : List Nat} (h : s.Inv) : (s.freeObjects os).Inv := by
  unfold State.freeObjects
  grind [State.inv_iff, State.Inv.foldl, State.Inv.setAttach]

theorem State.Inv.tileReady (h : s.Inv) : KeepsInv s.tileReady := by
  have hf : ((s.setLoss none).freeObjects [0, 1, 2, 3]).Inv := State.Inv.freeObjects (s := s.setLoss none) h
  have hgo : KeepsInv (match s.myCore.att with
      | some a => .ok ({ a with named := s.time }, s.setAttach { a with named := s.time })
      | none => Machine.stopTrap .nogrant 0 s) := by split <;> exact h
  unfold State.tileReady
  dsimp only
  split
  · exact KeepsInv.ite h (KeepsInv.ite h h)
  · exact KeepsInv.ite h h
  · exact KeepsInv.ite hgo (KeepsInv.ite h (KeepsInv.ite h hf))
  · exact KeepsInv.ite hgo (KeepsInv.ite h (KeepsInv.ite h hf))
  · exact hgo

theorem State.Inv.passTile {i : Instr} {waits : Instr → Bool} {checks : Attach → State → M (Unit × State)}
    {body : State → State} (h : s.Inv) (hc : ∀ a t, t.Inv → KeepsInv (checks a t)) (hb : ∀ t, t.Inv → (body t).Inv) :
    NextInv (passTile i waits checks body s) := by
  refine KeepsInv.outcome ?_
  split
  · exact h
  · refine KeepsInv.bind h.tileReady fun a t ht => KeepsInv.bind (hc a t ht) fun _ u hu => ?_
    dsimp only
    split
    · exact hb u hu
    · split <;> exact hu

theorem State.Inv.tileTag {α : Type} {vi : Option VR} (h : s.Inv) : KeepsInv (tileTag (α := α) vi s) := h

theorem State.Inv.spreadObjects {os : List Nat} (h : s.Inv) : (s.spreadObjects os).Inv := by
  unfold State.spreadObjects
  grind [State.inv_iff, State.Inv.foldl, State.Inv.setAttach]

theorem State.Inv.tileDo {act : TileAct} {f : Attach → State → State} (h : s.Inv)
    (hf : ∀ a t, t.Inv → (f a t).Inv) : (s.tileDo act f).Inv := by
  unfold State.tileDo
  split
  · exact h
  · dsimp only
    split
    · exact h
    · refine State.Inv.freeObjects ?_
      split
      · exact hf _ _ (State.Inv.freeObjects h.spreadObjects)
      · exact State.Inv.freeObjects h.spreadObjects

theorem State.Inv.tileKey {va : Word} {n al : Nat} {k : AccKind} (h : s.Inv) : KeepsInv (s.tileKey va n al k) := by
  unfold State.tileKey
  grind [KeepsInv, KeepsInv.bind, State.Inv.check, State.Inv.stopTrap]

theorem State.Inv.rowKeys {k : AccKind} {n al es : Nat} {soff : Word} {l : List Word} (h : s.Inv) :
    KeepsInv (s.rowKeys k n al es soff l) := by
  induction l generalizing s with
  | nil => exact h
  | cons va t ih =>
    refine KeepsInv.bind h.tileKey fun key s h => ?_
    have tail (e : Option Nat) (u : State) (hu : u.Inv) : KeepsInv (do
        let (l, u) ← u.rowKeys k n al es soff t
        .ok ({ va := va, key := key, entry := e } :: l, u)) := KeepsInv.bind (ih hu) fun _ _ h => KeepsInv.ok h
    dsimp only
    split
    · exact tail none s h
    · exact KeepsInv.bind h.tileKey fun e u hu => tail (some e) u hu

theorem State.Inv.layTiles {k : Nat} {bs : List Byte} (h : s.Inv) : (s.layTiles k bs).2.Inv := h

theorem State.Inv.tileBytes {k n : Nat} (h : s.Inv) : (s.tileBytes k n).2.Inv := h.exposeOthers.layTiles

theorem State.Inv.restoreBytes {o : Obs} {k n : Nat} (h : s.Inv) : (s.restoreBytes o k n).2.Inv := h.seen.layTiles

theorem State.Inv.execTshape {sa sb : SR} {k : Byte} {af bf zf : BitVec 5} (h : s.Inv) :
    NextInv (execTshape sa sb k af bf zf s) := by
  unfold Machine.execTshape
  grind [KeepsInv, KeepsInv.outcome, State.Inv.afterVector, State.Inv.mapR, State.Inv.advance]

theorem State.Inv.latchPlaces {a : Attach} {l : Fin 4} {sa sb : SR} {vi : Option VR} {soff : BitVec 24} (h : s.Inv) :
    KeepsInv (s.latchPlaces a l sa sb vi soff) := h.rowKeys

theorem State.Inv.latchChecks {l : Fin 4} {sa sb : SR} {vi : Option VR} {soff : BitVec 24} {a : Attach} (h : s.Inv) :
    KeepsInv (latchChecks l sa sb vi soff a s) := by
  unfold Machine.latchChecks
  grind [KeepsInv, KeepsInv.bind, State.Inv.tileTag, State.Inv.latchPlaces]

theorem State.Inv.readRow {code gk : Nat} {l : Fin 4} {es : Nat} {row : Nat} {p : RowAt} (h : s.Inv) :
    (s.readRow code gk l es row p).2.Inv := by
  unfold State.readRow
  grind [State.Inv.tileBytes]

theorem State.Inv.readRows {code gk : Nat} {l : Fin 4} {es r : Nat} {ps : List RowAt} (h : s.Inv) :
    (s.readRows code gk l es r ps).2.Inv := by
  induction ps generalizing s r with
  | nil => exact h
  | cons p t ih => exact ih h.readRow

theorem State.Inv.latchesDone (h : s.Inv) : (s.latchesDone).Inv := h

theorem State.Inv.doLatch {l : Fin 4} {sa sb : SR} {vi : Option VR} {soff : BitVec 24} (h : s.Inv) :
    (doLatch l sa sb vi soff s).Inv := by
  refine h.tileDo fun a t ht => ?_
  dsimp only
  split
  · exact ht
  · exact ht.readRows

theorem State.Inv.execTldax {l : Latch} {sa sb : SR} {vi : VR} {soff : BitVec 24} (h : s.Inv) :
    NextInv (execTldax l sa sb vi soff s) := by
  refine h.passTile (fun a t ht => KeepsInv.bind ht.latchChecks fun _ u hu => ?_) fun _ h => h.doLatch
  dsimp only
  split
  · exact hu.consumeReg
  · exact hu

theorem State.Inv.tldvChecks {l : Fin 4} {vi : VR} {a : Attach} (h : s.Inv) : KeepsInv (tldvChecks l vi a s) := by
  unfold Machine.tldvChecks
  grind [KeepsInv, State.Inv.tileTag]

theorem State.Inv.doTldv {l : Latch} {vi : VR} (h : s.Inv) : (doTldv l vi s).Inv := by
  refine h.tileDo fun a t ht => ?_
  dsimp only
  split <;> exact ht

theorem State.Inv.keepSources {ds : List VR} (h : s.Inv) : (s.keepSources ds).Inv := by
  unfold State.keepSources
  grind [State.Inv.setAttach]

theorem State.Inv.doMfence (h : s.Inv) : (doMfence s).Inv := by
  unfold Machine.doMfence
  grind [State.Inv.setAttach, State.Inv.latchesDone, State.Inv.mapR]

theorem State.Inv.execMfence (h : s.Inv) : NextInv (execMfence s) := by
  unfold Machine.execMfence
  grind [KeepsInv, KeepsInv.outcome, State.Inv.doMfence, State.Inv.advance, State.Inv.enqueue]

theorem State.Inv.servedAgain {half : Nat} {live : Bool} {c : CoreId} {p : PendAttach} (h : s.Inv) :
    (s.servedAgain half live c p).Inv := by
  unfold State.servedAgain
  grind [State.inv_iff, State.Inv.foldl, State.Inv.setCore, State.Inv.withdraw, State.Inv.toHold, State.Inv.giveBack,
    State.Inv.withRunner, State.Inv.mapR]

theorem State.Inv.mapOut {die cluster half col : Nat} (h : s.Inv) : (s.mapOut die cluster half col).Inv := by
  refine State.Inv.retryUnits (State.Inv.foldl (s := List.foldl _ _ _) (State.Inv.foldl ?_ ?_) ?_)
  · exact h
  · exact fun _ _ h => h.loseShare fun _ _ h => h.toHold
  · intro t c ht
    dsimp only
    split
    · split
      · exact ht.servedAgain
      · exact ht
    · exact ht

theorem State.Inv.residue {a : Attach} {half col : Nat} (h : s.Inv) : (s.residue a half col).Inv := by
  unfold State.residue
  grind [State.Inv.setLoss, State.Inv.emit, State.Inv.setCluster, State.Inv.mapOut]

theorem State.Inv.doTmma {z : ZR} {la lb : Fin 4} (h : s.Inv) : (doTmma z la lb s).Inv := by
  refine h.tileDo fun a t ht => ?_
  dsimp only
  split
  · exact ht.residue
  · exact ht

theorem State.Inv.doTzero {z : ZR} (h : s.Inv) : (doTzero z s).Inv := by
  refine h.tileDo fun a t ht => ?_
  exact ht

theorem State.Inv.tileStore {head unit : Nat} {cells : List Host.Cell} {elems : List (VR × Nat × Nat)} (h : s.Inv) :
    (s.tileStore head unit cells elems).Inv := by
  unfold State.tileStore
  grind [State.Inv.endProt, State.Inv.mapR, State.Inv.touchTiles, State.Inv.keepSources, State.Inv.setAttach,
    State.Inv.freeRegElems]

theorem State.Inv.tstPlaces {a : Attach} {out : Fmt} {sa sb : SR} (h : s.Inv) : KeepsInv (s.tstPlaces a out sa sb) :=
    h.rowKeys

theorem State.Inv.tstChecks {o : OutFmt} {sa sb : SR} {sr : Option SrArg} {a : Attach} (h : s.Inv) :
    KeepsInv (tstChecks o sa sb sr a s) := by
  unfold Machine.tstChecks
  grind [KeepsInv, KeepsInv.bind, State.Inv.tileTag, State.Inv.tstPlaces]

theorem State.Inv.doTst {z : ZR} {o : OutFmt} {sa sb : SR} {sr : Option SrArg} (h : s.Inv) :
    (doTst z o sa sb sr s).Inv := by
  refine h.tileDo fun a t ht => ?_
  exact State.Inv.tileStore (s := t.setAttach _) ht

theorem State.Inv.tstvChecks {vi : VR} {sr : Option SrArg} {a : Attach} (h : s.Inv) : KeepsInv (tstvChecks vi sr a s) :=
    by
  unfold Machine.tstvChecks
  grind [KeepsInv, State.Inv.tileTag]

theorem State.Inv.doTstv {z : ZR} {vi : VR} {sr : Option SrArg} (h : s.Inv) : (doTstv z vi sr s).Inv := by
  refine h.tileDo fun a t ht => ?_
  exact State.Inv.tileStore (s := t.setAttach _) ht

theorem State.Inv.doTsave {z : ZR} {sa : SR} (h : s.Inv) : (doTsave z sa s).Inv := by
  refine h.tileDo fun a t ht => ?_
  have hk : KeepsInv (t.tileKey (t.reg sa) a.imageBytes 64 .store) := ht.tileKey
  grind [KeepsInv, State.Inv.tileStore]

theorem State.Inv.trestoreChecks {sa : SR} {a : Attach} (h : s.Inv) : KeepsInv (trestoreChecks sa a s) := by
  unfold Machine.trestoreChecks
  grind [KeepsInv, KeepsInv.bind, State.Inv.tileKey, State.Inv.consume, State.Inv.restoreBytes, State.Inv.stopTrap]

theorem State.Inv.doTrestore {z : ZR} {sa : SR} (h : s.Inv) : (doTrestore z sa s).Inv := by
  refine h.tileDo fun a t ht => ?_
  have hk : KeepsInv (t.tileKey (t.reg sa) a.imageBytes 64 .load) := ht.tileKey
  grind [KeepsInv, State.Inv.setLoss, State.Inv.setAttach, State.Inv.restoreBytes]

theorem State.Inv.takeTileFlags (h : s.Inv) : (s.takeTileFlags).Inv := by
  unfold State.takeTileFlags
  grind [State.Inv.mapR, State.Inv.setAttach]

theorem State.Inv.settleLatches (h : s.Inv) : (s.settleLatches).Inv := by
  unfold State.settleLatches
  grind [State.inv_iff, State.Inv.setAttach]

theorem State.Inv.tileWait (h : s.Inv) : (s.tileWait).Inv := by
  unfold State.tileWait
  grind [State.Inv.settleLatches, State.Inv.takeTileFlags, State.Inv.latchesDone, State.Inv.landOps,
    State.Inv.setAttach, State.Inv.mapR]

theorem State.Inv.execDetach (h : s.Inv) : NextInv (execDetach s) := by
  unfold Machine.execDetach
  grind [KeepsInv, KeepsInv.bind, KeepsInv.outcome, State.Inv.afterVector, State.Inv.setLoss, State.Inv.advance,
    State.Inv.tileReady, State.Inv.landOps, State.Inv.takeTileFlags, State.Inv.latchesDone, State.Inv.endAttach,
      State.Inv.toHold]

/-! ### Machine/Stream -/

theorem State.Inv.issueField {va : Word} {es : Nat} (h : s.Inv) : KeepsInv (s.issueField va es) := by
  unfold State.issueField
  grind [KeepsInv, KeepsInv.bind, State.Inv.check, State.Inv.loadFrom, State.Inv.stopTrap]

theorem State.Inv.issueFields {o : StreamOp} {es r n f : Nat} (h : s.Inv) : KeepsInv (o.issueFields es r n f s) := by
  induction n generalizing s f with
  | zero => exact h
  | succ n ih => exact KeepsInv.bind h.issueField fun _ _ h => KeepsInv.bind (ih h) fun _ _ h => h

theorem State.Inv.issue {o : StreamOp} {es : Nat} {l : List Nat} (h : s.Inv) : (o.issue es l s).2.2.Inv := by
  induction l generalizing s with
  | nil => exact h
  | cons r l ih =>
    have hf : KeepsInv (o.issueFields es r o.fields 0 s) := h.issueFields
    unfold StreamOp.issue
    grind [KeepsInv]

theorem State.Inv.landFields {o : StreamOp} {x : StreamRec} {r f : Nat} {l : List (Nat × Option Nat)} (h : s.Inv) :
    KeepsInv (o.landFields x r f l s) := by
  induction l generalizing s f with
  | nil => exact h
  | cons e l ih =>
    have tail (y : Nat) (t : State) (ht : t.Inv) : KeepsInv (do
        let (ys, t) ← o.landFields x r (f + 1) l t
        .ok (y :: ys, t)) := KeepsInv.bind (ih ht) fun _ _ h => h
    obtain ⟨k, v | y⟩ := e
    · exact KeepsInv.bind h.readBy fun _ t ht => tail _ t ht
    · exact tail y s h

theorem State.Inv.land {o : StreamOp} {x : StreamRec} {l : List (Nat × List (Nat × Option Nat))} (h : s.Inv) :
    (o.land x l s).2.2.Inv := by
  induction l generalizing s with
  | nil => exact h
  | cons e l ih =>
    have hf : KeepsInv (o.landFields x e.1 0 e.2 s) := h.landFields
    unfold StreamOp.land
    grind [KeepsInv]

theorem State.Inv.streamHeat {o : StreamOp} {es : Nat} {rs : List Nat} (h : s.Inv) : (s.streamHeat o es rs).Inv := by
  unfold State.streamHeat
  grind [State.inv_iff, State.Inv.foldl, State.Inv.heatPage]

theorem State.Inv.writeStream {o : StreamOp} {es : Nat} {l : List (Nat × List Nat)} {els : List Nat} (h : s.Inv) :
    (s.writeStream o es l els).Inv := h.setVect.streamHeat

theorem State.Inv.doStream {o : StreamOp} (h : s.Inv) : KeepsInv (doStream o s) := by
  unfold Machine.doStream
  split
  · exact h
  · rename_i x rest _
    have hl : (o.land x (x.recs.filter fun r => !x.landed.any fun l => l.1 == r.1) s).2.2.Inv := h.land
    dsimp only
    generalize o.land x (x.recs.filter fun r => !x.landed.any fun l => l.1 == r.1) s = y at hl ⊢
    obtain ⟨got, _ | ⟨i, e⟩, t⟩ := y
    · exact KeepsInv.ok (State.Inv.streamHeat (s := t.setVect _) hl)
    · dsimp only
      split
      · exact hl
      · exact KeepsInv.error hl.writeStream

theorem State.Inv.cutIssue {o : StreamOp} {x : StreamRec} {i : Nat} {e : Stop} (h : s.Inv) :
    KeepsInv (s.cutIssue o x i e) := by
  have hl : (o.land x x.recs s).2.2.Inv := h.land
  unfold State.cutIssue
  split
  · exact h
  · generalize o.land x x.recs s = y at hl ⊢
    obtain ⟨got, _ | ⟨j, e⟩, t⟩ := y
    · exact KeepsInv.error hl.writeStream
    · exact KeepsInv.error hl.writeStream

theorem State.Inv.issueStream {i : Instr} {o : StreamOp} {a b : Word} (h : s.Inv) : KeepsInv (issueStream i o a b s) :=
    by
  have tail (t : State) (ht : t.Inv) : KeepsInv (if 32 ≤ vecCount t.r.vq
    || streamWaits t.r.vq o.mm.mask then .error (.queue 0, t)
      else do
        let vstart := if t.r.vq.isEmpty then t.vstart else 0
        let (_, s) ← t.tagChecks o.names o.mm.mask (t.streamOk o vstart) true
        let es := (s.fmtOf o.vd).width / 8
        match o.issue es (s.activeFrom o.mm.mask vstart) s with
        | (_, some (_, .ask q), s) => .error (.ask q, s)
        | (recs, some (r, e), s) =>
          if s.r.vq.isEmpty then s.cutIssue o (s.newStream i o a b es recs) r e else .error (.queue 0, s)
        | (recs, none, s) => .ok ((), (s.acceptStream (s.newStream i o a b es recs)).advance)) := by
    split
    · exact ht
    · refine KeepsInv.bind ht.tagChecks fun _ u hu => ?_
      dsimp only
      have hi {es : Nat} {l : List Nat} : (o.issue es l u).2.2.Inv := hu.issue
      split <;> rename_i e <;> have hi := e ▸ hi
      · exact hi
      · split
        · exact hi.cutIssue
        · exact hi
      · exact hi
  unfold Machine.issueStream
  dsimp only
  split
  · refine KeepsInv.bind h.convoyCheck fun _ u hu => ?_
    exact tail u hu
  · exact tail s h

theorem State.Inv.execStream {m : MMod} {vd : VR} {sa sb : SR} {off : BitVec 16} (h : s.Inv) :
    NextInv (execStream m vd sa sb off s) := KeepsInv.outcome h.issueStream

theorem State.Inv.execStreamseg {m : MMod} {vd : VR} {sa sb : SR} {vi : VR} {fields : Fin 8} {off : BitVec 13}
    (h : s.Inv) : NextInv (execStreamseg m vd sa sb vi fields off s) := KeepsInv.outcome h.issueStream

/-! ### Machine/Copy -/

theorem State.Inv.readDesc {scope : Scope} {n : Nat} {va : Word} (h : s.Inv) : KeepsInv (s.readDesc scope n va) := by
  induction n generalizing s va with
  | zero => exact h
  | succ n ih => exact KeepsInv.bind h.scalarLoad fun _ _ h => KeepsInv.bind (ih h) fun _ _ h => h

theorem State.Inv.boxKey {k : AccKind} {es : Nat} {va : Word} (h : s.Inv) : KeepsInv (s.boxKey k es va) := by
  unfold State.boxKey
  grind [KeepsInv, KeepsInv.bind, State.Inv.check, State.Inv.stopTrap, State.Inv.answer, State.Inv.replyBytes]

theorem State.Inv.boxKeys {k : AccKind} {es : Nat} {l : List Word} (h : s.Inv) : KeepsInv (s.boxKeys k es l) := by
  induction l generalizing s with
  | nil => exact h
  | cons va l ih => exact KeepsInv.bind h.boxKey fun _ _ h => KeepsInv.bind (ih h) fun _ _ h => h

theorem State.Inv.copyArrives {c : CopyRec} (h : s.Inv) : (s.copyArrives c).Inv := by
  unfold State.copyArrives
  grind [State.Inv.arriveOn]

theorem State.Inv.startCopy {c : CopyRec} (h : s.Inv) : (s.startCopy c).Inv := by
  unfold State.startCopy
  grind [State.inv_iff, State.Inv.endProt, State.Inv.copyArrives, State.Inv.unstick, State.Inv.mapR]

theorem State.Inv.acceptCopy {c : CopyRec} (h : s.Inv) : (s.acceptCopy c).Inv := State.Inv.ite h.startCopy h

theorem State.Inv.copyWaits (h : s.Inv) : KeepsInv (s.copyWaits) := by
  unfold State.copyWaits
  grind [KeepsInv]

theorem State.Inv.doCopy {scope : Scope} {d ext : Word} (h : s.Inv) : KeepsInv (doCopy scope d ext s) := by
  unfold Machine.doCopy
  dsimp only
  split
  · exact h.copyWaits
  · refine KeepsInv.bind h.readDesc fun w t ht => ?_
    dsimp only
    split
    · exact ht
    · split
      · exact KeepsInv.ok (State.Inv.acceptCopy ht)
      · refine KeepsInv.bind ht.boxKeys fun _ _ h => KeepsInv.bind h.boxKeys fun _ _ h => ?_
        exact KeepsInv.ok (State.Inv.acceptCopy h)

theorem State.Inv.execCopy {scope : Scope} {sa sb : SR} {off : BitVec 16} (h : s.Inv) :
    NextInv (execCopy scope sa sb off s) := KeepsInv.outcome h.doCopy

theorem State.Inv.copyLook {c : CopyRec} {k n : Nat} (h : s.Inv) : (s.copyLook c k n).2.Inv := by
  unfold State.copyLook
  grind [State.Inv.focus, State.Inv.seen, State.Inv.agentLook, State.Inv.touchL2]

theorem State.Inv.arrivesBad {k n : Nat} (h : s.Inv) : (s.arrivesBad k n).2.Inv := by
  unfold State.arrivesBad
  grind [State.Inv.freeBool]

theorem State.Inv.copyRead {c : CopyRec} {k : Nat} (h : s.Inv) : (s.copyRead c k).2.Inv := by
  unfold State.copyRead
  grind [State.Inv.send, State.Inv.freeBytes, State.Inv.copyLook]

theorem State.Inv.moveElem {c : CopyRec} {e : Nat × Nat} (h : s.Inv) : (s.moveElem c e).Inv := by
  unfold State.moveElem
  grind [State.inv_iff, State.Inv.copyRead, State.Inv.arrivesBad, State.Inv.writeFor]

theorem State.Inv.setChunkBit {c : CopyRec} {n : Nat} (h : s.Inv) : (s.setChunkBit c n).Inv := by
  unfold State.setChunkBit
  grind [State.Inv.writeFor]

theorem State.Inv.endCopy {c : CopyRec} (h : s.Inv) : (s.endCopy c).Inv := by
  unfold State.endCopy
  grind [State.inv_iff, State.Inv.withRunner, State.Inv.mapR, State.Inv.copyArrives, State.Inv.unstick]

theorem State.Inv.noteChunk {c : CopyRec} {n : Nat} (h : s.Inv) : (s.noteChunk c n).Inv := by
  unfold State.noteChunk
  grind [State.inv_iff, State.Inv.setChunkBit, State.Inv.endCopy]

theorem State.Inv.landChunk {c : CopyRec} {n : Nat} (h : s.Inv) : (s.landChunk c n).Inv :=
    State.Inv.noteChunk (State.Inv.foldl h fun _ _ h => h.moveElem)

theorem State.Inv.execCopyChunkLanded {id chunk : Nat} (h : s.Inv) : NextInv (execCopyChunkLanded id chunk s) := by
  unfold Machine.execCopyChunkLanded
  grind [NextInv, State.Inv.landChunk]

/-! ### Machine/Heats -/

theorem State.Inv.admitHeat {x : Heat} {t : State} (h : s.Inv) (ht : s.admitHeat x = some t) : t.Inv := by
  unfold State.admitHeat at ht
  split at ht
  · cases ht
  · obtain ⟨rs, -, rfl⟩ := Option.map_eq_some_iff.mp ht
    exact h

theorem State.Inv.holdAdmission {p : Part} {a : Admission} (h : s.Inv) : (s.holdAdmission p a).Inv := h

theorem State.Inv.haltRunner (h : s.Inv) : (s.haltRunner).Inv := by
  unfold State.haltRunner
  grind [State.Inv.rewind, State.Inv.cancelYounger, State.Inv.drainShare, State.Inv.endLeases, State.Inv.leaveUnit,
    State.Inv.mapR]

theorem State.Inv.haltCondemned (h : s.Inv) : (s.haltCondemned).Inv := by
  unfold State.haltCondemned
  grind [State.inv_iff, State.Inv.foldl, State.Inv.withRunner, State.Inv.haltRunner]

theorem State.Inv.retireTeam {t : Team} (h : s.Inv) : (s.retireTeam t).Inv := by
  unfold State.retireTeam
  refine State.Inv.setTeam (State.Inv.foldl (h.foldl fun _ _ h => h.withRunner fun _ h => h.endLeases) fun _ _ h => ?_)
  exact h.landOps.endAttach fun _ _ h => h.toHold

theorem State.Inv.retireTeams (h : s.Inv) : (s.retireTeams).Inv := State.Inv.foldl h fun _ _ h => h.retireTeam

theorem State.Inv.pruneQueues (h : s.Inv) : (s.pruneQueues).Inv := State.Inv.ite h h

theorem State.Inv.endHeat {x : Heat} (h : s.Inv) : (s.endHeat x).Inv := by
  have hf {p : RunnerId × Runner → Bool} : ∀ y ∈ s.rs.filter p, y.1 = y.2.ident.id :=
    fun y hy => h.2.1 y (List.mem_filter.mp hy).1
  unfold State.endHeat
  dsimp only
  repeat' split
  all_goals exact ⟨h.1, hf, h.2.2⟩

theorem State.Inv.endHeats (h : s.Inv) : (s.endHeats).Inv := State.Inv.foldl h fun _ _ h => h.endHeat

theorem State.Inv.startNode {p : Part} {i : Nat} {d : HeatDesc} (h : s.Inv) : (s.startNode p i d).Inv := by
  unfold State.startNode
  grind [State.Inv.holdAdmission, State.Inv.setPart, State.Inv.admitHeat]

theorem State.Inv.tryNode {part : Nat} {x : HeatDesc × Nat} (h : s.Inv) : (s.tryNode part x).Inv := by
  unfold State.tryNode
  split
  · exact h
  · repeat' split
    · exact h
    · exact h
    · exact h.startNode
    · exact h

theorem State.Inv.tryNodes {p : Part} (h : s.Inv) : (s.tryNodes p).Inv := State.Inv.foldl h fun _ _ h => h.tryNode

theorem State.Inv.fireGraph {p : Part} (h : s.Inv) : (s.fireGraph p).Inv := State.Inv.foldl h fun _ _ h => h.tryNodes

theorem State.Inv.tidy (h : s.Inv) : (s.tidy).Inv := by
  unfold State.tidy
  grind [State.Inv.foldl, State.Inv.haltCondemned, State.Inv.retireTeams, State.Inv.pruneQueues, State.Inv.endHeats,
    State.Inv.fireGraph]

/-! ### Machine/Launch -/

theorem State.Inv.launchHeat {p : Part} {ht : Heat} {sd : SR} (h : s.Inv) : KeepsInv (s.launchHeat p ht sd) := by
  unfold State.launchHeat
  grind [KeepsInv, State.Inv.setReg, State.Inv.advance, State.Inv.holdAdmission, State.Inv.setPart, State.Inv.admitHeat]

theorem State.Inv.launchDesc {w : List Word} {sd : SR} (h : s.Inv) : KeepsInv (s.launchDesc w sd) := by
  unfold State.launchDesc
  grind [KeepsInv, State.Inv.setReg, State.Inv.advance, State.Inv.launchHeat]

theorem State.Inv.doLaunch {sd sa : SR} (h : s.Inv) : KeepsInv (doLaunch sd sa s) := by
  unfold Machine.doLaunch
  split
  · exact h
  · refine KeepsInv.bind h.endProt.readDesc fun w t ht => ?_
    dsimp only
    split
    · exact ht
    · exact State.Inv.launchDesc (s := t.drainShare.fenceAll) ht.drainShare

theorem State.Inv.takeStatus {id : Nat} (h : s.Inv) : (s.takeStatus id).Inv := by
  unfold State.takeStatus
  grind [State.Inv.setPart]

theorem State.Inv.pollJoin {w : WaitRec} (h : s.Inv) : KeepsInv (pollJoin w s) := by
  unfold Machine.pollJoin
  grind [KeepsInv, State.Inv.fenceAll, State.Inv.acquireL1, State.Inv.takeStatus, State.Inv.setReg, State.Inv.advance,
    State.Inv.deadlineEnd]

theorem State.Inv.execLcancel {sd sa : SR} (h : s.Inv) : NextInv (execLcancel sd sa s) := by
  unfold Machine.execLcancel
  grind [KeepsInv, KeepsInv.outcome, State.Inv.afterVector, State.Inv.setReg, State.Inv.advance, State.Inv.condemn,
    State.Inv.tidy]

theorem State.Inv.exitDetach (h : s.Inv) : s.exitDetach.Inv := by
  unfold State.exitDetach
  split
  · exact State.Inv.endAttach (State.Inv.takeTileFlags h.landOps) fun _ _ h => h.toHold
  · exact h

theorem State.Inv.lowerBarriers (h : s.Inv) : (s.lowerBarriers).Inv := by
  unfold State.lowerBarriers
  grind [State.inv_iff, State.Inv.setTeam, State.Inv.drainTeam]

theorem State.Inv.exitStrip (h : s.Inv) : (s.exitStrip).Inv := State.Inv.ite h.commitStrip h

theorem State.Inv.doExit (h : s.Inv) : (doExit s).Inv := by
  unfold Machine.doExit
  grind [State.Inv.exitStrip, State.Inv.drainShare, State.Inv.fenceAll, State.Inv.mapR, State.Inv.exitDetach,
    State.Inv.endLeases, State.Inv.lowerBarriers, State.Inv.unstick, State.Inv.tidy]

theorem State.Inv.dropStreams (h : s.Inv) : (s.dropStreams).Inv := State.Inv.ite h h

theorem State.Inv.execExit (h : s.Inv) : NextInv (execExit s) := by
  unfold Machine.execExit
  grind [KeepsInv, KeepsInv.outcome, State.Inv.dropStreams, State.Inv.afterVector, State.Inv.report, State.Inv.doExit]

/-! ### Machine/Strideform -/

theorem State.Inv.imageFor {part : Nat} {g : Package} {d : HeatDesc} {m : Bool} (h : s.Inv) :
    (s.imageFor part g d m).2.Inv := by
  unfold State.imageFor
  grind [State.inv_iff, State.Inv.freeBool, State.Inv.setPart]

theorem State.Inv.writeImage {va : Word} {l : List Word} (h : s.Inv) : (s.writeImage va l).Inv := by
  induction l generalizing s va with
  | nil => exact h
  | cons w l ih =>
    unfold State.writeImage
    split
    · exact ih h.agentWrite
    · exact ih h

theorem State.Inv.dropImages (h : s.Inv) : (s.dropImages).Inv := State.Inv.ite h h

/-! ### Machine/Peers -/

theorem State.Inv.outsideLook {part key n : Nat} (h : s.Inv) : (s.outsideLook part key n).2.Inv := h.agentLook.readL2

theorem State.Inv.poisonAt {keys : List Nat} (h : s.Inv) : (s.poisonAt keys).Inv := h

theorem State.Inv.accessAt {part key : Nat} {a : OutAccess} (h : s.Inv) : (s.accessAt part key a).2.Inv := by
  unfold State.accessAt
  grind [State.inv_iff, State.Inv.outsideLook, State.Inv.agentWrite, State.Inv.poisonAt, State.Inv.freeBytes,
    State.Inv.lineL2]

theorem State.Inv.serveList {p : Part} {l : List OutAccess} {w : PeerWork} (h : s.Inv) :
    (State.serveList p l w s).2.Inv := by
  induction l generalizing s w with
  | nil => exact h
  | cons a l ih =>
    unfold Machine.State.serveList
    split
    · exact h
    · exact h
    · dsimp only
      split
      · exact h.accessAt
      · exact ih h.accessAt

theorem State.Inv.workOn {part : Nat} {w : PeerWork} (h : s.Inv) : (s.workOn part w).Inv := by
  unfold State.workOn
  split
  · exact h
  · rename_i p _
    have hl : (State.serveList p w.todo w s).2.Inv := h.serveList
    dsimp only
    split
    · exact hl.emit
    · refine State.Inv.send ?_
      split <;> exact hl

theorem State.Inv.peersServed {part : Nat} {mapped : Bool} (h : s.Inv) : (s.peersServed part mapped).Inv := by
  unfold State.peersServed
  grind [State.inv_iff, State.Inv.foldl, State.Inv.workOn, State.Inv.setPart, State.Inv.emit]

theorem State.Inv.notePeer {peer seq : Nat} (h : s.Inv) : (s.notePeer peer seq).Inv := h

theorem State.Inv.serve {peer part seq : Nat} {accs : List OutAccess} (h : s.Inv) : (s.serve peer part seq accs).Inv :=
    by
  unfold State.serve
  grind [State.inv_iff, State.Inv.emit, State.Inv.workOn]

theorem State.Inv.serveOnce {peer part seq : Nat} {accs : List OutAccess} (h : s.Inv) :
    NextInv (s.serveOnce peer part seq accs) := State.Inv.ite h h.notePeer.serve

/-! ### Machine/Attach -/

theorem State.Inv.noGrant {n : BitVec 3} (h : s.Inv) : (s.noGrant n).Inv := h

theorem State.Inv.holdOctant {k : Nat} (h : s.Inv) : (s.holdOctant k).Inv := h

theorem State.Inv.queueAttach {p : PendAttach} (h : s.Inv) : (s.queueAttach p).Inv :=
    State.Inv.ite h h.setCore.enqueueReq

theorem State.Inv.startAttach {wait : Bool} {g : Grant} {octs : List Nat} (h : s.Inv) :
    (s.startAttach wait g octs).Inv := by
  unfold State.startAttach
  grind [State.Inv.foldl, State.Inv.roomFor, State.Inv.holdOctant, State.Inv.setCluster, State.Inv.queueAttach]

theorem State.Inv.grantAttach {p : PendAttach} (h : s.Inv) : (s.grantAttach p).Inv := h.setCore.retryUnits

theorem State.Inv.afterStart (h : s.Inv) : KeepsInv (s.afterStart) := by
  unfold State.afterStart
  grind [KeepsInv, State.Inv.grantAttach, State.Inv.advance, State.Inv.queueAttach]

theorem State.Inv.grantWoken {p : PendAttach} (h : s.Inv) : (s.grantWoken p).Inv := by
  unfold State.grantWoken
  grind [State.Inv.withRunner, State.Inv.grantAttach, State.Inv.mapR]

theorem State.Inv.grantReady (h : s.Inv) : (s.grantReady).Inv := by
  unfold State.grantReady
  grind [State.inv_iff, State.Inv.foldl, State.Inv.grantWoken]

theorem State.Inv.serveAgain {α : Type} {k : State → M (α × State)} (h : s.Inv) (hk : ∀ t, t.Inv → KeepsInv (k t)) :
    KeepsInv (s.serveAgain k) := by
  have hb {ids : List EngineId} {t : State} (ht : t.Inv) :
      (ids.foldl (fun (s : State) (e : EngineId) => if (s.engine e).st == .hold then s.toHold e else s) t).Inv :=
    ht.foldl fun _ _ h => State.Inv.ite h.toHold h
  unfold State.serveAgain
  split
  · exact hk s h
  · rename_i p _
    have hs : ((p.octs.map s.octantOf).foldl (fun (s : State) (e : EngineId) =>
        s.setEngine { s.engine e with st := .hold, holder := some (.attach s.r.ident.core) })
        (s.setCore { s.myCore with pend := none })).Inv :=
      State.Inv.foldl (s := s.setCore _) h fun _ _ h => h.setEngine
    have hm := hk _ hs
    dsimp only
    split
    · rename_i e; rw [e] at hm; exact KeepsInv.ok (hb hm)
    · rename_i e; rw [e] at hm; exact KeepsInv.error (hb hm)

theorem State.Inv.doAttach (h : s.Inv) : KeepsInv (doAttach s) := by
  unfold Machine.doAttach
  split
  · exact h
  · split
    · exact h
    · refine h.serveAgain fun t ht => KeepsInv.ite ht.afterStart (KeepsInv.ite ht (KeepsInv.ite ht ?_))
      refine KeepsInv.ite ht (KeepsInv.ite ht (KeepsInv.ite ht ?_))
      exact (State.Inv.startAttach (s := t.setLoss none) ht).afterStart

theorem State.Inv.joinUnit {w : WaitRec} (h : s.Inv) : (s.joinUnit w).Inv := State.Inv.ite h h.setCluster

theorem State.Inv.attachLate {w : WaitRec} {reason : Nat} (h : s.Inv) : KeepsInv (s.attachLate w reason) := by
  unfold State.attachLate
  grind [KeepsInv, State.Inv.leaveUnit, State.Inv.stopTrap, State.Inv.noGrant]

theorem State.Inv.pollAttach {w : WaitRec} (h : s.Inv) : KeepsInv (pollAttach w s) := by
  unfold Machine.pollAttach
  split
  · exact KeepsInv.ok (State.Inv.joinUnit h)
  · split
    · exact h
    · refine h.serveAgain fun t ht => ?_
      have hj : ((t.setLoss none).joinUnit w).Inv := State.Inv.joinUnit ht
      dsimp only
      repeat' split
      · exact ht.afterStart.map fun _ _ h => h
      · exact ht
      · exact ht.attachLate
      · exact ht
      · exact hj.attachLate
      · exact hj.makeRoom.attachLate
      · exact hj.startAttach.afterStart.map fun _ _ h => h

/-! ### Machine/Engine -/

theorem State.Inv.engineCheck {ht : Word} {k : Kind} (h : s.Inv) : KeepsInv (s.engineCheck ht k) := by
  unfold State.engineCheck
  grind [KeepsInv, State.Inv.stopTrap, State.Inv.setEngine]

theorem State.Inv.engineStart {ht : Word} {k : Kind} (h : s.Inv) : KeepsInv (s.engineStart ht k) :=
    KeepsInv.bind h.engineCheck fun _ _ h => h.endProt

theorem State.Inv.doSfn {i : Instr} {m : Mask} {vd va : VR} {fn : Fin 10} {ht : Word} (h : s.Inv) :
    KeepsInv (doSfn i m vd va fn ht s) := KeepsInv.bind h.engineStart fun _ _ h => KeepsInv.bind h.tagChecks
      fun _ _ h => h.runPlan

theorem State.Inv.doXsort {i : Instr} {m : Mask} {vd va : VR} {desc idx : Bool} {ht : Word} (h : s.Inv) :
    KeepsInv (doXsort i m vd va desc idx ht s) := KeepsInv.bind h.engineStart fun _ _ h => KeepsInv.bind h.tagChecks
      fun _ _ h => h.runPlan

theorem State.Inv.doXtopk {i : Instr} {m : Mask} {vd va : VR} {k : Nat} {smallest : Bool} {ht : Word} (h : s.Inv) :
    KeepsInv (doXtopk i m vd va k smallest ht s) := by
  unfold Machine.doXtopk
  grind [KeepsInv.bind, State.Inv.engineStart, State.Inv.tagChecks, State.Inv.tagStop, State.Inv.runPlan]

theorem State.Inv.doXhist {i : Instr} {m : Mask} {vd va : VR} {ht : Word} (h : s.Inv) :
    KeepsInv (doXhist i m vd va ht s) := by
  unfold Machine.doXhist
  grind [KeepsInv.bind, State.Inv.engineStart, State.Inv.stopTrap, State.Inv.runPlan]

/-! ### Machine/Collect -/

theorem State.Inv.setCollective {c : Collective} (h : s.Inv) : (s.setCollective c).Inv := by
  unfold State.setCollective
  grind [State.inv_iff, State.Inv.setPart]

theorem State.Inv.leaveCollective {c : CollOp} (h : s.Inv) : (s.leaveCollective c).Inv := h.setCollective

theorem State.Inv.beforeJoin (h : s.Inv) : (s.beforeJoin).Inv := h.drainShare

theorem State.Inv.contribute {c : CollOp} (h : s.Inv) : (s.contribute c).Inv := by
  unfold State.contribute
  grind [State.Inv.foldl, State.Inv.emit]

theorem State.Inv.joinCollective {i : Instr} {c : CollOp} (h : s.Inv) : (s.joinCollective i c).Inv := by
  unfold State.joinCollective
  grind [State.inv_iff, State.Inv.beforeJoin, State.Inv.setCollective, State.Inv.contribute]

theorem State.Inv.collDone {c : CollOp} (h : s.Inv) : (s.collDone c).Inv := h.setCollective

theorem State.Inv.collLate {c : CollOp} (h : s.Inv) : KeepsInv (s.collLate c) := by
  unfold State.collLate
  grind [KeepsInv, State.Inv.stopTrap, State.Inv.leaveCollective, State.Inv.collDone, State.Inv.setVstart,
    State.Inv.mapR]

theorem State.Inv.collPoll {i : Instr} {c : CollOp} {w : WaitRec} {n : Names} {vlmax : Nat} (h : s.Inv) :
    KeepsInv (s.collPoll i c w n vlmax) := by
  unfold State.collPoll
  grind [KeepsInv, KeepsInv.bind, State.Inv.stopTrap, State.Inv.collDone, State.Inv.tagStop, State.Inv.runPlan,
    State.Inv.acquire, State.Inv.mapR, State.Inv.noteWrites, State.Inv.collLate]

theorem State.Inv.joinRead {i : Instr} (h : s.Inv) : KeepsInv (s.joinRead i) := by
  unfold State.joinRead
  grind [KeepsInv, State.Inv.setVstart, State.Inv.consumeReg]

theorem State.Inv.collStep {i : Instr} {c : CollOp} {x : Word} (h : s.Inv) : KeepsInv (collStep i c x s) := by
  unfold Machine.collStep
  dsimp only
  generalize hr : (s.report _ >>= _) = r
  have hm : KeepsInv r := by
    rw [← hr]
    refine KeepsInv.bind (h.report (KeepsInv.ok h)) fun _ t ht => ?_
    dsimp only
    split
    all_goals
      refine KeepsInv.bind ?_ fun _ _ h => KeepsInv.bind h.engineStart fun _ _ h => KeepsInv.bind h.tagChecks
        fun _ _ h =>
        KeepsInv.bind h.joinRead fun _ v hv => KeepsInv.bind ?_ fun _ _ h => h.collPoll
    case isTrue.refine_1 => exact ht
    case isFalse.refine_1 => exact ht.convoyCheck
    all_goals
      split
      · exact hv
      · exact KeepsInv.bind hv.compat fun _ _ h => h.joinCollective
  split
  · exact KeepsInv.error (State.Inv.ite hm (State.Inv.leaveCollective hm))
  · exact hm

theorem State.Inv.passCollective {i : Instr} {c : CollOp} {sh : SR} (h : s.Inv) : NextInv (passCollective i c sh s) :=
    by
  refine KeepsInv.outcome ?_
  split
  · refine KeepsInv.bind (State.Inv.collStep h) fun b t ht => ?_
    exact KeepsInv.ok (State.Inv.ite ht ht)
  · split <;> exact h

/-! ### Machine/Drain -/

theorem State.Inv.vbody {i : Instr} {x y : Word} (h : s.Inv) : KeepsInv (vbody i x y s) := by
  unfold Machine.vbody
  cases i with
  | vadd | vsub | vmul | vdiv | vmin | vmax | vfma | vfms | vfnma | vabs | vneg | vsqrt => dsimp only; exact h.doArith
  | vand | vor | vxor | vnot => dsimp only; exact h.doLogic
  | vshl | vshr | vsar => dsimp only; exact h.doShift
  | vcvt | vcvtsr => dsimp only; exact h.doCvt
  | vmov => dsimp only; exact h.doMov
  | vbcast => dsimp only; exact h.doBcast
  | vbcastScalar => dsimp only; exact h.doBcastScalar
  | vsel => dsimp only; exact h.doSel
  | vtwosum => dsimp only; exact h.doTwosum
  | vscalb => dsimp only; exact h.doScalb
  | vqpush => dsimp only; exact h.doVqpush
  | vqpop => dsimp only; exact h.doVqpop
  | vmpopc | vmfirst | vmany => dsimp only; exact h.doCount
  | vcmp => dsimp only; exact h.doCmp
  | vredsum | vredmin | vredmax | vredand | vredor => dsimp only; exact h.doRed
  | vscan => dsimp only; exact h.doScan
  | vredts => dsimp only; exact h.doRedts
  | vslideup => dsimp only; exact h.doSlideup
  | vslidedn => dsimp only; exact h.doSlidedn
  | vperm => dsimp only; exact h.doVperm
  | vrev => dsimp only; exact h.doVrev
  | vzip => dsimp only; exact h.doVzip
  | vunzipe | vunzipo => dsimp only; exact h.doVunzip
  | vcompress => dsimp only; exact h.doCompress
  | vexpand => dsimp only; exact h.doExpand
  | vinsert => dsimp only; exact h.doInsert
  | vcfgw | vcfgwTag => dsimp only; exact h.doVcfgw
  | vtag => dsimp only; exact h.doVtag
  | vgettag => dsimp only; exact h.doVgettag
  | vidx => dsimp only; exact h.doVidx
  | vsetvl | vsetvlQueue => dsimp only; exact h.doVsetvl
  | vscget => dsimp only; exact h.doVscget
  | vscset => dsimp only; exact h.doVscset
  | vrng => dsimp only; exact h.doVrng
  | rngseed => dsimp only; exact h.doRngseed
  | vld | vlds | vldx => dsimp only; exact h.doVload
  | vldff => dsimp only; exact h.doVldff
  | vst | vsts | vstxo => dsimp only; exact h.doVstore
  | vstxu => dsimp only; exact h.doVstxu
  | vamoadd | vamomin | vamomax | vamofadd => dsimp only; exact h.doVamo
  | sfn => dsimp only; exact h.doSfn
  | xsort => dsimp only; exact h.doXsort
  | xtopk => dsimp only; exact h.doXtopk
  | xhist => dsimp only; exact h.doXhist
  | stream | streamseg => dsimp only; exact h.doStream
  | tlda | tldb | tldax => dsimp only; exact h.doLatch
  | tldv => dsimp only; exact h.doTldv
  | mfence => dsimp only; exact h.doMfence
  | tmma => dsimp only; exact h.doTmma
  | tzero => dsimp only; exact h.doTzero
  | tst => dsimp only; exact h.doTst
  | tstv => dsimp only; exact h.doTstv
  | tsave => dsimp only; exact h.doTsave
  | trestore => dsimp only; exact h.doTrestore
  | _ => exact h

theorem State.Inv.asPassed {α : Type} {c : Scal} {f : State → M (α × State)} (h : s.Inv)
    (hf : ∀ t, t.Inv → KeepsInv (f t)) : KeepsInv (s.asPassed c f) := by
  have hm := hf (s.mapR fun r => { r with scal := c }) h
  unfold State.asPassed
  dsimp only
  split
  · rename_i e; rw [e] at hm; exact hm
  · rename_i e; rw [e] at hm; exact hm

theorem State.Inv.amoTurn {f : AmoOp × Bool × Order × Scope × SR × SR × SR} {x : Word} {c : Scal} (h : s.Inv) :
    KeepsInv (amoTurn f x c s) :=
  KeepsInv.bind (h.asPassed fun _ h => h.amoAct) fun _ _ h => h

theorem State.Inv.vturn {i : Instr} {x y : Word} {c : Scal} (h : s.Inv) : KeepsInv (vturn i x y c s) := by
  unfold Machine.vturn
  split
  · exact h.amoTurn
  · refine h.asPassed fun t ht => ?_
    split
    · exact ht.collStep
    · refine KeepsInv.bind ht.convoyCheck fun _ u hu => ?_
      dsimp only
      split
      · exact KeepsInv.bind hu.vbody fun _ _ h => h
      · exact KeepsInv.bind (hu.guarded fun _ h => h.vbody).noted fun _ _ h => h

theorem State.Inv.heldAct {a : VItem} (h : s.Inv) : (s.heldAct a).Inv := by
  cases a with
  | store a => exact h.storeNow
  | bmclr k m => exact h.clearBits
  | line k m => exact h.heldLine
  | copy c => exact h.startCopy
  | fence k scope => exact h.fenceNow
  | vec | ifence | flags | pushed | popped => exact h

theorem State.Inv.drainLoop {land : Bool} {n : Nat} (h : s.Inv) : (drainLoop land n s).Inv := by
  induction n generalizing s with
  | zero => exact h
  | succ n ih =>
    unfold Machine.drainLoop
    split
    · exact h
    · rename_i i x y c _ _
      have hv : KeepsInv (Machine.vturn i x y c s) := h.vturn
      split
      · exact h
      · split <;> rename_i e <;> rw [e] at hv
        · exact ih hv
        · exact hv
        · exact h
        · exact State.Inv.stallFor hv
        · exact State.Inv.enterTrap (State.Inv.cancelYounger hv)
        · exact State.Inv.rewind hv
        · exact hv
    · exact ih h.heldAct

theorem State.Inv.drain {land : Bool} (h : s.Inv) : (s.drain land).Inv := State.Inv.ite h.drainLoop h

/-! ### Machine/Hot -/

theorem State.Inv.flushPage {ht : Nat × Nat × Nat × Nat × Nat} (h : s.Inv) : (s.flushPage ht).Inv := by
  unfold State.flushPage
  grind [State.Inv.agentWrite]

theorem State.Inv.flushHot {c : CoreId} (h : s.Inv) : (s.flushHot c).Inv := by
  unfold State.flushHot
  grind [State.Inv.foldl, State.Inv.flushPage, State.Inv.setCore]

/-! ### Machine/Place -/

theorem State.Inv.takeOffer {p : Part} {o : Offer} (h : s.Inv) : (s.takeOffer p o).Inv := h

theorem State.Inv.fillDsm {ht : Heat} {die : Nat} (h : s.Inv) : (s.fillDsm ht die).Inv :=
    State.Inv.foldl h fun _ _ h => h.agentWrite

theorem State.Inv.carve {ht : Heat} {die : Nat} (h : s.Inv) : (s.carve ht die).Inv := by
  unfold State.carve
  grind [State.inv_iff, State.Inv.setDie, State.Inv.fillDsm]

theorem State.Inv.splitCores {pl : Place} {sp : Split} (h : s.Inv) : (s.splitCores pl sp).Inv :=
    State.Inv.foldl h fun _ _ h => h.setCore

theorem State.Inv.undrain {t : TeamId} (h : s.Inv) : (s.undrain t).Inv := State.Inv.ite h h

theorem State.Inv.drainCores {t : TeamId} {pl : Place} {sp : Split} (h : s.Inv) : (s.drainCores t pl sp).Inv := by
  unfold State.drainCores
  grind [State.Inv.foldl, State.Inv.setCore]

theorem State.Inv.seat {ht : Heat} {t : Team} {pl : Place} {sp : Split} (h : s.Inv) : (s.seat ht t pl sp).Inv := by
  unfold State.seat
  grind [State.Inv.carve, State.Inv.undrain, State.Inv.splitCores, State.Inv.setTeam]

theorem State.Inv.startTeam {pkg : Package} {x : Heat} {t : Team} {pl : Place} {sp : Split} (h : s.Inv) :
    (s.startTeam pkg x t pl sp).Inv := by
  have hn {u : State} {l : List Nat} {f : Nat → Runner} (hu : u.Inv) :
      ({ u with rs := u.rs ++ l.map fun i => ((f i).ident.id, f i) } : State).Inv := by
    obtain ⟨hm, hr, hs⟩ := hu
    refine ⟨hm, fun y hy => ?_, hs⟩
    rcases List.mem_append.mp hy with hy | hy
    · exact hr y hy
    · obtain ⟨z, _, rfl⟩ := List.mem_map.mp hy
      rfl
  unfold State.startTeam
  dsimp only
  split
  · exact State.Inv.withRunner (hn (State.Inv.seat h.imageFor)) fun _ h => h.writeImage
  · exact hn (State.Inv.seat h.imageFor)

/-! ### Machine/Pages -/

theorem State.Inv.movePage {part : Nat} {m : PageMove} {entry : Nat} {leaf : Word} (h : s.Inv) :
    (s.movePage part m entry leaf).Inv :=
  State.Inv.dropTlb ⟨wf_cellsPut _ (wf_filter _ h.1), h.2.1.map (·.moved _ m.dest m.size) fun _ => rfl, h.2.2⟩

theorem State.Inv.goOn (h : s.Inv) : s.goOn.Inv := by
  refine ⟨h.1, h.2.1.map (fun x => if x.stat == .stalled && x.asks == [.moving] then { x with stat := .ready, asks :=
    [] } else x)
    fun x => ?_, h.2.2⟩
  split <;> rfl

theorem State.Inv.tryMove {part : Nat} {m : PageMove} (h : s.Inv) : (s.tryMove part m).Inv := by
  unfold State.tryMove
  split
  · exact h
  · dsimp only
    split
    · exact State.Inv.goOn (State.Inv.ite (State.Inv.emit h) h)
    · split
      · exact h
      · have hm {p : Part} {a : Nat} {e : Word} : ((s.setPart p).movePage part m a e).Inv := State.Inv.movePage h
        exact State.Inv.goOn (State.Inv.ite (State.Inv.emit hm) hm)

theorem State.Inv.tryMoves (h : s.Inv) : (s.tryMoves).Inv := by
  unfold State.tryMoves
  grind [State.inv_iff, State.Inv.foldl, State.Inv.tryMove]

theorem State.Inv.startMove {p : Part} {m : PageMove} (h : s.Inv) : (s.startMove p m).Inv := h

/-! ### Machine/Preempt -/

theorem State.Inv.cutStream (h : s.Inv) : (s.cutStream).Inv := by
  unfold State.cutStream
  grind [State.inv_iff, State.Inv.writeStream, State.Inv.setVstart]

theorem State.Inv.cutAccess (h : s.Inv) : (s.cutAccess).Inv := by
  unfold State.cutAccess
  grind [State.Inv.setVstart]

theorem State.Inv.carryOn (h : s.Inv) : s.carryOn.Inv := by
  unfold State.carryOn
  dsimp only
  refine State.Inv.ite h (State.Inv.ite ?_ (State.Inv.ite h h))
  exact State.Inv.drainLoop (State.Inv.ite (a := s.mapR fun r => { r with stat := .ready, asks := [] }) h h)

theorem State.Inv.withdrawAsks (h : s.Inv) : (s.withdrawAsks).Inv := by
  unfold State.withdrawAsks
  grind [State.Inv.endLease, State.Inv.leaveUnit, State.Inv.setPart]

theorem State.Inv.giveUpAttach (h : s.Inv) : s.giveUpAttach.Inv := by
  refine State.Inv.endAttach (State.Inv.landOps ?_) fun _ _ h => h.toHold
  split <;> exact h

theorem State.Inv.nowStopped (h : s.Inv) : (s.nowStopped).Inv := h

theorem State.Inv.stopHere (h : s.Inv) : (s.stopHere).Inv := by
  unfold State.stopHere
  grind [State.Inv.withdrawAsks, State.Inv.rewind, State.Inv.giveUpAttach, State.Inv.cutAccess, State.Inv.cutStream,
    State.Inv.cancelYounger, State.Inv.nowStopped]

theorem State.Inv.unresume (h : s.Inv) : (s.unresume).Inv := by
  unfold State.unresume
  grind [State.inv_iff, State.Inv.foldl, State.Inv.withdraw, State.Inv.giveBack, State.Inv.setSlot, State.Inv.leaveUnit]

theorem State.Inv.stopRunner (h : s.Inv) : (s.stopRunner).Inv := by
  unfold State.stopRunner
  grind [State.Inv.unresume, State.Inv.carryOn, State.Inv.stopHere]

theorem State.Inv.askStop {t : TeamId} (h : s.Inv) : (s.askStop t).Inv := by
  unfold State.askStop
  grind [State.inv_iff, State.Inv.foldl, State.Inv.setTeam, State.Inv.withRunner, State.Inv.stopRunner]

theorem State.Inv.execPreemptRequest {t : TeamId} (h : s.Inv) : NextInv (execPreemptRequest t s) := by
  unfold Machine.execPreemptRequest
  grind [NextInv, State.Inv.askStop]

theorem State.Inv.endTileOps {c : CoreId} (h : s.Inv) : (s.endTileOps c).Inv := h.landOps

theorem State.Inv.saveCore {t : Team} {x : State × List SavedAttach} {c : CoreId × Nat} (h : x.1.Inv) :
    (State.saveCore t x c).1.Inv :=
  (State.Inv.endAttach (State.Inv.endTileOps h) fun _ _ h => h.toHold).flushHot

theorem State.Inv.saveLeases (h : s.Inv) : (s.saveLeases).Inv := by
  unfold State.saveLeases
  grind [State.inv_iff, State.Inv.foldl, State.Inv.chargeRunner, State.Inv.toHold, State.Inv.setSlot]

theorem State.Inv.saveRunner (h : s.Inv) : (s.saveRunner).Inv := by
  unfold State.saveRunner
  grind [State.Inv.saveLeases, State.Inv.drainShare, State.Inv.mapR]

theorem State.Inv.poolRecord {t : TeamId} {b : List Byte} (h : s.Inv) : (s.poolRecord t b).Inv := by
  unfold State.poolRecord
  grind [State.Inv.setPart, State.Inv.emit]

theorem State.Inv.saveCores {t : Team} {cs : List (CoreId × Nat)} {y : State × List SavedAttach} (h : y.1.Inv) :
    (cs.foldl (State.saveCore t) y).1.Inv := by
  induction cs generalizing y with
  | nil => exact h
  | cons c cs ih => exact ih (State.Inv.saveCore h)

theorem State.Inv.saveTeam {x : Heat} {t : Team} (h : s.Inv) : (s.saveTeam x t).Inv := by
  unfold State.saveTeam
  dsimp only
  generalize hy : List.foldl (State.saveCore t) (s, []) _ = y
  have h1 : y.1.Inv := hy ▸ State.Inv.saveCores h
  have h2 : ((y.1.inOrder t.id).foldl (fun s x => s.withRunner x.ident.id State.saveRunner) y.1).Inv :=
    h1.foldl fun _ _ h => h.withRunner fun _ h => h.saveRunner
  generalize List.foldl _ y.1 _ = u at h2 ⊢
  split
  · exact h2.poolRecord
  · exact h2.poolRecord

theorem State.Inv.execTeamSave {t : TeamId} (h : s.Inv) : NextInv (execTeamSave t s) := by
  unfold Machine.execTeamSave
  split
  · split
    · exact h.saveTeam
    · exact h
  · exact h

theorem State.Inv.restoreLoss {pl : Place} {a : SavedAttach} (h : s.Inv) : (State.restoreLoss pl s a).Inv := h

theorem State.Inv.resumeAt {ht : Heat} {t : Team} {pl : Place} (h : s.Inv) : (s.resumeAt ht t pl).Inv := by
  unfold State.resumeAt
  grind [State.inv_iff, State.Inv.foldl, State.Inv.seat, State.Inv.setRunner, State.Inv.setPart, State.Inv.restoreLoss]

theorem State.Inv.reLease {i : Fin 8} {l : Lease} (h : s.Inv) : (s.reLease i l).Inv := by
  unfold State.reLease
  grind [State.inv_iff, State.Inv.setSlot, State.Inv.roomFor, State.Inv.setEngine, State.Inv.enqueueReq]

theorem State.Inv.resumeSlot {i : Fin 8} (h : s.Inv) : (s.resumeSlot i).Inv := by
  unfold State.resumeSlot
  grind [State.inv_iff, State.Inv.reLease]

theorem State.Inv.restoreAttach {a : SavedAttach} {p : PendAttach} (h : s.Inv) : (s.restoreAttach a p).Inv :=
  State.Inv.retryUnits h

theorem State.Inv.goOnAttach {a : SavedAttach} {p : PendAttach} (h : s.Inv) : (s.goOnAttach a p).Inv :=
    State.Inv.ite h.restoreAttach (State.Inv.ite h h.queueAttach)

theorem State.Inv.joinAgain (h : s.Inv) : (s.joinAgain).Inv := State.Inv.ite h h.setCluster

theorem State.Inv.askAttach {a : SavedAttach} (h : s.Inv) : (s.askAttach a).Inv := by
  unfold State.askAttach
  dsimp only
  split
  · exact h
  · refine State.Inv.ite h.joinAgain (State.Inv.ite h.joinAgain.makeRoom ?_)
    exact State.Inv.getD_map h.joinAgain.startAttach fun _ => State.Inv.goOnAttach h.joinAgain.startAttach

theorem State.Inv.resumeAttach {a : SavedAttach} (h : s.Inv) : (s.resumeAttach a).Inv := by
  have hm : KeepsInv (s.serveAgain fun s => Res.pure () ((s.myPend.map (s.goOnAttach a)).getD (s.askAttach a))) :=
    h.serveAgain fun t ht => KeepsInv.ok (State.Inv.getD_map ht.askAttach fun _ => ht.goOnAttach)
  unfold State.resumeAttach
  split
  · exact h
  · split <;> rename_i e <;> rw [e] at hm <;> exact hm

theorem State.Inv.resumeTeam {t : Team} (h : s.Inv) : (s.resumeTeam t).Inv := by
  have h1 : ((s.inOrder t.id).foldl (fun s x => s.withRunner x.ident.id
    fun s => (List.finRange 8).foldl State.resumeSlot s) s).Inv :=
    h.foldl fun _ _ h => h.withRunner fun _ h => h.foldl fun _ _ h => h.resumeSlot
  have h2 {u : State} (hu : u.Inv) : (t.attaches.foldl (fun s a => s.withRunner a.owner
    fun s => s.resumeAttach a) u).Inv :=
    hu.foldl fun _ _ h => h.withRunner fun _ h => h.resumeAttach
  unfold State.resumeTeam
  refine State.Inv.ite (State.Inv.unstick (State.Inv.foldl ?_ fun _ _ h => h.setRunner)) (h2 h1)
  exact h2 h1

theorem State.Inv.resumeTeams (h : s.Inv) : (s.resumeTeams).Inv := State.Inv.foldl h fun _ _ h => h.resumeTeam

theorem State.Inv.allAsleep (h : s.Inv) : (s.allAsleep).Inv := h

theorem State.Inv.linkDown (h : s.Inv) : (s.linkDown).Inv := by
  unfold State.linkDown
  grind [State.inv_iff, State.Inv.allAsleep, State.Inv.emit]

theorem State.Inv.settleStep (h : s.Inv) : (s.settleStep).Inv := by
  unfold State.settleStep
  grind [State.Inv.finishSaves, State.Inv.tryMoves, State.Inv.tidy, State.Inv.dropImages, State.Inv.grantReady,
    State.Inv.resumeTeams, State.Inv.keepBudgets, State.Inv.linkDown]

/-! ### Machine/WaitEvents -/

theorem State.Inv.pollOf {w : WaitRec} (h : s.Inv) : KeepsInv (pollOf w s) := by
  unfold Machine.pollOf
  cases w.kind
  · exact h.pollWord
  · exact h.pollBarrier
  · exact h.pollBitmap
  · exact h.pollAttach
  · exact h.pollLease
  · exact h.pollJoin
  · exact h

theorem State.Inv.recheckCollective (h : s.Inv) : s.recheckCollective.Inv := by
  unfold State.recheckCollective
  split
  · split
    · rename_i i _
      split
      · rename_i c _
        have hp : NextInv (Machine.passCollective i c (collHandle i) s) := h.passCollective
        split
        · rename_i e; rw [e] at hp; exact hp
        · exact h
      · exact h
    · exact h
  · exact State.Inv.drain h

theorem State.Inv.leaveColl (h : s.Inv) : s.leaveColl.Inv := State.Inv.getD_map h fun _ => h.leaveCollective

theorem State.Inv.fabricInWait {m : Nat} (h : s.Inv) : (s.fabricInWait m).Inv := by
  unfold State.fabricInWait
  grind [State.Inv.leaveColl, State.Inv.leaveUnit, State.Inv.mapR, State.Inv.cancelYounger, State.Inv.enterTrap]

theorem State.Inv.recheck (h : s.Inv) : s.recheck.Inv := by
  unfold State.recheck
  split
  · exact h.fabricInWait
  · exact State.Inv.ite h.recheckCollective (KeepsInv.finish (h.waitStep fun _ _ h => h.pollOf))
  · exact h

theorem State.Inv.lookSaved (h : s.Inv) : (s.lookSaved).Inv := by
  unfold State.lookSaved
  grind [State.Inv.mapR]

theorem State.Inv.lookAtWait {r : RunnerId} (h : s.Inv) : (s.lookAtWait r).Inv := by
  unfold State.lookAtWait
  grind [State.inv_iff, State.Inv.withRunner, State.Inv.recheck, State.Inv.lookSaved]

theorem State.Inv.execWaitDeadline {r : RunnerId} (h : s.Inv) : NextInv (execWaitDeadline r s) := by
  unfold Machine.execWaitDeadline
  grind [NextInv, State.Inv.lookAtWait]

theorem State.Inv.landGroup {x : StreamRec} {o : StreamOp} {group : Nat} (h : s.Inv) : (s.landGroup x o group).Inv := by
  have hl : (o.land x (x.due (s.groupOf o.names) group) s).2.2.Inv := h.land
  unfold State.landGroup
  generalize o.land x (x.due (s.groupOf o.names) group) s = y at hl ⊢
  obtain ⟨got, _ | e, t⟩ := y
  · exact hl
  · exact h

theorem State.Inv.execStreamGroupLanded {r : RunnerId} {id group : Nat} (h : s.Inv) :
    NextInv (execStreamGroupLanded r id group s) := by
  unfold Machine.execStreamGroupLanded
  grind [NextInv, State.Inv.withRunner, State.Inv.landGroup]

theorem State.Inv.reply {r : RunnerId} {a : Ask} {x : Reply} (h : s.Inv) : (s.reply r a x).Inv :=
    h.withRunner fun _ h => h

theorem State.Inv.writeEntries {part : Nat} {l : List (Nat × Word)} (h : s.Inv) : (s.writeEntries part l).Inv :=
    State.Inv.foldl h fun _ _ h => h.agentWrite

theorem State.Inv.serviceEnds {r : RunnerId} {mapped : Bool} (h : s.Inv) : (s.serviceEnds r mapped).Inv := by
  unfold State.serviceEnds
  grind [State.inv_iff, State.Inv.requestDone, State.Inv.withRunner, State.Inv.mapR, State.Inv.reply, State.Inv.unsaved,
    State.Inv.peersServed]

theorem State.Inv.execFaultServiceComplete {r : RunnerId} {mapping : Option (List (Nat × Word))} (h : s.Inv) :
    NextInv (execFaultServiceComplete r mapping s) := by
  unfold Machine.execFaultServiceComplete
  grind [NextInv, State.Inv.serviceEnds, State.Inv.writeEntries]

theorem State.Inv.execHostCompletion {r : RunnerId} {answer : Reply} (h : s.Inv) :
    NextInv (execHostCompletion r answer s) := by
  unfold Machine.execHostCompletion
  grind [NextInv, State.Inv.reply]

theorem State.Inv.farContribution {r : RunnerId} {module : Nat} {bytes : List Byte} (h : s.Inv) :
    ∀ t, s.farContribution r module bytes = some t → t.Inv := by
  unfold State.farContribution
  grind [State.inv_iff, State.Inv.setPart]

theorem State.Inv.listReply {r : RunnerId} {l : Nat × List OutAccess} {rest : List (Nat × List OutAccess)} {x : Reply}
    (h : s.Inv) : (s.listReply r l rest x).Inv := h.withRunner fun _ h => h

theorem State.Inv.packedReply {r : RunnerId} {module : Nat} {x : Reply} (h : s.Inv) : (s.packedReply r module x).Inv :=
    by
  unfold State.packedReply
  grind [State.inv_iff, State.Inv.answered, State.Inv.listReply]

theorem State.Inv.execFabricResponse {r : RunnerId} {module : Nat} {answer : Reply} (h : s.Inv) :
    NextInv (execFabricResponse r module answer s) := by
  unfold Machine.execFabricResponse
  grind [NextInv, State.Inv.packedReply, State.Inv.answered, State.Inv.reply, State.Inv.farContribution]

theorem State.Inv.setFabric {r : RunnerId} {m : Nat} (h : s.Inv) : (s.setFabric r m).Inv := h.withRunner fun _ h => h

theorem State.Inv.abandon {r : RunnerId} {m : Nat} {a : OutAccess} (h : s.Inv) : (s.abandon r m a).Inv := by
  unfold State.abandon
  grind [State.Inv.freeBytes, State.Inv.reply]

theorem State.Inv.abandonList {r : RunnerId} {l : Nat × List OutAccess} (h : s.Inv) : (s.abandonList r l).Inv := by
  have hl {as : List OutAccess} {x : List (List Byte) × State} (hx : x.2.Inv) :
      (as.foldl (fun (x : List (List Byte) × State) a =>
        let (bs, s) := x.2.freeBytes (max 8 (accLen a)); (x.1 ++ [bs], s)) x).2.Inv := by
    induction as generalizing x with
    | nil => exact hx
    | cons a as ih => exact ih hx
  exact State.Inv.packedReply (hl h)

theorem State.Inv.abandonAccesses {part m : Nat} (h : s.Inv) : (s.abandonAccesses part m).Inv := by
  unfold State.abandonAccesses
  grind [State.inv_iff, State.Inv.foldl, State.Inv.abandon, State.Inv.setFabric, State.Inv.abandonList]

theorem State.Inv.abandonChunk {c : CopyRec} {n : Nat} (h : s.Inv) : (s.abandonChunk c n).Inv := by
  unfold State.abandonChunk
  grind [State.inv_iff, State.Inv.foldl, State.Inv.freeBytes, State.Inv.writeFor, State.Inv.noteChunk]

theorem State.Inv.abandonCopies {part m : Nat} (h : s.Inv) : (s.abandonCopies part m).Inv := by
  unfold State.abandonCopies
  grind [State.inv_iff, State.Inv.foldl, State.Inv.abandonChunk, State.Inv.setFabric]

theorem State.Inv.abandonCollectives {part m : Nat} (h : s.Inv) : (s.abandonCollectives part m).Inv :=
    State.Inv.foldl h fun _ _ h => h.setFabric

theorem State.Inv.endFabricWaits (h : s.Inv) : (s.endFabricWaits).Inv := by
  unfold State.endFabricWaits
  grind [State.inv_iff, State.Inv.foldl, State.Inv.withRunner, State.Inv.recheck]

theorem State.Inv.giveUpSent {part module : Nat} (h : s.Inv) : (s.giveUpSent part module).Inv := h

theorem State.Inv.loseModule {part module : Nat} (h : s.Inv) : (s.loseModule part module).Inv := by
  unfold State.loseModule
  grind [State.inv_iff, State.Inv.abandonAccesses, State.Inv.abandonCopies, State.Inv.abandonCollectives,
    State.Inv.giveUpSent, State.Inv.endFabricWaits]

theorem State.Inv.execFabricTimeout {module : Nat} (h : s.Inv) : NextInv (execFabricTimeout module s) := by
  unfold Machine.execFabricTimeout
  grind [NextInv, State.Inv.loseModule]

theorem State.Inv.execTileOperationComplete {c : CoreId} (h : s.Inv) : NextInv (execTileOperationComplete c s) := by
  unfold Machine.execTileOperationComplete
  grind [NextInv, State.Inv.setCore]

/-! ### Machine/PowerEvents -/

theorem State.Inv.powerUp {d : Die} {x : LeaseReq} (h : s.Inv) : (s.powerUp d x).Inv := by
  unfold State.powerUp
  grind [State.Inv.setEngine, State.Inv.setDie, State.Inv.retryUnits]

theorem State.Inv.execPowerUpStart {die : Nat} (h : s.Inv) : NextInv (execPowerUpStart die s) := by
  unfold Machine.execPowerUpStart
  grind [NextInv, State.Inv.powerUp]

theorem State.Inv.wokenOctant {e : Engine} {c : CoreId} (h : s.Inv) : (s.wokenOctant e c).Inv := by
  unfold State.wokenOctant
  grind [State.inv_iff, State.Inv.toHold, State.Inv.setEngine, State.Inv.setCore, State.Inv.grantWoken]

theorem State.Inv.woken {x : Engine} (h : s.Inv) : (s.woken x).Inv := by
  unfold State.woken
  grind [State.Inv.addEnergy, State.Inv.toHold, State.Inv.giveEngine, State.Inv.wokenOctant]

theorem State.Inv.endLostWaits (h : s.Inv) : (s.endLostWaits).Inv := by
  unfold State.endLostWaits
  grind [State.inv_iff, State.Inv.foldl, State.Inv.withRunner, State.Inv.recheck]

theorem State.Inv.execWakeComplete {e : EngineId} (h : s.Inv) : NextInv (execWakeComplete e s) := by
  unfold Machine.execWakeComplete
  grind [NextInv, State.Inv.woken, State.Inv.keepBudgets, State.Inv.endLostWaits]

theorem State.Inv.execHoldExpiry {e : EngineId} (h : s.Inv) : NextInv (execHoldExpiry e s) := by
  unfold Machine.execHoldExpiry
  grind [NextInv, State.Inv.sleepEngine]

theorem State.Inv.handTo {e : EngineId} {r : RunnerId} (h : s.Inv) : (s.handTo e r).Inv := by
  unfold State.handTo
  grind [State.Inv.setEngine, State.Inv.withRunner, State.Inv.recheck, State.Inv.sleepEngine]

theorem State.Inv.execEvictionEnd {e : EngineId} (h : s.Inv) : NextInv (execEvictionEnd e s) := by
  unfold Machine.execEvictionEnd
  grind [State.inv_iff, NextInv, State.Inv.unsaved, State.Inv.handTo, State.Inv.retryUnits, State.Inv.endLostWaits,
    State.Inv.sleepEngine]

theorem State.Inv.chargeHeat {part heat core : Nat} (h : s.Inv) : (s.chargeHeat part heat core).Inv := by
  unfold State.chargeHeat
  grind [State.Inv.foldl, State.Inv.chargeRunner, State.Inv.chargeAttach, State.Inv.addEnergy]

theorem State.Inv.execEcntUpdate {part heat coreMicrojoules : Nat} (h : s.Inv) :
    NextInv (execEcntUpdate part heat coreMicrojoules s) := by
  unfold Machine.execEcntUpdate
  grind [NextInv, State.Inv.chargeHeat]

theorem State.Inv.reallocateAll (h : s.Inv) : (s.reallocateAll).Inv := State.Inv.foldl h fun _ _ h => h.reallocate

theorem State.Inv.setCooling {c : Cooling} (h : s.Inv) : (s.setCooling c).Inv := State.Inv.reallocateAll h

theorem State.Inv.execCoolingModeDeclare {m : CoolMode} (h : s.Inv) : NextInv (execCoolingModeDeclare m s) := by
  unfold Machine.execCoolingModeDeclare
  grind [State.inv_iff, NextInv]

theorem State.Inv.execCoolingRowRaise (h : s.Inv) : NextInv (execCoolingRowRaise s) := by
  unfold Machine.execCoolingRowRaise
  dsimp only
  split
  · exact h.setCooling
  · exact h

theorem State.Inv.setDroop {d : Droop} (h : s.Inv) : (s.setDroop d).Inv := h

theorem State.Inv.evictIdle (h : s.Inv) : (s.evictIdle).Inv := State.Inv.foldl h fun _ _ h => h.evictOrderly

theorem State.Inv.tellWithdrawn {r : RunnerId} (h : s.Inv) : (s.tellWithdrawn r).Inv := h.withRunner fun _ h => h

theorem State.Inv.withdrawEntry {die : Nat} {x : LeaseReq} (h : s.Inv) : (s.withdrawEntry die x).Inv := by
  unfold State.withdrawEntry
  grind [State.inv_iff, State.Inv.withdraw, State.Inv.withRunner, State.Inv.setSlot, State.Inv.tellWithdrawn,
    State.Inv.leaveUnit]

theorem State.Inv.withdrawOver (h : s.Inv) : (s.withdrawOver).Inv := by
  unfold State.withdrawOver
  grind [State.inv_iff, State.Inv.foldl, State.Inv.withdrawEntry, State.Inv.leaveUnit, State.Inv.tellWithdrawn]

theorem State.Inv.enterLevel1 (h : s.Inv) : (s.enterLevel1).Inv := h

theorem State.Inv.restartShake (h : s.Inv) : (s.restartShake).Inv := State.Inv.ite h h

theorem State.Inv.enterLevel2 (h : s.Inv) : (s.enterLevel2).Inv := by
  unfold State.enterLevel2
  grind [State.Inv.foldl, State.Inv.setDroop, State.Inv.restartShake, State.Inv.cutAll, State.Inv.evictIdle,
    State.Inv.withdrawOver, State.Inv.evictOver]

theorem State.Inv.execDroopSample {millivolts : Nat} (h : s.Inv) : NextInv (execDroopSample millivolts s) := by
  unfold Machine.execDroopSample
  grind [NextInv, State.Inv.setDroop, State.Inv.enterLevel1, State.Inv.enterLevel2, State.Inv.endLostWaits]

theorem State.Inv.stopAll (h : s.Inv) : (s.stopAll).Inv := State.Inv.foldl h fun _ _ h => h.askStop

theorem State.Inv.startCheckpoint (h : s.Inv) : (s.startCheckpoint).Inv := State.Inv.ite h (State.Inv.stopAll h)

theorem State.Inv.enterLevel3 (h : s.Inv) : (s.enterLevel3).Inv := by
  unfold State.enterLevel3
  grind [State.inv_iff, State.Inv.enterLevel1, State.Inv.enterLevel2, State.Inv.restartShake, State.Inv.setDroop,
    State.Inv.startCheckpoint, State.Inv.stopAll]

theorem State.Inv.execDroopRideThroughExpiry (h : s.Inv) : NextInv (execDroopRideThroughExpiry s) := by
  unfold Machine.execDroopRideThroughExpiry
  dsimp only
  split
  · exact h.enterLevel3.endLostWaits
  · exact h

theorem State.Inv.execHoldUpWarning (h : s.Inv) : NextInv (execHoldUpWarning s) := by
  unfold Machine.execHoldUpWarning
  grind [NextInv, State.Inv.setDroop, State.Inv.enterLevel3, State.Inv.endLostWaits]

theorem State.Inv.resumeQueues {since : Nat} (h : s.Inv) : (s.resumeQueues since).Inv := h

theorem State.Inv.execDroopLevelExit (h : s.Inv) : NextInv (execDroopLevelExit s) := by
  unfold Machine.execDroopLevelExit
  dsimp only
  split
  · exact h.resumeQueues
  · split <;> exact h

theorem State.Inv.execClockStretchStep (h : s.Inv) : NextInv (execClockStretchStep s) := by
  unfold Machine.execClockStretchStep
  grind [NextInv, State.Inv.setDroop]

theorem State.Inv.execClockRecoverStep (h : s.Inv) : NextInv (execClockRecoverStep s) := by
  unfold Machine.execClockRecoverStep
  grind [NextInv, State.Inv.setDroop]

theorem State.Inv.unwake {e : Engine} (h : s.Inv) : (s.unwake e).Inv := by
  unfold State.unwake
  grind [State.Inv.sleepEngine, State.Inv.setDie]

theorem State.Inv.unholdPend {die : Nat} (h : s.Inv) : (s.unholdPend die).Inv := by
  unfold State.unholdPend
  grind [State.inv_iff, State.Inv.foldl, State.Inv.setCore, State.Inv.unwake, State.Inv.sleepEngine]

theorem State.Inv.trip {die : Nat} (h : s.Inv) : (s.trip die).Inv := by
  unfold State.trip
  grind [State.Inv.foldl, State.Inv.setDie, State.Inv.cutAll, State.Inv.emergency, State.Inv.unwake,
    State.Inv.unholdPend]

theorem State.Inv.untrip {die : Nat} (h : s.Inv) : (s.untrip die).Inv := h

theorem State.Inv.execThermalSample {die celsius : Nat} (h : s.Inv) : NextInv (execThermalSample die celsius s) := by
  unfold Machine.execThermalSample
  grind [NextInv, State.Inv.setDie, State.Inv.trip, State.Inv.endLostWaits, State.Inv.untrip]

theorem State.Inv.execThermalThrottleStep {die : Nat} (h : s.Inv) : NextInv (execThermalThrottleStep die s) := by
  unfold Machine.execThermalThrottleStep
  grind [NextInv, State.Inv.setDie]

theorem State.Inv.execLaneMarginLost {c : CoreId} {group lane : Nat} (h : s.Inv) :
    NextInv (execLaneMarginLost c group lane s) := by
  unfold Machine.execLaneMarginLost
  grind [NextInv, State.Inv.setCore]

theorem State.Inv.execLaneRetirement {c : CoreId} (h : s.Inv) : NextInv (execLaneRetirement c s) := by
  unfold Machine.execLaneRetirement
  grind [NextInv, State.Inv.foldl, State.Inv.emit, State.Inv.setCore, State.Inv.askStop]

/-! ### Machine/Boot -/

theorem State.Inv.mapPacer {f : Pacer → Pacer} (h : s.Inv) (hf : (f s.pacer).flash.slots = s.pacer.flash.slots) :
    (s.mapPacer f).Inv := by
  obtain ⟨hm, hr, hs⟩ := h
  exact ⟨hm, hr, fun n c hc => hs n c (by rw [← hf]; exact hc)⟩

theorem State.Inv.powerCycle (h : s.Inv) : s.powerCycle.Inv := ⟨rfl, fun _ hx => absurd hx List.not_mem_nil, h.2.2⟩

theorem State.Inv.execPowerGoodRestore (h : s.Inv) : NextInv (execPowerGoodRestore s) := by
  unfold Machine.execPowerGoodRestore
  grind [NextInv, State.Inv.powerCycle, State.Inv.mapPacer]

theorem State.Inv.enterStageC {full : Bool} (h : s.Inv) : (s.enterStageC full).Inv := h

theorem State.Inv.endStageA {rom : List Byte} (h : s.Inv) : (s.endStageA rom).Inv := by
  unfold State.endStageA
  grind [State.Inv.mapPacer]

theorem State.Inv.execFirmwareVerify {rom firmware : List Byte} {ok : Bool} (h : s.Inv) :
    NextInv (execFirmwareVerify rom firmware ok s) := by
  unfold Machine.execFirmwareVerify
  grind [NextInv, State.Inv.endStageA, State.Inv.mapPacer, State.Inv.enterStageC]

theorem State.Inv.retest (h : s.Inv) : (s.retest).Inv := h

theorem State.Inv.mapLane {x : CoreId × Nat × Nat} (h : s.Inv) : (s.mapLane x).Inv := h

theorem State.Inv.mapColumn {x : Nat × Nat × Nat} (h : s.Inv) : (s.mapColumn x).Inv :=
    State.Inv.ite (State.Inv.setCluster h) h

theorem State.Inv.excuse {waits : Bool} {dt : Nat} (h : s.Inv) : (s.excuse waits dt).Inv :=
  ⟨h.1, h.2.1.map (·.excused waits dt) fun _ => rfl, h.2.2⟩

theorem State.Inv.powerIsGood (h : s.Inv) : (s.powerIsGood).2.Inv := by
  unfold State.powerIsGood
  grind [State.Inv.freeBool]

theorem State.Inv.leaveLevel3 (h : s.Inv) : (s.leaveLevel3).Inv := h.excuse.setDroop

theorem State.Inv.afterDroopWrite (h : s.Inv) : (s.afterDroopWrite).Inv := by
  unfold State.afterDroopWrite
  grind [State.Inv.powerIsGood, State.Inv.leaveLevel3, State.Inv.mapPacer]

theorem State.Inv.snapshot_ok (h : s.Inv) : Memory.wf s.snapshot.mem ∧ ∀ x ∈ s.snapshot.runners, x.1 = x.2.ident.id :=
    by
  refine ⟨h.1, fun x hx => ?_⟩
  obtain ⟨y, _, rfl⟩ := List.mem_map.mp hx
  rfl

theorem SlotsOk.write {f : Flash} {c : Checkpoint} (hf : SlotsOk f.slots)
    (hc : Memory.wf c.mem ∧ ∀ x ∈ c.runners, x.1 = x.2.ident.id) : SlotsOk (f.write c).slots := by
  intro n d hd
  simp only [Flash.write, Fin.getElem_fin, Vector.getElem_set] at hd
  split at hd
  · exact Option.some.inj hd ▸ hc
  · exact hf n d hd

theorem State.Inv.execCheckpointWriteComplete (h : s.Inv) : NextInv (execCheckpointWriteComplete s) := by
  have hs {u : State} (hu : u.Inv) :
      (s.allAsleep.mapPacer fun p => { p with flash := p.flash.write u.snapshot }).Inv :=
    ⟨h.1, h.allAsleep.2.1, SlotsOk.write h.2.2 hu.snapshot_ok⟩
  unfold Machine.execCheckpointWriteComplete
  split
  · refine State.Inv.ite (State.Inv.afterDroopWrite (hs ?_)) (State.Inv.excuse (hs ?_)) <;>
      exact State.Inv.ite h.allAsleep.excuse h.allAsleep
  · exact h

theorem State.Inv.restoreFrom {c : Checkpoint}
    (h : s.Inv) (hc : Memory.wf c.mem ∧ ∀ x ∈ c.runners, x.1 = x.2.ident.id) :
    (s.restoreFrom c).Inv := by
  unfold State.restoreFrom
  exact State.Inv.foldl ⟨hc.1, hc.2, h.2.2⟩ fun _ _ h => h

theorem SlotsOk.newest {f : Flash} {c : Checkpoint} (hf : SlotsOk f.slots) (hc : f.newest = some c) :
    Memory.wf c.mem ∧ ∀ x ∈ c.runners, x.1 = x.2.ident.id := by
  unfold Flash.newest at hc
  split at hc
  · next a b ha hb =>
    split at hc
    · exact hf 1 c (hb.trans hc)
    · exact hf 0 c (ha.trans hc)
  · next a ha hb => exact hf 0 c (ha.trans hc)
  · exact hf 1 c hc

theorem State.Inv.restoreOutage (h : s.Inv) : s.restoreOutage.Inv := by
  unfold State.restoreOutage
  dsimp only
  split
  · next c hc => exact State.Inv.excuse (State.Inv.restoreFrom h (SlotsOk.newest h.2.2 hc))
  · exact h

theorem State.Inv.execShakedownComplete (h : s.Inv) : NextInv (execShakedownComplete s) := by
  have ht : (s.world.silicon.columns.foldl State.mapColumn (s.world.silicon.lanes.foldl State.mapLane s.retest)).Inv :=
    State.Inv.foldl (State.Inv.foldl h.retest fun _ _ h => h.mapLane) fun _ _ h => h.mapColumn
  unfold Machine.execShakedownComplete
  split
  · dsimp only
    split
    · exact ht.mapPacer rfl
    · exact State.Inv.ite (State.Inv.restoreOutage (ht.mapPacer rfl)) (ht.mapPacer rfl)
  · exact h

/-! ### Machine/Fabric -/

theorem State.Inv.execFlitReplay {port seq : Nat} (h : s.Inv) : NextInv (execFlitReplay port seq s) := by
  unfold Machine.execFlitReplay
  split
  · split
    · exact h.mapPacer rfl
    · exact h
  · exact h

theorem State.Inv.portDown {i : Nat} {retrain : Bool} (h : s.Inv) : (s.portDown i retrain).Inv :=
  State.Inv.resend (h.mapPacer rfl)

theorem State.Inv.portUp {i lanes : Nat} (h : s.Inv) : (s.portUp i lanes).Inv := State.Inv.resend (h.mapPacer rfl)

theorem State.Inv.execPortRetrainComplete {port lanes : Nat} (h : s.Inv) :
    NextInv (execPortRetrainComplete port lanes s) := by
  unfold Machine.execPortRetrainComplete
  split
  · exact State.Inv.ite h (State.Inv.ite h.portUp (State.Inv.ite (h.mapPacer rfl) h))
  · exact h

theorem State.Inv.execPageMigration {part : Nat} {va : Word} {dest : Nat} (h : s.Inv) :
    NextInv (execPageMigration part va dest s) := by
  unfold Machine.execPageMigration
  grind [NextInv, State.Inv.startMove]

theorem State.Inv.setPath {m port : Nat} {cut : Option Bool} (h : s.Inv) : (s.setPath m port cut).Inv := by
  cases cut with
  | some saving => exact State.Inv.resend (State.Inv.ite h h)
  | none => exact State.Inv.resend h

theorem State.Inv.upset {u : Upset} (h : s.Inv) : (s.upset u).Inv := by
  cases u with
  | lane b => exact h
  | column d c half k => exact h
  | vreg r v w => exact State.Inv.ite (h.withRunner fun _ h => h) h
  | sreg r n => exact State.Inv.ite h (h.withRunner fun _ h => h)
  | memory k => exact State.Inv.ite h h
  | path m port cut => exact h.setPath

/-! ### Machine/Sched -/

theorem State.Inv.putTeam {pkg : Package} {ht : Heat} {t : Team} {pl : Place} (h : s.Inv) :
    (s.putTeam pkg ht t pl).Inv := by
  unfold State.putTeam
  grind [State.Inv.resumeAt, State.Inv.startTeam]

theorem State.Inv.drainFor {p : Part} {stat : TStat} {only : Option TeamId} {pl : Place} (h : s.Inv) :
    (s.drainFor p stat only pl).Inv := by
  unfold State.drainFor
  grind [State.inv_iff, State.Inv.drainCores]

theorem State.Inv.placeNext {part : Nat} {stat : TStat} {only : Option TeamId} {pl : Place} (h : s.Inv) :
    NextInv (s.placeNext part stat only pl) := by
  unfold State.placeNext
  split
  · exact h
  · split
    · exact h
    · split
      · split
        · exact State.Inv.putTeam h
        · exact h.drainFor
      · exact h.drainFor

theorem State.Inv.execStarvationTimer {r : RunnerId} {at_ : Place} (h : s.Inv) :
    NextInv (execStarvationTimer r at_ s) := by
  unfold Machine.execStarvationTimer
  split
  · split
    · split
      · exact h.takeOffer.putTeam
      · exact State.Inv.foldl h fun _ _ h => h.askStop
    · exact h
  · exact h

theorem State.Inv.execQueueAging {part queue : Nat} (h : s.Inv) : NextInv (execQueueAging part queue s) := by
  unfold Machine.execQueueAging
  grind [NextInv, State.Inv.setPart]

/-! ### Machine/Tlbinv -/

theorem State.Inv.settleOwn {on : Nat → Bool} (h : s.Inv) : (s.settleOwn on).Inv :=
    State.Inv.landOps (State.Inv.ite h.drainShare h)

theorem State.Inv.execTlbinv {sa : SR} {all : Bool} (h : s.Inv) : NextInv (execTlbinv sa all s) := by
  unfold Machine.execTlbinv
  grind [KeepsInv, KeepsInv.outcome, State.Inv.privileged, State.Inv.settleOwn, State.Inv.dropTlb, State.Inv.advance]

/-! ### Machine/HostEvents -/

theorem State.Inv.fromHost {k : State → State} (h : s.Inv) (hk : (k s).Inv) : NextInv (s.fromHost k) :=
    State.Inv.ite h hk

theorem State.Inv.status {code : Nat} (h : s.Inv) : (s.status code).Inv := h

theorem State.Inv.mailbox {k : State → State} (h : s.Inv) (hk : (k s).Inv) : NextInv (s.mailbox k) :=
  h.fromHost (State.Inv.ite h hk)

theorem State.Inv.order {bad busy refused : Bool} {k : State} (h : s.Inv) (hk : k.Inv) :
    (s.order bad busy refused k).Inv :=
  State.Inv.ite h (State.Inv.ite h (State.Inv.ite h hk))

theorem State.Inv.forPart {part : Nat} {k : Part → State → State} (h : s.Inv) (hk : ∀ p, (k p s).Inv) :
    NextInv (s.forPart part k) := by
  refine h.mailbox ?_
  split
  · exact hk _
  · exact h

theorem State.Inv.execStart {part : Nat} {value : Word} (h : s.Inv) : NextInv (execStart part value s) := by
  unfold Machine.execStart
  grind [State.inv_iff, State.Inv.fromHost, State.Inv.setPart]

theorem State.Inv.execRegisterWrite {part offset : Nat} {value : Word} (h : s.Inv) :
    NextInv (execRegisterWrite part offset value s) := by
  unfold Machine.execRegisterWrite
  grind [State.inv_iff, State.Inv.fromHost, State.Inv.setPart]

theorem State.Inv.readRegister {p : Part} {offset : Nat} (h : s.Inv) : (s.readRegister p offset).2.Inv := by
  unfold State.readRegister
  grind [State.Inv.freeBytes]

theorem State.Inv.hostAccess {part : Nat} {acc : OutAccess} (h : s.Inv) : (s.hostAccess part acc).2.Inv := by
  unfold State.hostAccess
  grind [State.inv_iff, State.Inv.readRegister, State.Inv.accessAt]

theorem State.Inv.execHostMemoryAccess {part : Nat} {acc : OutAccess} (h : s.Inv) :
    NextInv (execHostMemoryAccess part acc s) := by
  unfold Machine.execHostMemoryAccess
  grind [State.Inv.fromHost, State.Inv.hostAccess, State.Inv.emit]

theorem State.Inv.execConfig {part : Nat} {rec : PartRecord} (h : s.Inv) : NextInv (execConfig part rec s) := by
  unfold Machine.execConfig
  grind [State.inv_iff, State.Inv.mailbox, State.Inv.status, State.Inv.setPart, State.Inv.reallocateAll]

theorem State.Inv.loaderWrite {part : Nat} {cells : List Host.Cell} (h : s.Inv) : (s.loaderWrite part cells).Inv :=
    h.writeFor

theorem State.Inv.writeImages {part : Nat} {l : List (Nat × List Byte)} (h : s.Inv) : (s.writeImages part l).Inv :=
    State.Inv.foldl h fun _ _ h => h.loaderWrite

theorem State.Inv.writeGlobal {part : Nat} {root : Word} {x : Nat × Byte} (h : s.Inv) :
    (s.writeGlobal part root x).Inv := by
  unfold State.writeGlobal
  grind [State.inv_iff, State.Inv.loaderWrite]

theorem State.Inv.writePlan {part : Nat} {g : Package} (h : s.Inv) : (s.writePlan part g).Inv :=
    State.Inv.foldl h.writeImages fun _ _ h => h.writeGlobal

theorem State.Inv.clearSlice {g : Pinned} (h : s.Inv) : (s.clearSlice g).Inv := by
  unfold State.clearSlice
  grind [State.Inv.foldl, State.Inv.flushLine]

theorem State.Inv.execLoadmeet {part : Nat} {pkg : Package} {group : Option (Nat × List Nat)} (h : s.Inv) :
    NextInv (execLoadmeet part pkg group s) := by
  unfold Machine.execLoadmeet
  grind [State.Inv.foldl, State.Inv.forPart, State.Inv.order, State.Inv.clearSlice, State.Inv.writePlan,
    State.Inv.setPart, State.Inv.status]

theorem State.Inv.execUnloadmeet {part : Nat} (h : s.Inv) : NextInv (execUnloadmeet part s) := by
  unfold Machine.execUnloadmeet
  grind [State.Inv.forPart, State.Inv.order, State.Inv.setPart, State.Inv.status]

theorem State.Inv.execOccupread {part die slice : Nat} (h : s.Inv) : NextInv (execOccupread part die slice s) := by
  unfold Machine.execOccupread
  grind [State.Inv.forPart, State.Inv.order, State.Inv.emit, State.Inv.status]

theorem State.Inv.execMigrate {part : Nat} {va : Word} {dest : Nat} (h : s.Inv) :
    NextInv (execMigrate part va dest s) :=
  h.forPart fun _ => State.Inv.order h (State.Inv.getD_map h fun _ => h.startMove)

theorem State.Inv.execLeasetab {part : Nat} {table : List Nat} (h : s.Inv) : NextInv (execLeasetab part table s) := by
  unfold Machine.execLeasetab
  grind [State.Inv.forPart, State.Inv.order, State.Inv.setPart, State.Inv.status]

theorem State.Inv.answerLaunch {a : Admission} {ok : Bool} (h : s.Inv) : (s.answerLaunch a ok).Inv := by
  unfold State.answerLaunch
  grind [State.inv_iff, State.Inv.reply]

theorem State.Inv.failNode {part : Nat} {ht : Heat} (h : s.Inv) : (s.failNode part ht).Inv := by
  unfold State.failNode
  grind [State.Inv.setPart]

theorem State.Inv.decide {p : Part} {a : Admission} {ok : Bool} (h : s.Inv) : (s.decide p a ok).Inv := by
  unfold State.decide
  grind [State.Inv.setPart, State.Inv.admitHeat, State.Inv.answerLaunch, State.Inv.failNode]

theorem State.Inv.execAdmitHeat {part heat : Nat} {ok : Bool} (h : s.Inv) : NextInv (execAdmitHeat part heat ok s) := by
  unfold Machine.execAdmitHeat
  grind [State.Inv.forPart, State.Inv.status, State.Inv.order, State.Inv.decide]

theorem State.Inv.execScrubset {part sram lpddr : Nat} (h : s.Inv) : NextInv (execScrubset part sram lpddr s) := by
  unfold Machine.execScrubset
  grind [State.Inv.forPart, State.Inv.order, State.Inv.setPart, State.Inv.status]

theorem State.Inv.linkOrder {port : Nat} {o : LinkOrder} (h : s.Inv) : (s.linkOrder port o).Inv := by
  cases o with
  | mode m => exact h
  | retrain => exact h.portDown
  | degrade => exact h

theorem State.Inv.execLinkctl {port : Nat} {order : LinkOrder} (h : s.Inv) : NextInv (execLinkctl port order s) := by
  unfold Machine.execLinkctl
  grind [State.Inv.mailbox, State.Inv.status, State.Inv.order, State.Inv.linkOrder]

theorem State.Inv.execShakedown {full : Bool} (h : s.Inv) : NextInv (execShakedown full s) := by
  unfold Machine.execShakedown
  grind [State.Inv.mailbox, State.Inv.order, State.Inv.enterStageC, State.Inv.status]

theorem State.Inv.execRestore (h : s.Inv) : NextInv (execRestore s) := by
  refine h.mailbox (State.Inv.order h ?_)
  cases hc : s.pacer.flash.newest with
  | none => exact h
  | some c => exact h.restoreFrom (SlotsOk.newest h.2.2 hc)

theorem State.Inv.execAttest {nonce : List Byte} (h : s.Inv) : NextInv (execAttest nonce s) := by
  unfold Machine.execAttest
  grind [State.Inv.mailbox, State.Inv.emit, State.Inv.status]

/-! ### Machine/Dispatch -/

/-- Every instruction and every event keeps the invariant: instructions of one group by the lemma of what they share. -/
theorem State.Inv.exec {i : Instr} (h : s.Inv) : NextInv (exec i s) := by
  unfold Machine.exec
  cases i with
  | add | sub | and | or | xor | andn | shl | shr | sar | rol | slt | sltu | seq | sne | min | max | minu | maxu
    | mul | mulh | mulhu | div | divu | rem | remu | bfx | bfxu | bfi | sel => exact h.aluOp
  | clz | ctz | popc | brev | lih => exact h.unaryOp
  | addpc | fclass | jal | lstat | equery | nop | shockEvent | tiltTimeout => exact h
  | fadd | fsub | fmul | ffma | fdiv | fmin | fmax => exact h.falu2
  | fsqrt | fcmp | fcvt => exact KeepsInv.outcome h.falu
  | ld => exact KeepsInv.outcome h.doLoad
  | st => exact KeepsInv.outcome h.doStore
  | amoadd | amoand | amoor | amoxor | amomin | amomax | amominu | amomaxu | amoswap | amocas
    | amofadd => exact KeepsInv.outcome h.doAmo
  | beq | bne | blt | bge | bltu | bgeu => exact h.branch
  | jalr => exact h.execJalr
  | rdcr => exact KeepsInv.outcome (h.crAccess h)
  | wrcr => exact h.execWrcr
  | setcr | clrcr => exact h.updateCr
  | syscall | brk => exact KeepsInv.outcome (h.afterVector h)
  | fence => exact KeepsInv.outcome (h.report h.doFence)
  | tlbinv => exact h.execTlbinv
  | prefetch => exact h.execPrefetch
  | cflush => exact KeepsInv.outcome h.doLine
  | cinv => exact h.execCinv
  | stripBegin => exact KeepsInv.outcome (h.afterVector h.doStripBegin)
  | stripNext => exact KeepsInv.outcome (h.afterVector h.doStripNext)
  | qpop => exact KeepsInv.outcome (KeepsInv.bind h.popScalar fun _ _ h => h)
  | qpeek => exact h.execQpeek
  | qpush => exact h.execQpush
  | bq | bqz => exact KeepsInv.outcome h.doBq
  | vadd | vsub | vmul | vdiv | vmin | vmax | vfma | vfms | vfnma => exact h.arith
  | vabs | vneg | vsqrt => exact h.arith1
  | vand | vor | vxor | vnot => exact h.passVector fun _ h => h.doLogic
  | vshl | vshr | vsar => exact h.passVector fun _ h => h.doShift
  | vcvt | vcvtsr => exact h.passVector fun _ h => h.doCvt
  | vmov => exact h.passVector fun _ h => h.doMov
  | vbcast => exact h.passVector fun _ h => h.doBcast
  | vbcastScalar => exact h.passVector fun _ h => h.doBcastScalar
  | vsel => exact h.passVector fun _ h => h.doSel
  | vtwosum => exact h.passVector fun _ h => h.doTwosum
  | vscalb => exact h.passVector fun _ h => h.doScalb
  | vqpush => exact h.passVector fun _ h => h.doVqpush
  | vqpop => exact h.passVector fun _ h => h.doVqpop
  | vcmp => exact h.passVector fun _ h => h.doCmp
  | vmpopc | vmfirst | vmany => exact h.passVector fun _ h => h.doCount
  | vslideup => exact h.passVector fun _ h => h.doSlideup
  | vslidedn => exact h.passVector fun _ h => h.doSlidedn
  | vperm => exact h.passVector fun _ h => h.doVperm
  | vcompress => exact h.passVector fun _ h => h.doCompress
  | vexpand => exact h.passVector fun _ h => h.doExpand
  | vrev => exact h.passVector fun _ h => h.doVrev
  | vzip => exact h.passVector fun _ h => h.doVzip
  | vunzipe | vunzipo => exact h.passVector fun _ h => h.doVunzip
  | vinsert => exact h.passVector fun _ h => h.doInsert
  | vredsum | vredmin | vredmax | vredand | vredor => exact h.passVector fun _ h => h.doRed
  | vredts => exact h.passVector fun _ h => h.doRedts
  | vscan => exact h.passVector fun _ h => h.doScan
  | vcfgw | vcfgwTag => exact h.passVector fun _ h => h.doVcfgw
  | vtag => exact h.passVector fun _ h => h.doVtag
  | vgettag => exact h.passVector fun _ h => h.doVgettag
  | vidx => exact h.passVector fun _ h => h.doVidx
  | vsetvl | vsetvlQueue => exact h.passVector fun _ h => h.doVsetvl
  | vscget => exact h.passVector fun _ h => h.doVscget
  | vscset => exact h.passVector fun _ h => h.doVscset
  | vld | vlds | vldx => exact h.passVector fun _ h => h.doVload
  | vldff => exact h.passVector fun _ h => h.doVldff
  | vst | vsts | vstxo => exact h.passVector fun _ h => h.doVstore
  | vstxu => exact h.passVector fun _ h => h.doVstxu
  | vamoadd | vamomin | vamomax | vamofadd => exact h.passVector fun _ h => h.doVamo
  | stream => exact h.execStream
  | streamseg => exact h.execStreamseg
  | copy => exact h.execCopy
  | tshape => exact h.execTshape
  | tlda | tldb => exact h.passTile (fun _ _ h => h.latchChecks) fun _ h => h.doLatch
  | tldax => exact h.execTldax
  | tldv => exact h.passTile (fun _ _ h => h.tldvChecks) fun _ h => h.doTldv
  | tmma => exact h.passTile (fun _ _ h => h) fun _ h => h.doTmma
  | tzero => exact h.passTile (fun _ _ h => h) fun _ h => h.doTzero
  | tst => exact h.passTile (fun _ _ h => h.tstChecks) fun _ h => h.doTst
  | tstv => exact h.passTile (fun _ _ h => h.tstvChecks) fun _ h => h.doTstv
  | tsave => exact h.passTile (fun _ _ h => KeepsInv.bind h.tileKey fun _ _ h => h) fun _ h => h.doTsave
  | trestore => exact h.passTile (fun _ _ h => h.trestoreChecks) fun _ h => h.doTrestore
  | waitw => exact KeepsInv.outcome (h.enterWait (KeepsInv.bind h.compat fun _ _ h => h) fun _ _ h => h.pollWord)
  | arrive => exact KeepsInv.outcome (h.afterVector (State.Inv.unstick (State.Inv.arriveOn h.beforeArrival)))
  | waitb => exact h.execWaitb
  | syncb => exact h.execSyncb
  | waitbm => exact h.execWaitbm
  | bmtest => exact h.execBmtest
  | bmclr => exact h.execBmclr
  | lease => exact KeepsInv.outcome (h.afterVector h.endProt.doLease)
  | leaseW => exact KeepsInv.outcome (h.enterWait h.endProt fun _ _ h => h.pollLease)
  | release => exact h.execRelease
  | sfn => exact h.passVector fun _ h => h.doSfn
  | xsort => exact h.passVector fun _ h => h.doXsort
  | xtopk => exact h.passVector fun _ h => h.doXtopk
  | xhist => exact h.passVector fun _ h => h.doXhist
  | cred | cgather | cbcast => exact h.passCollective
  | launch => exact KeepsInv.outcome (h.afterVector h.doLaunch)
  | ljoin => exact KeepsInv.outcome (h.enterWait (KeepsInv.bind h.compat fun _ _ h => h) fun _ _ h => h.pollJoin)
  | lcancel => exact h.execLcancel
  | vrng => exact h.passVector fun _ h => h.doVrng
  | rngseed => exact h.passVector fun _ h => h.doRngseed
  | waitConditionMet => exact h.lookAtWait
  | waitDeadline => exact h.execWaitDeadline
  | copyChunkLanded => exact h.execCopyChunkLanded
  | streamGroupLanded => exact h.execStreamGroupLanded
  | faultServiceComplete => exact h.execFaultServiceComplete
  | preemptRequest => exact h.execPreemptRequest
  | teamSave => exact h.execTeamSave
  | teamResume | dispatch => exact h.placeNext
  | starvationTimer => exact h.execStarvationTimer
  | queueAging => exact h.execQueueAging
  | powerUpStart => exact h.execPowerUpStart
  | wakeComplete => exact h.execWakeComplete
  | holdExpiry => exact h.execHoldExpiry
  | evictionEnd => exact h.execEvictionEnd
  | ecntUpdate => exact h.execEcntUpdate
  | coolingModeDeclare => exact h.execCoolingModeDeclare
  | coolingSample => exact h.setCooling
  | droopSample => exact h.execDroopSample
  | thermalSample => exact h.execThermalSample
  | thermalThrottleStep => exact h.execThermalThrottleStep
  | laneMarginLost => exact h.execLaneMarginLost
  | laneRetirement => exact h.execLaneRetirement
  | hotnessFlush => exact h.flushHot
  | pageMigration => exact h.execPageMigration
  | patrolScrub => exact State.Inv.ite h h
  | fabricAccessRequest | peerGatherList => exact h.serveOnce
  | flitReplay => exact h.execFlitReplay
  | portErrorThreshold => exact State.Inv.ite h.portDown h
  | portRetrainComplete => exact h.execPortRetrainComplete
  | fabricTimeout => exact h.execFabricTimeout
  | start => exact h.execStart
  | registerWrite => exact h.execRegisterWrite
  | config => exact h.execConfig
  | loadmeet => exact h.execLoadmeet
  | unloadmeet => exact h.execUnloadmeet
  | occupread => exact h.execOccupread
  | migrate => exact h.execMigrate
  | leasetab => exact h.execLeasetab
  | admitHeat => exact h.execAdmitHeat
  | scrubset => exact h.execScrubset
  | linkctl => exact h.execLinkctl
  | shakedown => exact h.execShakedown
  | attest => exact h.execAttest
  | firmwareVerify => exact h.execFirmwareVerify
  | unassignedPattern => exact KeepsInv.outcome h
  | tileOperationComplete => exact h.execTileOperationComplete
  | fabricResponse => exact h.execFabricResponse
  | hostCompletion => exact h.execHostCompletion
  | hostMemoryAccess => exact h.execHostMemoryAccess
  | eret => exact h.execEret
  | exit => exact h.execExit
  | ifence => exact h.execIfence
  | stripExit => exact KeepsInv.outcome (h.afterVector h.doStripExit)
  | attach => exact KeepsInv.outcome (h.afterVector h.doAttach)
  | attachW => exact KeepsInv.outcome (h.enterWait h fun _ _ h => h.pollAttach)
  | detach => exact h.execDetach
  | mfence => exact h.execMfence
  | mwait => exact KeepsInv.outcome (h.afterVector (KeepsInv.bind h.tileReady fun _ _ h => h.tileWait))
  | yield => exact KeepsInv.outcome (h.report h)
  | coolingRowRaise => exact h.execCoolingRowRaise
  | droopRideThroughExpiry => exact h.execDroopRideThroughExpiry
  | holdUpWarning => exact h.execHoldUpWarning
  | droopLevelExit => exact h.execDroopLevelExit
  | clockStretchStep => exact h.execClockStretchStep
  | clockRecoverStep => exact h.execClockRecoverStep
  | checkpoint => exact h.mailbox (h.order h.startCheckpoint)
  | restore => exact h.execRestore
  | checkpointWriteComplete => exact h.execCheckpointWriteComplete
  | powerGood => exact State.Inv.ite h h.powerCycle
  | powerGoodRestore => exact h.execPowerGoodRestore
  | shakedownComplete => exact h.execShakedownComplete

/-! ### Machine/Fetch -/

theorem State.Inv.fetchBytes (h : s.Inv) : KeepsInv s.fetchBytes := by
  refine KeepsInv.bind h.check fun a t ht => ?_
  dsimp only
  split
  · split
    · exact ht.loadFrom
    · exact ht.readAt
  · exact ht

theorem State.Inv.fetch (h : s.Inv) : KeepsInv (s.fetch) := by
  unfold State.fetch
  grind [KeepsInv, KeepsInv.bind, State.Inv.fetchBytes, State.Inv.readScalars, State.Inv.stopTrap]

theorem State.Inv.elapse {dt : Nat} (h : s.Inv) : (s.elapse dt).Inv := State.Inv.ite h h

theorem State.Inv.beforeInstr {i : Instr} (h : s.Inv) : (s.beforeInstr i).Inv := by
  unfold State.beforeInstr
  grind [State.Inv.mapR]

theorem State.Inv.afterInstr {pc : Word} (h : s.Inv) : (s.afterInstr pc).Inv := h.drain.settleStep

/-! ### Machine/Step -/

theorem State.Inv.runInstr {i : Instr} {t : State} (h : t.Inv) : NextInv (s.runInstr i t) := by
  have he : NextInv (Machine.exec i (t.beforeInstr i)) := h.beforeInstr.exec
  unfold State.runInstr
  split
  · next e =>
    rw [e] at he
    exact State.Inv.afterInstr he
  · exact he

theorem State.Inv.runTurn (h : s.Inv) : NextInv s.runTurn := by
  have hd : (s.drain false).Inv := h.drain
  have hf : KeepsInv (s.drain false).fetch := hd.fetch
  unfold State.runTurn
  dsimp only
  split
  · exact hd.stopRunner.settleStep
  · split
    · split
      · next e =>
        rw [e] at hf
        exact State.Inv.runInstr hf
      · next e =>
        rw [e] at hf
        exact State.Inv.afterInstr (KeepsInv.finish hf)
    · exact hd.settleStep

theorem State.Inv.runPart {n : Nat} (h : s.Inv) : NextInv (s.runPart n) := by
  have ht : NextInv { s with quota := some n }.runTurn := State.Inv.runTurn h
  unfold State.runPart
  split
  · next e =>
    rw [e] at ht
    exact ht
  · exact ht

theorem State.Inv.runEvent {i : Instr} (h : s.Inv) : NextInv (s.runEvent i) := by
  have he : NextInv (Machine.exec i s) := h.exec
  unfold State.runEvent
  split
  · split
    · next e =>
      rw [e] at he
      exact State.Inv.settleStep he
    · exact he
  · trivial

/-- Every turn keeps the invariant: time passes, the runner comes to the front, then its instruction or the event acts. -/
theorem State.Inv.step (h : s.Inv) : NextInv (step s) := by
  unfold Machine.step
  split
  · exact h.runTurn
  · exact State.Inv.runEvent (State.Inv.elapse h)
  · exact State.Inv.runTurn (State.Inv.focus (State.Inv.elapse h))
  · exact State.Inv.runPart (State.Inv.focus (State.Inv.elapse h))
  · exact State.Inv.upset (State.Inv.elapse h)
  · exact State.Inv.endStageA (State.Inv.elapse h)

/-- Settles O59: each function of the model that gives a state gives one that meets the invariant. -/
theorem stepKeepsInvariant : Obligations.StepKeepsInvariant := by
  unfold Obligations.StepKeepsInvariant
  intro s t h e
  have hs : NextInv (step s) := h.step
  rw [e] at hs
  exact hs

end Sys2Proof.Machine
end

section
/-! The programmer's state: its values at reset (O60), traps (O19), the control registers (O16) and the SYS group
(O18). -/

namespace Sys2Proof.Machine
variable {s t u : State}

/-! ### Reset -/

theorem reset_inv : State.reset.Inv := by
  refine ⟨rfl, fun _ hx => absurd hx List.not_mem_nil, fun n c hc => ?_⟩
  simp [State.reset, Pacer.reset] at hc

theorem reset_reg (n : SR) : State.reset.reg n = if n = 2 then 0x01FF000300000000 else 0 := by
  revert n
  decide

theorem reset_vreg (n : VR) : State.reset.vreg n = {} := by
  simp [State.reset, State.vreg, Runner.blank, Vect.start]

theorem reset_queues (q : QR) : State.reset.r.queues[q] = [] := by simp [State.reset, Runner.blank]

theorem reset_leases (n : Fin 8) : State.reset.r.leases[n] = none := by simp [State.reset, Runner.blank]

/-- Settles O60: every part is a value of the reset state. -/
theorem resetState : Obligations.ResetState :=
  ⟨reset_inv, rfl, rfl, fun _ => rfl, rfl, rfl, rfl, rfl, rfl, reset_reg, rfl, rfl, rfl, rfl, rfl, reset_vreg, rfl, rfl,
    rfl, reset_queues, reset_leases, rfl, rfl⟩

/-! ### What delivering stores leaves -/

/-- What is left when stores of the running runner perform and lines are acted on: both sides' registers, the queues, the
identity and the strip but for its buffer, heats and teams. -/
structure StoresFrame (s t : State) : Prop where
  scal : t.r.scal = s.r.scal
  vect : t.r.vect = s.r.vect
  queues : t.r.queues = s.r.queues
  ident : t.r.ident = s.r.ident
  prot : t.r.strip.prot = s.r.strip.prot
  active : t.r.strip.active = s.r.strip.active
  ckPc : t.r.strip.ckPc = s.r.strip.ckPc
  heats : t.heats = s.heats
  teams : t.teams = s.teams

theorem StoresFrame.refl : StoresFrame s s := ⟨rfl, rfl, rfl, rfl, rfl, rfl, rfl, rfl, rfl⟩

theorem StoresFrame.trans (h : StoresFrame s t) (k : StoresFrame t u) : StoresFrame s u :=
  ⟨k.scal.trans h.scal, k.vect.trans h.vect, k.queues.trans h.queues, k.ident.trans h.ident, k.prot.trans h.prot,
    k.active.trans h.active, k.ckPc.trans h.ckPc, k.heats.trans h.heats, k.teams.trans h.teams⟩

/-- The same with the later part first, which fixes the state between. -/
theorem StoresFrame.after (k : StoresFrame t u) (h : StoresFrame s t) : StoresFrame s u := h.trans k

theorem StoresFrame.ite {c : Prop} [Decidable c] {a b : State} (ha : StoresFrame s a) (hb : StoresFrame s b) :
    StoresFrame s (if c then a else b) := by
  split
  · exact ha
  · exact hb

theorem StoresFrame.foldl {β : Type} {f : State → β → State} (hf : ∀ t x, StoresFrame t (f t x)) (l : List β) :
    StoresFrame s (l.foldl f s) := by
  induction l generalizing s with
  | nil => exact .refl
  | cons x l ih => exact (hf s x).trans ih

theorem State.transmit_frame (x : Parcel) : StoresFrame s (s.transmit x) := by
  unfold State.transmit
  split <;> exact ⟨rfl, rfl, rfl, rfl, rfl, rfl, rfl, rfl, rfl⟩

theorem State.post_frame (m : OutMsg) (x : Nat × Nat) : StoresFrame s (s.post m x) := by
  unfold State.post
  exact .after (State.transmit_frame _) ⟨rfl, rfl, rfl, rfl, rfl, rfl, rfl, rfl, rfl⟩

theorem State.emit_frame (m : OutMsg) : StoresFrame s (s.emit m) := by
  unfold State.emit
  exact .after (.foldl (fun t x => t.post_frame m x) _) ⟨rfl, rfl, rfl, rfl, rfl, rfl, rfl, rfl, rfl⟩

theorem State.request_frame (part : Nat) (m : OutMsg) : StoresFrame s (s.request part m) := by
  have hp (p : Part) : StoresFrame s (s.setPart p) := ⟨rfl, rfl, rfl, rfl, rfl, rfl, rfl, rfl, rfl⟩
  unfold State.request
  split
  · exact s.emit_frame m
  · exact .ite ((hp _).trans (State.emit_frame m)) (hp _)

theorem State.send_frame (r : RunnerId) (a : Ask) : StoresFrame s (s.send r a) := by
  unfold State.send
  split
  · exact .foldl (fun t x => t.emit_frame _) _
  · split
    · exact s.request_frame _ _
    · exact s.emit_frame _
  · exact s.emit_frame _

theorem State.touchL2_frame (key : Nat) (slice : Option Nat) (part : Nat) (write alloc : Bool) :
    StoresFrame s (s.touchL2 key slice part write alloc) :=
  .ite .refl ⟨rfl, rfl, rfl, rfl, rfl, rfl, rfl, rfl, rfl⟩

theorem State.writeL2_frame (keys : List Nat) (slice : Nat → Option Nat) (part : Nat) (alloc : Bool) :
    StoresFrame s (s.writeL2 keys slice part alloc) := by
  unfold State.writeL2
  exact .trans (.foldl (fun t l => t.touchL2_frame _ _ _ _ _) _) ⟨rfl, rfl, rfl, rfl, rfl, rfl, rfl, rfl, rfl⟩

theorem State.putCells_frame (who : RunnerId) (slice : Nat → Option Nat) (a : StoreAct) :
    StoresFrame s (s.putCells who slice a) := by
  have hw (u : State) (m : List Host.Cell) (p : List (Nat × Nat)) : StoresFrame u { u with mem := m, poison := p } :=
    ⟨rfl, rfl, rfl, rfl, rfl, rfl, rfl, rfl, rfl⟩
  unfold State.putCells
  dsimp only
  split
  · exact (s.writeL2_frame _ _ _ _).trans (hw _ _ _)
  · exact ((s.writeL2_frame _ _ _ _).trans (hw _ _ _)).trans (State.send_frame _ _)

theorem State.staleL1_frame (w : Option (CoreId × RunnerId × Nat)) (cells : List Host.Cell) :
    StoresFrame s (s.staleL1 w cells) := .ite .refl ⟨rfl, rfl, rfl, rfl, rfl, rfl, rfl, rfl, rfl⟩

theorem State.touchTiles_frame (who loads : RunnerId → Bool) (cells : List Host.Cell) :
    StoresFrame s (s.touchTiles who loads cells) := .ite .refl ⟨rfl, rfl, rfl, rfl, rfl, rfl, rfl, rfl, rfl⟩

theorem State.exposeOthers_frame (p : Nat → Bool) : StoresFrame s (s.exposeOthers p) :=
  ⟨rfl, rfl, rfl, rfl, rfl, rfl, rfl, rfl, rfl⟩

theorem State.writeOwn_frame (a : StoreAct) (num : Nat) : StoresFrame s (s.writeOwn a num) :=
  ((s.staleL1_frame _ _).trans (State.exposeOthers_frame _)).trans (State.putCells_frame _ _ _)

theorem State.performLate_frame (seen : Bool) (a : StoreAct) : StoresFrame s (s.performLate seen a) := by
  have hh (h : Hist) : StoresFrame s (s.mapR fun r => { r with hist := h :: r.hist }) :=
    ⟨rfl, rfl, rfl, rfl, rfl, rfl, rfl, rfl, rfl⟩
  unfold State.performLate
  exact ((hh _).trans (State.touchTiles_frame _ _ _)).trans (State.writeOwn_frame _ _)

theorem State.drainShare_frame : StoresFrame s s.drainShare := by
  unfold State.drainShare
  exact .after (.foldl (fun t a => t.performLate_frame false a) _) ⟨rfl, rfl, rfl, rfl, rfl, rfl, rfl, rfl, rfl⟩

theorem State.shareStore_frame (a : StoreAct) : StoresFrame s (s.shareStore a) := by
  unfold State.shareStore
  exact .trans (.ite s.drainShare_frame .refl) ⟨rfl, rfl, rfl, rfl, rfl, rfl, rfl, rfl, rfl⟩

theorem State.deliverSeen_frame (a : StoreAct) : StoresFrame s (s.deliverSeen a) :=
  .ite (.ite (s.shareStore_frame a) (s.drainShare_frame.trans (State.performLate_frame true a)))
    (s.performLate_frame true a)

theorem State.dropL1Line_frame (line : Nat) : StoresFrame s (s.dropL1Line line) :=
  .ite ⟨rfl, rfl, rfl, rfl, rfl, rfl, rfl, rfl, rfl⟩ .refl

theorem State.lineL2_frame (key mode : Nat) : StoresFrame s (s.lineL2 key mode) := by
  unfold State.lineL2
  refine .ite .refl ?_
  split <;> exact ⟨rfl, rfl, rfl, rfl, rfl, rfl, rfl, rfl, rfl⟩

theorem State.lineAction_frame (key mode : Nat) : StoresFrame s (s.lineAction key mode) :=
  .ite (s.send_frame _ _) (.ite .refl ((s.dropL1Line_frame _).trans (State.lineL2_frame _ _)))

theorem State.freeTileOps_frame : StoresFrame s s.freeTileOps := by
  unfold State.freeTileOps
  dsimp only
  split
  · exact .refl
  · exact ⟨rfl, rfl, rfl, rfl, rfl, rfl, rfl, rfl, rfl⟩

theorem State.commitStrip_frame : StoresFrame s s.commitStrip := by
  have h1 : StoresFrame s (s.mapR fun r => { r with strip := { r.strip with buf := [], lines := [], count := 0 } }) :=
    ⟨rfl, rfl, rfl, rfl, rfl, rfl, rfl, rfl, rfl⟩
  have h2 (u : State) : StoresFrame u u.freeCopies := ⟨rfl, rfl, rfl, rfl, rfl, rfl, rfl, rfl, rfl⟩
  unfold State.commitStrip
  exact ((h1.trans (.foldl (fun t a => t.deliverSeen_frame a) _)).trans ((h2 _).trans State.freeTileOps_frame)).trans
    (.foldl (fun t l => t.lineAction_frame _ _) _)

/-! ### Taking a trap -/

/-- Protection ends with all else of `StoresFrame` as it was. -/
theorem State.endProt_frame :
    StoresFrame { s with r := { s.r with strip := { s.r.strip with prot := false } } } s.endProt := by
  have h := s.commitStrip_frame
  unfold State.endProt
  split
  · exact ⟨h.scal, h.vect, h.queues, h.ident, rfl, h.active, h.ckPc, h.heats, h.teams⟩
  · next hp => exact ⟨rfl, rfl, rfl, rfl, by simpa using hp, rfl, rfl, rfl, rfl⟩

theorem State.endProt_of_not_prot (h : s.r.strip.prot = false) : s.endProt = s := by
  rw [State.endProt, h, if_neg Bool.false_ne_true]

/-- The running runner when it has taken a trap, from the runner after its strip's protection ended. -/
def Runner.trapped (r : Runner) (c : Cause) (v : Word) (imp : Bool) : Runner :=
  { r with
    scal := { r.scal with
      pc := r.scal.sysr.tvec
      sysr := { r.scal.sysr with
        tepc := r.scal.pc, tval := v, tcause := BitVec.ofNat 64 (c.code + if imp then 256 else 0), ppl := r.scal.sysr.sys
        inh := true, sys := true } }
    asks := [], replies := [], begun := none, pages := [], wait := none, fabric := if c = .fabric then none else r.fabric
    stat := .ready }

/-- A trap changes the running runner, and ends its heat when it comes twice or the heat has no handler; nothing else. -/
theorem State.enterTrap_eq (c : Cause) (v : Word) (imp : Bool) :
    s.enterTrap c v imp =
      let t := { s.endProt with r := s.endProt.r.trapped c v imp }
      if s.r.scal.sysr.inh || (s.myHeat?.map fun h => h.desc.handler.isNone).getD false then
        t.condemn s.rid.part s.rid.heat 2 (some ((BitVec.ofNat 64 (c.code + if imp then 256 else 0)).toNat, v, s.pc))
      else t := by
  have h := s.endProt_frame
  have hid : s.endProt.rid = s.rid := congrArg Ident.id h.ident
  have hheat : s.endProt.myHeat? = s.myHeat? := by
    unfold State.myHeat? State.heat?
    rw [hid, h.heats]
  have hinh : s.endProt.r.scal.sysr.inh = s.r.scal.sysr.inh := congrArg (·.sysr.inh) h.scal
  have hpc : s.endProt.pc = s.pc := congrArg Scal.pc h.scal
  change (if s.endProt.r.scal.sysr.inh || (s.endProt.myHeat?.map fun h => h.desc.handler.isNone).getD false then
      ({ s.endProt with r := s.endProt.r.trapped c v imp } : State).condemn s.endProt.rid.part s.endProt.rid.heat 2
        (some ((BitVec.ofNat 64 (c.code + if imp then 256 else 0)).toNat, v, s.endProt.pc))
    else { s.endProt with r := s.endProt.r.trapped c v imp }) = _
  rw [hheat, hinh, hid, hpc]

/-- The running runner after a trap. -/
theorem State.enterTrap_r (c : Cause) (v : Word) (imp : Bool) :
    (s.enterTrap c v imp).r = s.endProt.r.trapped c v imp := by
  rw [State.enterTrap_eq]
  dsimp only
  split <;> rfl

/-- A trap changes memory only by ending the strip's protection. -/
theorem State.enterTrap_mem (c : Cause) (v : Word) (imp : Bool) : (s.enterTrap c v imp).mem = s.endProt.mem := by
  rw [State.enterTrap_eq]
  dsimp only
  split <;> rfl

/-- The scalar side after a trap (R29, R101). -/
theorem State.enterTrap_scal (c : Cause) (v : Word) (imp : Bool) :
    (s.enterTrap c v imp).r.scal = (s.r.trapped c v imp).scal := by
  rw [State.enterTrap_r]
  simp only [Runner.trapped, s.endProt_frame.scal]

theorem State.enterTrap_reg (c : Cause) (v : Word) (imp : Bool) (n : SR) : (s.enterTrap c v imp).reg n = s.reg n := by
  rw [State.reg, State.enterTrap_scal]
  rfl

/-- What is found under a key that a change of the elements keeps. -/
theorem find?_map_of_key {α : Type} {p : α → Bool} {f : α → α} (h : ∀ x, p (f x) = p x) (l : List α) :
    (l.map f).find? p = (l.find? p).map f := by
  rw [List.find?_map]
  exact congrArg (fun q => (l.find? q).map f) (funext h)

/-- A heat ended by a trap (R29, R247): the heat found under its number, live and not yet cancelled, is cancelled. -/
theorem State.condemn_heat? {part id status : Nat} {trap : Option (Nat × Word × Word)} {h : Heat}
    (hh : s.heat? part id = some h) (hl : h.live = true) (hc : h.cancelled = false) :
    (s.condemn part id status trap).heat? part id =
      some { h with cancelled := true, status := status, trap := trap, trapBy := trap.map fun _ => (s.time, s.rid) } := by
  have hp : (h.part == part && h.id == id) = true :=
    List.find?_some (p := fun x : Heat => x.part == part && x.id == id) hh
  unfold State.heat? at hh
  unfold State.heat? State.condemn
  rw [find?_map_of_key, hh]
  · simp only [Option.map_some, hp, hl, hc, Bool.and_self, Bool.not_false, if_true]
  · intro x
    repeat' split
    all_goals rfl

theorem Cause.code_lt (c : Cause) : c.code < 256 := by cases c <;> decide

theorem Cause.tcause_toNat (c : Cause) (imp : Bool) :
    (BitVec.ofNat 64 (c.code + if imp then 256 else 0)).toNat = c.code + if imp then 256 else 0 := by
  have h := c.code_lt
  simp only [BitVec.toNat_ofNat]
  split <;> omega

/-- A second trap, or one of a heat without a handler, ends the heat by its cause (R29, R247). -/
theorem State.enterTrap_heat? {c : Cause} {v : Word} {imp : Bool} {h : Heat} (hh : s.myHeat? = some h)
    (hx : s.r.scal.sysr.inh = true ∨ h.desc.handler = none) (hl : h.live = true) (hc : h.cancelled = false) :
    ∃ g, (s.enterTrap c v imp).heat? s.rid.part s.rid.heat = some g ∧ g.cancelled = true ∧ g.status = 2 ∧
      g.trap = some (c.code + if imp then 256 else 0, v, s.pc) := by
  have hi : (s.r.scal.sysr.inh || (s.myHeat?.map fun h => h.desc.handler.isNone).getD false) = true := by
    rcases hx with hx | hx <;> simp [hh, hx]
  have hh' : ({ s.endProt with r := s.endProt.r.trapped c v imp } : State).heat? s.rid.part s.rid.heat = some h := by
    rw [← hh, State.myHeat?, State.heat?, State.heat?, ← s.endProt_frame.heats]
  rw [State.enterTrap_eq, hi]
  exact ⟨_, State.condemn_heat? hh' hl hc, rfl, rfl, by rw [Cause.tcause_toNat]⟩

/-- A first trap of a heat with a handler ends no heat. -/
theorem State.enterTrap_heats {c : Cause} {v : Word} {imp : Bool} {h : Heat} (hh : s.myHeat? = some h)
    (hi : s.r.scal.sysr.inh = false) (hx : h.desc.handler ≠ none) : (s.enterTrap c v imp).heats = s.heats := by
  have hn : (s.r.scal.sysr.inh || (s.myHeat?.map fun h => h.desc.handler.isNone).getD false) = false := by
    simpa [hh, hi] using Option.isSome_iff_ne_none.mpr hx
  rw [State.enterTrap_eq, hn]
  exact s.endProt_frame.heats

/-- Settles O19: the runner after a trap is `Runner.trapped`, the state before it is `endProt`'s. -/
theorem trapEntry : Obligations.TrapEntry := by
  intro s c v imp
  have hf := s.endProt_frame
  have hr := s.enterTrap_r c v imp
  have hs := s.enterTrap_scal c v imp
  refine ⟨congrArg Scal.pc hs, congrArg (·.sysr.tepc) hs, congrArg (·.sysr.tval) hs, congrArg (·.sysr.tcause) hs,
    congrArg (·.sysr.ppl) hs, congrArg (·.sysr.inh) hs, congrArg (·.sysr.sys) hs, congrArg (·.sysr.tvec) hs,
    congrArg (·.sysr.ptbase) hs, s.enterTrap_reg c v imp, ?_, ?_, ?_, ?_, ?_, ?_, ?_⟩
  · exact (congrArg Runner.vect hr).trans hf.vect
  · exact (congrArg Runner.queues hr).trans hf.queues
  · exact (congrArg (·.strip.prot) hr).trans hf.prot
  · exact (congrArg (·.strip.active) hr).trans hf.active
  · exact (congrArg (·.strip.ckPc) hr).trans hf.ckPc
  · intro hp k
    rw [State.byteAt, State.enterTrap_mem, State.endProt_of_not_prot hp]
    rfl
  · exact fun h hh => ⟨fun hx hl hc => State.enterTrap_heat? hh hx hl hc, fun hi hx => State.enterTrap_heats hh hi hx⟩

/-! ### Control registers -/

/-- The access to a control register goes on when the level allows it and the vector side is idle where it must be. -/
theorem crAccess_go {i : Instr} {n : BitVec 12} {k : State → M (Unit × State)}
    (hs : crSystem n = true → s.r.scal.sysr.sys = true) (ho : crOrdered n = true → s.r.vq = []) :
    crAccess i n false s k = k s := by
  have hgo : (if crOrdered n || (false && n == 0x106) then s.afterVector k else k s) = k s := by
    cases hc : crOrdered n with
    | false => rfl
    | true => simp [State.afterVector, ho hc]
  unfold crAccess
  cases hc : crSystem n with
  | false => exact hgo
  | true =>
    rw [if_pos rfl, State.privileged, if_pos (hs hc)]
    exact hgo

/-- A write of a scalar register touches nothing but the scalar registers. -/
theorem scalarFrame_setReg (sd : SR) (w : Word) : ScalarFrame s (s.setReg sd w).advance.completed := by
  refine ⟨fun _ => rfl, ?_⟩
  unfold State.setReg Scal.set
  split <;> rfl

/-- An instruction that ends with one register written and the PC advanced gives that register its value. -/
theorem gives_of_exec {i : Instr} {sd : SR} {w : Word} (h : exec i s = .next (s.setReg sd w).advance.completed) :
    Gives i s sd w :=
  ⟨_, h, fun n => by simp, by simp, scalarFrame_setReg sd w⟩

theorem rdcr_gives {sd : SR} {cr : BitVec 12} (hs : crSystem cr = true → s.r.scal.sysr.sys = true)
    (ho : crOrdered cr = true → s.r.vq = []) : Gives (.rdcr sd cr) s sd (s.crRead cr) := by
  refine gives_of_exec ?_
  change outcome (crAccess _ _ _ _ _) = _
  rw [crAccess_go hs ho]
  rfl

/-- Settles O16: RDCR by the access rule, and each register's arm of the map. -/
theorem controlReads : Obligations.ControlReads := by
  intro s sd
  refine ⟨fun cr _ hs ho => rdcr_gives hs ho, ?_⟩
  have hm : s.crRead 0x020 = if s.r.ident.core.cluster < 14 then 1 else 0 := by
    simp [State.crRead, isM]
  refine ⟨rfl, rfl, rfl, rfl, rfl, rfl, rfl, rfl, hm, ?_⟩
  exact ⟨rfl, rfl, rfl, rfl, rfl, rfl, rfl, rfl, rfl, rfl, rfl, rfl, rfl, rfl, rfl, rfl, rfl, rfl, rfl⟩

/-! ### The SYS group -/

/-- A trap a scalar instruction raises with the vector side idle. -/
theorem outcome_stopTrap {c : Cause} {v : Word} (hq : s.r.vq = []) :
    outcome (stopTrap c v s) = .next (s.enterTrap c v (c == .fabric)) := by
  simp [outcome, finish, stopTrap, State.scalarTrap, hq]

/-- At user level a privileged instruction traps PRIV with its word (R70 check 5). -/
theorem outcome_privileged_user {i : Instr} {k : State → M (Unit × State)} (hq : s.r.vq = [])
    (hu : s.r.scal.sysr.sys = false) : outcome (s.privileged i k) = .next (s.enterTrap .priv (wordOf i) false) := by
  rw [State.privileged, hu, if_neg Bool.false_ne_true]
  exact outcome_stopTrap hq

/-- At user level an access to a system register traps PRIV, a read or a write (R98). -/
theorem outcome_crAccess_user {i : Instr} {cr : BitVec 12} {write : Bool} {k : State → M (Unit × State)}
    (hq : s.r.vq = []) (hu : s.r.scal.sysr.sys = false) (hc : crSystem cr = true) :
    outcome (crAccess i cr write s k) = .next (s.enterTrap .priv (wordOf i) false) := by
  rw [crAccess, if_pos hc]
  exact outcome_privileged_user hq hu

/-- With the vector side idle an instruction that waits for it acts at once. -/
theorem afterVector_idle {k : State → M (Unit × State)} (hq : s.r.vq = []) : s.afterVector k = k s := by
  simp [State.afterVector, hq]

/-- What SYSCALL and BREAK do with the vector side idle (R99): a trap with the immediate as its value. -/
theorem immTrap_spec {c : Cause} {imm : BitVec 32} (hq : s.r.vq = []) (hc : (c == .fabric) = false) :
    ∃ t, outcome (s.afterVector fun s => stopTrap c (imm.setWidth 64) s) = .next t ∧
      t = s.enterTrap c (imm.setWidth 64) false ∧ t.r.scal.sysr.tepc = s.pc ∧
      t.r.scal.sysr.tcause = BitVec.ofNat 64 c.code ∧ t.r.scal.sysr.tval = imm.setWidth 64 ∧
      t.pc = s.r.scal.sysr.tvec := by
  have hs := s.enterTrap_scal c (imm.setWidth 64) false
  refine ⟨_, ?_, rfl, congrArg (·.sysr.tepc) hs, congrArg (·.sysr.tcause) hs, congrArg (·.sysr.tval) hs,
    congrArg Scal.pc hs⟩
  rw [afterVector_idle hq, outcome_stopTrap hq, hc]

/-- What holds of the word an instruction stands for holds of its encoding. -/
theorem exists_encode {i : Instr} {w : Word} {p : Word → Prop} (he : encode i = some w) (hp : p (wordOf i)) :
    ∃ w, encode i = some w ∧ p w :=
  ⟨w, he, by rwa [wordOf, he] at hp⟩

theorem nop_goesTo : GoesTo .nop s (s.pc + 8) := ⟨s.advance, rfl, rfl, fun _ => rfl, fun _ => rfl, rfl⟩

/-- Settles O18: the level check stands before all else of a privileged instruction. -/
theorem systemInstructions : Obligations.SystemInstructions := by
  refine ⟨fun s cr sd sa all hq hu => ?_, fun s imm => ⟨nop_goesTo, fun hq => ⟨?_, ?_⟩⟩⟩
  · refine ⟨exists_encode rfl (outcome_privileged_user hq hu), exists_encode rfl (outcome_privileged_user hq hu),
      exists_encode rfl (outcome_privileged_user hq hu), fun hc => ⟨?_, ?_, ?_, ?_⟩⟩
    · exact exists_encode rfl (outcome_crAccess_user hq hu hc)
    · exact exists_encode rfl (outcome_crAccess_user hq hu hc)
    · exact exists_encode rfl (outcome_crAccess_user hq hu hc)
    · exact exists_encode rfl (outcome_crAccess_user hq hu hc)
  · exact immTrap_spec (c := .syscall) hq rfl
  · exact immTrap_spec (c := .brk) hq rfl

end Sys2Proof.Machine
end

section
/-! Barriers (O50): arrivals, the end of a phase, waits on a phase, and the teams nobody is left to arrive for. -/

namespace Sys2Proof.Machine
variable {s t u : State}

/-! ### The runners of a team -/

theorem mem_insertRunner {x y : Runner} {l : List Runner} : y ∈ insertRunner x l ↔ y = x ∨ y ∈ l := by
  induction l with
  | nil => simp [insertRunner]
  | cons z l ih =>
    unfold insertRunner
    split
    · exact List.mem_cons
    · rw [List.mem_cons, List.mem_cons, ih]
      exact or_left_comm

theorem State.mem_inOrder {T : TeamId} {x : Runner} : x ∈ s.inOrder T ↔ x ∈ s.teamRunners T := by
  unfold State.inOrder
  induction s.teamRunners T with
  | nil => rfl
  | cons z l ih => rw [List.foldr_cons, mem_insertRunner, ih, List.mem_cons]

theorem State.self_mem_teamRunners {T : TeamId} (h : teamOf s.rid = T) : s.r ∈ s.teamRunners T := by
  simp [State.teamRunners, h]

theorem State.mem_teamRunners_of_rs {y : RunnerId × Runner} {T : TeamId} (hy : y ∈ s.rs) (hT : teamOf y.1 = T) :
    y.2 ∈ s.teamRunners T := by
  refine List.mem_append_right _ (List.mem_map_of_mem (List.mem_filter.mpr ⟨hy, ?_⟩))
  simpa using hT

/-! ### Teams that are stuck -/

/-- A runner that is ready waits at no barrier. -/
theorem Runner.atBarrier_of_ready {x : Runner} (h : x.stat = .ready) (tm : Team) : x.atBarrier tm = false := by
  unfold Runner.atBarrier
  split
  · simp [h]
  · rfl

/-- A team with a ready runner is not stuck. -/
theorem State.unstick_of_ready {T : TeamId} {x : Runner} (hx : x ∈ s.teamRunners T) (hr : x.stat = .ready) :
    s.unstick T = s := by
  unfold State.unstick
  split
  · rfl
  · next tm _ =>
    have hl : x ∈ (s.inOrder T).filter fun x => x.stat != .exited :=
      List.mem_filter.mpr ⟨State.mem_inOrder.mpr hx, by simp [hr]⟩
    have ha : ((s.inOrder T).filter fun x => x.stat != .exited).any (fun x => !x.atBarrier tm) = true :=
      List.any_eq_true.mpr ⟨x, hl, by rw [Runner.atBarrier_of_ready hr]; rfl⟩
    simp only [ha, Bool.or_true, Bool.true_or, if_true]

theorem State.focus_rid : s.focus s.rid = s := if_pos rfl

/-- What is done at the running runner itself, when it stays the running one. -/
theorem State.withRunner_rid {f : State → State} (h : (f s).rid = s.rid) : s.withRunner s.rid f = f s := by
  have hs : (s.runner? s.rid).isSome = true := by simp [State.runner?]
  rw [State.withRunner, if_pos hs, State.focus_rid, State.focus, if_pos h]

theorem State.enterTrap_rid (c : Cause) (v : Word) (imp : Bool) : (s.enterTrap c v imp).rid = s.rid := by
  rw [State.rid, State.enterTrap_r]
  exact congrArg Ident.id s.endProt_frame.ident

/-- A runner alone in its module, waiting at a barrier whose phase has not ended, with no copy of its team to arrive,
traps ILLWAIT (R195). -/
theorem State.unstick_alone {tm : Team} (ht : s.myTeam? = some tm) (hrs : s.rs = []) (ha : s.r.atBarrier tm = true)
    (hst : s.r.stat = .waiting) (hc : ∀ c ∈ s.copies, teamOf c.runner = teamOf s.rid → c.arv = none) :
    s.unstick (teamOf s.rid) = s.enterTrap .illwait (s.illwait 0xFF 3) false := by
  have hl : (s.inOrder (teamOf s.rid)).filter (fun x => x.stat != .exited) = [s.r] := by
    simp [State.inOrder, State.teamRunners, hrs, insertRunner, hst]
  have hcp : s.copies.any (fun c => teamOf c.runner == teamOf s.rid && c.arv.isSome) = false := by
    refine List.any_eq_false.mpr fun c hm => ?_
    cases hT : teamOf c.runner == teamOf s.rid with
    | false => simp
    | true => simp [hc c hm (by simpa using hT)]
  unfold State.unstick
  rw [show s.team? (teamOf s.rid) = some tm from ht]
  simp only [hl, hcp, ha, List.isEmpty_cons, List.any_cons, List.any_nil, Bool.not_true, Bool.or_self,
    Bool.false_eq_true, if_false, List.foldl_cons, List.foldl_nil]
  exact State.withRunner_rid (State.enterTrap_rid _ _ _)

/-! ### Draining shares that are empty -/

/-- Every runner is kept under its number and none has a store in its share. -/
def Calm (s : State) : Prop := s.Kept ∧ ∀ y ∈ s.allRunners, y.share = []

/-- The other runners in another order. -/
def Reordered (s t : State) : Prop := ∃ l, t = { s with rs := l } ∧ ∀ y ∈ l, y ∈ s.rs

theorem Reordered.refl : Reordered s s := ⟨s.rs, rfl, fun _ h => h⟩

theorem Reordered.trans (h : Reordered s t) (k : Reordered t u) : Reordered s u := by
  obtain ⟨l, rfl, hl⟩ := h
  obtain ⟨m, rfl, hm⟩ := k
  exact ⟨m, rfl, fun y hy => hl y (hm y hy)⟩

theorem Calm.reordered (h : Calm s) (k : Reordered s t) : Calm t := by
  obtain ⟨l, rfl, hl⟩ := k
  refine ⟨fun y hy => h.1 y (hl y hy), fun y hy => h.2 y ?_⟩
  rcases List.mem_cons.mp hy with rfl | hy
  · exact List.mem_cons_self
  · obtain ⟨x, hx, rfl⟩ := List.mem_map.mp hy
    exact List.mem_cons_of_mem _ (List.mem_map_of_mem (hl x hx))

theorem State.focus_of_find? {r : RunnerId} {x : RunnerId × Runner} (hr : s.rid ≠ r)
    (hf : (s.rs.find? fun y => y.1 == r) = some x) :
    s.focus r = { s with r := x.2, rs := (s.rid, s.r) :: s.rs.filter fun y => y.1 != r } := by
  rw [State.focus, if_neg hr, hf]

/-- Another runner looked at and back: the others stand in another order. -/
theorem State.Kept.focus_focus (h : s.Kept) (r : RunnerId) : Reordered s ((s.focus r).focus s.rid) := by
  by_cases hr : s.rid = r
  · rw [← hr, State.focus_rid, State.focus_rid]
    exact .refl
  · cases hf : s.rs.find? fun y => y.1 == r with
    | none =>
      have hs : s.focus r = s := by rw [State.focus, if_neg hr, hf]
      rw [hs, State.focus_rid]
      exact .refl
    | some x =>
      have hx : x ∈ s.rs := List.mem_of_find?_eq_some hf
      have hxr : x.1 = r := by simpa using List.find?_some hf
      have hid : x.2.ident.id ≠ s.rid := fun e => hr (by rw [← e, ← h x hx, hxr])
      have hback := State.focus_of_find? (s := { s with r := x.2, rs := (s.rid, s.r) :: s.rs.filter fun y => y.1 != r })
        (r := s.rid) (x := (s.rid, s.r)) hid (List.find?_cons_of_pos (by simp))
      rw [State.focus_of_find? hr hf, hback]
      refine ⟨_, rfl, fun y hy => ?_⟩
      rcases List.mem_cons.mp hy with rfl | hy
      · exact (h x hx ▸ hx : (x.2.ident.id, x.2) ∈ s.rs)
      · obtain ⟨hy, hne⟩ := List.mem_filter.mp hy
        rcases List.mem_cons.mp hy with rfl | hy
        · simp at hne
        · exact (List.mem_filter.mp hy).1

theorem State.drainPhase_of_empty (h : s.r.share = []) : s.drainPhase = s := by
  obtain ⟨r⟩ := s
  obtain ⟨⟩ := r
  subst h
  rfl

theorem Calm.withRunner_drainPhase (h : Calm s) (r : RunnerId) : Reordered s (s.withRunner r State.drainPhase) := by
  have hr : (s.focus r).r.share = [] := by
    unfold State.focus
    split
    · exact h.2 s.r List.mem_cons_self
    · split
      · exact h.2 s.r List.mem_cons_self
      · next x hx => exact h.2 _ (List.mem_cons_of_mem _ (List.mem_map_of_mem (List.mem_of_find?_eq_some hx)))
  unfold State.withRunner
  split
  · rw [State.drainPhase_of_empty hr]
    exact h.1.focus_focus r
  · exact .refl

/-- At the end of a phase of a team whose shares are empty nothing drains (R283). -/
theorem Calm.drainTeam (h : Calm s) (T : TeamId) : Reordered s (s.drainTeam T) := by
  have hl (l : List Runner) (t : State) (ht : Calm t) :
      Reordered t (l.foldl (fun s x => s.withRunner x.ident.id State.drainPhase) t) := by
    induction l generalizing t with
    | nil => exact .refl
    | cons x l ih =>
      have hx := ht.withRunner_drainPhase x.ident.id
      exact hx.trans (ih _ (ht.reordered hx))
  exact hl _ s h

/-! ### Arrivals -/

/-- The barrier after an arrival (R18). -/
def Barrier.next (x : Barrier) : Barrier :=
  if x.expected ≤ x.arrived + 1 then { x with arrived := 0, phase := !x.phase } else { x with arrived := x.arrived + 1 }

theorem Barrier.arrival_eq (x : Barrier) : x.arrival = (x.next, decide (x.expected ≤ x.arrived + 1)) := by
  unfold Barrier.arrival Barrier.next
  split <;> simp [*]

theorem Barrier.next_phase_of_last {x : Barrier} (h : x.expected ≤ x.arrived + 1) : x.next.phase = !x.phase := by
  rw [Barrier.next, if_pos h]

theorem Barrier.next_phase_of_not_last {x : Barrier} (h : ¬x.expected ≤ x.arrived + 1) : x.next.phase = x.phase := by
  rw [Barrier.next, if_neg h]

/-- A team with one of its barriers replaced. -/
def Team.setBar (tm : Team) (b : BR) (x : Barrier) : Team := { tm with bars := tm.bars.set b x }

theorem Team.setBar_bars (tm : Team) (b : BR) (x : Barrier) (k : BR) :
    (tm.setBar b x).bars[k] = if k = b then x else tm.bars[k] := by
  by_cases h : k = b
  · subst h; simp [Team.setBar]
  · have hv : b.val ≠ k.val := fun e => h (Fin.ext e.symm)
    simp [Team.setBar, h, Vector.getElem_set_ne _ _ hv]

/-- What an arrival does to the state: the barrier counts it, and the end of the phase drains the team's shares. -/
theorem State.arriveOn_eq {T : TeamId} {tm : Team} (b : BR) (ht : s.team? T = some tm) :
    s.arriveOn T b = if tm.bars[b].expected ≤ tm.bars[b].arrived + 1 then
      (s.setTeam (tm.setBar b tm.bars[b].next)).drainTeam T else s.setTeam (tm.setBar b tm.bars[b].next) := by
  simp only [State.arriveOn, ht, Barrier.arrival_eq, decide_eq_true_eq]
  rfl

theorem State.team?_setTeam {tm : Team} : (s.setTeam tm).team? tm.id = some tm := by
  exact find?_upsert _ _ (by simp) _

/-- An arrival that ends no phase, or ends one with every share empty. -/
theorem State.arriveOn_reordered {T : TeamId} {tm : Team} {b : BR} (ht : s.team? T = some tm)
    (h : ¬tm.bars[b].expected ≤ tm.bars[b].arrived + 1 ∨ Calm s) :
    Reordered (s.setTeam (tm.setBar b tm.bars[b].next)) (s.arriveOn T b) := by
  rw [State.arriveOn_eq b ht]
  split
  · next hl =>
    rcases h with h | h
    · exact absurd hl h
    · exact Calm.drainTeam (s := s.setTeam _) h T
  · exact .refl

/-! ### A team's barriers through drains and traps -/

/-- A team stands with some barriers. -/
def HasBars (id : TeamId) (bars : Vector Barrier 16) (s : State) : Prop := ∃ u, s.team? id = some u ∧ u.bars = bars

section
variable {id : TeamId} {bars : Vector Barrier 16}

theorem HasBars.of_teams (h : HasBars id bars s) (k : t.teams = s.teams) : HasBars id bars t := by
  obtain ⟨u, hu, hb⟩ := h
  exact ⟨u, by rw [State.team?, k]; exact hu, hb⟩

theorem State.focus_teams (r : RunnerId) : (s.focus r).teams = s.teams := by
  unfold State.focus
  split
  · rfl
  · split <;> rfl

theorem HasBars.withRunner {f : State → State} (h : HasBars id bars s)
    (hf : ∀ t, HasBars id bars t → HasBars id bars (f t)) (r : RunnerId) : HasBars id bars (s.withRunner r f) := by
  unfold State.withRunner
  split
  · exact (hf _ (h.of_teams (s.focus_teams r))).of_teams (State.focus_teams _)
  · exact h

theorem HasBars.foldl {β : Type} {f : State → β → State} (hf : ∀ t x, HasBars id bars t → HasBars id bars (f t x))
    (l : List β) (h : HasBars id bars s) : HasBars id bars (l.foldl f s) := by
  induction l generalizing s with
  | nil => exact h
  | cons x l ih => exact ih (hf s x h)

theorem HasBars.drainPhase (h : HasBars id bars s) : HasBars id bars s.drainPhase := h.of_teams s.drainShare_frame.teams

theorem HasBars.drainTeam (h : HasBars id bars s) (T : TeamId) : HasBars id bars (s.drainTeam T) :=
  .foldl (fun _ _ h => h.withRunner (fun _ h => h.drainPhase) _) _ h

theorem HasBars.condemn {part heat status : Nat} {trap : Option (Nat × Word × Word)} (h : HasBars id bars s) :
    HasBars id bars (s.condemn part heat status trap) := by
  obtain ⟨u, hu, hb⟩ := h
  unfold State.team? at hu
  unfold HasBars State.team? State.condemn
  rw [find?_map_of_key, hu]
  · refine ⟨_, rfl, ?_⟩
    dsimp only
    repeat' split
    all_goals exact hb
  · intro x
    repeat' split
    all_goals rfl

theorem HasBars.enterTrap {c : Cause} {v : Word} {imp : Bool} (h : HasBars id bars s) :
    HasBars id bars (s.enterTrap c v imp) := by
  have he : HasBars id bars s.endProt := h.of_teams s.endProt_frame.teams
  rw [State.enterTrap_eq]
  dsimp only
  split
  · exact HasBars.condemn he
  · exact he

theorem HasBars.unstick (h : HasBars id bars s) (T : TeamId) : HasBars id bars (s.unstick T) := by
  unfold State.unstick
  split
  · exact h
  · dsimp only
    split
    · exact h
    · exact .foldl (fun _ _ h => h.withRunner (fun _ h => h.enterTrap) _) _ h

end

/-! ### Waits on a phase -/

/-- Nothing but the caches and what may still be seen late of a store has changed. -/
def Acquired (s t : State) : Prop := ∃ c h, t = { s with cores := c, r := { s.r with hist := h } }

theorem Acquired.trans (h : Acquired s t) (k : Acquired t u) : Acquired s u := by
  obtain ⟨_, _, rfl⟩ := h
  obtain ⟨c, h, rfl⟩ := k
  exact ⟨c, h, rfl⟩

theorem State.acquire_acquired (o : Obs) (scope : Scope) : Acquired s (s.acquire o scope) := by
  have hs : Acquired s (s.mapR fun r => r.synced o o.behind) := ⟨_, _, rfl⟩
  unfold State.acquire State.acquireL1 State.dropL1
  split
  · split
    · exact hs
    · exact hs.trans ⟨_, _, rfl⟩
  · exact hs

theorem State.acquireBoth_acquired : Acquired s s.acquireBoth :=
  ((s.acquire_acquired .scal .team).trans (State.acquire_acquired .vec .team)).trans ⟨_, _, rfl⟩

/-- A wait record names the barrier of its code. -/
theorem WaitRec.bar_of_code {w : WaitRec} {b : BR} (h : w.code = b.val) : w.bar = b :=
  Fin.ext (by simp [WaitRec.bar, h, Nat.mod_eq_of_lt b.isLt])

theorem barw_getLsbD (x : BitVec 16) (b : BR) (ph : Bool) {k : Nat} (hk : k < 16) :
    (if ph then x ||| (1#16 <<< b.val) else x &&& ~~~(1#16 <<< b.val)).getLsbD k =
      if k = b.val then ph else x.getLsbD k := by
  have hone : ∀ k b : Fin 16, (1#16 <<< b.val).getLsbD k.val = decide (k.val = b.val) := by decide
  have h := hone ⟨k, hk⟩ b
  cases ph with
  | false =>
    rw [if_neg Bool.false_ne_true, BitVec.getLsbD_and, BitVec.getLsbD_not, h]
    by_cases hb : k = b.val <;> simp [hb, hk]
  | true =>
    rw [if_pos rfl, BitVec.getLsbD_or, h]
    by_cases hb : k = b.val <;> simp [hb]

/-- What a wait on a barrier that ends leaves (R193): status 0, and the bit of the phase it has seen. -/
structure WaitEnded (b : BR) (sd : SR) (ph : Bool) (s t : State) : Prop where
  writes : Writes s t sd 0
  pc : t.pc = s.pc + 8
  stat : t.r.stat = .ready
  wait : t.r.wait = none
  mem : t.mem = s.mem
  vect : t.r.vect = s.r.vect
  strip : t.r.strip = s.r.strip
  queues : t.r.queues = s.r.queues
  ident : t.r.ident = s.r.ident
  teams : t.teams = s.teams
  barw : ∀ k, k < 16 → t.r.barw.getLsbD k = if k = b.val then ph else s.r.barw.getLsbD k

theorem waitStep_barrier_ends {w : WaitRec} {b : BR} (hb : w.code = b.val) (hp : s.phase b ≠ s.r.barw.getLsbD b.val) :
    ∃ t, s.waitStep w pollBarrier = .ok ((), t) ∧ WaitEnded b w.sd (s.phase b) s t := by
  obtain ⟨c, h, e⟩ := (s.mapR fun r => { r with wait := some w, stat := .ready }).acquireBoth_acquired
  have hpoll : pollBarrier w (s.mapR fun r => { r with wait := some w, stat := .ready }) = .ok (true, _) :=
    if_pos (by rw [WaitRec.bar_of_code hb]; exact bne_iff_ne.mpr hp)
  unfold State.waitStep
  rw [hpoll, e, WaitRec.bar_of_code hb]
  refine ⟨_, rfl, ?_⟩
  constructor
  case writes => intro n; exact State.setReg_reg _ _ _ n
  case barw => intro k hk; exact barw_getLsbD s.r.barw b (s.phase b) hk
  case pc => exact congrArg (· + 8) (State.setReg_pc _ _ _)
  all_goals rfl

/-- A runner sleeps in a wait whose record is made now. -/
def State.inWait (s : State) (w : WaitRec) : State := s.mapR fun r => { r with wait := some w, stat := .waiting }

/-- A wait made now on a phase that has not ended sleeps: no deadline has passed. -/
theorem waitStep_barrier_sleeps {w : WaitRec} {b : BR} (hb : w.code = b.val) (he : w.entry = s.time)
    (hp : s.phase b = s.r.barw.getLsbD b.val) : s.waitStep w pollBarrier = .ok ((), s.inWait w) := by
  have hx (t : State) (ht : t.time = s.time) : t.expired w = false := by
    unfold State.expired
    rw [he, ht]
    simp only [Bool.and_eq_false_iff, bne_eq_false_iff_eq, decide_eq_false_iff_not]
    omega
  have hpoll : pollBarrier w (s.mapR fun r => { r with wait := some w, stat := .ready }) =
      .ok (false, s.mapR fun r => { r with wait := some w, stat := .ready }) := by
    unfold pollBarrier
    rw [WaitRec.bar_of_code hb]
    dsimp only
    rw [if_neg (by exact fun h => bne_iff_ne.mp h hp)]
    simp only [hx (s.mapR fun r => { r with wait := some w, stat := .ready }) rfl, Bool.and_false, Bool.false_and]
    exact if_pos (congrArg not (hx _ rfl))
  unfold State.waitStep
  rw [hpoll]
  rfl

/-- A wait with no record and no FABRIC pending, with the vector side idle, starts at once (R187). -/
theorem State.enterWait_fresh {first : State → M (WaitRec × State)} {poll : WaitRec → State → M (Bool × State)}
    (hq : s.r.vq = []) (hf : s.r.fabric = none) (hw : s.r.wait = none) :
    s.enterWait first poll = (first s >>= fun x => x.2.waitStep x.1 poll) := by
  rw [State.enterWait, afterVector_idle hq, State.report, hf]
  dsimp only
  rw [hw]

/-- The record of a wait on a barrier made now. -/
def State.barrierWait (s : State) (b : BR) (sd : SR) (arrived : Bool) : WaitRec :=
  { s.newWait .barrier (BitVec.ofNat 64 b.val) sd with code := b.val, arrived := arrived }

/-- What WAITB and SYNCB end in: a look at the phase, then at the team. -/
def State.lookAtPhase (s : State) (b : BR) (sd : SR) (arrived : Bool) : Host.Outcome State Fault Refusal :=
  outcome (thenUnstick (s.waitStep (s.barrierWait b sd arrived) pollBarrier))

theorem WaitEnded.completed {b : BR} {sd : SR} {ph : Bool} (h : WaitEnded b sd ph s t) :
    WaitEnded b sd ph s t.completed :=
  ⟨h.writes, h.pc, h.stat, h.wait, h.mem, h.vect, h.strip, h.queues, h.ident, h.teams, h.barw⟩

/-- What SYNCB does to its runner before it looks at the phase: its record of an arrival, and what may be seen late. -/
def Prepared (s t : State) : Prop :=
  t.mem = s.mem ∧ ∃ h y e, t.r = { s.r with hist := h, sya := y, eretPending := e }

/-- An instruction that ends in a look at a phase that has ended settles. -/
theorem WaitEnded.settles {b : BR} {sd : SR} {ph : Bool} {i : Instr} {p : State → Prop} (h : WaitEnded b sd ph t u)
    (k : Prepared s t) (he : exec i s = .next u) (hp : p u) :
    Settles i s sd 0 fun u =>
      (∀ k, k < 16 → u.r.barw.getLsbD k = if k = b.val then ph else s.r.barw.getLsbD k) ∧ p u := by
  obtain ⟨hm, hi, y, e, hr⟩ := k
  have hreg (n : SR) : t.reg n = s.reg n := by rw [State.reg, hr]; rfl
  refine ⟨u, he, fun n => (h.writes n).trans (by rw [hreg]), h.pc.trans (by rw [State.pc, hr]; rfl), h.stat, h.wait,
    fun k => by rw [State.byteAt, State.byteAt, h.mem, hm], h.vect.trans (by rw [hr]), h.strip.trans (by rw [hr]),
    h.queues.trans (by rw [hr]), fun k hk => (h.barw k hk).trans (by rw [hr]), hp⟩

/-- A look at a phase that has ended ends the wait. -/
theorem State.lookAtPhase_ends {b : BR} {sd : SR} {arrived : Bool} (hp : s.phase b ≠ s.r.barw.getLsbD b.val) :
    ∃ t, s.lookAtPhase b sd arrived = .next t ∧ WaitEnded b sd (s.phase b) s t := by
  obtain ⟨t, ht, he⟩ := waitStep_barrier_ends (w := s.barrierWait b sd arrived) rfl hp
  refine ⟨_, ?_, he.completed⟩
  rw [State.lookAtPhase, ht]
  change Host.Outcome.next (t.unstick (teamOf t.rid)).completed = _
  rw [State.unstick_of_ready (t.self_mem_teamRunners rfl) he.stat]

/-- A look at a phase that has not ended leaves the runner asleep when another runner of its team is ready. -/
theorem State.lookAtPhase_sleeps {b : BR} {sd : SR} {arrived : Bool} (hp : s.phase b = s.r.barw.getLsbD b.val)
    (ha : ∃ y ∈ s.rs, teamOf y.1 = teamOf s.rid ∧ y.2.stat = .ready) :
    s.lookAtPhase b sd arrived = .next (s.inWait (s.barrierWait b sd arrived)).completed := by
  obtain ⟨y, hy, hT, hr⟩ := ha
  rw [State.lookAtPhase, waitStep_barrier_sleeps rfl rfl hp]
  change Host.Outcome.next (State.completed (State.unstick (s.inWait _) (teamOf s.rid))) = _
  rw [State.unstick_of_ready (State.mem_teamRunners_of_rs (s := s.inWait _) hy hT) hr]

theorem exec_waitb {b : BR} {sd : SR} (hq : s.r.vq = []) (hf : s.r.fabric = none) (hw : s.r.wait = none) :
    exec (.waitb sd b) s = s.lookAtPhase b sd false := by
  change outcome (thenUnstick (s.enterWait _ _)) = _
  rw [State.enterWait_fresh hq hf hw]
  rfl

/-- The runner when SYNCB has taken its record of an arrival, which stands for the first instruction after an ERET
alone. -/
def State.tookRecord (s : State) : State :=
  s.mapR fun r => { r with sya := if r.eretPending then none else r.sya, eretPending := false }

theorem exec_syncb {b : BR} {sd : SR} (hq : s.r.vq = []) (hf : s.r.fabric = none) (hw : s.r.wait = none) :
    exec (.syncb sd b) s = (if s.r.eretPending = true ∧ s.r.sya = some (s.pc, b) then s.tookRecord
      else s.tookRecord.beforeArrival.arriveOn (teamOf s.rid) b).lookAtPhase b sd true := by
  change outcome (thenUnstick (s.enterWait _ _)) = _
  have ha : (s.r.eretPending && s.r.sya == some (s.pc, b)) =
      decide (s.r.eretPending = true ∧ s.r.sya = some (s.pc, b)) := by simp [Bool.beq_eq_decide_eq]
  rw [State.enterWait_fresh hq hf hw, ha]
  by_cases h : s.r.eretPending = true ∧ s.r.sya = some (s.pc, b)
  · rw [if_pos h, decide_eq_true h]
    rfl
  · rw [if_neg h, decide_eq_false h]
    rfl

theorem State.phase_eq {tm : Team} (h : s.myTeam? = some tm) (b : BR) : s.phase b = tm.bars[b].phase := by
  rw [State.phase, h]
  rfl

/-- The phase a runner sees is its team's. -/
theorem HasBars.phase {id : TeamId} {bars : Vector Barrier 16} (h : HasBars id bars s) (hid : id = teamOf s.rid)
    (b : BR) : s.phase b = bars[b].phase := by
  subst hid
  obtain ⟨u, hu, rfl⟩ := h
  exact State.phase_eq hu b

theorem State.myTeam?_id {tm : Team} (h : s.myTeam? = some tm) : tm.id = teamOf s.rid := by
  simpa using List.find?_some (p := fun x : Team => x.id == teamOf s.rid) h

/-! ### An arrival of the running runner -/

theorem State.beforeArrival_eq (h : s.r.strip.prot = false) : s.beforeArrival = s.fenceAll := by
  rw [State.beforeArrival, State.endProt_of_not_prot h]

theorem Calm.mapR {f : Runner → Runner} (h : Calm s) (hf : (f s.r).share = s.r.share) : Calm (s.mapR f) := by
  refine ⟨h.1, fun y hy => ?_⟩
  rcases List.mem_cons.mp hy with rfl | hy
  · exact hf.trans (h.2 s.r List.mem_cons_self)
  · exact h.2 y (List.mem_cons_of_mem _ hy)

section
variable {tm : Team} {b : BR}

/-- Its own team's barrier counts the arrival. -/
theorem State.arrival_hasBars (hp : s.r.strip.prot = false) (hm : s.myTeam? = some tm) :
    HasBars tm.id (tm.setBar b tm.bars[b].next).bars (s.beforeArrival.arriveOn (teamOf s.rid) b) := by
  have h : HasBars tm.id (tm.setBar b tm.bars[b].next).bars
      (s.fenceAll.setTeam (tm.setBar b tm.bars[b].next)) := ⟨_, State.team?_setTeam, rfl⟩
  rw [State.beforeArrival_eq hp, State.arriveOn_eq (s := s.fenceAll) b hm]
  split
  · exact h.drainTeam _
  · exact h

/-- All else stays when the arrival ends no phase, or nothing is there to drain. -/
theorem State.arrival_reordered (hp : s.r.strip.prot = false) (hm : s.myTeam? = some tm)
    (h : ¬tm.bars[b].expected ≤ tm.bars[b].arrived + 1 ∨ Calm s) :
    Reordered (s.fenceAll.setTeam (tm.setBar b tm.bars[b].next)) (s.beforeArrival.arriveOn (teamOf s.rid) b) := by
  rw [State.beforeArrival_eq hp]
  exact State.arriveOn_reordered (s := s.fenceAll) hm (h.imp id fun h => h.mapR rfl)

/-- An arrival that ends no phase. -/
theorem State.arrival_of_not_last (hp : s.r.strip.prot = false) (hm : s.myTeam? = some tm)
    (h : ¬tm.bars[b].expected ≤ tm.bars[b].arrived + 1) :
    s.beforeArrival.arriveOn (teamOf s.rid) b = s.fenceAll.setTeam (tm.setBar b tm.bars[b].next) := by
  rw [State.beforeArrival_eq hp, State.arriveOn_eq (s := s.fenceAll) b hm, if_neg h]

/-- The team stands with the arrival counted on one of its barriers, the others as they were. -/
def Arrives (tm : Team) (b : BR) (t : State) : Prop :=
  ∃ u, t.team? tm.id = some u ∧ ∀ k : BR, u.bars[k] = if k = b then tm.bars[b].next else tm.bars[k]

theorem HasBars.arrives (h : HasBars tm.id (tm.setBar b tm.bars[b].next).bars t) : Arrives tm b t := by
  obtain ⟨u, hu, hb⟩ := h
  exact ⟨u, hu, fun k => by rw [hb, Team.setBar_bars]⟩

/-- ARRIVE with the vector side idle. -/
theorem exec_arrive (hq : s.r.vq = []) : exec (.arrive b) s =
    .next (((s.beforeArrival.arriveOn (teamOf s.rid) b).advance).unstick (teamOf s.rid)).completed := by
  change outcome (s.afterVector _) = _
  rw [afterVector_idle hq]
  rfl

/-- A runner that waits at a barrier whose phase has not ended is at that barrier. -/
theorem State.inWait_atBarrier {sd : SR} {arrived : Bool} (hp : tm.bars[b].phase = s.r.barw.getLsbD b.val) :
    (s.inWait (s.barrierWait b sd arrived)).r.atBarrier tm = true := by
  have hb : (s.barrierWait b sd arrived).bar = b := WaitRec.bar_of_code rfl
  change ((s.barrierWait b sd arrived).kind == .barrier && RStat.waiting == .waiting &&
    tm.bars[(s.barrierWait b sd arrived).bar].phase == s.r.barw.getLsbD (s.barrierWait b sd arrived).bar.val) = true
  simp only [hb, hp, beq_self_eq_true]
  rfl

/-- WAITB of a runner alone in its module, on a phase that has not ended, with no copy of its team to arrive (R195). -/
theorem waitb_alone_traps {sd : SR} (hq : s.r.vq = []) (hf : s.r.fabric = none) (hw : s.r.wait = none)
    (hm : s.myTeam? = some tm) (hp : tm.bars[b].phase = s.r.barw.getLsbD b.val) (hrs : s.rs = [])
    (hc : ∀ c ∈ s.copies, teamOf c.runner = teamOf s.rid → c.arv = none) :
    Traps (.waitb sd b) s .illwait (BitVec.ofNat 64 (2 ^ 63 + 0xFF * 2 ^ 16 + 3 * 2 ^ 8 + clsBits s.r.ident.cls)) := by
  have hs := (s.inWait (s.barrierWait b sd false)).enterTrap_scal .illwait (s.illwait 0xFF 3) false
  have hu : (s.inWait (s.barrierWait b sd false)).unstick (teamOf s.rid) =
      (s.inWait (s.barrierWait b sd false)).enterTrap .illwait (s.illwait 0xFF 3) false :=
    State.unstick_alone (s := s.inWait _) hm hrs (State.inWait_atBarrier hp) rfl hc
  refine ⟨((s.inWait (s.barrierWait b sd false)).enterTrap .illwait (s.illwait 0xFF 3) false).completed, ?_,
    congrArg (·.sysr.tcause) hs, congrArg (·.sysr.tepc) hs, congrArg (·.sysr.tval) hs, congrArg Scal.pc hs,
    State.enterTrap_reg _ _ _⟩
  rw [exec_waitb hq hf hw, State.lookAtPhase, waitStep_barrier_sleeps rfl rfl ((s.phase_eq hm b).trans hp), ← hu]
  rfl

/-! ### The barrier instructions -/

/-- ARRIVE (R192): the barrier counts it; the runner goes on, with nothing else changed when nothing drains. -/
theorem arrive_spec (hq : s.r.vq = []) (hst : s.r.stat = .ready) (hp : s.r.strip.prot = false)
    (hm : s.myTeam? = some tm) :
    ∃ t, exec (.arrive b) s = .next t ∧ Arrives tm b t ∧
      (¬tm.bars[b].expected ≤ tm.bars[b].arrived + 1 ∨ Calm s → (∀ n, t.reg n = s.reg n) ∧ t.pc = s.pc + 8 ∧
        SameMemory s t ∧ t.r.vect = s.r.vect ∧ t.r.strip = s.r.strip ∧ t.r.queues = s.r.queues ∧
        t.r.barw = s.r.barw) := by
  refine ⟨_, exec_arrive hq, ?_, fun h => ?_⟩
  · have hb : HasBars tm.id (tm.setBar b tm.bars[b].next).bars (s.beforeArrival.arriveOn (teamOf s.rid) b).advance :=
      State.arrival_hasBars hp hm
    exact (hb.unstick _).arrives
  · obtain ⟨l, hl, _⟩ := State.arrival_reordered hp hm h
    have hid : (s.beforeArrival.arriveOn (teamOf s.rid) b).advance.rid = s.rid := by rw [hl]; rfl
    have hready : (s.beforeArrival.arriveOn (teamOf s.rid) b).advance.r.stat = .ready := by rw [hl]; exact hst
    rw [State.unstick_of_ready (State.self_mem_teamRunners (congrArg teamOf hid)) hready, hl]
    exact ⟨fun _ => rfl, rfl, fun _ => rfl, rfl, rfl, rfl, rfl⟩

/-- WAITB on a phase that has ended (R193). -/
theorem waitb_settles {sd : SR} (hq : s.r.vq = []) (hf : s.r.fabric = none) (hw : s.r.wait = none)
    (hm : s.myTeam? = some tm) (hp : tm.bars[b].phase ≠ s.r.barw.getLsbD b.val) :
    Settles (.waitb sd b) s sd 0 fun t =>
      (∀ k, k < 16 → t.r.barw.getLsbD k = if k = b.val then tm.bars[b].phase else s.r.barw.getLsbD k) ∧
        t.teams = s.teams := by
  obtain ⟨t, ht, he⟩ := s.lookAtPhase_ends (sd := sd) (arrived := false) (s.phase_eq hm b ▸ hp)
  rw [s.phase_eq hm b] at he
  exact he.settles ⟨rfl, _, _, _, rfl⟩ ((exec_waitb hq hf hw).trans ht) he.teams

/-- WAITB on a phase that has not ended (R193). -/
theorem waitb_sleeps {sd : SR} (hq : s.r.vq = []) (hf : s.r.fabric = none) (hw : s.r.wait = none)
    (hm : s.myTeam? = some tm) (hp : tm.bars[b].phase = s.r.barw.getLsbD b.val)
    (ha : ∃ y ∈ s.rs, teamOf y.1 = tm.id ∧ y.2.stat = .ready) :
    Sleeps (.waitb sd b) s fun t => t.teams = s.teams ∧ t.r.barw = s.r.barw :=
  ⟨_, _, (exec_waitb hq hf hw).trans (State.lookAtPhase_sleeps ((s.phase_eq hm b).trans hp) (s.myTeam?_id hm ▸ ha)),
    rfl, rfl, rfl, rfl, rfl, fun _ => rfl, rfl, rfl, rfl, rfl, rfl⟩

/-- SYNCB whose arrival ends the phase (R194). -/
theorem syncb_settles {sd : SR} (hq : s.r.vq = []) (hf : s.r.fabric = none) (hw : s.r.wait = none)
    (hpr : s.r.strip.prot = false) (hm : s.myTeam? = some tm)
    (hn : ¬(s.r.eretPending = true ∧ s.r.sya = some (s.pc, b)))
    (hp : tm.bars[b].phase = s.r.barw.getLsbD b.val) (hl : tm.bars[b].expected ≤ tm.bars[b].arrived + 1) (hc : Calm s) :
    Settles (.syncb sd b) s sd 0 fun t =>
      (∀ k, k < 16 → t.r.barw.getLsbD k = if k = b.val then !tm.bars[b].phase else s.r.barw.getLsbD k) ∧
        Arrives tm b t := by
  have hb : HasBars tm.id (tm.setBar b tm.bars[b].next).bars (s.tookRecord.beforeArrival.arriveOn (teamOf s.rid) b) :=
    State.arrival_hasBars (s := s.tookRecord) hpr hm
  obtain ⟨l, hu, _⟩ := State.arrival_reordered (s := s.tookRecord) (b := b) hpr hm (.inr (hc.mapR rfl))
  replace hu : s.tookRecord.beforeArrival.arriveOn (teamOf s.rid) b = _ := hu
  rw [hu] at hb
  have hph := hb.phase (s.myTeam?_id hm) b
  rw [Team.setBar_bars, if_pos rfl, Barrier.next_phase_of_last hl] at hph
  obtain ⟨t, ht, he⟩ := State.lookAtPhase_ends (sd := sd) (arrived := true) (b := b)
    (hph.trans_ne ((Bool.not_ne_self _).trans_eq hp))
  rw [hph] at he
  refine he.settles ⟨rfl, _, _, _, rfl⟩ ?_ (hb.of_teams he.teams).arrives
  rw [exec_syncb hq hf hw, if_neg hn, hu, ht]

/-- SYNCB whose arrival ends no phase (R194). -/
theorem syncb_sleeps {sd : SR} (hq : s.r.vq = []) (hf : s.r.fabric = none) (hw : s.r.wait = none)
    (hpr : s.r.strip.prot = false) (hm : s.myTeam? = some tm)
    (hn : ¬(s.r.eretPending = true ∧ s.r.sya = some (s.pc, b)))
    (hp : tm.bars[b].phase = s.r.barw.getLsbD b.val) (hl : ¬tm.bars[b].expected ≤ tm.bars[b].arrived + 1)
    (ha : ∃ y ∈ s.rs, teamOf y.1 = tm.id ∧ y.2.stat = .ready) :
    Sleeps (.syncb sd b) s fun t =>
      Arrives tm b t ∧ t.r.barw = s.r.barw := by
  have hb : HasBars tm.id (tm.setBar b tm.bars[b].next).bars (s.tookRecord.beforeArrival.arriveOn (teamOf s.rid) b) :=
    State.arrival_hasBars (s := s.tookRecord) hpr hm
  have hu : s.tookRecord.beforeArrival.arriveOn (teamOf s.rid) b = _ :=
    State.arrival_of_not_last (s := s.tookRecord) (b := b) hpr hm hl
  rw [hu] at hb
  have hph := hb.phase (s.myTeam?_id hm) b
  rw [Team.setBar_bars, if_pos rfl, Barrier.next_phase_of_not_last hl] at hph
  have he := (exec_syncb (b := b) (sd := sd) hq hf hw).trans (by rw [if_neg hn, hu])
  exact ⟨_, _, he.trans (State.lookAtPhase_sleeps (hph.trans hp) (s.myTeam?_id hm ▸ ha)), rfl, rfl, rfl, rfl, rfl,
    fun _ => rfl, rfl, rfl, rfl, hb.arrives, rfl⟩

/-- SYNCB whose record of an arrival stands (R194): it looks at the phase alone. -/
theorem syncb_again_settles {sd : SR} (hq : s.r.vq = []) (hf : s.r.fabric = none) (hw : s.r.wait = none)
    (hm : s.myTeam? = some tm) (hn : s.r.eretPending = true ∧ s.r.sya = some (s.pc, b))
    (hp : tm.bars[b].phase ≠ s.r.barw.getLsbD b.val) :
    Settles (.syncb sd b) s sd 0 fun t =>
      (∀ k, k < 16 → t.r.barw.getLsbD k = if k = b.val then tm.bars[b].phase else s.r.barw.getLsbD k) ∧
        t.teams = s.teams := by
  have hph : s.tookRecord.phase b = tm.bars[b].phase := State.phase_eq (s := s.tookRecord) hm b
  obtain ⟨t, ht, he⟩ := s.tookRecord.lookAtPhase_ends (b := b) (sd := sd) (arrived := true) (hph ▸ hp)
  rw [hph] at he
  refine he.settles ⟨rfl, _, _, _, rfl⟩ ?_ he.teams
  rw [exec_syncb hq hf hw, if_pos hn, ht]

end

/-- Settles O50: one lemma for each barrier instruction and outcome. -/
theorem barriers : Obligations.Barriers := by
  intro s sd b tm hq hf hw hst hpr hm
  refine ⟨arrive_spec hq hst hpr hm, ?_, ?_, ?_, ?_, ?_, ?_⟩
  · exact fun hp => waitb_settles hq hf hw hm hp
  · exact fun hp ha => waitb_sleeps hq hf hw hm hp ha
  · exact fun hp hrs hc => waitb_alone_traps hq hf hw hm hp hrs (s.myTeam?_id hm ▸ hc)
  · exact fun hn hp hl hc => syncb_settles hq hf hw hpr hm hn hp hl hc
  · exact fun hn hp hl ha => syncb_sleeps hq hf hw hpr hm hn hp hl ha
  · exact fun hn hp => syncb_again_settles hq hf hw hm hn hp

end Sys2Proof.Machine
end

section
/-! Reductions and scans (O33): the fixed tree of an associative operation (R54), what a whole-result instruction
leaves (R132), integers fitted to their destination (R37, R133). -/

namespace Sys2Proof.Machine
variable {s t : State}

/-! ### The fixed tree (R54) -/

section
variable {α β : Type} {f : α → α → α}

theorem treeLevel_cons_cons (a b : Option α) (l : List (Option α)) :
    treeLevel f (a :: b :: l) = Option.merge f a b :: treeLevel f l := by
  cases a <;> cases b <;> rfl

theorem treeLevel_singleton (a : Option α) : treeLevel f [a] = [a] := by cases a <;> rfl

theorem length_treeLevel : ∀ l : List (Option α), (treeLevel f l).length = (l.length + 1) / 2
  | [] => by simp [treeLevel]
  | [a] => by rw [treeLevel_singleton]; simp
  | a :: b :: l => by
    rw [treeLevel_cons_cons, List.length_cons, length_treeLevel l, List.length_cons, List.length_cons]
    omega

/-- A level of the tree of an associative operation keeps what its nodes come to from left to right. -/
theorem foldl_treeLevel [Std.Associative f] : ∀ (l : List (Option α)) (x : Option α),
    (treeLevel f l).foldl (Option.merge f) x = l.foldl (Option.merge f) x
  | [], _ => rfl
  | [a], _ => by rw [treeLevel_singleton]
  | a :: b :: l, x => by
    rw [treeLevel_cons_cons, List.foldl_cons, foldl_treeLevel l, ← Std.Associative.assoc (op := Option.merge f)]
    rfl

theorem treeLoop_eq_foldl [Std.Associative f] (n : Nat) (l : List (Option α)) (h : l.length ≤ 2 ^ n) :
    treeLoop f n l = l.foldl (Option.merge f) none := by
  induction n generalizing l with
  | zero =>
    match l, h with
    | [], _ => rfl
    | [a], _ => cases a <;> rfl
  | succ n ih =>
    rw [treeLoop, ih _ (by rw [length_treeLevel]; omega), foldl_treeLevel]

/-- The elements of a list under an operation, from left to right; nothing of an empty list. -/
def foldAll (f : α → α → α) : List α → Option α
  | [] => none
  | a :: l => some (l.foldl f a)

theorem foldl_merge_some (l : List (Option α)) (a : α) :
    l.foldl (Option.merge f) (some a) = some (l.reduceOption.foldl f a) := by
  induction l generalizing a with
  | nil => rfl
  | cons b l ih => cases b <;> exact ih _

theorem foldl_merge_none (l : List (Option α)) : l.foldl (Option.merge f) none = foldAll f l.reduceOption := by
  induction l with
  | nil => rfl
  | cons b l ih =>
    cases b with
    | none => exact ih
    | some b => exact foldl_merge_some l b

/-- The tree of an associative operation comes to what its leaves do from left to right. -/
theorem tree_eq_foldAll [Std.Associative f] (l : List (Option α)) : tree f l = foldAll f l.reduceOption := by
  have hdepth := Nat.lt_log2_self (n := l.length - 1)
  rw [tree, treeLoop_eq_foldl _ _ (by omega), foldl_merge_none]

/-- The image of a fold under a homomorphism into an operation with an identity. -/
theorem map_foldAll_getD {φ : α → β} {g : β → β → β} {e : β} (hφ : ∀ a b, φ (f a b) = g (φ a) (φ b))
    (he : ∀ b, g e b = b) (l : List α) : ((foldAll f l).map φ).getD e = (l.map φ).foldl g e := by
  cases l with
  | nil => rfl
  | cons a l =>
    have (a : α) : φ (l.foldl f a) = (l.map φ).foldl g (φ a) := by
      induction l generalizing a with
      | nil => rfl
      | cons b l ih => rw [List.foldl_cons, ih, hφ]; rfl
    rw [List.map_cons, List.foldl_cons, he, ← this]; rfl

theorem foldAll_add_getD (l : List Int) : (foldAll (· + ·) l).getD 0 = l.sum := by
  have := map_foldAll_getD (φ := id) (f := fun a b : Int => a + b) (fun _ _ => rfl) Int.zero_add l
  rwa [Option.map_id, List.map_id, id, ← List.sum_eq_foldl] at this

theorem foldAll_min (l : List Int) : foldAll min l = l.min? := by cases l <;> rfl

theorem foldAll_max (l : List Int) : foldAll max l = l.max? := by cases l <;> rfl

theorem reduceOption_leaves (m : Mask) (n : Nat) (g : Nat → α) :
    (s.leaves m 0 n g).reduceOption = ((List.range n).filter fun j => s.active m j).map g := by
  rw [State.leaves, List.drop_zero]
  induction List.range n with
  | nil => rfl
  | cons j l ih => by_cases h : s.active m j = true <;> simp [h, ih]

end

/-! ### Integer results (R37, R54) -/

theorem ofInt_bits64 (f : Word → Word → Word) (a b : Int) :
    BitVec.ofInt 64 (bits64 f a b) = f (BitVec.ofInt 64 a) (BitVec.ofInt 64 b) := BitVec.ofInt_toInt

theorem bits64_assoc {f : Word → Word → Word} (h : ∀ a b c, f (f a b) c = f a (f b c)) :
    Std.Associative (bits64 f) :=
  ⟨fun a b c => by unfold bits64; rw [BitVec.ofInt_toInt, BitVec.ofInt_toInt, h]⟩

theorem RedOp.int_assoc (o : RedOp) : Std.Associative o.int := by
  cases o with
  | sum => exact ⟨Int.add_assoc⟩
  | min => exact ⟨min_assoc⟩
  | max => exact ⟨max_assoc⟩
  | and => exact bits64_assoc BitVec.and_assoc
  | or => exact bits64_assoc BitVec.or_assoc

theorem Fmt.width_le (d : Fmt) : d.width ≤ 64 := by
  cases d with
  | fp f => cases f <;> decide
  | _ => decide

/-- Reducing to a width is fitting (R37) and taking the low bits. -/
theorem reduceInt_eq (sat sg : Bool) (w : Nat) (x : Int) : reduceInt sat sg w x = bitsIn w (fitted sat sg w x) := by
  have hpow : ((2 ^ w : Nat) : Int) = 2 ^ w := by push_cast; rfl
  have hpow' : ((2 ^ (w - 1) : Nat) : Int) = 2 ^ (w - 1) := by push_cast; rfl
  unfold reduceInt wrapInt bitsIn fitted intMin intMax
  cases sat <;> cases sg <;> simp only [Bool.false_eq_true, if_false, if_true, hpow, hpow']
  · rw [Int.emod_emod]
  · rw [← hpow, Int.bmod_emod]

/-- The low bits of a number, by way of its 64-bit pattern. -/
theorem wrapInt_eq_ofInt {w : Nat} (h : w ≤ 64) (x : Int) : wrapInt w x = (BitVec.ofInt 64 x).toNat % 2 ^ w := by
  have hdvd : ((2 ^ w : Nat) : Int) ∣ (2 ^ 64 : Nat) := Int.natCast_dvd_natCast.mpr (Nat.pow_dvd_pow 2 h)
  have hx : (((BitVec.ofInt 64 x).toNat : Nat) : Int) = x % (2 ^ 64 : Nat) := by
    rw [BitVec.toNat_ofInt, Int.toNat_of_nonneg (Int.emod_nonneg _ (by decide))]
  unfold wrapInt
  rw [← Int.emod_emod_of_dvd x hdvd, ← hx, ← Int.natCast_mod, Int.toNat_natCast]

section
variable {vd va : VR} {m : Mask}

theorem State.fmtOf_of_destKind_int (h : s.destKind vd = .int) : ∃ sg, (s.fmtOf vd).intSigned = some sg := by
  unfold State.destKind VReg.destKind at h
  split at h
  · cases h
  · unfold VReg.kind at h
    unfold State.fmtOf
    cases hf : (s.vreg vd).fmt with
    | none => simp [hf] at h
    | some d => cases d <;> simp_all [Fmt.intSigned]

/-- The integers a reduction of the first k elements is of. -/
def State.activeInts (s : State) (m : Mask) (va : VR) (k : Nat) : List Int :=
  ((List.range k).filter fun j => s.active m j).map (s.vreg va).index

/-- A reduction into an integer register (R54). -/
theorem State.reduce_int (o : RedOp) (k : Nat) (h : s.destKind vd = .int) :
    s.reduce o m vd va k =
      { val := o.intRoot s.modes (s.fmtOf vd) ((foldAll o.int (s.activeInts m va k)).getD (o.intId (s.fmtOf vd))) } := by
  have := o.int_assoc
  obtain ⟨sg, hsg⟩ := State.fmtOf_of_destKind_int h
  unfold State.reduce
  rw [tree_eq_foldAll, reduceOption_leaves]
  split
  next g hg => rw [hg] at hsg; cases hsg
  next => rfl

/-- The value R54 gives an integer reduction of the first k elements: the active ones' sum, least, greatest, AND or OR. -/
def State.intResult (s : State) (m : Mask) (vd va : VR) (k : Nat) (o : RedOp) : Nat :=
  let d := s.fmtOf vd
  let sg : Bool := d.intSigned = some true
  let xs := s.activeInts m va k
  let fit (v : Int) : Nat := bitsIn d.width (fitted (bitOf s.vtype 5) sg d.width v)
  match o with
  | .sum => fit xs.sum
  | .min => fit (xs.min?.getD (if sg then 2 ^ (d.width - 1) - 1 else 2 ^ d.width - 1))
  | .max => fit (xs.max?.getD (if sg then -(2 ^ (d.width - 1)) else 0))
  | .and => ((xs.map fun v => BitVec.ofInt 64 v).foldl (· &&& ·) (BitVec.allOnes 64)).toNat
  | .or => ((xs.map fun v => BitVec.ofInt 64 v).foldl (· ||| ·) 0#64).toNat

theorem reduceInt_getD_intSigned (sat : Bool) (d : Fmt) (x : Int) :
    reduceInt sat (d.intSigned.getD false) d.width x =
      bitsIn d.width (fitted sat (decide (d.intSigned = some true)) d.width x) := by
  rw [reduceInt_eq]
  rcases d.intSigned with _ | _ | _ <;> rfl

theorem intId_min (d : Fmt) :
    RedOp.intId d .min = if decide (d.intSigned = some true) = true then 2 ^ (d.width - 1) - 1 else 2 ^ d.width - 1 := by
  rcases h : d.intSigned with _ | _ | _ <;> simp [RedOp.intId, intMax, h]

theorem intId_max (d : Fmt) :
    RedOp.intId d .max = if decide (d.intSigned = some true) = true then -(2 ^ (d.width - 1)) else 0 := by
  rcases h : d.intSigned with _ | _ | _ <;> simp [RedOp.intId, intMin, h]

/-- A bitwise fold in its destination, by way of the elements' 64-bit patterns. -/
theorem wrapInt_foldAll_bits64 {g : Word → Word → Word} {e : Int} (he : ∀ b, g (BitVec.ofInt 64 e) b = b) {w : Nat}
    (hw : w ≤ 64) (l : List Int) :
    wrapInt w ((foldAll (bits64 g) l).getD e) =
      ((l.map fun v => BitVec.ofInt 64 v).foldl g (BitVec.ofInt 64 e)).toNat % 2 ^ w := by
  rw [wrapInt_eq_ofInt hw, ← map_foldAll_getD (ofInt_bits64 g) he, Option.getD_map]

theorem State.reduce_eq_intResult (o : RedOp) (k : Nat) (h : s.destKind vd = .int) :
    (s.reduce o m vd va k).val % 2 ^ (s.fmtOf vd).width = s.intResult m vd va k o % 2 ^ (s.fmtOf vd).width := by
  rw [State.reduce_int o k h]
  have hw := (s.fmtOf vd).width_le
  cases o with
  | sum => simp only [RedOp.intRoot, State.intResult, reduceInt_getD_intSigned, ← foldAll_add_getD]; rfl
  | min => simp only [RedOp.intRoot, State.intResult, reduceInt_getD_intSigned, ← foldAll_min, ← intId_min]; rfl
  | max => simp only [RedOp.intRoot, State.intResult, reduceInt_getD_intSigned, ← foldAll_max, ← intId_max]; rfl
  | and =>
    exact (congrArg (· % _) (wrapInt_foldAll_bits64 (e := -1) (fun _ => BitVec.allOnes_and) hw _)).trans (Nat.mod_mod _ _)
  | or =>
    exact (congrArg (· % _) (wrapInt_foldAll_bits64 (e := 0) (fun _ => BitVec.zero_or) hw _)).trans (Nat.mod_mod _ _)

theorem State.reduce_int_flags (o : RedOp) (k : Nat) (h : s.destKind vd = .int) : (s.reduce o m vd va k).flags = {} := by
  rw [State.reduce_int o k h]

end

/-! ### Flags and traps -/

theorem trapEnabled_none (vt : Word) : trapEnabled vt {} = false := by
  have : ({} : Flags).bits = 0#5 := by decide
  simp [trapEnabled, this]

theorem NoFpTraps.trapEnabled (h : NoFpTraps s) (fl : Flags) : trapEnabled s.vtype fl = false := by
  unfold NoFpTraps at h
  simp [Machine.trapEnabled, h]

/-! ### Whole-result instructions (R132) -/

section
variable {vd va : VR} {m : Mask}

/-- A whole-result instruction whose flags do not trap completes: its act's effect on the registers, its flags, all else
as before. -/
theorem whole_completes {i : Instr} {a b : Word} {body : State → M (Unit × State)} {n : Names} {ds : List VR} {fl : Flags}
    {els : List Nat} {put : Vect → Vect} {hurt : List Nat → List Nat} (h : FreeToRun i s)
    (hb : body s = s.runPlan i { s.wholePlan n ds {} fl els put with hurt := hurt })
    (hfl : trapEnabled s.vtype fl = false) (hrest : (put s.r.vect).rest = s.r.vect.rest)
    (hreg : ∀ k, k ∉ ds → (put s.r.vect).reg k = s.vreg k) :
    ∃ t, passVector i a b body s = .next t ∧ VectorFrame s t ds ∧ t.r.queues = s.r.queues ∧
      t.r.vect.rngctr = s.r.vect.rngctr ∧ t.r.vect.vflags = s.r.vect.vflags ||| fl.bits ∧
      ∀ k, t.vreg k = (put s.r.vect).reg k := by
  obtain ⟨t, ht, hvect, hscal, hmem, hstrip, hqs, hl, hbw, hid⟩ := plan_completes (a := a) (b := b) _ h hb rfl rfl
    (trapEnabled_none _) (fun x hx => by
      obtain rfl := List.mem_singleton.mp hx
      exact hfl)
  replace hvect : t.r.vect = { (put s.r.vect).raise fl with vstart := 0 } := hvect
  simp only [Vect.rest, Prod.mk.injEq] at hrest
  obtain ⟨hvl, -, hvt, hvf, hvlen, hrng⟩ := hrest
  have hread (k : VR) : t.vreg k = (put s.r.vect).reg k := (congrArg (fun v : Vect => v.reg k) hvect).trans rfl
  refine ⟨t, ht, ⟨fun k => congrArg (cellGet · k) hmem, ?_, hscal, fun k hk => (hread k).trans (hreg k hk),
    ?_, ?_, ?_, ?_, hstrip, hl, hbw, hid⟩, hqs, ?_, ?_, hread⟩
  · exact congrArg Scal.pc hscal
  · exact congrArg Vect.vstart hvect
  · exact (congrArg Vect.vl hvect).trans hvl
  · exact (congrArg Vect.vtype hvect).trans hvt
  · exact (congrArg Vect.vlen hvect).trans hvlen
  · exact (congrArg Vect.rngctr hvect).trans hrng
  · exact (congrArg Vect.vflags hvect).trans (congrArg (· ||| fl.bits) hvf)

/-! ### Reductions to one element -/

/-- What a reduction leaves in its destination (R133): element 0 is v, the elements above it are as TP says. -/
def FirstElement (s t : State) (d : VR) (vlmax v : Nat) : Prop :=
  (t.vreg d).tag = (s.vreg d).tag ∧ (t.vreg d).side = (s.vreg d).side ∧
  ∀ j, (s.fmtOf d).bitAt j + (s.fmtOf d).width ≤ 16384 → (t.vreg d).elem (s.fmtOf d) j =
    if j = 0 then v % 2 ^ (s.fmtOf d).width
    else if j < vlmax ∧ tpOf s.vtype then 0 else (s.vreg d).elem (s.fmtOf d) j

theorem FirstElement.congr {d : VR} {vlmax v w : Nat} (h : FirstElement s t d vlmax v)
    (hvw : v % 2 ^ (s.fmtOf d).width = w % 2 ^ (s.fmtOf d).width) : FirstElement s t d vlmax w := by
  unfold FirstElement
  rwa [← hvw]

theorem State.reg_redTail (vlmax : Nat) (d k : VR) (v : Vect) : (s.redTail vlmax d v).reg k =
    if k = d then settle s.vtype (s.fmtOf d) (fun _ => true) 0 1 vlmax (v.reg d) else v.reg k :=
  Vect.reg_setReg ..

theorem Vect.reg_putElem (v : Vect) (d k : VR) (f : Fmt) (i x : Nat) :
    (v.putElem d f i x).reg k = if k = d then (v.reg d).setElem f i x else v.reg k := Vect.reg_setReg ..

/-- Element 0 written and the tail settled. -/
theorem firstElement_of_settled {d : VR} {vlmax v : Nat}
    (h : t.vreg d = settle s.vtype (s.fmtOf d) (fun _ => true) 0 1 vlmax ((s.vreg d).setElem (s.fmtOf d) 0 v)) :
    FirstElement s t d vlmax v := by
  rw [FirstElement, h]
  refine ⟨settle_tag .., settle_side .., fun j hj => ?_⟩
  rw [elem_settle _ _ _ _ _ _ _ _ hj, VReg.elem_setElem _ _ _ _ _ hj]
  by_cases hj0 : j = 0 <;> simp [hj0]

/-- The instruction that reduces by an operation. -/
def RedOp.instr : RedOp → VMod → VR → VR → Instr
  | .sum => .vredsum | .min => .vredmin | .max => .vredmax | .and => .vredand | .or => .vredor

theorem exec_red (o : RedOp) (m : VMod) (vd va : VR) : exec (o.instr m vd va) s =
    passVector (o.instr m vd va) 0 0 (doRed (o.instr m vd va) o m.mask vd va) s := by
  cases o <;> rfl

/-- The act of a reduction to one element. -/
def State.putReduced (s : State) (vlmax : Nat) (d : VR) (x : Nat) (v : Vect) : Vect :=
  s.redTail vlmax d (v.putElem d (s.fmtOf d) 0 x)

theorem State.reg_putReduced (vlmax x : Nat) (d k : VR) (v : Vect) : (s.putReduced vlmax d x v).reg k =
    if k = d then settle s.vtype (s.fmtOf d) (fun _ => true) 0 1 vlmax ((v.reg d).setElem (s.fmtOf d) 0 x)
    else v.reg k := by
  rw [State.putReduced, State.reg_redTail, Vect.reg_putElem, Vect.reg_putElem, if_pos rfl]
  split <;> rfl

theorem doRed_eq (i : Instr) {o : RedOp} (hl : LengthOk s { vd := some vd, va := some va } m)
    (hok : s.redOk o vd va = true) :
    let n : Names := { vd := some vd, va := some va }
    let r := s.reduce o m vd va s.vl
    doRed i o m vd va s = s.runPlan i
      { s.wholePlan n [vd] {} r.flags (s.activeFrom m 0) (s.putReduced (s.vlmaxOf n) vd r.val) with
        hurt := fun _ => [0] } := by
  rw [doRed, hok, State.tagChecks_ok hl.1 fun _ => hl.2]
  rfl

/-- A reduction completes (R133). -/
theorem red_completes {o : RedOp} {m : VMod} (h : FreeToRun (o.instr m vd va) s)
    (hl : LengthOk s { vd := some vd, va := some va } m.mask) (hok : s.redOk o vd va = true)
    (hfl : trapEnabled s.vtype (s.reduce o m.mask vd va s.vl).flags = false) :
    ∃ t, exec (o.instr m vd va) s = .next t ∧ VectorFrame s t [vd] ∧ t.r.queues = s.r.queues ∧
      t.r.vect.rngctr = s.r.vect.rngctr ∧
      t.r.vect.vflags = s.r.vect.vflags ||| (s.reduce o m.mask vd va s.vl).flags.bits ∧
      FirstElement s t vd (s.vlmaxOf { vd := some vd, va := some va }) (s.reduce o m.mask vd va s.vl).val := by
  rw [exec_red]
  obtain ⟨t, ht, hframe, hq, hrng, hvf, hread⟩ := whole_completes (a := 0) (b := 0) h (doRed_eq _ hl hok) hfl rfl
    fun k hk => (State.reg_putReduced ..).trans (if_neg (by simpa using hk))
  exact ⟨t, ht, hframe, hq, hrng, hvf,
    firstElement_of_settled ((hread vd).trans ((State.reg_putReduced ..).trans (if_pos rfl)))⟩

/-! ### Scans -/

theorem State.mem_activeFrom {start j : Nat} :
    j ∈ s.activeFrom m start ↔ (start ≤ j ∧ j < s.vl) ∧ s.active m j = true := by
  rw [State.activeFrom, List.mem_filter, List.range_eq_range', List.drop_range', List.mem_range'_1]
  refine and_congr_left fun _ => ?_
  omega

/-- The active elements written and the rest settled (R72, R117). -/
theorem elementResult_of_settled {d : VR} {start vlmax : Nat} {val : Nat → Nat} (hv : s.vl ≤ vlmax)
    (h : t.vreg d = settle s.vtype (s.fmtOf d) (fun i => s.active m i) start s.vl vlmax
      ((s.activeFrom m start).foldl (fun (x : VReg) (j : Nat) => x.setElem (s.fmtOf d) j (val j)) (s.vreg d))) :
    ElementResult s t m d start vlmax val := by
  rw [ElementResult, ElementsAre, h, settle_tag, settle_side]
  refine ⟨VReg.foldl_keeps VReg.tag _ (VReg.setElem_tag · _ · _) _ _,
    VReg.foldl_keeps VReg.side _ (VReg.setElem_side · _ · _) _ _, fun j hj => ?_⟩
  rw [elem_settle _ _ _ _ _ _ _ _ hj, VReg.elem_foldl_setElem _ _ _ hj]
  simp only [State.mem_activeFrom]
  by_cases hvl : j < s.vl
  · have hmax : j < vlmax := by omega
    by_cases hst : start ≤ j
    · cases s.active m j <;> simp [hvl, hmax, hst, Nat.not_lt.mpr hst]
    · simp [hvl, hmax, hst, Nat.lt_of_not_le hst]
  · simp [hvl]

theorem VectorGives.congr {i : Instr} {start vlmax : Nat} {fl : Flags} {val val' : Nat → Nat}
    (h : VectorGives i s m vd start vlmax fl val)
    (hval : ∀ j, val j % 2 ^ (s.fmtOf vd).width = val' j % 2 ^ (s.fmtOf vd).width) :
    VectorGives i s m vd start vlmax fl val' := by
  obtain ⟨t, ht, ⟨htag, hside, helem⟩, hrest⟩ := h
  refine ⟨t, ht, ⟨htag, hside, fun j hj => ?_⟩, hrest⟩
  rw [helem j hj, hval]

/-- The act of a scan. -/
def State.putScan (s : State) (o : RedOp) (m : Mask) (vd va : VR) (vlmax : Nat) (v : Vect) : Vect :=
  s.settleReg m 0 vlmax vd ((s.activeFrom m 0).foldl
    (fun (v : Vect) (j : Nat) => v.putElem vd (s.fmtOf vd) j (s.reduce o m vd va (j + 1)).val) v)

theorem State.reg_putScan (o : RedOp) (vlmax : Nat) (k : VR) (v : Vect) : (s.putScan o m vd va vlmax v).reg k =
    if k = vd then settle s.vtype (s.fmtOf vd) (fun i => s.active m i) 0 s.vl vlmax ((s.activeFrom m 0).foldl
      (fun (x : VReg) (j : Nat) => x.setElem (s.fmtOf vd) j (s.reduce o m vd va (j + 1)).val) (v.reg vd))
    else v.reg k := by
  have hfold := Vect.foldl_putElem vd (s.fmtOf vd) (fun j => (s.reduce o m vd va (j + 1)).val) (s.activeFrom m 0) v
  rw [State.putScan, State.settleReg, Vect.reg_setReg, (hfold k).1, (hfold vd).1, if_pos rfl]
  split <;> rfl

theorem State.rest_putScan (o : RedOp) (vlmax : Nat) (v : Vect) : (s.putScan o m vd va vlmax v).rest = v.rest :=
  (Vect.foldl_putElem vd (s.fmtOf vd) (fun j => (s.reduce o m vd va (j + 1)).val) (s.activeFrom m 0) v vd).2

/-- The flags of a scan: those of each of its reductions. -/
def State.scanFlags (s : State) (o : RedOp) (m : Mask) (vd va : VR) : Flags :=
  (s.activeFrom m 0).foldl (fun fl j => fl.or (s.reduce o m vd va (j + 1)).flags) {}

theorem doScan_eq (i : Instr) {o : RedOp} (hl : LengthOk s { vd := some vd, va := some va } m)
    (hok : s.redOk o vd va = true) :
    let n : Names := { vd := some vd, va := some va }
    doScan i o m vd va s = s.runPlan i { s.wholePlan n [vd] {} (s.scanFlags o m vd va) (s.activeFrom m 0)
        (s.putScan o m vd va (s.vlmaxOf n)) with
      hurt := fun es => (s.activeFrom m 0).filter fun e => es.any fun x => x ≤ e } := by
  rw [doScan, hok, State.tagChecks_ok hl.1 fun _ => hl.2]
  simp only [bind, Except.bind, List.foldl_map]
  rfl

/-- A scan completes (R135). -/
theorem scan_completes {m : VMod} {op : Fin 5} (h : FreeToRun (.vscan m vd va op) s)
    (hl : LengthOk s { vd := some vd, va := some va } m.mask) (hok : s.redOk (redOpOf op.val) vd va = true)
    (hfl : trapEnabled s.vtype (s.scanFlags (redOpOf op.val) m.mask vd va) = false) :
    VectorGives (.vscan m vd va op) s m.mask vd 0 (s.vlmaxOf { vd := some vd, va := some va })
      (s.scanFlags (redOpOf op.val) m.mask vd va) fun j => (s.reduce (redOpOf op.val) m.mask vd va (j + 1)).val := by
  obtain ⟨t, ht, hframe, hq, hrng, hvf, hread⟩ := whole_completes (a := 0) (b := 0) h (doScan_eq _ hl hok) hfl
    (State.rest_putScan ..) fun k hk => (State.reg_putScan ..).trans (if_neg (by simpa using hk))
  exact ⟨t, ht, elementResult_of_settled hl.2 ((hread vd).trans ((State.reg_putScan ..).trans (if_pos rfl))),
    hframe, hq, hrng, hvf⟩

end

/-! ### Two-sum reductions (R57, R134) -/

section
variable {vd va vb : VR} {m : Mask}

/-- The root of the two-sum tree of the active pairs (R57). -/
def State.tsRoot (s : State) (m : Mask) (va vb : VR) : Flagged (XVal × XVal) :=
  (tree (tsNode (redFormat (opFormat (s.vreg va).opf (s.vreg vb).opf)) s.modes.ftz) (s.leaves m 0 s.vl fun j =>
    { val := ((s.vreg va).src s.modes.daz j, (s.vreg vb).src s.modes.daz j) })).getD { val := (.zero false, .zero false) }

/-- A part of the root rounded to nearest into a destination, NV for a signalling NaN (R57). -/
def FF.roundRoot (f : FF) (md : Modes) (x : XVal) : Flagged Nat :=
  let r := f.roundBy (.mode .rne) md.ftz md.sat x
  { val := r.val, flags := r.flags.or (nvIf x.isSnan) }

/-- A part of the root as VREDTS writes it. -/
def State.tsPart (s : State) (d : VR) (x : XVal) : Flagged Nat :=
  match s.fmtOf d with
  | .fp f => f.roundRoot s.modes x
  | _ => { val := 0 }

theorem State.tsPart_eq {d : VR} {f : FF} (h : s.fmtOf d = .fp f) (x : XVal) : s.tsPart d x = f.roundRoot s.modes x := by
  rw [State.tsPart, h]

/-- The act of VREDTS. -/
def State.putPair (s : State) (vlmax : Nat) (d d1 : VR) (x y : Nat) (v : Vect) : Vect :=
  s.redTail vlmax d1 (s.redTail vlmax d ((v.putElem d (s.fmtOf d) 0 x).putElem d1 (s.fmtOf d1) 0 y))

theorem State.reg_putPair {vlmax x y : Nat} {d d1 : VR} (hd : d1 ≠ d) (k : VR) (v : Vect) :
    (s.putPair vlmax d d1 x y v).reg k =
      if k = d1 then settle s.vtype (s.fmtOf d1) (fun _ => true) 0 1 vlmax ((v.reg d1).setElem (s.fmtOf d1) 0 y)
      else if k = d then settle s.vtype (s.fmtOf d) (fun _ => true) 0 1 vlmax ((v.reg d).setElem (s.fmtOf d) 0 x)
      else v.reg k := by
  simp only [State.putPair, State.reg_redTail, Vect.reg_putElem, if_pos, if_neg hd, if_neg hd.symm]
  split_ifs <;> rfl

theorem VR.succ_ne (d : VR) : d + 1 ≠ d := by simp

theorem doRedts_eq (i : Instr) (hka : s.kind va = .float) (hkb : s.kind vb = .float)
    (hd : s.destKind vd = .float) (hd' : s.destKind (vd + 1) = .float)
    (hl : LengthOk s { vd := some vd, va := some va, vb := some vb, more := [vd + 1] } m) :
    let n : Names := { vd := some vd, va := some va, vb := some vb, more := [vd + 1] }
    let root := s.tsRoot m va vb
    let h := s.tsPart vd root.val.1
    let l := s.tsPart (vd + 1) root.val.2
    doRedts i m vd va vb s = s.runPlan i
      { s.wholePlan n [vd, vd + 1] {} (root.flags.or (h.flags.or l.flags)) (s.activeFrom m 0)
          (s.putPair (s.vlmaxOf n) vd (vd + 1) h.val l.val) with
        hurt := fun _ => [0] } := by
  have hok : (s.kind va == .float && s.kind vb == .float && s.destKind vd == .float &&
      s.destKind (vd + 1) == .float) = true := by simp [hka, hkb, hd, hd']
  simp only [doRedts, hok, State.tagChecks_ok hl.1 fun _ => hl.2]
  rfl

/-- VREDTS completes (R134). -/
theorem redts_completes {m : VMod} {g g' : FF} (h : FreeToRun (.vredts m vd va vb) s) (hka : s.kind va = .float)
    (hkb : s.kind vb = .float) (hd : s.destKind vd = .float) (hd' : s.destKind (vd + 1) = .float)
    (hg : s.fmtOf vd = .fp g) (hg' : s.fmtOf (vd + 1) = .fp g') (hnt : NoFpTraps s)
    (hl : LengthOk s { vd := some vd, va := some va, vb := some vb, more := [vd + 1] } m.mask) :
    let vlmax := s.vlmaxOf { vd := some vd, va := some va, vb := some vb, more := [vd + 1] }
    let root := s.tsRoot m.mask va vb
    let h := g.roundRoot s.modes root.val.1
    let l := g'.roundRoot s.modes root.val.2
    ∃ t, exec (.vredts m vd va vb) s = .next t ∧ VectorFrame s t [vd, vd + 1] ∧ t.r.queues = s.r.queues ∧
      t.r.vect.vflags = s.r.vect.vflags ||| (root.flags.or (h.flags.or l.flags)).bits ∧
      FirstElement s t vd vlmax h.val ∧ FirstElement s t (vd + 1) vlmax l.val := by
  have hne := VR.succ_ne vd
  obtain ⟨t, ht, hframe, hq, -, hvf, hread⟩ := whole_completes (a := 0) (b := 0) h
    (doRedts_eq _ hka hkb hd hd' hl) (hnt.trapEnabled _) rfl fun k hk => by
      simp only [List.mem_cons, List.not_mem_nil, or_false, not_or] at hk
      rw [State.reg_putPair hne, if_neg hk.2, if_neg hk.1]
      rfl
  rw [State.tsPart_eq hg, State.tsPart_eq hg'] at hvf
  refine ⟨t, ht, hframe, hq, hvf, firstElement_of_settled ?_, firstElement_of_settled ?_⟩
  · rw [hread, State.reg_putPair hne, if_neg hne.symm, if_pos rfl, State.tsPart_eq hg]
    rfl
  · rw [hread, State.reg_putPair hne, if_pos rfl, State.tsPart_eq hg']
    rfl

/-! ### Reductions by the kind of their registers -/

theorem State.redOk_int (o : RedOp) (hk : s.kind va = .int) (hd : s.destKind vd = .int) : s.redOk o vd va = true := by
  simp [State.redOk, hk, hd]

theorem State.redOk_float {o : RedOp} (hk : s.kind va = .float) (hd : s.destKind vd = .float) (hand : o ≠ .and)
    (hor : o ≠ .or) : s.redOk o vd va = true := by
  simp [State.redOk, hk, hd, hand, hor]

theorem State.scanFlags_int (o : RedOp) (hd : s.destKind vd = .int) : s.scanFlags o m vd va = {} := by
  unfold State.scanFlags
  simp only [State.reduce_int_flags _ _ hd]
  exact List.foldl_fixed' (fun _ => rfl) _

/-- What a reduction into a floating register delivers (R54). -/
def State.floatResult (s : State) (g : FF) (o : RedOp) (m : Mask) (va : VR) (k : Nat) : Flagged Nat :=
  let x := (s.fpRoot s.modes o m va k).getD { val := o.fpId }
  let r := g.deliver s.modes { val := x.val, flags := nvIf x.val.isSnan }
  { val := r.val, flags := x.flags.or r.flags }

theorem State.reduce_float {g : FF} (o : RedOp) (k : Nat) (hg : s.fmtOf vd = .fp g) :
    s.reduce o m vd va k = s.floatResult g o m va k := by
  unfold State.reduce
  rw [hg]
  rfl

theorem redOpOf_float {op : Fin 5} (h : op.val < 3) : redOpOf op.val ≠ .and ∧ redOpOf op.val ≠ .or := by
  revert op; decide

theorem redOpOf_of_lt {op : Fin 5} (h : op.val < 3) :
    redOpOf op.val = match op.val with | 0 => RedOp.sum | 1 => .min | _ => .max := by
  revert op; decide

end

section
variable {vd va : VR} {m : VMod}

/-- A reduction of integers (R133). -/
theorem int_red_completes {o : RedOp} (hk : s.kind va = .int) (hd : s.destKind vd = .int)
    (hl : LengthOk s { vd := some vd, va := some va } m.mask) (h : FreeToRun (o.instr m vd va) s) :
    ∃ t, exec (o.instr m vd va) s = .next t ∧ VectorFrame s t [vd] ∧ QuietFrame s t ∧
      FirstElement s t vd (s.vlmaxOf { vd := some vd, va := some va }) (s.intResult m.mask vd va s.vl o) := by
  have hflags := State.reduce_int_flags (m := m.mask) (va := va) o s.vl hd
  obtain ⟨t, ht, hframe, hq, hrng, hvf, hfirst⟩ := red_completes h hl (State.redOk_int o hk hd)
    (hflags ▸ trapEnabled_none _)
  rw [hflags] at hvf
  exact ⟨t, ht, hframe, ⟨hvf.trans BitVec.or_zero, hq, hrng⟩, hfirst.congr (State.reduce_eq_intResult o s.vl hd)⟩

/-- A scan of integers (R135). -/
theorem int_scan_completes {op : Fin 5} (hk : s.kind va = .int) (hd : s.destKind vd = .int)
    (hl : LengthOk s { vd := some vd, va := some va } m.mask) (h : FreeToRun (.vscan m vd va op) s) :
    VectorGives (.vscan m vd va op) s m.mask vd 0 (s.vlmaxOf { vd := some vd, va := some va }) {}
      fun j => s.intResult m.mask vd va (j + 1) (redOpOf op.val) := by
  have hflags := State.scanFlags_int (m := m.mask) (va := va) (redOpOf op.val) hd
  have hgives := scan_completes h hl (State.redOk_int _ hk hd) (hflags ▸ trapEnabled_none _)
  rw [hflags] at hgives
  exact hgives.congr fun j => State.reduce_eq_intResult _ (j + 1) hd

/-- A reduction of floating numbers (R133). -/
theorem float_red_completes {o : RedOp} {g : FF} (hk : s.kind va = .float) (hd : s.destKind vd = .float)
    (hg : s.fmtOf vd = .fp g) (hnt : NoFpTraps s) (hand : o ≠ .and) (hor : o ≠ .or) (h : FreeToRun (o.instr m vd va) s)
    (hl : LengthOk s { vd := some vd, va := some va } m.mask) :
    ∃ t, exec (o.instr m vd va) s = .next t ∧ VectorFrame s t [vd] ∧ t.r.queues = s.r.queues ∧
      t.r.vect.vflags = s.r.vect.vflags ||| (s.floatResult g o m.mask va s.vl).flags.bits ∧
      FirstElement s t vd (s.vlmaxOf { vd := some vd, va := some va }) (s.floatResult g o m.mask va s.vl).val := by
  obtain ⟨t, ht, hframe, hq, -, hvf, hfirst⟩ := red_completes h hl (State.redOk_float hk hd hand hor) (hnt.trapEnabled _)
  rw [State.reduce_float o s.vl hg] at hvf hfirst
  exact ⟨t, ht, hframe, hq, hvf, hfirst⟩

/-- A scan of floating numbers (R135). -/
theorem float_scan_completes {op : Fin 5} {g : FF} (hk : s.kind va = .float) (hd : s.destKind vd = .float)
    (hg : s.fmtOf vd = .fp g) (hnt : NoFpTraps s) (hop : op.val < 3) (h : FreeToRun (.vscan m vd va op) s)
    (hl : LengthOk s { vd := some vd, va := some va } m.mask) :
    VectorGives (.vscan m vd va op) s m.mask vd 0 (s.vlmaxOf { vd := some vd, va := some va })
      ((s.activeFrom m.mask 0).foldl (fun fl j => fl.or (s.floatResult g (redOpOf op.val) m.mask va (j + 1)).flags) {})
      fun j => (s.floatResult g (redOpOf op.val) m.mask va (j + 1)).val := by
  obtain ⟨hand, hor⟩ := redOpOf_float hop
  have hgives := scan_completes h hl (State.redOk_float hk hd hand hor) (hnt.trapEnabled _)
  simpa only [State.scanFlags, State.reduce_float _ _ hg] using hgives

end

/-- Settles O33: the tree of an associative operation is a fold of its leaves, a whole-result instruction writes what its
act does, and each instruction's result is one of these. -/
theorem reductions : Obligations.Reductions := by
  refine ⟨fun s m vd va op hk hd => ?_, fun s m vd va vb op g hk hd hg hnt => ?_⟩
  · intro n d sg xs fit sum least most all any runs hl
    refine ⟨int_red_completes (o := .sum) hk hd hl, int_red_completes (o := .min) hk hd hl,
      int_red_completes (o := .max) hk hd hl, int_red_completes (o := .and) hk hd hl,
      int_red_completes (o := .or) hk hd hl, fun h => ?_⟩
    have hgives := int_scan_completes hk hd hl h
    fin_cases op <;> exact hgives
  · intro n md root first runs
    refine ⟨float_red_completes (o := .sum) hk hd hg hnt (by decide) (by decide),
      float_red_completes (o := .min) hk hd hg hnt (by decide) (by decide),
      float_red_completes (o := .max) hk hd hg hnt (by decide) (by decide), fun hop h hl => ?_, fun g' hkb hd' hg' => ?_⟩
    · have hgives := float_scan_completes hk hd hg hnt hop h hl
      rw [redOpOf_of_lt hop] at hgives
      exact hgives
    · exact fun h hl => redts_completes h hk hkb hd hd' hg hg' hnt hl

end Sys2Proof.Machine
end

section
/-! Words (O1, O2): the fields of a word read back, the function maps, and parsing the word of an instruction. -/

namespace Sys2Proof

/-! ### Parts of fields -/

/-- A part of a field, from the field. -/
theorem field_part {n lo len : Nat} {w : BitVec n} {x : BitVec len} (h : w.extractLsb' lo len = x) (a b : Nat)
    (hb : a + b ≤ len) : w.extractLsb' (lo + a) b = x.extractLsb' a b := by
  subst h
  apply BitVec.eq_of_getLsbD_eq
  intro i hi
  simp [hi, show a + i < len by omega, Nat.add_assoc]

section
variable (op : BitVec 6) (fn : BitVec 8) (sd sa sb : BitVec 6) (imm : BitVec 32)

@[simp] theorem field_encS_imm (lo len : Nat) (h : lo + len ≤ 32) :
    field (encS op fn sd sa sb imm) lo len = imm.extractLsb' lo len := by
  simpa using field_part (encS_imm op fn sd sa sb imm) lo len h

@[simp] theorem field_encS_queue : field (encS op fn sd sa sb imm) 32 2 = sb.extractLsb' 0 2 :=
  field_part (encS_sb op fn sd sa sb imm) 0 2 (by decide)

end

section
variable (op : BitVec 6) (fn : BitVec 7) (m : VMod) (vd va vb vc : BitVec 5) (bs : BitVec 1) (ss : BitVec 6)
  (imm : BitVec 16)

@[simp] theorem field_encV_imm (lo len : Nat) (h : lo + len ≤ 16) :
    field (encV op fn m vd va vb vc bs ss imm) lo len = imm.extractLsb' lo len := by
  simpa using field_part (encV_imm op fn m vd va vb vc bs ss imm) lo len h

@[simp] theorem field_encV_vd_queue : field (encV op fn m vd va vb vc bs ss imm) 45 2 = vd.extractLsb' 0 2 :=
  field_part (encV_vd op fn m vd va vb vc bs ss imm) 0 2 (by decide)

@[simp] theorem field_encV_va_queue : field (encV op fn m vd va vb vc bs ss imm) 40 2 = va.extractLsb' 0 2 :=
  field_part (encV_va op fn m vd va vb vc bs ss imm) 0 2 (by decide)

/-- The step of VIDX lies in the two fields vb and vc (R139). -/
theorem field_encV_step : field (encV op fn m vd va vb vc bs ss imm) 30 10 = vb ++ vc := by
  have hvb := encV_vb op fn m vd va vb vc bs ss imm
  have hvc := encV_vc op fn m vd va vb vc bs ss imm
  exact (BitVec.extractLsb'_append_extractLsb'_eq_extractLsb' (by decide)).symm.trans (congrArg₂ (· ++ ·) hvb hvc)

end

@[simp] theorem field_encM_imm (op : BitVec 6) (fn : BitVec 7) (m : MMod) (vd vi : BitVec 5) (sa sb : BitVec 6)
    (imm : BitVec 16) (lo len : Nat) (h : lo + len ≤ 16) :
    field (encM op fn m vd vi sa sb imm) lo len = imm.extractLsb' lo len := by
  simpa using field_part (encM_imm op fn m vd vi sa sb imm) lo len h

section
variable (fn : BitVec 8) (za lt : BitVec 2) (sa sb : BitVec 6) (vi : BitVec 5) (sr : Bool) (imm : BitVec 24)

@[simp] theorem field_encT_imm (lo len : Nat) (h : lo + len ≤ 24) :
    field (encT fn za lt sa sb vi sr imm) lo len = imm.extractLsb' lo len := by
  simpa using field_part (encT_imm fn za lt sa sb vi sr imm) lo len h

@[simp] theorem field_encT_lt_hi : field (encT fn za lt sa sb vi sr imm) 47 1 = lt.extractLsb' 1 1 :=
  field_part (encT_lt fn za lt sa sb vi sr imm) 1 1 (by decide)

@[simp] theorem field_encT_lt_lo : field (encT fn za lt sa sb vi sr imm) 46 1 = lt.extractLsb' 0 1 :=
  field_part (encT_lt fn za lt sa sb vi sr imm) 0 1 (by decide)

end

/-! ### Codes read back -/

@[simp] theorem bit1_beq_one (b : Bool) : (bit1 b == 1#1) = b := bit1_beq b
@[simp] theorem bit1_eq_one (b : Bool) : (bit1 b = 1#1) = (b = true) := by cases b <;> simp
@[simp] theorem ffmtOf_bits (f : FFmt) : ffmtOf f.bits = .ok f := by cases f <;> rfl
@[simp] theorem lsizeOf_bits (z : LSize) : lsizeOf z.bits = .ok z := by cases z <;> rfl
@[simp] theorem ssizeOf_bits (z : SSize) : ssizeOf z.bits = .ok z := by cases z <;> rfl
@[simp] theorem fenceKindOf_bits (k : FenceKind) : fenceKindOf k.bits = k := by cases k <;> rfl
@[simp] theorem wcondOf_bits (c : WCond) : wcondOf c.bits = .ok c := by cases c <;> rfl
@[simp] theorem kindOf_bits (k : Kind) : kindOf k.bits = .ok k := by cases k <;> rfl
@[simp] theorem latchOf_bits (l : Latch) : latchOf l.bits = l := by cases l <;> rfl
@[simp] theorem outFmtOf_bits (o : OutFmt) : outFmtOf o.bits = o := by cases o <;> rfl
@[simp] theorem vbOf_bits (b : VB) : vbOf b.bits.2.1 b.bits.1 b.bits.2.2 = b := by cases b <;> rfl
@[simp] theorem insOf_bits (i : Option SR) : insOf (insBits i).1 (insBits i).2 = i := by cases i <;> rfl

@[simp] theorem cvtSrcOf_bits (s : CvtSrc) : cvtSrcOf s.bits = .ok s := by
  cases s with
  | fp f => cases f <;> rfl
  | i64 | u64 => rfl

@[simp] theorem cvtDstOf_bits (d : CvtDst) : cvtDstOf d.bits.1 d.bits.2 = .ok d := by
  cases d with
  | fp f => cases f <;> rfl
  | i64 | u64 => rfl

/-- FN[2:0] of FCVT is a format, an integer destination's too. -/
theorem ffmtOf_cvtDst (d : CvtDst) : ∃ f, ffmtOf d.bits.2 = .ok f := by
  cases d with
  | fp f => exact ⟨f, ffmtOf_bits f⟩
  | i64 | u64 => exact ⟨.f32, rfl⟩

@[simp] theorem finOf_val {n : Nat} (k : Fin n) : finOf n k.val = .ok k := by simp [finOf]

@[simp] theorem finOf_val_mod {n l : Nat} (k : Fin n) (h : n ≤ l) : finOf n (k.val % l) = .ok k := by
  rw [Nat.mod_eq_of_lt (k.isLt.trans_le h), finOf_val]

theorem opbOf_bits {b : OpB} (h : b.wf = true) : opbOf b.bits.1 b.bits.2 = b := by
  cases b with
  | imm i => rfl
  | reg r =>
    have hr : ¬srBits r = 0#6 := fun h0 => (bne_iff_ne.mp h) (congrArg BitVec.toFin h0)
    simp [opbOf, OpB.bits, hr]

theorem OpB.wf_of_wfField {b : OpB} (h : b.wfField = true) : b.wf = true := by
  cases b with
  | imm i => rfl
  | reg r => exact h

/-- A register below s32 is the five low bits of its field (R178). -/
theorem srOf_low {r : SR} (h : r.val < 32) : srOf (0#1 ++ (srBits r).extractLsb' 0 5) = r := by
  apply Fin.ext
  change (0#1 ++ (srBits r).extractLsb' 0 5).toNat = r.val
  rw [BitVec.toNat_append]
  simp [Nat.mod_eq_of_lt h]

/-! ### The function maps of R68 -/

theorem parse_encOpB {fn : BitVec 8} {c : SR → SR → OpB → Instr} (hc : ialuOf fn.toNat = some c) {d a : SR} {b : OpB}
    (hb : b.wf = true) : parse (encOpB fn d a b) = .ok (c d a b) := by
  simp [parse, parseScalar, encOpB, hc, opbOf_bits hb]

theorem parse_ialu1 {fn : BitVec 8} {c : SR → SR → Instr} (hn : ialuOf fn.toNat = none) (hc : ialu1Of fn.toNat = some c)
    (d a : SR) : parse (encS 0x01 fn (srBits d) (srBits a) 0 0) = .ok (c d a) := by
  simp [parse, parseScalar, hn, hc]

theorem parse_branch {fn : BitVec 8} {c : SR → SR → BitVec 32 → Instr} (hc : brOf fn.toNat = some c) (a b : SR)
    (off : BitVec 32) : parse (encS 0x06 fn 0 (srBits a) (srBits b) off) = .ok (c a b off) := by
  simp [parse, parseControl, hc]

theorem parse_valu2 {fn : BitVec 7} {c : VMod → VR → VR → VB → Instr} (hc : valu2Of fn.toNat = some c) (m : VMod)
    (d a : VR) (b : VB) : parse (encVB 0x10 fn m d a b 0 0) = .ok (c m d a b) := by
  simp [parse, parseVector, encVB, hc]

theorem parse_valu3 {fn : BitVec 7} {c : VMod → VR → VR → VB → VR → Instr} (hn : valu2Of fn.toNat = none)
    (hc : valu3Of fn.toNat = some c) (m : VMod) (d a : VR) (b : VB) (e : VR) :
    parse (encVB 0x10 fn m d a b (vrBits e) 0) = .ok (c m d a b e) := by
  simp [parse, parseVector, encVB, hn, hc]

theorem parse_valu1 {fn : BitVec 7} {c : VMod → VR → VR → Instr} (hn : valu2Of fn.toNat = none)
    (hn' : valu3Of fn.toNat = none) (hc : valu1Of fn.toNat = some c) (m : VMod) (d a : VR) :
    parse (encV1 0x10 fn m d a 0) = .ok (c m d a) := by
  simp [parse, parseVector, encV1, hn, hn', hc]

theorem parse_vred1 {fn : BitVec 7} {c : VMod → VR → VR → Instr} (hc : vred1Of fn.toNat = some c) (m : VMod)
    (d a : VR) : parse (encV1 0x13 fn m d a 0) = .ok (c m d a) := by
  simp [parse, parseVector, encV1, hc]

theorem parse_vamo {fn : BitVec 7} {c : MMod → VR → VR → SR → BitVec 16 → Instr} (hc : vamoOf fn.toNat = some c)
    (hk : fn.toNat ≤ 3) (m : MMod) (d i : VR) (a : SR) (off : BitVec 16) :
    parse (encM 0x1F fn m (vrBits d) (vrBits i) (srBits a) 0 off) = .ok (c m d i a off) := by
  simp [parse, parseMemory, hk, hc]

/-! The lemmas about the parts of an appended field, field_hi and field_lo, match the sum of its widths: simp is kept from
adding it up. -/

theorem parse_encF {op : BitVec 5} {c : FFmt → SR → SR → SR → Instr} (hc : falu3Of op.toNat = some c) (f : FFmt)
    (d a b : SR) (imm : BitVec 32) : parse (encF op f d a b imm) = .ok (c f d a b) := by
  simp (disch := decide) [-Nat.reduceAdd, parse, parseScalar, encF, field_hi, field_lo, hc]

theorem parse_encAmo {op : BitVec 4} {c : Bool → Order → Scope → SR → SR → SR → Instr} (hc : amoOf op.toNat = some c)
    (z : Bool) (o : Order) (s : Scope) (d b a : SR) : parse (encAmo op z o s d b a) = .ok (c z o s d b a) := by
  simp (disch := decide) [-Nat.reduceAdd, parse, parseScalar, encAmo, field_hi, field_lo, hc]

theorem parse_ld (z : LSize) (acq : Bool) (s : Scope) (d a : SR) (off : BitVec 32) :
    parse (encS 0x03 (s.bits ++ 0#1 ++ bit1 acq ++ z.bits) (srBits d) (srBits a) 0 off) = .ok (.ld z acq s d a off) := by
  have hord : (orderOf ((s.bits ++ 0#1 ++ bit1 acq).extractLsb' 0 2)).wfLoad = true := by cases s <;> cases acq <;> rfl
  simp (disch := decide) [-Nat.reduceAdd, parse, parseScalar, field_hi, field_lo, hord]

theorem parse_st (z : SSize) (rel : Bool) (s : Scope) (b a : SR) (off : BitVec 32) :
    parse (encS 0x04 (s.bits ++ bit1 rel ++ 0#1 ++ z.bits) 0 (srBits a) (srBits b) off) = .ok (.st z rel s b a off) := by
  have hord : (orderOf ((s.bits ++ bit1 rel ++ 0#1).extractLsb' 0 2)).wfStore = true := by cases s <;> cases rel <;> rfl
  simp (disch := decide) [-Nat.reduceAdd, parse, parseScalar, field_hi, field_lo, hord]

theorem parse_fcvt (d a : SR) (s : CvtSrc) (t : CvtDst) :
    parse (encS 0x02 (9#5 ++ t.bits.2) (srBits d) (srBits a) 0 (0#24 ++ t.bits.1 ++ s.bits)) = .ok (.fcvt d a s t) := by
  obtain ⟨f, hf⟩ := ffmtOf_cvtDst t
  simp (disch := decide) [-Nat.reduceAdd, parse, parseScalar, field_hi, field_lo, hf, falu3Of]

theorem parse_fence (k : FenceKind) (s : Scope) :
    parse (encS 0x09 0x5 0 0 0 (0#27 ++ s.bits ++ k.bits)) = .ok (.fence k s) := by
  simp (disch := decide) [-Nat.reduceAdd, parse, parseControl, field_hi, field_lo, Except.map]

theorem parse_leaseW (d : SR) (k : Kind) (p : Fin 8) :
    parse (encS 0x22 0 (srBits d) 0 0 (0#23 ++ 1#1 ++ 0#1 ++ (BitVec.ofFin p : BitVec 3) ++ k.bits)) = .ok (.leaseW d k p) := by
  have hp : ∀ p : Fin 8, finOf 8 ((16 ||| p.val) % 16) = .ok p := by decide
  simp (disch := decide) [-Nat.reduceAdd, parse, parseSync, field_hi, field_lo, hp]

theorem parse_vsetvlQueue {q : QR} (hq : 2 ≤ q.val) (s : SR) (cap : BitVec 16) :
    parse (encV 0x14 0x04 {} (0#3 ++ (BitVec.ofFin q : BitVec 2)) 0 0 0 1 (srBits s) cap) = .ok (.vsetvlQueue q s cap) := by
  obtain rfl | rfl : q = 2 ∨ q = 3 := by fin_cases q <;> simp at hq ⊢
  all_goals simp [parse, parseVector]

/-! ### Parsing the word of an instruction -/

/-- The word of an instruction, if it has one, is parsed as this instruction. -/
def ParsesBack (i : Instr) : Prop := ∀ w, encode i = some w → parse w = .ok i

theorem ParsesBack.of {i : Instr} {w : Word} (h : encode i = some w) (k : parse w = .ok i) : ParsesBack i :=
  fun v hv => by rwa [← Option.some.inj (h.symm.trans hv)]

theorem parsesBack {i : Instr} (h : i.wf = true) (hu : ∀ x, i ≠ .unassignedPattern x) : ParsesBack i := by
  cases i
  case add | sub | and | or | xor | andn | shl | shr | sar | rol | slt | sltu | seq | sne | min | max | minu | maxu | mul
      | mulh | mulhu | div | divu | rem | remu | sel => exact .of rfl (parse_encOpB rfl h)
  case bfx | bfxu | bfi => exact .of rfl (parse_encOpB rfl (OpB.wf_of_wfField h))
  case clz | ctz | popc | brev => exact .of rfl (parse_ialu1 rfl rfl ..)
  case lih | addpc => exact .of rfl (by simp [parse, parseScalar, ialuOf, ialu1Of])
  case fadd | fsub | fmul | ffma | fdiv | fmin | fmax => exact .of rfl (parse_encF rfl ..)
  case fcvt => exact .of rfl (parse_fcvt ..)
  case fsqrt | fcmp | fclass =>
    exact .of rfl (by simp (disch := decide) [-Nat.reduceAdd, encF, parse, parseScalar, field_hi, field_lo, falu3Of,
      Except.map])
  case amoadd | amoand | amoor | amoxor | amomin | amomax | amominu | amomaxu | amoswap | amocas =>
    exact .of rfl (parse_encAmo rfl ..)
  case amofadd =>
    exact .of rfl (by simp (disch := decide) [-Nat.reduceAdd, encAmo, parse, parseScalar, field_hi, field_lo, amoOf])
  case ld => exact .of rfl (parse_ld ..)
  case st => exact .of rfl (parse_st ..)
  case beq | bne | blt | bge | bltu | bgeu => exact .of rfl (parse_branch rfl ..)
  case fence => exact .of rfl (parse_fence ..)
  case jal | jalr | rdcr | wrcr | setcr | clrcr | nop | syscall | brk | eret | exit | ifence | tlbinv | prefetch
      | cflush | cinv | stripBegin | stripNext | stripExit | qpop | qpeek | qpush | bq | bqz =>
    exact .of rfl (by simp (disch := decide) [-Nat.reduceAdd, parse, parseControl, field_lo])
  case launch | ljoin | lcancel | waitw | arrive | waitb | syncb | waitbm | bmtest | bmclr | yield | lease
      | release | lstat | equery =>
    exact .of rfl (by simp (disch := decide) [-Nat.reduceAdd, parse, parseSync, field_hi, field_lo])
  case leaseW => exact .of rfl (parse_leaseW ..)
  case vadd | vsub | vmul | vdiv | vmin | vmax | vand | vor | vxor | vshl | vshr | vsar | vtwosum | vscalb =>
    exact .of rfl (parse_valu2 rfl ..)
  case vfma | vfms | vfnma | vsel => exact .of rfl (parse_valu3 rfl rfl ..)
  case vabs | vneg | vsqrt | vnot | vcvt | vmov => exact .of rfl (parse_valu1 rfl rfl rfl ..)
  case vredsum | vredmin | vredmax | vredand | vredor => exact .of rfl (parse_vred1 rfl ..)
  case vcvtsr | vbcast | vbcastScalar | vqpush | vqpop =>
    exact .of rfl (by simp (disch := decide) [-Nat.reduceAdd, parse, parseVector, field_lo, encV1, encV2, encVQ,
      valu2Of, valu3Of, valu1Of])
  case vcmp | vmpopc | vmfirst | vmany | vslideup | vslidedn | vperm | vcompress | vexpand | vrev | vzip | vunzipe
      | vunzipo | vinsert | vredts | vscan =>
    exact .of rfl (by simp (disch := decide) [-Nat.reduceAdd, parse, parseVector, field_lo, encV1, encV2, encVB, encVQ,
      vred1Of, Except.map])
  case vsetvlQueue => exact .of rfl (parse_vsetvlQueue (of_decide_eq_true h) ..)
  case vidx =>
    exact .of rfl (by simp (disch := decide) [-Nat.reduceAdd, parse, parseVector, field_encV_step])
  case vcfgw | vcfgwTag | vtag | vgettag | vsetvl | vscget | vscset =>
    exact .of rfl (by simp (disch := decide) [-Nat.reduceAdd, parse, parseVector, field_hi, field_lo, encV1, encVQ])
  case sfn | xsort | xtopk | xhist | cred | cgather | cbcast | vrng | rngseed =>
    exact .of rfl (by simp (disch := decide) [-Nat.reduceAdd, parse, parseVector, field_hi, field_lo, encE, Except.map])
  case vld | vlds | vldx | vldff | vst | vsts | vstxo | vstxu | stream | streamseg | copy =>
    exact .of rfl (by simp (disch := decide) [-Nat.reduceAdd, parse, parseMemory, field_hi, field_lo])
  case vamoadd | vamomin | vamomax | vamofadd => exact .of rfl (parse_vamo rfl (by decide) ..)
  case tshape | attach | attachW | detach | tlda | tldb | tldax | tldv | tmma | tzero | tsave | trestore | mfence | mwait =>
    exact .of rfl (by simp (disch := decide) [-Nat.reduceAdd, parse, parseTile, field_hi, field_lo])
  case tst z o a b sr =>
    cases sr with
    | none => exact .of rfl (by simp [parse, parseTile])
    | some r => exact .of rfl (by simp [parse, parseTile, srOf_low (of_decide_eq_true h)])
  case tstv z i sr => cases sr <;> exact .of rfl (by simp [parse, parseTile])
  case unassignedPattern w => exact absurd rfl (hu w)
  all_goals exact fun w hw => nomatch hw

theorem decode_encode {i : Instr} {w : Word} (h : i.wf = true) (hu : ∀ x, i ≠ .unassignedPattern x)
    (he : encode i = some w) : decode w = .ok i := by
  simp [decode, parsesBack h hu w he, he, h]

/-- What the decoder answers is well formed and has the whole word for its encoding: checks 3 and 4 of R70. -/
theorem decode_ok {w : Word} {i : Instr} (h : decode w = .ok i) : i.wf = true ∧ encode i = some w := by
  unfold decode at h
  split at h
  · cases h
    exact ⟨rfl, rfl⟩
  · cases h
  · split at h
    · split at h
      · cases h
        exact ⟨‹_›, ‹_›⟩
      · cases h
    · cases h

/-- Settles O1: every word the encoder gives is parsed back, and the decoder compares the word with the encoder's. -/
theorem encodingRoundTrip : Obligations.EncodingRoundTrip :=
  ⟨fun _ _ h hu he => decode_encode h hu he, fun _ _ h => decode_ok h⟩

/-- Settles O2: each printed word but the last is the encoder's word of its instruction; word 0 lies in no group. -/
theorem printedWordsDecode : Obligations.PrintedWordsDecode := by
  refine ⟨?_, ?_, ?_, ?_, ?_, ?_, ?_, ?_, ?_, ?_, ?_, ?_, ?_, ?_, ?_, ?_, ?_, ?_, ?_, ?_, ?_, ?_, ?_, ?_, rfl⟩
  all_goals exact decode_encode (by decide) nofun (by decide)

end Sys2Proof
end

section
/-! A step of the running runner (O3): the turn of a runner free to go on, and what a fetch leaves of it. -/

namespace Sys2Proof.Machine

section
variable {s t u : State}

/-! ### A fetch leaves the vector queue alone -/

@[simp] theorem State.look_vq (k n : Nat) : (s.look k n).2.r.vq = s.r.vq := by
  unfold State.look
  dsimp only
  split <;> rfl

@[simp] theorem State.exposeOthers_vq (p : Nat → Bool) : (s.exposeOthers p).r.vq = s.r.vq := rfl

@[simp] theorem State.lateFor_vq (o : Obs) (hs : List Hist) : (s.lateFor o hs).2.r.vq = s.r.vq := by
  unfold State.lateFor
  dsimp only
  split <;> rfl

@[simp] theorem State.readBack_vq (o : Obs) (shown : List Nat) : (s.readBack o shown).r.vq = s.r.vq := by
  unfold State.readBack
  split <;> rfl

@[simp] theorem State.seenVia_vq (o : Obs) (l1 : List L1Line) (k n : Nat) : (s.seenVia o l1 k n).2.r.vq = s.r.vq := by
  unfold State.seenVia
  dsimp only
  split <;> simp

@[simp] theorem State.servedBy_vq (v : Via) (k : Nat) : (s.servedBy v k).2.r.vq = s.r.vq := by
  unfold State.servedBy
  dsimp only
  repeat' split
  all_goals rfl

@[simp] theorem State.loadLines_vq (v : Via) (w : Served) (k : Nat) (slice : Option Nat) :
    (s.loadLines v w k slice).r.vq = s.r.vq := by
  unfold State.loadLines State.refillL1
  dsimp only
  split <;> rfl

/-- A computation that does not stop leaves the vector queue as it was. -/
def KeepsVq {α : Type} (s : State) (m : M (α × State)) : Prop := ∀ a t, m = .ok (a, t) → t.r.vq = s.r.vq

theorem State.readAt_vq (o : Obs) (v : Via) (va : Word) (k n : Nat) : KeepsVq s (s.readAt o v va k n) := by
  intro bs t h
  unfold State.readAt State.readBy at h
  dsimp only at h
  split at h
  · cases h
  · split at h
    · unfold State.consume at h
      split at h <;> cases h
    · cases h
      simp [State.readRaw, State.readUnder]

theorem replyBytes_ok {va : Word} {n : Nat} {r : Reply} {bs : List Byte} (h : replyBytes va n r s = .ok (bs, t)) : t = s := by
  cases r with
  | data | done | packed => cases h; rfl
  | page | access => cases h
  | poisoned =>
    unfold replyBytes State.consume at h
    dsimp only at h
    split at h <;> cases h

theorem State.loadFrom_vq (o : Obs) (va : Word) (a : Ask) (k n : Nat) : KeepsVq s (s.loadFrom o va a k n) := by
  intro bs t h
  unfold State.loadFrom State.answer at h
  cases hr : s.r.replies.find? fun x => x.1 == a with
  | none => simp [hr, bind, Except.bind] at h
  | some x =>
    simp only [hr, bind, Except.bind] at h
    split at h
    · cases h
    · rename_i hb
      cases h
      rw [replyBytes_ok hb]

theorem TlbApart.vq (h : TlbApart s t) : t.r.vq = s.r.vq := by
  obtain ⟨_, _, _, _, _, _, rfl⟩ := h
  rfl

theorem State.check_vq (va : Word) (n al : Nat) (k : AccKind) : KeepsVq s (s.check va n al k) := by
  intro a t h
  have hr := (s.resolve_apart va n al k).vq
  unfold State.check at h
  split at h <;> rename_i hx <;> rw [hx] at hr
  · cases h
  · split at h <;> cases h
  · cases h
  · cases h
    exact hr

theorem State.fetchBytes_vq : KeepsVq s s.fetchBytes := by
  intro bs t h
  unfold State.fetchBytes at h
  cases hc : s.check s.pc 8 8 .fetch with
  | error e => simp [hc, bind, Except.bind] at h
  | ok x =>
    obtain ⟨a, u⟩ := x
    have hu := s.check_vq s.pc 8 8 .fetch a u hc
    simp only [hc, bind, Except.bind] at h
    split at h
    · split at h
      · exact (u.loadFrom_vq _ _ _ _ _ _ _ h).trans hu
      · exact (u.readAt_vq _ _ _ _ _ _ _ h).trans hu
    · cases h

/-! ### The turn of a runner free to go on -/

theorem State.drain_of_empty (h : s.r.vq = []) (land : Bool) : s.drain land = s := by
  unfold State.drain
  rw [h]
  split <;> rfl

theorem State.runTurn_of_fetch (hq : s.r.vq = []) (hst : s.r.stat = .ready) (hm : s.mustStop = false) {i : Instr}
    (hf : s.fetch = .ok (i, t)) : s.runTurn = s.runInstr i t := by
  unfold State.runTurn
  simp [s.drain_of_empty hq, hm, hst, State.paused, hq, hf]

theorem State.runTurn_of_stop (hq : s.r.vq = []) (hst : s.r.stat = .ready) (hm : s.mustStop = false) {e : Stop × State}
    (hf : s.fetch = .error e) : s.runTurn = .next ((finish (.error e)).afterInstr s.pc) := by
  unfold State.runTurn
  simp [s.drain_of_empty hq, hm, hst, State.paused, hq, hf]

theorem step_of_no_agenda (h : s.agenda = []) : step s = s.runTurn := by
  unfold step
  rw [h]

/-! ### The scalar registers an instruction reads -/

theorem State.readScalars_ok {i : Instr} (ha : t.awaits i = false)
    (h : t.poisonedScalar i = none ∨ t.reportsFirst i = true) : t.readScalars i = .ok ((), t) := by
  unfold State.readScalars
  rcases h with h | h <;> simp [ha, h]

/-- Outside a protected strip poison is consumed by UNCORR with the register (R341). -/
theorem State.readScalars_poisoned {i : Instr} {n : SR} (ha : t.awaits i = false) (hr : t.reportsFirst i = false)
    (hn : t.poisonedScalar i = some n) (hp : t.r.strip.prot = false) :
    t.readScalars i = .error (.trap .uncorr (BitVec.ofNat 64 (2 ^ 63 + n.val)), t) := by
  simp [State.readScalars, State.consumeReg, stopTrap, regTval, ha, hr, hn, hp]

theorem State.fetch_of_bytes {i : Instr} {bs : List Byte} (hb : s.fetchBytes = .ok (bs, t)) (hd : decodeBytes bs = .ok i) :
    s.fetch = (t.readScalars i).map fun x => (i, x.2) := by
  unfold State.fetch
  simp only [hb, bind, Except.bind, hd]
  cases t.readScalars i <;> rfl

theorem finish_trap_of_empty (h : s.r.vq = []) (c : Cause) (v : Word) :
    finish (.error (.trap c v, s)) = s.enterTrap c v (c == .fabric) := by
  simp [finish, State.scalarTrap, h]

end

/-- Settles O3: the turn of a runner free to go on is its fetch, whose reading of the registers decides. -/
theorem stepRunsTheDecodedInstruction : Obligations.StepRunsTheDecodedInstruction := by
  intro s t i bs hag hq hst hm hb hd
  have hf := State.fetch_of_bytes hb hd
  rw [step_of_no_agenda hag]
  refine ⟨fun ha h => ?_, fun n ha hr hn hp => ?_⟩
  · rw [State.readScalars_ok ha h] at hf
    exact State.runTurn_of_fetch hq hst hm hf
  · rw [State.readScalars_poisoned ha hr hn hp] at hf
    rw [State.runTurn_of_stop hq hst hm hf, finish_trap_of_empty ((State.fetchBytes_vq _ _ hb).trans hq)]
    rfl

end Sys2Proof.Machine
end

section
/-! What a runner waits for comes about (O53): what is done at another runner, and the seven kinds of event. -/

namespace Sys2Proof.Machine

section
variable {s t u v : State} {r : RunnerId} {x : Runner}

/-! ### What is done at another runner -/

theorem State.focus_eq : s.focus r = { s with r := (s.focus r).r, rs := (s.focus r).rs } := by
  unfold State.focus
  split
  · rfl
  · split <;> rfl

theorem State.focus_mem : (s.focus r).mem = s.mem := by
  rw [State.focus_eq]

theorem State.withRunner_mem {f : State → State} (hr : (s.runner? r).isSome = true) :
    (s.withRunner r f).mem = (f (s.focus r)).mem := by
  rw [State.withRunner, if_pos hr, State.focus_mem]

theorem State.Kept.focus (h : s.Kept) : (s.focus r).Kept := by
  unfold State.focus
  split
  · exact h
  · split
    · exact h
    · intro y hy
      rcases List.mem_cons.mp hy with rfl | hy
      · rfl
      · exact h y (List.mem_filter.mp hy).1

/-- The runner that is looked at runs. -/
theorem State.Kept.focus_r (h : s.Kept) (hr : s.runner? r = some x) : (s.focus r).r = x ∧ (s.focus r).rid = r := by
  unfold State.runner? at hr
  unfold State.focus
  split at hr
  · next hid =>
    rw [if_pos hid]
    exact ⟨Option.some.inj hr, hid⟩
  · next hid =>
    obtain ⟨y, hy, rfl⟩ := Option.map_eq_some_iff.mp hr
    rw [if_neg hid, hy]
    refine ⟨rfl, ?_⟩
    exact (h y (List.mem_of_find?_eq_some hy)).symm.trans (by simpa using List.find?_some hy)

/-- Which runner runs does not change what is found under a number. -/
theorem State.Kept.runner?_focus (h : s.Kept) (q : RunnerId) : (s.focus r).runner? q = s.runner? q := by
  by_cases hid : s.rid = r
  · rw [← hid, State.focus_rid]
  · cases hf : s.rs.find? fun y => y.1 == r with
    | none => rw [State.focus, if_neg hid, hf]
    | some y =>
      have hyr : y.1 = r := by simpa using List.find?_some hf
      have hy : y.2.ident.id = r := (h y (List.mem_of_find?_eq_some hf)).symm.trans hyr
      rw [State.focus_of_find? hid hf]
      unfold State.runner?
      rw [show ({ s with r := y.2, rs := (s.rid, s.r) :: s.rs.filter fun y => y.1 != r } : State).rid = r from hy]
      by_cases hq : r = q
      · subst hq
        rw [if_pos rfl, if_neg hid, hf]
        rfl
      · rw [if_neg hq]
        by_cases hs : s.rid = q
        · rw [if_pos hs, List.find?_cons_of_pos (by simpa using hs)]
          rfl
        · rw [if_neg hs, List.find?_cons_of_neg (by simpa using hs), List.find?_filter]
          refine congrArg (fun p => (s.rs.find? p).map Prod.snd) (funext fun a => ?_)
          by_cases ha : a.1 = q
          · simp [ha, Ne.symm hq]
          · simp [ha]

theorem State.mem_allRunners_of_focus {y : Runner} (h : y ∈ (s.focus r).allRunners) : y ∈ s.allRunners := by
  by_cases hid : s.rid = r
  · rwa [State.focus, if_pos hid] at h
  · cases hf : s.rs.find? fun y => y.1 == r with
    | none => rwa [State.focus, if_neg hid, hf] at h
    | some z =>
      rw [State.focus_of_find? hid hf] at h
      rcases List.mem_cons.mp h with rfl | h
      · exact List.mem_cons_of_mem _ (List.mem_map_of_mem (List.mem_of_find?_eq_some hf))
      · rcases List.mem_cons.mp h with rfl | h
        · exact List.mem_cons_self
        · obtain ⟨a, ha, rfl⟩ := List.mem_map.mp h
          exact List.mem_cons_of_mem _ (List.mem_map_of_mem (List.mem_filter.mp ha).1)

/-- The running runner keeps its number and the others are as they were. -/
structure Beside (s t : State) : Prop where
  rid : t.rid = s.rid
  rs : t.rs = s.rs

theorem Beside.refl : Beside s s := ⟨rfl, rfl⟩

theorem Beside.trans (h : Beside s t) (k : Beside t u) : Beside s u := ⟨k.rid.trans h.rid, k.rs.trans h.rs⟩

/-- What is done at a runner alone is found there, and every other runner is found as before. -/
theorem State.Kept.withRunner_runner? {f : State → State} (h : s.Kept) (hr : s.runner? r = some x)
    (hb : Beside (s.focus r) (f (s.focus r))) :
    (s.withRunner r f).runner? r = some (f (s.focus r)).r ∧ ∀ q, q ≠ r → (s.withRunner r f).runner? q = s.runner? q := by
  have hid : (f (s.focus r)).rid = r := hb.rid.trans (h.focus_r hr).2
  have hk : (f (s.focus r)).Kept := by
    intro y hy
    exact h.focus (r := r) y (hb.rs ▸ hy)
  rw [State.withRunner, if_pos (by rw [hr]; rfl)]
  refine ⟨?_, fun q hq => ?_⟩
  · rw [hk.runner?_focus, State.runner?, if_pos hid]
  · rw [hk.runner?_focus, ← h.runner?_focus q (r := r), State.runner?, State.runner?, hb.rs, hid, (h.focus_r hr).2]
    simp [hq.symm]

/-- An event that completes, changes a runner in some way, and leaves every other runner as it was. -/
def Brings (s : State) (r : RunnerId) (i : Instr) (p : State → Runner → Prop) : Prop :=
  ∃ t y, exec i s = .next t ∧ t.runner? r = some y ∧ (∀ q, q ≠ r → t.runner? q = s.runner? q) ∧ p t y

/-- An event that does something at one runner alone brings about what is then true of that runner. -/
theorem State.Kept.brings {i : Instr} {f : State → State} {p : State → Runner → Prop} (h : s.Kept)
    (hr : s.runner? r = some x) (he : exec i s = .next (s.withRunner r f)) (hb : Beside (s.focus r) (f (s.focus r)))
    (hp : p (s.withRunner r f) (f (s.focus r)).r) : Brings s r i p := by
  obtain ⟨hself, hother⟩ := h.withRunner_runner? hr hb
  exact ⟨_, _, he, hself, hother, hp⟩

theorem SameMemory.of_mem (h : t.mem = s.mem) : SameMemory s t := fun k => by rw [State.byteAt, State.byteAt, h]

/-! ### A wait on a barrier looked at again (R187, R193) -/

theorem Acquired.beside (h : Acquired s t) : Beside s t := by
  obtain ⟨_, _, rfl⟩ := h
  exact ⟨rfl, rfl⟩

/-- What the end of a wait with a status leaves. -/
structure WaitGives (sd : SR) (st : Word) (s t : State) : Prop where
  beside : Beside s t
  writes : Writes s t sd st
  pc : t.pc = s.pc + 8
  stat : t.r.stat = .ready
  wait : t.r.wait = none
  mem : t.mem = s.mem

theorem WaitGives.completed {sd : SR} {st : Word} (h : WaitGives sd st s t) : WaitGives sd st s t.completed :=
  ⟨⟨h.beside.rid, h.beside.rs⟩, h.writes, h.pc, h.stat, h.wait, h.mem⟩

/-- The state in which a wait is looked at. -/
def State.looking (s : State) (w : WaitRec) : State := s.mapR fun r => { r with wait := some w, stat := .ready }

theorem State.waitStep_ok {w : WaitRec} {poll : WaitRec → State → M (Bool × State)} {b : Bool}
    (h : poll w (s.looking w) = .ok (b, t)) : s.waitStep w poll =
      .ok ((), t.mapR fun r => if b then { r with wait := none } else { r with stat := .waiting }) := by
  rw [State.waitStep, show (s.mapR fun r => { r with wait := some w, stat := .ready }) = s.looking w from rfl, h]
  rfl

theorem State.waitStep_error {w : WaitRec} {poll : WaitRec → State → M (Bool × State)} {e : Stop × State}
    (h : poll w (s.looking w) = .error e) : s.waitStep w poll = .error e := by
  rw [State.waitStep, show (s.mapR fun r => { r with wait := some w, stat := .ready }) = s.looking w from rfl, h]
  rfl

theorem State.deadlineEnd_of_early {w : WaitRec} (hx : s.expired w = false) (status tval : Word) :
    s.deadlineEnd w status tval = .ok (false, s) := by
  simp [State.deadlineEnd, hx]

theorem State.deadlineEnd_of_late {w : WaitRec} (hx : s.expired w = true) (hw : bitOf s.r.scal.wdead 63 = false)
    (status tval : Word) : s.deadlineEnd w status tval = .ok (true, (s.setReg w.sd status).advance) := by
  simp [State.deadlineEnd, hx, hw]

theorem State.deadlineEnd_of_trap {w : WaitRec} (hx : s.expired w = true) (hw : bitOf s.r.scal.wdead 63 = true)
    (status tval : Word) : s.deadlineEnd w status tval = stopTrap .waittime tval s := by
  simp [State.deadlineEnd, hx, hw]

/-- The state in which a wait's deadline is looked at: a SYNCB that times out is kept for its handler (R194). -/
def State.overdue (s : State) (w : WaitRec) : State :=
  (s.looking w).mapR fun r => { r with
    sya := if w.arrived && s.expired w && bitOf s.r.scal.wdead 63 then some (s.pc, w.bar) else r.sya }

theorem pollBarrier_of_phase {w : WaitRec} (hp : ¬s.phase w.bar ≠ s.r.barw.getLsbD w.bar.val) :
    pollBarrier w (s.looking w) = (s.overdue w).deadlineEnd w 1 (BitVec.ofNat 64 w.bar.val) :=
  if_neg (by exact fun h => hp (bne_iff_ne.mp h))

/-- The phase of a wait's barrier has ended: the wait ends with 0 (R193). -/
theorem waitStep_of_phase {w : WaitRec} (hp : s.phase w.bar ≠ s.r.barw.getLsbD w.bar.val) :
    ∃ t, s.waitStep w pollBarrier = .ok ((), t) ∧ WaitGives w.sd 0 s t := by
  obtain ⟨c, h, e⟩ := (s.looking w).acquireBoth_acquired
  have hpoll : pollBarrier w (s.looking w) = .ok (true, _) := if_pos (bne_iff_ne.mpr hp)
  rw [e] at hpoll
  exact ⟨_, State.waitStep_ok hpoll, ⟨rfl, rfl⟩, fun n => State.setReg_reg _ _ _ n,
    congrArg (· + 8) (State.setReg_pc _ _ _), rfl, rfl, rfl⟩

/-- Before its deadline the wait goes on. -/
theorem waitStep_of_early {w : WaitRec} (hp : ¬s.phase w.bar ≠ s.r.barw.getLsbD w.bar.val) (hx : s.expired w = false) :
    s.waitStep w pollBarrier = .ok ((), (s.overdue w).mapR fun r => { r with stat := .waiting }) :=
  State.waitStep_ok ((pollBarrier_of_phase hp).trans (State.deadlineEnd_of_early (by exact hx) _ _))

/-- At its deadline the wait ends with 1. -/
theorem waitStep_of_late {w : WaitRec} (hp : ¬s.phase w.bar ≠ s.r.barw.getLsbD w.bar.val) (hx : s.expired w = true)
    (hw : bitOf s.r.scal.wdead 63 = false) :
    ∃ t, s.waitStep w pollBarrier = .ok ((), t) ∧ WaitGives w.sd 1 s t :=
  ⟨_, State.waitStep_ok ((pollBarrier_of_phase hp).trans (State.deadlineEnd_of_late (by exact hx) (by exact hw) _ _)),
    ⟨rfl, rfl⟩, fun n => State.setReg_reg _ _ _ n, congrArg (· + 8) (State.setReg_pc _ _ _), rfl, rfl, rfl⟩

/-- At its deadline the wait traps WAITTIME where WDEAD.WT says so. -/
theorem waitStep_of_trap {w : WaitRec} (hp : ¬s.phase w.bar ≠ s.r.barw.getLsbD w.bar.val) (hx : s.expired w = true)
    (hw : bitOf s.r.scal.wdead 63 = true) :
    s.waitStep w pollBarrier = .error (.trap .waittime (BitVec.ofNat 64 w.bar.val), s.overdue w) :=
  State.waitStep_error ((pollBarrier_of_phase hp).trans (State.deadlineEnd_of_trap (by exact hx) (by exact hw) _ _))

theorem State.recheck_barrier {w : WaitRec} (hf : s.r.fabric = none) (hw : s.r.wait = some w) (hk : w.kind = .barrier) :
    s.recheck = finish (s.waitStep w pollBarrier) := by
  have hpoll : pollOf w = pollBarrier w := by
    unfold pollOf
    rw [hk]
  have hstep : s.waitStep w pollOf = s.waitStep w pollBarrier := by
    unfold State.waitStep
    rw [hpoll]
  unfold State.recheck
  rw [hf, hw]
  dsimp only
  rw [if_neg (by rw [hk]; decide), hstep]

theorem State.expired_iff {w : WaitRec} : s.expired w = true ↔ w.dead ≠ 0 ∧ w.entry + w.dead ≤ s.time := by
  simp [State.expired]

theorem bitOf_eq_getLsbD (w : Word) (i : Nat) : bitOf w i = w.getLsbD i := by
  rw [BitVec.getLsbD, Nat.testBit_eq_decide_div_mod_eq, bitOf, Nat.shiftRight_eq_div_pow, Bool.beq_eq_decide_eq]

theorem lookAtWait_of_waiting (hr : s.runner? r = some x) (hst : x.stat = .waiting) :
    s.lookAtWait r = s.withRunner r State.recheck := by
  unfold State.lookAtWait
  rw [hr]
  exact if_pos hst

theorem exec_waitConditionMet (hr : s.runner? r = some x) (hst : x.stat = .waiting) :
    exec (.waitConditionMet r) s = .next (s.withRunner r State.recheck) := by
  rw [← lookAtWait_of_waiting hr hst]
  rfl

theorem exec_waitDeadline {w : WaitRec} (hr : s.runner? r = some x) (hst : x.stat = .waiting) (hw : x.wait = some w)
    (hx : s.expired w = true) : exec (.waitDeadline r) s = .next (s.withRunner r State.recheck) := by
  rw [← lookAtWait_of_waiting hr hst]
  change execWaitDeadline r s = _
  unfold execWaitDeadline
  rw [hr, Option.bind_some, hw]
  exact if_pos hx

/-- A wait's end as its runner and its memory see it. -/
def EndsWith (s : State) (x : Runner) (w : WaitRec) (st : Word) (t : State) (y : Runner) : Prop :=
  y.stat = .ready ∧ y.wait = none ∧ SameMemory s t ∧ y.scal.pc = x.scal.pc + 8 ∧
    ∀ n : SR, n ≠ 0 → y.scal.s[n] = if n = w.sd then st else x.scal.s[n]

theorem WaitGives.endsWith {w : WaitRec} {st : Word} (h : WaitGives w.sd st s t) (hm : u.mem = s.mem) (hv : v.mem = t.mem) :
    EndsWith u s.r w st v t.r := by
  refine ⟨h.stat, h.wait, .of_mem (hv.trans (h.mem.trans hm.symm)), h.pc, fun n hn => ?_⟩
  have hreg := h.writes n
  simpa [State.reg, Scal.get, hn] using hreg

/-! ### A trap of a runner whose strip buffers nothing -/

/-- Memory, the other runners and the copies by their names are as they were. -/
structure NothingLands (s t : State) : Prop where
  mem : t.mem = s.mem
  rs : t.rs = s.rs
  copies : t.copies.map (·.id) = s.copies.map (·.id)

theorem State.freeTileOps_nothingLands : NothingLands s s.freeTileOps := by
  unfold State.freeTileOps
  dsimp only
  split <;> exact ⟨rfl, rfl, rfl⟩

theorem State.freeCopies_copies : s.freeCopies.copies.map (·.id) = s.copies.map (·.id) := by
  unfold State.freeCopies
  rw [List.map_map]
  refine List.map_congr_left fun c _ => ?_
  dsimp only [Function.comp_apply]
  split <;> rfl

theorem State.commitStrip_nothingLands (hb : s.r.strip.buf = []) (hl : s.r.strip.lines = []) :
    NothingLands s s.commitStrip := by
  obtain ⟨hm, hr, hc⟩ := State.freeTileOps_nothingLands (s := State.freeCopies
    (s.mapR fun r => { r with strip := { r.strip with buf := [], lines := [], count := 0 } }))
  unfold State.commitStrip
  rw [hb, hl]
  exact ⟨hm, hr, hc.trans State.freeCopies_copies⟩

theorem State.endProt_nothingLands (hb : s.r.strip.buf = []) (hl : s.r.strip.lines = []) : NothingLands s s.endProt := by
  obtain ⟨hm, hr, hc⟩ := State.commitStrip_nothingLands hb hl
  unfold State.endProt
  split
  · exact ⟨hm, hr, hc⟩
  · exact ⟨rfl, rfl, rfl⟩

theorem State.enterTrap_nothingLands (hb : s.r.strip.buf = []) (hl : s.r.strip.lines = []) (c : Cause) (v : Word)
    (imp : Bool) : NothingLands s (s.enterTrap c v imp) := by
  obtain ⟨hm, hr, hc⟩ := State.endProt_nothingLands hb hl
  rw [State.enterTrap_eq]
  dsimp only
  split <;> exact ⟨hm, hr, hc⟩

/-! ### The events of a wait on a barrier -/

section
variable {w : WaitRec} {tm : Team}

/-- The phase a runner's wait sees, from its team. -/
theorem State.Kept.focus_phase (h : s.Kept) (hr : s.runner? r = some x) (ht : s.team? (teamOf r) = some tm) (b : BR) :
    (s.focus r).phase b = tm.bars[b].phase := by
  refine State.phase_eq ?_ b
  rw [State.myTeam?, (h.focus_r hr).2, State.team?, State.focus_teams]
  exact ht

/-- A wait whose end gives a status, at its runner. -/
theorem State.Kept.brings_end {i : Instr} {st : Word} (h : s.Kept) (hr : s.runner? r = some x) (hw : x.wait = some w)
    (hk : w.kind = .barrier) (hf : x.fabric = none) (he : exec i s = .next (s.withRunner r State.recheck))
    (hs : ∃ t, (s.focus r).waitStep w pollBarrier = .ok ((), t) ∧ WaitGives w.sd st (s.focus r) t) :
    Brings s r i (EndsWith s x w st) := by
  obtain ⟨hx, -⟩ := h.focus_r hr
  obtain ⟨t, ht, hg⟩ := hs
  have hrun : (s.focus r).recheck = t.completed := by
    rw [State.recheck_barrier (by rw [hx, hf]) (by rw [hx, hw]) hk, ht]
    rfl
  refine h.brings hr he (by rw [hrun]; exact hg.completed.beside) ?_
  rw [hrun, ← hx]
  refine hg.completed.endsWith State.focus_mem.symm ?_
  rw [State.withRunner_mem (by rw [hr]; rfl), hrun]

/-- The phase has ended: the wait ends with 0. -/
theorem waitConditionMet_ends (h : s.Kept) (hr : s.runner? r = some x) (hst : x.stat = .waiting) (hw : x.wait = some w)
    (hk : w.kind = .barrier) (hf : x.fabric = none) (ht : s.team? (teamOf r) = some tm)
    (hgo : tm.bars[w.bar].phase ≠ x.barw.getLsbD w.bar.val) : Brings s r (.waitConditionMet r) (EndsWith s x w 0) :=
  h.brings_end hr hw hk hf (exec_waitConditionMet hr hst)
    (waitStep_of_phase (by rw [h.focus_phase hr ht, (h.focus_r hr).1]; exact hgo))

/-- The wait goes on: its runner sleeps as before. -/
theorem waitConditionMet_goesOn (h : s.Kept) (hr : s.runner? r = some x) (hst : x.stat = .waiting) (hw : x.wait = some w)
    (hk : w.kind = .barrier) (hf : x.fabric = none) (ht : s.team? (teamOf r) = some tm)
    (hgo : ¬tm.bars[w.bar].phase ≠ x.barw.getLsbD w.bar.val) (hl : ¬(w.dead ≠ 0 ∧ w.entry + w.dead ≤ s.time)) :
    Brings s r (.waitConditionMet r) fun t y => y.stat = .waiting ∧ y.wait = some w ∧ y.scal = x.scal ∧ SameMemory s t := by
  obtain ⟨hx, -⟩ := h.focus_r hr
  have hexp : (s.focus r).expired w = false := by
    rw [← Bool.not_eq_true, State.expired_iff, State.focus_eq]
    exact hl
  have hrun : (s.focus r).recheck = (((s.focus r).overdue w).mapR fun r => { r with stat := .waiting }).completed := by
    rw [State.recheck_barrier (by rw [hx, hf]) (by rw [hx, hw]) hk,
      waitStep_of_early (by rw [h.focus_phase hr ht, hx]; exact hgo) hexp]
    rfl
  refine h.brings hr (exec_waitConditionMet hr hst) (by rw [hrun]; exact ⟨rfl, rfl⟩) ?_
  refine ⟨by rw [hrun]; rfl, by rw [hrun]; rfl, by rw [hrun, ← hx]; rfl, .of_mem ?_⟩
  rw [State.withRunner_mem (by rw [hr]; rfl), hrun]
  exact State.focus_mem

/-- The wait that finds its phase ended, or WDEAD.WT clear, at its deadline. -/
theorem waitDeadline_ends {st : Word} (h : s.Kept) (hr : s.runner? r = some x) (hst : x.stat = .waiting) (hw : x.wait = some w)
    (hk : w.kind = .barrier) (hf : x.fabric = none) (hl : w.dead ≠ 0 ∧ w.entry + w.dead ≤ s.time)
    (hs : ∃ t, (s.focus r).waitStep w pollBarrier = .ok ((), t) ∧ WaitGives w.sd st (s.focus r) t) :
    Brings s r (.waitDeadline r) (EndsWith s x w st) :=
  h.brings_end hr hw hk hf (exec_waitDeadline hr hst hw (State.expired_iff.mpr hl)) hs

/-- The wait that traps WAITTIME at its deadline. -/
theorem waitDeadline_traps (h : s.Kept) (hr : s.runner? r = some x) (hst : x.stat = .waiting) (hw : x.wait = some w)
    (hk : w.kind = .barrier) (hf : x.fabric = none) (hq : x.vq = []) (ht : s.team? (teamOf r) = some tm)
    (hgo : ¬tm.bars[w.bar].phase ≠ x.barw.getLsbD w.bar.val) (hl : w.dead ≠ 0 ∧ w.entry + w.dead ≤ s.time)
    (hwt : x.scal.wdead.getLsbD 63 = true) (hb : x.strip.buf = []) (hln : x.strip.lines = []) :
    Brings s r (.waitDeadline r) fun _ y => y.stat = .ready ∧ y.wait = none ∧
      y.scal.sysr.tcause = 0x0D ∧ y.scal.sysr.tval = BitVec.ofNat 64 w.bar.val ∧ y.scal.sysr.tepc = x.scal.pc ∧
      y.scal.pc = x.scal.sysr.tvec := by
  obtain ⟨hx, -⟩ := h.focus_r hr
  have hexp : (s.focus r).expired w = true := by
    rw [State.expired_iff, State.focus_eq]
    exact hl
  have hrun : (s.focus r).recheck =
      ((s.focus r).overdue w).enterTrap .waittime (BitVec.ofNat 64 w.bar.val) false := by
    rw [State.recheck_barrier (by rw [hx, hf]) (by rw [hx, hw]) hk,
      waitStep_of_trap (by rw [h.focus_phase hr ht, hx]; exact hgo) hexp (by rw [hx, bitOf_eq_getLsbD, hwt]),
      finish_trap_of_empty (by rw [← hq, ← hx]; rfl)]
    rfl
  have hn := ((s.focus r).overdue w).enterTrap_nothingLands (by rw [← hb, ← hx]; rfl) (by rw [← hln, ← hx]; rfl)
    .waittime (BitVec.ofNat 64 w.bar.val) false
  have hsc := ((s.focus r).overdue w).enterTrap_scal .waittime (BitVec.ofNat 64 w.bar.val) false
  refine h.brings hr (exec_waitDeadline hr hst hw (State.expired_iff.mpr hl))
    (by rw [hrun]; exact ⟨State.enterTrap_rid _ _ _, hn.rs⟩) ?_
  rw [hrun, hsc, ← hx, State.enterTrap_r]
  exact ⟨rfl, rfl, rfl, rfl, rfl, rfl⟩

end

/-! ### Answers (R91, R301, R304) -/

/-- The runners and memory are as they were. -/
structure Aside (s t : State) : Prop where
  r : t.r = s.r
  rs : t.rs = s.rs
  mem : t.mem = s.mem

theorem Aside.refl : Aside s s := ⟨rfl, rfl, rfl⟩

theorem Aside.trans (h : Aside s t) (k : Aside t u) : Aside s u :=
  ⟨k.r.trans h.r, k.rs.trans h.rs, k.mem.trans h.mem⟩

/-- The same with the later part first, which fixes the state between. -/
theorem Aside.after (k : Aside t u) (h : Aside s t) : Aside s u := h.trans k

theorem State.transmit_aside (x : Parcel) : Aside s (s.transmit x) := by
  unfold State.transmit
  split <;> exact ⟨rfl, rfl, rfl⟩

theorem State.post_aside (m : OutMsg) (x : Nat × Nat) : Aside s (s.post m x) := by
  unfold State.post
  exact .after (State.transmit_aside _) ⟨rfl, rfl, rfl⟩

theorem State.emit_aside (m : OutMsg) : Aside s (s.emit m) := by
  have hfold (l : List (Nat × Nat)) (t : State) (h : Aside s t) : Aside s (l.foldl (fun s x => s.post m x) t) := by
    induction l generalizing t with
    | nil => exact h
    | cons x l ih => exact ih _ (h.trans (State.post_aside m x))
  exact hfold _ _ ⟨rfl, rfl, rfl⟩

theorem State.requestDone_aside : Aside s (s.requestDone r) := by
  unfold State.requestDone
  split
  · exact .refl
  · next p _ =>
    dsimp only
    split
    · exact .after (State.emit_aside _) ⟨rfl, rfl, rfl⟩
    · exact ⟨rfl, rfl, rfl⟩

theorem State.runner?_congr (hr : t.r = s.r) (hs : t.rs = s.rs) (q : RunnerId) : t.runner? q = s.runner? q := by
  rw [State.runner?, State.runner?, State.rid, State.rid, hr, hs]

theorem State.stalledOn_congr (hr : t.r = s.r) (hs : t.rs = s.rs) : t.stalledOn r = s.stalledOn r := by
  rw [State.stalledOn, State.stalledOn, State.runner?_congr hr hs]

/-- An event that does something at one runner alone, in a state whose runners are those before it. -/
theorem State.Kept.brings_after {i : Instr} {f : State → State} {p : State → Runner → Prop} (h : s.Kept)
    (hr : s.runner? r = some x) (hur : u.r = s.r) (hus : u.rs = s.rs) (he : exec i s = .next (u.withRunner r f))
    (hb : Beside (u.focus r) (f (u.focus r))) (hp : p (u.withRunner r f) (f (u.focus r)).r) : Brings s r i p := by
  have hk : u.Kept := fun y hy => h y (hus ▸ hy)
  obtain ⟨hself, hother⟩ := hk.withRunner_runner? ((State.runner?_congr hur hus r).trans hr) hb
  exact ⟨_, _, he, hself, fun q hq => (hother q hq).trans (State.runner?_congr hur hus q), hp⟩

theorem State.stalledOn_of_asks {a : Ask} {as : List Ask} (hr : s.runner? r = some x) (hst : x.stat = .stalled)
    (ha : x.asks = a :: as) : s.stalledOn r = some a := by
  rw [State.stalledOn, hr, Option.bind_some, if_pos hst, ha]
  rfl

/-- A runner that goes on with an answer. -/
def GoesOn (s : State) (x : Runner) (a : Ask) (b : Reply) (t : State) (y : Runner) : Prop :=
  y.stat = .ready ∧ y.asks = [] ∧ y.replies = x.replies ++ [(a, b)] ∧ y.scal = x.scal ∧ y.vect = x.vect ∧ SameMemory s t

/-- A runner answered goes on. -/
theorem State.Kept.brings_reply {i : Instr} {a : Ask} {b : Reply} (h : s.Kept) (hr : s.runner? r = some x) (hu : Aside s u)
    (he : exec i s = .next (u.reply r a b)) : Brings s r i (GoesOn s x a b) := by
  have hk : u.Kept := fun y hy => h y (hu.rs ▸ hy)
  have hru : u.runner? r = some x := (State.runner?_congr hu.r hu.rs r).trans hr
  obtain ⟨hx, -⟩ := hk.focus_r hru
  refine h.brings_after hr hu.r hu.rs he ⟨rfl, rfl⟩ ?_
  refine ⟨rfl, rfl, by rw [← hx]; rfl, by rw [← hx]; rfl, by rw [← hx]; rfl, .of_mem ?_⟩
  rw [State.withRunner_mem (by rw [hru]; rfl)]
  exact State.focus_mem.trans hu.mem

/-- Service that declines: the access goes on to its fault. -/
theorem faultServiceComplete_declined {va : Word} (h : s.Kept) (hr : s.runner? r = some x)
    (hs : s.stalledOn r = some (.service va)) :
    Brings s r (.faultServiceComplete r none) (GoesOn s x (.service va) .page) := by
  have hd := s.requestDone_aside (r := r)
  refine h.brings_reply hr hd ?_
  change Host.Outcome.next (s.serviceEnds r false) = _
  rw [State.serviceEnds, State.stalledOn_congr hd.r hd.rs, hs]
  rfl

/-- An answer from the host. -/
theorem hostCompletion_goesOn {acc : OutAccess} {b : Reply} (h : s.Kept) (hr : s.runner? r = some x)
    (hs : s.stalledOn r = some (.host acc)) (hb : b ≠ .page) :
    Brings s r (.hostCompletion r b) (GoesOn s x (.host acc) b) := by
  refine h.brings_reply hr .refl ?_
  change execHostCompletion r b s = _
  unfold execHostCompletion
  rw [hs]
  exact if_neg hb

/-- An answer from a peer. -/
theorem fabricResponse_goesOn {m : Nat} {acc : OutAccess} {b : Reply} (h : s.Kept) (hr : s.runner? r = some x)
    (hs : s.stalledOn r = some (.peer m acc)) : Brings s r (.fabricResponse r m b) (GoesOn s x (.peer m acc) b) := by
  refine h.brings_reply hr (u := s.answered (.ask r none (.peer m acc)) m) ⟨rfl, rfl, rfl⟩ ?_
  change execFabricResponse r m b s = _
  unfold execFabricResponse
  rw [hs]
  exact if_pos rfl

/-- A peer's contribution to the collective a runner waits in (R207). -/
theorem fabricResponse_contributes {m : Nat} {bytes : List Byte} {p : Part} {c : Collective} (hr : s.runner? r = some x)
    (hst : x.stat ≠ .stalled) (hp : s.part? r.part = some p) (hc : c ∈ p.colls) (hsp : c.span = 3)
    (hh : c.heat = r.heat) (hj : ∃ j ∈ c.joined, j.runner = r) (hm : ∀ z ∈ c.remote, z.1 ≠ m) :
    ∃ t q, exec (.fabricResponse r m (.data bytes)) s = .next t ∧ t.part? r.part = some q ∧ SameMemory s t ∧
      { c with remote := c.remote ++ [(m, bytes)] } ∈ q.colls := by
  have hidx : p.idx = r.part := by simpa using List.find?_some (p := fun x : Part => x.idx == r.part) hp
  have hnone : s.stalledOn r = none := by rw [State.stalledOn, hr, Option.bind_some, if_neg hst]
  have hopen : (c.span == 3 && c.heat == r.heat && c.joined.any (fun j => j.runner == r) &&
      !c.remote.any fun x => x.1 == m) = true := by
    have ha : c.joined.any (fun j => j.runner == r) = true := List.any_eq_true.mpr (by simpa using hj)
    have hn : c.remote.any (fun x => x.1 == m) = false := List.any_eq_false.mpr (by simpa using hm)
    simp [hsp, hh, ha, hn]
  have hfar : ∃ q : Part, s.farContribution r m bytes = some (s.setPart q) ∧ q.idx = r.part ∧
      { c with remote := c.remote ++ [(m, bytes)] } ∈ q.colls := by
    unfold State.farContribution
    rw [hp]
    dsimp only
    rw [if_pos (List.any_eq_true.mpr ⟨c, hc, hopen⟩)]
    exact ⟨_, rfl, hidx, List.mem_map.mpr ⟨c, hc, if_pos hopen⟩⟩
  obtain ⟨q, hq, hqi, hqc⟩ := hfar
  refine ⟨s.setPart q, q, ?_, ?_, .of_mem rfl, hqc⟩
  · change execFabricResponse r m (.data bytes) s = _
    unfold execFabricResponse
    rw [hnone]
    dsimp only
    rw [hq]
  · rw [← hqi]
    exact find?_upsert _ _ (by simp) _

/-! ### Tile operations and words that are no instruction -/

theorem finishFirst_append {l z : List TileOp} {o : TileOp} (hl : ∀ u ∈ l, u.done = true) (ho : o.done = false) :
    finishFirst (l ++ o :: z) = l ++ { o with done := true } :: z := by
  induction l with
  | nil => simp [finishFirst, ho]
  | cons u l ih =>
    rw [List.cons_append, finishFirst, if_pos (hl u List.mem_cons_self), ih fun v hv => hl v (List.mem_cons_of_mem _ hv)]
    rfl

theorem State.setCore_core_of_id {k : Core} {c : CoreId} (h : k.id = c) : (s.setCore k).core c = k := by
  subst h
  exact s.setCore_core k

theorem tileOperationComplete_finishes {c : CoreId} {a : Attach} {l z : List TileOp} {o : TileOp}
    (ha : (s.core c).att = some a) (hops : a.ops = l ++ o :: z) (hl : ∀ u ∈ l, u.done = true) (ho : o.done = false) :
    ∃ t, exec (.tileOperationComplete c) s = .next t ∧ SameMemory s t ∧ t.r = s.r ∧ t.rs = s.rs ∧
      (t.core c).att = some { a with ops := l ++ { o with done := true } :: z } := by
  refine ⟨s.setCore { s.core c with att := some { a with ops := l ++ { o with done := true } :: z } }, ?_, .of_mem rfl,
    rfl, rfl, ?_⟩
  · change execTileOperationComplete c s = _
    unfold execTileOperationComplete
    rw [ha]
    dsimp only
    rw [hops, finishFirst_append hl ho]
  · exact congrArg Core.att (State.setCore_core_of_id (by exact State.core_id s c))

theorem exec_unassignedPattern (w : Word) (hq : s.r.vq = []) :
    exec (.unassignedPattern w) s = .next (s.enterTrap .illegal w false) :=
  congrArg Host.Outcome.next (finish_trap_of_empty hq .illegal w)

end

end Sys2Proof.Machine
end

section
/-! Bytes written beside the runners' two sides (O53): where they lie, what the write leaves. -/

namespace Sys2Proof.Machine

section
variable {s t u : State}

/-! ### Bytes at consecutive keys -/

theorem keysFrom_eq_map (k n : Nat) : keysFrom k n = (List.range n).map (k + ·) := by
  induction n generalizing k with
  | zero => rfl
  | succ n ih =>
    rw [keysFrom, ih, List.range_succ_eq_map, List.map_cons, List.map_map]
    exact congrArg _ (List.map_congr_left fun i _ => Nat.succ_add_eq_add_succ k i)

theorem bytesAt_eq_map (m : List Host.Cell) (k n : Nat) :
    bytesAt m k n = (List.range n).map fun i => cellGet m (k + i) := by
  rw [bytesAt, keysFrom_eq_map, List.map_map]
  rfl

theorem bytesAt_length (m : List Host.Cell) (k n : Nat) : (bytesAt m k n).length = n := by
  simp [bytesAt_eq_map]

theorem bytesAt_getElem? (m : List Host.Cell) (k : Nat) {n i : Nat} (hi : i < n) :
    (bytesAt m k n)[i]? = some (cellGet m (k + i)) := by
  simp [bytesAt_eq_map, hi]

/-- Keys that hold the bytes of a list read as that list. -/
theorem bytesAt_eq_of_getElem {m : List Host.Cell} {k : Nat} {bs : List Byte}
    (h : ∀ i (hi : i < bs.length), cellGet m (k + i) = bs[i]) : bytesAt m k bs.length = bs := by
  refine List.ext_getElem (bytesAt_length _ _ _) fun i hi _ => ?_
  have hb := bytesAt_getElem? m k (n := bs.length) (i := i) (by simpa [bytesAt_length] using hi)
  rw [List.getElem?_eq_getElem hi] at hb
  rw [Option.some.inj hb, h]

theorem bytesAt_congr {m l : List Host.Cell} {k n : Nat} (h : ∀ i, i < n → cellGet m (k + i) = cellGet l (k + i)) :
    bytesAt m k n = bytesAt l k n := by
  rw [bytesAt_eq_map, bytesAt_eq_map]
  exact List.map_congr_left fun i hi => h i (List.mem_range.mp hi)

theorem natToLeBytes_length (n x : Nat) : (natToLeBytes n x).length = n := by
  induction n generalizing x with
  | zero => rfl
  | succ n ih => simp [natToLeBytes, ih]

theorem natToLeBytes_getElem {n i : Nat} (x : Nat) (hi : i < (natToLeBytes n x).length) :
    (natToLeBytes n x)[i] = BitVec.ofNat 8 (x / 256 ^ i) := by
  induction n generalizing x i with
  | zero => exact absurd hi (Nat.not_lt_zero i)
  | succ n ih =>
    cases i with
    | zero => simp [natToLeBytes]
    | succ i =>
      simp only [natToLeBytes, List.getElem_cons_succ]
      rw [ih, Nat.div_div_eq_div_mul, Nat.pow_succ']

theorem leBytesToNat_natToLeBytes (n x : Nat) : leBytesToNat (natToLeBytes n x) = x % 256 ^ n := by
  induction n generalizing x with
  | zero => simp [natToLeBytes, leBytesToNat, Nat.mod_one]
  | succ n ih =>
    rw [natToLeBytes, leBytesToNat, ih, BitVec.toNat_ofNat, Nat.pow_succ' (n := n), Nat.mod_mul]

theorem leBytesToNat_lt (bs : List Byte) : leBytesToNat bs < 256 ^ bs.length := by
  induction bs with
  | nil => simp [leBytesToNat]
  | cons b bs ih =>
    have hb := b.isLt
    rw [leBytesToNat, List.length_cons, Nat.pow_succ']
    omega

/-- The bytes of a word, lowest first. -/
theorem natToLeBytes_word (w : Word) {i : Nat} (hi : i < 8) :
    (natToLeBytes 8 w.toNat)[i]? = some (w.extractLsb' (8 * i) 8) := by
  have hl : i < (natToLeBytes 8 w.toNat).length := by rwa [natToLeBytes_length]
  rw [List.getElem?_eq_getElem hl, natToLeBytes_getElem]
  refine congrArg some (BitVec.eq_of_toNat_eq ?_)
  rw [BitVec.toNat_ofNat, BitVec.extractLsb'_toNat, Nat.shiftRight_eq_div_pow, Nat.pow_mul]

/-! ### Cells at consecutive keys -/

theorem exists_of_mem_cellsFrom {k : Nat} {bs : List Byte} {c : Host.Cell} (h : c ∈ cellsFrom k bs) :
    ∃ i, ∃ hi : i < bs.length, c = (k + i, bs[i]) := by
  induction bs generalizing k with
  | nil => exact absurd h List.not_mem_nil
  | cons b bs ih =>
    rcases List.mem_cons.mp h with rfl | h
    · exact ⟨0, by simp, rfl⟩
    · obtain ⟨i, hi, rfl⟩ := ih h
      exact ⟨i + 1, by simpa using hi, by simp [Nat.add_assoc, Nat.add_comm 1]⟩

/-- Cells at consecutive keys laid over their own keys give their own bytes. -/
theorem overlay_own_cell {k : Nat} {bs : List Byte} {c : Host.Cell} (h : c ∈ cellsFrom k bs) (b : Byte) :
    overlay (cellsFrom k bs) c.1 b = c.2 := by
  obtain ⟨i, hi, rfl⟩ := exists_of_mem_cellsFrom h
  exact overlay_cellsFrom bs k i b hi

/-- The byte written at one of consecutive keys is the byte read. -/
theorem cellGet_cellsFrom {m : List Host.Cell} (hm : Memory.wf m) {k i : Nat} {bs : List Byte} (hi : i < bs.length) :
    cellGet (cellsPut m (cellsFrom k bs)) (k + i) = bs[i] := by
  rw [cellGet_cellsPut _ _ hm, overlay_cellsFrom bs k i _ hi]

theorem cellGet_cellsFrom_apart {m : List Host.Cell} (hm : Memory.wf m) {k a : Nat} {bs : List Byte}
    (h : a < k ∨ k + bs.length ≤ a) : cellGet (cellsPut m (cellsFrom k bs)) a = cellGet m a := by
  rw [cellGet_cellsPut _ _ hm, overlay_cellsFrom_apart bs k a _ h]

/-! ### What changes beneath the runners -/

/-- Only cores, lines of L2, what lies beneath them and the free choices have changed, and the bytes that tile stores will
write are the same. -/
def Beneath (s t : State) : Prop :=
  (∃ cs l n f, t = { s with cores := cs, lines := l, under := n, free := f }) ∧ t.pending = s.pending

theorem Beneath.refl : Beneath s s := ⟨⟨_, _, _, _, rfl⟩, rfl⟩

theorem Beneath.trans (h : Beneath s t) (k : Beneath t u) : Beneath s u := by
  obtain ⟨⟨_, _, _, _, rfl⟩, hp⟩ := h
  obtain ⟨⟨cs, l, n, f, rfl⟩, hq⟩ := k
  exact ⟨⟨cs, l, n, f, rfl⟩, hq.trans hp⟩

theorem Beneath.r (h : Beneath s t) : t.r = s.r := by
  obtain ⟨⟨_, _, _, _, rfl⟩, -⟩ := h
  rfl

theorem Beneath.rs (h : Beneath s t) : t.rs = s.rs := by
  obtain ⟨⟨_, _, _, _, rfl⟩, -⟩ := h
  rfl

theorem Beneath.mem (h : Beneath s t) : t.mem = s.mem := by
  obtain ⟨⟨_, _, _, _, rfl⟩, -⟩ := h
  rfl

theorem Beneath.copies (h : Beneath s t) : t.copies = s.copies := by
  obtain ⟨⟨_, _, _, _, rfl⟩, -⟩ := h
  rfl

theorem State.touchL2_beneath (key : Nat) (slice : Option Nat) (part : Nat) (write alloc : Bool) :
    Beneath s (s.touchL2 key slice part write alloc) := by
  unfold State.touchL2
  split
  · exact .refl
  · exact ⟨⟨_, _, _, _, rfl⟩, rfl⟩

theorem State.writeL2_beneath (keys : List Nat) (slice : Nat → Option Nat) (part : Nat) (alloc : Bool) :
    Beneath s (s.writeL2 keys slice part alloc) := by
  have hfold (l : List Nat) (t : State) (h : Beneath s t) :
      Beneath s (l.foldl (fun s l => s.touchL2 (l * 128) (slice l) part true alloc) t) := by
    induction l generalizing t with
    | nil => exact h
    | cons x l ih => exact ih _ (h.trans (t.touchL2_beneath _ _ _ _ _))
  unfold State.writeL2
  exact (hfold _ s .refl).trans ⟨⟨_, _, _, _, rfl⟩, rfl⟩

/-- The bytes of each outstanding tile store of a share. -/
def Attach.opCells (a : Attach) : List (List Host.Cell) := a.ops.map (·.cells)

theorem Attach.affected_opCells (a : Attach) (n : Nat) (x : Spread) : (a.affected n x).opCells = a.opCells := by
  unfold Attach.opCells Attach.affected
  rw [List.map_map]
  refine List.map_congr_left fun o _ => ?_
  dsimp only [Function.comp_apply]
  split <;> rfl

theorem Attach.touched_opCells (a : Attach) (who loads : RunnerId → Bool) (n : Nat) (cells : List Host.Cell) :
    (a.touched who loads n cells).opCells = a.opCells := by
  have hfold (l : List Capture) (b : Attach) :
      (l.foldl (fun a c => a.spreadRows (n + 8192) c.runner c.use c.latch [c.row]) b).opCells = b.opCells := by
    induction l generalizing b with
    | nil => rfl
    | cons c l ih => exact (ih _).trans (Attach.affected_opCells _ _ _)
  unfold Attach.touched
  refine (hfold _ _).trans ?_
  unfold Attach.opCells
  rw [List.map_map]
  refine List.map_congr_left fun o _ => ?_
  dsimp only [Function.comp_apply]
  split <;> rfl

/-- The keys a core's outstanding tile stores will write. -/
def Core.pendingKeys (c : Core) : List Nat := (c.att.map Attach.opCells).getD [] |>.flatMap (·.map (·.1))

theorem State.pending_eq : s.pending = s.cores.flatMap Core.pendingKeys := by
  unfold State.pending
  congr 1
  funext c
  unfold Core.pendingKeys Attach.opCells
  cases c.att with
  | none => rfl
  | some a => simp [List.flatMap_map]

/-- Cores changed but for the bytes their tile stores will write. -/
theorem pending_of_cores {f : Core → Core} (hf : ∀ c, (f c).pendingKeys = c.pendingKeys) (ht : t.cores = s.cores.map f) :
    t.pending = s.pending := by
  rw [State.pending_eq, State.pending_eq, ht, List.flatMap_map]
  congr 1
  exact funext hf

theorem State.touchTiles_beneath (who loads : RunnerId → Bool) (cells : List Host.Cell) :
    Beneath s (s.touchTiles who loads cells) := by
  unfold State.touchTiles
  split
  · exact .refl
  · refine ⟨⟨_, _, _, _, rfl⟩, pending_of_cores (fun c => ?_) rfl⟩
    unfold Core.pendingKeys
    cases c.att with
    | none => rfl
    | some a => simp [Attach.touched_opCells]

theorem State.staleL1_beneath (w : Option (CoreId × RunnerId × Nat)) (cells : List Host.Cell) :
    Beneath s (s.staleL1 w cells) := by
  unfold State.staleL1
  split
  · exact .refl
  · refine ⟨⟨_, _, _, _, rfl⟩, ?_⟩
    dsimp only
    refine pending_of_cores (f := fun c => { c with l1 := _ }) (fun _ => ?_) rfl
    rfl

/-! ### A write -/

/-- The keys of some cells. -/
def hasKey (cells : List Host.Cell) (k : Nat) : Bool := cells.any fun c => c.1 == k

/-- What a write beside the runners' sides leaves: its bytes in memory, every runner's stores to them performed. -/
structure Wrote (cells : List Host.Cell) (s t : State) : Prop where
  r : t.r = s.r.exposed (hasKey cells)
  rs : t.rs = s.rs.map fun x => (x.1, x.2.exposed (hasKey cells))
  copies : t.copies = s.copies
  pending : t.pending = s.pending
  mem : t.mem = cellsPut s.mem cells

/-- Bytes at consecutive keys of the module laid over what they replace are the bytes themselves. -/
theorem laid_cellsFrom {k : Nat} {bs : List Byte} {alloc : Bool} (m : List Host.Cell)
    (hk : ∀ i, i < bs.length → isOutKey (k + i) = false) :
    (((cellsFrom k bs).filter fun c => !isOutKey c.1).map fun c =>
      (c.1, StoreAct.lay { cells := cellsFrom k bs, alloc := alloc } c.1 (cellGet m c.1))) = cellsFrom k bs := by
  have hin : ((cellsFrom k bs).filter fun c => !isOutKey c.1) = cellsFrom k bs := by
    refine List.filter_eq_self.mpr fun c hc => ?_
    obtain ⟨i, hi, rfl⟩ := exists_of_mem_cellsFrom hc
    simp [hk i hi]
  rw [hin]
  refine (List.map_congr_left (g := id) fun c hc => ?_).trans (List.map_id _)
  exact Prod.ext rfl (overlay_own_cell hc _)

theorem outWrite_cellsFrom {k : Nat} {bs : List Byte} {alloc : Bool} (hk : ∀ i, i < bs.length → isOutKey (k + i) = false) :
    StoreAct.outWrite { cells := cellsFrom k bs, alloc := alloc } = none := by
  have hnil : ((cellsFrom k bs).filter fun c => isOutKey c.1) = [] := by
    refine List.filter_eq_nil_iff.mpr fun c hc => ?_
    obtain ⟨i, hi, rfl⟩ := exists_of_mem_cellsFrom hc
    simp [hk i hi]
  unfold StoreAct.outWrite
  dsimp only
  rw [hnil]

theorem State.putCells_cellsFrom {who : RunnerId} {slice : Nat → Option Nat} {alloc : Bool} {k : Nat} {bs : List Byte}
    (hk : ∀ i, i < bs.length → isOutKey (k + i) = false) :
    ∃ u p, Beneath s u ∧ s.putCells who slice { cells := cellsFrom k bs, alloc := alloc } =
      { u with mem := cellsPut s.mem (cellsFrom k bs), poison := p } := by
  unfold State.putCells
  dsimp only
  rw [outWrite_cellsFrom hk]
  generalize hu : s.writeL2 _ _ _ _ = u
  have hb : Beneath s u := hu ▸ s.writeL2_beneath _ _ _ _
  refine ⟨u, poisonAfter u.poison (StoreAct.whole { cells := cellsFrom k bs, alloc := alloc }), hb, ?_⟩
  rw [laid_cellsFrom u.mem hk, ← hb.mem]

/-- Bytes written beside the runners' sides at consecutive keys of the module. -/
theorem State.writeFor_wrote {who : RunnerId} {slice : Nat → Option Nat} {alloc : Bool} {k : Nat} {bs : List Byte}
    (hk : ∀ i, i < bs.length → isOutKey (k + i) = false) :
    Wrote (cellsFrom k bs) s (s.writeFor who slice alloc (cellsFrom k bs)) := by
  have ht : Beneath s ((s.touchTiles (fun _ => true) (fun _ => true) (cellsFrom k bs)).staleL1 none (cellsFrom k bs)) :=
    (s.touchTiles_beneath _ _ _).trans (State.staleL1_beneath _ _)
  unfold State.writeFor State.reachFor
  obtain ⟨u, p, hu, he⟩ := State.putCells_cellsFrom (who := who) (slice := slice) (alloc := alloc)
    (s := ((s.touchTiles (fun _ => true) (fun _ => true) (cellsFrom k bs)).staleL1 none (cellsFrom k bs)).exposeAll
      fun a => (cellsFrom k bs).any fun c => c.1 == a) hk
  rw [he]
  constructor
  case r => exact hu.r.trans (congrArg (Runner.exposed · (hasKey (cellsFrom k bs))) ht.r)
  case rs => exact hu.rs.trans (congrArg (List.map fun x : RunnerId × Runner => (x.1, x.2.exposed (hasKey (cellsFrom k bs)))) ht.rs)
  case copies => exact hu.copies.trans ht.copies
  case pending => exact hu.2.trans ht.2
  case mem => exact congrArg (cellsPut · (cellsFrom k bs)) ht.mem

theorem Wrote.wf {cells : List Host.Cell} (h : Wrote cells s t) (hm : Memory.wf s.mem) : Memory.wf t.mem := by
  rw [h.mem]
  exact wf_cellsPut _ hm

/-- A byte written is the byte read. -/
theorem Wrote.byteAt {k i : Nat} {bs : List Byte} (h : Wrote (cellsFrom k bs) s t) (hm : Memory.wf s.mem)
    (hi : i < bs.length) : t.byteAt (k + i) = bs[i] := by
  rw [State.byteAt, h.mem, cellGet_cellsFrom hm hi]

/-- A byte beside those written is as before. -/
theorem Wrote.byteAt_apart {k a : Nat} {bs : List Byte} (h : Wrote (cellsFrom k bs) s t) (hm : Memory.wf s.mem)
    (ha : a < k ∨ k + bs.length ≤ a) : t.byteAt a = s.byteAt a := by
  rw [State.byteAt, h.mem, cellGet_cellsFrom_apart hm ha]
  rfl

theorem hasKey_cellsFrom {k a : Nat} {bs : List Byte} (h : hasKey (cellsFrom k bs) a = true) :
    k ≤ a ∧ a < k + bs.length := by
  obtain ⟨c, hc, hca⟩ := List.any_eq_true.mp h
  have hm := mem_cellsFrom k bs c hc
  rwa [beq_iff_eq.mp hca] at hm

/-- A runner none of whose stores may be seen late at some keys is exposed to nothing there. -/
theorem Runner.exposed_of_apart {x : Runner} {p : Nat → Bool} (h : ∀ h ∈ x.hist, ∀ c ∈ h.cells, p c.1 = false) :
    x.exposed p = x := by
  have hnil : histAt p x.hist = [] := by
    unfold histAt
    rw [List.map_eq_nil_iff, List.filter_eq_nil_iff]
    exact fun a ha => by simpa using h a ha
  unfold Runner.exposed
  simp [hnil]

theorem exposed_rs_of_apart {p : Nat → Bool} (h : ∀ y ∈ s.allRunners, y.exposed p = y) :
    (s.rs.map fun x => (x.1, x.2.exposed p)) = s.rs := by
  refine (List.map_congr_left (g := id) fun x hx => ?_).trans (List.map_id _)
  rw [h x.2 (List.mem_cons_of_mem _ (List.mem_map_of_mem hx))]
  rfl

theorem Hist.meets_false_iff {h : Hist} {k n : Nat} : h.meets k n = false ↔ ∀ c ∈ h.cells, ¬(k ≤ c.1 ∧ c.1 < k + n) := by
  simp [Hist.meets]

/-- A write whose bytes no runner may still see replaced leaves the runners as they are. -/
theorem Wrote.same_runners {k : Nat} {bs : List Byte} (h : Wrote (cellsFrom k bs) s t)
    (hm : ∀ y ∈ s.allRunners, ∀ h ∈ y.hist, h.meets k bs.length = false) : t.r = s.r ∧ t.rs = s.rs := by
  have hx : ∀ y ∈ s.allRunners, y.exposed (hasKey (cellsFrom k bs)) = y := fun y hy =>
    Runner.exposed_of_apart fun g hg c hc => by
      rw [← Bool.not_eq_true]
      exact fun hk => Hist.meets_false_iff.mp (hm y hy g hg) c hc (hasKey_cellsFrom hk)
  exact ⟨h.r.trans (hx _ List.mem_cons_self), h.rs.trans (exposed_rs_of_apart hx)⟩

/-! ### Page-table entries (R301) -/

theorem isOutKey_of_module {k : Nat} (h : k < 2 ^ 41) : isOutKey k = false := by
  have hh : ¬hostBase ≤ k := by unfold hostBase; omega
  have hp : ¬peerBase ≤ k := by unfold peerBase; omega
  simp [isOutKey, isPeerKey, isHostKey, hh, hp]

/-- What entries written by the service leave: their bytes, all else in memory and the runners as they were. -/
structure EntriesWritten (l : List (Nat × Word)) (s t : State) : Prop where
  r : t.r = s.r
  rs : t.rs = s.rs
  bytes : ∀ e ∈ l, ∀ i, i < 8 → t.byteAt (e.1 + i) = e.2.extractLsb' (8 * i) 8
  apart : ∀ k, (∀ e ∈ l, k < e.1 ∨ e.1 + 8 ≤ k) → t.byteAt k = s.byteAt k

theorem State.writeEntries_written (part : Nat) {l : List (Nat × Word)} (hl : ∀ e ∈ l, e.1 % 8 = 0 ∧ e.1 + 8 ≤ 2 ^ 41)
    (hn : (l.map (·.1)).Nodup) (hwf : Memory.wf s.mem)
    (hm : ∀ y ∈ s.allRunners, ∀ h ∈ y.hist, ∀ e ∈ l, h.meets e.1 8 = false) :
    EntriesWritten l s (s.writeEntries part l) := by
  induction l generalizing s with
  | nil => exact ⟨rfl, rfl, fun e he => absurd he List.not_mem_nil, fun _ _ => rfl⟩
  | cons e l ih =>
    obtain ⟨he8, hetop⟩ := hl e List.mem_cons_self
    obtain ⟨hne, hnl⟩ := List.nodup_cons.mp hn
    have hlen := natToLeBytes_length 8 e.2.toNat
    have hw : Wrote _ s (s.agentWrite part (cellsFrom e.1 (natToLeBytes 8 e.2.toNat))) :=
      State.writeFor_wrote fun i hi => isOutKey_of_module (by rw [hlen] at hi; omega)
    change EntriesWritten _ s ((s.agentWrite part (cellsFrom e.1 (natToLeBytes 8 e.2.toNat))).writeEntries part l)
    generalize s.agentWrite part (cellsFrom e.1 (natToLeBytes 8 e.2.toNat)) = u at hw ⊢
    obtain ⟨hr, hrs⟩ := hw.same_runners fun y hy h hh => by rw [hlen]; exact hm y hy h hh e List.mem_cons_self
    have hu := ih (s := u) (fun d hd => hl d (List.mem_cons_of_mem _ hd)) hnl (hw.wf hwf)
      (by rw [State.allRunners, hr, hrs]; exact fun y hy h hh d hd => hm y hy h hh d (List.mem_cons_of_mem _ hd))
    have hapart : ∀ d ∈ l, ∀ i, i < 8 → e.1 + i < d.1 ∨ d.1 + 8 ≤ e.1 + i := fun d hd i hi => by
      have hne' : d.1 ≠ e.1 := fun h => hne (List.mem_map.mpr ⟨d, hd, h⟩)
      have hd8 := (hl d (List.mem_cons_of_mem _ hd)).1
      omega
    refine ⟨hu.r.trans hr, hu.rs.trans hrs, fun d hd i hi => ?_, fun k hk => ?_⟩
    · rcases List.mem_cons.mp hd with rfl | hd
      · refine (hu.apart _ fun f hf => hapart f hf i hi).trans ?_
        have hib : i < (natToLeBytes 8 d.2.toNat).length := by omega
        rw [hw.byteAt hwf hib]
        exact Option.some.inj ((List.getElem?_eq_getElem hib).symm.trans (natToLeBytes_word d.2 hi))
      · exact hu.bytes d hd i hi
    · exact (hu.apart k fun d hd => hk d (List.mem_cons_of_mem _ hd)).trans
        (hw.byteAt_apart hwf (by rw [hlen]; exact hk e List.mem_cons_self))

/-- Service that maps the page: the access goes on with the entries written. -/
theorem faultServiceComplete_mapped {r : RunnerId} {x : Runner} {va : Word} {l : List (Nat × Word)} (h : s.Kept)
    (hr : s.runner? r = some x) (hs : s.stalledOn r = some (.service va))
    (hl : ∀ e ∈ l, e.1 % 8 = 0 ∧ e.1 + 8 ≤ 2 ^ 41) (hn : (l.map (·.1)).Nodup) (hwf : Memory.wf s.mem)
    (hm : ∀ y ∈ s.allRunners, ∀ h ∈ y.hist, ∀ e ∈ l, h.meets e.1 8 = false) :
    Brings s r (.faultServiceComplete r (some l)) fun t y => y.stat = .ready ∧ y.asks = [] ∧ y.replies = x.replies ∧
      y.scal = x.scal ∧ y.vect = x.vect ∧ (∀ e ∈ l, ∀ i, i < 8 → t.byteAt (e.1 + i) = e.2.extractLsb' (8 * i) 8) ∧
      ∀ k, (∀ e ∈ l, k < e.1 ∨ e.1 + 8 ≤ k) → t.byteAt k = s.byteAt k := by
  have hw := State.writeEntries_written r.part hl hn hwf hm
  have hd := (s.writeEntries r.part l).requestDone_aside (r := r)
  have hur := hd.r.trans hw.r
  have hus := hd.rs.trans hw.rs
  have hall : (l.all fun e => e.1 % 8 == 0 && decide (e.1 + 8 ≤ 2 ^ 41)) = true :=
    List.all_eq_true.mpr fun e he => by simpa using hl e he
  have he : exec (.faultServiceComplete r (some l)) s = .next (((s.writeEntries r.part l).requestDone r).withRunner r
      fun s => s.mapR fun r => { r with asks := [], stat := .ready }) := by
    refine (if_pos hall).trans ?_
    rw [State.serviceEnds, State.stalledOn_congr hur hus, hs]
    rfl
  generalize (s.writeEntries r.part l).requestDone r = u at *
  have hk : u.Kept := fun y hy => h y (hus ▸ hy)
  have hru : u.runner? r = some x := (State.runner?_congr hur hus r).trans hr
  obtain ⟨hx, -⟩ := hk.focus_r hru
  refine h.brings_after hr hur hus he ⟨rfl, rfl⟩ ?_
  have hmem : (u.withRunner r fun s => s.mapR fun r => { r with asks := [], stat := .ready }).mem =
      (s.writeEntries r.part l).mem := by
    rw [State.withRunner_mem (by rw [hru]; rfl)]
    exact State.focus_mem.trans hd.mem
  have hbyte (k : Nat) := SameMemory.of_mem hmem k
  refine ⟨rfl, rfl, by rw [← hx]; rfl, by rw [← hx]; rfl, by rw [← hx]; rfl, fun e he i hi => ?_, fun k hk => ?_⟩
  · exact (hbyte _).trans (hw.bytes e he i hi)
  · exact (hbyte k).trans (hw.apart k hk)

end

end Sys2Proof.Machine
end

section
/-! A stream's element group lands (O53, R159). -/

namespace Sys2Proof.Machine

section
variable {s t u : State}

/-! ### A load that leaves the runners as they are -/

/-- What upserting an element leaves of a list gathered from each: the element counts for the one it replaces. -/
theorem flatMap_upsert {α β : Type} {p : α → Bool} {g : α → List β} {x : α} {l : List α}
    (h : g x = ((l.find? p).map g).getD []) : (upsert p x l).flatMap g = l.flatMap g := by
  induction l with
  | nil =>
    change g x ++ [] = []
    rw [h]
    rfl
  | cons a l ih =>
    by_cases ha : p a = true
    · rw [List.find?_cons_of_pos ha] at h
      rw [upsert, if_pos ha, List.flatMap_cons, List.flatMap_cons, h]
      rfl
    · rw [List.find?_cons_of_neg ha] at h
      rw [upsert, if_neg ha, List.flatMap_cons, List.flatMap_cons, ih h]

theorem State.core_pendingKeys (c : CoreId) :
    (s.core c).pendingKeys = ((s.cores.find? fun x => x.id == c).map Core.pendingKeys).getD [] := by
  unfold State.core
  cases s.cores.find? fun x => x.id == c <;> rfl

theorem State.mapL1_beneath (f : List L1Line → List L1Line) : Beneath s (s.mapL1 f) := by
  refine ⟨⟨_, _, _, _, rfl⟩, ?_⟩
  rw [State.pending_eq, State.pending_eq]
  refine flatMap_upsert (State.core_pendingKeys _ |>.symm.trans ?_).symm
  rw [show (s.myCore).id = s.r.ident.core from State.core_id _ _]
  rfl

theorem State.mapL1_myCore (f : List L1Line → List L1Line) : (s.mapL1 f).myCore.l1 = f s.myCore.l1 := by
  unfold State.mapL1 State.myCore
  dsimp only
  exact congrArg Core.l1 (State.setCore_core_of_id (by exact State.core_id s s.r.ident.core))

/-- Every byte by which a line of the running runner's core is older than memory was one before. -/
def L1Newer (s t : State) : Prop := ∀ l ∈ t.myCore.l1, ∀ b ∈ l.old, ∃ k ∈ s.myCore.l1, b ∈ k.old

/-- What a load that meets no store of a runner leaves: the runners and memory as they are, the core's L1 no older. -/
structure Landing (s t : State) : Prop where
  beneath : Beneath s t
  newer : L1Newer s t

theorem Landing.refl : Landing s s := ⟨.refl, fun l hl _ hb => ⟨l, hl, hb⟩⟩

theorem Landing.trans (h : Landing s t) (k : Landing t u) : Landing s u := by
  refine ⟨h.beneath.trans k.beneath, fun l hl b hb => ?_⟩
  obtain ⟨l', hl', hb'⟩ := k.newer l hl b hb
  exact h.newer l' hl' b hb'

/-- The same with the later part first, which fixes the state between. -/
theorem Landing.after (k : Landing t u) (h : Landing s t) : Landing s u := h.trans k

/-- Where the cores are as they were L1 is no older. -/
theorem Landing.of_cores (h : Beneath s t) (hc : t.cores = s.cores) : Landing s t := by
  refine ⟨h, fun l hl b hb => ⟨l, ?_, hb⟩⟩
  rwa [State.myCore, State.core, hc, h.r] at hl

theorem l1Fill_old {sets n line : Nat} {l1 : List L1Line} {l : L1Line} (h : l ∈ l1Fill sets n line l1) :
    l ∈ l1 ∨ l.old = [] := by
  unfold l1Fill at h
  split at h
  · exact .inl h
  · dsimp only at h
    rcases List.mem_cons.mp h with rfl | h
    · exact .inr rfl
    · exact .inl (List.mem_filter.mp h).1

/-- L1's lines as a load that it has not served leaves them. -/
def freshened (served : Bool) (key : Nat) (l1 : List L1Line) : List L1Line :=
  l1.map fun l => { l with
    old := l.old.filter fun _ => l.line != lineOf key || served, late := l.late.filter fun _ => l.line != lineOf key || served }

theorem freshened_old {served : Bool} {key : Nat} {l1 : List L1Line} {l : L1Line} (h : l ∈ freshened served key l1)
    {b : Host.Cell} (hb : b ∈ l.old) : ∃ k ∈ l1, b ∈ k.old := by
  obtain ⟨k, hk, rfl⟩ := List.mem_map.mp h
  exact ⟨k, hk, (List.mem_filter.mp hb).1⟩

theorem State.refillL1_landing (served alloc : Bool) (key : Nat) : Landing s (s.refillL1 served alloc key) := by
  unfold State.refillL1
  split
  · exact .refl
  · dsimp only
    refine ⟨(State.mapL1_beneath _).trans ⟨⟨_, _, _, _, rfl⟩, rfl⟩, fun l hl b hb => ?_⟩
    change l ∈ (State.mapL1 s fun l1 => if alloc = true then l1Fill s.l1Sets s.free (lineOf key) (freshened served key l1)
      else freshened served key l1).myCore.l1 at hl
    rw [State.mapL1_myCore] at hl
    split at hl
    · rcases l1Fill_old hl with hl | hl
      · exact freshened_old hl hb
      · rw [hl] at hb
        exact absurd hb List.not_mem_nil
    · exact freshened_old hl hb

theorem State.loadLines_landing (v : Via) (w : Served) (key : Nat) (slice : Option Nat) :
    Landing s (s.loadLines v w key slice) := by
  unfold State.loadLines
  exact .after (State.refillL1_landing _ _ _) (.of_cores ⟨⟨_, _, _, _, rfl⟩, rfl⟩ rfl)

theorem State.servedBy_landing (v : Via) (key : Nat) : Landing s (s.servedBy v key).2 := by
  have hfree : Landing s s.freeBool.2 := .of_cores ⟨⟨_, _, _, _, rfl⟩, rfl⟩ rfl
  unfold State.servedBy
  split
  · exact .refl
  · dsimp only
    split
    · split
      · exact hfree
      · exact .refl
    · split
      · exact hfree
      · exact .refl
    · exact hfree
    · exact .refl

/-! ### Bytes as memory has them -/

/-- No byte at some keys is poisoned, may still be seen as a store replaced it, or is older in the running runner's core. -/
structure Readable (s : State) (k n : Nat) : Prop where
  clean : poisonMeets s.poison k n = none
  settled : ∀ y ∈ s.allRunners, ∀ h ∈ y.hist, h.meets k n = false
  fresh : ∀ l ∈ s.myCore.l1, ∀ b ∈ l.old, ¬(k ≤ b.1 ∧ b.1 < k + n)

theorem Readable.landing {k n : Nat} (h : Readable s k n) (hl : Landing s t) : Readable t k n := by
  obtain ⟨hb, hn⟩ := hl
  refine ⟨?_, ?_, fun l hl b hb => ?_⟩
  · obtain ⟨⟨_, _, _, _, rfl⟩, -⟩ := hb
    exact h.clean
  · rw [State.allRunners, hb.r, hb.rs]
    exact h.settled
  · obtain ⟨l', hl', hb'⟩ := hn l hl b hb
    exact h.fresh l' hl' b hb'

theorem State.look_of_pending (hp : s.pending = []) (k n : Nat) : s.look k n = (bytesAt s.mem k n, s) := by
  unfold State.look
  rw [hp]
  rfl

/-- Bytes with nothing of some cells among them. -/
theorem undo_of_apart {cells : List Host.Cell} {k : Nat} {bs : List Byte}
    (h : ∀ c ∈ cells, ¬(k ≤ c.1 ∧ c.1 < k + bs.length)) : undo cells k bs = bs := by
  unfold undo
  refine List.ext_getElem (by simp [keysFrom_eq_map]) fun i hi hj => ?_
  simp only [List.getElem_map, List.getElem_zip, keysFrom_eq_map, List.getElem_range]
  exact overlay_of_absent _ _ _ fun c hc hk => h c hc (by omega)

/-- Another runner's stores that nobody may see late are exposed by nothing. -/
theorem State.exposeOthers_of_apart {k n : Nat} (h : ∀ y ∈ s.allRunners, ∀ h ∈ y.hist, h.meets k n = false) :
    s.exposeOthers (inKeys k n) = s := by
  have hx : ∀ y ∈ s.allRunners, y.exposed (inKeys k n) = y := fun y hy =>
    Runner.exposed_of_apart fun g hg c hc => by simpa [inKeys] using Hist.meets_false_iff.mp (h y hy g hg) c hc
  rw [State.exposeOthers, exposed_rs_of_apart hx]

theorem State.seenVia_plain {k n : Nat} (hp : s.pending = []) (h : Readable s k n) (o : Obs) :
    (s.seenVia o (s.l1Lines k) k n) = ((bytesAt s.mem k n, bytesAt s.mem k n), s) := by
  have hundo : undo ((s.l1Lines k).flatMap (·.old)) k (bytesAt s.mem k n) = bytesAt s.mem k n := by
    refine undo_of_apart fun c hc => ?_
    obtain ⟨l, hl, hcl⟩ := List.mem_flatMap.mp hc
    rw [bytesAt_length]
    exact h.fresh l (List.mem_filter.mp hl).1 c hcl
  have hhist : (s.r.hist.filter fun h => h.meets k n) = [] :=
    List.filter_eq_nil_iff.mpr fun g hg => by rw [h.settled s.r List.mem_cons_self g hg]; exact Bool.false_ne_true
  unfold State.seenVia
  rw [State.look_of_pending hp]
  dsimp only
  rw [State.exposeOthers_of_apart h.settled, hhist, hundo]
  rfl

/-- A load of a stream that meets nothing of what may be read otherwise reads memory. -/
theorem State.readBy_plain {k n : Nat} {v : Via} {pin va : Word} (hp : s.pending = []) (hpin : s.pinFaultBy pin va = false)
    (h : Readable s k n) : ∃ t, s.readBy .strm v pin va k n = .ok (bytesAt s.mem k n, t) ∧ Landing s t := by
  have hw := s.servedBy_landing v k
  unfold State.readBy
  generalize s.servedBy v k = w at hw
  obtain ⟨w, u⟩ := w
  dsimp only at hw ⊢
  have hr := h.landing hw
  have hpin' : u.pinFaultBy pin va = false := by
    obtain ⟨⟨_, _, _, _, rfl⟩, -⟩ := hw.beneath
    exact hpin
  rw [hpin', hr.clean]
  unfold State.readRaw State.readUnder
  rw [State.seenVia_plain (hw.beneath.2.trans hp) hr]
  refine ⟨_, ?_, hw.trans (State.loadLines_landing v w k (u.pinSliceBy pin va))⟩
  rw [← hw.beneath.mem]
  simp [Runner.lay]

/-! ### The records of a group -/

/-- The value of a field as memory has it, or as an outside agent gave it. -/
def fieldNow (m : List Host.Cell) (es : Nat) (f : Nat × Option Nat) : Nat := f.2.getD (leBytesToNat (bytesAt m f.1 es))

/-- A group's due records as memory has them. -/
def StreamRec.readNow (x : StreamRec) (m : List Host.Cell) (per group : Nat) : List (Nat × List Nat) :=
  (x.due per group).map fun d => (d.1, d.2.map (fieldNow m x.es))

/-- A stream whose fields not yet given can be read from memory. -/
structure Landable (s : State) (x : StreamRec) : Prop where
  pending : s.pending = []
  pin : ∀ va, s.pinFaultBy x.pin va = false

theorem Landable.landing {x : StreamRec} (h : Landable s x) (hl : Landing s t) : Landable t x := by
  refine ⟨hl.beneath.2.trans h.pending, ?_⟩
  obtain ⟨⟨_, _, _, _, rfl⟩, -⟩ := hl.beneath
  exact h.pin

theorem StreamOp.landFields_plain (o : StreamOp) {x : StreamRec} (r f : Nat) {ks : List (Nat × Option Nat)}
    (h : Landable s x) (hk : ∀ f ∈ ks, f.2 = none → Readable s f.1 x.es) :
    ∃ t, o.landFields x r f ks s = .ok (ks.map (fieldNow s.mem x.es), t) ∧ Landing s t := by
  induction ks generalizing s f with
  | nil => exact ⟨s, rfl, .refl⟩
  | cons a ks ih =>
    obtain ⟨k, v⟩ := a
    cases v with
    | some y =>
      obtain ⟨t, ht, hl⟩ := ih (f + 1) h fun g hg => hk g (List.mem_cons_of_mem _ hg)
      refine ⟨t, ?_, hl⟩
      simp only [StreamOp.landFields, bind, Except.bind]
      rw [ht]
      rfl
    | none =>
      obtain ⟨u, hu, hlu⟩ := State.readBy_plain (v := { scope := o.mm.scope, alloc := x.alloc }) h.pending
        (h.pin (o.addr x.es r f)) (hk (k, none) List.mem_cons_self rfl)
      obtain ⟨t, ht, hl⟩ := ih (s := u) (f + 1) (h.landing hlu) fun g hg hn =>
        (hk g (List.mem_cons_of_mem _ hg) hn).landing hlu
      refine ⟨t, ?_, hlu.trans hl⟩
      simp only [StreamOp.landFields, bind, Except.bind]
      rw [hu]
      dsimp only
      rw [ht, hlu.beneath.mem]
      rfl

theorem StreamOp.land_plain (o : StreamOp) {x : StreamRec} {rs : List (Nat × List (Nat × Option Nat))} (h : Landable s x)
    (hk : ∀ d ∈ rs, ∀ f ∈ d.2, f.2 = none → Readable s f.1 x.es) :
    ∃ t, o.land x rs s = (rs.map fun d => (d.1, d.2.map (fieldNow s.mem x.es)), none, t) ∧ Landing s t := by
  induction rs generalizing s with
  | nil => exact ⟨s, rfl, .refl⟩
  | cons d rs ih =>
    obtain ⟨u, hu, hlu⟩ := o.landFields_plain d.1 0 h (hk d List.mem_cons_self)
    obtain ⟨t, ht, hl⟩ := ih (s := u) (h.landing hlu) fun e he f hf hn =>
      (hk e (List.mem_cons_of_mem _ he) f hf hn).landing hlu
    refine ⟨t, ?_, hlu.trans hl⟩
    simp only [StreamOp.land, hu, ht, hlu.beneath.mem, List.map_cons]

/-! ### The event -/

theorem mem_of_mem_beforeStream {n : Nat} {q : List VItem} {v : VItem} (h : v ∈ beforeStream n q) : v ∈ q := by
  induction q generalizing n with
  | nil => rw [beforeStream] at h; exact h
  | cons a q ih =>
    have hcons {k : Nat} (h : v ∈ a :: beforeStream k q) : v ∈ a :: q := by
      rcases List.mem_cons.mp h with rfl | h
      · exact List.mem_cons_self
      · exact List.mem_cons_of_mem _ (ih h)
    unfold beforeStream at h
    split at h
    · exact absurd h List.not_mem_nil
    · next hq =>
      obtain ⟨rfl, rfl⟩ := List.cons.inj hq
      split at h
      · split at h
        · exact absurd h List.not_mem_nil
        · exact hcons h
      · exact hcons h
    · next hq =>
      obtain ⟨rfl, rfl⟩ := List.cons.inj hq
      exact hcons h

theorem State.canLand_of_ready {z : StreamRec} {o : StreamOp} {group : Nat} (hlive : s.r.live = true)
    (hfence : ∀ v ∈ s.r.vq, ∀ k sc, v ≠ .fence k sc) (hdue : z.due (s.groupOf o.names) group ≠ []) :
    s.canLand z o group = true := by
  have hf : (beforeStream (s.r.streams.findIdx fun y => y.id == z.id) s.r.vq).any VItem.isFence = false := by
    refine List.any_eq_false.mpr fun v hv => ?_
    cases v with
    | fence k sc => exact absurd rfl (hfence _ (mem_of_mem_beforeStream hv) k sc)
    | _ => exact Bool.false_ne_true
  simp [State.canLand, hlive, hf, hdue]

/-- A stream's element group lands as memory has it (R159). -/
theorem streamGroupLanded_lands {r : RunnerId} {x : Runner} {id group : Nat} {z : StreamRec} {o : StreamOp} (h : s.Kept)
    (hr : s.runner? r = some x) (hz : x.streams.find? (fun z => z.id == id) = some z)
    (ho : streamOpOf z.a z.b z.i = some o) (hlive : x.live = true) (hp : s.pending = [])
    (hfence : ∀ v ∈ x.vq, ∀ k sc, v ≠ .fence k sc) (hpin : ∀ va, (s.focus r).pinFaultBy z.pin va = false)
    (hdue : z.due ((s.focus r).groupOf o.names) group ≠ [])
    (hread : ∀ d ∈ z.due ((s.focus r).groupOf o.names) group, ∀ f ∈ d.2, f.2 = none →
      poisonMeets s.poison f.1 z.es = none ∧ (∀ y ∈ s.allRunners, ∀ h ∈ y.hist, h.meets f.1 z.es = false) ∧
      ∀ l ∈ (s.core x.ident.core).l1, ∀ b ∈ l.old, ¬(f.1 ≤ b.1 ∧ b.1 < f.1 + z.es)) :
    Brings s r (.streamGroupLanded r id group) fun t y => SameMemory s t ∧ y.scal = x.scal ∧ y.vect = x.vect ∧
      y.streams = x.streams.map fun u =>
        if u.id = id then { u with landed := u.landed ++ z.readNow s.mem ((s.focus r).groupOf o.names) group } else u := by
  obtain ⟨hx, hid⟩ := h.focus_r hr
  have hzid : z.id = id := by simpa using List.find?_some (p := fun z : StreamRec => z.id == id) hz
  have hcan : (s.focus r).canLand z o group = true :=
    State.canLand_of_ready (by rw [hx]; exact hlive) (by rw [hx]; exact hfence) hdue
  have he : exec (.streamGroupLanded r id group) s = .next (s.withRunner r fun s => s.landGroup z o group) := by
    change execStreamGroupLanded r id group s = _
    unfold execStreamGroupLanded
    dsimp only
    rw [if_pos hid, hx, hz]
    dsimp only
    rw [ho]
    exact if_pos hcan
  have hmem : (s.focus r).mem = s.mem := State.focus_mem
  have hreadable : ∀ d ∈ z.due ((s.focus r).groupOf o.names) group, ∀ f ∈ d.2, f.2 = none →
      Readable (s.focus r) f.1 z.es := fun d hd f hf hn => by
    obtain ⟨hclean, hset, hfresh⟩ := hread d hd f hf hn
    refine ⟨by rw [State.focus_eq]; exact hclean, fun y hy => hset y (State.mem_allRunners_of_focus hy), ?_⟩
    rw [State.myCore, State.core, hx, State.focus_eq]
    exact hfresh
  obtain ⟨t, ht, hl⟩ := o.land_plain (x := z) (s := s.focus r)
    ⟨by rw [State.pending, State.focus_eq]; exact hp, hpin⟩ hreadable
  have hland : (s.focus r).landGroup z o group = t.mapR fun x => { x with streams := x.streams.map fun y =>
      if y.id == z.id then { y with landed := y.landed ++ z.readNow (s.focus r).mem ((s.focus r).groupOf o.names) group }
      else y } := by
    unfold State.landGroup
    rw [ht]
    rfl
  refine h.brings hr he (by rw [hland]; exact ⟨congrArg (·.ident.id) hl.beneath.r, hl.beneath.rs⟩) ⟨.of_mem ?_, ?_, ?_, ?_⟩
  · rw [State.withRunner_mem (by rw [hr]; rfl), hland]
    exact hl.beneath.mem.trans hmem
  · rw [hland, ← hx, ← hl.beneath.r]
    rfl
  · rw [hland, ← hx, ← hl.beneath.r]
    rfl
  · rw [hland, ← hx, ← hl.beneath.r, hzid, hmem]
    simp only [beq_iff_eq]
    rfl

end

end Sys2Proof.Machine
end

section
/-! A chunk of a copy lands (O53, R163). -/

namespace Sys2Proof.Machine

section
variable {s t u : State} {c : CopyRec} {es : List (Nat × Nat)}

/-! ### Runners a copy meets nothing of -/

/-- A runner with nothing in its strip store buffer, none of whose stores a copy may read as not yet performed in the sources
of some elements. -/
def Runner.QuietFor (c : CopyRec) (es : List (Nat × Nat)) (y : Runner) : Prop :=
  y.strip.buf = [] ∧ y.strip.lines = [] ∧
    ∀ h ∈ y.hist, h.copies.contains c.id = true → ∀ e ∈ es, h.meets e.1 c.esize = false

theorem mem_of_mem_liveHist {h : Hist} : ∀ {l : List Hist}, h ∈ liveHist l → h ∈ l
  | [], hl => hl
  | g :: l, hl => by
    rw [liveHist] at hl
    split at hl
    · exact absurd hl List.not_mem_nil
    · rcases List.mem_cons.mp hl with rfl | hl
      · exact List.mem_cons_self
      · exact List.mem_cons_of_mem _ (mem_of_mem_liveHist hl)

/-- A store met by another agent is one no copy may read as not yet performed. -/
theorem Runner.QuietFor.exposed {y : Runner} (h : y.QuietFor c es) (p : Nat → Bool) : (y.exposed p).QuietFor c es := by
  obtain ⟨hb, hl, hh⟩ := h
  unfold Runner.exposed
  dsimp only
  split
  · exact ⟨hb, hl, hh⟩
  · refine ⟨hb, hl, fun g hg hc => ?_⟩
    obtain ⟨k, hk, rfl⟩ := List.mem_map.mp (mem_of_mem_liveHist hg)
    split at hc
    · simp [Hist.settled] at hc
    · next hm =>
      rw [if_neg hm]
      exact hh k hk hc

/-- What meeting bytes leaves: memory, copies, the bytes of tile stores; a quiet runner stays one. -/
structure Meets (s t : State) : Prop where
  mem : t.mem = s.mem
  copies : t.copies = s.copies
  pending : t.pending = s.pending
  quiet : ∀ c es, (∀ y ∈ s.allRunners, y.QuietFor c es) → ∀ y ∈ t.allRunners, y.QuietFor c es

theorem Meets.trans (h : Meets s t) (k : Meets t u) : Meets s u :=
  ⟨k.mem.trans h.mem, k.copies.trans h.copies, k.pending.trans h.pending, fun c es hq => k.quiet c es (h.quiet c es hq)⟩

theorem Beneath.meets (h : Beneath s t) : Meets s t := by
  refine ⟨h.mem, h.copies, h.2, fun c es hq => ?_⟩
  rw [State.allRunners, h.r, h.rs]
  exact hq

theorem State.focus_meets (r : RunnerId) : Meets s (s.focus r) := by
  refine ⟨State.focus_mem, ?_, ?_, fun c es hq y hy => hq y (State.mem_allRunners_of_focus hy)⟩
  · rw [State.focus_eq]
  · rw [State.focus_eq]
    rfl

theorem quiet_exposed_rs (p : Nat → Bool) (hq : ∀ y ∈ s.allRunners, y.QuietFor c es) {y : Runner}
    (hy : y ∈ (s.rs.map fun x => (x.1, x.2.exposed p)).map (·.2)) : y.QuietFor c es := by
  obtain ⟨a, ha, rfl⟩ := List.mem_map.mp hy
  obtain ⟨x, hx, rfl⟩ := List.mem_map.mp ha
  exact (hq x.2 (List.mem_cons_of_mem _ (List.mem_map_of_mem hx))).exposed p

theorem State.exposeOthers_meets (p : Nat → Bool) : Meets s (s.exposeOthers p) := by
  refine ⟨rfl, rfl, rfl, fun c es hq y hy => ?_⟩
  rcases List.mem_cons.mp hy with rfl | hy
  · exact hq _ List.mem_cons_self
  · exact quiet_exposed_rs p hq hy

theorem State.exposeAll_meets (p : Nat → Bool) : Meets s (s.exposeAll p) := by
  refine ⟨rfl, rfl, rfl, fun c es hq y hy => ?_⟩
  rcases List.mem_cons.mp hy with rfl | hy
  · exact (hq _ List.mem_cons_self).exposed p
  · exact quiet_exposed_rs p hq hy

/-! ### Elements moved one by one -/

/-- What a copy needs to move elements as memory has them: nothing of its sources is still to be written or read late. -/
structure CopyReady (c : CopyRec) (es : List (Nat × Nat)) (s : State) : Prop where
  wf : Memory.wf s.mem
  pending : s.pending = []
  quiet : ∀ y ∈ s.allRunners, y.QuietFor c es

theorem CopyReady.meets (h : CopyReady c es s) (k : Meets s t) : CopyReady c es t :=
  ⟨k.mem ▸ h.wf, k.pending.trans h.pending, k.quiet c es h.quiet⟩

theorem CopyReady.wrote {cells : List Host.Cell} (h : CopyReady c es s) (k : Wrote cells s t) : CopyReady c es t := by
  refine ⟨k.wf h.wf, k.pending.trans h.pending, fun y hy => ?_⟩
  rw [State.allRunners, k.r, k.rs] at hy
  rcases List.mem_cons.mp hy with rfl | hy
  · exact (h.quiet _ List.mem_cons_self).exposed _
  · exact quiet_exposed_rs _ h.quiet hy

/-- What a copy reads of its runner's stores it does not wait for: memory as it stands. -/
theorem CopyReady.seen (h : CopyReady c es s) {e : Nat × Nat} (he : e ∈ es) :
    s.seen (.copy c.id) e.1 c.esize = (bytesAt s.mem e.1 c.esize, s.exposeOthers (inKeys e.1 c.esize)) := by
  obtain ⟨-, -, hquiet⟩ := h.quiet s.r List.mem_cons_self
  have hseen : ((s.r.hist.filter fun h => h.meets e.1 c.esize).all fun h => !h.seenBy (.copy c.id)) = true := by
    refine List.all_eq_true.mpr fun g hg => ?_
    obtain ⟨hg, hm⟩ := List.mem_filter.mp hg
    cases hc : g.copies.contains c.id with
    | false => simp only [Hist.seenBy, hc, Bool.not_false]
    | true => rw [hquiet g hg hc e he] at hm; cases hm
  unfold State.seen State.seenVia
  rw [State.look_of_pending h.pending]
  dsimp only
  rw [if_pos (by exact hseen)]

theorem CopyReady.copyRead (h : CopyReady c es s) {e : Nat × Nat} (he : e ∈ es) (ho : isOutKey e.1 = false) :
    ∃ t, s.copyRead c e.1 = (bytesAt s.mem e.1 c.esize, t) ∧ Meets s t := by
  have hf : Meets s (s.focus c.runner) := State.focus_meets _
  have hback (u : State) (hu : Meets (s.focus c.runner) u) :
      Meets s ((u.focus s.rid).touchL2 e.1 (c.slice (lineOf e.1)) c.runner.part false c.alloc) :=
    ((hf.trans hu).trans (State.focus_meets _)).trans (State.touchL2_beneath _ _ _ _ _).meets
  rw [State.copyRead, ho, if_neg Bool.false_ne_true]
  unfold State.copyLook
  dsimp only
  split
  · rw [(h.meets hf).seen he, hf.mem]
    exact ⟨_, rfl, hback _ (State.exposeOthers_meets _)⟩
  · have hx : Meets (s.focus c.runner) ((s.focus c.runner).exposeAll (inKeys e.1 c.esize)) := State.exposeAll_meets _
    rw [State.agentLook, State.look_of_pending (hx.pending.trans (hf.pending.trans h.pending)), hx.mem, hf.mem]
    exact ⟨_, rfl, hback _ hx⟩

/-- Elements of a copy that stay inside the module, none written where another is read. -/
structure CopyRec.Movable (c : CopyRec) (es : List (Nat × Nat)) : Prop where
  mem : ∀ e ∈ es, e ∈ c.elems
  pos : 0 < c.esize
  source : ∀ e ∈ es, ∀ i, i < c.esize → isOutKey (e.1 + i) = false
  dest : ∀ e ∈ es, ∀ i, i < c.esize → isOutKey (e.2 + i) = false
  apart : ∀ e ∈ es, ∀ i, i < c.esize → ∀ d ∈ c.elems, ¬(d.1 ≤ e.2 + i ∧ e.2 + i < d.1 + c.esize)

theorem CopyRec.Movable.onSource (h : c.Movable es) {e : Nat × Nat} (he : e ∈ es) {i : Nat} (hi : i < c.esize) :
    c.onSource (e.2 + i) = false := by
  refine List.any_eq_false.mpr fun d hd => ?_
  simpa using h.apart e he i hi d hd

/-- What some elements of a copy moved leave: their bytes, and every byte beside their destinations. -/
structure Moved (c : CopyRec) (es : List (Nat × Nat)) (s t : State) : Prop where
  copies : t.copies = s.copies
  bytes : ∀ e ∈ es, ∀ i, i < c.esize → t.byteAt (e.2 + i) = s.byteAt (e.1 + i)
  apart : ∀ a, (∀ e ∈ es, a < e.2 ∨ e.2 + c.esize ≤ a) → t.byteAt a = s.byteAt a

theorem movedBytes_eq (h : c.Movable es) {e : Nat × Nat} (he : e ∈ es) (m : List Host.Cell) (f : Nat → Byte) :
    ((List.range c.esize).map fun i =>
      if c.onSource (e.2 + i) then f i else ((bytesAt m e.1 c.esize)[i]?).getD 0) = bytesAt m e.1 c.esize := by
  rw [bytesAt_eq_map]
  refine List.map_congr_left fun i hi => ?_
  have hi' : i < c.esize := List.mem_range.mp hi
  rw [h.onSource he hi']
  simp [hi']

/-- The bytes of an element's source written at its destination. -/
theorem CopyReady.moved_of_wrote (h : CopyReady c es s) {e : Nat × Nat} (hu : Meets s u)
    (hw : Wrote (cellsFrom e.2 (bytesAt s.mem e.1 c.esize)) u t) : CopyReady c es t ∧ Moved c [e] s t := by
  have hready := h.meets hu
  have hlen : (bytesAt s.mem e.1 c.esize).length = c.esize := bytesAt_length _ _ _
  refine ⟨hready.wrote hw, hw.copies.trans hu.copies, fun d hd i hi => ?_, fun a ha => ?_⟩
  · obtain rfl := List.mem_singleton.mp hd
    rw [hw.byteAt hready.wf (by rwa [hlen])]
    have hb := bytesAt_getElem? s.mem d.1 hi
    rw [List.getElem?_eq_getElem (by rwa [hlen])] at hb
    exact Option.some.inj hb
  · rw [hw.byteAt_apart hready.wf (by rw [hlen]; exact ha e (List.mem_singleton_self e))]
    exact SameMemory.of_mem hu.mem a

/-- One element moved (R163). -/
theorem CopyReady.moveElem (h : CopyReady c es s) (hm : c.Movable es) {e : Nat × Nat} (he : e ∈ es) :
    CopyReady c es (s.moveElem c e) ∧ Moved c [e] s (s.moveElem c e) := by
  have hsrc : isOutKey e.1 = false := hm.source e he 0 hm.pos
  have hhost : isHostKey e.1 = false := (Bool.or_eq_false_iff.mp hsrc).2
  obtain ⟨u, hu, hmeets⟩ := h.copyRead he hsrc
  have hw : Wrote (cellsFrom e.2 (bytesAt s.mem e.1 c.esize)) { u with free := u.free + 16 }
      (({ u with free := u.free + 16 } : State).writeFor c.runner c.slice c.alloc
        (cellsFrom e.2 (bytesAt s.mem e.1 c.esize))) :=
    State.writeFor_wrote fun i hi => hm.dest e he i (by rwa [bytesAt_length] at hi)
  obtain ⟨hready, hmoved⟩ := h.moved_of_wrote (u := { u with free := u.free + 16 })
    ⟨hmeets.mem, hmeets.copies, hmeets.pending, hmeets.quiet⟩ hw
  unfold State.moveElem State.arrivesBad
  rw [hu]
  dsimp only
  rw [movedBytes_eq hm he, hhost, if_neg Bool.false_ne_true]
  split
  · exact ⟨⟨hready.wf, hready.pending, hready.quiet⟩, ⟨hmoved.copies, hmoved.bytes, hmoved.apart⟩⟩
  · exact ⟨hready, hmoved⟩

/-- The elements of a chunk moved in order. -/
theorem CopyReady.moveElems (h : CopyReady c es s) (hm : c.Movable es) {l : List (Nat × Nat)} (hl : ∀ e ∈ l, e ∈ es)
    (hp : l.Pairwise fun e d => e.2 + c.esize ≤ d.2 ∨ d.2 + c.esize ≤ e.2) :
    CopyReady c es (l.foldl (fun s e => s.moveElem c e) s) ∧ Moved c l s (l.foldl (fun s e => s.moveElem c e) s) := by
  induction l generalizing s with
  | nil => exact ⟨h, rfl, fun e he => absurd he List.not_mem_nil, fun _ _ => rfl⟩
  | cons e l ih =>
    obtain ⟨hpe, hpl⟩ := List.pairwise_cons.mp hp
    have hle := hl e List.mem_cons_self
    obtain ⟨hr, hone⟩ := h.moveElem hm hle
    obtain ⟨hrest, hmore⟩ := ih hr (fun d hd => hl d (List.mem_cons_of_mem _ hd)) hpl
    rw [List.foldl_cons]
    refine ⟨hrest, hmore.copies.trans hone.copies, fun d hd i hi => ?_, fun a ha => ?_⟩
    · rcases List.mem_cons.mp hd with rfl | hdl
      · rw [hmore.apart _ fun f hf => by have := hpe f hf; omega]
        exact hone.bytes d (List.mem_singleton_self d) i hi
      · rw [hmore.bytes d hdl i hi]
        refine hone.apart _ fun f hf => ?_
        obtain rfl := List.mem_singleton.mp hf
        have hsep := hm.apart f hle
        have hd' := hm.mem d (hl d (List.mem_cons_of_mem _ hdl))
        by_contra hin
        refine hsep (d.1 + i - f.2) (by omega) d hd' (by omega)
    · rw [hmore.apart a fun d hd => ha d (List.mem_cons_of_mem _ hd)]
      refine hone.apart a fun f hf => ?_
      obtain rfl := List.mem_singleton.mp hf
      exact ha f List.mem_cons_self

/-! ### The completion bitmap -/

/-- What setting bit n of a copy's bitmap leaves. -/
structure BitSet (c : CopyRec) (n : Nat) (s t : State) : Prop where
  copies : t.copies = s.copies
  bit : ∀ k, c.bmap = some k → leBytesToNat (bytesAt t.mem (k + 8 * (n / 64)) 8) =
    leBytesToNat (bytesAt s.mem (k + 8 * (n / 64)) 8) ||| 2 ^ (n % 64)
  apart : ∀ a, (∀ k, c.bmap = some k → a < k + 8 * (n / 64) ∨ k + 8 * (n / 64) + 8 ≤ a) → t.byteAt a = s.byteAt a

/-- Bytes written at consecutive keys, read back together. -/
theorem Wrote.bytesAt {k : Nat} {bs : List Byte} (h : Wrote (cellsFrom k bs) s t) (hm : Memory.wf s.mem) :
    bytesAt t.mem k bs.length = bs :=
  bytesAt_eq_of_getElem fun _ hi => h.byteAt hm hi

theorem CopyReady.setChunkBit (h : CopyReady c es s) {n : Nat}
    (hk : ∀ k, c.bmap = some k → ∀ i, i < 8 → isOutKey (k + 8 * (n / 64) + i) = false) :
    CopyReady c es (s.setChunkBit c n) ∧ BitSet c n s (s.setChunkBit c n) := by
  unfold State.setChunkBit
  cases hb : c.bmap with
  | none =>
    exact ⟨h, rfl, fun k hk => (Option.some_ne_none k (hk.symm.trans hb)).elim, fun _ _ => rfl⟩
  | some k =>
    dsimp only
    have hlen (x : Nat) := natToLeBytes_length 8 x
    generalize hx : bytesVal (bytesAt s.mem (k + 8 * (n / 64)) 8) ||| 2 ^ (n % 64) = x
    have hlt : x < 256 ^ 8 := by
      have hold := leBytesToNat_lt (bytesAt s.mem (k + 8 * (n / 64)) 8)
      have hbit : 2 ^ (n % 64) < 2 ^ 64 := Nat.pow_lt_pow_right (by decide) (Nat.mod_lt _ (by decide))
      rw [bytesAt_length] at hold
      rw [← hx]
      exact Nat.or_lt_two_pow (n := 64) hold hbit
    have hw : Wrote _ s (s.writeFor c.runner (fun _ => none) true (cellsFrom (k + 8 * (n / 64)) (natToLeBytes 8 x))) :=
      State.writeFor_wrote fun i hi => hk k hb i (by rwa [hlen] at hi)
    refine ⟨h.wrote hw, hw.copies, fun j hj => ?_, fun a ha => ?_⟩
    · obtain rfl := Option.some.inj (hb.symm.trans hj)
      have hread := hw.bytesAt h.wf
      rw [hlen] at hread
      rw [hread, leBytesToNat_natToLeBytes, Nat.mod_eq_of_lt hlt, ← hx]
    · exact hw.byteAt_apart h.wf (by rw [hlen]; exact ha k hb)

/-! ### The end of a copy -/

/-- No runner has anything in its strip store buffer. -/
def Bare (s : State) : Prop := ∀ y ∈ s.allRunners, y.strip.buf = [] ∧ y.strip.lines = []

/-- Memory and the copies by their names are as they were, and no runner's strip buffers anything. -/
structure Stays (s t : State) : Prop where
  mem : t.mem = s.mem
  copies : t.copies.map (·.id) = s.copies.map (·.id)
  bare : Bare t

theorem Stays.refl (h : Bare s) : Stays s s := ⟨rfl, rfl, h⟩

theorem Stays.trans (h : Stays s t) (k : Stays t u) : Stays s u :=
  ⟨k.mem.trans h.mem, k.copies.trans h.copies, k.bare⟩

theorem State.focus_stays (h : Bare s) (r : RunnerId) : Stays s (s.focus r) := by
  refine ⟨State.focus_mem, ?_, fun y hy => h y (State.mem_allRunners_of_focus hy)⟩
  rw [State.focus_eq]

theorem State.withRunner_stays {f : State → State} (hf : ∀ u, Bare u → Stays u (f u)) (h : Bare s) (r : RunnerId) :
    Stays s (s.withRunner r f) := by
  unfold State.withRunner
  split
  · have hin := (State.focus_stays h r).trans (hf _ (State.focus_stays h r).bare)
    exact hin.trans (State.focus_stays hin.bare _)
  · exact .refl h

theorem State.freeTileOps_r : s.freeTileOps.r = s.r := by
  unfold State.freeTileOps
  dsimp only
  split <;> rfl

theorem State.endProt_bare (hb : s.r.strip.buf = []) (hl : s.r.strip.lines = []) :
    s.endProt.r.strip.buf = [] ∧ s.endProt.r.strip.lines = [] := by
  have hc : s.commitStrip.r.strip = { s.r.strip with buf := [], lines := [], count := 0 } := by
    unfold State.commitStrip
    rw [hb, hl]
    exact congrArg Runner.strip State.freeTileOps_r
  unfold State.endProt
  split
  · dsimp only [State.mapR]
    rw [hc]
    exact ⟨rfl, rfl⟩
  · exact ⟨hb, hl⟩

theorem State.enterTrap_stays (h : Bare s) (c : Cause) (v : Word) (imp : Bool) : Stays s (s.enterTrap c v imp) := by
  obtain ⟨hb, hl⟩ := h s.r List.mem_cons_self
  obtain ⟨hm, hrs, hc⟩ := s.enterTrap_nothingLands hb hl c v imp
  refine ⟨hm, hc, fun y hy => ?_⟩
  rw [State.allRunners, State.enterTrap_r, hrs] at hy
  rcases List.mem_cons.mp hy with rfl | hy
  · exact State.endProt_bare hb hl
  · exact h y (List.mem_cons_of_mem _ hy)

theorem State.unstick_stays (h : Bare s) (T : TeamId) : Stays s (s.unstick T) := by
  have hfold (l : List Runner) (t : State) (ht : Stays s t) : Stays s (l.foldl (fun s x =>
      s.withRunner x.ident.id fun s => s.enterTrap .illwait (s.illwait 0xFF 3) false) t) := by
    induction l generalizing t with
    | nil => exact ht
    | cons x l ih =>
      exact ih _ (ht.trans (State.withRunner_stays (fun u hu => State.enterTrap_stays hu _ _ _) ht.bare _))
  unfold State.unstick
  split
  · exact .refl h
  · dsimp only
    split
    · exact .refl h
    · exact hfold _ _ (.refl h)

theorem State.mapHist_stays (h : Bare s) (f : Hist → Hist) : Stays s (s.mapR fun r => r.mapHist f) := by
  refine ⟨rfl, rfl, fun y hy => ?_⟩
  rcases List.mem_cons.mp hy with rfl | hy
  · exact h s.r List.mem_cons_self
  · exact h y (List.mem_cons_of_mem _ hy)

/-- A copy with no arrival of its own that ends leaves memory, and is gone. -/
theorem State.endCopy_gone (h : Bare s) (ha : c.arv = none) :
    (s.endCopy c).mem = s.mem ∧ ∀ d ∈ (s.endCopy c).copies, d.id ≠ c.id := by
  have hs : Stays { s with copies := s.copies.filter fun x => x.id != c.id } (s.endCopy c) := by
    have hw := State.withRunner_stays (s := { s with copies := s.copies.filter fun x => x.id != c.id })
      (fun u hu => State.mapHist_stays hu fun h => { h with copies := h.copies.filter fun x => x != c.id }) h c.runner
    unfold State.endCopy State.copyArrives
    rw [ha]
    exact hw.trans (State.unstick_stays hw.bare _)
  refine ⟨hs.mem, fun d hd hid => ?_⟩
  have hmem : c.id ∈ (s.copies.filter fun x => x.id != c.id).map (·.id) :=
    hs.copies ▸ hid ▸ List.mem_map_of_mem (f := fun x : CopyRec => x.id) hd
  obtain ⟨x, hx, hxc⟩ := List.mem_map.mp hmem
  simpa [hxc] using (List.mem_filter.mp hx).2

/-! ### The event -/

theorem CopyRec.mem_of_mem_chunk {n : Nat} {e : Nat × Nat} (h : e ∈ c.chunk n) : e ∈ c.elems :=
  List.mem_of_mem_drop (List.mem_of_mem_take h)

theorem CopyRec.esize_pos {n : Nat} (h : n < c.chunks) : 0 < c.esize := by
  rcases Nat.eq_zero_or_pos c.esize with h0 | h0
  · rw [CopyRec.chunks, h0] at h
    simp at h
  · exact h0

/-- A chunk noted as landed: its bit is set, and its copy is gone or goes on without it. -/
theorem CopyReady.noteChunk (h : CopyReady c es s) {n : Nat} (ha : c.arv = none) (hc : c ∈ s.copies)
    (hk : ∀ k, c.bmap = some k → ∀ i, i < 8 → isOutKey (k + 8 * (n / 64) + i) = false) :
    ∃ u, BitSet c n s u ∧ (s.noteChunk c n).mem = u.mem ∧
      (if c.chunks ≤ c.landed.length + 1 then ∀ d ∈ (s.noteChunk c n).copies, d.id ≠ c.id
        else ∃ d ∈ (s.noteChunk c n).copies, d = { c with landed := n :: c.landed }) := by
  obtain ⟨hready, hset⟩ := h.setChunkBit hk
  have hbare : Bare (s.setChunkBit c n) := fun y hy => ⟨(hready.quiet y hy).1, (hready.quiet y hy).2.1⟩
  refine ⟨s.setChunkBit c n, hset, ?_⟩
  unfold State.noteChunk
  dsimp only
  rw [show s.setChunkBit { c with landed := n :: c.landed } n = s.setChunkBit c n from rfl]
  by_cases hl : c.chunks ≤ c.landed.length + 1
  · have hgone := State.endCopy_gone (c := { c with landed := n :: c.landed }) hbare ha
    rw [if_pos hl, if_pos (by exact hl)]
    exact hgone
  · rw [if_neg hl, if_neg (by exact hl)]
    refine ⟨rfl, _, List.mem_map.mpr ⟨c, hset.copies ▸ hc, ?_⟩, rfl⟩
    exact if_pos (beq_self_eq_true c.id)

/-- A chunk of a copy lands (R163): its elements' bytes, its bit, and the copy's end with the last. -/
theorem copyChunkLanded_lands {id n : Nat} (hf : s.copies.find? (fun c => c.id == id) = some c) (hw : c.waits = false)
    (hn : n < c.chunks) (hnl : n ∉ c.landed) (ha : c.arv = none) (hr : CopyReady c (c.chunk n) s)
    (hm : c.Movable (c.chunk n))
    (hp : (c.chunk n).Pairwise fun e e' => e.2 + c.esize ≤ e'.2 ∨ e'.2 + c.esize ≤ e.2)
    (hk : ∀ k, c.bmap = some k → ∀ i, i < 8 → isOutKey (k + 8 * (n / 64) + i) = false ∧
      ∀ e ∈ c.chunk n, ∀ j, j < c.esize → e.1 + j ≠ k + 8 * (n / 64) + i ∧ e.2 + j ≠ k + 8 * (n / 64) + i) :
    ∃ t, exec (.copyChunkLanded id n) s = .next t ∧
      (∀ e ∈ c.chunk n, ∀ i, i < c.esize → t.byteAt (e.2 + i) = s.byteAt (e.1 + i)) ∧
      (∀ k, c.bmap = some k → leBytesToNat (bytesAt t.mem (k + 8 * (n / 64)) 8) =
        leBytesToNat (bytesAt s.mem (k + 8 * (n / 64)) 8) ||| 2 ^ (n % 64)) ∧
      (∀ a, (∀ e ∈ c.chunk n, a < e.2 ∨ e.2 + c.esize ≤ a) →
        (∀ k, c.bmap = some k → a < k + 8 * (n / 64) ∨ k + 8 * (n / 64) + 8 ≤ a) → t.byteAt a = s.byteAt a) ∧
      (if c.chunks ≤ c.landed.length + 1 then ∀ d ∈ t.copies, d.id ≠ id
        else ∃ d ∈ t.copies, d = { c with landed := n :: c.landed }) := by
  have hid : c.id = id := by simpa using List.find?_some (p := fun c : CopyRec => c.id == id) hf
  obtain ⟨hready, hmoved⟩ := hr.moveElems hm (l := c.chunk n) (fun _ he => he) hp
  obtain ⟨u, hset, hmem, hcopies⟩ := hready.noteChunk (n := n) ha
    (by rw [hmoved.copies]; exact List.mem_of_find?_eq_some hf) fun k hb i hi => (hk k hb i hi).1
  have hnote (a : Nat) := SameMemory.of_mem hmem a
  have hdest : ∀ k, c.bmap = some k → ∀ i, i < 8 → ∀ e ∈ c.chunk n,
      k + 8 * (n / 64) + i < e.2 ∨ e.2 + c.esize ≤ k + 8 * (n / 64) + i := fun k hb i hi e he => by
    by_contra hin
    exact ((hk k hb i hi).2 e he (k + 8 * (n / 64) + i - e.2) (by omega)).2 (by omega)
  refine ⟨s.landChunk c n, ?_, fun e he i hi => ?_, fun k hb => ?_, fun a hea hka => ?_, ?_⟩
  · change execCopyChunkLanded id n s = _
    unfold execCopyChunkLanded
    rw [hf]
    exact if_pos (by simp [hw, hn, hnl])
  · refine (hnote _).trans ((hset.apart _ fun k hb => ?_).trans (hmoved.bytes e he i hi))
    by_contra hin
    exact ((hk k hb (e.2 + i - (k + 8 * (n / 64))) (by omega)).2 e he i hi).2 (by omega)
  · rw [State.landChunk, hmem, hset.bit k hb]
    exact congrArg (leBytesToNat · ||| _) (bytesAt_congr fun i hi => hmoved.apart _ (hdest k hb i hi))
  · exact (hnote a).trans ((hset.apart a hka).trans (hmoved.apart a hea))
  · rw [← hid]
    exact hcopies

end

end Sys2Proof.Machine
end

section
/-! What a runner waits for comes about (O53): the seven kinds of event together. -/

namespace Sys2Proof.Machine

/-- The events of a wait on a barrier (R187, R193). -/
theorem barrierWait_events {s : State} {r : RunnerId} {x : Runner} {w : WaitRec} {tm : Team} (h : s.Kept)
    (hr : s.runner? r = some x) (hst : x.stat = .waiting) (hw : x.wait = some w) (hk : w.kind = .barrier)
    (hf : x.fabric = none) (hq : x.vq = []) (ht : s.team? (teamOf r) = some tm) :
    let go := tm.bars[w.bar].phase ≠ x.barw.getLsbD w.bar.val
    let late := w.dead ≠ 0 ∧ w.entry + w.dead ≤ s.time
    (go → Brings s r (.waitConditionMet r) (EndsWith s x w 0)) ∧
    (¬go → ¬late → Brings s r (.waitConditionMet r) fun t y =>
      y.stat = .waiting ∧ y.wait = some w ∧ y.scal = x.scal ∧ SameMemory s t) ∧
    (late → go → Brings s r (.waitDeadline r) (EndsWith s x w 0)) ∧
    (late → ¬go → x.scal.wdead.getLsbD 63 = false → Brings s r (.waitDeadline r) (EndsWith s x w 1)) ∧
    (late → ¬go → x.scal.wdead.getLsbD 63 = true → x.strip.buf = [] → x.strip.lines = [] →
      Brings s r (.waitDeadline r) fun _ y => y.stat = .ready ∧ y.wait = none ∧ y.scal.sysr.tcause = 0x0D ∧
        y.scal.sysr.tval = BitVec.ofNat 64 w.bar.val ∧ y.scal.sysr.tepc = x.scal.pc ∧ y.scal.pc = x.scal.sysr.tvec) := by
  intro go late
  obtain ⟨hx, -⟩ := h.focus_r hr
  have hphase : ((s.focus r).phase w.bar ≠ (s.focus r).r.barw.getLsbD w.bar.val) = go := by
    rw [h.focus_phase hr ht, hx]
  have hexp : late → (s.focus r).expired w = true := fun hl => by
    rw [State.expired_iff, State.focus_eq]
    exact hl
  refine ⟨waitConditionMet_ends h hr hst hw hk hf ht, waitConditionMet_goesOn h hr hst hw hk hf ht, fun hl hgo => ?_,
    fun hl hgo hwt => ?_, fun hl hgo hwt => waitDeadline_traps h hr hst hw hk hf hq ht hgo hl hwt⟩
  · exact waitDeadline_ends h hr hst hw hk hf hl (waitStep_of_phase (hphase ▸ hgo))
  · exact waitDeadline_ends h hr hst hw hk hf hl
      (waitStep_of_late (hphase ▸ hgo) (hexp hl) (by rw [hx, bitOf_eq_getLsbD, hwt]))

/-- Settles O53: each event is what it does at the one runner it is for, or, of a copy, element by element. -/
theorem waitEvents : Obligations.WaitEvents := by
  intro s r x h hr
  refine ⟨fun w tm hst hw hk hf hq ht => barrierWait_events h hr hst hw hk hf hq ht, ?_, ?_, ?_, ?_, ?_, ?_⟩
  · intro id n c hf hw hn hnl hp hwf ha hbare es hhist hsep hpair hk
    obtain rfl : c.id = id := by simpa using List.find?_some (p := fun c : CopyRec => c.id == id) hf
    exact copyChunkLanded_lands hf hw hn hnl ha
      ⟨hwf, hp, fun y hy => ⟨(hbare y hy).1, (hbare y hy).2, hhist y hy⟩⟩
      ⟨fun _ he => CopyRec.mem_of_mem_chunk he, CopyRec.esize_pos hn, fun e he i hi => (hsep e he i hi).1,
        fun e he i hi => (hsep e he i hi).2.1, fun e he i hi => (hsep e he i hi).2.2⟩ hpair hk
  · intro id group z o hz ho hlive hp hfence hpin due hdue hread
    exact streamGroupLanded_lands h hr hz ho hlive hp hfence hpin hdue hread
  · intro a as hst ha
    have hs := State.stalledOn_of_asks hr hst ha
    refine ⟨?_, ?_, ?_⟩
    · rintro va rfl
      exact ⟨faultServiceComplete_declined h hr hs, fun l hl hn hwf hm => faultServiceComplete_mapped h hr hs hl hn hwf hm⟩
    · rintro acc b rfl hb
      exact hostCompletion_goesOn h hr hs hb
    · rintro m acc b rfl
      exact fabricResponse_goesOn h hr hs
  · intro m bytes p c hst hp hc hsp hh hj hm
    exact fabricResponse_contributes hr hst hp hc hsp hh hj hm
  · intro c a l o z ha hops hl ho
    exact tileOperationComplete_finishes ha hops hl ho
  · exact exec_unassignedPattern

end Sys2Proof.Machine
end

section
/-! Scalar integers (O4–O6): what each IALU function leaves, as a number or bit by bit. -/

namespace Sys2Proof.Machine
variable {s : State}

/-- An instruction that writes one register and advances the PC gives that register its value. -/
theorem gives_of_setReg {i : Instr} {sd : SR} {x w : Word} (h : exec i s = .next (s.setReg sd x).advance) (hx : x = w) :
    Gives i s sd w := by
  subst hx
  refine ⟨_, h, fun n => by simp, by simp, fun _ => rfl, ?_⟩
  unfold State.setReg Scal.set
  split <;> rfl

/-! ### Words as numbers (R74) -/

theorem add_eq_ofInt (a y : Word) : a + y = BitVec.ofInt 64 (a.toInt + y.toInt) := by
  rw [BitVec.ofInt_add, BitVec.ofInt_toInt, BitVec.ofInt_toInt]

theorem sub_eq_ofInt (a y : Word) : a - y = BitVec.ofInt 64 (a.toInt - y.toInt) :=
  BitVec.eq_of_toInt_eq (by rw [BitVec.toInt_sub, BitVec.toInt_ofInt])

theorem mul_eq_ofInt (a y : Word) : a * y = BitVec.ofInt 64 (a.toInt * y.toInt) := by
  rw [BitVec.ofInt_mul, BitVec.ofInt_toInt, BitVec.ofInt_toInt]

theorem shiftLeft_eq_ofNat (a : Word) (n : Nat) : a <<< n = BitVec.ofNat 64 (a.toNat * 2 ^ n) := by
  apply BitVec.eq_of_toNat_eq
  rw [BitVec.toNat_shiftLeft, Nat.shiftLeft_eq, BitVec.toNat_ofNat]

theorem ushiftRight_eq_ofNat (a : Word) (n : Nat) : a >>> n = BitVec.ofNat 64 (a.toNat / 2 ^ n) := by
  rw [← Nat.shiftRight_eq_div_pow, ← BitVec.toNat_ushiftRight, BitVec.ofNat_toNat, BitVec.setWidth_eq]

theorem sshiftRight_eq_ofInt (a : Word) (n : Nat) : a.sshiftRight n = BitVec.ofInt 64 (a.toInt / 2 ^ n) :=
  congrArg (BitVec.ofInt 64) (by exact_mod_cast Int.shiftRight_eq_div_pow a.toInt n)

/-- A rotation is the sum of the two parts that it puts together. -/
theorem rotateLeft_eq_ofNat (a : Word) {n : Nat} (hn : n < 64) :
    a.rotateLeft n = BitVec.ofNat 64 (a.toNat * 2 ^ n + a.toNat / 2 ^ (64 - n)) := by
  have hpow : 2 ^ (64 - n) * 2 ^ n = 2 ^ 64 := by rw [← Nat.pow_add, Nat.sub_add_cancel hn.le]
  have hlow : a.toNat / 2 ^ (64 - n) < 2 ^ n := by
    rw [Nat.div_lt_iff_lt_mul (Nat.two_pow_pos _), Nat.mul_comm, hpow]
    exact a.isLt
  have hhigh : a.toNat * 2 ^ n % 2 ^ 64 = a.toNat % 2 ^ (64 - n) * 2 ^ n := by rw [← Nat.mul_mod_mul_right, hpow]
  have hlt : a.toNat % 2 ^ (64 - n) * 2 ^ n + a.toNat / 2 ^ (64 - n) < 2 ^ 64 :=
    calc _ < (a.toNat % 2 ^ (64 - n) + 1) * 2 ^ n := by rw [Nat.add_mul]; omega
      _ ≤ 2 ^ (64 - n) * 2 ^ n := Nat.mul_le_mul_right _ (Nat.mod_lt _ (Nat.two_pow_pos _))
      _ = 2 ^ 64 := hpow
  apply BitVec.eq_of_toNat_eq
  rw [BitVec.toNat_rotateLeft, Nat.mod_eq_of_lt hn, Nat.shiftLeft_eq, Nat.shiftRight_eq_div_pow, hhigh,
    ← Nat.shiftLeft_eq, ← Nat.shiftLeft_add_eq_or_of_lt hlow, Nat.shiftLeft_eq, BitVec.toNat_ofNat, ← Nat.mod_add_mod,
    hhigh, Nat.mod_eq_of_lt hlt]

theorem boolWord_eq_ite {b : Bool} {c : Prop} [Decidable c] (h : b = true ↔ c) : boolWord b = if c then 1 else 0 :=
  if_congr h rfl rfl

theorem smin_eq_ofInt (a y : Word) : (if a.slt y then a else y) = BitVec.ofInt 64 (min a.toInt y.toInt) := by
  rw [min_def_lt, apply_ite (BitVec.ofInt 64), BitVec.ofInt_toInt, BitVec.ofInt_toInt]
  exact if_congr BitVec.slt_iff_toInt_lt rfl rfl

theorem smax_eq_ofInt (a y : Word) : (if a.slt y then y else a) = BitVec.ofInt 64 (max a.toInt y.toInt) := by
  rw [max_def_lt, apply_ite (BitVec.ofInt 64), BitVec.ofInt_toInt, BitVec.ofInt_toInt]
  exact if_congr BitVec.slt_iff_toInt_lt rfl rfl

theorem umin_eq_ofNat (a y : Word) : (if a.ult y then a else y) = BitVec.ofNat 64 (min a.toNat y.toNat) := by
  rw [min_def_lt, apply_ite (BitVec.ofNat 64), BitVec.ofNat_toNat, BitVec.ofNat_toNat,
    BitVec.setWidth_eq, BitVec.setWidth_eq]
  exact if_congr BitVec.ult_iff_toNat_lt rfl rfl

theorem umax_eq_ofNat (a y : Word) : (if a.ult y then y else a) = BitVec.ofNat 64 (max a.toNat y.toNat) := by
  rw [max_def_lt, apply_ite (BitVec.ofNat 64), BitVec.ofNat_toNat, BitVec.ofNat_toNat,
    BitVec.setWidth_eq, BitVec.setWidth_eq]
  exact if_congr BitVec.ult_iff_toNat_lt rfl rfl

/-- Settles O4: each function's word as a number, and the register file's own rules. -/
theorem integerResults : Obligations.IntegerResults := by
  refine ⟨fun s sd sa b => ?_,
    fun s n w => ⟨rfl, by simp, fun hn => ?_, fun hn => by simp [hn], fun k hk => by simp [hk]⟩⟩
  · have hcnt : (s.opb b).toNat % 64 < 64 := Nat.mod_lt _ (by decide)
    exact ⟨gives_of_setReg rfl (add_eq_ofInt _ _), gives_of_setReg rfl (sub_eq_ofInt _ _), gives_of_setReg rfl rfl,
      gives_of_setReg rfl rfl, gives_of_setReg rfl rfl, gives_of_setReg rfl rfl,
      gives_of_setReg rfl (shiftLeft_eq_ofNat _ _), gives_of_setReg rfl (ushiftRight_eq_ofNat _ _),
      gives_of_setReg rfl (sshiftRight_eq_ofInt _ _), gives_of_setReg rfl (rotateLeft_eq_ofNat _ hcnt),
      gives_of_setReg rfl (boolWord_eq_ite BitVec.slt_iff_toInt_lt),
      gives_of_setReg rfl (boolWord_eq_ite BitVec.ult_iff_toNat_lt), gives_of_setReg rfl (boolWord_eq_ite beq_iff_eq),
      gives_of_setReg rfl (boolWord_eq_ite bne_iff_ne),
      gives_of_setReg rfl (smin_eq_ofInt _ _), gives_of_setReg rfl (smax_eq_ofInt _ _),
      gives_of_setReg rfl (umin_eq_ofNat _ _), gives_of_setReg rfl (umax_eq_ofNat _ _),
      gives_of_setReg rfl (mul_eq_ofInt _ _), gives_of_setReg rfl rfl, gives_of_setReg rfl rfl⟩
  · subst hn
    rfl

/-! ### Division (R75) -/

theorem sdiv_of_zero {a y : Word} (hy : y = 0) : sdiv a y = -1 := if_pos hy

theorem srem_of_zero {a y : Word} (hy : y = 0) : srem a y = a := if_pos hy

theorem udiv_of_zero {a y : Word} (hy : y = 0) : udiv a y = 0xFFFFFFFFFFFFFFFF := if_pos hy

theorem urem_of_zero {a y : Word} (hy : y = 0) : urem a y = a := if_pos hy

theorem sdiv_of_overflow {a y : Word} (h : a = 0x8000000000000000 ∧ y = -1) : sdiv a y = a := by
  obtain ⟨rfl, rfl⟩ := h
  rfl

theorem srem_of_overflow {a y : Word} (h : a = 0x8000000000000000 ∧ y = -1) : srem a y = 0 := by
  obtain ⟨rfl, rfl⟩ := h
  rfl

theorem toInt_sdiv_of_ne {a y : Word} (hy : y ≠ 0) (hw : ¬(a = 0x8000000000000000 ∧ y = -1)) :
    (sdiv a y).toInt = a.toInt.tdiv y.toInt := by
  have hne : a ≠ BitVec.intMin 64 ∨ y ≠ -1#64 := not_and_or.mp hw
  have hif : ¬((a = 0x8000000000000000 && y == BitVec.allOnes 64) = true) := by simpa using not_and.mp hw
  rw [sdiv, if_neg hy, if_neg hif, BitVec.toInt_ofInt, ← BitVec.toInt_sdiv, BitVec.toInt_sdiv_of_ne_or_ne _ _ hne]

theorem toInt_srem_of_ne {a y : Word} (hy : y ≠ 0) (hw : ¬(a = 0x8000000000000000 ∧ y = -1)) :
    (srem a y).toInt = a.toInt - a.toInt.tdiv y.toInt * y.toInt := by
  have hif : ¬((a = 0x8000000000000000 && y == BitVec.allOnes 64) = true) := by simpa using not_and.mp hw
  rw [srem, if_neg hy, if_neg hif, ← BitVec.toInt_srem, BitVec.ofInt_toInt, BitVec.toInt_srem, Int.tmod_def, Int.mul_comm]

theorem toNat_udiv_of_ne {a y : Word} (hy : y ≠ 0) : (udiv a y).toNat = a.toNat / y.toNat := by
  rw [udiv, if_neg hy, BitVec.toNat_ofNat, Nat.mod_eq_of_lt ((Nat.div_le_self _ _).trans_lt a.isLt)]

theorem toNat_urem_of_ne {a y : Word} (hy : y ≠ 0) : (urem a y).toNat = a.toNat - a.toNat / y.toNat * y.toNat := by
  rw [urem, if_neg hy, BitVec.toNat_ofNat, Nat.mod_eq_of_lt ((Nat.mod_le _ _).trans_lt a.isLt), Nat.mod_eq_sub_div_mul]

/-- Settles O5: the quotient and the remainder of each case are the model's own branches. -/
theorem division : Obligations.Division := fun _ _ _ _ =>
  ⟨⟨_, gives_of_setReg rfl rfl, sdiv_of_zero, sdiv_of_overflow, toInt_sdiv_of_ne⟩,
    ⟨_, gives_of_setReg rfl rfl, srem_of_zero, srem_of_overflow, toInt_srem_of_ne⟩,
    ⟨_, gives_of_setReg rfl rfl, udiv_of_zero, toNat_udiv_of_ne⟩,
    _, gives_of_setReg rfl rfl, urem_of_zero, toNat_urem_of_ne⟩

/-! ### Bit fields (R76) -/

/-- A number held in two's complement is the integer of a bit vector. -/
theorem intVal_true {w : Nat} (hw : 0 < w) (b : Nat) : intVal true w b = (BitVec.ofNat w b).toInt := by
  have hpow := Nat.two_pow_pred_add_two_pow_pred hw
  unfold intVal
  dsimp only
  rw [BitVec.toInt_eq_toNat_cond, BitVec.toNat_ofNat, Bool.true_and]
  have hiff : 2 * (b % 2 ^ w) < 2 ^ w ↔ ¬2 ^ (w - 1) ≤ b % 2 ^ w := by omega
  simp only [hiff, decide_eq_true_eq]
  exact (ite_not _ _ _).symm

theorem fieldOf_cut (c : Word) : 0 < (fieldOf c).2 ∧ (fieldOf c).1 + (fieldOf c).2 ≤ 64 := by
  simp only [fieldOf]
  omega

theorem getLsbD_bfxu (a c : Word) {i : Nat} (hi : i < 64) :
    (bfxu a c).getLsbD i = (decide (i < (fieldOf c).2) && a.getLsbD ((fieldOf c).1 + i)) := by
  change (BitVec.ofNat 64 (a.toNat >>> (fieldOf c).1 % 2 ^ (fieldOf c).2)).getLsbD i = _
  rw [BitVec.getLsbD_ofNat, Nat.testBit_mod_two_pow, Nat.testBit_shiftRight, decide_eq_true hi, Bool.true_and]
  rfl

theorem getLsbD_bfx (a c : Word) {i : Nat} (hi : i < 64) :
    (bfx a c).getLsbD i =
      if i < (fieldOf c).2 then a.getLsbD ((fieldOf c).1 + i) else a.getLsbD ((fieldOf c).1 + (fieldOf c).2 - 1) := by
  obtain ⟨hlen, -⟩ := fieldOf_cut c
  have hbit (j : Nat) (hj : j < (fieldOf c).2) :
      (BitVec.ofNat (fieldOf c).2 (a.toNat >>> (fieldOf c).1)).getLsbD j = a.getLsbD ((fieldOf c).1 + j) := by
    rw [BitVec.getLsbD_ofNat, Nat.testBit_shiftRight, decide_eq_true hj, Bool.true_and]
    rfl
  have hword : bfx a c = (BitVec.ofNat (fieldOf c).2 (a.toNat >>> (fieldOf c).1)).signExtend 64 :=
    congrArg (BitVec.ofInt 64) (intVal_true hlen _)
  rw [hword, BitVec.getLsbD_signExtend, decide_eq_true hi, Bool.true_and]
  split
  · next h => exact hbit i h
  · rw [BitVec.msb_eq_getLsbD_last, hbit _ (Nat.sub_one_lt hlen.ne'), Nat.add_sub_assoc hlen]

theorem getLsbD_bfi (d a c : Word) {i : Nat} (hi : i < 64) :
    (bfi d a c).getLsbD i =
      if (fieldOf c).1 ≤ i ∧ i < (fieldOf c).1 + (fieldOf c).2 then a.getLsbD (i - (fieldOf c).1) else d.getLsbD i := by
  have hmask : (BitVec.ofNat 64 ((2 ^ (fieldOf c).2 - 1) <<< (fieldOf c).1)).getLsbD i =
      decide ((fieldOf c).1 ≤ i ∧ i < (fieldOf c).1 + (fieldOf c).2) := by
    rw [BitVec.getLsbD_ofNat, decide_eq_true hi, Bool.true_and, Nat.testBit_shiftLeft, Nat.testBit_two_pow_sub_one,
      ← Bool.decide_and]
    exact decide_eq_decide.mpr (by omega)
  change (d &&& ~~~BitVec.ofNat 64 ((2 ^ (fieldOf c).2 - 1) <<< (fieldOf c).1) |||
    a <<< (fieldOf c).1 &&& BitVec.ofNat 64 ((2 ^ (fieldOf c).2 - 1) <<< (fieldOf c).1)).getLsbD i = _
  rw [BitVec.getLsbD_or, BitVec.getLsbD_and, BitVec.getLsbD_and, BitVec.getLsbD_not, hmask, BitVec.getLsbD_shiftLeft,
    decide_eq_true hi]
  by_cases h : (fieldOf c).1 ≤ i ∧ i < (fieldOf c).1 + (fieldOf c).2
  · simp [h]
  · simp [h]

/-! ### Constants and bit counts (R74) -/

theorem lih_word (imm : BitVec 32) (a : Word) :
    imm ++ a.extractLsb' 0 32 = imm.setWidth 64 <<< 32 ||| (a.setWidth 32).setWidth 64 := by
  refine BitVec.eq_of_getLsbD_eq fun i hi => ?_
  rw [BitVec.getLsbD_append, BitVec.getLsbD_or, BitVec.getLsbD_shiftLeft]
  by_cases h : i < 32
  · simp [h, hi]
  · simp [h, hi]
    exact fun _ => by omega

/-- The bits that leading-zero counting passes are 0, the one it stops at is 1. -/
theorem clzLoop_spec (n : Nat) (a : Word) :
    clzLoop n a ≤ n ∧ (clzLoop n a < n → a.getLsbD (n - 1 - clzLoop n a) = true) ∧
      ∀ i, n - clzLoop n a ≤ i → i < n → a.getLsbD i = false := by
  induction n with
  | zero => exact ⟨Nat.le_refl 0, fun h => absurd h (Nat.lt_irrefl 0), fun i _ hi => absurd hi (Nat.not_lt_zero i)⟩
  | succ n ih =>
    obtain ⟨hle, hstop, hpass⟩ := ih
    unfold clzLoop
    split
    · next hb => exact ⟨Nat.zero_le _, fun _ => hb, fun i h hi => absurd h (by omega)⟩
    · next hb =>
      refine ⟨by omega, fun h => ?_, fun i h hi => ?_⟩
      · rw [show n + 1 - 1 - (1 + clzLoop n a) = n - 1 - clzLoop n a by omega]
        exact hstop (by omega)
      · rcases Nat.lt_succ_iff_lt_or_eq.mp hi with hi | rfl
        · exact hpass i (by omega) hi
        · simpa using hb

/-- The bits that trailing-zero counting passes are 0, the one it stops at is 1. -/
theorem ctzLoop_spec {n : Nat} (hn : n ≤ 64) (a : Word) :
    ctzLoop n a ≤ n ∧ (ctzLoop n a < n → a.getLsbD (64 - n + ctzLoop n a) = true) ∧
      ∀ i, 64 - n ≤ i → i < 64 - n + ctzLoop n a → a.getLsbD i = false := by
  induction n with
  | zero => exact ⟨Nat.le_refl 0, fun h => absurd h (Nat.lt_irrefl 0), fun i h hi => absurd hi (Nat.not_lt.mpr h)⟩
  | succ n ih =>
    obtain ⟨hle, hstop, hpass⟩ := ih (by omega)
    have h63 : 64 - (n + 1) = 63 - n := by omega
    unfold ctzLoop
    rw [h63]
    split
    · next hb => exact ⟨Nat.zero_le _, fun _ => hb, fun i h hi => absurd h (by omega)⟩
    · next hb =>
      refine ⟨by omega, fun h => ?_, fun i h hi => ?_⟩
      · rw [show 63 - n + (1 + ctzLoop n a) = 64 - n + ctzLoop n a by omega]
        exact hstop (by omega)
      · rcases Nat.eq_or_lt_of_le h with rfl | h
        · simpa using hb
        · exact hpass i (by omega) (by omega)

theorem popLoop_eq_countP (n : Nat) (a : Word) : popLoop n a = (List.range n).countP fun i => a.getLsbD i := by
  induction n with
  | zero => rfl
  | succ n ih =>
    rw [popLoop, ih, List.range_succ, List.countP_append, List.countP_singleton, Nat.add_comm]
    cases a.getLsbD n <;> rfl

theorem getLsbD_reverse (a : Word) {i : Nat} (hi : i < 64) : a.reverse.getLsbD i = a.getLsbD (63 - i) := by
  rw [BitVec.getLsbD_reverse, BitVec.getMsbD, decide_eq_true hi, Bool.true_and]

/-- Settles O6: the bits of a field, and what each loop over the bits counts. -/
theorem fieldsAndConstants : Obligations.FieldsAndConstants := by
  refine ⟨fun s sd sa b imm => ⟨⟨_, gives_of_setReg rfl rfl, fun i => getLsbD_bfxu _ _⟩,
    ⟨_, gives_of_setReg rfl rfl, fun i => getLsbD_bfx _ _⟩, ⟨_, gives_of_setReg rfl rfl, fun i => getLsbD_bfi _ _ _⟩,
    gives_of_setReg rfl (if_congr bne_iff_ne rfl rfl), gives_of_setReg rfl (lih_word _ _), gives_of_setReg rfl rfl⟩,
    fun s sd sa => ⟨⟨_, gives_of_setReg rfl rfl, clzLoop_spec 64 _⟩, ⟨_, gives_of_setReg rfl rfl, ?_⟩,
      gives_of_setReg rfl (congrArg _ (popLoop_eq_countP 64 _)), _, gives_of_setReg rfl rfl, fun i => getLsbD_reverse _⟩⟩
  obtain ⟨hle, hstop, hpass⟩ := ctzLoop_spec (Nat.le_refl 64) (s.reg sa)
  refine ⟨hle, fun h => ?_, fun i hi => hpass i (Nat.zero_le i) (by omega)⟩
  simpa using hstop h

end Sys2Proof.Machine
end

section
/-! Scalar floating point (O9–O11): what an FALU instruction completes or traps with, values rounded to their own format,
classes. -/

namespace Sys2Proof.Machine
variable {s : State}

/-! ### FALU instructions (R78, R81) -/

/-- An FALU instruction is `falu` of the function that gives its result. -/
theorem exec_of_floatOp {i : Instr} {sd : SR} {r : Flagged Nat} (h : s.floatOp i = some (sd, r)) :
    ∃ f, exec i s = outcome (falu s sd f) ∧ f (modesOf s.vtype) = r := by
  unfold State.floatOp at h
  split at h
  all_goals cases h
  all_goals exact ⟨_, rfl, rfl⟩

/-- Flags of a scalar instruction with the vector side idle. -/
theorem State.raiseInOrder_idle (hq : s.r.vq = []) (f : Flags) : s.raiseInOrder f = s.raise f := by
  simp [State.raiseInOrder, hq]

theorem falu_of_not_trapEnabled {sd : SR} {f : Modes → Flagged Nat} (hq : s.r.vq = [])
    (ht : trapEnabled s.vtype (f (modesOf s.vtype)).flags = false) :
    falu s sd f = .ok ((), ((s.setReg sd (BitVec.ofNat 64 (f (modesOf s.vtype)).val)).raise (f (modesOf s.vtype)).flags).advance) := by
  unfold falu
  rw [hq, List.any_nil, if_neg Bool.false_ne_true]
  dsimp only
  rw [ht, if_neg Bool.false_ne_true, State.raiseInOrder_idle (by exact hq)]

theorem falu_of_trapEnabled {sd : SR} {f : Modes → Flagged Nat} (hq : s.r.vq = [])
    (ht : trapEnabled s.vtype (f (modesOf s.vtype)).flags = true) :
    falu s sd f = stopTrap .fpe ((f (modesOf s.vtype)).flags.bits.setWidth 64) s := by
  unfold falu
  rw [hq, List.any_nil, if_neg Bool.false_ne_true]
  dsimp only
  rw [ht, if_pos rfl]

/-- An FALU instruction that no flag stops: its result, its flags, the PC. -/
theorem exec_floatOp {i : Instr} {sd : SR} {r : Flagged Nat} (h : s.floatOp i = some (sd, r)) (hq : s.r.vq = [])
    (ht : trapEnabled s.vtype r.flags = false) :
    exec i s = .next (((s.setReg sd (BitVec.ofNat 64 r.val)).raise r.flags).advance.completed) := by
  obtain ⟨f, he, rfl⟩ := exec_of_floatOp h
  rw [he, falu_of_not_trapEnabled hq ht]
  rfl

/-- An FALU instruction that an enabled flag stops traps FPE. -/
theorem exec_floatOp_trap {i : Instr} {sd : SR} {r : Flagged Nat} (h : s.floatOp i = some (sd, r)) (hq : s.r.vq = [])
    (ht : trapEnabled s.vtype r.flags = true) : exec i s = .next (s.enterTrap .fpe (r.flags.bits.setWidth 64) false) := by
  obtain ⟨f, he, rfl⟩ := exec_of_floatOp h
  rw [he, falu_of_trapEnabled hq ht]
  exact outcome_stopTrap hq

/-- Settles O10: the trap is taken before the result or a flag is written. -/
theorem floatTraps : Obligations.FloatTraps := by
  intro s i sd r h hq ht
  have hs := s.enterTrap_scal .fpe (r.flags.bits.setWidth 64) false
  refine ⟨_, exec_floatOp_trap h hq ht, congrArg (·.sysr.tcause) hs, congrArg (·.sysr.tepc) hs, congrArg (·.sysr.tval) hs,
    fun n => s.enterTrap_reg _ _ _ n, ?_⟩
  rw [State.enterTrap_r]
  exact congrArg Vect.vflags s.endProt_frame.vect

/-! ### Encodings taken apart (R30, R31) -/

/-- A floating format with an exponent field for infinities and NaNs of its own: all but E4M3. -/
theorem ff_ne_e4m3 (f : FFmt) : f.ff ≠ .e4m3 := by cases f <;> decide

section
variable {f : FF} {b : Nat}

theorem FF.width_sub_one (f : FF) : f.width - 1 = f.fracBits + f.expBits := by
  rw [FF.width, Nat.add_assoc, Nat.add_sub_cancel_left, Nat.add_comm]

/-- An encoding is its sign, its exponent field and its fraction. -/
theorem FF.pack_fields (hb : b < 2 ^ f.width) :
    f.pack (f.sign b) (b / 2 ^ f.fracBits % 2 ^ f.expBits) (b % 2 ^ f.fracBits) = b := by
  have hw : f.width = f.fracBits + f.expBits + 1 := by rw [FF.width]; omega
  have hs : (f.sign b).toNat = b / 2 ^ (f.fracBits + f.expBits) := by
    have hlt : b / 2 ^ (f.fracBits + f.expBits) < 2 := by
      rw [Nat.div_lt_iff_lt_mul (Nat.two_pow_pos _), ← Nat.pow_succ', Nat.succ_eq_add_one, ← hw]
      exact hb
    unfold FF.sign
    rw [FF.width_sub_one]
    interval_cases b / 2 ^ (f.fracBits + f.expBits) <;> rfl
  unfold FF.pack
  rw [hs, FF.width_sub_one, Nat.pow_add, ← Nat.div_div_eq_div_mul]
  calc _ = 2 ^ f.fracBits * (2 ^ f.expBits * (b / 2 ^ f.fracBits / 2 ^ f.expBits) + b / 2 ^ f.fracBits % 2 ^ f.expBits) +
        b % 2 ^ f.fracBits := by ring
    _ = b := by rw [Nat.div_add_mod, Nat.div_add_mod]

theorem FF.val_inf (hf : f ≠ .e4m3) (he : b / 2 ^ f.fracBits % 2 ^ f.expBits = f.expMax) (hm : b % 2 ^ f.fracBits = 0) :
    f.val b = .inf (f.sign b) := by
  simp [FF.val, hf, he, hm]

theorem FF.val_nan (hf : f ≠ .e4m3) (he : b / 2 ^ f.fracBits % 2 ^ f.expBits = f.expMax) (hm : b % 2 ^ f.fracBits ≠ 0) :
    f.val b = .nan (b % 2 ^ f.fracBits < 2 ^ (f.fracBits - 1)) := by
  simp [FF.val, hf, he, hm]

theorem FF.expMax_ne_zero (f : FF) : f.expMax ≠ 0 := by cases f <;> decide

theorem FF.val_small (hf : f ≠ .e4m3) (he : b / 2 ^ f.fracBits % 2 ^ f.expBits = 0) :
    f.val b = .fin (f.sign b) (b % 2 ^ f.fracBits) (f.emin - f.fracBits) false := by
  simp [FF.val, hf, he, f.expMax_ne_zero.symm]

theorem FF.val_normal (hf : f ≠ .e4m3) (he : b / 2 ^ f.fracBits % 2 ^ f.expBits ≠ f.expMax)
    (h0 : b / 2 ^ f.fracBits % 2 ^ f.expBits ≠ 0) :
    f.val b = .fin (f.sign b) (2 ^ f.fracBits + b % 2 ^ f.fracBits)
      ((b / 2 ^ f.fracBits % 2 ^ f.expBits : Nat) - f.bias - f.fracBits) false := by
  unfold FF.val
  simp only [hf, he, h0, decide_false, Bool.false_and, Bool.false_eq_true, if_false, bne_iff_ne, ne_eq, not_false_eq_true,
    beq_iff_eq, Bool.and_eq_true, and_false]

/-! ### Rounding a number of the format (R38) -/

/-- A magnitude already in units is not rounded. -/
theorem roundUnits_self (how : How) (neg : Bool) (m : Nat) (q : Int) :
    roundUnits how neg m q q false = (m, false, false) := by
  simp [roundUnits]

theorem FF.tooBig_of_le {k : Nat} {q : Int} (hf : f ≠ .e4m3) (h : k.log2 + q ≤ f.emax) : f.tooBig k q = false := by
  simp [FF.tooBig, hf, h]

/-- A value whose lowest unit is the format's own at its exponent is encoded as it stands. -/
theorem FF.roundBy_exact {how : How} {sat neg : Bool} {m : Nat} {q : Int} (hf : f ≠ .e4m3) (hm : m ≠ 0)
    (hq : max (m.log2 + q) f.emin - f.fracBits = q) (hmax : m.log2 + q ≤ f.emax) :
    (f.roundBy how false sat (.fin neg m q false)).val = f.encodeUnits neg m q := by
  have hm' : (m == 0) = false := by simpa using hm
  simp only [FF.roundBy, hm', hq, roundUnits_self, Bool.false_and, Bool.toNat_false, Nat.add_zero, FF.tooBig_of_le hf hmax,
    Bool.false_eq_true, if_false]

theorem FF.bias_eq (f : FF) (hf : f ≠ .e4m3) : f.emax = f.bias ∧ 1 ≤ f.bias ∧ (f.expMax : Int) = 2 * f.bias + 1 := by
  cases f with
  | e4m3 => exact absurd rfl hf
  | _ => decide

/-- A number of the format is rounded to its own encoding. -/
theorem FF.roundBy_val {how : How} {sat : Bool} (hf : f ≠ .e4m3) (hb : b < 2 ^ f.width) (hn : (f.val b).isNan = false) :
    (f.roundBy how false sat (f.val b)).val = b := by
  have hpack := FF.pack_fields hb
  obtain ⟨hemax, hbias, hexp⟩ := f.bias_eq hf
  have hfrac : b % 2 ^ f.fracBits < 2 ^ f.fracBits := Nat.mod_lt _ (Nat.two_pow_pos _)
  have hemin : f.emin = 1 - f.bias := rfl
  by_cases he : b / 2 ^ f.fracBits % 2 ^ f.expBits = f.expMax
  · by_cases hm : b % 2 ^ f.fracBits = 0
    · rw [FF.val_inf hf he hm]
      simp only [FF.roundBy, FF.infinity, if_neg hf, FF.infBits]
      rw [← he, ← hm, hpack]
    · rw [FF.val_nan hf he hm] at hn
      cases hn
  · by_cases h0 : b / 2 ^ f.fracBits % 2 ^ f.expBits = 0
    · rw [FF.val_small hf h0]
      by_cases hm : b % 2 ^ f.fracBits = 0
      · simp only [FF.roundBy, hm, beq_self_eq_true, if_true]
        rwa [h0, hm] at hpack
      · have hlog : (b % 2 ^ f.fracBits).log2 < f.fracBits := (Nat.log2_lt hm).mpr hfrac
        rw [FF.roundBy_exact hf hm (by omega) (by omega)]
        unfold FF.encodeUnits
        rw [if_neg (by simpa using hm)]
        dsimp only
        rw [if_pos (by omega), sub_self]
        rwa [h0] at hpack
    · have hlog : (2 ^ f.fracBits + b % 2 ^ f.fracBits).log2 = f.fracBits :=
        (Nat.log2_eq_iff (by omega)).mpr ⟨Nat.le_add_right _ _, by rw [Nat.pow_succ]; omega⟩
      have hlt : b / 2 ^ f.fracBits % 2 ^ f.expBits < f.expMax := by
        have := Nat.mod_lt (b / 2 ^ f.fracBits) (Nat.two_pow_pos f.expBits)
        unfold FF.expMax at he ⊢
        omega
      rw [FF.val_normal hf he h0, FF.roundBy_exact hf (by omega) (by omega) (by omega)]
      unfold FF.encodeUnits
      rw [if_neg (by simp), hlog]
      dsimp only
      rw [if_neg (by omega), if_pos (Nat.le_refl _), Nat.sub_self, Nat.shiftLeft_zero, Nat.add_sub_cancel_left,
        show ((f.fracBits : Int) + (((b / 2 ^ f.fracBits % 2 ^ f.expBits : Nat) : Int) - f.bias - f.fracBits) + f.bias).toNat =
          b / 2 ^ f.fracBits % 2 ^ f.expBits by omega]
      exact hpack

/-- A value converted to its own format with FTZ clear (R79): itself, or the canonical NaN. -/
theorem FF.convert_val {md : Modes} (hf : f ≠ .e4m3) (hb : b < 2 ^ f.width) (hftz : md.ftz = false) :
    (f.convert md (f.val b)).val = if (f.val b).isNan then f.qnan else b := by
  change (f.roundBy (.mode md.rm) md.ftz md.sat (f.val b)).val = _
  rw [hftz]
  cases hn : (f.val b).isNan with
  | false => exact FF.roundBy_val hf hb hn
  | true =>
    cases hv : f.val b with
    | nan sig => rfl
    | inf _ => rw [hv] at hn; cases hn
    | fin _ _ _ _ => rw [hv] at hn; cases hn


end

/-! ### Results (R78, R79) -/

/-- No flag traps when no trap is enabled. -/
theorem trapEnabled_of_noFpTraps (h : NoFpTraps s) (fl : Flags) : trapEnabled s.vtype fl = false := by
  unfold NoFpTraps at h
  simp [trapEnabled, h]

/-- What an FALU instruction that completes leaves: its register, the PC and VFLAGS have changed. -/
theorem floatOp_completes {i : Instr} {sd : SR} {r : Flagged Nat} (h : s.floatOp i = some (sd, r)) (hq : s.r.vq = [])
    (ht : trapEnabled s.vtype r.flags = false) :
    ∃ t, exec i s = .next t ∧ Writes s t sd (BitVec.ofNat 64 r.val) ∧ t.pc = s.pc + 8 ∧
      t.r.vect = { s.r.vect with vflags := s.r.vect.vflags ||| r.flags.bits } ∧ SameMemory s t ∧
      t = { s with r := { s.r with scal := { s.r.scal with s := t.r.scal.s, pc := t.r.scal.pc, bad := t.r.scal.bad,
                                                           pend := t.r.scal.pend },
                                   vect := t.r.vect, asks := t.r.asks, replies := t.r.replies, pages := t.r.pages } } := by
  refine ⟨_, exec_floatOp h hq ht, fun n => by simp, by simp, rfl, fun _ => rfl, ?_⟩
  unfold State.setReg Scal.set
  split <;> rfl

/-- FCVT from a format to itself with DAZ and FTZ clear (R79). -/
theorem floatOp_fcvt_self {sd sa : SR} {f : FFmt} (hftz : bitOf s.vtype 3 = false) (hdaz : bitOf s.vtype 4 = false) :
    ∃ fl, s.floatOp (.fcvt sd sa (.fp f) (.fp f)) = some (sd,
      { val := if (f.ff.val ((s.reg sa).toNat % 2 ^ f.ff.width)).isNan then f.ff.qnan
          else (s.reg sa).toNat % 2 ^ f.ff.width, flags := fl }) := by
  have hsrc : s.fsrc f s.modes sa = f.ff.val ((s.reg sa).toNat % 2 ^ f.ff.width) := by
    simp [State.fsrc, FF.src, State.modes, modesOf, hdaz]
  have hval := FF.convert_val (md := s.modes) (ff_ne_e4m3 f) (Nat.mod_lt (s.reg sa).toNat (Nat.two_pow_pos f.ff.width)) hftz
  rw [← hsrc] at hval ⊢
  rw [← hval]
  exact ⟨_, rfl⟩

/-- Settles O9: every FALU instruction completes by one lemma; FCVT's result is its source. -/
theorem floatResults : Obligations.FloatResults := by
  refine ⟨fun s i sd r h hq ht => floatOp_completes h hq ht, fun s sd sa f hq ht hftz hdaz => ?_⟩
  obtain ⟨fl, h⟩ := floatOp_fcvt_self (sd := sd) (sa := sa) (f := f) hftz hdaz
  obtain ⟨t, he, hw, -⟩ := floatOp_completes h hq (trapEnabled_of_noFpTraps ht _)
  exact ⟨t, he, hw⟩

section
variable {f : FF} {b : Nat}

/-! ### Classes (R80) -/

theorem FF.frac_low (f : FF) (x : Nat) : x % 2 ^ f.width % 2 ^ f.fracBits = x % 2 ^ f.fracBits :=
  Nat.mod_mod_of_dvd x (Nat.pow_dvd_pow 2 (by rw [FF.width]; omega))

theorem FF.exp_low (f : FF) (x : Nat) :
    x % 2 ^ f.width / 2 ^ f.fracBits % 2 ^ f.expBits = x / 2 ^ f.fracBits % 2 ^ f.expBits := by
  have hw : f.width = f.fracBits + (f.expBits + 1) := by rw [FF.width]; omega
  rw [hw, Nat.pow_add, Nat.mod_mul_right_div_self, Nat.pow_succ]
  exact Nat.mod_mul_right_mod _ _ _

theorem FF.sign_low (f : FF) (x : Nat) : f.sign (x % 2 ^ f.width) = decide (x / 2 ^ (f.fracBits + f.expBits) % 2 = 1) := by
  have hw : f.width = f.fracBits + f.expBits + 1 := by rw [FF.width]; omega
  unfold FF.sign
  rw [FF.width_sub_one, hw, Nat.pow_succ, Nat.mod_mul_right_div_self, Nat.mod_mod]
  rfl

/-- The class of an encoding by its exponent field and its fraction. -/
theorem classOf_fields (hf : f ≠ .e4m3) :
    classOf f b =
      if b / 2 ^ f.fracBits % 2 ^ f.expBits = f.expMax then
        (if b % 2 ^ f.fracBits = 0 then (if f.sign b then 0 else 7)
          else if b % 2 ^ f.fracBits < 2 ^ (f.fracBits - 1) then 8 else 9)
      else if b / 2 ^ f.fracBits % 2 ^ f.expBits = 0 then
        (if b % 2 ^ f.fracBits = 0 then (if f.sign b then 3 else 4) else (if f.sign b then 2 else 5))
      else if f.sign b then 1 else 6 := by
  unfold classOf
  by_cases he : b / 2 ^ f.fracBits % 2 ^ f.expBits = f.expMax
  · rw [if_pos he]
    by_cases hm : b % 2 ^ f.fracBits = 0
    · rw [FF.val_inf hf he hm, if_pos hm]
    · simp [FF.val_nan hf he hm, hm]
  · rw [if_neg he]
    by_cases h0 : b / 2 ^ f.fracBits % 2 ^ f.expBits = 0
    · by_cases hm : b % 2 ^ f.fracBits = 0
      · simp [FF.val_small hf h0, XVal.isZero, h0, hm]
      · simp [FF.val_small hf h0, XVal.isZero, FF.isSubnormal, h0, hm]
    · simp [FF.val_normal hf he h0, XVal.isZero, FF.isSubnormal, h0]

end

theorem fclass_gives (s : State) (f : FFmt) (sd sa : SR) :
    Gives (.fclass f sd sa) s sd (BitVec.ofNat 64 (2 ^ classOf f.ff ((s.reg sa).toNat % 2 ^ f.ff.width))) :=
  gives_of_setReg rfl rfl

/-- Settles O11: the class by the fields of the register's low bits. -/
theorem floatClasses : Obligations.FloatClasses := by
  intro s sd sa f
  have h := fclass_gives s f sd sa
  rw [classOf_fields (ff_ne_e4m3 f), FF.frac_low, FF.exp_low, FF.sign_low] at h
  simp only [decide_eq_true_eq] at h
  cases f
  all_goals exact h
end Sys2Proof.Machine
end

section
/-! Addresses checked (O14): what ending a strip's protection leaves of the running runner, and the traps of R82's first
checks. -/

namespace Sys2Proof.Machine

section
variable {s t u : State}

/-! ### What performing stores leaves of the running runner -/

/-- Of the running runner only the history of its stores and its share have changed. -/
def Performed (s t : State) : Prop := ∃ h sh, t.r = { s.r with hist := h, share := sh }

theorem Performed.of_r (h : t.r = s.r) : Performed s t := ⟨_, _, h⟩

theorem Performed.trans (h : Performed s t) (k : Performed t u) : Performed s u := by
  obtain ⟨_, _, h⟩ := h
  obtain ⟨x, y, k⟩ := k
  exact ⟨x, y, by rw [k, h]⟩

/-- The same with the later part first, which fixes the state between. -/
theorem Performed.after (k : Performed t u) (h : Performed s t) : Performed s u := h.trans k

theorem Performed.ite {c : Prop} [Decidable c] {a b : State} (ha : Performed s a) (hb : Performed s b) :
    Performed s (if c then a else b) := by
  split
  · exact ha
  · exact hb

theorem Performed.foldl {β : Type} {f : State → β → State} (hf : ∀ t x, Performed t (f t x)) (l : List β) (s : State) :
    Performed s (l.foldl f s) := by
  induction l generalizing s with
  | nil => exact .of_r rfl
  | cons x l ih => exact (hf s x).trans (ih _)

theorem State.request_aside (part : Nat) (m : OutMsg) : Aside s (s.request part m) := by
  unfold State.request
  split
  · exact s.emit_aside m
  · dsimp only
    split
    · exact .after (State.emit_aside m) ⟨rfl, rfl, rfl⟩
    · exact ⟨rfl, rfl, rfl⟩

theorem State.send_aside (q : RunnerId) (a : Ask) : Aside s (s.send q a) := by
  have hfold (l : List (Nat × List OutAccess)) (t : State) (h : Aside s t) :
      Aside s (l.foldl (fun s x => s.emit (.ask q none (.lists [x]))) t) := by
    induction l generalizing t with
    | nil => exact h
    | cons x l ih => exact ih _ (h.trans (t.emit_aside _))
  unfold State.send
  split
  · exact hfold _ s .refl
  · split
    · exact s.request_aside _ _
    · exact s.emit_aside _
  · exact s.emit_aside _

theorem State.putCells_r (who : RunnerId) (slice : Nat → Option Nat) (a : StoreAct) : (s.putCells who slice a).r = s.r := by
  unfold State.putCells
  dsimp only
  split
  · exact (State.writeL2_beneath _ _ _ _).r
  · exact (State.send_aside _ _).r.trans (State.writeL2_beneath _ _ _ _).r

theorem State.writeOwn_r (a : StoreAct) (num : Nat) : (s.writeOwn a num).r = s.r :=
  (State.putCells_r _ _ _).trans (s.staleL1_beneath _ _).r

theorem State.performLate_performed (seen : Bool) (a : StoreAct) : Performed s (s.performLate seen a) :=
  ⟨_, _, (State.writeOwn_r _ _).trans (State.touchTiles_beneath _ _ _).r⟩

theorem State.drainShare_performed : Performed s s.drainShare :=
  .after (.foldl (fun t a => t.performLate_performed false a) _ _) ⟨s.r.hist, [], rfl⟩

theorem State.shareStore_performed (a : StoreAct) : Performed s (s.shareStore a) :=
  .after (t := if 16 < (actLines (s.r.share ++ [a])).length then s.drainShare else s) ⟨_, _, rfl⟩
    (.ite s.drainShare_performed (.of_r rfl))

theorem State.deliverSeen_performed (a : StoreAct) : Performed s (s.deliverSeen a) :=
  .ite (.ite (s.shareStore_performed a) (s.drainShare_performed.trans (State.performLate_performed true a)))
    (s.performLate_performed true a)

theorem State.lineAction_r (key mode : Nat) : (s.lineAction key mode).r = s.r := by
  unfold State.lineAction State.lineHere State.dropL1Line State.lineL2
  split
  · exact (s.send_aside _ _).r
  · split
    · rfl
    · repeat' split
      all_goals rfl

/-- The commit empties the strip store buffer; of the rest of the runner its history and its share change. -/
theorem State.commitStrip_r : ∃ h sh, s.commitStrip.r =
    { s.r with hist := h, share := sh, strip := { s.r.strip with buf := [], lines := [], count := 0 } } := by
  have hacts := Performed.foldl (fun t a => t.deliverSeen_performed a) s.r.strip.buf
    (s.mapR fun r => { r with strip := { r.strip with buf := [], lines := [], count := 0 } })
  have hlines (t : State) := Performed.foldl (fun t (l : Nat × Nat) => .of_r (t.lineAction_r l.1 l.2)) s.r.strip.lines t
  have hfree (t : State) : Performed t t.freeCopies.freeTileOps := .of_r t.freeCopies.freeTileOps_r
  exact (hacts.trans (hfree _)).trans (hlines _)

theorem State.endProt_vq : s.endProt.r.vq = s.r.vq := by
  unfold State.endProt
  split
  · obtain ⟨h, sh, hr⟩ := s.commitStrip_r
    exact (congrArg Runner.vq hr :)
  · rfl

/-- A trap taken when protection has ended is the trap taken before it. -/
theorem State.enterTrap_endProt (c : Cause) (v : Word) (imp : Bool) : s.endProt.enterTrap c v imp = s.enterTrap c v imp := by
  unfold State.enterTrap
  rw [State.endProt_of_not_prot s.endProt_frame.prot]

/-! ### The first checks of R82 -/

section
variable {va : Word} {n al : Nat} {k : AccKind} {c : Cause}

theorem State.check_trap (h : s.resolve va n al k = (.trap c, s)) : s.check va n al k = stopTrap c va s := by
  unfold State.check
  rw [h]

theorem State.load_trap {o : Obs} {v : Via} (h : s.resolve va n al .load = (.trap c, s)) :
    s.load o v va n al = stopTrap c va s := by
  unfold State.load
  rw [State.check_trap h]
  rfl

theorem State.checkStore_trap (h : s.resolve va n al .store = (.trap c, s)) : s.checkStore va n al = stopTrap c va s := by
  unfold State.checkStore
  rw [State.check_trap h]
  rfl

theorem State.atomic_trap {o : Obs} {op : AmoOp} {rel alloc : Bool} {b cmp : Nat}
    (h : s.resolve va n n .amo = (.trap c, s)) : s.atomic o op rel alloc va n b cmp = stopTrap c va s := by
  unfold State.atomic
  rw [State.check_trap h]
  rfl

end

/-- With nothing in the vector queue no AMO is held. -/
theorem State.behindAmo_idle (hq : s.r.vq = []) (va : Word) (n : Nat) : s.behindAmo va n = false := by
  rw [State.behindAmo, hq]
  rfl

/-- The traps that the checks of an address of an access make an instruction take. -/
def TrapsAsChecked (s : State) (i : Instr) (va : Word) (n : Nat) (k : AccKind) : Prop :=
  ∀ c, (c == .fabric) = false → (∀ t : State, t.resolve va n n k = (.trap c, t)) → exec i s = .next (s.enterTrap c va false)

/-- The two checks stand in their order (R82). -/
theorem TrapsAsChecked.both {i : Instr} {va : Word} {n : Nat} {k : AccKind} (h : TrapsAsChecked s i va n k) :
    (2 ^ 57 ≤ va.toNat → exec i s = .next (s.enterTrap .access va false)) ∧
      (va.toNat < 2 ^ 57 → va.toNat % n ≠ 0 → exec i s = .next (s.enterTrap .align va false)) :=
  ⟨fun hr => h .access rfl fun _ => State.resolve_range hr, fun hr ha => h .align rfl fun _ => State.resolve_align hr ha⟩

theorem ld_trapsAsChecked {sz : LSize} {acq : Bool} {scope : Scope} {sd sa : SR} {off : BitVec 32} (hq : s.r.vq = []) :
    TrapsAsChecked s (.ld sz acq scope sd sa off) (s.reg sa + off.signExtend 64) sz.bytes .load := by
  intro c hc h
  change outcome (doLoad sz acq scope sd sa off s) = _
  have hload : s.scalarLoad (s.effAddr sa off) sz.bytes scope = stopTrap c (s.reg sa + off.signExtend 64) s := by
    rw [State.scalarLoad, State.behindAmo_idle hq, if_neg Bool.false_ne_true]
    exact State.load_trap (h s)
  rw [doLoad, hload]
  exact (outcome_stopTrap hq).trans (by rw [hc])

theorem st_trapsAsChecked {sz : SSize} {rel : Bool} {scope : Scope} {sb sa : SR} {off : BitVec 32} (hq : s.r.vq = []) :
    TrapsAsChecked s (.st sz rel scope sb sa off) (s.reg sa + off.signExtend 64) sz.bytes .store := by
  intro c hc h
  change outcome (doStore sz rel sb sa off s) = _
  have hstore : s.checkStore (s.effAddr sa off) sz.bytes sz.bytes = stopTrap c (s.reg sa + off.signExtend 64) s :=
    State.checkStore_trap (h s)
  rw [doStore, State.scalarStore, hstore]
  exact (outcome_stopTrap hq).trans (by rw [hc])

/-- An AMO ends the strip's protection first; its trap would end it too. -/
theorem amo_trapsAsChecked {i : Instr} {op : AmoOp} {dbl : Bool} {ord : Order} {scope : Scope} {sd sb sa : SR}
    (hi : exec i s = outcome (doAmo i op dbl ord scope sd sb sa s)) (hq : s.r.vq = []) :
    TrapsAsChecked s i (s.reg sa) (if dbl then 8 else 4) .amo := by
  intro c hc h
  have hact : amoAct op dbl ord scope sd sb sa s = stopTrap c (s.reg sa) s.endProt := by
    unfold amoAct
    dsimp only
    rw [State.atomic_trap (h s.endProt)]
    rfl
  rw [hi, doAmo]
  dsimp only
  rw [hq, List.isEmpty_nil, if_pos rfl, hact, ← State.enterTrap_endProt]
  exact (outcome_stopTrap (State.endProt_vq.trans hq)).trans (by rw [hc])

end

/-- Settles O14: each access traps as the checks of its address say. -/
theorem addressChecks : Obligations.AddressChecks := by
  intro s lz sz acq dbl ord scope sd sb sa off hq
  refine ⟨(ld_trapsAsChecked hq).both, (st_trapsAsChecked hq).both, ?_⟩
  exact ⟨(amo_trapsAsChecked rfl hq).both, (amo_trapsAsChecked rfl hq).both, (amo_trapsAsChecked rfl hq).both,
    (amo_trapsAsChecked rfl hq).both, (amo_trapsAsChecked rfl hq).both, (amo_trapsAsChecked rfl hq).both,
    (amo_trapsAsChecked rfl hq).both, (amo_trapsAsChecked rfl hq).both, (amo_trapsAsChecked rfl hq).both,
    (amo_trapsAsChecked rfl hq).both, (amo_trapsAsChecked (dbl := false) rfl hq).both⟩

end Sys2Proof.Machine
end

section
/-! Scalar loads (O12): what the checks of an address leave of the cores, and the bytes a side reads of memory that nothing
holds back. -/

namespace Sys2Proof.Machine

section
variable {s t u : State}

/-! ### What the checks of an address leave of the cores -/

/-- The cores hold the same bytes back from memory: the running runner's L1, and the tile stores outstanding. -/
structure SameHeldBack (s t : State) : Prop where
  l1 : t.myCore.l1 = s.myCore.l1
  pending : t.pending = s.pending

theorem SameHeldBack.refl : SameHeldBack s s := ⟨rfl, rfl⟩

theorem SameHeldBack.trans (h : SameHeldBack s t) (k : SameHeldBack t u) : SameHeldBack s u :=
  ⟨k.l1.trans h.l1, k.pending.trans h.pending⟩

theorem SameHeldBack.of_cores (hc : t.cores = s.cores) (hi : t.r.ident = s.r.ident) : SameHeldBack s t := by
  refine ⟨?_, by rw [State.pending, hc]; rfl⟩
  rw [State.myCore, State.core, hc, hi]
  rfl

theorem State.setCore_sameHeldBack {c : Core} (hid : c.id = s.r.ident.core) (hl : c.l1 = s.myCore.l1)
    (ha : c.att = s.myCore.att) : SameHeldBack s (s.setCore c) := by
  refine ⟨(congrArg Core.l1 (s.setCore_myCore c hid)).trans hl, ?_⟩
  have hkeys : c.pendingKeys = s.myCore.pendingKeys := by rw [Core.pendingKeys, ha]; rfl
  rw [State.pending_eq, State.pending_eq]
  refine flatMap_upsert (hkeys.trans ?_)
  rw [hid]
  exact s.core_pendingKeys s.r.ident.core

theorem State.holdTlb_sameHeldBack (e : TlbEntry) : SameHeldBack s (s.holdTlb e) :=
  (State.setCore_sameHeldBack (c := { s.myCore with tlb := tlbHold s.free s.myCore.tlb e }) s.myCore_id rfl rfl).trans
    (.of_cores rfl rfl)

theorem State.touchL2_sameHeldBack (key : Nat) (slice : Option Nat) (part : Nat) (write alloc : Bool) :
    SameHeldBack s (s.touchL2 key slice part write alloc) := by
  unfold State.touchL2
  split
  · exact .refl
  · exact .of_cores rfl rfl

theorem State.walkNow_sameHeldBack (va : Nat) : SameHeldBack s (s.walkNow va).2 := by
  have hfold (l : List Nat) (p : Nat) (t : State) :
      SameHeldBack t (l.foldl (fun s a => s.touchL2 a none p false true) t) := by
    induction l generalizing t with
    | nil => exact .refl
    | cons a l ih => exact (t.touchL2_sameHeldBack _ _ _ _ _).trans (ih _)
  have hcluster (t : State) (c : Cluster) : SameHeldBack t (t.setCluster c) := .of_cores rfl rfl
  unfold State.walkNow
  dsimp only
  generalize (if s.r.scal.sysr.ptbase.toNat < 2 ^ 41 then _ else _ : Walked) = w
  have hfree : SameHeldBack s { s with free := w.free } := .of_cores rfl rfl
  have h := fun c => (hfree.trans (hfold w.read s.rid.part _)).trans (hcluster _ c)
  split
  · exact (h _).trans (State.holdTlb_sameHeldBack _)
  · exact h _

theorem State.lookup_sameHeldBack (va : Nat) : SameHeldBack s (s.lookup va).2 := by
  unfold State.lookup
  split
  · exact s.walkNow_sameHeldBack va
  · split
    · exact .refl
    · dsimp only
      split
      · exact .of_cores rfl rfl
      · exact .trans (t := s.freeBool.2) (.of_cores rfl rfl) (State.walkNow_sameHeldBack va)

theorem State.translate_sameHeldBack (va : Nat) : SameHeldBack s (s.translate va).2 := by
  have h := s.lookup_sameHeldBack va
  unfold State.translate
  split
  · exact .refl
  · split
    · next e => rw [e] at h; exact h.trans (.of_cores rfl rfl)
    · exact h

theorem State.viaTable_sameHeldBack (va : Nat) (k : AccKind) : SameHeldBack s (s.viaTable va k).2 := by
  have h := s.translate_sameHeldBack va
  unfold State.viaTable
  split <;> rename_i e <;> rw [e] at h
  · exact h
  · exact h
  · repeat' split
    all_goals exact h

theorem State.ownerOf_sameHeldBack (g : Region) (va : Nat) : SameHeldBack s (s.ownerOf g va).2 := by
  have hfree : SameHeldBack s s.freeBool.2 := .of_cores rfl rfl
  have huse (t : State) (e : TlbEntry) : SameHeldBack t (t.mapR fun r => { r with pages := e :: r.pages }) := .of_cores rfl rfl
  unfold State.ownerOf
  dsimp only
  split
  · exact .refl
  · exact (s.holdTlb_sameHeldBack _).trans (huse _ _)
  · split
    · exact huse _ _
    · split
      · exact hfree.trans (huse _ _)
      · exact (hfree.trans (State.holdTlb_sameHeldBack _)).trans (huse _ _)

theorem State.locate_sameHeldBack (va : Word) (n : Nat) (k : AccKind) : SameHeldBack s (s.locate va n k).2 := by
  unfold State.locate
  dsimp only
  split
  · exact s.viaTable_sameHeldBack _ k
  · split
    · split
      · exact s.viaTable_sameHeldBack _ k
      · split <;> exact .refl
    · split
      · split
        · exact .refl
        · next g _ =>
          have hown := s.ownerOf_sameHeldBack g va.toNat
          split
          · exact .refl
          · split
            · exact hown
            · split
              · exact hown.trans (State.viaTable_sameHeldBack _ k)
              · split <;> exact hown
      · split
        · exact .refl
        · split
          · exact .refl
          · exact .refl
          · exact s.viaTable_sameHeldBack _ k
          · exact .refl
          · exact .refl

/-- The checks of R82 leave what the cores hold back from memory. -/
theorem State.resolve_sameHeldBack (va : Word) (n al : Nat) (k : AccKind) : SameHeldBack s (s.resolve va n al k).2 := by
  have h := s.locate_sameHeldBack va n k
  unfold State.resolve
  split
  · exact .refl
  · split
    · exact .refl
    · split
      · next e => rw [e] at h; split <;> exact h
      · exact h

/-! ### What an access leaves of the running runner -/

/-- An access has changed of the running runner only the translations in use and the history of its stores; time stands. -/
structure Accessed (s t : State) : Prop where
  r : ∃ p h, t.r = { s.r with pages := p, hist := h }
  time : t.time = s.time

theorem Accessed.trans (h : Accessed s t) (k : Accessed t u) : Accessed s u := by
  obtain ⟨_, _, hr⟩ := h.r
  obtain ⟨p, x, kr⟩ := k.r
  exact ⟨⟨p, x, by rw [kr, hr]⟩, k.time.trans h.time⟩

/-- An access that has not changed memory either. -/
structure Looked (s t : State) : Prop extends Accessed s t where
  mem : t.mem = s.mem

theorem Looked.trans (h : Looked s t) (k : Looked t u) : Looked s u :=
  ⟨h.toAccessed.trans k.toAccessed, k.mem.trans h.mem⟩

theorem Looked.of_tlbApart (h : TlbApart s t) : Looked s t := by
  obtain ⟨_, _, _, _, _, _, rfl⟩ := h
  exact ⟨⟨⟨_, _, rfl⟩, rfl⟩, rfl⟩

theorem Looked.of_beneath (h : Beneath s t) : Looked s t := by
  obtain ⟨⟨_, _, _, _, rfl⟩, -⟩ := h
  exact ⟨⟨⟨_, _, rfl⟩, rfl⟩, rfl⟩

theorem Looked.of_acquired (h : Acquired s t) : Looked s t := by
  obtain ⟨_, _, rfl⟩ := h
  exact ⟨⟨⟨_, _, rfl⟩, rfl⟩, rfl⟩

theorem State.exposeOthers_looked (p : Nat → Bool) : Looked s (s.exposeOthers p) := ⟨⟨⟨_, _, rfl⟩, rfl⟩, rfl⟩

theorem Accessed.reg (h : Accessed s t) (n : SR) : t.reg n = s.reg n := by
  obtain ⟨_, _, hr⟩ := h.r
  rw [State.reg, hr]
  rfl

theorem Accessed.pc (h : Accessed s t) : t.pc = s.pc := by
  obtain ⟨_, _, hr⟩ := h.r
  rw [State.pc, hr]
  rfl

theorem Accessed.strip (h : Accessed s t) : t.r.strip = s.r.strip := by
  obtain ⟨_, _, hr⟩ := h.r
  rw [hr]

/-- A register written when an access is done. -/
theorem Accessed.writes (h : Accessed s t) (sd : SR) (w : Word) : Writes s (t.setReg sd w).advance.completed sd w := fun n => by
  simp [h.reg]

theorem Accessed.registerFrame (h : Accessed s t) (sd : SR) (w : Word) :
    RegisterFrame s (t.setReg sd w).advance.completed := by
  obtain ⟨⟨_, _, hr⟩, ht⟩ := h
  unfold RegisterFrame State.completed State.advance State.setPc State.setReg State.mapR Scal.set
  rw [hr]
  dsimp only
  split <;> exact ⟨rfl, rfl, rfl, rfl, rfl, rfl, ht⟩

/-! ### Bytes of memory that nothing holds back -/

/-- Bytes that the running runner reads as memory has them. -/
structure OwnFresh (s : State) (k n : Nat) : Prop where
  pending : s.pending = []
  clean : poisonMeets s.poison k n = none
  hist : ∀ h ∈ s.r.hist, h.meets k n = false
  l1 : ∀ l ∈ s.myCore.l1, ∀ c ∈ l.old, ¬(k ≤ c.1 ∧ c.1 < k + n)

theorem OwnFresh.landing {k n : Nat} (h : OwnFresh s k n) (hl : Landing s t) : OwnFresh t k n := by
  obtain ⟨hb, hn⟩ := hl
  refine ⟨hb.2.trans h.pending, ?_, hb.r ▸ h.hist, fun l hl b hb => ?_⟩
  · obtain ⟨⟨_, _, _, _, rfl⟩, -⟩ := hb
    exact h.clean
  · obtain ⟨l', hl', hb'⟩ := hn l hl b hb
    exact h.l1 l' hl' b hb'

theorem pending_of_no_ops (h : ∀ c ∈ s.cores, ∀ a, c.att = some a → a.ops = []) : s.pending = [] := by
  refine List.flatMap_eq_nil_iff.mpr fun c hc => ?_
  split
  · rfl
  · next a ha => rw [h c hc a ha]; rfl

/-- What `Reaches` says of the state after the checks of the address. -/
theorem Reaches.fresh {va : Word} {n key : Nat} {k : AccKind} (h : Reaches s va n k key) :
    OwnFresh (s.resolve va n n k).2 key n := by
  obtain ⟨-, -, -, hclean, hops, hhist, hl1, -, -⟩ := h
  have hb := s.resolve_sameHeldBack va n n k
  have ha := s.resolve_apart va n n k
  refine ⟨hb.pending.trans (pending_of_no_ops hops), ?_, ?_, hb.l1 ▸ hl1⟩
  · obtain ⟨_, _, _, _, _, _, ha⟩ := ha
    rw [ha]
    exact hclean
  · obtain ⟨_, _, _, _, _, _, ha⟩ := ha
    rw [ha]
    exact hhist

theorem Reaches.check {va : Word} {n key : Nat} {k : AccKind} (h : Reaches s va n k key) :
    s.check va n n k = .ok (.found key, (s.resolve va n n k).2) := by
  have hk := h.1
  unfold State.check
  generalize s.resolve va n n k = x at hk
  obtain ⟨a, t⟩ := x
  cases hk
  rfl

theorem Reaches.inside {va : Word} {n key : Nat} {k : AccKind} (h : Reaches s va n k key) :
    ∀ x, key ≤ x → x < key + n → isOutKey x = false := by
  obtain ⟨-, -, hinside, -⟩ := h
  exact hinside

theorem Reaches.pinFaultBy {va : Word} {n key : Nat} {k : AccKind} (h : Reaches s va n k key) :
    s.pinFaultBy s.r.scal.pinslice va = false := by
  obtain ⟨-, -, -, -, -, -, -, hpin, -⟩ := h
  exact hpin

theorem Reaches.not_isHostKey {va : Word} {n key : Nat} {k : AccKind} (h : Reaches s va n k key) (hn : 0 < n) :
    isHostKey key = false := by
  have := h.inside key (Nat.le_refl key) (by omega)
  rw [isOutKey, Bool.or_eq_false_iff] at this
  exact this.2

theorem State.resolve_looked (va : Word) (n : Nat) (k : AccKind) : Looked s (s.resolve va n n k).2 :=
  .of_tlbApart (s.resolve_apart va n n k)

theorem hist_filter_meets {k n : Nat} (h : ∀ h ∈ s.r.hist, h.meets k n = false) :
    (s.r.hist.filter fun h => h.meets k n) = [] :=
  List.filter_eq_nil_iff.mpr fun g hg => by simp [h g hg]

theorem State.seenVia_own {k n : Nat} (h : OwnFresh s k n) (o : Obs) :
    s.seenVia o (s.l1Lines k) k n = ((bytesAt s.mem k n, bytesAt s.mem k n), s.exposeOthers (inKeys k n)) := by
  have hundo : undo ((s.l1Lines k).flatMap (·.old)) k (bytesAt s.mem k n) = bytesAt s.mem k n := by
    refine undo_of_apart fun c hc => ?_
    obtain ⟨l, hl, hcl⟩ := List.mem_flatMap.mp hc
    rw [bytesAt_length]
    exact h.l1 l (List.mem_filter.mp hl).1 c hcl
  unfold State.seenVia
  rw [State.look_of_pending h.pending]
  dsimp only
  rw [show (s.exposeOthers (inKeys k n)).r = s.r from rfl, hist_filter_meets h.hist, hundo]
  rfl

/-- Bytes that nothing holds back, read by a side: memory's, with the side's own stores laid over them. -/
theorem State.readBy_own {o : Obs} {v : Via} {pin va : Word} {k n : Nat} (h : OwnFresh s k n)
    (hpin : s.pinFaultBy pin va = false) :
    ∃ t, s.readBy o v pin va k n = .ok (s.r.lay o k (bytesAt s.mem k n), t) ∧ Looked s t := by
  have hw := s.servedBy_landing v k
  unfold State.readBy
  generalize s.servedBy v k = w at hw
  obtain ⟨w, u⟩ := w
  dsimp only at hw ⊢
  have hu := h.landing hw
  have hpin' : u.pinFaultBy pin va = false := by
    obtain ⟨⟨_, _, _, _, rfl⟩, -⟩ := hw.beneath
    exact hpin
  have hlines := (u.exposeOthers (inKeys k n)).loadLines_landing v w k (u.pinSliceBy pin va)
  rw [hpin', hu.clean]
  unfold State.readRaw State.readUnder
  rw [State.seenVia_own hu]
  refine ⟨_, ?_, ((Looked.of_beneath hw.beneath).trans (u.exposeOthers_looked _)).trans (.of_beneath hlines.beneath)⟩
  simp only [bne_self_eq_false, Bool.false_and, Bool.false_eq_true, if_false]
  rw [hlines.beneath.r, ← hw.beneath.mem, ← hw.beneath.r]
  rfl

/-- A load that reaches the module's own memory. -/
theorem State.load_own {o : Obs} {v : Via} {va : Word} {n key : Nat} (h : Reaches s va n .load key) (hn : 0 < n) :
    ∃ t, s.load o v va n n = .ok (s.r.lay o key (bytesAt s.mem key n), t) ∧ Looked s t := by
  have hl := s.resolve_looked va n .load
  have hpin : (s.resolve va n n .load).2.pinFaultBy (s.resolve va n n .load).2.r.scal.pinslice va = false := by
    obtain ⟨_, _, _, _, _, _, ha⟩ := s.resolve_apart va n n .load
    rw [ha]
    exact h.pinFaultBy
  obtain ⟨t, ht, hlt⟩ := State.readBy_own (o := o) (v := v) h.fresh hpin
  refine ⟨t, ?_, hl.trans hlt⟩
  obtain ⟨_, _, hr⟩ := hl.r
  unfold State.load
  rw [h.check]
  simp only [bind, Except.bind, h.not_isHostKey hn, Bool.false_eq_true, if_false]
  refine ht.trans ?_
  rw [hl.mem, hr]
  rfl

/-! ### LD (R83) -/

theorem LSize.bytes_pos (sz : LSize) : 0 < sz.bytes := by cases sz <;> decide

/-- Bytes in a register, extended as the size says. -/
theorem extendLoad_eq (sz : LSize) (bs : List Byte) : extendLoad sz bs =
    if sz.signed then (BitVec.ofNat (8 * sz.bytes) (leBytesToNat bs)).signExtend 64 else BitVec.ofNat 64 (leBytesToNat bs) := by
  have hpos := LSize.bytes_pos sz
  rw [extendLoad, intVal_true (by omega)]
  rfl

theorem State.lay_scal (hq : s.r.vq = []) (k n : Nat) : s.r.lay .scal k (bytesAt s.mem k n) = s.ownBytes k n := by
  rw [Runner.lay, hq]
  rfl

/-- An acquire or none leaves memory and the runner's registers. -/
theorem State.acquire_looked (acq : Bool) (o : Obs) (scope : Scope) : Looked s (if acq then s.acquire o scope else s) := by
  split
  · exact .of_acquired (s.acquire_acquired o scope)
  · exact ⟨⟨⟨_, _, rfl⟩, rfl⟩, rfl⟩

/-- A load completes: its register is written, nothing else of the registers or memory changes. -/
theorem exec_ld {sz : LSize} {acq : Bool} {scope : Scope} {sd sa : SR} {off : BitVec 32} {key : Nat}
    (h : Reaches s (s.reg sa + off.signExtend 64) sz.bytes .load key) (hq : s.r.vq = []) :
    ∃ u, exec (.ld sz acq scope sd sa off) s = .next (u.setReg sd (extendLoad sz (s.ownBytes key sz.bytes))).advance.completed ∧
      Looked s u := by
  obtain ⟨t, ht, hl⟩ := State.load_own (o := .scal) (v := { scope := scope }) h (LSize.bytes_pos sz)
  refine ⟨_, ?_, hl.trans (t.acquire_looked acq .scal scope)⟩
  change outcome (doLoad sz acq scope sd sa off s) = _
  have hload : s.scalarLoad (s.effAddr sa off) sz.bytes scope = .ok (s.ownBytes key sz.bytes, t) := by
    rw [State.scalarLoad, State.behindAmo_idle hq, if_neg Bool.false_ne_true, ← State.lay_scal hq]
    exact ht
  rw [doLoad, hload]
  rfl

end

/-- Settles O12: the bytes a side reads of memory that nothing holds back are memory's own under the runner's stores. -/
theorem loads : Obligations.Loads := by
  intro s sz acq scope sd sa off key va h hq v
  obtain ⟨u, he, hu⟩ := exec_ld (acq := acq) (scope := scope) (sd := sd) h hq
  rw [extendLoad_eq] at he
  exact ⟨_, he, hu.writes sd _, by simp [hu.pc], fun k => by rw [State.byteAt, State.byteAt, ← hu.mem]; rfl,
    hu.registerFrame sd _, hu.strip⟩

end Sys2Proof.Machine
end

section
/-! Scalar stores (O13): what a store that performs leaves of memory, at once, buffered or at the commit of its strip. -/

namespace Sys2Proof.Machine

section
variable {s t u : State} {a : StoreAct}

/-! ### The bytes of a store -/

theorem StoreAct.lay_of_no_masks (hm : a.masks = []) (k : Nat) (b : Byte) : a.lay k b = overlay a.cells k b := by
  rw [StoreAct.lay, hm]
  rfl

/-- A store leaves a byte it does not write, also where it would write a part of it. -/
theorem StoreAct.lay_of_absent {k : Nat} (h : ∀ c ∈ a.cells, c.1 ≠ k) (b : Byte) : a.lay k b = b := by
  have hmask (m : Byte) : b &&& m ||| b &&& ~~~m = b := by
    rw [← BitVec.and_or_distrib_left, BitVec.or_not_self, BitVec.and_allOnes]
  unfold StoreAct.lay
  rw [overlay_of_absent _ _ _ h]
  split
  · rfl
  · exact hmask _

/-- Cells whose bytes are a function of their keys. -/
theorem overlay_map_key {g : Nat → Byte} {l : List Host.Cell} {k : Nat} {b : Byte} (h : (∀ c ∈ l, c.1 ≠ k) → g k = b) :
    overlay (l.map fun c => (c.1, g c.1)) k b = g k := by
  induction l generalizing b with
  | nil => exact (h fun c hc => absurd hc List.not_mem_nil).symm
  | cons c l ih =>
    refine ih fun hl => ?_
    dsimp only
    split
    · next hk => rw [hk]
    · next hk => exact h (List.forall_mem_cons.mpr ⟨hk, hl⟩)

/-- What a store that performs leaves: its bytes laid over memory's; of the running runner the history. -/
structure Stored (a : StoreAct) (s t : State) : Prop extends Accessed s t where
  bytes : ∀ k, t.byteAt k = a.lay k (s.byteAt k)
  wf : Memory.wf t.mem

theorem Stored.of_looked (h : Looked s t) (k : Stored a t u) : Stored a s u :=
  ⟨h.toAccessed.trans k.toAccessed, fun x => by rw [k.bytes, State.byteAt, State.byteAt, h.mem], k.wf⟩

theorem State.putCells_stored {who : RunnerId} {slice : Nat → Option Nat} (hwf : Memory.wf s.mem)
    (hin : ∀ c ∈ a.cells, isOutKey c.1 = false) : Stored a s (s.putCells who slice a) := by
  have hmine : (a.cells.filter fun c => !isOutKey c.1) = a.cells :=
    List.filter_eq_self.mpr fun c hc => by simp [hin c hc]
  have hout : a.outWrite = none := by
    have hnil : (a.cells.filter fun c => isOutKey c.1) = [] :=
      List.filter_eq_nil_iff.mpr fun c hc => by simp [hin c hc]
    rw [StoreAct.outWrite, hnil]
  have hb := s.writeL2_beneath (a.cells.map (·.1)) slice who.part a.alloc
  unfold State.putCells
  dsimp only
  rw [hmine, hout]
  generalize s.writeL2 (a.cells.map (·.1)) slice who.part a.alloc = u at hb ⊢
  refine ⟨(Looked.of_beneath hb).toAccessed.trans ⟨⟨_, _, rfl⟩, rfl⟩, fun k => ?_, wf_cellsPut _ (hb.mem ▸ hwf)⟩
  rw [State.byteAt, State.byteAt, ← hb.mem, cellGet_cellsPut _ _ (hb.mem ▸ hwf)]
  exact overlay_map_key (g := fun k => a.lay k (cellGet u.mem k)) fun h => StoreAct.lay_of_absent h _

theorem State.writeOwn_stored {num : Nat} (hwf : Memory.wf s.mem) (hin : ∀ c ∈ a.cells, isOutKey c.1 = false) :
    Stored a s (s.writeOwn a num) := by
  have hl := (Looked.of_beneath (s.staleL1_beneath (some (s.r.ident.core, s.rid, num)) a.cells)).trans
    (State.exposeOthers_looked fun k => a.cells.any fun c => c.1 == k)
  exact .of_looked hl (State.putCells_stored (hl.mem ▸ hwf) hin)

/-- A store with its entry in the history, and what it does to outstanding tile work, written. -/
theorem State.writeOwn_stored_after {hs : List Hist} {who loads : RunnerId → Bool} {cells : List Host.Cell} {num : Nat}
    (hwf : Memory.wf s.mem) (hin : ∀ c ∈ a.cells, isOutKey c.1 = false) :
    Stored a s (((s.mapR fun r => { r with hist := hs }).touchTiles who loads cells).writeOwn a num) := by
  have hh : Looked s (s.mapR fun r => { r with hist := hs }) := ⟨⟨⟨_, _, rfl⟩, rfl⟩, rfl⟩
  have hl := hh.trans (.of_beneath (State.touchTiles_beneath who loads cells))
  exact .of_looked hl (State.writeOwn_stored (hl.mem ▸ hwf) hin)

theorem State.performLate_stored {seen : Bool} (hwf : Memory.wf s.mem) (hin : ∀ c ∈ a.cells, isOutKey c.1 = false) :
    Stored a s (s.performLate seen a) := State.writeOwn_stored_after hwf hin

/-- A store that no store of the other side comes after. -/
theorem State.performAt_stored (hwf : Memory.wf s.mem) (hin : ∀ c ∈ a.cells, isOutKey c.1 = false) :
    Stored a s (s.performAt [] a) := by
  have hnone : (s.r.hist.filter fun h => ([] : List Nat).contains h.num) = [] :=
    List.filter_eq_nil_iff.mpr fun _ _ => Bool.false_ne_true
  have htop : (a.cells.filter fun c => !([] : List Hist).any fun h => h.cells.any fun d => d.1 == c.1) = a.cells :=
    List.filter_eq_self.mpr fun _ _ => rfl
  unfold State.performAt
  dsimp only
  rw [hnone, htop]
  exact State.writeOwn_stored_after hwf hin

theorem State.lateFrom_of_apart {keys : List Nat} (h : ∀ g ∈ s.r.hist, ∀ c ∈ g.cells, c.1 ∉ keys) (o : Obs) :
    s.lateFrom o keys = ([], s) := by
  have hnil : (s.r.hist.filter fun h => h.cells.any fun c => keys.contains c.1) = [] :=
    List.filter_eq_nil_iff.mpr fun g hg => by simpa using h g hg
  unfold State.lateFrom
  rw [hnil]
  rfl

theorem OwnFresh.apart {k n : Nat} {keys : List Nat} (h : OwnFresh s k n) (hk : ∀ x ∈ keys, k ≤ x ∧ x < k + n) :
    ∀ g ∈ s.r.hist, ∀ c ∈ g.cells, c.1 ∉ keys :=
  fun g hg c hc hx => Hist.meets_false_iff.mp (h.hist g hg) c hc (hk _ hx)

/-! ### Numbers in memory -/

/-- A byte of a number that bytes hold. -/
theorem leBytesToNat_byte {bs : List Byte} {j : Nat} (hj : j < bs.length) :
    BitVec.ofNat 8 (leBytesToNat bs / 2 ^ (8 * j)) = bs[j] := by
  rw [Nat.pow_mul]
  induction bs generalizing j with
  | nil => exact absurd hj (Nat.not_lt_zero j)
  | cons b bs ih =>
    have hb := b.isLt
    rw [leBytesToNat]
    cases j with
    | zero => exact BitVec.eq_of_toNat_eq (by simpa using hb)
    | succ j =>
      rw [Nat.pow_succ', ← Nat.div_div_eq_div_mul, show (b.toNat + 256 * leBytesToNat bs) / 2 ^ 8 = leBytesToNat bs by omega]
      exact ih (Nat.lt_of_succ_lt_succ hj)

/-- The bytes of a word, counted from the lowest. -/
theorem byte_of_word (w : Word) (i : Nat) : BitVec.ofNat 8 (w.toNat / 2 ^ (8 * i)) = w.extractLsb' (8 * i) 8 := by
  apply BitVec.eq_of_toNat_eq
  rw [BitVec.toNat_ofNat, BitVec.extractLsb'_toNat, Nat.shiftRight_eq_div_pow]

/-- A store of a number of n bytes at a key. -/
structure StoresNumber (a : StoreAct) (key n x : Nat) : Prop where
  cells : a.cells = cellsFrom key (natToLeBytes n x)
  masks : a.masks = []

section
variable {key n x : Nat}

theorem StoresNumber.lay (h : StoresNumber a key n x) {i : Nat} (hi : i < n) (b : Byte) :
    a.lay (key + i) b = BitVec.ofNat 8 (x / 2 ^ (8 * i)) := by
  have hlen : i < (natToLeBytes n x).length := by rwa [natToLeBytes_length]
  rw [StoreAct.lay_of_no_masks h.masks, h.cells, overlay_cellsFrom _ _ _ _ hlen, natToLeBytes_getElem, Nat.pow_mul]

theorem StoresNumber.lay_apart (h : StoresNumber a key n x) {k : Nat} (hk : k < key ∨ key + n ≤ k) (b : Byte) :
    a.lay k b = b := by
  rw [StoreAct.lay_of_no_masks h.masks, h.cells, overlay_cellsFrom_apart]
  rwa [natToLeBytes_length]

theorem StoresNumber.mem (h : StoresNumber a key n x) {c : Host.Cell} (hc : c ∈ a.cells) : key ≤ c.1 ∧ c.1 < key + n := by
  rw [h.cells] at hc
  simpa [natToLeBytes_length] using mem_cellsFrom _ _ _ hc

theorem StoresNumber.inside (h : StoresNumber a key n x) (hin : ∀ k, key ≤ k → k < key + n → isOutKey k = false) :
    ∀ c ∈ a.cells, isOutKey c.1 = false :=
  fun c hc => hin c.1 (h.mem hc).1 (h.mem hc).2

/-- What an access that leaves a number in memory leaves. -/
structure Holds (key n x : Nat) (s t : State) : Prop extends Accessed s t where
  bytes : ∀ i, i < n → t.byteAt (key + i) = BitVec.ofNat 8 (x / 2 ^ (8 * i))
  apart : SameMemoryBut s t key n

theorem Stored.holds (h : Stored a s t) (hx : StoresNumber a key n x) : Holds key n x s t :=
  ⟨h.toAccessed, fun i hi => by rw [h.bytes, hx.lay hi], fun k hk => by rw [h.bytes, hx.lay_apart hk]⟩

theorem Holds.after_looked (h : Looked s t) (k : Holds key n x t u) : Holds key n x s u := by
  have hmem (k : Nat) : t.byteAt k = s.byteAt k := by rw [State.byteAt, State.byteAt, h.mem]
  exact ⟨h.toAccessed.trans k.toAccessed, k.bytes, fun a ha => (k.apart a ha).trans (hmem a)⟩

theorem Holds.then_looked (h : Holds key n x s t) (k : Looked t u) : Holds key n x s u := by
  have hmem (k' : Nat) : u.byteAt k' = t.byteAt k' := by rw [State.byteAt, State.byteAt, k.mem]
  exact ⟨h.toAccessed.trans k.toAccessed, fun i hi => (hmem _).trans (h.bytes i hi), fun a ha => (hmem a).trans (h.apart a ha)⟩

/-- The number that memory holds already. -/
theorem Looked.holds (h : Looked s t) : Holds key n (leBytesToNat (bytesAt s.mem key n)) s t := by
  have hmem (k : Nat) : t.byteAt k = s.byteAt k := by rw [State.byteAt, State.byteAt, h.mem]
  refine ⟨h.toAccessed, fun i hi => ?_, fun k _ => hmem k⟩
  have hlen : i < (bytesAt s.mem key n).length := by rwa [bytesAt_length]
  have hb := bytesAt_getElem? s.mem key hi
  rw [List.getElem?_eq_getElem hlen] at hb
  rw [leBytesToNat_byte hlen, hmem]
  exact (Option.some.inj hb).symm

end

/-! ### ST outside a strip (R84) -/

/-- The store of a scalar ST. -/
def State.scalarAct (s : State) (va : Word) (key n : Nat) (w : Word) (rel : Bool) : StoreAct :=
  { cells := cellsFrom key (natToLeBytes n w.toNat), count := 8 * n, slice := s.pinSlice va, rel := rel }

theorem State.scalarAct_number (va : Word) (key n : Nat) (w : Word) (rel : Bool) :
    StoresNumber (s.scalarAct va key n w rel) key n w.toNat := ⟨rfl, rfl⟩

section
variable {sz : SSize} {rel : Bool} {scope : Scope} {sb sa : SR} {off : BitVec 32} {key : Nat}

theorem Reaches.checkStore {va : Word} {n key : Nat} (h : Reaches s va n .store key) :
    s.checkStore va n n = .ok (key, (s.resolve va n n .store).2) := by
  rw [State.checkStore, h.check]
  rfl

/-- With the vector side idle the store its checks come to is made at once. -/
theorem State.scalarStore_own {va w : Word} {n : Nat} (h : Reaches s va n .store key) (hq : s.r.vq = []) :
    s.scalarStore va n w rel =
      .ok ((), (s.resolve va n n .store).2.storeNow ((s.resolve va n n .store).2.scalarAct va key n w rel)) := by
  have hstore (a : StoreAct) : (s.resolve va n n .store).2.store a = (s.resolve va n n .store).2.storeNow a := by
    rw [State.store, (s.resolve_apart va n n .store).vq, hq]
    exact if_pos (Bool.or_true _)
  change (s.checkStore va n n >>= _) = _
  rw [h.checkStore]
  exact congrArg (fun t => Except.ok ((), t)) (hstore _)

/-- ST of the module's own memory with the vector side idle: its checks, then the store. -/
theorem exec_st (h : Reaches s (s.reg sa + off.signExtend 64) sz.bytes .store key) (hq : s.r.vq = []) :
    ∃ u a, Looked s u ∧ OwnFresh u key sz.bytes ∧ StoresNumber a key sz.bytes (s.reg sb).toNat ∧ a.byVec = false ∧
      a.count = 8 * sz.bytes ∧ exec (.st sz rel scope sb sa off) s = .next (u.storeNow a).advance.completed := by
  have he : exec (.st sz rel scope sb sa off) s = outcome (doStore sz rel sb sa off s) := rfl
  rw [doStore, State.effAddr, State.scalarStore_own h hq] at he
  exact ⟨_, _, s.resolve_looked _ _ .store, h.fresh, State.scalarAct_number _ _ _ _ _, rfl, rfl, he⟩

theorem State.storeNow_holds {key n x : Nat} (h : OwnFresh s key n) (ha : StoresNumber a key n x) (hv : a.byVec = false)
    (hp : s.r.strip.prot = false) (hwf : Memory.wf s.mem) (hin : ∀ k, key ≤ k → k < key + n → isOutKey k = false) :
    Holds key n x s (s.storeNow a) := by
  have hkeys : ∀ y ∈ a.cells.map (·.1), key ≤ y ∧ y < key + n := fun y hy => by
    obtain ⟨c, hc, rfl⟩ := List.mem_map.mp hy
    exact ha.mem hc
  have he : s.storeNow a = s.performAt [] a := by
    rw [State.storeNow, hp, if_neg Bool.false_ne_true, State.deliver, hv, Bool.false_and, Bool.false_and,
      if_neg Bool.false_ne_true, State.perform, State.lateFrom_of_apart (h.apart hkeys)]
  rw [he]
  exact (State.performAt_stored hwf (ha.inside hin)).holds ha

/-- ST outside a protected strip. -/
theorem st_plain (h : Reaches s (s.reg sa + off.signExtend 64) sz.bytes .store key) (hq : s.r.vq = [])
    (hp : s.r.strip.prot = false) (hwf : Memory.wf s.mem) :
    ∃ t, exec (.st sz rel scope sb sa off) s = .next t.advance.completed ∧ Holds key sz.bytes (s.reg sb).toNat s t := by
  obtain ⟨u, a, hl, hu, ha, hv, -, he⟩ := exec_st (rel := rel) (scope := scope) (sb := sb) h hq
  exact ⟨_, he, .after_looked hl (State.storeNow_holds hu ha hv (hl.strip ▸ hp) (hl.mem ▸ hwf) h.inside)⟩

/-! ### ST inside a strip (R87) -/

theorem State.lateFrom_r (o : Obs) (keys : List Nat) : (s.lateFrom o keys).2.r = s.r := by
  unfold State.lateFrom State.lateFor
  dsimp only
  split <;> rfl

theorem State.performAt_performed (late : List Nat) (a : StoreAct) : Performed s (s.performAt late a) := by
  have hl1 : (if late.isEmpty then s else s.mapL1 (List.map fun l => l.beneath s.rid late a.cells)).r = s.r := by
    split <;> rfl
  have hmap (t : State) (f : Runner → List Hist) : Performed t (t.mapR fun r => { r with hist := f r }) := ⟨_, _, rfl⟩
  unfold State.performAt
  exact (((Performed.of_r hl1).trans (hmap _ _)).trans (.of_r (State.touchTiles_beneath _ _ _).r)).trans
    (.of_r (State.writeOwn_r _ _))

theorem State.deliver_performed (a : StoreAct) : Performed s (s.deliver a) :=
  .ite (.after (State.shareStore_performed a) (.of_r (s.touchTiles_beneath _ _ _).r))
    (.after (State.performAt_performed _ a) (.of_r (s.lateFrom_r _ _)))

/-- A store that enters the strip store buffer. -/
theorem State.storeNow_buffered (hp : s.r.strip.prot = true) (hfit : s.r.strip.count + a.count ≤ s.stripCap) :
    (s.storeNow a).mem = s.mem ∧ (s.storeNow a).r =
      { s.r with strip := { s.r.strip with buf := s.r.strip.buf ++ [a], count := s.r.strip.count + a.count } } := by
  have hb := s.touchTiles_beneath (fun r => r == s.rid) (fun r => r == s.rid) a.cells
  rw [State.storeNow, hp, if_pos rfl, if_neg (Nat.not_lt.mpr hfit)]
  exact ⟨hb.mem, by rw [← hb.r]; rfl⟩

/-- A store that would overflow the buffer ends protection. -/
theorem State.storeNow_overflow (hp : s.r.strip.prot = true) (hover : s.stripCap < s.r.strip.count + a.count) :
    (s.storeNow a).r.scal = s.r.scal ∧ (s.storeNow a).r.strip.prot = false ∧ (s.storeNow a).r.strip.buf = [] := by
  have he : s.storeNow a = s.endProt.deliver a := by rw [State.storeNow, hp, if_pos rfl, if_pos hover]
  obtain ⟨_, _, hr⟩ := s.endProt.deliver_performed a
  obtain ⟨_, _, hc⟩ := s.commitStrip_r
  have hend : s.endProt = s.commitStrip.mapR fun r => { r with strip := { r.strip with prot := false } } := by
    rw [State.endProt, hp, if_pos rfl]
  have hbuf : s.endProt.r.strip.buf = [] := by
    rw [hend]
    change s.commitStrip.r.strip.buf = []
    rw [hc]
  rw [he, hr]
  exact ⟨s.endProt_frame.scal, s.endProt_frame.prot, hbuf⟩

theorem overlayActs_append (l m : List StoreAct) (k : Nat) (bs : List Byte) :
    overlayActs (l ++ m) k bs = overlayActs m k (overlayActs l k bs) := List.foldl_append

theorem overlayActs_length (l : List StoreAct) (k : Nat) (bs : List Byte) : (overlayActs l k bs).length = bs.length := by
  induction l generalizing bs with
  | nil => rfl
  | cons a l ih => exact (ih _).trans (by simp [keysFrom_eq_map])

/-- The last store buffered is the one a byte of it shows. -/
theorem overlayActs_concat {key n x i : Nat} (l : List StoreAct) (ha : StoresNumber a key n x) {bs : List Byte}
    (hn : bs.length = n) (hi : i < n) :
    (overlayActs (l ++ [a]) key bs)[i]? = some (BitVec.ofNat 8 (x / 2 ^ (8 * i))) := by
  have hlen : i < (overlayActs l key bs).length := by rwa [overlayActs_length, hn]
  rw [overlayActs_append]
  simp only [overlayActs, List.foldl_cons, List.foldl_nil]
  rw [List.getElem?_eq_getElem (by simpa [keysFrom_eq_map, overlayActs] using hlen)]
  simp only [List.getElem_map, List.getElem_zip, keysFrom_eq_map, List.getElem_range]
  exact congrArg some (ha.lay hi _)

theorem Looked.stripCap (h : Looked s t) : t.stripCap = s.stripCap := by
  obtain ⟨_, _, hr⟩ := h.r
  rw [State.stripCap, hr]
  rfl

/-- ST inside a protected strip. -/
theorem st_strip (h : Reaches s (s.reg sa + off.signExtend 64) sz.bytes .store key) (hq : s.r.vq = [])
    (hp : s.r.strip.prot = true) :
    ∃ t, exec (.st sz rel scope sb sa off) s = .next t ∧ (∀ n, t.reg n = s.reg n) ∧ t.pc = s.pc + 8 ∧
      (s.r.strip.count + 8 * sz.bytes ≤ s.stripCap →
        SameMemory s t ∧ t.r.strip.prot = true ∧ t.r.strip.count = s.r.strip.count + 8 * sz.bytes ∧
        ∀ i, i < sz.bytes → (t.ownBytes key sz.bytes)[i]? = some ((s.reg sb).extractLsb' (8 * i) 8)) ∧
      (s.stripCap < s.r.strip.count + 8 * sz.bytes → t.r.strip.prot = false ∧ t.r.strip.buf = []) := by
  obtain ⟨u, a, hl, -, ha, -, hc, he⟩ := exec_st (rel := rel) (scope := scope) (sb := sb) h hq
  have hs := hl.strip
  refine ⟨_, he, ?_⟩
  rw [← hc, ← hl.stripCap, ← hs]
  rcases Nat.lt_or_ge u.stripCap (u.r.strip.count + a.count) with hover | hfit
  · obtain ⟨hscal, hprot, hbuf⟩ := State.storeNow_overflow (hs ▸ hp) hover
    refine ⟨fun n => ?_, ?_, fun hfit => absurd hover (Nat.not_lt.mpr hfit), fun _ => ⟨hprot, hbuf⟩⟩
    · rw [← hl.reg]
      exact (congrArg (Scal.get · n) hscal :)
    · rw [← hl.pc]
      exact (congrArg (Scal.pc · + 8) hscal :)
  · obtain ⟨hmem, hr⟩ := State.storeNow_buffered (hs ▸ hp) hfit
    refine ⟨fun n => ?_, ?_, fun _ => ⟨fun k => ?_, ?_, ?_, fun i hi => ?_⟩, fun hover => absurd hover (Nat.not_lt.mpr hfit)⟩
    · rw [← hl.reg]
      exact (congrArg (fun r : Runner => r.scal.get n) hr :)
    · rw [← hl.pc]
      exact (congrArg (fun r : Runner => r.scal.pc + 8) hr :)
    · exact (congrArg (cellGet · k) (hmem.trans hl.mem) :)
    · exact ((congrArg (fun r : Runner => r.strip.prot) hr).trans (hs ▸ hp) :)
    · exact (congrArg (fun r : Runner => r.strip.count) hr :)
    · rw [← byte_of_word, ← overlayActs_concat u.r.strip.buf ha (bytesAt_length u.mem key sz.bytes) hi]
      change (overlayActs (u.storeNow a).r.strip.buf key (bytesAt (u.storeNow a).mem key sz.bytes))[i]? = _
      rw [hr, hmem]

end

/-! ### The commit (R87) -/

theorem State.deliverSeen_of_not_det (h : detOf s.vtype = false) (a : StoreAct) : s.deliverSeen a = s.performLate true a := by
  rw [State.deliverSeen, h, Bool.and_false, Bool.false_and, if_neg Bool.false_ne_true]

/-- Buffered stores delivered one after the other, outside deterministic mode. -/
theorem byteAt_foldl_deliverSeen {l : List StoreAct} (hd : detOf s.vtype = false) (hwf : Memory.wf s.mem)
    (hin : ∀ x ∈ l, ∀ c ∈ x.cells, isOutKey c.1 = false) (k : Nat) :
    [(l.foldl State.deliverSeen s).byteAt k] = overlayActs l k [s.byteAt k] := by
  induction l generalizing s with
  | nil => rfl
  | cons x l ih =>
    obtain ⟨hx, hl⟩ := List.forall_mem_cons.mp hin
    have hs := State.performLate_stored (seen := true) hwf hx
    have hvt : (s.performLate true x).vtype = s.vtype := congrArg Vect.vtype (s.performLate_frame true x).vect
    rw [List.foldl_cons, State.deliverSeen_of_not_det hd, ih (by rw [hvt, hd]) hs.wf hl, hs.bytes]
    rfl

theorem State.commitStrip_byteAt (hd : detOf s.vtype = false) (hwf : Memory.wf s.mem) (hlines : s.r.strip.lines = [])
    (hin : ∀ x ∈ s.r.strip.buf, ∀ c ∈ x.cells, isOutKey c.1 = false) (k : Nat) :
    [s.commitStrip.byteAt k] = overlayActs s.r.strip.buf k [s.byteAt k] := by
  have hb := byteAt_foldl_deliverSeen
    (s := s.mapR fun r => { r with strip := { r.strip with buf := [], lines := [], count := 0 } }) hd hwf hin k
  unfold State.commitStrip
  rw [hlines, List.foldl_nil, State.byteAt, State.freeTileOps_nothingLands.mem]
  exact hb

/-- Settles O13: a store outside a strip, one inside it, and the commit. -/
theorem stores : Obligations.Stores := by
  refine ⟨fun s sz rel scope sb sa off key h hq hp hwf => ?_, fun s sz rel scope sb sa off key h hq hp =>
    st_strip h hq hp, fun s k hd hwf hlines hin => ⟨s.commitStrip_byteAt hd hwf hlines hin k, ?_⟩⟩
  · obtain ⟨t, he, ht⟩ := st_plain (rel := rel) (scope := scope) (sb := sb) h hq hp hwf
    exact ⟨_, he, fun i hi => (ht.bytes i hi).trans (byte_of_word _ i), ht.apart, ht.reg, congrArg (· + 8) ht.pc,
      ht.registerFrame 0 0, ht.strip⟩
  · obtain ⟨_, _, hr⟩ := s.commitStrip_r
    rw [hr]

end

end Sys2Proof.Machine
end

section
/-! Scalar atomics (O15): what the action of an atomic on the module's own memory gives and leaves. -/

namespace Sys2Proof.Machine

section
variable {s t u : State} {op : AmoOp} {rel alloc : Bool} {va : Word} {k w b cmp : Nat}

/-! ### The action -/

/-- The action on bytes that nothing holds back: the old value, and memory with the new one. -/
theorem State.amoAt_own (h : OwnFresh s k w) (hwf : Memory.wf s.mem)
    (hin : ∀ x, k ≤ x → x < k + w → isOutKey x = false) :
    ∃ t, s.amoAt .scal op rel alloc va k w b cmp = .ok (leBytesToNat (bytesAt s.mem k w), t) ∧
      Holds k w (amoNew op w (leBytesToNat (bytesAt s.mem k w)) b cmp) s t := by
  have hl := s.exposeOthers_looked (inKeys k w)
  have hkeys : ∀ x ∈ keysFrom k w, k ≤ x ∧ x < k + w := fun x hx => by
    rw [keysFrom_eq_map] at hx
    obtain ⟨i, hi, rfl⟩ := List.mem_map.mp hx
    exact ⟨Nat.le_add_right k i, Nat.add_lt_add_left (List.mem_range.mp hi) k⟩
  have hlate := State.lateFrom_of_apart (s := s.exposeOthers (inKeys k w)) (h.apart hkeys) .scal
  have hhist : ((s.exposeOthers (inKeys k w)).r.hist.filter fun g => g.meets k w) = [] := hist_filter_meets h.hist
  unfold State.amoAt
  rw [h.clean, State.look_of_pending h.pending]
  dsimp only
  rw [hlate]
  dsimp only
  rw [hhist]
  change ∃ t, (if op = .cas && amoNew op w (leBytesToNat (bytesAt s.mem k w)) b cmp = leBytesToNat (bytesAt s.mem k w)
    then _ else _) = _ ∧ _
  split
  · next hsame =>
    have hnew := of_decide_eq_true (Bool.and_eq_true_iff.mp hsame).2
    refine ⟨_, rfl, ?_⟩
    rw [hnew]
    exact (hl.trans (.of_beneath (State.touchL2_beneath _ _ _ _ _))).holds
  · refine ⟨_, rfl, .after_looked hl ((State.performAt_stored (hl.mem ▸ hwf) ?_).holds ⟨rfl, rfl⟩)⟩
    exact StoresNumber.inside ⟨rfl, rfl⟩ hin

/-- An atomic on the module's own memory, its checks made. -/
theorem State.atomic_own (h : Reaches s va w .amo k) (hw : 0 < w) (hwf : Memory.wf s.mem) :
    ∃ t, s.atomic .scal op rel alloc va w b cmp = .ok (leBytesToNat (bytesAt s.mem k w), t) ∧
      Holds k w (amoNew op w (leBytesToNat (bytesAt s.mem k w)) b cmp) s t := by
  have hl := s.resolve_looked va w .amo
  obtain ⟨t, he, ht⟩ := State.amoAt_own (op := op) (rel := rel) (alloc := alloc) (va := va) (b := b) (cmp := cmp)
    h.fresh (hl.mem ▸ hwf) h.inside
  rw [hl.mem] at he ht
  refine ⟨t, ?_, .after_looked hl ht⟩
  unfold State.atomic
  rw [h.check]
  simp only [bind, Except.bind, h.not_isHostKey hw, Bool.false_eq_true, if_false]
  exact he

/-! ### The instructions -/

/-- What an AMO that completes gives and leaves: its register, the number in memory. -/
def AmoDone (s : State) (i : Instr) (sd : SR) (k n new : Nat) (res : Word) : Prop :=
  ∃ t, exec i s = .next t ∧ Writes s t sd res ∧ t.pc = s.pc + 8 ∧
    (∀ j, j < n → t.byteAt (k + j) = BitVec.ofNat 8 (new / 2 ^ (8 * j))) ∧ SameMemoryBut s t k n ∧ RegisterFrame s t

/-- An AMO on the module's own memory with the vector side idle, outside a strip. -/
theorem exec_amo {i : Instr} {dbl : Bool} {ord : Order} {scope : Scope} {sd sb sa : SR}
    (hi : exec i s = outcome (doAmo i op dbl ord scope sd sb sa s)) (hw : w = if dbl then 8 else 4)
    (h : Reaches s (s.reg sa) w .amo k) (hq : s.r.vq = []) (hp : s.r.strip.prot = false) (hwf : Memory.wf s.mem) :
    AmoDone s i sd k w
      (amoNew op w (leBytesToNat (bytesAt s.mem k w)) ((s.reg sb).toNat % 2 ^ (8 * w)) ((s.reg sd).toNat % 2 ^ (8 * w)))
      (amoResult op w (leBytesToNat (bytesAt s.mem k w))) := by
  have hpos : 0 < w := by split at hw <;> omega
  obtain ⟨t, ht, hh⟩ := State.atomic_own (op := op) (rel := releases ord) (alloc := true) (b := (s.reg sb).toNat % 2 ^ (8 * w))
    (cmp := (s.reg sd).toNat % 2 ^ (8 * w)) h hpos hwf
  have hact : amoAct op dbl ord scope sd sb sa s =
      .ok (amoResult op w (leBytesToNat (bytesAt s.mem k w)), if acquires ord then t.acquire .scal scope else t) := by
    unfold amoAct
    rw [State.endProt_of_not_prot hp]
    dsimp only
    rw [← hw, ht]
    rfl
  have hu := hh.then_looked (t.acquire_looked (acquires ord) .scal scope)
  generalize (if acquires ord then t.acquire .scal scope else t) = u at hact hu
  refine ⟨(u.setReg sd _).advance.completed, ?_, hu.writes sd _, by simp [hu.pc], hu.bytes, hu.apart, hu.registerFrame sd _⟩
  rw [hi, doAmo]
  dsimp only
  rw [hq, List.isEmpty_nil, if_pos rfl, hact]
  rfl

theorem amoResult_of_ne_fadd (hop : op ≠ .fadd) (hw : 0 < w) (x : Nat) :
    amoResult op w x = (BitVec.ofNat (8 * w) x).signExtend 64 := by
  rw [amoResult, if_neg hop, intVal_true (Nat.mul_pos (by decide) hw)]
  rfl

/-! ### The new values of minima and maxima -/

theorem amoNew_min (hw : 0 < w) (x : Nat) : amoNew .min w x b cmp =
    if (BitVec.ofNat (8 * w) x).toInt < (BitVec.ofNat (8 * w) b).toInt then x else b := by
  have hpos : 0 < 8 * w := Nat.mul_pos (by decide) hw
  rw [← intVal_true hpos, ← intVal_true hpos]
  rfl

theorem amoNew_max (hw : 0 < w) (x : Nat) : amoNew .max w x b cmp =
    if (BitVec.ofNat (8 * w) x).toInt < (BitVec.ofNat (8 * w) b).toInt then b else x := by
  have hpos : 0 < 8 * w := Nat.mul_pos (by decide) hw
  rw [← intVal_true hpos, ← intVal_true hpos]
  rfl

/-- Unsigned numbers of the width compare as they are. -/
theorem intVal_false_lt_iff {n x y : Nat} (hx : x < 2 ^ n) (hy : y < 2 ^ n) : intVal false n x < intVal false n y ↔ x < y := by
  simp [intVal, Nat.mod_eq_of_lt hx, Nat.mod_eq_of_lt hy]

theorem amoNew_minu {x : Nat} (hx : x < 2 ^ (8 * w)) (hb : b < 2 ^ (8 * w)) : amoNew .minu w x b cmp = min x b := by
  simp only [amoNew, intVal_false_lt_iff hx hb, min_def_lt]

theorem amoNew_maxu {x : Nat} (hx : x < 2 ^ (8 * w)) (hb : b < 2 ^ (8 * w)) : amoNew .maxu w x b cmp = max x b := by
  simp only [amoNew, intVal_false_lt_iff hx hb, max_def_lt]

end

/-- Settles O15: each AMO is its action, whose old and new value are R88's and R89's. -/
theorem atomics : Obligations.Atomics := by
  intro s dbl ord scope sd sb sa key n hn h hq hp hwf
  have hpos : 0 < n := by split at hn <;> omega
  have hold : leBytesToNat (bytesAt s.mem key n) < 2 ^ (8 * n) := by
    simpa [bytesAt_length, Nat.pow_mul] using leBytesToNat_lt (bytesAt s.mem key n)
  have hb : (s.reg sb).toNat % 2 ^ (8 * n) < 2 ^ (8 * n) := Nat.mod_lt _ (Nat.two_pow_pos _)
  have amo {i : Instr} {op : AmoOp} {new : Nat} (hi : exec i s = outcome (doAmo i op dbl ord scope sd sb sa s))
      (hop : op ≠ .fadd) (hnew : amoNew op n (leBytesToNat (bytesAt s.mem key n)) ((s.reg sb).toNat % 2 ^ (8 * n))
        ((s.reg sd).toNat % 2 ^ (8 * n)) = new) :
      AmoDone s i sd key n new ((BitVec.ofNat (8 * n) (leBytesToNat (bytesAt s.mem key n))).signExtend 64) := by
    rw [← hnew, ← amoResult_of_ne_fadd hop hpos]
    exact exec_amo hi hn h hq hp hwf
  exact ⟨amo rfl nofun rfl, amo rfl nofun rfl, amo rfl nofun rfl, amo rfl nofun rfl, amo rfl nofun (amoNew_min hpos _),
    amo rfl nofun (amoNew_max hpos _), amo rfl nofun (amoNew_minu hold hb), amo rfl nofun (amoNew_maxu hold hb),
    amo rfl nofun rfl, amo rfl nofun rfl, fun hdbl =>
      exec_amo (i := .amofadd ord scope sd sb sa) (op := .fadd) (dbl := false) rfl (hdbl ▸ hn) h hq hp hwf⟩

end Sys2Proof.Machine
end

section
/-! Branches and jumps (O7, O8), the return from a trap (O20) and the scalar ends of the hand-off queues (O23). -/

namespace Sys2Proof.Machine

section
variable {s t : State}

/-! ### Branches (R94) -/

theorem goesTo_of_setPc {i : Instr} {a : Word} (h : exec i s = .next (s.setPc a)) : GoesTo i s a :=
  ⟨s.setPc a, h, rfl, fun _ => rfl, fun _ => rfl, rfl⟩

/-- A branch goes to its target when the registers meet its condition, else to the next instruction. -/
theorem branch_goesTo {i : Instr} {taken : Word → Word → Bool} {sa sb : SR} {off : BitVec 32} {c : Prop} [Decidable c]
    (h : exec i s = branch taken sa sb off s) (hc : taken (s.reg sa) (s.reg sb) = true ↔ c) :
    GoesTo i s (if c then s.pc + off.signExtend 64 * 8 else s.pc + 8) := by
  refine goesTo_of_setPc (h.trans ?_)
  by_cases hk : c
  · rw [if_pos hk, branch, if_pos (hc.mpr hk)]
    rfl
  · rw [if_neg hk, branch, if_neg (mt hc.mp hk)]
    rfl

/-! ### Jumps (R95) -/

theorem setReg_setPc_writes (sd : SR) (w a : Word) : Writes s ((s.setReg sd w).setPc a) sd w := fun n => by simp

theorem setReg_setPc_frame (sd : SR) (w a : Word) : ScalarFrame s ((s.setReg sd w).setPc a) := by
  refine ⟨fun _ => rfl, ?_⟩
  unfold State.setReg Scal.set
  split <;> rfl

theorem setReg_setPc_completed_frame (sd : SR) (w a : Word) : ScalarFrame s ((s.setReg sd w).setPc a).completed := by
  refine ⟨fun _ => rfl, ?_⟩
  unfold State.setReg Scal.set
  split <;> rfl

/-! ### ERET (R100) -/

/-- At system level with the vector side idle ERET only looks at TEPC. -/
theorem exec_eret (hq : s.r.vq = []) (hs : s.r.scal.sysr.sys = true) :
    exec .eret s = outcome (if s.r.scal.sysr.tepc.toNat % 8 != 0 then stopTrap .align s.r.scal.sysr.tepc s
      else .ok ((), s.returnTrap)) := by
  change outcome (s.privileged .eret _) = _
  rw [State.privileged, if_pos hs, afterVector_idle hq]

/-! ### The scalar ends of the queues (R112) -/

/-- With nothing in the vector queue a scalar instruction blocked on a hand-off queue is in deadlock (R113). -/
theorem outcome_blocked (hq : s.r.vq = []) (q : QR) :
    outcome (.error (.queue q, s)) = .next (s.enterTrap .illwait (BitVec.ofNat 64 q.val) false) := by
  simp [outcome, finish, State.handoffDeadlock, hq]

theorem State.noteItem_idle (hq : s.r.vq = []) (i : VItem) : s.noteItem i = s := by
  rw [State.noteItem, hq]
  rfl

theorem State.popScalar_nil {q : QR} (h : s.r.queues[q] = []) : s.popScalar q = .error (.queue q, s) := by
  unfold State.popScalar
  rw [h]

theorem State.popScalar_cons {q : QR} {w : Word} {l : List Word} (hq : s.r.vq = []) (h : s.r.queues[q] = w :: l) :
    s.popScalar q = .ok (w, s.setQueue q l) := by
  unfold State.popScalar
  rw [h]
  exact congrArg (fun t => Except.ok (w, t)) (State.noteItem_idle (s := s.setQueue q l) hq _)

/-- A hand-off queue after one was written. -/
theorem State.setQueue_queues (q p : QR) (l : List Word) :
    (s.setQueue q l).r.queues[p] = if p = q then l else s.r.queues[p] := by
  unfold State.setQueue State.mapR
  by_cases h : p = q
  · subst h
    simp
  · have hv : q.val ≠ p.val := fun e => h (Fin.ext e.symm)
    simp [h, Vector.getElem_set_ne _ _ hv]

/-- What an instruction leaves that has taken the head `w` of queue `q` to a register, `l` being the rest, and goes to an
address. -/
structure Popped (q : QR) (sd : SR) (w : Word) (l : List Word) (pc : Word) (s t : State) : Prop where
  writes : Writes s t sd w
  pc : t.pc = pc
  rest : t.r.queues[q] = l
  others : ∀ p : QR, p ≠ q → t.r.queues[p] = s.r.queues[p]
  memory : SameMemory s t
  vect : t.r.vect = s.r.vect
  strip : t.r.strip = s.r.strip

/-- The head taken, its register written and the PC set. -/
theorem popped_of_setPc (q : QR) (sd : SR) (w : Word) (l : List Word) (pc : Word) :
    Popped q sd w l pc s (((s.setQueue q l).setReg sd w).setPc pc).completed where
  writes := State.setReg_reg (s.setQueue q l) sd w
  pc := rfl
  rest := (State.setQueue_queues q q l).trans (if_pos rfl)
  others p hp := (State.setQueue_queues q p l).trans (if_neg hp)
  memory _ := rfl
  vect := rfl
  strip := rfl

theorem Popped.spec {i : Instr} {q : QR} {sd : SR} {w pc : Word} {l : List Word} (h : exec i s = .next t)
    (k : Popped q sd w l pc s t) : ∃ t, exec i s = .next t ∧ Writes s t sd w ∧ t.pc = pc ∧ t.r.queues[q] = l ∧
      (∀ p : QR, p ≠ q → t.r.queues[p] = s.r.queues[p]) ∧ SameMemory s t ∧ t.r.vect = s.r.vect ∧ t.r.strip = s.r.strip :=
  ⟨t, h, k.writes, k.pc, k.rest, k.others, k.memory, k.vect, k.strip⟩

theorem exec_qpop {q : QR} {sd : SR} {w : Word} {l : List Word} (hq : s.r.vq = []) (h : s.r.queues[q] = w :: l) :
    exec (.qpop sd q) s = .next (((s.setQueue q l).setReg sd w).setPc (s.pc + 8)).completed := by
  change outcome (s.popScalar q >>= _) = _
  rw [State.popScalar_cons hq h]
  refine congrArg (fun a => Host.Outcome.next (((s.setQueue q l).setReg sd w).setPc (a + 8)).completed) ?_
  exact State.setReg_pc _ _ _

/-- BQ and BQZ test the value they have taken. -/
theorem outcome_doBq {q : QR} {sd : SR} {off : BitVec 32} {w : Word} {l : List Word} {taken : Word → Bool} {c : Prop}
    [Decidable c] (hq : s.r.vq = []) (h : s.r.queues[q] = w :: l) (hc : taken w = true ↔ c) :
    outcome (doBq taken sd q off s) = .next (((s.setQueue q l).setReg sd w).setPc
      (if c then s.pc + off.signExtend 64 * 8 else s.pc + 8)).completed := by
  have hpc : ((s.setQueue q l).setReg sd w).pc = s.pc := State.setReg_pc _ _ _
  unfold doBq
  rw [State.popScalar_cons hq h]
  refine congrArg (fun t => Host.Outcome.next (State.completed t)) ?_
  by_cases hk : c
  · simp only [if_pos (hc.mpr hk), if_pos hk, State.target, hpc]
  · simp only [if_neg (mt hc.mp hk), if_neg hk, State.advance, hpc]

theorem exec_qpush {q : QR} {sa : SR} (hq : s.r.vq = []) (h : s.r.queues[q].length < 16) :
    exec (.qpush q sa) s = .next (s.setQueue q (s.r.queues[q] ++ [s.reg sa])).advance.completed := by
  change outcome (ite _ _ _) = _
  rw [if_pos h, State.noteItem_idle (s := s.setQueue q (s.r.queues[q] ++ [s.reg sa])) hq]
  rfl

/-- QPEEK gives the head, or 0 of an empty queue, and notes in PEEK which of the two it was. -/
theorem exec_qpeek (q : QR) (sd : SR) : exec (.qpeek sd q) s =
    .next ((s.setReg sd (s.r.queues[q].headD 0)).setPeek !s.r.queues[q].isEmpty).advance := by
  change Host.Outcome.next _ = _
  cases h : s.r.queues[q] <;> rfl

end

/-- Settles O7: each branch is `branch` with its condition on the two registers. -/
theorem branches : Obligations.Branches := by
  intro s sa sb off
  refine ⟨branch_goesTo rfl beq_iff_eq, branch_goesTo rfl bne_iff_ne, branch_goesTo rfl BitVec.slt_iff_toInt_lt,
    branch_goesTo (taken := fun a b => !a.slt b) rfl ?_, branch_goesTo rfl BitVec.ult_iff_toNat_lt,
    branch_goesTo (taken := fun a b => !a.ult b) rfl ?_⟩
  · rw [Bool.not_eq_true', ← Bool.not_eq_true, BitVec.slt_iff_toInt_lt, not_lt]
  · rw [Bool.not_eq_true', ← Bool.not_eq_true, BitVec.ult_iff_toNat_lt, not_lt]

/-- Settles O8: JALR's target is formed of the registers before the link is written. -/
theorem jumps : Obligations.Jumps := by
  intro s sd sa off
  refine ⟨⟨_, rfl, setReg_setPc_writes _ _ _, rfl, setReg_setPc_frame _ _ _⟩, fun h => ?_, fun h hq => ?_⟩
  · refine ⟨((s.setReg sd (s.pc + 8)).setPc (s.reg sa + off.signExtend 64)).completed, ?_, setReg_setPc_writes _ _ _, rfl,
      setReg_setPc_completed_frame _ _ _⟩
    change outcome (ite _ _ _) = _
    rw [if_neg (by simpa using h)]
    rfl
  · change outcome (ite _ _ _) = _
    rw [if_pos (by simpa using h), outcome_stopTrap hq]
    rfl

/-- Settles O20: ERET is the return from the trap when TEPC is aligned, else the trap ALIGN. -/
theorem returnFromTrap : Obligations.ReturnFromTrap := by
  intro s hq hs
  refine ⟨fun h => ⟨s.returnTrap.completed, ?_, rfl, rfl, fun _ => rfl, rfl, rfl, rfl, rfl⟩, fun h => ?_⟩
  · rw [exec_eret hq hs, if_neg (by simpa using h)]
    rfl
  · rw [exec_eret hq hs, if_pos (by simpa using h), outcome_stopTrap hq]
    rfl

/-- Settles O23: a pop takes the head of a queue that has one, a push finds room or blocks, a peek only looks. -/
theorem queueInstructions : Obligations.QueueInstructions := by
  intro s sd sa q off hq
  refine ⟨fun h => ?_, fun h => ?_, fun w l h => ?_, fun h => ?_, ?_⟩
  · have hpop := State.popScalar_nil h
    refine ⟨?_, ?_, ?_⟩
    · change outcome (s.popScalar q >>= _) = _
      rw [hpop]
      exact outcome_blocked hq q
    · change outcome (s.popScalar q >>= _) = _
      rw [hpop]
      exact outcome_blocked hq q
    · change outcome (s.popScalar q >>= _) = _
      rw [hpop]
      exact outcome_blocked hq q
  · change outcome (ite _ _ _) = _
    rw [if_neg (Nat.not_lt.mpr h)]
    exact outcome_blocked hq q
  · exact ⟨(popped_of_setPc q sd w l _).spec (exec_qpop hq h),
      (popped_of_setPc q sd w l _).spec (outcome_doBq hq h bne_iff_ne),
      (popped_of_setPc q sd w l _).spec (outcome_doBq hq h beq_iff_eq)⟩
  · exact ⟨_, exec_qpush hq h, rfl, (State.setQueue_queues q q _).trans (if_pos rfl),
      fun p hp => (State.setQueue_queues q p _).trans (if_neg hp), fun _ => rfl, fun _ => rfl, rfl⟩
  · refine ⟨_, exec_qpeek q sd, ?_, rfl, rfl, fun n => ?_, fun _ => rfl⟩
    · exact congrArg (· + 8) (s.setReg_pc sd _)
    · exact s.setReg_reg sd _ n

end Sys2Proof.Machine
end

section
/-! Writing control registers (O17): which register a write reaches, and what no write of one touches. -/

namespace Sys2Proof.Machine

section
variable {s t u : State} {k cr : BitVec 12} {v : Word}

/-! ### The registers no program writes -/

/-- A partition but for its way masks. -/
def Part.unmasked (p : Part) : Part := { p with waymask := [] }

/-- What the control registers that no program writes are made of is the same: of the running runner and of the module, the
way masks of the partitions left out. -/
structure CrFrame (s t : State) : Prop where
  ident : t.r.ident = s.r.ident
  wait : t.r.wait = s.r.wait
  leases : t.r.leases = s.r.leases
  queues : t.r.queues = s.r.queues
  peek : t.r.scal.peek = s.r.scal.peek
  treq : t.r.treq = s.r.treq
  vlen : t.r.vect.vlen = s.r.vect.vlen
  active : t.r.strip.active = s.r.strip.active
  prot : t.r.strip.prot = s.r.strip.prot
  last : t.r.strip.last = s.r.strip.last
  rewinds : t.r.strip.rewinds = s.r.strip.rewinds
  rs : t.rs = s.rs
  teams : t.teams = s.teams
  heats : t.heats = s.heats
  cores : t.cores = s.cores
  engines : t.engines = s.engines
  time : t.time = s.time
  pacer : t.pacer = s.pacer
  parts : ∀ n, (t.part? n).map Part.unmasked = (s.part? n).map Part.unmasked

/-- What is read of a partition beside its way masks. -/
theorem CrFrame.part_map {α : Type} (h : CrFrame s t) (n : Nat) (f : Part → α) (hf : ∀ p, f p.unmasked = f p) :
    (t.part? n).map f = (s.part? n).map f := by
  have hp := congrArg (Option.map f) (h.parts n)
  simp only [Option.map_map, Function.comp_def, hf] at hp
  exact hp

theorem CrFrame.team? (h : CrFrame s t) (x : TeamId) : t.team? x = s.team? x := by
  rw [State.team?, h.teams]
  rfl

theorem CrFrame.heat? (h : CrFrame s t) (part n : Nat) : t.heat? part n = s.heat? part n := by
  rw [State.heat?, h.heats]
  rfl

theorem CrFrame.rid (h : CrFrame s t) : t.rid = s.rid := congrArg Ident.id h.ident

theorem CrFrame.myTeam? (h : CrFrame s t) : t.myTeam? = s.myTeam? := by
  rw [State.myTeam?, h.rid, h.team?]
  rfl

theorem CrFrame.myHeat? (h : CrFrame s t) : t.myHeat? = s.myHeat? := by
  rw [State.myHeat?, h.rid, h.heat?]
  rfl

theorem CrFrame.myCore (h : CrFrame s t) : t.myCore = s.myCore := by
  rw [State.myCore, State.core, h.cores, h.ident]
  rfl

/-! ### Effective priority and budget (R259, R311) -/

theorem CrFrame.basePrio (h : CrFrame s t) (x : TeamId) : t.basePrio x = s.basePrio x := by
  have hq := h.part_map x.part Part.queues fun _ => rfl
  unfold State.basePrio
  rw [h.heat?, h.team?]
  cases ht : t.part? x.part <;> cases hs : s.part? x.part <;> simp only [ht, hs, Option.map_some, Option.map_none] at hq
  · rfl
  · cases hq
  · cases hq
  · cases s.team? x with
    | none => rfl
    | some tm => simp only [Option.some.inj hq]

theorem CrFrame.teamJoined (h : CrFrame s t) {w z : Runner} (hi : z.ident = w.ident) (x : TeamId) :
    t.teamJoined z x = s.teamJoined w x := by
  have hc := congrArg (Option.bind · fun l : List Collective => l.find? fun c =>
    c.joined.any (fun j => j.runner == w.ident.id) && !c.taken.contains w.ident.id)
    (h.part_map x.part Part.colls fun _ => rfl)
  simp only [Option.bind_map, Function.comp_def] at hc
  unfold State.teamJoined
  rw [h.heat?, hi, hc]

theorem CrFrame.passes (h : CrFrame s t) {w z : Runner} (hi : z.ident = w.ident) (hw : z.wait = w.wait) (x : TeamId) :
    t.passes z x = s.passes w x := by
  unfold State.passes State.lowestTeam
  simp only [hw, hi, h.teams, h.teamJoined hi]

/-- Priority is inherited through the recorded waits of the same runners. -/
theorem CrFrame.epriLoop (h : CrFrame s t) (n : Nat) (x : TeamId) : t.epriLoop n x = s.epriLoop n x := by
  induction n generalizing x with
  | zero => exact h.basePrio x
  | succ n ih =>
    have hr := h.passes h.ident h.wait x
    unfold State.epriLoop State.allRunners
    simp only [List.foldl_cons, hr]
    simp only [h.ident, h.rs, h.basePrio, ih, h.passes rfl rfl]

theorem CrFrame.pclass (h : CrFrame s t) : t.pclass = s.pclass := by
  unfold State.pclass State.epri
  rw [h.ident, h.rid, h.teams, h.epriLoop]

theorem CrFrame.ebud (h : CrFrame s t) (part : Nat) : t.ebud part = s.ebud part := by
  have hshare := h.part_map part (fun p => p.record.share) fun _ => rfl
  unfold State.ebud State.budget State.limitRow State.reserved State.evicting State.allRunners Runner.reserves
  simp only [List.map_cons, hshare, h.ident, h.leases, h.rs, h.cores, h.engines, h.pacer]

theorem CrFrame.myPlace (h : CrFrame s t) : t.myPlace = s.myPlace := by
  rw [State.myPlace, h.myTeam?]
  rfl

theorem CrFrame.sizes (h : CrFrame s t) :
    t.scratchSize = s.scratchSize ∧ t.tcmSize = s.tcmSize ∧ t.dsmSize = s.dsmSize ∧ t.ecnt = s.ecnt := by
  unfold State.scratchSize State.tcmSize State.dsmSize State.ecnt
  rw [h.myHeat?, h.myTeam?]
  exact ⟨rfl, rfl, rfl, rfl⟩

theorem CrFrame.statusWords (h : CrFrame s t) : t.r.strip.sstat = s.r.strip.sstat ∧ t.r.qstat = s.r.qstat := by
  unfold Strip.sstat Runner.qstat
  rw [h.active, h.prot, h.last, h.rewinds, h.queues, h.peek]
  exact ⟨rfl, rfl⟩

/-- A register that no program writes reads the same. -/
theorem CrFrame.crRead (h : CrFrame s t) (hk : crWritable k = false) : t.crRead k = s.crRead k := by
  obtain ⟨hscratch, htcm, hdsm, hecnt⟩ := h.sizes
  obtain ⟨hsstat, hqstat⟩ := h.statusWords
  unfold crWritable at hk
  unfold State.crRead
  revert hk
  generalize k.toNat = n
  simp only [h.ident, h.rid, h.treq, h.vlen, h.time, h.myCore, h.myPlace, h.pclass, h.ebud, hscratch, htcm, hdsm, hecnt,
    hsstat, hqstat]
  split <;> simp


/-! ### The registers a program writes -/

/-- The numbers of the control registers a program may write, in `crWritable`'s order; WAYMASK is the eighteenth. -/
def crNumbers : List Nat := [0x000, 0x001, 0x002, 0x003, 0x005, 0x006, 0x007, 0x032, 0x044, 0x045, 0x051,
  0x100, 0x101, 0x102, 0x103, 0x104, 0x105, 0x106, 0x107]

/-- A register a program may write, by its place in the list. -/
def crAt (i : Fin 19) : BitVec 12 := BitVec.ofNat 12 crNumbers[i]

theorem exists_crAt (h : crWritable k = true) : ∃ i, k = crAt i := by
  have hm : k.toNat ∈ crNumbers := List.contains_iff_mem.mp h
  obtain ⟨i, hi, he⟩ := List.mem_iff_getElem.mp hm
  exact ⟨⟨i, hi⟩, BitVec.eq_of_toNat_eq (by rw [crAt, Fin.getElem_fin, he, BitVec.toNat_ofNat, Nat.mod_eq_of_lt k.isLt])⟩

/-- A register reads the same where what no program writes is the same and so is each register that one writes. -/
theorem CrFrame.crRead_of (h : CrFrame s t) (hw : ∀ i, crAt i ≠ cr → t.crRead (crAt i) = s.crRead (crAt i)) (hk : k ≠ cr) :
    t.crRead k = s.crRead k := by
  cases hc : crWritable k with
  | false => exact h.crRead hc
  | true =>
    obtain ⟨i, rfl⟩ := exists_crAt hc
    exact hw i hk

/-- The scalar registers, the PC and the model's bookkeeping are no part of any control register. -/
theorem ScalarFrame.crRead (h : ScalarFrame s t) (k : BitVec 12) : t.crRead k = s.crRead k := by
  obtain ⟨-, h⟩ := h
  have hf : CrFrame s t := by
    rw [h]
    exact ⟨rfl, rfl, rfl, rfl, rfl, rfl, rfl, rfl, rfl, rfl, rfl, rfl, rfl, rfl, rfl, rfl, rfl, rfl, fun _ => rfl⟩
  have hw (i : Fin 19) : t.crRead (crAt i) = s.crRead (crAt i) := by
    rw [h]
    fin_cases i <;> rfl
  cases hc : crWritable k with
  | false => exact hf.crRead hc
  | true =>
    obtain ⟨i, rfl⟩ := exists_crAt hc
    exact hw i

/-! ### WAYMASK (R288, R293) -/

/-- A write of WAYMASK changes the partitions, of one its way masks. -/
theorem State.setWaymask_eq (m : BitVec 16) : ∃ ps, s.setWaymask m = { s with parts := ps } ∧
    ∀ n, (({ s with parts := ps } : State).part? n).map Part.unmasked = (s.part? n).map Part.unmasked := by
  unfold State.setWaymask
  split
  · exact ⟨s.parts, rfl, fun _ => rfl⟩
  · next p hp =>
    refine ⟨_, rfl, fun n => ?_⟩
    have hidx : p.idx = s.rid.part := by simpa using List.find?_some (p := fun x : Part => x.idx == s.rid.part) hp
    unfold State.part? at hp ⊢
    dsimp only
    by_cases hn : n = s.rid.part
    · rw [hn, hp, ← hidx, find?_upsert _ _ (by simp)]
      rfl
    · rw [find?_upsert_of_apart _ _ _ (by simpa [hidx] using Ne.symm hn) (by simp; omega)]

/-- The masks of the running runner's partition with that of its die written. -/
theorem State.setWaymask_crRead (m : BitVec 16) (h : (s.part? s.rid.part).isSome = true) :
    (s.setWaymask m).crRead 0x106 = m.setWidth 64 := by
  obtain ⟨p, hp⟩ := Option.isSome_iff_exists.mp h
  have hidx : p.idx = s.rid.part := by simpa using List.find?_some (p := fun x : Part => x.idx == s.rid.part) hp
  have hf (q : Part) (hq : q.idx = p.idx) : (s.setPart q).part? s.rid.part = some q := by
    rw [State.part?, State.setPart, ← hidx, ← hq]
    exact find?_upsert _ _ (by simp) _
  unfold State.setWaymask
  rw [hp]
  dsimp only
  change (((State.part? (s.setPart _) s.rid.part).bind fun p => p.waymask[s.r.ident.core.die]?).getD 0).setWidth 64 = _
  rw [hf]
  · rw [Option.bind_some, List.getElem?_set_self (by simp; omega)]
    rfl
  · rfl

/-! ### A write reaches its register alone -/

/-- A write of a control register leaves what the others that no program writes are made of. -/
theorem State.crWrite_frame (cr : BitVec 12) (v : Word) : CrFrame s (s.crWrite cr v) := by
  unfold State.crWrite
  split
  case h_18 =>
    obtain ⟨ps, he, hps⟩ := s.setWaymask_eq (v.setWidth 16)
    rw [he]
    exact ⟨rfl, rfl, rfl, rfl, rfl, rfl, rfl, rfl, rfl, rfl, rfl, rfl, rfl, rfl, rfl, rfl, rfl, rfl, hps⟩
  all_goals
    exact ⟨rfl, rfl, rfl, rfl, rfl, rfl, rfl, rfl, rfl, rfl, rfl, rfl, rfl, rfl, rfl, rfl, rfl, rfl, fun _ => rfl⟩

/-- Every register a program writes has a place of its own in the state. WAYMASK's is a partition's. -/
theorem State.crWrite_apart (v : Word) (i j : Fin 19) :
    (if i = 17 ∨ j = i then s.crRead (crAt j) else (s.crWrite (crAt i) v).crRead (crAt j)) = s.crRead (crAt j) := by
  fin_cases i <;> fin_cases j <;> rfl

theorem State.crWrite_waymask_apart (m : BitVec 16) (j : Fin 19) :
    (if j = 17 then s.crRead (crAt j) else (s.setWaymask m).crRead (crAt j)) = s.crRead (crAt j) := by
  obtain ⟨ps, he, -⟩ := s.setWaymask_eq m
  rw [he]
  fin_cases j <;> rfl

/-- No other register reads differently after a write of one. -/
theorem State.crWrite_crRead_of_ne (hc : crWritable cr = true) (v : Word) (hk : k ≠ cr) :
    (s.crWrite cr v).crRead k = s.crRead k := by
  obtain ⟨i, rfl⟩ := exists_crAt hc
  refine (s.crWrite_frame _ v).crRead_of (fun j hj => ?_) hk
  have hji : j ≠ i := fun e => hj (congrArg crAt e)
  by_cases hi : i = 17
  · subst hi
    have h := s.crWrite_waymask_apart (v.setWidth 16) j
    rwa [if_neg hji] at h
  · have h := s.crWrite_apart v i j
    rwa [if_neg (by simp [hi, hji])] at h

/-- A word below a power of two is its own low bits. -/
theorem setWidth_setWidth_of_lt {n : Nat} {v : Word} (h : v.toNat < 2 ^ n) : (v.setWidth n).setWidth 64 = v := by
  apply BitVec.eq_of_toNat_eq
  rw [BitVec.toNat_setWidth, BitVec.toNat_setWidth, Nat.mod_eq_of_lt h, Nat.mod_eq_of_lt v.isLt]

/-- TSTATUS holds two bits. -/
theorem tstatus_of_bits (h : v.toNat < 4) : BitVec.ofNat 64 ((bitOf v 0).toNat + 2 * (bitOf v 1).toNat) = v := by
  have hv : v = BitVec.ofNat 64 v.toNat := by simp
  rw [hv]
  generalize v.toNat = n at h
  interval_cases n <;> rfl

/-- What a register reads after a legal write of it (R97): DET of VTYPE and LINES of OCCUP are not written. -/
theorem State.crWrite_crRead_self (hc : crWritable cr = true) (hl : crLegal cr v = true)
    (hp : cr = 0x106 → (s.part? s.rid.part).isSome = true) :
    (s.crWrite cr v).crRead cr = if cr = 0x002 then (v &&& ~~~0x8000#64) ||| (s.crRead cr &&& 0x8000#64)
      else if cr = 0x107 then s.occup s.rid.part (bitsOf v 44 3) (bitsOf v 32 12) else v := by
  obtain ⟨i, rfl⟩ := exists_crAt hc
  fin_cases i
  · change BitVec.ofNat 64 v.toNat = v
    simp
  · change BitVec.ofNat 64 v.toNat = v
    simp
  · rfl
  · exact setWidth_setWidth_of_lt (n := 5) (of_decide_eq_true hl)
  · rfl
  · exact setWidth_setWidth_of_lt (n := 16) (of_decide_eq_true hl)
  · rfl
  · rfl
  · exact setWidth_setWidth_of_lt (n := 32) (of_decide_eq_true hl)
  · rfl
  · rfl
  · rfl
  · rfl
  · rfl
  · rfl
  · exact tstatus_of_bits (of_decide_eq_true hl)
  · rfl
  · exact (State.setWaymask_crRead _ (hp rfl)).trans (setWidth_setWidth_of_lt (n := 16) (of_decide_eq_true hl))
  · change s.occup s.rid.part (BitVec.ofNat 3 (bitsOf v 44 3)).toNat (BitVec.ofNat 12 (bitsOf v 32 12)).toNat =
      s.occup s.rid.part (bitsOf v 44 3) (bitsOf v 32 12)
    simp [bitsOf]

/-! ### What a write leaves of the rest -/

theorem State.crWrite_scal (cr : BitVec 12) (v : Word) :
    (s.crWrite cr v).pc = s.pc ∧ (∀ n, (s.crWrite cr v).reg n = s.reg n) ∧ SameMemory s (s.crWrite cr v) := by
  unfold State.crWrite
  split
  case h_18 =>
    obtain ⟨ps, he, -⟩ := s.setWaymask_eq (v.setWidth 16)
    rw [he]
    exact ⟨rfl, fun _ => rfl, fun _ => rfl⟩
  all_goals exact ⟨rfl, fun _ => rfl, fun _ => rfl⟩

/-- An access to a control register with the vector side idle goes on when the level allows it. -/
theorem crAccess_idle {i : Instr} {write : Bool} {f : State → M (Unit × State)} (hq : s.r.vq = [])
    (hs : crSystem cr = true → s.r.scal.sysr.sys = true) : crAccess i cr write s f = f s := by
  have hgo : (if crOrdered cr || (write && cr == 0x106) then s.afterVector f else f s) = f s := by
    rw [afterVector_idle hq, ite_self]
  unfold crAccess
  cases hc : crSystem cr with
  | false => exact hgo
  | true =>
    rw [if_pos rfl, State.privileged, if_pos (hs hc)]
    exact hgo

/-- An instruction that writes a legal value, and the old one to a scalar register. -/
theorem crWrite_spec {i : Instr} {sd : SR} {old : Word} (hc : crWritable cr = true) (hl : crLegal cr v = true)
    (hp : cr = 0x106 → (s.part? s.rid.part).isSome = true)
    (h : exec i s = .next ((s.crWrite cr v).setReg sd old).advance.completed) :
    ∃ t, exec i s = .next t ∧ t.pc = s.pc + 8 ∧ Writes s t sd old ∧ SameMemory s t ∧
      (t.crRead cr = if cr = 0x002 then (v &&& ~~~0x8000#64) ||| (s.crRead cr &&& 0x8000#64)
        else if cr = 0x107 then s.occup s.rid.part (bitsOf v 44 3) (bitsOf v 32 12) else v) ∧
      ∀ k, crExists k = true → k ≠ cr → t.crRead k = s.crRead k := by
  obtain ⟨hpc, hreg, hmem⟩ := s.crWrite_scal cr v
  have hread := (scalarFrame_setReg (s := s.crWrite cr v) sd old).crRead
  refine ⟨_, h, ?_, fun n => ?_, hmem, (hread cr).trans (State.crWrite_crRead_self hc hl hp),
    fun k _ hk => (hread k).trans (State.crWrite_crRead_of_ne hc v hk)⟩
  · simp [hpc]
  · simp [hreg]

section
variable {sd sa : SR}

/-- A write of s0 is discarded (R13). -/
theorem State.setReg_zero (w : Word) : s.setReg 0 w = s := rfl

theorem exec_wrcr (hq : s.r.vq = []) (hs : crSystem cr = true → s.r.scal.sysr.sys = true) :
    exec (.wrcr cr sa) s = outcome (if crLegal cr (s.reg sa) then .ok ((), (s.crWrite cr (s.reg sa)).advance)
      else stopTrap .illegal (s.reg sa) s) := by
  change outcome (crAccess _ _ _ _ _) = _
  rw [crAccess_idle hq hs]

theorem updateCr_idle {i : Instr} {f : Word → Word → Word} (hq : s.r.vq = [])
    (hs : crSystem cr = true → s.r.scal.sysr.sys = true) :
    updateCr i f sd cr sa s = outcome (if crLegal cr (f (s.crRead cr) (s.reg sa)) then
        .ok ((), ((s.crWrite cr (f (s.crRead cr) (s.reg sa))).setReg sd (s.crRead cr)).advance)
      else stopTrap .illegal (f (s.crRead cr) (s.reg sa)) s) := by
  unfold updateCr
  rw [crAccess_idle hq hs]

/-- A value the register may not hold traps ILLEGAL (R19). -/
theorem outcome_illegal (hq : s.r.vq = []) (hl : crLegal cr v = false) (m : M (Unit × State)) :
    outcome (if crLegal cr v then m else stopTrap .illegal v s) = .next (s.enterTrap .illegal v false) := by
  rw [hl, if_neg Bool.false_ne_true, outcome_stopTrap hq]
  rfl

theorem outcome_legal (hl : crLegal cr v = true) (m : M (Unit × State)) :
    outcome (if crLegal cr v then .ok ((), t) else m) = .next t.completed := by
  rw [hl, if_pos rfl]
  rfl

end
end

/-- Settles O17: the access rule, the legality of the new value, then the write with the register that takes the old. -/
theorem controlWrites : Obligations.ControlWrites := by
  intro s cr sd sa hq hs hc hp
  have hset := updateCr_idle (i := .setcr sd cr sa) (f := fun old a => old ||| a) (sd := sd) (sa := sa) hq hs
  have hclr := updateCr_idle (i := .clrcr sd cr sa) (f := fun old a => old &&& ~~~a) (sd := sd) (sa := sa) hq hs
  refine ⟨⟨fun hl => (exec_wrcr hq hs).trans (outcome_illegal hq hl _), fun hl => ?_⟩,
    ⟨fun hl => hset.trans (outcome_illegal hq hl _), fun hl => crWrite_spec hc hl hp (hset.trans (outcome_legal hl _))⟩,
    ⟨fun hl => hclr.trans (outcome_illegal hq hl _), fun hl => crWrite_spec hc hl hp (hclr.trans (outcome_legal hl _))⟩⟩
  obtain ⟨t, he, hpc, hw, hrest⟩ := crWrite_spec (i := .wrcr cr sa) (sd := 0) (old := 0) hc hl hp (by
    rw [exec_wrcr hq hs, outcome_legal hl, State.setReg_zero])
  exact ⟨t, he, hpc, fun n => (hw n).trans (if_neg fun h => h.2 h.1), hrest⟩

end Sys2Proof.Machine
end

section
/-! Strips (O22): what the strip instructions leave of the running runner, and the rewind. -/

namespace Sys2Proof.Machine

section
variable {s t u : State} {sd : SR}

/-! ### Strip lengths and the two ends of a strip instruction (R109) -/

/-- The length of a strip with so many elements left, under a cap, 0 being none. -/
def State.stripLength (s : State) (left cap : Nat) : Nat :=
  if cap = 0 then min left (s.vlen * 8 / sewOf s.vtype) else min (min left (s.vlen * 8 / sewOf s.vtype)) cap

/-- NVL is the strip length by SC, SCAP and VTYPE. -/
theorem State.stripLength_eq {left cap : Nat} (hv : u.r.vect = s.r.vect) (hl : u.r.strip.sc.toNat = left)
    (hc : u.r.strip.scap.toNat = cap) : s.stripLength left cap = nvl u := by
  have hz : u.r.strip.scap = 0 ↔ cap = 0 := by rw [← hc]; exact BitVec.toNat_inj.symm
  unfold nvl State.stripLength State.vlmaxSew State.vlen State.vtype
  simp only [hz, hl, hc, hv]

/-- A strip of n elements begins at a loop top: its length given, its checkpoint taken. -/
def State.beginAt (u : State) (sd : SR) (n : Nat) (top : Word) : State :=
  (((u.giveLength sd n).takeCheckpoint top).setPc top).completed

/-- No strip is left: length 0 given, execution goes on behind the instruction. -/
def State.endStrip (u : State) (sd : SR) : State := ((u.giveLength sd 0).leaveStrip).advance.completed

/-- A strip instruction has begun a strip of n elements at a loop top. -/
structure StripBegun (sd : SR) (n : Nat) (top : Word) (s t : State) : Prop where
  vl : t.vl = n
  writes : Writes s t sd (BitVec.ofNat 64 n)
  active : t.r.strip.active = true
  prot : t.r.strip.prot = true
  ckPc : t.r.strip.ckPc = top
  ckSc : t.r.strip.ckSc = t.r.strip.sc
  ckRegs : t.r.strip.ckRegs = t.r.scal.s
  ckSind : t.r.strip.ckSind = t.r.strip.sind
  pc : t.pc = top

/-- A strip instruction has left no strip. -/
structure StripEnded (sd : SR) (s t : State) : Prop where
  vl : t.vl = 0
  writes : Writes s t sd 0
  active : t.r.strip.active = false
  prot : t.r.strip.prot = false
  pc : t.pc = s.pc + 8

theorem reg_of_scal (h : u.r.scal = s.r.scal) (n : SR) : u.reg n = s.reg n := congrArg (Scal.get · n) h

theorem State.beginAt_begun (h : u.r.scal = s.r.scal) (n : Nat) (top : Word) :
    StripBegun sd n top s (u.beginAt sd n top) where
  vl := rfl
  writes k := (State.setReg_reg (u.setVl n) sd _ k).trans (by rw [← reg_of_scal h]; rfl)
  active := rfl
  prot := rfl
  ckPc := rfl
  ckSc := rfl
  ckRegs := rfl
  ckSind := rfl
  pc := rfl

theorem State.endStrip_ended (h : u.r.scal = s.r.scal) : StripEnded sd s (u.endStrip sd) where
  vl := rfl
  writes k := (State.setReg_reg (u.setVl 0) sd _ k).trans (by rw [← reg_of_scal h]; rfl)
  active := rfl
  prot := rfl
  pc := (congrArg (· + 8) (State.setReg_pc (u.setVl 0) sd _)).trans (congrArg (fun c : Scal => c.pc + 8) h)

/-! ### The three instructions -/

/-- The running runner before an instruction of a strip acts, its strip store buffer committed if so: its registers stand. -/
structure StripKept (s u : State) : Prop where
  scal : u.r.scal = s.r.scal
  vect : u.r.vect = s.r.vect

theorem State.commitStrip_kept : StripKept s s.commitStrip := ⟨s.commitStrip_frame.scal, s.commitStrip_frame.vect⟩

/-- SC, SIND and SCAP written by STRIP.BEGIN. -/
def State.setStrip (u : State) (sc sind : Word) (cap : BitVec 16) : State :=
  u.mapR fun r => { r with strip := { r.strip with sc := sc, sind := sind, scap := cap } }

/-- SC written. -/
def State.setSc (u : State) (sc : Word) : State := u.mapR fun r => { r with strip := { r.strip with sc := sc } }

/-- The loop top behind STRIP.BEGIN is where it goes on. -/
theorem State.advance_takeCheckpoint (u : State) (sd : SR) (n : Nat) :
    ((u.giveLength sd n).takeCheckpoint (u.pc + 8)).advance.completed = u.beginAt sd n (u.pc + 8) := by
  have hpc : ((u.giveLength sd n).takeCheckpoint (u.pc + 8)).pc = u.pc := State.setReg_pc (u.setVl n) sd _
  rw [State.advance, hpc]
  rfl

theorem StripKept.pc (h : StripKept s u) : u.pc = s.pc := congrArg Scal.pc h.scal

/-- STRIP.BEGIN sets SC, SIND and SCAP, then begins a strip of NVL elements, or none of an empty one. -/
theorem exec_stripBegin {sa sb : SR} {cap : BitVec 16} (hq : s.r.vq = []) :
    ∃ u, StripKept s u ∧ u.r.strip.sc = s.reg sa ∧ u.r.strip.sind = s.reg sb &&& ~~~1#64 ∧ u.r.strip.scap = cap ∧
      exec (.stripBegin sd sa sb cap) s = .next (if s.reg sa = 0 then u.endStrip sd
        else u.beginAt sd (s.stripLength (s.reg sa).toNat cap.toNat) (s.pc + 8)) := by
  have hk : StripKept s (if s.r.strip.active then s.commitStrip else s) := by
    split
    · exact State.commitStrip_kept
    · exact ⟨rfl, rfl⟩
  generalize hc : (if s.r.strip.active then s.commitStrip else s) = c at hk
  have hu : StripKept s (c.setStrip (s.reg sa) (s.reg sb &&& ~~~1#64) cap) := ⟨hk.scal, hk.vect⟩
  have hlen : s.stripLength (s.reg sa).toNat cap.toNat = nvl _ := State.stripLength_eq hu.vect rfl rfl
  refine ⟨_, hu, rfl, rfl, rfl, ?_⟩
  change outcome (s.afterVector _) = _
  rw [afterVector_idle hq, doStripBegin, hc]
  by_cases hn : s.reg sa = 0
  · simp only [if_pos hn]
    rfl
  · simp only [if_neg hn]
    rw [← hu.pc, ← State.advance_takeCheckpoint, hlen]
    rfl

/-- Where no strip is active STRIP.NEXT only gives length 0. -/
theorem exec_stripNext_idle {off : BitVec 32} (hq : s.r.vq = []) (ha : s.r.strip.active = false) :
    exec (.stripNext sd off) s = .next (s.giveLength sd 0).advance.completed := by
  change outcome (s.afterVector _) = _
  rw [afterVector_idle hq, doStripNext, ha]
  rfl

/-- In an active strip STRIP.NEXT commits the stores and takes VL off SC, then begins the next strip or leaves the last. -/
theorem exec_stripNext_active {off : BitVec 32} (hq : s.r.vq = []) (ha : s.r.strip.active = true) :
    let left := s.r.strip.sc.toNat - min s.vl s.r.strip.sc.toNat
    ∃ u, StripKept s u ∧ u.r.strip.sc = BitVec.ofNat 64 left ∧ u.r.strip.sind = s.r.strip.sind ∧ u.r.strip.buf = [] ∧
      exec (.stripNext sd off) s = .next (if 0 < left then
        u.beginAt sd (s.stripLength left s.r.strip.scap.toNat) (s.pc + off.signExtend 64 * 8) else u.endStrip sd) := by
  intro left
  obtain ⟨_, _, hr⟩ := s.commitStrip_r
  have hsc : s.commitStrip.r.strip.sc = s.r.strip.sc := (congrArg (·.strip.sc) hr :)
  have hscap : s.commitStrip.r.strip.scap = s.r.strip.scap := (congrArg (·.strip.scap) hr :)
  have hk := s.commitStrip_kept
  have hleft : s.commitStrip.r.strip.sc.toNat - min s.commitStrip.vl s.commitStrip.r.strip.sc.toNat = left := by
    rw [hsc, State.vl, hk.vect]
    rfl
  have hu : StripKept s (s.commitStrip.setSc (BitVec.ofNat 64 left)) := ⟨hk.scal, hk.vect⟩
  have hlen : s.stripLength left s.r.strip.scap.toNat = nvl (s.commitStrip.setSc (BitVec.ofNat 64 left)) :=
    State.stripLength_eq hu.vect (by
      have hlt := s.r.strip.sc.isLt
      change (BitVec.ofNat 64 left).toNat = left
      rw [BitVec.toNat_ofNat, Nat.mod_eq_of_lt (by omega)])
      (congrArg BitVec.toNat hscap)
  refine ⟨_, hu, rfl, (congrArg (·.strip.sind) hr :), (congrArg (·.strip.buf) hr :), ?_⟩
  change outcome (s.afterVector _) = _
  rw [afterVector_idle hq, doStripNext, ha, ← hu.pc, hlen]
  simp only [hleft]
  by_cases h : 0 < left
  · simp only [if_pos h]
    rfl
  · simp only [if_neg h]
    rfl

/-- STRIP.EXIT commits the stores and leaves the strip. -/
theorem exec_stripExit (hq : s.r.vq = []) :
    exec .stripExit s = .next ((s.commitStrip.leaveStrip.setSc 0).advance).completed := by
  change outcome (s.afterVector _) = _
  rw [afterVector_idle hq]
  rfl

/-! ### The rewind (R110, R243) -/

theorem Scal.get_set (c : Scal) (n m : SR) (w : Word) : (c.set n w).get m = if m = n ∧ m ≠ 0 then w else c.get m :=
  State.setReg_reg { State.reset with r := { State.reset.r with scal := c } } n w m

/-- Registers set one by one from a vector, those a test picks. -/
theorem foldl_set_get (p : Fin 64 → Bool) (ck : Vector Word 64) (n : SR) (l : List (Fin 64)) (c : Scal) :
    (l.foldl (fun (c : Scal) (i : Fin 64) => if p i then c.set i ck[i] else c) c).get n =
      if n ∈ l ∧ n ≠ 0 ∧ p n then ck[n] else c.get n := by
  induction l generalizing c with
  | nil => simp
  | cons i l ih =>
    rw [List.foldl_cons, ih]
    by_cases hi : n = i
    · subst hi
      by_cases h0 : n = 0
      · subst h0
        simp [Scal.get]
      · by_cases hp : p n <;> simp [h0, hp, Scal.get_set]
    · by_cases hp : p i <;> simp [hi, hp, Scal.get_set]

/-- The registers SIND names come back from the checkpoint; the others stay. -/
theorem restoreInduction_get (sind : Word) (ck : Vector Word 64) (c : Scal) (n : SR) :
    (restoreInduction sind ck c).get n = if n ≠ 0 ∧ sind.getLsbD n.val then ck[n] else c.get n := by
  have h := foldl_set_get (fun i => sind.getLsbD i.val) ck n (List.finRange 64) c
  rw [restoreInduction, h]
  simp only [List.mem_finRange, true_and]

/-- The running runner after a rewind with the vector side idle. -/
def Runner.rewound (r : Runner) (last : BitVec 2) (n : Nat) : Runner :=
  { r with
    vq := [], streams := [], queues := Vector.replicate 4 [], wait := none, asks := [], replies := [], begun := none
    pages := [], stat := .ready
    scal := { restoreInduction r.strip.ckSind r.strip.ckRegs r.scal with pc := r.strip.ckPc, peek := false }
    vect := { r.vect with vl := n, vstart := 0 }
    strip := { r.strip with sc := r.strip.ckSc, buf := [], lines := [], count := 0
                            rewinds := min 65535 (r.strip.rewinds + 1), last := last, prot := true } }

/-- A rewind changes the running runner, its copies and its core's share, no byte of memory (R110). -/
theorem State.rewind_eq (hq : s.r.vq = []) (last : BitVec 2) :
    (s.rewind last).r = s.r.rewound last (s.stripLength s.r.strip.ckSc.toNat s.r.strip.scap.toNat) ∧
      (s.rewind last).mem = s.mem := by
  have hc : s.cancelYounger = s.mapR fun r => { r with vq := [], streams := [] } := by
    unfold State.cancelYounger
    rw [hq]
  unfold State.rewind
  rw [hc]
  dsimp only
  split
  · exact ⟨congrArg (s.r.rewound last) (State.stripLength_eq rfl rfl rfl).symm, rfl⟩
  · exact ⟨congrArg (s.r.rewound last) (State.stripLength_eq rfl rfl rfl).symm, rfl⟩

/-! ### The statement's clauses -/

theorem StripBegun.spec {n : Nat} {top : Word} (h : StripBegun sd n top s t) :
    t.vl = n ∧ Writes s t sd (BitVec.ofNat 64 n) ∧ t.r.strip.active = true ∧ t.r.strip.prot = true ∧
      t.r.strip.ckPc = top ∧ t.r.strip.ckSc = t.r.strip.sc ∧ t.r.strip.ckRegs = t.r.scal.s ∧
      t.r.strip.ckSind = t.r.strip.sind ∧ t.pc = top :=
  ⟨h.vl, h.writes, h.active, h.prot, h.ckPc, h.ckSc, h.ckRegs, h.ckSind, h.pc⟩

theorem StripEnded.spec (h : StripEnded sd s t) :
    t.vl = 0 ∧ Writes s t sd 0 ∧ t.r.strip.active = false ∧ t.r.strip.prot = false ∧ t.pc = s.pc + 8 :=
  ⟨h.vl, h.writes, h.active, h.prot, h.pc⟩

/-- Beginning a strip, or leaving the last, changes neither VSTART nor a vector register since `s`, and of the strip neither
SC, SIND, SCAP nor the buffer since `u`. -/
structure StripBeside (s u t : State) : Prop where
  vstart : t.vstart = s.vstart
  v : t.r.vect.v = s.r.vect.v
  sc : t.r.strip.sc = u.r.strip.sc
  sind : t.r.strip.sind = u.r.strip.sind
  scap : t.r.strip.scap = u.r.strip.scap
  buf : t.r.strip.buf = u.r.strip.buf

theorem StripKept.beginAt (h : StripKept s u) (n : Nat) (top : Word) : StripBeside s u (u.beginAt sd n top) :=
  ⟨(congrArg Vect.vstart h.vect :), (congrArg Vect.v h.vect :), rfl, rfl, rfl, rfl⟩

theorem StripKept.endStrip (h : StripKept s u) : StripBeside s u (u.endStrip sd) :=
  ⟨(congrArg Vect.vstart h.vect :), (congrArg Vect.v h.vect :), rfl, rfl, rfl, rfl⟩

end

/-- Settles O22: each strip instruction begins a strip at its loop top or leaves none; a rewind is `Runner.rewound`. -/
theorem stripInstructions : Obligations.StripInstructions := by
  refine ⟨fun s sd sa sb cap off hq => ⟨?_, ?_, ?_⟩, fun s last hq => ?_⟩
  · obtain ⟨u, hk, hsc, hsind, hscap, he⟩ := exec_stripBegin (sd := sd) (sa := sa) (sb := sb) (cap := cap) hq
    by_cases hn : s.reg sa = 0
    · have hb := hk.endStrip (sd := sd)
      rw [if_pos hn] at he
      exact ⟨_, he, hb.vstart, hb.sc.trans hsc, hb.sind.trans hsind, hb.scap.trans hscap, hb.v,
        fun _ => (State.endStrip_ended hk.scal).spec, fun h => absurd hn h⟩
    · have hb := hk.beginAt (sd := sd) (s.stripLength (s.reg sa).toNat cap.toNat) (s.pc + 8)
      rw [if_neg hn] at he
      exact ⟨_, he, hb.vstart, hb.sc.trans hsc, hb.sind.trans hsind, hb.scap.trans hscap, hb.v,
        fun h => absurd h hn, fun _ => (State.beginAt_begun hk.scal _ _).spec⟩
  · cases ha : s.r.strip.active with
    | false =>
      refine ⟨_, exec_stripNext_idle (sd := sd) (off := off) hq ha, rfl, rfl, rfl, fun _ => ⟨rfl, ?_, ?_, rfl⟩, nofun⟩
      · exact State.setReg_reg (s.setVl 0) sd _
      · exact congrArg (· + 8) (State.setReg_pc (s.setVl 0) sd _)
    | true =>
      obtain ⟨u, hk, hsc, hsind, hbuf, he⟩ := exec_stripNext_active (sd := sd) (off := off) hq ha
      split at he
      next hn =>
        have hb := hk.beginAt (sd := sd) (s.stripLength (s.r.strip.sc.toNat - min s.vl s.r.strip.sc.toNat)
          s.r.strip.scap.toNat) (s.pc + off.signExtend 64 * 8)
        exact ⟨_, he, hb.vstart, hb.sind.trans hsind, hb.v, nofun, fun _ => ⟨hb.sc.trans hsc, hb.buf.trans hbuf,
          fun h => absurd hn (by omega), fun _ => (State.beginAt_begun hk.scal _ _).spec⟩⟩
      next hn =>
        have hb := hk.endStrip (sd := sd)
        exact ⟨_, he, hb.vstart, hb.sind.trans hsind, hb.v, nofun, fun _ => ⟨hb.sc.trans hsc, hb.buf.trans hbuf,
          fun _ => (State.endStrip_ended hk.scal).spec, fun h => absurd h hn⟩⟩
  · obtain ⟨_, _, hr⟩ := s.commitStrip_r
    have hk := s.commitStrip_kept
    exact ⟨_, exec_stripExit hq, congrArg (fun c : Scal => c.pc + 8) hk.scal, rfl, rfl, rfl, (congrArg (·.strip.buf) hr :),
      hk.vect, fun n => (reg_of_scal hk.scal n :)⟩
  · obtain ⟨hr, hm⟩ := State.rewind_eq hq last
    have hcap : s.r.strip.scap = 0 ↔ s.r.strip.scap.toNat = 0 := BitVec.toNat_inj.symm
    refine ⟨congrArg (·.scal.pc) hr, congrArg (·.strip.sc) hr, fun n => ?_, ?_, congrArg (·.vect.v) hr,
      congrArg (·.vect.vflags) hr, congrArg (·.strip.buf) hr, fun q => ?_, congrArg (·.strip.rewinds) hr,
      congrArg (·.strip.last) hr, congrArg (·.strip.prot) hr, .of_mem hm⟩
    · exact (congrArg (fun r : Runner => r.scal.get n) hr).trans (restoreInduction_get _ _ _ n)
    · simp only [hcap]
      exact congrArg (·.vect.vl) hr
    · rw [hr]
      simp [Runner.rewound]

end Sys2Proof.Machine
end

section
/-! Fences and cache instructions (O21): what each leaves of the running runner, and the order it leaves behind. -/

namespace Sys2Proof.Machine

section
variable {s t u : State} {i : Instr} {scope : Scope}

/-! ### What these instructions leave of the running runner -/

/-- Of the running runner only the history of its stores, the translations in use, and the marks of buffered and shared
stores have changed. -/
structure Ordered (s t : State) : Prop where
  r : ∃ h p sh b, t.r = { s.r with hist := h, pages := p, share := sh, strip := { s.r.strip with buf := b } }
  cells : t.r.strip.buf.map (·.cells) = s.r.strip.buf.map (·.cells)

theorem Ordered.of_r (h : t.r = s.r) : Ordered s t := ⟨⟨_, _, _, _, h⟩, by rw [h]⟩

theorem Ordered.of_looked (h : Looked s t) : Ordered s t := by
  obtain ⟨_, _, hr⟩ := h.r
  exact ⟨⟨_, _, _, _, hr⟩, by rw [hr]⟩

theorem Ordered.trans (h : Ordered s t) (k : Ordered t u) : Ordered s u := by
  obtain ⟨_, _, _, _, hr⟩ := h.r
  obtain ⟨x, p, sh, b, kr⟩ := k.r
  exact ⟨⟨x, p, sh, b, by rw [kr, hr]⟩, k.cells.trans h.cells⟩

theorem Ordered.vq (h : Ordered s t) : t.r.vq = s.r.vq := by
  obtain ⟨_, _, _, _, hr⟩ := h.r
  rw [hr]

/-- What O21 says of every instruction of the group: the PC advances, no register, mode or queue changes, and of the strip at
most marks of its buffered stores. -/
structure Quiet (s t : State) : Prop where
  pc : t.pc = s.pc + 8
  reg : ∀ n, t.reg n = s.reg n
  vect : t.r.vect = s.r.vect
  queues : t.r.queues = s.r.queues
  strip : t.r.strip = { s.r.strip with buf := t.r.strip.buf }
  cells : t.r.strip.buf.map (·.cells) = s.r.strip.buf.map (·.cells)

theorem Ordered.quiet (h : Ordered s t) : Quiet s t.advance := by
  obtain ⟨⟨_, _, _, _, hr⟩, hc⟩ := h
  exact ⟨by rw [State.advance_pc, State.pc, hr]; rfl, fun n => by rw [State.advance_reg, State.reg, hr]; rfl,
    by rw [State.advance_r_vect, hr], by rw [State.advance_r_queues, hr], by rw [State.advance_r_strip, hr], hc⟩

theorem Quiet.completed (h : Quiet s t) : Quiet s t.completed := ⟨h.pc, h.reg, h.vect, h.queues, h.strip, h.cells⟩

/-- An instruction of the group, and what else it leaves. -/
theorem Quiet.spec {p : State → Prop} (h : Quiet s t) (he : exec i s = .next t) (hp : p t) :
    ∃ t, exec i s = .next t ∧ t.pc = s.pc + 8 ∧ (∀ n, t.reg n = s.reg n) ∧ t.r.vect = s.r.vect ∧
      t.r.queues = s.r.queues ∧ t.r.strip = { s.r.strip with buf := t.r.strip.buf } ∧
      t.r.strip.buf.map (fun a => a.cells) = s.r.strip.buf.map (fun a => a.cells) ∧ p t :=
  ⟨t, he, h.pc, h.reg, h.vect, h.queues, h.strip, h.cells, hp⟩

/-! ### Fences (R103, R278) -/

/-- Bytes that stand behind a fence of a scope for a copy engine: any of team scope or wider, those of local windows of every
scope (R270). -/
def NearBox (scope : Scope) (l : List Host.Cell) : Prop := wideScope scope = true ∨ ∀ c ∈ l, localBase ≤ c.1

theorem reachesBox_iff (l : List Host.Cell) : reachesBox scope l = true ↔ NearBox scope l := by
  simp [reachesBox, NearBox]

theorem box_false_of_near {b : Bool} {l : List Host.Cell} (h : NearBox scope l) : (b && !reachesBox scope l) = false := by
  rw [(reachesBox_iff l).mpr h]
  simp

/-- Who may still see late what a store replaced, after a fence of each kind. -/
theorem Hist.fenced_spec (h : Hist) (kind : FenceKind) (g : Hist) (hg : g = h.fenced scope kind) :
    (kind = .all → g.vec = false ∧ g.scal = false ∧ g.strm = false ∧ (NearBox scope g.cells → g.box = false)) ∧
    (kind = .sv → g.byVec = false → g.vec = false ∧ g.strm = false) ∧
    (kind = .vs → g.byVec = true → g.scal = false ∧ (NearBox scope g.cells → g.box = false)) ∧
    (kind = .vv → g.byVec = true → g.strm = false) := by
  subst hg
  cases kind with
  | all => exact ⟨fun _ => ⟨rfl, rfl, rfl, box_false_of_near⟩, nofun, nofun, nofun⟩
  | sv =>
    refine ⟨nofun, fun _ => ?_, nofun, nofun⟩
    dsimp only [Hist.fenced]
    split
    · next hv => exact fun hb => nomatch hv.symm.trans hb
    · exact fun _ => ⟨rfl, rfl⟩
  | vs =>
    refine ⟨nofun, nofun, fun _ => ?_, nofun⟩
    dsimp only [Hist.fenced]
    split
    · exact fun _ => ⟨rfl, box_false_of_near⟩
    · next hv => exact fun hb => absurd hb hv
  | vv =>
    refine ⟨nofun, nofun, nofun, fun _ => ?_⟩
    dsimp only [Hist.fenced]
    split
    · exact fun _ => rfl
    · next hv => exact fun hb => absurd hb hv

/-- The same of a store still in the strip store buffer. -/
theorem StoreAct.fenced_spec (a : StoreAct) (kind : FenceKind) (g : StoreAct) (hg : g = a.fenced scope kind) :
    (kind = .all → g.strm = false ∧ (NearBox scope g.cells → g.box = false)) ∧
    (kind = .sv → g.byVec = false → g.strm = false) ∧
    (kind = .vs → g.byVec = true → NearBox scope g.cells → g.box = false) ∧
    (kind = .vv → g.byVec = true → g.strm = false) := by
  subst hg
  cases kind with
  | all => exact ⟨fun _ => ⟨rfl, box_false_of_near⟩, nofun, nofun, nofun⟩
  | sv =>
    refine ⟨nofun, fun _ => ?_, nofun, nofun⟩
    dsimp only [StoreAct.fenced]
    split
    · next hv => exact fun hb => nomatch hv.symm.trans hb
    · exact fun _ => rfl
  | vs =>
    refine ⟨nofun, nofun, fun _ => ?_, nofun⟩
    dsimp only [StoreAct.fenced]
    split
    · exact fun _ => box_false_of_near
    · next hv => exact fun hb => absurd hb hv
  | vv =>
    refine ⟨nofun, nofun, nofun, fun _ => ?_⟩
    dsimp only [StoreAct.fenced]
    split
    · exact fun _ => rfl
    · next hv => exact fun hb => absurd hb hv

theorem StoreAct.fenced_cells (a : StoreAct) (kind : FenceKind) : (a.fenced scope kind).cells = a.cells := by
  cases kind <;> unfold StoreAct.fenced <;> dsimp only <;> split <;> rfl

theorem Runner.mem_mapHist {r : Runner} {f : Hist → Hist} {g : Hist} (h : g ∈ (r.mapHist f).hist) : ∃ x, g = f x := by
  obtain ⟨x, -, rfl⟩ := List.mem_map.mp (mem_of_mem_liveHist h)
  exact ⟨x, rfl⟩

theorem State.drainShare_of_empty (h : s.r.share = []) : s.drainShare = s := by
  obtain ⟨r⟩ := s
  obtain ⟨⟩ := r
  subst h
  rfl

theorem State.fenceNow_of_no_share (h : s.r.share = []) (kind : FenceKind) (scope : Scope) :
    s.fenceNow kind scope = s.fenced kind scope := by
  cases kind with
  | sv => rfl
  | _ => exact congrArg (State.fenced · _ scope) (State.drainShare_of_empty h)

/-- With the vector side idle and no FABRIC pending a fence acts at once. -/
theorem exec_fence {kind : FenceKind} (hq : s.r.vq = []) (hf : s.r.fabric = none) (hs : s.r.share = []) :
    exec (.fence kind scope) s = .next (s.fenced kind scope).advance.completed := by
  have hd : doFence kind scope s = .ok ((), (s.fenced kind scope).advance) := by
    have hnow := State.fenceNow_of_no_share hs
    cases kind with
    | vs | all => simp only [doFence, afterVector_idle hq, hnow]
    | sv | vv => simp only [doFence, hq, List.isEmpty_nil, if_true, hnow]
  change outcome (s.report _) = _
  rw [State.report, hf]
  dsimp only
  rw [hd]
  rfl

theorem State.dropL1_l1 : s.dropL1.myCore.l1 = [] := by
  unfold State.dropL1
  split
  · next h => exact List.isEmpty_iff.mp h
  · exact s.mapL1_myCore _

theorem State.acquireL1_r (scope : Scope) : (s.acquireL1 scope).r = s.r := by
  unfold State.acquireL1 State.dropL1
  split
  · split <;> rfl
  · rfl

theorem State.acquireL1_mem (scope : Scope) : (s.acquireL1 scope).mem = s.mem := by
  unfold State.acquireL1 State.dropL1
  split
  · split <;> rfl
  · rfl

/-- What a fence leaves of a runner: other marks of its stores. -/
theorem Runner.fenceSync_mapHist (r : Runner) (k : FenceKind) (f : Hist → Hist) :
    ∃ h, (r.fenceSync k).mapHist f = { r with hist := h } := by
  cases k <;> exact ⟨_, rfl⟩

theorem State.fenced_ordered (kind : FenceKind) (scope : Scope) : Ordered s (s.fenced kind scope) := by
  obtain ⟨h, hr⟩ := s.r.fenceSync_mapHist kind fun h => h.fenced scope kind
  have hf : (s.fenced kind scope).r = { s.r with hist := h, strip := { s.r.strip with
      buf := s.r.strip.buf.map fun a => a.fenced scope kind } } := by
    rw [State.fenced, State.acquireL1_r]
    dsimp only [State.mapR]
    rw [hr]
  refine ⟨⟨h, s.r.pages, s.r.share, _, hf⟩, ?_⟩
  rw [hf]
  simp [StoreAct.fenced_cells]

theorem State.fenced_hist {kind : FenceKind} {g : Hist} (h : g ∈ (s.fenced kind scope).r.hist) :
    ∃ x : Hist, g = x.fenced scope kind := by
  rw [State.fenced, State.acquireL1_r] at h
  exact Runner.mem_mapHist h

theorem State.fenced_buf {kind : FenceKind} {a : StoreAct} (h : a ∈ (s.fenced kind scope).r.strip.buf) :
    ∃ x : StoreAct, a = x.fenced scope kind := by
  rw [State.fenced, State.acquireL1_r] at h
  obtain ⟨x, -, rfl⟩ := List.mem_map.mp h
  exact ⟨x, rfl⟩

theorem State.fenced_l1 (kind : FenceKind) (h : wideScope scope = true) : (s.fenced kind scope).myCore.l1 = [] := by
  unfold State.fenced
  rw [State.acquireL1, if_pos h]
  exact State.dropL1_l1

/-! ### IFENCE (R105) -/

theorem State.fetchAfter_ordered : Ordered s s.fetchAfter :=
  ⟨⟨_, s.r.pages, _, _, rfl⟩, by simp [State.fetchAfter, State.mapR]⟩

theorem exec_ifence (hq : s.r.vq = []) : exec .ifence s = .next s.fetchAfter.advance := by
  have h : s.fetchAfter.r.vq = [] := hq
  change execIfence s = _
  unfold execIfence
  dsimp only
  rw [h]
  rfl

/-! ### TLBINV (R106, R299) -/

/-- Nothing is under way on any keys when nothing is under way at all. -/
theorem NothingUnderWay.underWay (h : NothingUnderWay s) (on : Nat → Bool) : s.underWay on = false := by
  obtain ⟨hcopies, -, hrs, hcores⟩ := h
  have h1 : (s.rs.any fun x => x.2.accesses on) = false := by
    rw [List.any_eq_false]
    intro x hx
    obtain ⟨hvq, hst, hbuf, hsh, hasks⟩ := hrs x hx
    simp [Runner.accesses, Runner.heldOn, hvq, hst, hbuf, hsh, hasks]
  have h2 : (s.cores.any fun c => c.att.any fun a => a.ops.any fun o => o.runner != s.rid && o.cells.any fun c => on c.1) =
      false := by
    rw [List.any_eq_false]
    intro c hc
    cases ha : c.att with
    | none => simp
    | some a => simp [hcores c hc a ha]
  rw [State.underWay, h1, h2, hcopies]
  rfl

/-- With nothing under way TLBINV has nothing of its own to land first: memory and the runner stand, each core holds the
translations it held. -/
theorem NothingUnderWay.settleOwn (h : NothingUnderWay s) (hs : s.r.share = []) (on : Nat → Bool) :
    ∃ cs, s.settleOwn on = { s with cores := cs } := by
  have hcore {a : Attach} (ha : (s.core s.r.ident.core).att = some a) : a.ops = [] := by
    unfold State.core at ha
    cases hf : s.cores.find? fun x => x.id == s.r.ident.core with
    | none => simp [hf, Core.blank] at ha
    | some c => exact h.2.2.2 c (List.mem_of_find?_eq_some hf) a (by simpa [hf] using ha)
  unfold State.settleOwn State.landOps
  simp only [hs, List.any_nil, Bool.false_eq_true, if_false]
  split
  · exact ⟨s.cores, rfl⟩
  · next a ha =>
    rw [hcore ha]
    exact ⟨_, rfl⟩

/-- With nothing under way TLBINV drops the translations at once. -/
theorem exec_tlbinv {sa : SR} {all : Bool} (hq : s.r.vq = []) (hsys : s.r.scal.sysr.sys = true) (h : NothingUnderWay s)
    (hs : s.r.share = []) : ∃ cs, exec (.tlbinv sa all) s = .next (({ s with cores := cs } : State).dropTlb s.rid.part
      (if all then none else some (s.tableAddr (s.reg sa).toNat))).advance.completed := by
  have hheld (on : Nat → Bool) : s.r.heldOn on = false := by simp [Runner.heldOn, hq, h.2.1]
  obtain ⟨cs, hcs⟩ := h.settleOwn hs fun k => (s.droppedFrames s.rid.part
    (if all then none else some (s.tableAddr (s.reg sa).toNat))).any fun f => inKeys f.1 f.2 k
  refine ⟨cs, ?_⟩
  change outcome (s.privileged _ _) = _
  rw [State.privileged, if_pos hsys]
  dsimp only
  rw [hheld, if_neg Bool.false_ne_true, h.underWay, if_neg Bool.false_ne_true, hcs]
  rfl

/-- What TLBINV leaves of the cores' translations and of the walkers' entries. -/
theorem State.dropTlb_spec (part : Nat) (va : Option Nat) :
    (∀ c ∈ (s.dropTlb part va).cores, ∀ e ∈ c.tlb, e.dropped part va = false) ∧
      ∀ c ∈ (s.dropTlb part va).clusters, ∀ x ∈ c.walker, x.1 ≠ part := by
  refine ⟨fun c hc e he => ?_, fun c hc x hx => ?_⟩
  · obtain ⟨d, -, rfl⟩ := List.mem_map.mp hc
    simpa using (List.mem_filter.mp he).2
  · obtain ⟨d, -, rfl⟩ := List.mem_map.mp hc
    simpa using (List.mem_filter.mp hx).2

/-- A translation that was kept is of another partition, or of another page than the one named. -/
theorem TlbEntry.of_not_dropped {e : TlbEntry} {part a : Nat} {all : Bool}
    (h : e.dropped part (if all then none else some a) = false) (hp : e.part = part) :
    all = false ∧ ¬(e.page ≤ a ∧ a < e.page + e.size) := by
  cases all with
  | true => simp [TlbEntry.dropped, hp] at h
  | false => exact ⟨rfl, by simpa [TlbEntry.dropped, hp] using h⟩

theorem State.dropTlb_ordered (part : Nat) (va : Option Nat) : Ordered s (s.dropTlb part va) :=
  ⟨⟨s.r.hist, _, s.r.share, s.r.strip.buf, rfl⟩, rfl⟩

/-! ### Lines (R107, R108) -/

theorem State.newPages_looked : Looked s s.newPages := by
  unfold State.newPages
  split
  · exact .of_tlbApart (.refl s)
  · exact ⟨⟨⟨[], s.r.hist, rfl⟩, rfl⟩, rfl⟩

theorem State.prefetchLine_looked (key : Nat) (slice : Option Nat) (l2only : Bool) :
    Looked s (s.prefetchLine key slice l2only) := by
  have htouch := s.touchL2_beneath key slice s.rid.part false true
  unfold State.prefetchLine
  split
  · exact .of_beneath .refl
  · split
    · exact .of_beneath htouch
    · split
      · exact .of_beneath .refl
      · exact .of_beneath ((htouch.trans (State.mapL1_beneath _)).trans ⟨⟨_, _, _, _, rfl⟩, rfl⟩)

/-- PREFETCH never traps; it only looks. -/
theorem exec_prefetch {sa : SR} {l2only : Bool} (hq : s.r.vq = []) :
    ∃ u, Looked s u ∧ exec (.prefetch sa l2only) s = .next u.advance := by
  have hr := Looked.of_tlbApart (s.resolve_apart (s.reg sa) 1 1 .load)
  have hv := (s.resolve_apart (s.reg sa) 1 1 .load).vq
  change ∃ u, Looked s u ∧ execPrefetch sa l2only s = _
  unfold execPrefetch
  dsimp only
  split
  · next k u he =>
    rw [he] at hr hv
    have hu : Looked s u.newPages := hr.trans State.newPages_looked
    have hvq : u.newPages.r.vq = [] := by
      have h := (Ordered.of_looked (State.newPages_looked (s := u))).vq
      rw [h]
      exact hv.trans hq
    split
    · exact ⟨_, hu, rfl⟩
    · rw [if_pos (by rw [hvq]; rfl)]
      exact ⟨_, hu.trans (State.prefetchLine_looked _ _ _), rfl⟩
  · next u _ he =>
    rw [he] at hr
    exact ⟨_, hr.trans State.newPages_looked, rfl⟩

/-- An address that is checked as found is found by the check (R82). -/
theorem State.check_of_found {va : Word} {n al key : Nat} {k : AccKind} (h : (s.resolve va n al k).1 = .found key) :
    s.check va n al k = .ok (.found key, (s.resolve va n al k).2) := by
  unfold State.check
  rcases hr : s.resolve va n al k with ⟨a, u⟩
  rw [hr] at h
  obtain rfl : a = .found key := h
  rfl

/-- A cache action whose line the strip store buffer does not keep back acts at once. -/
theorem doLine_found {sa : SR} {mode key : Nat} (hq : s.r.vq = []) (hk : (s.resolve (s.reg sa) 1 1 .load).1 = .found key)
    (hb : mode < 2 → ∀ a ∈ s.r.strip.buf, a.byVec = false → ∀ c ∈ a.cells, lineOf c.1 ≠ lineOf key) :
    doLine sa mode s = .ok ((), ((s.resolve (s.reg sa) 1 1 .load).2.lineAction key mode).advance) := by
  have hu := Looked.of_tlbApart (s.resolve_apart (s.reg sa) 1 1 .load)
  have hvq := (Ordered.of_looked hu).vq.trans hq
  have hc := State.check_of_found hk
  generalize (s.resolve (s.reg sa) 1 1 .load).2 = u at hu hvq hc
  have hbuf : (decide (mode < 2) && u.r.strip.buf.any fun a => !a.byVec && a.cells.any fun c => lineOf c.1 == lineOf key) =
      false := by
    rw [hu.toAccessed.strip, Bool.and_eq_false_imp]
    intro hm
    rw [List.any_eq_false]
    intro a ha hany
    obtain ⟨hv, hc⟩ := Bool.and_eq_true_iff.mp hany
    obtain ⟨c, hmem, heq⟩ := List.any_eq_true.mp hc
    exact hb (of_decide_eq_true hm) a ha (by simpa using hv) c hmem (by simpa using heq)
  have hact : u.acceptLine key mode = u.lineAction key mode := by
    rw [State.acceptLine, hvq, List.isEmpty_nil, if_pos rfl, State.lineAfterStores, hbuf, if_neg Bool.false_ne_true]
  unfold doLine
  simp only [hc, bind, Except.bind, hact]

theorem State.lineAction_module {key : Nat} (hk : key < 2 ^ 41) (mode : Nat) :
    s.lineAction key mode = (s.dropL1Line (lineOf key)).lineL2 key mode := by
  have hp : isPeerKey key = false := by
    rw [isPeerKey, Bool.and_eq_false_imp]
    intro h
    have := of_decide_eq_true h
    simp only [peerBase] at this
    omega
  have hm : isModuleKey key = true := decide_eq_true hk
  rw [State.lineAction, hp, if_neg Bool.false_ne_true, State.lineHere, hm]
  rfl

theorem State.dropL1Line_l2 (line : Nat) : (s.dropL1Line line).mem = s.mem ∧ (s.dropL1Line line).under = s.under ∧
    (s.dropL1Line line).lines = s.lines := by
  unfold State.dropL1Line
  split <;> exact ⟨rfl, rfl, rfl⟩

theorem cleanLine_line {under : List Host.Cell} {line : Nat} {c : Host.Cell} (h : c ∈ cleanLine under line) :
    lineOf c.1 ≠ line := by simpa using (List.mem_filter.mp h).2

/-- A flush writes a dirty line back: what lay beneath it is gone, and so is the line where it is evicted. -/
theorem State.lineAction_flush {key : Nat} (hk : key < 2 ^ 41) (evict : Bool) :
    (s.lineAction key evict.toNat).mem = s.mem ∧ (∀ c ∈ (s.lineAction key evict.toNat).under, lineOf c.1 ≠ lineOf key) ∧
      (evict = true → ∀ l ∈ (s.lineAction key evict.toNat).lines, l.line ≠ lineOf key) := by
  have hm : isModuleKey key = true := decide_eq_true hk
  have he : s.lineAction key evict.toNat = (s.dropL1Line (lineOf key)).flushLine (lineOf key) evict := by
    rw [State.lineAction_module hk]
    unfold State.lineL2
    rw [hm]
    cases evict <;> rfl
  rw [he]
  refine ⟨s.dropL1Line_l2 _ |>.1, fun c hc => cleanLine_line hc, fun hev l hl => ?_⟩
  subst hev
  simpa using (List.mem_filter.mp hl).2

/-- An invalidation loses at most bytes of its own line (R108). -/
theorem State.lineAction_invalidate {key : Nat} (hk : key < 2 ^ 41) (hwf : Memory.wf s.mem) :
    (∀ a, lineOf a ≠ lineOf key → (s.lineAction key 2).byteAt a = s.byteAt a) ∧
      (∀ l ∈ (s.lineAction key 2).lines, l.line ≠ lineOf key) ∧
      ∀ c ∈ (s.lineAction key 2).under, lineOf c.1 ≠ lineOf key := by
  have hm : isModuleKey key = true := decide_eq_true hk
  have hmem := (s.dropL1Line_l2 (lineOf key)).1
  have he : s.lineAction key 2 = (s.dropL1Line (lineOf key)).invLine (lineOf key) := by
    rw [State.lineAction_module hk]
    unfold State.lineL2
    rw [hm]
    rfl
  rw [he]
  refine ⟨fun a ha => ?_, fun l hl => by simpa using (List.mem_filter.mp hl).2, fun c hc => cleanLine_line hc⟩
  change cellGet (loseLine (s.dropL1Line (lineOf key)).mem _ _) a = _
  rw [hmem, loseLine, cellGet_cellsPut _ _ hwf, overlay_of_absent]
  · rfl
  · intro c hc heq
    have hline : lineOf c.1 = lineOf key := by simpa using (List.mem_filter.mp hc).2
    exact ha (heq ▸ hline)

/-- A line instruction whose action has come to be leaves the runner as it was. -/
theorem State.lineAction_ordered (va : Word) (key mode : Nat) :
    Ordered s ((s.resolve va 1 1 .load).2.lineAction key mode) :=
  (Ordered.of_looked (.of_tlbApart (s.resolve_apart va 1 1 .load))).trans (.of_r (State.lineAction_r key mode))

end

/-- Settles O21: each instruction acts at once, leaves the runner as `Ordered` says, and makes the order of its kind. -/
theorem fencesAndCaches : Obligations.FencesAndCaches := by
  intro s kind scope sa mode key hq hf hs
  refine ⟨?_, ?_, fun hsys hn => ?_, ?_, fun hk hkey => ⟨fun hb => ?_, fun hsys hwf => ?_⟩, fun hsys => ?_⟩
  · refine (s.fenced_ordered kind scope).quiet.completed.spec (exec_fence hq hf hs)
      ⟨.of_mem ?_, fun hw => State.fenced_l1 kind hw, fun h hh => ?_, fun a ha => ?_⟩
    · exact State.acquireL1_mem scope
    · obtain ⟨x, hx⟩ := State.fenced_hist hh
      exact x.fenced_spec kind h hx
    · obtain ⟨x, hx⟩ := State.fenced_buf ha
      exact x.fenced_spec kind a hx
  · refine State.fetchAfter_ordered.quiet.spec (exec_ifence hq) ⟨fun _ => rfl, fun h hh => ?_, fun a ha => ?_⟩
    · obtain ⟨x, rfl⟩ := Runner.mem_mapHist hh
      rfl
    · obtain ⟨x, -, rfl⟩ := List.mem_map.mp ha
      rfl
  · obtain ⟨cs, he⟩ := exec_tlbinv (sa := sa) (all := mode) hq hsys hn hs
    have hcs : Ordered s { s with cores := cs } := .of_r rfl
    obtain ⟨htlb, hwalk⟩ := State.dropTlb_spec (s := { s with cores := cs }) s.rid.part
      (if mode then none else some (s.tableAddr (s.reg sa).toNat))
    exact (hcs.trans (State.dropTlb_ordered _ _)).quiet.completed.spec he
      ⟨fun _ => rfl, fun c hc e hec hp => TlbEntry.of_not_dropped (htlb c hc e hec) hp, hwalk⟩
  · obtain ⟨u, hu, he⟩ := exec_prefetch (sa := sa) (l2only := mode) hq
    exact (Ordered.of_looked hu).quiet.spec he (.of_mem hu.mem)
  · have he : exec (.cflush sa mode) s =
        .next ((s.resolve (s.reg sa) 1 1 .load).2.lineAction key mode.toNat).advance.completed := by
      change outcome (doLine sa mode.toNat s) = _
      rw [doLine_found hq hk fun _ => hb]
      rfl
    obtain ⟨hmem, hunder, hlines⟩ := State.lineAction_flush (s := (s.resolve (s.reg sa) 1 1 .load).2) hkey mode
    have hlook := Looked.of_tlbApart (s.resolve_apart (s.reg sa) 1 1 .load)
    exact (s.lineAction_ordered _ _ _).quiet.completed.spec he ⟨.of_mem (hmem.trans hlook.mem), hunder, hlines⟩
  · have he : exec (.cinv sa false) s =
        .next ((s.resolve (s.reg sa) 1 1 .load).2.lineAction key 2).advance.completed := by
      change outcome (s.privileged _ _) = _
      rw [State.privileged, if_pos hsys, if_neg Bool.false_ne_true, doLine_found hq hk (by simp)]
      rfl
    have hlook := Looked.of_tlbApart (s.resolve_apart (s.reg sa) 1 1 .load)
    obtain ⟨hbyte, hlines, hunder⟩ := State.lineAction_invalidate (s := (s.resolve (s.reg sa) 1 1 .load).2) hkey
      (hlook.mem.symm ▸ hwf)
    exact (s.lineAction_ordered _ _ _).quiet.completed.spec he
      ⟨fun a ha => (hbyte a ha).trans (SameMemory.of_mem hlook.mem a), hlines, hunder⟩
  · have he : exec (.cinv sa true) s = .next s.dropL1.advance.completed := by
      change outcome (s.privileged _ _) = _
      rw [State.privileged, if_pos hsys]
      rfl
    have hr : s.dropL1.r = s.r := State.acquireL1_r (s := s) .team
    exact (Ordered.of_r hr).quiet.completed.spec he ⟨.of_mem (State.acquireL1_mem (s := s) .team), State.dropL1_l1⟩

end Sys2Proof.Machine
end


section
/-! Element-wise vector instructions (R117): what one leaves when nothing holds it up, operands of integers (R37, R47),
and integer vector arithmetic (O24). -/

namespace Sys2Proof.Machine
variable {s t : State}

/-! ### An element-wise instruction completes -/

/-- A free instruction begins at VSTART. -/
theorem FreeToRun.beganAt {i : Instr} (h : FreeToRun i s) : s.beganAt = s.vstart := by
  obtain ⟨-, -, -, -, hbegun, -, -⟩ := h
  rw [State.beganAt, hbegun, Option.getD_none]

section
variable {i : Instr} {a b : Word} {body : State → M (Unit × State)} {n : Names} {m : Mask} {vd : VR} {fl : Flags}
  {val val' : Nat → Flagged Nat}

/-- An instruction whose body is an element-wise plan no flag stops gives R117's result. -/
theorem elementwise_of_plan (h : FreeToRun i s) (hl : LengthOk s n m) (he : exec i s = passVector i a b body s)
    (hb : body s = s.runPlan i (s.elemPlan n m (s.vlmaxOf n) vd fl val)) (hs : trapEnabled s.vtype fl = false)
    (hf : ∀ j, trapEnabled s.vtype (val j).flags = false) : Elementwise i s m vd (s.vlmaxOf n) fl val := by
  obtain ⟨t, ht, hres, hframe, hq, hrng, hvf⟩ := elem_completes (a := a) (b := b) h hb hl.2 hs fun j _ => hf j
  exact ⟨t, he.trans ht, hres, hframe, hq, hrng, hvf⟩

/-- The same with no trap enabled. -/
theorem elementwise_of_noFpTraps (hnt : NoFpTraps s) (h : FreeToRun i s) (hl : LengthOk s n m)
    (he : exec i s = passVector i a b body s)
    (hb : body s = s.runPlan i (s.elemPlan n m (s.vlmaxOf n) vd fl val)) : Elementwise i s m vd (s.vlmaxOf n) fl val :=
  elementwise_of_plan h hl he hb (hnt.trapEnabled _) fun _ => hnt.trapEnabled _

/-- The same with no flag raised. -/
theorem elementwise_of_noFlags {x : Nat → Nat} (h : FreeToRun i s) (hl : LengthOk s n m)
    (he : exec i s = passVector i a b body s)
    (hb : body s = s.runPlan i (s.elemPlan n m (s.vlmaxOf n) vd {} fun j => { val := x j })) :
    Elementwise i s m vd (s.vlmaxOf n) {} fun j => { val := x j } :=
  elementwise_of_plan h hl he hb (trapEnabled_none _) fun _ => trapEnabled_none _

/-- Only the low bits of an element's value count. -/
theorem Elementwise.congr {vlmax : Nat} {x y : Nat → Nat} (h : Elementwise i s m vd vlmax fl fun j => { val := x j })
    (hxy : ∀ j, x j % 2 ^ (s.fmtOf vd).width = y j % 2 ^ (s.fmtOf vd).width) :
    Elementwise i s m vd vlmax fl fun j => { val := y j } :=
  VectorGives.congr h hxy

end

/-! ### Kinds and formats -/

section
variable {va vd : VR}

theorem State.fmtOf_of_fmt {f : Fmt} (h : (s.vreg va).fmt = some f) : s.fmtOf va = f := by
  rw [State.fmtOf, h, Option.getD_some]

/-- A register of integers: an integer format, unscaled. -/
theorem State.kind_int (h : s.kind va = .int) :
    (s.vreg va).fmt = some (s.fmtOf va) ∧ (s.vreg va).bs = false ∧ ∃ sg, (s.fmtOf va).intSigned = some sg := by
  unfold State.kind VReg.kind at h
  cases hf : (s.vreg va).fmt with
  | none => simp [hf] at h
  | some d =>
    rw [State.fmtOf_of_fmt hf]
    cases d <;> simp_all [Fmt.intSigned]

theorem Fmt.width_pos_of_intSigned {d : Fmt} {sg : Bool} (h : d.intSigned = some sg) : 0 < d.width := by
  cases d <;> simp_all [Fmt.intSigned, Fmt.width]

end

/-! ### Integers in a width (R37) -/

/-- What the low w bits of a number stand for. -/
theorem intVal_wrapInt (sg : Bool) {w : Nat} (hw : 0 < w) (x : Int) :
    intVal sg w (wrapInt w x) = if sg then x.bmod (2 ^ w) else x % 2 ^ w := by
  have hpow : ((2 ^ w : Nat) : Int) = 2 ^ w := by push_cast; rfl
  have hnn : 0 ≤ x % ((2 ^ w : Nat) : Int) := Int.emod_nonneg _ (by positivity)
  have hlt : wrapInt w x < 2 ^ w := by
    have := Int.emod_lt_of_pos x (b := ((2 ^ w : Nat) : Int)) (by positivity)
    unfold wrapInt
    omega
  have hval : ((wrapInt w x : Nat) : Int) = x % ((2 ^ w : Nat) : Int) := Int.toNat_of_nonneg hnn
  have hhalf : (2 : Nat) ^ w = 2 * 2 ^ (w - 1) := by rw [← pow_succ', Nat.sub_add_cancel hw]
  unfold intVal
  rw [Nat.mod_eq_of_lt hlt]
  cases sg with
  | false => simp [hval]
  | true =>
    simp only [Bool.true_and, decide_eq_true_eq, if_true, Int.bmod, ← hval]
    split_ifs <;> omega

/-- A number that a width holds is itself there. -/
theorem fitted_of_mem (sg : Bool) {w : Nat} {x : Int} (hlo : intMin sg w ≤ x) (hhi : x ≤ intMax sg w) (hw : 0 < w) :
    fitted false sg w x = x := by
  have hhalf : (2 : Int) ^ w = 2 * 2 ^ (w - 1) := by rw [← pow_succ', Nat.sub_add_cancel hw]
  unfold intMin intMax at *
  push_cast at hlo hhi
  cases sg with
  | false => exact Int.emod_eq_of_lt hlo (by simp at hhi; omega)
  | true =>
    simp only [if_true] at hlo hhi
    exact Int.bmod_eq_of_le_mul_two (by push_cast; omega) (by push_cast; omega)

/-- An integer reduced to a width and read back (R37, R47). -/
theorem intVal_reduceInt (sat sg : Bool) {w : Nat} (hw : 0 < w) (x : Int) :
    intVal sg w (reduceInt sat sg w x) = fitted sat sg w x := by
  have hread (y : Int) : intVal sg w (wrapInt w y) = fitted false sg w y := intVal_wrapInt sg hw y
  unfold reduceInt
  rw [hread]
  cases sat with
  | false => rfl
  | true =>
    have hle : intMin sg w ≤ intMax sg w := by
      have : 0 < 2 ^ (w - 1) := by positivity
      have : 0 < 2 ^ w := by positivity
      unfold intMin intMax
      split <;> omega
    rw [if_pos rfl, fitted_of_mem sg (le_max_left ..) (max_le hle (min_le_left ..)) hw]
    unfold fitted intMin intMax
    push_cast
    cases sg <;> rfl

section
variable {va : VR}

theorem scalarTo_int (h : s.kind va = .int) (md : Modes) (w : Word) : scalarTo md (s.vreg va) w =
    { val := reduceInt md.sat ((s.fmtOf va).intSigned.getD false) (s.fmtOf va).width w.toInt } := by
  obtain ⟨hf, hbs, sg, hsg⟩ := State.kind_int h
  unfold scalarTo
  rw [hf]
  split
  next g hg => rw [Option.some.inj hg] at hsg; cases hsg
  next f hg => rw [← Option.some.inj hg, hbs]; rfl
  next hg => cases hg

/-- Operand b among integers (R47). -/
theorem State.intB_capture (h : s.kind va = .int) (b : VB) : s.intB va b (s.capture b) = s.intOperand va b := by
  funext j
  cases b with
  | vec r => rfl
  | scal r =>
    obtain ⟨-, -, sg, hsg⟩ := State.kind_int h
    have hw := Fmt.width_pos_of_intSigned hsg
    change intVal _ _ (scalarTo s.modes (s.vreg va) (s.reg r)).val = fitted ..
    rw [scalarTo_int h, intVal_reduceInt _ _ hw, hsg]
    cases sg <;> rfl

end
end Sys2Proof.Machine
end

section
/-! Integer vector arithmetic (O24) and what the floating instructions share with it (R122, R123). -/

namespace Sys2Proof.Machine
variable {s t : State}

section
variable {i : Instr} {o : Arith} {m : Mask} {vd va : VR} {b : Option VB} {vc : Option VR}

/-- The scalar an instruction captures where it has an operand b. -/
def State.captured (s : State) (b : Option VB) : Word := (b.map s.capture).getD 0

/-- Operand b among integers, where an instruction has one. -/
def State.intSecond (s : State) (va : VR) (b : Option VB) (j : Nat) : Int := (b.map fun b => s.intOperand va b j).getD 0

/-- Source vc among integers, where an instruction has one. -/
def State.intThird (s : State) (vc : Option VR) (j : Nat) : Int := (vc.map fun c => (s.vreg c).index j).getD 0

/-- Every source but va, where an instruction has it, is of a kind. -/
def State.OthersAre (s : State) (k : TagKind) (b : Option VB) (vc : Option VR) : Prop :=
  (∀ x, b = some x → s.operandIs k x) ∧ ∀ c, vc = some c → s.kind c = k

theorem State.othersAre_none {k : TagKind} : s.OthersAre k none none := ⟨nofun, nofun⟩

theorem State.othersAre_two {k : TagKind} {b : VB} (h : s.operandIs k b) : s.OthersAre k (some b) none :=
  ⟨fun _ hx => Option.some.inj hx ▸ h, nofun⟩

theorem State.othersAre_three {k : TagKind} {b : VB} {c : VR} (h : s.operandIs k b) (hc : s.kind c = k) :
    s.OthersAre k (some b) (some c) :=
  ⟨fun _ hx => Option.some.inj hx ▸ h, fun _ hx => Option.some.inj hx ▸ hc⟩

/-- Every source of an instruction is of the kind of va. -/
theorem State.OthersAre.kindsAre {k : TagKind} (h : s.OthersAre k b vc) (hk : s.kind va = k) :
    let n := namesOf vd va b vc
    s.kindsAre k (n.va.toList ++ n.vb.toList ++ n.vc.toList) = true := by
  obtain ⟨hb, hc⟩ := h
  simp only [State.kindsAre, List.all_append, Bool.and_eq_true, List.all_eq_true, beq_iff_eq, namesOf, Option.mem_toList]
  refine ⟨⟨fun r hr => Option.some.inj hr ▸ hk, fun r hr => ?_⟩, fun r hr => hc r hr⟩
  obtain ⟨x, hx, hxr⟩ := Option.bind_eq_some_iff.mp hr
  cases x with
  | vec r' => exact Option.some.inj hxr ▸ hb _ hx r' rfl
  | scal _ => cases hxr

/-- The effect of an arithmetic instruction on integers (R122, R37). -/
theorem doArith_int {f : Int → Int → Int → Option Int} (i : Instr) (hf : o.int = some f) (hk : s.kind va = .int)
    (hd : s.destKind vd = .int) (ho : s.OthersAre .int b vc) (hl : LengthOk s (namesOf vd va b vc) m) :
    doArith i o m vd va b vc (s.captured b) s =
      s.runPlan i (s.elemPlan (namesOf vd va b vc) m (s.vlmaxOf (namesOf vd va b vc)) vd {} fun j =>
        intResult s.modes (s.fmtOf vd) (f ((s.vreg va).index j) (s.intSecond va b j) (s.intThird vc j))) := by
  have hkinds := ho.kindsAre (vd := vd) hk
  have hy : ((b.map fun b => s.intB va b (s.captured (some b))).getD fun _ => 0) = s.intSecond va b := by
    cases b with
    | none => rfl
    | some b => exact State.intB_capture hk b
  have hz : ((vc.map fun c j => (s.vreg c).index j).getD fun _ => 0) = s.intThird vc := by cases vc <;> rfl
  have hw : (b.map fun x => s.intB va x (s.captured b)) = b.map fun x => s.intB va x (s.captured (some x)) := by
    cases b <;> rfl
  rw [doArith]
  simp only [hk, hkinds, hd, hf, Option.isSome_some, beq_self_eq_true, Bool.and_self, Bool.or_true,
    State.tagChecks_ok hl.1 fun _ => hl.2, bind, Except.bind, if_true, hw, hy, hz, Option.bind_some]

/-- An arithmetic instruction passed with what it captures. -/
def State.passArith (s : State) (i : Instr) (o : Arith) (m : Mask) (vd va : VR) (b : Option VB) (vc : Option VR) :
    Host.Outcome State Fault Refusal :=
  passVector i (s.captured b) 0 (doArith i o m vd va b vc (s.captured b)) s

/-- An arithmetic instruction on integers: each active element's exact result fitted to the destination (R37, R124). -/
theorem int_arith_elementwise {f : Int → Int → Int → Option Int} (he : exec i s = s.passArith i o m vd va b vc)
    (hf : o.int = some f) (hk : s.kind va = .int) (hd : s.destKind vd = .int) (ho : s.OthersAre .int b vc)
    (h : FreeToRun i s) (hl : LengthOk s (namesOf vd va b vc) m) :
    Elementwise i s m vd (s.vlmaxOf (namesOf vd va b vc)) {} fun j =>
      { val := (intResult s.modes (s.fmtOf vd)
          (f ((s.vreg va).index j) (s.intSecond va b j) (s.intThird vc j))).val } := by
  refine elementwise_of_noFlags h hl he ((doArith_int i hf hk hd ho hl).trans ?_)
  congr 2
  funext j
  unfold intResult
  split <;> rfl

/-- An operation with a result for all sources. -/
theorem int_total_elementwise (f : Int → Int → Int → Int) (he : exec i s = s.passArith i o m vd va b vc)
    (hf : o.int = some fun x y z => some (f x y z)) (hk : s.kind va = .int) (hd : s.destKind vd = .int)
    (ho : s.OthersAre .int b vc) (h : FreeToRun i s) (hl : LengthOk s (namesOf vd va b vc) m) :
    Elementwise i s m vd (s.vlmaxOf (namesOf vd va b vc)) {} fun j =>
      { val := bitsIn (s.fmtOf vd).width (fitted (bitOf s.vtype 5) (decide ((s.fmtOf vd).intSigned = some true))
          (s.fmtOf vd).width (f ((s.vreg va).index j) (s.intSecond va b j) (s.intThird vc j))) } := by
  exact Elementwise.congr (int_arith_elementwise he hf hk hd ho h hl) fun j =>
    congrArg (· % _) (reduceInt_getD_intSigned ..)

end

/-- Settles O24: each instruction is one of `int_total_elementwise`, and a division by zero alone has no exact result. -/
theorem vectorIntegers : Obligations.VectorIntegers := by
  intro s m vd va vc b hk hd hb d x y z fit runs one two three
  have ho := State.othersAre_two hb
  have ho1 : s.OthersAre .int none none := State.othersAre_none
  refine ⟨?_, ?_, ?_, ?_, ?_, ?_, ?_, ?_, fun hc => ?_⟩
  · exact int_total_elementwise (o := opAdd) (fun x y _ => x + y) rfl rfl hk hd ho
  · exact int_total_elementwise (o := opSub) (fun x y _ => x - y) rfl rfl hk hd ho
  · exact int_total_elementwise (o := opMul) (fun x y _ => x * y) rfl rfl hk hd ho
  · intro h hl
    refine Elementwise.congr (int_arith_elementwise (o := opDiv) rfl rfl hk hd ho h hl) fun j => congrArg (· % _) ?_
    change (intResult s.modes d (if y j = 0 then none else some ((x j).tdiv (y j)))).val = _
    split
    · rfl
    · exact reduceInt_getD_intSigned ..
  · exact int_total_elementwise (o := opMin) (fun x y _ => min x y) rfl rfl hk hd ho
  · exact int_total_elementwise (o := opMax) (fun x y _ => max x y) rfl rfl hk hd ho
  · intro h hl
    have := int_total_elementwise (o := opAbs) (fun x _ _ => Int.natAbs x) rfl rfl hk hd ho1 h hl
    simpa only [← Int.abs_eq_natAbs] using this
  · exact int_total_elementwise (o := opNeg) (fun x _ _ => -x) rfl rfl hk hd ho1
  · have ho3 := State.othersAre_three hb hc
    refine ⟨?_, ?_, ?_⟩
    · exact int_total_elementwise (o := opFma) (fun x y z => x * y + z) rfl rfl hk hd ho3
    · exact int_total_elementwise (o := opFms) (fun x y z => x * y - z) rfl rfl hk hd ho3
    · exact int_total_elementwise (o := opFnma) (fun x y z => z - x * y) rfl rfl hk hd ho3

end Sys2Proof.Machine
end

section
/-! Vector logic and shifts (O27, R124), comparisons (O28, R130). -/

namespace Sys2Proof.Machine
variable {s t : State}

/-! ### Low bits of wider patterns -/

theorem wrapInt_eq_toNat_ofInt (w : Nat) (x : Int) : wrapInt w x = (BitVec.ofInt w x).toNat := (BitVec.toNat_ofInt ..).symm

theorem wrapInt_natCast (w n : Nat) : wrapInt w n = n % 2 ^ w := by
  rw [wrapInt, ← Int.natCast_mod, Int.toNat_natCast]

theorem bitsIn_eq_wrapInt (w : Nat) (x : Int) : bitsIn w x = wrapInt w x := by
  rw [wrapInt, Int.natCast_pow]; rfl

/-- The low bits of a number, by way of a wider pattern of it. -/
theorem wrapInt_mod_of_le {d w : Nat} (h : d ≤ w) (x : Int) : wrapInt w x % 2 ^ d = wrapInt d x := by
  have hdvd : ((2 ^ d : Nat) : Int) ∣ (2 ^ w : Nat) := Int.natCast_dvd_natCast.mpr (Nat.pow_dvd_pow 2 h)
  have hnn : 0 ≤ x % ((2 ^ w : Nat) : Int) := Int.emod_nonneg _ (by positivity)
  rw [wrapInt, wrapInt, ← Int.emod_emod_of_dvd x hdvd, ← Int.toNat_natCast ((x % _).toNat % _), Int.natCast_mod,
    Int.toNat_of_nonneg hnn]

theorem wrapInt_mod_self (w : Nat) (x : Int) : wrapInt w x % 2 ^ w = wrapInt w x := wrapInt_mod_of_le le_rfl x

/-! ### Logic -/

section
variable {m : Mask} {vd va : VR} {b : Option VB}

/-- The registers operand b names are of its kind. -/
theorem State.OthersAre.kindsAre_vb {k : TagKind} {vc : Option VR} (h : s.OthersAre k b vc) :
    s.kindsAre k (namesOf vd va b vc).vb.toList = true := by
  simp only [State.kindsAre, List.all_eq_true, beq_iff_eq, namesOf, Option.mem_toList]
  intro r hr
  obtain ⟨x, hx, hxr⟩ := Option.bind_eq_some_iff.mp hr
  cases x with
  | vec r' => exact Option.some.inj hxr ▸ h.1 _ hx r' rfl
  | scal _ => cases hxr

/-- Sources of a logic instruction: integers, or masks without a scalar (R124). -/
def State.LogicSources (s : State) (va : VR) (b : Option VB) : Prop :=
  s.OthersAre (s.kind va) b none ∧
    (s.kind va = .int ∨ s.kind va = .mask ∧ ∀ x, b = some x → ∃ r, x = .vec r)

theorem State.intB_captured (hs : s.LogicSources va b) :
    ((b.map fun x => s.intB va x (s.captured b)).getD fun _ => 0) = s.intSecond va b := by
  cases b with
  | none => rfl
  | some b =>
    rcases hs.2 with hk | ⟨-, hb⟩
    · exact State.intB_capture hk b
    · obtain ⟨r, rfl⟩ := hb b rfl
      rfl

theorem doLogic_eq (i : Instr) (f : Int → Int → Int) (hs : s.LogicSources va b) (hd : s.destKind vd = s.kind va)
    (hl : LengthOk s (namesOf vd va b none) m) :
    doLogic i f m vd va b (s.captured b) s =
      s.runPlan i (s.elemPlan (namesOf vd va b none) m (s.vlmaxOf (namesOf vd va b none)) vd {} fun j =>
        { val := wrapInt (s.fmtOf vd).width (f ((s.vreg va).index j) (s.intSecond va b j)) }) := by
  have hkind : (s.kind va == .int || (s.kind va == .mask && !(b.bind VB.scal?).isSome)) = true := by
    rcases hs.2 with hk | ⟨hk, hb⟩
    · simp [hk]
    · cases b with
      | none => simp [hk]
      | some x =>
        obtain ⟨r, rfl⟩ := hb x rfl
        simp [hk, VB.scal?]
  rw [doLogic]
  simp only [hkind, hs.1.kindsAre_vb, hd, beq_self_eq_true, Bool.and_self, State.tagChecks_ok hl.1 fun _ => hl.2, bind,
    Except.bind, State.intB_captured hs]

/-- A logic instruction works on 64-bit patterns (R124). -/
theorem logic_elementwise {i : Instr} (g : Word → Word → Word)
    (he : exec i s = passVector i (s.captured b) 0 (doLogic i (bits64 g) m vd va b (s.captured b)) s)
    (hs : s.LogicSources va b) (hd : s.destKind vd = s.kind va) (h : FreeToRun i s)
    (hl : LengthOk s (namesOf vd va b none) m) :
    Elementwise i s m vd (s.vlmaxOf (namesOf vd va b none)) {} fun j =>
      { val := (g (BitVec.ofInt 64 ((s.vreg va).index j)) (BitVec.ofInt 64 (s.intSecond va b j))).toNat } := by
  refine Elementwise.congr (elementwise_of_noFlags h hl he (doLogic_eq i _ hs hd hl)) fun j => ?_
  rw [wrapInt_mod_self, wrapInt_eq_ofInt (s.fmtOf vd).width_le, ofInt_bits64]

end

/-! ### Shifts -/

section
variable {m : VMod} {vd va : VR} {b : VB}

/-- The width a shift works in (R124). -/
def State.shiftWidth (s : State) (vd va : VR) : Nat := max (s.fmtOf va).width (s.fmtOf vd).width

/-- The count of a shift: the low bits of b, whose scalar is not converted (R124). -/
def State.shiftCount (s : State) (b : VB) (w j : Nat) : Nat :=
  match b with
  | .vec r => (BitVec.ofInt 64 ((s.vreg r).index j)).toNat % w
  | .scal r => (s.reg r).toNat % w

theorem doShift_eq (i : Instr) (f : (w : Nat) → Int → Nat → Int) (hk : s.kind va = .int) (hd : s.destKind vd = .int)
    (hb : s.operandIs .int b) (hl : LengthOk s (namesOf vd va (some b) none) m.mask) :
    doShift i f m.mask vd va b (s.capture b) s =
      s.runPlan i (s.elemPlan (namesOf vd va (some b) none) m.mask (s.vlmaxOf (namesOf vd va (some b) none)) vd {} fun j =>
        { val := wrapInt (s.fmtOf vd).width (f (s.shiftWidth vd va) ((s.vreg va).index j)
            (s.shiftCount b (s.shiftWidth vd va) j)) }) := by
  rw [doShift]
  simp only [hk, hd, (State.othersAre_two hb).kindsAre_vb, beq_self_eq_true, Bool.and_self,
    State.tagChecks_ok hl.1 fun _ => hl.2, bind, Except.bind, wrapInt_eq_toNat_ofInt 64]
  cases b with
  | vec r => rfl
  | scal r =>
    simp only [BitVec.ofInt_toInt]
    rfl

/-- A shift of integers: the low bits of the function on the wider width. -/
theorem shift_elementwise {i : Instr} (f : (w : Nat) → Int → Nat → Int) (val : Nat → Nat)
    (he : exec i s = passVector i (s.capture b) 0 (doShift i f m.mask vd va b (s.capture b)) s)
    (hk : s.kind va = .int) (hd : s.destKind vd = .int) (hb : s.operandIs .int b)
    (hval : ∀ j, val j % 2 ^ (s.fmtOf vd).width = wrapInt (s.fmtOf vd).width (f (s.shiftWidth vd va)
      ((s.vreg va).index j) (s.shiftCount b (s.shiftWidth vd va) j)))
    (h : FreeToRun i s) (hl : LengthOk s (namesOf vd va (some b) none) m.mask) :
    Elementwise i s m.mask vd (s.vlmaxOf (namesOf vd va (some b) none)) {} fun j => { val := val j } := by
  refine Elementwise.congr (elementwise_of_noFlags h hl he (doShift_eq i f hk hd hb hl)) fun j => ?_
  rw [wrapInt_mod_self, hval]

end

theorem shl_wraps {d w : Nat} (h : d ≤ w) (a : Int) (c : Nat) :
    (BitVec.ofInt w a <<< c).toNat % 2 ^ d = wrapInt d (shl w a c) := by
  have : BitVec.ofInt w a <<< c = BitVec.ofInt w (shl w a c) := by
    rw [BitVec.shiftLeft_eq_mul_twoPow, shl, BitVec.ofInt_mul]
    congr 1
    apply BitVec.eq_of_toNat_eq
    rw [BitVec.toNat_twoPow, ← wrapInt_eq_toNat_ofInt]
    exact_mod_cast (wrapInt_natCast w (2 ^ c)).symm
  rw [this, ← wrapInt_eq_toNat_ofInt, wrapInt_mod_of_le h]

theorem shr_wraps {d w : Nat} (a : Int) (c : Nat) :
    (BitVec.ofInt w a >>> c).toNat % 2 ^ d = wrapInt d (shr w a c) := by
  rw [shr, wrapInt_natCast, BitVec.toNat_ushiftRight, wrapInt_eq_toNat_ofInt]

theorem sar_wraps {d w : Nat} (h : d ≤ w) (hw : 0 < w) (a : Int) (c : Nat) :
    bitsIn w ((BitVec.ofInt w a).toInt / 2 ^ c) % 2 ^ d = wrapInt d (sar w a c) := by
  rw [bitsIn_eq_wrapInt, wrapInt_mod_of_le h, sar, intVal_wrapInt true hw, if_pos rfl, BitVec.toInt_ofInt,
    Int.shiftRight_eq_div_pow]
  push_cast
  rfl

/-- Settles O27: logic by `logic_elementwise`, shifts by `shift_elementwise` and what each function leaves in the low bits. -/
theorem vectorLogic : Obligations.VectorLogic := by
  intro s m vd va b x y runs
  refine ⟨fun hk hd => ⟨?_, fun hb hm => ?_⟩, fun hk hd hb => ?_⟩
  · have hs : s.LogicSources va none := ⟨State.othersAre_none, hk.imp_right fun hk => ⟨hk, nofun⟩⟩
    exact logic_elementwise (fun a _ => ~~~a) rfl hs hd
  · have hs : s.LogicSources va (some b) :=
      ⟨State.othersAre_two hb, hk.imp_right fun hk => ⟨hk, fun _ hx => Option.some.inj hx ▸ hm hk⟩⟩
    exact ⟨logic_elementwise (· &&& ·) rfl hs hd, logic_elementwise (· ||| ·) rfl hs hd,
      logic_elementwise (· ^^^ ·) rfl hs hd⟩
  · intro w a c
    obtain ⟨-, -, sg, hsg⟩ := State.kind_int hk
    have hw : 0 < w := (Fmt.width_pos_of_intSigned hsg).trans_le (le_max_left ..)
    have hle : (s.fmtOf vd).width ≤ w := le_max_right ..
    refine ⟨?_, ?_, ?_⟩
    · exact shift_elementwise shl _ rfl hk hd hb fun j => shl_wraps hle _ _
    · exact shift_elementwise shr _ rfl hk hd hb fun j => shr_wraps _ _
    · exact shift_elementwise sar _ rfl hk hd hb fun j => sar_wraps hle hw _ _

/-! ### Comparisons -/

section
variable {m : VMod} {vd va : VR} {b : VB}

/-- Element j of operand b as an unsigned encoding (R130). -/
def State.encodingB (s : State) (va : VR) (b : VB) (j : Nat) : Nat :=
  match b with
  | .vec r => (s.vreg r).elem (s.fmtOf r) j
  | .scal _ => bitsIn (s.fmtOf va).width (s.intOperand va b j)

theorem State.encodingB_scal (hk : s.kind va = .int) (r : SR) (j : Nat) :
    s.encodingB va (.scal r) j = (scalarTo s.modes (s.vreg va) (s.reg r)).val := by
  rw [scalarTo_int hk]
  exact (reduceInt_getD_intSigned ..).symm

/-- A comparison of integers (R130). -/
theorem cmp_int_elementwise {cond : Fin 12} (hd : s.kind vd = .mask) (hk : s.kind va = .int) (hb : s.operandIs .int b)
    (h6 : cond.val ≠ 6) (h7 : cond.val ≠ 7) (h : FreeToRun (.vcmp m vd va b cond) s)
    (hl : LengthOk s (namesOf vd va (some b) none) m.mask) :
    Elementwise (.vcmp m vd va b cond) s m.mask vd (s.vlmaxOf (namesOf vd va (some b) none)) {} fun j =>
      { val := (condInt cond.val ((s.vreg va).index j) (s.intOperand va b j) ((s.vreg va).elem (s.fmtOf va) j)
          (s.encodingB va b j)).toNat } := by
  refine elementwise_of_noFlags h hl (a := s.capture b) (b := 0)
    (body := doCmp (.vcmp m vd va b cond) m.mask vd va b cond.val (s.capture b)) rfl ?_
  rw [doCmp]
  simp only [hk, hd, (State.othersAre_two hb).kindsAre_vb, bne_iff_ne.mpr h6, bne_iff_ne.mpr h7, beq_self_eq_true,
    Bool.and_self, Bool.true_or, State.tagChecks_ok hl.1 fun _ => hl.2, bind, Except.bind, if_true, State.intB_capture hk]
  cases b with
  | vec r => rfl
  | scal r =>
    simp only [State.encodingB_scal hk]
    rfl

/-- A comparison of floating values (R33, R130). -/
theorem cmp_float_elementwise {cond : Fin 12} (hd : s.kind vd = .mask) (hk : s.kind va = .float)
    (hb : s.operandIs .float b) (hc : cond.val < 8) (hnt : NoFpTraps s) (h : FreeToRun (.vcmp m vd va b cond) s)
    (hl : LengthOk s (namesOf vd va (some b) none) m.mask) :
    let y := s.srcB va b (s.capture b)
    Elementwise (.vcmp m vd va b cond) s m.mask vd (s.vlmaxOf (namesOf vd va (some b) none)) y.flags fun j =>
      let c := condX cond.val ((s.vreg va).src s.modes.daz j) (y.val j)
      { val := c.val.toNat, flags := c.flags } := by
  refine elementwise_of_noFpTraps hnt h hl (a := s.capture b) (b := 0)
    (body := doCmp (.vcmp m vd va b cond) m.mask vd va b cond.val (s.capture b)) rfl ?_
  rw [doCmp]
  simp only [hk, hd, (State.othersAre_two hb).kindsAre_vb, hc, beq_self_eq_true, Bool.and_self, decide_true, Bool.or_true,
    State.tagChecks_ok hl.1 fun _ => hl.2, bind, Except.bind, beq_iff_eq, reduceCtorEq, if_false]

end

/-- Settles O28: by the kind of the sources, and for integers by the condition. -/
theorem vectorCompares : Obligations.VectorCompares := by
  intro s m vd va b cond hd i n x y w h hl
  refine ⟨fun hk hb h6 h7 => ?_, fun hk hb hc hnt => cmp_float_elementwise hd hk hb hc hnt h hl⟩
  intro ux uy
  refine Elementwise.congr (cmp_int_elementwise hd hk hb h6 h7 h hl) fun j => congrArg (fun c : Bool => c.toNat % _) ?_
  fin_cases cond <;> simp [condInt] at h6 h7 ⊢ <;> rfl

end Sys2Proof.Machine
end

section
/-! Floating vector arithmetic (O25): one exact operation for each element, delivered once (R44, R122), scaling (R128) and
two-sum (R127), with what any plan leaves that ends by itself. -/

namespace Sys2Proof.Machine
variable {s t : State}

/-! ### Arithmetic -/

section
variable {i : Instr} {o : Arith} {m : Mask} {vd va : VR} {b : Option VB} {vc : Option VR} {g : FF}

/-- Operand b among floating values, where an instruction has one (R47). -/
def State.fpSecond (s : State) (va : VR) (b : Option VB) : Flagged (Nat → XVal) :=
  (b.map fun x => s.srcB va x (s.captured b)).getD { val := fun _ => .zero false }

/-- Source vc among floating values, where an instruction has one. -/
def State.fpThird (s : State) (vc : Option VR) : Nat → XVal :=
  (vc.map fun c j => (s.vreg c).src s.modes.daz j).getD fun _ => .zero false

/-- Element j of a floating instruction's result. -/
def State.fpResult (s : State) (o : Arith) (g : FF) (va : VR) (b : Option VB) (vc : Option VR) (j : Nat) : Flagged Nat :=
  g.deliver s.modes (o.fp s.modes ((s.vreg va).src s.modes.daz j) ((s.fpSecond va b).val j) (s.fpThird vc j))

/-- The effect of an arithmetic instruction on floating values (R122). -/
theorem doArith_float (i : Instr) (hk : s.kind va = .float) (hd : s.destKind vd = .float) (hg : s.fmtOf vd = .fp g)
    (ho : s.OthersAre .float b vc) (hl : LengthOk s (namesOf vd va b vc) m) :
    doArith i o m vd va b vc (s.captured b) s =
      s.runPlan i (s.elemPlan (namesOf vd va b vc) m (s.vlmaxOf (namesOf vd va b vc)) vd (s.fpSecond va b).flags
        (s.fpResult o g va b vc)) := by
  have hkinds := ho.kindsAre (vd := vd) hk
  rw [doArith]
  simp only [hk, hkinds, hd, hg, beq_self_eq_true, Bool.and_self, Bool.true_or, State.tagChecks_ok hl.1 fun _ => hl.2, bind,
    Except.bind, beq_iff_eq, reduceCtorEq, if_false]
  rfl

/-- An arithmetic instruction on floating values, with no trap enabled. -/
theorem float_arith_elementwise (he : exec i s = s.passArith i o m vd va b vc) (hk : s.kind va = .float)
    (hd : s.destKind vd = .float) (hg : s.fmtOf vd = .fp g) (ho : s.OthersAre .float b vc) (hnt : NoFpTraps s)
    (h : FreeToRun i s) (hl : LengthOk s (namesOf vd va b vc) m) :
    Elementwise i s m vd (s.vlmaxOf (namesOf vd va b vc)) (s.fpSecond va b).flags (s.fpResult o g va b vc) :=
  elementwise_of_noFpTraps hnt h hl he (doArith_float i hk hd hg ho hl)

end

/-! ### Scaling -/

section
variable {m : VMod} {vd va : VR} {b : VB} {g : FF}

/-- The power of two VSCALB scales element j by, before it is clamped (R128). -/
def State.scalbBy (s : State) (b : VB) (j : Nat) : Int :=
  match b with
  | .vec r => (s.vreg r).index j
  | .scal r => (s.reg r).toInt

/-- VSCALB (R128). -/
theorem scalb_elementwise (hk : s.kind va = .float) (hd : s.destKind vd = .float) (hg : s.fmtOf vd = .fp g)
    (hb : s.operandIs .int b) (hnt : NoFpTraps s) (h : FreeToRun (.vscalb m vd va b) s)
    (hl : LengthOk s (namesOf vd va (some b) none) m.mask) :
    Elementwise (.vscalb m vd va b) s m.mask vd (s.vlmaxOf (namesOf vd va (some b) none)) {} fun j =>
      let x := (s.vreg va).src s.modes.daz j
      g.deliver s.modes (quietNaN x (x.scale (max (-65536) (min 65535 (s.scalbBy b j))))) := by
  refine elementwise_of_noFpTraps hnt h hl (a := s.capture b) (b := 0)
    (body := doScalb (.vscalb m vd va b) m.mask vd va b (s.capture b)) rfl ?_
  rw [doScalb]
  simp only [hk, hd, hg, (State.othersAre_two hb).kindsAre_vb, beq_self_eq_true, Bool.and_self,
    State.tagChecks_ok hl.1 fun _ => hl.2, bind, Except.bind]
  cases b <;> rfl

end

/-! ### Plans that end by themselves -/

/-- The vector side a plan leaves when all its acts are done. -/
def VPlan.final (p : VPlan) (v : Vect) : Vect := p.done (p.items.foldl (fun v x => x.put v) v)

/-- The flags a plan gathers when all its acts are done. -/
def VPlan.gathered (p : VPlan) : Flags := p.items.foldl (fun fl x => fl.or x.flags) p.scalar

/-- The hand-off queues a plan leaves. -/
def VPlan.handed (p : VPlan) (qs : Vector (List Word) 4) : Vector (List Word) 4 :=
  let qs := match p.pop with
    | some q => qs.set q qs[q].tail
    | none => qs
  match p.push with
  | some (q, w) => qs.set q (qs[q] ++ [w])
  | none => qs

theorem State.handOff_eq (p : VPlan) : s.handOff p = s.mapR fun r => { r with queues := p.handed r.queues } := by
  unfold State.handOff VPlan.handed
  cases p.pop <;> cases p.push <;> rfl

section
variable {i : Instr} {a b : Word} {body : State → M (Unit × State)} {p : VPlan}

/-- A plan that no queue blocks and no flag stops, carried out by a free instruction: the vector side and the queues it
leaves, and all else as before. -/
theorem plan_ends (h : FreeToRun i s) (he : exec i s = passVector i a b body s) (hb : body s = s.runPlan i p)
    (hbl : s.blockedBy p = none) (hs : trapEnabled s.vtype p.scalar = false)
    (hf : ∀ x ∈ p.items, trapEnabled s.vtype x.flags = false) :
    ∃ t, exec i s = .next t ∧ t.r.vect = { (p.final s.r.vect).raise p.gathered with vstart := 0 } ∧
      t.r.queues = p.handed s.r.queues ∧ t.r.scal = { s.r.scal with pc := s.pc + 8 } ∧ t.mem = s.mem ∧
      t.r.strip = s.r.strip ∧ t.r.leases = s.r.leases ∧ t.r.barw = s.r.barw ∧ t.r.ident = s.r.ident := by
  obtain ⟨hvq, hconvoy, hlanes, hbad, hbegun, hquota, hops⟩ := h
  obtain ⟨cs, hrun, c, hc, hatt⟩ := s.runPlan_ok i p hbl hlanes hbegun hquota hs hf
  rw [State.handOff_eq] at hrun
  have hpass := passVector_ok (a := a) (b := b) hvq hconvoy hbad (hb.trans hrun)
  obtain ⟨_, _, _, hnote⟩ := State.noteWrites_same
    (s := ((((({ s with cores := cs } : State).setVect (p.final s.r.vect)).raise p.gathered).setVstart 0).mapR
      fun r => { r with queues := p.handed r.queues }))
    (State.written s _ i) fun a ha => hops a (by rw [← hatt, ← hc]; exact ha)
  refine ⟨_, he.trans (hpass.trans (congrArg (fun u : State => Host.Outcome.next u.advance.completed) hnote)), ?_⟩
  exact ⟨rfl, rfl, rfl, rfl, rfl, rfl, rfl, rfl⟩

/-- The same for a plan that changes only some registers: what R117 says, the registers, the flags and the queues. -/
theorem plan_frame {ds : List VR} (h : FreeToRun i s) (he : exec i s = passVector i a b body s)
    (hb : body s = s.runPlan i p) (hbl : s.blockedBy p = none) (hs : trapEnabled s.vtype p.scalar = false)
    (hf : ∀ x ∈ p.items, trapEnabled s.vtype x.flags = false) (hrest : (p.final s.r.vect).rest = s.r.vect.rest)
    (hreg : ∀ k, k ∉ ds → (p.final s.r.vect).reg k = s.vreg k) :
    ∃ t, exec i s = .next t ∧ VectorFrame s t ds ∧ t.r.queues = p.handed s.r.queues ∧
      t.r.vect.rngctr = s.r.vect.rngctr ∧ t.r.vect.vflags = s.r.vect.vflags ||| p.gathered.bits ∧
      ∀ k, t.vreg k = (p.final s.r.vect).reg k := by
  obtain ⟨t, ht, hvect, hq, hscal, hmem, hstrip, hl, hbw, hid⟩ := plan_ends h he hb hbl hs hf
  simp only [Vect.rest, Prod.mk.injEq] at hrest
  obtain ⟨hvl, -, hvt, hvf, hvlen, hrng⟩ := hrest
  have hread (k : VR) : t.vreg k = (p.final s.r.vect).reg k := (congrArg (fun v : Vect => v.reg k) hvect).trans rfl
  refine ⟨t, ht, ⟨fun k => congrArg (cellGet · k) hmem, congrArg Scal.pc hscal, hscal,
    fun k hk => (hread k).trans (hreg k hk), congrArg Vect.vstart hvect, (congrArg Vect.vl hvect).trans hvl,
    (congrArg Vect.vtype hvect).trans hvt, (congrArg Vect.vlen hvect).trans hvlen, hstrip, hl, hbw, hid⟩, hq,
    (congrArg Vect.rngctr hvect).trans hrng, ?_, hread⟩
  exact (congrArg Vect.vflags hvect).trans (congrArg (· ||| p.gathered.bits) hvf)

end

/-! ### Two-sum -/

section
variable {m : Mask} {vd va : VR} {b : VB} {g : FF}

/-- Two registers written element by element. -/
theorem Vect.foldl_putElem_pair {d d' : VR} (hd : d' ≠ d) (f f' : Fmt) (x y : Nat → Nat) (l : List Nat) (v : Vect) (k : VR) :
    ((l.foldl (fun (v : Vect) (j : Nat) => (v.putElem d f j (x j)).putElem d' f' j (y j)) v).reg k =
      if k = d' then l.foldl (fun (r : VReg) (j : Nat) => r.setElem f' j (y j)) (v.reg d')
      else if k = d then l.foldl (fun (r : VReg) (j : Nat) => r.setElem f j (x j)) (v.reg d) else v.reg k) ∧
    (l.foldl (fun (v : Vect) (j : Nat) => (v.putElem d f j (x j)).putElem d' f' j (y j)) v).rest = v.rest := by
  induction l generalizing v with
  | nil =>
    refine ⟨?_, rfl⟩
    simp only [List.foldl_nil]
    split_ifs with h h'
    · rw [h]
    · rw [h']
    · rfl
  | cons j l ih =>
    obtain ⟨hreg, hrest⟩ := ih ((v.putElem d f j (x j)).putElem d' f' j (y j))
    refine ⟨?_, hrest.trans rfl⟩
    simp only [List.foldl_cons, hreg, Vect.reg_putElem, if_neg hd, if_neg hd.symm, if_true]
    split_ifs <;> rfl

/-- The names of VTWOSUM, which writes vd and vd + 1. -/
def twosumNames (vd va : VR) (b : VB) : Names :=
  { vd := some vd, va := some va, vb := VB.reg? b, more := [vd + 1] }

/-- Element j of VTWOSUM: the sum and its error. -/
def State.twoAt (s : State) (g : FF) (va : VR) (b : VB) (j : Nat) : Flagged (Nat × Nat) :=
  twoSum g s.modes.ftz s.modes.sat ((s.vreg va).src s.modes.daz j) ((s.srcB va b (s.capture b)).val j)

/-- What VTWOSUM does once its checks have passed. -/
def State.twosumPlan (s : State) (g : FF) (m : Mask) (vd va : VR) (b : VB) : VPlan :=
  let n := twosumNames vd va b
  { per := s.groupOf n, dests := [vd, vd + 1], scalar := (s.srcB va b (s.capture b)).flags
    items := (s.activeFrom m s.vstart).map fun j =>
      { first := j, past := j + 1, flags := (s.twoAt g va b j).flags
        put := fun v => (v.putElem vd (.fp g) j (s.twoAt g va b j).val.1).putElem (vd + 1) (.fp g) j (s.twoAt g va b j).val.2 }
    done := fun v => s.settleReg m s.beganAt (s.vlmaxOf n) (vd + 1) (s.settleReg m s.beganAt (s.vlmaxOf n) vd v) }

theorem doTwosum_eq (i : Instr) (hk : s.kind va = .float) (hb : s.operandIs .float b) (hd : s.destKind vd = .float)
    (hg : s.fmtOf vd = .fp g) (hd' : s.destKind (vd + 1) = .float) (hg' : s.fmtOf (vd + 1) = .fp g)
    (hf : s.opfOf va (VB.reg? b) = g) (hl : LengthOk s (twosumNames vd va b) m) :
    doTwosum i m vd va b (s.capture b) s = s.runPlan i (s.twosumPlan g m vd va b) := by
  have hkb : s.kindsAre .float (VB.reg? b).toList = true := (State.othersAre_two hb).kindsAre_vb (vd := vd) (va := va)
  have hck := State.tagChecks_ok (n := twosumNames vd va b) hl.1 fun _ : true = true => hl.2
  unfold twosumNames at hck
  rw [doTwosum]
  simp only [hf, hk, hkb, hd, hg, hd', hg', beq_self_eq_true, Bool.and_self, hck, bind, Except.bind]
  rfl

theorem State.reg_final_twosum (hg : s.fmtOf vd = .fp g) (hg' : s.fmtOf (vd + 1) = .fp g) (hbegan : s.beganAt = s.vstart) (k : VR) :
    let vlmax := s.vlmaxOf (twosumNames vd va b)
    let left (d : VR) (x : Nat → Nat) : VReg :=
      settle s.vtype (s.fmtOf d) (fun i => s.active m i) s.vstart s.vl vlmax
        ((s.activeFrom m s.vstart).foldl (fun (r : VReg) (j : Nat) => r.setElem (s.fmtOf d) j (x j)) (s.vreg d))
    ((s.twosumPlan g m vd va b).final s.r.vect).reg k =
      if k = vd + 1 then left (vd + 1) fun j => (s.twoAt g va b j).val.2
      else if k = vd then left vd fun j => (s.twoAt g va b j).val.1 else s.vreg k := by
  have hne := VR.succ_ne vd
  have hfold := fun k => (Vect.foldl_putElem_pair hne (.fp g) (.fp g) (fun j => (s.twoAt g va b j).val.1)
    (fun j => (s.twoAt g va b j).val.2) (s.activeFrom m s.vstart) s.r.vect k).1
  simp only [VPlan.final, State.twosumPlan, List.foldl_map, State.settleReg, Vect.reg_setReg, hfold, hbegan, if_neg hne,
    if_neg hne.symm, if_true, hg, hg']
  split_ifs <;> rfl

/-- VTWOSUM completes with no trap enabled (R127). -/
theorem twosum_completes {m : VMod} (h : FreeToRun (.vtwosum m vd va b) s) (hk : s.kind va = .float)
    (hb : s.operandIs .float b) (hd : s.destKind vd = .float) (hg : s.fmtOf vd = .fp g)
    (hd' : s.destKind (vd + 1) = .float) (hg' : s.fmtOf (vd + 1) = .fp g) (hf : s.opfOf va (VB.reg? b) = g)
    (hnt : NoFpTraps s) (hl : LengthOk s (twosumNames vd va b) m.mask) :
    ∃ t, exec (.vtwosum m vd va b) s = .next t ∧ VectorFrame s t [vd, vd + 1] ∧ t.r.queues = s.r.queues ∧
      ElementResult s t m.mask vd s.vstart (s.vlmaxOf (twosumNames vd va b)) (fun j => (s.twoAt g va b j).val.1) ∧
      ElementResult s t m.mask (vd + 1) s.vstart (s.vlmaxOf (twosumNames vd va b)) (fun j => (s.twoAt g va b j).val.2) ∧
      t.r.vect.vflags = s.r.vect.vflags |||
        (s.gather m.mask (s.srcB va b (s.capture b)).flags fun j => (s.twoAt g va b j).flags).bits := by
  have hne := VR.succ_ne vd
  have hreg := fun k => State.reg_final_twosum (m := m.mask) (va := va) (b := b) hg hg' h.beganAt k
  have hrest : ((s.twosumPlan g m.mask vd va b).final s.r.vect).rest = s.r.vect.rest := by
    simp only [VPlan.final, State.twosumPlan, List.foldl_map]
    exact (Vect.foldl_putElem_pair hne (.fp g) (.fp g) _ _ _ _ vd).2
  have hkeep (k : VR) (hk : k ∉ [vd, vd + 1]) : ((s.twosumPlan g m.mask vd va b).final s.r.vect).reg k = s.vreg k := by
    simp only [List.mem_cons, List.not_mem_nil, or_false, not_or] at hk
    rw [hreg, if_neg hk.2, if_neg hk.1]
  obtain ⟨t, ht, hframe, hq, -, hvf, hread⟩ := plan_frame (a := s.capture b) (b := 0)
    (body := doTwosum (.vtwosum m vd va b) m.mask vd va b (s.capture b)) h rfl (doTwosum_eq _ hk hb hd hg hd' hg' hf hl)
    rfl (hnt.trapEnabled _) (fun _ _ => hnt.trapEnabled _) hrest hkeep
  refine ⟨t, ht, hframe, hq, elementResult_of_settled hl.2 ?_, elementResult_of_settled hl.2 ?_, ?_⟩
  · rw [hread, hreg, if_neg hne.symm, if_pos rfl]
  · rw [hread, hreg, if_pos rfl]
  · rw [hvf, VPlan.gathered, State.twosumPlan, List.foldl_map]
    rfl

end

theorem opFormat_self (f : FF) : opFormat f f = f := by cases f <;> rfl

/-- Settles O25: each instruction is one exact operation under `float_arith_elementwise`, VSCALB and VTWOSUM by their own. -/
theorem vectorFloats : Obligations.VectorFloats := by
  refine ⟨?_, ?_⟩
  · intro s m vd va vc b g hk hd hg hb hnt rm x y z runs one two three
    have ho := State.othersAre_two hb
    have ho1 : s.OthersAre .float none none := State.othersAre_none
    refine ⟨?_, ?_, ?_, ?_, ?_, ?_, ?_, ?_, ?_, fun hc => ?_⟩
    · exact float_arith_elementwise (o := opAdd) rfl hk hd hg ho hnt
    · exact float_arith_elementwise (o := opSub) rfl hk hd hg ho hnt
    · exact float_arith_elementwise (o := opMul) rfl hk hd hg ho hnt
    · exact float_arith_elementwise (o := opDiv) rfl hk hd hg ho hnt
    · exact float_arith_elementwise (o := opMin) rfl hk hd hg ho hnt
    · exact float_arith_elementwise (o := opMax) rfl hk hd hg ho hnt
    · exact float_arith_elementwise (o := opAbs) rfl hk hd hg ho1 hnt
    · exact float_arith_elementwise (o := opNeg) rfl hk hd hg ho1 hnt
    · exact float_arith_elementwise (o := opSqrt) rfl hk hd hg ho1 hnt
    · have ho3 := State.othersAre_three hb hc
      exact ⟨float_arith_elementwise (o := opFma) rfl hk hd hg ho3 hnt,
        float_arith_elementwise (o := opFms) rfl hk hd hg ho3 hnt,
        float_arith_elementwise (o := opFnma) rfl hk hd hg ho3 hnt⟩
  · intro s m vd va b g hk hd hg hnt x k
    refine ⟨fun hb h hl => scalb_elementwise hk hd hg hb hnt h hl, fun hb hd' hg' hf => ?_⟩
    intro n h hl
    have hf' : s.opfOf va (VB.reg? b) = g := by
      cases b with
      | vec r => exact hf
      | scal r => exact (opFormat_self _).trans hf
    exact twosum_completes h hk hb hd hg hd' hg' hf' hnt hl

end Sys2Proof.Machine
end

section
/-! Traps of vector instructions (O26): FPE at an element (R118), the checks before any element (R116), convoys (R240). -/

namespace Sys2Proof.Machine
variable {s t u : State}

/-! ### A body that traps -/

section
variable {i : Instr} {a b : Word} {body : State → M (Unit × State)} {c : Cause} {v : Word}

/-- A free instruction whose body stops with a trap: the trap is taken from where the body stopped. -/
theorem passVector_traps (h : FreeToRun i s) (hb : body s = stopTrap c v u) (hc : (c == .fabric) = false)
    (hq : u.r.vq = []) (hops : ∀ x, u.myCore.att = some x → x.ops = []) :
    ∃ t, passVector i a b body s = .next t ∧ t.r.scal.sysr.tcause = BitVec.ofNat 64 c.code ∧ t.r.scal.sysr.tepc = u.pc ∧
      t.r.scal.sysr.tval = v ∧ t.r.vect = u.r.vect ∧ ∀ n, t.reg n = u.reg n := by
  obtain ⟨hvq, hconvoy, -, hbad, -, -, -⟩ := h
  obtain ⟨cs, w, n, hnote⟩ := State.noteWrites_same (s := u)
    ((destsOf i).filter fun d => u.vreg d != s.vreg d || s.vstart < u.vstart) hops
  refine ⟨({ u with cores := cs, free := n, r := { u.r with vecWrites := w } } : State).enterTrap c v false, ?_, ?_⟩
  · unfold passVector
    simp only [hvq, hconvoy, bind, Except.bind, List.isEmpty_nil, if_true, State.guarded_clean _ _ hbad, hb, stopTrap,
      noted, hnote]
    rw [← hc]
    exact outcome_stopTrap hq
  · have hs := ({ u with cores := cs, free := n, r := { u.r with vecWrites := w } } : State).enterTrap_scal c v false
    refine ⟨congrArg (·.sysr.tcause) hs, congrArg (·.sysr.tepc) hs, congrArg (·.sysr.tval) hs, ?_, State.enterTrap_reg c v false⟩
    exact (congrArg Runner.vect (State.enterTrap_r c v false)).trans (State.endProt_frame).vect

/-- The same for a body that stops before it does anything. -/
theorem passVector_traps_at_once (h : FreeToRun i s) (hb : body s = stopTrap c v s) (hc : (c == .fabric) = false) :
    ∃ t, passVector i a b body s = .next t ∧ t.r.scal.sysr.tcause = BitVec.ofNat 64 c.code ∧ t.r.scal.sysr.tepc = s.pc ∧
      t.r.scal.sysr.tval = v ∧ t.r.vect = s.r.vect ∧ ∀ n, t.reg n = s.reg n :=
  have ⟨hvq, _, _, _, _, _, hops⟩ := h
  passVector_traps h hb hc hvq hops

end

/-! ### FPE at an element (R118) -/

theorem runItems_fpe {vt : Word} {pre post : List Item} {x : Item} (v : Vect) (fl : Flags)
    (hpre : ∀ i ∈ pre, trapEnabled vt i.flags = false) (hx : trapEnabled vt x.flags = true) :
    runItems vt none none (pre ++ x :: post) v fl =
      (pre.foldl (fun v i => i.put v) v, pre.foldl (fun fl i => fl.or i.flags) fl, .fpe x.first x.flags) := by
  induction pre generalizing v fl with
  | nil => simp only [List.nil_append, runItems, Item.beyond, Option.map_none, Option.getD_none, hx, if_true,
      Bool.false_eq_true, if_false, List.foldl_nil]
  | cons a pre ih =>
    simp only [List.cons_append, runItems, Item.beyond, Option.map_none, Option.getD_none, hpre a List.mem_cons_self,
      Bool.false_eq_true, if_false, List.foldl_cons]
    exact ih _ _ fun i hi => hpre i (List.mem_cons_of_mem _ hi)

/-- A plan of a free instruction that no queue blocks, stopped by the flags of an act: the acts before it are done, and VSTART is
where it begins. -/
theorem State.runPlan_fpe {i : Instr} {p : VPlan} {pre post : List Item} {x : Item} (h : FreeToRun i s)
    (hbl : s.blockedBy p = none) (hs : trapEnabled s.vtype p.scalar = false) (hp : p.items = pre ++ x :: post)
    (hpre : ∀ i ∈ pre, trapEnabled s.vtype i.flags = false) (hx : trapEnabled s.vtype x.flags = true) :
    ∃ u, s.runPlan i p = stopTrap .fpe (x.flags.bits.setWidth 64) u ∧ u.r.scal = s.r.scal ∧ u.r.vq = [] ∧
      (∀ a, u.myCore.att = some a → a.ops = []) ∧
      u.r.vect = { (pre.foldl (fun v i => i.put v) s.r.vect).raise
        (pre.foldl (fun fl i => fl.or i.flags) p.scalar) with vstart := x.first } := by
  obtain ⟨hvq, -, hlanes, -, hbegun, hquota, hops⟩ := h
  have hcheck : (checkedInstr i && !s.world.badLanes.isEmpty) = false := by rw [hlanes]; exact Bool.and_false _
  have hpause (t : State) (ht : t.quota = s.quota) : (if p.whole = true then none else t.pauseAt p.per) = none := by
    simp [State.pauseAt, ht, hquota]
  unfold State.runPlan
  simp only [hbl, hs, hcheck, hbegun, Option.isNone_none, Bool.and_true, Bool.false_eq_true, if_false, Option.map_none]
  generalize hw : (if checkedInstr i = true then s.setCore { s.myCore with checked := (s.myCore.checked + 1) % 8 } else s) = w
  have hwr : w.r = s.r := by rw [← hw]; split <;> rfl
  have hww : w.world = s.world := by rw [← hw]; split <;> rfl
  have hwq : w.quota = s.quota := by rw [← hw]; split <;> rfl
  have hatt : w.myCore.att = s.myCore.att := by
    rw [← hw]
    split
    · exact (congrArg Core.att (s.setCore_myCore { s.myCore with checked := (s.myCore.checked + 1) % 8 } s.myCore_id) :)
    · rfl
  have hvt : w.vtype = s.vtype := congrArg (·.vect.vtype) hwr
  rw [hpause w hwq, hvt, hp, hwr, runItems_fpe _ _ hpre hx]
  have hcure (t : State) (ht : t.world = s.world) : t.laneCured s.myCore.id = t := by
    rw [State.laneCured, ht, hlanes]; rfl
  refine ⟨((w.setVect _).raise _).setVstart x.first,
    congrArg (fun t => stopTrap .fpe _ (State.setVstart t x.first)) (hcure ((w.setVect _).raise _) hww), ?_, ?_, ?_, ?_⟩
  · exact (congrArg Runner.scal hwr :)
  · exact (congrArg Runner.vq hwr).trans hvq
  · exact fun a ha => hops a (hatt ▸ ha)
  · rfl

/-- A number in an increasing list, what comes before it and what comes after. -/
theorem eq_filter_lt_append {l : List Nat} {k : Nat} (hl : l.Pairwise (· < ·)) (hk : k ∈ l) :
    l = (l.filter fun j => decide (j < k)) ++ k :: l.filter fun j => decide (k < j) := by
  induction l with
  | nil => cases hk
  | cons a l ih =>
    obtain ⟨ha, hl⟩ := List.pairwise_cons.mp hl
    by_cases hak : a = k
    · subst hak
      have hno : (l.filter fun j => decide (j < a)) = [] :=
        List.filter_eq_nil_iff.mpr fun j hj => by simpa using (ha j hj).le
      have hall : (l.filter fun j => decide (a < j)) = l :=
        List.filter_eq_self.mpr fun j hj => by simpa using ha j hj
      simp [hno, hall]
    · have hkl : k ∈ l := (List.mem_cons.mp hk).resolve_left (Ne.symm hak)
      have hlt := ha k hkl
      rw [List.filter_cons_of_pos (by simpa using hlt), List.filter_cons_of_neg (by simpa using hlt.le), List.cons_append,
        ← ih hl hkl]

theorem State.pairwise_activeFrom (m : Mask) (start : Nat) : (s.activeFrom m start).Pairwise (· < ·) :=
  List.pairwise_lt_range.sublist (List.filter_sublist.trans (List.drop_sublist ..))

section
variable {i : Instr} {m : Mask} {n : Names} {vd : VR} {fl : Flags} {val : Nat → Flagged Nat} {a b : Word}
  {body : State → M (Unit × State)}

/-- The active elements below k, from VSTART up. -/
def State.activeBelow (s : State) (m : Mask) (k : Nat) : List Nat :=
  (s.activeFrom m s.vstart).filter (· < k)

theorem State.mem_activeBelow {j k : Nat} (hk : k < s.vl) :
    j ∈ s.activeBelow m k ↔ s.vstart ≤ j ∧ j < k ∧ s.active m j = true := by
  simp only [State.activeBelow, List.mem_filter, State.mem_activeFrom, decide_eq_true_eq]
  constructor
  · exact fun ⟨⟨⟨h1, _⟩, h3⟩, h4⟩ => ⟨h1, h4, h3⟩
  · exact fun ⟨h1, h2, h3⟩ => ⟨⟨⟨h1, h2.trans hk⟩, h3⟩, h2⟩

/-- The act of an element-wise plan on element j. -/
def State.elemItem (s : State) (vd : VR) (val : Nat → Flagged Nat) (j : Nat) : Item :=
  { first := j, past := j + 1, flags := (val j).flags, put := fun v => v.putElem vd (s.fmtOf vd) j (val j).val }

/-- An element-wise instruction stopped by the flags of its active element k (R118). -/
theorem elem_traps {k : Nat} (h : FreeToRun i s) (he : exec i s = passVector i a b body s)
    (hb : body s = s.runPlan i (s.elemPlan n m (s.vlmaxOf n) vd fl val)) (hs : trapEnabled s.vtype fl = false)
    (hlo : s.vstart ≤ k) (hhi : k < s.vl) (hk : s.active m k = true) (htrap : trapEnabled s.vtype (val k).flags = true)
    (hfirst : ∀ j, s.vstart ≤ j → j < k → s.active m j = true → trapEnabled s.vtype (val j).flags = false) :
    ∃ t, exec i s = .next t ∧ t.r.scal.sysr.tcause = 0x11 ∧ t.r.scal.sysr.tepc = s.pc ∧
      t.r.scal.sysr.tval = (val k).flags.bits.setWidth 64 ∧ t.vstart = k ∧ t.vl = s.vl ∧ (∀ n, t.reg n = s.reg n) ∧
      (∀ n, n ≠ vd → t.vreg n = s.vreg n) ∧
      t.vreg vd = (s.activeBelow m k).foldl (fun (r : VReg) (j : Nat) => r.setElem (s.fmtOf vd) j (val j).val) (s.vreg vd) ∧
      t.r.vect.vflags = s.r.vect.vflags ||| ((s.activeBelow m k).foldl (fun fl j => fl.or (val j).flags) fl).bits := by
  have hitems : (s.elemPlan n m (s.vlmaxOf n) vd fl val).items =
      (s.activeBelow m k).map (s.elemItem vd val) ++ s.elemItem vd val k ::
        ((s.activeFrom m s.vstart).filter fun j => decide (k < j)).map (s.elemItem vd val) := by
    rw [← List.map_cons, ← List.map_append, State.activeBelow,
      ← eq_filter_lt_append (State.pairwise_activeFrom m _) (State.mem_activeFrom.mpr ⟨⟨hlo, hhi⟩, hk⟩)]
    rfl
  have hpre : ∀ x ∈ (s.activeBelow m k).map (s.elemItem vd val), trapEnabled s.vtype x.flags = false := by
    intro x hx
    obtain ⟨j, hj, rfl⟩ := List.mem_map.mp hx
    obtain ⟨h1, h2, h3⟩ := (State.mem_activeBelow hhi).mp hj
    exact hfirst j h1 h2 h3
  have hfree : s.blockedBy (s.elemPlan n m (s.vlmaxOf n) vd fl val) = none := rfl
  obtain ⟨u, hrun, hscal, hvq, hops, hvect⟩ := State.runPlan_fpe h hfree hs hitems hpre htrap
  obtain ⟨t, ht, hcause, hpc, hval, hv, hreg⟩ := passVector_traps (a := a) (b := b) h (hb.trans hrun) rfl hvq hops
  have hfold := Vect.foldl_putElem vd (s.fmtOf vd) (fun j => (val j).val) (s.activeBelow m k) s.r.vect
  simp only [List.foldl_map] at hvect
  have hread (n : VR) : t.vreg n = ((s.activeBelow m k).foldl
      (fun (v : Vect) (j : Nat) => v.putElem vd (s.fmtOf vd) j (val j).val) s.r.vect).reg n :=
    (congrArg (fun v : Vect => v.reg n) (hv.trans hvect)).trans rfl
  have hrest := (hfold vd).2
  simp only [Vect.rest, Prod.mk.injEq] at hrest
  obtain ⟨hvl, -, -, hvf, -, -⟩ := hrest
  refine ⟨t, he.trans ht, hcause, hpc.trans (congrArg Scal.pc hscal), hval, congrArg Vect.vstart (hv.trans hvect),
    (congrArg Vect.vl (hv.trans hvect)).trans hvl, fun n => (hreg n).trans (congrArg (Scal.get · n) hscal),
    fun n hn => ?_, ?_, ?_⟩
  · rw [hread, (hfold n).1, if_neg hn]; rfl
  · rw [hread, (hfold vd).1, if_pos rfl]; rfl
  · exact (congrArg Vect.vflags (hv.trans hvect)).trans (congrArg (· ||| _) hvf)

end

section
variable {i : Instr} {o : Arith} {m : Mask} {vd va : VR} {b : Option VB} {vc : Option VR} {g : FF}

/-- A floating arithmetic instruction stopped at element k (R118). -/
theorem float_arith_traps {k : Nat} (he : exec i s = s.passArith i o m vd va b vc) (hk : s.kind va = .float)
    (hd : s.destKind vd = .float) (hg : s.fmtOf vd = .fp g) (ho : s.OthersAre .float b vc)
    (hs : trapEnabled s.vtype (s.fpSecond va b).flags = false) (hlo : s.vstart ≤ k) (hhi : k < s.vl)
    (hact : s.active m k = true) (htrap : trapEnabled s.vtype (s.fpResult o g va b vc k).flags = true)
    (hfirst : ∀ j, s.vstart ≤ j → j < k → s.active m j = true →
      trapEnabled s.vtype (s.fpResult o g va b vc j).flags = false)
    (h : FreeToRun i s) (hl : LengthOk s (namesOf vd va b vc) m) :
    ∃ t, exec i s = .next t ∧ t.r.scal.sysr.tcause = 0x11 ∧ t.r.scal.sysr.tepc = s.pc ∧
      t.r.scal.sysr.tval = (s.fpResult o g va b vc k).flags.bits.setWidth 64 ∧ t.vstart = k ∧ t.vl = s.vl ∧
      (∀ n, t.reg n = s.reg n) ∧ (∀ n, n ≠ vd → t.vreg n = s.vreg n) ∧
      (∀ j, (s.fmtOf vd).bitAt j + (s.fmtOf vd).width ≤ 16384 → (t.vreg vd).elem (s.fmtOf vd) j =
        if s.vstart ≤ j ∧ j < k ∧ s.active m j = true then (s.fpResult o g va b vc j).val % 2 ^ g.width
        else (s.vreg vd).elem (s.fmtOf vd) j) ∧
      t.r.vect.vflags = s.r.vect.vflags ||| ((s.activeBelow m k).foldl (fun fl j => fl.or (s.fpResult o g va b vc j).flags)
        (s.fpSecond va b).flags).bits := by
  obtain ⟨t, ht, hcause, hpc, hval, hvst, hvl, hreg, hothers, hvd, hvf⟩ :=
    elem_traps h he (doArith_float i hk hd hg ho hl) hs hlo hhi hact htrap hfirst
  refine ⟨t, ht, hcause, hpc, hval, hvst, hvl, hreg, hothers, fun j hj => ?_, hvf⟩
  have hw : (s.fmtOf vd).width = g.width := congrArg Fmt.width hg
  rw [hvd, VReg.elem_foldl_setElem _ _ _ hj, hw]
  exact if_congr (State.mem_activeBelow hhi) rfl rfl

end

/-! ### The checks before any element (R115, R116) -/

/-- The fields of the value of a TAG trap. -/
theorem tagTval_fields (td ta tb tc tm : Byte) (vlmax : Nat) (idx len : Bool) :
    let v := tagTval td ta tb tc tm vlmax idx len
    v.extractLsb' 0 8 = td ∧ v.extractLsb' 8 8 = ta ∧ v.extractLsb' 16 8 = tb ∧ v.extractLsb' 24 8 = tc ∧
      v.extractLsb' 32 8 = tm ∧ (v.extractLsb' 40 15).toNat = vlmax % 2 ^ 15 ∧ v.getLsbD 62 = idx ∧ v.getLsbD 63 = len := by
  have hidx := idx.toNat_lt
  have hlen := len.toNat_lt
  have hd := td.isLt
  have ha := ta.isLt
  have hb := tb.isLt
  have hc := tc.isLt
  have hm := tm.isLt
  have hbit (c : Bool) : decide (c.toNat % 2 = 1) = c := by cases c <;> rfl
  have hv : (tagTval td ta tb tc tm vlmax idx len).toNat = td.toNat + ta.toNat * 2 ^ 8 + tb.toNat * 2 ^ 16 +
      tc.toNat * 2 ^ 24 + tm.toNat * 2 ^ 32 + (vlmax % 2 ^ 15) * 2 ^ 40 + idx.toNat * 2 ^ 62 + len.toNat * 2 ^ 63 := by
    rw [tagTval, BitVec.toNat_ofNat]
    exact Nat.mod_eq_of_lt (by omega)
  have hfield (lo : Nat) (x : Byte) (h : (tagTval td ta tb tc tm vlmax idx len).toNat / 2 ^ lo % 2 ^ 8 = x.toNat) :
      (tagTval td ta tb tc tm vlmax idx len).extractLsb' lo 8 = x := by
    apply BitVec.eq_of_toNat_eq
    rw [BitVec.extractLsb'_toNat, Nat.shiftRight_eq_div_pow, h]
  refine ⟨hfield _ _ ?_, hfield _ _ ?_, hfield _ _ ?_, hfield _ _ ?_, hfield _ _ ?_, ?_, ?_, ?_⟩
  · rw [hv]; omega
  · rw [hv]; omega
  · rw [hv]; omega
  · rw [hv]; omega
  · rw [hv]; omega
  · rw [BitVec.extractLsb'_toNat, Nat.shiftRight_eq_div_pow, hv]; omega
  · rw [BitVec.getLsbD, Nat.testBit_eq_decide_div_mod_eq, hv]
    exact (decide_eq_decide.mpr (by omega)).trans (hbit idx)
  · rw [BitVec.getLsbD, Nat.testBit_eq_decide_div_mod_eq, hv]
    exact (decide_eq_decide.mpr (by omega)).trans (hbit len)

/-- The checks stop at the first that fails; TVAL's bit 63 is set when only VL is too great (R116, log 84). -/
theorem State.tagChecks_stops {n : Names} {m : Mask} {ok : Bool}
    (h : ¬MaskOk s m ∨ ok = false ∨ s.vlmaxOf n < s.vl) :
    ∃ len, s.tagChecks n m ok true = s.tagStop n m false len ∧ (len = true ↔ MaskOk s m ∧ ok = true) := by
  have hmask : (m.reg != 0 && (s.vregN m.reg.val).fmt != some .mask) = true ↔ ¬MaskOk s m := by
    simp [MaskOk]
  unfold State.tagChecks
  by_cases hm : MaskOk s m
  · rw [if_neg (mt hmask.mp (not_not.mpr hm))]
    cases ok with
    | false => exact ⟨false, rfl, by simp⟩
    | true =>
      have hvl : s.vlmaxOf n < s.vl := by simpa [hm] using h
      exact ⟨true, by simp [hvl], by simp [hm]⟩
  · rw [if_pos (hmask.mpr hm)]
    exact ⟨false, rfl, by simp [hm]⟩

/-- A body that begins with checks that fail. -/
theorem bind_tagStop {n : Names} {m : Mask} {idx len : Bool} {c : M (Nat × State)} (f : Nat × State → M (Unit × State))
    (h : c = s.tagStop n m idx len) :
    (c >>= f) = stopTrap .tag (tagTval (s.tagOf n.vd) (s.tagOf n.va) (s.tagOf n.vb) (s.tagOf n.vc)
      (if m.reg = 0 then 0 else (s.vregN m.reg.val).tag) (s.vlmaxOf n) idx len) s := by
  rw [h]; rfl

/-- An arithmetic instruction on two registers whose checks fail. -/
theorem arith_traps_tag {i : Instr} {o : Arith} {m : Mask} {vd va vb : VR}
    (he : exec i s = s.passArith i o m vd va (some (.vec vb)) none) (hint : o.int.isSome = true) (h : FreeToRun i s) :
    let n := namesOf vd va (some (.vec vb)) none
    let kinds := (s.kind va = .int ∨ s.kind va = .float) ∧ s.kind vb = s.kind va ∧ s.destKind vd = s.kind va
    ¬MaskOk s m ∨ ¬kinds ∨ s.vlmaxOf n < s.vl →
    ∃ t, exec i s = .next t ∧ t.r.scal.sysr.tcause = 0x06 ∧ t.r.scal.sysr.tepc = s.pc ∧ t.r.vect = s.r.vect ∧
      (∀ k, t.reg k = s.reg k) ∧
      let v := t.r.scal.sysr.tval
      v.extractLsb' 0 8 = (s.vreg vd).tag ∧ v.extractLsb' 8 8 = (s.vreg va).tag ∧
      v.extractLsb' 16 8 = (s.vreg vb).tag ∧ v.extractLsb' 24 8 = 0#8 ∧
      v.extractLsb' 32 8 = (if m.reg = 0 then 0#8 else (s.vregN m.reg.val).tag) ∧
      (v.extractLsb' 40 15).toNat = s.vlmaxOf n % 2 ^ 15 ∧ v.getLsbD 62 = false ∧
      (v.getLsbD 63 = true ↔ MaskOk s m ∧ kinds) := by
  intro n kinds hfails
  have hok : ((s.kind va == .float || (s.kind va == .int && o.int.isSome)) &&
      s.kindsAre (s.kind va) (n.va.toList ++ n.vb.toList ++ n.vc.toList) && s.destKind vd == s.kind va) = true ↔ kinds := by
    simp only [n, kinds, namesOf, VB.reg?, State.kindsAre, hint, Bool.and_eq_true, Bool.or_eq_true, beq_iff_eq,
      Option.bind_some, Option.toList_some, Option.toList_none, List.append_nil, List.cons_append, List.nil_append,
      List.all_cons, List.all_nil, Bool.and_true, true_and, and_assoc]
    rw [or_comm]
  obtain ⟨len, hstop, hlen⟩ := State.tagChecks_stops (s := s) (n := n) (m := m) (hfails.imp_right
    (Or.imp_left fun hn => Bool.eq_false_iff.mpr (mt hok.mp hn)))
  have hbody : doArith i o m vd va (some (.vec vb)) none (s.captured (some (.vec vb))) s = _ := bind_tagStop _ hstop
  obtain ⟨t, ht, hcause, hpc, hval, hvect, hreg⟩ :=
    passVector_traps_at_once (a := s.captured (some (.vec vb))) (b := 0) h hbody rfl
  obtain ⟨h0, h8, h16, h24, h32, h40, h62, h63⟩ := tagTval_fields (s.tagOf n.vd) (s.tagOf n.va) (s.tagOf n.vb)
    (s.tagOf n.vc) (if m.reg = 0 then 0 else (s.vregN m.reg.val).tag) (s.vlmaxOf n) false len
  refine ⟨t, he.trans ht, hcause, hpc, hvect, hreg, ?_⟩
  rw [hval]
  exact ⟨h0, h8, h16, h24, h32, h40, h62, (Bool.eq_iff_iff.mp h63).trans (hlen.trans (and_congr_right fun _ => hok))⟩

/-! ### Convoys (R240) -/

section
variable {i : Instr} {a b : Word} {body : State → M (Unit × State)}

/-- A convoy that breaks a rule traps before its first member acts. -/
theorem passVector_convoy {pc : Word} (hq : s.r.vq = []) (hc : s.convoyCheck i = .error (.trap .convoy pc, s)) :
    passVector i a b body s = .next (s.enterTrap .convoy pc false) := by
  unfold passVector
  simp only [hq, hc, bind, Except.bind, List.isEmpty_nil, if_true]
  exact outcome_stopTrap hq

/-- A convoy whose second member uses no unit, or a unit of the first, breaks a rule. -/
theorem State.convoyCheck_second {j : Instr} (hi : cvOf i = true) (hm : s.memberAt (s.pc + 8) = .ok (some j, s))
    (hu : unitsOf j = [] ∨ ∃ u ∈ unitsOf j, u ∈ unitsOf i) :
    s.convoyCheck i = .error (.trap .convoy (s.pc + 8), s) := by
  have hbreaks : ((unitsOf j).isEmpty || (unitsOf j).any (unitsOf i).contains) = true := by
    rcases hu with hu | ⟨u, hj, hi⟩
    · simp [hu]
    · simp only [Bool.or_eq_true, List.any_eq_true, List.contains_iff_mem]
      exact Or.inr ⟨u, hj, hi⟩
  rw [State.convoyCheck, if_pos hi, State.convoyLoop, hm]
  simp only [bind, Except.bind, hbreaks, if_true]
  rfl

theorem exec_convoy (he : exec i s = passVector i a b body s) (hq : s.r.vq = []) :
    (∀ j, cvOf i = true → s.memberAt (s.pc + 8) = .ok (some j, s) →
      (unitsOf j = [] ∨ ∃ u ∈ unitsOf j, u ∈ unitsOf i) →
      exec i s = .next (s.enterTrap .convoy (s.pc + 8) false)) ∧
    ∀ pc, s.convoyCheck i = .error (.trap .convoy pc, s) → exec i s = .next (s.enterTrap .convoy pc false) :=
  ⟨fun _ hi hm hu => he.trans (passVector_convoy hq (State.convoyCheck_second hi hm hu)),
    fun _ hc => he.trans (passVector_convoy hq hc)⟩

end

/-- Settles O26: an element's trap by `float_arith_traps`, the checks by `arith_traps_tag`, convoys by `exec_convoy`. -/
theorem vectorTraps : Obligations.VectorTraps := by
  refine ⟨?_, ?_⟩
  · intro s m vd va b g k hk hd hg hb x y hy hlo hhi hact stops
    have ho := State.othersAre_two hb
    have hstops {i : Instr} (o : Arith) (he : exec i s = s.passArith i o m.mask vd va (some b) none) :
        stops i fun j => o.fp s.modes (x j) (y.val j) (s.fpThird none j) := by
      intro htrap hfirst h hl
      exact float_arith_traps (b := some b) he hk hd hg ho hy hlo hhi hact htrap hfirst h hl
    exact ⟨hstops opAdd rfl, hstops opSub rfl, hstops opMul rfl, hstops opDiv rfl⟩
  · intro s m vd va vb n kinds stops
    have hstops {i : Instr} (o : Arith) (hint : o.int.isSome = true)
        (he : exec i s = s.passArith i o m.mask vd va (some (.vec vb)) none) : stops i :=
      ⟨exec_convoy he, arith_traps_tag he hint⟩
    exact ⟨hstops opAdd rfl rfl, hstops opSub rfl rfl, hstops opMul rfl rfl, hstops opDiv rfl rfl, hstops opMin rfl rfl,
      hstops opMax rfl rfl⟩

end Sys2Proof.Machine
end

section
/-! Conversions (O29): element by element (R48), block by block into a block-scaled register (R125), with the sidecar entries
of registers (R15). -/

namespace Sys2Proof.Machine
variable {s t : State}

/-! ### Sidecar entries (R15) -/

@[simp] theorem VReg.setEntry_tag (v : VReg) (k x : Nat) : (v.setEntry k x).tag = v.tag := rfl
@[simp] theorem VReg.setEntry_data (v : VReg) (k x : Nat) : (v.setEntry k x).data = v.data := rfl
@[simp] theorem VReg.setEntry_bs (v : VReg) (k x : Nat) : (v.setEntry k x).bs = v.bs := rfl
@[simp] theorem VReg.setEntry_elem (v : VReg) (k x : Nat) (f : Fmt) (j : Nat) : (v.setEntry k x).elem f j = v.elem f j := rfl
@[simp] theorem VReg.setElem_entry (v : VReg) (f : Fmt) (i x k : Nat) : (v.setElem f i x).entry k = v.entry k := rfl
@[simp] theorem VReg.setElem_bs (v : VReg) (f : Fmt) (i x : Nat) : (v.setElem f i x).bs = v.bs := rfl

theorem VReg.entry_lt (v : VReg) (k : Nat) : v.entry k < 2 ^ 16 := Nat.mod_lt _ (by decide)

theorem VReg.elem_lt (v : VReg) (f : Fmt) (j : Nat) : v.elem f j < 2 ^ f.width := Nat.mod_lt _ (by positivity)

/-- A sidecar entry written; the others are unchanged. -/
theorem VReg.entry_setEntry (v : VReg) (k x : Nat) {j : Nat} (hj : j < 128) :
    (v.setEntry k x).entry j = if j = k then (if v.bs then x % 256 else x) % 2 ^ 16 else v.entry j := by
  by_cases hjk : j = k
  · subst hjk
    rw [if_pos rfl]
    exact takeBits_putBits _ _ _ _ (by omega)
  · rw [if_neg hjk]
    exact takeBits_putBits_of_apart _ _ _ _ _ _ (by omega)

/-- A register settled from what an element-wise act has left of it (R72, R117). -/
theorem elementsAre_of_settled {m : Mask} {d : VR} {start vlmax : Nat} {val : Nat → Nat} {x : VReg} (hv : s.vl ≤ vlmax)
    (h : t.vreg d = settle s.vtype (s.fmtOf d) (fun i => s.active m i) start s.vl vlmax x)
    (hx : ∀ j, (s.fmtOf d).bitAt j + (s.fmtOf d).width ≤ 16384 → x.elem (s.fmtOf d) j =
      if j ∈ s.activeFrom m start then val j % 2 ^ (s.fmtOf d).width else (s.vreg d).elem (s.fmtOf d) j) :
    ElementsAre s t m d start vlmax val := by
  intro j hj
  rw [h, elem_settle _ _ _ _ _ _ _ _ hj, hx j hj]
  simp only [State.mem_activeFrom]
  by_cases hvl : j < s.vl
  · have hmax : j < vlmax := by omega
    by_cases hst : start ≤ j
    · cases s.active m j <;> simp [hvl, hmax, hst, Nat.not_lt.mpr hst]
    · simp [hvl, hmax, hst, Nat.lt_of_not_le hst]
  · simp [hvl]

/-- Acts that each change one register, one after the other. -/
theorem Vect.foldl_put {α : Type} {put : α → Vect → Vect} {g : α → VReg → VReg} {d : VR}
    (hput : ∀ a v k, (put a v).reg k = if k = d then g a (v.reg d) else v.reg k)
    (hrest : ∀ a v, (put a v).rest = v.rest) (l : List α) (v : Vect) (k : VR) :
    (l.foldl (fun v a => put a v) v).reg k = (if k = d then l.foldl (fun x a => g a x) (v.reg d) else v.reg k) ∧
      (l.foldl (fun v a => put a v) v).rest = v.rest := by
  induction l generalizing v with
  | nil =>
    refine ⟨?_, rfl⟩
    split
    · next h => rw [h]; rfl
    · rfl
  | cons a l ih =>
    obtain ⟨ihreg, ihrest⟩ := ih (put a v)
    refine ⟨?_, ihrest.trans (hrest a v)⟩
    rw [List.foldl_cons, ihreg, hput, hput, if_pos rfl, List.foldl_cons]
    split <;> rfl

/-! ### Element by element -/

section
variable {i : Instr} {m : Mask} {vd va : VR} {vb : Option VR} {a b : Word}

/-- The names of a conversion. -/
def cvtNames (vd va : VR) (vb : Option VR) : Names := { vd := some vd, va := some va, vb := vb }

/-- The random bits of element j, where a conversion has them. -/
def State.cvtBits (s : State) (vb : Option VR) (j : Nat) : Option Nat :=
  vb.map fun r => (s.vreg r).elem (s.fmtOf r) j % 2 ^ 16

/-- Element j of a conversion's source as an exact value. -/
def State.cvtX (s : State) (va : VR) (j : Nat) : XVal :=
  if s.kind va = .int then .ofInt ((s.vreg va).index j) else (s.vreg va).src s.modes.daz j

theorem State.cvtVal_int (h : s.kind va = .int) (j : Nat) : s.cvtVal va j = .int ((s.vreg va).index j) := by
  rw [State.cvtVal, h]

theorem State.cvtVal_fp (h : s.kind va ≠ .int) (j : Nat) : s.cvtVal va j = .fp ((s.vreg va).src s.modes.daz j) := by
  rw [State.cvtVal]
  split
  · contradiction
  · rfl

theorem State.cvtVal_x (va : VR) (j : Nat) : (s.cvtVal va j).x = s.cvtX va j := by
  unfold State.cvtX
  by_cases h : s.kind va = .int
  · rw [State.cvtVal_int h, if_pos h]; rfl
  · rw [State.cvtVal_fp h, if_neg h]; rfl

/-- The kinds a conversion takes (R121, R36): no untagged or mask source; with random bits no grouped one, and a floating
destination. -/
def State.CvtKinds (s : State) (vd va : VR) (vb : Option VR) : Prop :=
  (s.kind va = .int ∨ s.kind va = .float ∨ s.kind va = .grouped ∧ vb = none) ∧
    (s.kind vd = .float ∨ s.kind vd = .int ∧ vb = none) ∧ ∀ r, vb = some r → s.kind r = .int

/-- The kinds as the checks find them. -/
def State.cvtOk (s : State) (vd va : VR) (vb : Option VR) : Bool :=
  (s.kind va == .int || s.kind va == .float || (s.kind va == .grouped && vb.isNone)) &&
    (s.kind vd == .float || (s.kind vd == .int && vb.isNone)) && (vb.map fun r => s.kind r == .int).getD true

theorem State.cvtOk_iff : s.cvtOk vd va vb = true ↔ s.CvtKinds vd va vb := by
  unfold State.cvtOk State.CvtKinds
  cases vb <;> simp [or_assoc, and_assoc]

theorem doCvt_elements (i : Instr) (hk : s.CvtKinds vd va vb) (hbs : (s.vreg vd).bs = false)
    (hl : LengthOk s (cvtNames vd va vb) m) :
    doCvt i m vd va vb s = s.runPlan i (s.elemPlan (cvtNames vd va vb) m (s.vlmaxOf (cvtNames vd va vb)) vd {} fun j =>
      cvtElem s.modes (s.fmtOf vd) (s.cvtBits vb j) (s.cvtVal va j)) := by
  have hok := State.cvtOk_iff.mpr hk
  have hck := State.tagChecks_ok hl.1 fun _ : true = true => hl.2
  unfold State.cvtOk at hok
  unfold cvtNames at hck
  rw [doCvt]
  simp only [hok, hck, hbs, bind, Except.bind, Bool.false_eq_true, if_false]
  rfl

/-- A conversion into a register that is not block-scaled (R48). -/
theorem cvt_elementwise {val : Nat → Flagged Nat} (he : exec i s = passVector i a b (doCvt i m vd va vb) s)
    (hk : s.CvtKinds vd va vb) (hbs : (s.vreg vd).bs = false) (hnt : NoFpTraps s)
    (hval : ∀ j, cvtElem s.modes (s.fmtOf vd) (s.cvtBits vb j) (s.cvtVal va j) = val j) (h : FreeToRun i s)
    (hl : LengthOk s (cvtNames vd va vb) m) : Elementwise i s m vd (s.vlmaxOf (cvtNames vd va vb)) {} val := by
  obtain rfl := funext hval
  exact elementwise_of_noFpTraps hnt h hl he (doCvt_elements i hk hbs hl)

theorem cvtElem_int {md : Modes} {d : Fmt} {sg : Bool} (hd : d.intSigned = some sg) (x : Int) :
    cvtElem md d none (.int x) = { val := bitsIn d.width (fitted md.sat (decide (d.intSigned = some true)) d.width x) } := by
  rw [← reduceInt_getD_intSigned]
  cases d <;> cases hd <;> rfl

theorem cvtElem_floatToInt {md : Modes} {d : Fmt} {sg : Bool} (hd : d.intSigned = some sg) (x : XVal) :
    cvtElem md d none (.fp x) = floatToInt md.rm (decide (d.intSigned = some true)) d.width x := by
  cases d <;> cases hd <;> rfl

end

/-! ### Block by block -/

section
variable {m : Mask} {vd va : VR} {vb : Option VR}

/-- The active elements of block k. -/
def State.blockActs (s : State) (m : Mask) (k : Nat) : List Nat :=
  (List.range s.vl).filter fun j => j / 32 = k && s.active m j

theorem State.mem_blockActs {j k : Nat} : j ∈ s.blockActs m k ↔ j / 32 = k ∧ j < s.vl ∧ s.active m j = true := by
  simp only [State.blockActs, List.mem_filter, List.mem_range, Bool.and_eq_true, decide_eq_true_eq]
  tauto

theorem State.pairwise_blockActs (m : Mask) (k : Nat) : (s.blockActs m k).Pairwise (· < ·) :=
  List.pairwise_lt_range.sublist List.filter_sublist

theorem State.activeFrom_block (m : Mask) (k : Nat) :
    ((s.activeFrom m (32 * k)).filter fun j => j < 32 * k + 32) = s.blockActs m k := by
  refine ((State.pairwise_activeFrom m _).sublist List.filter_sublist).eq_of_mem_iff (State.pairwise_blockActs m k)
    fun j => ?_
  simp only [List.mem_filter, State.mem_activeFrom, State.mem_blockActs, decide_eq_true_eq]
  constructor
  · rintro ⟨⟨⟨h1, h2⟩, h3⟩, h4⟩
    exact ⟨by omega, h2, h3⟩
  · rintro ⟨rfl, h2, h3⟩
    exact ⟨⟨⟨by omega, h2⟩, h3⟩, by omega⟩

/-- The blocks a conversion goes through. -/
def State.blocks (s : State) : List Nat := (List.range ((s.vl + 31) / 32)).drop (s.vstart / 32)

theorem State.mem_blocks {k : Nat} : k ∈ s.blocks ↔ s.vstart / 32 ≤ k ∧ k < (s.vl + 31) / 32 := by
  rw [State.blocks, List.range_eq_range', List.drop_range', List.mem_range'_1]
  omega

/-- From the start of a block, the active elements are those of the blocks one after the other. -/
theorem State.flatMap_blockActs (m : Mask) (hb : s.vstart % 32 = 0) :
    s.blocks.flatMap (s.blockActs m) = s.activeFrom m s.vstart := by
  have hsorted : (s.blocks.flatMap (s.blockActs m)).Pairwise (· < ·) := by
    refine List.pairwise_flatMap.mpr ⟨fun k _ => State.pairwise_blockActs m k, ?_⟩
    refine (List.pairwise_lt_range.sublist (List.drop_sublist ..)).imp fun {k k'} hk x hx y hy => ?_
    have hx := (State.mem_blockActs.mp hx).1
    have hy := (State.mem_blockActs.mp hy).1
    omega
  refine hsorted.eq_of_mem_iff (State.pairwise_activeFrom m _) fun j => ?_
  simp only [List.mem_flatMap, State.mem_blocks, State.mem_blockActs, State.mem_activeFrom]
  constructor
  · rintro ⟨k, ⟨h1, -⟩, rfl, h3, h4⟩
    exact ⟨⟨by omega, h3⟩, h4⟩
  · rintro ⟨⟨h1, h2⟩, h3⟩
    exact ⟨j / 32, ⟨by omega, by omega⟩, rfl, h2, h3⟩

/-- The new scale of block k (R48). -/
def State.blockE (s : State) (m : Mask) (vd va : VR) (k : Nat) : Nat :=
  blockScale (s.fmtOf vd) ((s.blockActs m k).map (s.cvtX va))

theorem blockScale_le (d : Fmt) (xs : List XVal) : blockScale d xs ≤ 254 := by
  unfold blockScale
  generalize ((xs.filter XVal.isFinNonzero).map XVal.lead).max? = top
  cases top with
  | none => exact (by decide : 127 ≤ 254)
  | some l => dsimp only; omega

/-- Element j, divided by its block's new scale and rounded (R48, R42). -/
def State.blockVal (s : State) (m : Mask) (vd va : VR) (vb : Option VR) (j : Nat) : Flagged Nat :=
  blockElem s.modes (s.fmtOf vd) (s.cvtBits vb j) ((s.cvtX va j).scale (127 - (s.blockE m vd va (j / 32) : Int)))

/-- The elements of block k as the conversion computes them. -/
theorem State.map_blockVal (vb : Option VR) (k : Nat) :
    (((s.blockActs m k).map fun j => (j, (s.cvtVal va j).x)).map fun jx =>
      (jx.1, blockElem s.modes (s.fmtOf vd) (s.cvtBits vb jx.1)
        (jx.2.scale (127 - ((blockScale (s.fmtOf vd)
          (((s.blockActs m k).map fun j => (j, (s.cvtVal va j).x)).map (·.2)) : Nat) : Int))))) =
      (s.blockActs m k).map fun j => (j, s.blockVal m vd va vb j) := by
  simp only [List.map_map, State.cvtVal_x]
  refine List.map_congr_left fun j hj => ?_
  simp only [Function.comp_apply, State.blockVal, State.blockE, (State.mem_blockActs.mp hj).1]
  rfl

/-- Block k converted. -/
def State.putBlock (s : State) (m : Mask) (vd va : VR) (vb : Option VR) (k : Nat) (x : VReg) : VReg :=
  if (s.blockActs m k).isEmpty then x
  else (s.blockActs m k).foldl (fun (x : VReg) (j : Nat) => x.setElem (s.fmtOf vd) j (s.blockVal m vd va vb j).val)
    (x.setEntry k (s.blockE m vd va k))

theorem State.blockItem_put (vb : Option VR) (k : Nat) (v : Vect) (d : VR) :
    ((s.blockItem m vd va (s.cvtBits vb) k).put v).reg d =
      if d = vd then s.putBlock m vd va vb k (v.reg vd) else v.reg d := by
  have hE : blockScale (s.fmtOf vd) (((s.blockActs m k).map fun j => (j, (s.cvtVal va j).x)).map (·.2)) =
      s.blockE m vd va k := by
    simp only [List.map_map, State.cvtVal_x]
    rfl
  have hmap := State.map_blockVal (s := s) (m := m) (vd := vd) (va := va) vb k
  rw [hE] at hmap
  simp only [State.blockItem, State.activeFrom_block, hE, hmap, List.foldl_map, State.putBlock]
  split
  · next h => split <;> simp_all
  · exact Vect.reg_setReg ..

theorem State.blockItem_rest (vb : Option VR) (k : Nat) (v : Vect) :
    ((s.blockItem m vd va (s.cvtBits vb) k).put v).rest = v.rest := by
  simp only [State.blockItem]
  split <;> rfl

theorem Flags.or_assoc (a b c : Flags) : (a.or b).or c = a.or (b.or c) := by
  simp only [Flags.or, Bool.or_assoc]

theorem Flags.or_none (a : Flags) : a.or {} = a := by
  simp only [Flags.or, Bool.or_false]

/-- Flags gathered onto others. -/
theorem Flags.foldl_or {α : Type} (g : α → Flags) (l : List α) (a b : Flags) :
    l.foldl (fun fl x => fl.or (g x)) (a.or b) = a.or (l.foldl (fun fl x => fl.or (g x)) b) := by
  induction l generalizing b with
  | nil => rfl
  | cons x l ih => rw [List.foldl_cons, Flags.or_assoc, ih, List.foldl_cons]

/-- The flags of block k, with no trap enabled. -/
theorem State.blockFlags_eq (hnt : NoFpTraps s) (k : Nat) :
    s.blockFlags m vd va (s.cvtBits vb) k =
      (s.blockActs m k).foldl (fun fl j => fl.or (s.blockVal m vd va vb j).flags) {} := by
  have hmap := congrArg (List.map fun y : Nat × Flagged Nat => y.2.flags)
    (State.map_blockVal (s := s) (m := m) (vd := vd) (va := va) vb k)
  have hnone (l : List Flags) : (l.find? fun f => trapEnabled s.vtype f) = none :=
    List.find?_eq_none.mpr fun f _ => Bool.eq_false_iff.mp (hnt.trapEnabled f)
  simp only [State.blockFlags, State.activeFrom_block, hnone, Option.getD_none]
  refine (congrArg (List.foldl Flags.or {}) (List.map_map.symm.trans hmap)).trans ?_
  rw [List.map_map, List.foldl_map]
  rfl

/-- The flags of the blocks are those of the active elements. -/
theorem State.foldl_blockFlags (hb : s.vstart % 32 = 0) (hnt : NoFpTraps s) :
    s.blocks.foldl (fun fl k => fl.or (s.blockFlags m vd va (s.cvtBits vb) k)) {} =
      s.gather m {} fun j => (s.blockVal m vd va vb j).flags := by
  have hstep (fl : Flags) (k : Nat) : fl.or (s.blockFlags m vd va (s.cvtBits vb) k) =
      (s.blockActs m k).foldl (fun fl j => fl.or (s.blockVal m vd va vb j).flags) fl := by
    rw [State.blockFlags_eq hnt, ← Flags.foldl_or, Flags.or_none]
  simp only [hstep]
  rw [State.gather, ← State.flatMap_blockActs m hb, List.foldl_flatMap]

/-! What the blocks leave in the register: elements, entries and tag. -/

theorem State.putBlock_tag (k : Nat) (x : VReg) : (s.putBlock m vd va vb k x).tag = x.tag := by
  unfold State.putBlock
  split
  · rfl
  · exact VReg.foldl_keeps VReg.tag _ (VReg.setElem_tag · _ · _) _ _

theorem State.putBlock_elem (k : Nat) (x : VReg) {j : Nat} (hj : (s.fmtOf vd).bitAt j + (s.fmtOf vd).width ≤ 16384) :
    (s.putBlock m vd va vb k x).elem (s.fmtOf vd) j =
      if j ∈ s.blockActs m k then (s.blockVal m vd va vb j).val % 2 ^ (s.fmtOf vd).width else x.elem (s.fmtOf vd) j := by
  unfold State.putBlock
  split
  · next h => rw [List.isEmpty_iff.mp h, if_neg List.not_mem_nil]
  · rw [VReg.elem_foldl_setElem _ _ _ hj, VReg.setEntry_elem]

theorem State.putBlock_entry (k : Nat) (x : VReg) {j : Nat} (hj : j < 128) :
    (s.putBlock m vd va vb k x).entry j =
      if j = k ∧ s.blockActs m k ≠ [] then s.blockE m vd va k else x.entry j := by
  have hle : s.blockE m vd va k ≤ 254 := blockScale_le ..
  unfold State.putBlock
  split
  · next h => rw [if_neg fun hn => hn.2 (List.isEmpty_iff.mp h)]
  · next h =>
    rw [VReg.foldl_keeps (fun v => v.entry j) (fun (x : VReg) (i : Nat) => x.setElem (s.fmtOf vd) i _) (fun _ _ => rfl),
      VReg.entry_setEntry _ _ _ hj]
    have hne : s.blockActs m k ≠ [] := fun hn => h (List.isEmpty_iff.mpr hn)
    simp only [hne, ne_eq, not_false_eq_true, and_true]
    congr 1
    split <;> omega

/-- Some blocks converted one after the other. -/
def State.putBlocks (s : State) (m : Mask) (vd va : VR) (vb : Option VR) (ks : List Nat) (x : VReg) : VReg :=
  ks.foldl (fun x k => s.putBlock m vd va vb k x) x

theorem State.putBlocks_tag (ks : List Nat) (x : VReg) : (s.putBlocks m vd va vb ks x).tag = x.tag :=
  VReg.foldl_keeps VReg.tag _ (fun _ _ => State.putBlock_tag ..) _ _

theorem State.putBlocks_elem (ks : List Nat) (x : VReg) {j : Nat} (hj : (s.fmtOf vd).bitAt j + (s.fmtOf vd).width ≤ 16384) :
    (s.putBlocks m vd va vb ks x).elem (s.fmtOf vd) j =
      if j ∈ ks.flatMap (s.blockActs m) then (s.blockVal m vd va vb j).val % 2 ^ (s.fmtOf vd).width
      else x.elem (s.fmtOf vd) j := by
  unfold State.putBlocks
  induction ks generalizing x with
  | nil => simp
  | cons k ks ih =>
    rw [List.foldl_cons, ih, State.putBlock_elem _ _ hj, List.flatMap_cons]
    by_cases h : j ∈ ks.flatMap (s.blockActs m) <;> by_cases h' : j ∈ s.blockActs m k <;> simp [h, h']

theorem State.putBlocks_entry (ks : List Nat) (x : VReg) {j : Nat} (hj : j < 128) :
    (s.putBlocks m vd va vb ks x).entry j =
      if j ∈ ks ∧ s.blockActs m j ≠ [] then s.blockE m vd va j else x.entry j := by
  unfold State.putBlocks
  induction ks generalizing x with
  | nil => simp
  | cons k ks ih =>
    rw [List.foldl_cons, ih, State.putBlock_entry _ _ hj]
    by_cases h : j = k
    · subst h
      by_cases h' : s.blockActs m j = [] <;> simp [h']
    · simp [h]

/-- What a conversion into a block-scaled register does once its checks have passed. -/
def State.blockPlan (s : State) (m : Mask) (vd va : VR) (vb : Option VR) : VPlan :=
  { per := s.groupOf (cvtNames vd va vb), dests := [vd]
    done := s.settleReg m s.beganAt (s.vlmaxOf (cvtNames vd va vb)) vd
    items := s.blocks.map fun k =>
      { s.blockItem m vd va (s.cvtBits vb) k with flags := s.blockFlags m vd va (s.cvtBits vb) k } }

theorem doCvt_blocks (i : Instr) (hk : s.CvtKinds vd va vb) (hbs : (s.vreg vd).bs = true) (hb : s.vstart % 32 = 0)
    (hl : LengthOk s (cvtNames vd va vb) m) : doCvt i m vd va vb s = s.runPlan i (s.blockPlan m vd va vb) := by
  have hok := State.cvtOk_iff.mpr hk
  have hck := State.tagChecks_ok hl.1 fun _ : true = true => hl.2
  unfold State.cvtOk at hok
  unfold cvtNames at hck
  rw [doCvt]
  simp only [hok, hck, hbs, hb, bind, Except.bind, if_true, bne_self_eq_false, Bool.false_eq_true, if_false]
  rfl

theorem State.foldl_blockItems (ks : List Nat) (v : Vect) (d : VR) :
    (ks.foldl (fun v k => (s.blockItem m vd va (s.cvtBits vb) k).put v) v).reg d =
      (if d = vd then s.putBlocks m vd va vb ks (v.reg vd) else v.reg d) ∧
    (ks.foldl (fun v k => (s.blockItem m vd va (s.cvtBits vb) k).put v) v).rest = v.rest :=
  Vect.foldl_put (State.blockItem_put vb) (State.blockItem_rest vb) ks v d

/-- A conversion into a block-scaled register (R125, R48). -/
theorem cvt_blocks_completes {i : Instr} {a b : Word} (he : exec i s = passVector i a b (doCvt i m vd va vb) s)
    (hk : s.CvtKinds vd va vb) (hbs : (s.vreg vd).bs = true) (hb : s.vstart % 32 = 0) (hnt : NoFpTraps s)
    (h : FreeToRun i s) (hl : LengthOk s (cvtNames vd va vb) m) :
    ∃ t, exec i s = .next t ∧ VectorFrame s t [vd] ∧ t.r.queues = s.r.queues ∧ (t.vreg vd).tag = (s.vreg vd).tag ∧
      ElementsAre s t m vd s.vstart (s.vlmaxOf (cvtNames vd va vb)) (fun j => (s.blockVal m vd va vb j).val) ∧
      (∀ k, k < 128 → (t.vreg vd).entry k =
        if s.vstart / 32 ≤ k ∧ s.blockActs m k ≠ [] then s.blockE m vd va k else (s.vreg vd).entry k) ∧
      t.r.vect.vflags = s.r.vect.vflags ||| (s.gather m {} fun j => (s.blockVal m vd va vb j).flags).bits := by
  have hfinal (d : VR) : ((s.blockPlan m vd va vb).final s.r.vect).reg d =
      if d = vd then settle s.vtype (s.fmtOf vd) (fun i => s.active m i) s.vstart s.vl (s.vlmaxOf (cvtNames vd va vb))
        (s.putBlocks m vd va vb s.blocks (s.vreg vd)) else s.vreg d := by
    simp only [VPlan.final, State.blockPlan, List.foldl_map, State.settleReg, Vect.reg_setReg,
      (State.foldl_blockItems ..).1, if_true, h.beganAt]
    split <;> rfl
  have hrest : ((s.blockPlan m vd va vb).final s.r.vect).rest = s.r.vect.rest := by
    simp only [VPlan.final, State.blockPlan, List.foldl_map]
    exact (State.foldl_blockItems _ _ vd).2
  obtain ⟨t, ht, hframe, hq, -, hvf, hread⟩ := plan_frame (ds := [vd]) h he (doCvt_blocks i hk hbs hb hl) rfl (hnt.trapEnabled _)
    (fun _ _ => hnt.trapEnabled _) hrest fun d hd => (hfinal d).trans (if_neg (by simpa using hd))
  have hvd := (hread vd).trans ((hfinal vd).trans (if_pos rfl))
  refine ⟨t, ht, hframe, hq, ?_, elementsAre_of_settled hl.2 hvd fun j hj => ?_, fun k hk => ?_, ?_⟩
  · rw [hvd, settle_tag, State.putBlocks_tag]
  · rw [State.putBlocks_elem _ _ hj, State.flatMap_blockActs m hb]
  · have hside : (t.vreg vd).entry k = (s.putBlocks m vd va vb s.blocks (s.vreg vd)).entry k := by
      rw [hvd, VReg.entry, settle_side]; rfl
    rw [hside, State.putBlocks_entry _ _ hk]
    refine if_congr ⟨fun ⟨h1, h2⟩ => ⟨(State.mem_blocks.mp h1).1, h2⟩, fun ⟨h1, h2⟩ => ⟨?_, h2⟩⟩ rfl rfl
    obtain ⟨j, hj⟩ := List.exists_mem_of_ne_nil _ h2
    obtain ⟨rfl, hj, -⟩ := State.mem_blockActs.mp hj
    exact State.mem_blocks.mpr ⟨h1, by omega⟩
  · rw [hvf, VPlan.gathered, State.blockPlan, List.foldl_map]
    exact congrArg (fun fl : Flags => s.r.vect.vflags ||| fl.bits) (State.foldl_blockFlags hb hnt)

end

/-! ### Kinds a conversion refuses -/

/-- A conversion of kinds it does not take traps TAG (R121, R36). -/
theorem cvt_traps {i : Instr} {a b : Word} {m : Mask} {vd va : VR} {vb : Option VR}
    (he : exec i s = passVector i a b (doCvt i m vd va vb) s) (hk : ¬s.CvtKinds vd va vb) (h : FreeToRun i s) :
    ∃ t, exec i s = .next t ∧ t.r.scal.sysr.tcause = 0x06 ∧ t.r.scal.sysr.tepc = s.pc ∧ t.r.vect = s.r.vect ∧
      ∀ n, t.reg n = s.reg n := by
  have hok : s.cvtOk vd va vb = false := Bool.eq_false_iff.mpr (mt State.cvtOk_iff.mp hk)
  obtain ⟨len, hstop, -⟩ := State.tagChecks_stops (s := s) (n := cvtNames vd va vb) (m := m) (Or.inr (Or.inl hok))
  have hbody : doCvt i m vd va vb s = _ := bind_tagStop _ hstop
  obtain ⟨t, ht, hcause, hpc, -, hvect, hreg⟩ := passVector_traps_at_once (a := a) (b := b) h hbody rfl
  exact ⟨t, he.trans ht, hcause, hpc, hvect, hreg⟩

theorem State.kind_float_of_fmtOf {vd : VR} {g : FF} (h : s.fmtOf vd = .fp g) : s.kind vd = .float := by
  unfold State.fmtOf at h
  unfold State.kind VReg.kind
  cases hf : (s.vreg vd).fmt with
  | none => simp [hf] at h
  | some d =>
    rw [hf, Option.getD_some] at h
    rw [h]

/-- What is neither untagged nor a mask is of integers, of floating numbers or grouped. -/
theorem TagKind.convertible {k : TagKind} (h : k ≠ .none) (h' : k ≠ .mask) : k = .int ∨ k = .float ∨ k = .grouped := by
  cases k <;> simp_all

/-- Settles O29: by the destination, block-scaled or not, and the kinds that are refused. -/
theorem vectorConversions : Obligations.VectorConversions := by
  refine ⟨⟨?_, ?_⟩, ?_⟩
  · intro s m vd va vb hnone hmask hbs hnt md x runs
    have hsrc := TagKind.convertible hnone hmask
    have hX (j : Nat) : (s.cvtVal va j).x = x j := s.cvtVal_x va j
    refine ⟨fun g hg => ?_, fun hd => ?_⟩
    · have hd := State.kind_float_of_fmtOf hg
      refine ⟨?_, fun hgr hb => ?_⟩
      · refine cvt_elementwise rfl ⟨hsrc.imp_right (Or.imp_right fun h => ⟨h, rfl⟩), Or.inl hd, nofun⟩ hbs hnt fun j => ?_
        rw [hg, ← hX]
        rfl
      · refine cvt_elementwise rfl ⟨hsrc.imp_right (Or.imp_right fun h => absurd h hgr), Or.inl hd,
          fun r hr => Option.some.inj hr ▸ hb⟩ hbs hnt fun j => ?_
        rw [hg, ← hX]
        rfl
    · intro w sg
      obtain ⟨-, -, sg', hsg⟩ := State.kind_int hd
      have hkinds : s.CvtKinds vd va none := ⟨hsrc.imp_right (Or.imp_right fun h => ⟨h, rfl⟩), Or.inr ⟨hd, rfl⟩, nofun⟩
      refine ⟨fun hk => ?_, fun hk => ?_⟩
      · refine cvt_elementwise rfl hkinds hbs hnt fun j => ?_
        rw [State.cvtVal_int hk]
        exact cvtElem_int hsg _
      · refine cvt_elementwise rfl hkinds hbs hnt fun j => ?_
        rw [← hX, State.cvtVal_fp hk]
        exact cvtElem_floatToInt hsg _
  · intro s m vd va vb hnone hmask hbs hd hb hnt md x act e runs
    have hsrc := TagKind.convertible hnone hmask
    refine ⟨?_, fun hgr hvb => ?_⟩
    · exact cvt_blocks_completes rfl ⟨hsrc.imp_right (Or.imp_right fun h => ⟨h, rfl⟩), Or.inl hd, nofun⟩ hbs hb hnt
    · exact cvt_blocks_completes rfl ⟨hsrc.imp_right (Or.imp_right fun h => absurd h hgr), Or.inl hd,
        fun r hr => Option.some.inj hr ▸ hvb⟩ hbs hb hnt
  · intro s m vd va vb stops
    refine ⟨fun hk => ?_, fun hi hf => ?_⟩
    · refine cvt_traps rfl fun hn => ?_
      obtain ⟨hsrc, -, -⟩ := hn
      rcases hk with hk | hk <;> simp [hk] at hsrc
    · refine cvt_traps rfl fun hn => ?_
      obtain ⟨hsrc, -, -⟩ := hn
      simp [hi, hf] at hsrc

end Sys2Proof.Machine
end

section
/-! Moves, broadcasts and selection (O30): encodings copied (R126), with the sidecar entries of their blocks (log 85). -/

namespace Sys2Proof.Machine
variable {s t : State}

/-! ### Tags and kinds -/

theorem VReg.kind_congr {x y : VReg} (h : x.tag = y.tag) : x.kind = y.kind := by
  unfold VReg.kind VReg.fmt VReg.bs
  rw [h]

theorem VReg.bs_congr {x y : VReg} (h : x.tag = y.tag) : x.bs = y.bs := congrArg tagBS h

/-- A destination of integers, of floating numbers or of mask elements. -/
def State.Plain (s : State) (r : VR) : Prop := s.destKind r = .int ∨ s.destKind r = .float ∨ s.destKind r = .mask

theorem State.plainKind_iff {r : VR} : s.plainKind r = true ↔ s.Plain r := by
  simp [State.plainKind, State.Plain, or_assoc]

theorem State.numKind_iff {r : VR} : s.numKind r = true ↔ s.destKind r = .int ∨ s.destKind r = .float := by
  simp [State.numKind]

/-- Such a register is not block-scaled, not grouped, and not untagged. -/
theorem State.Plain.kind {r : VR} (h : s.Plain r) :
    (s.vreg r).bs = false ∧ (s.vreg r).kind ≠ .none ∧ (s.vreg r).kind ≠ .grouped := by
  unfold State.Plain State.destKind VReg.destKind at h
  cases hbs : (s.vreg r).bs with
  | true => simp [hbs] at h
  | false =>
    rw [hbs, if_neg Bool.false_ne_true] at h
    rcases h with h | h | h <;> simp [h]

/-! ### Plain moves -/

section
variable {i : Instr} {m : Mask} {vd va vc : VR} {b : VB} {idx : Nat}

/-- The names of a move. -/
def movNames (vd va : VR) : Names := { vd := some vd, va := some va }

theorem doMov_plain (i : Instr) (hp : s.Plain vd) (htag : (s.vreg va).tag = (s.vreg vd).tag)
    (hl : LengthOk s (movNames vd va) m) :
    doMov i m vd va s = s.runPlan i (s.elemPlan (movNames vd va) m (s.vlmaxOf (movNames vd va)) vd {} fun j =>
      { val := (s.vreg va).elem (s.fmtOf va) j }) := by
  obtain ⟨hbs, hnone, hgr⟩ := hp.kind
  rw [← VReg.bs_congr htag] at hbs
  rw [← VReg.kind_congr htag] at hnone hgr
  have hck := State.tagChecks_ok hl.1 fun _ : true = true => hl.2
  unfold movNames at hck
  rw [doMov]
  simp only [htag, hbs, bne_iff_ne.mpr hnone, beq_eq_false_iff_ne.mpr hgr, Bool.false_or, Bool.false_and, Bool.not_false,
    beq_self_eq_true, Bool.and_self, hck, bind, Except.bind, Bool.false_eq_true, if_false]
  rfl

theorem doBcast_eq (i : Instr) (hp : s.Plain vd) (htag : (s.vreg va).tag = (s.vreg vd).tag)
    (hidx : idx < (s.vreg va).count s.vlen) (hl : LengthOk s (movNames vd va) m) :
    doBcast i m vd va idx s = s.runPlan i (s.elemPlan (movNames vd va) m (s.vlmaxOf (movNames vd va)) vd {} fun _ =>
      { val := (s.vreg va).elem (s.fmtOf va) idx }) := by
  have hck := State.tagChecks_ok hl.1 fun _ : true = true => hl.2
  unfold movNames at hck
  rw [doBcast]
  simp only [State.plainKind_iff.mpr hp, htag, beq_self_eq_true, Bool.and_self, hck, bind, Except.bind,
    if_neg (Nat.not_le.mpr hidx)]
  rfl

theorem doBcastScalar_eq (i : Instr) (w : Word) (hp : s.destKind vd = .int ∨ s.destKind vd = .float)
    (hl : LengthOk s { vd := some vd } m) :
    doBcastScalar i m vd w s = s.runPlan i (s.elemPlan { vd := some vd } m (s.vlmaxOf { vd := some vd }) vd
      (scalarTo s.modes (s.vreg vd) w).flags fun _ => { val := (scalarTo s.modes (s.vreg vd) w).val }) := by
  rw [doBcastScalar]
  simp only [State.numKind_iff.mpr hp, State.tagChecks_ok hl.1 fun _ => hl.2, bind, Except.bind]

/-- What VSEL takes where its mask element is 0. -/
def State.selOther (s : State) (vd : VR) (b : VB) (j : Nat) : Nat :=
  match b with
  | .vec r => (s.vreg r).elem (s.fmtOf r) j
  | .scal r => (scalarTo s.modes (s.vreg vd) (s.reg r)).val

/-- The flags of VSEL: those of a scalar's conversion. -/
def State.selFlags (s : State) (vd : VR) (b : VB) : Flags :=
  match b with
  | .vec _ => {}
  | .scal r => (scalarTo s.modes (s.vreg vd) (s.reg r)).flags

/-- Operand b of VSEL: a register of the destination's tag, or a scalar where the destination is no mask. -/
def State.SelOperand (s : State) (vd : VR) (b : VB) : Prop :=
  (∀ r, b = .vec r → (s.vreg r).tag = (s.vreg vd).tag) ∧ ∀ r, b = .scal r → s.destKind vd ≠ .mask

theorem doSel_eq (i : Instr) (hp : s.Plain vd) (htag : (s.vreg va).tag = (s.vreg vd).tag) (hc : s.kind vc = .mask)
    (hb : s.SelOperand vd b) (hl : LengthOk s (namesOf vd va (some b) (some vc)) m) :
    doSel i m vd va b vc (s.capture b) s =
      s.runPlan i (s.elemPlan (namesOf vd va (some b) (some vc)) m (s.vlmaxOf (namesOf vd va (some b) (some vc))) vd
        (s.selFlags vd b) fun j =>
          { val := if (s.vreg vc).elem .mask j = 1 then (s.vreg va).elem (s.fmtOf va) j else s.selOther vd b j }) := by
  have hck := State.tagChecks_ok hl.1 fun _ : true = true => hl.2
  unfold doSel
  cases b with
  | vec r =>
    simp only [State.plainKind_iff.mpr hp, htag, hc, hb.1 r rfl, beq_self_eq_true, Bool.and_self, hck, bind, Except.bind,
      beq_iff_eq]
    rfl
  | scal r =>
    simp only [State.plainKind_iff.mpr hp, htag, hc, bne_iff_ne.mpr (hb.2 r rfl), beq_self_eq_true, Bool.and_self, hck,
      bind, Except.bind, beq_iff_eq]
    rfl

end

/-! ### Moves of scaled registers -/

section
variable {m : Mask} {vd va : VR}

theorem copyEntries_one (src x : VReg) (k : Nat) : copyEntries src k (k + 1) x = x.setEntry k (src.entry k) := by
  rw [copyEntries, List.range_succ, List.drop_append_of_le_length (by rw [List.length_range]),
    List.drop_eq_nil_of_le (by rw [List.length_range])]
  rfl

/-- Element j and the entry of its block moved from va. -/
def State.moveScaled (s : State) (vd va : VR) (j : Nat) (x : VReg) : VReg :=
  (x.setElem (s.fmtOf vd) j ((s.vreg va).elem (s.fmtOf va) j)).setEntry (j / 32) ((s.vreg va).entry (j / 32))

/-- The act of VMOV on element j of a scaled register. -/
def State.moveItem (s : State) (vd va : VR) (j : Nat) : Item :=
  withEntry (s.vreg va) vd (s.elemItem vd (fun j => { val := (s.vreg va).elem (s.fmtOf va) j }) j)

theorem State.moveItem_put (j : Nat) (v : Vect) (k : VR) :
    ((s.moveItem vd va j).put v).reg k = if k = vd then s.moveScaled vd va j (v.reg vd) else v.reg k := by
  simp only [State.moveItem, State.elemItem, withEntry, copyEntries_one, Vect.reg_setReg, Vect.reg_putElem, if_true]
  split <;> rfl

/-- Some elements moved with the entries of their blocks. -/
def State.moveAll (s : State) (vd va : VR) (l : List Nat) (x : VReg) : VReg :=
  l.foldl (fun x j => s.moveScaled vd va j x) x

theorem State.moveAll_tag (l : List Nat) (x : VReg) : (s.moveAll vd va l x).tag = x.tag :=
  VReg.foldl_keeps VReg.tag (fun x j => s.moveScaled vd va j x) (fun _ _ => rfl) l x

theorem State.moveAll_elem (l : List Nat) (x : VReg) {j : Nat} (hj : (s.fmtOf vd).bitAt j + (s.fmtOf vd).width ≤ 16384) :
    (s.moveAll vd va l x).elem (s.fmtOf vd) j =
      if j ∈ l then (s.vreg va).elem (s.fmtOf va) j % 2 ^ (s.fmtOf vd).width else x.elem (s.fmtOf vd) j := by
  unfold State.moveAll
  induction l generalizing x with
  | nil => simp
  | cons a l ih =>
    rw [List.foldl_cons, ih, State.moveScaled, VReg.setEntry_elem, VReg.elem_setElem _ _ _ _ _ hj]
    by_cases h : j = a
    · subst h; simp
    · simp [h]

theorem State.moveAll_entry (l : List Nat) (x : VReg) {k : Nat} (hk : k < 128) :
    (s.moveAll vd va l x).entry k = if ∃ j ∈ l, j / 32 = k then
      (if x.bs then (s.vreg va).entry k % 256 else (s.vreg va).entry k) else x.entry k := by
  have hlt := (s.vreg va).entry_lt k
  unfold State.moveAll
  induction l generalizing x with
  | nil => simp
  | cons a l ih =>
    rw [List.foldl_cons, ih, State.moveScaled, VReg.setEntry_bs, VReg.setElem_bs, VReg.entry_setEntry _ _ _ hk,
      VReg.setElem_bs, VReg.setElem_entry]
    simp only [List.exists_mem_cons_iff, eq_comm (a := k)]
    by_cases h : a / 32 = k
    · have hmod : (if x.bs then (s.vreg va).entry k % 256 else (s.vreg va).entry k) % 2 ^ 16 =
          if x.bs then (s.vreg va).entry k % 256 else (s.vreg va).entry k := by split <;> omega
      simp only [h, true_or, if_true, hmod, ite_self]
    · simp only [h, false_or, if_false]

/-- What VMOV of a scaled register does once its checks have passed. -/
def State.movePlan (s : State) (m : Mask) (vd va : VR) : VPlan :=
  { s.elemPlan (movNames vd va) m (s.vlmaxOf (movNames vd va)) vd {}
      (fun j => { val := (s.vreg va).elem (s.fmtOf va) j }) with
    items := (s.activeFrom m s.vstart).map (s.moveItem vd va) }

/-- A tag with BS names elements. -/
theorem tagBS_ne_untagged : ∀ {t : Byte}, tagBS t = true → Fmt.ofTag t ≠ some .untagged := by decide

theorem State.scaled_of_grouped {r : VR} (h : s.destKind r = .grouped) (hf : (s.vreg r).fmt ≠ none) :
    ((s.vreg r).bs || (s.vreg r).kind == .grouped) = true ∧ (s.vreg r).kind ≠ .none := by
  unfold State.destKind VReg.destKind at h
  cases hbs : (s.vreg r).bs with
  | false =>
    rw [hbs, if_neg Bool.false_ne_true] at h
    simp [h]
  | true =>
    refine ⟨rfl, ?_⟩
    have hun : (s.vreg r).fmt ≠ some .untagged := tagBS_ne_untagged hbs
    unfold VReg.kind
    cases hd : (s.vreg r).fmt with
    | none => exact absurd hd hf
    | some d =>
      cases d <;> simp_all

theorem doMov_scaled (i : Instr) (hd : s.destKind vd = .grouped) (hf : (s.vreg vd).fmt ≠ none)
    (htag : (s.vreg va).tag = (s.vreg vd).tag) (hm : m.reg = 0) (hl : LengthOk s (movNames vd va) m) :
    doMov i m vd va s = s.runPlan i (s.movePlan m vd va) := by
  obtain ⟨hscaled, hnone⟩ := State.scaled_of_grouped hd hf
  rw [← VReg.bs_congr htag, ← VReg.kind_congr htag] at hscaled
  rw [← VReg.kind_congr htag] at hnone
  have hck := State.tagChecks_ok hl.1 fun _ : true = true => hl.2
  unfold movNames at hck
  rw [doMov]
  simp only [htag, hscaled, bne_iff_ne.mpr hnone, hm, bne_self_eq_false, Bool.and_false, Bool.not_false, beq_self_eq_true,
    Bool.and_self, hck, bind, Except.bind, if_true, State.elemPlan, List.map_map]
  rfl

/-- VMOV of a block-scaled or grouped register (R126, log 85). -/
theorem mov_scaled_completes {m : VMod} (hd : s.destKind vd = .grouped) (hf : (s.vreg vd).fmt ≠ none)
    (htag : (s.vreg va).tag = (s.vreg vd).tag) (hm : m.mask.reg = 0) (h : FreeToRun (.vmov m vd va) s)
    (hl : LengthOk s (movNames vd va) m.mask) :
    ∃ t, exec (.vmov m vd va) s = .next t ∧ VectorFrame s t [vd] ∧ QuietFrame s t ∧ (t.vreg vd).tag = (s.vreg vd).tag ∧
      ElementsAre s t m.mask vd s.vstart (s.vlmaxOf (movNames vd va)) (fun j => (s.vreg va).elem (s.fmtOf va) j) ∧
      ∀ k, k < 128 → (t.vreg vd).entry k =
        if s.vstart < s.vl ∧ s.vstart / 32 ≤ k ∧ k ≤ (s.vl - 1) / 32 then
          (if (s.vreg vd).bs then (s.vreg va).entry k % 256 else (s.vreg va).entry k)
        else (s.vreg vd).entry k := by
  have hfold := Vect.foldl_put (State.moveItem_put (s := s) (vd := vd) (va := va)) (fun _ _ => rfl)
    (s.activeFrom m.mask s.vstart) s.r.vect
  have hfinal (k : VR) : ((s.movePlan m.mask vd va).final s.r.vect).reg k =
      if k = vd then settle s.vtype (s.fmtOf vd) (fun i => s.active m.mask i) s.vstart s.vl (s.vlmaxOf (movNames vd va))
        (s.moveAll vd va (s.activeFrom m.mask s.vstart) (s.vreg vd)) else s.vreg k := by
    simp only [VPlan.final, State.movePlan, State.elemPlan, List.foldl_map, State.settleReg, Vect.reg_setReg,
      fun k => (hfold k).1, if_true, h.beganAt]
    split <;> rfl
  have hrest : ((s.movePlan m.mask vd va).final s.r.vect).rest = s.r.vect.rest := by
    simp only [VPlan.final, State.movePlan, State.elemPlan, List.foldl_map]
    exact (hfold vd).2
  have hflags : ∀ x ∈ (s.movePlan m.mask vd va).items, x.flags = {} := by
    intro x hx
    obtain ⟨j, -, rfl⟩ := List.mem_map.mp hx
    rfl
  have hgathered : (s.movePlan m.mask vd va).gathered = {} :=
    List.foldlRecOn (motive := fun fl => fl = ({} : Flags)) _ _ rfl fun fl hfl x hx => by rw [hfl, hflags x hx]; rfl
  obtain ⟨t, ht, hframe, hq, hrng, hvf, hread⟩ := plan_frame (ds := [vd]) (a := 0) (b := 0) h rfl
    (doMov_scaled (.vmov m vd va) hd hf htag hm hl) rfl (trapEnabled_none _)
    (fun x hx => hflags x hx ▸ trapEnabled_none _) hrest fun k hk => (hfinal k).trans (if_neg (by simpa using hk))
  have hvd := (hread vd).trans ((hfinal vd).trans (if_pos rfl))
  rw [hgathered] at hvf
  refine ⟨t, ht, hframe, ⟨hvf.trans BitVec.or_zero, hq, hrng⟩, ?_,
    elementsAre_of_settled hl.2 hvd fun j hj => State.moveAll_elem _ _ hj, fun k hk => ?_⟩
  · rw [hvd, settle_tag, State.moveAll_tag]
  · have hside : (t.vreg vd).entry k = (s.moveAll vd va (s.activeFrom m.mask s.vstart) (s.vreg vd)).entry k := by
      rw [hvd, VReg.entry, settle_side]; rfl
    have hact (j : Nat) : s.active m.mask j = true := by simp [State.active, hm]
    rw [hside, State.moveAll_entry _ _ hk]
    refine if_congr ?_ rfl rfl
    simp only [State.mem_activeFrom, hact, and_true]
    constructor
    · rintro ⟨j, ⟨h1, h2⟩, rfl⟩
      omega
    · rintro ⟨h1, h2, h3⟩
      exact ⟨max s.vstart (32 * k), by omega, by omega⟩

end

/-- Settles O30: each instruction's plan is an element-wise one of encodings; VMOV of a scaled register copies entries too. -/
theorem vectorMoves : Obligations.VectorMoves := by
  intro s m vd va vc b ss idx plain x runs two htag hnt
  refine ⟨fun hp => ⟨?_, fun hidx => ?_, fun hc r hb hr => ?_⟩, fun hp hmask => ⟨?_, fun hc hb => ?_⟩, ?_⟩
  · exact fun h hl => elementwise_of_noFlags h hl rfl (doMov_plain (.vmov m vd va) hp htag hl)
  · exact fun h hl => elementwise_of_noFlags h hl rfl (doBcast_eq (.vbcast m vd va idx) hp htag hidx hl)
  · subst hb
    have hsel : s.SelOperand vd (.vec r) := ⟨fun _ h => VB.vec.inj h ▸ hr, nofun⟩
    exact fun h hl => elementwise_of_noFpTraps hnt h hl rfl (doSel_eq (.vsel m vd va (.vec r) vc) hp htag hc hsel hl)
  · have hnum : s.destKind vd = .int ∨ s.destKind vd = .float := hp.imp_right fun h => h.resolve_right hmask
    exact fun h hl => elementwise_of_noFpTraps hnt h hl rfl (doBcastScalar_eq (.vbcastScalar m vd ss) (s.reg ss) hnum hl)
  · subst hb
    have hsel : s.SelOperand vd (.scal ss) := ⟨nofun, fun _ _ => hmask⟩
    exact fun h hl => elementwise_of_noFpTraps hnt h hl rfl (doSel_eq (.vsel m vd va (.scal ss) vc) hp htag hc hsel hl)
  · exact fun hd hf hm h hl => mov_scaled_completes hd hf htag hm h hl

end Sys2Proof.Machine
end

section
/-! The vector ends of the hand-off queues (O31): what is pushed (R129, R131, R136), and VQPOP. -/

namespace Sys2Proof.Machine
variable {s t : State}

/-! ### Pushes -/

theorem Flags.bits_none : ({} : Flags).bits = 0#5 := by decide

section
variable {i : Instr} {a b : Word} {body : State → M (Unit × State)} {n : Names} {els : List Nat} {q : QR} {w : Word}

/-- An instruction that pushes a word into a queue with room. -/
theorem push_completes (he : exec i s = passVector i a b body s) (hb : body s = s.runPlan i (s.pushPlan n els q w))
    (h : FreeToRun i s) (hq : s.r.queues[q].length < 16) :
    ∃ t, exec i s = .next t ∧ VectorFrame s t [] ∧ t.r.vect.vflags = s.r.vect.vflags ∧
      t.r.vect.rngctr = s.r.vect.rngctr ∧ t.r.queues[q] = s.r.queues[q] ++ [w] ∧
      ∀ p : QR, p ≠ q → t.r.queues[p] = s.r.queues[p] := by
  have hroom : s.blockedBy (s.pushPlan n els q w) = none := if_pos hq
  obtain ⟨t, ht, hframe, hqs, hrng, hvf, -⟩ := plan_frame (ds := []) h he hb hroom (trapEnabled_none _)
    (fun x hx => by rw [List.mem_singleton.mp hx]; exact trapEnabled_none _) rfl fun _ _ => rfl
  replace hqs : t.r.queues = (s.setQueue q (s.r.queues[q] ++ [w])).r.queues := hqs
  refine ⟨t, ht, hframe, ?_, hrng, ?_, fun p hp => ?_⟩
  · rw [hvf, show (s.pushPlan n els q w).gathered = {} from rfl, Flags.bits_none, BitVec.or_zero]
  · rw [hqs, State.setQueue_queues, if_pos rfl]
  · rw [hqs, State.setQueue_queues, if_neg hp]

end

section
variable {m : Mask} {va : VR} {q : QR} {idx : Nat}

theorem State.kind_of_intSigned {sg : Bool} (hsg : (s.fmtOf va).intSigned = some sg) (hbs : (s.vreg va).bs = false) :
    s.kind va = .int := by
  unfold State.fmtOf at hsg
  unfold State.kind VReg.kind
  cases hf : (s.vreg va).fmt with
  | none =>
    rw [hf] at hsg
    cases hsg
  | some d =>
    rw [hf, Option.getD_some] at hsg
    cases d <;> simp_all [Fmt.intSigned]

/-- An element as VQPUSH makes a word of it (R129). -/
theorem State.elemWord_eq (va : VR) (j : Nat) : (s.vreg va).elemWord (s.fmtOf va) j =
    if s.kind va = .int then BitVec.ofInt 64 ((s.vreg va).index j)
    else BitVec.ofNat 64 ((s.vreg va).elem (s.fmtOf va) j) := by
  unfold VReg.elemWord
  by_cases hk : s.kind va = .int
  · obtain ⟨hf, hbs, sg, hsg⟩ := State.kind_int hk
    rw [if_pos hk, hbs, hsg, VReg.index, hf]
    simp only [hsg, Option.getD_some, Bool.not_false, Bool.and_true, Option.some.injEq, decide_eq_true_eq]
    cases sg with
    | true => rfl
    | false =>
      have hval : intVal false (s.fmtOf va).width ((s.vreg va).elem (s.fmtOf va) j) = (s.vreg va).elem (s.fmtOf va) j := by
        simp [intVal, Nat.mod_eq_of_lt (VReg.elem_lt ..)]
      rw [if_neg Bool.false_ne_true, hval]
      exact (BitVec.ofInt_natCast ..).symm
  · rw [if_neg hk, if_neg]
    intro h
    obtain ⟨hsg, hbs⟩ := Bool.and_eq_true_iff.mp h
    refine hk (State.kind_of_intSigned (of_decide_eq_true hsg) (by simpa using hbs))

theorem doVqpush_eq (i : Instr) (hnone : s.kind va ≠ .none) (hgr : s.kind va ≠ .grouped)
    (hidx : idx < (s.vreg va).count s.vlen) :
    doVqpush i q va idx s =
      s.runPlan i (s.pushPlan { va := some va } [idx] q ((s.vreg va).elemWord (s.fmtOf va) idx)) := by
  have hck := State.tagChecks_ok (s := s) (n := { va := some va }) (m := {}) (byVl := false) (Or.inl rfl) nofun
  rw [doVqpush]
  simp only [bne_iff_ne.mpr hnone, bne_iff_ne.mpr hgr, Bool.and_self, hck, bind, Except.bind,
    if_neg (Nat.not_le.mpr hidx)]

/-- The active elements that are set in a mask (R131). -/
def State.activeSet (s : State) (m : Mask) (va : VR) : List Nat :=
  (List.range s.vl).filter fun j => s.active m j && (s.vreg va).elem .mask j == 1

theorem doCount_eq (i : Instr) (f : List Nat → Word) (hk : s.kind va = .mask) (hl : LengthOk s { va := some va } m) :
    doCount i f m q va s =
      s.runPlan i (s.pushPlan { va := some va } (s.activeFrom m 0) q (f (s.activeSet m va))) := by
  have hset : ((s.activeFrom m 0).filter fun j => (s.vreg va).elem .mask j == 1) = s.activeSet m va := by
    rw [State.activeFrom, List.drop_zero, List.filter_filter, State.activeSet]
    simp only [Bool.and_comm]
  rw [doCount]
  simp only [hk, beq_self_eq_true, State.tagChecks_ok hl.1 fun _ => hl.2, bind, Except.bind, hset]

end

/-! ### VQPOP -/

section
variable {m : Mask} {vd : VR} {q : QR} {w : Word} {l : List Word}

/-- The head of a queue as VQPOP writes it, converted once (R47). -/
def State.popValue (s : State) (vd : VR) (w : Word) : Flagged Nat := scalarTo s.modes (s.vreg vd) w

/-- What VQPOP does with the head of its queue. -/
def State.popPlan (s : State) (m : Mask) (vd : VR) (q : QR) (w : Word) : VPlan :=
  let c := s.popValue vd w
  { s.wholePlan { vd := some vd } [vd] c.flags {} (s.activeFrom m 0) (fun v =>
      (s.activeFrom m 0).foldl (fun (v : Vect) (j : Nat) => v.putElem vd (s.fmtOf vd) j c.val) v) with
    done := s.settleReg m 0 (s.vlmaxOf { vd := some vd }) vd
    pop := some q }

theorem doVqpop_eq (i : Instr) (hd : s.destKind vd = .int ∨ s.destKind vd = .float)
    (hl : LengthOk s { vd := some vd } m) (hq : s.r.queues[q] = w :: l) :
    doVqpop i m vd q s = s.runPlan i (s.popPlan m vd q w) := by
  rw [doVqpop]
  simp only [State.numKind_iff.mpr hd, State.tagChecks_ok hl.1 fun _ => hl.2, bind, Except.bind, hq]
  rfl

/-- VQPOP of a queue that is not empty (R129). -/
theorem pop_completes {m : VMod} (hd : s.destKind vd = .int ∨ s.destKind vd = .float)
    (hl : LengthOk s { vd := some vd } m.mask) (hnt : NoFpTraps s) (h : FreeToRun (.vqpop m vd q) s)
    (hq : s.r.queues[q] = w :: l) :
    ∃ t, exec (.vqpop m vd q) s = .next t ∧ VectorFrame s t [vd] ∧ t.r.queues[q] = l ∧
      (∀ p : QR, p ≠ q → t.r.queues[p] = s.r.queues[p]) ∧ t.r.vect.rngctr = s.r.vect.rngctr ∧
      t.r.vect.vflags = s.r.vect.vflags ||| (s.popValue vd w).flags.bits ∧
      ElementResult s t m.mask vd 0 (s.vlmaxOf { vd := some vd }) fun _ => (s.popValue vd w).val := by
  have hfold := Vect.foldl_putElem vd (s.fmtOf vd) (fun _ => (s.popValue vd w).val) (s.activeFrom m.mask 0) s.r.vect
  have hfinal (k : VR) : ((s.popPlan m.mask vd q w).final s.r.vect).reg k =
      if k = vd then settle s.vtype (s.fmtOf vd) (fun i => s.active m.mask i) 0 s.vl (s.vlmaxOf { vd := some vd })
        ((s.activeFrom m.mask 0).foldl (fun (x : VReg) (j : Nat) => x.setElem (s.fmtOf vd) j (s.popValue vd w).val) (s.vreg vd))
      else s.vreg k := by
    simp only [VPlan.final, State.popPlan, State.wholePlan, List.foldl_cons, List.foldl_nil, State.settleReg,
      Vect.reg_setReg, fun k => (hfold k).1, if_true]
    split <;> rfl
  have hready : s.blockedBy (s.popPlan m.mask vd q w) = none := by simp [State.blockedBy, State.popPlan, State.wholePlan, hq]
  obtain ⟨t, ht, hframe, hqs, hrng, hvf, hread⟩ := plan_frame (ds := [vd]) (a := 0) (b := 0) h rfl
    (doVqpop_eq (.vqpop m vd q) hd hl hq) hready (hnt.trapEnabled _) (fun _ _ => hnt.trapEnabled _) (hfold vd).2
    fun k hk => (hfinal k).trans (if_neg (by simpa using hk))
  replace hqs : t.r.queues = (s.setQueue q s.r.queues[q].tail).r.queues := hqs
  refine ⟨t, ht, hframe, ?_, fun p hp => ?_, hrng, ?_,
    elementResult_of_settled hl.2 ((hread vd).trans ((hfinal vd).trans (if_pos rfl)))⟩
  · rw [hqs, State.setQueue_queues, if_pos rfl, hq, List.tail_cons]
  · rw [hqs, State.setQueue_queues, if_neg hp]
  · rw [hvf, show (s.popPlan m.mask vd q w).gathered = (s.popValue vd w).flags from Flags.or_none _]

end

/-- Settles O31: each instruction but VQPOP pushes what its plan names. -/
theorem vectorQueueSide : Obligations.VectorQueueSide := by
  intro s m q vd va idx act pushes
  refine ⟨push_completes rfl rfl, fun hnone hgr hidx => ?_, fun hk hl => ⟨?_, ?_, ?_⟩, fun hd hl hnt h w l hq => ?_⟩
  · have := push_completes (i := .vqpush m q va idx) (a := 0) (b := 0) rfl (doVqpush_eq _ hnone hgr hidx)
    rwa [State.elemWord_eq] at this
  · exact push_completes rfl (doCount_eq (.vmpopc m q va) _ hk hl)
  · have hpush : pushes (.vmany m q va) (boolWord (!act.isEmpty)) :=
      push_completes rfl (doCount_eq (.vmany m q va) _ hk hl)
    clear_value act
    cases act <;> exact hpush
  · have hpush : pushes (.vmfirst m q va) ((act.head?.map fun j => BitVec.ofNat 64 j).getD (BitVec.allOnes 64)) :=
      push_completes rfl (doCount_eq (.vmfirst m q va) _ hk hl)
    clear_value act
    cases act <;> exact hpush
  · exact pop_completes hd hl hnt h hq

end Sys2Proof.Machine
end

section
/-! Configuration of the vector side (O34): VTYPE, tags and VL (R136, R137, R139), VIDX (R138), sidecar entries moved to and
from elements (R140). -/

namespace Sys2Proof.Machine
variable {s t : State}

/-! ### Changes of the configuration -/

section
variable {i : Instr} {a b : Word} {body : State → M (Unit × State)} {f : Vect → Vect} {qs : Vector (List Word) 4}

/-- An instruction that changes the configuration, and perhaps the queues: all else is as before. -/
theorem configure_completes (h : FreeToRun i s) (he : exec i s = passVector i a b body s)
    (hb : body s = (s.mapR fun r => { r with queues := qs }).configure f) :
    ∃ t, exec i s = .next t ∧ SameMemory s t ∧ t.r.scal = { s.r.scal with pc := s.pc + 8 } ∧ t.r.strip = s.r.strip ∧
      t.r.vect = { f s.r.vect with vstart := 0 } ∧ t.r.queues = qs := by
  obtain ⟨hvq, hconvoy, -, hbad, -, -, hops⟩ := h
  have hpass := passVector_ok (a := a) (b := b) hvq hconvoy hbad hb
  obtain ⟨_, _, _, hnote⟩ := State.noteWrites_same
    (s := ((s.mapR fun r => { r with queues := qs }).setVect (f s.r.vect)).setVstart 0) (State.written s _ i) hops
  refine ⟨_, he.trans (hpass.trans (congrArg (fun u : State => Host.Outcome.next u.advance.completed) hnote)), ?_⟩
  exact ⟨fun _ => rfl, rfl, rfl, rfl, rfl⟩

/-- A change of the configuration that sets VTYPE and VL, with what else holds of the state it leaves. -/
theorem configure_runs {rest : State → Prop} (vt : Word) (n : Nat) (h : FreeToRun i s)
    (he : exec i s = passVector i a b body s) (hb : body s = (s.mapR fun r => { r with queues := qs }).configure f)
    (hf : (f s.r.vect).rest = { s.r.vect with vtype := vt, vl := n }.rest)
    (hrest : ∀ t : State, t.vtype = vt → t.vl = n → t.r.vect.v = (f s.r.vect).v → t.r.queues = qs → rest t) :
    ∃ t, exec i s = .next t ∧ SameMemory s t ∧ t.r.scal = { s.r.scal with pc := s.pc + 8 } ∧ t.r.strip = s.r.strip ∧
      t.vstart = 0 ∧ t.vlen = s.vlen ∧ t.r.vect.vflags = s.r.vect.vflags ∧ t.r.vect.rngctr = s.r.vect.rngctr ∧ rest t := by
  obtain ⟨t, ht, hmem, hscal, hstrip, hvect, hqs⟩ := configure_completes h he hb
  simp only [Vect.rest, Prod.mk.injEq] at hf
  obtain ⟨hvl, -, hvt, hfl, hlen, hrng⟩ := hf
  exact ⟨t, ht, hmem, hscal, hstrip, congrArg Vect.vstart hvect, (congrArg Vect.vlen hvect).trans hlen,
    (congrArg Vect.vflags hvect).trans hfl, (congrArg Vect.rngctr hvect).trans hrng,
    hrest t ((congrArg Vect.vtype hvect).trans hvt) ((congrArg Vect.vl hvect).trans hvl)
      ((congrArg Vect.v hvect).trans rfl) hqs⟩

end

/-- VTYPE as VCFGW writes it, then the registers it tags (R136, R137). -/
def Vect.configured (w : Word) (tags : Option (VR × VR × Byte)) (v : Vect) : Vect :=
  match tags with
  | some (vd, va, t) => ({ v with vtype := vtypeWrite v.vtype w } : Vect).retag vd va t
  | none => { v with vtype := vtypeWrite v.vtype w }

theorem Vect.rest_retag (v : Vect) (vd va : VR) (t : Byte) : (v.retag vd va t).rest = v.rest := by
  rw [Vect.retag, Vect.rest, Vect.rest]

theorem Vect.rest_configured (w : Word) (tags : Option (VR × VR × Byte)) (v : Vect) :
    (v.configured w tags).rest = { v with vtype := vtypeWrite v.vtype w, vl := v.vl }.rest := by
  cases tags with
  | none => rfl
  | some t => exact Vect.rest_retag ..

theorem doVcfgw_legal {w : Word} (tags : Option (VR × VR × Byte)) (hw : vtypeLegal w = true) :
    doVcfgw w tags s = s.configure (Vect.configured w tags) :=
  if_pos hw

/-! ### Tags (R137) -/

section
variable {vd va : VR} {tag : Byte}

theorem usedEntries_eq (vlen : Nat) (t : Byte) :
    usedEntries vlen t = if Fmt.ofTag t = some .int4g ∨ Fmt.ofTag t = some .int3g then vlen / 16 else vlen / 32 := by
  unfold usedEntries
  split
  · next h => rw [if_pos (Or.inl h)]
  · next h => rw [if_pos (Or.inr h)]
  · next h4 h3 => rw [if_neg (not_or.mpr ⟨h4, h3⟩)]

theorem ofTag_grouped : ∀ {t : Byte}, tagDefined t = true →
    ((Fmt.ofTag t = some .int4g ∨ Fmt.ofTag t = some .int3g) ↔ (t.toNat / 8 = 0x10 ∨ t.toNat / 8 = 0x11)) := by decide

/-- A sidecar entry after its register's tag was written: the entries the new tag does not use are 0. -/
theorem VReg.entry_retag (v : VReg) (vlen : Nat) (t : Byte) {j : Nat} (hj : j < 128) :
    (v.retag vlen t).entry j = if j < usedEntries vlen t then v.entry j else 0 := by
  have hbit (i : Nat) (hi : i < 16) : ((v.retag vlen t).side).getLsbD (16 * j + i) =
      (v.side.getLsbD (16 * j + i) && decide (j < usedEntries vlen t)) := by
    rw [VReg.retag, BitVec.getLsbD_and, BitVec.getLsbD_ofNat, Nat.testBit_two_pow_sub_one]
    congr 1
    rw [decide_eq_true (by omega : 16 * j + i < 2048), Bool.true_and]
    exact decide_eq_decide.mpr (by omega)
  apply Nat.eq_of_testBit_eq
  intro i
  rw [VReg.entry, testBit_takeBits]
  by_cases hi : i < 16
  · rw [hbit i hi]
    split
    · next h => rw [VReg.entry, testBit_takeBits, decide_eq_true h, Bool.and_true]
    · next h => rw [decide_eq_false h, Bool.and_false, Bool.and_false, Nat.zero_testBit]
  · split
    · rw [VReg.entry, testBit_takeBits, decide_eq_false hi, Bool.false_and, Bool.false_and]
    · rw [decide_eq_false hi, Bool.false_and, Nat.zero_testBit]

theorem Vect.reg_retag (v : Vect) (t : Byte) (n : VR) :
    (v.retag vd va t).reg n = if vd ≤ n ∧ n ≤ va then (v.reg n).retag v.vlen t else v.reg n := by
  simp [Vect.retag, Vect.reg]

theorem Vect.reg_configured (v : Vect) (w : Word) (t : Byte) (n : VR) :
    (v.configured w (some (vd, va, t))).reg n = (v.retag vd va t).reg n := by
  rw [Vect.configured, Vect.reg_retag, Vect.reg_retag]
  rfl

/-- What giving some registers a tag leaves (R137). -/
def Retagged (s : State) (vd va : VR) (tag : Byte) (t : State) : Prop := ∀ n : VR,
  if vd ≤ n ∧ n ≤ va then (t.vreg n).tag = tag ∧ (t.vreg n).data = (s.vreg n).data ∧
    ∀ j, j < 128 → (t.vreg n).entry j = if j < usedEntries s.vlen tag then (s.vreg n).entry j else 0
  else t.vreg n = s.vreg n

theorem retagged_of_regs (h : ∀ n, t.vreg n = (s.r.vect.retag vd va tag).reg n) : Retagged s vd va tag t := by
  intro n
  rw [h, Vect.reg_retag]
  split
  · exact ⟨rfl, rfl, fun j hj => VReg.entry_retag _ _ _ hj⟩
  · rfl

end

/-! ### VTYPE and VL (R136, R139) -/

theorem vtypeLegal_iff (w : Word) : vtypeLegal w = true ↔ w.toNat < 2 ^ 21 ∧ bitOf w 14 = false ∧ bitsOf w 0 3 ≤ 4 ∧
    (bitsOf w 10 4 = 0 ∨ (3 ≤ bitsOf w 10 4 ∧ bitsOf w 10 4 ≤ 8)) := by
  have hhigh : w.toNat >>> 21 = 0 ↔ w.toNat < 2 ^ 21 := by rw [Nat.shiftRight_eq_div_pow]; omega
  simp only [vtypeLegal, Bool.and_eq_true, Bool.or_eq_true, beq_iff_eq, decide_eq_true_eq, Bool.not_eq_true', hhigh,
    and_assoc]

theorem State.newVl_eq (w : Word) (cap : BitVec 16) : s.newVl w cap.toNat =
    if cap = 0 then min w.toNat (s.vlen * 8 / sewOf s.vtype)
    else min (min w.toNat (s.vlen * 8 / sewOf s.vtype)) cap.toNat :=
  if_congr (BitVec.toNat_inj (x := cap) (y := 0)) rfl rfl

/-! ### VIDX (R138) -/

/-- Element j of VIDX in a format. -/
def idxElem (md : Modes) (d : Fmt) (x : Int) : Flagged Nat :=
  match d with
  | .fp g => g.result md (.ofInt x)
  | d => intResult md d (some x)

theorem idxElem_int {d : Fmt} {sg : Bool} (hd : d.intSigned = some sg) (md : Modes) (x : Int) :
    idxElem md d x = { val := bitsIn d.width (fitted md.sat (decide (d.intSigned = some true)) d.width x) } := by
  rw [← reduceInt_getD_intSigned]
  cases d <;> cases hd <;> rfl

theorem doVidx_eq {vd : VR} {m : Mask} (i : Instr) (start : Nat) (step : Int)
    (hd : s.destKind vd = .int ∨ s.destKind vd = .float) (hl : LengthOk s { vd := some vd } m) :
    doVidx i m vd start step s = s.runPlan i (s.elemPlan { vd := some vd } m (s.vlmaxOf { vd := some vd }) vd {} fun j =>
      idxElem s.modes (s.fmtOf vd) (start + j * step)) := by
  rw [doVidx]
  simp only [State.numKind_iff.mpr hd, State.tagChecks_ok hl.1 fun _ => hl.2, bind, Except.bind]
  rfl

/-! ### Sidecar entries as elements (R140) -/

section
variable {m : VMod} {vd va : VR}

/-- A register tagged INT16 or UINT16. -/
def State.Half (s : State) (r : VR) : Prop := (s.vreg r).tag = 0x20 ∨ (s.vreg r).tag = 0x28

theorem State.entryReg_iff {r : VR} : s.entryReg r = true ↔ s.Half r := by simp [State.entryReg, State.Half]

theorem State.Half.fmtOf {r : VR} (h : s.Half r) : s.fmtOf r = .i16 ∨ s.fmtOf r = .u16 := by
  unfold State.fmtOf VReg.fmt
  rcases h with h | h
  · rw [h]; exact Or.inl rfl
  · rw [h]; exact Or.inr rfl

theorem State.Half.bitAt {r : VR} (h : s.Half r) (j : Nat) : (s.fmtOf r).bitAt j = 16 * j := by
  rcases h.fmtOf with h | h <;> rw [h] <;> rfl

theorem State.Half.width {r : VR} (h : s.Half r) : (s.fmtOf r).width = 16 := by
  rcases h.fmtOf with h | h <;> rw [h] <;> rfl

/-- The act of VSCGET. -/
def State.getEntries (s : State) (vd va : VR) (v : Vect) : Vect :=
  (List.range (s.vlen / 16)).foldl (fun (v : Vect) (j : Nat) => v.putElem vd (s.fmtOf vd) j ((s.vreg va).entry j)) v

theorem State.reg_getEntries (v : Vect) (k : VR) : (s.getEntries vd va v).reg k =
    if k = vd then (List.range (s.vlen / 16)).foldl
      (fun (x : VReg) (j : Nat) => x.setElem (s.fmtOf vd) j ((s.vreg va).entry j)) (v.reg vd) else v.reg k :=
  (Vect.foldl_putElem vd (s.fmtOf vd) (s.vreg va).entry _ v k).1

/-- What VSCGET does once its checks have passed. -/
def State.scgetPlan (s : State) (vd va : VR) : VPlan :=
  s.wholePlan (movNames vd va) [vd] {} {} (List.range (s.vlen / 16)) (s.getEntries vd va)

theorem doVscget_eq (i : Instr) (hd : s.Half vd) (ha : (s.vreg va).fmt ≠ none) :
    doVscget i vd va s = s.runPlan i (s.scgetPlan vd va) := by
  have hck := State.tagChecks_ok (s := s) (n := movNames vd va) (m := {}) (byVl := false) (Or.inl rfl) nofun
  unfold movNames at hck
  rw [doVscget]
  simp only [State.entryReg_iff.mpr hd, Option.isSome_iff_ne_none.mpr ha, Bool.and_self, hck, bind, Except.bind]
  rfl

/-- VSCGET (R140). -/
theorem vscget_completes (hd : s.Half vd) (ha : (s.vreg va).fmt ≠ none) (h : FreeToRun (.vscget m vd va) s) :
    ∃ t, exec (.vscget m vd va) s = .next t ∧ VectorFrame s t [vd] ∧ QuietFrame s t ∧
      (t.vreg vd).tag = (s.vreg vd).tag ∧ (t.vreg vd).side = (s.vreg vd).side ∧
      ∀ j, 16 * j + 16 ≤ 16384 → (t.vreg vd).elem (s.fmtOf vd) j =
        if j < s.vlen / 16 then (s.vreg va).entry j else (s.vreg vd).elem (s.fmtOf vd) j := by
  have hrest : (s.getEntries vd va s.r.vect).rest = s.r.vect.rest :=
    (Vect.foldl_putElem vd (s.fmtOf vd) (s.vreg va).entry _ _ vd).2
  have hkeep (k : VR) (hk : k ∉ [vd]) : (s.getEntries vd va s.r.vect).reg k = s.vreg k :=
    (State.reg_getEntries _ k).trans (if_neg (by simpa using hk))
  obtain ⟨t, ht, hframe, hq, hrng, hvf, hread⟩ := plan_frame (ds := [vd]) (a := 0) (b := 0) (p := s.scgetPlan vd va) h rfl
    (doVscget_eq (.vscget m vd va) hd ha) rfl (trapEnabled_none _)
    (fun x hx => by rw [List.mem_singleton.mp hx]; exact trapEnabled_none _) hrest hkeep
  have hvd := (hread vd).trans ((State.reg_getEntries _ vd).trans (if_pos rfl))
  refine ⟨t, ht, hframe, ⟨?_, hq, hrng⟩, ?_, ?_, fun j hj => ?_⟩
  · rw [hvf, show (s.scgetPlan vd va).gathered = {} from rfl, Flags.bits_none, BitVec.or_zero]
  · rw [hvd]
    exact VReg.foldl_keeps VReg.tag _ (VReg.setElem_tag · _ · _) _ _
  · rw [hvd]
    exact VReg.foldl_keeps VReg.side _ (VReg.setElem_side · _ · _) _ _
  · rw [hvd, VReg.elem_foldl_setElem _ _ _ (by rw [hd.bitAt, hd.width]; exact hj), hd.width,
      Nat.mod_eq_of_lt (VReg.entry_lt ..)]
    simp only [List.mem_range]
    rfl

/-- Entries written from a list of numbers. -/
theorem VReg.entry_foldl_setEntry (g : Nat → Nat) (l : List Nat) (v : VReg) {j : Nat} (hj : j < 128) :
    (l.foldl (fun (x : VReg) (k : Nat) => x.setEntry k (g k)) v).entry j =
      if j ∈ l then (if v.bs then g j % 256 else g j) % 2 ^ 16 else v.entry j := by
  induction l generalizing v with
  | nil => simp
  | cons k l ih =>
    rw [List.foldl_cons, ih, VReg.setEntry_bs, VReg.entry_setEntry _ _ _ hj]
    by_cases h : j = k
    · subst h; simp
    · simp [h]

/-- Entry j as VSCSET writes it. -/
def State.entryFrom (s : State) (vd va : VR) (j : Nat) : Nat :=
  if (s.vreg vd).bs then (s.vreg va).elem (s.fmtOf va) j % 256 else (s.vreg va).elem (s.fmtOf va) j

/-- The register VSCSET leaves. -/
def State.withEntries (s : State) (vd va : VR) (x : VReg) : VReg :=
  (List.range (usedEntries s.vlen (s.vreg vd).tag)).foldl (fun (x : VReg) (j : Nat) => x.setEntry j (s.entryFrom vd va j))
    { x with side := 0 }

/-- What VSCSET does once its checks have passed. -/
def State.scsetPlan (s : State) (vd va : VR) : VPlan :=
  { s.wholePlan (movNames vd va) [] {} {} (List.range (usedEntries s.vlen (s.vreg vd).tag))
      (fun v => v.setReg vd (s.withEntries vd va (v.reg vd))) with
    side := some vd }

theorem doVscset_eq (i : Instr) (ha : s.Half va) (hd : (s.vreg vd).fmt ≠ none) :
    doVscset i vd va s = s.runPlan i (s.scsetPlan vd va) := by
  have hck := State.tagChecks_ok (s := s) (n := movNames vd va) (m := {}) (byVl := false) (Or.inl rfl) nofun
  unfold movNames at hck
  rw [doVscset]
  simp only [State.entryReg_iff.mpr ha, Option.isSome_iff_ne_none.mpr hd, Bool.and_self, hck, bind, Except.bind]
  rfl

theorem State.withEntries_entry (ha : s.Half va) {j : Nat} (hj : j < 128) :
    (s.withEntries vd va (s.vreg vd)).entry j =
      if j < usedEntries s.vlen (s.vreg vd).tag then s.entryFrom vd va j else 0 := by
  have hlt : (s.vreg va).elem (s.fmtOf va) j < 2 ^ 16 := by
    have := VReg.elem_lt (s.vreg va) (s.fmtOf va) j
    rwa [ha.width] at this
  have hzero : ({ s.vreg vd with side := 0 } : VReg).entry j = 0 := by
    change BitVec.toNat 0#2048 >>> (16 * j) % 2 ^ 16 = 0
    rw [BitVec.toNat_zero, Nat.zero_shiftRight, Nat.zero_mod]
  rw [State.withEntries, VReg.entry_foldl_setEntry _ _ _ hj, hzero, State.entryFrom]
  simp only [List.mem_range]
  congr 1
  change (if (s.vreg vd).bs = true then _ else _) % _ = _
  split <;> omega

/-- VSCSET (R140). -/
theorem vscset_completes (ha : s.Half va) (hd : (s.vreg vd).fmt ≠ none) (h : FreeToRun (.vscset m vd va) s) :
    ∃ t, exec (.vscset m vd va) s = .next t ∧ VectorFrame s t [vd] ∧ QuietFrame s t ∧
      (t.vreg vd).tag = (s.vreg vd).tag ∧ (t.vreg vd).data = (s.vreg vd).data ∧
      ∀ j, j < 128 → (t.vreg vd).entry j =
        if j < usedEntries s.vlen (s.vreg vd).tag then s.entryFrom vd va j else 0 := by
  have hfinal (k : VR) : ((s.scsetPlan vd va).final s.r.vect).reg k =
      if k = vd then s.withEntries vd va (s.vreg vd) else s.vreg k := Vect.reg_setReg ..
  obtain ⟨t, ht, hframe, hq, hrng, hvf, hread⟩ := plan_frame (ds := [vd]) (a := 0) (b := 0) h rfl
    (doVscset_eq (.vscset m vd va) ha hd) rfl (trapEnabled_none _)
    (fun x hx => by rw [List.mem_singleton.mp hx]; exact trapEnabled_none _) rfl
    fun k hk => (hfinal k).trans (if_neg (by simpa using hk))
  have hvd := (hread vd).trans ((hfinal vd).trans (if_pos rfl))
  refine ⟨t, ht, hframe, ⟨?_, hq, hrng⟩, ?_, ?_, fun j hj => ?_⟩
  · rw [hvf, show (s.scsetPlan vd va).gathered = {} from rfl, Flags.bits_none, BitVec.or_zero]
  · rw [hvd]
    exact VReg.foldl_keeps VReg.tag _ (VReg.setEntry_tag · · _) _ _
  · rw [hvd]
    exact VReg.foldl_keeps VReg.data _ (VReg.setEntry_data · · _) _ _
  · rw [hvd, State.withEntries_entry ha hj]

end

/-- Settles O34: changes of the configuration by `configure_runs`, VIDX element by element, entries by the acts of
VSCGET and VSCSET. -/
theorem vectorConfiguration : Obligations.VectorConfiguration := by
  refine ⟨?_, ?_⟩
  · intro s ss vd va tag q cap w legal vt used tags vl runs tag0
    have hlegal : vtypeLegal w = true ↔ legal := vtypeLegal_iff w
    have hused (htag : tag0) : usedEntries s.vlen tag = used := by
      rw [usedEntries_eq]
      exact if_congr (ofTag_grouped htag) rfl rfl
    have htags (htag : tag0) {t : State} (h : ∀ n, t.vreg n = (s.r.vect.retag vd va tag).reg n) : tags t := by
      have := retagged_of_regs h
      unfold Retagged at this
      rwa [hused htag] at this
    refine ⟨fun hw => ⟨fun h => ?_, fun htag h => ?_⟩, fun hw h => ?_, fun htag h => ?_, fun h => ?_, fun hq h => ?_⟩
    · exact configure_runs vt s.vl (a := w) (b := 0) (body := doVcfgw w none) h rfl (doVcfgw_legal _ (hlegal.mpr hw))
        (Vect.rest_configured ..) fun t hvt hvl hv hqs => ⟨hvt, hvl, hv, hqs⟩
    · exact configure_runs vt s.vl (a := w) (b := 0) (body := doVcfgw w (some (vd, va, tag))) h rfl
        (doVcfgw_legal _ (hlegal.mpr hw)) (Vect.rest_configured ..) fun t hvt hvl hv hqs =>
        ⟨hvt, hvl, htags htag fun n => (congrArg (·[n]) hv).trans (Vect.reg_configured _ w tag n), hqs⟩
    · obtain ⟨t, ht, hcause, hpc, hval, hvect, -⟩ := passVector_traps_at_once (a := w) (b := 0)
        (body := doVcfgw w none) h (if_neg (mt hlegal.mp hw)) rfl
      exact ⟨t, ht, hcause, hpc, hval, hvect⟩
    · exact configure_runs s.vtype s.vl (a := 0) (b := 0) (body := doVtag vd va tag) (f := fun v => v.retag vd va tag) h rfl
        rfl (Vect.rest_retag ..) fun t hvt hvl hv hqs => ⟨hvt, hvl, htags htag fun n => congrArg (·[n]) hv, hqs⟩
    · exact configure_runs s.vtype vl (a := w) (b := 0) (body := doVsetvl none w cap.toNat)
        (f := fun v => { v with vl := s.newVl w cap.toNat }) h rfl rfl (by rw [State.newVl_eq]; rfl)
        fun t hvt hvl hv hqs => ⟨hvl, hvt, hv, hqs⟩
    · have hnew : s.newVl w cap.toNat = vl := State.newVl_eq w cap
      refine configure_runs s.vtype vl (a := w) (b := 0) (body := doVsetvl (some q) w cap.toNat)
        (qs := (s.setQueue q (s.r.queues[q] ++ [BitVec.ofNat 64 (s.newVl w cap.toNat)])).r.queues)
        (f := fun v => { v with vl := s.newVl w cap.toNat }) h rfl (if_pos hq) (by rw [hnew]; rfl)
        fun t hvt hvl hv hqs => ⟨hvl, hvt, hv, ?_, fun p hp => ?_⟩
      · rw [hqs, State.setQueue_queues, if_pos rfl, hnew]
      · rw [hqs, State.setQueue_queues, if_neg hp]
  · intro s m vd va start step one x half
    refine ⟨fun h hl => ⟨fun hd => ?_, fun g hd hg hnt => ?_⟩, fun hd ha h => vscget_completes hd ha h, fun ha hd h => ?_⟩
    · obtain ⟨sg, hsg⟩ := State.fmtOf_of_destKind_int hd
      refine elementwise_of_noFlags h hl rfl ((doVidx_eq (.vidx m vd start step) _ _ (Or.inl hd) hl).trans ?_)
      simp only [idxElem_int hsg]
      rfl
    · refine elementwise_of_noFpTraps hnt h hl rfl ((doVidx_eq (.vidx m vd start step) _ _ (Or.inr hd) hl).trans ?_)
      simp only [hg]
      rfl
    · intro used
      have hgrouped (g : Fmt) : s.fmtOf vd = g ↔ Fmt.ofTag (s.vreg vd).tag = some g := by
        obtain ⟨d, hdf⟩ := Option.ne_none_iff_exists'.mp hd
        rw [State.fmtOf_of_fmt hdf]
        exact ⟨fun h => h ▸ hdf, fun h => Option.some.inj (hdf.symm.trans h)⟩
      have hused : usedEntries s.vlen (s.vreg vd).tag = used := by
        rw [usedEntries_eq]
        exact if_congr (or_congr (hgrouped _).symm (hgrouped _).symm) rfl rfl
      exact hused ▸ vscset_completes ha hd h

end Sys2Proof.Machine
end

section
/-! Permutes (O32): whole-result instructions whose active elements each come from one source (R142–R144, R147), slides of
blocks with their sidecar entries (R145), VCOMPRESS and VEXPAND (R146). -/

namespace Sys2Proof.Machine
variable {s t : State}

/-! ### One act on one register -/

section
variable {i : Instr} {a b : Word} {body : State → M (Unit × State)} {n : Names} {d : VR} {sc : Flags} {els : List Nat}
  {put : Vect → Vect} {g : VReg → VReg}

/-- A whole-result instruction whose one act changes one register: what it leaves there, the flags of a scalar's
conversion, all else as before. -/
theorem oneReg_completes (h : FreeToRun i s) (he : exec i s = passVector i a b body s)
    (hb : body s = s.runPlan i (s.wholePlan n [d] sc {} els put)) (hsc : trapEnabled s.vtype sc = false)
    (hrest : (put s.r.vect).rest = s.r.vect.rest)
    (hreg : ∀ k, (put s.r.vect).reg k = if k = d then g (s.vreg d) else s.vreg k) :
    ∃ t, exec i s = .next t ∧ VectorFrame s t [d] ∧ t.r.queues = s.r.queues ∧ t.r.vect.rngctr = s.r.vect.rngctr ∧
      t.r.vect.vflags = s.r.vect.vflags ||| sc.bits ∧ t.vreg d = g (s.vreg d) := by
  obtain ⟨t, ht, hframe, hq, hrng, hvf, hread⟩ := plan_frame (ds := [d]) h he hb rfl hsc
    (fun x hx => by rw [List.mem_singleton.mp hx]; exact trapEnabled_none _) hrest
    fun k hk => (hreg k).trans (if_neg (by simpa using hk))
  refine ⟨t, ht, hframe, hq, hrng, ?_, (hread d).trans ((hreg d).trans (if_pos rfl))⟩
  rw [hvf, show (s.wholePlan n [d] sc {} els put).gathered = sc.or {} from rfl, Flags.or_none]

end

theorem State.activeFrom_lt {m : Mask} {start j : Nat} (h : j ∈ s.activeFrom m start) : j < s.vl :=
  (State.mem_activeFrom.mp h).1.2

theorem ElementsAre.congr {m : Mask} {d : VR} {start vlmax : Nat} {val val' : Nat → Nat}
    (h : ElementsAre s t m d start vlmax val) (hval : ∀ j, j < s.vl → val j = val' j) :
    ElementsAre s t m d start vlmax val' := by
  intro j hj
  rw [h j hj]
  split
  · next hvl => rw [hval j hvl]
  · rfl

/-- Only the values of elements below VL count. -/
theorem VectorGives.congr_below {i : Instr} {m : Mask} {d : VR} {start vlmax : Nat} {fl : Flags} {val val' : Nat → Nat}
    (h : VectorGives i s m d start vlmax fl val) (hval : ∀ j, j < s.vl → val j = val' j) :
    VectorGives i s m d start vlmax fl val' := by
  obtain ⟨t, ht, ⟨htag, hside, helem⟩, hrest⟩ := h
  exact ⟨t, ht, ⟨htag, hside, helem.congr hval⟩, hrest⟩

/-! ### Permutes (R142–R144) -/

section
variable {i : Instr} {a b w : Word} {p : PermShape} {x : State → Nat → Option Nat} {fix : State → VReg → VReg} {m : Mask}

/-- The value a permute gives element j: its source, or the inserted value (R143). -/
def State.permVal (s : State) (p : PermShape) (x : State → Nat → Option Nat) (w : Word) (j : Nat) : Nat :=
  (x s j).getD (s.inserted p.vd p.ins w).val

/-- The register a permute leaves, its sidecar entries moved by `fix`. -/
def State.permuted (s : State) (p : PermShape) (x : State → Nat → Option Nat) (fix : State → VReg → VReg) (m : Mask)
    (w : Word) (y : VReg) : VReg :=
  settle s.vtype (s.fmtOf p.vd) (fun j => s.active m j) 0 s.vl (s.vlmaxOf p.names)
    (fix s ((s.activeFrom m 0).foldl (fun (y : VReg) (j : Nat) => y.setElem (s.fmtOf p.vd) j (s.permVal p x w j)) y))

/-- The act of a permute. -/
def State.putPermuted (s : State) (p : PermShape) (x : State → Nat → Option Nat) (fix : State → VReg → VReg) (m : Mask)
    (w : Word) (v : Vect) : Vect :=
  let v := (s.activeFrom m 0).foldl (fun (v : Vect) (j : Nat) => v.putElem p.vd (s.fmtOf p.vd) j (s.permVal p x w j)) v
  s.settleReg m 0 (s.vlmaxOf p.names) p.vd (v.setReg p.vd (fix s (v.reg p.vd)))

theorem doPerm_eq (i : Instr) (hok : s.permOk p m = true) (hl : LengthOk s p.names m) :
    doPerm i p x fix m w s = s.runPlan i (s.wholePlan p.names [p.vd] (s.inserted p.vd p.ins w).flags {} (s.activeFrom m 0)
      (s.putPermuted p x fix m w)) := by
  rw [doPerm, hok, State.tagChecks_ok hl.1 fun _ => hl.2]
  simp only [bind, Except.bind, List.foldl_map]
  rfl

theorem State.reg_putPermuted (v : Vect) (k : VR) : (s.putPermuted p x fix m w v).reg k =
    if k = p.vd then s.permuted p x fix m w (v.reg p.vd) else v.reg k := by
  have hfold := Vect.foldl_putElem p.vd (s.fmtOf p.vd) (s.permVal p x w) (s.activeFrom m 0) v
  simp only [State.putPermuted, State.settleReg, Vect.reg_setReg, if_true, fun k => (hfold k).1]
  split <;> rfl

theorem State.rest_putPermuted (v : Vect) : (s.putPermuted p x fix m w v).rest = v.rest :=
  (Vect.foldl_putElem p.vd (s.fmtOf p.vd) (s.permVal p x w) (s.activeFrom m 0) v p.vd).2

/-- A permute whose tags are accepted completes. -/
theorem perm_completes (he : exec i s = passVector i a b (doPerm i p x fix m w) s) (hok : s.permOk p m = true)
    (hnt : NoFpTraps s) (h : FreeToRun i s) (hl : LengthOk s p.names m) :
    ∃ t, exec i s = .next t ∧ VectorFrame s t [p.vd] ∧ t.r.queues = s.r.queues ∧ t.r.vect.rngctr = s.r.vect.rngctr ∧
      t.r.vect.vflags = s.r.vect.vflags ||| (s.inserted p.vd p.ins w).flags.bits ∧
      t.vreg p.vd = s.permuted p x fix m w (s.vreg p.vd) :=
  oneReg_completes h he (doPerm_eq i hok hl) (hnt.trapEnabled _) (State.rest_putPermuted _) fun k => State.reg_putPermuted _ k

/-- A permute that moves no sidecar entry (R144). -/
theorem perm_gives (he : exec i s = passVector i a b (doPerm i p x fix m w) s) (hfix : ∀ y, fix s y = y)
    (hok : s.permOk p m = true) (hnt : NoFpTraps s) {val : Nat → Nat} (hval : ∀ j, j < s.vl → s.permVal p x w j = val j)
    (h : FreeToRun i s) (hl : LengthOk s p.names m) :
    VectorGives i s m p.vd 0 (s.vlmaxOf p.names) (s.inserted p.vd p.ins w).flags val := by
  obtain ⟨t, ht, hframe, hq, hrng, hvf, hvd⟩ := perm_completes he hok hnt h hl
  rw [State.permuted, hfix] at hvd
  exact VectorGives.congr_below ⟨t, ht, elementResult_of_settled hl.2 hvd, hframe, hq, hrng, hvf⟩ hval

end

/-! ### Sources of elements -/

section
variable {vd va : VR} {ins : Option SR}

/-- Element k of a register where its index lies below VL, else a fill. -/
def State.pickAt (s : State) (r : VR) (fill : Nat) (k : Int) : Nat :=
  if 0 ≤ k ∧ k < s.vl then (s.vreg r).elem (s.fmtOf r) k.toNat else fill

theorem State.sourceAt_getD (r : VR) (j fill : Nat) : (s.sourceAt r j).getD fill = s.pickAt r fill j := by
  unfold State.sourceAt State.pickAt
  by_cases h : j < s.vl <;> simp [h]

theorem State.pickAt_of_neg (r : VR) (fill : Nat) {k : Int} (h : k < 0) : s.pickAt r fill k = fill :=
  if_neg fun hk => absurd hk.1 (not_le.mpr h)

theorem State.slideup_getD (va : VR) (off j fill : Nat) :
    (if off ≤ j then s.sourceAt va (j - off) else none).getD fill = s.pickAt va fill (j - off) := by
  split
  · next h => rw [State.sourceAt_getD, Int.ofNat_sub h]
  · next h => exact (State.pickAt_of_neg va fill (by omega)).symm

theorem State.vperm_getD (va : VR) (k : Int) (fill : Nat) :
    (if k < 0 then none else s.sourceAt va k.toNat).getD fill = s.pickAt va fill k := by
  split
  · next h => exact (State.pickAt_of_neg va fill h).symm
  · next h => rw [State.sourceAt_getD, Int.toNat_of_nonneg (not_lt.mp h)]

/-- A scalar as it is inserted into a register (R143). -/
def State.insertedReg (s : State) (vd : VR) (r : SR) : Flagged Nat :=
  if (s.vreg vd).bs && s.fmtOf vd == .i8 then scalarToScaledI8 s.modes (s.reg r) else scalarTo s.modes (s.vreg vd) (s.reg r)

theorem State.inserted_val (vd : VR) (ins : Option SR) : (s.inserted vd ins (s.captureIns ins)).val =
    (ins.map fun r => (s.insertedReg vd r).val).getD 0 := by
  cases ins <;> rfl

theorem State.inserted_flags (vd : VR) (ins : Option SR) : (s.inserted vd ins (s.captureIns ins)).flags =
    (ins.map fun r => (s.insertedReg vd r).flags).getD {} := by
  cases ins <;> rfl

theorem State.insertedReg_plain (h : (s.vreg vd).bs = false) (r : SR) :
    s.insertedReg vd r = scalarTo s.modes (s.vreg vd) (s.reg r) := by
  rw [State.insertedReg, h, Bool.false_and, if_neg Bool.false_ne_true]

theorem State.insertedReg_scaled (h : (s.vreg vd).bs = true) (r : SR) : s.insertedReg vd r =
    if s.fmtOf vd = .i8 then floatToInt s.modes.rm true 8 (FF.fp64.src s.modes.daz (s.reg r).toNat)
    else scalarTo s.modes (s.vreg vd) (s.reg r) := by
  rw [State.insertedReg, h, Bool.true_and]
  exact if_congr beq_iff_eq rfl rfl

end

/-! ### Accepted tags (R142) -/

section
variable {p : PermShape} {m : Mask}

theorem State.permOk_plain (hp : s.Plain p.vd) (ha : (s.vreg p.va).tag = (s.vreg p.vd).tag)
    (hb : ∀ r, p.vb = some r → (s.vreg r).tag = (s.vreg p.vd).tag) (hc : ∀ r, p.vc = some r → s.kind r = .int)
    (hins : s.kind p.vd = .mask → p.ins = none) : s.permOk p m = true := by
  obtain ⟨hbs, hnone, hgr⟩ := hp.kind
  have hb' : (p.vb.map fun r => (s.vreg r).tag == (s.vreg p.vd).tag).getD true = true := by
    cases h : p.vb with
    | none => rfl
    | some r => simp [hb r h]
  have hc' : (p.vc.map fun r => s.kind r == .int).getD true = true := by
    cases h : p.vc with
    | none => rfl
    | some r => simp [hc r h]
  have hi' : (s.kind p.vd == .mask && p.ins.isSome) = false := by
    by_cases h : s.kind p.vd = .mask
    · simp [hins h]
    · simp [h]
  have hnone' : (s.kind p.vd != .none) = true := bne_iff_ne.mpr hnone
  have hgr' : (s.kind p.vd != .grouped) = true := bne_iff_ne.mpr hgr
  unfold State.permOk
  simp only [ha, hb', hc', hi', hbs, hnone', hgr', beq_self_eq_true, Bool.and_self, Bool.not_false, Bool.true_or]

theorem State.permOk_blocks {vd va : VR} {off : Nat} {ins : Option SR} (hbs : (s.vreg vd).bs = true)
    (hk : s.kind vd = .float) (ha : (s.vreg va).tag = (s.vreg vd).tag) (hm : m.reg = 0) (hoff : off % 32 = 0) :
    s.permOk { vd := vd, va := va, ins := ins, slide := some off } m = true := by
  have hoff' : (off % 32 == 0) = true := beq_iff_eq.mpr hoff
  simp only [State.permOk, ha, hbs, hk, hm, hoff', Option.map_none, Option.map_some, Option.getD_none, Option.getD_some,
    beq_self_eq_true, Bool.and_self, Bool.or_true]
  rfl

end

/-! ### Permutes of unscaled registers -/

section
variable {m : VMod} {vd va vb vc : VR} {ins : Option SR} {off : BitVec 16}

/-- The inserted value of a permute of an unscaled register. -/
def State.fillVal (s : State) (vd : VR) (ins : Option SR) : Nat :=
  (ins.map fun r => (scalarTo s.modes (s.vreg vd) (s.reg r)).val).getD 0

/-- The flags of its conversion. -/
def State.fillFlags (s : State) (vd : VR) (ins : Option SR) : Flags :=
  (ins.map fun r => (scalarTo s.modes (s.vreg vd) (s.reg r)).flags).getD {}

theorem State.Plain.inserted (hp : s.Plain vd) (ins : Option SR) :
    (s.inserted vd ins (s.captureIns ins)).val = s.fillVal vd ins ∧
      (s.inserted vd ins (s.captureIns ins)).flags = s.fillFlags vd ins := by
  rw [State.inserted_val, State.inserted_flags]
  simp only [State.insertedReg_plain hp.kind.1]
  exact ⟨rfl, rfl⟩

theorem slideEntries_plain {f : Nat → Nat → Option Nat} (hp : s.Plain vd) (ha : (s.vreg va).tag = (s.vreg vd).tag) (y : VReg) :
    slideEntries va f s y = y := by
  rw [slideEntries, VReg.bs_congr ha, hp.kind.1, if_neg Bool.false_ne_true]

/-! Each permute passed with its sources (R144). -/

/-- The sources of VSLIDEUP and of the blocks it moves. -/
def upSource (va : VR) (off : Nat) (s : State) (j : Nat) : Option Nat := if off ≤ j then s.sourceAt va (j - off) else none

def upBlock (off : Nat) (_ j : Nat) : Option Nat := if off / 32 ≤ j then some (j - off / 32) else none

/-- The sources of VSLIDEDN and of the blocks it moves. -/
def dnSource (va : VR) (off : Nat) (s : State) (j : Nat) : Option Nat := s.sourceAt va (j + off)

def dnBlock (off n j : Nat) : Option Nat := if j + off / 32 < n then some (j + off / 32) else none

/-- The sources of VPERM. -/
def permSource (va vc : VR) (s : State) (j : Nat) : Option Nat :=
  if (s.vreg vc).index j < 0 then none else s.sourceAt va ((s.vreg vc).index j).toNat

/-- The sources of VREV. -/
def revSource (va : VR) (s : State) (j : Nat) : Option Nat := s.sourceAt va (s.vl - 1 - j)

/-- The sources of VZIP. -/
def zipSource (va vb : VR) (s : State) (j : Nat) : Option Nat := s.sourceAt (if j % 2 == 0 then va else vb) (j / 2)

/-- The sources of VUNZIPE and VUNZIPO. -/
def unzipSource (va vb : VR) (odd : Nat) (s : State) (j : Nat) : Option Nat :=
  if 2 * j + odd < s.vl then s.sourceAt va (2 * j + odd) else s.sourceAt vb (2 * j + odd - s.vl)

theorem exec_vslideup (s : State) (m : VMod) (vd va : VR) (off : BitVec 16) (ins : Option SR) :
    exec (.vslideup m vd va off ins) s = passVector (.vslideup m vd va off ins) (s.captureIns ins) 0
      (doPerm (.vslideup m vd va off ins) { vd := vd, va := va, ins := ins, slide := some off.toNat } (upSource va off.toNat)
        (slideEntries va (upBlock off.toNat)) m.mask (s.captureIns ins)) s := rfl

theorem exec_vslidedn (s : State) (m : VMod) (vd va : VR) (off : BitVec 16) (ins : Option SR) :
    exec (.vslidedn m vd va off ins) s = passVector (.vslidedn m vd va off ins) (s.captureIns ins) 0
      (doPerm (.vslidedn m vd va off ins) { vd := vd, va := va, ins := ins, slide := some off.toNat } (dnSource va off.toNat)
        (slideEntries va (dnBlock off.toNat)) m.mask (s.captureIns ins)) s := rfl

theorem exec_vperm (s : State) (m : VMod) (vd va vc : VR) (ins : Option SR) :
    exec (.vperm m vd va vc ins) s = passVector (.vperm m vd va vc ins) (s.captureIns ins) 0
      (doPerm (.vperm m vd va vc ins) { vd := vd, va := va, vc := some vc, ins := ins } (permSource va vc) keepEntries
        m.mask (s.captureIns ins)) s := rfl

theorem exec_vrev (s : State) (m : VMod) (vd va : VR) : exec (.vrev m vd va) s = passVector (.vrev m vd va) 0 0
    (doPerm (.vrev m vd va) { vd := vd, va := va } (revSource va) keepEntries m.mask 0) s := rfl

theorem exec_vzip (s : State) (m : VMod) (vd va vb : VR) : exec (.vzip m vd va vb) s = passVector (.vzip m vd va vb) 0 0
    (doPerm (.vzip m vd va vb) { vd := vd, va := va, vb := some vb } (zipSource va vb) keepEntries m.mask 0) s := rfl

theorem exec_vunzipe (s : State) (m : VMod) (vd va vb : VR) :
    exec (.vunzipe m vd va vb) s = passVector (.vunzipe m vd va vb) 0 0
      (doPerm (.vunzipe m vd va vb) { vd := vd, va := va, vb := some vb } (unzipSource va vb 0) keepEntries m.mask 0) s := rfl

theorem exec_vunzipo (s : State) (m : VMod) (vd va vb : VR) :
    exec (.vunzipo m vd va vb) s = passVector (.vunzipo m vd va vb) 0 0
      (doPerm (.vunzipo m vd va vb) { vd := vd, va := va, vb := some vb } (unzipSource va vb 1) keepEntries m.mask 0) s := rfl

theorem vslideup_gives (hp : s.Plain vd) (ha : (s.vreg va).tag = (s.vreg vd).tag) (hins : s.kind vd = .mask → ins = none)
    (hnt : NoFpTraps s) (h : FreeToRun (.vslideup m vd va off ins) s) (hl : LengthOk s { vd := some vd, va := some va } m.mask) :
    VectorGives (.vslideup m vd va off ins) s m.mask vd 0 (s.vlmaxOf { vd := some vd, va := some va }) (s.fillFlags vd ins)
      fun j => s.pickAt va (s.fillVal vd ins) (j - off.toNat) := by
  obtain ⟨hval, hfl⟩ := hp.inserted ins
  rw [← hval, ← hfl]
  exact perm_gives (p := { vd := vd, va := va, ins := ins, slide := some off.toNat }) (exec_vslideup ..)
    (slideEntries_plain hp ha) (State.permOk_plain hp ha nofun nofun hins) hnt
    (fun j _ => State.slideup_getD va off.toNat j _) h hl

theorem vslidedn_gives (hp : s.Plain vd) (ha : (s.vreg va).tag = (s.vreg vd).tag) (hins : s.kind vd = .mask → ins = none)
    (hnt : NoFpTraps s) (h : FreeToRun (.vslidedn m vd va off ins) s) (hl : LengthOk s { vd := some vd, va := some va } m.mask) :
    VectorGives (.vslidedn m vd va off ins) s m.mask vd 0 (s.vlmaxOf { vd := some vd, va := some va }) (s.fillFlags vd ins)
      fun j => s.pickAt va (s.fillVal vd ins) (j + off.toNat) := by
  obtain ⟨hval, hfl⟩ := hp.inserted ins
  rw [← hval, ← hfl]
  exact perm_gives (p := { vd := vd, va := va, ins := ins, slide := some off.toNat }) (exec_vslidedn ..)
    (slideEntries_plain hp ha) (State.permOk_plain hp ha nofun nofun hins) hnt
    (fun j _ => State.sourceAt_getD va (j + off.toNat) _) h hl

theorem vperm_gives (hp : s.Plain vd) (ha : (s.vreg va).tag = (s.vreg vd).tag) (hc : s.kind vc = .int)
    (hins : s.kind vd = .mask → ins = none) (hnt : NoFpTraps s) (h : FreeToRun (.vperm m vd va vc ins) s)
    (hl : LengthOk s { vd := some vd, va := some va, vc := some vc } m.mask) :
    VectorGives (.vperm m vd va vc ins) s m.mask vd 0 (s.vlmaxOf { vd := some vd, va := some va, vc := some vc })
      (s.fillFlags vd ins) fun j => s.pickAt va (s.fillVal vd ins) ((s.vreg vc).index j) := by
  obtain ⟨hval, hfl⟩ := hp.inserted ins
  rw [← hval, ← hfl]
  exact perm_gives (p := { vd := vd, va := va, vc := some vc, ins := ins }) (exec_vperm ..) (fun _ => rfl)
    (State.permOk_plain hp ha nofun (fun r hr => Option.some.inj hr ▸ hc) hins) hnt (fun j _ => State.vperm_getD va _ _) h hl

theorem vrev_gives (hp : s.Plain vd) (ha : (s.vreg va).tag = (s.vreg vd).tag)
    (hnt : NoFpTraps s) (h : FreeToRun (.vrev m vd va) s) (hl : LengthOk s { vd := some vd, va := some va } m.mask) :
    VectorGives (.vrev m vd va) s m.mask vd 0 (s.vlmaxOf { vd := some vd, va := some va }) {}
      fun j => s.pickAt va 0 (s.vl - 1 - j) := by
  refine perm_gives (p := { vd := vd, va := va }) (exec_vrev ..) (fun _ => rfl)
    (State.permOk_plain hp ha nofun nofun fun _ => rfl) hnt (fun j hj => ?_) h hl
  refine (State.sourceAt_getD va (s.vl - 1 - j) 0).trans (congrArg (s.pickAt va 0) ?_)
  omega

/-- A permute of two registers, without an inserted value. -/
theorem pair_gives {i : Instr} {x : State → Nat → Option Nat} {val : Nat → Nat}
    (he : exec i s = passVector i 0 0 (doPerm i { vd := vd, va := va, vb := some vb } x keepEntries m.mask 0) s)
    (hval : ∀ j, (x s j).getD 0 = val j) (hp : s.Plain vd) (ha : (s.vreg va).tag = (s.vreg vd).tag)
    (hb : (s.vreg vb).tag = (s.vreg vd).tag) (hnt : NoFpTraps s) (h : FreeToRun i s)
    (hl : LengthOk s { vd := some vd, va := some va, vb := some vb } m.mask) :
    VectorGives i s m.mask vd 0 (s.vlmaxOf { vd := some vd, va := some va, vb := some vb }) {} val :=
  perm_gives (p := { vd := vd, va := va, vb := some vb }) he (fun _ => rfl)
    (State.permOk_plain hp ha (fun _ hr => Option.some.inj hr ▸ hb) nofun fun _ => rfl) hnt (fun j _ => hval j) h hl

theorem State.unzip_getD (va vb : VR) (k : Nat) :
    (if k < s.vl then s.sourceAt va k else s.sourceAt vb (k - s.vl)).getD 0 =
      if k < s.vl then s.pickAt va 0 k else s.pickAt vb 0 (k - s.vl) := by
  split
  · exact State.sourceAt_getD va k 0
  · next h => rw [State.sourceAt_getD, Int.ofNat_sub (not_lt.mp h)]

end

/-! ### VINSERT (R147) -/

section
variable {m : VMod} {vd : VR} {ss : SR} {idx : BitVec 16}

theorem doInsert_eq (i : Instr) (hd : s.destKind vd = .int ∨ s.destKind vd = .float) {k : Nat} (w : Word)
    (hk : k < (s.vreg vd).count s.vlen) :
    doInsert i vd k w s = s.runPlan i (s.wholePlan { vd := some vd } [vd] (scalarTo s.modes (s.vreg vd) w).flags {} [k]
      fun v => v.putElem vd (s.fmtOf vd) k (scalarTo s.modes (s.vreg vd) w).val) := by
  have hck := State.tagChecks_ok (s := s) (n := { vd := some vd }) (m := {}) (byVl := false) (Or.inl rfl) nofun
  rw [doInsert]
  simp only [State.numKind_iff.mpr hd, hck, bind, Except.bind, if_neg (Nat.not_le.mpr hk)]

theorem vinsert_completes (hd : s.destKind vd = .int ∨ s.destKind vd = .float) (hk : idx.toNat < (s.vreg vd).count s.vlen)
    (hnt : NoFpTraps s) (h : FreeToRun (.vinsert m vd ss idx) s) :
    ∃ t, exec (.vinsert m vd ss idx) s = .next t ∧ VectorFrame s t [vd] ∧ t.r.queues = s.r.queues ∧
      t.r.vect.vflags = s.r.vect.vflags ||| (scalarTo s.modes (s.vreg vd) (s.reg ss)).flags.bits ∧
      t.vreg vd = (s.vreg vd).setElem (s.fmtOf vd) idx.toNat (scalarTo s.modes (s.vreg vd) (s.reg ss)).val := by
  obtain ⟨t, ht, hframe, hq, -, hvf, hvd⟩ := oneReg_completes (a := s.reg ss) (b := 0) h rfl
    (doInsert_eq (.vinsert m vd ss idx) hd (s.reg ss) hk) (hnt.trapEnabled _) rfl
    (g := fun y => y.setElem (s.fmtOf vd) idx.toNat (scalarTo s.modes (s.vreg vd) (s.reg ss)).val) fun k =>
      Vect.reg_putElem s.r.vect vd k (s.fmtOf vd) idx.toNat _
  exact ⟨t, ht, hframe, hq, hvf, hvd⟩

end

/-! ### Slides of blocks (R145) -/

section
variable {m : VMod} {vd va : VR} {off : BitVec 16} {ins : Option SR}

/-- The blocks that hold an element below VL. -/
def State.blockCount (s : State) : Nat := (s.vl + 31) / 32

/-- Sidecar entry k after a slide: that of the block it comes from, or the scale 1. -/
def State.slidEntry (s : State) (va : VR) (k : Int) : Nat :=
  if 0 ≤ k ∧ k < s.blockCount then (s.vreg va).entry k.toNat % 256 else 127

/-- The entry of the block a source names, or the scale 1. -/
def State.entryOr (s : State) (va : VR) (k : Option Nat) : Nat := (k.map (s.vreg va).entry).getD 127

/-- The entries of a slide, each from the block its source index names. -/
theorem slideEntries_entry {f : Nat → Nat → Option Nat} {blk : Int → Int} (hbs : (s.vreg va).bs = true) {y : VReg}
    (hy : y.bs = true) (hf : ∀ k : Nat, k < s.blockCount → s.entryOr va (f s.blockCount k) % 256 = s.slidEntry va (blk k))
    {k : Nat} (hk : k < 128) :
    (slideEntries va f s y).entry k = if s.blockCount ≤ k then y.entry k else s.slidEntry va (blk k) := by
  have hmatch : slideEntries va f s y = (List.range s.blockCount).foldl
      (fun (y : VReg) (j : Nat) => y.setEntry j (s.entryOr va (f s.blockCount j))) y := by
    rw [slideEntries, hbs, if_pos rfl]
    refine congrArg (fun g => (List.range s.blockCount).foldl g y) (funext fun y => funext fun j => ?_)
    unfold State.entryOr State.blockCount
    cases f ((s.vl + 31) / 32) j <;> rfl
  rw [hmatch, VReg.entry_foldl_setEntry _ _ _ hk, hy, if_pos rfl]
  simp only [List.mem_range]
  by_cases h : k < s.blockCount
  · rw [if_pos h, if_neg (Nat.not_le.mpr h), hf k h]
    have : s.slidEntry va (blk k) < 256 := by
      unfold State.slidEntry
      split <;> omega
    omega
  · rw [if_neg h, if_pos (Nat.not_lt.mp h)]

theorem slideEntries_keeps {α : Type} (q : VReg → α) (hq : ∀ y j e, q (y.setEntry j e) = q y) (f : Nat → Nat → Option Nat)
    (y : VReg) : q (slideEntries va f s y) = q y := by
  unfold slideEntries
  split
  · exact VReg.foldl_keeps q _ (fun _ _ => hq _ _ _) _ _
  · rfl

theorem VReg.entry_congr {y z : VReg} (h : y.side = z.side) (k : Nat) : y.entry k = z.entry k := by
  rw [VReg.entry, h]; rfl

/-- A slide of a block-scaled register by whole blocks completes. -/
theorem blocks_complete {i : Instr} {x : State → Nat → Option Nat} {f : Nat → Nat → Option Nat} {src blk : Int → Int}
    (he : exec i s = passVector i (s.captureIns ins) 0 (doPerm i { vd := vd, va := va, ins := ins, slide := some off.toNat } x
      (slideEntries va f) m.mask (s.captureIns ins)) s)
    (hbs : (s.vreg vd).bs = true) (hk : s.kind vd = .float) (ha : (s.vreg va).tag = (s.vreg vd).tag) (hm : m.mask.reg = 0)
    (hoff : off.toNat % 32 = 0) (hnt : NoFpTraps s)
    (hx : ∀ (j : Nat) fill, (x s j).getD fill = s.pickAt va fill (src j))
    (hf : ∀ k : Nat, k < s.blockCount → s.entryOr va (f s.blockCount k) % 256 = s.slidEntry va (blk k))
    (h : FreeToRun i s) (hl : LengthOk s { vd := some vd, va := some va } m.mask) :
    ∃ t, exec i s = .next t ∧ VectorFrame s t [vd] ∧ t.r.queues = s.r.queues ∧ (t.vreg vd).tag = (s.vreg vd).tag ∧
      t.r.vect.vflags = s.r.vect.vflags ||| ((ins.map fun r => (s.insertedReg vd r).flags).getD {}).bits ∧
      ElementsAre s t m.mask vd 0 (s.vlmaxOf { vd := some vd, va := some va })
        (fun j => s.pickAt va ((ins.map fun r => (s.insertedReg vd r).val).getD 0) (src j)) ∧
      ∀ k, k < 128 → (t.vreg vd).entry k =
        if s.blockCount ≤ k then (s.vreg vd).entry k else s.slidEntry va (blk k) := by
  obtain ⟨t, ht, hframe, hq, -, hvf, hvd⟩ := perm_completes he (State.permOk_blocks hbs hk ha hm hoff) hnt h hl
  rw [State.inserted_flags] at hvf
  have hkeep {α : Type} (q : VReg → α) (hq : ∀ y j e, q (VReg.setElem y (s.fmtOf vd) j e) = q y) (g : Nat → Nat) :
      q ((s.activeFrom m.mask 0).foldl (fun (y : VReg) (j : Nat) => y.setElem (s.fmtOf vd) j (g j)) (s.vreg vd)) =
        q (s.vreg vd) := VReg.foldl_keeps q _ (fun _ _ => hq _ _ _) _ _
  refine ⟨t, ht, hframe, hq, ?_, hvf, elementsAre_of_settled hl.2 hvd fun j hj => ?_, fun k hk => ?_⟩
  · rw [hvd, State.permuted, settle_tag, slideEntries_keeps VReg.tag fun _ _ _ => rfl]
    exact hkeep VReg.tag (fun _ _ _ => rfl) _
  · rw [slideEntries_keeps (fun y => y.elem (s.fmtOf vd) j) fun _ _ _ => rfl, VReg.elem_foldl_setElem _ _ _ hj]
    refine if_congr Iff.rfl (congrArg (· % _) ?_) rfl
    rw [State.permVal, hx, State.inserted_val]
  · rw [hvd, State.permuted, VReg.entry_congr (settle_side ..),
      slideEntries_entry ((VReg.bs_congr ha).trans hbs) ((hkeep VReg.bs (fun _ _ _ => rfl) _).trans hbs) hf hk]
    exact if_congr Iff.rfl (hkeep (VReg.entry · k) (fun _ _ _ => rfl) _) rfl

theorem upBlock_entry {o k : Nat} (hk : k < s.blockCount) :
    s.entryOr va (upBlock o s.blockCount k) % 256 = s.slidEntry va (k - (o / 32 : Nat)) := by
  unfold State.slidEntry upBlock
  by_cases h : o / 32 ≤ k
  · rw [if_pos h, if_pos (by omega), ← Int.ofNat_sub h, Int.toNat_natCast]
    rfl
  · rw [if_neg h, if_neg (by omega)]
    rfl

theorem dnBlock_entry {o k : Nat} : s.entryOr va (dnBlock o s.blockCount k) % 256 = s.slidEntry va (k + (o / 32 : Nat)) := by
  unfold State.slidEntry dnBlock
  by_cases h : k + o / 32 < s.blockCount
  · rw [if_pos h, if_pos (by omega), ← Int.natCast_add, Int.toNat_natCast]
    rfl
  · rw [if_neg h, if_neg (by omega)]
    rfl

end

/-! ### VCOMPRESS and VEXPAND (R146) -/

section
variable {m : VMod} {vd va : VR}

theorem foldl_zip_range {α β : Type} (f : β → Nat × α → β) (l : List α) (e : α) (y : β) :
    ((List.range l.length).zip l).foldl f y =
      (List.range l.length).foldl (fun y k => f y (k, l.getD k e)) y := by
  have hzip : (List.range l.length).zip l = (List.range l.length).map fun k => (k, l.getD k e) := by
    refine List.ext_getElem (by simp) fun k hk _ => ?_
    simp at hk
    simp [hk]
  rw [hzip, List.foldl_map]

/-- The active elements of a register, from element 0. -/
def State.taken0 (s : State) (m : Mask) (va : VR) (f : Fmt) : List Nat := (s.activeFrom m 0).map fun j => (s.vreg va).elem f j

/-- The register VCOMPRESS leaves. -/
def State.compressed (s : State) (m : Mask) (vd va : VR) (y : VReg) : VReg :=
  let out := s.taken0 m va (s.fmtOf vd)
  settle s.vtype (s.fmtOf vd) (fun _ => true) 0 out.length s.vl
    (((List.range out.length).zip out).foldl (fun (y : VReg) (e : Nat × Nat) => y.setElem (s.fmtOf vd) e.1 e.2) y)

theorem doCompress_eq (i : Instr) {m : Mask} (hp : s.Plain vd) (ha : (s.vreg va).tag = (s.vreg vd).tag)
    (hl : LengthOk s { vd := some vd, va := some va } m) :
    doCompress i m vd va s = s.runPlan i (s.wholePlan { vd := some vd, va := some va } [vd] {} {}
      (List.range (s.taken0 m va (s.fmtOf vd)).length) fun v => v.setReg vd (s.compressed m vd va (v.reg vd))) := by
  have hok : s.permOk { vd := vd, va := va } m = true := State.permOk_plain hp ha nofun nofun fun _ => rfl
  have hck : s.tagChecks (PermShape.names { vd := vd, va := va }) m true true = _ := State.tagChecks_ok hl.1 fun _ => hl.2
  rw [doCompress]
  simp only [hok, hck, bind, Except.bind]
  rfl

theorem vcompress_completes (hp : s.Plain vd) (ha : (s.vreg va).tag = (s.vreg vd).tag)
    (h : FreeToRun (.vcompress m vd va) s) (hl : LengthOk s { vd := some vd, va := some va } m.mask) :
    ∃ t, exec (.vcompress m vd va) s = .next t ∧ VectorFrame s t [vd] ∧ QuietFrame s t ∧
      t.vreg vd = s.compressed m.mask vd va (s.vreg vd) := by
  obtain ⟨t, ht, hframe, hq, hrng, hvf, hvd⟩ := oneReg_completes (a := 0) (b := 0) h rfl
    (doCompress_eq (.vcompress m vd va) hp ha hl) (trapEnabled_none _) rfl fun k => Vect.reg_setReg ..
  exact ⟨t, ht, hframe, ⟨hvf.trans BitVec.or_zero, hq, hrng⟩, hvd⟩

theorem State.compressed_spec (m : Mask) (y : VReg) :
    (s.compressed m vd va y).tag = y.tag ∧ (s.compressed m vd va y).side = y.side ∧
      ∀ j, (s.fmtOf vd).bitAt j + (s.fmtOf vd).width ≤ 16384 → (s.compressed m vd va y).elem (s.fmtOf vd) j =
        if h : j < (s.activeFrom m 0).length then (s.vreg va).elem (s.fmtOf vd) (s.activeFrom m 0)[j]
        else if j < s.vl ∧ tpOf s.vtype then 0 else y.elem (s.fmtOf vd) j := by
  have hlen : (s.taken0 m va (s.fmtOf vd)).length = (s.activeFrom m 0).length := List.length_map _
  refine ⟨?_, ?_, fun j hj => ?_⟩
  · rw [State.compressed, settle_tag]
    exact VReg.foldl_keeps VReg.tag (fun y (e : Nat × Nat) => y.setElem (s.fmtOf vd) e.1 e.2) (fun _ _ => rfl) _ _
  · rw [State.compressed, settle_side]
    exact VReg.foldl_keeps VReg.side (fun y (e : Nat × Nat) => y.setElem (s.fmtOf vd) e.1 e.2) (fun _ _ => rfl) _ _
  · have hle : (s.activeFrom m 0).length ≤ s.vl := by
      rw [State.activeFrom]
      exact (List.length_filter_le ..).trans (by simp)
    rw [State.compressed, elem_settle _ _ _ _ _ _ _ _ hj, foldl_zip_range _ _ 0, VReg.elem_foldl_setElem _ _ _ hj, hlen]
    simp only [List.mem_range]
    by_cases h : j < (s.activeFrom m 0).length
    · have hval : (s.taken0 m va (s.fmtOf vd)).getD j 0 = (s.vreg va).elem (s.fmtOf vd) (s.activeFrom m 0)[j] := by
        simp [State.taken0, h]
      rw [hval, Nat.mod_eq_of_lt (VReg.elem_lt ..)]
      simp [h]
    · simp [h]

/-- The register VEXPAND leaves. -/
def State.expanded (s : State) (m : Mask) (vd va : VR) (y : VReg) : VReg :=
  settle s.vtype (s.fmtOf vd) (fun j => s.active m j) 0 s.vl (s.vlmaxOf { vd := some vd, va := some va })
    ((s.activeFrom m 0).foldl (fun (y : VReg) (j : Nat) => y.setElem (s.fmtOf vd) j
      ((s.vreg va).elem (s.fmtOf vd) ((List.range j).countP fun k => s.active m k))) y)

/-- The act of VEXPAND. -/
def State.putExpanded (s : State) (m : Mask) (vd va : VR) (v : Vect) : Vect :=
  s.settleReg m 0 (s.vlmaxOf { vd := some vd, va := some va }) vd ((s.activeFrom m 0).foldl
    (fun (v : Vect) (j : Nat) => v.putElem vd (s.fmtOf vd) j
      ((s.vreg va).elem (s.fmtOf vd) ((List.range j).countP fun k => s.active m k))) v)

/-- An active element's number among the active elements counts those before it. -/
theorem activeFrom_getElem_countP {m : Mask} {k : Nat} (hk : k < (s.activeFrom m 0).length) :
    (List.range (s.activeFrom m 0)[k]).countP (fun j => s.active m j) = k := by
  have key (n : Nat) : ∀ k (hk : k < ((List.range n).filter fun j => s.active m j).length),
      (List.range (((List.range n).filter fun j => s.active m j)[k])).countP (fun j => s.active m j) = k := by
    induction n with
    | zero => intro k hk; exact absurd hk (Nat.not_lt_zero k)
    | succ n ih =>
      intro k hk
      by_cases hn : s.active m n = true
      · simp only [List.range_succ, List.filter_append, List.filter_cons, hn, if_true, List.filter_nil] at hk ⊢
        by_cases hlt : k < ((List.range n).filter fun j => s.active m j).length
        · simp only [List.getElem_append_left hlt]
          exact ih k hlt
        · have hke : k = ((List.range n).filter fun j => s.active m j).length := by simp at hk; simp at hlt; omega
          subst hke
          simp [List.countP_eq_length_filter]
      · simp only [List.range_succ, List.filter_append, List.filter_cons, hn, List.filter_nil, List.append_nil,
          Bool.false_eq_true, if_false] at hk ⊢
        exact ih k hk
  simpa [State.activeFrom] using key s.vl k (by simpa [State.activeFrom] using hk)

theorem expandOut_eq (m : Mask) (f : Fmt) :
    (((List.range (s.activeFrom m 0).length).zip (s.activeFrom m 0)).map fun e => (e.2, (s.vreg va).elem f e.1)) =
      (s.activeFrom m 0).map fun j => (j, (s.vreg va).elem f ((List.range j).countP fun k => s.active m k)) := by
  refine List.ext_getElem (by simp) fun k hk _ => ?_
  simp at hk
  simp [activeFrom_getElem_countP hk]

theorem doExpand_eq (i : Instr) {m : Mask} (hp : s.Plain vd) (ha : (s.vreg va).tag = (s.vreg vd).tag)
    (hl : LengthOk s { vd := some vd, va := some va } m) :
    doExpand i m vd va s = s.runPlan i (s.wholePlan { vd := some vd, va := some va } [vd] {} {} (s.activeFrom m 0)
      (s.putExpanded m vd va)) := by
  have hok : s.permOk { vd := vd, va := va } m = true := State.permOk_plain hp ha nofun nofun fun _ => rfl
  have hck : s.tagChecks (PermShape.names { vd := vd, va := va }) m true true = _ := State.tagChecks_ok hl.1 fun _ => hl.2
  rw [doExpand]
  simp only [hok, hck, bind, Except.bind, expandOut_eq, List.foldl_map]
  rfl

theorem State.reg_putExpanded (m : Mask) (v : Vect) (k : VR) :
    (s.putExpanded m vd va v).reg k = if k = vd then s.expanded m vd va (v.reg vd) else v.reg k := by
  have hfold := Vect.foldl_putElem vd (s.fmtOf vd)
    (fun j => (s.vreg va).elem (s.fmtOf vd) ((List.range j).countP fun k => s.active m k)) (s.activeFrom m 0) v
  simp only [State.putExpanded, State.settleReg, Vect.reg_setReg, if_true, fun k => (hfold k).1]
  split <;> rfl

theorem vexpand_gives (hp : s.Plain vd) (ha : (s.vreg va).tag = (s.vreg vd).tag)
    (h : FreeToRun (.vexpand m vd va) s) (hl : LengthOk s { vd := some vd, va := some va } m.mask) :
    VectorGives (.vexpand m vd va) s m.mask vd 0 (s.vlmaxOf { vd := some vd, va := some va }) {} fun j =>
      (s.vreg va).elem (s.fmtOf vd) ((List.range j).countP fun k => s.active m.mask k) := by
  have hrest : (s.putExpanded m.mask vd va s.r.vect).rest = s.r.vect.rest := (Vect.foldl_putElem vd (s.fmtOf vd)
    (fun j => (s.vreg va).elem (s.fmtOf vd) ((List.range j).countP fun k => s.active m.mask k)) _ _ vd).2
  obtain ⟨t, ht, hframe, hq, hrng, hvf, hvd⟩ := oneReg_completes (a := 0) (b := 0) h rfl
    (doExpand_eq (.vexpand m vd va) hp ha hl) (trapEnabled_none _) hrest fun k => State.reg_putExpanded _ _ k
  exact ⟨t, ht, elementResult_of_settled hl.2 hvd, hframe, hq, hrng, hvf⟩

end

theorem State.fmtOf_congr {r q : VR} (h : (s.vreg r).tag = (s.vreg q).tag) : s.fmtOf r = s.fmtOf q := by
  unfold State.fmtOf VReg.fmt
  rw [h]

/-- Settles O32: each permute is `perm_gives` with its source, a slide of blocks `blocks_complete`, VCOMPRESS and VEXPAND
the registers their acts leave. -/
theorem permutes : Obligations.Permutes := by
  refine ⟨⟨fun s m vd va vb vc off idx ins ss hnt => ?_, fun s m vd va off ins hbs hk ha hm hoff hnt => ?_⟩,
    fun s m vd va hp ha => ?_⟩
  · intro conv fill fl pick runs zero
    refine ⟨fun hp ha hins => ⟨vslideup_gives hp ha hins hnt, vslidedn_gives hp ha hins hnt,
      fun hc => vperm_gives hp ha hc hins hnt, vrev_gives hp ha hnt, fun hb => ⟨?_, ?_, ?_⟩⟩, fun hd hidx h => ?_⟩
    · exact pair_gives (exec_vzip ..) (fun j => (State.sourceAt_getD _ _ 0).trans (by simp only [beq_iff_eq]; rfl))
        hp ha hb hnt
    · exact pair_gives (exec_vunzipe ..) (fun j => State.unzip_getD va vb (2 * j)) hp ha hb hnt
    · exact pair_gives (exec_vunzipo ..) (fun j => State.unzip_getD va vb (2 * j + 1)) hp ha hb hnt
    · obtain ⟨t, ht, hframe, hq, hvf, hvd⟩ := vinsert_completes hd hidx hnt h
      refine ⟨t, ht, hframe, hq, ?_⟩
      rw [hvd]
      exact ⟨rfl, rfl, hvf, fun j hj => VReg.elem_setElem _ _ _ _ _ hj⟩
  · intro n md conv fill fl nb runs
    have hconv (r : SR) : s.insertedReg vd r = conv r := State.insertedReg_scaled hbs r
    have hrun := @blocks_complete s m vd va off ins
    simp only [hconv] at hrun
    exact ⟨hrun (src := fun j => j - off.toNat) (blk := fun k => k - (off.toNat / 32 : Nat)) (exec_vslideup ..) hbs hk ha hm
        hoff hnt (fun j fill => State.slideup_getD va off.toNat j fill) fun k hk => upBlock_entry hk,
      hrun (src := fun j => j + off.toNat) (blk := fun k => k + (off.toNat / 32 : Nat)) (exec_vslidedn ..) hbs hk ha hm
        hoff hnt (fun j fill => State.sourceAt_getD va (j + off.toNat) fill) fun k _ => dnBlock_entry⟩
  · intro n act hl
    rw [State.fmtOf_congr ha]
    refine ⟨fun h => ?_, fun h => vexpand_gives hp ha h hl⟩
    obtain ⟨t, ht, hframe, hquiet, hvd⟩ := vcompress_completes hp ha h hl
    refine ⟨t, ht, hframe, hquiet, ?_⟩
    rw [hvd]
    exact State.compressed_spec m.mask (s.vreg vd)

end Sys2Proof.Machine
end

section
/-! The checks of an address in the middle of an access (O36–O41): where they find a key by translations that the core
holds, they find it in every state that differs from it in what an access changes. -/

namespace Sys2Proof.Machine
variable {s t u : State}

/-! ### What an access changes -/

/-- What the elements of an access change before it ends: memory, caches and held translations, the free choices, poison,
other runners' histories; of the running runner the translations in use, the history, the vector side, the answers. -/
structure Wear where
  mem : List Host.Cell
  cores : List Core
  lines : List L2Line
  under : List Host.Cell
  free : Nat
  poison : List (Nat × Nat)
  rs : List (RunnerId × Runner)
  pages : List TlbEntry
  hist : List Hist
  vect : Vect
  asks : List Ask
  replies : List (Ask × Reply)

/-- A state in the middle of an access. -/
def State.worn (s : State) (x : Wear) : State :=
  { s with mem := x.mem, cores := x.cores, lines := x.lines, under := x.under, free := x.free, poison := x.poison, rs := x.rs,
           r := { s.r with pages := x.pages, hist := x.hist, vect := x.vect, asks := x.asks, replies := x.replies } }

/-- What an access may have changed, as a state has it. -/
def State.wear (s : State) : Wear :=
  { mem := s.mem, cores := s.cores, lines := s.lines, under := s.under, free := s.free, poison := s.poison, rs := s.rs
    pages := s.r.pages, hist := s.r.hist, vect := s.r.vect, asks := s.r.asks, replies := s.r.replies }

theorem State.worn_wear : s.worn s.wear = s := rfl

theorem State.worn_worn (x y : Wear) : (s.worn x).worn y = s.worn y := rfl

/-- The same with other translations in use. -/
def State.withPages (s : State) (l : List TlbEntry) : State := s.mapR fun r => { r with pages := l }

theorem State.withPages_withPages (l m : List TlbEntry) : (s.withPages l).withPages m = s.withPages m := rfl

/-! ### No choice given back -/

theorem walkVia_free_le (cache : List (Nat × Word)) (mem : List Host.Cell) (va n table free : Nat) :
    free ≤ (walkVia cache mem va n table free).free := by
  induction n generalizing table free with
  | zero => exact Nat.le_refl _
  | succ n ih =>
    unfold walkVia
    dsimp only
    generalize Option.filter _ _ = held
    have hfree : free ≤ if held.isSome = true then free + 1 else free := by split <;> omega
    generalize (if held.isSome = true then free + 1 else free) = drawn at hfree ⊢
    repeat' split
    all_goals first
      | exact hfree
      | exact hfree.trans (ih _ _)

theorem State.touchL2_free (key : Nat) (slice : Option Nat) (part : Nat) (write alloc : Bool) :
    (s.touchL2 key slice part write alloc).free = s.free := by
  unfold State.touchL2
  split <;> rfl

theorem State.foldl_touchL2_free (l : List Nat) (p : Nat) :
    (l.foldl (fun s a => s.touchL2 a none p false true) s).free = s.free := by
  induction l generalizing s with
  | nil => rfl
  | cons a l ih => exact ih.trans (s.touchL2_free _ _ _ _ _)

/-- A walk that ends at a leaf draws a choice. -/
theorem State.walkNow_free (va : Nat) : s.free ≤ (s.walkNow va).2.free ∧
    ∀ e size, (s.walkNow va).1 = .leaf e size → s.free < (s.walkNow va).2.free := by
  have hvia := fun cache => walkVia_free_le cache s.mem va 5 s.r.scal.sysr.ptbase.toNat s.free
  unfold State.walkNow
  dsimp only
  generalize hw : (if s.r.scal.sysr.ptbase.toNat < 2 ^ 41 then _ else _ : Walked) = w
  have hle : s.free ≤ w.free := by
    subst hw
    split
    · exact hvia _
    · exact Nat.le_refl _
  have hfold (c : Cluster) : ((w.read.foldl (fun t a => State.touchL2 t a none s.rid.part false true)
      { s with free := w.free }).setCluster c).free = w.free := State.foldl_touchL2_free _ _
  split
  · exact ⟨hle.trans (Nat.le_succ_of_le (hfold _).ge), fun _ _ _ => hle.trans_lt (Nat.lt_succ_of_le (hfold _).ge)⟩
  · next hn => exact ⟨hle.trans (hfold _).ge, fun e size h => absurd h (hn e size)⟩

theorem State.lookup_free (va : Nat) : s.free ≤ (s.lookup va).2.free := by
  unfold State.lookup
  split
  · exact (s.walkNow_free va).1
  · split
    · exact Nat.le_refl _
    · dsimp only
      split
      · exact Nat.le_succ _
      · exact (Nat.le_succ _).trans (State.walkNow_free (s := s.freeBool.2) va).1

theorem State.translate_free (va : Nat) : s.free ≤ (s.translate va).2.free := by
  have h := s.lookup_free va
  unfold State.translate
  split
  · exact Nat.le_refl _
  · split
    · next e => rw [e] at h; exact h
    · exact h

theorem State.viaTable_free (va : Nat) (k : AccKind) : s.free ≤ (s.viaTable va k).2.free := by
  have h := s.translate_free va
  unfold State.viaTable
  split <;> rename_i e <;> rw [e] at h
  · exact h
  · exact h
  · split
    · exact h
    · split <;> exact h

theorem State.ownerOf_free (g : Region) (va : Nat) : s.free ≤ (s.ownerOf g va).2.free := by
  unfold State.ownerOf
  dsimp only
  split
  · exact Nat.le_refl _
  · exact Nat.le_succ _
  · split
    · exact Nat.le_refl _
    · split
      · exact Nat.le_succ _
      · exact Nat.le_add_right s.free 2

/-! ### A key found by translations that the core holds -/

section
variable {x y : Wear} {va : Nat}

/-- Two states in the middle of an access between which the checks of an address cannot tell: the same bytes, the same
translations in use and held. -/
structure Wear.Like (s : State) (x y : Wear) : Prop where
  mem : y.mem = x.mem
  pages : y.pages = x.pages
  tlb : (s.worn y).myCore.tlb = (s.worn x).myCore.tlb

/-- What a part of the checks comes to that draws no choice, and so only takes translations that the core holds: it leaves
translations in use, and comes to the same in each state like the one it was made in. -/
def Held {α : Type} (s : State) (x : Wear) (f : State → α × State) (a : α) : Prop :=
  ∃ l, f (s.worn x) = (a, (s.worn x).withPages l) ∧ ∀ y, Wear.Like s x y → f (s.worn y) = (a, (s.worn y).withPages l)

theorem State.lookup_held {e : Word} {size : Nat} (h : ((s.worn x).lookup va).1 = .leaf e size)
    (hf : ((s.worn x).lookup va).2.free = x.free) : Held s x (·.lookup va) (.leaf e size) := by
  have hwalk (t : State) (ht : t.free = x.free ∨ t.free = x.free + 1) (hl : (t.walkNow va).1 = .leaf e size)
      (he : (t.walkNow va).2.free = x.free) : False := by
    have := (t.walkNow_free va).2 e size hl
    omega
  unfold State.lookup at h hf
  split at h
  · next hnone => rw [hnone] at hf; exact (hwalk _ (.inl rfl) h hf).elim
  · next r hsome =>
    rw [hsome] at hf
    dsimp only at hf
    split at h
    · next hnow =>
      cases h
      refine ⟨x.pages, ?_, fun y hy => ?_⟩
      · dsimp only
        rw [State.lookup, hsome]
        exact if_pos hnow
      · dsimp only
        rw [State.lookup, hy.tlb, ← hy.pages, show (s.worn y).rid.part = (s.worn x).rid.part from rfl, hsome]
        exact if_pos (by rw [show (s.worn y).mem = (s.worn x).mem from hy.mem]; exact hnow)
    · next hnow =>
      rw [if_neg hnow] at hf
      dsimp only at h
      split at h
      · next hold => rw [if_pos hold] at hf; exact absurd hf (Nat.succ_ne_self _)
      · next hold => rw [if_neg hold] at hf; exact (hwalk _ (.inr rfl) h hf).elim

theorem Wear.Like.withPages (h : Wear.Like s x y) (l : List TlbEntry) :
    Wear.Like s { x with pages := l } { y with pages := l } := ⟨h.mem, rfl, h.tlb⟩

theorem State.taken_like (h : Wear.Like s x y) (owner : Bool) : (s.worn y).taken owner va = (s.worn x).taken owner va := by
  unfold State.taken
  rw [show (s.worn y).r.pages = (s.worn x).r.pages from h.pages]

theorem State.translate_held {e : Word} {size : Nat} (h : ((s.worn x).translate va).1 = .leaf e size)
    (hf : ((s.worn x).translate va).2.free = x.free) : Held s x (·.translate va) (.leaf e size) := by
  unfold State.translate at h hf
  split at h
  · next r hr =>
    cases h
    refine ⟨x.pages, ?_, fun y hy => ?_⟩
    · dsimp only
      rw [State.translate, hr]
      rfl
    · dsimp only
      rw [State.translate, State.taken_like hy, hr, ← hy.pages]
      rfl
  · next hnone =>
    rw [hnone] at hf
    dsimp only at hf
    split at h
    · next l sz u hl =>
      cases h
      rw [hl] at hf
      obtain ⟨m, hx, hy⟩ := State.lookup_held (s := s) (x := x) (congrArg Prod.fst hl) ((congrArg (·.2.free) hl).trans hf)
      dsimp only at hx hy
      refine ⟨{ bank := tlbBank va, part := s.rid.part, page := va / size * size, size := size, leaf := e } :: m, ?_,
        fun y h => ?_⟩
      · dsimp only
        rw [State.translate, hnone, hx]
        rfl
      · dsimp only
        rw [State.translate, State.taken_like h, hnone, hy y h]
        rfl
    · next hl => exact (hl e size _ (Prod.ext h rfl)).elim

theorem State.viaTable_held {k : AccKind} {key : Nat} (h : ((s.worn x).viaTable va k).1 = .found key)
    (hf : ((s.worn x).viaTable va k).2.free = x.free) : Held s x (·.viaTable va k) (.found key) := by
  unfold State.viaTable at h hf
  split at h
  · cases h
  · cases h
  · next e size u hl =>
    rw [hl] at hf
    split at h
    · cases h
    · next hperm =>
      split at h
      · cases h
      · next hmove =>
        dsimp only at hf
        rw [if_neg hperm, if_neg hmove] at hf
        obtain ⟨m, hx, hy⟩ := State.translate_held (s := s) (x := x) (congrArg Prod.fst hl) ((congrArg (·.2.free) hl).trans hf)
        dsimp only at hx hy
        cases hl.symm.trans hx
        cases h
        refine ⟨m, ?_, fun y h => ?_⟩
        · dsimp only
          rw [State.viaTable, hx]
          dsimp only
          rw [if_neg hperm, if_neg hmove]
        · dsimp only
          rw [State.viaTable, hy y h]
          dsimp only
          exact (if_neg hperm).trans (if_neg hmove)

theorem State.ownerOf_held {g : Region} (hf : ((s.worn x).ownerOf g va).2.free = x.free) :
    Held s x (·.ownerOf g va) ((s.worn x).ownerOf g va).1 := by
  generalize hw : ((s.worn x).ownerOf g va).1 = w
  have hnow (y : Wear) (h : Wear.Like s x y) (b : Nat) : ownerNow (s.worn y).mem g b = ownerNow (s.worn x).mem g b :=
    congrArg (ownerNow · g b) h.mem
  unfold State.ownerOf at hw hf
  dsimp only at hw hf
  split at hw
  · next r _ hr =>
    subst hw
    refine ⟨x.pages, ?_, fun y h => ?_⟩
    · dsimp only
      rw [State.ownerOf]
      dsimp only
      rw [hr]
      rfl
    · dsimp only
      rw [State.ownerOf]
      dsimp only
      rw [State.taken_like h, hr, ← h.pages]
      rfl
  · next hr ht =>
    rw [hr, ht] at hf
    exact absurd hf (Nat.succ_ne_self _)
  · next r hr ht =>
    rw [hr, ht] at hf
    dsimp only at hf
    split at hw
    · next he =>
      subst hw
      refine ⟨{ bank := tlbBank va, part := s.rid.part, page := va / 2 ^ g.lb * 2 ^ g.lb, size := 2 ^ g.lb
                leaf := ownerNow x.mem g (va % 2 ^ 50 / 2 ^ g.lb), owner := true } :: x.pages, ?_, fun y h => ?_⟩
      · dsimp only
        rw [State.ownerOf]
        dsimp only
        rw [hr, ht]
        exact if_pos he
      · dsimp only
        rw [State.ownerOf]
        dsimp only
        rw [State.taken_like h, hr, h.tlb, hnow y h, show (s.worn y).rid.part = (s.worn x).rid.part from rfl, ht, ← h.pages]
        exact if_pos he
    · next he =>
      rw [if_neg he] at hf
      split at hf
      · exact absurd hf (Nat.succ_ne_self _)
      · exact absurd hf (show ¬x.free + 1 + 1 = x.free by omega)

/-- An address in a distributed region (R305), once the owner of its block is known. -/
def State.viaOwner (s : State) (e : Word) (va : Word) (k : AccKind) : Acc × State :=
  if 4096 ≤ e.toNat then (.trap .access, s)
  else if e.toNat == s.pacer.number then s.viaTable va.toNat k
  else if k = .fetch || !s.relayReaches e.toNat then (.trap .access, s)
  else (.peer e.toNat va, s)

/-- An address in a distributed region (R305). -/
def State.viaRegion (s : State) (g : Region) (va : Word) (k : AccKind) : Acc × State :=
  (s.ownerOf g va.toNat).2.viaOwner (s.ownerOf g va.toNat).1 va k

/-- An address in one of the windows, by its number (R296). -/
def State.viaWindow (s : State) (w : Nat) (va : Word) (n : Nat) (k : AccKind) : Acc × State :=
  match w with
  | 0 => (windowAcc k (va.toNat % 2 ^ 32) s.scratchSize n (Loc.scratch s.myTeamUid (va.toNat % 2 ^ 32)).key, s)
  | 1 => (windowAcc k (va.toNat % 2 ^ 32) s.tcmSize n (Loc.tcm s.myTeamUid s.mySlot (va.toNat % 2 ^ 32)).key, s)
  | 2 => s.viaTable (s.tableAddr va.toNat) k
  | 4 => (windowAcc k (va.toNat % 2 ^ 32) s.dsmSize n (Loc.dsm s.myHeatUid s.r.ident.core.die (va.toNat % 2 ^ 32)).key, s)
  | _ => (.trap .access, s)

/-- The parts of a state that say by which way an address is located are none that an access changes. -/
theorem State.locate_ways (s : State) (va : Word) (n : Nat) (k : AccKind) :
    (∃ a, ∀ z, (s.worn z).locate va n k = (s.worn z).viaTable a k) ∨
    (∃ r, ∀ z, (s.worn z).locate va n k = (r, s.worn z)) ∨
    ∃ g, ∀ z, (s.worn z).locate va n k = (s.worn z).viaRegion g va k := by
  by_cases h1 : va.toNat < 2 ^ 56
  · exact .inl ⟨_, fun z => if_pos h1⟩
  by_cases h2 : va.toNat < 0x0180000000000000
  · by_cases hm : ((va.toNat - 2 ^ 56) / 2 ^ 43 == s.pacer.number) = true
    · exact .inl ⟨s.tableAddr va.toNat, fun z => (if_neg h1).trans ((if_pos h2).trans (if_pos hm))⟩
    · by_cases hr : (k = .fetch || !s.relayReaches ((va.toNat - 2 ^ 56) / 2 ^ 43)) = true
      · exact .inr (.inl ⟨_, fun z => (if_neg h1).trans ((if_pos h2).trans ((if_neg hm).trans (if_pos hr)))⟩)
      · exact .inr (.inl ⟨_, fun z => (if_neg h1).trans ((if_pos h2).trans ((if_neg hm).trans (if_neg hr)))⟩)
  by_cases h3 : va.toNat < 0x01C0000000000000
  · have hreg (z : Wear) : (s.worn z).locate va n k =
        match (s.part? s.rid.part).bind fun p => p.regionAt va.toNat with
        | none => (.trap .access, s.worn z)
        | some g => if g.size < va.toNat % 2 ^ 50 + n then (.trap .access, s.worn z) else (s.worn z).viaRegion g va k :=
      (if_neg h1).trans ((if_neg h2).trans ((if_pos h3).trans rfl))
    generalize ((s.part? s.rid.part).bind fun p => p.regionAt va.toNat) = r at hreg
    cases r with
    | none => exact .inr (.inl ⟨_, hreg⟩)
    | some g =>
      by_cases hs : g.size < va.toNat % 2 ^ 50 + n
      · exact .inr (.inl ⟨_, fun z => (hreg z).trans (if_pos hs)⟩)
      · exact .inr (.inr ⟨g, fun z => (hreg z).trans (if_neg hs)⟩)
  by_cases h4 : va.toNat < 0x01FF000000000000
  · exact .inr (.inl ⟨_, fun z => (if_neg h1).trans ((if_neg h2).trans ((if_neg h3).trans (if_pos h4)))⟩)
  have hwin {w : Nat} (hw : (va.toNat - 0x01FF000000000000) / 2 ^ 32 = w) (z : Wear) :
      (s.worn z).locate va n k = (s.worn z).viaWindow w va n k := by
    unfold State.locate
    dsimp only
    rw [if_neg h1, if_neg h2, if_neg h3, if_neg h4, hw]
    rfl
  obtain ⟨w, hw⟩ : ∃ w, (va.toNat - 0x01FF000000000000) / 2 ^ 32 = w := ⟨_, rfl⟩
  match w, hw with
  | 0, h => exact .inr (.inl ⟨(s.viaWindow 0 va n k).1, hwin h⟩)
  | 1, h => exact .inr (.inl ⟨(s.viaWindow 1 va n k).1, hwin h⟩)
  | 2, h => exact .inl ⟨s.tableAddr va.toNat, hwin h⟩
  | 3, h => exact .inr (.inl ⟨(s.viaWindow 3 va n k).1, hwin h⟩)
  | 4, h => exact .inr (.inl ⟨(s.viaWindow 4 va n k).1, hwin h⟩)
  | _ + 5, h => exact .inr (.inl ⟨_, hwin h⟩)

theorem State.viaRegion_held {g : Region} {va : Word} {k : AccKind} {key : Nat}
    (h : ((s.worn x).viaRegion g va k).1 = .found key) (hf : ((s.worn x).viaRegion g va k).2.free = x.free) :
    Held s x (·.viaRegion g va k) (.found key) := by
  have hle : x.free ≤ ((s.worn x).ownerOf g va.toNat).2.free := State.ownerOf_free (s := s.worn x) g va.toNat
  unfold State.viaRegion at h hf
  generalize hw : ((s.worn x).ownerOf g va.toNat).1 = w at h hf
  generalize hu : ((s.worn x).ownerOf g va.toNat).2 = u at h hf hle
  unfold State.viaOwner at h hf
  split at h
  · cases h
  · next hbig =>
    rw [if_neg hbig] at hf
    split at h
    · next hhome =>
      rw [if_pos hhome] at hf
      have hfree : u.free = x.free := Nat.le_antisymm ((u.viaTable_free _ k).trans_eq hf) hle
      obtain ⟨m, hx, hy⟩ := State.ownerOf_held (s := s) (x := x) (g := g) (va := va.toNat) (hu ▸ hfree)
      dsimp only at hx hy
      rw [hw] at hx hy
      obtain rfl : u = (s.worn x).withPages m := hu.symm.trans (congrArg Prod.snd hx)
      obtain ⟨l, hx', hy'⟩ := State.viaTable_held (s := s) (x := { x with pages := m }) h hf
      refine ⟨l, ?_, fun y hl => ?_⟩
      · dsimp only
        rw [State.viaRegion, hx]
        exact (if_neg hbig).trans ((if_pos hhome).trans hx')
      · dsimp only
        rw [State.viaRegion, hy y hl]
        exact (if_neg hbig).trans ((if_pos hhome).trans (hy' _ (hl.withPages m)))
    · split at h <;> cases h

theorem State.locate_held {va : Word} {n : Nat} {k : AccKind} {key : Nat} (h : ((s.worn x).locate va n k).1 = .found key)
    (hf : ((s.worn x).locate va n k).2.free = x.free) : Held s x (·.locate va n k) (.found key) := by
  have hway : ∀ f : State → Acc × State, (∀ z, (s.worn z).locate va n k = f (s.worn z)) → Held s x f (.found key) →
      Held s x (·.locate va n k) (.found key) := fun f he ⟨l, hx, hy⟩ => ⟨l, (he x).trans hx, fun y hl => (he y).trans (hy y hl)⟩
  rcases s.locate_ways va n k with ⟨a, he⟩ | ⟨r, he⟩ | ⟨g, he⟩
  · rw [he x] at h hf
    exact hway _ he (State.viaTable_held h hf)
  · rw [he x] at h
    exact hway (fun t => (r, t)) he ⟨x.pages, Prod.ext h rfl, fun y hl => Prod.ext h (by rw [← hl.pages]; rfl)⟩
  · rw [he x] at h hf
    exact hway (·.viaRegion g va k) he (State.viaRegion_held h hf)

/-- Checks that find a key and draw no choice find it, and change no more, in each state like theirs. -/
theorem State.resolve_held {va : Word} {n al : Nat} {k : AccKind} {key : Nat}
    (h : ((s.worn x).resolve va n al k).1 = .found key) (hf : ((s.worn x).resolve va n al k).2.free = x.free) :
    Held s x (·.resolve va n al k) (.found key) := by
  unfold State.resolve at h hf
  split at h
  · cases h
  · next hrange =>
    rw [if_neg hrange] at hf
    split at h
    · cases h
    · next halign =>
      rw [if_neg halign] at hf
      split at h
      · next key' u hu =>
        rw [hu] at hf
        dsimp only at hf
        split at h
        · cases h
        · next hpin =>
          cases h
          rw [if_neg hpin] at hf
          obtain ⟨l, hx, hy⟩ := State.locate_held (s := s) (x := x) (congrArg Prod.fst hu) ((congrArg (·.2.free) hu).trans hf)
          dsimp only at hx hy
          obtain rfl : u = (s.worn x).withPages l := congrArg Prod.snd (hu.symm.trans hx)
          refine ⟨l, ?_, fun y hl => ?_⟩
          · dsimp only
            rw [State.resolve, if_neg hrange, if_neg halign, hx]
            exact if_neg hpin
          · dsimp only
            rw [State.resolve, if_neg hrange, if_neg halign, hy y hl]
            exact if_neg hpin
      · next hnot => exact (hnot _ _ (Prod.ext h rfl)).elim

/-! ### What the checks come to, whatever they draw -/

/-- Two states in the middle of an access in which the checks of an address draw the same choices too. -/
structure Wear.Twin (s : State) (x y : Wear) : Prop extends Wear.Like s x y where
  free : y.free = x.free

theorem State.walkNow_fst (t : State) (va : Nat) : (t.walkNow va).1 =
    (if t.r.scal.sysr.ptbase.toNat < 2 ^ 41 then walkVia
      (((t.cluster t.r.ident.core.die t.r.ident.core.cluster).walker.filter fun x => x.1 == t.rid.part).map (·.2))
      t.mem va 5 t.r.scal.sysr.ptbase.toNat t.free else { walk := .malformed, free := t.free }).walk := by
  unfold State.walkNow
  dsimp only
  split <;> rfl

theorem State.walkNow_twin (h : Wear.Twin s x y) (va : Nat) : ((s.worn y).walkNow va).1 = ((s.worn x).walkNow va).1 := by
  rw [State.walkNow_fst, State.walkNow_fst, show (s.worn y).mem = (s.worn x).mem from h.mem,
    show (s.worn y).free = (s.worn x).free from h.free]
  rfl

theorem State.lookup_twin (h : Wear.Twin s x y) (va : Nat) : ((s.worn y).lookup va).1 = ((s.worn x).lookup va).1 := by
  unfold State.lookup
  rw [show (s.worn y).mem = (s.worn x).mem from h.mem, h.tlb, show (s.worn y).rid.part = (s.worn x).rid.part from rfl]
  split
  · exact State.walkNow_twin h va
  · split
    · rw [if_pos ‹_›]
    · rw [if_neg ‹_›]
      dsimp only
      rw [show (s.worn y).freeBool.1 = (s.worn x).freeBool.1 from congrArg Config.freeBool h.free]
      split
      · rfl
      · exact State.walkNow_twin (x := { x with free := x.free + 1 }) (y := { y with free := y.free + 1 })
          ⟨⟨h.mem, h.pages, h.tlb⟩, congrArg (· + 1) h.free⟩ va

theorem State.translate_fst (t : State) (va : Nat) : (t.translate va).1 =
    ((t.taken false va).map fun e => Walk.leaf e.leaf e.size).getD (t.lookup va).1 := by
  unfold State.translate
  cases t.taken false va with
  | some e => rfl
  | none =>
    dsimp only [Option.map_none, Option.getD_none]
    split
    · next hl => rw [hl]
    · rfl

theorem State.viaTable_fst (t : State) (va : Nat) (k : AccKind) : (t.viaTable va k).1 =
    match (t.translate va).1 with
    | .invalid => .service
    | .malformed => .trap .access
    | .leaf e size =>
      if !leafPermits t.r.scal.sysr.sys k e then .trap .access
      else if t.pageMoving va then .moving else .found (leafKey e size va) := by
  have ha := t.translate_apart va
  unfold State.viaTable
  split
  · next e => rw [e]
  · next e => rw [e]
  · next e =>
    rw [e] at ha ⊢
    obtain ⟨_, _, _, _, _, _, rfl⟩ := ha
    dsimp only
    split
    · rfl
    · exact apply_ite Prod.fst ..

theorem State.viaTable_twin (h : Wear.Twin s x y) (va : Nat) (k : AccKind) :
    ((s.worn y).viaTable va k).1 = ((s.worn x).viaTable va k).1 := by
  rw [State.viaTable_fst, State.viaTable_fst, State.translate_fst, State.translate_fst, State.lookup_twin h,
    State.taken_like h.toLike]
  rfl

theorem State.holdTlb_twin (h : Wear.Twin s x y) (e : TlbEntry) : ∃ x' y', Wear.Twin s x' y' ∧
    (s.worn x).holdTlb e = s.worn x' ∧ (s.worn y).holdTlb e = s.worn y' := by
  have htlb (z : Wear) : ((s.worn z).holdTlb e).myCore.tlb = tlbHold z.free (s.worn z).myCore.tlb e :=
    congrArg Core.tlb ((s.worn z).setCore_myCore { (s.worn z).myCore with tlb := tlbHold z.free (s.worn z).myCore.tlb e }
      (s.worn z).myCore_id)
  refine ⟨((s.worn x).holdTlb e).wear, ((s.worn y).holdTlb e).wear, ⟨⟨h.mem, h.pages, ?_⟩, congrArg (· + 1) h.free⟩, rfl, rfl⟩
  change ((s.worn y).holdTlb e).myCore.tlb = ((s.worn x).holdTlb e).myCore.tlb
  rw [htlb, htlb, h.tlb, h.free]

/-- The owner of a block, and twins again. -/
theorem State.ownerOf_twin (h : Wear.Twin s x y) (g : Region) (va : Nat) : ∃ w x' y', Wear.Twin s x' y' ∧
    (s.worn x).ownerOf g va = (w, s.worn x') ∧ (s.worn y).ownerOf g va = (w, s.worn y') := by
  have htake {x y : Wear} (h : Wear.Twin s x y) (e : TlbEntry) :
      Wear.Twin s { x with pages := e :: x.pages } { y with pages := e :: y.pages } :=
    ⟨⟨h.mem, congrArg (e :: ·) h.pages, h.tlb⟩, h.free⟩
  have hnow (b : Nat) : ownerNow (s.worn y).mem g b = ownerNow (s.worn x).mem g b := congrArg (ownerNow · g b) h.mem
  unfold State.ownerOf
  dsimp only
  rw [State.taken_like h.toLike, h.tlb, hnow, show (s.worn y).rid = (s.worn x).rid from rfl]
  split
  · exact ⟨_, x, y, h, rfl, rfl⟩
  · obtain ⟨x', y', h', hx, hy⟩ := State.holdTlb_twin h
      { bank := tlbBank va, part := (s.worn x).rid.part, page := va / 2 ^ g.lb * 2 ^ g.lb, size := 2 ^ g.lb
        leaf := ownerNow (s.worn x).mem g (va % 2 ^ 50 / 2 ^ g.lb), owner := true }
    rw [hx, hy]
    exact ⟨_, _, _, htake h' _, rfl, rfl⟩
  · split
    · exact ⟨_, _, _, htake h _, rfl, rfl⟩
    · have h' : Wear.Twin s { x with free := x.free + 1 } { y with free := y.free + 1 } :=
        ⟨⟨h.mem, h.pages, h.tlb⟩, congrArg (· + 1) h.free⟩
      rw [show (s.worn y).freeBool.1 = (s.worn x).freeBool.1 from congrArg Config.freeBool h.free]
      split
      · exact ⟨_, _, _, htake h' _, rfl, rfl⟩
      · obtain ⟨x', y', h'', hx, hy⟩ := State.holdTlb_twin h'
          { bank := tlbBank va, part := (s.worn x).rid.part, page := va / 2 ^ g.lb * 2 ^ g.lb, size := 2 ^ g.lb
            leaf := ownerNow (s.worn x).mem g (va % 2 ^ 50 / 2 ^ g.lb), owner := true }
        rw [show (s.worn x).freeBool.2 = s.worn { x with free := x.free + 1 } from rfl,
          show (s.worn y).freeBool.2 = s.worn { y with free := y.free + 1 } from rfl, hx, hy]
        exact ⟨_, _, _, htake h'' _, rfl, rfl⟩

theorem State.viaRegion_twin (h : Wear.Twin s x y) (g : Region) (va : Word) (k : AccKind) :
    ((s.worn y).viaRegion g va k).1 = ((s.worn x).viaRegion g va k).1 := by
  obtain ⟨w, x', y', h', hx, hy⟩ := State.ownerOf_twin h g va.toNat
  unfold State.viaRegion State.viaOwner
  rw [hx, hy]
  dsimp only
  rw [show (s.worn y').pacer = (s.worn x').pacer from rfl,
    show (s.worn y').relayReaches w.toNat = (s.worn x').relayReaches w.toNat from rfl]
  split
  · rfl
  · split
    · exact State.viaTable_twin h' _ k
    · split <;> rfl

theorem State.locate_twin (h : Wear.Twin s x y) (va : Word) (n : Nat) (k : AccKind) :
    ((s.worn y).locate va n k).1 = ((s.worn x).locate va n k).1 := by
  rcases s.locate_ways va n k with ⟨a, he⟩ | ⟨r, he⟩ | ⟨g, he⟩
  · rw [he x, he y]
    exact State.viaTable_twin h a k
  · rw [he x, he y]
  · rw [he x, he y]
    exact State.viaRegion_twin h g va k

theorem State.resolve_fst (t : State) (va : Word) (n al : Nat) (k : AccKind) : (t.resolve va n al k).1 =
    if 2 ^ 57 ≤ va.toNat then .trap .access
    else if va.toNat % al != 0 then .trap .align
    else match (t.locate va n k).1 with
      | .found key => if (k = .store || k = .amo) && t.pinFault va then .trap .access else .found key
      | r => r := by
  have ha := t.locate_apart va n k
  unfold State.resolve
  split
  · rfl
  · split
    · rfl
    · split
      · next e =>
        rw [e] at ha ⊢
        obtain ⟨_, _, _, _, _, _, rfl⟩ := ha
        exact apply_ite Prod.fst ..
      · next hnot =>
        split
        · next e => exact (hnot _ _ (Prod.ext e rfl)).elim
        · rfl

/-- The checks of an address come to the same in twins. -/
theorem State.resolve_twin (h : Wear.Twin s x y) (va : Word) (n al : Nat) (k : AccKind) :
    ((s.worn y).resolve va n al k).1 = ((s.worn x).resolve va n al k).1 := by
  rw [State.resolve_fst, State.resolve_fst, State.locate_twin h]
  rfl

end

end Sys2Proof.Machine
end

section
/-! What holds in the middle of an access (O36–O41): the checks go on as at its start, the bytes of its elements are read
as they are. -/

namespace Sys2Proof.Machine
variable {s t u : State}

/-! ### Changes beside memory and the running runner -/

/-- No tile store is outstanding on a core (R181). -/
def Core.Idle (c : Core) : Prop := ∀ a, c.att = some a → a.ops = []

/-- Only caches, other runners' histories and the free choices have changed: the running runner's core holds the same
translations and no older bytes, tile stores will write the same. -/
structure Besides (s t : State) : Prop where
  eq : ∃ cs l n f rs, t = { s with cores := cs, lines := l, under := n, free := f, rs := rs }
  tlb : t.myCore.tlb = s.myCore.tlb
  newer : L1Newer s t
  pending : t.pending = s.pending
  idle : s.myCore.Idle → t.myCore.Idle

theorem Besides.trans (h : Besides s t) (k : Besides t u) : Besides s u := by
  refine ⟨?_, k.tlb.trans h.tlb, fun l hl b hb => ?_, k.pending.trans h.pending, k.idle ∘ h.idle⟩
  · obtain ⟨_, _, _, _, _, rfl⟩ := h.eq
    obtain ⟨cs, l, n, f, rs, rfl⟩ := k.eq
    exact ⟨cs, l, n, f, rs, rfl⟩
  · obtain ⟨l', hl', hb'⟩ := k.newer l hl b hb
    exact h.newer l' hl' b hb'

theorem Besides.refl : Besides s s := ⟨⟨_, _, _, _, _, rfl⟩, rfl, fun l hl _ hb => ⟨l, hl, hb⟩, rfl, id⟩

/-- The later part first, which fixes the state between. -/
theorem Besides.after (k : Besides t u) (h : Besides s t) : Besides s u := h.trans k

theorem Besides.of_landing (h : Landing s t) (htlb : t.myCore.tlb = s.myCore.tlb) (hatt : t.myCore.att = s.myCore.att) :
    Besides s t := by
  refine ⟨?_, htlb, h.newer, h.beneath.2, fun hi a ha => hi a (hatt.symm.trans ha)⟩
  obtain ⟨⟨cs, l, n, f, rfl⟩, -⟩ := h.beneath
  exact ⟨cs, l, n, f, s.rs, rfl⟩

theorem Besides.r (h : Besides s t) : t.r = s.r := by
  obtain ⟨_, _, _, _, _, rfl⟩ := h.eq
  rfl

theorem Besides.mem (h : Besides s t) : t.mem = s.mem := by
  obtain ⟨_, _, _, _, _, rfl⟩ := h.eq
  rfl

theorem Besides.poison (h : Besides s t) : t.poison = s.poison := by
  obtain ⟨_, _, _, _, _, rfl⟩ := h.eq
  rfl

/-- Where the cores are as they were nothing of them has changed. -/
theorem Besides.of_cores (h : ∃ l n f rs, t = { s with lines := l, under := n, free := f, rs := rs }) : Besides s t := by
  obtain ⟨l, n, f, rs, rfl⟩ := h
  exact ⟨⟨_, _, _, _, _, rfl⟩, rfl, fun l hl _ hb => ⟨l, hl, hb⟩, rfl, id⟩

theorem State.exposeOthers_besides (p : Nat → Bool) : Besides s (s.exposeOthers p) := .of_cores ⟨_, _, _, _, rfl⟩

theorem State.freeBool_besides : Besides s s.freeBool.2 := .of_cores ⟨_, _, _, _, rfl⟩

/-- The running runner's core put back with the same translations, bytes and tile stores. -/
theorem State.setCore_besides {c : Core} (hid : c.id = s.r.ident.core) (htlb : c.tlb = s.myCore.tlb)
    (hl : c.l1 = s.myCore.l1) (ha : c.att = s.myCore.att) : Besides s (s.setCore c) := by
  have hb := s.setCore_sameHeldBack hid hl ha
  have hc := s.setCore_myCore c hid
  refine ⟨⟨_, _, _, _, _, rfl⟩, (congrArg Core.tlb hc).trans htlb, fun l hl _ hb' => ⟨l, ?_, hb'⟩, hb.pending, ?_⟩
  · rwa [hb.l1] at hl
  · rw [hc]
    exact fun hi a ha' => hi a (ha.symm.trans ha')

theorem State.mapL1_core (f : List L1Line → List L1Line) : (s.mapL1 f).myCore = { s.myCore with l1 := f s.myCore.l1 } :=
  (s.setCore_myCore { s.myCore with l1 := f s.myCore.l1 } s.myCore_id).trans rfl

/-- What a load leaves of the running runner's core but its L1. -/
def SameHeld (s t : State) : Prop := t.myCore.tlb = s.myCore.tlb ∧ t.myCore.att = s.myCore.att

theorem State.mapL1_held (f : List L1Line → List L1Line) : SameHeld s (s.mapL1 f) := by
  rw [SameHeld, State.mapL1_core]
  exact ⟨rfl, rfl⟩

theorem State.servedBy_held (v : Via) (key : Nat) : SameHeld s (s.servedBy v key).2 := by
  have hfree : SameHeld s s.freeBool.2 := ⟨rfl, rfl⟩
  unfold State.servedBy
  split
  · exact ⟨rfl, rfl⟩
  · dsimp only
    split
    · split
      · exact hfree
      · exact ⟨rfl, rfl⟩
    · split
      · exact hfree
      · exact ⟨rfl, rfl⟩
    · exact hfree
    · exact ⟨rfl, rfl⟩

theorem State.servedBy_besides (v : Via) (key : Nat) : Besides s (s.servedBy v key).2 :=
  .of_landing (s.servedBy_landing v key) (s.servedBy_held v key).1 (s.servedBy_held v key).2

theorem State.refillL1_held (served alloc : Bool) (key : Nat) : SameHeld s (s.refillL1 served alloc key) := by
  unfold State.refillL1
  split
  · exact ⟨rfl, rfl⟩
  · exact State.mapL1_held (s := s) fun l1 =>
      if alloc then l1Fill s.l1Sets s.free (lineOf key) (freshened served key l1) else freshened served key l1

theorem State.loadLines_besides (v : Via) (w : Served) (key : Nat) (slice : Option Nat) :
    Besides s (s.loadLines v w key slice) := by
  have hheld : SameHeld s (s.loadLines v w key slice) := by
    unfold State.loadLines
    exact State.refillL1_held _ _ _
  exact .of_landing (s.loadLines_landing v w key slice) hheld.1 hheld.2

theorem State.heatPage_besides (va : Word) (form : VForm) : Besides s (s.heatPage va form) := by
  unfold State.heatPage
  split
  · exact .refl
  · exact State.setCore_besides s.myCore_id rfl rfl rfl

/-- The core of a number after every core has changed. -/
theorem State.core_map {f : Core → Core} (hf : ∀ c, (f c).id = c.id) (k : CoreId) :
    (s.core k = Core.blank k ∧ ({ s with cores := s.cores.map f } : State).core k = Core.blank k) ∨
      ({ s with cores := s.cores.map f } : State).core k = f (s.core k) := by
  have hfind : (s.cores.map f).find? (fun x => x.id == k) = (s.cores.find? fun x => x.id == k).map f := by
    rw [List.find?_map]
    congr 2
    funext c
    exact congrArg (· == k) (hf c)
  unfold State.core
  dsimp only
  rw [hfind]
  cases s.cores.find? fun x => x.id == k with
  | none => exact .inl ⟨rfl, rfl⟩
  | some c => exact .inr rfl

/-- Every core changed, its translations and its tile stores' bytes kept, its L1 no older. -/
theorem Besides.of_map {f : Core → Core} {n : Nat} (hid : ∀ c, (f c).id = c.id) (htlb : ∀ c, (f c).tlb = c.tlb)
    (hl : ∀ c, c.id = s.r.ident.core → ∀ l ∈ (f c).l1, ∀ b ∈ l.old, ∃ k ∈ c.l1, b ∈ k.old)
    (hp : ∀ c, (f c).pendingKeys = c.pendingKeys) (hi : ∀ c, c.Idle → (f c).Idle) :
    Besides s { s with cores := s.cores.map f, free := n } := by
  have hcore := s.core_map hid s.r.ident.core
  have hmy : ({ s with cores := s.cores.map f, free := n } : State).myCore =
      ({ s with cores := s.cores.map f } : State).core s.r.ident.core := rfl
  refine ⟨⟨_, _, _, _, _, rfl⟩, ?_, fun l hl' b hb => ?_, pending_of_cores hp rfl, fun h => ?_⟩
  · rw [hmy]
    rcases hcore with ⟨h, h'⟩ | h
    · rw [h', State.myCore, h]
    · rw [h, htlb]
      rfl
  · rw [hmy] at hl'
    rcases hcore with ⟨h, h'⟩ | h
    · rw [h'] at hl'
      exact absurd hl' List.not_mem_nil
    · rw [h] at hl'
      exact hl s.myCore s.myCore_id l hl' b hb
  · rw [hmy]
    rcases hcore with ⟨-, h'⟩ | h'
    · rw [h']
      exact fun a ha => nomatch ha
    · rw [h']
      exact hi _ h

theorem State.touchTiles_besides (who loads : RunnerId → Bool) (cells : List Host.Cell) :
    Besides s (s.touchTiles who loads cells) := by
  unfold State.touchTiles
  split
  · exact .refl
  · refine .of_map (fun _ => rfl) (fun _ => rfl) (fun _ _ l hl b hb => ⟨l, hl, hb⟩) (fun c => ?_) fun c hc a ha => ?_
    · unfold Core.pendingKeys
      cases c.att with
      | none => rfl
      | some a => simp [Attach.touched_opCells]
    · obtain ⟨b, hb, rfl⟩ := Option.map_eq_some_iff.mp ha
      have h := b.touched_opCells who loads s.free cells
      rw [Attach.opCells, Attach.opCells, hc b hb] at h
      exact List.map_eq_nil_iff.mp h

/-- A store of the running runner leaves its own core's L1 no older. -/
theorem State.staleL1_besides (r : RunnerId) (num : Nat) (cells : List Host.Cell) :
    Besides s (s.staleL1 (some (s.r.ident.core, r, num)) cells) := by
  unfold State.staleL1
  split
  · exact .refl
  · refine .of_map (n := s.free) (fun _ => rfl) (fun _ => rfl) (fun c hc l hl b hb => ?_) (fun _ => rfl) fun _ => id
    dsimp only at hl
    rw [if_pos hc] at hl
    obtain ⟨k, hk, rfl⟩ := List.mem_map.mp hl
    exact ⟨k, hk, (List.mem_filter.mp hb).1⟩

theorem State.writeL2_besides (keys : List Nat) (slice : Nat → Option Nat) (part : Nat) (alloc : Bool) :
    Besides s (s.writeL2 keys slice part alloc) := by
  have htouch (t : State) (k : Nat) (sl : Option Nat) (p : Nat) (w a : Bool) : Besides t (t.touchL2 k sl p w a) := by
    unfold State.touchL2
    split
    · exact .refl
    · exact .of_cores ⟨_, _, _, _, rfl⟩
  have hfold (l : List Nat) (t : State) (h : Besides s t) :
      Besides s (l.foldl (fun s l => s.touchL2 (l * 128) (slice l) part true alloc) t) := by
    induction l generalizing t with
    | nil => exact h
    | cons x l ih => exact ih _ (h.trans (htouch _ _ _ _ _ _))
  unfold State.writeL2
  exact (hfold _ s .refl).trans (.of_cores ⟨_, _, _, _, rfl⟩)

/-! ### Bytes read as they are -/

/-- Bytes that an observer of the running runner reads as memory has them. -/
structure Unhidden (o : Obs) (s : State) (k n : Nat) : Prop where
  pending : s.pending = []
  clean : poisonMeets s.poison k n = none
  hist : ∀ h ∈ s.r.hist, h.seenBy o = true → h.meets k n = false
  l1 : ∀ l ∈ s.myCore.l1, ∀ c ∈ l.old, ¬(k ≤ c.1 ∧ c.1 < k + n)

section
variable {o : Obs} {k n : Nat}

theorem Unhidden.besides (h : Unhidden o s k n) (ha : Besides s t) : Unhidden o t k n := by
  refine ⟨ha.pending.trans h.pending, ha.poison ▸ h.clean, ha.r ▸ h.hist, fun l hl b hb => ?_⟩
  obtain ⟨l', hl', hb'⟩ := ha.newer l hl b hb
  exact h.l1 l' hl' b hb'

theorem State.seenVia_unhidden (h : Unhidden o s k n) :
    s.seenVia o (s.l1Lines k) k n = ((bytesAt s.mem k n, bytesAt s.mem k n), s.exposeOthers (inKeys k n)) := by
  have hundo : undo ((s.l1Lines k).flatMap (·.old)) k (bytesAt s.mem k n) = bytesAt s.mem k n := by
    refine undo_of_apart fun c hc => ?_
    obtain ⟨l, hl, hcl⟩ := List.mem_flatMap.mp hc
    rw [bytesAt_length]
    exact h.l1 l (List.mem_filter.mp hl).1 c hcl
  have hseen : ((s.r.hist.filter fun h => h.meets k n).all fun h => !h.seenBy o) = true := by
    refine List.all_eq_true.mpr fun g hg => ?_
    obtain ⟨hg, hm⟩ := List.mem_filter.mp hg
    cases hs : g.seenBy o with
    | false => rfl
    | true => rw [h.hist g hg hs] at hm; cases hm
  unfold State.seenVia
  rw [State.look_of_pending h.pending]
  dsimp only
  rw [show (s.exposeOthers (inKeys k n)).r = s.r from rfl, if_pos hseen, hundo]

/-- Bytes that nothing hides, read: memory's, with the side's own stores laid over them. -/
theorem State.readBy_unhidden {v : Via} {pin va : Word} (h : Unhidden o s k n) (hpin : s.pinFaultBy pin va = false) :
    ∃ t, s.readBy o v pin va k n = .ok (s.r.lay o k (bytesAt s.mem k n), t) ∧ Besides s t := by
  have hw := s.servedBy_besides v k
  unfold State.readBy
  generalize s.servedBy v k = w at hw
  obtain ⟨w, u⟩ := w
  dsimp only at hw ⊢
  have hu := h.besides hw
  have hpin' : u.pinFaultBy pin va = false := by
    obtain ⟨_, _, _, _, _, rfl⟩ := hw.eq
    exact hpin
  have hlines := (u.exposeOthers (inKeys k n)).loadLines_besides v w k (u.pinSliceBy pin va)
  rw [hpin', hu.clean]
  unfold State.readRaw State.readUnder
  rw [State.seenVia_unhidden hu]
  refine ⟨_, ?_, (hw.trans (u.exposeOthers_besides _)).trans hlines⟩
  simp only [bne_self_eq_false, Bool.false_and, Bool.false_eq_true, if_false]
  rw [hlines.r, ← hw.mem, ← hw.r]
  rfl

end

/-! ### In the middle of an access -/

/-- A state in the middle of an access that began in `s` and writes only within a footprint: the checks of an address go
on as at its start, and what `o` reads was hidden then if it is hidden now. -/
structure During (o : Obs) (foot : Nat → Prop) (s t : State) : Prop where
  worn : t = s.worn t.wear
  tlb : t.myCore.tlb = s.myCore.tlb
  pages : ∀ e ∈ t.r.pages, e ∈ s.myCore.tlb
  newer : L1Newer s t
  pending : t.pending = s.pending
  mem : ∀ a, ¬foot a → t.byteAt a = s.byteAt a
  hist : ∀ h ∈ t.r.hist, h.seenBy o = true → h ∈ s.r.hist
  poison : ∀ k n, poisonMeets s.poison k n = none → poisonMeets t.poison k n = none
  idle : s.myCore.Idle → t.myCore.Idle

section
variable {o : Obs} {foot : Nat → Prop}

theorem During.start (hp : s.r.pages = []) : During o foot s s :=
  ⟨rfl, rfl, by rw [hp]; exact fun _ h => absurd h List.not_mem_nil, fun l hl _ hb => ⟨l, hl, hb⟩, rfl, fun _ _ => rfl,
    fun _ h _ => h, fun _ _ h => h, id⟩

theorem During.besides (h : During o foot s t) (ha : Besides t u) : During o foot s u := by
  refine ⟨?_, ha.tlb.trans h.tlb, ha.r ▸ h.pages, fun l hl b hb => ?_, ha.pending.trans h.pending, fun a hf => ?_, ha.r ▸ h.hist,
    ha.poison ▸ h.poison, ha.idle ∘ h.idle⟩
  · obtain ⟨_, _, _, _, _, rfl⟩ := ha.eq
    rw [h.worn]
    rfl
  · obtain ⟨l', hl', hb'⟩ := ha.newer l hl b hb
    exact h.newer l' hl' b hb'
  · rw [State.byteAt, ha.mem]
    exact h.mem a hf

theorem During.withPages (h : During o foot s t) {l : List TlbEntry} (hl : ∀ e ∈ l, e ∈ s.myCore.tlb) :
    During o foot s (t.withPages l) :=
  ⟨by rw [h.worn]; rfl, h.tlb, hl, h.newer, h.pending, h.mem, h.hist, h.poison, h.idle⟩

theorem During.setVect (h : During o foot s t) (v : Vect) : During o foot s (t.setVect v) :=
  ⟨by rw [h.worn]; rfl, h.tlb, h.pages, h.newer, h.pending, h.mem, h.hist, h.poison, h.idle⟩

theorem During.setVreg (h : During o foot s t) (n : VR) (x : VReg) : During o foot s (t.setVreg n x) :=
  h.setVect _

theorem During.spent (h : During o foot s t) : During o foot s t.spent :=
  ⟨by rw [h.worn]; rfl, h.tlb, h.pages, h.newer, h.pending, h.mem, h.hist, h.poison, h.idle⟩

theorem During.newPages (h : During o foot s t) : During o foot s t.newPages := by
  unfold State.newPages
  split
  · exact h
  · exact h.withPages fun _ h => absurd h List.not_mem_nil

theorem During.nextPage (h : During o foot s t) (form : VForm) : During o foot s (t.nextPage form) := by
  unfold State.nextPage
  split
  · exact h.newPages
  · exact h

/-- An address that the core's translations serve is found. -/
theorem During.resolve {va : Word} {n key : Nat} {k : AccKind} (h : During o foot s t) (hs : Serves s foot va n k key) :
    ∃ l, (∀ e ∈ l, e ∈ s.myCore.tlb) ∧ t.resolve va n n k = (.found key, t.withPages l) := by
  obtain ⟨l', hl', hr⟩ := hs.1 t.mem t.r.pages h.mem h.pages
  have hserved : s.served t.mem t.r.pages = s.worn { s.wear with mem := t.mem, pages := t.r.pages } := rfl
  rw [hserved] at hr
  obtain ⟨l, hx, hy⟩ := State.resolve_held (congrArg Prod.fst hr) (congrArg (·.2.free) hr)
  have hlike : Wear.Like s { s.wear with mem := t.mem, pages := t.r.pages } t.wear := ⟨rfl, rfl, by rw [← h.worn]; exact h.tlb⟩
  refine ⟨l, ?_, ?_⟩
  · have : l = l' := congrArg (·.2.r.pages) (hx.symm.trans hr)
    exact this ▸ hl'
  · have := hy _ hlike
    rwa [← h.worn] at this

theorem During.check {va : Word} {n key : Nat} {k : AccKind} (h : During o foot s t) (hs : Serves s foot va n k key) :
    ∃ u, t.check va n n k = .ok (.found key, u) ∧ During o foot s u ∧ ∃ l, u = t.withPages l := by
  obtain ⟨l, hl, hr⟩ := h.resolve hs
  refine ⟨t.withPages l, ?_, h.withPages hl, l, rfl⟩
  unfold State.check
  rw [hr]

theorem During.unhidden {va : Word} {n key : Nat} {k : AccKind} (h : During o foot s t) (hs : Serves s foot va n k key)
    (hp : s.pending = []) : Unhidden o t key n := by
  obtain ⟨-, -, hclean, hhist, hl1, -, -⟩ := hs
  refine ⟨h.pending.trans hp, h.poison _ _ hclean, fun g hg hv => hhist g (h.hist g hg hv), fun l hl c hc => ?_⟩
  obtain ⟨l', hl', hc'⟩ := h.newer l hl c hc
  exact hl1 l' hl' c hc'

theorem Serves.not_isHostKey {va : Word} {n key : Nat} {k : AccKind} (hs : Serves s foot va n k key) (hn : 0 < n) :
    isHostKey key = false := by
  obtain ⟨-, hin, -⟩ := hs
  have := hin key (Nat.le_refl key) (by omega)
  rw [isOutKey, Bool.or_eq_false_iff] at this
  exact this.2

/-- A load in the middle of an access. -/
theorem During.load {va : Word} {n key : Nat} (h : During o foot s t) (hs : Serves s foot va n .load key) (hn : 0 < n)
    (hp : s.pending = []) (v : Via) :
    ∃ u, t.load o v va n n = .ok (t.r.lay o key (bytesAt t.mem key n), u) ∧ During o foot s u ∧ u.r.vect = t.r.vect ∧
      u.mem = t.mem := by
  obtain ⟨w, hc, hw, l, rfl⟩ := h.check hs
  have hpin : (t.withPages l).pinFaultBy (t.withPages l).r.scal.pinslice va = false := by
    obtain ⟨-, -, -, -, -, hpin, -⟩ := hs
    rw [hw.worn]
    exact hpin
  obtain ⟨u, hu, ha⟩ := State.readBy_unhidden (v := v) (hw.unhidden hs hp) hpin
  refine ⟨u, ?_, hw.besides ha, (congrArg Runner.vect ha.r).trans rfl, ha.mem⟩
  unfold State.load
  rw [hc]
  simp only [bind, Except.bind, hs.not_isHostKey hn, Bool.false_eq_true, if_false]
  exact hu

end

end Sys2Proof.Machine
end

section
/-! Vector loads of whole-byte tags (O36): each active element is read from its address while nothing stops the access (R148,
R149, R154); VLDFF ends before the first later element whose check fails (R155). -/

namespace Sys2Proof.Machine
variable {s t u : State}

/-! ### Registers of whole bytes -/

/-- A register of elements of w bytes each, without scales. -/
structure State.Bytewise (s : State) (vd : VR) (w : Nat) : Prop where
  kind : s.destKind vd = .int ∨ s.destKind vd = .float
  pos : 0 < w
  width : (s.fmtOf vd).width = 8 * w
  whole : (s.fmtOf vd).wholeBytes = some w
  bitAt : ∀ i, (s.fmtOf vd).bitAt i = (s.fmtOf vd).width * i

section
variable {vd : VR} {w : Nat}

/-- A format of whole bytes. -/
theorem Fmt.wholeBytes_eq {f : Fmt} {w : Nat} (h : f.wholeBytes = some w) :
    0 < w ∧ f.width = 8 * w ∧ ∀ i, f.bitAt i = f.width * i := by
  cases f with
  | untagged | mask | int4g | int3g => cases h
  | fp g => cases g <;> cases h <;> exact ⟨by decide, by decide, fun _ => rfl⟩
  | _ => cases h; exact ⟨by decide, by decide, fun _ => rfl⟩

theorem VReg.wholeBytes_of_kind {v : VReg} (h : v.kind = .int ∨ v.kind = .float) :
    (v.fmt.getD .untagged).wholeBytes = some ((v.fmt.getD .untagged).width / 8) := by
  cases hf : v.fmt with
  | none => simp [VReg.kind, hf] at h
  | some f =>
    cases f with
    | untagged | mask | int4g | int3g => simp [VReg.kind, hf] at h
    | _ => rfl

theorem VReg.kind_of_destKind {v : VReg} (h : v.destKind = .int ∨ v.destKind = .float) : v.kind = .int ∨ v.kind = .float := by
  unfold VReg.destKind at h
  split at h
  · simp at h
  · exact h

theorem State.bytewise (h : s.destKind vd = .int ∨ s.destKind vd = .float) : s.Bytewise vd ((s.fmtOf vd).width / 8) := by
  have hw := VReg.wholeBytes_of_kind (VReg.kind_of_destKind h)
  obtain ⟨hpos, hwidth, hbit⟩ := Fmt.wholeBytes_eq hw
  exact ⟨h, hpos, hwidth, hw, hbit⟩

end

/-! ### The elements of an access -/

/-- The elements of an access that all complete, one after the other. -/
theorem eachElem_all {elem : Nat → State → M (Unit × State)} {els : List Nat} {inv : List Nat → State → Prop}
    (hstep : ∀ l i l' t, els = l ++ i :: l' → inv l t → ∃ u, elem i t = .ok ((), u) ∧ inv (l ++ [i]) u.spent)
    {done rest : List Nat} (he : els = done ++ rest) (blk : Option Nat) (h : inv done t) :
    ∃ u, eachElem none elem rest blk t = .ok ((), u) ∧ inv els u := by
  induction rest generalizing done t blk with
  | nil => exact ⟨t, rfl, by rw [he, List.append_nil]; exact h⟩
  | cons i rest ih =>
    obtain ⟨u, hu, hinv⟩ := hstep done i rest t he h
    obtain ⟨z, hz, hend⟩ := ih (done := done ++ [i]) (by rw [he, List.append_assoc]; rfl) (some (i / 32)) hinv
    refine ⟨z, ?_, hend⟩
    rw [eachElem]
    simp only [bind, Except.bind, hu, stopAt]
    exact hz

/-! ### Elements loaded -/

section
variable {vd : VR} {w : Nat} {base : Word} {form : VForm} {els : List Nat} {val : Nat → Nat}

/-- A register whose elements of a list have been loaded. -/
def Vect.loaded (v : Vect) (d : VR) (f : Fmt) (val : Nat → Nat) (l : List Nat) : Vect :=
  l.foldl (fun (v : Vect) (j : Nat) => v.putElem d f j (val j)) v

theorem Vect.loaded_concat (v : Vect) (d : VR) (f : Fmt) (l : List Nat) (i : Nat) :
    v.loaded d f val (l ++ [i]) = (v.loaded d f val l).putElem d f i (val i) := by
  rw [Vect.loaded, List.foldl_concat]
  rfl

theorem Vect.rest_loaded (v : Vect) (d : VR) (f : Fmt) (l : List Nat) : (v.loaded d f val l).rest = v.rest :=
  (Vect.foldl_putElem d f val l v d).2

theorem Vect.reg_loaded (v : Vect) (d : VR) (f : Fmt) (l : List Nat) (k : VR) : (v.loaded d f val l).reg k =
    if k = d then l.foldl (fun (x : VReg) (j : Nat) => x.setElem f j (val j)) (v.reg d) else v.reg k :=
  (Vect.foldl_putElem d f val l v k).1

theorem Vect.tag_loaded (v : Vect) (d : VR) (f : Fmt) (l : List Nat) (k : VR) :
    ((v.loaded d f val l).reg k).tag = (v.reg k).tag := by
  rw [Vect.reg_loaded]
  split
  · next h => rw [h]; exact VReg.foldl_keeps VReg.tag _ (fun _ _ => VReg.setElem_tag ..) _ _
  · rfl

/-- An element not among those written is as before. -/
theorem VReg.elem_foldl_setElem_of_not_mem (f : Fmt) (l : List Nat) (x : VReg) {j : Nat} (hj : j ∉ l) :
    (l.foldl (fun (x : VReg) (i : Nat) => x.setElem f i (val i)) x).elem f j = x.elem f j := by
  induction l generalizing x with
  | nil => rfl
  | cons i l ih =>
    rw [List.foldl_cons, ih _ fun h => hj (List.mem_cons_of_mem _ h)]
    exact takeBits_putBits_of_apart _ _ _ _ _ _ (f.apart j i fun h => hj (h ▸ List.mem_cons_self))

theorem VReg.index_congr {x y : VReg} (htag : x.tag = y.tag) {j : Nat}
    (h : x.elem (y.fmt.getD .untagged) j = y.elem (y.fmt.getD .untagged) j) : x.index j = y.index j := by
  have hfmt : x.fmt = y.fmt := congrArg Fmt.ofTag htag
  unfold VReg.index
  rw [hfmt]
  cases hf : y.fmt with
  | none => rfl
  | some f =>
    rw [hf] at h
    exact congrArg (intVal (f.intSigned.getD false) f.width) h

section
variable {l : List Nat}

theorem State.fmtOf_loaded (hv : t.r.vect = s.r.vect.loaded vd (s.fmtOf vd) val l) (k : VR) : t.fmtOf k = s.fmtOf k := by
  have htag : (t.vreg k).tag = (s.vreg k).tag :=
    (congrArg (fun v : Vect => (v.reg k).tag) hv).trans (Vect.tag_loaded ..)
  exact congrArg (fun x => (Fmt.ofTag x).getD .untagged) htag

/-- Where an element lies is as at the start of its access: an index register that is the destination too has lost only
elements before it. -/
theorem State.elemAddr_loaded (hv : t.r.vect = s.r.vect.loaded vd (s.fmtOf vd) val l) {i : Nat} (hi : i ∉ l) :
    t.elemAddr base (s.fmtOf vd) form i = s.elemAddr base (s.fmtOf vd) form i := by
  cases form with
  | unit => rfl
  | strided st => rfl
  | indexed vi =>
    have hreg : t.vreg vi = (s.r.vect.loaded vd (s.fmtOf vd) val l).reg vi := congrArg (fun v : Vect => v.reg vi) hv
    have htag : (t.vreg vi).tag = (s.vreg vi).tag := by rw [hreg]; exact Vect.tag_loaded ..
    refine congrArg (fun x => base + BitVec.ofInt 64 x) (VReg.index_congr htag ?_)
    rw [hreg, Vect.reg_loaded]
    split
    · next h =>
      subst h
      exact VReg.elem_foldl_setElem_of_not_mem _ _ _ hi
    · rfl

end

/-- What the vector side reads at a key: memory with the runner's share and strip buffer laid over it (R83, R283). -/
def State.sideBytes (s : State) (key n : Nat) : List Byte :=
  overlayActs (s.r.share ++ s.r.strip.buf) key (bytesAt s.mem key n)

/-- A load in the middle of an access that has not written memory. -/
theorem During.loadVec {foot : Nat → Prop} {a : Word} {n key : Nat} (h : During .vec foot s t) (hm : t.mem = s.mem)
    (hs : Serves s foot a n .load key) (hn : 0 < n) (hp : s.pending = []) (v : Via) :
    ∃ u, t.load .vec v a n n = .ok (s.sideBytes key n, u) ∧ During .vec foot s u ∧ u.r.vect = t.r.vect ∧ u.mem = s.mem := by
  obtain ⟨u, hu, hd, hv, hmem⟩ := h.load hs hn hp v
  refine ⟨u, ?_, hd, hv, hmem.trans hm⟩
  rw [hu, hm, h.worn]
  rfl

/-- An element counted for its page and, where its form says so, its translation let go (R300, R302). -/
def State.elemDone (s : State) (a : Word) (form : VForm) : State := (s.heatPage a form).nextPage form

theorem State.elemDone_keeps (a : Word) (form : VForm) : (s.elemDone a form).r.vect = s.r.vect ∧ (s.elemDone a form).mem = s.mem := by
  have hheat := s.heatPage_besides a form
  rw [← hheat.r, ← hheat.mem]
  unfold State.elemDone State.nextPage State.newPages
  split
  · split <;> exact ⟨rfl, rfl⟩
  · exact ⟨rfl, rfl⟩

theorem During.elemDone {o : Obs} {foot : Nat → Prop} (h : During o foot s t) (a : Word) (form : VForm) :
    During o foot s (t.elemDone a form) := (h.besides (t.heatPage_besides a form)).nextPage form

/-- In the middle of a load, when the elements of a list have been loaded. -/
structure Loading (s : State) (vd : VR) (val : Nat → Nat) (l : List Nat) (t : State) : Prop where
  during : During .vec (fun _ => False) s t
  mem : t.mem = s.mem
  vect : t.r.vect = s.r.vect.loaded vd (s.fmtOf vd) val l

/-- One element of whole bytes loaded. -/
theorem Loading.loadElem {i key : Nat} {l : List Nat} (h : Loading s vd val l t) (hb : s.Bytewise vd w) (hi : i ∉ l)
    (hs : Serves s (fun _ => False) (s.elemAddr base (s.fmtOf vd) form i) w .load key) (hp : s.pending = []) (v : Via)
    (hval : val i = leBytesToNat (s.sideBytes key w)) :
    ∃ u, t.loadElem v none vd base form i = .ok ((), u) ∧ Loading s vd val (l ++ [i]) u := by
  obtain ⟨hd, hm, hv⟩ := h
  obtain ⟨u, hu, hdu, hvu, hmu⟩ := hd.loadVec hm hs hb.pos hp v
  obtain ⟨hdv, hdm⟩ := u.elemDone_keeps (s.elemAddr base (s.fmtOf vd) form i) form
  have hdone := hdu.elemDone (s.elemAddr base (s.fmtOf vd) form i) form
  generalize hz : u.elemDone (s.elemAddr base (s.fmtOf vd) form i) form = z at hdone hdv hdm
  refine ⟨z.setVreg vd ((z.vreg vd).setElem (s.fmtOf vd) i (val i)), ?_, ⟨hdone.setVreg vd _, hdm.trans hmu, ?_⟩⟩
  · subst hz
    unfold State.loadElem
    simp only [State.fmtOf_loaded hv, State.elemAddr_loaded hv hi, hb.whole, State.loadGot, hu, bind, Except.bind, hval]
    rfl
  · rw [Vect.loaded_concat, ← hv, ← hvu, ← hdv]
    rfl

end

/-! ### An access that is through its elements -/

/-- What an access has changed when it is through: no more than elements change, and no tile store has come up. -/
structure Through (s t : State) : Prop where
  worn : t = s.worn t.wear
  idle : s.myCore.Idle → t.myCore.Idle

theorem Through.refl : Through s s := ⟨rfl, id⟩

theorem During.through {o : Obs} {foot : Nat → Prop} (h : During o foot s t) : Through s t := ⟨h.worn, h.idle⟩

theorem Through.setVect (h : Through s t) (v : Vect) : Through s (t.setVect v) := ⟨by rw [h.worn]; rfl, h.idle⟩

theorem State.dropL1_idle (h : s.myCore.Idle) : s.dropL1.myCore.Idle := by
  unfold State.dropL1
  split
  · exact h
  · rw [State.mapL1_core]
    exact h

theorem Through.acquireVec (h : Through s t) (mm : MMod) : Through s (t.acquireVec mm) ∧
    (t.acquireVec mm).mem = t.mem ∧ (t.acquireVec mm).r.vect = t.r.vect := by
  unfold State.acquireVec
  split
  · obtain ⟨_, _, ha⟩ := t.acquire_acquired .vec mm.scope
    have hidle : s.myCore.Idle → (t.acquire .vec mm.scope).myCore.Idle := fun hs => by
      unfold State.acquire State.acquireL1
      split
      · exact State.dropL1_idle (h.idle hs)
      · exact h.idle hs
    rw [ha] at hidle ⊢
    exact ⟨⟨by rw [h.worn]; rfl, hidle⟩, rfl, rfl⟩
  · exact ⟨h, rfl, rfl⟩

section
variable {i : Instr} {a b : Word} {body : State → M (Unit × State)}

/-- What a vector memory instruction leaves whose body completes. -/
structure Finished (s u t : State) : Prop where
  mem : t.mem = u.mem
  vect : t.r.vect = u.r.vect
  scal : t.r.scal = { s.r.scal with pc := s.pc + 8 }
  rest : t.r.strip = s.r.strip ∧ t.r.leases = s.r.leases ∧ t.r.barw = s.r.barw ∧ t.r.ident = s.r.ident ∧
    t.r.queues = s.r.queues

/-- A free instruction whose body gets through its access completes. -/
theorem access_completes (h : FreeToRun i s) (he : exec i s = passVector i a b body s) (hb : body s = .ok ((), u))
    (hu : Through s u) : ∃ t, exec i s = .next t ∧ Finished s u t := by
  obtain ⟨hvq, hconvoy, -, hbad, -, -, hops⟩ := h
  have hpass := passVector_ok (a := a) (b := b) hvq hconvoy hbad hb
  obtain ⟨_, _, _, hnote⟩ := State.noteWrites_same (s := u) (State.written s u i) (hu.idle hops)
  have hr : u.r = (s.worn u.wear).r := congrArg State.r hu.worn
  refine ⟨_, he.trans (hpass.trans (congrArg (fun u : State => Host.Outcome.next u.advance.completed) hnote)), rfl, rfl, ?_, ?_⟩
  · change { u.r.scal with pc := u.r.scal.pc + 8 } = _
    rw [hr]
    rfl
  · change u.r.strip = _ ∧ u.r.leases = _ ∧ u.r.barw = _ ∧ u.r.ident = _ ∧ u.r.queues = _
    rw [hr]
    exact ⟨rfl, rfl, rfl, rfl, rfl⟩

/-- An access that notes nothing and is through ends with VSTART 0. -/
theorem keepBegun_ok {n : Nat} {r : M (Unit × State)} (hr : r = .ok ((), u)) (hu : u.r.begun = none) :
    keepBegun n r = .ok ((), u.setVstart 0) := by
  rw [hr, keepBegun, State.setBegun]
  exact congrArg (fun z => Except.ok ((), z)) (if_pos hu)

end

/-! ### What a load leaves -/

section
variable {i : Instr} {a b : Word} {body : State → M (Unit × State)} {m : Mask} {vd : VR} {vlmax : Nat} {val : Nat → Nat}

/-- A load that has got through its elements leaves memory and all but the vector side as before. -/
theorem load_ends {mm : MMod} {v : Vect} (h : FreeToRun i s) (he : exec i s = passVector i a b body s) (ht : Through s t)
    (hm : t.mem = s.mem) (hb : body s = .ok ((), ((t.setVect v).acquireVec mm).setVstart 0)) :
    ∃ z, exec i s = .next z ∧ z.mem = s.mem ∧ z.r.vect = { v with vstart := 0 } ∧ z.r.scal = { s.r.scal with pc := s.pc + 8 } ∧
      z.r.strip = s.r.strip ∧ z.r.leases = s.r.leases ∧ z.r.barw = s.r.barw ∧ z.r.ident = s.r.ident ∧
      z.r.queues = s.r.queues := by
  obtain ⟨hacq, hacqm, hacqv⟩ := (ht.setVect v).acquireVec mm
  obtain ⟨z, hz, hfin⟩ := access_completes h he hb ⟨by rw [hacq.worn]; rfl, hacq.idle⟩
  refine ⟨z, hz, hfin.mem.trans (hacqm.trans hm), ?_, hfin.scal, hfin.rest⟩
  rw [hfin.vect]
  exact congrArg (fun v : Vect => { v with vstart := 0 }) hacqv

/-- A load that has got through its elements: its destination settled, all else as before. -/
theorem load_gives {mm : MMod} (h : FreeToRun i s) (he : exec i s = passVector i a b body s) (hv : s.vl ≤ vlmax)
    (ht : Through s t) (hm : t.mem = s.mem)
    (hvect : t.r.vect = s.r.vect.loaded vd (s.fmtOf vd) val (s.activeFrom m s.vstart))
    (hb : body s = .ok ((), ((t.setVect (s.settleReg m s.vstart vlmax vd t.r.vect)).acquireVec mm).setVstart 0)) :
    VectorGives i s m vd s.vstart vlmax {} val := by
  obtain ⟨z, hz, hzm, hzv, hscal, hstrip, hleases, hbarw, hident, hqs⟩ := load_ends h he ht hm hb
  have hreg (k : VR) : z.vreg k = (s.settleReg m s.vstart vlmax vd t.r.vect).reg k :=
    (congrArg (fun v : Vect => v.reg k) hzv).trans rfl
  have hrest := Vect.rest_loaded (val := val) s.r.vect vd (s.fmtOf vd) (s.activeFrom m s.vstart)
  rw [← hvect] at hrest
  simp only [Vect.rest, Prod.mk.injEq] at hrest
  obtain ⟨hvl, -, hvt, hvf, hvlen, hrng⟩ := hrest
  refine ⟨z, hz, elementResult_of_settled hv ?_, ⟨fun k => congrArg (cellGet · k) hzm, congrArg Scal.pc hscal, hscal,
    fun k hk => ?_, congrArg Vect.vstart hzv, (congrArg Vect.vl hzv).trans hvl, (congrArg Vect.vtype hzv).trans hvt,
    (congrArg Vect.vlen hzv).trans hvlen, hstrip, hleases, hbarw, hident⟩, hqs, (congrArg Vect.rngctr hzv).trans hrng, ?_⟩
  · rw [hreg, State.settleReg, Vect.reg_setReg, if_pos rfl, hvect, Vect.reg_loaded, if_pos rfl]
    rfl
  · rw [hreg, State.settleReg, Vect.reg_setReg, if_neg (by simpa using hk), hvect, Vect.reg_loaded, if_neg (by simpa using hk)]
    rfl
  · rw [Flags.bits_none, BitVec.or_zero]
    exact (congrArg Vect.vflags hzv).trans hvf

end

/-! ### VLD, VLDS, VLDX -/

/-- An access none of whose elements lies in another module asks for no lists (R306). -/
theorem State.listsFor_served {foot : Nat → Prop} {form : VForm} {k : AccKind} {n : Nat} {addr : Nat → Word} {els : List Nat}
    {key : Nat → Nat} (hs : ∀ i ∈ els, Serves s foot (addr i) n k (key i)) (acc : Nat → Word → OutAccess) :
    s.listsFor form k n addr els acc = .ok (fun _ => none, s) := by
  have hfar : s.farElems k n addr els = [] := by
    refine List.filterMap_eq_nil_iff.mpr fun i hi => ?_
    obtain ⟨-, -, -, -, -, -, hpages⟩ := hs i hi
    obtain ⟨_, -, hr⟩ := (During.start (o := .vec) (foot := foot) hpages).resolve (hs i hi)
    rw [hr]
  unfold State.listsFor
  cases form with
  | unit | strided => rfl
  | indexed vi =>
    dsimp only
    rw [hfar]
    rfl

section
variable {m : Mask} {vd : VR} {w : Nat} {base : Word} {form : VForm} {val : Nat → Nat} {key : Word → Nat}

theorem State.memOk_bytewise (hb : s.Bytewise vd w) (hform : ∀ vi, form = .indexed vi → s.kind vi = .int) (array : Bool) :
    s.memOk vd form m array = true := by
  have hplain : (s.vreg vd).plain = true := by
    rw [VReg.plain, Bool.or_eq_true, beq_iff_eq, beq_iff_eq]
    exact hb.kind
  unfold State.memOk
  cases form with
  | indexed vi => simp [hplain, hform vi rfl]
  | strided st => exact hplain
  | unit =>
    have hbs : (s.vreg vd).bs = false := by
      have := hb.kind
      unfold State.destKind VReg.destKind at this
      split at this
      · simp at this
      · next h => exact Bool.eq_false_iff.mpr h
    have hw := hb.whole
    unfold State.fmtOf at hw
    dsimp only
    split
    · next h => rw [h] at hw; cases hw
    · next h => rw [h] at hw; cases hw
    · next h => rw [h] at hw; cases hw
    · next h => rw [h] at hw; cases hw
    · rw [hbs]
      exact hplain

theorem State.scaleArray_bytewise (hb : s.Bytewise vd w) (sb : SR) (x : Word) : s.scaleArray vd sb x = none := by
  have hk := hb.kind
  have hscaled : (s.vreg vd).scaled = false := by
    unfold State.destKind VReg.destKind at hk
    unfold VReg.scaled
    split at hk
    · simp at hk
    · next h => rcases hk with hk | hk <;> simp [h, hk]
  rw [State.scaleArray, hscaled]
  rfl

/-- The next element of a load whose elements lie in increasing order. -/
theorem Loading.next (hb : s.Bytewise vd w) (hp : s.pending = []) (v : Via) {els : List Nat} (hels : els.Pairwise (· < ·))
    (hs : ∀ j ∈ els, Serves s (fun _ => False) (s.elemAddr base (s.fmtOf vd) form j) w .load
      (key (s.elemAddr base (s.fmtOf vd) form j)))
    (hval : ∀ j, val j = leBytesToNat (s.sideBytes (key (s.elemAddr base (s.fmtOf vd) form j)) w))
    (l : List Nat) (i : Nat) (l' : List Nat) (t : State) (he : els = l ++ i :: l') (h : Loading s vd val l t) :
    ∃ u, t.loadElem v none vd base form i = .ok ((), u) ∧ Loading s vd val (l ++ [i]) u := by
  have hi : i ∉ l := fun h => by
    rw [he, List.pairwise_append] at hels
    exact absurd (hels.2.2 i h i List.mem_cons_self) (Nat.lt_irrefl i)
  exact h.loadElem hb hi (hs i (by simp [he])) hp v (hval i)

/-- Elements of whole bytes loaded one after the other. -/
theorem State.loadElems (hb : s.Bytewise vd w) (hp : s.pending = []) (v : Via) {els : List Nat} (hels : els.Pairwise (· < ·))
    (hs : ∀ j ∈ els, Serves s (fun _ => False) (s.elemAddr base (s.fmtOf vd) form j) w .load
      (key (s.elemAddr base (s.fmtOf vd) form j)))
    (hval : ∀ j, val j = leBytesToNat (s.sideBytes (key (s.elemAddr base (s.fmtOf vd) form j)) w)) (blk : Option Nat) :
    ∃ t, eachElem none (fun i s => s.loadElem v none vd base form i) els blk s = .ok ((), t) ∧ Through s t ∧
      t.mem = s.mem ∧ t.r.vect = s.r.vect.loaded vd (s.fmtOf vd) val els := by
  cases hcases : els with
  | nil => exact ⟨s, rfl, .refl, rfl, rfl⟩
  | cons j rest =>
    obtain ⟨-, -, -, -, -, -, hpages⟩ := hs j (by simp [hcases])
    rw [← hcases]
    obtain ⟨t, ht, hd, hm, hv⟩ := eachElem_all (elem := fun i s => s.loadElem v none vd base form i) (inv := Loading s vd val)
      (fun l i l' t he h => by
        obtain ⟨u, hu, hd, hm, hv⟩ := Loading.next hb hp v hels hs hval l i l' t he h
        exact ⟨u, hu, hd.spent, hm, hv⟩) (done := []) rfl blk ⟨.start hpages, rfl, rfl⟩
    exact ⟨t, ht, hd.through, hm, hv⟩

theorem doVload_eq {mm : MMod} {i : Instr} (h : FreeToRun i s) (hb : s.Bytewise vd w)
    (hform : ∀ vi, form = .indexed vi → s.kind vi = .int) (hl : LengthOk s (memNames vd form) mm.mask) (sb : SR)
    (x : Word) {foot : Nat → Prop} {key : Nat → Nat}
    (hs : ∀ j ∈ s.activeFrom mm.mask s.vstart, Serves s foot (s.elemAddr base (s.fmtOf vd) form j) w .load (key j)) :
    doVload mm vd base form sb x s = keepBegun s.vstart (do
      let (_, t) ← eachElem none (fun i t => t.loadElem (s.viaOf mm (s.footprint (s.fmtOf vd) form)) none vd base form i)
        (s.activeFrom mm.mask s.vstart) (s.blockDone mm.mask) s
      .ok ((), (t.setVect (s.settleReg mm.mask s.vstart (s.vlmaxOf (memNames vd form)) vd t.r.vect)).acquireVec mm)) := by
  have hbegan := h.beganAt
  obtain ⟨-, -, -, -, -, hquota, -⟩ := h
  have hlists := fun acc => State.listsFor_served (form := form) hs acc
  have hw : (s.fmtOf vd).width / 8 = w := by rw [hb.width, Nat.mul_div_cancel_left _ (by decide)]
  have hturn (per : Nat) (els : List Nat) : s.turnElems per els = (els, none) := by
    simp [State.turnElems, State.pauseAt, hquota]
  unfold doVload
  dsimp only
  rw [State.memOk_bytewise hb hform, State.tagChecks_ok hl.1 fun _ => hl.2]
  simp only [bind, Except.bind, hbegan, State.elemsLeft, Nat.max_self, hturn, hw, hlists, State.scaleArray_bytewise hb,
    Option.map_none, pauseOr]

/-- A load of a form completes. -/
theorem vload_gives {mm : MMod} {i : Instr} {a b x : Word} {sb : SR} (he : exec i s = passVector i a b (doVload mm vd base form sb x) s)
    (hb : s.Bytewise vd w) (hform : ∀ vi, form = .indexed vi → s.kind vi = .int) (hp : s.pending = []) (h : FreeToRun i s)
    (hl : LengthOk s (memNames vd form) mm.mask)
    (hs : ∀ j ∈ s.activeFrom mm.mask s.vstart, Serves s (fun _ => False) (s.elemAddr base (s.fmtOf vd) form j) w .load
      (key (s.elemAddr base (s.fmtOf vd) form j))) :
    VectorGives i s mm.mask vd s.vstart (s.vlmaxOf (memNames vd form)) {} fun j =>
      leBytesToNat (s.sideBytes (key (s.elemAddr base (s.fmtOf vd) form j)) w) := by
  obtain ⟨t, ht, hthrough, hm, hv⟩ := State.loadElems hb hp (s.viaOf mm (s.footprint (s.fmtOf vd) form))
    (s.pairwise_activeFrom mm.mask s.vstart) hs (fun _ => rfl) (s.blockDone mm.mask)
  obtain ⟨hacq, -, -⟩ := (hthrough.setVect
    (s.settleReg mm.mask s.vstart (s.vlmaxOf (memNames vd form)) vd t.r.vect)).acquireVec mm
  refine load_gives (mm := mm) h he hl.2 hthrough hm hv ((doVload_eq h hb hform hl sb x hs).trans (keepBegun_ok ?_ ?_))
  · rw [ht]
    rfl
  · obtain ⟨-, -, -, -, hbegun, -⟩ := h
    rw [hacq.worn]
    exact hbegun

end

/-! ### VLDFF -/

section
variable {m : Mask} {vd : VR} {w : Nat} {base : Word} {val : Nat → Nat} {key : Word → Nat}

/-- Elements of a first-fault load that complete are passed (R155). -/
theorem ffElems_reaches {elem : Nat → State → M (Unit × State)} {els : List Nat} {inv : List Nat → State → Prop}
    (hstep : ∀ l i l' t, els = l ++ i :: l' → inv l t → ∃ u, elem i t = .ok ((), u) ∧ inv (l ++ [i]) u)
    {done rest : List Nat} (he : els = done ++ rest) (h : inv done t) :
    ∃ u, (∀ more, ffElems elem (rest ++ more) t = ffElems elem more u) ∧ inv els u := by
  induction rest generalizing done t with
  | nil => exact ⟨t, fun _ => rfl, by rw [he, List.append_nil]; exact h⟩
  | cons i rest ih =>
    obtain ⟨u, hu, hinv⟩ := hstep done i rest t he h
    obtain ⟨z, hz, hend⟩ := ih (done := done ++ [i]) (by rw [he, List.append_assoc]; rfl) hinv
    refine ⟨z, fun more => ?_, hend⟩
    rw [List.cons_append, ffElems, hu]
    exact hz more

/-- An element whose check fails, whatever choices are drawn, stops a first-fault load for good (R155). -/
theorem Loading.loadElem_fails {i : Nat} {l : List Nat} {c : Cause} (h : Loading s vd val l t) (hb : s.Bytewise vd w) (hi : i ∉ l)
    (hfail : ∀ n l, (∀ e ∈ l, e ∈ s.myCore.tlb) →
      ((({ s with free := n } : State).served s.mem l).resolve (s.elemAddr base (s.fmtOf vd) .unit i) w w .load).1 = .trap c ∨
      ((({ s with free := n } : State).served s.mem l).resolve (s.elemAddr base (s.fmtOf vd) .unit i) w w .load).1 = .service)
    (v : Via) : ∃ e z, t.loadElem v none vd base .unit i = .error (e, z) ∧ e.waitsFor = none := by
  obtain ⟨hd, hm, hv⟩ := h
  have htwin : Wear.Twin s { s.wear with free := t.free, mem := s.mem, pages := t.r.pages } t.wear :=
    ⟨⟨hm, rfl, (congrArg (fun z : State => z.myCore.tlb) hd.worn).symm.trans hd.tlb⟩, rfl⟩
  have hres := State.resolve_twin htwin (s.elemAddr base (s.fmtOf vd) .unit i) w w .load
  rw [← hd.worn] at hres
  have hcheck : ∃ e z, t.check (s.elemAddr base (s.fmtOf vd) .unit i) w w .load = .error (e, z) ∧ e.waitsFor = none := by
    have hfound := hfail t.free t.r.pages hd.pages
    rw [show ({ s with free := t.free } : State).served s.mem t.r.pages =
      s.worn { s.wear with free := t.free, mem := s.mem, pages := t.r.pages } from rfl, ← hres] at hfound
    unfold State.check
    generalize t.resolve (s.elemAddr base (s.fmtOf vd) .unit i) w w .load = r at hfound
    obtain ⟨r, z⟩ := r
    rcases hfound with rfl | rfl
    · exact ⟨_, _, rfl, rfl⟩
    · dsimp only
      split
      · exact ⟨_, _, rfl, rfl⟩
      · exact ⟨_, _, rfl, rfl⟩
      · exact ⟨_, _, rfl, rfl⟩
  obtain ⟨e, z, hc, he⟩ := hcheck
  refine ⟨e, z, ?_, he⟩
  unfold State.loadElem State.loadGot State.load
  simp only [State.fmtOf_loaded hv, State.elemAddr_loaded hv hi, hb.whole, hc, bind, Except.bind]

/-- A first-fault load once its checks have passed. -/
theorem doVldff_eq {mm : MMod} {i : Instr} (h : FreeToRun i s) (hb : s.Bytewise vd w)
    (hl : LengthOk s { vd := some vd } mm.mask) :
    doVldff mm vd base s = keepBegun s.vstart (match s.activeFrom mm.mask s.vstart with
      | [] => .ok ((), (s.setVect (s.settleReg mm.mask s.vstart (s.vlmaxOf { vd := some vd }) vd s.r.vect)).acquireVec mm)
      | f :: r => do
        let (_, t) ← stopAt f (s.loadElem (s.viaOf mm (s.footprint (s.fmtOf vd) .unit)) none vd base .unit f)
        match ffElems (fun i t => t.loadElem (s.viaOf mm (s.footprint (s.fmtOf vd) .unit)) none vd base .unit i) r t with
        | .error (a, t) => .error (.ask a, s.mapR fun r => { r with replies := t.r.replies, pages := t.r.pages })
        | .ok (short, t) => .ok ((), ((t.setVreg vd (settle s.vtype (s.fmtOf vd) (fun i => s.active mm.mask i) s.vstart
            (short.getD s.vl) (s.vlmaxOf { vd := some vd }) (t.vreg vd))).setVl (short.getD s.vl)).acquireVec mm)) := by
  have hplain : (s.vreg vd).plain = true := by
    rw [VReg.plain, Bool.or_eq_true, beq_iff_eq, beq_iff_eq]
    exact hb.kind
  unfold doVldff
  dsimp only
  rw [hplain, show memNames vd .unit = { vd := some vd } from rfl, State.tagChecks_ok hl.1 fun _ => hl.2]
  simp only [bind, Except.bind, h.beganAt] <;> rfl

section
variable {mm : MMod} {i : Instr} {a b : Word} {vlmax : Nat}

/-- VL and a register written. -/
def Vect.cut (v : Vect) (d : VR) (x : VReg) (vl : Nat) : Vect := { v.setReg d x with vl := vl }

/-- What a first-fault load that has passed its first element comes to when the others have passed, or one has failed. -/
theorem doVldff_passed {els more : List Nat} {short : Option Nat} (h : FreeToRun i s) (hb : s.Bytewise vd w)
    (hl : LengthOk s { vd := some vd } mm.mask) (hp : s.pending = []) (hact : s.activeFrom mm.mask s.vstart = els ++ more)
    (hne : els ≠ [])
    (hs : ∀ j ∈ els, Serves s (fun _ => False) (s.elemAddr base (s.fmtOf vd) .unit j) w .load
      (key (s.elemAddr base (s.fmtOf vd) .unit j)))
    (hval : ∀ j, val j = leBytesToNat (s.sideBytes (key (s.elemAddr base (s.fmtOf vd) .unit j)) w))
    (hmore : ∀ t, Loading s vd val els t → ffElems (fun i t => t.loadElem (s.viaOf mm (s.footprint (s.fmtOf vd) .unit)) none vd
      base .unit i) more t = .ok (short, t)) :
    ∃ t, Loading s vd val els t ∧ doVldff mm vd base s = .ok ((), ((t.setVect (t.r.vect.cut vd (settle s.vtype (s.fmtOf vd)
      (fun i => s.active mm.mask i) s.vstart (short.getD s.vl) (s.vlmaxOf { vd := some vd }) (t.vreg vd))
      (short.getD s.vl))).acquireVec mm).setVstart 0) := by
  obtain ⟨f, r, rfl⟩ := List.exists_cons_of_ne_nil hne
  have hpair : (f :: r).Pairwise (· < ·) := (hact ▸ s.pairwise_activeFrom mm.mask s.vstart).sublist (List.sublist_append_left ..)
  have hnext := Loading.next hb hp (s.viaOf mm (s.footprint (s.fmtOf vd) .unit)) hpair hs hval
  obtain ⟨-, -, -, -, -, -, hpages⟩ := hs f List.mem_cons_self
  obtain ⟨t, ht, hload⟩ := hnext [] f r s rfl ⟨.start hpages, rfl, rfl⟩
  obtain ⟨u, hu, hend⟩ := ffElems_reaches hnext (done := [f]) rfl hload
  refine ⟨u, hend, (doVldff_eq h hb hl).trans ?_⟩
  rw [hact, List.cons_append]
  refine keepBegun_ok ?_ ?_
  · simp only [bind, Except.bind, ht, stopAt, hu more, hmore u hend]
    rfl
  · obtain ⟨hacq, -, -⟩ := (hend.during.through.setVect (u.r.vect.cut vd (settle s.vtype (s.fmtOf vd)
      (fun i => s.active mm.mask i) s.vstart (short.getD s.vl) (s.vlmaxOf { vd := some vd }) (u.vreg vd))
      (short.getD s.vl))).acquireVec mm
    obtain ⟨-, -, -, -, hbegun, -⟩ := h
    rw [hacq.worn]
    exact hbegun

/-- A first-fault load none of whose elements fails (R155). -/
theorem vldff_gives (he : exec i s = passVector i a b (doVldff mm vd base) s) (hb : s.Bytewise vd w) (hp : s.pending = [])
    (h : FreeToRun i s) (hl : LengthOk s { vd := some vd } mm.mask)
    (hs : ∀ j ∈ s.activeFrom mm.mask s.vstart, Serves s (fun _ => False) (s.elemAddr base (s.fmtOf vd) .unit j) w .load
      (key (s.elemAddr base (s.fmtOf vd) .unit j))) :
    VectorGives i s mm.mask vd s.vstart (s.vlmaxOf { vd := some vd }) {} fun j =>
      leBytesToNat (s.sideBytes (key (s.elemAddr base (s.fmtOf vd) .unit j)) w) := by
  by_cases hne : s.activeFrom mm.mask s.vstart = []
  · refine load_gives (mm := mm) h he hl.2 .refl rfl (by rw [hne]; rfl) ((doVldff_eq h hb hl).trans ?_)
    obtain ⟨hacq, -, -⟩ := ((Through.refl (s := s)).setVect
      (s.settleReg mm.mask s.vstart (s.vlmaxOf { vd := some vd }) vd s.r.vect)).acquireVec mm
    rw [hne]
    refine keepBegun_ok rfl ?_
    obtain ⟨-, -, -, -, hbegun, -⟩ := h
    rw [hacq.worn]
    exact hbegun
  · obtain ⟨t, hload, hbody⟩ := doVldff_passed (more := []) (short := none) h hb hl hp (List.append_nil _).symm hne hs
      (fun _ => rfl) fun _ _ => rfl
    have hvl := Vect.rest_loaded (val := fun j => leBytesToNat (s.sideBytes (key (s.elemAddr base (s.fmtOf vd) .unit j)) w))
      s.r.vect vd (s.fmtOf vd) (s.activeFrom mm.mask s.vstart)
    rw [← hload.vect] at hvl
    have hcut (x : VReg) : t.r.vect.cut vd x s.vl = t.r.vect.setReg vd x := by
      rw [Vect.cut, State.vl, ← show t.r.vect.vl = s.r.vect.vl from congrArg Prod.fst hvl]
      rfl
    rw [Option.getD_none, hcut] at hbody
    exact load_gives (mm := mm) h he hl.2 hload.during.through hload.mem hload.vect hbody

theorem State.activeFrom_setVl {k start : Nat} (hk : k ≤ s.vl) :
    (s.setVl k).activeFrom m start = (s.activeFrom m start).filter (· < k) := by
  refine ((s.setVl k).pairwise_activeFrom m start).eq_of_mem_iff ((s.pairwise_activeFrom m start).filter _) fun j => ?_
  rw [List.mem_filter, State.mem_activeFrom, State.mem_activeFrom, decide_eq_true_eq]
  change (start ≤ j ∧ j < k) ∧ s.active m j = true ↔ _
  constructor
  · exact fun ⟨⟨h1, h2⟩, h3⟩ => ⟨⟨⟨h1, h2.trans_le hk⟩, h3⟩, h2⟩
  · exact fun ⟨⟨⟨h1, _⟩, h3⟩, h2⟩ => ⟨⟨h1, h2⟩, h3⟩

/-- A first-fault load that stops before the first later element that fails (R155). -/
theorem vldff_short {k : Nat} {c : Cause} (he : exec i s = passVector i a b (doVldff mm vd base) s) (hb : s.Bytewise vd w)
    (hp : s.pending = []) (h : FreeToRun i s) (hl : LengthOk s { vd := some vd } mm.mask)
    (hne : s.activeBelow mm.mask k ≠ []) (hk : k ∈ s.activeFrom mm.mask s.vstart)
    (hs : ∀ j ∈ s.activeBelow mm.mask k, Serves s (fun _ => False) (s.elemAddr base (s.fmtOf vd) .unit j) w .load
      (key (s.elemAddr base (s.fmtOf vd) .unit j)))
    (hfail : ∀ n l, (∀ e ∈ l, e ∈ s.myCore.tlb) →
      ((({ s with free := n } : State).served s.mem l).resolve (s.elemAddr base (s.fmtOf vd) .unit k) w w .load).1 = .trap c ∨
      ((({ s with free := n } : State).served s.mem l).resolve (s.elemAddr base (s.fmtOf vd) .unit k) w w .load).1 = .service) :
    ∃ t, exec i s = .next t ∧ t.vl = k ∧ t.vstart = 0 ∧ SameMemory s t ∧ t.r.scal = { s.r.scal with pc := s.pc + 8 } ∧
      (∀ n, n ≠ vd → t.vreg n = s.vreg n) ∧
      ElementResult (s.setVl k) t mm.mask vd s.vstart (s.vlmaxOf { vd := some vd }) fun j =>
        leBytesToNat (s.sideBytes (key (s.elemAddr base (s.fmtOf vd) .unit j)) w) := by
  have hkvl : k < s.vl := State.activeFrom_lt hk
  have hnot : k ∉ s.activeBelow mm.mask k := fun h => by simp [State.activeBelow] at h
  obtain ⟨t, hload, hbody⟩ := doVldff_passed (short := some k) h hb hl hp
    (eq_filter_lt_append (s.pairwise_activeFrom mm.mask s.vstart) hk) hne hs
    (fun _ => rfl) fun t hload => by
      obtain ⟨e, z, hfails, hwaits⟩ := hload.loadElem_fails hb hnot hfail (s.viaOf mm (s.footprint (s.fmtOf vd) .unit))
      rw [ffElems]
      simp only [hfails, hwaits]
  obtain ⟨z, hz, hzm, hzv, hscal, -⟩ := load_ends (mm := mm) h he hload.during.through hload.mem hbody
  have hreg (n : VR) : z.vreg n = (t.r.vect.setReg vd (settle s.vtype (s.fmtOf vd) (fun i => s.active mm.mask i) s.vstart k
      (s.vlmaxOf { vd := some vd }) (t.vreg vd))).reg n := (congrArg (fun v : Vect => v.reg n) hzv).trans rfl
  refine ⟨z, hz, congrArg Vect.vl hzv, congrArg Vect.vstart hzv, fun a => congrArg (cellGet · a) hzm, hscal, fun n hn => ?_,
    elementResult_of_settled (hkvl.le.trans hl.2) ?_⟩
  · rw [hreg, Vect.reg_setReg, if_neg hn, hload.vect, Vect.reg_loaded, if_neg hn]
    rfl
  · rw [hreg, Vect.reg_setReg, if_pos rfl, State.activeFrom_setVl hkvl.le,
      show t.vreg vd = t.r.vect.reg vd from rfl, hload.vect, Vect.reg_loaded, if_pos rfl]
    rfl

end

end

/-! ### The loads of O36 -/

/-- Settles O36: the checks of each element go on by translations that the core holds, and what the side reads is memory under
its own share and strip buffer. -/
theorem vectorLoads : Obligations.VectorLoads := by
  intro s m vd vi sa sb off key hk hp w base one val live runs unit
  have hb : s.Bytewise vd w := State.bytewise hk
  have hlive (j : Nat) (hj : j ∈ s.activeFrom m.mask s.vstart) : live j := by
    obtain ⟨⟨h1, h2⟩, h3⟩ := State.mem_activeFrom.mp hj
    exact ⟨h1, h2, h3⟩
  have hunit : unit = s.elemAddr base (s.fmtOf vd) .unit := funext fun j => by
    have : (s.fmtOf vd).width * j / 8 = w * j := by rw [hb.width, Nat.mul_assoc, Nat.mul_div_cancel_left _ (by decide)]
    simp only [State.elemAddr, this, unit]
  have hnone {f : VForm} (hf : ∀ vi, f ≠ .indexed vi) : ∀ vi, f = .indexed vi → s.kind vi = .int := fun vi h => (hf vi h).elim
  refine ⟨fun h hl hs => ?_, fun h hl hs => ?_, fun hvi h hl hs => ?_, fun h hl hs => ?_, ?_⟩
  · rw [hunit] at hs ⊢
    exact vload_gives rfl hb (hnone nofun) hp h hl fun j hj => hs j (hlive j hj)
  · exact vload_gives (form := .strided (s.reg sb)) rfl hb (hnone nofun) hp h hl fun j hj => hs j (hlive j hj)
  · exact vload_gives (form := .indexed vi) rfl hb (fun _ h => by cases h; exact hvi) hp h hl fun j hj => hs j (hlive j hj)
  · rw [hunit] at hs ⊢
    exact vldff_gives rfl hb hp h hl fun j hj => hs j (hlive j hj)
  · intro h hl f k c hf hk hfk drawn hs hfail
    have hmem {j : Nat} (h : live j) : j ∈ s.activeFrom m.mask s.vstart := State.mem_activeFrom.mpr ⟨⟨h.1, h.2.1⟩, h.2.2⟩
    rw [hunit] at hs hfail ⊢
    refine vldff_short (c := c) rfl hb hp h hl (List.ne_nil_of_mem (List.mem_filter.mpr ⟨hmem hf, decide_eq_true hfk⟩)) (hmem hk)
      (fun j hj => ?_) hfail
    obtain ⟨hj, hjk⟩ := List.mem_filter.mp hj
    exact hs j (hlive j hj) (of_decide_eq_true hjk)

end Sys2Proof.Machine
end

section
/-! Stores and atomics of the vector side in the middle of an access (O37–O39): each performs at once, and what the next
reads is what it left. -/

namespace Sys2Proof.Machine
variable {s t u : State}

/-! ### A store performs -/

section
variable {o : Obs} {foot : Nat → Prop} {a : StoreAct}

/-- A store that its observer has behind it is noted. -/
theorem During.noted (h : During o foot s t) {g : Hist} (hg : g.seenBy o = false) :
    During o foot s (t.mapR fun r => { r with hist := g :: r.hist }) := by
  refine ⟨by rw [h.worn]; rfl, h.tlb, h.pages, h.newer, h.pending, h.mem, fun k hk hs => ?_, h.poison, h.idle⟩
  rcases List.mem_cons.mp hk with rfl | hk
  · rw [hg] at hs
    cases hs
  · exact h.hist k hk hs

theorem poisonMeets_after {p : List (Nat × Nat)} {keys : List Nat} {k n : Nat} (h : poisonMeets p k n = none) :
    poisonMeets (poisonAfter p keys) k n = none := by
  rw [poisonMeets, Option.map_eq_none_iff, List.find?_eq_none] at h ⊢
  exact fun x hx => h x (List.mem_of_mem_filter hx)

/-- Bytes of the footprint written. -/
theorem During.wrote (h : During o foot s t) {mem : List Host.Cell} (hm : ∀ a, ¬foot a → cellGet mem a = t.byteAt a)
    (keys : List Nat) : During o foot s { t with mem := mem, poison := poisonAfter t.poison keys } :=
  ⟨by rw [h.worn]; rfl, h.tlb, h.pages, h.newer, h.pending, fun a ha => (hm a ha).trans (h.mem a ha), h.hist,
    fun k n hc => poisonMeets_after (h.poison k n hc), h.idle⟩

theorem During.putCells (h : During o foot s t) (hwf : Memory.wf t.mem) (hin : ∀ c ∈ a.cells, isOutKey c.1 = false)
    (hf : ∀ c ∈ a.cells, foot c.1) (who : RunnerId) (slice : Nat → Option Nat) : During o foot s (t.putCells who slice a) := by
  have hstored := State.putCells_stored (s := t) (who := who) (slice := slice) hwf hin
  have hmine : (a.cells.filter fun c => !isOutKey c.1) = a.cells :=
    List.filter_eq_self.mpr fun c hc => by simp [hin c hc]
  have hout : a.outWrite = none := by
    have hnil : (a.cells.filter fun c => isOutKey c.1) = [] :=
      List.filter_eq_nil_iff.mpr fun c hc => by simp [hin c hc]
    rw [StoreAct.outWrite, hnil]
  have hb := t.writeL2_besides (a.cells.map (·.1)) slice who.part a.alloc
  have hbytes := hstored.bytes
  unfold State.putCells at hbytes ⊢
  dsimp only at hbytes ⊢
  rw [hmine, hout] at hbytes ⊢
  refine (h.besides hb).wrote (fun k hk => ?_) _
  refine (hbytes k).trans ?_
  rw [StoreAct.lay_of_absent (k := k) (fun c hc he => hk (he ▸ hf c hc)), State.byteAt, State.byteAt, hb.mem]

theorem During.writeOwn (h : During o foot s t) (hwf : Memory.wf t.mem) (hin : ∀ c ∈ a.cells, isOutKey c.1 = false)
    (hf : ∀ c ∈ a.cells, foot c.1) (num : Nat) : During o foot s (t.writeOwn a num) := by
  have hexp := (t.staleL1_besides t.rid num a.cells).trans
    (State.exposeOthers_besides fun k => a.cells.any fun c => c.1 == k)
  exact (h.besides hexp).putCells (hexp.mem ▸ hwf) hin hf _ _

/-- The history with a store noted that writes a byte. -/
def State.histWith (s : State) (a : StoreAct) : List Hist :=
  if a.cells.isEmpty then s.r.hist else s.replaced a false (s.oldCells a.cells) :: s.r.hist

/-- A store that no store of the other side comes after: noted, then written. -/
theorem State.performAt_nil (s : State) (a : StoreAct) : s.performAt [] a =
    ((s.mapR fun r => { r with hist := s.histWith a }).touchTiles (fun _ => true) (fun _ => true) a.cells).writeOwn a
      (s.replaced a false (s.oldCells a.cells)).num := by
  have hnone : (s.r.hist.filter fun h => ([] : List Nat).contains h.num) = [] :=
    List.filter_eq_nil_iff.mpr fun _ _ => Bool.false_ne_true
  have htop : (a.cells.filter fun c => !([] : List Hist).any fun h => h.cells.any fun d => d.1 == c.1) = a.cells :=
    List.filter_eq_self.mpr fun _ _ => rfl
  unfold State.performAt
  dsimp only
  rw [hnone, htop]
  rfl

/-- A store of the vector side performs, no store of the other side after it. -/
theorem During.performAt (h : During .vec foot s t) (hwf : Memory.wf t.mem) (hv : a.byVec = true)
    (hin : ∀ c ∈ a.cells, isOutKey c.1 = false) (hf : ∀ c ∈ a.cells, foot c.1) : During .vec foot s (t.performAt [] a) := by
  have hseen : (t.replaced a false (t.oldCells a.cells)).seenBy .vec = false := by
    simp [State.replaced, Hist.seenBy, hv]
  have hnoted : During .vec foot s (t.mapR fun r => { r with hist := t.histWith a }) := by
    unfold State.histWith
    split
    · exact h
    · exact h.noted hseen
  rw [State.performAt_nil]
  have htiles := State.touchTiles_besides (s := t.mapR fun r => { r with hist := t.histWith a }) (fun _ => true) (fun _ => true) a.cells
  exact (hnoted.besides htiles).writeOwn (htiles.mem ▸ hwf) hin hf _

/-- Of the runner's stores that it may see late none lies at some keys: none comes after an access of them. -/
theorem State.lateFrom_unseen {o : Obs} {k n : Nat} {keys : List Nat}
    (h : ∀ g ∈ s.r.hist, g.seenBy o = true → g.meets k n = false) (hk : ∀ x ∈ keys, k ≤ x ∧ x < k + n) :
    s.lateFrom o keys = ([], s) := by
  have hnil : ((s.r.hist.filter fun h => h.cells.any fun c => keys.contains c.1).filter (·.seenBy o)) = [] := by
    refine List.filter_eq_nil_iff.mpr fun g hg hs => ?_
    obtain ⟨hg, hc⟩ := List.mem_filter.mp hg
    obtain ⟨c, hc, hx⟩ := List.any_eq_true.mp hc
    exact Hist.meets_false_iff.mp (h g hg hs) c hc (hk _ (List.contains_iff_mem.mp hx))
  unfold State.lateFrom State.lateFor
  dsimp only
  rw [hnil]
  rfl

end

/-! ### Stores in the middle of an access -/

section
variable {foot : Nat → Prop} {a : StoreAct} {va : Word} {key n x : Nat}

/-- In the middle of an access that writes: the vector side is as it was, memory in its form. -/
structure Writing (foot : Nat → Prop) (s t : State) : Prop where
  during : During .vec foot s t
  vect : t.r.vect = s.r.vect
  wf : Memory.wf t.mem

theorem Writing.start (hp : s.r.pages = []) (hwf : Memory.wf s.mem) : Writing foot s s := ⟨.start hp, rfl, hwf⟩

theorem Writing.elemDone (h : Writing foot s t) (a : Word) (form : VForm) :
    Writing foot s (t.elemDone a form) ∧ (t.elemDone a form).mem = t.mem := by
  obtain ⟨hv, hm⟩ := t.elemDone_keeps a form
  exact ⟨⟨h.during.elemDone a form, hv.trans h.vect, hm ▸ h.wf⟩, hm⟩

theorem Writing.spent (h : Writing foot s t) : Writing foot s t.spent := ⟨h.during.spent, h.vect, h.wf⟩

theorem Writing.check {k : AccKind} (h : Writing foot s t) (hs : Serves s foot va n k key) :
    ∃ u, t.check va n n k = .ok (.found key, u) ∧ Writing foot s u ∧ u.mem = t.mem := by
  obtain ⟨u, hu, hd, l, rfl⟩ := h.during.check hs
  exact ⟨_, hu, ⟨hd, h.vect, h.wf⟩, rfl⟩

theorem Writing.checkStore (h : Writing foot s t) (hs : Serves s foot va n .store key) :
    ∃ u, t.checkStore va n n = .ok (key, u) ∧ Writing foot s u ∧ u.mem = t.mem := by
  obtain ⟨u, hu, hw, hm⟩ := h.check hs
  refine ⟨u, ?_, hw, hm⟩
  rw [State.checkStore, hu]
  rfl

/-- A vector-side store inside the footprint, outside a protected strip and deterministic mode, performs at once. -/
theorem Writing.store {k : AccKind} (h : Writing foot s t) (hs : Serves s foot va n k key) (hp : s.pending = [])
    (hprot : s.r.strip.prot = false) (hdet : detOf s.vtype = false) (hv : a.byVec = true)
    (hcells : ∀ c ∈ a.cells, key ≤ c.1 ∧ c.1 < key + n) (hf : ∀ i, key ≤ i → i < key + n → foot i) :
    Writing foot s (t.store a) ∧ ∀ i, (t.store a).byteAt i = a.lay i (t.byteAt i) := by
  have hkeys : ∀ y ∈ a.cells.map (·.1), key ≤ y ∧ y < key + n := fun y hy => by
    obtain ⟨c, hc, rfl⟩ := List.mem_map.mp hy
    exact hcells c hc
  have hin : ∀ c ∈ a.cells, isOutKey c.1 = false := fun c hc => by
    obtain ⟨-, hin, -⟩ := hs
    exact hin c.1 (hcells c hc).1 (hcells c hc).2
  have hstrip : t.r.strip = s.r.strip := by rw [h.during.worn]; rfl
  have hvt : t.vtype = s.vtype := congrArg Vect.vtype h.vect
  have hstore : t.store a = t.performAt [] a := by
    rw [State.store, hv, Bool.true_or, if_pos rfl, State.storeNow, hstrip, hprot, if_neg Bool.false_ne_true, State.deliver, hvt,
      hdet, Bool.and_false, Bool.false_and, if_neg Bool.false_ne_true, State.perform, StoreAct.side, hv, if_pos rfl,
      State.lateFrom_unseen (h.during.unhidden hs hp).hist hkeys]
  have hst := State.performAt_stored h.wf hin
  obtain ⟨_, _, hr⟩ := hst.r
  rw [hstore]
  exact ⟨⟨h.during.performAt h.wf hv hin fun c hc => hf _ (hcells c hc).1 (hcells c hc).2,
    (congrArg Runner.vect hr).trans h.vect, hst.wf⟩, hst.bytes⟩

end

end Sys2Proof.Machine
end

section
/-! Vector stores of whole-byte tags (O38): each active element performs at once, in increasing order, and VSTXU's in an
order of their own (R148, R149, R156). -/

namespace Sys2Proof.Machine
variable {s t u : State}

/-! ### Numbers laid over bytes -/

/-- Bytes with a number of n bytes laid over them at a key. -/
def layNumber (key n x : Nat) (f : Nat → Byte) (a : Nat) : Byte :=
  if key ≤ a ∧ a < key + n then BitVec.ofNat 8 (x / 2 ^ (8 * (a - key))) else f a

theorem StoresNumber.lay_eq {a : StoreAct} {key n x : Nat} (h : StoresNumber a key n x) (f : Nat → Byte) :
    (fun k => a.lay k (f k)) = layNumber key n x f := by
  funext k
  unfold layNumber
  split
  · next hk =>
    obtain ⟨i, rfl⟩ := Nat.exists_eq_add_of_le hk.1
    rw [h.lay (Nat.lt_of_add_lt_add_left hk.2), Nat.add_sub_cancel_left]
  · next hk => exact h.lay_apart (by omega) _

section
variable {α : Type} {key : α → Nat} {n : Nat} {x : α → Nat} {f : Nat → Byte}

/-- Numbers laid one after the other. -/
def layAll (key : α → Nat) (n : Nat) (x : α → Nat) (f : Nat → Byte) (l : List α) : Nat → Byte :=
  l.foldl (fun f j => layNumber (key j) n (x j) f) f

theorem layAll_concat (l : List α) (j : α) : layAll key n x f (l ++ [j]) = layNumber (key j) n (x j) (layAll key n x f l) := by
  rw [layAll, List.foldl_concat]
  rfl

/-- A byte none of them has is left. -/
theorem layAll_of_apart {l : List α} {a : Nat} (h : ∀ j ∈ l, ¬(key j ≤ a ∧ a < key j + n)) : layAll key n x f l a = f a := by
  induction l generalizing f with
  | nil => rfl
  | cons j l ih =>
    have := ih (f := layNumber (key j) n (x j) f) fun k hk => h k (List.mem_cons_of_mem _ hk)
    exact this.trans (if_neg (h j List.mem_cons_self))

/-- The last that has a byte gives it. -/
theorem layAll_last {l r : List α} {j : α} {a : Nat} (hj : key j ≤ a ∧ a < key j + n)
    (h : ∀ k ∈ r, ¬(key k ≤ a ∧ a < key k + n)) :
    layAll key n x f (l ++ j :: r) a = BitVec.ofNat 8 (x j / 2 ^ (8 * (a - key j))) := by
  rw [layAll, List.foldl_append]
  exact (layAll_of_apart h).trans (if_pos hj)

/-- A byte that some of them have is one of theirs. -/
theorem exists_layAll {l : List α} {a : Nat} (h : ∃ j ∈ l, key j ≤ a ∧ a < key j + n) :
    ∃ j ∈ l, (key j ≤ a ∧ a < key j + n) ∧ layAll key n x f l a = BitVec.ofNat 8 (x j / 2 ^ (8 * (a - key j))) := by
  induction l generalizing f with
  | nil => obtain ⟨j, hj, -⟩ := h; exact absurd hj List.not_mem_nil
  | cons i l ih =>
    by_cases hl : ∃ j ∈ l, key j ≤ a ∧ a < key j + n
    · obtain ⟨j, hj, hrest⟩ := ih (f := layNumber (key i) n (x i) f) hl
      exact ⟨j, List.mem_cons_of_mem _ hj, hrest⟩
    · obtain ⟨j, hj, ha⟩ := h
      rcases List.mem_cons.mp hj with rfl | hj
      · exact ⟨j, List.mem_cons_self, ha, layAll_last (l := []) ha fun k hk hka => hl ⟨k, hk, hka⟩⟩
      · exact (hl ⟨j, hj, ha⟩).elim

end

/-! ### One element stored -/

section
variable {vd : VR} {w : Nat} {base : Word} {form : VForm} {foot : Nat → Prop} {key : Nat → Nat}

/-- What a vector store needs of a state: no strip protection, no deterministic mode, an empty share (R283). -/
structure StoresAtOnce (s : State) : Prop where
  pending : s.pending = []
  prot : s.r.strip.prot = false
  det : detOf s.vtype = false
  share : s.r.share = []

theorem Writing.vreg (h : Writing foot s t) (k : VR) : t.vreg k = s.vreg k := congrArg (fun v : Vect => v.reg k) h.vect

theorem Writing.fmtOf (h : Writing foot s t) (k : VR) : t.fmtOf k = s.fmtOf k := by
  rw [State.fmtOf, h.vreg]
  rfl

theorem Writing.elemAddr (h : Writing foot s t) (f : Fmt) (i : Nat) : t.elemAddr base f form i = s.elemAddr base f form i := by
  cases form with
  | unit | strided => rfl
  | indexed vi => exact congrArg (fun x : VReg => base + BitVec.ofInt 64 (x.index i)) (h.vreg vi)

/-- Element i stored at its checked key. -/
theorem Writing.storeAt {o : Out} {addr : Nat → Word} {els : List Nat} {i k : Nat} {va : Word} {kind : AccKind}
    (h : Writing foot s t) (hs : Serves s foot va w kind k) (ho : StoresAtOnce s) (hf : ∀ a, k ≤ a → a < k + w → foot a) :
    Writing foot s (t.storeAt o none vd addr els w i k) ∧
      (t.storeAt o none vd addr els w i k).byteAt = layNumber k w ((s.vreg vd).elem (s.fmtOf vd) i) t.byteAt := by
  have hnum : StoresNumber { t.vecAct o (addr i) k (natToLeBytes w ((t.vreg vd).elem (t.fmtOf vd) i)) with
      cover := if t.poison.isEmpty then [] else blockCover addr w els i k } k w ((s.vreg vd).elem (s.fmtOf vd) i) := by
    rw [h.vreg, h.fmtOf]
    exact ⟨rfl, rfl⟩
  obtain ⟨hw, hb⟩ := h.store hs ho.pending ho.prot ho.det (a := { t.vecAct o (addr i) k
    (natToLeBytes w ((t.vreg vd).elem (t.fmtOf vd) i)) with cover := if t.poison.isEmpty then [] else blockCover addr w els i k })
    rfl (fun c hc => hnum.mem hc) hf
  exact ⟨hw, (funext hb).trans (hnum.lay_eq _)⟩

/-- Element i stored. -/
theorem Writing.storeElem {o : Out} {els : List Nat} {i k : Nat} (h : Writing foot s t)
    (hs : Serves s foot (s.elemAddr base (s.fmtOf vd) form i) w .store k) (ho : StoresAtOnce s)
    (hf : ∀ a, k ≤ a → a < k + w → foot a) :
    ∃ u, t.storeElem o none vd base form els w i = .ok ((), u) ∧ Writing foot s u ∧
      u.byteAt = layNumber k w ((s.vreg vd).elem (s.fmtOf vd) i) t.byteAt := by
  have haddr : t.elemAddr base (t.fmtOf vd) form = s.elemAddr base (s.fmtOf vd) form :=
    funext fun i => by rw [h.fmtOf, h.elemAddr]
  obtain ⟨z, hz, hw, hm⟩ := h.checkStore hs
  obtain ⟨hst, hbytes⟩ := hw.storeAt (o := o) (addr := s.elemAddr base (s.fmtOf vd) form) (els := els) (i := i) (vd := vd) hs ho hf
  obtain ⟨hdone, hdm⟩ := hst.elemDone (s.elemAddr base (s.fmtOf vd) form i) form
  refine ⟨_, ?_, hdone, ?_⟩
  · unfold State.storeElem State.storeKey
    dsimp only
    rw [haddr, hz]
    rfl
  · rw [show State.byteAt (State.elemDone _ _ form) = _ from funext fun a => congrArg (cellGet · a) hdm]
    exact hbytes.trans (congrArg (layNumber k w _) (funext fun a => congrArg (cellGet · a) hm))

/-- Elements stored one after the other. -/
theorem State.storeElems {o : Out} {all els : List Nat} (ho : StoresAtOnce s) (hwf : Memory.wf s.mem)
    (hs : ∀ j ∈ els, Serves s foot (s.elemAddr base (s.fmtOf vd) form j) w .store (key j))
    (hf : ∀ j ∈ els, ∀ a, key j ≤ a → a < key j + w → foot a) (blk : Option Nat) :
    ∃ t, eachElem none (fun i s => s.storeElem o none vd base form all w i) els blk s = .ok ((), t) ∧ Through s t ∧
      t.r.vect = s.r.vect ∧ (∀ a, ¬foot a → t.byteAt a = s.byteAt a) ∧
      t.byteAt = layAll key w (fun j => (s.vreg vd).elem (s.fmtOf vd) j) s.byteAt els := by
  cases hcases : els with
  | nil => exact ⟨s, rfl, .refl, rfl, fun _ _ => rfl, rfl⟩
  | cons j rest =>
    obtain ⟨-, -, -, -, -, -, hpages⟩ := hs j (by simp [hcases])
    rw [← hcases]
    obtain ⟨t, ht, hw, hb⟩ := eachElem_all (els := els) (elem := fun i s => s.storeElem o none vd base form all w i)
      (inv := fun l t => Writing foot s t ∧ t.byteAt = layAll key w (fun j => (s.vreg vd).elem (s.fmtOf vd) j) s.byteAt l)
      (fun l i l' t he ⟨hw, hb⟩ => by
        obtain ⟨u, hu, hwu, hbu⟩ := hw.storeElem (o := o) (els := all) (hs i (by simp [he])) ho (hf i (by simp [he]))
        exact ⟨u, hu, hwu.spent, by rw [layAll_concat, ← hb]; exact hbu⟩)
      (done := []) rfl blk ⟨.start hpages hwf, rfl⟩
    exact ⟨t, ht, hw.during.through, hw.vect, hw.during.mem, hb⟩

theorem State.drainShare_nil (h : s.r.share = []) : s.drainShare = s := by
  have hr : ({ s.r with share := [] } : Runner) = s.r := by rw [← h]
  unfold State.drainShare
  rw [h]
  change ({ s with r := { s.r with share := [] } } : State) = s
  rw [hr]

theorem State.releaseVec_nil (h : s.r.share = []) (o : Order) : s.releaseVec o = s := by
  unfold State.releaseVec
  rw [State.drainShare_nil h, ite_self]

theorem State.fitStrip_of_not_prot (h : s.r.strip.prot = false) (bits : Nat) : s.fitStrip bits = s := by
  rw [State.fitStrip, h, Bool.false_and]
  rfl

end

/-! ### VST, VSTS, VSTXO -/

section
variable {vd : VR} {w : Nat} {base x : Word} {form : VForm} {foot : Nat → Prop} {key : Nat → Nat} {mm : MMod} {i : Instr} {sb : SR}

theorem doVstore_eq (h : FreeToRun i s) (hb : s.Bytewise vd w) (hform : ∀ vi, form = .indexed vi → s.kind vi = .int)
    (ho : StoresAtOnce s) (hl : LengthOk s (memNames vd form) mm.mask)
    (hs : ∀ j ∈ s.activeFrom mm.mask s.vstart, Serves s foot (s.elemAddr base (s.fmtOf vd) form j) w .store (key j)) :
    doVstore mm vd base form sb x s = keepBegun s.vstart (eachElem none
      (fun i t => t.storeElem (s.outOf mm (s.footprint (s.fmtOf vd) form)) none vd base form (s.activeFrom mm.mask s.vstart) w i)
      (s.activeFrom mm.mask s.vstart) (s.blockDone mm.mask) s) := by
  have hbegan := h.beganAt
  obtain ⟨-, -, -, -, -, hquota, -⟩ := h
  have hlists := fun acc => State.listsFor_served (form := form) hs acc
  have hturn (per : Nat) (els : List Nat) : s.turnElems per els = (els, none) := by
    simp [State.turnElems, State.pauseAt, hquota]
  unfold doVstore
  dsimp only
  rw [State.memOk_bytewise hb hform, State.tagChecks_ok hl.1 fun _ => hl.2]
  simp only [bind, Except.bind, State.fitStrip_of_not_prot ho.prot, hbegan, State.elemsLeft, Nat.max_self, hturn, hb.whole, hlists,
    State.scaleArray_bytewise hb, Option.map_none, pauseOr, State.releaseVec_nil ho.share]

/-- What a store that is through leaves beside memory. -/
theorem store_ends {a b : Word} {body : State → M (Unit × State)} (h : FreeToRun i s)
    (he : exec i s = passVector i a b body s) (ht : Through s t) (hv : t.r.vect = s.r.vect)
    (hb : body s = .ok ((), t.setVstart 0)) :
    ∃ z, exec i s = .next z ∧ z.byteAt = t.byteAt ∧ z.r.vect = { s.r.vect with vstart := 0 } ∧
      z.r.scal = { s.r.scal with pc := s.pc + 8 } ∧ z.r.strip = s.r.strip ∧ z.r.queues = s.r.queues := by
  obtain ⟨z, hz, hfin⟩ := access_completes h he hb ⟨by rw [ht.worn]; rfl, ht.idle⟩
  obtain ⟨hstrip, -, -, -, hqs⟩ := hfin.rest
  refine ⟨z, hz, funext fun k => congrArg (cellGet · k) hfin.mem, ?_, hfin.scal, hstrip, hqs⟩
  rw [hfin.vect, ← hv]
  rfl

/-- A store of a form completes: its elements lie in memory, one laid over the other. -/
theorem vstore_ends {a b : Word} (he : exec i s = passVector i a b (doVstore mm vd base form sb x) s) (hb : s.Bytewise vd w)
    (hform : ∀ vi, form = .indexed vi → s.kind vi = .int) (ho : StoresAtOnce s) (hwf : Memory.wf s.mem) (h : FreeToRun i s)
    (hl : LengthOk s (memNames vd form) mm.mask)
    (hs : ∀ j ∈ s.activeFrom mm.mask s.vstart, Serves s foot (s.elemAddr base (s.fmtOf vd) form j) w .store (key j))
    (hf : ∀ j ∈ s.activeFrom mm.mask s.vstart, ∀ a, key j ≤ a → a < key j + w → foot a) :
    ∃ t, exec i s = .next t ∧ t.r.vect = { s.r.vect with vstart := 0 } ∧ t.r.scal = { s.r.scal with pc := s.pc + 8 } ∧
      t.r.strip = s.r.strip ∧ t.r.queues = s.r.queues ∧ (∀ a, ¬foot a → t.byteAt a = s.byteAt a) ∧
      t.byteAt = layAll key w (fun j => (s.vreg vd).elem (s.fmtOf vd) j) s.byteAt (s.activeFrom mm.mask s.vstart) := by
  obtain ⟨u, hu, hthrough, hv, hapart, hbytes⟩ := State.storeElems
    (o := s.outOf mm (s.footprint (s.fmtOf vd) form)) (all := s.activeFrom mm.mask s.vstart) ho hwf hs hf (s.blockDone mm.mask)
  have hbegun : u.r.begun = none := by
    obtain ⟨-, -, -, -, hbegun, -⟩ := h
    rw [hthrough.worn]
    exact hbegun
  obtain ⟨t, ht, hbt, hvt, hscal, hstrip, hqs⟩ := store_ends h he hthrough hv
    ((doVstore_eq h hb hform ho hl hs).trans (keepBegun_ok hu hbegun))
  exact ⟨t, ht, hvt, hscal, hstrip, hqs, fun a ha => hbt ▸ hapart a ha, hbt.trans hbytes⟩

end

/-! ### VSTXU -/

/-- A shuffle of elements is of those elements. -/
theorem mem_shuffled {n : Nat} {l : List (Nat × Nat)} {y : Nat × Nat} : y ∈ shuffled n l ↔ y ∈ l := by
  induction l generalizing n with
  | nil => exact Iff.rfl
  | cons z l ih =>
    rw [shuffled]
    generalize (Config.freeWord n).toNat % ((shuffled (n + 1) l).length + 1) = k
    rw [List.mem_append, List.mem_cons, List.mem_cons, ← ih (n := n + 1), or_left_comm, ← List.mem_append, List.take_append_drop]

section
variable {vd vi : VR} {w : Nat} {base : Word} {form : VForm} {foot : Nat → Prop} {key : Nat → Nat} {mm : MMod}

/-- The elements of VSTXU all pass their checks. -/
theorem Writing.checkElems {addr : Nat → Word} {els : List Nat} (h : Writing foot s t)
    (hs : ∀ j ∈ els, Serves s foot (addr j) w .store (key j)) :
    ∃ u, Machine.checkElems (fun _ => none) addr form w els t = (els.map fun j => (j, key j), none, u) ∧ Writing foot s u ∧
      u.mem = t.mem := by
  induction els generalizing t with
  | nil => exact ⟨t, rfl, h, rfl⟩
  | cons j els ih =>
    obtain ⟨z, hz, hw, hm⟩ := h.checkStore (hs j List.mem_cons_self)
    obtain ⟨hdone, hdm⟩ := hw.elemDone (addr j) form
    obtain ⟨u, hu, hwu, hmu⟩ := ih hdone fun k hk => hs k (List.mem_cons_of_mem _ hk)
    refine ⟨u, ?_, hwu, hmu.trans (hdm.trans hm)⟩
    unfold State.elemDone at hu
    unfold Machine.checkElems State.storeKey
    dsimp only
    rw [hz]
    dsimp only
    rw [hu]
    rfl

/-- Checked elements stored one after the other. -/
theorem Writing.storeAll {o : Out} {addr : Nat → Word} {all : List Nat} {ks : List (Nat × Nat)} (h : Writing foot s t)
    (ho : StoresAtOnce s) (hs : ∀ y ∈ ks, ∃ va, Serves s foot va w .store y.2)
    (hf : ∀ y ∈ ks, ∀ a, y.2 ≤ a → a < y.2 + w → foot a) :
    Writing foot s (ks.foldl (fun (s : State) (y : Nat × Nat) => s.storeAt o none vd addr all w y.1 y.2) t) ∧
      (ks.foldl (fun (s : State) (y : Nat × Nat) => s.storeAt o none vd addr all w y.1 y.2) t).byteAt =
        layAll Prod.snd w (fun y : Nat × Nat => (s.vreg vd).elem (s.fmtOf vd) y.1) t.byteAt ks := by
  induction ks generalizing t with
  | nil => exact ⟨h, rfl⟩
  | cons y ks ih =>
    obtain ⟨va, hserve⟩ := hs y List.mem_cons_self
    obtain ⟨hw, hb⟩ := h.storeAt (o := o) (addr := addr) (els := all) (i := y.1) (vd := vd) hserve ho (hf y List.mem_cons_self)
    obtain ⟨hend, hbytes⟩ := ih hw (fun z hz => hs z (List.mem_cons_of_mem _ hz)) fun z hz => hf z (List.mem_cons_of_mem _ hz)
    exact ⟨hend, by rw [List.foldl_cons, hbytes, hb]; rfl⟩

/-- The order in which the checked elements of VSTXU perform, and the state after its draw. -/
def State.storeOrder (s : State) (n : Nat) (ks : List (Nat × Nat)) : List (Nat × Nat) × State :=
  if anyMeet n ks then (shuffled s.free ks, { s with free := s.free + ks.length }) else (ks, s)

theorem Writing.storeOrder (h : Writing foot s t) (n : Nat) (ks : List (Nat × Nat)) :
    (∀ y, y ∈ (t.storeOrder n ks).1 ↔ y ∈ ks) ∧ Writing foot s (t.storeOrder n ks).2 ∧ (t.storeOrder n ks).2.mem = t.mem := by
  unfold State.storeOrder
  split
  · exact ⟨fun _ => mem_shuffled, ⟨h.during.besides (.of_cores ⟨_, _, _, _, rfl⟩), h.vect, h.wf⟩, rfl⟩
  · exact ⟨fun _ => Iff.rfl, h, rfl⟩

/-- VSTXU once its checks have passed: its elements stored in some order. -/
theorem doVstxu_stores (hb : s.Bytewise vd w) (hvi : s.kind vi = .int) (ho : StoresAtOnce s) (hwf : Memory.wf s.mem)
    (hl : LengthOk s (memNames vd (.indexed vi)) mm.mask)
    (hs : ∀ j ∈ s.activeFrom mm.mask s.vstart,
      Serves s foot (s.elemAddr base (s.fmtOf vd) (.indexed vi) j) w .store (key j))
    (hf : ∀ j ∈ s.activeFrom mm.mask s.vstart, ∀ a, key j ≤ a → a < key j + w → foot a) :
    ∃ t ks, doVstxu mm vd vi base s = .ok ((), t.setVstart 0) ∧ Through s t ∧ t.r.vect = s.r.vect ∧
      (∀ a, ¬foot a → t.byteAt a = s.byteAt a) ∧
      (∀ y, y ∈ ks ↔ y ∈ (s.activeFrom mm.mask s.vstart).map fun j => (j, key j)) ∧
      t.byteAt = layAll Prod.snd w (fun y : Nat × Nat => (s.vreg vd).elem (s.fmtOf vd) y.1) s.byteAt ks := by
  have hw8 : (s.fmtOf vd).width / 8 = w := by rw [hb.width, Nat.mul_div_cancel_left _ (by decide)]
  have hlists := fun acc => State.listsFor_served (form := .indexed vi) hs acc
  unfold doVstxu
  rw [ho.det, if_neg Bool.false_ne_true]
  dsimp only
  rw [State.memOk_bytewise hb (by rintro _ ⟨⟩; exact hvi), State.tagChecks_ok hl.1 fun _ => hl.2]
  simp only [bind, Except.bind, State.fitStrip_of_not_prot ho.prot, hw8, hlists, State.releaseVec_nil ho.share]
  cases hels : s.activeFrom mm.mask s.vstart with
  | nil => exact ⟨s, [], rfl, .refl, rfl, fun _ _ => rfl, fun _ => Iff.rfl, rfl⟩
  | cons f r =>
    obtain ⟨-, -, -, -, -, -, hpages⟩ := hs f (by simp [hels])
    rw [← hels]
    obtain ⟨u, hu, hw, hm⟩ := (Writing.start (foot := foot) hpages hwf).checkElems (form := .indexed vi) hs
    obtain ⟨hmem, hz, hzm⟩ := hw.storeOrder w ((s.activeFrom mm.mask s.vstart).map fun j => (j, key j))
    have hof (y : Nat × Nat) (hy : y ∈ (u.storeOrder w ((s.activeFrom mm.mask s.vstart).map fun j => (j, key j))).1) :
        ∃ j ∈ s.activeFrom mm.mask s.vstart, y.2 = key j := by
      obtain ⟨j, hj, rfl⟩ := List.mem_map.mp ((hmem y).mp hy)
      exact ⟨j, hj, rfl⟩
    obtain ⟨hend, hbytes⟩ := hz.storeAll (vd := vd) (all := s.activeFrom mm.mask s.vstart)
      (addr := s.elemAddr base (s.fmtOf vd) (.indexed vi)) (o := s.outOf mm (s.footprint (s.fmtOf vd) (.indexed vi))) ho
      (fun y hy => by obtain ⟨j, hj, he⟩ := hof y hy; exact ⟨_, he ▸ hs j hj⟩)
      fun y hy => by obtain ⟨j, hj, he⟩ := hof y hy; exact he ▸ hf j hj
    refine ⟨_, _, ?_, hend.during.through, hend.vect, hend.during.mem, hmem, hbytes.trans ?_⟩
    · rw [hu]
      rfl
    · exact congrArg (layAll _ _ _ · _) (funext fun a => congrArg (cellGet · a) (hzm.trans hm))

end

/-! ### The stores of O38 -/

/-- Settles O38: each element's store performs on what the ones before it left, and no other byte changes. -/
theorem vectorStores : Obligations.VectorStores := by
  intro s m vd vi sa sb off key hk hp hprot hdet hshare hwf w base one two live byte foot ends inOrder indexed
  have hb : s.Bytewise vd w := State.bytewise hk
  have ho : StoresAtOnce s := ⟨hp, hprot, hdet, hshare⟩
  have hmem {j : Nat} : j ∈ s.activeFrom m.mask s.vstart ↔ live j := by
    rw [State.mem_activeFrom, and_assoc]
  have hnone {f : VForm} (hf : ∀ vi, f ≠ .indexed vi) : ∀ vi, f = .indexed vi → s.kind vi = .int := fun vi h => (hf vi h).elim
  have hunit : (fun j => base + BitVec.ofNat 64 (w * j)) = s.elemAddr base (s.fmtOf vd) .unit := funext fun j => by
    have : (s.fmtOf vd).width * j / 8 = w * j := by rw [hb.width, Nat.mul_assoc, Nat.mul_div_cancel_left _ (by decide)]
    simp only [State.elemAddr, this]
  have hfoot (addr : Nat → Word) : ∀ j ∈ s.activeFrom m.mask s.vstart, ∀ a, key (addr j) ≤ a → a < key (addr j) + w →
      foot addr a := fun j hj a h1 h2 => ⟨j, hmem.mp hj, h1, h2⟩
  have hform {i : Instr} {n : Names} {form : VForm} {x : Word} {sb : SR} {a b : Word}
      (he : exec i s = passVector i a b (doVstore m vd base form sb x) s) (hn : memNames vd form = n)
      (hvi : ∀ vi, form = .indexed vi → s.kind vi = .int) : inOrder i n (s.elemAddr base (s.fmtOf vd) form) := by
    subst hn
    intro h hl hs
    obtain ⟨t, ht, hv, hscal, hstrip, hqs, hapart, hbytes⟩ := vstore_ends he hb hvi ho hwf h hl
      (fun j hj => hs j (hmem.mp hj)) (hfoot _)
    refine ⟨t, ht, hv, hscal, hstrip, hqs, hapart, fun j k hj hk hlast => ?_⟩
    have hsplit := eq_filter_lt_append (s.pairwise_activeFrom m.mask s.vstart) (hmem.mpr hj)
    rw [hbytes, hsplit, layAll_last ⟨Nat.le_add_right _ _, Nat.add_lt_add_left hk _⟩, Nat.add_sub_cancel_left]
    intro j' hj'
    obtain ⟨hj', hlt⟩ := List.mem_filter.mp hj'
    exact hlast j' (hmem.mp hj') (of_decide_eq_true hlt)
  refine ⟨?_, hform (form := .strided (s.reg sb)) rfl rfl (hnone nofun), fun hvi => ⟨?_, fun h hl hs => ?_⟩⟩
  · rw [hunit]
    exact hform rfl rfl (hnone nofun)
  · exact hform (form := .indexed vi) rfl rfl fun _ h => by cases h; exact hvi
  · obtain ⟨u, ks, hbody, hthrough, hv, hapart, hks, hbytes⟩ := doVstxu_stores (base := base) (mm := m)
      (key := fun j => key (indexed j)) hb hvi ho hwf hl (fun j hj => hs j (hmem.mp hj)) (hfoot _)
    obtain ⟨t, ht, hbt, hvt, hscal, hstrip, hqs⟩ := store_ends (i := .vstxu m vd vi sa off) h rfl hthrough hv hbody
    refine ⟨t, ht, hvt, hscal, hstrip, hqs, fun a ha => hbt ▸ hapart a ha, fun a ha => ?_⟩
    obtain ⟨j, hj, h1, h2⟩ := ha
    obtain ⟨y, hy, hya, hval⟩ := exists_layAll (key := Prod.snd) (n := w)
      (x := fun y : Nat × Nat => (s.vreg vd).elem (s.fmtOf vd) y.1) (f := s.byteAt) (l := ks) (a := a)
      ⟨(j, key (indexed j)), (hks _).mpr (List.mem_map.mpr ⟨j, hmem.mpr hj, rfl⟩), h1, h2⟩
    obtain ⟨j', hj', rfl⟩ := List.mem_map.mp ((hks y).mp hy)
    obtain ⟨k, rfl⟩ := Nat.exists_eq_add_of_le hya.1
    refine ⟨j', k, hmem.mp hj', Nat.lt_of_add_lt_add_left hya.2, rfl, ?_⟩
    rw [hbt, hbytes, hval, Nat.add_sub_cancel_left]

end Sys2Proof.Machine
end

section
/-! Vector atomics (O39): one after the other in increasing order, each on what the ones before it left (R157, R88, R89). -/

namespace Sys2Proof.Machine
variable {s t u : State}

/-! ### An atomic in the middle of an access -/

/-- With no store read as not yet performed bytes are read as they stand. -/
theorem undoLate_nil (old : Hist → List Host.Cell) (k : Nat) (hs : List Hist) (kept : List Nat) (bs : List Byte) :
    undoLate [] old k hs kept bs = bs := by
  induction hs generalizing kept with
  | nil => rfl
  | cons h hs ih =>
    rw [undoLate]
    exact ih _

section
variable {foot : Nat → Prop}

/-- What an observer has read is behind it: it sees no store that it did not see before. -/
theorem Writing.readBack (h : Writing foot s t) (shown : List Nat) :
    Writing foot s (t.readBack .vec shown) ∧ (t.readBack .vec shown).mem = t.mem := by
  unfold State.readBack
  split
  · exact ⟨h, rfl⟩
  · obtain ⟨hd, hv, hwf⟩ := h
    refine ⟨⟨⟨by rw [hd.worn]; rfl, hd.tlb, hd.pages, hd.newer, hd.pending, hd.mem, fun g hg hs => ?_, hd.poison, hd.idle⟩, hv, hwf⟩, rfl⟩
    obtain ⟨k, hk, rfl⟩ := List.mem_map.mp (mem_of_mem_liveHist hg)
    split at hs
    · simp [Hist.drop, Hist.seenBy] at hs
    · next hn => rw [if_neg hn]; exact hd.hist k hk hs

variable {va : Word} {w key b cmp : Nat} {kind : AccKind} {op : AmoOp} {rel alloc : Bool}

/-- The store of a vector atomic. -/
def State.amoStore (s : State) (va : Word) (key w x : Nat) (rel alloc : Bool) : StoreAct :=
  { cells := cellsFrom key (natToLeBytes w x), byVec := true, slice := s.pinSlice va, alloc := alloc, rel := rel }

/-- The vector side's atomic action but CAS: the new number stands where the old one stood. -/
theorem Writing.amoAt (h : Writing foot s t) (hs : Serves s foot va w kind key) (hp : s.pending = []) (hshare : s.r.share = [])
    (hf : ∀ a, key ≤ a → a < key + w → foot a) (hop : op ≠ .cas) :
    ∃ u old, t.amoAt .vec op rel alloc va key w b cmp = .ok (old, u) ∧ Writing foot s u ∧
      u.byteAt = layNumber key w (amoNew op w (leBytesToNat (bytesAt t.mem key w)) b cmp) t.byteAt := by
  have hun := h.during.unhidden hs hp
  have hexp : Writing foot s (t.exposeOthers (inKeys key w)) :=
    ⟨h.during.besides (State.exposeOthers_besides _), h.vect, h.wf⟩
  have hkeys : ∀ x ∈ keysFrom key w, key ≤ x ∧ x < key + w := fun x hx => by
    rw [keysFrom_eq_map] at hx
    obtain ⟨i, hi, rfl⟩ := List.mem_map.mp hx
    exact ⟨Nat.le_add_right key i, Nat.add_lt_add_left (List.mem_range.mp hi) key⟩
  have hlate := State.lateFrom_unseen (s := t.exposeOthers (inKeys key w)) (o := .vec) hun.hist hkeys
  obtain ⟨hback, hbm⟩ := hexp.readBack (shownBy [] key w ((t.exposeOthers (inKeys key w)).r.hist.filter fun h => h.meets key w) [])
  unfold State.amoAt
  rw [hun.clean, State.look_of_pending hun.pending]
  dsimp only
  rw [hlate]
  dsimp only
  rw [undoLate_nil]
  generalize (t.exposeOthers (inKeys key w)).readBack .vec _ = z at hback hbm ⊢
  have hz : z.r.share = [] := by rw [hback.during.worn]; exact hshare
  rw [if_pos rfl, hz, show (decide (op = .cas)) = false from decide_eq_false hop, Bool.false_and, if_neg Bool.false_ne_true]
  have hnum : StoresNumber (z.amoStore va key w (amoNew op w (bytesVal (bytesAt t.mem key w)) b cmp) rel alloc) key w
      (amoNew op w (bytesVal (bytesAt t.mem key w)) b cmp) := ⟨rfl, rfl⟩
  have hin : ∀ a, key ≤ a → a < key + w → isOutKey a = false := by
    obtain ⟨-, hin, -⟩ := hs
    exact hin
  have hst := State.performAt_stored hback.wf (hnum.inside hin)
  obtain ⟨_, _, hr⟩ := hst.r
  refine ⟨_, _, rfl, ⟨hback.during.performAt hback.wf rfl (hnum.inside hin) fun c hc => hf _ (hnum.mem hc).1 (hnum.mem hc).2,
    (congrArg Runner.vect hr).trans hback.vect, hst.wf⟩, (funext hst.bytes).trans ((hnum.lay_eq _).trans ?_)⟩
  exact congrArg (layNumber key w _) (funext fun a => congrArg (cellGet · a) hbm)

/-- One atomic of the vector side but CAS at an address. -/
theorem Writing.atomic (h : Writing foot s t) (hs : Serves s foot va w .amo key) (hw : 0 < w) (hp : s.pending = [])
    (hshare : s.r.share = []) (hf : ∀ a, key ≤ a → a < key + w → foot a) (hop : op ≠ .cas) :
    ∃ u old, t.atomic .vec op rel alloc va w b cmp = .ok (old, u) ∧ Writing foot s u ∧
      u.byteAt = layNumber key w (amoNew op w (leBytesToNat (bytesAt t.mem key w)) b cmp) t.byteAt := by
  obtain ⟨z, hz, hwz, hm⟩ := h.check hs
  obtain ⟨u, old, hu, hwu, hb⟩ := hwz.amoAt (va := va) (b := b) (cmp := cmp) (rel := rel) (alloc := alloc) hs hp hshare hf hop
  refine ⟨u, old, ?_, hwu, ?_⟩
  · unfold State.atomic
    simp only [bind, Except.bind, hz, hs.not_isHostKey hw, Bool.false_eq_true, if_false]
    exact hu
  · rw [hb, hm, show z.byteAt = t.byteAt from funext fun a => congrArg (cellGet · a) hm]

/-! ### The elements of a vector atomic -/

/-- An atomic action on bytes: the number at a key replaced by what becomes of it. -/
def actOn (key w : Nat) (new : Nat → Nat) (f : Nat → Byte) : Nat → Byte :=
  layNumber key w (new (leBytesToNat ((keysFrom key w).map f))) f

variable {vd vi : VR} {base : Word} {mm : MMod} {at_ : Nat → Nat}

/-- Element i's action. -/
theorem Writing.vamoElem {i : Nat} (h : Writing foot s t) (hw8 : (s.fmtOf vd).width / 8 = w) (hw : 0 < w)
    (hs : Serves s foot (s.elemAddr base (s.fmtOf vd) (.indexed vi) i) w .amo key)
    (hp : s.pending = []) (hshare : s.r.share = []) (hf : ∀ a, key ≤ a → a < key + w → foot a)
    (hop : vamoOp op (s.fmtOf vd) ≠ .cas) :
    ∃ u, t.vamoElem op mm alloc none vd vi base i = .ok ((), u) ∧ Writing foot s u ∧
      u.byteAt = actOn key w (fun x => amoNew (vamoOp op (s.fmtOf vd)) w x ((s.vreg vd).elem (s.fmtOf vd) i) 0) t.byteAt := by
  obtain ⟨z, old, hz, hwz, hb⟩ := h.atomic (rel := releases mm.ord) (alloc := alloc)
    (b := (s.vreg vd).elem (s.fmtOf vd) i) (cmp := 0) hs hw hp hshare hf hop
  obtain ⟨hdone, hdm⟩ := hwz.elemDone (s.elemAddr base (s.fmtOf vd) (.indexed vi) i) (.indexed vi)
  refine ⟨_, ?_, hdone, ?_⟩
  · unfold State.vamoElem
    simp only [h.fmtOf, h.vreg, h.elemAddr, hw8, hz, bind, Except.bind]
    rfl
  · rw [show State.byteAt (State.elemDone _ _ (.indexed vi)) = _ from funext fun a => congrArg (cellGet · a) hdm]
    exact hb

/-- The elements of a vector atomic, one after the other. -/
theorem State.vamoElems {els : List Nat} {new : Nat → Nat → Nat} (hw8 : (s.fmtOf vd).width / 8 = w) (hw : 0 < w)
    (hwf : Memory.wf s.mem)
    (hs : ∀ j ∈ els, Serves s foot (s.elemAddr base (s.fmtOf vd) (.indexed vi) j) w .amo (at_ j))
    (hp : s.pending = []) (hshare : s.r.share = []) (hf : ∀ j ∈ els, ∀ a, at_ j ≤ a → a < at_ j + w → foot a)
    (hop : vamoOp op (s.fmtOf vd) ≠ .cas)
    (hnew : ∀ x j, x < 2 ^ (8 * w) → amoNew (vamoOp op (s.fmtOf vd)) w x ((s.vreg vd).elem (s.fmtOf vd) j) 0 =
      new x ((s.vreg vd).elem (s.fmtOf vd) j)) :
    ∃ t, eachElem none (fun i s => s.vamoElem op mm alloc none vd vi base i) els none s = .ok ((), t) ∧ Through s t ∧
      t.r.vect = s.r.vect ∧
      t.byteAt = els.foldl (fun f j => actOn (at_ j) w (fun x => new x ((s.vreg vd).elem (s.fmtOf vd) j)) f) s.byteAt := by
  cases hcases : els with
  | nil => exact ⟨s, rfl, .refl, rfl, rfl⟩
  | cons j rest =>
    obtain ⟨-, -, -, -, -, -, hpages⟩ := hs j (by simp [hcases])
    rw [← hcases]
    obtain ⟨t, ht, hw, hb⟩ := eachElem_all (els := els) (elem := fun i s => s.vamoElem op mm alloc none vd vi base i)
      (inv := fun l t => Writing foot s t ∧
        t.byteAt = l.foldl (fun f j => actOn (at_ j) w (fun x => new x ((s.vreg vd).elem (s.fmtOf vd) j)) f) s.byteAt)
      (fun l i l' t he ⟨hwr, hb⟩ => by
        obtain ⟨u, hu, hwu, hbu⟩ := hwr.vamoElem (mm := mm) (alloc := alloc) hw8 hw (hs i (by simp [he])) hp hshare
          (hf i (by simp [he])) hop
        refine ⟨u, hu, hwu.spent, ?_⟩
        rw [List.foldl_concat, ← hb]
        refine hbu.trans (congrArg (layNumber _ _ · _) (hnew _ i ?_))
        refine (leBytesToNat_lt _).trans_eq ?_
        simp [keysFrom_eq_map, Nat.pow_mul])
      (done := []) rfl none ⟨.start hpages hwf, rfl⟩
    exact ⟨t, ht, hw.during.through, hw.vect, hb⟩

end

/-! ### The instructions -/

section
variable {vd vi : VR} {w : Nat} {base : Word} {mm : MMod} {i : Instr} {op : AmoOp} {foot : Nat → Prop} {at_ : Nat → Nat}

theorem doVamo_eq (h : FreeToRun i s) (hok : vamoOk op (s.vreg vd) = true) (hvi : s.kind vi = .int)
    (hprot : s.r.strip.prot = false) (hshare : s.r.share = []) (hl : LengthOk s (memNames vd (.indexed vi)) mm.mask)
    (hs : ∀ j ∈ s.activeFrom mm.mask s.vstart,
      Serves s foot (s.elemAddr base (s.fmtOf vd) (.indexed vi) j) ((s.fmtOf vd).width / 8) .amo (at_ j)) :
    doVamo op mm vd vi base s = (do
      let (_, t) ← eachElem none (fun i t => t.vamoElem op mm (s.allocates mm.hint (s.footprint (s.fmtOf vd) (.indexed vi))) none vd vi
        base i) (s.activeFrom mm.mask s.vstart) none s
      .ok ((), (t.acquireVec mm).setVstart 0)) := by
  obtain ⟨-, -, -, -, -, hquota, -⟩ := h
  have hlists := fun acc => State.listsFor_served (form := .indexed vi) hs acc
  have hturn (per : Nat) (els : List Nat) : s.turnElems per els = (els, none) := by
    simp [State.turnElems, State.pauseAt, hquota]
  unfold doVamo
  dsimp only
  rw [hok, hvi, show (true && TagKind.int == TagKind.int) = true from rfl, State.tagChecks_ok hl.1 fun _ => hl.2]
  simp only [bind, Except.bind, hturn, State.endProt_of_not_prot hprot, State.drainShare_nil hshare, hlists, pauseOr]

/-- A vector atomic but CAS completes. -/
theorem vamo_ends {a b : Word} {new : Nat → Nat → Nat} (he : exec i s = passVector i a b (doVamo op mm vd vi base) s)
    (hok : vamoOk op (s.vreg vd) = true) (hvi : s.kind vi = .int) (hw : 0 < (s.fmtOf vd).width / 8)
    (hwf : Memory.wf s.mem) (hp : s.pending = []) (hprot : s.r.strip.prot = false) (hshare : s.r.share = [])
    (hop : vamoOp op (s.fmtOf vd) ≠ .cas)
    (hnew : ∀ x j, x < 2 ^ (8 * ((s.fmtOf vd).width / 8)) →
      amoNew (vamoOp op (s.fmtOf vd)) ((s.fmtOf vd).width / 8) x ((s.vreg vd).elem (s.fmtOf vd) j) 0 =
        new x ((s.vreg vd).elem (s.fmtOf vd) j))
    (h : FreeToRun i s) (hl : LengthOk s (memNames vd (.indexed vi)) mm.mask)
    (hs : ∀ j ∈ s.activeFrom mm.mask s.vstart,
      Serves s foot (s.elemAddr base (s.fmtOf vd) (.indexed vi) j) ((s.fmtOf vd).width / 8) .amo (at_ j))
    (hf : ∀ j ∈ s.activeFrom mm.mask s.vstart, ∀ a, at_ j ≤ a → a < at_ j + (s.fmtOf vd).width / 8 → foot a) :
    ∃ t, exec i s = .next t ∧ t.r.vect = { s.r.vect with vstart := 0 } ∧ t.r.scal = { s.r.scal with pc := s.pc + 8 } ∧
      t.r.strip = s.r.strip ∧ t.r.queues = s.r.queues ∧
      t.byteAt = (s.activeFrom mm.mask s.vstart).foldl (fun f j =>
        actOn (at_ j) ((s.fmtOf vd).width / 8) (fun x => new x ((s.vreg vd).elem (s.fmtOf vd) j)) f) s.byteAt := by
  obtain ⟨u, hu, hthrough, hv, hbytes⟩ := State.vamoElems (mm := mm)
    (alloc := s.allocates mm.hint (s.footprint (s.fmtOf vd) (.indexed vi))) rfl hw hwf hs hp hshare hf hop hnew
  obtain ⟨hacq, hacqm, hacqv⟩ := hthrough.acquireVec mm
  obtain ⟨t, ht, hbt, hvt, hscal, hstrip, hqs⟩ := store_ends h he hacq (hacqv.trans hv)
    ((doVamo_eq h hok hvi hprot hshare hl hs).trans (by rw [hu]; rfl))
  refine ⟨t, ht, hvt, hscal, hstrip, hqs, hbt.trans (Eq.trans ?_ hbytes)⟩
  exact funext fun a => congrArg (cellGet · a) hacqm

end

/-! ### The values of R88 -/

section
variable {f : Fmt} {x y : Nat}

/-- The integer formats a vector atomic takes (R157). -/
def Fmt.Atomic (f : Fmt) : Prop := f = .i32 ∨ f = .u32 ∨ f = .i64 ∨ f = .u64

/-- An element of such a format as an integer. -/
def Fmt.asInt (f : Fmt) (x : Nat) : Int := if f = .i32 ∨ f = .i64 then (BitVec.ofNat f.width x).toInt else x

theorem Fmt.Atomic.width (h : f.Atomic) : 0 < f.width / 8 ∧ 8 * (f.width / 8) = f.width := by
  rcases h with rfl | rfl | rfl | rfl <;> exact ⟨by decide, by decide⟩

theorem Fmt.Atomic.add_eq (h : f.Atomic) : amoNew (vamoOp .add f) (f.width / 8) x y 0 = (x + y) % 2 ^ (8 * (f.width / 8)) := by
  rcases h with rfl | rfl | rfl | rfl <;> rfl

theorem Fmt.Atomic.min_eq (h : f.Atomic) (hx : x < 2 ^ f.width) (hy : y < 2 ^ f.width) :
    amoNew (vamoOp .min f) (f.width / 8) x y 0 = if f.asInt x < f.asInt y then x else y := by
  have hsigned {w : Nat} (hw : 0 < w) : amoNew .min w x y 0 =
      if (BitVec.ofNat (8 * w) x).toInt < (BitVec.ofNat (8 * w) y).toInt then x else y := amoNew_min hw x
  have hunsigned {w : Nat} (hx : x < 2 ^ (8 * w)) (hy : y < 2 ^ (8 * w)) : amoNew .minu w x y 0 = if (x : Int) < y then x else y := by
    simp only [amoNew, intVal_false_lt_iff hx hy, Nat.cast_lt]
  rcases h with rfl | rfl | rfl | rfl
  · exact hsigned (w := 4) (by decide)
  · exact hunsigned (w := 4) hx hy
  · exact hsigned (w := 8) (by decide)
  · exact hunsigned (w := 8) hx hy

theorem Fmt.Atomic.max_eq (h : f.Atomic) (hx : x < 2 ^ f.width) (hy : y < 2 ^ f.width) :
    amoNew (vamoOp .max f) (f.width / 8) x y 0 = if f.asInt x < f.asInt y then y else x := by
  have hsigned {w : Nat} (hw : 0 < w) : amoNew .max w x y 0 =
      if (BitVec.ofNat (8 * w) x).toInt < (BitVec.ofNat (8 * w) y).toInt then y else x := amoNew_max hw x
  have hunsigned {w : Nat} (hx : x < 2 ^ (8 * w)) (hy : y < 2 ^ (8 * w)) : amoNew .maxu w x y 0 = if (x : Int) < y then y else x := by
    simp only [amoNew, intVal_false_lt_iff hx hy, Nat.cast_lt]
  rcases h with rfl | rfl | rfl | rfl
  · exact hsigned (w := 4) (by decide)
  · exact hunsigned (w := 4) hx hy
  · exact hsigned (w := 8) (by decide)
  · exact hunsigned (w := 8) hx hy

theorem vamoOp_ne_cas {op : AmoOp} (hop : op ≠ .cas) (f : Fmt) : vamoOp op f ≠ .cas := by
  unfold vamoOp
  split
  · nofun
  · nofun
  · exact hop

end

theorem State.fmt_eq {vd : VR} {f : Fmt} (h : s.fmtOf vd = f) (hf : f ≠ .untagged) : (s.vreg vd).fmt = some f := by
  unfold State.fmtOf at h
  cases hv : (s.vreg vd).fmt with
  | none => rw [hv] at h; exact (hf h.symm).elim
  | some g => rw [hv] at h; exact congrArg some h

theorem vamoOk_atomic {v : VReg} {f : Fmt} (hf : f.Atomic) (hv : v.fmt = some f) (hbs : v.bs = false) {op : AmoOp}
    (hop : op ≠ .fadd) : vamoOk op v = true := by
  unfold vamoOk
  rw [hv, hbs]
  cases op with
  | fadd => exact (hop rfl).elim
  | _ => rcases hf with rfl | rfl | rfl | rfl <;> rfl

/-- Settles O39: an element's action reads and writes what the actions before it have left. -/
theorem vectorAtomics : Obligations.VectorAtomics := by
  intro s m vd vi sa off key hvi hp hprot hshare hwf f w sg n live at_ foot runs
  have hmem {j : Nat} : j ∈ s.activeFrom m.mask s.vstart ↔ live j := by
    rw [State.mem_activeFrom, and_assoc]
  have hruns {i : Instr} {op : AmoOp} {a b : Word} {new : Nat → Nat → Nat}
      (he : exec i s = passVector i a b (doVamo op m vd vi (s.reg sa + off.signExtend 64)) s)
      (hok : vamoOk op (s.vreg vd) = true) (hw : 0 < w) (hop : vamoOp op f ≠ .cas)
      (hnew : ∀ x j, x < 2 ^ (8 * w) → amoNew (vamoOp op f) w x ((s.vreg vd).elem f j) 0 = new x ((s.vreg vd).elem f j)) :
      runs i new := by
    intro h hl hs act
    obtain ⟨t, ht, hv, hscal, hstrip, hqs, hbytes⟩ := vamo_ends (foot := foot) (at_ := at_) he hok hvi hw hwf hp hprot hshare hop
      hnew h hl (fun j hj => hs j (hmem.mp hj)) fun j hj a h1 h2 => ⟨j, hmem.mp hj, h1, h2⟩
    exact ⟨t, ht, hv, hscal, hstrip, hqs, fun a => congrFun hbytes a⟩
  refine ⟨fun hf hbs => ?_, fun hf hbs => ?_⟩
  · have hat : f.Atomic := hf
    obtain ⟨hw, h8⟩ := hat.width
    have hfmt : (s.vreg vd).fmt = some f := State.fmt_eq rfl (by rcases hf with h | h | h | h <;> rw [h] <;> nofun)
    have hlt {x : Nat} (h : x < 2 ^ (8 * w)) : x < 2 ^ f.width := h8 ▸ h
    refine ⟨hruns (op := .add) (new := fun x y => (x + y) % 2 ^ (8 * w)) rfl ?_ hw ?_ fun x j _ => hat.add_eq,
      hruns (op := .min) (new := fun x y => if f.asInt x < f.asInt y then x else y) rfl ?_ hw ?_
        fun x j hx => hat.min_eq (hlt hx) (VReg.elem_lt ..),
      hruns (op := .max) (new := fun x y => if f.asInt x < f.asInt y then y else x) rfl ?_ hw ?_
        fun x j hx => hat.max_eq (hlt hx) (VReg.elem_lt ..)⟩
    · exact vamoOk_atomic hat hfmt hbs nofun
    · exact vamoOp_ne_cas (by decide) f
    · exact vamoOk_atomic hat hfmt hbs nofun
    · exact vamoOp_ne_cas (by decide) f
    · exact vamoOk_atomic hat hfmt hbs nofun
    · exact vamoOp_ne_cas (by decide) f
  · have hfmt : (s.vreg vd).fmt = some (.fp .fp32) := State.fmt_eq hf nofun
    have hop : vamoOp .fadd f = .fadd := by rw [hf]; rfl
    refine hruns (op := .fadd) (new := fadd32) rfl ?_ ?_ (by rw [hop]; nofun) fun x j _ => by rw [hop]; rfl
    · unfold vamoOk
      rw [hfmt, hbs]
      rfl
    · rw [show w = f.width / 8 from rfl, hf]
      decide

end Sys2Proof.Machine
end

section
/-! COPY checked and accepted (O41): its descriptor read, its checks, its elements in box order (R161–R164, R226). -/

namespace Sys2Proof.Machine
variable {s t u : State}

/-! ### What a scalar-side access leaves -/

/-- In the middle of accesses of the scalar side that write nothing: the vector side is as it was. -/
structure Reading (s t : State) : Prop where
  during : During .scal (fun _ => False) s t
  vect : t.r.vect = s.r.vect

theorem Reading.start (hp : s.r.pages = []) : Reading s s := ⟨.start hp, rfl⟩

theorem Reading.sameMemory (h : Reading s t) : SameMemory s t := fun k => h.during.mem k not_false

theorem Reading.bytesAt_eq (h : Reading s t) (k n : Nat) : bytesAt t.mem k n = bytesAt s.mem k n :=
  bytesAt_congr fun i _ => h.sameMemory (k + i)

/-- A doubleword read with the vector side idle. -/
theorem Reading.scalarLoad {va : Word} {n key : Nat} (h : Reading s t) (hq : s.r.vq = []) (hp : s.pending = [])
    (hs : Serves s (fun _ => False) va n .load key) (hn : 0 < n) (scope : Scope) :
    ∃ u, t.scalarLoad va n scope = .ok (s.ownBytes key n, u) ∧ Reading s u := by
  have hr : t.r.vq = [] ∧ t.r.strip = s.r.strip := by rw [h.during.worn]; exact ⟨hq, rfl⟩
  obtain ⟨u, hu, hd, hv, -⟩ := h.during.load hs hn hp { scope := scope }
  refine ⟨u, ?_, hd, hv.trans h.vect⟩
  rw [State.scalarLoad, State.behindAmo, hr.1, List.any_nil, if_neg Bool.false_ne_true, hu, h.bytesAt_eq, Runner.lay, hr.1, hr.2]
  rfl

/-! ### The descriptor and the boxes -/

/-- A descriptor's doublewords read in order (R162 step 1). -/
theorem Reading.readDesc {key : Word → Nat} {scope : Scope} (hq : s.r.vq = []) (hp : s.pending = []) (n : Nat) {va : Word}
    (hs : ∀ k, k < n → Serves s (fun _ => False) (va + BitVec.ofNat 64 (8 * k)) 8 .load (key (va + BitVec.ofNat 64 (8 * k))))
    {t : State} (h : Reading s t) :
    ∃ u, t.readDesc scope n va = .ok ((List.range n).map fun k =>
      BitVec.ofNat 64 (leBytesToNat (s.ownBytes (key (va + BitVec.ofNat 64 (8 * k))) 8)), u) ∧ Reading s u := by
  induction n generalizing va t with
  | zero => exact ⟨t, rfl, h⟩
  | succ n ih =>
    have hstep (k : Nat) : va + BitVec.ofNat 64 (8 * (k + 1)) = va + 8 + BitVec.ofNat 64 (8 * k) := by
      rw [Nat.mul_succ, Nat.add_comm, BitVec.ofNat_add, ← BitVec.add_assoc]
      rfl
    have hzero : va + BitVec.ofNat 64 (8 * 0) = va := BitVec.add_zero va
    have hfirst := hs 0 n.succ_pos
    rw [hzero] at hfirst
    obtain ⟨z, hz, hrz⟩ := h.scalarLoad hq hp hfirst (by omega) scope
    obtain ⟨u, hu, hru⟩ := ih (va := va + 8) (fun k hk => hstep k ▸ hs (k + 1) (Nat.succ_lt_succ hk)) hrz
    refine ⟨u, ?_, hru⟩
    simp only [State.readDesc, hz, hu, bind, Except.bind, List.range_succ_eq_map, List.map_cons, List.map_map,
      Function.comp_def, Nat.succ_eq_add_one, hstep, hzero]

/-- The elements of a box in the module's own memory, checked in order (R162 step 4). -/
theorem Reading.boxKeys {key : Word → Nat} {k : AccKind} {es : Nat} {vas : List Word}
    (hs : ∀ a ∈ vas, Serves s (fun _ => False) a es k (key a)) {t : State} (h : Reading s t) :
    ∃ u, t.boxKeys k es vas = .ok ((vas.map key, []), u) ∧ Reading s u := by
  induction vas generalizing t with
  | nil => exact ⟨t, rfl, h⟩
  | cons a vas ih =>
    have ha := hs a List.mem_cons_self
    obtain ⟨z, hz, hdz, l, rfl⟩ := h.during.check ha
    have hrz : Reading s (t.withPages l) := ⟨hdz, h.vect⟩
    have hpin : (t.withPages l).pinFault a = false := by
      obtain ⟨-, -, -, -, -, hpin, -⟩ := ha
      rw [hdz.worn]
      exact hpin
    obtain ⟨u, hu, hru⟩ := ih (fun b hb => hs b (List.mem_cons_of_mem _ hb)) hrz
    refine ⟨u, ?_, hru⟩
    have hone : t.boxKey k es a = .ok ((key a, none), t.withPages l) := by
      simp only [State.boxKey, hz, bind, Except.bind, hpin, Bool.false_eq_true, if_false]
    simp only [State.boxKeys, hone, hu, bind, Except.bind]
    rfl

/-- A box has an address for each element (R161). -/
theorem boxAddrs_length (base w : Word) (st : Word × Word × Word) (es : Nat) :
    (boxAddrs base st (extents w) es).length = boxCount (extents w) := by
  simp only [boxAddrs, List.length_flatMap, List.length_map, List.length_range, List.map_const', List.sum_replicate, smul_eq_mul]
  simp only [boxCount, extents, List.range, List.range.loop, List.map_cons, List.map_nil, List.foldl_cons, List.foldl_nil,
    one_mul, List.getElem?_cons_zero, List.getElem?_cons_succ, Option.getD_some]
  ring

/-! ### Acceptance -/

/-- A copy with elements, accepted with the vector side idle and nothing buffered: it waits for no store. -/
theorem State.acceptCopy_elems {c : CopyRec} (hq : s.r.vq = []) (hprot : s.r.strip.prot = false) (hbuf : s.r.strip.buf = [])
    (hc : c.elems ≠ []) : ∃ h, s.acceptCopy c =
      { s with copies := s.copies ++ [{ c with waits := false }], r := { s.r with hist := h } } := by
  rw [State.acceptCopy, hq, List.isEmpty_nil, if_pos rfl, State.startCopy, s.endProt_of_not_prot hprot, ite_self,
    List.isEmpty_eq_false_iff.mpr hc]
  exact ⟨_, by simp [State.mapR, Runner.mapHist, hbuf]; rfl⟩

/-- A copy without elements or arrival is complete at once. -/
theorem State.acceptCopy_empty {c : CopyRec} (hq : s.r.vq = []) (hprot : s.r.strip.prot = false) (hstat : s.r.stat = .ready)
    (hc : c.elems = []) (harv : c.arv = none) (hr : c.runner = s.rid) : s.acceptCopy c = s := by
  rw [State.acceptCopy, hq, List.isEmpty_nil, if_pos rfl, State.startCopy, s.endProt_of_not_prot hprot, ite_self, hc,
    List.isEmpty_nil, if_pos rfl, State.copyArrives, harv, hr]
  exact State.unstick_of_ready (State.self_mem_teamRunners rfl) hstat

/-- A COPY's record before its elements are known. -/
def State.newCopy (s : State) (d : CopyDesc) : CopyRec :=
  { id := s.nextUid, runner := s.rid, die := s.r.ident.core.die, cluster := s.r.ident.core.cluster, elems := []
    esize := d.es, bmap := none, arv := if bitOf d.ctrl 4 then some (Fin.ofNat 16 (bitsOf d.ctrl 8 4)) else none
    toMem := !inLocal d.dst }

/-- A COPY's record with its elements checked. -/
def State.checkedCopy (s : State) (c : CopyRec) (d : CopyDesc) (e : List Nat) (sk dk : List Nat) : CopyRec :=
  { c with
    elems := sk.zip dk
    bmap := if d.bmap = 0 then none else some (Loc.scratch s.myTeamUid (d.bmap.toNat - 0x01FF000000000000)).key
    peers := []
    pins := s.boxPins (boxAddrs d.src d.sst e d.es) sk ++ s.boxPins (boxAddrs d.dst d.dstr e d.es) dk
    alloc := boxCount e * d.es ≤ s.r.scal.bypass.toNat }

section
variable {scope : Scope} {d ext : Word} {w : List Word}

theorem doCopy_bad {o : Nat} (hl : (s.copyLoad).1 < 64 ∧ (s.copyLoad).2 < 16) (hr : s.readDesc scope 12 d = .ok (w, t))
    (hb : t.badField (copyDesc w) (boxCount (extents ext) * (copyDesc w).es) = some o) :
    doCopy scope d ext s = stopTrap .access (d + BitVec.ofNat 64 o) t := by
  simp [doCopy, Nat.not_le.mpr hl.1, Nat.not_le.mpr hl.2, hr, hb, bind, Except.bind]

theorem doCopy_boxes {sk dk : List Nat} {z u : State} (hl : (s.copyLoad).1 < 64 ∧ (s.copyLoad).2 < 16)
    (hr : s.readDesc scope 12 d = .ok (w, t))
    (hb : t.badField (copyDesc w) (boxCount (extents ext) * (copyDesc w).es) = none)
    (he : boxCount (extents ext) * (copyDesc w).es ≠ 0)
    (hsrc : t.boxKeys .load (copyDesc w).es
      (boxAddrs (copyDesc w).src (copyDesc w).sst (extents ext) (copyDesc w).es) = .ok ((sk, []), z))
    (hdst : z.boxKeys .store (copyDesc w).es
      (boxAddrs (copyDesc w).dst (copyDesc w).dstr (extents ext) (copyDesc w).es) = .ok ((dk, []), u)) :
    doCopy scope d ext s = .ok ((), (({ u with nextUid := u.nextUid + 1 } : State).acceptCopy
      (u.checkedCopy (t.newCopy (copyDesc w)) (copyDesc w) (extents ext) sk dk)).advance) := by
  simp only [doCopy, Nat.not_le.mpr hl.1, Nat.not_le.mpr hl.2, hr, hb, bind, Except.bind, hsrc, hdst, if_neg he]
  rfl

theorem doCopy_empty (hl : (s.copyLoad).1 < 64 ∧ (s.copyLoad).2 < 16) (hr : s.readDesc scope 12 d = .ok (w, t))
    (hb : t.badField (copyDesc w) (boxCount (extents ext) * (copyDesc w).es) = none) (he : boxCount (extents ext) = 0) :
    doCopy scope d ext s = .ok ((), (t.acceptCopy (t.newCopy (copyDesc w))).advance) := by
  rw [he, Nat.zero_mul] at hb
  simp [doCopy, Nat.not_le.mpr hl.1, Nat.not_le.mpr hl.2, hr, hb, he, bind, Except.bind, State.newCopy]

end

/-- What a state reached by reads alone shares with their start (the checks of a descriptor look at nothing else). -/
theorem Reading.keeps (h : Reading s t) : t.r.vq = s.r.vq ∧ t.r.strip = s.r.strip ∧ t.r.stat = s.r.stat ∧
    t.r.queues = s.r.queues ∧ t.r.scal = s.r.scal ∧ t.rid = s.rid ∧ t.copies = s.copies ∧ t.badField = s.badField := by
  rw [h.during.worn]
  exact ⟨rfl, rfl, rfl, rfl, rfl, rfl, rfl, rfl⟩

/-- How an accepted COPY ends, from the state its reads left. -/
theorem Reading.copy_done {scope : Scope} {sa sb : SR} {off : BitVec 16} {v : State} {copies : State → Prop} (h : Reading s t)
    (hdo : doCopy scope (s.reg sa + off.signExtend 64) (s.reg sb) s = .ok ((), v.advance))
    (hv : ∃ n hist cs, v = { t with nextUid := n, copies := cs, r := { t.r with hist := hist } })
    (hc : copies v.advance.completed) :
    ∃ t, exec (.copy scope sa sb off) s = .next t ∧ (∀ n, t.reg n = s.reg n) ∧ t.pc = s.pc + 8 ∧ t.r.vect = s.r.vect ∧
      t.r.queues = s.r.queues ∧ SameMemory s t ∧ copies t := by
  obtain ⟨-, -, -, hqs, hscal, -⟩ := h.keeps
  refine ⟨v.advance.completed, ?_, ?_⟩
  · change execCopy scope sa sb off s = _
    unfold execCopy
    rw [show sext off = off.signExtend 64 from rfl, hdo]
    rfl
  · obtain ⟨n, hist, cs, rfl⟩ := hv
    exact ⟨fun n => congrArg (fun x : Scal => { x with pc := x.pc + 8 }.get n) hscal, congrArg (fun x : Scal => x.pc + 8) hscal, h.vect, hqs,
      h.sameMemory, hc⟩

/-- Settles O41: the descriptor's words are read as they are, and the checks see nothing that the reads change. -/
theorem copyAcceptance : Obligations.CopyAcceptance := by
  intro s scope sa sb off words key d i f e es count desc hq hstat hprot hp hnear hmine hlen hserve done
  have hpages : s.r.pages = [] := by
    obtain ⟨⟨-, -, -, -, -, -, hpages⟩, -⟩ := hserve 0 (by decide)
    exact hpages
  obtain ⟨t, hread, ht⟩ := Reading.readDesc (scope := scope) hq hp 12 (fun k hk => (hserve k hk).1) (.start hpages)
  have hwords : ((List.range 12).map fun k => BitVec.ofNat 64 (leBytesToNat (s.ownBytes (key (d + BitVec.ofNat 64 (8 * k))) 8))) =
      words := by
    refine List.ext_getElem (by simp [hlen]) fun k hk hw => ?_
    have hf := (hserve k (hlen ▸ hw)).2
    simp only [f, List.getElem?_eq_getElem hw, Option.getD_some] at hf
    simp [hf]
  rw [hwords] at hread
  obtain ⟨hvq, hstrip, hst, -, hscal, hrid, hcopies, hbad⟩ := ht.keeps
  rw [hq] at hvq
  rw [hstat] at hst
  refine ⟨fun hnone => ⟨fun hzero harv => ?_, fun hpos hbuf hsrc hdst => ?_⟩, fun o ho => ?_⟩
  · have hnew : (t.newCopy desc).arv = none := by
      rw [State.newCopy, show bitOf desc.ctrl 4 = false from harv, if_neg Bool.false_ne_true]
    have hacc := State.acceptCopy_empty (c := t.newCopy desc) hvq (hstrip ▸ hprot) hst rfl hnew rfl
    have hdo := doCopy_empty (ext := s.reg sb) ⟨hnear, hmine⟩ hread (hbad ▸ hnone) hzero
    rw [hacc] at hdo
    exact ht.copy_done hdo ⟨_, _, _, rfl⟩ hcopies
  · obtain ⟨z, hz, hrz⟩ := ht.boxKeys hsrc
    obtain ⟨u, hu, hru⟩ := hrz.boxKeys hdst
    obtain ⟨huq, hustrip, -, -, -, -, hucopies, -⟩ := hru.keeps
    have hbytes : count * es ≠ 0 := Nat.mul_ne_zero hpos.ne' (Nat.two_pow_pos _).ne'
    have hdo := doCopy_boxes (ext := s.reg sb) ⟨hnear, hmine⟩ hread (hbad ▸ hnone) hbytes hz hu
    have helems : (u.checkedCopy (t.newCopy desc) desc e ((boxAddrs (f 0) (f 2, f 3, f 4) e es).map key)
        ((boxAddrs (f 1) (f 5, f 6, f 7) e es).map key)).elems ≠ [] := by
      refine List.ne_nil_of_length_pos ?_
      simp only [State.checkedCopy, List.length_zip, List.length_map]
      rw [show e = extents (s.reg sb) from rfl, boxAddrs_length, boxAddrs_length, Nat.min_self]
      exact hpos
    obtain ⟨hist, hacc⟩ := State.acceptCopy_elems (s := { u with nextUid := u.nextUid + 1 }) (huq.trans hq)
      ((congrArg Strip.prot hustrip).trans hprot) ((congrArg Strip.buf hustrip).trans hbuf) helems
    have hdone := hdo.trans (congrArg (fun v : State => Except.ok ((), v.advance)) hacc)
    refine hru.copy_done hdone ⟨_, _, _, rfl⟩ ⟨_, congrArg (· ++ _) hucopies, hrid, rfl, rfl, rfl, ?_, rfl⟩
    change (if bitOf desc.ctrl 4 then _ else none : Option BR).isSome = bitOf desc.ctrl 4
    cases bitOf desc.ctrl 4 <;> rfl
  · have hdo := doCopy_bad (ext := s.reg sb) ⟨hnear, hmine⟩ hread (hbad ▸ ho)
    refine ⟨t.enterTrap .access (d + BitVec.ofNat 64 o) false, ?_, ?_⟩
    · change outcome (doCopy scope d (s.reg sb) s) = _
      rw [hdo, outcome_stopTrap hvq]
      rfl
    · rw [State.enterTrap_scal]
      refine ⟨rfl, congrArg Scal.pc hscal, rfl, ?_⟩
      rw [State.enterTrap_eq, t.endProt_of_not_prot (hstrip ▸ hprot)]
      dsimp only
      split <;> exact hcopies

end Sys2Proof.Machine
end

section
/-! The checks of an address beside a passed instruction (O40): they do not look at the instruction in the vector queue, at the
streams or at what is asked. -/

namespace Sys2Proof.Machine
variable {s t : State}

/-- A state with an instruction in its vector queue and streams that land, all else the same. -/
def State.behind (s : State) (n : Nat) (v : Instr × Word × Word × Scal) (l : List StreamRec) (a : List Ask) : State :=
  { s with nextUid := n, r := { s.r with vq := [.vec v.1 v.2.1 v.2.2.1 v.2.2.2], streams := l, asks := a } }

section
variable {n : Nat} {v : Instr × Word × Word × Scal} {l : List StreamRec} {a : List Ask}

theorem State.pageMoving_behind (hq : s.r.vq = []) (va : Nat) : (s.behind n v l a).pageMoving va = s.pageMoving va := by
  unfold State.pageMoving
  rw [hq]
  rfl

theorem State.walkNow_behind (va : Nat) : ((s.behind n v l a).walkNow va).1 = (s.walkNow va).1 := by
  rw [State.walkNow_fst, State.walkNow_fst]
  rfl

theorem State.lookup_behind (va : Nat) : ((s.behind n v l a).lookup va).1 = (s.lookup va).1 := by
  unfold State.lookup
  rw [show (s.behind n v l a).myCore = s.myCore from rfl, show (s.behind n v l a).rid = s.rid from rfl,
    show (s.behind n v l a).mem = s.mem from rfl]
  split
  · exact State.walkNow_behind va
  · rw [show (s.behind n v l a).r.scal = s.r.scal from rfl]
    split
    · rfl
    · dsimp only
      rw [show (s.behind n v l a).freeBool.1 = s.freeBool.1 from rfl,
        show (s.behind n v l a).freeBool.2 = s.freeBool.2.behind n v l a from rfl]
      split
      · rfl
      · exact State.walkNow_behind va

theorem State.viaTable_behind (hq : s.r.vq = []) (va : Nat) (k : AccKind) :
    ((s.behind n v l a).viaTable va k).1 = (s.viaTable va k).1 := by
  rw [State.viaTable_fst, State.viaTable_fst, State.translate_fst, State.translate_fst, State.lookup_behind,
    State.pageMoving_behind hq]
  rfl

theorem State.ownerOf_behind (g : Region) (va : Nat) :
    (s.behind n v l a).ownerOf g va = ((s.ownerOf g va).1, (s.ownerOf g va).2.behind n v l a) := by
  unfold State.ownerOf
  dsimp only
  rw [show (s.behind n v l a).taken true va = s.taken true va from rfl, show (s.behind n v l a).myCore = s.myCore from rfl,
    show (s.behind n v l a).rid = s.rid from rfl, show (s.behind n v l a).mem = s.mem from rfl]
  generalize s.taken true va = x, tlbOwner s.myCore.tlb s.rid.part va = y
  cases x with
  | some e => rfl
  | none => cases y with
    | none => rfl
    | some e =>
      dsimp only
      split
      · rfl
      · rw [show (s.behind n v l a).freeBool.1 = s.freeBool.1 from rfl]
        split <;> rfl

theorem State.ownerOf_vq (g : Region) (va : Nat) : (s.ownerOf g va).2.r.vq = s.r.vq := by
  obtain ⟨_, _, _, _, _, _, h⟩ := s.ownerOf_apart g va
  rw [h]

theorem State.viaRegion_behind (hq : s.r.vq = []) (g : Region) (va : Word) (k : AccKind) :
    ((s.behind n v l a).viaRegion g va k).1 = (s.viaRegion g va k).1 := by
  unfold State.viaRegion State.viaOwner
  rw [State.ownerOf_behind]
  dsimp only
  have hvia := State.viaTable_behind (n := n) (v := v) (l := l) (a := a) ((s.ownerOf_vq g va.toNat).trans hq) va.toNat k
  split
  · rfl
  · rw [show ((s.ownerOf g va.toNat).2.behind n v l a).pacer = (s.ownerOf g va.toNat).2.pacer from rfl]
    split
    · exact hvia
    · rw [show ((s.ownerOf g va.toNat).2.behind n v l a).relayReaches = (s.ownerOf g va.toNat).2.relayReaches from rfl]
      split <;> rfl

theorem State.locate_behind (hq : s.r.vq = []) (va : Word) (k : AccKind) (w : Nat) :
    ((s.behind n v l a).locate va w k).1 = (s.locate va w k).1 := by
  have hvia (x : Nat) := State.viaTable_behind (n := n) (v := v) (l := l) (a := a) hq x k
  have hregion (g : Region) := State.viaRegion_behind (n := n) (v := v) (l := l) (a := a) hq g va k
  unfold State.viaRegion State.viaOwner at hregion
  unfold State.locate
  dsimp only
  rw [show (s.behind n v l a).pacer = s.pacer from rfl, show (s.behind n v l a).tableAddr = s.tableAddr from rfl,
    show (s.behind n v l a).relayReaches = s.relayReaches from rfl, show (s.behind n v l a).part? = s.part? from rfl,
    show (s.behind n v l a).rid = s.rid from rfl]
  split
  · exact hvia _
  · split
    · split
      · exact hvia _
      · split <;> rfl
    · split
      · split
        · rfl
        · next g _ =>
          split
          · rfl
          · exact hregion g
      · split
        · rfl
        · split
          · rfl
          · rfl
          · exact hvia _
          · rfl
          · rfl

theorem State.resolve_behind (hq : s.r.vq = []) (va : Word) (w al : Nat) (k : AccKind) :
    ((s.behind n v l a).resolve va w al k).1 = (s.resolve va w al k).1 := by
  rw [State.resolve_fst, State.resolve_fst, State.locate_behind hq]
  rfl

/-- The instruction at an address, without an answer from outside. -/
theorem State.memberAt_behind {va : Word} {j : Option Instr} {u : State} (hq : s.r.vq = []) (hr : s.r.replies = [])
    (h : s.memberAt va = .ok (j, u)) : u = s ∧ (s.behind n v l a).memberAt va = .ok (j, s.behind n v l a) := by
  have hx := State.resolve_behind (n := n) (v := v) (l := l) (a := a) hq va 8 8 .fetch
  have hask (t : State) (ht : t.r.replies = []) (q : Ask) : t.answer q = .error (.ask q, t) := by
    rw [State.answer, ht]
    rfl
  unfold State.memberAt at h ⊢
  generalize (s.behind n v l a).resolve va 8 8 .fetch = x, s.resolve va 8 8 .fetch = y at h hx ⊢
  obtain ⟨x, _⟩ := x
  obtain ⟨y, _⟩ := y
  obtain rfl : x = y := hx
  cases x with
  | found k =>
    dsimp only at h ⊢
    rw [hask s hr] at h
    split at h
    · cases h
    · next hh =>
      rw [if_neg hh]
      cases h
      exact ⟨rfl, rfl⟩
  | peer m b => cases h; exact ⟨rfl, rfl⟩
  | trap c => cases h; exact ⟨rfl, rfl⟩
  | service =>
    dsimp only at h
    rw [hr, List.any_nil, if_neg Bool.false_ne_true] at h
    cases h
  | moving => cases h

/-- A convoy found legal is found so again. -/
theorem State.convoyLoop_behind {k : Nat} {pc : Word} {units : List FU} {u : State} (hq : s.r.vq = []) (hr : s.r.replies = [])
    (h : State.convoyLoop k pc units s = .ok ((), u)) :
    State.convoyLoop k pc units (s.behind n v l a) = .ok ((), s.behind n v l a) := by
  induction k generalizing pc units with
  | zero =>
    unfold State.convoyLoop at h ⊢
    cases hm : s.memberAt pc with
    | error e => rw [hm] at h; cases h
    | ok x =>
      obtain ⟨j, z⟩ := x
      rw [hm] at h
      rw [(State.memberAt_behind hq hr hm).2]
      cases j with
      | none => rfl
      | some j => cases h
  | succ k ih =>
    unfold State.convoyLoop at h ⊢
    cases hm : s.memberAt pc with
    | error e => rw [hm] at h; cases h
    | ok x =>
      obtain ⟨j, z⟩ := x
      obtain ⟨rfl, hb⟩ := State.memberAt_behind (n := n) (v := v) (l := l) (a := a) hq hr hm
      rw [hm] at h
      rw [hb]
      cases j with
      | none => rfl
      | some j =>
        dsimp only [bind, Except.bind] at h ⊢
        split at h
        · cases h
        · next hfit =>
          rw [if_neg hfit]
          split at h
          · next hcv => exact (if_pos hcv).trans (ih h)
          · next hcv => exact if_neg hcv

theorem State.convoyCheck_behind {i : Instr} (hq : s.r.vq = []) (hr : s.r.replies = [])
    (h : s.convoyCheck i = .ok ((), s)) : (s.behind n v l a).convoyCheck i = .ok ((), s.behind n v l a) := by
  unfold State.convoyCheck at h ⊢
  split
  · next hcv =>
    rw [if_pos hcv] at h
    exact State.convoyLoop_behind hq hr h
  · rfl

end

end Sys2Proof.Machine
end

section
/-! The fields of a stream (O40): issued and landed as memory has them, then written one after the other (R158–R160). -/

namespace Sys2Proof.Machine
variable {s t u : State}

/-! ### The issue -/

/-- What fields f to f + n − 1 of record r are once checked: their keys. -/
def StreamOp.keysFrom (o : StreamOp) (es : Nat) (key : Word → Nat) (r f n : Nat) : List (Nat × Option Nat) :=
  (List.range' f n).map fun g => (key (o.addr es r g), none)

section
variable {o : StreamOp} {es : Nat} {key : Word → Nat}

/-- Only translations in use have changed, of those the core holds. -/
structure Paged (s t : State) : Prop where
  eq : t = s.withPages t.r.pages
  pages : ∀ e ∈ t.r.pages, e ∈ s.myCore.tlb

theorem Paged.during (h : Paged s t) (hp : s.r.pages = []) : During .strm (fun _ => False) s t := by
  rw [h.eq]
  exact (During.start hp).withPages h.pages

theorem Paged.issueField {va : Word} (h : Paged s t) (hp : s.r.pages = []) (he : 0 < es)
    (hs : Serves s (fun _ => False) va es .load (key va)) :
    ∃ u, t.issueField va es = .ok ((key va, none), u) ∧ Paged s u := by
  obtain ⟨u, hu, hd, l, rfl⟩ := (h.during hp).check hs
  refine ⟨t.withPages l, ?_, by rw [h.eq]; rfl, hd.pages⟩
  simp only [State.issueField, hu, bind, Except.bind, hs.not_isHostKey he, Bool.false_eq_true, if_false]

theorem Paged.issueFields {r f n : Nat} (h : Paged s t) (hp : s.r.pages = []) (he : 0 < es)
    (hs : ∀ g, f ≤ g → g < f + n → Serves s (fun _ => False) (o.addr es r g) es .load (key (o.addr es r g))) :
    ∃ u, o.issueFields es r n f t = .ok (o.keysFrom es key r f n, u) ∧ Paged s u := by
  induction n generalizing f t with
  | zero => exact ⟨t, rfl, h⟩
  | succ n ih =>
    obtain ⟨z, hz, hpz⟩ := h.issueField hp he (hs f (Nat.le_refl f) (by omega))
    obtain ⟨u, hu, hpu⟩ := ih (f := f + 1) hpz fun g h1 h2 => hs g (by omega) (by omega)
    refine ⟨u, ?_, hpu⟩
    simp only [StreamOp.issueFields, hz, hu, bind, Except.bind]
    rfl

/-- The records of a stream whose addresses are all served. -/
theorem Paged.issue {els : List Nat} (h : Paged s t) (hp : s.r.pages = []) (he : 0 < es)
    (hs : ∀ j ∈ els, ∀ f, f < o.fields → Serves s (fun _ => False) (o.addr es j f) es .load (key (o.addr es j f))) :
    ∃ u, o.issue es els t = (els.map fun j => (j, o.keysFrom es key j 0 o.fields), none, u) ∧ Paged s u := by
  induction els generalizing t with
  | nil => exact ⟨t, rfl, h⟩
  | cons j els ih =>
    obtain ⟨z, hz, hpz⟩ := h.issueFields (r := j) (f := 0) (n := o.fields) hp he
      fun g _ hg => hs j List.mem_cons_self g (by omega)
    obtain ⟨u, hu, hpu⟩ := ih hpz fun k hk => hs k (List.mem_cons_of_mem _ hk)
    refine ⟨u, ?_, hpu⟩
    simp only [StreamOp.issue, hz, hu, List.map_cons]

/-! ### The landing -/

/-- Fields whose bytes nothing hides land as memory has them. -/
theorem StreamOp.landFields_unhidden {x : StreamRec} {r f n : Nat} (hxs : x.es = es)
    (h : ∀ g, f ≤ g → g < f + n → Unhidden .strm s (key (o.addr es r g)) es ∧ s.pinFaultBy x.pin (o.addr es r g) = false) :
    ∃ t, o.landFields x r f (o.keysFrom es key r f n) s =
      .ok ((List.range' f n).map fun g => leBytesToNat (bytesAt s.mem (key (o.addr es r g)) es), t) ∧ Besides s t := by
  subst hxs
  induction n generalizing f s with
  | zero => exact ⟨s, rfl, .refl⟩
  | succ n ih =>
    obtain ⟨hun, hpin⟩ := h f (Nat.le_refl f) (by omega)
    obtain ⟨z, hz, hb⟩ := State.readBy_unhidden (v := { scope := o.mm.scope, alloc := x.alloc }) hun hpin
    obtain ⟨u, hu, hbu⟩ := ih (s := z) (f := f + 1) fun g h1 h2 => by
      obtain ⟨hg, hpg⟩ := h g (by omega) (by omega)
      refine ⟨hg.besides hb, ?_⟩
      obtain ⟨_, _, _, _, _, rfl⟩ := hb.eq
      exact hpg
    refine ⟨u, ?_, hb.trans hbu⟩
    simp only [StreamOp.keysFrom, StreamOp.landFields, List.range'_succ, List.map_cons, bind, Except.bind, hz]
    rw [show List.map _ _ = o.keysFrom x.es key r (f + 1) n from rfl, hu, hb.mem]
    rfl

/-- What a stream's records bring, where nothing hides their bytes. -/
def StreamOp.landedAll (o : StreamOp) (es : Nat) (key : Word → Nat) (mem : List Host.Cell) (els : List Nat) : List (Nat × List Nat) :=
  els.map fun j => (j, (List.range' 0 o.fields).map fun f => leBytesToNat (bytesAt mem (key (o.addr es j f)) es))

theorem StreamOp.land_unhidden {x : StreamRec} {els : List Nat} (hxs : x.es = es)
    (h : ∀ j ∈ els, ∀ f, f < o.fields →
      Unhidden .strm s (key (o.addr es j f)) es ∧ s.pinFaultBy x.pin (o.addr es j f) = false) :
    ∃ t, o.land x (els.map fun j => (j, o.keysFrom es key j 0 o.fields)) s =
      (o.landedAll es key s.mem els, none, t) ∧ Besides s t := by
  induction els generalizing s with
  | nil => exact ⟨s, rfl, .refl⟩
  | cons j els ih =>
    obtain ⟨z, hz, hb⟩ := o.landFields_unhidden (r := j) (f := 0) (n := o.fields) hxs
      fun g _ hg => h j List.mem_cons_self g (by omega)
    obtain ⟨u, hu, hbu⟩ := ih (s := z) fun k hk f hf => by
      obtain ⟨hg, hpg⟩ := h k (List.mem_cons_of_mem _ hk) f hf
      refine ⟨hg.besides hb, ?_⟩
      obtain ⟨_, _, _, _, _, rfl⟩ := hb.eq
      exact hpg
    refine ⟨u, ?_, hb.trans hbu⟩
    simp only [StreamOp.land, List.map_cons, hz, hu, hb.mem]
    rfl

/-- A field of a record that has landed. -/
theorem StreamOp.landedField_all {mem : List Host.Cell} {els : List Nat} {j f : Nat} (hj : j ∈ els) (hf : f < o.fields) :
    landedField (o.landedAll es key mem els) j f = leBytesToNat (bytesAt mem (key (o.addr es j f)) es) := by
  have hfind : (o.landedAll es key mem els).find? (fun x => x.1 == j) =
      some (j, (List.range' 0 o.fields).map fun f => leBytesToNat (bytesAt mem (key (o.addr es j f)) es)) := by
    unfold StreamOp.landedAll
    induction els with
    | nil => cases hj
    | cons k els ih =>
      rw [List.map_cons, List.find?_cons]
      by_cases hk : k = j
      · subst hk
        simp
      · rw [show (k == j) = false from beq_eq_false_iff_ne.mpr hk]
        exact ih ((List.mem_cons.mp hj).resolve_left fun h => hk h.symm)
  unfold landedField
  rw [hfind]
  simp [hf]

end

/-! ### The writing -/

section
variable {o : StreamOp} {m : Mask} {vlmax vl : Nat} {all : List (Nat × List Nat)} {els : List Nat} {v : Vect}

theorem StreamOp.dest_eq (o : StreamOp) (f : Nat) : o.dest f = o.vd + Fin.ofNat 32 f :=
  Fin.ext (by simp [StreamOp.dest, Fin.val_add])

theorem StreamOp.dest_ne {f g : Nat} (hf : f < 32) (hg : g < 32) (h : f ≠ g) : o.dest f ≠ o.dest g := by
  intro he
  have := congrArg Fin.val he
  simp only [StreamOp.dest] at this
  omega

/-- An index register of which other elements have been written names the same record. -/
theorem StreamOp.elem_loaded {f i : Nat} {fmt : Fmt} {val : Nat → Nat} {l : List Nat} {d : VR}
    (hdest : ((v.reg d).fmt).getD .untagged = fmt) (hi : i ∉ l) :
    o.elem all vl (v.loaded d fmt val l) i f = o.elem all vl v i f := by
  have hindex (n : VR) : ((v.loaded d fmt val l).reg n).index i = (v.reg n).index i := by
    refine VReg.index_congr (Vect.tag_loaded ..) ?_
    rw [Vect.reg_loaded]
    split
    · next h =>
      subst h
      rw [hdest]
      exact VReg.elem_foldl_setElem_of_not_mem _ _ _ hi
    · rfl
  unfold StreamOp.elem
  split
  · rfl
  · rw [hindex]

/-- What field f takes is what the index names when the field is begun: an index register that is the field's own has lost
only elements before. -/
theorem StreamOp.putField_eq {f : Nat} {fmt : Fmt} (hfmt : ((v.reg o.vd).fmt).getD .untagged = fmt)
    (hdest : ((v.reg (o.dest f)).fmt).getD .untagged = fmt) (hnd : els.Nodup) :
    o.putField all vl els f v = v.loaded (o.dest f) fmt (fun j => o.elem all vl v j f) els := by
  have hstep (l l' : List Nat) (h : els = l ++ l') :
      l'.foldl (fun (v : Vect) (i : Nat) => v.putElem (o.dest f) (((v.reg o.vd).fmt).getD .untagged) i (o.elem all vl v i f))
        (v.loaded (o.dest f) fmt (fun j => o.elem all vl v j f) l) = v.loaded (o.dest f) fmt (fun j => o.elem all vl v j f) els := by
    induction l' generalizing l with
    | nil => rw [h, List.append_nil]; rfl
    | cons i l' ih =>
      have hi : i ∉ l := fun hl => (List.nodup_append.mp (h ▸ hnd)).2.2 i hl i List.mem_cons_self rfl
      rw [← ih (l ++ [i]) (by rw [h, List.append_assoc]; rfl), Vect.loaded_concat, List.foldl_cons, StreamOp.elem_loaded hdest hi,
        show (((v.loaded (o.dest f) fmt _ l).reg o.vd).fmt).getD .untagged = fmt from
          (congrArg (fun x => (Fmt.ofTag x).getD .untagged) (Vect.tag_loaded ..)).trans hfmt]
  exact hstep [] els rfl

/-! ### The fields one after the other -/

/-- The vector side once field f has been written and settled. -/
def State.fieldDone (s : State) (o : StreamOp) (m : Mask) (vlmax : Nat) (all : List (Nat × List Nat)) (els : List Nat)
    (v : Vect) (f : Nat) : Vect :=
  s.settleReg m s.vstart vlmax (o.dest f) (o.putField all s.vl els f v)

/-- The vector side once the first k fields have been written. -/
def State.fieldsDone (s : State) (o : StreamOp) (m : Mask) (vlmax : Nat) (all : List (Nat × List Nat)) (els : List Nat)
    (k : Nat) : Vect :=
  (List.range k).foldl (s.fieldDone o m vlmax all els) s.r.vect

theorem State.fieldsDone_succ (k : Nat) : s.fieldsDone o m vlmax all els (k + 1) =
    s.fieldDone o m vlmax all els (s.fieldsDone o m vlmax all els k) k := by
  rw [State.fieldsDone, List.range_succ, List.foldl_concat]
  rfl

theorem State.fieldDone_eq {f : Nat} (hv : ∀ r, (v.reg r).tag = (s.vreg r).tag)
    (ht : (s.vreg (o.dest f)).tag = (s.vreg o.vd).tag) (hnd : els.Nodup) :
    s.fieldDone o m vlmax all els v f = s.settleReg m s.vstart vlmax (o.dest f)
      (v.loaded (o.dest f) (s.fmtOf (o.dest f)) (fun j => o.elem all s.vl v j f) els) := by
  have hfmt (r : VR) : ((v.reg r).fmt).getD .untagged = s.fmtOf r :=
    congrArg (fun x => (Fmt.ofTag x).getD .untagged) (hv r)
  have hsame : s.fmtOf o.vd = s.fmtOf (o.dest f) := congrArg (fun x => (Fmt.ofTag x).getD .untagged) ht.symm
  rw [State.fieldDone, StreamOp.putField_eq ((hfmt _).trans hsame) (hfmt _) hnd]

theorem State.fieldDone_keeps {f : Nat} (hv : ∀ r, (v.reg r).tag = (s.vreg r).tag)
    (ht : (s.vreg (o.dest f)).tag = (s.vreg o.vd).tag) (hnd : els.Nodup) :
    (∀ r, ((s.fieldDone o m vlmax all els v f).reg r).tag = (s.vreg r).tag) ∧
    (∀ r, r ≠ o.dest f → (s.fieldDone o m vlmax all els v f).reg r = v.reg r) ∧
    (s.fieldDone o m vlmax all els v f).rest = v.rest := by
  have hother (r : VR) (hr : r ≠ o.dest f) : (s.fieldDone o m vlmax all els v f).reg r = v.reg r := by
    rw [State.fieldDone_eq hv ht hnd, State.settleReg, Vect.reg_setReg, if_neg hr, Vect.reg_loaded, if_neg hr]
  refine ⟨fun r => ?_, hother, ?_⟩
  · by_cases hr : r = o.dest f
    · rw [State.fieldDone_eq hv ht hnd, State.settleReg, Vect.reg_setReg, if_pos hr, settle_tag, Vect.tag_loaded, hv, hr]
    · rw [hother r hr, hv]
  · rw [State.fieldDone_eq hv ht hnd, State.settleReg, Vect.rest_setReg, Vect.rest_loaded]

section
variable (htag : ∀ f, f < o.fields → (s.vreg (o.dest f)).tag = (s.vreg o.vd).tag) (hnd : els.Nodup)
include htag hnd

/-- What a stream's fields leave when the first k are written: every tag, and the registers of the others. -/
theorem State.fieldsDone_keeps {k : Nat} (hk : k ≤ o.fields) :
    (∀ r, ((s.fieldsDone o m vlmax all els k).reg r).tag = (s.vreg r).tag) ∧
    (∀ r, (∀ f, f < k → r ≠ o.dest f) → (s.fieldsDone o m vlmax all els k).reg r = s.vreg r) ∧
    (s.fieldsDone o m vlmax all els k).rest = s.r.vect.rest := by
  induction k with
  | zero => exact ⟨fun _ => rfl, fun _ _ => rfl, rfl⟩
  | succ k ih =>
    obtain ⟨hv, hother, hrest⟩ := ih (Nat.le_of_succ_le hk)
    obtain ⟨hv', hother', hrest'⟩ := State.fieldDone_keeps (m := m) (vlmax := vlmax) (all := all) hv (htag k hk) hnd
    rw [State.fieldsDone_succ]
    exact ⟨hv', fun r hr => (hother' r (hr k k.lt_succ_self)).trans (hother r fun f hf => hr f (Nat.lt_succ_of_lt hf)),
      hrest'.trans hrest⟩

/-- A field stays as it was written. -/
theorem State.fieldsDone_stays (hn : o.fields ≤ 32) {f k : Nat} (hfk : f < k) (hk : k ≤ o.fields) :
    (s.fieldsDone o m vlmax all els k).reg (o.dest f) = (s.fieldsDone o m vlmax all els (f + 1)).reg (o.dest f) := by
  induction k, hfk using Nat.le_induction with
  | base => rfl
  | succ k hfk ih =>
    obtain ⟨hv, -, -⟩ := State.fieldsDone_keeps (m := m) (vlmax := vlmax) (all := all) htag hnd (Nat.le_of_succ_le hk)
    obtain ⟨-, hother, -⟩ := State.fieldDone_keeps (m := m) (vlmax := vlmax) (all := all) hv (htag k hk) hnd
    rw [State.fieldsDone_succ, hother _ (StreamOp.dest_ne (by omega) (by omega) (by omega)), ih (Nat.le_of_succ_le hk)]

/-- A field as a stream leaves it: the elements written, the rest settled. -/
theorem State.fieldsDone_reg (hn : o.fields ≤ 32) {f : Nat} (hf : f < o.fields) :
    (s.fieldsDone o m vlmax all els o.fields).reg (o.dest f) =
      settle s.vtype (s.fmtOf (o.dest f)) (fun i => s.active m i) s.vstart s.vl vlmax
        (els.foldl (fun (x : VReg) (j : Nat) => x.setElem (s.fmtOf (o.dest f)) j
          (o.elem all s.vl (s.fieldsDone o m vlmax all els f) j f)) (s.vreg (o.dest f))) := by
  obtain ⟨hv, hother, -⟩ := State.fieldsDone_keeps (m := m) (vlmax := vlmax) (all := all) htag hnd (Nat.le_of_lt hf)
  rw [State.fieldsDone_stays htag hnd hn hf (Nat.le_refl _), State.fieldsDone_succ, State.fieldDone_eq hv (htag f hf) hnd,
    State.settleReg, Vect.reg_setReg, if_pos rfl, Vect.reg_loaded, if_pos rfl,
    hother _ fun g hg => StreamOp.dest_ne (by omega) (by omega) (by omega)]

end

end

end Sys2Proof.Machine
end

section
/-! STREAM and STREAMSEG from issue to effect (O40): R158–R160. -/

namespace Sys2Proof.Machine
variable {s t u : State}

/-! ### The issue -/

section
variable {i : Instr} {o : StreamOp} {a b : Word} {es : Nat} {x : StreamRec}

/-- A stream whose checks pass is accepted. -/
theorem issueStream_ok {recs : List (Nat × List (Nat × Option Nat))} (h : FreeToRun i s) (hl : LengthOk s o.names o.mm.mask)
    (hok : s.streamOk o s.vstart = true) (hes : (s.fmtOf o.vd).width / 8 = es)
    (hissue : o.issue es (s.activeFrom o.mm.mask s.vstart) s = (recs, none, u)) :
    issueStream i o a b s = .ok ((), (u.acceptStream (u.newStream i o a b es recs)).advance) := by
  obtain ⟨hq, hconvoy, -⟩ := h
  obtain ⟨hmask, hvl⟩ := hl
  unfold issueStream
  simp only [hq, List.isEmpty_nil, if_true, hconvoy, bind, Except.bind, vecCount, streamWaits, List.countP_nil, List.any_nil,
    State.tagChecks_ok (n := o.names) hmask fun _ => hvl, hok, hes, hissue]
  rfl

/-- What a stream leaves at its issue: itself in the vector queue, its record among those that land. -/
def State.issued (s : State) (i : Instr) (a b : Word) (x : StreamRec) : State :=
  (s.behind (s.nextUid + 1) (i, a, b, s.r.scal) [x] []).advance

theorem State.acceptStream_paged (hpg : Paged s u) (hq : s.r.vq = []) (hst : s.r.streams = []) (hr : s.r.replies = [])
    (hp : s.r.pages = []) (hi : x.i = i) (ha : x.a = a) (hb : x.b = b) :
    (u.acceptStream x).advance.completed = s.issued i a b x := by
  have hback : ({ s.r with replies := [], pages := [] } : Runner) = s.r := by rw [← hr, ← hp]
  rw [hpg.eq, ← hi, ← ha, ← hb]
  unfold State.issued State.behind
  rw [← hback]
  simp only [State.acceptStream, State.enqueue, State.mapR, State.withPages, hq, hst]
  rfl

/-! ### The turn -/

theorem Besides.foldl {α : Type} {f : State → α → State} (h : ∀ s a, Besides s (f s a)) (l : List α) (s : State) :
    Besides s (l.foldl f s) := by
  induction l generalizing s with
  | nil => exact .refl
  | cons a l ih => exact (h s a).trans (ih _)

theorem State.streamHeat_besides (o : StreamOp) (es : Nat) (rs : List Nat) : Besides s (s.streamHeat o es rs) :=
  .foldl (fun _ _ => .foldl (fun t _ => t.heatPage_besides _ _) _ _) _ _

/-- A stream's effect when all its fields land: every field written, field by field. -/
theorem doStream_lands {els : List Nat} {key : Word → Nat} (hx : s.r.streams = [x]) (hl : x.landed = []) (hes : x.es = es)
    (hrecs : x.recs = els.map fun j => (j, o.keysFrom es key j 0 o.fields))
    (hread : ∀ j ∈ els, ∀ f, f < o.fields →
      Unhidden .strm s (key (o.addr es j f)) es ∧ s.pinFaultBy x.pin (o.addr es j f) = false) :
    ∃ u, doStream o s = .ok ((), u) ∧ u.r = { s.r with
        streams := []
        vect := { s.fieldsDone o o.mm.mask (s.vlmaxOf o.names) (o.landedAll es key s.mem els) els o.fields with vstart := 0 } } ∧
      u.mem = s.mem ∧ (s.myCore.Idle → u.myCore.Idle) := by
  obtain ⟨z, hz, hb⟩ := o.land_unhidden hes hread
  have hall : (x.recs.filter fun r => !x.landed.any fun l => l.1 == r.1) = x.recs := by
    rw [hl]
    exact List.filter_eq_self.mpr fun _ _ => rfl
  have hels : x.recs.map (·.1) = els := by
    rw [hrecs, List.map_map]
    exact List.map_id _
  have hdo : doStream o s = .ok ((), (((z.setVect (z.fieldsDone o o.mm.mask (z.vlmaxOf o.names) (o.landedAll es key s.mem els)
      els o.fields)).streamHeat o es els).setVstart 0).mapR fun r => { r with streams := [] }) := by
    unfold doStream
    rw [hx]
    dsimp only
    rw [hall, hels, hrecs, hz, hl, hes]
    rfl
  have hheat := (z.setVect (z.fieldsDone o o.mm.mask (z.vlmaxOf o.names) (o.landedAll es key s.mem els) els
    o.fields)).streamHeat_besides o es els
  refine ⟨_, hdo, ?_, hheat.mem.trans hb.mem, fun hi => hheat.idle (hb.idle hi)⟩
  obtain ⟨_, _, _, _, _, rfl⟩ := hb.eq
  exact congrArg (fun r : Runner => { r with vect := { r.vect with vstart := 0 }, streams := [] }) hheat.r

/-- An instruction that is passed as a stream. -/
structure IsStreamOp (i : Instr) (a b : Word) (o : StreamOp) : Prop where
  amo : amoFields i = none
  coll : collOpOf i = none
  tile : (isTileOp i || i = .mfence) = false
  body : vbody i a b = doStream o

/-- The turn of an instruction that completes. -/
theorem drainLoop_turn {c : Scal} {rest : List VItem} {n : Nat} (hq : s.r.vq = .vec i a b c :: rest)
    (ht : vturn i a b c s = .ok (true, t)) : drainLoop true (n + 1) s = drainLoop true n t.popItem.completed := by
  rw [drainLoop, hq]
  dsimp only
  rw [ht, Bool.not_true, Bool.and_false, if_neg Bool.false_ne_true]

/-- A passed stream's turn (R159): nothing but its fields, the vector queue and the streams has changed. -/
theorem drain_issued {els : List Nat} {key : Word → Nat} (ho : IsStreamOp i a b o) (h : FreeToRun i s)
    (hst : s.r.stat = .ready) (hr : s.r.replies = []) (hl : x.landed = []) (hes : x.es = es)
    (hrecs : x.recs = els.map fun j => (j, o.keysFrom es key j 0 o.fields))
    (hread : ∀ j ∈ els, ∀ f, f < o.fields →
      Unhidden .strm s (key (o.addr es j f)) es ∧ s.pinFaultBy x.pin (o.addr es j f) = false) :
    let u := (s.issued i a b x).drain true
    u.r.vq = [] ∧ u.r.streams = [] ∧ u.r.scal = (s.issued i a b x).r.scal ∧ u.mem = s.mem ∧ u.r.queues = s.r.queues ∧
      u.r.vect = { s.fieldsDone o o.mm.mask (s.vlmaxOf o.names) (o.landedAll es key s.mem els) els o.fields with vstart := 0 } := by
  obtain ⟨hq, hconvoy, -, hbad, -, -, hops⟩ := h
  let p := s.behind (s.nextUid + 1) (i, a, b, s.r.scal) [x] []
  have hcheck : p.convoyCheck i = .ok ((), p) := State.convoyCheck_behind hq hr hconvoy
  obtain ⟨z, hz, hzr, hzm, hidle⟩ := doStream_lands (s := p) rfl hl hes hrecs fun j hj f hf =>
    let ⟨hun, hpin⟩ := hread j hj f hf
    ⟨⟨hun.pending, hun.clean, hun.hist, hun.l1⟩, hpin⟩
  obtain ⟨cs, w, n, hnote⟩ := State.noteWrites_same (s := z) (p.written z i) (hidle hops)
  have hturn : vturn i a b s.r.scal (s.issued i a b x) =
      .ok (true, (z.noteWrites (p.written z i)).mapR fun r => { r with scal := (s.issued i a b x).r.scal }) := by
    have hp : (s.issued i a b x).mapR (fun r => { r with scal := s.r.scal }) = p := rfl
    unfold vturn State.asPassed
    rw [ho.amo]
    dsimp only
    rw [hp, ho.coll]
    dsimp only
    rw [hcheck]
    simp only [bind, Except.bind, ho.tile, ho.body, State.guarded_clean (s := p) i _ hbad, hz, noted, Bool.false_eq_true, if_false]
  have hdrain : (s.issued i a b x).drain true =
      ((z.noteWrites (p.written z i)).mapR fun r => { r with scal := (s.issued i a b x).r.scal }).popItem.completed := by
    unfold State.drain
    rw [if_pos (show (s.issued i a b x).r.stat = .ready from hst)]
    exact drainLoop_turn (n := 0) rfl hturn
  intro u
  have hu : u = _ := hdrain
  rw [hu, hnote]
  refine ⟨?_, ?_, rfl, hzm, ?_, ?_⟩
  · change z.r.vq.tail = []
    rw [hzr]
    rfl
  · change z.r.streams = []
    rw [hzr]
  · change z.r.queues = _
    rw [hzr]
    rfl
  · change z.r.vect = _
    rw [hzr]
    rfl

/-! ### What has landed -/

/-- Which record's field an element takes, of those of some elements: its own, or the one an index register names as it stands
once the fields before have been written (R160). -/
def StreamOp.Picks (o : StreamOp) (s : State) (els : List Nat) (pick : State → Nat → Nat → Option Nat) : Prop :=
  ∀ (u : State) (v : Vect) (f j : Nat) (all : List (Nat × List Nat)), f < o.fields → j ∈ els →
    (∀ r, v.reg r = if ∃ g, g < f ∧ r = o.vd + Fin.ofNat 32 g then u.vreg r else s.vreg r) →
    o.elem all s.vl v j f = ((pick u f j).map fun r => landedField all r f).getD 0 ∧ ∀ r, pick u f j = some r → r ∈ els

/-- The registers that hold a stream's fields, from the vector side it leaves. -/
theorem StreamOp.fields_land {key : Word → Nat} {pick : State → Nat → Nat → Option Nat} {vlmax : Nat}
    (hn : o.fields ≤ 32) (htag : ∀ f, f < o.fields → (s.vreg (o.dest f)).tag = (s.vreg o.vd).tag)
    (hv : s.vl ≤ vlmax) (hpick : o.Picks s (s.activeFrom o.mm.mask s.vstart) pick)
    (hu : ∀ r, u.vreg r = (s.fieldsDone o o.mm.mask vlmax
      (o.landedAll es key s.mem (s.activeFrom o.mm.mask s.vstart)) (s.activeFrom o.mm.mask s.vstart) o.fields).reg r) :
    (∀ r, (∀ f, f < o.fields → r ≠ o.dest f) → u.vreg r = s.vreg r) ∧
    ∀ f, f < o.fields → ElementResult s u o.mm.mask (o.dest f) s.vstart vlmax fun j =>
      ((pick u f j).map fun r => leBytesToNat (bytesAt s.mem (key (o.addr es r f)) es)).getD 0 := by
  have hnd : (s.activeFrom o.mm.mask s.vstart).Nodup := (s.pairwise_activeFrom _ _).imp fun h => Nat.ne_of_lt h
  generalize hals : o.landedAll es key s.mem (s.activeFrom o.mm.mask s.vstart) = all at hu
  obtain ⟨-, hother, -⟩ := State.fieldsDone_keeps (m := o.mm.mask) (vlmax := vlmax) (all := all) htag hnd (Nat.le_refl _)
  refine ⟨fun r hr => (hu r).trans (hother r hr), fun f hf => ?_⟩
  obtain ⟨-, hbefore, -⟩ := State.fieldsDone_keeps (m := o.mm.mask) (vlmax := vlmax) (all := all) htag hnd (Nat.le_of_lt hf)
  refine elementResult_of_settled hv ((hu _).trans ((State.fieldsDone_reg htag hnd hn hf).trans ?_))
  refine congrArg _ (List.foldl_ext _ _ _ fun x j hj => congrArg _ ?_)
  have hreg : ∀ r, (s.fieldsDone o o.mm.mask vlmax all (s.activeFrom o.mm.mask s.vstart) f).reg r =
      if ∃ g, g < f ∧ r = o.vd + Fin.ofNat 32 g then u.vreg r else s.vreg r := by
    intro r
    simp only [← o.dest_eq]
    split
    · next h =>
      obtain ⟨g, hg, rfl⟩ := h
      rw [hu, State.fieldsDone_stays htag hnd hn hg (Nat.le_of_lt hf),
        State.fieldsDone_stays htag hnd hn (hg.trans hf) (Nat.le_refl _)]
    · next h =>
      exact hbefore r fun g hg he => h ⟨g, hg, he⟩
  obtain ⟨hval, hlive⟩ := hpick u _ f j all hf hj hreg
  rw [hval]
  cases hp : pick u f j with
  | none => rfl
  | some r => rw [← hals]; exact StreamOp.landedField_all (hlive r hp) hf

end

/-- A stream's own records. -/
theorem StreamOp.picks_own {o : StreamOp} {els : List Nat} (h : o.vi = none) : o.Picks s els fun _ _ => some := by
  intro u v f j all _ hj _
  refine ⟨?_, fun r hr => Option.some.inj hr ▸ hj⟩
  unfold StreamOp.elem
  rw [h]
  rfl

/-- The record that an index names, where the vector length bounds it. -/
theorem StreamOp.picks_indexed {o : StreamOp} {els : List Nat} {n : VR} (h : o.vi = some n) (hels : ∀ j, j < s.vl → j ∈ els) :
    o.Picks s els fun u f j =>
      let x := if ∃ g, g < f ∧ n = o.vd + Fin.ofNat 32 g then (u.vreg n).index j else (s.vreg n).index j
      if 0 ≤ x ∧ x < s.vl then some x.toNat else none := by
  intro u v f j all _ _ hreg
  have hx : (v.reg n).index j = if ∃ g, g < f ∧ n = o.vd + Fin.ofNat 32 g then (u.vreg n).index j else (s.vreg n).index j := by
    rw [hreg]
    split <;> rfl
  dsimp only
  rw [← hx]
  refine ⟨?_, fun r hr => ?_⟩
  · unfold StreamOp.elem
    rw [h]
    simp only [Bool.and_eq_true, decide_eq_true_eq]
    split <;> rfl
  · split at hr
    · next hin => exact Option.some.inj hr ▸ hels _ (by omega)
    · cases hr

/-! ### The obligation -/

theorem StreamOp.names_eq (o : StreamOp) : o.names =
    { vd := some o.vd, more := ((List.range o.fields).drop 1).map (fun f => o.vd + Fin.ofNat 32 f) ++ o.vi.toList } := by
  rw [StreamOp.names, StreamOp.dests, ← List.map_drop, funext o.dest_eq]

/-- A stream that takes its tags (R158, R160). -/
theorem State.streamOk_of {o : StreamOp} (hk : s.destKind o.vd = .int ∨ s.destKind o.vd = .float)
    (ht : ∀ f, f < o.fields → (s.vreg (o.dest f)).tag = (s.vreg o.vd).tag)
    (hvi : ∀ v, o.vi = some v → s.kind v = .int ∧ o.mm.mask.reg = 0 ∧ s.vstart = 0) : s.streamOk o s.vstart = true := by
  have hplain : (s.vreg o.vd).plain = true := by
    rcases hk with h | h <;> rw [VReg.plain, show (s.vreg o.vd).destKind = _ from h] <;> rfl
  have htags : o.dests.all (fun d => (s.vreg d).tag == (s.vreg o.vd).tag) = true := by
    refine List.all_eq_true.mpr fun d hd => ?_
    obtain ⟨f, hf, rfl⟩ := List.mem_map.mp hd
    exact beq_iff_eq.mpr (ht f (List.mem_range.mp hf))
  unfold State.streamOk
  rw [hplain, htags]
  cases hv : o.vi with
  | none => rfl
  | some v =>
    obtain ⟨hkind, hmask, hstart⟩ := hvi v hv
    simp [hkind, hmask, hstart]

/-- The step from record to record when a register may give it. -/
theorem StreamOp.stepBytes_eq {o : StreamOp} {sb : SR} {b : Word} (h : o.step = if sb = 0 then none else some b) (es : Nat) :
    o.stepBytes es = if sb = 0 then BitVec.ofNat 64 (o.fields * es) else b := by
  rw [StreamOp.stepBytes, h]
  split <;> rfl

/-- Settles O40: the fields' keys found at the issue are read at the turn, as nothing has touched them, and each field finds
the index register as the fields before it left it. -/
theorem streams : Obligations.Streams := by
  intro s m vd vi sa sb off off13 fields key hkind hstat hstreams hp hreplies hpages es live runs
  have hruns {i : Instr} {o : StreamOp} {a b : Word} {addr : Nat → Nat → Word} {pick : State → Nat → Nat → Option Nat}
      (he : exec i s = outcome (issueStream i o a b s)) (ho : IsStreamOp i a b o) (hvd : o.vd = vd) (hm : o.mm = m)
      (hn : o.fields ≤ 8) (haddr : ∀ j f, f < o.fields → addr j f = o.addr es j f)
      (hvi : ∀ v, o.vi = some v → s.kind v = .int ∧ o.mm.mask.reg = 0 ∧ s.vstart = 0)
      (hpick : o.Picks s (s.activeFrom m.mask s.vstart) pick) : runs i o.fields o.vi.toList addr pick := by
    intro h hl _ htags hserve
    subst hvd hm
    rw [show ({ vd := some o.vd, more := _ } : Names) = o.names from o.names_eq.symm] at hl ⊢
    have hmem {j : Nat} (hj : j ∈ s.activeFrom o.mm.mask s.vstart) : live j := by rwa [State.mem_activeFrom, and_assoc] at hj
    have htag : ∀ f, f < o.fields → (s.vreg (o.dest f)).tag = (s.vreg o.vd).tag := fun f hf => by
      rw [o.dest_eq]
      exact htags f hf
    have hs : ∀ j ∈ s.activeFrom o.mm.mask s.vstart, ∀ f, f < o.fields →
        Serves s (fun _ => False) (o.addr es j f) es .load (key (o.addr es j f)) := fun j hj f hf =>
      haddr j f hf ▸ hserve j f (hmem hj) hf
    have hpaged : Paged s s := ⟨rfl, by rw [hpages]; exact fun _ h => absurd h List.not_mem_nil⟩
    obtain ⟨z, hissue, hz⟩ := hpaged.issue hpages (State.bytewise hkind).pos hs
    have hdo := issueStream_ok (i := i) (a := a) (b := b) h hl (State.streamOk_of hkind htag hvi) rfl hissue
    generalize hx : z.newStream i o a b es _ = x at hdo
    obtain ⟨hxi, hxa, hxb, hxes, hxrecs, hxl, hxpin⟩ : x.i = i ∧ x.a = a ∧ x.b = b ∧ x.es = es ∧
        x.recs = (s.activeFrom o.mm.mask s.vstart).map (fun j => (j, o.keysFrom es key j 0 o.fields)) ∧ x.landed = [] ∧
        x.pin = s.r.scal.pinslice := by
      rw [← hx, hz.eq]
      exact ⟨rfl, rfl, rfl, rfl, rfl, rfl, rfl⟩
    have hdone := State.acceptStream_paged hz h.1 hstreams hreplies hpages hxi hxa hxb
    have hread : ∀ j ∈ s.activeFrom o.mm.mask s.vstart, ∀ f, f < o.fields →
        Unhidden .strm s (key (o.addr es j f)) es ∧ s.pinFaultBy x.pin (o.addr es j f) = false := fun j hj f hf => by
      have hserved := hs j hj f hf
      refine ⟨(During.start hpages).unhidden hserved hp, ?_⟩
      obtain ⟨-, -, -, -, -, hpin, -⟩ := hserved
      rw [hxpin]
      exact hpin
    obtain ⟨hu1, hu2, hu3, hu4, hu5, hu6⟩ := drain_issued ho h hstat hreplies hxl hxes hxrecs hread
    obtain ⟨hother, hfields⟩ := o.fields_land (u := (s.issued i a b x).drain true) (es := es) (key := key) (by omega) htag
      hl.2 hpick fun r => (congrArg (fun v : Vect => v.reg r) hu6).trans rfl
    refine ⟨s.issued i a b x, ?_, rfl, rfl, fun _ => rfl, rfl, ⟨_, _, _, rfl⟩, ⟨x, rfl, ?_⟩, ?_⟩
    · rw [he, hdo, ← hdone]
      rfl
    · rw [hxrecs]
      refine List.map_congr_left fun j _ => ?_
      rw [StreamOp.keysFrom, ← List.range_eq_range']
      exact congrArg _ (List.map_congr_left fun f hf => by rw [haddr j f (List.mem_range.mp hf)])
    · have hnd : (s.activeFrom o.mm.mask s.vstart).Nodup := (s.pairwise_activeFrom _ _).imp fun h => Nat.ne_of_lt h
      obtain ⟨-, -, hrest⟩ := State.fieldsDone_keeps (m := o.mm.mask) (vlmax := s.vlmaxOf o.names)
        (all := o.landedAll es key s.mem (s.activeFrom o.mm.mask s.vstart)) htag hnd (Nat.le_refl _)
      simp only [Vect.rest, Prod.mk.injEq] at hrest
      obtain ⟨hvl, -, -, hvf, -⟩ := hrest
      refine ⟨hu1, hu2, hu3, fun k => congrArg (cellGet · k) hu4, congrArg Vect.vstart hu6, (congrArg Vect.vl hu6).trans hvl,
        hu5, (congrArg Vect.vflags hu6).trans hvf, fun r hr => hother r fun f hf => o.dest_eq f ▸ hr f hf, fun f hf => ?_⟩
      rw [← o.dest_eq]
      refine cast (congrArg (ElementResult s _ o.mm.mask _ _ _) (funext fun j => ?_)) (hfields f hf)
      cases pick ((s.issued i a b x).drain true) f j with
      | none => rfl
      | some r => exact congrArg (fun x => leBytesToNat (bytesAt s.mem (key x) es)) (haddr r f hf).symm
  refine ⟨?_, ?_⟩
  · refine hruns (o := streamOp m vd sb off (s.reg sa) (s.reg sb)) rfl ⟨rfl, rfl, rfl, rfl⟩ rfl rfl (Nat.le_add_left 1 7) (fun j f hf => ?_)
      (fun v hv => nomatch hv) (StreamOp.picks_own rfl)
    obtain rfl : f = 0 := Nat.lt_one_iff.mp hf
    rw [StreamOp.addr, Nat.zero_mul, show BitVec.ofNat 64 0 = 0#64 from rfl, BitVec.add_zero, StreamOp.stepBytes_eq rfl]
    change _ = _ + _ * if sb = 0 then BitVec.ofNat 64 (1 * es) else _
    rw [Nat.one_mul]
    rfl
  intro seg
  refine ⟨fun hvi => ?_, fun hvi hkv hmask hstart => ?_⟩
  · have hnone : (streamsegOp m vd sb vi fields off13 (s.reg sa) (s.reg sb)).vi = none := if_pos hvi
    have hseg := hruns (i := .streamseg m vd sa sb vi fields off13) (addr := seg)
      (o := streamsegOp m vd sb vi fields off13 (s.reg sa) (s.reg sb)) rfl ⟨rfl, rfl, rfl, rfl⟩ rfl rfl fields.isLt
      (fun j f _ => by rw [StreamOp.addr, StreamOp.stepBytes_eq rfl]; rfl) (fun v hv => nomatch hnone.symm.trans hv)
      (StreamOp.picks_own hnone)
    rwa [hnone] at hseg
  · have hsome : (streamsegOp m vd sb vi fields off13 (s.reg sa) (s.reg sb)).vi = some vi := if_neg hvi
    have hseg := hruns (i := .streamseg m vd sa sb vi fields off13) (addr := seg)
      (o := streamsegOp m vd sb vi fields off13 (s.reg sa) (s.reg sb)) rfl ⟨rfl, rfl, rfl, rfl⟩ rfl rfl fields.isLt
      (fun j f _ => by rw [StreamOp.addr, StreamOp.stepBytes_eq rfl]; rfl)
      (fun v hv => Option.some.inj (hsome.symm.trans hv) ▸ ⟨hkv, hmask, hstart⟩)
      (StreamOp.picks_indexed hsome fun j hj => State.mem_activeFrom.mpr ⟨⟨by omega, hj⟩, by simp [State.active, hmask]⟩)
    rwa [hsome] at hseg

end Sys2Proof.Machine
end

section
/-! Masks, grouped and block-scaled registers in memory (O37): what holds them, and their loads (R149, R150, R154). -/

namespace Sys2Proof.Machine
variable {s t u : State}

/-! ### Registers that VLD and VST take beside the plain ones -/

/-- The conditions of R149 on masks, grouped and block-scaled registers. -/
def State.Packable (s : State) (m : Mask) (vd : VR) (sb : SR) : Prop :=
  (s.fmtOf vd = .mask ∧ m.reg = 0 ∧ s.vstart % 8 = 0 ∧ s.vl % 8 = 0) ∨
  (s.fmtOf vd = .int4g ∧ s.vstart % 2 = 0 ∧ s.vl % 2 = 0 ∧ sb ≠ 0) ∨
  (s.fmtOf vd = .int3g ∧ s.vstart % 32 = 0 ∧ s.vl % 32 = 0 ∧ sb ≠ 0) ∨
  ((s.vreg vd).bs = true ∧ (s.vreg vd).fmt ≠ none ∧ m.reg = 0 ∧ s.vstart % 32 = 0 ∧ sb ≠ 0)

/-- Block scaling stands on three formats of one byte (R35). -/
theorem tagBS_formats : ∀ {t : Byte}, tagBS t = true → Fmt.ofTag t = none ∨ Fmt.ofTag t = some .i8 ∨
    Fmt.ofTag t = some (.fp .e4m3) ∨ Fmt.ofTag t = some (.fp .e5m2) := by decide

/-- A mask or grouped tag has no block scaling. -/
theorem tagBS_false : ∀ {t : Byte}, Fmt.ofTag t = some .mask ∨ Fmt.ofTag t = some .int4g ∨ Fmt.ofTag t = some .int3g →
    tagBS t = false := by decide

section
variable {m : Mask} {vd : VR} {sb : SR}

/-- What a register of R149's is: its format, whether its elements are bytes, whether it has scales. -/
theorem State.Packable.forms (h : s.Packable m vd sb) :
    (((s.vreg vd).fmt = some .mask ∧ m.reg = 0 ∧ s.vstart % 8 = 0 ∧ s.vl % 8 = 0 ∨
      (s.vreg vd).fmt = some .int4g ∧ s.vstart % 2 = 0 ∧ s.vl % 2 = 0 ∧ sb ≠ 0 ∨
      (s.vreg vd).fmt = some .int3g ∧ s.vstart % 32 = 0 ∧ s.vl % 32 = 0 ∧ sb ≠ 0) ∧ (s.vreg vd).bs = false) ∨
    (((s.vreg vd).fmt = some .i8 ∨ (s.vreg vd).fmt = some (.fp .e4m3) ∨ (s.vreg vd).fmt = some (.fp .e5m2)) ∧
      (s.vreg vd).bs = true ∧ m.reg = 0 ∧ s.vstart % 32 = 0 ∧ sb ≠ 0) := by
  rcases h with ⟨hf, h⟩ | ⟨hf, h⟩ | ⟨hf, h⟩ | ⟨hbs, hf, h⟩
  · have hf := State.fmt_eq hf nofun
    exact .inl ⟨.inl ⟨hf, h⟩, tagBS_false (.inl hf)⟩
  · have hf := State.fmt_eq hf nofun
    exact .inl ⟨.inr (.inl ⟨hf, h⟩), tagBS_false (.inr (.inl hf))⟩
  · have hf := State.fmt_eq hf nofun
    exact .inl ⟨.inr (.inr ⟨hf, h⟩), tagBS_false (.inr (.inr hf))⟩
  · exact .inr ⟨(tagBS_formats hbs).resolve_left hf, hbs, h⟩

theorem State.Packable.memOk (h : s.Packable m vd sb) (hb : s.beganAt = s.vstart) : s.memOk vd .unit m (sb != 0) = true := by
  unfold State.memOk
  rcases h.forms with ⟨⟨hf, h1, h2, h3⟩ | ⟨hf, h1, h2, h3⟩ | ⟨hf, h1, h2, h3⟩, -⟩ | ⟨hf, hbs, h1, h2, h3⟩
  · simp [hf, hb, h1, h2, h3]
  · simp [hf, hb, h1, h2, h3]
  · simp [hf, hb, h1, h2, h3]
  · rcases hf with hf | hf | hf <;> simp [hf, hb, hbs, h1, h2, h3]

theorem State.Packable.scaleArray (h : s.Packable m vd sb) (x : Word) :
    s.scaleArray vd sb x = if (s.vreg vd).destKind = .grouped then some x else none := by
  unfold State.scaleArray VReg.scaled VReg.destKind VReg.kind
  rcases h.forms with ⟨⟨hf, h1, h2, h3⟩ | ⟨hf, h1, h2, h3⟩ | ⟨hf, h1, h2, h3⟩, hbs⟩ | ⟨hf, hbs, h1, h2, h3⟩
  · simp [hf, hbs]
  · simp [hf, hbs, h3]
  · simp [hf, hbs, h3]
  · simp [hbs, h3]

/-- The elements of such a register: bytes, or one bit, four or three. -/
theorem State.Packable.elements (h : s.Packable m vd sb) :
    ((s.fmtOf vd).wholeBytes = some 1 ∧ (s.fmtOf vd).width = 8) ∨
    ((s.fmtOf vd).wholeBytes = none ∧ 0 < (s.fmtOf vd).width ∧ (s.fmtOf vd).width < 8) := by
  unfold State.fmtOf
  rcases h.forms with ⟨⟨hf, -⟩ | ⟨hf, -⟩ | ⟨hf, -⟩, -⟩ | ⟨hf, -⟩
  · rw [hf]; exact .inr ⟨rfl, by decide⟩
  · rw [hf]; exact .inr ⟨rfl, by decide⟩
  · rw [hf]; exact .inr ⟨rfl, by decide⟩
  · rcases hf with hf | hf | hf <;> rw [hf] <;> exact .inl ⟨rfl, rfl⟩

end

/-! ### Bits of bytes in order -/

/-- A bit of a number given by its bytes. -/
theorem testBit_leBytesToNat (bs : List Byte) (i : Nat) :
    (leBytesToNat bs).testBit i = ((bs[i / 8]?).getD 0).getLsbD (i % 8) := by
  induction bs generalizing i with
  | nil => simp [leBytesToNat]
  | cons b bs ih =>
    rw [leBytesToNat, Nat.add_comm, show (256 : Nat) = 2 ^ 8 from rfl, Nat.testBit_two_pow_mul_add _ b.isLt]
    by_cases hi : i < 8
    · rw [if_pos hi, Nat.div_eq_of_lt hi, Nat.mod_eq_of_lt hi]
      rfl
    · rw [if_neg hi, ih, show i / 8 = (i - 8) / 8 + 1 by omega, show (i - 8) % 8 = i % 8 by omega]
      rfl

/-- The number that w bits of some bytes are, from bit w·j on (R149). -/
def packedNumber (byte : Nat → Byte) (w j : Nat) : Nat :=
  leBytesToNat ((List.range' (w * j / 8) ((w * j % 8 + w + 7) / 8)).map byte) >>> (w * j % 8) % 2 ^ w

theorem packedNumber_testBit (byte : Nat → Byte) {w j k : Nat} (hk : k < w) :
    (packedNumber byte w j).testBit k = (byte ((w * j + k) / 8)).getLsbD ((w * j + k) % 8) := by
  have hlt : (w * j % 8 + k) / 8 < (w * j % 8 + w + 7) / 8 := by omega
  rw [packedNumber, Nat.testBit_mod_two_pow, decide_eq_true hk, Bool.true_and, Nat.testBit_shiftRight, testBit_leBytesToNat,
    List.getElem?_map, List.getElem?_range' hlt, show (w * j % 8 + k) % 8 = (w * j + k) % 8 by omega,
    show w * j / 8 + 1 * ((w * j % 8 + k) / 8) = (w * j + k) / 8 by omega]
  rfl

end Sys2Proof.Machine
end

section
/-! Loads of masks, grouped and block-scaled registers (O37): the bits of each active element, the scale entry of each block
with one (R149, R150, R154). -/

namespace Sys2Proof.Machine
variable {s t u : State}

/-! ### Elements and the entries of their blocks, in order -/

/-- An access whose elements all complete, each block's entry accessed before its first element. -/
theorem eachElem_blocks {entry : Option (Nat → State → M (Unit × State))} {elem : Nat → State → M (Unit × State)}
    {els : List Nat} {inv mid : List Nat → State → Prop}
    (hentry : ∀ f, entry = some f → ∀ l i l' t, els = l ++ i :: l' → inv l t → ∃ u, f (i / 32) t = .ok ((), u) ∧ mid (l ++ [i]) u)
    (hskip : ∀ l i l' t, els = l ++ i :: l' → (entry = none ∨ ∃ j ∈ l, j / 32 = i / 32) → inv l t → mid (l ++ [i]) t)
    (hstep : ∀ l i l' t, els = l ++ i :: l' → mid (l ++ [i]) t → ∃ u, elem i t = .ok ((), u) ∧ inv (l ++ [i]) u.spent)
    {done rest : List Nat} (he : els = done ++ rest) {blk : Option Nat} (hblk : ∀ k, blk = some k → ∃ j ∈ done, j / 32 = k)
    (h : inv done t) : ∃ u, eachElem entry elem rest blk t = .ok ((), u) ∧ inv els u := by
  induction rest generalizing done t blk with
  | nil => exact ⟨t, rfl, by rw [he, List.append_nil]; exact h⟩
  | cons i rest ih =>
    have hgo {z : State} (hz : mid (done ++ [i]) z) : ∃ v u, elem i z = .ok ((), v) ∧
        eachElem entry elem rest (some (i / 32)) v.spent = .ok ((), u) ∧ inv els u := by
      obtain ⟨v, hv, hinv⟩ := hstep done i rest z he hz
      obtain ⟨u, hu, hend⟩ := ih (done := done ++ [i]) (by rw [he, List.append_assoc]; rfl)
        (fun k hk => ⟨i, by simp, Option.some.inj hk⟩) hinv
      exact ⟨v, u, hv, hu, hend⟩
    cases hentryc : entry with
    | none =>
      obtain ⟨v, u, hv, hu, hend⟩ := hgo (hskip done i rest t he (.inl hentryc) h)
      rw [hentryc] at hu
      refine ⟨u, ?_, hend⟩
      rw [eachElem]
      simp only [bind, Except.bind, hv, stopAt]
      exact hu
    | some f =>
      by_cases hb : blk = some (i / 32)
      · obtain ⟨v, u, hv, hu, hend⟩ := hgo (hskip done i rest t he (.inr (hblk _ hb)) h)
        rw [hentryc] at hu
        refine ⟨u, ?_, hend⟩
        rw [eachElem]
        simp only [bind, Except.bind, hb, if_true, hv, stopAt]
        exact hu
      · obtain ⟨z, hz, hmid⟩ := hentry f hentryc done i rest t he h
        obtain ⟨v, u, hv, hu, hend⟩ := hgo hmid
        rw [hentryc] at hu
        refine ⟨u, ?_, hend⟩
        rw [eachElem]
        simp only [bind, Except.bind, if_neg hb, hz, hv, stopAt]
        exact hu

/-! ### Bytes read one by one -/

/-- The byte that the vector side reads at a key. -/
def State.sideByte (s : State) (key : Nat) : Byte := ((s.sideBytes key 1)[0]?).getD 0

theorem State.sideBytes_one (s : State) (key : Nat) : s.sideBytes key 1 = [s.sideByte key] := by
  have hlen : (s.sideBytes key 1).length = 1 := by rw [State.sideBytes, overlayActs_length, bytesAt_length]
  obtain ⟨b, hb⟩ := List.length_eq_one_iff.mp hlen
  rw [State.sideByte, hb]
  rfl

section
variable {vd : VR} {base array : Word} {key : Word → Nat} {val ent : Nat → Nat} {scaled : Prop} {els blks : List Nat}

/-- A load's bytes, one by one. -/
theorem During.loadBytes {b n : Nat} (h : During .vec (fun _ => False) s t) (hm : t.mem = s.mem) (hp : s.pending = [])
    (hs : ∀ c, b ≤ c → c < b + n →
      Serves s (fun _ => False) (base + BitVec.ofNat 64 c) 1 .load (key (base + BitVec.ofNat 64 c))) (v : Via) :
    ∃ u, t.loadBytes v (base + BitVec.ofNat 64 b) n =
      .ok ((List.range' b n).map fun c => s.sideByte (key (base + BitVec.ofNat 64 c)), u) ∧
      During .vec (fun _ => False) s u ∧ u.r.vect = t.r.vect ∧ u.mem = s.mem := by
  induction n generalizing b t with
  | zero => exact ⟨t, rfl, h, rfl, hm⟩
  | succ n ih =>
    obtain ⟨z, hz, hd, hv, hmz⟩ := h.loadVec hm (hs b (Nat.le_refl b) (by omega)) Nat.one_pos hp v
    obtain ⟨u, hu, hdu, hvu, hmu⟩ := ih (b := b + 1) hd hmz fun c h1 h2 => hs c (by omega) (by omega)
    have hnext : base + BitVec.ofNat 64 b + 1 = base + BitVec.ofNat 64 (b + 1) := by
      rw [BitVec.ofNat_add, ← BitVec.add_assoc]
      rfl
    refine ⟨u, ?_, hdu, hvu.trans hv, hmu⟩
    simp only [State.loadBytes, bind, Except.bind, hz, hnext, hu, State.sideBytes_one]
    rfl

/-! ### In the middle of the load -/

/-- The destination of a load of such a register: its elements of a list have been loaded, and the entries of the blocks of a
list, if it has scales. -/
structure PackedReg (s : State) (vd : VR) (val ent : Nat → Nat) (scaled : Prop) (els blks : List Nat) (t : State) : Prop where
  vect : t.r.vect = s.r.vect.setReg vd (t.vreg vd)
  tag : (t.vreg vd).tag = (s.vreg vd).tag
  data : (t.vreg vd).data =
    (els.foldl (fun (x : VReg) (j : Nat) => x.setElem (s.fmtOf vd) j (val j)) (s.vreg vd)).data
  loaded : ∀ k, k < 128 → scaled → (∃ j ∈ blks, j / 32 = k) → (t.vreg vd).entry k = ent k
  kept : ∀ k, k < 128 → (∀ j ∈ blks, j / 32 ≠ k) → (t.vreg vd).entry k = (s.vreg vd).entry k
  side : ¬scaled → (t.vreg vd).side = (s.vreg vd).side

/-- In the middle of such a load. -/
structure Packing (s : State) (vd : VR) (val ent : Nat → Nat) (scaled : Prop) (els blks : List Nat) (t : State) : Prop
    extends PackedReg s vd val ent scaled els blks t where
  during : During .vec (fun _ => False) s t
  mem : t.mem = s.mem

theorem Vect.setReg_reg (v : Vect) (n : VR) : v.setReg n (v.reg n) = v := by
  simp [Vect.setReg, Vect.reg]

theorem PackedReg.start : PackedReg s vd val ent scaled [] [] s :=
  ⟨(Vect.setReg_reg ..).symm, rfl, rfl, fun _ _ _ ⟨_, hj, _⟩ => absurd hj List.not_mem_nil, fun _ _ _ => rfl, fun _ => rfl⟩

theorem Packing.fmtOf (h : Packing s vd val ent scaled els blks t) : t.fmtOf vd = s.fmtOf vd :=
  congrArg (fun x => (Fmt.ofTag x).getD .untagged) h.tag

theorem Packing.spent (h : Packing s vd val ent scaled els blks t) : Packing s vd val ent scaled els blks t.spent :=
  ⟨⟨h.vect, h.tag, h.data, h.loaded, h.kept, h.side⟩, h.during.spent, h.mem⟩

/-- A block whose entry is there already, or none is to be loaded. -/
theorem Packing.skip {i : Nat} (h : Packing s vd val ent scaled els blks t)
    (hi : ¬scaled ∨ ∃ j ∈ blks, j / 32 = i / 32) : Packing s vd val ent scaled els (blks ++ [i]) t := by
  refine ⟨⟨h.vect, h.tag, h.data, fun k hk hsc ⟨j, hj, hjk⟩ => ?_, fun k hk hj => ?_, h.side⟩, h.during, h.mem⟩
  · refine h.loaded k hk hsc ?_
    rcases List.mem_append.mp hj with hj | hj
    · exact ⟨j, hj, hjk⟩
    · obtain rfl := List.mem_singleton.mp hj
      exact hi.elim (fun hn => (hn hsc).elim) fun ⟨j', hj', he⟩ => ⟨j', hj', he.trans hjk⟩
  · exact h.kept k hk fun j' hj' => hj j' (List.mem_append_left _ hj')

theorem Vect.setReg_setReg (v : Vect) (n : VR) (x y : VReg) : (v.setReg n x).setReg n y = v.setReg n y := by
  simp [Vect.setReg]

theorem State.vreg_setVreg (s : State) (n : VR) (x : VReg) : (s.setVreg n x).vreg n = x :=
  (Vect.reg_setReg ..).trans (if_pos rfl)

/-- The destination put into a state that shares the vector side. -/
theorem Packing.vect_put {x : VReg} (h : Packing s vd val ent scaled els blks t) (hv : u.r.vect = t.r.vect) :
    (u.setVreg vd x).r.vect = s.r.vect.setReg vd ((u.setVreg vd x).vreg vd) := by
  rw [State.vreg_setVreg]
  change u.r.vect.setReg vd x = _
  rw [hv, h.vect, Vect.setReg_setReg]

/-- An entry as read fits its place in the sidecar (R15). -/
theorem VReg.entry_fits (x : VReg) (bs : List Byte) (hlen : bs.length = if x.bs then 1 else 2) :
    (if x.bs then leBytesToNat bs % 256 else leBytesToNat bs) % 2 ^ 16 = leBytesToNat bs := by
  have hlt := leBytesToNat_lt bs
  rw [hlen] at hlt
  split at hlt
  · next h => rw [if_pos h]; omega
  · next h => rw [if_neg h]; omega

/-- A block's entry loaded (R149, R150). -/
theorem Packing.loadEntry {i : Nat} (h : Packing s vd val ent scaled els blks t) (hp : s.pending = []) (hsc : scaled) (v : Via)
    (hs : Serves s (fun _ => False) (s.entryAddr vd array (i / 32)).1 (s.entryAddr vd array (i / 32)).2 .load
      (key (s.entryAddr vd array (i / 32)).1))
    (hent : ent (i / 32) = leBytesToNat (s.sideBytes (key (s.entryAddr vd array (i / 32)).1) (s.entryAddr vd array (i / 32)).2)) :
    ∃ u, t.loadEntry v vd array (i / 32) = .ok ((), u) ∧ Packing s vd val ent scaled els (blks ++ [i]) u := by
  have hbs : (t.vreg vd).bs = (s.vreg vd).bs := congrArg tagBS h.tag
  have haddr : t.entryAddr vd array (i / 32) = s.entryAddr vd array (i / 32) := by
    unfold State.entryAddr
    rw [hbs]
  have hn : 0 < (s.entryAddr vd array (i / 32)).2 := by
    unfold State.entryAddr
    dsimp only
    split <;> decide
  obtain ⟨u, hu, hd, hv, hm⟩ := h.during.loadVec h.mem hs hn hp v
  have hreg : u.vreg vd = t.vreg vd := congrArg (fun v : Vect => v.reg vd) hv
  have hentry (k : Nat) (hk : k < 128) : ((t.vreg vd).setEntry (i / 32) (ent (i / 32))).entry k =
      if k = i / 32 then ent k else (t.vreg vd).entry k := by
    rw [VReg.entry_setEntry _ _ _ hk]
    split
    · next he =>
      rw [he, hent]
      exact VReg.entry_fits _ _ (by rw [State.sideBytes, overlayActs_length, bytesAt_length, hbs]; rfl)
    · rfl
  refine ⟨u.setVreg vd ((t.vreg vd).setEntry (i / 32) (ent (i / 32))), ?_, ⟨h.vect_put hv, ?_, ?_, fun k hk _ hin => ?_,
    fun k hk hout => ?_, fun hn => (hn hsc).elim⟩, hd.setVreg vd _, hm⟩
  · unfold State.loadEntry
    rw [haddr, hent]
    simp only [bind, Except.bind, hu, hreg]
  · rw [State.vreg_setVreg]
    exact h.tag
  · rw [State.vreg_setVreg]
    exact h.data
  · rw [State.vreg_setVreg, hentry k hk]
    split
    · rfl
    · next hne =>
      obtain ⟨j, hj, hjk⟩ := hin
      rcases List.mem_append.mp hj with hj | hj
      · exact h.loaded k hk hsc ⟨j, hj, hjk⟩
      · exact (hne (List.mem_singleton.mp hj ▸ hjk.symm)).elim
  · rw [State.vreg_setVreg, hentry k hk, if_neg fun he => hout i (by simp) he.symm]
    exact h.kept k hk fun j hj => hout j (List.mem_append_left _ hj)

theorem VReg.setElem_mod (v : VReg) (f : Fmt) (i x : Nat) : v.setElem f i (x % 2 ^ f.width) = v.setElem f i x := by
  unfold VReg.setElem putBits
  rw [Nat.mod_mod]

/-- The destination with an element put into it, in a state that shares the vector side. -/
theorem Packing.put {i x : Nat} (h : Packing s vd val ent scaled els blks t) (hd : During .vec (fun _ => False) s u)
    (hm : u.mem = s.mem) (hv : u.r.vect = t.r.vect) (hx : val i = x % 2 ^ (s.fmtOf vd).width) :
    Packing s vd val ent scaled (els ++ [i]) blks (u.setVreg vd ((t.vreg vd).setElem (s.fmtOf vd) i x)) := by
  have hset := u.vreg_setVreg vd ((t.vreg vd).setElem (s.fmtOf vd) i x)
  refine ⟨⟨h.vect_put hv, ?_, ?_, ?_, ?_, ?_⟩, hd.setVreg vd _, hm⟩
  · rw [hset]; exact h.tag
  · rw [hset, List.foldl_concat, hx, VReg.setElem_mod]
    exact congrArg (putBits · _ _ _) h.data
  · rw [hset]; exact h.loaded
  · rw [hset]; exact h.kept
  · rw [hset]; exact h.side

/-- An element's bits loaded (R154). -/
theorem Packing.loadElem {i : Nat} (h : Packing s vd val ent scaled els blks t) (hp : s.pending = []) (v : Via)
    (hf : ((s.fmtOf vd).wholeBytes = some 1 ∧ (s.fmtOf vd).width = 8) ∨ (s.fmtOf vd).wholeBytes = none)
    (hs : ∀ c, (s.fmtOf vd).width * i / 8 ≤ c → c < ((s.fmtOf vd).width * i + (s.fmtOf vd).width + 7) / 8 →
      Serves s (fun _ => False) (base + BitVec.ofNat 64 c) 1 .load (key (base + BitVec.ofNat 64 c)))
    (hval : val i = packedNumber (fun c => s.sideByte (key (base + BitVec.ofNat 64 c))) (s.fmtOf vd).width i) :
    ∃ u, t.loadElem v none vd base .unit i = .ok ((), u) ∧ Packing s vd val ent scaled (els ++ [i]) blks u := by
  have hd := h.during
  have hm := h.mem
  have hdone (z : State) (hd : During .vec (fun _ => False) s z) (hm : z.mem = s.mem) (hv : z.r.vect = t.r.vect)
      (a : Word) (x : Nat) (hx : val i = x % 2 ^ (s.fmtOf vd).width) : Packing s vd val ent scaled (els ++ [i]) blks
        ((z.elemDone a .unit).setVreg vd (((z.elemDone a .unit).vreg vd).setElem (s.fmtOf vd) i x)) := by
    obtain ⟨hkv, hkm⟩ := z.elemDone_keeps a .unit
    have hreg : (z.elemDone a .unit).vreg vd = t.vreg vd := congrArg (fun v : Vect => v.reg vd) (hkv.trans hv)
    rw [hreg]
    exact h.put (hd.elemDone a .unit) (hkm.trans hm) (hkv.trans hv) hx
  rcases hf with ⟨hwhole, hwidth⟩ | hwhole
  · have hone : (s.fmtOf vd).width * i / 8 = i := by rw [hwidth]; omega
    rw [hwidth] at hs hval
    obtain ⟨z, hz, hdz, hvz, hmz⟩ := hd.loadVec hm (hs i (by omega) (by omega)) Nat.one_pos hp v
    refine ⟨_, ?_, hdone z hdz hmz hvz (base + BitVec.ofNat 64 i) (bytesVal (s.sideBytes (key (base + BitVec.ofNat 64 i)) 1)) ?_⟩
    · unfold State.loadElem
      simp only [h.fmtOf, hwhole, State.loadGot, State.elemAddr, hone, hz, bind, Except.bind]
      rfl
    · rw [hval, hwidth, packedNumber, State.sideBytes_one, show 8 * i % 8 = 0 by omega, show 8 * i / 8 = i by omega]
      rfl
  · have hlen : (s.fmtOf vd).width * i / 8 + ((s.fmtOf vd).width * i % 8 + (s.fmtOf vd).width + 7) / 8 =
        ((s.fmtOf vd).width * i + (s.fmtOf vd).width + 7) / 8 := by omega
    obtain ⟨z, hz, hdz, hvz, hmz⟩ := hd.loadBytes (b := (s.fmtOf vd).width * i / 8)
      (n := ((s.fmtOf vd).width * i % 8 + (s.fmtOf vd).width + 7) / 8) hm hp (fun c h1 h2 => hs c h1 (hlen ▸ h2)) v
    refine ⟨_, ?_, hdone z hdz hmz hvz (base + BitVec.ofNat 64 ((s.fmtOf vd).width * i / 8)) _ hval⟩
    unfold State.loadElem
    simp only [h.fmtOf, hwhole, State.elemAddr, hz, bind, Except.bind]
    rfl

/-- Where a block's entry is served and what it holds (R149). -/
structure EntriesServed (s : State) (vd : VR) (array : Word) (key : Word → Nat) (ent : Nat → Nat) (els : List Nat) : Prop where
  serves : ∀ j ∈ els, Serves s (fun _ => False) (s.entryAddr vd array (j / 32)).1 (s.entryAddr vd array (j / 32)).2 .load
    (key (s.entryAddr vd array (j / 32)).1)
  holds : ∀ k, ent k = leBytesToNat (s.sideBytes (key (s.entryAddr vd array k).1) (s.entryAddr vd array k).2)

/-- The bytes of the elements of a load are served (R149). -/
def BytesServed (s : State) (foot : Nat → Prop) (vd : VR) (base : Word) (k : AccKind) (key : Word → Nat) (els : List Nat) : Prop :=
  ∀ j ∈ els, ∀ c, (s.fmtOf vd).width * j / 8 ≤ c → c < ((s.fmtOf vd).width * j + (s.fmtOf vd).width + 7) / 8 →
    Serves s foot (base + BitVec.ofNat 64 c) 1 k (key (base + BitVec.ofNat 64 c))

/-- What an element's bits in memory are, as the vector side reads them. -/
def State.packedElem (s : State) (vd : VR) (base : Word) (key : Word → Nat) : Nat → Nat :=
  packedNumber (fun c => s.sideByte (key (base + BitVec.ofNat 64 c))) (s.fmtOf vd).width

/-- Elements and entries loaded in order. -/
theorem State.loadPacked {entries : Option Word} {els : List Nat} (hp : s.pending = [])
    (hf : ((s.fmtOf vd).wholeBytes = some 1 ∧ (s.fmtOf vd).width = 8) ∨ (s.fmtOf vd).wholeBytes = none)
    (hw : 0 < (s.fmtOf vd).width)
    (hscaled : scaled ↔ entries = some array) (hnone : ¬scaled → entries = none)
    (hs : BytesServed s (fun _ => False) vd base .load key els) (he : scaled → EntriesServed s vd array key ent els) (v : Via) :
    ∃ t, eachElem (entries.map fun array k (s : State) => s.loadEntry v vd array k) (fun i s => s.loadElem v none vd base .unit i)
      els none s = .ok ((), t) ∧ Through s t ∧ t.mem = s.mem ∧ PackedReg s vd (s.packedElem vd base key) ent scaled els els t := by
  cases hcases : els with
  | nil => exact ⟨s, rfl, .refl, rfl, .start⟩
  | cons j rest =>
    obtain ⟨-, -, -, -, -, -, hpages⟩ := hs j (by simp [hcases]) _ (Nat.le_refl _) (by omega)
    rw [← hcases]
    obtain ⟨t, ht, hend⟩ := eachElem_blocks (els := els)
      (entry := entries.map fun array k (s : State) => s.loadEntry v vd array k)
      (elem := fun i s => s.loadElem v none vd base .unit i)
      (inv := fun l t => Packing s vd (s.packedElem vd base key) ent scaled l l t)
      (mid := fun l t => Packing s vd (s.packedElem vd base key) ent scaled l.dropLast l t)
      (fun f hf l i l' t he' h => by
        have hsc : scaled := by_contra fun hn => by simp [hnone hn] at hf
        rw [hscaled.mp hsc] at hf
        obtain rfl := Option.some.inj hf
        rw [List.dropLast_concat]
        exact h.loadEntry hp hsc v ((he hsc).serves i (by simp [he'])) ((he hsc).holds _))
      (fun l i l' t _ hi h => by
        rw [List.dropLast_concat]
        exact h.skip (hi.imp (fun hn hsc => by simp [hscaled.mp hsc] at hn) id))
      (fun l i l' t he' h => by
        rw [List.dropLast_concat] at h
        obtain ⟨u, hu, hend⟩ := h.loadElem hp v hf (hs i (by simp [he'])) rfl
        exact ⟨u, hu, hend.spent⟩)
      (done := []) (rest := els) rfl (blk := none) nofun ⟨.start, .start hpages, rfl⟩
    exact ⟨t, ht, hend.during.through, hend.mem, hend.toPackedReg⟩

/-! ### VLD -/

variable {mm : MMod} {i : Instr} {sb : SR} {a b x : Word}

theorem FreeToRun.blockDone (h : FreeToRun i s) (m : Mask) : s.blockDone m = none := by
  obtain ⟨-, -, -, -, hbegun, -⟩ := h
  rw [State.blockDone, hbegun]
  rfl

theorem FreeToRun.turnElems (h : FreeToRun i s) (per : Nat) (els : List Nat) : s.turnElems per els = (els, none) := by
  obtain ⟨-, -, -, -, -, hquota, -⟩ := h
  simp [State.turnElems, State.pauseAt, hquota]

theorem doVload_packed (h : FreeToRun i s) (hk : s.Packable mm.mask vd sb) (hl : LengthOk s (memNames vd .unit) mm.mask) :
    doVload mm vd base .unit sb x s = keepBegun s.vstart (do
      let (_, t) ← eachElem ((s.scaleArray vd sb x).map fun array k (t : State) =>
          t.loadEntry (s.viaOf mm (s.footprint (s.fmtOf vd) .unit)) vd array k)
        (fun i t => t.loadElem (s.viaOf mm (s.footprint (s.fmtOf vd) .unit)) none vd base .unit i)
        (s.activeFrom mm.mask s.vstart) none s
      .ok ((), (t.setVect (s.settleReg mm.mask s.vstart (s.vlmaxOf (memNames vd .unit)) vd t.r.vect)).acquireVec mm)) := by
  have hlists (els : List Nat) (addr : Nat → Word) (n : Nat) (acc : Nat → Word → OutAccess) :
      s.listsFor .unit .load n addr els acc = .ok (fun _ => none, s) := rfl
  unfold doVload
  dsimp only
  rw [hk.memOk h.beganAt, State.tagChecks_ok hl.1 fun _ => hl.2]
  simp only [bind, Except.bind, h.beganAt, State.elemsLeft, Nat.max_self, h.turnElems, hlists, h.blockDone, pauseOr]

/-- VLD of a mask, a grouped or a block-scaled register: its bits and entries, all else as before. -/
theorem vload_packed (he : exec i s = passVector i a b (doVload mm vd base .unit sb x) s) (hk : s.Packable mm.mask vd sb)
    (hp : s.pending = []) (h : FreeToRun i s) (hl : LengthOk s (memNames vd .unit) mm.mask)
    (hs : BytesServed s (fun _ => False) vd base .load key (s.activeFrom mm.mask s.vstart))
    (hent : (s.vreg vd).destKind = .grouped → EntriesServed s vd x key ent (s.activeFrom mm.mask s.vstart)) :
    ∃ z, exec i s = .next z ∧ VectorFrame s z [vd] ∧ QuietFrame s z ∧ (z.vreg vd).tag = (s.vreg vd).tag ∧
      ElementsAre s z mm.mask vd s.vstart (s.vlmaxOf (memNames vd .unit)) (s.packedElem vd base key) ∧
      ((s.vreg vd).destKind ≠ .grouped → (z.vreg vd).side = (s.vreg vd).side) ∧
      ∀ k, k < 128 →
        ((s.vreg vd).destKind = .grouped → (∃ j ∈ s.activeFrom mm.mask s.vstart, j / 32 = k) → (z.vreg vd).entry k = ent k) ∧
        ((∀ j ∈ s.activeFrom mm.mask s.vstart, j / 32 ≠ k) → (z.vreg vd).entry k = (s.vreg vd).entry k) := by
  have harr := hk.scaleArray x
  obtain ⟨t, ht, hthrough, hm, hreg⟩ := State.loadPacked (entries := s.scaleArray vd sb x) (array := x)
    (scaled := (s.vreg vd).destKind = .grouped) hp (hk.elements.imp id And.left) (hk.elements.elim (fun h => h.2 ▸ by decide) fun h => h.2.1)
    ⟨fun hg => harr.trans (if_pos hg), fun h => by_contra fun hn => by rw [harr, if_neg hn] at h; cases h⟩
    (fun hn => harr.trans (if_neg hn)) hs hent (s.viaOf mm (s.footprint (s.fmtOf vd) .unit))
  obtain ⟨hvect, htag, hdata, hloaded, hkept, hside⟩ := hreg
  obtain ⟨hacq, -, -⟩ := (hthrough.setVect
    (s.settleReg mm.mask s.vstart (s.vlmaxOf (memNames vd .unit)) vd t.r.vect)).acquireVec mm
  obtain ⟨z, hz, hzm, hzv, hscal, hstrip, hleases, hbarw, hident, hqs⟩ := load_ends h he hthrough hm
    ((doVload_packed h hk hl).trans (keepBegun_ok (by rw [ht]; rfl) (by
      obtain ⟨-, -, -, -, hbegun, -⟩ := h
      rw [hacq.worn]
      exact hbegun)))
  have hzreg (k : VR) : z.vreg k = if k = vd then settle s.vtype (s.fmtOf vd) (fun i => s.active mm.mask i) s.vstart s.vl
      (s.vlmaxOf (memNames vd .unit)) (t.vreg vd) else s.vreg k := by
    refine (congrArg (fun v : Vect => v.reg k) hzv).trans ((Vect.reg_setReg ..).trans ?_)
    split
    · rfl
    · next hne => rw [hvect, Vect.reg_setReg, if_neg hne]; rfl
  have hvd := (hzreg vd).trans (if_pos rfl)
  have hrest : t.r.vect.rest = s.r.vect.rest := by rw [hvect, Vect.rest_setReg]
  simp only [Vect.rest, Prod.mk.injEq] at hrest
  obtain ⟨hvl, -, hvt, hvf, hvlen, hrng⟩ := hrest
  have hentry (k : Nat) : (z.vreg vd).entry k = (t.vreg vd).entry k := by
    rw [hvd, VReg.entry, VReg.entry, settle_side]
  refine ⟨z, hz, ⟨fun k => congrArg (cellGet · k) hzm, congrArg Scal.pc hscal, hscal, fun k hk => ?_, congrArg Vect.vstart hzv,
    (congrArg Vect.vl hzv).trans hvl, (congrArg Vect.vtype hzv).trans hvt, (congrArg Vect.vlen hzv).trans hvlen, hstrip, hleases,
    hbarw, hident⟩, ⟨(congrArg Vect.vflags hzv).trans hvf, hqs, (congrArg Vect.rngctr hzv).trans hrng⟩, ?_, ?_, fun hn => ?_,
    fun k hk => ⟨fun hg hj => (hentry k).trans (hloaded k hk hg hj), fun hj => (hentry k).trans (hkept k hk hj)⟩⟩
  · rw [hzreg, if_neg (by simpa using hk)]
  · rw [hvd, settle_tag, htag]
  · refine elementsAre_of_settled hl.2 hvd fun j hj => ?_
    rw [VReg.elem, hdata]
    exact VReg.elem_foldl_setElem _ _ _ hj _ _
  · rw [hvd, settle_side, hside hn]

end

end Sys2Proof.Machine
end

section
/-! Stores of masks, grouped and block-scaled registers (O37): the bits of the active elements and the entries of their blocks
change, nothing else (R149, R150, R156). -/

namespace Sys2Proof.Machine
variable {s t u : State}

/-! ### The bits of a byte that elements have -/

section
variable {f : Fmt} {act : List Nat} {b k : Nat}

/-- Bit k of byte b is one of element i's just where i is the element it lies in. -/
theorem spanIn_iff (hw : 0 < f.width) (hk : k < 8) (i : Nat) :
    ((spanIn f b i).1 - 8 * b ≤ k ∧ k < (spanIn f b i).1 - 8 * b + ((spanIn f b i).2 - (spanIn f b i).1)) ↔
      (8 * b + k) / f.width = i := by
  rw [Nat.div_eq_iff hw]
  unfold spanIn
  dsimp only
  rw [Nat.mul_comm i]
  omega

/-- Parts of a byte put in one after the other: the bit of the element it lies in, if that is among them. -/
theorem foldl_putBits_span (hw : 0 < f.width) (hk : k < 8) {part : Nat → Nat} {bit : Bool}
    (hbit : ∀ i, (8 * b + k) / f.width = i → (part i).testBit (k - ((spanIn f b i).1 - 8 * b)) = bit) (l : List Nat) (x : Byte) :
    (l.foldl (fun (x : Byte) (i : Nat) =>
      putBits x ((spanIn f b i).1 - 8 * b) ((spanIn f b i).2 - (spanIn f b i).1) (part i)) x).getLsbD k =
      if (8 * b + k) / f.width ∈ l then bit else x.getLsbD k := by
  induction l generalizing x with
  | nil => rfl
  | cons i l ih =>
    rw [List.foldl_cons, ih, getLsbD_putBits, decide_eq_true hk, Bool.true_and]
    simp only [spanIn_iff hw hk, List.mem_cons]
    by_cases hi : (8 * b + k) / f.width = i
    · simp [hi, hbit i hi]
    · simp [hi]

theorem mem_byteElems (hw : 0 < f.width) (hk : k < 8) :
    (8 * b + k) / f.width ∈ byteElems f act b ↔ (8 * b + k) / f.width ∈ act := by
  have h := (spanIn_iff (f := f) (b := b) hw hk _).mpr rfl
  rw [byteElems, List.mem_filter, decide_eq_true_eq]
  exact and_iff_left (by omega)

theorem byteMask_getLsbD (hw : 0 < f.width) (hk : k < 8) :
    (byteMask f act b).getLsbD k = decide ((8 * b + k) / f.width ∈ act) := by
  have h := foldl_putBits_span (f := f) (b := b) hw hk (part := fun i => 2 ^ ((spanIn f b i).2 - (spanIn f b i).1) - 1) (bit := true)
    (fun i hi => by
      have hspan := (spanIn_iff hw hk i).mpr hi
      rw [Nat.testBit_two_pow_sub_one, decide_eq_true_eq]
      omega) (byteElems f act b) 0
  refine (show (byteMask f act b).getLsbD k = _ from h).trans ?_
  simp only [mem_byteElems hw hk]
  split <;> simp [*]

theorem byteValue_getLsbD {v : VReg} (hw : 0 < f.width) (hk : k < 8) (hin : (8 * b + k) / f.width ∈ act) :
    (byteValue v f act b).getLsbD k = (v.elem f ((8 * b + k) / f.width)).testBit ((8 * b + k) % f.width) := by
  have h := foldl_putBits_span (f := f) (b := b) hw hk (part := fun i => v.elem f i >>> ((spanIn f b i).1 - f.width * i))
    (bit := (v.elem f ((8 * b + k) / f.width)).testBit ((8 * b + k) % f.width))
    (fun i hi => by
      have hspan := (spanIn_iff hw hk i).mpr hi
      subst hi
      rw [Nat.testBit_shiftRight]
      congr 1
      have hdiv := Nat.div_add_mod (8 * b + k) f.width
      unfold spanIn at hspan ⊢
      dsimp only at hspan ⊢
      omega) (byteElems f act b) 0
  refine (show (byteValue v f act b).getLsbD k = _ from h).trans ?_
  rw [if_pos ((mem_byteElems hw hk).mpr hin)]

end

/-! ### In the middle of such a store -/

section
variable {foot : Nat → Prop} {vd : VR} {base array : Word} {key : Word → Nat} {all : List Nat} {scaled : Prop}
  {done : Nat → Nat → Prop} {blks : Nat → Prop}

/-- Bytes that hold bits of some elements. -/
def touchedBy (f : Fmt) (els : List Nat) (b : Nat) : Prop :=
  ∃ j ∈ els, f.width * j / 8 ≤ b ∧ b < (f.width * j + f.width + 7) / 8

/-- Where a store of such a register goes (R149): each byte and each entry is served, no two of its bytes lie at one place, and
none lies in an entry. -/
structure PackedPlace (s : State) (foot : Nat → Prop) (vd : VR) (base array : Word) (key : Word → Nat) (scaled : Prop)
    (all : List Nat) : Prop where
  bytes : ∀ b, touchedBy (s.fmtOf vd) all b →
    Serves s foot (base + BitVec.ofNat 64 b) 1 .store (key (base + BitVec.ofNat 64 b)) ∧ foot (key (base + BitVec.ofNat 64 b))
  distinct : ∀ b b', touchedBy (s.fmtOf vd) all b → touchedBy (s.fmtOf vd) all b' → b ≠ b' →
    key (base + BitVec.ofNat 64 b) ≠ key (base + BitVec.ofNat 64 b')
  entries : scaled → ∀ j ∈ all,
    Serves s foot (s.entryAddr vd array (j / 32)).1 (s.entryAddr vd array (j / 32)).2 .store
      (key (s.entryAddr vd array (j / 32)).1) ∧
    ∀ a, key (s.entryAddr vd array (j / 32)).1 ≤ a →
      a < key (s.entryAddr vd array (j / 32)).1 + (s.entryAddr vd array (j / 32)).2 → foot a
  apart : scaled → ∀ j ∈ all, ∀ b, touchedBy (s.fmtOf vd) all b →
    ¬(key (s.entryAddr vd array (j / 32)).1 ≤ key (base + BitVec.ofNat 64 b) ∧
      key (base + BitVec.ofNat 64 b) < key (s.entryAddr vd array (j / 32)).1 + (s.entryAddr vd array (j / 32)).2)

/-- No entry of another block meets a block's. -/
def EntryAlone (s : State) (vd : VR) (array : Word) (key : Word → Nat) (all : List Nat) (g : Nat) : Prop :=
  ∀ j ∈ all, j / 32 ≠ g →
    key (s.entryAddr vd array (j / 32)).1 + (s.entryAddr vd array (j / 32)).2 ≤ key (s.entryAddr vd array g).1 ∨
    key (s.entryAddr vd array g).1 + (s.entryAddr vd array g).2 ≤ key (s.entryAddr vd array (j / 32)).1

/-- In the middle of a store of such a register: of each byte the bits of the elements done there are written, and the
entries of some blocks. -/
structure PackedOut (s : State) (foot : Nat → Prop) (vd : VR) (base array : Word) (key : Word → Nat) (all : List Nat)
    (done : Nat → Nat → Prop) (blks : Nat → Prop) (t : State) : Prop where
  writing : Writing foot s t
  new : ∀ b, touchedBy (s.fmtOf vd) all b → ∀ k, k < 8 → done b ((8 * b + k) / (s.fmtOf vd).width) →
    (t.byteAt (key (base + BitVec.ofNat 64 b))).getLsbD k =
      ((s.vreg vd).elem (s.fmtOf vd) ((8 * b + k) / (s.fmtOf vd).width)).testBit ((8 * b + k) % (s.fmtOf vd).width)
  old : ∀ b, touchedBy (s.fmtOf vd) all b → ∀ k, k < 8 → ¬done b ((8 * b + k) / (s.fmtOf vd).width) →
    (t.byteAt (key (base + BitVec.ofNat 64 b))).getLsbD k = (s.byteAt (key (base + BitVec.ofNat 64 b))).getLsbD k
  entry : ∀ g, blks g → EntryAlone s vd array key all g → ∀ k, k < (s.entryAddr vd array g).2 →
    t.byteAt (key (s.entryAddr vd array g).1 + k) = BitVec.ofNat 8 ((s.vreg vd).entry g / 2 ^ (8 * k))

theorem PackedOut.congr {done' : Nat → Nat → Prop} (h : PackedOut s foot vd base array key all done blks t)
    (hd : ∀ b, touchedBy (s.fmtOf vd) all b → ∀ k, k < 8 →
      (done b ((8 * b + k) / (s.fmtOf vd).width) ↔ done' b ((8 * b + k) / (s.fmtOf vd).width)))
    {blks' : Nat → Prop} (hb : ∀ g, blks' g → blks g) : PackedOut s foot vd base array key all done' blks' t :=
  ⟨h.writing, fun b htb k hk hdn => h.new b htb k hk ((hd b htb k hk).mpr hdn),
    fun b htb k hk hdn => h.old b htb k hk fun hn => hdn ((hd b htb k hk).mp hn), fun g hg => h.entry g (hb g hg)⟩

/-- Memory as it was. -/
theorem PackedOut.of_mem (h : PackedOut s foot vd base array key all done blks t) (hw : Writing foot s u) (hm : u.mem = t.mem) :
    PackedOut s foot vd base array key all done blks u := by
  have hb : u.byteAt = t.byteAt := funext fun a => congrArg (cellGet · a) hm
  exact ⟨hw, hb ▸ h.new, hb ▸ h.old, hb ▸ h.entry⟩

/-- A byte written with the bits that some elements have there. -/
theorem PackedOut.putByte {b : Nat} {act : List Nat} (h : PackedOut s foot vd base array key all done blks t)
    (hp : PackedPlace s foot vd base array key scaled all) (hsc : ∀ g, blks g → scaled ∧ ∃ j ∈ all, j / 32 = g)
    (htb : touchedBy (s.fmtOf vd) all b) (hw : Writing foot s u)
    (hothers : ∀ a, a ≠ key (base + BitVec.ofNat 64 b) → u.byteAt a = t.byteAt a)
    (hbits : ∀ k, k < 8 → (u.byteAt (key (base + BitVec.ofNat 64 b))).getLsbD k =
      if (8 * b + k) / (s.fmtOf vd).width ∈ act then
        ((s.vreg vd).elem (s.fmtOf vd) ((8 * b + k) / (s.fmtOf vd).width)).testBit ((8 * b + k) % (s.fmtOf vd).width)
      else (t.byteAt (key (base + BitVec.ofNat 64 b))).getLsbD k) :
    PackedOut s foot vd base array key all (fun c j => done c j ∨ (c = b ∧ j ∈ act)) blks u := by
  refine ⟨hw, fun c hc k hk hdn => ?_, fun c hc k hk hdn => ?_, fun g hg halone k hk => ?_⟩
  · by_cases hcb : c = b
    · subst hcb
      rw [hbits k hk]
      split
      · rfl
      · next hn => exact h.new c hc k hk (hdn.resolve_right fun hr => hn hr.2)
    · rw [hothers _ (hp.distinct c b hc htb hcb)]
      exact h.new c hc k hk (hdn.resolve_right fun hr => hcb hr.1)
  · rw [not_or, not_and] at hdn
    by_cases hcb : c = b
    · subst hcb
      rw [hbits k hk, if_neg (hdn.2 rfl)]
      exact h.old c hc k hk hdn.1
    · rw [hothers _ (hp.distinct c b hc htb hcb)]
      exact h.old c hc k hk hdn.1
  · obtain ⟨hs, j, hj, rfl⟩ := hsc g hg
    rw [hothers _ fun he => hp.apart hs j hj b htb (by omega)]
    exact h.entry _ hg halone k hk

/-- A block's entry written. -/
theorem PackedOut.putEntry {j : Nat} (h : PackedOut s foot vd base array key all done blks t)
    (hp : PackedPlace s foot vd base array key scaled all) (hsc : scaled) (hj : j ∈ all) (hw : Writing foot s u)
    (hb : u.byteAt = layNumber (key (s.entryAddr vd array (j / 32)).1) (s.entryAddr vd array (j / 32)).2
      ((s.vreg vd).entry (j / 32)) t.byteAt) :
    PackedOut s foot vd base array key all done (fun g => blks g ∨ g = j / 32) u := by
  have hsame (b : Nat) (hb' : touchedBy (s.fmtOf vd) all b) :
      u.byteAt (key (base + BitVec.ofNat 64 b)) = t.byteAt (key (base + BitVec.ofNat 64 b)) := by
    rw [hb]
    exact if_neg (hp.apart hsc j hj b hb')
  refine ⟨hw, fun c hc k hk hdn => ?_, fun c hc k hk hdn => ?_, fun g hg halone k hk => ?_⟩
  · rw [hsame c hc]
    exact h.new c hc k hk hdn
  · rw [hsame c hc]
    exact h.old c hc k hk hdn
  · rw [hb, layNumber]
    by_cases hgj : g = j / 32
    · subst hgj
      rw [if_pos ⟨Nat.le_add_right .., Nat.add_lt_add_left hk _⟩, Nat.add_sub_cancel_left]
    · have := halone j hj fun he => hgj he.symm
      rw [if_neg (by omega)]
      exact h.entry g (hg.resolve_right hgj) halone k hk

/-! ### One entry, one byte, one group stored -/

variable {o : Out}

theorem Writing.besides (h : Writing foot s t) (hb : Besides t u) : Writing foot s u :=
  ⟨h.during.besides hb, (congrArg Runner.vect hb.r).trans h.vect, hb.mem ▸ h.wf⟩

/-- A block's entry stored (R149, R156). -/
theorem Writing.storeEntry {g k : Nat} (h : Writing foot s t) (ho : StoresAtOnce s)
    (hs : Serves s foot (s.entryAddr vd array g).1 (s.entryAddr vd array g).2 .store k)
    (hf : ∀ a, k ≤ a → a < k + (s.entryAddr vd array g).2 → foot a) :
    ∃ u, t.storeEntry o vd array g = .ok ((), u) ∧ Writing foot s u ∧
      u.byteAt = layNumber k (s.entryAddr vd array g).2 ((s.vreg vd).entry g) t.byteAt := by
  have haddr : t.entryAddr vd array g = s.entryAddr vd array g := by
    unfold State.entryAddr
    rw [h.vreg]
  obtain ⟨z, hz, hw, hm⟩ := h.checkStore hs
  have hnum : StoresNumber (z.vecAct o (s.entryAddr vd array g).1 k
      (natToLeBytes (s.entryAddr vd array g).2 ((s.vreg vd).entry g))) k (s.entryAddr vd array g).2 ((s.vreg vd).entry g) :=
    ⟨rfl, rfl⟩
  obtain ⟨hst, hbytes⟩ := hw.store hs ho.pending ho.prot ho.det (a := z.vecAct o (s.entryAddr vd array g).1 k
    (natToLeBytes (s.entryAddr vd array g).2 ((s.vreg vd).entry g))) rfl (fun c hc => hnum.mem hc) hf
  refine ⟨_, ?_, hst, (funext hbytes).trans ((hnum.lay_eq _).trans ?_)⟩
  · unfold State.storeEntry
    rw [haddr]
    simp only [bind, Except.bind, hz, hw.vreg]
  · exact congrArg (layNumber k _ _) (funext fun a => congrArg (cellGet · a) hm)

/-- The store of a byte in which a group's elements have bits (R156). -/
def State.byteAct (s : State) (o : Out) (vd : VR) (base : Word) (f : Fmt) (good : List Nat) (keys : List (Nat × Nat))
    (x : Nat × Nat) : StoreAct :=
  { s.vecAct o (base + BitVec.ofNat 64 x.1) x.2 [byteValue (s.vreg vd) f good x.1] with
    masks := if byteMask f good x.1 = 0xFF#8 then [] else [(x.2, byteMask f good x.1)]
    cover := if s.poison.isEmpty then [] else
      blockCover (fun j => base + BitVec.ofNat 64 j) 1 ((keys.map (·.1)).filter fun j => byteMask f good j = 0xFF#8) x.1 x.2
    count := byteBits f good x.1 }

/-- What becomes of a byte of which a part is written. -/
theorem State.byteAct_lay {f : Fmt} {good : List Nat} {keys : List (Nat × Nat)} {b k : Nat} (y : Byte) :
    (s.byteAct o vd base f good keys (b, k)).lay k y =
      (byteValue (s.vreg vd) f good b &&& byteMask f good b) ||| (y &&& ~~~byteMask f good b) := by
  have hover : overlay (s.byteAct o vd base f good keys (b, k)).cells k y = byteValue (s.vreg vd) f good b := if_pos rfl
  unfold StoreAct.lay
  rw [hover]
  by_cases hfull : byteMask f good b = 0xFF#8
  · rw [show (s.byteAct o vd base f good keys (b, k)).masks = [] from if_pos hfull, hfull,
      show (0xFF#8 : Byte) = BitVec.allOnes 8 from rfl, BitVec.and_allOnes, BitVec.not_allOnes]
    simp
  · rw [show (s.byteAct o vd base f good keys (b, k)).masks = [(k, byteMask f good b)] from if_neg hfull]
    simp

theorem State.byteAct_lay_other {f : Fmt} {good : List Nat} {keys : List (Nat × Nat)} {b k a : Nat} (ha : a ≠ k) (y : Byte) :
    (s.byteAct o vd base f good keys (b, k)).lay a y = y := by
  refine StoreAct.lay_of_absent (fun c hc he => ha ?_) y
  rw [← he]
  exact congrArg Prod.fst (List.mem_singleton.mp hc)

/-- A group's byte stored, where elements of the group have bits in it. -/
def State.storeByte (o : Out) (vd : VR) (base : Word) (f : Fmt) (good : List Nat) (keys : List (Nat × Nat)) (s : State)
    (x : Nat × Nat) : State :=
  if (byteElems f good x.1).isEmpty then s else s.store (s.byteAct o vd base f good keys x)

/-- One byte of a group. -/
theorem PackedOut.storeByte {b : Nat} {act : List Nat} {keys : List (Nat × Nat)}
    (h : PackedOut s foot vd base array key all done blks t) (hp : PackedPlace s foot vd base array key scaled all)
    (hsc : ∀ g, blks g → scaled ∧ ∃ j ∈ all, j / 32 = g) (ho : StoresAtOnce s) (hw : 0 < (s.fmtOf vd).width)
    (htb : touchedBy (s.fmtOf vd) all b) :
    PackedOut s foot vd base array key all (fun c j => done c j ∨ (c = b ∧ j ∈ act)) blks
      (t.storeByte o vd base (s.fmtOf vd) act keys (b, key (base + BitVec.ofNat 64 b))) := by
  obtain ⟨hserve, hfoot⟩ := hp.bytes b htb
  unfold State.storeByte
  split
  · next hnone =>
    rw [List.isEmpty_iff] at hnone
    refine h.putByte hp hsc htb h.writing (fun _ _ => rfl) fun k hk => ?_
    rw [if_neg fun hin => by
      have := (mem_byteElems hw hk).mpr hin
      rw [hnone] at this
      cases this]
  · obtain ⟨hst, hbytes⟩ := h.writing.store hserve ho.pending ho.prot ho.det
      (a := t.byteAct o vd base (s.fmtOf vd) act keys (b, key (base + BitVec.ofNat 64 b))) rfl
      (fun c hc => by rw [List.mem_singleton.mp hc]; exact ⟨Nat.le_refl _, Nat.lt_succ_self _⟩)
      (fun i h1 h2 => (show i = key (base + BitVec.ofNat 64 b) by omega) ▸ hfoot)
    refine h.putByte hp hsc htb hst (fun a ha => by rw [hbytes, State.byteAct_lay_other ha]) fun k hk => ?_
    rw [hbytes, State.byteAct_lay, BitVec.getLsbD_or, BitVec.getLsbD_and, BitVec.getLsbD_and, BitVec.getLsbD_not,
      byteMask_getLsbD hw hk, h.writing.vreg]
    split
    · next hin => rw [byteValue_getLsbD hw hk hin]; simp [hin]
    · next hin => simp [hin, hk]

/-- The bytes of a group stored one after the other. -/
theorem PackedOut.storeBytes {act : List Nat} {keys : List (Nat × Nat)} {bs : List Nat}
    (h : PackedOut s foot vd base array key all done blks t) (hp : PackedPlace s foot vd base array key scaled all)
    (hsc : ∀ g, blks g → scaled ∧ ∃ j ∈ all, j / 32 = g) (ho : StoresAtOnce s) (hw : 0 < (s.fmtOf vd).width)
    (htb : ∀ b ∈ bs, touchedBy (s.fmtOf vd) all b) :
    PackedOut s foot vd base array key all (fun c j => done c j ∨ (c ∈ bs ∧ j ∈ act)) blks
      ((bs.map fun b => (b, key (base + BitVec.ofNat 64 b))).foldl (State.storeByte o vd base (s.fmtOf vd) act keys) t) := by
  induction bs generalizing done t with
  | nil => exact h.congr (fun b _ k _ => by simp) fun _ => id
  | cons b bs ih =>
    rw [List.map_cons, List.foldl_cons]
    refine (ih (h.storeByte hp hsc ho hw (htb b List.mem_cons_self)) fun c hc => htb c (List.mem_cons_of_mem _ hc)).congr
      (fun c _ k _ => ?_) fun _ => id
    rw [List.mem_cons, or_and_right, or_assoc]

/-- The bytes of a group pass their checks. -/
theorem Writing.checkBytes {l : List (Nat × Nat)} (h : Writing foot s t)
    (hs : ∀ x ∈ l, Serves s foot (base + BitVec.ofNat 64 x.2) 1 .store (key (base + BitVec.ofNat 64 x.2))) :
    ∃ u, Machine.checkBytes base l t = ((l.map (·.2)).map fun b => (b, key (base + BitVec.ofNat 64 b)), none, u) ∧
      Writing foot s u ∧ u.mem = t.mem := by
  induction l generalizing t with
  | nil => exact ⟨t, rfl, h, rfl⟩
  | cons x l ih =>
    obtain ⟨z, hz, hw, hm⟩ := h.checkStore (hs x List.mem_cons_self)
    obtain ⟨u, hu, hwu, hmu⟩ := ih hw fun y hy => hs y (List.mem_cons_of_mem _ hy)
    refine ⟨u, ?_, hwu, hmu.trans hm⟩
    obtain ⟨i, b⟩ := x
    unfold Machine.checkBytes
    rw [hz]
    dsimp only
    rw [hu]
    rfl

/-- The bytes that some elements in increasing order touch are those a store of them writes. -/
theorem mem_storeBytes {f : Fmt} {act : List Nat} (hw : 0 < f.width) (hact : act.Pairwise (· < ·)) (b : Nat) :
    b ∈ (storeBytes f act).map (·.2) ↔ touchedBy f act b := by
  have hmem (j c : Nat) : j ∈ byteElems f act c ↔ j ∈ act ∧ f.width * j / 8 ≤ c ∧ c < (f.width * j + f.width + 7) / 8 := by
    unfold byteElems spanIn
    rw [List.mem_filter, decide_eq_true_eq]
    exact and_congr_right fun _ => by omega
  constructor
  · intro h
    obtain ⟨⟨i, c⟩, hx, rfl⟩ := List.mem_map.mp h
    obtain ⟨d, -, hd⟩ := List.mem_filterMap.mp hx
    obtain ⟨i', hi', he⟩ := Option.map_eq_some_iff.mp hd
    obtain ⟨-, rfl⟩ := Prod.mk.inj he
    exact ⟨i', (hmem _ _).mp (List.mem_of_mem_head? hi')⟩
  · rintro ⟨j, hj, hb⟩
    have hne : act ≠ [] := List.ne_nil_of_mem hj
    have hfirst : act.head hne ≤ j := (hact.imp Nat.le_of_lt).rel_head hj
    have hlast : j ≤ act.getLast hne := (hact.imp Nat.le_of_lt).rel_getLast hj
    have h1 : f.width * act.head hne ≤ f.width * j := Nat.mul_le_mul_left _ hfirst
    have h2 : f.width * j ≤ f.width * act.getLast hne := Nat.mul_le_mul_left _ hlast
    have hin : j ∈ byteElems f act b := (hmem j b).mpr ⟨hj, hb⟩
    obtain ⟨i, hi⟩ : ∃ i, (byteElems f act b).head? = some i := ⟨_, List.head?_eq_some_head (List.ne_nil_of_mem hin)⟩
    refine List.mem_map.mpr ⟨(i, b), List.mem_filterMap.mpr ⟨b - f.width * act.head hne / 8, ?_, ?_⟩, rfl⟩
    · rw [List.head?_eq_some_head hne, List.getLast?_eq_some_getLast hne, List.mem_range]
      simp only [Option.map_some, Option.getD_some]
      omega
    · rw [List.head?_eq_some_head hne]
      simp only [Option.map_some, Option.getD_some]
      rw [show f.width * act.head hne / 8 + (b - f.width * act.head hne / 8) = b by omega, hi]
      rfl

theorem touchedBy.mono {f : Fmt} {act act' : List Nat} {b : Nat} (h : touchedBy f act b) (hs : ∀ j ∈ act, j ∈ act') :
    touchedBy f act' b := by
  obtain ⟨j, hj, hb⟩ := h
  exact ⟨j, hs j hj, hb⟩

/-- The byte that holds a bit of an element is one the element touches. -/
theorem touchedBy_of_mem {f : Fmt} {act : List Nat} {b k : Nat} (hw : 0 < f.width) (hk : k < 8)
    (h : (8 * b + k) / f.width ∈ act) : touchedBy f act b := by
  have hspan := (spanIn_iff (f := f) (b := b) hw hk _).mpr rfl
  unfold spanIn at hspan
  dsimp only at hspan
  exact ⟨_, h, by omega⟩

/-- A group's elements stored (R156). -/
theorem PackedOut.storeGroup {act : List Nat} (h : PackedOut s foot vd base array key all done blks t)
    (hp : PackedPlace s foot vd base array key scaled all) (hsc : ∀ g, blks g → scaled ∧ ∃ j ∈ all, j / 32 = g)
    (ho : StoresAtOnce s) (hw : 0 < (s.fmtOf vd).width) (hact : act.Pairwise (· < ·)) (hall : ∀ j ∈ act, j ∈ all) :
    ∃ u, t.storeGroup o vd base act = .ok ((), u) ∧
      PackedOut s foot vd base array key all (fun c j => done c j ∨ j ∈ act) blks u := by
  have htouch : ∀ b ∈ (Machine.storeBytes (s.fmtOf vd) act).map (·.2), touchedBy (s.fmtOf vd) all b := fun b hb =>
    ((mem_storeBytes hw hact b).mp hb).mono hall
  obtain ⟨z, hz, hwz, hm⟩ := h.writing.checkBytes (l := Machine.storeBytes (s.fmtOf vd) act)
    fun x hx => (hp.bytes x.2 (htouch _ (List.mem_map_of_mem hx))).1
  have hst := (h.of_mem hwz hm).storeBytes (o := o) (act := act) (keys := ((Machine.storeBytes (s.fmtOf vd) act).map (·.2)).map
    fun b => (b, key (base + BitVec.ofNat 64 b))) hp hsc ho hw htouch
  have hheat (l : List Nat) (v : State) (addr : State → Nat → Word) :
      Besides v (l.foldl (fun (s : State) i => s.heatPage (addr s i) .unit) v) := .foldl (fun t _ => t.heatPage_besides _ _) _ _
  generalize hv : List.foldl _ z _ = v at hst
  have hb := hheat act v fun s i => s.elemAddr base (t.fmtOf vd) .unit i
  have hdone := (hst.of_mem (hst.writing.besides hb) hb.mem)
  refine ⟨(act.foldl (fun (s : State) i => s.heatPage (s.elemAddr base (t.fmtOf vd) .unit i) .unit) v).spent, ?_, ?_⟩
  · unfold State.storeGroup
    dsimp only
    rw [h.writing.fmtOf, hz]
    dsimp only
    rw [← hv]
    rfl
  · refine (hdone.of_mem (u := State.spent _) hdone.writing.spent rfl).congr (fun b _ k hk => ?_) fun _ => id
    refine or_congr_right ⟨And.right, fun hin => ⟨?_, hin⟩⟩
    exact (mem_storeBytes hw hact b).mpr (touchedBy_of_mem hw hk hin)

/-- A byte-sized element stored. -/
theorem PackedOut.storeElem {els : List Nat} {i : Nat} (h : PackedOut s foot vd base array key all done blks t)
    (hp : PackedPlace s foot vd base array key scaled all) (hsc : ∀ g, blks g → scaled ∧ ∃ j ∈ all, j / 32 = g)
    (ho : StoresAtOnce s) (hw : (s.fmtOf vd).width = 8) (hi : i ∈ all) :
    ∃ u, t.storeElem o none vd base .unit els 1 i = .ok ((), u) ∧
      PackedOut s foot vd base array key all (fun c j => done c j ∨ j = i) blks u := by
  have hone : (s.fmtOf vd).width * i / 8 = i := by rw [hw]; omega
  have htb : touchedBy (s.fmtOf vd) all i := ⟨i, hi, by rw [hw]; omega⟩
  obtain ⟨hserve, hfoot⟩ := hp.bytes i htb
  have haddr : s.elemAddr base (s.fmtOf vd) .unit i = base + BitVec.ofNat 64 i :=
    congrArg (fun n => base + BitVec.ofNat 64 n) hone
  obtain ⟨u, hu, hwu, hb⟩ := h.writing.storeElem (o := o) (els := els) (form := .unit) (base := base) (i := i) (vd := vd)
    (w := 1) (k := key (base + BitVec.ofNat 64 i)) (by rw [haddr]; exact hserve) ho (fun a h1 h2 => (show a = key (base + BitVec.ofNat 64 i) by omega) ▸ hfoot)
  refine ⟨u, hu, (h.putByte (act := [i]) hp hsc htb hwu (fun a ha => ?_) fun k hk => ?_).congr (fun b _ k hk => ?_) fun _ => id⟩
  · rw [hb]
    exact if_neg (by omega)
  · have he : (8 * i + k) / 8 = i := by omega
    rw [hb, layNumber, if_pos (by omega), hw, he, if_pos (List.mem_singleton.mpr rfl), Nat.sub_self, Nat.mul_zero, Nat.pow_zero,
      Nat.div_one, BitVec.getLsbD_ofNat, decide_eq_true hk, Bool.true_and, show (8 * i + k) % 8 = k by omega]
  · rw [hw, show (8 * b + k) / 8 = b by omega, List.mem_singleton]
    exact or_congr_right and_self_iff

/-! ### All of them -/

/-- A store of groups that all complete, each group's entry before its bytes. -/
theorem eachGroup_all {entry : Option (Nat → State → M (Unit × State))} {group : List Nat → State → M (Unit × State)}
    {act gs : List Nat} {inv mid : List Nat → State → Prop}
    (hentry : ∀ f, entry = some f → ∀ l g l' t, gs = l ++ g :: l' → inv l t → ∃ u, f g t = .ok ((), u) ∧ mid (l ++ [g]) u)
    (hskip : ∀ l g t, entry = none → inv l t → mid (l ++ [g]) t)
    (hstep : ∀ l g l' t, gs = l ++ g :: l' → mid (l ++ [g]) t →
      ∃ u, group (act.filter fun i => i / 32 == g) t = .ok ((), u) ∧ inv (l ++ [g]) u)
    {done rest : List Nat} (he : gs = done ++ rest) (h : inv done t) :
    ∃ u, eachGroup entry group act rest none t = .ok ((), u) ∧ inv gs u := by
  induction rest generalizing done t with
  | nil => exact ⟨t, rfl, by rw [he, List.append_nil]; exact h⟩
  | cons g rest ih =>
    have hgo {z : State} (hz : mid (done ++ [g]) z) : ∃ v u, group (act.filter fun i => i / 32 == g) z = .ok ((), v) ∧
        eachGroup entry group act rest none v = .ok ((), u) ∧ inv gs u := by
      obtain ⟨v, hv, hinv⟩ := hstep done g rest z he hz
      obtain ⟨u, hu, hend⟩ := ih (done := done ++ [g]) (by rw [he, List.append_assoc]; rfl) hinv
      exact ⟨v, u, hv, hu, hend⟩
    cases hentryc : entry with
    | none =>
      obtain ⟨v, u, hv, hu, hend⟩ := hgo (hskip done g t hentryc h)
      rw [hentryc] at hu
      refine ⟨u, ?_, hend⟩
      rw [eachGroup]
      simp only [bind, Except.bind, hv]
      exact hu
    | some f =>
      obtain ⟨z, hz, hmid⟩ := hentry f hentryc done g rest t he h
      obtain ⟨v, u, hv, hu, hend⟩ := hgo hmid
      rw [hentryc] at hu
      refine ⟨u, ?_, hend⟩
      rw [eachGroup]
      simp only [bind, Except.bind, hz, hv, stopAt]
      exact hu

/-- Memory when such a store is through: every bit of its elements and the entries of their blocks written, no other bit
changed. -/
structure PackedMem (s : State) (foot : Nat → Prop) (vd : VR) (base array : Word) (key : Word → Nat) (scaled : Prop)
    (all : List Nat) (t : State) : Prop where
  kept : ∀ a, ¬foot a → t.byteAt a = s.byteAt a
  bits : ∀ b, touchedBy (s.fmtOf vd) all b → ∀ k, k < 8 → (t.byteAt (key (base + BitVec.ofNat 64 b))).getLsbD k =
    if (8 * b + k) / (s.fmtOf vd).width ∈ all then
      ((s.vreg vd).elem (s.fmtOf vd) ((8 * b + k) / (s.fmtOf vd).width)).testBit ((8 * b + k) % (s.fmtOf vd).width)
    else (s.byteAt (key (base + BitVec.ofNat 64 b))).getLsbD k
  entry : scaled → ∀ j ∈ all, EntryAlone s vd array key all (j / 32) → ∀ k, k < (s.entryAddr vd array (j / 32)).2 →
    t.byteAt (key (s.entryAddr vd array (j / 32)).1 + k) = BitVec.ofNat 8 ((s.vreg vd).entry (j / 32) / 2 ^ (8 * k))

theorem PackedMem.none : PackedMem s foot vd base array key scaled [] s :=
  ⟨fun _ _ => rfl, fun _ ⟨_, hj, _⟩ => absurd hj List.not_mem_nil, fun _ _ hj => absurd hj List.not_mem_nil⟩

theorem PackedOut.packedMem (h : PackedOut s foot vd base array key all done blks t)
    (hd : ∀ b j, done b j ↔ j ∈ all) (hb : scaled → ∀ j ∈ all, blks (j / 32)) :
    PackedMem s foot vd base array key scaled all t := by
  refine ⟨h.writing.during.mem, fun b htb k hk => ?_, fun hsc j hj => h.entry _ (hb hsc j hj)⟩
  split
  · next hin => exact h.new b htb k hk ((hd b _).mpr hin)
  · next hin => exact h.old b htb k hk fun hn => hin ((hd b _).mp hn)

/-- In the middle of a store, when the elements of a list are written and the entries of the blocks of another. -/
def OutAt (s : State) (foot : Nat → Prop) (vd : VR) (base array : Word) (key : Word → Nat) (scaled : Prop) (all els : List Nat)
    (blks : Nat → Prop) (t : State) : Prop :=
  PackedOut s foot vd base array key all (fun _ j => j ∈ els) (fun g => scaled ∧ blks g) t ∧ ∀ g, blks g → ∃ j ∈ all, j / 32 = g

section
variable {els : List Nat}

theorem OutAt.within (h : OutAt s foot vd base array key scaled all els blks t) :
    ∀ g, scaled ∧ blks g → scaled ∧ ∃ j ∈ all, j / 32 = g := fun g hg => ⟨hg.1, h.2 g hg.2⟩

theorem OutAt.start (hpages : s.r.pages = []) (hwf : Memory.wf s.mem) (hb : ∀ g, ¬blks g) :
    OutAt s foot vd base array key scaled all [] blks s :=
  ⟨⟨.start hpages hwf, fun _ _ _ _ h => absurd h List.not_mem_nil, fun _ _ _ _ _ => rfl, fun g hg => (hb g hg.2).elim⟩,
    fun g hg => (hb g hg).elim⟩

/-- An entry that is stored, or need not be. -/
theorem OutAt.skip {blks' : Nat → Prop} (h : OutAt s foot vd base array key scaled all els blks t)
    (hb : ∀ g, blks' g → (scaled → blks g) ∧ ∃ j ∈ all, j / 32 = g) : OutAt s foot vd base array key scaled all els blks' t :=
  ⟨h.1.congr (fun _ _ _ _ => Iff.rfl) fun g hg => ⟨hg.1, (hb g hg.2).1 hg.1⟩, fun g hg => (hb g hg).2⟩

theorem OutAt.storeEntry {blks' : Nat → Prop} {j : Nat} (h : OutAt s foot vd base array key scaled all els blks t)
    (hp : PackedPlace s foot vd base array key scaled all) (ho : StoresAtOnce s) (hsc : scaled) (hj : j ∈ all)
    (hb : ∀ g, blks' g → blks g ∨ g = j / 32) :
    ∃ u, t.storeEntry o vd array (j / 32) = .ok ((), u) ∧ OutAt s foot vd base array key scaled all els blks' u := by
  obtain ⟨hserve, hfoot⟩ := hp.entries hsc j hj
  obtain ⟨u, hu, hw, hbytes⟩ := h.1.writing.storeEntry (o := o) ho hserve hfoot
  refine ⟨u, hu, (h.1.putEntry hp hsc hj hw hbytes).congr (fun _ _ _ _ => Iff.rfl)
    fun g hg => (hb g hg.2).imp (fun h => ⟨hg.1, h⟩) id, fun g hg => ?_⟩
  rcases hb g hg with hg | rfl
  · exact h.2 g hg
  · exact ⟨j, hj, rfl⟩

end

/-- Byte-sized elements and their blocks' entries stored in order. -/
theorem State.storePackedElems {entries : Option Word} (ho : StoresAtOnce s) (hwf : Memory.wf s.mem)
    (hp : PackedPlace s foot vd base array key scaled all) (hw : (s.fmtOf vd).width = 8)
    (hscaled : scaled ↔ entries = some array) (hnone : ¬scaled → entries = none) :
    ∃ t, eachElem (entries.map fun array k (s : State) => s.storeEntry o vd array k)
      (fun i s => s.storeElem o none vd base .unit all 1 i) all none s = .ok ((), t) ∧ Through s t ∧ t.r.vect = s.r.vect ∧
      PackedMem s foot vd base array key scaled all t := by
  cases hcases : all with
  | nil => exact ⟨s, rfl, .refl, rfl, .none⟩
  | cons j rest =>
    obtain ⟨⟨-, -, -, -, -, -, hpages⟩, -⟩ := hp.bytes j ⟨j, by simp [hcases], by rw [hw]; omega⟩
    rw [← hcases]
    obtain ⟨t, ht, hend⟩ := eachElem_blocks (els := all)
      (entry := entries.map fun array k (s : State) => s.storeEntry o vd array k)
      (elem := fun i s => s.storeElem o none vd base .unit all 1 i)
      (inv := fun l t => OutAt s foot vd base array key scaled all l (fun g => ∃ j ∈ l, j / 32 = g) t)
      (mid := fun l t => OutAt s foot vd base array key scaled all l.dropLast (fun g => ∃ j ∈ l, j / 32 = g) t)
      (fun f hf l i l' t he h => by
        have hsc : scaled := by_contra fun hn => by simp [hnone hn] at hf
        rw [hscaled.mp hsc] at hf
        obtain rfl := Option.some.inj hf
        rw [List.dropLast_concat]
        exact h.storeEntry hp ho hsc (by simp [he]) fun g ⟨j, hj, hg⟩ =>
          (List.mem_append.mp hj).imp (fun hj => ⟨j, hj, hg⟩) fun hj => by rw [← hg, List.mem_singleton.mp hj])
      (fun l i l' t he hi h => by
        rw [List.dropLast_concat]
        refine h.skip fun g ⟨j, hj, hg⟩ => ⟨fun hsc => ?_, j, he ▸ (by simp [List.mem_append] at hj ⊢; tauto), hg⟩
        rcases List.mem_append.mp hj with hj | hj
        · exact ⟨j, hj, hg⟩
        · obtain rfl := List.mem_singleton.mp hj
          obtain ⟨j', hj', he'⟩ := hi.resolve_left fun hn => by simp [hscaled.mp hsc] at hn
          exact ⟨j', hj', he'.trans hg⟩)
      (fun l i l' t he h => by
        rw [List.dropLast_concat] at h
        obtain ⟨u, hu, hend⟩ := h.1.storeElem (o := o) (els := all) hp h.within ho hw (i := i) (by simp [he])
        exact ⟨u, hu, (hend.of_mem hend.writing.spent rfl).congr (fun b _ k _ => by simp) fun _ => id, h.2⟩)
      (done := []) (rest := all) rfl (blk := none) nofun (.start hpages hwf fun g ⟨_, hj, _⟩ => absurd hj List.not_mem_nil)
    exact ⟨t, ht, hend.1.writing.during.through, hend.1.writing.vect,
      hend.1.packedMem (fun _ _ => Iff.rfl) fun hsc j hj => ⟨hsc, j, hj, rfl⟩⟩

theorem mem_filter_blocks {l : List Nat} {j : Nat} : j ∈ all.filter (fun j => l.contains (j / 32)) ↔ j ∈ all ∧ j / 32 ∈ l := by
  rw [List.mem_filter, List.contains_iff_mem]

/-- Elements smaller than bytes stored group by group, each group's entry before them. -/
theorem State.storePackedGroups {entries : Option Word} (ho : StoresAtOnce s) (hwf : Memory.wf s.mem)
    (hp : PackedPlace s foot vd base array key scaled all) (hw : 0 < (s.fmtOf vd).width) (hall : all.Pairwise (· < ·))
    (hscaled : scaled ↔ entries = some array) (hnone : ¬scaled → entries = none) :
    ∃ t, eachGroup (entries.map fun array k (s : State) => s.storeEntry o vd array k)
      (fun act s => s.storeGroup o vd base act) all ((all.map (· / 32)).eraseDups) none s = .ok ((), t) ∧ Through s t ∧
      t.r.vect = s.r.vect ∧ PackedMem s foot vd base array key scaled all t := by
  cases hcases : all with
  | nil => exact ⟨s, rfl, .refl, rfl, .none⟩
  | cons j rest =>
    obtain ⟨⟨-, -, -, -, -, -, hpages⟩, -⟩ := hp.bytes ((s.fmtOf vd).width * j / 8) ⟨j, by simp [hcases], Nat.le_refl _, by omega⟩
    rw [← hcases]
    have hgroup (g : Nat) : g ∈ (all.map (· / 32)).eraseDups ↔ ∃ j ∈ all, j / 32 = g := by
      rw [List.mem_eraseDups, List.mem_map]
    have hfrom {l l' : List Nat} {g g' : Nat} (he : (all.map (· / 32)).eraseDups = l ++ g :: l') (hg : g' ∈ l ++ [g]) :
        ∃ j ∈ all, j / 32 = g' := (hgroup g').mp (by rw [he]; simp at hg ⊢; tauto)
    obtain ⟨t, ht, hend⟩ := eachGroup_all (act := all) (gs := (all.map (· / 32)).eraseDups)
      (entry := entries.map fun array k (s : State) => s.storeEntry o vd array k)
      (group := fun act s => s.storeGroup o vd base act)
      (inv := fun l t => OutAt s foot vd base array key scaled all (all.filter fun j => l.contains (j / 32)) (· ∈ l) t)
      (mid := fun l t =>
        OutAt s foot vd base array key scaled all (all.filter fun j => l.dropLast.contains (j / 32)) (fun g => scaled ∧ g ∈ l) t)
      (fun f hf l g l' t he h => by
        have hsc : scaled := by_contra fun hn => by simp [hnone hn] at hf
        rw [hscaled.mp hsc] at hf
        obtain rfl := Option.some.inj hf
        obtain ⟨j, hj, rfl⟩ := hfrom he (List.mem_append_right _ List.mem_cons_self)
        rw [List.dropLast_concat]
        exact h.storeEntry hp ho hsc hj fun g ⟨_, hg⟩ => (List.mem_append.mp hg).imp id List.mem_singleton.mp)
      (fun l g t hn h => by
        rw [List.dropLast_concat]
        exact h.skip fun g ⟨hsc, _⟩ => by simp [hscaled.mp hsc] at hn)
      (fun l g l' t he h => by
        rw [List.dropLast_concat] at h
        obtain ⟨u, hu, hend⟩ := h.1.storeGroup (o := o) hp h.within ho hw (hall.filter _) fun j hj => (List.mem_filter.mp hj).1
        refine ⟨u, hu, hend.congr (fun b _ k _ => ?_) fun g' hg => ⟨hg.1, hg⟩, fun g' hg => hfrom he hg⟩
        simp only [List.mem_filter, List.contains_iff_mem, List.mem_append, List.mem_singleton, beq_iff_eq, ← and_or_left])
      (done := []) rfl (by simpa using OutAt.start hpages hwf fun _ => id)
    refine ⟨t, ht, hend.1.writing.during.through, hend.1.writing.vect, hend.1.packedMem (fun _ j => ?_) fun hsc j hj => ⟨hsc, ?_⟩⟩
    · rw [mem_filter_blocks]
      exact and_iff_left_of_imp fun hj => (hgroup _).mpr ⟨j, hj, rfl⟩
    · exact (hgroup _).mpr ⟨j, hj, rfl⟩

/-! ### VST -/

variable {mm : MMod} {i : Instr} {sb : SR} {a b x : Word}

theorem doVstore_elems (h : FreeToRun i s) (hk : s.Packable mm.mask vd sb) (ho : StoresAtOnce s)
    (hl : LengthOk s (memNames vd .unit) mm.mask) (hwhole : (s.fmtOf vd).wholeBytes = some 1) :
    doVstore mm vd base .unit sb x s = keepBegun s.vstart (eachElem
      ((s.scaleArray vd sb x).map fun array k (t : State) =>
        t.storeEntry (s.outOf mm (s.footprint (s.fmtOf vd) .unit)) vd array k)
      (fun i t => t.storeElem (s.outOf mm (s.footprint (s.fmtOf vd) .unit)) none vd base .unit (s.activeFrom mm.mask s.vstart) 1 i)
      (s.activeFrom mm.mask s.vstart) none s) := by
  have hlists (els : List Nat) (addr : Nat → Word) (acc : Nat → Word → OutAccess) :
      s.listsFor .unit .store 1 addr els acc = .ok (fun _ => none, s) := rfl
  unfold doVstore
  dsimp only
  rw [hk.memOk h.beganAt, State.tagChecks_ok hl.1 fun _ => hl.2]
  simp only [bind, Except.bind, State.fitStrip_of_not_prot ho.prot, h.beganAt, State.elemsLeft, Nat.max_self, h.turnElems,
    hwhole, hlists, h.blockDone, pauseOr, State.releaseVec_nil ho.share]

theorem doVstore_groups (h : FreeToRun i s) (hk : s.Packable mm.mask vd sb) (ho : StoresAtOnce s)
    (hl : LengthOk s (memNames vd .unit) mm.mask) (hwhole : (s.fmtOf vd).wholeBytes = none) :
    doVstore mm vd base .unit sb x s = keepBegun s.vstart (eachGroup
      ((s.scaleArray vd sb x).map fun array k (t : State) =>
        t.storeEntry (s.outOf mm (s.footprint (s.fmtOf vd) .unit)) vd array k)
      (fun act t => t.storeGroup (s.outOf mm (s.footprint (s.fmtOf vd) .unit)) vd base act)
      (s.activeFrom mm.mask s.vstart) (((s.activeFrom mm.mask s.vstart).map (· / 32)).eraseDups) none s) := by
  unfold doVstore
  dsimp only
  rw [hk.memOk h.beganAt, State.tagChecks_ok hl.1 fun _ => hl.2]
  simp only [bind, Except.bind, State.fitStrip_of_not_prot ho.prot, h.beganAt, State.elemsLeft, Nat.max_self, h.turnElems,
    hwhole, h.blockDone, pauseOr, State.releaseVec_nil ho.share]

/-- VST of a mask, a grouped or a block-scaled register: its bits and entries lie in memory, all else as before. -/
theorem vstore_packed (he : exec i s = passVector i a b (doVstore mm vd base .unit sb x) s) (hk : s.Packable mm.mask vd sb)
    (ho : StoresAtOnce s) (hwf : Memory.wf s.mem) (h : FreeToRun i s) (hl : LengthOk s (memNames vd .unit) mm.mask)
    (hp : PackedPlace s foot vd base x key ((s.vreg vd).destKind = .grouped) (s.activeFrom mm.mask s.vstart)) :
    ∃ t, exec i s = .next t ∧ t.r.vect = { s.r.vect with vstart := 0 } ∧ t.r.scal = { s.r.scal with pc := s.pc + 8 } ∧
      t.r.strip = s.r.strip ∧ t.r.queues = s.r.queues ∧
      PackedMem s foot vd base x key ((s.vreg vd).destKind = .grouped) (s.activeFrom mm.mask s.vstart) t := by
  have harr := hk.scaleArray x
  have hsome : (s.vreg vd).destKind = .grouped ↔ s.scaleArray vd sb x = some x :=
    ⟨fun hg => harr.trans (if_pos hg), fun h => by_contra fun hn => by rw [harr, if_neg hn] at h; cases h⟩
  have hnone : (s.vreg vd).destKind ≠ .grouped → s.scaleArray vd sb x = none := fun hn => harr.trans (if_neg hn)
  obtain ⟨u, hbody, hthrough, hv, hmem⟩ : ∃ u, doVstore mm vd base .unit sb x s = keepBegun s.vstart (.ok ((), u)) ∧
      Through s u ∧ u.r.vect = s.r.vect ∧
      PackedMem s foot vd base x key ((s.vreg vd).destKind = .grouped) (s.activeFrom mm.mask s.vstart) u := by
    rcases hk.elements with ⟨hwhole, hw⟩ | ⟨hwhole, hw, -⟩
    · obtain ⟨u, hu, hrest⟩ := State.storePackedElems (o := s.outOf mm (s.footprint (s.fmtOf vd) .unit)) ho hwf hp hw hsome hnone
      exact ⟨u, (doVstore_elems h hk ho hl hwhole).trans (congrArg _ hu), hrest⟩
    · obtain ⟨u, hu, hrest⟩ := State.storePackedGroups (o := s.outOf mm (s.footprint (s.fmtOf vd) .unit)) ho hwf hp hw
        (s.pairwise_activeFrom mm.mask s.vstart) hsome hnone
      exact ⟨u, (doVstore_groups h hk ho hl hwhole).trans (congrArg _ hu), hrest⟩
  have hbegun : u.r.begun = none := by
    obtain ⟨-, -, -, -, hbegun, -⟩ := h
    rw [hthrough.worn]
    exact hbegun
  obtain ⟨t, ht, hbt, hvt, hscal, hstrip, hqs⟩ := store_ends h he hthrough hv (hbody.trans (keepBegun_ok rfl hbegun))
  obtain ⟨hkept, hbits, hentry⟩ := hmem
  exact ⟨t, ht, hvt, hscal, hstrip, hqs, hbt ▸ hkept, hbt ▸ hbits, hbt ▸ hentry⟩

end

end Sys2Proof.Machine
end

section
/-! Loads and stores of masks, grouped and block-scaled registers: the statement (O37). -/

namespace Sys2Proof.Machine
/-- Settles O37: a load cuts its elements out of the bytes that hold them, a store puts them in beside the other bits, and
each block's scale entry moves before its first element. -/
theorem scaledMemory : Obligations.ScaledMemory := by
  refine ⟨fun s m vd sa sb off key => ?_, fun s m vd sa sb off key => ?_⟩
  · intro f w base one i live byte bit read hk hp h hl hs n entry scaled hent
    have hmem {j : Nat} : j ∈ s.activeFrom m.mask s.vstart ↔ live j := by
      rw [State.mem_activeFrom, and_assoc]
    obtain ⟨t, ht, hframe, hquiet, htag, hels, hside, hentries⟩ := vload_packed (i := i) (mm := m) (vd := vd) (sb := sb)
      (base := base) (x := s.reg sb) (key := key)
      (ent := fun k => leBytesToNat (s.sideBytes (key (s.entryAddr vd (s.reg sb) k).1) (s.entryAddr vd (s.reg sb) k).2))
      rfl hk hp h hl (fun j hj c h1 h2 => hs j (hmem.mp hj) c h1 h2)
      fun hg => ⟨fun j hj => hent hg j (hmem.mp hj), fun _ => rfl⟩
    refine ⟨t, s.packedElem vd base key, ht, hframe, hquiet, htag, hels, fun j _ => ⟨?_, fun k hk => ?_⟩, hside,
      fun hg k hk => ?_⟩
    · exact Nat.mod_lt _ (Nat.two_pow_pos _)
    · exact packedNumber_testBit _ hk
    · obtain ⟨hnew, hold⟩ := hentries k hk
      exact ⟨fun ⟨j, hj, hjk⟩ => hnew hg ⟨j, hmem.mpr hj, hjk⟩, fun hj => hold fun j hj' => hj j (hmem.mp hj')⟩
  · intro f w base one i live at_ n entry scaled touched foot hk hp hprot hdet hshare _ hwf h hl hs hdist hent
    have hmem {j : Nat} : j ∈ s.activeFrom m.mask s.vstart ↔ live j := by
      rw [State.mem_activeFrom, and_assoc]
    have htouch {b : Nat} : touchedBy (s.fmtOf vd) (s.activeFrom m.mask s.vstart) b ↔ touched b :=
      exists_congr fun j => and_congr_left fun _ => hmem
    have hplace : PackedPlace s foot vd base (s.reg sb) key scaled (s.activeFrom m.mask s.vstart) :=
      { bytes := fun b hb => ⟨hs b (htouch.mp hb), .inl ⟨b, htouch.mp hb, rfl⟩⟩
        distinct := fun b b' hb hb' => hdist b b' (htouch.mp hb) (htouch.mp hb')
        entries := fun hsc j hj => ⟨(hent hsc j (hmem.mp hj)).1, fun a h1 h2 => .inr ⟨hsc, j, hmem.mp hj, h1, h2⟩⟩
        apart := fun hsc j hj b hb => (hent hsc j (hmem.mp hj)).2 b (htouch.mp hb) }
    obtain ⟨t, ht, hv, hscal, hstrip, hqs, hkept, hbits, hentry⟩ := vstore_packed (i := i) (mm := m) (sb := sb) rfl hk
      ⟨hp, hprot, hdet, hshare⟩ hwf h hl hplace
    refine ⟨t, ht, hv, hscal, hstrip, hqs, hkept, fun b hb k hk => ?_, fun hsc j hj halone => ?_⟩
    · rw [hbits b (htouch.mpr hb) k hk]
      simp only [hmem]
      rfl
    · exact hentry hsc j (hmem.mpr hj) fun j' hj' hne => halone j' (hmem.mp hj') hne

end Sys2Proof.Machine
end
